-- ==== Sys2Proof/Word.lean ====
section
/-!
DEFINITION. The word types of the Proroli model: bytes, 32- and 64-bit words, a 64-byte line, and the sparse table in one
canonical form that every replicated part of the state is kept in. Bit-field and byte-order helpers stand in Machine/Bits.lean.
-/
namespace Sys2Proof

abbrev Byte := BitVec 8
abbrev Bytes := List Byte
abbrev W32 := BitVec 32
abbrev W64 := BitVec 64
/-- A line: 64 aligned bytes of DPA (R12 terms); byte `i` is bits `[8i+7 : 8i]` (R7). -/
abbrev Line := BitVec 512
/-- A line address `DPA[47:6]` (R87, R97). -/
abbrev LineAddr := BitVec 42
abbrev Dpa := BitVec 48
abbrev Hpa := BitVec 64

/-- A sparse table: key and value pairs, keys strictly rising, no value equal to the table's default. -/
abbrev Table (α : Type) := List (Nat × α)

namespace Table

/-- The value at key `k`; `d` where the table lists none. -/
def get {α : Type} (d : α) : Table α → Nat → α
  | [], _ => d
  | (k, v) :: t, i => if k = i then v else Table.get d t i

/-- Drop the entry of key `i`. -/
def drop {α : Type} (t : Table α) (i : Nat) : Table α := t.filter (fun e => e.1 ≠ i)

/-- Insert a pair at its place in key order, after the entry of that key has been dropped. -/
def insert {α : Type} (i : Nat) (v : α) : Table α → Table α
  | [] => [(i, v)]
  | (k, w) :: t => if i < k then (i, v) :: (k, w) :: t else (k, w) :: Table.insert i v t

/-- Write `v` at key `i`, keeping the canonical form: writing the default removes the entry. -/
def set {α : Type} [DecidableEq α] (d : α) (t : Table α) (i : Nat) (v : α) : Table α :=
  if v = d then drop t i else insert i v (drop t i)

/-- Rewrite the value at key `i`. -/
def mod {α : Type} [DecidableEq α] (d : α) (t : Table α) (i : Nat) (f : α → α) : Table α :=
  set d t i (f (get d t i))

/-- The canonical form: keys strictly rising and no listed value equal to the default. -/
def wf {α : Type} [DecidableEq α] (d : α) : Table α → Bool
  | [] => true
  | [(_, v)] => decide (v ≠ d)
  | (k, v) :: (k', v') :: t => decide (k < k') && decide (v ≠ d) && wf d ((k', v') :: t)

/-- Keep the entries that satisfy `p`. -/
def keep {α : Type} (p : Nat → α → Bool) (t : Table α) : Table α := t.filter (fun e => p e.1 e.2)

/-- Rewrite every listed value; entries that become the default leave the table. -/
def mapAll {α : Type} [DecidableEq α] (d : α) (f : Nat → α → α) (t : Table α) : Table α :=
  (t.map (fun e => (e.1, f e.1 e.2))).filter (fun e => e.2 ≠ d)

/-- The first listed key (in rising order) whose value satisfies `p`. -/
def find {α : Type} (p : Nat → α → Bool) (t : Table α) : Option Nat := (t.find? (fun e => p e.1 e.2)).map (·.1)

/-- How many listed entries satisfy `p`. -/
def count {α : Type} (p : Nat → α → Bool) (t : Table α) : Nat := (t.filter (fun e => p e.1 e.2)).length

end Table
end Sys2Proof
end

