-- ==== Sys2Proof/Syntax.lean ====
section
/-!
DEFINITION. The commands of the Proroli block: one constructor of `Instr` for each row of spec/opcode_table.json, in the table's
order, with the operands the spec's rules give the row (which instance it is about, and what comes from outside the block).
-/
namespace Sys2Proof

abbrev TileId := Fin 8
/-- A host port P00–P63; a head is named by its lowest port (R12, R43). -/
abbrev PortId := Fin 64
/-- A DDR5 sub-channel D000–D127 (R12). -/
abbrev SubId := Fin 128
/-- An N-link N000–N319 (R12). -/
abbrev LinkId := Fin 320
/-- A power channel: 0–31 are E00–E31, 32 is HS (R379). -/
abbrev ChanId := Fin 33
/-- A logical device of a head, 0–15 (R45). -/
abbrev LdId := Fin 16
abbrev RingId := BitVec 16
abbrev ClassId := Fin 16
abbrev RegionId := Fin 1024
abbrev SourceId := Fin 1024
/-- A DIMM channel of a tile, 0–7 (R148). -/
abbrev DimmId := Fin 8
/-- A rank of a DIMM: package and logical ranks together, at most 16 (R149). -/
abbrev RankId := Fin 16

inductive Feed where | a | b
deriving DecidableEq, Repr

/-- The CXL MetaValue a host asks for, or MetaField No-Op (R97). -/
inductive Mv where | noop | i | s | a
deriving DecidableEq, Repr

/-- What a host answers to a BISnp: BIRspI, BIRspS, BIRspE, or any other form (R110). -/
inductive BiAns where | i | s | e | other
deriving DecidableEq, Repr

inductive AtomKind where | fetchAdd | swap | cas
deriving DecidableEq, Repr

/-- One channel's telemetry sample in the units of SV_TEL_A and SV_TEL_B (R379). -/
structure ChanSample where
  current : BitVec 16
  vout : BitVec 16
  vgs : BitVec 16
  temp : BitVec 16
deriving DecidableEq, Repr

/-- What SV's converters read at one 1 ms sample (R361, R379). Channels not listed keep their last sample. -/
structure Telemetry where
  vinA : BitVec 16
  vinB : BitVec 16
  tempA : BitVec 16
  tempB : BitVec 16
  /-- Bit i set: PRESENT_N[i] reads low (PRESENT_RAW; DESIGN CHOICE: the contacts are read with the sample, log 161). -/
  presentRaw : BitVec 2
  chans : List (ChanId × ChanSample)
deriving DecidableEq, Repr

inductive FlitMode where | none | f68 | f256 | f256lo
deriving DecidableEq, Repr

/-- A link rate (the SPEED encodings of HP_PORT_STS). -/
inductive Rate where | down | g2_5 | g8 | g16 | g32 | g64
deriving DecidableEq, Repr

/-- Who makes a register access: a function of a head, or firmware (R424). -/
inductive Agent where
  | head (h : PortId) (ld : LdId)
  | firmware
deriving DecidableEq, Repr

/-- A mailbox: function `ld` of head `head`, or its FM-owned LD when `fm` (R48, R66). -/
structure Fn where
  head : PortId
  ld : LdId
  fm : Bool
deriving DecidableEq, Repr

/-- How a secured command arrives: through mailbox registers, or in SPDM session `sid` of head `head` (R65). -/
inductive Via where
  | mailbox (f : Fn)
  | session (head : PortId) (sid : Nat)
deriving DecidableEq, Repr

/-- The PCIe and CXL features whose presence a function's configuration space tells (R41, R54). -/
inductive CfgCap where
  | aer | doe | msi | msix | ats | pri | pasid | sriov | ptm | ltr | obff | ide | tsp | flr | cxlReset | aspm
deriving DecidableEq, Repr

/-- What a configuration request reads or writes, as far as the spec gives it content (R41, R49, R53–R55, R420). -/
inductive CfgReq where
  /-- Whether the feature is present. -/
  | capability (c : CfgCap)
  | interruptPin
  | powerState
  /-- A write of the power state: 0 D0 … 3 D3hot. -/
  | setPowerState (v : BitVec 2)
  | memActiveTimeout
  | memActive
  /-- DOE Status: Data Object Ready, and the interrupt support of the DOE capability. -/
  | doeReady
  | doeInterrupt
  /-- The Register Locator's entries: BIR and offset. -/
  | registerBlock (i : Fin 2)
  /-- A read and a write of base address register `i` (R419). -/
  | bar (i : Fin 6)
  | setBar (i : Fin 6) (v : W32)
  /-- Any other register of CXL's or PCIe's layout. -/
  | other
deriving DecidableEq, Repr

/-- A CXL.mem request's address fields. -/
structure MemAddr where
  head : PortId
  ld : LdId
  hpa : Hpa
  tag : BitVec 16
deriving DecidableEq, Repr

/-- A decoder as software programs it before commit (R71, R72). -/
structure DecoderReq where
  base : Hpa
  size : W64
  skip : W64
  ways : Nat
  gran : Nat
  bi : Bool
deriving DecidableEq, Repr

/-- An AtomicOp TLP (R42, R141, R142): `size` in bytes. -/
structure AtomReq where
  kind : AtomKind
  size : Nat
  offset : BitVec 27
  operand : W64
  compare : W64
  tag : BitVec 16
deriving DecidableEq, Repr

/-- A 64-byte-or-smaller firmware memory request (R26, R307): to a DPA line, or to a line of a tile's own DRAM frames, outside the DPA space. -/
inductive FwTarget where
  | dpa (a : Dpa)
  | localFrame (tile : TileId) (frame : W32) (i : Fin 64)
deriving DecidableEq, Repr

/-- The event logs of CXL (R55): which log a record stands in. -/
inductive EvLog where | info | warning | failure | fatal | dc
deriving DecidableEq, Repr

/-- What MEM_ACC names (R358): a DPA line, or line `i` of a DRAM or NVM frame of a tile. -/
inductive TapTarget where
  | line (a : LineAddr)
  | frame (tile : TileId) (nvm : Bool) (frame : BitVec 32) (i : Fin 64)
deriving DecidableEq, Repr

/-- Media bit errors applied to a record as it is read: bits 72w+63..72w data word w, 72w+71..72w+64 its check byte, word 8 the
metadata word. -/
abbrev Flips := BitVec 648

/-- Errors on the shadow lines a protected read touches: level 0 is the tag line, level 1 + k the level-k item (R285–R289). -/
abbrev ShadowFlips := List (Nat × Flips)

/-- Module types an SPD can name (R149): all but the first two are unsupported. -/
inductive ModuleType where | rdimm | mrdimm | other
deriving DecidableEq, Repr

/-- The access timings that the SPD gives beside the refresh figures, in ps (R154): the activate, column, precharge and turnaround times of JESD79-5, and
tXS. -/
structure AccessTimes where
  tAa : Nat := 0
  tRcd : Nat := 0
  tRas : Nat := 0
  tRc : Nat := 0
  tWr : Nat := 0
  tRrd : Nat := 0
  tCcd : Nat := 0
  tCcdWr : Nat := 0
  tFaw : Nat := 0
  tWtr : Nat := 0
  tRtp : Nat := 0
  tXs : Nat := 0
deriving DecidableEq, Repr

/-- What the SPD of a DIMM reports (R149, R151, R154, R155). -/
structure Spd where
  /-- Module type. -/
  kind : ModuleType
  /-- Data rate in MT/s, host side. -/
  rate : Nat
  /-- Sub-channel width in bits. -/
  width : Nat
  /-- Device width: 4 for x4 devices, 8 for x8. -/
  dev : Nat
  /-- Device density in Gb. -/
  density : Nat
  /-- Bank groups of a device, and banks of a bank group. -/
  groups : Nat
  banks : Nat
  packageRanks : Nat
  /-- Stack height: 1, 2, 4 or 8. -/
  stack : Nat
  /-- Capacity of data in GiB. -/
  gib : Nat
  /-- tRFC1, tRFC2 and tRFCsb in ns (R154). -/
  tRfc1 : Nat
  tRfc2 : Nat
  tRfcSb : Nat
  /-- tRP and tREFSBRD in ns (R163). -/
  tRp : Nat
  tRefSbRd : Nat
  /-- The SPD, or a mode register, requires refresh management (R155). -/
  rfm : Bool
  rfmMode : Bool
  /-- The rolling accumulated activation threshold that the device reports (R155). -/
  raa : Nat
  /-- The other timings (R154). -/
  times : AccessTimes := {}
deriving DecidableEq, Repr

/-- What a sweep of one PHY setting sees (R168): the runs of consecutive passing settings, each its first and last. An entry without a sub-channel,
lane or rank stands for all of them, and the first entry that names a setting counts. Kind 6 is the DRAM's Vref, mode register 10 (R169). An entry with
`again` is of the repeat of steps 6 and 7; without one the repeat sees what the first sweep saw. -/
structure Eye where
  sub : Option SubId
  kind : Fin 7
  lane : Option (Fin 50)
  rank : Option RankId
  runs : List (Nat × Nat)
  again : Bool := false
deriving DecidableEq, Repr

/-- The population an image declares (R150, R180): its DIMMs, and the packages of its N-links, none where a link is not named. -/
structure Population where
  dimms : List (TileId × DimmId × Spd)
  pkgs : List (LinkId × Fin 3)
deriving DecidableEq, Repr

/-- The commands. -/
inductive Instr where
  /-- POWER_ON_RESET (R334). -/
  | powerOnReset
  /-- POR_RELEASE (R334). -/
  | porRelease
  /-- RESET_N_ASSERT (R336). -/
  | resetNAssert
  /-- RESET_N_DRIVE_END (R336). -/
  | resetNDriveEnd
  /-- RESET_N_RELEASE (R336). -/
  | resetNRelease
  /-- TAP_RESET (R335). -/
  | tapReset
  /-- FEED_IN_RANGE (R362). -/
  | feedInRange (f : Feed)
  /-- FEED_OUT_OF_RANGE (R363). -/
  | feedOutOfRange (f : Feed)
  /-- ORING_REVERSE (R362). -/
  | oringReverse (f : Feed)
  /-- ORING_REENABLE (R362). -/
  | oringReenable (f : Feed)
  /-- ORING_FET_SHORT (R363). -/
  | oringFetShort (f : Feed)
  /-- TELEMETRY_SAMPLE (R361). -/
  | telemetrySample (m : Telemetry)
  /-- PRESENT_QUALIFIED (R361). -/
  | presentQualified
  /-- REMOVAL (R375): `opened` gives the PRESENT_N contacts that read high. -/
  | removal (opened : BitVec 2)
  /-- CHANNEL_START (R364): `shorted` is the FET short test's finding. -/
  | channelStart (e : ChanId) (shorted : Bool)
  /-- DAMAGED_FET_TEST (R364): the gate-to-source voltage at 1 ms, in mV. -/
  | damagedFetTest (e : ChanId) (mv : Nat)
  /-- OUTPUT_REACHES_INPUT (R364). -/
  | outputReachesInput (e : ChanId)
  /-- START_LIMIT_EXPIRY (R364). -/
  | startLimitExpiry (e : ChanId)
  /-- POWER_GOOD_QUALIFIED (R365). -/
  | powerGoodQualified (e : ChanId)
  /-- CHANNEL_OVERCURRENT (R367): the shunt voltage crosses V_CB upward (`above`) or downward; `pulled` when holding V_CL has pulled
  the gate below 10 V. -/
  | channelOvercurrent (e : ChanId) (above : Bool) (pulled : Bool)
  /-- FAULT_TIMER_EXPIRY (R367). -/
  | faultTimerExpiry (e : ChanId)
  /-- FAST_TRIP (R367). -/
  | fastTrip (e : ChanId)
  /-- RETRY_OFF_TIME_EXPIRY (R369). -/
  | retryOffTimeExpiry (e : ChanId)
  /-- PRIVILEGED_RETRY_EXPIRY (R370). -/
  | privilegedRetryExpiry (e : ChanId)
  /-- ATTEMPTS_RESET (R370). -/
  | attemptsReset (e : ChanId)
  /-- IBC_PG_QUALIFIED (R372). -/
  | ibcPgQualified
  /-- IBC_PG_TIMEOUT (R372). -/
  | ibcPgTimeout
  /-- IBC_PG_FALL (R372). -/
  | ibcPgFall
  /-- TRAIL_PG_GOOD (R373). -/
  | trailPgGood (t : TileId) (k : Fin 5)
  /-- RAIL_ENABLE (R373). -/
  | railEnable (t : TileId)
  /-- TRAIL_PG_TIMEOUT (R372). -/
  | trailPgTimeout (t : TileId)
  /-- TRAIL_PG_FALL (R372). -/
  | trailPgFall (t : TileId) (k : Fin 5)
  /-- POWER_WINDOW (R333). -/
  | powerWindow
  /-- THROTTLE_DOWN (R333). -/
  | throttleDown
  /-- POWER_CAP_EXCEEDED (R333). -/
  | powerCapExceeded
  /-- POWERED_HOUR (R390). -/
  | poweredHour
  /-- SV_LINK_FRAME (R25): a frame toward SV (`toSv`) or toward T0, with its payload and the CRC-16 it carries. -/
  | svLinkFrame (toSv : Bool) (payload : Bytes) (crc : BitVec 16)
  /-- SV_LINK_RESEND (R25): by SV (`bySv`) or by T0. -/
  | svLinkResend (bySv : Bool)
  /-- SV_LINK_IDLE_FRAME (R25). -/
  | svLinkIdleFrame
  /-- SV_LINK_DOWN (R25). -/
  | svLinkDown
  /-- SV_LINK_RETRAIN (R25): the attempt succeeds or not. -/
  | svLinkRetrain (ok : Bool)
  /-- LOG_RECORD_SUBMIT (R385): TYPE, ORIGIN, SOURCE and payload as the writer gives them (R384). -/
  | logRecordSubmit (typ : Byte) (origin : Byte) (source : BitVec 16) (payload : Bytes)
  /-- LOG_RECORD_WRITE_DONE (R385): whether the margin verification passed. -/
  | logRecordWriteDone (verified : Bool)
  /-- LOG_HINT_WRITE_DONE (R392): whether the margin verification passed. -/
  | logHintWriteDone (verified : Bool)
  /-- LOG_SCAN_DONE (R394). -/
  | logScanDone
  /-- FAULT_RECORD_WRITE (R405). -/
  | faultRecordWrite
  /-- FAULT_STS_CLEAR (R402): a write to FC_STS[g]; `raised` are the sources of the group raised in the same cycle (R9). -/
  | faultStsClear (a : Agent) (g : Fin 32) (v : W32) (raised : W32)
  /-- FAULT_FORCE (R403): a write to FC_FORCE[g]. -/
  | faultForce (a : Agent) (g : Fin 32) (v : W32)
  /-- GRACE_WINDOW_EXPIRY (R407). -/
  | graceWindowExpiry (src : SourceId)
  /-- QUIESCE_COMPLETE (R407). -/
  | quiesceComplete
  /-- QUIESCE_LATE (R407). -/
  | quiesceLate
  /-- VERIFY_COMPLETE (R294): the oldest verification of tile `t` ends. -/
  | verifyComplete (t : TileId)
  /-- WINDOW_BOUNDARY (R414). -/
  | windowBoundary (t : TileId)
  /-- CNT_WIN_CFG_WRITE (R414). -/
  | cntWinCfgWrite (a : Agent) (t : TileId) (v : W32)
  /-- COUNTER_LOW_READ (R412): a 32-bit read at this BAR0 offset. -/
  | counterLowRead (h : PortId) (ld : LdId) (off : BitVec 27)
  /-- STATUS_IMAGE_REFRESH (R415). -/
  | statusImageRefresh
  /-- SETDASA (R416). -/
  | setdasa (target : BitVec 7) (addr : BitVec 7)
  /-- ENTDAA (R416). -/
  | entdaa (addr : BitVec 7)
  /-- I3C_MANDATORY_CCC (R416). -/
  | i3cMandatoryCcc (ccc : Byte)
  /-- SET_ENDPOINT_ID (R416). -/
  | setEndpointId (eid : Byte)
  /-- GET_ENDPOINT_ID (R416). -/
  | getEndpointId
  /-- GET_ENDPOINT_UUID (R416). -/
  | getEndpointUuid
  /-- GET_MCTP_VERSION_SUPPORT (R416). -/
  | getMctpVersionSupport (msgType : Byte)
  /-- GET_MESSAGE_TYPE_SUPPORT (R416). -/
  | getMessageTypeSupport
  /-- GET_VENDOR_DEFINED_MESSAGE_SUPPORT (R416). -/
  | getVendorDefinedMessageSupport (selector : Byte)
  /-- MCTP_MESSAGE_DISCARD (R416). -/
  | mctpMessageDiscard (msgType : Byte)
  /-- GET_STATUS_IMAGE_INFO (R417): the request's reserved byte. -/
  | getStatusImageInfo (reserved : Byte)
  /-- READ_STATUS_IMAGE (R417). -/
  | readStatusImage (reserved : Byte) (offset : W32) (length : BitVec 16)
  /-- I3C_RESERVED_COMMAND (R417). -/
  | i3cReservedCommand (command : Byte)
  /-- LINK_UP (R37): trained rate, width in lanes and flit mode; whether the partner is a switch. -/
  | linkUp (h : PortId) (rate : Rate) (width : Nat) (flit : FlitMode) (switch : Bool)
  /-- CXL_NEGOTIATION_FAIL (R37). -/
  | cxlNegotiationFail (h : PortId)
  /-- HEAD_READY (R50). -/
  | headReady (h : PortId)
  /-- PERST_N_ASSERT (R52): the ball of this port. -/
  | perstNAssert (p : PortId)
  /-- PERST_N_RELEASE (R52). -/
  | perstNRelease (p : PortId)
  /-- HOT_RESET (R53). -/
  | hotReset (h : PortId)
  /-- LINK_DISABLE (R53). -/
  | linkDisable (h : PortId)
  /-- SECONDARY_BUS_RESET (R53). -/
  | secondaryBusReset (h : PortId)
  /-- SURPRISE_LINK_DOWN (R53). -/
  | surpriseLinkDown (h : PortId)
  /-- CONFIGURATION_REQUEST (R49). -/
  | configurationRequest (h : PortId) (ld : LdId) (req : CfgReq)
  /-- MEM_RD (R458). -/
  | memRd (a : MemAddr) (mv : Mv)
  /-- MEM_RD_DATA (R97). -/
  | memRdData (a : MemAddr)
  /-- MEM_WR (R111). -/
  | memWr (a : MemAddr) (mv : Mv) (data : Line) (poison : Bool)
  /-- MEM_WR_PTL (R111): with its byte mask. -/
  | memWrPtl (a : MemAddr) (mv : Mv) (mask : W64) (data : Line) (poison : Bool)
  /-- MEM_INV (R97). -/
  | memInv (a : MemAddr) (mv : Mv)
  /-- MEM_CLN_EVCT (R108). -/
  | memClnEvct (a : MemAddr)
  /-- BIRSP (R110): the answer to the BISnp of this BI tag. -/
  | birsp (h : PortId) (biTag : BitVec 16) (ans : BiAns)
  /-- BICONFLICT (R112). -/
  | biconflict (h : PortId) (line : LineAddr) (biTag : BitVec 16)
  /-- ATOMIC_OP (R142). -/
  | atomicOp (h : PortId) (ld : LdId) (r : AtomReq)
  /-- POISONED_WRITE_TLP (R60). -/
  | poisonedWriteTlp (h : PortId) (ld : LdId)
  /-- DECODER_COMMIT (R73). -/
  | decoderCommit (h : PortId) (ld : LdId) (idx : Fin 8) (d : DecoderReq)
  /-- REGISTER_WRITE (R8): a write of `len` bytes, all enabled or not, to an offset of BAR0 or BAR2. -/
  | registerWrite (a : Agent) (bar2 : Bool) (off : BitVec 27) (len : Nat) (v : Line) (full : Bool)
  /-- FIRMWARE_REQUEST (R307). -/
  | firmwareRequest (t : TileId) (target : FwTarget) (wr : Option Line)
  /-- IDENTIFY (R67). -/
  | identify (f : Fn)
  /-- BACKGROUND_OPERATION_STATUS (R67). -/
  | backgroundOperationStatus (f : Fn)
  /-- GET_RESPONSE_MESSAGE_LIMIT (R67). -/
  | getResponseMessageLimit (f : Fn)
  /-- SET_RESPONSE_MESSAGE_LIMIT (R67). -/
  | setResponseMessageLimit (f : Fn) (limit : Byte)
  /-- REQUEST_ABORT_BACKGROUND_OPERATION (R67). -/
  | requestAbortBackgroundOperation (f : Fn)
  /-- GET_EVENT_RECORDS (R55): of one event log. -/
  | getEventRecords (f : Fn) (log : EvLog)
  /-- CLEAR_EVENT_RECORDS (R67): how many of the oldest records of one event log are cleared. -/
  | clearEventRecords (f : Fn) (log : EvLog) (count : Nat)
  /-- GET_EVENT_INTERRUPT_POLICY (R67). -/
  | getEventInterruptPolicy (f : Fn)
  /-- SET_EVENT_INTERRUPT_POLICY (R67): the interrupt mode asked for, 0 for none. -/
  | setEventInterruptPolicy (f : Fn) (mode : Byte)
  /-- GET_FW_INFO (R67). -/
  | getFwInfo (f : Fn)
  /-- TRANSFER_FW (R348): the whole signed image. -/
  | transferFw (f : Fn) (image : Bytes)
  /-- TRANSFER_FW_DONE (R348). -/
  | transferFwDone
  /-- ACTIVATE_FW (R348): slot B when `slotB`; `online` asks for online activation. -/
  | activateFw (f : Fn) (slotB : Bool) (online : Bool)
  /-- GET_TIMESTAMP (R67). -/
  | getTimestamp (f : Fn)
  /-- SET_TIMESTAMP (R67). -/
  | setTimestamp (f : Fn) (ns : W64)
  /-- GET_SUPPORTED_LOGS (R67). -/
  | getSupportedLogs (f : Fn)
  /-- GET_LOG (R398): the CEL, or `length` bytes of the Iluis fault log from `offset`. -/
  | getLog (f : Fn) (cel : Bool) (offset : Nat) (length : Nat)
  /-- GET_LOG_CAPABILITIES (R67). -/
  | getLogCapabilities (f : Fn) (cel : Bool)
  /-- CLEAR_LOG (R398). -/
  | clearLog (f : Fn) (cel : Bool)
  /-- GET_SUPPORTED_LOGS_SUB_LIST (R67). -/
  | getSupportedLogsSubList (f : Fn) (start : Nat) (count : Nat)
  /-- GET_SUPPORTED_FEATURES (R67). -/
  | getSupportedFeatures (f : Fn)
  /-- GET_FEATURE (R67). -/
  | getFeature (f : Fn) (id : BitVec 128)
  /-- SET_FEATURE (R67). -/
  | setFeature (f : Fn) (id : BitVec 128)
  /-- IDENTIFY_MEMORY_DEVICE (R67). -/
  | identifyMemoryDevice (f : Fn)
  /-- GET_PARTITION_INFO (R67). -/
  | getPartitionInfo (f : Fn)
  /-- GET_HEALTH_INFO (R67). -/
  | getHealthInfo (f : Fn)
  /-- GET_ALERT_CONFIGURATION (R67). -/
  | getAlertConfiguration (f : Fn)
  /-- SET_ALERT_CONFIGURATION (R67): the thresholds, as one opaque value. -/
  | setAlertConfiguration (f : Fn) (v : W64)
  /-- GET_POISON_LIST (R456): DPA and length in bytes. -/
  | getPoisonList (f : Fn) (dpa : Dpa) (len : Nat)
  /-- INJECT_POISON (R460). -/
  | injectPoison (f : Fn) (dpa : Dpa)
  /-- CLEAR_POISON (R460). -/
  | clearPoison (f : Fn) (dpa : Dpa) (data : Line)
  /-- GET_DYNAMIC_CAPACITY_CONFIGURATION (R67). -/
  | getDynamicCapacityConfiguration (f : Fn)
  /-- GET_DYNAMIC_CAPACITY_EXTENT_LIST (R67). -/
  | getDynamicCapacityExtentList (f : Fn)
  /-- ADD_DYNAMIC_CAPACITY_RESPONSE (R62): the extents the host accepts, as DPA and length. -/
  | addDynamicCapacityResponse (f : Fn) (extents : List (Dpa × Nat))
  /-- RELEASE_DYNAMIC_CAPACITY (R63). -/
  | releaseDynamicCapacity (f : Fn) (dpa : Dpa) (len : Nat)
  /-- DC_OFFER_TIMEOUT (R62): the declared extent of this index. -/
  | dcOfferTimeout (ext : Fin 2048)
  /-- GET_LD_INFO (R67). -/
  | getLdInfo (f : Fn)
  /-- GET_LD_ALLOCATIONS (R67). -/
  | getLdAllocations (f : Fn)
  /-- GET_QOS_CONTROL (R67). -/
  | getQosControl (f : Fn)
  /-- GET_QOS_STATUS (R67). -/
  | getQosStatus (f : Fn)
  /-- GET_QOS_ALLOCATED_BW (R321). -/
  | getQosAllocatedBw (f : Fn)
  /-- GET_QOS_BW_LIMIT (R321). -/
  | getQosBwLimit (f : Fn)
  /-- GET_MULTI_HEADED_INFO (R67). -/
  | getMultiHeadedInfo (f : Fn)
  /-- GET_HEAD_INFO (R67). -/
  | getHeadInfo (f : Fn) (h : PortId)
  /-- GET_DCD_INFO (R67). -/
  | getDcdInfo (f : Fn)
  /-- GET_HOST_DC_REGION_CONFIGURATION (R67). -/
  | getHostDcRegionConfiguration (f : Fn) (h : PortId) (ld : LdId)
  /-- GET_DC_REGION_EXTENT_LISTS (R67). -/
  | getDcRegionExtentLists (f : Fn) (h : PortId) (ld : LdId)
  /-- INITIATE_DYNAMIC_CAPACITY_ADD (R62): target LD, DPA start, length and tag. -/
  | initiateDynamicCapacityAdd (f : Fn) (h : PortId) (ld : LdId) (dpa : Dpa) (len : Nat) (tag : BitVec 128)
  /-- INITIATE_DYNAMIC_CAPACITY_RELEASE (R63). -/
  | initiateDynamicCapacityRelease (f : Fn) (h : PortId) (ld : LdId) (dpa : Dpa) (len : Nat) (forced : Bool)
  /-- GET_ILUIS_STATUS (R68). -/
  | getIluisStatus (f : Fn)
  /-- SET_SURROUNDINGS (R68): its input payload. -/
  | setSurroundings (f : Fn) (inp : Bytes)
  /-- GET_SURROUNDINGS (R68). -/
  | getSurroundings (f : Fn)
  /-- GET_ADMISSION_REPORT (R68). -/
  | getAdmissionReport (f : Fn) (inp : Bytes)
  /-- GET_FAULT_SUMMARY (R68). -/
  | getFaultSummary (f : Fn) (inp : Bytes)
  /-- INSTALL_KEY (R277). -/
  | installKey (v : Via) (inp : Bytes)
  /-- RETIRE_KEY (R68). -/
  | retireKey (v : Via) (inp : Bytes)
  /-- START_TWILIGHT (R301). -/
  | startTwilight (v : Via) (inp : Bytes)
  /-- GET_TWILIGHT_STATUS (R302). -/
  | getTwilightStatus (f : Fn)
  /-- READ_LOG_RECORDS (R398). -/
  | readLogRecords (f : Fn) (inp : Bytes)
  /-- UNSUPPORTED_COMMAND (R67): its opcode. -/
  | unsupportedCommand (f : Fn) (opcode : BitVec 16)
  /-- DOE_DISCOVERY (R64). -/
  | doeDiscovery (f : Fn) (index : Byte)
  /-- TABLE_ACCESS (R321). -/
  | tableAccess (f : Fn) (entry : BitVec 16)
  /-- GET_CERTIFICATE (R354): slot, offset and length. -/
  | getCertificate (f : Fn) (slot : Fin 8) (offset : Nat) (length : Nat)
  /-- CHALLENGE (R355). -/
  | challenge (f : Fn) (slot : Fin 8) (nonce : BitVec 256)
  /-- GET_MEASUREMENTS (R356): block index, 0xFF for all. -/
  | getMeasurements (f : Fn) (index : Byte)
  /-- KEY_EXCHANGE (R355): whether the requester offers R64's algorithms, whether its chain and signature verify, and the SHA-256 of
  the chain's root certificate. -/
  | keyExchange (f : Fn) (algorithms : Bool) (authentic : Bool) (root : BitVec 256)
  /-- PSK_EXCHANGE (R355). -/
  | pskExchange (f : Fn)
  /-- SET_CERTIFICATE (R354). -/
  | setCertificate (f : Fn)
  /-- GET_CSR (R354). -/
  | getCsr (f : Fn)
  /-- HEARTBEAT (R355). -/
  | heartbeat (f : Fn) (sid : Nat)
  /-- KEY_UPDATE (R355). -/
  | keyUpdate (f : Fn) (sid : Nat)
  /-- VENDOR_DEFINED_REQUEST (R65): session and vendor payload. -/
  | vendorDefinedRequest (h : PortId) (sid : Nat) (payload : Bytes)
  /-- KOIST_TRAIN_TIMEOUT (R17): Koist link number and module. -/
  | koistTrainTimeout (link : Fin 10) (module_ : Fin 4)
  /-- KOIST_MODULE_LOST (R17). -/
  | koistModuleLost (link : Fin 10) (module_ : Fin 4)
  /-- RD_SHARED (R107): the request of tile `src` for this line; `tied` are the tiles whose requests reach the same line queue in the
  same cycle (R116). -/
  | rdShared (src : TileId) (line : LineAddr) (tied : List TileId)
  /-- RD_OWN (R107). -/
  | rdOwn (src : TileId) (line : LineAddr) (tied : List TileId)
  /-- RD_CUR (R107). -/
  | rdCur (src : TileId) (line : LineAddr) (tied : List TileId)
  /-- WR_LINE (R107). -/
  | wrLine (src : TileId) (line : LineAddr) (tied : List TileId)
  /-- WR_PART (R107). -/
  | wrPart (src : TileId) (line : LineAddr) (tied : List TileId)
  /-- HOST_CE (R108). -/
  | hostCe (src : TileId) (line : LineAddr) (tied : List TileId)
  /-- FAR_ATOM (R142). -/
  | farAtom (src : TileId) (line : LineAddr) (tied : List TileId)
  /-- SNP_INV (R100): the next HOM message from `home` to `t`. -/
  | snpInv (t : TileId) (home : TileId)
  /-- SNP_SHARE (R100). -/
  | snpShare (t : TileId) (home : TileId)
  /-- SNP_OWN (R100). -/
  | snpOwn (t : TileId) (home : TileId)
  /-- SNP_CUR (R100). -/
  | snpCur (t : TileId) (home : TileId)
  /-- DAT_S (R101). -/
  | datS (t : TileId) (home : TileId)
  /-- DAT_E (R101). -/
  | datE (t : TileId) (home : TileId)
  /-- DAT_X (R101). -/
  | datX (t : TileId) (home : TileId)
  /-- GRANT (R101). -/
  | grant (t : TileId) (home : TileId)
  /-- FWD_NOTE (R101). -/
  | fwdNote (t : TileId) (home : TileId)
  /-- WB_ACK (R101). -/
  | wbAck (t : TileId) (home : TileId)
  /-- CMP (R97). -/
  | cmp (t : TileId) (home : TileId)
  /-- BISNP_REQ (R110). -/
  | biSnpReq (t : TileId) (home : TileId)
  /-- BI_ACK_REQ (R112). -/
  | biAckReq (t : TileId) (home : TileId)
  /-- SNP_RSP_I (R106): the next RSP message from `t` to `home`. -/
  | snpRspI (t : TileId) (home : TileId)
  /-- SNP_RSP_I_DATA (R106). -/
  | snpRspIData (t : TileId) (home : TileId)
  /-- SNP_RSP_FWD (R109). -/
  | snpRspFwd (t : TileId) (home : TileId)
  /-- SNP_RSP_FWD_S (R107). -/
  | snpRspFwdS (t : TileId) (home : TileId)
  /-- WB_DATA (R106). -/
  | wbData (t : TileId) (home : TileId)
  /-- BI_RSP_FWD (R106). -/
  | biRspFwd (t : TileId) (home : TileId)
  /-- HOST_WB (R111). -/
  | hostWb (t : TileId) (home : TileId)
  /-- BI_CONFLICT_FWD (R112). -/
  | biConflictFwd (t : TileId) (home : TileId)
  /-- FDAT_S (R101): forwarded data for this line reaches tile `t`. -/
  | fdatS (t : TileId) (line : LineAddr)
  /-- FDAT_E (R101). -/
  | fdatE (t : TileId) (line : LineAddr)
  /-- FDAT_M (R101). -/
  | fdatM (t : TileId) (line : LineAddr)
  /-- FDAT_X (R101). -/
  | fdatX (t : TileId) (line : LineAddr)
  /-- ATOM_RES (R142). -/
  | atomRes (t : TileId) (home : TileId)
  /-- MEDIA_READ_DATA (R106): the media errors the record meets. -/
  | mediaReadData (line : LineAddr) (flips : Flips) (shadow : ShadowFlips)
  /-- LINE_QUEUE_SERVE (R122). -/
  | lineQueueServe (line : LineAddr)
  /-- BISNP_TIMEOUT (R113). -/
  | bisnpTimeout (line : LineAddr) (h : PortId)
  /-- DIR_EVICTION_START (R119): the victim's line. -/
  | dirEvictionStart (line : LineAddr)
  /-- DEFERRED_MISS_SEND (R130). -/
  | deferredMissSend (t : TileId) (line : LineAddr)
  /-- HOLD_QUEUE_RELEASE (R313). -/
  | holdQueueRelease (h : PortId)
  /-- REQ_AGE_LIMIT (R314): the REQ message of tile `src` for this line, at a port of tile `t`. -/
  | reqAgeLimit (t : TileId) (src : TileId) (line : LineAddr)
  /-- CLEAN (R137): a write to NC_RANGE_CTL[t] with START and this OP. -/
  | clean (a : Agent) (t : TileId)
  /-- INV (R137). -/
  | inv (a : Agent) (t : TileId)
  /-- CLEAN_ALL (R137). -/
  | cleanAll (a : Agent) (t : TileId)
  /-- INV_ALL (R137). -/
  | invAll (a : Agent) (t : TileId)
  /-- PRELOAD_LOCK (R134). -/
  | preloadLock (a : Agent) (t : TileId)
  /-- UNLOCK (R134). -/
  | unlock (a : Agent) (t : TileId)
  /-- RANGE_OP_DONE (R137). -/
  | rangeOpDone (t : TileId)
  /-- NC_WAY_CFG_WRITE (R132). -/
  | ncWayCfgWrite (a : Agent) (t : TileId) (v : W32)
  /-- SCRATCH_READ (R136): window offset, bytes read and the upset the stored word shows. -/
  | scratchRead (t : TileId) (off : BitVec 26) (len : Nat) (flips : BitVec 72)
  /-- SCRATCH_WRITE (R136). -/
  | scratchWrite (t : TileId) (off : BitVec 26) (len : Nat) (v : W64) (flips : BitVec 72)
  /-- FILL_DRAIN_DONE (R90): the fill of this number. -/
  | fillDrainDone (fill : Nat)
  /-- FILL_PAGE (R90): fill and DPA page number. -/
  | fillPage (fill : Nat) (page : BitVec 36)
  /-- REFRESH_INTERVAL (R160). -/
  | refreshInterval (d : SubId) (half : Bool)
  /-- IDLE_REFRESH (R161). -/
  | idleRefresh (d : SubId) (rank : RankId) (bank : Fin 4)
  /-- REFRESH_DEADLINE (R162). -/
  | refreshDeadline (d : SubId) (rank : RankId)
  /-- RFM_THRESHOLD (R155): the bank's activation count reaches its threshold. -/
  | rfmThreshold (d : SubId) (rank : RankId) (bg : Fin 8) (bank : Fin 4)
  /-- AGE_LIMIT (R157): the oldest request that has waited longer than AGE_MAX is a read or a write. -/
  | ageLimit (d : SubId) (read : Bool)
  /-- MR4_READ (R159): whether mode register 4 asks for twice the rate, and whether it is beyond the operating range. -/
  | mr4Read (d : SubId) (rank : RankId) (twice : Bool) (beyond : Bool)
  /-- DUSK_IDLE (R164). -/
  | duskIdle (t : TileId) (c : DimmId)
  /-- DUSK_ENTRY_DONE (R165). -/
  | duskEntryDone (t : TileId) (c : DimmId)
  /-- DUSK_EXIT_DONE (R166). -/
  | duskExitDone (t : TileId) (c : DimmId)
  /-- SCRUB_TICK (R172): the media errors the scrubbed record meets. -/
  | scrubTick (d : SubId) (flips : Flips)
  /-- SCRUB_CATCH_UP_WAKE (R173). -/
  | scrubCatchUpWake (t : TileId) (c : DimmId)
  /-- PMIC_POLL (R151). -/
  | pmicPoll (t : TileId) (c : DimmId) (faulty : Bool)
  /-- PHY_LOCK_LOST (R178). -/
  | phyLockLost (t : TileId) (c : DimmId)
  /-- PHY_LOCK_TIMEOUT (R178). -/
  | phyLockTimeout (t : TileId) (c : DimmId)
  /-- REEVALUATION_DONE (R328). -/
  | reevaluationDone
  /-- WRITE_READ_COMPARE (R167): a write of 1 to START of DR_TRN_CTL[d] with this OP; `v` holds the register's other fields. -/
  | writeReadCompare (a : Agent) (d : SubId) (v : W32)
  /-- READ_COMPARE (R167). -/
  | readCompare (a : Agent) (d : SubId) (v : W32)
  /-- WRITE_ONLY (R167). -/
  | writeOnly (a : Agent) (d : SubId) (v : W32)
  /-- READ_TRAINING_PATTERN (R167). -/
  | readTrainingPattern (a : Agent) (d : SubId) (v : W32)
  /-- WRITE_LEVELING_SAMPLE (R167). -/
  | writeLevelingSample (a : Agent) (d : SubId) (v : W32)
  /-- TRAINING_RUN_DONE (R167): failing bits and the lanes that failed, or captured 1. -/
  | trainingRunDone (d : SubId) (errs : Nat) (lanes : BitVec 40)
  /-- DR_PHY_ACC_WRITE (R167). -/
  | drPhyAccWrite (a : Agent) (d : SubId) (v : W32)
  /-- NLINK_IDLE_FLIT (R189): the 256 bytes that arrive. -/
  | nlinkIdleFlit (n : LinkId) (flit : Bytes)
  /-- NLINK_PAYLOAD_FLIT (R189). -/
  | nlinkPayloadFlit (n : LinkId) (flit : Bytes)
  /-- NLINK_NAK_FLIT (R191). -/
  | nlinkNakFlit (n : LinkId) (flit : Bytes)
  /-- NLINK_ACK_TIMEOUT (R191). -/
  | nlinkAckTimeout (n : LinkId)
  /-- NLINK_REPLAY_LIMIT (R191). -/
  | nlinkReplayLimit (n : LinkId)
  /-- NLINK_RETRAIN_DONE (R191). -/
  | nlinkRetrainDone (n : LinkId) (ok : Bool)
  /-- NLINK_TRAINING_START (R187). -/
  | nlinkTrainingStart (t : TileId) (found : List (LinkId × Fin 3))
  /-- NLINK_TRAIN_STEP_TIMEOUT (R187). -/
  | nlinkTrainStepTimeout (n : LinkId) (step : Fin 8)
  /-- NLINK_TRAINING_DONE (R187): the packages found, and the saved maps and wear loaded from the metadata areas (region or block
  key and its saved words). -/
  | nlinkTrainingDone (n : LinkId)
  /-- RDD (R190): the next RDD received on the link. -/
  | rdd (n : LinkId)
  /-- PGC (R190). -/
  | pgc (n : LinkId)
  /-- MRDD (R190). -/
  | mrdd (n : LinkId)
  /-- MPGC (R190). -/
  | mpgc (n : LinkId)
  /-- STR (R190). -/
  | str (n : LinkId)
  /-- GAP_MOVE (R196): link, package and rotation region. -/
  | gapMove (n : LinkId) (pkg : Fin 2) (region : Fin 1024)
  /-- GAP_MOVE_DONE (R196). -/
  | gapMoveDone (n : LinkId) (pkg : Fin 2) (region : Fin 1024)
  /-- MAP_STATE_SAVE (R196). -/
  | mapStateSave (n : LinkId) (pkg : Fin 2) (region : Fin 1024)
  /-- BLOCK_RETIRE (R198): the physical block. -/
  | blockRetire (n : LinkId) (pkg : Fin 2) (block : BitVec 23)
  /-- BLOCK_RETIRE_DONE (R198). -/
  | blockRetireDone (n : LinkId) (pkg : Fin 2) (block : BitVec 23)
  /-- WEAR_STATE_SAVE (R197). -/
  | wearStateSave (n : LinkId) (pkg : Fin 2) (block : BitVec 23)
  /-- ABSORB_SLOT_FREED (R201). -/
  | absorbSlotFreed (t : TileId)
  /-- ABSORB_STALL (R201). -/
  | absorbStall (t : TileId)
  /-- DESTAGE_HIGH_WATER (R202). -/
  | destageHighWater (t : TileId)
  /-- DESTAGE_MAX_AGE (R202). -/
  | destageMaxAge (t : TileId)
  /-- DESTAGE_DONE (R203): the stripe, by group rank and address. -/
  | destageDone (t : TileId) (group : Fin 4) (stripe : BitVec 31)
  /-- DRIFT_REFRESH_BLOCK (R200). -/
  | driftRefreshBlock (n : LinkId) (pkg : Fin 2) (block : BitVec 23)
  /-- DRIFT_REFRESH_CHUNK (R200). -/
  | driftRefreshChunk (n : LinkId) (pkg : Fin 2) (offset : Byte)
  /-- DRIFT_SKIP (R224). -/
  | driftSkip (t : TileId)
  /-- DRIFT_LATE (R224). -/
  | driftLate (n : LinkId) (pkg : Fin 2) (block : BitVec 23)
  /-- REBUILD_STRIPE (R208). -/
  | rebuildStripe (t : TileId) (group : Fin 4)
  /-- EPOCH_WALK_ENTRY (R212): the DPA page number. -/
  | epochWalkEntry (page : BitVec 36)
  /-- PROMOTION_START (R215). -/
  | promotionStart (t : TileId)
  /-- DEMOTION_START (R216). -/
  | demotionStart (t : TileId)
  /-- MIGRATION_COPY (R219): the line of the page whose source data has arrived, and its media errors. -/
  | migrationCopy (page : BitVec 36) (i : Fin 64) (flips : Flips)
  /-- MIGRATION_COMPLETE (R219). -/
  | migrationComplete (page : BitVec 36)
  /-- RING_TAIL_WRITE (R231). -/
  | ringTailWrite (a : Agent) (r : RingId) (v : W32)
  /-- RING_CQ_HEAD_WRITE (R231). -/
  | ringCqHeadWrite (a : Agent) (r : RingId) (v : W32)
  /-- RING_ENABLE (R229). -/
  | ringEnable (a : Agent) (r : RingId)
  /-- RING_INIT_DONE (R229). -/
  | ringInitDone (r : RingId)
  /-- RING_ABORT (R240). -/
  | ringAbort (a : Agent) (r : RingId) (enable : Bool)
  /-- RING_DISABLE (R242). -/
  | ringDisable (a : Agent) (r : RingId)
  /-- RING_CFG_WRITE (R227). -/
  | ringCfgWrite (a : Agent) (r : RingId) (v : W32)
  /-- RING_BASE_WRITE (R227): RING_CBASE when `cq`, RING_DBASE otherwise. -/
  | ringBaseWrite (a : Agent) (r : RingId) (cq : Bool) (v : W64)
  /-- DESCRIPTOR_FETCH (R232). -/
  | descriptorFetch (t : TileId) (r : RingId)
  /-- JOB_START (R234): the job of this descriptor count. -/
  | jobStart (r : RingId) (n : W32)
  /-- ABORT_USER_READ (R240). -/
  | abortUserRead (r : RingId)
  /-- PART_DISPATCH (R235): the job's next part. -/
  | partDispatch (r : RingId) (n : W32)
  /-- PART_REPORT (R236): part `j` of the job; `lost` when the report is lost on the way (R461). -/
  | partReport (r : RingId) (n : W32) (j : Nat) (lost : Bool)
  /-- INGEST_RAW_PART (R267). -/
  | ingestRawPart (r : RingId) (n : W32) (j : Nat)
  /-- COMPRESS_DONE (R267). -/
  | compressDone (r : RingId) (n : W32) (j : Nat)
  /-- INGEST_ZHOQ_PART (R268). -/
  | ingestZhoqPart (r : RingId) (n : W32) (j : Nat)
  /-- VALIDATION_DONE (R268). -/
  | validationDone (r : RingId) (n : W32) (j : Nat)
  /-- INGEST_COMMIT (R271): tile `t` applies its part of the job's commit. -/
  | ingestCommit (t : TileId) (r : RingId) (n : W32)
  /-- DECOMPRESSOR_GRANT (R251). -/
  | decompressorGrant (t : TileId)
  /-- DECOMPRESS_END (R251): region and block number, and the media errors its store lines met: 0 the map line, 1 + k line k of the run. -/
  | decompressEnd (region : RegionId) (block : BitVec 36) (flips : List (Nat × Flips))
  /-- DECODE_RETRY (R254). -/
  | decodeRetry (region : RegionId) (block : BitVec 36)
  /-- TWILIGHT_LINE (R303): the engine of tile `t` serves its pass on this region. -/
  | twilightLine (t : TileId) (region : RegionId) (flips : Flips)
  /-- TWILIGHT_PASS_REMOVE (R305). -/
  | twilightPassRemove (region : RegionId)
  /-- EXTEST (R358): the values shifted into the boundary chain. -/
  | extest (chain : List Bool)
  /-- IDCODE (R358). -/
  | idcode
  /-- SAMPLE_PRELOAD (R358): the values preloaded. -/
  | samplePreload (chain : List Bool)
  /-- FUSE_RD (R358). -/
  | fuseRd
  /-- ANCHOR_PROG (R357): the 256 bits shifted in. -/
  | anchorProg (v : BitVec 256)
  /-- DAWN_RD (R358). -/
  | dawnRd
  /-- ARRAY_ACC (R358): array 0 near cache, 1 directory cache, 2 trackers; index; write data. -/
  | arrayAcc (array : Fin 3) (index : Nat) (wr : Option (BitVec 640))
  /-- MEM_ACC (R358): a DPA line or a line of a tile-local frame, read or written. -/
  | memAcc (target : TapTarget) (wr : Option Line)
  /-- CRY_ACC (R358): a tag line, counter line or node, root store or cached line of the crypto block, by 4 × its key + which. -/
  | cryAcc (key : Nat) (wr : Option Line)
  /-- MP_DEBUG (R358): halt or release the management processor of a tile. -/
  | mpDebug (t : TileId) (halt : Bool)
  /-- BYPASS (R358). -/
  | bypass (opcode : Byte)
  /-- CLOCK_GOOD (R352): tile and RST_CLK_STS bit. -/
  | clockGood (t : TileId) (bit : Fin 7)
  /-- CLOCK_GOOD_TIMEOUT (R351). -/
  | clockGoodTimeout (t : TileId)
  /-- CLOCK_GOOD_LOST (R352). -/
  | clockGoodLost (t : TileId) (bit : Fin 7)
  /-- RST_BLK_CTL_WRITE (R352). -/
  | rstBlkCtlWrite (a : Agent) (t : TileId) (v : W32)
  /-- DAWN_1 (R349). -/
  | dawn1
  /-- DAWN_2 (R349). -/
  | dawn2
  /-- DAWN_3 (R349). -/
  | dawn3 (declared : Option Population)
  /-- DAWN_4 (R349): the boot nonce and the tree keys drawn (R278, R288), the DIMMs whose SPD was read (R151), and the sub-channels that
  failed training with the step they failed (R169, R170). -/
  | dawn4 (nonce : W64) (treeKeys : List (BitVec 256)) (dimms : List (TileId × DimmId × Spd)) (eyes : List Eye) (failed : List (SubId × Fin 10))
  /-- DAWN_5 (R349). -/
  | dawn5
  /-- DAWN_6 (R349). -/
  | dawn6
  /-- CLOSE_IDLE_PRECHARGE (R157). -/
  | closeIdlePrecharge (d : SubId) (rank : RankId) (bg : Fin 8) (bank : Fin 4)
  /-- LINK_ENTRY_TO_RECOVERY (R53). -/
  | linkEntryToRecovery (h : PortId)
deriving DecidableEq, Repr

end Sys2Proof
end

