-- ==== Sys2Proof/Decode.lean ====
section
/-!
DEFINITION. The command a word spells: spec/opcode_table.json gives no row any bits, so no word spells one.
-/
namespace Sys2Proof

/-- The command that `nbits` bits of `w` spell by the table's bits: none, for no row gives bits. -/
def decodeTableWord (_nbits _w : Nat) : Option Instr := none

end Sys2Proof
end

