-- ==== Sys2Proof/Config.lean ====
section
/-!
DEFINITION. What the spec leaves open: free values, each a constant with no body, applied to the model's own counter or to the operands it
depends on. Nothing can be proved of the value of one; each is named in a log entry.
-/
namespace Sys2Proof.Config

/-- What a log-store cell holds after a write that fails verification (R387, R392), and the address line 16 × page + cell (log 7). -/
opaque failedCell (free : Nat) (cell : Nat) : BitVec 128

/-- How many of its first cells a write torn by power-on reset has programmed (R396), modulo 5 (log 7). -/
opaque tornCells (free : Nat) : Nat

/-- Which of `n` cached lines the counter cache evicts (R289 states no replacement policy), modulo `n` (log 21). -/
opaque cacheVictim (free : Nat) (n : Nat) : Nat

/-- Whether the placement-entry cache writes an entry back as a request changes it (R211 says when nowhere; log 124). -/
opaque placeWriteBack (free : Nat) : Bool

/-- The set of the counter cache that an item lies in (R289 states 16 ways and no index), modulo 2,048 (log 21). -/
opaque counterSet (item : Nat) : Nat

/-- Which metadata chunk an MRD or MPG names: the layout of the metadata area is not given (R190, R196, R197; log 26). -/
opaque metaIndex (free : Nat) : Nat

/-- The bytes an MPG carries (R190; log 26). -/
opaque metaBytes (free : Nat) : Bytes

/-- Whether a device id and revision are those of a supported NM-256 (R187 states no list; log 27). -/
opaque supportedPackage (id rev : Nat) : Bool

/-- The coded body, without its 3 header bits, that a compressor makes of the k-th DEFLATE block of a Zhoq block under EFFORT, with dynamic or with fixed
codes (R261 states its limits and not its choice of matches and codes; log 28). -/
opaque codedBody (block : Bytes) (k effort : Nat) (dynamic : Bool) : List Bool

/-- Which of its 8 ways a full set of the block-map cache gives up (R249 states no replacement policy), modulo 8 (log 125). -/
opaque mapVictim (free : Nat) : Nat

/-- What a scratch word of 64 data bits and 8 check bits holds before it has been written since reset (R132, R136; log 48). -/
opaque scratchWord (free : Nat) : BitVec 72

/-- The firmware build number (R68 gives no value): of recovery firmware, or of the image whose firmware section has this digest (log 59). -/
opaque buildNumber (recovery : Bool) (fw : BitVec 256) : W64

/-- The endpoint's UUID of a device (R416 gives none; log 30). -/
opaque endpointUuid (serial : W64) : BitVec 128

/-- The Vendor ID of Iluis as the Vendor ID register reports it (R65, R416 name it and give no value; log 30). -/
opaque vendorId : BitVec 16

/-- What training leaves where the spec fixes no value (R168, R169; log 120): the setting at which a sweep ends, by kind; the addresses and bursts, the error
count and the lane results of the run of the step at which a sub-channel fails. -/
opaque sweepEnd (kind : Nat) : BitVec 10
opaque trainCtl (d : Nat) : W32
opaque trainErrs (d : Nat) : BitVec 16
opaque trainLanes (d : Nat) : BitVec 40

/-- What the I3C target answers to GETPID, GETDCR, GETCAPS and GETSTATUS, and to GETBCR in the bits that R416 does not fix (R416 names the common command
codes and gives no contents; log 30). -/
opaque i3cPid (serial : W64) : BitVec 48
opaque i3cBcr : Byte
opaque i3cDcr : Byte
opaque i3cCaps : W32
opaque i3cStatus (free : Nat) : BitVec 16

/-- The words of the CXL component and device registers to which the spec gives no content (R420; log 117). -/
opaque cxlReg (off : Nat) : W32

/-- Byte `i` of the mailbox payload of a function whose last command has answered: the answer's encoding is CXL's (R420; log 117). -/
opaque payloadByte (free i : Nat) : Byte

/-- What the boundary chain captures from the pins (R358; log 31). -/
opaque boundaryCapture (free : Nat) : Nat

/-- SHA-256 of the mask ROM, and of recovery firmware (R356; log 60). -/
opaque romDigest : BitVec 256
opaque recoveryDigest : BitVec 256

/-- The device's certificate chain of slot 0 (R354 names its certificates and not their bytes; log 60). -/
opaque certChain (serial : W64) : Bytes

/-- A signature by the device identity key over a transcript (R354: RSA-3072, whose padding is not given; log 60). -/
opaque signature (key : BitVec 3072) (transcript : Bytes) : Nat

/-- How long a rewrite of the option block takes, in µs, by the rewrite's number (R348 gives no time; log 162). -/
opaque rewriteUs (free : Nat) : Nat

/-- The nonce the device draws for a challenge (R355; log 60). -/
opaque spdmNonce (free : Nat) : BitVec 256

end Sys2Proof.Config
end

