-- ==== Sys2Proof/Machine/Bits.lean ====
section
/-!
DEFINITION. Bit fields, little-endian bytes (R7), CRC-16 and CRC-32, and the parity helpers the rest of the model uses.
-/
namespace Sys2Proof.Machine

/-- Bits [hi:lo] of a 32-bit word, as a number (R7). -/
def fld (w : W32) (hi lo : Nat) : Nat := (w.toNat >>> lo) % 2 ^ (hi - lo + 1)

/-- Bit `i` of a word. -/
def bit (w : W32) (i : Nat) : Bool := w.getLsbD i

/-- A word from fields: each pair is the field's low bit and its value. -/
def word (l : List (Nat × Nat)) : W32 := BitVec.ofNat 32 (l.foldl (fun a p => a ||| (p.2 <<< p.1)) 0)

def b2n (b : Bool) : Nat := if b then 1 else 0

/-- `a` where the mask bit is 1, `b` elsewhere. -/
def merge32 (mask a b : W32) : W32 := (a &&& mask) ||| (b &&& ~~~mask)

def setBit {n : Nat} (w : BitVec n) (i : Nat) (b : Bool) : BitVec n :=
  if b then w ||| (1#n <<< i) else w &&& ~~~(1#n <<< i)

/-- Addition that stops at `m`. -/
def satAdd (a b m : Nat) : Nat := min (a + b) m

/-- A value brought into [lo, hi]. -/
def clampN (lo hi v : Nat) : Nat := min (max v lo) hi

/-- The little-endian number of a byte string (R7). -/
def leNat : Bytes → Nat
  | [] => 0
  | b :: t => b.toNat + 256 * leNat t

/-- `n` little-endian bytes of a number (R7). -/
def leBytes : Nat → Nat → Bytes
  | 0, _ => []
  | n + 1, v => BitVec.ofNat 8 v :: leBytes n (v / 256)

/-- The big-endian number of an octet string. -/
def beNat (l : Bytes) : Nat := leNat l.reverse

def beBytes (n v : Nat) : Bytes := (leBytes n v).reverse

/-- `n` bytes of a string from `off`, missing bytes reading 0. -/
def slice (l : Bytes) (off n : Nat) : Bytes :=
  let t := (l.drop off).take n
  t ++ List.replicate (n - t.length) 0#8

/-- The little-endian field of `n` bytes at `off`. -/
def leAt (l : Bytes) (off n : Nat) : Nat := leNat (slice l off n)

/-- Byte `i` of a line (R83). -/
def lineByte (d : Line) (i : Nat) : Byte := BitVec.ofNat 8 (d.toNat >>> (8 * i))

def lineBytes (d : Line) : Bytes := leBytes 64 d.toNat

def bytesLine (l : Bytes) : Line := BitVec.ofNat 512 (leNat l)

/-- Data word `w` of a line (R83). -/
def lineWord (d : Line) (w : Nat) : W64 := BitVec.ofNat 64 (d.toNat >>> (64 * w))

/-- The line of eight data words. -/
def wordsLine (f : Nat → W64) : Line :=
  (List.range 8).foldl (fun a w => a ||| (BitVec.ofNat 512 (f w).toNat <<< (64 * w))) 0#512

/-- A bit mask of a line's bytes, from one bit per byte. -/
def byteMask (m : W64) : Line :=
  (List.range 64).foldl (fun a i => if m.getLsbD i then a ||| (255#512 <<< (8 * i)) else a) 0#512

def mergeLine (m : W64) (new old : Line) : Line := (new &&& byteMask m) ||| (old &&& ~~~(byteMask m))

/-- Number of ones among the low `n` bits of a number. -/
def ones : Nat → Nat → Nat
  | 0, _ => 0
  | n + 1, v => v % 2 + ones n (v / 2)

def oddParity (n v : Nat) : Bool := ones n v % 2 = 1

/-- One byte into a CRC-16 with polynomial 0x1021, most significant bit first (R25, R389). -/
def crc16Byte (c : BitVec 16) (b : Byte) : BitVec 16 :=
  (List.range 8).foldl (fun c _ => if c.getLsbD 15 then (c <<< 1) ^^^ 0x1021#16 else c <<< 1)
    (c ^^^ (b.zeroExtend 16 <<< 8))

/-- CRC-16, polynomial 0x1021, initial value 0xFFFF (R25, R389). -/
def crc16 (l : Bytes) : BitVec 16 := l.foldl crc16Byte 0xFFFF#16

/-- One byte into the reflected CRC-32 of polynomial 0x04C1_1DB7 (R189). -/
def crc32Byte (c : W32) (b : Byte) : W32 :=
  (List.range 8).foldl (fun c _ => if c.getLsbD 0 then (c >>> 1) ^^^ 0xEDB88320#32 else c >>> 1)
    (c ^^^ b.zeroExtend 32)

/-- The CRC-32 of R189: reflected, initial value and final XOR all ones. -/
def crc32 (l : Bytes) : W32 := ~~~(l.foldl crc32Byte 0xFFFFFFFF#32)

/-- Every place `i` below `n` whose bit is set. -/
def bitsOf {m : Nat} (n : Nat) (w : BitVec m) : List Nat := (List.range n).filter (fun i => w.getLsbD i)

def hexDigit (c : Char) : Nat := if '0' ≤ c ∧ c ≤ '9' then c.toNat - 48 else c.toNat - 87

/-- The ASCII bytes of a name (R344). -/
def ascii (s : String) : Bytes := s.toList.map (fun c => BitVec.ofNat 8 c.toNat)

end Sys2Proof.Machine
end

