-- ==== Sys2Proof/Machine/FaultMap.lean ====
section
/-!
DEFINITION. The fault source map (R399, R401): the named sources, their index, default class and which are fixed.
-/
namespace Sys2Proof.Machine

/-- The fault sources a tile slice raises (R401). -/
inductive TileSrc where
  | ncCohProto | haCohProto | haDirParity | haBiTimeout | ncScrUe | drOvertemp | drTrainFail | drCeRate | drUe | drUeRate | drChLost
  | nlTrainFail | nlProto | nlLinkLost | nlWorn | nlSpareLow | nlUe | nlCeRate | nlAbsLost | nlGroupLost | nlDriftLate
  | trNoframe | trMigLost | jeCqLost | pkMapUe | pkStoreUe | pkDecode
  | cryTagFail | cryTreeFail | cryOndiePar | cryTagUe | cryTreeUe | cryNoKey | cryKeyReq | cryMetaKey | cryCtrEnd
  | kfModuleLost | kfLinkLost | rstClkLost | hpNegFail | hpLinkDown | svLinkLost | qosUnadmitted | qosPowerCap
deriving DecidableEq, Repr

/-- Local index of a tile source (R401). -/
def TileSrc.local : TileSrc → Nat
  | .ncCohProto => 0 | .haCohProto => 1 | .haDirParity => 2 | .haBiTimeout => 3 | .ncScrUe => 4
  | .drOvertemp => 8 | .drTrainFail => 9 | .drCeRate => 10 | .drUe => 11 | .drUeRate => 12 | .drChLost => 13
  | .nlTrainFail => 16 | .nlProto => 17 | .nlLinkLost => 18 | .nlWorn => 19 | .nlSpareLow => 20 | .nlUe => 21 | .nlCeRate => 22
  | .nlAbsLost => 23 | .nlGroupLost => 24 | .nlDriftLate => 25
  | .trNoframe => 28 | .trMigLost => 29 | .jeCqLost => 32 | .pkMapUe => 33 | .pkStoreUe => 34 | .pkDecode => 35
  | .cryTagFail => 40 | .cryTreeFail => 41 | .cryOndiePar => 42 | .cryTagUe => 43 | .cryTreeUe => 44 | .cryNoKey => 45
  | .cryKeyReq => 46 | .cryMetaKey => 47 | .cryCtrEnd => 48
  | .kfModuleLost => 52 | .kfLinkLost => 53 | .rstClkLost => 54 | .hpNegFail => 55 | .hpLinkDown => 56 | .svLinkLost => 57
  | .qosUnadmitted => 60 | .qosPowerCap => 61

/-- The fault sources of the SV slice (R401). -/
inductive SvSrc where
  | feedLost | orShort | hsFault | tilePwr | efFault | fetDamaged | latched | fetHot | lsRetire | lsWorn | lsHintFail | quiesceLate
deriving DecidableEq, Repr

def SvSrc.local : SvSrc → Nat
  | .feedLost => 0 | .orShort => 1 | .hsFault => 2 | .tilePwr => 3 | .efFault => 4 | .fetDamaged => 5 | .latched => 6 | .fetHot => 7
  | .lsRetire => 8 | .lsWorn => 9 | .lsHintFail => 10 | .quiesceLate => 16

/-- Source index of a tile source: 120 × t + local (R399). -/
def tileSrc (t : Nat) (k : TileSrc) : Nat := 120 * t + k.local

/-- Source index of an SV source: 960 + local (R399). -/
def svSrc (k : SvSrc) : Nat := 960 + k.local

/-- Local indices of tile sources of default class SERVICE and FATAL (R401). -/
def tileService : List Nat := [8, 9, 10, 12, 13, 16, 18, 19, 22, 24, 25, 44, 52, 53, 54, 57, 60]
def tileFatal : List Nat := [0, 1, 17, 40, 41, 42]
def svService : List Nat := [1, 5, 6, 9]

/-- Default class of a source: 0 NOTE, 1 SERVICE, 2 QUIESCE, 3 FATAL (R401, R405). -/
def srcClass (s : Nat) : Nat :=
  if s < 960 then (if s % 120 ∈ tileFatal then 3 else if s % 120 ∈ tileService then 1 else 0)
  else if s - 960 = 16 then 3 else if s - 960 ∈ svService then 1 else 0

/-- Fixed sources: class and enable cannot be changed and force has no effect (R401). -/
def srcFixed (s : Nat) : Bool := srcClass s = 3

/-- Whether the index names a source of the member (R399). -/
def srcPresent (tiles s : Nat) : Bool := decide (s < 120 * tiles) || (decide (960 ≤ s) && decide (s < 1024))

end Sys2Proof.Machine
end

