-- ==== Sys2Proof/Machine/Regs.lean ====
section
/-!
DEFINITION. The register map of BAR0 (R419–R423): every 32-bit register word by kind and instance number, its offset, its reset value and
which of its bits software writes. Fields the hardware keeps (RO, ROS) have no place here: they are views of the block's own state.
-/
namespace Sys2Proof.Machine

/-- The registers of BAR0 (R421, R422), by mnemonic. -/
inductive RegKind where
  | hpGangCfg | hpPortSts | haFillSts | haDirCfg | haDirSts | haBiCfg
  | ncWayCfg | ncSts | ncRangeBaseLo | ncRangeBaseHi | ncRangeLen | ncRangeCtl | ncRangeSts | atwCfg | atpCfg
  | drSchedCfg | drRefCfg | drRefSts | drDuskCfg | drDuskSts | drTrnCtl | drTrnPat | drTrnSts | drTrnLane | drPhyAcc
  | drScrubCfg | drScrubSts | drChSts
  | nlWearCfg | nlWearRetire | nlWearSts | nlDriftCfg | nlAbsCfg | nlAbsLvl | nlAbsSts | nlGroupSts | nlTrainSts
  | trCfg | trFree | trRate | trReserve | trSts | trBudget
  | jeSts | pkCfg | pkSts | pkSpaceSel | pkSpaceSts | pkSpaceFree
  | cryKeySel | cryKeySts | cryKeyGen | cryTwCfg | crySts
  | qosClsCfg | qosTrk | qosTileSts | qosCbw | qosSts
  | dawnSts | fuseInfo | rstBlkCtl | rstClkSts
  | svPpSts | svFeedTel | svOrTemp | svPwr | svRailSts | svChCfg | svChSts | svTelA | svTelB | lsSts | lsSeq
  | fcSts | fcEn | fcForce | fcGrace | fcEscSts | fcCfg
  | cntWinCfg | cntWinSts | cntPortBw | cntClsBw
deriving DecidableEq, Repr

/-- What the map says of a register: its offset for tile 0 and instance 0, instances per tile (0: the register is device-wide), device-wide
instances, stride, reset value, and the bits of type RW, RWL and W1C. -/
structure RegDesc where
  base : Nat
  perTile : Nat
  count : Nat
  stride : Nat
  reset : Nat
  rw : Nat
  rwl : Nat
  w1c : Nat
deriving DecidableEq, Repr

def tileReg (base : Nat) (reset rw rwl w1c : Nat) : RegDesc := ⟨base, 1, 8, 0, reset, rw, rwl, w1c⟩
def unitReg (base k stride : Nat) (reset rw rwl w1c : Nat) : RegDesc := ⟨base, k, 8 * k, stride, reset, rw, rwl, w1c⟩
def wideReg (base n stride : Nat) (reset rw rwl w1c : Nat) : RegDesc := ⟨base, 0, n, stride, reset, rw, rwl, w1c⟩

/-- The map's row for each register, from the register tables of the chapters R421 and R422 name. -/
def regDesc : RegKind → RegDesc
  | .hpGangCfg => tileReg 0x02010000 0 0 0x3F 0
  | .hpPortSts => unitReg 0x02010100 8 0x10 0 0 0 0x2000
  | .haFillSts => tileReg 0x02020400 0 0 0 0
  | .haDirCfg => tileReg 0x02020000 7 0 7 0
  | .haDirSts => tileReg 0x02020010 0 0 0 0x80000000
  | .haBiCfg => tileReg 0x02020020 50 0 0xFFFF 0
  | .ncWayCfg => tileReg 0x02030000 0 0 0xFFFF 0
  | .ncSts => tileReg 0x02030010 0 0 0 0x80000000
  | .ncRangeBaseLo => tileReg 0x02030020 0 0xFFFFFFC0 0 0
  | .ncRangeBaseHi => tileReg 0x02030024 0 0xFFFF 0 0
  | .ncRangeLen => tileReg 0x02030028 0 0xFFFFFFFF 0 0
  | .ncRangeCtl => tileReg 0x0203002C 0 7 0 0
  | .ncRangeSts => tileReg 0x02030030 0 0 0 0x80000000
  | .atwCfg => wideReg 0x01001000 2 4 0 0 0 0
  | .atpCfg => tileReg 0x02030100 0x23 0 0xFF 0
  | .drSchedCfg => tileReg 0x02040000 0x32C10F40 0 0xFFFFFFFF 0
  | .drRefCfg => tileReg 0x02040010 0x7D41 0 0xFFF3 0
  | .drRefSts => unitReg 0x02041010 16 0x100 0 0 0 0x300
  | .drDuskCfg => tileReg 0x02040020 0x03E80000 0 0xFFFF0001 0
  | .drDuskSts => tileReg 0x02040024 0 0 0 0xFF00
  | .drTrnCtl => unitReg 0x02041040 16 0x100 0 0 0x7FFFF800 0
  | .drTrnPat => unitReg 0x02041044 16 0x100 1 0 0xC07FFFFF 0
  | .drTrnSts => unitReg 0x02041048 16 0x100 0 0 0 0x80000000
  | .drTrnLane => unitReg 0x0204104C 16 0x100 0 0 0 0
  | .drPhyAcc => unitReg 0x02041050 16 0x100 0 0 0x7FCF0000 0
  | .drScrubCfg => tileReg 0x02040030 0 0 0xFFFFF 0
  | .drScrubSts => unitReg 0x02041020 16 0x100 0 0 0 0
  | .drChSts => unitReg 0x02041000 16 0x100 0 0 0 0
  | .nlWearCfg => tileReg 0x02050020 0x190A00 0 0xFFFFFF 0
  | .nlWearRetire => tileReg 0x02050024 2000000000 0 0xFFFFFFFF 0
  | .nlWearSts => tileReg 0x02050028 0 0 0 0
  | .nlDriftCfg => tileReg 0x02050010 0x00A80C00 0 0xFFFFFF00 0
  | .nlAbsCfg => tileReg 0x02050000 0x00C84000 0 0xFFFFFFFF 0
  | .nlAbsLvl => tileReg 0x02050004 0x4B32 0 0xFFFF 0
  | .nlAbsSts => tileReg 0x02050008 0 0 0 0x80000000
  | .nlGroupSts => tileReg 0x02050030 0 0 0 0
  | .nlTrainSts => unitReg 0x02051000 40 0x40 0 0 0 0
  | .trCfg => tileReg 0x02060000 0x100123C1 0 0xFFFFFFFB 0
  | .trFree => tileReg 0x02060004 0x08000400 0 0xFFFFFFFF 0
  | .trRate => tileReg 0x02060008 0x02000400 0 0xFFFFFFFF 0
  | .trReserve => tileReg 0x0206000C 0x04000400 0 0xFFFFFFFF 0
  | .trSts => tileReg 0x02060010 0 0 0 0x40000000
  | .trBudget => unitReg 0x02060100 16 4 256 0 0xFFFF 0
  | .jeSts => tileReg 0x02070000 0 0 0 0
  | .pkCfg => tileReg 0x02080000 2 0 7 0
  | .pkSts => tileReg 0x02080010 0 0 0 0xC0000000
  | .pkSpaceSel => tileReg 0x02080020 0 0x3FF 0 0
  | .pkSpaceSts => tileReg 0x02080024 0 0 0 0
  | .pkSpaceFree => tileReg 0x02080028 0 0 0 0
  | .cryKeySel => wideReg 0x01002000 1 4 0 0xFFF 0 0
  | .cryKeySts => wideReg 0x01002004 1 4 0 0 0 0
  | .cryKeyGen => wideReg 0x01002008 1 4 0 0 0 0
  | .cryTwCfg => tileReg 0x02090000 16 0 0xFF 0
  | .crySts => tileReg 0x02090010 0 0 0 0
  | .qosClsCfg => wideReg 0x01003000 16 4 0x00400400 0 0xFFFC07FF 0
  | .qosTrk => unitReg 0x020A0000 16 4 0 0x1FFF 0 0
  | .qosTileSts => tileReg 0x020A0040 0 0 0 0
  | .qosCbw => unitReg 0x020A0100 64 4 0 0 0 0
  | .qosSts => wideReg 0x01003100 1 4 0 0 0 0
  | .dawnSts => wideReg 0x01004000 1 4 0 0 0 0
  | .fuseInfo => wideReg 0x01004004 1 4 0 0 0 0
  | .rstBlkCtl => tileReg 0x020B0000 0x3FF 0 0x3FF 0
  | .rstClkSts => tileReg 0x020B0004 0 0 0 0x80
  | .svPpSts => wideReg 0x04000000 1 4 0 0 0 0
  | .svFeedTel => wideReg 0x04000010 1 4 0 0 0 0
  | .svOrTemp => wideReg 0x04000014 1 4 0 0 0 0
  | .svPwr => wideReg 0x04000018 1 4 0 0 0 0
  | .svRailSts => wideReg 0x04000020 8 4 0 0 0 0
  | .svChCfg => wideReg 0x04000100 33 4 0x007D0404 0 0x00FF1FFF 0
  | .svChSts => wideReg 0x04000200 33 4 0 0 0 0
  | .svTelA => wideReg 0x04000300 33 8 0 0 0 0
  | .svTelB => wideReg 0x04000304 33 8 0 0 0 0
  | .lsSts => wideReg 0x04000800 1 4 0 0 0 0
  | .lsSeq => wideReg 0x04000804 1 4 0 0 0 0
  | .fcSts => wideReg 0x06000000 32 4 0 0 0 0xFFFFFFFF
  | .fcEn => wideReg 0x06000080 32 4 0xFFFFFFFF 0xFFFFFFFF 0 0
  | .fcForce => wideReg 0x06000100 32 4 0 0 0 0
  | .fcGrace => wideReg 0x06000200 4 4 5000 0 0xFFFF 0
  | .fcEscSts => wideReg 0x06000300 1 4 0 0 0 0
  | .fcCfg => wideReg 0x06001000 1024 4 0 0 0xF 0
  | .cntWinCfg => wideReg 0x05020000 8 0x10 0x800003E8 0x80003FFF 0 0
  | .cntWinSts => wideReg 0x05020004 8 0x10 0 0 0 0
  | .cntPortBw => wideReg 0x05021000 128 4 0 0 0 0
  | .cntClsBw => wideReg 0x05022000 512 4 0 0 0 0

/-- The reset value of an instance's software-written bits (R11). FC_CFG takes its class from the source map (R401). -/
def regReset (k : RegKind) (i : Nat) : W32 :=
  match k with
  | .fcCfg => BitVec.ofNat 32 (srcClass i)
  | _ => BitVec.ofNat 32 (regDesc k).reset

/-- All registers, for the search by offset. -/
def allRegs : List RegKind :=
  [.hpGangCfg, .hpPortSts, .haFillSts, .haDirCfg, .haDirSts, .haBiCfg, .ncWayCfg, .ncSts, .ncRangeBaseLo, .ncRangeBaseHi, .ncRangeLen,
   .ncRangeCtl, .ncRangeSts, .atwCfg, .atpCfg, .drSchedCfg, .drRefCfg, .drRefSts, .drDuskCfg, .drDuskSts] ++
  [.drTrnCtl, .drTrnPat, .drTrnSts, .drTrnLane, .drPhyAcc, .drScrubCfg, .drScrubSts, .drChSts, .nlWearCfg, .nlWearRetire, .nlWearSts,
   .nlDriftCfg, .nlAbsCfg, .nlAbsLvl, .nlAbsSts, .nlGroupSts, .nlTrainSts, .trCfg, .trFree, .trRate, .trReserve, .trSts, .trBudget] ++
  [.jeSts, .pkCfg, .pkSts, .pkSpaceSel, .pkSpaceSts, .pkSpaceFree, .cryKeySel, .cryKeySts, .cryKeyGen, .cryTwCfg, .crySts, .qosClsCfg,
   .qosTrk, .qosTileSts, .qosCbw, .qosSts, .dawnSts, .fuseInfo, .rstBlkCtl, .rstClkSts] ++
  [.svPpSts, .svFeedTel, .svOrTemp, .svPwr, .svRailSts, .svChCfg, .svChSts, .svTelA, .svTelB, .lsSts, .lsSeq, .fcSts, .fcEn, .fcForce,
   .fcGrace, .fcEscSts, .fcCfg, .cntWinCfg, .cntWinSts, .cntPortBw, .cntClsBw]

/-- The BAR0 offset of instance `i` (R421–R423). -/
def regAddr (k : RegKind) (i : Nat) : Nat :=
  let d := regDesc k
  if d.perTile = 0 then d.base + i * d.stride
  else d.base + (i / d.perTile) * 0x400000 + (i % d.perTile) * d.stride

/-- The instance of `k` at a BAR0 offset, if there is one. -/
def regInst (k : RegKind) (off : Nat) : Option Nat :=
  let d := regDesc k
  if d.perTile = 0 then
    let i := if d.stride = 0 then 0 else (off - d.base) / d.stride
    if d.base ≤ off ∧ i < d.count ∧ d.base + i * d.stride = off then some i else none
  else if off < d.base then none else
    let t := (off - d.base) / 0x400000
    let r := (off - d.base) % 0x400000
    let l := if d.stride = 0 then 0 else r / d.stride
    if t < 8 ∧ l < d.perTile ∧ l * d.stride = r then some (t * d.perTile + l) else none

/-- The register word at a 4-byte aligned BAR0 offset. -/
def regAt (off : Nat) : Option (RegKind × Nat) :=
  allRegs.findSome? (fun k => (regInst k off).map (fun i => (k, i)))

/-- The tile an instance belongs to; none for a device-wide register (R423). -/
def regTile (k : RegKind) (i : Nat) : Option Nat :=
  match k with
  | .svRailSts => none
  | .cntWinCfg | .cntWinSts => some i
  | .cntPortBw => some (i / 16)
  | .cntClsBw => some (i / 64)
  | _ => if (regDesc k).perTile = 0 then none else some (i / (regDesc k).perTile)

end Sys2Proof.Machine
end

