-- ==== Sys2Proof/Machine/StCrypto.lean ====
section
/-!
DEFINITION. The crypto block's state (R275–R309): key table, boot nonce, tree keys, fill counts, shadow lines, the counter cache, roots,
damage marks, verifications under way and Twilight passes. Working keys are not held apart: they are R278's function of the installed key,
the boot nonce and the fill count.
-/
namespace Sys2Proof.Machine

/-- A key slot: the key and its generation number (R276, R277). -/
structure KeySlot where
  key : BitVec 256
  gen : W32
deriving DecidableEq, Repr

/-- Which line or shadow item something is about: region, tile, area (0 protected pages, 1 block area, 2 map area; R288), level and index. -/
structure Item where
  region : Nat
  tile : Nat
  area : Nat
  level : Nat
  idx : Nat
deriving DecidableEq, Repr

/-- A verification under way (R294): what it will find. -/
structure Verif where
  tile : Nat
  region : Nat
  /-- DPA, or SA. -/
  addr : Nat
  isSa : Bool
  /-- The tag check passes. -/
  tagOk : Bool
  /-- The level of the first item that differs from its trusted parent entry. -/
  badLevel : Option Nat
deriving DecidableEq, Repr

/-- A Twilight pass (R301–R305). -/
structure Pass where
  region : Nat
  old : BitVec 12
  new : BitVec 12
  ending : Bool
  /-- Lines passed on each tile, keyed by tile: the twilight line. -/
  pos : Table Nat
deriving DecidableEq, Repr

structure Crypto where
  /-- Key slots 1–4,095, the same copy on every tile (R276; reset empty). -/
  keys : Table (Option KeySlot) := []
  /-- A key has been installed since the last full reset (R308; reset 0). -/
  everInstalled : Bool := false
  /-- Boot nonce (R278; reset none: lost or zeroised). -/
  nonce : Option W64 := none
  /-- Tree key of each tile (R288; reset none). -/
  treeKeys : Table (Option (BitVec 256)) := []
  /-- Fill counts, keyed 65,536 × region + fill unit (R278; reset 0). -/
  fills : Table Nat := []
  /-- Current slot of a region once a pass has ended (R280; reset none: the catalogue's). -/
  cur : Table (Option (BitVec 12)) := []
  /-- Stored tag lines, keyed by `tagKey`; none: all zero, as the fill left it (R285, R290). -/
  tags : Table (Option Line) := []
  /-- Stored counter lines and nodes, keyed by `itemKey`; none: as the fill left it (R286, R287, R290). -/
  nodes : Table (Option Line) := []
  /-- The counter caches: line and dirty, keyed by `itemKey` (R289; reset empty). -/
  cache : Table (Option (Line × Bool)) := []
  /-- Root stores, keyed by `rootKey`; none: as the fill left it (R288). -/
  roots : Table (Option Line) := []
  /-- Damaged-subtree table entries (R300; reset none). -/
  damaged : List Item := []
  /-- Whole trees damaged: region, tile, area (R300; reset none). -/
  treeAll : List (Nat × Nat × Nat) := []
  /-- Verifications under way, oldest first (R294; reset none). -/
  verifs : List Verif := []
  /-- Addresses, DPA or SA, of lines whose tag line was lost before their record could be poisoned: it reads as poisoned until it is written (R299; reset none). -/
  lost : List Nat := []
  /-- Twilight passes, oldest first (R301; reset none). -/
  passes : List Pass := []
  /-- Of each tile's Twilight engine, the µs in which it last rekeyed a line and how many lines of it (R303; reset 0). -/
  pace : Table (Nat × Nat) := []
  /-- Of each tile's Twilight engine, the region number from which its next turn is looked for (R303; reset 0, log 129). -/
  turn : Table Nat := []
deriving DecidableEq, Repr

end Sys2Proof.Machine
end

