-- ==== Sys2Proof/Machine/StDevice.lean ====
section
/-!
DEFINITION. The device-wide state: fuse map, resets, supervisor power path, SV link, log store, fault collector, counters, I3C target,
TAP, clocks and block resets, Dawn and the configuration flash. Each field's docstring gives its rule and its value at reset.
-/
namespace Sys2Proof.Machine

/-- The fuse map (R338), kept by every reset. -/
structure Fuse where
  /-- Fuse-map identifier (R338; reset PRESUMED 0x01, the first listed, log 2). -/
  id : Byte := 0x01#8
  /-- Member: tiles 2, 4 or 8 (R3, R338; reset PRESUMED 8, the PRL-8, log 2). -/
  tiles : Nat := 8
  /-- Serial number (R338; reset DESIGN CHOICE 0, log 2). -/
  serial : W64 := 0#64
  /-- Device identity key: the private part of the RSA-3072 key pair (R338, R354; reset DESIGN CHOICE 0, log 2). -/
  idKey : BitVec 3072 := 0#3072
  /-- Trust anchor (R357; reset 0, as shipped). -/
  anchor : BitVec 256 := 0#256
  /-- The trust anchor as Dawn 0 read it (R338, R357; reset 0). -/
  anchorRead : BitVec 256 := 0#256
deriving DecidableEq, Repr

/-- The reset sources (R334–R337). -/
structure Resets where
  /-- Power-on reset is in effect (R334; reset 1: the state is that of an asserted power-on reset). -/
  por : Bool := true
  /-- The device is in reset: RESET_N low, or not yet high for 1 µs (R336; reset 1). -/
  resetN : Bool := true
  /-- SV drives RESET_N low (R336; reset 1). -/
  driving : Bool := true
  /-- An agent on the board also holds RESET_N low (R336; reset 0). -/
  boardLow : Bool := false
  /-- The interval of R357 in which ANCHOR_PROG is accepted is open (reset 0). -/
  anchorWindow : Bool := false
  /-- No RESET_N release has happened since power-on reset (R357; reset 1). -/
  firstRelease : Bool := true
  /-- The PERST_N balls that the board drives low, by port: a level from outside, which no reset changes (R53; reset DESIGN CHOICE none low, log 115). -/
  perstLow : BitVec 64 := 0#64
deriving DecidableEq, Repr

/-- STATE of SV_CH_STS (R379). -/
inductive ChState where | off | starting | powerGood | retryWait | latched
deriving DecidableEq, Repr

/-- CAUSE of SV_CH_STS (R379). -/
inductive ChCause where | none | faultTimer | fastTrip | startLimit | damaged | short | overTemp | busLost | railLost
deriving DecidableEq, Repr

/-- One power channel, HS or E00–E31 (R359–R379). -/
structure Chan where
  /-- Channel state (SV_CH_STS STATE; reset off). -/
  state : ChState := .off
  /-- Cause of the last turn-off for a fault (SV_CH_STS CAUSE; reset none). -/
  cause : ChCause := .none
  /-- ATTEMPTS, 0–3 (R370; reset 0). -/
  attempts : Nat := 0
  /-- TRIPS, saturating at 65,535 (R379; reset 0). -/
  trips : Nat := 0
  /-- The gate stands at or above 10 V (R361, R365, R366; reset 0). -/
  gate10 : Bool := false
  /-- The output has reached the input and the gate is driven to its clamp (R364; reset 0). -/
  clamped : Bool := false
  /-- The damaged-FET test of this start has passed (R364; reset 0). -/
  tested : Bool := false
  /-- The shunt voltage exceeds V_CB (R367; reset 0). -/
  above : Bool := false
  /-- Fault timer in eighths of a µs (R367; reset 0). -/
  timer : Nat := 0
  /-- When the fault timer was last brought up to date, µs (R367; reset 0). -/
  timerAt : Nat := 0
  /-- When the channel last became power-good, µs (R370; reset 0). -/
  goodAt : Nat := 0
  /-- When the channel last turned off for a fault, µs (R369, R370; reset 0). -/
  offAt : Nat := 0
  /-- TIMER at the moment of the fault, in units of 0.5 ms (R369; reset 0). -/
  offTimer : Nat := 0
  /-- The channel is too hot to restart (R368; reset 0). -/
  hot : Bool := false
  /-- Last telemetry sample (SV_TEL_A, SV_TEL_B; reset 0). -/
  tel : ChanSample := ⟨0#16, 0#16, 0#16, 0#16⟩
deriving DecidableEq, Repr

/-- The supervisor's power path outside the channels (R359–R379). -/
structure Sv where
  /-- Feed A in range (SV_PP_STS FEED_A_OK; reset 0). -/
  feedA : Bool := false
  /-- Feed B in range (FEED_B_OK; reset 0). -/
  feedB : Bool := false
  /-- ORing FET A conducts (OR_A_ON; reset 0). -/
  orA : Bool := false
  /-- ORing FET B conducts (OR_B_ON; reset 0). -/
  orB : Bool := false
  /-- ORing FET A turned off because the node rose above its feed (R362; reset 0). -/
  orRevA : Bool := false
  /-- ORing FET B turned off because the node rose above its feed (R362; reset 0). -/
  orRevB : Bool := false
  /-- ORing FET A turned off for heat (R363; reset 0). -/
  orHotA : Bool := false
  /-- ORing FET B turned off for heat (R363; reset 0). -/
  orHotB : Bool := false
  /-- Insertion qualified (PRESENT; reset 0). -/
  present : Bool := false
  /-- PRESENT_N[i] reads low, as last reported (PRESENT_RAW; reset 0, log 161). -/
  presentRaw : BitVec 2 := 0#2
  /-- IBC_EN driven high (R373; reset 0). -/
  ibcEn : Bool := false
  /-- IBC_PG qualified (IB_GOOD; reset 0). -/
  ibGood : Bool := false
  /-- TRAIL_EN[t][k] driven high, keyed by tile (SV_RAIL_STS EN; reset 0). -/
  railEn : Table (BitVec 5) := []
  /-- TRAIL_PG[t][k] reads good, keyed by tile (SV_RAIL_STS PG; reset 0). -/
  railPg : Table (BitVec 5) := []
  /-- Every rail of Tt is good (TILES_GOOD; reset 0). -/
  tilesGood : BitVec 8 := 0#8
  /-- NVM rails of Tt reported good to Tt (R373 step 8; reset 0). -/
  nvmRails : BitVec 8 := 0#8
  /-- The start sequence of R373 has reached step 7 (reset 0). -/
  step7 : Bool := false
  /-- Feed voltages and FET temperatures as last sampled: VIN_A, VIN_B, TEMP_A, TEMP_B (reset 0). -/
  vinA : BitVec 16 := 0#16
  /-- VIN_B (reset 0). -/
  vinB : BitVec 16 := 0#16
  /-- TEMP_A (reset 0). -/
  tempA : BitVec 16 := 0#16
  /-- TEMP_B (reset 0). -/
  tempB : BitVec 16 := 0#16
deriving DecidableEq, Repr

/-- The input-power meter of SV (R333, R379). -/
structure PowerMeter where
  /-- Input power of each 1 ms sample of the running 100 ms window, mW, newest first (R379; reset none). -/
  samples : List Nat := []
  /-- AVG of SV_PWR (reset 0). -/
  avg : BitVec 16 := 0#16
  /-- PEAK of SV_PWR (reset 0). -/
  peak : BitVec 16 := 0#16
  /-- Input energy not yet a whole joule, in µJ (R413; reset 0). -/
  microJ : Nat := 0
  /-- THROTTLE step, 0–7 (R333; reset 0). -/
  throttle : Nat := 0
  /-- Consecutive windows below 95 % of the cap (R333; reset 0). -/
  lowWindows : Nat := 0
  /-- Consecutive windows above the cap at step 7 (R333; reset 0). -/
  highWindows : Nat := 0
deriving DecidableEq, Repr

/-- The SV–T0 link (R24, R25). -/
structure SvLink where
  /-- The link is down (R25; reset 0). -/
  down : Bool := false
  /-- Frames T0 has sent and SV has not acknowledged, oldest first: each carries one record (R25, log 114; reset none). -/
  toSv : List Bytes := []
  /-- Frames SV has sent and T0 has not acknowledged, oldest first: idle frames (R25, log 114; reset none). -/
  toT0 : List Bytes := []
  /-- Sends of the oldest unacknowledged frame of T0 (R25; reset 0). -/
  sendsT0 : Nat := 0
  /-- Sends of the oldest unacknowledged frame of SV (R25; reset 0). -/
  sendsSv : Nat := 0
  /-- Frames accepted by SV (R25; reset none). -/
  gotSv : Nat := 0
  /-- Frames accepted by T0 (R25; reset none). -/
  gotT0 : Nat := 0
  /-- Idle frames sent (R25; reset 0). -/
  idle : Nat := 0
  /-- Retrain attempts of the present outage (R25; reset 0). -/
  attempts : Nat := 0
  /-- The values read from SV are stale (R25; reset 0). -/
  stale : Bool := false
  /-- Records the primary holds while the link is down, oldest first: TYPE, ORIGIN, SOURCE, payload (R25; reset none). -/
  held : List (Byte × Byte × BitVec 16 × Bytes) := []
  /-- Records dropped while the link was down (R25; reset 0). -/
  heldDropped : Nat := 0
deriving DecidableEq, Repr

/-- A log record as it waits to be written (R384): everything but EPOCH and CRC. -/
structure LogRec where
  seq : W32
  typ : Byte
  origin : Byte
  source : BitVec 16
  time : W64
  payload : Bytes
deriving DecidableEq, Repr

/-- A ring's write pointer (R386): page and position. -/
structure RingPtr where
  page : Nat
  pos : Nat
  /-- SEQ of the record before the pointer, all ones when the ring is empty (R392). -/
  last : W32
deriving DecidableEq, Repr

/-- The log store (R380–R398). The cells survive every reset. -/
structure LogStore where
  /-- The 4,096 cells of 16 bytes, keyed 16 × page + cell; byte 0 in bits 7–0 (R380; shipped erased to 0xFF). -/
  cells : Table (BitVec 128) := []
  /-- Accepted records, oldest first; the head is the one being written (R385; reset none). -/
  queue : List LogRec := []
  /-- Failed attempts of the record being written (R387; reset 0). -/
  tries : Nat := 0
  /-- NEXT_SEQ (LS_SEQ; reset 0). -/
  nextSeq : W32 := 0#32
  /-- Records dropped and not yet reported in a records-lost record (R385; reset 0). -/
  dropped : Nat := 0
  /-- LOST (LS_STS; reset 0). -/
  lost : Nat := 0
  /-- Write pointers of rings F, P, D, M (R386; reset: the first slot of each ring). -/
  ptrs : Table RingPtr := []
  /-- Retired pages (R387, R389; reset none). -/
  retired : List Nat := []
  /-- Rings worn, bit r (LS_STS WORN; reset 0). -/
  worn : BitVec 4 := 0#4
  /-- The power-up path runs: nothing is written before LOG_SCAN_DONE (R393, R394; reset 0). -/
  starting : Bool := false
  /-- SCANNING (LS_STS; reset 0). -/
  scanning : Bool := false
  /-- HINT_USED (LS_STS; reset 0). -/
  hintUsed : Bool := false
  /-- HINT_OFF (LS_STS; reset 0). -/
  hintOff : Bool := false
  /-- Position of the next hint, 0–3 (R392; reset 0). -/
  hintPos : Nat := 0
  /-- The hint to be written next: none a new one, else the bytes of one that failed verification once; and how many more are due (R392; reset none). -/
  hintBusy : Option (Option Bytes) := none
  hintDue : Nat := 0
deriving DecidableEq, Repr

/-- What a raise carries (R400): DPA or SA or 0, head, source kind, detail. -/
structure FaultCtx where
  addr : W64 := 0#64
  head : Byte := 0xFF#8
  kind : Byte := 0xFF#8
  detail : W32 := 0#32
deriving DecidableEq, Repr

/-- A fault record the primary has to write (R400, R405): its source, escalation step, context and merged transitions. -/
structure PendFault where
  src : Nat
  step : Nat
  ctx : FaultCtx
  more : Nat
deriving DecidableEq, Repr

/-- The fault collector (R399–R411). FC_GRACE and FC_CFG stand in the register file. -/
structure Faults where
  /-- STS of every source: FC_STS (R402; reset 0). -/
  sts : BitVec 1024 := 0#1024
  /-- EN of every source: FC_EN (R402; reset all ones). -/
  en : BitVec 1024 := BitVec.allOnes 1024
  /-- The pending queues, by ascending source and step (R400; reset empty). -/
  pend : List PendFault := []
  /-- Sources whose grace window runs (R407; reset none). -/
  grace : List Nat := []
  /-- RR (R410; reset 0). -/
  rr : Bool := false
  /-- RR_DAWN (R410; reset 0). -/
  rrDawn : Bool := false
  /-- RR_SOURCE (R410; reset 0). -/
  rrSource : Nat := 0
  /-- FAIL_CODE of the Dawn failure that made the request (R397; reset 0). -/
  rrCode : Nat := 0
  /-- The Replace request record has been written (R410; reset 0). -/
  rrLogged : Bool := false
  /-- QUIESCING (R407; reset 0). -/
  quiescing : Bool := false
  /-- QUIESCED (R407; reset 0). -/
  quiesced : Bool := false
  /-- Q_SOURCE (R407; reset 0). -/
  qSource : Nat := 0
  /-- MIDNIGHT (R296; reset 0). -/
  midnight : Bool := false
  /-- Slices whose alarm wire is asserted: bit t tile Tt, bit 8 the SV slice (R296, R405; reset 0). -/
  alarm : BitVec 9 := 0#9
deriving DecidableEq, Repr

/-- The counter slices and window engines (R412–R414). -/
structure Counters where
  /-- Event counters, keyed 600 × t + i, and 4,800 + i for SV (R412; reset 0). -/
  cnt : Table (BitVec 48) := []
  /-- Bits [47:32] latched by a head's last 32-bit low-half read: counter key and value, keyed by head (R412; reset none). -/
  latch : Table (Option (Nat × BitVec 16)) := []
  /-- Window accumulators, keyed by counter key (R414; reset 0). -/
  acc : Table Nat := []
  /-- Latched bandwidths: CNT_PORT_BW and CNT_CLS_BW words, keyed by counter key (R414; reset 0). -/
  bw : Table W32 := []
  /-- LATCHES per tile (CNT_WIN_STS; reset 0). -/
  latches : Table W32 := []
  /-- Tiles whose running window is discarded at the next boundary (R414; reset none). -/
  discard : BitVec 8 := 0#8
deriving DecidableEq, Repr

/-- The I3C target's answer to the last frame (R416, R417). -/
inductive I3cRsp where
  /-- Not acknowledged, or nothing to answer. -/
  | none
  /-- An acknowledged bus command. -/
  | ack
  /-- An acknowledged bus command that returns bytes. -/
  | data (out : Bytes)
  /-- An MCTP control response: command and fields in order. -/
  | control (cmd : Byte) (fields : Bytes)
  /-- A vendor-defined response: command, return code, output (R417). -/
  | vendor (cmd : Byte) (rc : Byte) (out : Bytes)
deriving DecidableEq, Repr

/-- The I3C target of T0 (R415–R418). -/
structure I3c where
  /-- Dynamic address, if assigned (R416; reset none). -/
  dyn : Option (BitVec 7) := none
  /-- Endpoint id (R416; reset 0, DESIGN CHOICE, log 30). -/
  eid : Byte := 0#8
  /-- The status image, 896 bytes (R418; reset all 0, DESIGN CHOICE, log 30). -/
  image : Bytes := []
  /-- GEN (R418; reset 0). -/
  gen : W32 := 0#32
  /-- The answer to the last frame (reset none). -/
  rsp : I3cRsp := .none
deriving DecidableEq, Repr

/-- The TAP controllers (R335, R357, R358). -/
structure Tap where
  /-- The boundary chain's preloaded values (R358; reset empty, DESIGN CHOICE, log 31). -/
  preload : List Bool := []
  /-- EXTEST drives the pins from the chain (R358; reset 0). -/
  extest : Bool := false
  /-- The data register shifted out by the last instruction, least significant bit first (R358; reset empty). -/
  dr : Nat := 0
  /-- Width of the data register last selected (R358; reset 32: IDCODE). -/
  width : Nat := 32
  /-- Instruction last run (R358; reset 0x01, IDCODE, PRESUMED from IEEE 1149.1, log 31). -/
  ir : Byte := 0x01#8
  /-- Management processors halted by MP_DEBUG, bit t (R358; reset 0). -/
  halted : BitVec 8 := 0#8
deriving DecidableEq, Repr

/-- Clocks and block resets (R349, R352). RST_BLK_CTL stands in the register file. -/
structure Clocks where
  /-- RST_CLK_STS [6:0] per tile (R352; reset 0). -/
  good : Table (BitVec 7) := []
  /-- Blocks released, RST_BLK_CTL bit numbers, per tile (R352; reset none). -/
  released : Table (BitVec 10) := []
  /-- Blocks put back into reset by a lost clock, per tile (R352; reset none). -/
  lost : Table (BitVec 10) := []
  /-- Tiles that have not failed Dawn 0 and run (R349, R351; reset 0). -/
  running : BitVec 8 := 0#8
deriving DecidableEq, Repr

/-- The option block as applied (R341, R342). -/
structure OptBlock where
  xspi : Nat := 0
  activate : Nat := 0
  actSeq : W32 := 0#32
  /-- GANG byte of each tile. -/
  gang : List Byte := []
  refclk : Byte := 0#8
deriving DecidableEq, Repr

/-- A section directory entry (R343). -/
structure Section_ where
  typ : Nat
  off : Nat
  size : Nat
  digest : BitVec 256
deriving DecidableEq, Repr

/-- A parsed slot header (R343). -/
structure SlotHdr where
  member : Nat
  seq : W32
  length : Nat
  modulus : Bytes
  secs : List Section_
deriving DecidableEq, Repr

/-- Dawn (R339–R353). -/
structure Dawn where
  /-- RUN_LOCK (DAWN_STS; reset 0). -/
  runLock : Bool := false
  /-- FAILED (reset 0). -/
  failed : Bool := false
  /-- RECOVERY (reset 0). -/
  recovery : Bool := false
  /-- SLOT: slot B runs (reset 0). -/
  slotB : Bool := false
  /-- OPT_DEFAULT (reset 0). -/
  optDefault : Bool := false
  /-- STAGE, 0–6 (reset 0). -/
  stage : Nat := 0
  /-- FAIL_CODE (reset 0). -/
  failCode : Nat := 0
  /-- RESETS, saturating (reset 0). -/
  resets : Nat := 0
  /-- Candidates not yet tried, slot B is true (R347; reset none). -/
  cands : List Bool := []
  /-- The candidate being tried (R347; reset none). -/
  cand : Option Bool := none
  /-- The header of the candidate being tried (R343; reset none). -/
  hdr : Option SlotHdr := none
  /-- Slots tried, bit 0 A, bit 1 B (R397; reset 0). -/
  tried : BitVec 2 := 0#2
  /-- The option block as applied in Dawn 1 (R341; reset: the defaults of R342). -/
  opt : OptBlock := {}
  /-- Digest of the option block's bytes 0–4,063 as read in Dawn 1 (R356; reset 0). -/
  optDigest : BitVec 256 := 0#256
  /-- The running image's parameters: name and value bytes (R344; reset none). -/
  params : List (Bytes × Bytes) := []
  /-- Section bytes of the running image: parameters, catalogue, views, classes, pin options (R356; reset none). -/
  sections : List (Nat × Bytes) := []
  /-- The running firmware's digest (R356; reset 0). -/
  fwDigest : BitVec 256 := 0#256
  /-- The firmware section loaded into T0's 8 MiB management memory (R349 Dawn 2; reset none: recovery firmware runs from the boot ROM). -/
  mgmtMem : Bytes := []
  /-- Bit t set: the firmware of Tt's management processor has been started, T0's as the primary and the others' as workers (R21, R349 Dawn 3; reset 0). -/
  started : BitVec 8 := 0#8
  /-- The running image's SEQ (R348; reset 0). -/
  seq : W32 := 0#32
  /-- Mem_Active of every head (R49; reset 0). -/
  memActive : Bool := false
deriving DecidableEq, Repr

/-- How the configuration flash is read (R340, R341). -/
inductive FlashMode where
  /-- 1S-1S-1S at 25 MHz, as Dawn 1 leaves the flash (R340). -/
  | oneS25
  /-- 1S-1S-1S at 50 MHz: XSPI_MODE 0 (R341). -/
  | oneS50
  /-- 8D-8D-8D at 200 MHz: XSPI_MODE 1 (R341). -/
  | eightD200
deriving DecidableEq, Repr

/-- The configuration flash (R340–R348). Its content survives every reset. -/
structure Flash where
  /-- Bytes that differ from 0xFF, by address (R341, R343; as shipped DESIGN CHOICE erased, log 5). -/
  bytes : Table Byte := []
  /-- A transfer to the inactive slot in progress: the slot is B, and the image (R348; reset none). -/
  busy : Option (Bool × Bytes) := none
  /-- The mode the device reads the flash in (R340, R349; reset 1S-1S-1S at 25 MHz, which Dawn 1 sets before its first read: DESIGN CHOICE, log 162). -/
  mode : FlashMode := .oneS25
  /-- When the last rewrite of the option block ends, µs (R348; reset 0). -/
  rewriteEnd : Nat := 0
deriving DecidableEq, Repr

/-- Time (R384, R418): the model's clock ticks 1 µs at a step on an empty queue (DESIGN CHOICE, log 1). -/
structure Time where
  /-- µs since the end of power-on reset (R384; reset 0). -/
  now : Nat := 0
  /-- When RESET_N was last released (R418; reset 0). -/
  relAt : Nat := 0
  /-- When Dawn 6 ended: the STAMP time base (R197; reset 0). -/
  d6At : Nat := 0
  /-- The host's clock set by Set Timestamp: value in ns and when it was set (R67; reset none). -/
  stamp : Option (W64 × Nat) := none
deriving DecidableEq, Repr

end Sys2Proof.Machine
end

