-- ==== Sys2Proof/Machine/StHost.lean ====
section
/-!
DEFINITION. The host-side state: ports and heads, the catalogue and views, HDM decoders, event logs, mailboxes, DOE and SPDM, Dynamic
Capacity, the poison list and what the device has sent on its links. Each field's docstring gives its rule and its value at reset.
-/
namespace Sys2Proof.Machine

/-- A host port's link (HP_PORT_STS, R37–R53). -/
structure Port where
  /-- LINK_UP (reset 0). -/
  up : Bool := false
  /-- SPEED (reset link down). -/
  rate : Rate := .down
  /-- WIDTH (reset 0). -/
  width : Nat := 0
  /-- FLIT_MODE (reset none). -/
  flit : FlitMode := .none
  /-- BI_ENABLED (reset 0). -/
  bi : Bool := false
  /-- MIDNIGHT_STOP (reset 0). -/
  midnightStop : Bool := false
  /-- The link is training (R49, R52; reset 0). -/
  training : Bool := false
  /-- CXL negotiation failed and the link stays in Detect (R37; reset 0). -/
  detect : Bool := false
  /-- PERST_N of this port is asserted and qualified (R51; reset 0). -/
  perst : Bool := false
  /-- An MLD head's link partner is not a switch: the head exposes LD 0 only (R47; reset 0). -/
  asSld : Bool := false
  /-- Configuration requests are answered: the head is ready (R49, R50; reset 0). -/
  ready : Bool := false
deriving DecidableEq, Repr

inductive RegionType where | plain | protect | packed | ring | staging
deriving DecidableEq, Repr

/-- A region catalogue entry (R77). -/
structure Region where
  idx : Nat
  typ : RegionType
  pin : Bool
  dc : Bool
  key : BitVec 12
  /-- log2 of the packed block size in bytes: 12, 14 or 16. -/
  blkLog : Nat
  base : Nat
  len : Nat
  /-- Packed store size per tile in 4 KiB frames. -/
  store : Nat
deriving DecidableEq, Repr

/-- A view table entry (R78). -/
structure View where
  head : Nat
  ld : Nat
  region : Nat
  cls : Nat
  db : Bool
deriving DecidableEq, Repr

/-- A declared Dynamic Capacity extent (R61): LD, DC region, start, length, tag. -/
structure ExtDecl where
  head : Nat
  ld : Nat
  dcRegion : Nat
  base : Nat
  len : Nat
  tag : BitVec 128
deriving DecidableEq, Repr

/-- Where an extent stands (R62, R63). -/
inductive ExtState where
  | free
  | offered (at_ : Nat)
  | bound (releaseAsked : Bool)
  | filling
deriving DecidableEq, Repr

/-- A committed HDM decoder (R71, R72). -/
structure Decoder where
  base : Nat
  size : Nat
  skip : Nat
  ways : Nat
  gran : Nat
  bi : Bool
  /-- DPA base D after skip. -/
  dpa : Nat
deriving DecidableEq, Repr

/-- The cause of a data error (R56): each of R57's cases, and those of the chapters that answer one. -/
inductive ErrCause where
  /-- Dawn is not complete, or a quiesce stands (R350, R407). -/
  | closed
  /-- A Koist link on the path is down (R18, R455). -/
  | koistLink
  /-- The range is being filled (R57, R90). -/
  | filling
  /-- The DPA lies in no extent bound to the LD, or in no region of its view (R74). -/
  | unbound
  /-- The request's key is not the region's (R280). -/
  | keyMismatch
  /-- The line lies in a damaged subtree (R300). -/
  | damaged
  /-- The line's channel or group is lost (R178, R209). -/
  | lost
  /-- A word failed its folded check, or no frame was free (R57, R86, R213). -/
  | check
deriving DecidableEq, Repr

/-- What an event record says (R37, R46, R47, R55–R63, R113, R405). -/
inductive EvWhat where
  | negotiationFailed
  | biOff
  | mldWithoutSwitch
  | dataError (dpa : Nat) (cause : ErrCause)
  /-- A data error of a request whose HPA no committed decoder takes: it has no DPA (R56, R72, log 53). -/
  | noDecoder (hpa : Nat)
  | packedWrite (dpa : Nat)
  | biTimeout (dpa : Nat)
  | healthChange (src : Nat)
  | reevaluated
  | degraded
  | dcAdd (ext : Nat)
  | dcRelease (ext : Nat)
  | dcWithdrawn (ext : Nat)
deriving DecidableEq, Repr

structure EvRec where
  log : EvLog
  what : EvWhat
deriving DecidableEq, Repr

/-- Mailbox return codes (R62–R68, R460, R277, R301, R348). -/
inductive MbRc where
  | success | bgStarted | invalidInput | unsupported | internalError | retryRequired | busy
  | invalidPayloadLength | invalidPhysicalAddress | invalidSecurityState | aborted
deriving DecidableEq, Repr

/-- What a command returns where the spec names its content and CXL lays it out (R67). -/
inductive MbOut where
  | none
  /-- A payload the spec lays out (R68, R398). -/
  | bytes (b : Bytes)
  | identity (serial : W64) (maxPayload : Nat)
  | background (opcode : BitVec 16) (percent : Nat) (rc : MbRc)
  | limit (n : Byte)
  | events (recs : List EvRec) (overflow : Bool)
  | intPolicy
  | fwInfo (slots active staged : Nat) (seqs : List (Option W32))
  | time (ns : W64)
  | logs (cel : Nat) (fault : Nat)
  | cel (opcodes : List Nat)
  | logCaps (clear : Bool)
  | features
  | memDevice (total : Nat) (lsa : Nat) (poisonMax : Nat)
  | partition (total : Nat)
  | health (maintenance : Bool) (degraded : Bool)
  | alerts (v : W64)
  | poison (recs : List (Nat × Nat)) (more : Bool) (overflow : Option Nat)
  | dcConfig (regions : List (Nat × Nat × Nat)) (block : Nat)
  | extents (l : List ExtDecl)
  | ldInfo (lds : Nat) (memory : Nat)
  | ldAllocs (l : List (Nat × Nat))
  | qosControl (epc backpressure : Bool)
  | qosStatus (pct : Nat)
  | qosBw (l : List Nat)
  | multiHeaded (heads lds : Nat) (l : List (Nat × Nat))
  | headInfo (port width maxWidth : Nat) (rate : Rate) (up : Bool)
  | dcdInfo (hosts regions blockLog : Nat) (total : Nat)
deriving DecidableEq, Repr

structure MbRsp where
  rc : MbRc
  out : MbOut
deriving DecidableEq, Repr

/-- What a DOE mailbox answers (R64, R354–R356). -/
inductive DoeRsp where
  | none
  /-- Discovery: vendor is PCI-SIG or CXL (true), data object type, next index. -/
  | discovery (cxl : Bool) (typ : Nat) (next : Nat)
  /-- Table Access: an entry of the CDAT. -/
  | cdat (entry : Bytes) (next : BitVec 16)
  | certificate (part : Bytes) (remainder : Nat)
  | challengeAuth (slot : Nat) (chain : BitVec 256) (nonce : BitVec 256) (signature : Nat)
  | measurements (blocks : List (Nat × Bytes)) (signed : Nat)
  | keyExchange (sid : Nat)
  | heartbeatAck
  | keyUpdateAck
  | vendor (opcode : BitVec 16) (rc : MbRc) (out : MbOut)
  | error (code : String)
deriving DecidableEq, Repr

/-- The state of one function's own interfaces, keyed 32 × head + 16 × fm + ld (R48, R64, R66). -/
structure FnSt where
  /-- Response message limit (R67; reset 12: 2^12 bytes is the 4 KiB payload of R66, DESIGN CHOICE, log 33). -/
  limit : Byte := 12#8
  /-- The alert configuration (R67; reset 0, DESIGN CHOICE, log 33). -/
  alerts : W64 := 0#64
  /-- The last mailbox answer (R66; reset none). -/
  rsp : Option MbRsp := none
  /-- The last DOE answer (R64; reset none). -/
  doe : DoeRsp := .none
  /-- HDM decoders, by number, those committed (R71; reset none). -/
  decs : Table (Option Decoder) := []
  /-- Event records, oldest first, at most 32 (R55; reset none). -/
  events : List EvRec := []
  /-- Event logs that have overflowed (R55; reset none). -/
  evOver : List EvLog := []
  /-- Get Poison List's continuation: range and last DPA returned (R456; reset none). -/
  poisonPos : Option (Nat × Nat × Nat) := none
  /-- The last decoder commit failed with Commit Error (R73; reset 0). -/
  commitErr : Bool := false
  /-- Base address registers of BAR0 and BAR2 (R419; reset 0, DESIGN CHOICE, log 117). -/
  bar0 : W64 := 0#64
  bar2 : W64 := 0#64
  /-- The mailbox Command register and the bytes written to the payload, by offset (R66, R420, R426; reset 0, DESIGN CHOICE, log 117). -/
  mbCmd : W64 := 0#64
  payload : Table Byte := []
  /-- The data last read from a register (R426; reset none). -/
  readData : Option W64 := none
deriving DecidableEq, Repr

/-- A read of the log store: the sizes of the logs, a part of the fault log, log sizes by number, or records from a SEQ on (R67, R68, R398). -/
inductive LogAsk where
  | sizes
  | part (offset length : Nat)
  | sub (start count : Nat)
  | records (first count : Nat)
deriving DecidableEq, Repr

/-- An SPDM session (R355), keyed by session id. -/
structure Session where
  head : Nat
  /-- The requester's root certificate digest equals a tenant's or operator's trusted root (R277). -/
  root : BitVec 256
deriving DecidableEq, Repr

/-- Poison list entries: DPA and length (R456). -/
structure PoisonEntry where
  dpa : Nat
  len : Nat
deriving DecidableEq, Repr

structure PoisonList where
  /-- Entries in ascending DPA, at most 4,096 (R456; reset empty). -/
  entries : List PoisonEntry := []
  /-- Poison List Overflow: the timestamp of the first loss (R456; reset none). -/
  overflow : Option Nat := none
deriving DecidableEq, Repr

/-- The kinds of BISnp (R110). -/
inductive BiKind where | inv | data | cur
deriving DecidableEq, Repr

inductive Ndr where | cmp | cmpS | cmpE | biConflictAck
deriving DecidableEq, Repr

inductive CplStatus where | success | unsupported | abort
deriving DecidableEq, Repr

/-- What the device sends on a head's link. -/
inductive LinkMsg where
  | memData (tag : BitVec 16) (data : Line) (poison : Bool)
  | ndr (tag : BitVec 16) (k : Ndr)
  | biSnp (biTag : BitVec 16) (line : LineAddr) (k : BiKind)
  | biAck (biTag : BitVec 16)
  | atomicCpl (tag : BitVec 16) (st : CplStatus) (value : W64)
  | cpl (st : CplStatus) (value : W64)
  | rrs
  /-- A configuration request's completion, with the value read where the spec gives one. -/
  | cfgCpl (value : Option Nat)
  | aer (what : String)
deriving DecidableEq, Repr

/-- The host side of the device outside the functions. -/
structure Host_ where
  /-- Ports, keyed by port number (R37–R53; reset: links down). -/
  ports : Table Port := []
  /-- Function interfaces (R66; reset: empty). -/
  fns : Table FnSt := []
  /-- What has been sent on each head's link, newest first (reset nothing). -/
  sent : List (Nat × LinkMsg) := []
  /-- Warning second of each head: the last second in which a packed write was logged, plus 1 (R59; reset 0). -/
  packedWarn : Table Nat := []
  /-- SPDM sessions by id (R355; reset none). -/
  sessions : Table (Option Session) := []
  /-- Session ids given out so far (R355; reset 0). -/
  nextSid : Nat := 0
  /-- The background operation: opcode, its progress, its end code (R66; reset none). -/
  bg : Option (BitVec 16 × Bool × MbRc) := none
  /-- Reads of the log store that SV holds during the hint path, oldest first (R393; reset none). -/
  logHeld : List (Fn × LogAsk) := []
  /-- Functions whose Clear Log waits for its clear mark to be written, oldest first (R398; reset none). -/
  clearing : List Nat := []
  /-- Heads that stand as MLD in the running image: number of LDs, keyed by head (R45; reset SLD). -/
  lds : Table Nat := []
  /-- Surroundings as in force, 80 bytes (R68; reset: the image's, none before Dawn 3). -/
  surr : Bytes := []
  /-- Surroundings fields last set by mailbox (R68; reset 0). -/
  surrSet : BitVec 5 := 0#5
deriving DecidableEq, Repr

/-- A fill under way (R90): its range, region, extent if it is a release's, and whether the requests that had passed ingress have completed. -/
structure Fill where
  base : Nat
  len : Nat
  region : Nat
  ext : Option Nat
  drained : Bool
  /-- Pages whose copies and holders have been asked for their lines. -/
  swept : List Nat
  /-- Tiles whose share is filled, bit t. -/
  done : BitVec 8
deriving DecidableEq, Repr

/-- The address map: catalogue, views, Dynamic Capacity, poison (R69–R90). -/
structure AddrMap where
  /-- The region catalogue (R77; reset empty). -/
  cat : List Region := []
  /-- The view table (R78; reset empty). -/
  views : List View := []
  /-- Declared extents by index (R61; reset none). -/
  decls : List ExtDecl := []
  /-- Where each extent stands (R62; reset free). -/
  exts : Table ExtState := []
  /-- The poison list (R456). -/
  poison : PoisonList := {}
  /-- Fills under way by number (R90; reset none), and how many have started. -/
  fills : Table (Option Fill) := []
  nextFill : Nat := 0
  /-- Region of the last range whose fill ended on each tile (HA_FILL_STS REGION; reset 0). -/
  lastFill : Table Nat := []
deriving DecidableEq, Repr

end Sys2Proof.Machine
end

