-- ==== Sys2Proof/Machine/StMedia.lean ====
section
/-!
DEFINITION. The media tiers' state: the line records and placement map, DRAM sub-channels and DIMM channels.
-/
namespace Sys2Proof.Machine

/-- A line record (R83): eight data words, their check bytes, the 56-bit metadata word and its check byte. -/
structure Rec where
  data : Line := 0#512
  chk : W64 := 0#64
  meta_ : BitVec 56 := 0#56
  mchk : Byte := 0#8
deriving DecidableEq, Repr

/-- STATE of a placement entry (R81); `bad` is the reserved encoding. -/
inductive PageSt where | unwritten | dram | nvm | bad
deriving DecidableEq, Repr

/-- A placement entry (R81): the model keeps the walkers' TIER_INFO and flags beside the frame. -/
structure Place where
  st : PageSt := .unwritten
  pin : Bool := false
  moving : Bool := false
  tier : BitVec 16 := 0#16
  frame : Nat := 0
  /-- TIER_INFO of the stored entry while the placement-entry cache holds a newer one, `tier` (R211); none: they agree. -/
  stored : Option (BitVec 16) := none
deriving DecidableEq, Repr

inductive SubState where | absent | training | service | out
deriving DecidableEq, Repr

/-- Why a sub-channel is out of service (DR_CH_STS). -/
inductive SubReason where | none | unsupported | training | interleave | efuse | pmic | phy
deriving DecidableEq, Repr

/-- A run of the training helpers (R167): the operation, or none. -/
inductive TrnOp where | writeRead | read | write | pattern | level
deriving DecidableEq, Repr

/-- A request in a queue of a sub-channel (R156, R157): its line F, its class priority, and whether it goes before any other: it has waited longer
than AGE_MAX. One that the channel holds for Dusk has its place, from 1, in the order of arrival (R165, R166). -/
structure DrReq where
  f : Nat
  prio : Nat := 0
  first : Bool := false
  held : Nat := 0
deriving DecidableEq, Repr

/-- The controller's timing registers, in the management processors' local space (R154): the refresh figures, tRP and tREFSBRD in ns, the controller
clock in MHz, and the access timings. -/
structure DrTiming where
  tRfc1 : Nat := 0
  tRfc2 : Nat := 0
  tRfcSb : Nat := 0
  tRp : Nat := 0
  tRefSbRd : Nat := 0
  mhz : Nat := 0
  times : AccessTimes := {}
deriving DecidableEq, Repr

/-- A DDR5 sub-channel (R152–R178), keyed by d. -/
structure SubCh where
  /-- STATE (DR_CH_STS; reset not populated). -/
  st : SubState := .absent
  /-- REASON (reset none). -/
  reason : SubReason := .none
  /-- Queued writes, oldest first: the first 64 are the write queue, those behind them wait for an entry (R156; reset empty). -/
  wq : List DrReq := []
  /-- Queued reads, oldest first: the first 64 are the read queue, those behind them wait for an entry (R156; reset empty). -/
  rq : List DrReq := []
  /-- Lines F read from the medium whose record has not been taken (R156; reset none). -/
  back : List Nat := []
  /-- The write direction: writes were the last commands issued (R158; reset read). -/
  writing : Bool := false
  /-- It turned back to reads after 32 writes, and no read has been issued since (R158; reset 0). -/
  turned : Bool := false
  /-- Consecutive hits each open row has served while an older request to its bank waited, keyed as rows (R157; reset 0). -/
  hits : Table Nat := []
  /-- Activations of each bank since its last RFM, keyed as rows (R155; reset 0). -/
  acts : Table Nat := []
  /-- The RFM threshold in use; 0 where refresh management is off (R155; reset 0, DESIGN CHOICE, log 120). -/
  raa : Nat := 0
  /-- Timing registers, as Dawn 4 writes them (R154; reset 0, DESIGN CHOICE, log 120). -/
  timing : DrTiming := {}
  /-- Refresh debt D of each rank (R160; reset 0). -/
  debt : Table Nat := []
  /-- Done flags of each rank in same-bank mode (R160; reset clear). -/
  flags : Table (BitVec 4) := []
  /-- Ranks at the halved interval (R159; reset none). -/
  high : BitVec 16 := 0#16
  /-- Open rows, keyed 32 × rank + 4 × bank group + bank: row + 1, 0 closed (R157; reset closed). -/
  rows : Table Nat := []
  /-- Banks that owe an RFM, keyed as rows (R155; reset none). -/
  rfm : List Nat := []
  /-- Position of the scrubber: lines of the pass done (R171; reset 0). -/
  scrub : Nat := 0
  /-- PASSES (DR_SCRUB_STS; reset 0). -/
  passes : Nat := 0
  /-- BEHIND (DR_SCRUB_STS; reset 0). -/
  behind : Bool := false
  /-- Lines the scrubber is behind schedule (R173; reset 0). -/
  lag : Nat := 0
  /-- Corrected and uncorrectable words of the last second: when in µs, and how many, newest first (R174, R177; reset none). -/
  ce : List (Nat × Nat) := []
  ue : List (Nat × Nat) := []
  /-- A training helper runs: START reads 1 (R167; reset none). -/
  trn : Option TrnOp := none
  /-- ERRCNT (DR_TRN_STS; reset 0). -/
  errs : Nat := 0
  /-- Lanes that failed or captured 1 (reset 0). -/
  lanes : BitVec 40 := 0#40
  /-- PHY settings, keyed 1,024 × kind + 16 × lane + rank (R167; reset 0, DESIGN CHOICE, log 40). -/
  phy : Table (BitVec 10) := []
  /-- The DRAM's Vref, mode register 10 of each device, keyed 16 × device + rank (R169; reset 0, DESIGN CHOICE, log 40). -/
  vref : Table (BitVec 10) := []
deriving DecidableEq, Repr

inductive DuskSt where | awake | entering | asleep | waking
deriving DecidableEq, Repr

/-- A DIMM channel (R148), keyed 8 × t + c. -/
structure DimmCh where
  /-- Dusk (R164–R166; reset awake). -/
  dusk : DuskSt := .awake
  /-- The DIMM that Dawn found, used or not (R151; reset none). -/
  seen : Option Spd := none
  /-- The DIMM that Dawn found and uses (R149; reset none). -/
  spd : Option Spd := none
  /-- Its PHY has lost lock (R178; reset 0). -/
  unlocked : Bool := false
  /-- Entry was abandoned by a request, which proceeds once D is paid (R165; reset 0). -/
  abandon : Bool := false
  /-- When entry started, µs, and how long step 2 takes, ns (R165; reset 0). -/
  since : Nat := 0
  pay : Nat := 0
  /-- A request came at or after step 3 of entry: exit starts when entry is complete (R165; reset 0). -/
  leave : Bool := false
  /-- The RCD is configured, an MRDIMM's MDB too, and the PMIC enabled (R151; reset not). -/
  rcd : Bool := false
  mdb : Bool := false
  pmic : Bool := false
  /-- On-die ECC and automatic on-die error check and scrub are on (R155; reset on). -/
  onDie : Bool := true
deriving DecidableEq, Repr

structure Dram where
  /-- Sub-channels by d. -/
  subs : Table SubCh := []
  /-- DIMM channels, keyed 8 × t + c. -/
  dimms : Table DimmCh := []
  /-- Line records by location, keyed 2^40 × t + F (R83, R152; contents not relied on after reset, R335). -/
  recs : Table Rec := []
  /-- ENTERED and IN_DUSK stand in the register file and in `dimms`. DRAM_STOP per tile (TR_STS, R217; reset 0). -/
  stop : BitVec 8 := 0#8
deriving DecidableEq, Repr

end Sys2Proof.Machine
end

