-- ==== Sys2Proof/Machine/StFabric.lean ====
section
/-!
DEFINITION. The coherent fabric's state: Koist links and messages, near caches with their trackers, eviction buffers, predictors and
range engines, and the home agents' directory caches, transactions, line queues and evictions.
-/
namespace Sys2Proof.Machine

/-- Koist message opcodes, in the order of R457. -/
inductive Op where
  | rdShared | rdOwn | rdCur | wrLine | wrPart | hostCe
  | snpInv | snpShare | snpOwn | snpCur
  | datS | datE | datX | grant | fwdNote | wbAck | cmp | biSnpReq | biAckReq
  | snpRspI | snpRspIData | snpRspFwd | snpRspFwdS | wbData | biRspFwd | hostWb | biConflictFwd
  | fdatS | fdatE | fdatM | fdatX
  | farAtom | atomRes
deriving DecidableEq, Repr

/-- A line's value above the crypto block: data, the eight check bytes of R22, POISON and ERR (R97). -/
structure LVal where
  data : Line := 0#512
  chk : W64 := 0#64
  poison : Bool := false
  err : Bool := false
deriving DecidableEq, Repr

/-- The request attributes of R26. -/
structure Attr where
  head : Nat := 0
  cls : Nat := 0
  key : BitVec 12 := 0#12
  /-- Source kind: 0 host, 1 job, 2 walker, 3 firmware. -/
  kind : Nat := 0
  /-- The LD a host request came from: it names the cause of a data error, and no hop carries it (R56). -/
  ld : Nat := 0
  /-- Its head has been reset since: the response is discarded (R52). -/
  mute : Bool := false
deriving DecidableEq, Repr

/-- An atomic's operation as FarAtom carries it (R142). -/
structure AtomOp where
  kind : AtomKind
  size : Nat
  /-- DPA[5:0]. -/
  off : Nat
  operand : W64
  compare : W64
deriving DecidableEq, Repr

/-- A Koist message (R97, R142); fields a message does not carry keep their defaults. -/
structure Msg where
  op : Op
  src : Nat
  dst : Nat
  line : Nat
  trk : Nat := 0
  attr : Attr := {}
  /-- The requesting head is one whose view entry is HDM-DB (R92, R458). -/
  db : Bool := false
  hk : Nat := 0
  mv : Mv := .noop
  have1 : Bool := false
  /-- Q of a snoop, the owner of a FwdNote. -/
  q : Nat := 0
  val : LVal := {}
  mask : W64 := 0#64
  bik : BiKind := .inv
  biTag : BitVec 16 := 0#16
  ans : BiAns := .i
  ndr : Ndr := .cmp
  /-- New state of SnpRspFwd: S, or else I or unchanged (R97). -/
  newS : Bool := false
  newI : Bool := false
  atom : Option AtomOp := none
  orig : W64 := 0#64
  qbusy : Bool := false
  /-- The home tracker it holds is one of the shared pool (R312). -/
  shared : Bool := false
  /-- WrPart of Inject Poison and Clear Poison (R460): store with this POISON. -/
  setPoison : Option Bool := none
  /-- A REQ message that has waited 2 µs at a fabric port: it is sent next (R314). -/
  aged : Bool := false
deriving DecidableEq, Repr

/-- What waits at a tile for a line (R102, R131, R138): the tile's own operations. -/
inductive WOp where
  /-- A host read: its tag, HK, MV; HDM-DB view; unwritten-read counting by head. -/
  | hostRd (a : Attr) (tag : BitVec 16) (hk : Nat) (mv : Mv) (db : Bool)
  | hostWr (a : Attr) (tag : BitVec 16) (mv : Mv) (db : Bool) (mask : W64) (full : Bool) (v : LVal)
  | hostEvict (a : Attr) (tag : BitVec 16)
  | atom (a : Attr) (tag : BitVec 16) (op : AtomOp) (far : Bool)
  | preload
  | clean
  | inv
  /-- UNLOCK's step on a line in a transient state (R138). -/
  | unlock
  /-- A firmware or TAP read, and a write. -/
  | fwRd (tap : Bool)
  | fwWr (tap : Bool) (v : LVal)
  /-- A job's read or write of a line: ring, descriptor count, part, and the line's place in the part. -/
  | jobRd (a : Attr) (ring : Nat) (n : Nat) (part : Nat) (idx : Nat)
  | jobWr (a : Attr) (ring : Nat) (n : Nat) (part : Nat) (idx : Nat) (mask : W64) (full : Bool) (v : LVal)
  /-- A descriptor fetch, and a completion record's write. -/
  | descRd (a : Attr) (ring n : Nat)
  | cqWr (a : Attr) (ring : Nat) (n : Nat) (mask : W64) (v : LVal)
  /-- Inject Poison and Clear Poison (R460), for the function that sent them. -/
  | poisonCmd (fn : Nat) (clear : Bool) (v : LVal)
deriving DecidableEq, Repr

/-- Transient states of R99 that a requester tracker holds; `x` is a request that fills no line. -/
inductive TrkState where | isD | isF | isN | imD | imF | imN | smD | x
deriving DecidableEq, Repr

/-- How a near atomic's line came (R146). -/
inductive FillKind where | hit | forwarded | home
deriving DecidableEq, Repr

/-- A requester tracker (R98, R99), keyed 2^42 × tile + line. -/
structure Trk where
  id : Nat := 0
  st : TrkState := .x
  /-- The way of the slot it owns, for a fill. -/
  way : Option Nat := none
  /-- The request it sends. -/
  req : Option Msg := none
  /-- The request waits for an eviction buffer and has not been sent (R130). -/
  unsent : Bool := false
  /-- What forwarded or home data it has installed (IS_N, IM_N). -/
  val : LVal := {}
  /-- The installed line came by FDatM or has been modified since. -/
  dirty : Bool := false
  fill : FillKind := .home
  /-- Deferred snoops, oldest first (R100). -/
  deferred : List Msg := []
  /-- What a request that fills no line has received: data, and the kind of Cmp. -/
  got : Option LVal := none
  ndr : Option Ndr := none
  /-- The slot it fills is to be locked (R133, R134). -/
  lock : Bool := false
  /-- The installed line has failed its check: it serves nothing, and is dropped or written back when its note arrives (R57, R139). -/
  bad : Bool := false
  /-- Its request is over, and it stays to sink forwarded data that is still on its way (R98). -/
  sink : Bool := false
  /-- Place in the order in which the tiles' requests took their trackers (R331). -/
  seq : Nat := 0
  live : Bool := false
deriving DecidableEq, Repr

inductive LineSt where | i | s | e | m
deriving DecidableEq, Repr

/-- A near-cache slot (R124), keyed (65,536 × t + set) × 16 + way. -/
structure Slot where
  tag : BitVec 26 := 0#26
  st : LineSt := .i
  lock : Bool := false
  val : LVal := {}
  /-- An M copy that failed its check and waits for an eviction buffer: it serves nothing (R139). -/
  bad : Bool := false
deriving DecidableEq, Repr

/-- Range engine operations (R137). -/
inductive RangeOp where | clean | inv | cleanAll | invAll | preloadLock | unlock
deriving DecidableEq, Repr

/-- A range engine (R137). -/
structure RangeEng where
  /-- The running operation: START reads 1. -/
  run : Option RangeOp := none
  /-- Lines the operation still waits on. -/
  waits : List Nat := []
  /-- Lines a PRELOAD_LOCK has still to reach: the next, and how many. -/
  next : Nat := 0
  left : Nat := 0
  /-- Lines that a PRELOAD_LOCK has written back from the slots it took (R137). -/
  wbs : List Nat := []
  skipped : Nat := 0
deriving DecidableEq, Repr

/-- A predictor entry (R145), keyed 1,024 × t + index. -/
structure PredEnt where
  v : Bool := false
  cnt : Nat := 0
  tag : BitVec 10 := 0#10
deriving DecidableEq, Repr

/-- A tile's egress state: an atomic in flight keeps its line's mode (R143), keyed as a tracker. -/
structure NearCache where
  /-- Line slots (R124; reset all I). -/
  slots : Table Slot := []
  /-- PLRU bits b0 to b14 of each set, keyed 65,536 × t + set (R127; reset 0). -/
  plru : Table (BitVec 15) := []
  /-- Requester trackers (R98; reset none). -/
  trks : Table Trk := []
  /-- Requester trackers taken since reset (R331; reset 0). -/
  trkSeq : Nat := 0
  /-- Operations waiting on a line, oldest first, keyed as trackers (R102; reset none). -/
  ops : Table (List WOp) := []
  /-- Eviction buffers in MI_A, keyed as trackers (R130; reset none). -/
  evb : Table (Option LVal) := []
  /-- The tile's near cache has taken its first fill (R132; reset 0). -/
  filled : BitVec 8 := 0#8
  /-- Range engines (R137; reset idle). -/
  range : Table RangeEng := []
  /-- Scratch words, keyed by 2^23 × t + 2^19 × (way − 8) + offset within the way ÷ 8: data and check byte (R136; not defined after reset: reads a free value). -/
  scratch : Table (Option (W64 × Byte)) := []
  /-- What the last scratch access answered: a value, or a bus error (R135, R136; reset none). -/
  scrOut : Option (Option W64) := none
  /-- What the last firmware memory request answered: a line, or a bus error (R307; reset none). -/
  fwOut : Option (Option Line) := none
  /-- The contention predictors (R145; reset cleared). -/
  pred : Table PredEnt := []
deriving DecidableEq, Repr

inductive TileSt where | none | shared | owned
deriving DecidableEq, Repr

inductive HSt where | i | s | a | e
deriving DecidableEq, Repr

/-- A directory-cache entry (R94), keyed (131,072 × t + set) × 16 + way. BUSY and TRK are those of the open transaction or eviction. -/
structure DirEnt where
  v : Bool := false
  /-- The line's address: TAG and the set give its local number L (R93); lines of one packed block share L, so the model keeps the whole
  address (DEDUCED, log 44). -/
  line : Nat := 0
  ts : TileSt := .none
  tvec : BitVec 8 := 0#8
  hst : HSt := .i
  holder : Nat := 0
  hvec : W64 := 0#64
  mdirty : Bool := false
  /-- HSTATE and HOLDER as the stored metadata word has them, known since the entry was allocated (R95). -/
  stHst : HSt := .i
  stHolder : Nat := 0
  /-- The stored parity bit does not match (R120). -/
  badParity : Bool := false
  /-- TS reads 0b11 (R94, R120). -/
  tsBad : Bool := false
  /-- The metadata word of an HDM-DB line has not been read yet (R95). -/
  unread : Bool := false
  /-- It stands in way 15 while its victim is evicted, and moves to the freed way (R118). -/
  guest : Bool := false
deriving DecidableEq, Repr

/-- A transaction or an eviction at a home agent (R106–R113, R119), keyed by line. -/
structure Txn where
  live : Bool := false
  /-- The request it serves; none for an eviction. -/
  req : Option Msg := none
  /-- Tracker number: 0–4,095 requests, 4,096–4,159 evictions (R94). -/
  trk : Nat := 0
  /-- It is an eviction (R119). -/
  evict : Bool := false
  /-- Another request waited, or another tile owned the line, when the lock was taken (R142). -/
  qbusy : Bool := false
  /-- RdOwn with HAVE 1 of a tile in TVEC: Grant (R107). -/
  grant : Bool := false
  /-- The metadata word of a new entry has not been read yet (R95). -/
  metaWait : Bool := false
  /-- Tiles whose snoop response is awaited. -/
  snoops : BitVec 8 := 0#8
  /-- The owner the request was forwarded to, and whether its answer is awaited. -/
  owner : Option Nat := none
  /-- BISnps awaited: head, tag, kind, and whether the head may hold the line dirty (E holder or A). -/
  bis : List (Nat × BitVec 16 × BiKind × Bool) := []
  /-- BIRsp answers so far: head and answer. -/
  answers : List (Nat × BiAns) := []
  /-- A media read is outstanding. -/
  media : Bool := false
  /-- The line's value, from media, from a write-back or from a snoop response. -/
  val : Option LVal := none
  /-- The record as read, when the value came from media. -/
  raw : Option Rec := none
  /-- `val` is dirty data that came back to this transaction. -/
  fresh : Bool := false
  /-- Host write-backs to merge: byte mask and data, oldest first (R106, R111). -/
  merges : List (W64 × LVal) := []
  /-- The owner has forwarded the data: SnpRspFwd or SnpRspFwdS arrived. -/
  forwarded : Bool := false
  /-- The line is to be poisoned when the transaction ends (R110, R113, R455). -/
  spoil : Bool := false
  /-- The request meets a data error at the home (R57, R178, R209, R213, R281). -/
  fail : Bool := false
  /-- The eviction of an entry that was lost (R120). -/
  lost : Bool := false
  /-- The eviction was begun by a miss that found way 15 occupied, and that miss takes the freed way (R118). -/
  claimed : Bool := false
  /-- The line had an owner tile, a host E holder or state A when the transaction took its lock, or since (R455). -/
  owned : Bool := false
deriving DecidableEq, Repr

/-- The home agents. -/
structure HomeAgents where
  /-- Directory caches (R93, R94; reset empty). -/
  dir : Table DirEnt := []
  /-- PLRU bits of each directory set, keyed 131,072 × t + set (R93; reset 0). -/
  dplru : Table (BitVec 15) := []
  /-- Transactions and evictions, keyed by line (R106; reset none). -/
  txns : Table Txn := []
  /-- Line queues, oldest first, keyed by line (R121; reset none). -/
  lq : Table (List Msg) := []
  /-- Misses waiting for a way, oldest first, keyed 131,072 × t + set (R118; reset none). -/
  allocQ : Table (List Msg) := []
  /-- The tile that won the last tie, plus 1 (R116; reset 0: none yet). -/
  lastTie : Table Nat := []
  /-- BI tags given out at each head (R110; reset 0). -/
  biNext : Table Nat := []
  /-- Line locks held by walkers, keyed by line (R106, R223; reset none). -/
  walkLock : Table Bool := []
  /-- Lines whose lock a Twilight walker waits for: it goes before drift refresh (R223; reset none). -/
  twWait : List Nat := []
  /-- Snoops that wait because their home has 32 outstanding to their tile, oldest first (R98; reset none). -/
  snoopQ : List Msg := []
  /-- Output lines of decompressions that wait to enter the home near cache, oldest first (R31, R251; reset none). -/
  fillQ : List Msg := []
  /-- Write-backs waiting in write-back buffers, keyed by line (R98, R106; reset none). -/
  wbuf : Table (List Msg) := []
  /-- Lines written since their page was materialised or filled, keyed by page: a model's record for R88 (log 41; reset none). -/
  written : Table (BitVec 64) := []
deriving DecidableEq, Repr

/-- The Koist fabric. -/
structure Fabric where
  /-- REQ messages in transit, by no order (R96; reset none). -/
  req : List Msg := []
  /-- HOM messages in transit, oldest first (R96; reset none). -/
  hom : List Msg := []
  /-- RSP messages in transit, oldest first (R96; reset none). -/
  rsp : List Msg := []
  /-- FWD messages in transit (R96; reset none). -/
  fwd : List Msg := []
  /-- Weighted round robin of the REQ messages of one PRIO at one output port, keyed by 256 times the port's tile, 32 times its neighbour's place and the PRIO:
  the class served last and how many of its messages have gone in its turn (R314; reset none). -/
  reqTurn : Table (Nat × Nat) := []
  /-- Modules in service of each Koist link, bit m (R17; reset 0: Dawn 0 trains them). -/
  modules : Table (BitVec 4) := []
deriving DecidableEq, Repr

end Sys2Proof.Machine
end

