-- ==== Sys2Proof/Machine/StJobs.lean ====
section
/-!
DEFINITION. Job rings, jobs and parts (R227–R244), packed assets (R245–R274), and regulation and admission (R310–R333).
-/
namespace Sys2Proof.Machine

inductive RingSt where | disabled | initialising | running | aborting | disabling | stopped
deriving DecidableEq, Repr

/-- A ring block (R227, R228), keyed by r. -/
structure Ring where
  /-- STATE (RING_STS; reset disabled). -/
  st : RingSt := .disabled
  /-- TAIL_ERR, CQH_ERR, CFG_ERR, CFG_CODE (reset 0). -/
  tailErr : Bool := false
  cqhErr : Bool := false
  cfgErr : Bool := false
  cfgCode : Nat := 0
  /-- RING_TAIL, RING_HEAD, RING_CQ_TAIL, RING_CQ_HEAD (reset 0). -/
  tail : W32 := 0#32
  head : W32 := 0#32
  cqTail : W32 := 0#32
  cqHead : W32 := 0#32
  /-- INFLIGHT (reset 0). -/
  inflight : Nat := 0
  /-- RING_CFG (reset 0). -/
  cfg : W32 := 0#32
  /-- RING_DBASE, RING_CBASE (reset 0). -/
  dbase : W64 := 0#64
  cbase : W64 := 0#64
  /-- MARK of an abort or disable (R240, R242; reset 0). -/
  mark : W32 := 0#32
  /-- A disable is under way from stopped: only parts still running are waited for (R242; reset 0). -/
  quiet : Bool := false
  /-- Serving tile in the route tables (R227; reset none). -/
  route : Option Nat := none
  /-- A descriptor read is under way: for a fetch, or for its USER word only (R232, R240; reset none). -/
  reading : Option Bool := none
  /-- Descriptor reads begun: the tag by which the model tells a read that a stop has overtaken (R232, R243; reset 0). -/
  reads : Nat := 0
  /-- Records to write, oldest first: n, STATUS, FLAGS without PHASE, DETAIL, USER; the first is being written when `writing` (R238). -/
  outq : List (Nat × Nat × Nat × Nat × W64) := []
  writing : Bool := false
  /-- Queue lines still to zero while initialising, and whether a write met a data error (R229). -/
  zeroLeft : Nat := 0
  zeroBad : Bool := false
deriving DecidableEq, Repr

/-- Status codes (R239). -/
inductive JobStatus where
  | success | badType | badDesc | noRegion | accessType | keyMismatch | poisonSrc | dataError | aborted | incompressible | outputFull
  | descError
deriving DecidableEq, Repr

/-- What an ingest part reports (R267). -/
structure BlkRes where
  fmt : Nat
  dblk : Nat
  clen : Nat
  run : Nat
  units : Nat
deriving DecidableEq, Repr

/-- A part's report. -/
structure PartRes where
  j : Nat
  status : JobStatus
  /-- Byte offset of the failing line from DST. -/
  off : Nat
  cancelled : Bool
  /-- More than one line of it failed. -/
  multi : Bool
  tile : Nat
  blk : Option BlkRes
deriving DecidableEq, Repr

/-- A job in a job slot (R232–R238), keyed 2^32 × ring + n. -/
structure Job where
  tile : Nat
  desc : Bytes
  /-- The descriptor read met poison or a data error (R239). -/
  descBad : Bool := false
  started : Bool := false
  /-- The ZHOQ header being read during the checks (R266). -/
  hdr : Option Bytes := none
  hdrAsked : Bool := false
  /-- The header read met poison or a data error. -/
  hdrBad : Option JobStatus := none
  /-- Parts in all, and the next to dispatch. -/
  parts : Nat := 0
  next : Nat := 0
  reports : List PartRes := []
  /-- Cancelled whole by an abort (R240). -/
  cancelled : Bool := false
  /-- Tiles whose commit has not ended (R271). -/
  commit : List Nat := []
  committing : Bool := false
  /-- Blocks whose map-entry write met a data error (R271). -/
  lostBlks : List Nat := []
  /-- Its outcome is decided and its record queued. -/
  ended_ : Bool := false
deriving DecidableEq, Repr

inductive PartPhase where | lines | reading | waitComp | compressing | waitDec | validating | done
deriving DecidableEq, Repr

/-- A part in a part slot (R235), keyed (2^32 × ring + n) × 2^20 + j. -/
structure Part where
  tile : Nat
  phase : PartPhase := .lines
  /-- Source lines still to read, and what has been read. -/
  todo : List Nat := []
  buf : Table (Option Line) := []
  /-- Destination lines being written. -/
  writes : Nat := 0
  /-- The first failing line's status and offset, and whether more failed. -/
  fail : Option (JobStatus × Nat) := none
  multi : Bool := false
  /-- A stream validated or compressed, and its DEFLATE blocks. -/
  stream : Bytes := []
  dblk : Nat := 0
  res : Option BlkRes := none
  since : Nat := 0
deriving DecidableEq, Repr

structure Jobs where
  /-- Ring blocks (reset: disabled). -/
  rings : Table Ring := []
  /-- Jobs in job slots (reset none). -/
  jobs : Table (Option Job) := []
  /-- Parts in part slots (reset none). -/
  parts : Table (Option Part) := []
  /-- The ring served last by each tile's descriptor fetch, plus 1 (R232; reset 0). -/
  rr : Table Nat := []
  /-- Outcomes of job and firmware accesses not yet taken up by the job engine: what ended, its value, and whether it met a data error. -/
  done : List (WOp × LVal × Bool) := []
  /-- Parts that have queued for a compressor or for validation so far: their order (R267, R268; reset 0). -/
  nextSeq : Nat := 0
  /-- The job whose part each serving tile dispatched last, plus 1 (R235; reset 0). -/
  turn : Table Nat := []
deriving DecidableEq, Repr

/-- A map entry (R249), keyed ((1,024 × t) + region) × 2^24 + map index. -/
structure MapEnt where
  run : Nat := 0
  fmt : Nat := 0
  dblk : Nat := 0
  clen : Nat := 0
  gen : Nat := 0
  /-- Units of the run the block holds, 0 for none: the model's record of what a commit frees (R248, R271). -/
  units : Nat := 0
deriving DecidableEq, Repr

/-- A decompression in flight (R251). -/
structure Decomp where
  tile : Nat
  region : Nat
  block : Nat
  /-- A decompressor has been granted. -/
  granted : Bool
  /-- It is the second attempt (R254). -/
  second : Bool
  /-- Its first attempt has failed and waits for the tags. -/
  failed : Bool
  /-- Lines that reads wait for. -/
  waits : List Nat
  /-- The block's map entry is still being read from the map area (R251). -/
  mapWait : Bool := false
  /-- The decompressor's output buffer: what a failed attempt has output (R31, R254). -/
  out : Bytes := []
deriving DecidableEq, Repr

/-- A job's commit on a tile, and how many of its blocks there have been applied (R271). -/
structure Commit where
  tile : Nat
  ring : Nat
  n : Nat
  applied : Nat := 0
deriving DecidableEq, Repr

/-- A block lock that a commit holds, and the lines whose reads wait for it (R251, R271). -/
structure BlkLock where
  tile : Nat
  region : Nat
  block : Nat
  waits : List Nat := []
deriving DecidableEq, Repr

structure Packed where
  /-- Map entries (reset zero). -/
  maps : Table MapEnt := []
  /-- Units in use: (tile, region) to the runs held, as start and length (R248; reset none). -/
  runs : Table (List (Nat × Nat)) := []
  /-- Allocation cursors, keyed 1,024 × t + region (R248; reset 0). -/
  cursor : Table Nat := []
  /-- Decompressions in flight, oldest first (R251; reset none). -/
  decs : List Decomp := []
  /-- Commits that have reached a tile and not ended, oldest first (R271; reset none). -/
  commits : List Commit := []
  /-- Block locks held by commits (R271; reset none). -/
  locks : List BlkLock := []
  /-- The block-map caches, keyed 65,536 × t + 8 × set + way: region and map index plus 1 (R249; reset empty). -/
  mapCache : Table Nat := []
  /-- Lines of the free-unit bitmaps whose write waits for its store page: tile, region, line of the map area (R248, R291; reset none). -/
  mapDirty : List (Nat × Nat × Nat) := []
deriving DecidableEq, Repr

/-- A class table entry (R310). -/
structure ClassEnt where
  prio : Nat := 0
  weight : Nat := 1
  shed : Nat := 0
  floorRd : Nat := 0
  floorWr : Nat := 0
  lat : Nat := 0
  pNvm : Nat := 0
  pPacked : Nat := 0
  pProt : Nat := 0
  ingest : Nat := 0
  cap : Nat := 1024
deriving DecidableEq, Repr

/-- A CXL.mem request in a head's hold queue (R313). -/
structure HeldReq where
  op : WOp
  line : Nat
  cls : Nat
  home : Nat
deriving DecidableEq, Repr

/-- Regulation and admission. -/
structure Qos where
  /-- The class table (R310; reset: the registers' reset values). -/
  cls : List ClassEnt := []
  /-- Hold queues, oldest first, keyed by head (R313; reset empty). -/
  hold : Table (List HeldReq) := []
  /-- Round robin of the shared pool at each home: the tenant granted last plus 1 at key `home`, and the head of a tenant granted last plus 1 at key
  1,024 × (home + 1) + tenant (R331; reset 0). -/
  poolRr : Table Nat := []
  /-- Host requests outstanding, keyed 16 × head + class (R313; reset 0). -/
  out : Table Nat := []
  /-- EVAL_BUSY: a re-evaluation runs, and its trigger (R328; reset none). -/
  busy : Option Nat := none
  /-- RESULT (QOS_STS; reset admitted). -/
  result : Nat := 0
  /-- DUSK_OFF (QOS_STS; reset 0). -/
  duskOff : Bool := false
  /-- HOT (QOS_STS; reset 0). -/
  hot : Bool := false
  /-- SHED_MASK (QOS_STS; reset 0). -/
  shed : BitVec 16 := 0#16
  /-- Tiles whose walkers are reduced (R329; reset none). -/
  reduced : BitVec 8 := 0#8
  /-- B_c of each class as last admitted (R319; reset none). -/
  bound : List Nat := []
  /-- The report of the Dawn evaluation (R68, R327; reset empty). -/
  report : Bytes := []
  /-- The report of the latest re-evaluation (R68, R327; reset empty). -/
  reReport : Bytes := []
  /-- Lanes and rate each head was admitted at (R325, R328; reset none). -/
  links : Table (Nat × Nat) := []
deriving DecidableEq, Repr

end Sys2Proof.Machine
end

