-- ==== Sys2Proof/Machine/StNvm.lean ====
section
/-!
DEFINITION. The NVM tier's state (R179–R209): N-links with flits, replay and tags, block tables, rotation maps, parity groups, stripe work
and the absorption slots; and the tiering state (R210–R226): queues, moves and token buckets.
-/
namespace Sys2Proof.Machine

/-- STATE of NL_TRAIN_STS. -/
inductive NlState where | absent | training | active | retraining | out | spare | rebuilding
deriving DecidableEq, Repr

/-- REASON of NL_TRAIN_STS. -/
inductive NlReason where | none | training | retry | package | efuse | unsupported | population
deriving DecidableEq, Repr

/-- A message as received (R190). -/
structure NMsg where
  status : Nat
  tag : Nat
  opc : Nat
  body : Bytes
deriving DecidableEq, Repr

/-- STATE of a block entry (R197). -/
inductive BlkState where | fresh | data | retired | worn
deriving DecidableEq, Repr

/-- A block entry (R197), keyed (2n + pkg) × 2^23 + physical block. -/
structure Blk where
  wcount : Nat := 0
  stamp : Nat := 0
  st : BlkState := .fresh
  /-- A read corrected more than REFRESH_CE bits, or a chunk was repaired: refresh is due (R200, R206). -/
  due : Bool := false
  /-- The entry is to be saved (R197). -/
  save : Bool := false
  /-- The block has been programmed since Dawn: STAMP stands (R197). -/
  held : Bool := false
deriving DecidableEq, Repr

/-- A rotation region (R195, R196), keyed (2n + pkg) × 1,024 + region. -/
structure Rot where
  start : Nat := 0
  gap : Nat := 4096
  /-- Slot entries that differ from PBLOCK = region × 4,097 + s and ROT = 0: ROT and PBLOCK by s. -/
  slots : Table (Option (Nat × Nat)) := []
  /-- Programs since the last gap move (R196). -/
  progs : Nat := 0
  /-- Moves since the map was last saved (R196). -/
  moves : Nat := 0
deriving DecidableEq, Repr

/-- What a command on an N-link is for. -/
inductive NUse where
  | status | metaRd
  /-- The save of a rotation region's map, and of a block entry: their values as sent (R196, R197). -/
  | metaRot (region : Nat) (x : Rot)
  | metaBlk (block : Nat) (x : Blk)
  /-- Line index `i` or chunk `i >> 2` of a frame for a reader of kind 0 (a home's line), 1 (a migration) or 2 (a packed store). -/
  | data (kind frame i : Nat)
  /-- A chunk of a stripe for stripe work `w`, at position `pos`. -/
  | work (w pos : Nat)
  /-- The copy of a block operation `w`, at physical offset `off`. -/
  | copy (w off : Nat)
  /-- A drift refresh of offset `off`. -/
  | refresh (off : Nat)
  /-- The reprogram of a reconstructed chunk (R206). -/
  | repair
deriving DecidableEq, Repr

/-- A command sent, or waiting to be sent, on an N-link; programs keep their content: the program buffer (R184). -/
structure NReq where
  opc : Nat
  pkg : Nat
  chunk : Nat
  ref : Nat := 0
  use : NUse
  /-- The 320 data bytes of a program. -/
  body : Bytes := []
  /-- Class priority of a read (R315). -/
  prio : Nat := 0
  /-- When it was queued, µs (R205). -/
  since : Nat := 0
  /-- Verify failures so far (R198). -/
  fails : Nat := 0
deriving DecidableEq, Repr

/-- A flit sent on the forward lane (R189): TYPE, FSEQ, ACKSEQ where it is valid, and the payload. -/
structure NFlit where
  typ : Nat
  seq : Nat
  ack : Option Nat
  payload : Bytes
deriving DecidableEq, Repr

/-- An N-link, keyed by n. -/
structure NLink where
  /-- STATE (NL_TRAIN_STS; reset not populated). -/
  st : NlState := .absent
  /-- REASON (reset none). -/
  reason : NlReason := .none
  /-- POS (reset 0xF). -/
  pos : Nat := 15
  /-- GROUP (reset 0). -/
  grp : Nat := 0
  /-- PKGS (reset 0). -/
  pkgs : Nat := 0
  /-- RETRAINS (reset 0). -/
  retrains : Nat := 0
  /-- When the latest retrains started, µs, newest first (R192; reset none). -/
  retrainAt : List Nat := []
  /-- FSEQ of the next sequenced flit sent (R189; reset 0). -/
  txSeq : Nat := 0
  /-- Replay buffer: FSEQ and payload, oldest first, at most 32 (R191; reset none). -/
  replay : List (Nat × Bytes) := []
  /-- Message bytes not yet in a flit (R190, R191; reset none). -/
  txq : Bytes := []
  /-- Replays without acknowledged progress (R191; reset 0). -/
  replays : Nat := 0
  /-- FSEQ expected next (R191; reset 0). -/
  rxSeq : Nat := 0
  /-- A sequenced flit has been received in order: ACKV (R189; reset 0). -/
  rxAny : Bool := false
  /-- A NAK has been sent and the replay has not arrived (R191; reset 0). -/
  naked : Bool := false
  /-- NAKs sent (R191; reset 0). -/
  naks : Nat := 0
  /-- Bytes of a message not yet whole (R190; reset none). -/
  rx : Bytes := []
  /-- Whole messages received and not yet handled, oldest first (R190; reset none). -/
  inbox : List NMsg := []
  /-- Outstanding commands by tag (R190; reset none). -/
  reqs : Table (Option NReq) := []
  /-- Commands that wait for a tag or a program place, oldest first (R190, R182, R315; reset none). -/
  wait : List NReq := []
  /-- Corrected bits of the last second: when in µs, and how many, newest first (R206; reset none). -/
  ce : List (Nat × Nat) := []
  /-- Packages that step 5 of training reports (R187; reset 0). -/
  found : Nat := 0
  /-- Flits sent on the forward lane, newest first (R189; reset none). -/
  sent : List NFlit := []
deriving DecidableEq, Repr

/-- A block copy under the block lock: a gap move (R196) or a retirement (R198). -/
structure BlkOp where
  link : Nat
  pkg : Nat
  /-- A retirement; otherwise a gap move. -/
  retire : Bool
  region : Nat
  slot : Nat
  dstSlot : Nat
  src : Nat
  dst : Nat
  /-- Added to the offset on the way: 1 for a gap move, 0 for a retirement. -/
  rot : Nat
  /-- Physical offsets of the source still to copy. -/
  todo : List Nat
  /-- Content of the chunk whose program failed (R198). -/
  failed : Option (Nat × Bytes)
  finished : Bool
  /-- When the first copy was programmed, s since Dawn 6: the destination's STAMP (R197). -/
  first : Option Nat := none
deriving DecidableEq, Repr

inductive WorkKind where | destage | rebuild | recon
deriving DecidableEq, Repr

/-- Work on a stripe: a destage (R203), a rebuild step (R208) or a reconstruction (R206, R207). -/
structure Work where
  kind : WorkKind
  tile : Nat
  /-- Group number. -/
  grp : Nat
  stripe : Nat
  /-- The position rebuilt or reconstructed. -/
  pos : Nat
  /-- Positions whose chunks have been asked for and have not arrived. -/
  want : List Nat
  /-- Chunks that have arrived, by position: 320 data bytes where decoded, the 352 stored bytes where not, none where there is no chunk. -/
  got : Table (Option (Bytes × Bool))
  /-- Programs not yet sent because their block is locked: position and data. -/
  todo : List (Nat × Bytes)
  /-- Positions whose programs are outstanding. -/
  live : List Nat
  /-- Reads have been merged and the programs made. -/
  merged : Bool
  /-- What a reconstruction is for: the command whose chunk it replaces. -/
  cont : Option NReq
  /-- The reconstructed chunk is reprogrammed (R206). -/
  reprog : Bool
  /-- Class priority of its reads (R315). -/
  prio : Nat
  /-- A chunk of the stripe has been programmed since the reads began: what they gave may be of two ages (R206). -/
  stale : Bool
deriving DecidableEq, Repr

/-- An absorption slot (R201), keyed by tile, frame and chunk number. -/
structure ASlot where
  /-- Slot number: its place in the absorption area. -/
  k : Nat
  /-- Valid mask: lines whose record lies in the slot. -/
  mask : BitVec 4
  /-- When the slot was allocated, µs. -/
  at_ : Nat
  destaging : Bool
  redirty : Bool
deriving DecidableEq, Repr

/-- A write that waits for an absorption slot (R201): tile, frame, line index, record, since when, and its priority. -/
structure SlotWait where
  tile : Nat
  frame : Nat
  i : Nat
  r : Rec
  at_ : Nat
  prio : Nat
deriving DecidableEq, Repr

inductive GrpState where | absent | normal | degraded | lost
deriving DecidableEq, Repr

/-- A parity group (NL_GROUP_STS), keyed 4 × t + group. -/
structure Grp where
  st : GrpState := .absent
  missing : Nat := 15
  /-- Rebuild line and spare link while a rebuild runs (R208). -/
  rebuild : Option (Nat × Nat) := none
deriving DecidableEq, Repr

/-- The block a drift refresh runs on (R200), per tile. -/
structure Refresh where
  link : Nat
  pkg : Nat
  block : Nat
  /-- When it began, s since Dawn 6. -/
  began : Nat
  /-- Offsets still to refresh. -/
  todo : List Nat
  /-- The offset whose chunk is under way and the line locks held. -/
  busy : Option (Nat × List Nat)
deriving DecidableEq, Repr

structure Nvm where
  /-- N-links (reset: not populated). -/
  links : Table NLink := []
  /-- Block table entries (R197; reset fresh). -/
  blks : Table Blk := []
  /-- Rotation maps (R195; reset: no saved state). -/
  rots : Table Rot := []
  /-- Block entries saved in the packages' metadata areas, which every reset keeps (R197; as shipped none). -/
  savedBlks : Table Blk := []
  /-- Rotation maps saved in the packages' metadata areas (R196; as shipped none). -/
  savedRots : Table Rot := []
  /-- Spare blocks used in each package, keyed 2n + pkg; saved with the wear state (R198; as shipped 0). -/
  sparesUsed : Table Nat := []
  /-- Packages found to be supported, keyed 2n + pkg (R187; reset none). -/
  known : List Nat := []
  /-- Block operations under way, keyed by number (R196, R198; reset none). -/
  ops : Table (Option BlkOp) := []
  /-- Stripe work under way, keyed by number (R203, R206–R208; reset none). -/
  works : Table (Option Work) := []
  /-- The next number of an operation or work (reset 0). -/
  nextId : Nat := 0
  /-- Absorption slots, keyed (2^32 × t + frame) × 16 + chunk (R201; reset none). -/
  slots : Table (Option ASlot) := []
  /-- Records of walkers that wait for a slot, oldest first (R201; reset none). -/
  slotWait : List SlotWait := []
  /-- Lines whose write waits for a slot under its line lock, and since when, oldest first (R201; reset none). -/
  lineWait : List (Nat × Nat) := []
  /-- Blocks whose retirement waits for their block lock: link, package, block, and the chunk whose program failed with its content (R198; reset
  none). -/
  retireQ : List (Nat × Nat × Nat × Nat × Bytes) := []
  /-- Uncorrectable lines of tile-local frames that a drift refresh has just met: tile, frame and line index (R200, R299; reset none). -/
  localBad : List (Nat × Nat × Nat) := []
  /-- Destage runs on the tile until LOW (R202; reset 0). -/
  draining : BitVec 8 := 0#8
  /-- Parity groups (reset out of service). -/
  grps : Table Grp := []
  /-- In-service groups of each tile in rank order, fixed at Dawn (R194; reset none). -/
  ranks : Table (List Nat) := []
  /-- Content that has arrived for readers, keyed ((8 × kind + t) × 2^32 + frame) × 64 + index: a chunk's 320 bytes, or none when it
  was lost, with the link it came from, and whether it was read from the medium (reset none). -/
  arrived : Table (Option (Option Bytes × Nat × Bool)) := []
  /-- Drift refreshes under way, keyed by tile (R200; reset none). -/
  refresh : Table (Option Refresh) := []
deriving DecidableEq, Repr

/-- A move (R219), keyed by page number. -/
structure Move where
  tile : Nat
  toDram : Bool
  src : Nat
  dst : Nat
  copied : BitVec 64
  /-- Source chunks asked for on the N-links. -/
  asked : Bool
deriving DecidableEq, Repr

/-- Tiering (R210–R226). -/
structure Tier where
  /-- Promotion queue of each tile, oldest first (R214; reset empty). -/
  promote : Table (List Nat) := []
  /-- Demotion queue of each tile, oldest first (R214; reset empty). -/
  demote : Table (List Nat) := []
  /-- Moves in flight (R219; reset none). -/
  moves : Table (Option Move) := []
  /-- Token buckets: page·µs taken and not refilled, and when last brought up to date; keyed 32 × t + class, 16 for the tile and 17 for
  demotion (R215, R216; reset full, DESIGN CHOICE, log 23). -/
  used : Table (Nat × Nat) := []
  /-- The class served last by the promotion engine, plus 1 (R215; reset 0). -/
  rrClass : Table Nat := []
  /-- Demotion runs until FREE_HIGH (R216; reset 0). -/
  demoting : BitVec 8 := 0#8
  /-- MAX_PPS replaced by a re-evaluation: pages of 16 per second by tile (R329; reset none). -/
  maxPps : Table (Option Nat) := []
deriving DecidableEq, Repr

end Sys2Proof.Machine
end

