-- ==== Sys2Proof/Machine/State.lean ====
section
/-!
DEFINITION. The machine's state, its value at power-on reset, and the reasons a step may stop.
-/
namespace Sys2Proof.Machine

/-- Why a step may stop with a fault: the spec stops no command, so there is none. -/
inductive Fault where
deriving DecidableEq, Repr

/-- Why a command may be refused. -/
inductive Refusal where
  /-- Raised by an arm of `exec` whose command has no meaning yet; safe: the machine does not go on. -/
  | notModelled (mnemonic : String)
deriving DecidableEq, Repr

/-- The whole state of the block: every register, FIFO, buffer, counter and mode the spec gives it, and the commands that wait. -/
structure State where
  fuse : Fuse := {}
  rst : Resets := {}
  /-- Channels, keyed by e: 0–31 E00–E31, 32 HS (R379). -/
  chans : Table Chan := []
  sv : Sv := {}
  meter : PowerMeter := {}
  link : SvLink := {}
  log : LogStore := {}
  faults : Faults := {}
  cnt : Counters := {}
  i3c : I3c := {}
  tap : Tap := {}
  clk : Clocks := {}
  dawn : Dawn := {}
  flash : Flash := {}
  time : Time := {}
  /-- The register file: the software-written bits of every register of BAR0, by offset, where they differ from reset (R8, R11). -/
  regs : Table W32 := []
  host : Host_ := {}
  map : AddrMap := {}
  nc : NearCache := {}
  ha : HomeAgents := {}
  fab : Fabric := {}
  cry : Crypto := {}
  dram : Dram := {}
  nvm : Nvm := {}
  tier : Tier := {}
  job : Jobs := {}
  pk : Packed := {}
  qos : Qos := {}
  /-- Placement entries, keyed by DPA page number (R81; reset unwritten). -/
  place : Table Place := []
  /-- The model's own counter: each free value taken is `Config`'s function of it (DESIGN CHOICE, log 4). -/
  free : Nat := 0
  /-- Commands that wait, first in first out. -/
  pending : List Instr := []
deriving DecidableEq, Repr

/-- The machine as power-on reset is asserted: the Reset column of every register (R11), nothing stored, no command waiting. -/
def State.reset : State := {}

end Sys2Proof.Machine
end

