-- ==== Sys2Proof/Machine/Ops.lean ====
section
/-!
DEFINITION. The named operations over the state's parts: one update per part, the member's shape, registers, counters and times.
-/
namespace Sys2Proof.Machine

def onFuse (f : Fuse → Fuse) (s : State) : State := { s with fuse := f s.fuse }
def onRst (f : Resets → Resets) (s : State) : State := { s with rst := f s.rst }
def onSv (f : Sv → Sv) (s : State) : State := { s with sv := f s.sv }
def onMeter (f : PowerMeter → PowerMeter) (s : State) : State := { s with meter := f s.meter }
def onLink (f : SvLink → SvLink) (s : State) : State := { s with link := f s.link }
def onLog (f : LogStore → LogStore) (s : State) : State := { s with log := f s.log }
def onFaults (f : Faults → Faults) (s : State) : State := { s with faults := f s.faults }
def onCnt (f : Counters → Counters) (s : State) : State := { s with cnt := f s.cnt }
def onI3c (f : I3c → I3c) (s : State) : State := { s with i3c := f s.i3c }
def onTap (f : Tap → Tap) (s : State) : State := { s with tap := f s.tap }
def onClk (f : Clocks → Clocks) (s : State) : State := { s with clk := f s.clk }
def onDawn (f : Dawn → Dawn) (s : State) : State := { s with dawn := f s.dawn }
def onFlash (f : Flash → Flash) (s : State) : State := { s with flash := f s.flash }
def onTime (f : Time → Time) (s : State) : State := { s with time := f s.time }
def onHost (f : Host_ → Host_) (s : State) : State := { s with host := f s.host }
def onMap (f : AddrMap → AddrMap) (s : State) : State := { s with map := f s.map }
def onNc (f : NearCache → NearCache) (s : State) : State := { s with nc := f s.nc }
def onHa (f : HomeAgents → HomeAgents) (s : State) : State := { s with ha := f s.ha }
def onFab (f : Fabric → Fabric) (s : State) : State := { s with fab := f s.fab }

def onCry (f : Crypto → Crypto) (s : State) : State := { s with cry := f s.cry }
def onDram (f : Dram → Dram) (s : State) : State := { s with dram := f s.dram }
def onNvm (f : Nvm → Nvm) (s : State) : State := { s with nvm := f s.nvm }
def onTier (f : Tier → Tier) (s : State) : State := { s with tier := f s.tier }
def onJob (f : Jobs → Jobs) (s : State) : State := { s with job := f s.job }
def onPk (f : Packed → Packed) (s : State) : State := { s with pk := f s.pk }
def onQos (f : Qos → Qos) (s : State) : State := { s with qos := f s.qos }
def onPlace (f : Table Place → Table Place) (s : State) : State := { s with place := f s.place }

/-- The CXL timestamp, in ns: the time set, and what has passed since; 0 until it has been set (R67; PRESUMED from CXL, log 33). -/
def hostClock (s : State) : W64 :=
  match s.time.stamp with | some (v, at_) => v + BitVec.ofNat 64 (1000 * (s.time.now - at_)) | none => 0#64

/-- Take a free value: the counter the value is a function of, and the state with the counter advanced. -/
def takeFree (s : State) : Nat × State := (s.free, { s with free := s.free + 1 })

/-- Tiles of the member (R3). -/
def tiles (s : State) : Nat := s.fuse.tiles

/-- Whether the member has tile `t` (R3, R12). -/
def hasTile (s : State) (t : Nat) : Bool := decide (t < tiles s)

/-- b: log2 of the number of tiles (R75). -/
def tileBits (s : State) : Nat := if tiles s = 8 then 3 else if tiles s = 4 then 2 else 1

/-- The tiles of the member, ascending. -/
def tileList (s : State) : List Nat := List.range (tiles s)

/-- The device runs: neither reset source is in effect (R337). -/
def running (s : State) : Bool := !s.rst.por && !s.rst.resetN

/-- Tile `t` of the member is out of reset and has not failed Dawn 0 (R349, R371). -/
def tileRuns (s : State) (t : Nat) : Bool := running s && hasTile s t && s.clk.running.getLsbD t

/-- Primary firmware runs: from Dawn 3, or recovery firmware, while MP_DEBUG has not halted its processor (R21, R351, R358). -/
def primaryRuns (s : State) : Bool :=
  running s && tileRuns s 0 && !s.tap.halted.getLsbD 0 && (decide (3 ≤ s.dawn.stage) || s.dawn.recovery)

/-- The management processor of a tile runs and MP_DEBUG has not halted it (R21, R358). -/
def firmwareRuns (s : State) (t : Nat) : Bool :=
  tileRuns s t && !s.tap.halted.getLsbD t && (decide (t = 0) || s.dawn.started.getLsbD t)

/-- Dawn has completed (R349). -/
def dawnDone (s : State) : Bool := running s && s.dawn.runLock

/-- Midnight has been entered (R296). -/
def midnight (s : State) : Bool := s.faults.midnight

/-- A quiesce has started (R407). -/
def quiesced (s : State) : Bool := s.faults.quiescing || s.faults.quiesced

/-- Block `b` of a tile (its RST_BLK_CTL bit) has been released from reset and has kept its clock (R352). -/
def blockUp (s : State) (t b : Nat) : Bool := (Table.get 0#10 s.clk.released t).getLsbD b

/-- Walkers work on a tile: it runs, their block is out of reset, and the device neither quiesces nor has entered Midnight (R296, R352, R407). -/
def walkersRun (s : State) (t : Nat) : Bool := tileRuns s t && blockUp s t 9 && !quiesced s && !midnight s

def getChan (s : State) (e : Nat) : Chan := Table.get {} s.chans e
def onChan (e : Nat) (f : Chan → Chan) (s : State) : State := { s with chans := Table.mod {} s.chans e f }

/-- The software-written bits of a register word (R8). -/
def regRaw (s : State) (k : RegKind) (i : Nat) : W32 := Table.get (regReset k i) s.regs (regAddr k i)

def setReg (k : RegKind) (i : Nat) (v : W32) (s : State) : State :=
  { s with regs := Table.set (regReset k i) s.regs (regAddr k i) v }

/-- A register field. -/
def regFld (s : State) (k : RegKind) (i hi lo : Nat) : Nat := fld (regRaw s k i) hi lo

/-- Hardware sets a sticky bit of a register (R9). -/
def raiseBit (k : RegKind) (i b : Nat) (s : State) : State := setReg k i (setBit (regRaw s k i) b true) s

/-- Whether the run lock discards RWL writes (R353). -/
def locked (s : State) : Bool := s.dawn.runLock

/-- The bits of `v` that a write by software stores (R8, R9): RW always, RWL before the run lock, W1C bits cleared where written as 1. -/
def storeBits (d : RegDesc) (lock : Bool) (old v : W32) : W32 :=
  let w := BitVec.ofNat 32 (d.rw ||| (if lock then 0 else d.rwl))
  let c := BitVec.ofNat 32 d.w1c
  merge32 w v old &&& ~~~(v &&& c)

/-- A plain register write (R8): no effect of its own beyond the stored bits. -/
def writeReg (k : RegKind) (i : Nat) (v : W32) (s : State) : State :=
  setReg k i (storeBits (regDesc k) (locked s) (regRaw s k i) v) s

/-- A counter's value (R412). -/
def cntVal (s : State) (k : Nat) : BitVec 48 := Table.get 0#48 s.cnt.cnt k

/-- Add to a counter, stopping at 2^48 − 1 (R412). -/
def addCnt (k n : Nat) (s : State) : State :=
  onCnt (fun c => { c with cnt := Table.mod 0#48 c.cnt k (fun v => BitVec.ofNat 48 (satAdd v.toNat n (2 ^ 48 - 1))) }) s

/-- Counter key of tile counter `i` (R412). -/
def tileCnt (t i : Nat) : Nat := 600 * t + i
/-- Counter key of SV counter `i` (R412). -/
def svCnt (i : Nat) : Nat := 4800 + i
/-- Counter key of counter `k` of port `p` (R413). -/
def portCnt (p k : Nat) : Nat := tileCnt (p / 8) (12 * (p % 8) + k)
/-- Counter key of counter `k` of sub-channel `d` (R413). -/
def subCnt (d k : Nat) : Nat := tileCnt (d / 16) (128 + 8 * (d % 16) + k)
/-- Counter key of counter `k` of link `n` (R413). -/
def linkCnt (n k : Nat) : Nat := tileCnt (n / 40) (256 + 5 * (n % 40) + k)

/-- Count 64-byte units of a class or a port, in the counter and in the window's accumulator (R316, R414). -/
def addUnits (k n : Nat) (s : State) : State :=
  onCnt (fun c => { c with acc := Table.mod 0 c.acc k (fun v => v + n) }) (addCnt k n s)

end Sys2Proof.Machine
end

