-- ==== Sys2Proof/Machine/Clock.lean ====
section
/-!
DEFINITION. What passes while no command waits.
-/
namespace Sys2Proof.Machine

/-- A step on an empty queue: 1 µs of the device's time, counted from the end of power-on reset (R384). Everything that happens at a time is a command of
the table (DESIGN CHOICE, log 1). -/
def tick (s : State) : State := if s.rst.por then s else onTime (fun t => { t with now := t.now + 1 }) s

/-- The command at the front of the queue, and the state without it. -/
def takeCommand (s : State) : Option (Instr × State) :=
  match s.pending with
  | [] => none
  | c :: rest => some (c, { s with pending := rest })

/-- A command put at the front of the queue. -/
def putFront (c : Instr) (s : State) : State := { s with pending := c :: s.pending }

end Sys2Proof.Machine
end

