-- ==== Sys2Proof/Machine/Inflate.lean ====
section
/-!
DEFINITION. Raw DEFLATE as R258–R260 accept it, and the stored form a block can always take (R261).
-/
namespace Sys2Proof.Machine

/-- Decoder state: bit position in the input, and the output so far. -/
structure InfSt where
  pos : Nat
  out : Array Byte

/-- A canonical code: how many codes of each length 1–15, and the symbols by length and value. -/
structure HuffTab where
  count : Array Nat
  sym : Array Nat

def mkHuff (lens : List Nat) : HuffTab :=
  ⟨((List.range 16).map (fun l => if l = 0 then 0 else lens.count l)).toArray,
   ((List.range 15).flatMap (fun l => (lens.zipIdx.filter (fun e => e.1 = l + 1)).map (·.2))).toArray⟩

/-- What a set of lengths leaves of the code space: 0 for a complete code, none when over-subscribed. -/
def codeLeft (lens : List Nat) : Option Nat :=
  (List.range 15).foldl (fun (a : Option Nat) l => a.bind (fun left =>
    let n := lens.count (l + 1)
    if 2 * left < n then none else some (2 * left - n))) (some 1)

/-- Bit `i` of the input, if it lies below CLEN. -/
def inBit (inp : Array Byte) (i : Nat) : Option Nat := (inp[i / 8]?).map (fun b => b.toNat / 2 ^ (i % 8) % 2)

/-- `n` bits, least significant first. -/
def inBits (inp : Array Byte) : Nat → Nat → Option Nat
  | _, 0 => some 0
  | pos, n + 1 => (inBit inp pos).bind (fun b => (inBits inp (pos + 1) n).map (fun r => b + 2 * r))

/-- Decode a symbol: its value and the next position; none at an unassigned code or past the input. -/
def huffSym (inp : Array Byte) (h : HuffTab) : Nat → Nat → Nat → Nat → Nat → Nat → Option (Nat × Nat)
  | 0, _, _, _, _, _ => none
  | k + 1, len, pos, code, first, index =>
    match inBit inp pos with
    | none => none
    | some b =>
      let c := 2 * code + b
      let n := h.count.getD len 0
      if c < 2 * first + n then some (h.sym.getD (index + (c - 2 * first)) 0, pos + 1)
      else huffSym inp h k (len + 1) (pos + 1) c (2 * first + n) (index + n)

def sym (inp : Array Byte) (h : HuffTab) (pos : Nat) : Option (Nat × Nat) := huffSym inp h 15 1 pos 0 0 0

def lenBase : List Nat := [3, 4, 5, 6, 7, 8, 9, 10, 11, 13, 15, 17, 19, 23, 27, 31, 35, 43, 51, 59, 67, 83, 99, 115, 131, 163, 195, 227, 258]
def lenExtra : List Nat := [0, 0, 0, 0, 0, 0, 0, 0, 1, 1, 1, 1, 2, 2, 2, 2, 3, 3, 3, 3, 4, 4, 4, 4, 5, 5, 5, 5, 0]
def distBase : List Nat := [1, 2, 3, 4, 5, 7, 9, 13, 17, 25, 33, 49, 65, 97, 129, 193, 257, 385, 513, 769, 1025, 1537, 2049, 3073, 4097, 6145, 8193,
  12289, 16385, 24577]
def distExtra (c : Nat) : Nat := if c < 4 then 0 else (c - 2) / 2

/-- Copy `n` bytes from `d` back. -/
def copyBack (d : Nat) : Nat → Array Byte → Array Byte
  | 0, o => o
  | n + 1, o => copyBack d n (o.push (o.getD (o.size - d) 0#8))

/-- The symbols of one coded block, up to its end symbol (R259, R260); a stream that fails leaves what it has output. -/
def infCodes (inp : Array Byte) (limit : Nat) (ll dd : HuffTab) : Nat → InfSt → Except (Array Byte) InfSt
  | 0, st => .error st.out
  | k + 1, st =>
    match sym inp ll st.pos with
    | none => .error st.out
    | some (v, p) =>
      if v < 256 then
        if limit ≤ st.out.size then .error st.out else infCodes inp limit ll dd k ⟨p, st.out.push (BitVec.ofNat 8 v)⟩
      else if v = 256 then .ok { st with pos := p }
      else if 285 < v then .error st.out
      else
        match inBits inp p (lenExtra.getD (v - 257) 0) with
        | none => .error st.out
        | some x =>
          let n := lenBase.getD (v - 257) 0 + x
          match sym inp dd (p + lenExtra.getD (v - 257) 0) with
          | none => .error st.out
          | some (c, p2) =>
            if 29 < c then .error st.out
            else match inBits inp p2 (distExtra c) with
              | none => .error st.out
              | some y =>
                let d := distBase.getD c 0 + y
                if st.out.size < d ∨ limit < st.out.size + n then .error st.out
                else infCodes inp limit ll dd k ⟨p2 + distExtra c, copyBack d n st.out⟩

def fixedLens : List Nat := List.replicate 144 8 ++ List.replicate 112 9 ++ List.replicate 24 7 ++ List.replicate 8 8

def clOrder : List Nat := [16, 17, 18, 0, 8, 7, 9, 6, 10, 5, 11, 4, 12, 3, 13, 2, 14, 1, 15]

/-- The code lengths of a dynamic block: repeats (16) not at the start and not across from the literal to the distance lengths (R259). -/
def readLens (inp : Array Byte) (h : HuffTab) (hlit total : Nat) : Nat → Nat → List Nat → Option (List Nat × Nat)
  | 0, _, _ => none
  | k + 1, pos, acc =>
    if acc.length = total then some (acc, pos)
    else match sym inp h pos with
      | none => none
      | some (v, p) =>
        if v < 16 then readLens inp h hlit total k p (acc ++ [v])
        else
          let bits := if v = 16 then 2 else if v = 17 then 3 else 7
          match inBits inp p bits with
          | none => none
          | some x =>
            let n := if v = 18 then 11 + x else 3 + x
            let crosses := decide (acc.length ≤ hlit) && decide (hlit < acc.length + n)
            if total < acc.length + n then none
            else if v = 16 then
              (if acc.isEmpty || crosses then none else readLens inp h hlit total k (p + bits) (acc ++ List.replicate n (acc.getLastD 0)))
            else readLens inp h hlit total k (p + bits) (acc ++ List.replicate n 0)

/-- The tables of a dynamic block (R259). -/
def dynTables (inp : Array Byte) (pos : Nat) : Option (HuffTab × HuffTab × Nat) :=
  match inBits inp pos 5, inBits inp (pos + 5) 5, inBits inp (pos + 10) 4 with
  | some a, some b, some c =>
    let hlit := a + 257
    let hdist := b + 1
    if 286 < hlit then none
    else
      let cls := (List.range (c + 4)).foldl (fun (l : Option (List Nat)) i => l.bind (fun l =>
        (inBits inp (pos + 14 + 3 * i) 3).map (fun v => l.set (clOrder.getD i 0) v))) (some (List.replicate 19 0))
      match cls with
      | none => none
      | some cl =>
        if codeLeft cl ≠ some 0 then none
        else match readLens inp (mkHuff cl) hlit (hlit + hdist) 320 (pos + 14 + 3 * (c + 4)) [] with
          | none => none
          | some (ls, p) =>
            let l := ls.take hlit
            let d := ls.drop hlit
            let single := decide ((d.filter (· ≠ 0)) = [1])
            if codeLeft l = some 0 ∧ (codeLeft d = some 0 ∨ single) then some (mkHuff l, mkHuff d, p) else none
  | _, _, _ => none

/-- A stored block's bytes (R259, R260): each is a symbol of its own, so that one that runs past the limit or the input outputs the bytes before. -/
def infStored (inp : Array Byte) (limit p : Nat) (st : InfSt) : Except (Array Byte) InfSt :=
  match inBits inp p 16, inBits inp (p + 16) 16 with
  | some len, some nlen =>
    let a := p / 8 + 4
    let n := min len (min (limit - st.out.size) (inp.size - a))
    if len + nlen ≠ 65535 then .error st.out
    else if n < len then .error (st.out ++ inp.extract a (a + n))
    else .ok ⟨p + 32 + 8 * len, st.out ++ inp.extract a (a + len)⟩
  | _, _ => .error st.out

/-- DEFLATE blocks in turn: at most `blocks` of them, BFINAL on the last (R259). -/
def infBlocks (inp : Array Byte) (limit fuel : Nat) : Nat → Nat → InfSt → Except (Array Byte) (InfSt × Nat)
  | 0, _, st => .error st.out
  | k + 1, n, st =>
    match inBit inp st.pos, inBits inp (st.pos + 1) 2 with
    | some fin, some typ =>
      let r : Except (Array Byte) InfSt :=
        if typ = 0 then infStored inp limit ((st.pos + 3 + 7) / 8 * 8) st
        else if typ = 1 then infCodes inp limit (mkHuff fixedLens) (mkHuff (List.replicate 32 5)) fuel { st with pos := st.pos + 3 }
        else if typ = 2 then
          match dynTables inp (st.pos + 3) with
          | some (l, d, p) => infCodes inp limit l d fuel { st with pos := p }
          | none => .error st.out
        else .error st.out
      match r with
      | .error o => .error o
      | .ok st2 => if fin = 1 then .ok (st2, n + 1) else infBlocks inp limit fuel k (n + 1) st2
    | _, _ => .error st.out

/-- Decode a stream of a block of `b` bytes (R259): the output and the number of DEFLATE blocks; of a stream that breaks a rule, what it outputs before
it fails (R254, R260). -/
def inflateTry (b : Nat) (stream : Bytes) : Except Bytes (Bytes × Nat) :=
  let inp := stream.toArray
  let n := inp.size
  if n = 0 ∨ b + 128 < n then .error []
  else match infBlocks inp b (8 * n + 1) (b / 4096) 0 ⟨0, #[]⟩ with
    | .error o => .error o.toList
    | .ok (st, k) =>
      let clean := decide ((inp.getD (n - 1) 0#8).toNat >>> ((st.pos - 1) % 8 + 1) = 0)
      if st.out.size = b ∧ (st.pos + 7) / 8 = n ∧ clean then .ok (st.out.toList, k) else .error st.out.toList

/-- The accepted streams (R259). -/
def inflate (b : Nat) (stream : Bytes) : Option (Bytes × Nat) :=
  match inflateTry b stream with | .ok x => some x | .error _ => none

/-! What a compressor emits (R261), as bits, the first bit of the stream first. -/

def bitsNat (n v : Nat) : List Bool := (List.range n).map (fun i => v.testBit i)
def bytesBits (d : Bytes) : List Bool := d.flatMap (fun b => bitsNat 8 b.toNat)
def packBits (l : List Bool) : Bytes :=
  (List.range ((l.length + 7) / 8)).map (fun i => BitVec.ofNat 8 ((List.range 8).foldl (fun a k => a + if l.getD (8 * i + k) false then 2 ^ k else 0) 0))

/-- The inputs of a block's DEFLATE blocks: 16 KiB each, or one of 4 KiB (R261). -/
def deflateParts (block : Bytes) : List Bytes := (List.range ((block.length + 16383) / 16384)).map (fun k => slice block (16384 * k) (min 16384 (block.length - 16384 * k)))

/-- One DEFLATE block after `pos` bits (R261): `fixed` and `dyn` are its two coded bodies. The body is the one HUFF names, the smaller one for 0b10 with a
tie to fixed; it is stored where the coded form is no shorter than the stored form. -/
def emitBlock (huff pos : Nat) (fin : Bool) (d : Bytes) (fixed dyn : List Bool) : List Bool :=
  let pad := (8 - (pos + 3) % 8) % 8
  let dynamic := decide (huff = 0) || (decide (huff = 2) && decide (dyn.length < fixed.length))
  let body := if dynamic then dyn else fixed
  let head (t : Nat) : List Bool := fin :: bitsNat 2 t
  if pad + 32 + 8 * d.length ≤ body.length then
    head 0 ++ List.replicate pad false ++ bitsNat 16 d.length ++ bitsNat 16 (65535 - d.length) ++ bytesBits d
  else head (if dynamic then 2 else 1) ++ body

/-- The blocks of 16 KiB of input each, or one of 4 KiB, as stored DEFLATE blocks (R261). -/
def storedForm : Nat → Bytes → Bytes
  | 0, _ => []
  | k + 1, d =>
    let c := d.take 16384
    let fin := decide (d.length ≤ 16384)
    [if fin then 1#8 else 0#8] ++ leBytes 2 c.length ++ leBytes 2 (65535 - c.length) ++ c ++ (if fin then [] else storedForm k (d.drop 16384))

end Sys2Proof.Machine
end

