-- ==== Sys2Proof/Machine/Code.lean ====
section
/-!
DEFINITION. The (72,64) code with its address fold, the line record and the metadata word (R83–R87), and the home-tile hash (R75).
-/
namespace Sys2Proof.Machine

/-- The 56 columns of weight 3, ascending (R85). -/
def weight3 : List Nat := (List.range 256).filter (fun v => ones 8 v = 3)

/-- The column of code bit `i`, 0–63 (R85). -/
def column (i : Nat) : Nat :=
  if i < 56 then weight3.getD i 0
  else
    let j := i - 56
    0xFF ^^^ (1 <<< j) ^^^ (1 <<< ((j + 1) % 8)) ^^^ (1 <<< ((j + 2) % 8))

def columns : List Nat := (List.range 64).map column

/-- Check bits of a word without the fold (R86). -/
def rawCheck : List Nat → Nat → Nat
  | [], _ => 0
  | c :: t, v => (if v % 2 = 1 then c else 0) ^^^ rawCheck t (v / 2)

/-- The fold pattern of word `w` of line address `a` (R87). -/
def foldPattern (a w : Nat) : Nat :=
  let s := (List.range 6).foldl (fun s j => s + (a >>> (7 * j)) % 128) 0
  let u := (s + 18 * w) % 127 + 1
  (if oddParity 7 u then 128 else 0) ||| u

/-- Check byte of a word at line address `a`, position `w` (R86). -/
def checkByte (a w v : Nat) : Nat := rawCheck columns v ^^^ foldPattern a w

/-- What the checker finds (R86). -/
inductive Check where | ok | fixed (v : Nat) | bad
deriving DecidableEq, Repr

/-- The checker's action on a syndrome, for a word of `n` code bits in use (R86). -/
def actOn (n syn v : Nat) : Check :=
  if syn = 0 then .ok
  else if ones 8 syn = 1 then .fixed v
  else match (columns.take n).idxOf? syn with
    | some i => .fixed (v ^^^ (1 <<< i))
    | none => .bad

/-- Check a stored word: `n` is 64 for a data word and 56 for the metadata word (R85, R86). -/
def checkWord (n a w v stored : Nat) : Check := actOn n (checkByte a w v ^^^ stored) v

/-- The eight check bytes of a line's data (R83, R86). -/
def lineChk (a : Nat) (d : Line) : W64 :=
  BitVec.ofNat 64 ((List.range 8).foldl (fun x w => x ||| (checkByte a w (lineWord d w).toNat <<< (8 * w))) 0)

/-- A line record with fresh check bytes (R83). -/
def mkRec (a : Nat) (d : Line) (m : BitVec 56) : Rec := ⟨d, lineChk a d, m, BitVec.ofNat 8 (checkByte a 8 m.toNat)⟩

/-- Media errors applied to a record as it is read. -/
def flipRec (r : Rec) (f : Flips) : Rec :=
  let g (w : Nat) : Nat := f.toNat >>> (72 * w)
  { data := (List.range 8).foldl (fun d w => d ^^^ BitVec.ofNat 512 ((g w % 2 ^ 64) <<< (64 * w))) r.data
    chk := (List.range 8).foldl (fun c w => c ^^^ BitVec.ofNat 64 (((g w >>> 64) % 256) <<< (8 * w))) r.chk
    meta_ := r.meta_ ^^^ BitVec.ofNat 56 (g 8)
    mchk := r.mchk ^^^ BitVec.ofNat 8 (g 8 >>> 64) }

/-- A record checked (R86): the corrected record, how many words were corrected, and the places of the uncorrectable words, 8 for the
metadata word. -/
structure Checked where
  out : Rec
  fixed : Nat
  bad : List Nat
deriving DecidableEq, Repr

def checkRec (a : Nat) (r : Rec) : Checked :=
  let c (w : Nat) : Check := checkWord 64 a w (lineWord r.data w).toNat ((r.chk.toNat >>> (8 * w)) % 256)
  let m := checkWord 56 a 8 r.meta_.toNat r.mchk.toNat
  let data := wordsLine (fun w => match c w with | .fixed v => BitVec.ofNat 64 v | _ => lineWord r.data w)
  let mt : BitVec 56 := match m with | .fixed v => BitVec.ofNat 56 v | _ => r.meta_
  let all := (List.range 8).map (fun w => (w, c w)) ++ [(8, m)]
  { out := mkRec a data mt
    fixed := (all.filter (fun e => match e.2 with | .fixed _ => true | _ => false)).length
    bad := all.filterMap (fun e => match e.2 with | .bad => some e.1 | _ => none) }

/-- A line's value above the crypto block passes the folded check in every data word (R22, R57); a correctable word counts as passing. -/
def valOk (a : Nat) (d : Line) (chk : W64) : Bool :=
  (List.range 8).all (fun w => checkWord 64 a w (lineWord d w).toNat ((chk.toNat >>> (8 * w)) % 256) ≠ .bad)

/-- The data with its correctable words corrected (R86, R140); outside the home agent no counter advances (DESIGN CHOICE, log 151). -/
def valFixed (a : Nat) (d : Line) (chk : W64) : Line :=
  wordsLine (fun w => match checkWord 64 a w (lineWord d w).toNat ((chk.toNat >>> (8 * w)) % 256) with
    | .fixed v => BitVec.ofNat 64 v
    | _ => lineWord d w)

/-- Metadata fields (R84): KEY, POISON, HSTATE, HOLDER, reserved. -/
def metaKey (m : BitVec 56) : BitVec 12 := BitVec.ofNat 12 (m.toNat >>> 44)
def metaPoison (m : BitVec 56) : Bool := m.getLsbD 43
def metaHst (m : BitVec 56) : Nat := (m.toNat >>> 41) % 4
def metaHolder (m : BitVec 56) : Nat := (m.toNat >>> 35) % 64

def mkMeta (key : BitVec 12) (poison : Bool) (hst holder : Nat) (rsv : Nat) : BitVec 56 :=
  BitVec.ofNat 56 ((key.toNat <<< 44) ||| (b2n poison <<< 43) ||| ((hst % 4) <<< 41) ||| ((holder % 64) <<< 35) ||| (rsv % 2 ^ 35))

def metaRsv (m : BitVec 56) : Nat := m.toNat % 2 ^ 35

/-- The home tile of page number `p` with 2^b tiles: the XOR of its b-bit chunks (R75). -/
def homeHash (b p : Nat) : Nat :=
  (List.range (36 / b)).foldl (fun h k => h ^^^ ((p >>> (b * k)) % 2 ^ b)) 0

end Sys2Proof.Machine
end

