-- ==== Sys2Proof/Machine/Heads.lean ====
section
/-!
DEFINITION. Ports ganged into heads (R43–R46), functions, views, event logs, and what a head sends.
-/
namespace Sys2Proof.Machine

/-- Gang mode of quad `q` (0–15) as it acts: reserved encodings act as 0b000 (R44). -/
def gangMode (s : State) (q : Nat) : Nat :=
  let v := if q % 2 = 0 then regFld s .hpGangCfg (q / 2) 2 0 else regFld s .hpGangCfg (q / 2) 5 3
  if v < 5 then v else 0

/-- The lowest port of the head port `p` belongs to (R43, R44). -/
def headOf (s : State) (p : Nat) : Nat :=
  let b := 4 * (p / 4)
  let l := p % 4
  match gangMode s (p / 4) with
  | 1 => if l < 2 then b else p
  | 2 => if l < 2 then p else b + 2
  | 3 => if l < 2 then b else b + 2
  | 4 => b
  | _ => p

/-- Lanes of a head: 4 for each port ganged (R43). -/
def headLanes (s : State) (h : Nat) : Nat :=
  4 * ((List.range 4).filter (fun i => headOf s (4 * (h / 4) + i) = h)).length

/-- Tile of a port (R12). -/
def portTile (p : Nat) : Nat := p / 8

/-- Whether `h` names a head of the member (R43). -/
def isHead (s : State) (h : Nat) : Bool := hasTile s (portTile h) && decide (headOf s h = h)

/-- The heads of the member, ascending. -/
def heads (s : State) : List Nat := (List.range (8 * tiles s)).filter (isHead s)

def getPort (s : State) (p : Nat) : Port := Table.get {} s.host.ports p
def onPort (p : Nat) (f : Port → Port) (s : State) : State :=
  onHost (fun h => { h with ports := Table.mod {} h.ports p f }) s

/-- Number of LDs of a head: 1 for an SLD (R45); an MLD head without a switch exposes LD 0 only (R47). -/
def ldCount (s : State) (h : Nat) : Nat := if (getPort s h).asSld then 1 else Table.get 1 s.host.lds h

/-- The image declares the head an MLD (R45). -/
def isMld (s : State) (h : Nat) : Bool := decide (1 < Table.get 1 s.host.lds h)

/-- Key of a function: 32 × head + 16 × FM-owned + LD. -/
def fnKey (h ld : Nat) (fm : Bool) : Nat := 32 * h + 16 * b2n fm + ld

/-- Where a command's answer goes once its head has been reset: nowhere (R52). -/
def abandonedFn : Nat := 2048

def fnOf (f : Fn) : Nat := fnKey f.head.val f.ld.val f.fm

def getFn (s : State) (k : Nat) : FnSt := Table.get {} s.host.fns k
def onFn (k : Nat) (f : FnSt → FnSt) (s : State) : State :=
  onHost (fun h => { h with fns := Table.mod {} h.fns k f }) s

/-- The function exists: its head, and its LD or the FM-owned LD of an MLD head (R45, R48, R66). -/
def fnExists (s : State) (f : Fn) : Bool :=
  isHead s f.head.val && (if f.fm then isMld s f.head.val else decide (f.ld.val < ldCount s f.head.val))

/-- Add an event record: a log holds 32 records and reports overflow (R55). -/
def addEvent (k : Nat) (e : EvRec) (s : State) : State :=
  onFn k (fun f => if (f.events.filter (fun x => x.log = e.log)).length < 32 then { f with events := f.events ++ [e] }
                   else { f with evOver := if f.evOver.contains e.log then f.evOver else f.evOver ++ [e.log] }) s

/-- A record for every function of one head (R55). -/
def eventHead (h : Nat) (e : EvRec) (s : State) : State :=
  (List.range (ldCount s h)).foldl (fun s ld => addEvent (fnKey h ld false) e s) s

/-- A device-wide record (R55). -/
def eventAll (e : EvRec) (s : State) : State := (heads s).foldl (fun s h => eventHead h e s) s

/-- Send a message on a head's link; nothing leaves a link that is down (R40, R52). -/
def send (h : Nat) (m : LinkMsg) (s : State) : State :=
  if (getPort s h).up then onHost (fun x => { x with sent := (h, m) :: x.sent }) s else s

/-- The view entry of an LD for a region (R78). -/
def viewOf (s : State) (h ld r : Nat) : Option View :=
  s.map.views.find? (fun v => v.head = h ∧ v.ld = ld ∧ v.region = r)

/-- The region that contains a DPA (R77). -/
def regionAt (s : State) (dpa : Nat) : Option Region :=
  s.map.cat.find? (fun r => r.base ≤ dpa ∧ dpa < r.base + r.len)

def regionOf (s : State) (i : Nat) : Option Region := s.map.cat.find? (fun r => r.idx = i)

/-- The management head: the parameter `host.mgmt_head` of the running image; H00 without it and for recovery firmware (R351, R454). -/
def mgmtHead (s : State) : Nat :=
  if s.dawn.recovery then 0 else
  match s.dawn.params.find? (fun p => p.1 = ascii "host.mgmt_head") with
  | some p => leNat p.2
  | none => 0

/-- The agent holds the management rights: a function of the management head, or firmware (R424, R454). -/
def hasRights (s : State) (a : Agent) : Bool :=
  match a with
  | .firmware => true
  | .head h ld => decide (h.val = mgmtHead s) && decide (ld.val < ldCount s h.val)

/-- A parameter's value bytes in the running image (R344). -/
def param (s : State) (name : String) : Option Bytes :=
  if s.dawn.recovery then none else (s.dawn.params.find? (fun p => p.1 = ascii name)).map (·.2)

/-- An integer parameter, with its default (R344, R345). -/
def paramNat (s : State) (name : String) (d : Nat) : Nat :=
  match param s name with
  | some b => leNat b
  | none => d

end Sys2Proof.Machine
end

