-- ==== Sys2Proof/Machine/Addr.lean ====
section
/-!
DEFINITION. Device addresses: pages, home tiles, leaves, extents, decoding (R69–R81).
-/
namespace Sys2Proof.Machine

/-- DPA page number P = DPA[47:12] of a line address (R75). -/
def pageOf (line : Nat) : Nat := line / 64

/-- The page whose number the home-tile hash takes: that of the enclosing block's base for a line of a packed window (R29, R75). -/
def hashPage (s : State) (line : Nat) : Nat :=
  match regionAt s (64 * line) with
  | some r => if r.typ = .packed then (r.base + (64 * line - r.base) / 2 ^ r.blkLog * 2 ^ r.blkLog) / 4096 else pageOf line
  | none => pageOf line

/-- The home tile of a line (R29, R75). -/
def homeOf (s : State) (line : Nat) : Nat := homeHash (tileBits s) (hashPage s line)

/-- Local page index: P shifted right by b (R75). -/
def localPage (s : State) (p : Nat) : Nat := p >>> tileBits s

/-- The page homed on tile `t` with a local index: the lowest chunk is the home XOR every higher chunk (R75, R171). -/
def pageAt (s : State) (t idx : Nat) : Nat :=
  let b := tileBits s
  let p := idx <<< b
  p ||| (homeHash b p ^^^ t)

/-- Local line number L (R93): from the page that the home-tile hash takes, so the lines of one packed block share it (R29, R75, log 44). -/
def localLine (s : State) (line : Nat) : Nat := localPage s (hashPage s line) * 64 + line % 64

/-- The declared extent that holds a DPA (R61). -/
def extentAt (s : State) (dpa : Nat) : Option Nat := s.map.decls.findIdx? (fun d => d.base ≤ dpa ∧ dpa < d.base + d.len)

/-- The fill unit of a line: the declared extent index, or 0xFFFF (R278). -/
def fillUnit (s : State) (line : Nat) : Nat := (extentAt s (64 * line)).getD 0xFFFF

/-- Pages of a region on each tile (R70). -/
def share (s : State) (r : Region) : Nat := r.len / 4096 / tiles s

/-- Blocks of a packed region homed on each tile (R245). -/
def blocksPer (s : State) (r : Region) : Nat := r.len / 2 ^ r.blkLog / tiles s

/-- Frames of a map area: 16 bytes a block and the free-unit bitmap, in whole frames (R246, R248). -/
def mapFrames (s : State) (r : Region) : Nat := (4095 + (16 * blocksPer s r + (7 + 16 * r.store) / 8)) / 4096

/-- Store address (R247). -/
def storeSa (region t area k : Nat) : Nat := 2 ^ 63 + region * 2 ^ 53 + t * 2 ^ 50 + (if area = 2 then 2 ^ 49 else 0) + 64 * k

/-- The current slot of a region: the catalogue's until a Twilight pass on it ends (R280). -/
def currentKey (s : State) (r : Region) : BitVec 12 := (Table.get none s.cry.cur r.idx).getD r.key

/-- The pass on a region, active or ending (R280). -/
def passOn (s : State) (region : Nat) : Option Pass := s.cry.passes.find? (fun p => p.region = region)

/-- Region in view as HDM-DB: at least one HDM-DB view entry (R92). -/
def isDb (s : State) (region : Nat) : Bool := s.map.views.any (fun v => decide (v.region = region) && v.db)

/-- The view mask: every head with an HDM-DB view entry for the region (R95). -/
def viewMask (s : State) (region : Nat) : W64 :=
  s.map.views.foldl (fun m v => if v.region = region ∧ v.db then setBit m v.head true else m) 0#64

/-- The pages that lie in a range being filled (R57, R90), tested through the running fills by `Fill`. -/
def inExtent (d : ExtDecl) (dpa : Nat) : Bool := decide (d.base ≤ dpa) && decide (dpa < d.base + d.len)

/-- The DPA of an HPA that hits a committed decoder (R72). -/
def decodeHpa (d : Decoder) (hpa : Nat) : Option Nat :=
  if d.base ≤ hpa ∧ hpa < d.base + d.size then
    let off := hpa - d.base
    let g := Nat.log2 d.gran
    let w := Nat.log2 d.ways
    some (d.dpa + ((off >>> (g + w)) <<< g) + off % 2 ^ g)
  else none

/-- The DPA a function's committed decoders give an HPA (R72). -/
def hpaToDpa (s : State) (fn : Nat) (hpa : Nat) : Option Nat :=
  (getFn s fn).decs.findSome? (fun e => e.2.bind (fun d => decodeHpa d hpa))

/-- Column and row of a tile in the mesh (R16, R19). -/
def tileX (s : State) (t : Nat) : Nat := t % (if tiles s = 8 then 4 else 2)
def tileY (s : State) (t : Nat) : Nat := t / (if tiles s = 8 then 4 else 2)

/-- Steps along one dimension, as tiles visited after the first. -/
def walkTo : Nat → Nat → Nat → Nat → List Nat
  | 0, _, _, _ => []
  | n + 1, stride, a, b =>
    if a % 64 = b % 64 then []
    else let a' := if a < b then a + stride else a - stride
         a' :: walkTo n stride a' b

/-- The tiles of the dimension-ordered route from `a` to `b`, both included: along the row, then along the column (R18). -/
def route (s : State) (a b : Nat) : List Nat :=
  let w := if tiles s = 8 then 4 else 2
  let mid := (a / w) * w + b % w
  a :: (walkTo 8 1 a mid ++ walkTo 8 w mid b)

/-- The Koist link between two neighbouring tiles, by its number in ascending order of its tiles (R16). -/
def linkBetween (s : State) (a b : Nat) : Nat :=
  let w := if tiles s = 8 then 4 else 2
  let ls := (tileList s).flatMap (fun x => (tileList s).filterMap (fun y => if (y = x + 1 ∧ y / w = x / w) ∨ y = x + w then some (x, y) else none))
  (ls.idxOf? (min a b, max a b)).getD 99

/-- A Koist link has a module in service (R17). -/
def koistUp (s : State) (l : Nat) : Bool := decide (Table.get 0#4 s.fab.modules l ≠ 0#4)

def pathUp (s : State) : List Nat → Bool
  | a :: b :: t => koistUp s (linkBetween s a b) && pathUp s (b :: t)
  | _ => true

/-- Two tiles are cut off from each other while the route between them, in either direction, crosses a down link (R455). -/
def cutOff (s : State) (a b : Nat) : Bool := !pathUp s (route s a b) || !pathUp s (route s b a)

end Sys2Proof.Machine
end

