-- ==== Sys2Proof/Machine/Aes.lean ====
section
/-!
DEFINITION. AES-256, AES-CMAC, the SP 800-108 derivation and GHASH, which R278, R283, R284 and R288 use by the names of their standards
(PRESUMED from FIPS 197, SP 800-38B, SP 800-38D and SP 800-108, log 20). Octet strings are byte lists.
-/
namespace Sys2Proof.Machine

/-- Multiplication in GF(2^8) modulo x^8 + x^4 + x^3 + x + 1. -/
def gmul (a b : Byte) : Byte :=
  ((List.range 8).foldl (fun (p : Byte × Byte) i =>
    let acc := if b.getLsbD i then p.1 ^^^ p.2 else p.1
    let x := p.2 <<< 1
    (acc, if p.2.getLsbD 7 then x ^^^ 0x1B#8 else x)) (0#8, a)).1

/-- The inverse in GF(2^8), as the 254th power; 0 for 0. -/
def ginv (a : Byte) : Byte :=
  let sq (x : Byte) : Byte := gmul x x
  let a2 := sq a
  let a4 := sq a2
  let a8 := sq a4
  let a16 := sq a8
  let a32 := sq a16
  let a64 := sq a32
  gmul (sq a64) (gmul a64 (gmul a32 (gmul a16 (gmul a8 (gmul a4 a2)))))

def sboxOf (a : Byte) : Byte :=
  let b := ginv a
  b ^^^ b.rotateLeft 1 ^^^ b.rotateLeft 2 ^^^ b.rotateLeft 3 ^^^ b.rotateLeft 4 ^^^ 0x63#8

def sboxTab : Array Byte := ((List.range 256).map (fun i => sboxOf (BitVec.ofNat 8 i))).toArray

def sbox (a : Byte) : Byte := sboxTab.getD a.toNat 0#8

def xorBytes (a b : Bytes) : Bytes := List.zipWith (· ^^^ ·) a b

/-- The key schedule: words of 4 bytes, newest first; `n` further words. -/
def expandKey : Nat → Nat → Byte → List Bytes → List Bytes
  | 0, _, _, ws => ws
  | n + 1, i, rc, ws =>
    let prev := ws.headD []
    let t := if i % 8 = 0 then
        match prev with
        | [a, b, c, d] => [sbox b ^^^ rc, sbox c, sbox d, sbox a]
        | _ => prev
      else if i % 8 = 4 then prev.map sbox else prev
    let rc' := if i % 8 = 0 then gmul rc 2#8 else rc
    expandKey n (i + 1) rc' (xorBytes (ws.getD 7 []) t :: ws)

/-- The 15 round keys of a 32-byte key. -/
def roundKeys (key : Bytes) : List Bytes :=
  let w0 := (List.range 8).map (fun i => (key.drop (4 * i)).take 4)
  let ws := (expandKey 52 8 1#8 w0.reverse).reverse
  (List.range 15).map (fun r => (ws.drop (4 * r)).take 4 |>.flatten)

def shiftRows (s : Bytes) : Bytes :=
  (List.range 16).map (fun i => s.getD ((i + 4 * (i % 4)) % 16) 0#8)

def mixCol (c : Bytes) : Bytes :=
  match c with
  | [a, b, d, e] =>
    [gmul a 2#8 ^^^ gmul b 3#8 ^^^ d ^^^ e, a ^^^ gmul b 2#8 ^^^ gmul d 3#8 ^^^ e,
     a ^^^ b ^^^ gmul d 2#8 ^^^ gmul e 3#8, gmul a 3#8 ^^^ b ^^^ d ^^^ gmul e 2#8]
  | _ => c

def mixColumns (s : Bytes) : Bytes := (List.range 4).flatMap (fun i => mixCol ((s.drop (4 * i)).take 4))

def aesRounds : List Bytes → Bytes → Bytes
  | [], s => s
  | [k], s => xorBytes (shiftRows (s.map sbox)) k
  | k :: t, s => aesRounds t (xorBytes (mixColumns (shiftRows (s.map sbox))) k)

/-- AES-256 of one block (FIPS 197). -/
def aesWith (rk : List Bytes) (b : Bytes) : Bytes := aesRounds (rk.drop 1) (xorBytes b (rk.headD []))

def aes (key b : Bytes) : Bytes := aesWith (roundKeys key) b

/-- Doubling in GF(2^128) as SP 800-38B defines it. -/
def dbl (b : Bytes) : Bytes :=
  let v := beNat b
  let w := (v * 2) % 2 ^ 128
  beBytes 16 (if v / 2 ^ 127 = 1 then w ^^^ 0x87 else w)

/-- AES-CMAC (SP 800-38B); `fuel` bounds the number of blocks. -/
def cmacGo (rk : List Bytes) (k1 k2 : Bytes) : Nat → Bytes → Bytes → Bytes
  | 0, _, x => x
  | f + 1, m, x =>
    if 16 < m.length then cmacGo rk k1 k2 f (m.drop 16) (aesWith rk (xorBytes x (m.take 16)))
    else
      let last := if m.length = 16 then xorBytes m k1 else xorBytes (slice (m ++ [0x80#8]) 0 16) k2
      aesWith rk (xorBytes x last)

def cmac (key m : Bytes) : Bytes :=
  let rk := roundKeys key
  let k1 := dbl (aesWith rk (List.replicate 16 0#8))
  cmacGo rk k1 (dbl k1) (m.length / 16 + 1) m (List.replicate 16 0#8)

/-- Multiplication in the field of GHASH, bit 0 the leftmost (SP 800-38D). -/
def ghMul (x y : BitVec 128) : BitVec 128 :=
  ((List.range 128).foldl (fun (p : BitVec 128 × BitVec 128) i =>
    let z := if x.getLsbD (127 - i) then p.1 ^^^ p.2 else p.1
    let v := if p.2.getLsbD 0 then (p.2 >>> 1) ^^^ (0xE1#128 <<< 120) else p.2 >>> 1
    (z, v)) (0#128, y)).1

/-- GHASH of a string of whole blocks. -/
def ghash (h : Bytes) (m : Bytes) : Bytes :=
  let hv := BitVec.ofNat 128 (beNat h)
  let r := (List.range (m.length / 16)).foldl (fun (y : BitVec 128) i =>
    ghMul (y ^^^ BitVec.ofNat 128 (beNat ((m.drop (16 * i)).take 16))) hv) 0#128
  beBytes 16 r.toNat

end Sys2Proof.Machine
end

