-- ==== Sys2Proof/Machine/LogOps.lean ====
section
/-!
DEFINITION. The log store below its commands (R380–R397): cells, split counters, records, rings, the power-up paths and the acceptance
of a record.
-/
namespace Sys2Proof.Machine

def erased : BitVec 128 := BitVec.allOnes 128

def cellOf (l : LogStore) (i : Nat) : BitVec 128 := Table.get erased l.cells i

def cellBytes (l : LogStore) (i : Nat) : Bytes := leBytes 16 (cellOf l i).toNat

def setCell (i : Nat) (v : BitVec 128) (l : LogStore) : LogStore := { l with cells := Table.set erased l.cells i v }

/-- Program consecutive cells from `i`, ascending (R380, R382). -/
def setCells (i : Nat) (b : Bytes) (l : LogStore) : LogStore :=
  (List.range (b.length / 16)).foldl (fun l j => setCell (i + j) (BitVec.ofNat 128 (leNat ((b.drop (16 * j)).take 16))) l) l

/-- First cell of a record position (R383). -/
def posCell (page pos : Nat) : Nat := 16 * page + 4 * pos

/-- The 64 bytes of a position. -/
def posBytes (l : LogStore) (page pos : Nat) : Bytes :=
  (List.range 4).flatMap (fun j => cellBytes l (posCell page pos + j))

/-- The first and last page of rings F, P, D and M (R381). -/
def ringPages (r : Nat) : Nat × Nat :=
  if r = 0 then (4, 131) else if r = 1 then (132, 195) else if r = 2 then (196, 247) else (248, 255)

/-- The ring a record type belongs to (R397). -/
def ringOf (typ : Byte) : Nat :=
  if typ.toNat < 0x10 then 2 else if typ = 0x20#8 then 1 else if typ = 0x30#8 then 3 else 0

/-- The record types of R397. -/
def recordTypes : List Byte := [0x01#8, 0x02#8, 0x03#8, 0x04#8, 0x10#8, 0x11#8, 0x12#8, 0x1F#8, 0x20#8, 0x30#8]

def isLive (l : LogStore) (page : Nat) : Bool := !l.retired.contains page

def livePages (l : LogStore) (r : Nat) : List Nat :=
  (List.range ((ringPages r).2 + 1)).filter (fun p => decide ((ringPages r).1 ≤ p) && isLive l p)

/-- A ring with fewer than two live slots is worn (R388). -/
def ringWorn (l : LogStore) (r : Nat) : Bool := decide ((livePages l r).length < 2)

/-- The write pointer after (page, pos): next live slot, or the first live slot at the next position, which ends a lap (R386). -/
def nextPtr (l : LogStore) (r page pos : Nat) : Nat × Nat × Bool :=
  match (livePages l r).find? (fun p => page < p) with
  | some p => (p, pos, false)
  | none => ((livePages l r).headD (ringPages r).1, (pos + 1) % 4, true)

/-- The position before (page, pos) in write order. -/
def prevPtr (l : LogStore) (r page pos : Nat) : Nat × Nat :=
  match (livePages l r).reverse.find? (fun p => p < page) with
  | some p => (p, pos)
  | none => ((livePages l r).getLastD (ringPages r).2, (pos + 3) % 4)

/-- The ring's write pointer; a ring that has none yet starts at position 0 of its first live slot (R394). -/
def ringPtr (l : LogStore) (r : Nat) : RingPtr :=
  Table.get ⟨(livePages l r).headD (ringPages r).1, 0, 0xFFFFFFFF#32⟩ l.ptrs r

/-- Where records of ring `r` go: the ring itself, ring F when it is worn; when F is worn every record is dropped (R388). -/
def writeRing (l : LogStore) (r : Nat) : Option Nat :=
  if ringWorn l 0 then none else if ringWorn l r then some 0 else some r

/-- A valid position's SEQ (R384): its CRC passes. An erased cell never passes (R380). -/
def seqAt (l : LogStore) (page pos : Nat) : Option W32 :=
  let b := posBytes l page pos
  if crc32 (b.take 60) = BitVec.ofNat 32 (leAt b 60 4) then some (BitVec.ofNat 32 (leAt b 0 4)) else none

/-- Every valid position of a ring, by page and then position. -/
def validPos (l : LogStore) (r : Nat) : List (W32 × Nat × Nat) :=
  (List.range ((ringPages r).2 + 1)).flatMap (fun page =>
    if page < (ringPages r).1 then [] else
      (List.range 4).filterMap (fun pos =>
        if cellOf l (posCell page pos) = erased then none else (seqAt l page pos).map (fun q => (q, page, pos))))

/-- The ring that a page belongs to (R381). -/
def ringAt (page : Nat) : Nat := if page ≤ 131 then 0 else if page ≤ 195 then 1 else if page ≤ 247 then 2 else 3

/-- Position `b` follows position `a` in the write order of their ring: no live slot lies between them (R386, R395). -/
def follows (l : LogStore) (a b : Nat × Nat) : Bool :=
  let r := ringAt a.1
  let none_ (f : Nat → Bool) : Bool := (livePages l r).all (fun p => !f p)
  decide (ringAt b.1 = r) &&
  (if a.1 < b.1 then decide (b.2 = a.2) && none_ (fun p => decide (a.1 < p) && decide (p < b.1))
   else decide (b.2 = (a.2 + 1) % 4) && none_ (fun p => decide (a.1 < p) || decide (p < b.1)))

/-- Whether copy `b` beats copy `a` of one SEQ (R395): it follows in write order; otherwise the lower position wins. -/
def copyWins (l : LogStore) (a b : Nat × Nat) : Bool :=
  if follows l a b then true else if follows l b a then false
  else decide (b.1 < a.1) || (decide (b.1 = a.1) && decide (b.2 < a.2))

/-- The valid position of a SEQ loses to no other copy of it, in whichever ring (R388, R395). -/
def wins (l : LogStore) (all : List (W32 × Nat × Nat)) (e : W32 × Nat × Nat) : Bool :=
  all.all (fun x => decide (x.1 ≠ e.1) || decide (x.2 = e.2) || !copyWins l (e.2.1, e.2.2) (x.2.1, x.2.2))

/-- The winning positions of a ring (R395). -/
def winners (l : LogStore) (r : Nat) : List (W32 × Nat × Nat) :=
  let all := (List.range 4).flatMap (validPos l)
  (validPos l r).filter (wins l all)

/-- A CRC-16 protected cell: 14 bytes and their CRC (R389, R390). -/
def crcCell (b14 : Bytes) : BitVec 128 :=
  let b := slice b14 0 14
  BitVec.ofNat 128 (leNat (b ++ leBytes 2 (crc16 b).toNat))

def crcCellOk (l : LogStore) (i : Nat) : Bool :=
  let b := cellBytes l i
  crc16 (b.take 14) = BitVec.ofNat 16 (leAt b 14 2)

/-- Counter-area cell `k` (R381). -/
def ctrCell (k : Nat) : Nat := 16 + k

/-- A split counter's value (R391). -/
def splitVal (l : LogStore) (k : Nat) : Nat :=
  let hs := [6 * k, 6 * k + 1].filterMap (fun c =>
    if crcCellOk l (ctrCell c) then some (leAt (cellBytes l (ctrCell c)) 0 4) else none)
  let h := hs.foldl max 0
  let ls := [6 * k + 2, 6 * k + 3, 6 * k + 4, 6 * k + 5].filterMap (fun c =>
    let b := cellBytes l (ctrCell c)
    if crcCellOk l (ctrCell c) && decide (leAt b 2 1 = h % 256) then some (4096 * h + leAt b 0 2) else none)
  ls.foldl max (4096 * h)

/-- Increment a split counter (R390). -/
def splitInc (k : Nat) (l : LogStore) : LogStore :=
  let v := splitVal l k + 1
  let h := (v - 1) / 4096
  let w := v % 4
  if v % 4096 ≠ 0 then setCell (ctrCell (6 * k + 2 + w)) (crcCell (leBytes 2 (v % 4096) ++ [BitVec.ofNat 8 h])) l
  else setCell (ctrCell (6 * k + 2 + w)) (crcCell ([0#8, 0#8] ++ [BitVec.ofNat 8 (h + 1)]))
    (setCell (ctrCell (6 * k + (h + 1) % 2)) (crcCell (leBytes 4 (h + 1))) l)

/-- The retirement map as the cells hold it (R389): the OR of the valid copies. -/
def retiredInCells (l : LogStore) : List Nat :=
  (List.range 3).flatMap (fun j =>
    let c0 := ctrCell (42 + 2 * j)
    let part (c : Nat) : Nat := if crcCellOk l c then leAt (cellBytes l c) 0 12 else 0
    let m := part c0 ||| part (c0 + 1)
    (List.range 96).filterMap (fun i => if Nat.testBit m i ∧ 4 + 96 * j + i < 256 then some (4 + 96 * j + i) else none))

/-- Write one part of the retirement map, copy 0 and then copy 1 (R389). -/
def writeRetired (page : Nat) (l : LogStore) : LogStore :=
  let j := (page - 4) / 96
  let m := (List.range 96).foldl (fun a i => if l.retired.contains (4 + 96 * j + i) then a ||| (1 <<< i) else a) 0
  let c := crcCell (leBytes 12 m)
  setCell (ctrCell (43 + 2 * j)) c (setCell (ctrCell (42 + 2 * j)) c l)

/-- Retire a slot (R387). -/
def retirePage (page : Nat) (l : LogStore) : LogStore :=
  if l.retired.contains page then l else writeRetired page { l with retired := l.retired ++ [page] }

/-- The 64 bytes of a record (R384). -/
def recordBytes (epoch : Nat) (r : LogRec) : Bytes :=
  let b := leBytes 4 r.seq.toNat ++ [r.typ, r.origin] ++ leBytes 2 r.source.toNat ++ leBytes 4 epoch ++ leBytes 8 r.time.toNat ++
    slice r.payload 0 40
  b ++ leBytes 4 (crc32 b).toNat

/-- The 64 bytes of a hint written now (R392). -/
def hintBytes (l : LogStore) : Bytes :=
  let b := leBytes 4 l.nextSeq.toNat ++
    (List.range 4).flatMap (fun r => let p := ringPtr l r; [BitVec.ofNat 8 p.page, BitVec.ofNat 8 p.pos] ++ leBytes 4 p.last.toNat) ++
    List.replicate 32 0#8
  b ++ leBytes 4 (crc32 b).toNat

/-- A hint is due, unless hints have stopped (R392): it waits for one that is being written. -/
def startHint (l : LogStore) : LogStore :=
  if l.hintOff then l else if l.hintBusy.isSome then { l with hintDue := l.hintDue + 1 } else { l with hintBusy := some none }

/-- The hint has been written, or given up: the next one that is due follows. -/
def nextHint (l : LogStore) : LogStore :=
  if l.hintOff ∨ l.hintDue = 0 then { l with hintBusy := none, hintDue := 0 } else { l with hintBusy := some none, hintDue := l.hintDue - 1 }

/-- A record accepted: SEQ from NEXT_SEQ; a hint when NEXT_SEQ reaches a multiple of 512 (R385, R392). -/
def enqueue (now : Nat) (typ origin : Byte) (source : BitVec 16) (payload : Bytes) (l : LogStore) : LogStore :=
  let l := { l with
    queue := l.queue ++ [⟨l.nextSeq, typ, origin, source, BitVec.ofNat 64 now, payload⟩]
    nextSeq := l.nextSeq + 1 }
  if l.nextSeq.toNat % 512 = 0 ∧ ¬l.starting then startHint l else l

/-- One record dropped and counted (R385). -/
def dropOne (l : LogStore) : LogStore := { l with dropped := l.dropped + 1, lost := satAdd l.lost 1 65535 }

/-- Queue a records-lost record once the queue has room and the drop count is not 0 (R385). -/
def flushLost (now : Nat) (l : LogStore) : LogStore :=
  if l.dropped ≠ 0 ∧ l.queue.length < 64 then
    { enqueue now 0x1F#8 0x08#8 0xFFFF#16 (leBytes 4 l.dropped) l with dropped := 0 }
  else l

/-- SV takes a record (R385): it queues it, drops and counts it when the queue is full, and always accepts a Midnight record, which
displaces the newest queued one. A TYPE that R397 does not list is no record and is not taken (DESIGN CHOICE, log 8). -/
def logAccept (now : Nat) (typ origin : Byte) (source : BitVec 16) (payload : Bytes) (l : LogStore) : LogStore :=
  if !recordTypes.contains typ then l
  else if l.queue.length < 64 then flushLost now (enqueue now typ origin source payload l)
  else if typ = 0x30#8 then enqueue now typ origin source payload (dropOne { l with queue := l.queue.dropLast })
  else dropOne l

/-- A record submitted to SV, with the count of dropped records (R385, R413). -/
def logSubmit (typ origin : Byte) (source : BitVec 16) (payload : Bytes) (s : State) : State :=
  let drops := recordTypes.contains typ && decide (64 ≤ s.log.queue.length)
  (if drops then addCnt (svCnt 2) 1 else id) (onLog (logAccept s.time.now typ origin source payload) s)

/-- Read the hint positions (R392): valid ones, as position, HSEQ and bytes. -/
def hints (l : LogStore) : List (Nat × W32 × Bytes) :=
  (List.range 4).filterMap (fun p =>
    let b := posBytes l 0 p
    if crc32 (b.take 60) = BitVec.ofNat 32 (leAt b 60 4) ∧ b ≠ List.replicate 64 0xFF#8 then
      some (p, BitVec.ofNat 32 (leAt b 0 4), b) else none)

/-- The winning hint: highest HSEQ; of equal ones the later in write order, or the lower position (R393, R395). -/
def bestHint (l : LogStore) : Option (Nat × W32 × Bytes) :=
  (hints l).foldl (fun acc h =>
    match acc with
    | none => some h
    | some a => if a.2.1.toNat < h.2.1.toNat ∨ (a.2.1 = h.2.1 ∧ (a.1 + 1) % 4 = h.1) then some h else acc) none

/-- Walk a ring from a pointer (R393 step 3): the pointer reached, the last SEQ taken and the positions read. `fuel` bounds the walk. -/
def walkRing (l : LogStore) (r : Nat) (hseq : Nat) : Nat → Nat → Nat → Nat → Nat → W32 → Nat × Nat × Nat × W32
  | 0, page, pos, n, _, last => (page, pos, n, last)
  | fuel + 1, page, pos, n, lo, last =>
    match seqAt l page pos with
    | some q =>
      if hseq ≤ q.toNat ∧ lo ≤ q.toNat then
        let nx := nextPtr l r page pos
        walkRing l r hseq fuel nx.1 nx.2.1 (n + 1) q.toNat q
      else (page, pos, n + 1, last)
    | none => (page, pos, n + 1, last)

/-- The hint path (R393): the pointers and NEXT_SEQ it recovers, or none when it fails. -/
def hintPath (l : LogStore) : Option (Table RingPtr × W32) :=
  match bestHint l with
  | none => none
  | some (_, hseq, b) =>
    let ptr (r : Nat) : RingPtr := ⟨leAt b (4 + 6 * r) 1, leAt b (5 + 6 * r) 1, BitVec.ofNat 32 (leAt b (6 + 6 * r) 4)⟩
    let ok := (List.range 4).all (fun r =>
      let p := ptr r
      let q := prevPtr l r p.page p.pos
      p.last = 0xFFFFFFFF#32 || seqAt l q.1 q.2 = some p.last)
    let w := (List.range 4).map (fun r => let p := ptr r; (r, walkRing l r hseq.toNat 1025 p.page p.pos 0 0 p.last))
    if !ok || decide (1024 < (w.map (fun x => x.2.2.2.1)).sum) then none
    else
      let top := w.foldl (fun a x => if x.2.2.2.2 = 0xFFFFFFFF#32 then a else max a (x.2.2.2.2.toNat + 1)) hseq.toNat
      some (w.map (fun x => (x.1, ⟨x.2.1, x.2.2.1, x.2.2.2.2⟩)), BitVec.ofNat 32 top)

/-- The full scan (R394): each ring's pointer follows its winning record of highest SEQ; NEXT_SEQ is the highest found plus 1. -/
def fullScan (l : LogStore) : Table RingPtr × W32 :=
  let best (r : Nat) : Option (W32 × Nat × Nat) :=
    (winners l r).foldl (fun a e => match a with | none => some e | some x => if x.1.toNat < e.1.toNat then some e else a) none
  let ptrs := (List.range 4).filterMap (fun r => (best r).map (fun e =>
    let nx := nextPtr l r e.2.1 e.2.2
    (r, (⟨nx.1, nx.2.1, e.1⟩ : RingPtr))))
  (ptrs, BitVec.ofNat 32 ((List.range 4).foldl (fun a r => match best r with | none => a | some e => max a (e.1.toNat + 1)) 0))

/-- WORN follows the live slots (R388). -/
def markWorn (l : LogStore) : LogStore := { l with worn := (List.range 4).foldl (fun w r => setBit w r (ringWorn l r)) 0#4 }

/-- SV starts the power-up path (R393, R394): the hint path, or the full scan when it fails. -/
def logPowerUp (l : LogStore) : LogStore :=
  let l := markWorn { l with retired := retiredInCells l, starting := true }
  match hintPath l with
  | some (p, q) => { l with ptrs := p, nextSeq := q, hintUsed := true, scanning := false,
                            hintPos := (match bestHint l with | some h => (h.1 + 1) % 4 | none => 0) }
  | none => { l with scanning := true, hintUsed := false,
                     hintPos := (match bestHint l with | some h => (h.1 + 1) % 4 | none => 0) }

/-- What power-on reset leaves of the log store (R335, R396): the cells, of which a write in progress, a hint's or a
record's, has programmed only the first ones. -/
def logTear (free : Nat) (l : LogStore) : LogStore :=
  let cells :=
    if l.starting then l.cells else
    match l.hintBusy, l.queue with
    | some b, _ => (setCells (posCell 0 l.hintPos) ((b.getD (hintBytes l)).take (16 * (Config.tornCells free % 5))) l).cells
    | none, [] => l.cells
    | none, r :: _ =>
      match writeRing l (ringOf r.typ) with
      | none => l.cells
      | some g =>
        let p := ringPtr l g
        (setCells (posCell p.page p.pos) ((recordBytes (splitVal l 4) r).take (16 * (Config.tornCells free % 5))) l).cells
  { ({} : LogStore) with cells := cells }

/-- A record's SEQ and place into a list in ascending SEQ. -/
def seqIns (x : Nat × Nat × Nat) : List (Nat × Nat × Nat) → List (Nat × Nat × Nat)
  | [] => [x]
  | y :: l => if x.1 ≤ y.1 then x :: y :: l else y :: seqIns x l

/-- The records of every ring with SEQ at or above `first`, winners only, in ascending SEQ (R398). -/
def recordsFrom (l : LogStore) (rings : List Nat) (first : Nat) : List (Nat × Nat × Nat) :=
  let all := rings.flatMap (fun r => (winners l r).filterMap (fun e => if first ≤ e.1.toNat then some (e.1.toNat, e.2.1, e.2.2) else none))
  all.foldr seqIns []

end Sys2Proof.Machine
end

