-- ==== Sys2Proof/Machine/Faults.lean ====
section
/-!
DEFINITION. The fault collector (R399–R411): a raise, replace requests, quiesce and Midnight, and the commands that belong to them.
-/
namespace Sys2Proof.Machine

/-- The class a source acts with: FC_CFG CLASS, never below the default (R406). -/
def faultClass (s : State) (src : Nat) : Nat := max (srcClass src) (regFld s .fcCfg src 1 0)

/-- GRACE window of a source, in ms: 0 acts as 1, and values above 60,000 act as 60,000 (FC_GRACE, R406). -/
def graceMs (s : State) (src : Nat) : Nat := clampN 1 60000 (regFld s .fcGrace (regFld s .fcCfg src 3 2) 15 0)

/-- A replace request stands from the first action that makes one (R410). -/
def replaceRequest (src : Nat) (s : State) : State :=
  onFaults (fun f => if f.rr then f else { f with rr := true, rrSource := src }) s

/-- The replace request of a Dawn failure, which names no source (R351, R410). -/
def replaceDawn (code : Nat) (s : State) : State :=
  onFaults (fun f => if f.rr then f else { f with rr := true, rrDawn := true, rrSource := 0, rrCode := code }) s

/-- Key table, working keys, tree keys, root stores and boot nonce zeroised on every tile (R276, R296). -/
def zeroise (s : State) : State :=
  onCry (fun c => { c with keys := [], nonce := none, treeKeys := [], roots := [] }) s

/-- Every port stops: electrical idle, everything received discarded, no retrain (R40, R296). -/
def stopPorts (s : State) : State :=
  (List.range (8 * tiles s)).foldl (fun s p => onPort p (fun x =>
    { x with up := false, rate := .down, width := 0, flit := .none, bi := false, training := false, midnightStop := true }) s) s

/-- What an alarm is about (R296): region, DPA or SA. -/
structure AlarmCtx where
  region : Nat := 0xFFFF
  addr : W64 := 0#64
  kind : Nat := 2
deriving DecidableEq, Repr

/-- Payload of the Midnight record (R397). -/
def midnightPayload (tile : Nat) (c : AlarmCtx) : Bytes :=
  leBytes 1 tile ++ [0#8] ++ leBytes 2 c.region ++ leBytes 8 c.addr.toNat ++ leBytes 1 c.kind

/-- The alarm wire of slice `sl` (a tile, or 8 for SV) is asserted by source `src`: Midnight (R296, R409). A second alarm finds it entered. -/
def alarm (sl src : Nat) (c : AlarmCtx) (s : State) : State :=
  let s1 := onFaults (fun f => { f with alarm := setBit f.alarm sl true }) s
  if s.faults.midnight then s1
  else
    let s2 := zeroise (stopPorts (onFaults (fun f => { f with midnight := true, grace := [] }) s1))
    let s3 := onCry (fun k => { k with passes := [] }) s2
    logSubmit 0x30#8 (BitVec.ofNat 8 (sl % 8 ||| 8)) (BitVec.ofNat 16 src) (midnightPayload (sl % 8) c) s3

/-- A pending entry's place: ascending source, then step (R405). -/
def pendInsert (p : PendFault) : List PendFault → List PendFault
  | [] => [p]
  | q :: t => if p.src < q.src ∨ (p.src = q.src ∧ p.step < q.step) then p :: q :: t else q :: pendInsert p t

/-- A 0-to-1 transition's entry (R400): a new one, or one more transition merged into the entry that still waits. -/
def pendRaise (src : Nat) (c : FaultCtx) (l : List PendFault) : List PendFault :=
  if l.any (fun p => p.src = src ∧ p.step = 1) then
    l.map (fun p => if p.src = src ∧ p.step = 1 then { p with more := satAdd p.more 1 255 } else p)
  else pendInsert ⟨src, 1, c, 0⟩ l

/-- The slice of a source: its tile, or 8 for SV. -/
def srcSlice (src : Nat) : Nat := if src < 960 then src / 120 else 8

/-- A raise (R400, R402, R405, R408): discarded when disabled or absent; the bit sticks; a 0-to-1 transition takes the step-1 actions of the
source's class. -/
def raiseWith (src : Nat) (c : FaultCtx) (a : AlarmCtx) (s : State) : State :=
  if !srcPresent (tiles s) src || !s.faults.en.getLsbD src then s
  else if s.faults.sts.getLsbD src then s
  else
    let s1 := onFaults (fun f => { f with sts := setBit f.sts src true, pend := pendRaise src c f.pend }) s
    match faultClass s src with
    | 0 => s1
    | 1 => replaceRequest src s1
    | 2 =>
      let s2 := replaceRequest src s1
      if s.faults.midnight then s2 else onFaults (fun f => { f with grace := f.grace ++ [src] }) s2
    | _ => alarm (srcSlice src) src a s1

/-- A raise of a tile source not tied to a request (R401). -/
def raiseTile (t : Nat) (k : TileSrc) (detail : Nat) (s : State) : State :=
  raiseWith (tileSrc t k) { detail := BitVec.ofNat 32 detail } {} s

/-- A raise of a tile source by a request: address, head and source kind (R400). -/
def raiseReq (t : Nat) (k : TileSrc) (addr head kind detail : Nat) (s : State) : State :=
  raiseWith (tileSrc t k) ⟨BitVec.ofNat 64 addr, BitVec.ofNat 8 head, BitVec.ofNat 8 kind, BitVec.ofNat 32 detail⟩ {} s

/-- A raise of an SV source (R401). -/
def raiseSv (k : SvSrc) (detail : Nat) (s : State) : State :=
  raiseWith (svSrc k) { detail := BitVec.ofNat 32 detail } {} s

/-- Rings that have become worn since `old` (R388): each raises LS_WORN. -/
def raiseWorn (old : BitVec 4) (s : State) : State :=
  (List.range 4).foldl (fun s r => if s.log.worn.getLsbD r && !old.getLsbD r then raiseSv .lsWorn r s else s) s

/-- A frame that T0 sends on the SV–T0 link stays outstanding until SV has acknowledged it (R25). -/
def sendToSv (frame : Bytes) (l : SvLink) : SvLink :=
  { l with toSv := l.toSv ++ [frame], sendsT0 := if l.toSv.isEmpty then 1 else l.sendsT0 }

/-- A record as its frame carries it: TYPE, ORIGIN, SOURCE and payload (log 114). -/
def recordFrame (typ origin : Byte) (source : BitVec 16) (payload : Bytes) : Bytes := [typ, origin] ++ leBytes 2 source.toNat ++ payload

/-- The primary hands a record to SV over the SV–T0 link; while the link is down it holds up to 256 and drops further ones (R25, R380). -/
def primaryLog (typ origin : Byte) (source : BitVec 16) (payload : Bytes) (s : State) : State :=
  if !s.link.down then logSubmit typ origin source payload (onLink (sendToSv (recordFrame typ origin source payload)) s)
  else onLink (fun l => if l.held.length < 256 then { l with held := l.held ++ [(typ, origin, source, payload)] }
                        else { l with heldDropped := l.heldDropped + 1 }) s

/-- Payload of a fault record (R397). -/
def faultPayload (cls : Nat) (p : PendFault) : Bytes :=
  leBytes 8 p.ctx.addr.toNat ++ [p.ctx.head, p.ctx.kind, BitVec.ofNat 8 cls, BitVec.ofNat 8 p.step] ++ leBytes 4 p.ctx.detail.toNat ++
    [BitVec.ofNat 8 p.more]

/-- The entry the primary serves next: ascending source; an SV source's entry waits in SV while the link is down (R25, R405). -/
def nextPend (s : State) : Option PendFault :=
  s.faults.pend.find? (fun p => !s.link.down || decide (p.src < 960))

/-- The Replace request record, once, when the request first stands (R410). -/
def logReplace (s : State) : State :=
  if s.faults.rr ∧ ¬s.faults.rrLogged then
    let src : BitVec 16 := if s.faults.rrDawn then 0xFFFF#16 else BitVec.ofNat 16 s.faults.rrSource
    let org := if s.faults.rrDawn ∨ 960 ≤ s.faults.rrSource then 0 else s.faults.rrSource / 120
    onFaults (fun f => { f with rrLogged := true })
      (primaryLog 0x11#8 (BitVec.ofNat 8 org) src
        (if s.faults.rrDawn then [1#8, BitVec.ofNat 8 s.faults.rrCode] else [0#8, 0#8]) s)
  else s

/-- FAULT_RECORD_WRITE (R405): the primary writes the record of the first pending entry it can serve, a device-wide event record for a
SERVICE or QUIESCE source at step 1, and the Replace request record when a request has begun to stand. -/
def execFaultRecordWrite (s : State) : Host.Outcome State Fault Refusal :=
  if !primaryRuns s then .next s else
  match nextPend s with
  | none => .next (logReplace s)
  | some p =>
    let cls := faultClass s p.src
    let s1 := onFaults (fun f => { f with pend := f.pend.filter (fun q => ¬(q.src = p.src ∧ q.step = p.step)) }) s
    let org := if p.src < 960 then p.src / 120 else 0
    let s2 := primaryLog 0x10#8 (BitVec.ofNat 8 org) (BitVec.ofNat 16 p.src) (faultPayload cls p) s1
    let s3 := if (cls = 1 ∨ cls = 2) ∧ p.step = 1 then eventAll ⟨.warning, .healthChange p.src⟩ s2 else s2
    .next (logReplace s3)

/-- The bits of a group that name sources of the member (R399). -/
def groupMask (s : State) (g : Nat) : W32 :=
  (List.range 32).foldl (fun m i => if srcPresent (tiles s) (32 * g + i) then setBit m i true else m) 0#32

/-- The 32 bits of group `g` of a source vector. -/
def groupOf (v : BitVec 1024) (g : Nat) : W32 := BitVec.ofNat 32 (v.toNat >>> (32 * g))

def setGroup (v : BitVec 1024) (g : Nat) (w : W32) : BitVec 1024 :=
  (v &&& ~~~(BitVec.ofNat 1024 (0xFFFFFFFF <<< (32 * g)))) ||| BitVec.ofNat 1024 (w.toNat <<< (32 * g))

/-- A write to FC_STS[g] by an agent with rights (R402, R407): bits written 1 are cleared, except those a raise meets in the same cycle (R9);
a cleared source's grace window ends without step 2. -/
def clearSts (g : Nat) (v raised : W32) (s : State) : State :=
  let hit := raised &&& groupOf s.faults.en g &&& groupMask s g
  let keep := v &&& groupOf s.faults.sts g &&& hit
  let clr := v &&& ~~~keep
  onFaults (fun f => { f with sts := setGroup f.sts g (groupOf f.sts g &&& ~~~clr)
                              grace := f.grace.filter (fun x => ¬(x / 32 = g ∧ clr.getLsbD (x % 32))) }) s

/-- FAULT_STS_CLEAR (R402, R404). A raise of the same cycle that met no clear of a set bit is an ordinary raise. -/
def execFaultStsClear (a : Agent) (g : Fin 32) (v raised : W32) (s : State) : Host.Outcome State Fault Refusal :=
  let had := groupOf s.faults.sts g
  let s1 := if hasRights s a && running s then clearSts g v raised s else s
  .next ((bitsOf 32 raised).foldl (fun s i => if had.getLsbD i then s else raiseWith (32 * g.val + i) {} {} s) s1)

/-- Start a re-evaluation, or restart it with the latest state (R328). -/
def reevaluate (trigger : Nat) (s : State) : State := if dawnDone s && !midnight s then onQos (fun q => { q with busy := some trigger }) s else s

/-- A forced raise (R403): DR_CH_LOST, NL_LINK_LOST and NL_GROUP_LOST start a re-evaluation, as a hardware raise of them does (R328). -/
def forceRaise (src : Nat) (s : State) : State :=
  let s1 := raiseWith src ⟨0#64, 0xFF#8, 3#8, 0xFFFFFFFF#32⟩ {} s
  if src < 960 && [13, 18, 24].contains (src % 120) && srcPresent (tiles s) src && s.faults.en.getLsbD src then reevaluate src s1 else s1

/-- A write to FC_FORCE[g] (R403): each bit written 1 raises its source once; fixed sources and absent tiles are left alone. -/
def forceGroup (g : Nat) (v : W32) (s : State) : State :=
  (bitsOf 32 v).foldl (fun s i =>
    let src := 32 * g + i
    if srcFixed src then s else forceRaise src s) s

/-- FAULT_FORCE (R403, R404). -/
def execFaultForce (a : Agent) (g : Fin 32) (v : W32) (s : State) : Host.Outcome State Fault Refusal :=
  .next (if hasRights s a && running s then forceGroup g v s else s)

/-- A write to FC_EN[g] (R401, FC_EN): bits of fixed sources read 1 and are not changed; absent tiles' writes are discarded. -/
def writeEn (g : Nat) (v : W32) (s : State) : State :=
  let fix := (List.range 32).foldl (fun m i => if srcFixed (32 * g + i) then setBit m i true else m) 0#32
  let w := groupMask s g &&& ~~~fix
  onFaults (fun f => { f with en := setGroup f.en g (merge32 w v (groupOf f.en g)) }) s

/-- GRACE_WINDOW_EXPIRY (R407): with STS still 1 the device quiesces; a second source at step 2 only writes its record. -/
def execGraceWindowExpiry (src : SourceId) (s : State) : Host.Outcome State Fault Refusal :=
  if !s.faults.grace.contains src.val then .next s else
  let s1 := onFaults (fun f => { f with grace := f.grace.filter (· ≠ src.val) }) s
  if !s.faults.sts.getLsbD src.val || s.faults.midnight then .next s1
  else
    let s2 := onFaults (fun f => { f with pend := pendInsert ⟨src.val, 2, { detail := 0#32 }, 0⟩ f.pend }) s1
    .next (if quiesced s then s2 else onFaults (fun f => { f with quiescing := true, qSource := src.val }) s2)

/-- QUIESCE_LATE (R407): a quiesce not complete at the end of a further window raises FC_QUIESCE_LATE, and Midnight follows. -/
def execQuiesceLate (s : State) : Host.Outcome State Fault Refusal :=
  if !s.faults.quiescing || s.faults.midnight then .next s else
  .next (raiseSv .quiesceLate s.faults.qSource
    (onFaults (fun f => { f with pend := pendInsert ⟨s.faults.qSource, 3, { detail := 0#32 }, 0⟩ f.pend }) s))

end Sys2Proof.Machine
end

