-- ==== Sys2Proof/Machine/Crypto.lean ====
section
/-!
DEFINITION. The crypto block (R275–R300): which key a line uses, counter-mode encryption and tags, the counter tree with its cache, and what
a failed check or a damaged subtree does.
-/
namespace Sys2Proof.Machine

/-- A line as the crypto block addresses it (R282, R285): its shadow tree, its leaf and place in the page, its location, fill unit and its
place in a pass's order. -/
structure CLoc where
  region : Nat
  tile : Nat
  area : Nat
  leaf : Nat
  i : Nat
  loc : Nat
  unit : Nat
  ord : Nat
  leaves : Nat
deriving DecidableEq, Repr

/-- A protected DPA line (R282, R285, R302). -/
def dpaLoc (s : State) (r : Region) (line : Nat) : CLoc :=
  let leaf := localPage s (pageOf line) - localPage s (r.base / 4096)
  ⟨r.idx, homeOf s line, 0, leaf, line % 64, line, fillUnit s line, 64 * leaf + line % 64, share s r⟩

/-- A store line of a packed region: `area` 1 block area, 2 map area, `off` its line within the area, `sa` its store address, `mapLines` the
lines of the map area that come first in a pass (R282, R302). -/
def saLoc (region tile area off sa mapLines leaves : Nat) : CLoc :=
  ⟨region, tile, area, off / 64, off % 64, (1 <<< 48) ||| (tile <<< 45) ||| ((sa >>> 49) % 2 <<< 44) ||| (sa >>> 6) % 2 ^ 43, 0xFFFF,
    if area = 2 then off else mapLines + off, leaves⟩

/-- The slot a line is read and written under (R280). -/
def positionKey (s : State) (r : Region) (c : CLoc) : BitVec 12 :=
  match passOn s r.idx with
  | some p => if c.ord < Table.get 0 p.pos c.tile then p.new else currentKey s r
  | none => currentKey s r

/-- The key indices a home tile accepts for a region's lines (R281). -/
def keyAllowed (s : State) (r : Region) (k : BitVec 12) : Bool :=
  decide (k = currentKey s r) || (match passOn s r.idx with | some p => decide (k = p.old) || decide (k = p.new) | none => false)

def keySlot (s : State) (k : BitVec 12) : Option KeySlot := if k = 0#12 then none else Table.get none s.cry.keys k.toNat

def fillCount (s : State) (region unit : Nat) : Nat := Table.get 0 s.cry.fills (65536 * region + unit)

/-- The working key of a slot, region and fill unit (R278). -/
def workKey (s : State) (k : BitVec 12) (region unit : Nat) : Option Bytes :=
  match keySlot s k, s.cry.nonce with
  | some ks, some n =>
    let inp (i : Nat) : Bytes := leBytes 1 i ++ ascii "PRLW" ++ [0#8] ++ leBytes 8 n.toNat ++ leBytes 2 region ++ leBytes 2 unit ++
      leBytes 4 (fillCount s region unit) ++ [0x01#8, 0x00#8]
    let key := beBytes 32 ks.key.toNat
    some (cmac key (inp 1) ++ cmac key (inp 2))
  | _, _ => none

/-- Counter block C_j (R282). -/
def counterBlock (v j : Nat) (k : BitVec 12) (loc : Nat) : Bytes :=
  beBytes 16 ((v <<< 64) ||| (j <<< 61) ||| (k.toNat <<< 49) ||| loc)

/-- The keystream XOR of R283: encryption and decryption alike. -/
def cryptLine (wk : Bytes) (v : Nat) (k : BitVec 12) (loc : Nat) (d : Line) : Line :=
  let rk := roundKeys wk
  d ^^^ bytesLine ((List.range 4).flatMap (fun j => aesWith rk (counterBlock v j k loc)))

/-- The tag of a line (R284), its eight bytes in order. -/
def tagOf (wk : Bytes) (v : Nat) (k : BitVec 12) (loc : Nat) (cipher : Line) : Bytes :=
  let rk := roundKeys wk
  let h := aesWith rk (List.replicate 16 0#8)
  let a := lineBytes cipher ++ beBytes 8 loc ++ beBytes 8 v
  let g := ghash h (a ++ beBytes 8 640 ++ beBytes 8 0)
  (xorBytes (aesWith rk (counterBlock v 4 k loc)) g).take 8

def itemKey (t : Item) : Nat := ((((t.region * 8 + t.tile) * 4 + t.area) * 16 + t.level) <<< 36) + t.idx
def rootKey (t : Item) : Nat := (t.region * 8 + t.tile) * 4 + t.area
def tagKey (c : CLoc) : Nat := (((((c.region * 8 + c.tile) * 4 + c.area) <<< 36) + c.leaf) * 8) + c.i / 8

def leafItem (c : CLoc) : Item := ⟨c.region, c.tile, c.area, 0, c.leaf⟩

/-- T: the highest stored level, the smallest k for which ceil(N ÷ 8^k) ≤ 8 (R287). -/
def topLevel (n : Nat) : Nat := ((List.range 13).find? (fun k => (n + 8 ^ k - 1) / 8 ^ k ≤ 8)).getD 12

/-- Items of level k over N leaves (R287). -/
def itemsAt (n k : Nat) : Nat := (n + 8 ^ k - 1) / 8 ^ k

/-- The position block of an item (R288). -/
def posBlock (t : Item) : Bytes :=
  leBytes 2 t.region ++ leBytes 1 t.tile ++ leBytes 1 t.area ++ leBytes 1 t.level ++ [0#8, 0#8, 0#8] ++ leBytes 8 t.idx

def treeKey (s : State) (t : Nat) : Bytes := beBytes 32 ((Table.get none s.cry.treeKeys t).getD 0#256).toNat

/-- The entry of an item's content: the first 8 bytes of its CMAC, as stored (R288). -/
def entryOf (tk : Bytes) (t : Item) (d : Line) : Nat := leNat ((cmac tk (lineBytes d ++ posBlock t)).take 8)

/-- An item's content as a fill leaves it: zero counter lines, and nodes recomputed above them (R290). -/
def filledItem (tk : Bytes) (n : Nat) : Nat → Item → Line
  | 0, _ => 0#512
  | k + 1, t => wordsLine (fun e =>
      let c : Item := { t with level := k, idx := 8 * t.idx + e }
      if c.idx < itemsAt n k then BitVec.ofNat 64 (entryOf tk c (filledItem tk n k c)) else 0#64)

/-- An item as it is stored (R287, R290). -/
def storedItem (s : State) (n : Nat) (t : Item) : Line :=
  (Table.get none s.cry.nodes (itemKey t)).getD (filledItem (treeKey s t.tile) n t.level t)

/-- The root over level T (R287): eight entries. -/
def rootLine (s : State) (n : Nat) (t : Item) : Line :=
  (Table.get none s.cry.roots (rootKey t)).getD (filledItem (treeKey s t.tile) n (topLevel n + 1) { t with level := topLevel n + 1, idx := 0 })

def parentItem (t : Item) : Item := { t with level := t.level + 1, idx := t.idx / 8 }

/-- The trusted content of an item: the counter cache's line (R289). -/
def cached (s : State) (t : Item) : Option Line := (Table.get none s.cry.cache (itemKey t)).map (·.1)

/-- The item's content as the tile uses it: cached, else stored. -/
def itemNow (s : State) (n : Nat) (t : Item) : Line := (cached s t).getD (storedItem s n t)

/-- The items a miss on `t` reads: itself and every ancestor up to the first cached one or the root, lowest first (R289). -/
def missChain (s : State) (n : Nat) : Nat → Item → List Item
  | 0, _ => []
  | f + 1, t =>
    if (cached s t).isSome then []
    else if topLevel n ≤ t.level then [t] else t :: missChain s n f (parentItem t)

/-- Whether a stored item's content matches its entry in its parent (R288). An item and a parent both as the fill left them match. -/
def entryMatches (s : State) (n : Nat) (t : Item) : Bool :=
  let untouched := (Table.get none s.cry.nodes (itemKey t)).isNone
  let entry : Nat := entryOf (treeKey s t.tile) t (storedItem s n t)
  if t.level = topLevel n then
    if untouched && (Table.get none s.cry.roots (rootKey t)).isNone then true
    else decide ((lineWord (rootLine s n t) (t.idx % 8)).toNat = entry)
  else
    let p := parentItem t
    if untouched && (cached s p).isNone && (Table.get none s.cry.nodes (itemKey p)).isNone then true
    else decide ((lineWord (itemNow s n p) (t.idx % 8)).toNat = entry)

/-- The level of the first item, from the top downward, that differs from its trusted parent entry (R289, R295). -/
def chainBad (s : State) (n : Nat) (t : Item) : Option Nat :=
  ((missChain s n 16 t).reverse.find? (fun x => !entryMatches s n x)).map (·.level)

/-- Put a line into the counter cache. -/
def cachePut (t : Item) (d : Line) (dirty : Bool) (s : State) : State :=
  onCry (fun c => { c with cache := Table.set none c.cache (itemKey t) (some (d, dirty)) }) s

/-- Lines of the tile's counter cache. -/
def cacheKeys (s : State) (tile : Nat) : List Nat :=
  s.cry.cache.filterMap (fun e => if (e.1 >>> 36) / 64 % 8 = tile then some e.1 else none)

def itemOfKey (k : Nat) : Item :=
  let h := k >>> 36
  ⟨h / 512, h / 64 % 8, h / 16 % 4, h % 16, k % 2 ^ 36⟩

/-- Leaves of the tree of an area (R285). -/
def leavesOf (s : State) (region area : Nat) : Nat :=
  match regionOf s region with
  | some r => if area = 0 then share s r else if area = 1 then r.store else mapFrames s r
  | none => 0

/-- The item lies in a damaged subtree (R300). -/
def itemDamaged (s : State) (t : Item) : Bool :=
  s.cry.treeAll.contains (t.region, t.tile, t.area) ||
  s.cry.damaged.any (fun d => decide (d.region = t.region ∧ d.tile = t.tile ∧ d.area = t.area ∧ t.level ≤ d.level ∧ t.idx / 8 ^ (d.level - t.level) = d.idx))

/-- The set of the counter cache that a line lies in: 2,048 sets of 16 ways (R289, log 21). -/
def cacheSet (k : Nat) : Nat := Config.counterSet k % 2048

/-- The line's DPA, or its SA for a store line. -/
def locAddr (c : CLoc) : Nat := if c.area = 0 then 64 * c.loc else storeSa c.region c.tile c.area (64 * c.leaf + c.i)

/-- Write an item's entry into its parent, in the cache or in the root (R289): an absent parent is fetched first, and the parent becomes dirty. A damaged
parent is never read again (R300). -/
def setEntryWith (fetch : Item → State → State) (t : Item) (d : Line) (s : State) : State :=
  let n := leavesOf s t.region t.area
  let e := entryOf (treeKey s t.tile) t d
  let put (l : Line) : Line := wordsLine (fun w => if w = t.idx % 8 then BitVec.ofNat 64 e else lineWord l w)
  let p := parentItem t
  if t.level = topLevel n then
    onCry (fun c => { c with roots := Table.set none c.roots (rootKey t) (some (put (rootLine s n t))) }) s
  else if itemDamaged s p then s
  else
    let s1 := if (cached s p).isSome then s else fetch p s
    cachePut p (put (itemNow s1 n p)) true s1

/-- A line of a full set makes room for another (R289): a dirty node is written and its entry recomputed in its parent. Which line goes is open, but for
the lines `keep` of the access itself. -/
def cacheRoom (fetch : Item → State → State) (keep : List Nat) (t : Item) (s : State) : State :=
  let ks := (cacheKeys s t.tile).filter (fun k => cacheSet k = cacheSet (itemKey t))
  let out := ks.filter (fun k => !keep.contains k)
  if decide ((cacheKeys s t.tile).length < 16) || ks.contains (itemKey t) || decide (ks.length < 16) || out.isEmpty then s
  else
    let fr := takeFree s
    let k := out.getD (Config.cacheVictim fr.1 out.length % out.length) 0
    let s1 := onCry (fun c => { c with cache := Table.drop c.cache k }) fr.2
    match Table.get none s.cry.cache k with
    | some (d, true) => setEntryWith fetch (itemOfKey k) d (onCry (fun c => { c with nodes := Table.set none c.nodes k (some d) }) s1)
    | _ => s1

/-- A verification finds a counter line or node at fault (R294, R295). -/
def chainVerif (c : CLoc) (bad : Option Nat) (s : State) : State :=
  if bad.isSome then onCry (fun x => { x with verifs := x.verifs ++ [⟨c.tile, c.region, locAddr c, decide (c.area ≠ 0), true, bad⟩] }) s else s

/-- A counter-cache miss of an access to line `c` (R289): the item and every ancestor up to the first cached one or the root are filled, and verified
downward. -/
def fetchItem (c : CLoc) : Nat → List Nat → Item → State → State
  | 0, _, t, s => cachePut t (storedItem s (leavesOf s t.region t.area) t) false s
  | f + 1, keep, t, s =>
    let n := leavesOf s t.region t.area
    let ch := missChain s n 16 t
    let keep1 := ch.map itemKey ++ keep
    ch.foldl (fun s x =>
      let s1 := cacheRoom (fetchItem c f keep1) keep1 x s
      if (cached s1 x).isSome then s1 else cachePut x (storedItem s1 n x) false s1) (chainVerif c (chainBad s n t) s)

/-- The counter line of an access is in the cache (R289). -/
def cacheFill (c : CLoc) (s : State) : State :=
  if (cached s (leafItem c)).isSome then s else addCnt (tileCnt c.tile 461) 1 (fetchItem c 12 [] (leafItem c) s)

/-- A counter line's entry in its parent (R289). -/
def setEntry (c : CLoc) (d : Line) (s : State) : State := setEntryWith (fetchItem c 12 [itemKey (leafItem c)]) (leafItem c) d s

/-- Major and minors of a counter line (R286). -/
def major (d : Line) : Nat := d.toNat % 2 ^ 64
def minor (d : Line) (i : Nat) : Nat := (d.toNat >>> (64 + 7 * i)) % 128

/-- V = major × 128 + minor (R282). -/
def verOf (d : Line) (i : Nat) : Nat := major d * 128 + minor d i

def setMinor (d : Line) (i m : Nat) : Line :=
  (d &&& ~~~(0x7F#512 <<< (64 + 7 * i))) ||| (BitVec.ofNat 512 m <<< (64 + 7 * i))

/-- The version of a line (R282). -/
def version (s : State) (c : CLoc) : Nat := verOf (itemNow s c.leaves (leafItem c)) c.i

/-- The tag stored for a line: eight bytes (R285). -/
def storedTag (s : State) (c : CLoc) : Nat :=
  (lineWord ((Table.get none s.cry.tags (tagKey c)).getD 0#512) (c.i % 8)).toNat

def setTag (c : CLoc) (tag : Nat) (s : State) : State :=
  let old := (Table.get none s.cry.tags (tagKey c)).getD 0#512
  let new := wordsLine (fun w => if w = c.i % 8 then BitVec.ofNat 64 tag else lineWord old w)
  onCry (fun x => { x with tags := Table.set none x.tags (tagKey c) (some new) }) s

/-- The line lies in a damaged subtree (R300). -/
def isDamaged (s : State) (c : CLoc) : Bool :=
  itemDamaged s (leafItem c)

/-- Place a counter line: the write queue's copy and the cache's, and the parent's entry (R289, R290). -/
def putCounter (c : CLoc) (d : Line) (s : State) : State :=
  let t := leafItem c
  let s1 := cacheFill c s
  let s2 := cachePut t d false (onCry (fun k => { k with nodes := Table.set none k.nodes (itemKey t) (some d) }) s1)
  setEntry c d s2

/-- A pass's or a write's encryption of a line under slot `k` at version `v`: ciphertext, and the tag placed (R283, R284, R289). -/
def encryptLine (c : CLoc) (k : BitVec 12) (v : Nat) (plain : Line) (s : State) : Line × State :=
  match workKey s k c.region c.unit with
  | none => (plain, s)
  | some wk =>
    let ct := cryptLine wk v k c.loc plain
    (ct, setTag c (leNat (tagOf wk v k c.loc ct)) s)

/-- The plaintext of a stored line under slot `k` at the line's version (R283). -/
def decryptLine (s : State) (c : CLoc) (k : BitVec 12) (v : Nat) (ct : Line) : Option Line :=
  (workKey s k c.region c.unit).map (fun wk => cryptLine wk v k c.loc ct)

/-- Whether the stored tag is the tag of the ciphertext (R295). -/
def tagMatches (s : State) (c : CLoc) (k : BitVec 12) (v : Nat) (ct : Line) : Bool :=
  match workKey s k c.region c.unit with
  | none => true
  | some wk => decide (leNat (tagOf wk v k c.loc ct) = storedTag s c)

/-- A release starts a verification of the tag (R294); that of the counter chain starts as the cache misses it (`fetchItem`). -/
def startVerif (c : CLoc) (k : BitVec 12) (v : Nat) (ct : Line) (s : State) : State :=
  onCry (fun x => { x with verifs := x.verifs ++ [⟨c.tile, c.region, locAddr c, decide (c.area ≠ 0), tagMatches s c k v ct, none⟩] }) s

/-- A failed check (R295): the tile's alarm, CRY_TREE_FAIL or CRY_TAG_FAIL. -/
def failCheck (tile region addr : Nat) (isSa : Bool) (badLevel : Option Nat) (s : State) : State :=
  let a : AlarmCtx := ⟨region, BitVec.ofNat 64 addr, if isSa then 1 else 0⟩
  let ctx (d : Nat) : FaultCtx := { addr := BitVec.ofNat 64 addr, detail := BitVec.ofNat 32 d }
  match badLevel with
  | some l => raiseWith (tileSrc tile .cryTreeFail) (ctx (region + 65536 * l)) a s
  | none => raiseWith (tileSrc tile .cryTagFail) (ctx region) a s

/-- VERIFY_COMPLETE (R294, R295): the oldest verification of the tile ends; a mismatch is an alarm, and Midnight. -/
def execVerifyComplete (t : TileId) (s : State) : Host.Outcome State Fault Refusal :=
  match s.cry.verifs.find? (fun v => v.tile = t.val) with
  | none => .next s
  | some v =>
    let s1 := onCry (fun c => { c with verifs := c.verifs.erase v }) s
    .next (if v.badLevel.isSome || !v.tagOk then failCheck v.tile v.region v.addr v.isSa v.badLevel s1 else s1)

/-- Mark the subtree under an item damaged (R300): a table of 16 entries per tile, then the whole tree. -/
def markDamaged (t : Item) (s : State) : State :=
  if (s.cry.damaged.filter (fun d => d.tile = t.tile)).length < 16 then onCry (fun c => { c with damaged := c.damaged ++ [t] }) s
  else onCry (fun c => { c with treeAll := if c.treeAll.contains (t.region, t.tile, t.area) then c.treeAll
                                            else c.treeAll ++ [(t.region, t.tile, t.area)] }) s

end Sys2Proof.Machine
end

