-- ==== Sys2Proof/Machine/Bch.lean ====
section
/-!
DEFINITION. The outer code of a chunk (R193): a binary BCH code over GF(2^12) with t = 21 over bytes 0–319. The spec gives neither the field's
polynomial nor the order of the bits: x^12 + x^6 + x^4 + x + 1, consecutive roots from α, parity in the low coefficients, and bit `k` of
a byte string in byte `k` div 8 are PRESUMED (log 22).
-/
namespace Sys2Proof.Machine

/-- Multiplication in GF(2^12). -/
def gfMul (a b : Nat) : Nat :=
  (List.range 12).foldl (fun r i =>
    let r2 := if r ≥ 2048 then ((2 * r) ^^^ 0x1053) % 4096 else 2 * r
    if b.testBit (11 - i) then r2 ^^^ a else r2) 0

/-- α^n by repeated squaring over the 12 bits of `n`. -/
def gfExp (n : Nat) : Nat :=
  (List.range 12).foldl (fun r i =>
    let q := gfMul r r
    if (n % 4095).testBit (11 - i) then gfMul q 2 else q) 1

def gfInv (a : Nat) : Nat :=
  (List.range 12).foldl (fun r i =>
    let q := gfMul r r
    if (4094).testBit (11 - i) then gfMul q a else q) 1

/-- The generator: the product of the minimal polynomials of α, α^3, …, α^41, of degree 252. -/
def bchGen : Nat := 0x1bcf92320a47802a723d374aba5c30e84f11d63fccb62ab9f701bafb62068119

/-- The remainder register after the message bits `n − 1` down to 0. -/
def bchShift (m : Nat) : Nat → Nat → Nat
  | 0, r => r
  | n + 1, r =>
    let fb := (r.testBit 251) != (m.testBit n)
    let r2 := (2 * r) % 2 ^ 252
    bchShift m n (if fb then r2 ^^^ (bchGen % 2 ^ 252) else r2)

/-- The 252 parity bits of a chunk's 320 bytes. -/
def bchParity (m : Nat) : Nat := bchShift m 2560 0

/-- A chunk as stored (R193): 320 bytes and 32 bytes of parity with 4 bits of 0. -/
def bchEncode (data : Bytes) : Bytes := slice data 0 320 ++ leBytes 32 (bchParity (leNat (slice data 0 320)))

/-- A polynomial of degree below 252 at `x`. -/
def bchEval (r x : Nat) : Nat → Nat → Nat
  | 0, acc => acc
  | n + 1, acc => bchEval r x n (gfMul acc x ^^^ b2n (r.testBit n))

/-- A field polynomial, lowest coefficient first, at `x`. -/
def gfPoly (p : List Nat) (x : Nat) : Nat := p.foldr (fun c a => c ^^^ gfMul a x) 0

structure BmSt where
  lam : List Nat
  prev : List Nat
  len : Nat
  gap : Nat
  disc : Nat
deriving DecidableEq, Repr

/-- One step of Berlekamp and Massey over syndromes `s`. -/
def bmStep (s : List Nat) (st : BmSt) (n : Nat) : BmSt :=
  let d := (List.range (st.len + 1)).foldl (fun a i => a ^^^ gfMul (st.lam.getD i 0) (s.getD (n - i) 0)) 0
  if d = 0 then { st with gap := st.gap + 1 }
  else
    let c := gfMul d (gfInv st.disc)
    let sh := List.replicate st.gap 0 ++ st.prev.map (gfMul c)
    let w := max st.lam.length sh.length
    let lam := (List.range w).map (fun i => st.lam.getD i 0 ^^^ sh.getD i 0)
    if 2 * st.len ≤ n then ⟨lam, st.lam, n + 1 - st.len, 1, d⟩
    else { st with lam := lam, gap := st.gap + 1 }

/-- Decode a stored chunk (R193): the 320 data bytes and the number of bits corrected, or nothing. -/
def bchDecode (c : Bytes) : Option (Bytes × Nat) :=
  let m := leNat (slice c 0 320)
  let r := bchParity m ^^^ (leNat (slice c 320 32) % 2 ^ 252)
  if r = 0 then some (slice c 0 320, 0)
  else
    let s := (List.range 42).map (fun j => bchEval r (gfExp (j + 1)) 252 0)
    let st := (List.range 42).foldl (bmStep s) ⟨[1], [1], 0, 1, 1⟩
    if 21 < st.len then none
    else
      let roots := (List.range 2812).filter (fun i => gfPoly st.lam (gfExp (4095 - i % 4095)) = 0)
      if roots.length ≠ st.len then none
      else
        let m2 := roots.foldl (fun a i => if 252 ≤ i then a ^^^ (1 <<< (i - 252)) else a) m
        some (leBytes 320 m2, roots.length)

end Sys2Proof.Machine
end

