-- ==== Sys2Proof/Machine/Media.lean ====
section
/-!
DEFINITION. The media below the tiers: the poison list, DIMMs and sub-channels, where a frame's line lies (R152), the queues of a sub-channel
(R156–R158), Dusk wake-up, error rates, frames and the layout of tile-local frames.
-/
namespace Sys2Proof.Machine

/-- Add a DPA range to the poison list (R456): one entry per DPA; a full list keeps what it has and remembers the first loss. -/
def insPoison (dpa len : Nat) : List PoisonEntry → List PoisonEntry
  | [] => [⟨dpa, len⟩]
  | e :: t => if dpa < e.dpa then ⟨dpa, len⟩ :: e :: t else e :: insPoison dpa len t

def addPoison (dpa len : Nat) (s : State) : State :=
  let p := s.map.poison
  if p.entries.any (fun e => e.dpa ≤ dpa ∧ dpa + len ≤ e.dpa + e.len) then s
  else if p.entries.length < 4096 then onMap (fun m => { m with poison := { p with entries := insPoison dpa len p.entries } }) s
  else onMap (fun m => { m with poison := { p with overflow := some (p.overflow.getD (hostClock s).toNat) } }) s

/-- Remove the entries that lie within a range (R90, R456). -/
def dropPoison (dpa len : Nat) (s : State) : State :=
  onMap (fun m => { m with poison := { m.poison with entries := m.poison.entries.filter (fun e => ¬(dpa ≤ e.dpa ∧ e.dpa + e.len ≤ dpa + len)) } }) s

def getSub (s : State) (d : Nat) : SubCh := Table.get {} s.dram.subs d
def onSub (d : Nat) (f : SubCh → SubCh) (s : State) : State := onDram (fun x => { x with subs := Table.mod {} x.subs d f }) s
def getDimm (s : State) (t c : Nat) : DimmCh := Table.get {} s.dram.dimms (8 * t + c)
def onDimm (t c : Nat) (f : DimmCh → DimmCh) (s : State) : State :=
  onDram (fun x => { x with dimms := Table.mod {} x.dimms (8 * t + c) f }) s

/-- DIMM channel of a sub-channel (R148). -/
def dimmOf (d : Nat) : Nat := d % 16 / 2

/-- The populated sub-channels of a tile in rank order: those of the DIMMs Dawn uses (R152). -/
def popSubs (s : State) (t : Nat) : List Nat :=
  (List.range 16).filterMap (fun l => if (getDimm s t (l / 2)).spd.isSome then some (16 * t + l) else none)

/-- The SPD all of a tile's DIMMs share (R150). -/
def tileSpd (s : State) (t : Nat) : Option Spd := (List.range 8).findSome? (fun c => (getDimm s t c).spd)

/-- The sub-channel that holds line F (R152). -/
def subOf (s : State) (t f : Nat) : Option Nat :=
  let p := popSubs s t
  if p.isEmpty then none else p[(f >>> 2) % p.length]?

/-- Column bits a device width adds: c of R152. -/
def colBits (x : Spd) : Nat := if x.dev = 4 then 5 else 4

/-- The column of line F (R152). -/
def columnOf (s : State) (t f : Nat) : Nat :=
  match tileSpd s t with
  | none => 0
  | some spd => ((((f >>> 2) / max 1 (popSubs s t).length) >>> 5) % 2 ^ colBits spd) <<< 6 ||| (f % 4) <<< 4

/-- Rank, bank group, bank and row of line F (R152). -/
def rowOf (s : State) (t f : Nat) : Nat × Nat × Nat × Nat :=
  match tileSpd s t with
  | none => (0, 0, 0, 0)
  | some spd =>
    let q := (f >>> 2) / max 1 (popSubs s t).length
    let c := colBits spd
    let k := spd.packageRanks * spd.stack
    let row := (q >>> (5 + c)) / max 1 k
    (((q >>> (5 + c)) % max 1 k), ((q % 8) ^^^ (row % 8)), ((q >>> 3) % 4), row)

/-- Key of a bank of a sub-channel. -/
def bankKey (rank bg bank : Nat) : Nat := 32 * rank + 4 * bg + bank

/-- A sub-channel serves requests (R178). -/
def subUp (s : State) (d : Nat) : Bool := decide ((getSub s d).st = .service)

/-- Line F of a tile can be reached in DRAM. -/
def dramUp (s : State) (t f : Nat) : Bool := match subOf s t f with | some d => subUp s d | none => false

/-- Bank key and row of line F. -/
def bankOf (s : State) (t f : Nat) : Nat × Nat := let (rk, bg, bk, row) := rowOf s t f; (bankKey rk bg bk, row)

/-- The activation threshold of a DIMM channel where refresh management is on (R155). -/
def rfmAt (s : State) (d : Nat) : Option Nat :=
  if (getSub s d).raa = 0 then none else some (getSub s d).raa

/-- The activations of a bank have reached the device's threshold (R155). -/
def rfmDue (s : State) (d k : Nat) : Bool :=
  match rfmAt s d with | some n => decide (n ≤ Table.get 0 (getSub s d).acts k) | none => false

/-- An RFM command goes to a bank (R155): its row is closed first, and the device takes the threshold off the bank's count (log 122). -/
def rfmBank (d k : Nat) (s : State) : State :=
  addCnt (subCnt d 7) 1 (onSub d (fun c => { c with
    rows := Table.drop c.rows k, acts := Table.mod 0 c.acts k (· - (rfmAt s d).getD 0), rfm := c.rfm.erase k }) s)

/-- The RFM commands that banks of the sub-channel owe go before any request (R155, R157 step 2). -/
def payRfm (d : Nat) (s : State) : State :=
  ((getSub s d).acts.filter (fun e => rfmDue s d e.1)).foldl (fun s e => rfmBank d e.1 s) s

/-- The access opens its row unless it is open (R157): an activation is counted. CLOSE_IDLE 0 closes the row again (DR_SCHED_CFG). -/
def access (t f d : Nat) (s : State) : State :=
  let (k, row) := bankOf s t f
  let keep := decide (regFld s .drSchedCfg t 7 0 ≠ 0)
  if Table.get 0 (getSub s d).rows k = row + 1 then s
  else
    addCnt (subCnt d 2) 1 (onSub d (fun c => { c with
      rows := Table.set 0 c.rows k (if keep then row + 1 else 0), hits := Table.set 0 c.hits k 0, acts := Table.mod 0 c.acts k (· + 1) }) s)

/-- HIT_CAP as it acts (DR_SCHED_CFG). -/
def hitCap (s : State) (t : Nat) : Nat := max 1 (regFld s .drSchedCfg t 11 8)

/-- An older request of the queue waits for the same bank. -/
def olderToBank (s : State) (t : Nat) (q : List DrReq) (r : DrReq) : Bool :=
  (q.takeWhile (· ≠ r)).any (fun x => decide ((bankOf s t x.f).1 = (bankOf s t r.f).1))

/-- A request hits an open row that may still serve hits (R157 step 4). -/
def mayHit (s : State) (t d : Nat) (q : List DrReq) (r : DrReq) : Bool :=
  let (k, row) := bankOf s t r.f
  decide (Table.get 0 (getSub s d).rows k = row + 1) &&
    !(decide (hitCap s t ≤ Table.get 0 (getSub s d).hits k) && olderToBank s t q r)

/-- The request of a queue that the scheduler takes next (R157 steps 3 to 5): the oldest that goes first, else the oldest that hits an open row, else
the oldest of the highest class priority. -/
def drPick (s : State) (d : Nat) (queue : List DrReq) : Option DrReq :=
  let q := queue.take 64
  match q.find? (·.first) with
  | some r => some r
  | none =>
    match q.find? (mayHit s (d / 16) d q) with
    | some r => some r
    | none => q.foldl (fun (b : Option DrReq) r => match b with
        | none => some r
        | some x => if x.prio < r.prio then some r else some x) none

/-- The command of a request is issued: the hits of its row are counted (R157 step 4), and its row opened. -/
def drIssue (d : Nat) (q : List DrReq) (r : DrReq) (s : State) : State :=
  let t := d / 16
  let (k, row) := bankOf s t r.f
  let hit := decide (Table.get 0 (getSub s d).rows k = row + 1)
  let n := if hit && olderToBank s t (q.take 64) r then Table.get 0 (getSub s d).hits k + 1 else 0
  let s1 := access t r.f d s
  onSub d (fun c => { c with hits := Table.set 0 c.hits k n }) s1

/-- WQ_HIGH and WQ_LOW as they act (DR_SCHED_CFG). -/
def wqHigh (s : State) (t : Nat) : Nat := max 1 (regFld s .drSchedCfg t 23 18)
def wqLow (s : State) (t : Nat) : Nat := let l := regFld s .drSchedCfg t 17 12; if l < wqHigh s t then l else 0

/-- The channel of a sub-channel is in or on its way into Dusk. -/
def inDusk (s : State) (d : Nat) : Bool := decide ((getDimm s (d / 16) (dimmOf d)).dusk ≠ .awake)

/-- The sub-channel issues commands for requests: in service, awake, and no training helper runs (R166, R167, R178). -/
def subServes (s : State) (d : Nat) : Bool := subUp s d && !inDusk s d && (getSub s d).trn.isNone

/-- A queued write is issued. -/
def issueWrite (d : Nat) (r : DrReq) (s : State) : State :=
  addCnt (subCnt d 1) 1 (drIssue d (getSub s d).wq r (onSub d (fun c => { c with wq := c.wq.erase r, writing := true }) s))

/-- A queued read is issued, and its record has returned. -/
def issueRead (d : Nat) (r : DrReq) (s : State) : State :=
  addCnt (subCnt d 0) 1 (drIssue d (getSub s d).rq r (onSub d (fun c => { c with rq := c.rq.erase r, back := c.back ++ [r.f], writing := false, turned := false }) s))

/-- The place of the next request that the channel holds (R166). -/
def heldPlace (c : SubCh) : Nat := (c.rq ++ c.wq).foldl (fun a r => max a r.held) 0 + 1

/-- The requests that the channel has held are issued in the order in which they arrived, reads and writes alike (R166). -/
def issueHeld (d : Nat) (s : State) : State :=
  (List.range (heldPlace (getSub s d))).foldl (fun s n =>
    let c := getSub s d
    match c.rq.find? (fun r => r.held = n + 1), c.wq.find? (fun r => r.held = n + 1) with
    | some r, _ => issueRead d r (payRfm d s)
    | none, some r => issueWrite d r (payRfm d s)
    | none, none => s) s

/-- Issue queued writes down to `n` entries in the scheduler's order; after 32 the sub-channel turns back if a read is queued (R158). The first
argument bounds the writes still queued, the second counts those issued. -/
def drainFrom (d n : Nat) : Nat → Nat → State → State
  | 0, _, s => s
  | k + 1, done, s =>
    let q := (getSub s d).wq
    if q.length ≤ n then s
    else if 32 ≤ done && !(getSub s d).rq.isEmpty then onSub d (fun c => { c with turned := true }) s
    else
      let s0 := payRfm d s
      match drPick s0 d q with
      | none => s0
      | some r => drainFrom d n k (done + 1) (issueWrite d r s0)

/-- Turn to writes until `n` entries are left (R158). The writes of one turn are issued within the step. -/
def drainTo (d n : Nat) (s : State) : State := drainFrom d n (getSub s d).wq.length 0 s

/-- The sub-channel turns to writes on its queue levels (R158). -/
def turn (d : Nat) (s : State) : State :=
  let c := getSub s d
  if !subServes s d then s
  else if c.rq.isEmpty then (if c.wq.isEmpty then s else drainTo d 0 s)
  else if !c.turned && decide (wqHigh s (d / 16) ≤ c.wq.length) then drainTo d (wqLow s (d / 16)) s
  else s

/-- Dusk entry has reached step 3 (R165): the debt of every rank is paid and self-refresh entry has been issued. -/
def entryIssued (s : State) (t c : Nat) : Bool :=
  let x := getDimm s t c
  decide (x.pay + 20 ≤ 1000 * (s.time.now - x.since))

/-- A request that needs a channel in Dusk wakes it. One that finds it entering abandons the entry before step 3; at or after step 3 entry completes
and exit starts at once (R165, R166). -/
def wake (d : Nat) (s : State) : State :=
  let t := d / 16
  let c := dimmOf d
  match (getDimm s t c).dusk with
  | .asleep => onDimm t c (fun x => { x with dusk := .waking }) s
  | .entering => onDimm t c (fun x => if x.abandon || x.leave then x else if entryIssued s t c then { x with leave := true } else { x with abandon := true }) s
  | _ => s

/-- Location key of line F of a tile. -/
def recKey (t f : Nat) : Nat := t * 2 ^ 40 + f

def recAt (s : State) (t f : Nat) : Rec := Table.get {} s.dram.recs (recKey t f)

/-- Accept a record into the write queue of its sub-channel (R30, R156): a queued write to the line is replaced. -/
def drWrite (t f : Nat) (r : Rec) (prio : Nat) (s : State) : State :=
  match subOf s t f with
  | none => s
  | some d =>
    if !subUp s d then s
    else
      let s1 := onDram (fun x => { x with recs := Table.set {} x.recs (recKey t f) r }) (wake d s)
      if (getSub s1 d).wq.any (fun x => decide (x.f = f)) then s1
      else turn d (onSub d (fun c => { c with wq := c.wq ++ [{ f := f, prio := prio, held := if inDusk s d then heldPlace c else 0 }] }) s1)

/-- The requests of a queue, or its returned lines, hold line F. -/
def inQueue (f : Nat) (q : List DrReq) : Bool := q.any (fun x => decide (x.f = f))

/-- Queue a read of a class priority (R156, R157): one that matches the write queue issues no DRAM command. What is held in Dusk is issued in arrival
order (R166). -/
def drRead (t f prio : Nat) (s : State) : State :=
  match subOf s t f with
  | none => s
  | some d =>
    let c := getSub s d
    let s1 := wake d s
    if inQueue f c.wq || inQueue f c.rq || c.back.contains f then s1
    else onSub d (fun c => { c with rq := c.rq ++ [{ f := f, prio := prio, held := if inDusk s d then heldPlace c else 0 }] }) s1

/-- The read the scheduler takes next is issued, and its record has returned (R157). -/
def drServe (d : Nat) (s : State) : State :=
  let s0 := payRfm d s
  match drPick s0 d (getSub s0 d).rq with
  | none => s
  | some r => issueRead d r s0

/-- Reads are issued in the scheduler's order until line F has returned. -/
def drServeTo (d f : Nat) : Nat → State → State
  | 0, s => s
  | k + 1, s => if inQueue f (getSub s d).rq then drServeTo d f k (drServe d s) else s

/-- Every queued read is issued, in the scheduler's order. -/
def drServeAll (d : Nat) (s : State) : State := turn d ((getSub s d).rq.foldl (fun s _ => drServe d s) s)

/-- A read of line F goes, or went, to the medium: it matched no queued write (R156). -/
def drFromMedium (s : State) (t f : Nat) : Bool :=
  match subOf s t f with
  | none => false
  | some d => inQueue f (getSub s d).rq || (getSub s d).back.contains f

/-- The record of line F is taken: its read, if one is queued, is issued in its turn (R157, R158). -/
def drTake (t f : Nat) (s : State) : State :=
  match subOf s t f with
  | none => s
  | some d => turn d (onSub d (fun c => { c with back := c.back.erase f }) (drServeTo d f (getSub s d).rq.length s))

/-- Nobody waits for line F any longer. -/
def drDrop (t f : Nat) (s : State) : State :=
  match subOf s t f with
  | none => s
  | some d => if drFromMedium s t f then turn d (onSub d (fun c => { c with rq := c.rq.filter (fun x => x.f ≠ f), back := c.back.erase f }) s) else s

/-- Words counted within the last second, with `n` more now (R174, R177). -/
def withinSecond (now n : Nat) (l : List (Nat × Nat)) : List (Nat × Nat) := (now, n) :: l.filter (fun e => decide (now < e.1 + 1000000))

def wordsIn (l : List (Nat × Nat)) : Nat := l.foldl (fun a e => a + e.2) 0

/-- Count corrected words of a sub-channel; above the limit in any one second DR_CE_RATE is raised (R174). -/
def countCe (d n : Nat) (s : State) : State :=
  if n = 0 then s else
  let s1 := addCnt (subCnt d 3) n (onSub d (fun c => { c with ce := withinSecond s.time.now n c.ce }) s)
  if paramNat s "x.dram.ce.rate_limit" 1000 < wordsIn (getSub s1 d).ce then raiseTile (d / 16) .drCeRate d s1 else s1

/-- Count uncorrectable words; above the limit in any one second DR_UE_RATE is raised (R177). -/
def countUe (d n : Nat) (s : State) : State :=
  if n = 0 then s else
  let s1 := addCnt (subCnt d 4) n (onSub d (fun c => { c with ue := withinSecond s.time.now n c.ue }) s)
  if paramNat s "x.dram.ue.rate_limit" 16 < wordsIn (getSub s1 d).ue then raiseTile (d / 16) .drUeRate d s1 else s1

/-- Priority of a class in the media queues (R315). -/
def classPrio (s : State) (c : Nat) : Nat := regFld s .qosClsCfg c 31 30

/-- Priority of the walker class, which walkers' requests carry (R26, R157, R315). -/
def walkerPrio (s : State) : Nat := classPrio s (paramNat s "qos.class.walker" 15)

def getPlace (s : State) (p : Nat) : Place := Table.get {} s.place p
def putPlace (p : Nat) (v : Place) (s : State) : State := onPlace (fun t => Table.set {} t p v) s

def getMove (s : State) (p : Nat) : Option Move := Table.get none s.tier.moves p
def setMove (p : Nat) (m : Option Move) (s : State) : State := onTier (fun x => { x with moves := Table.set none x.moves p m }) s

/-- Where a line is served from: tier (true NVM) and frame; a MOVING page's copied lines from the destination (R220). -/
def lineAt (s : State) (line : Nat) : Option (Bool × Nat) :=
  let pl := getPlace s (line / 64)
  let here : Option (Bool × Nat) := match pl.st with
    | .unwritten => none
    | .dram => some (false, pl.frame)
    | .nvm => some (true, pl.frame)
    | .bad => none
  match getMove s (line / 64) with
  | some m => if m.copied.getLsbD (line % 64) then some (!m.toDram, m.dst) else here
  | none => here

/-- 4 KiB frames of DRAM on a tile (R152). -/
def dramFrames (s : State) (t : Nat) : Nat := (List.range 8).foldl (fun a c => a + (match (getDimm s t c).spd with | some x => 262144 * x.gib | none => 0)) 0

def getGrp (s : State) (t g : Nat) : Grp := Table.get {} s.nvm.grps (4 * t + g)
def ranksOf (s : State) (t : Nat) : List Nat := Table.get [] s.nvm.ranks t
def getLink (s : State) (n : Nat) : NLink := Table.get {} s.nvm.links n
def onNl (n : Nat) (f : NLink → NLink) (s : State) : State := onNvm (fun x => { x with links := Table.mod {} x.links n f }) s

/-- The link at a position of a group (R179, R208): a link in service there. -/
def linkAt (s : State) (t g pos : Nat) : Option Nat :=
  ((List.range 40).map (· + 40 * t)).find? (fun n =>
    let l := getLink s n
    decide (l.grp = g ∧ l.pos = pos) && (decide (l.st = .active) || decide (l.st = .retraining) || decide (l.st = .rebuilding)))

/-- Packages on the links of a group. -/
def grpPkgs (s : State) (t g : Nat) : Nat := ((List.range 9).findSome? (fun p => (linkAt s t g p).map (fun n => (getLink s n).pkgs))).getD 0

/-- 4 KiB frames of NVM on a tile (R194): each frame fills two stripes, and a stripe takes one chunk of each link. -/
def nvmFrames (s : State) (t : Nat) : Nat :=
  let g := ranksOf s t
  match g.map (fun x => grpPkgs s t x) with
  | [] => 0
  | p :: ps => g.length * ((ps.foldl min p) * 2 ^ 30 / 2)

/-- NVM block areas: the tier of a packed region's store (R246, R274). -/
def storeInDram (s : State) (region : Nat) : Bool :=
  match param s "packed.store.tier" with
  | none => false
  | some b => (List.range (b.length / 3)).any (fun i => leAt b (3 * i) 2 = region && leAt b (3 * i + 2) 1 = 0)

/-- Stored lines above the counter lines of N leaves (R287). -/
def nodeLines (n : Nat) : Nat :=
  (List.range 12).foldl (fun a i => if 8 < (n + 8 ^ i - 1) / 8 ^ i then a + (n + 8 ^ (i + 1) - 1) / 8 ^ (i + 1) else a) 0

/-- Frames of a shadow area of N leaves: tag lines, counter lines, nodes (R285); `tags` false leaves the tag lines out. -/
def shadowFrames (n : Nat) (tags : Bool) : Nat := ((if tags then 8 * n else 0) + n + nodeLines n + 63) / 64

/-- Tile-local DRAM frames a region needs on a tile. -/
def regionLocal (s : State) (r : Region) : Nat :=
  match r.typ with
  | .protect => shadowFrames (share s r) true
  | .packed => shadowFrames r.store (storeInDram s r.idx) + shadowFrames (mapFrames s r) true + mapFrames s r +
      (if storeInDram s r.idx then r.store else 0)
  | _ => 0

/-- Tile-local NVM frames a region needs: a packed block area with its tag lines (R246, R285). -/
def regionLocalNvm (s : State) (r : Region) : Nat :=
  if r.typ = .packed ∧ !storeInDram s r.idx then r.store + (8 * r.store + 63) / 64 else 0

/-- Tile-local DRAM frames below the regions' own: the absorption area, the placement map, the frame owner tables and the block table
(R81, R171, R197, R201). -/
def fixedLocal (s : State) (t : Nat) : Nat :=
  let pages := s.map.cat.foldl (fun a r => a + share s r) 0
  let blocks := (List.range 40).foldl (fun a l => a + 4261504 * (getLink s (40 * t + l)).pkgs) 0
  4096 + (4095 + 8 * pages) / 4096 + (4095 + 8 * (dramFrames s t + nvmFrames s t)) / 4096 + (4095 + 8 * blocks) / 4096

def localDram (s : State) (t : Nat) : Nat := fixedLocal s t + s.map.cat.foldl (fun a r => a + regionLocal s r) 0
def localNvm (s : State) : Nat := s.map.cat.foldl (fun a r => a + regionLocalNvm s r) 0

/-- Page frames of a tile: the tile-local frames stand above them (DESIGN CHOICE, log 24). -/
def pageFrames (s : State) (t : Nat) (nvm : Bool) : Nat :=
  if nvm then nvmFrames s t - localNvm s else dramFrames s t - localDram s t

/-- First tile-local frame of the absorption area (log 24). -/
def absBase (s : State) (t : Nat) : Nat := dramFrames s t - localDram s t

/-- First tile-local frame of region `r` in a tier: regions in catalogue order after the fixed areas (log 24). -/
def regionBase (s : State) (t : Nat) (r : Region) (nvm : Bool) : Nat :=
  let before := s.map.cat.takeWhile (fun x => x.idx ≠ r.idx)
  if nvm then nvmFrames s t - localNvm s + before.foldl (fun a x => a + regionLocalNvm s x) 0
  else dramFrames s t - localDram s t + fixedLocal s t + before.foldl (fun a x => a + regionLocal s x) 0

/-- First tile-local frame of the placement map: above the absorption area (R81, R201, log 24). -/
def mapFrame0 (s : State) (t : Nat) : Nat := 4096 + absBase s t

/-- The page whose entry is the `n`th of a tile's placement map: the regions' shares in catalogue order, each by local page index (R81, log 24). -/
def mapPage (s : State) (t n : Nat) : Option Nat :=
  (s.map.cat.foldl (fun (acc : Nat × Option Nat) r =>
    if acc.2.isSome then acc
    else if acc.1 < share s r then (acc.1, some (pageAt s t (localPage s (r.base / 4096) + acc.1)))
    else (acc.1 - share s r, none)) (n, none)).2

/-- STATE as an entry encodes it (R81). -/
def pageStCode : PageSt → Nat | .unwritten => 0 | .dram => 1 | .nvm => 2 | .bad => 3

/-- The 8 bytes of a placement entry (R81). -/
def placeBits (p : Place) : W64 :=
  BitVec.ofNat 64 (pageStCode p.st * 2 ^ 62 + b2n p.pin * 2 ^ 61 + b2n p.moving * 2 ^ 60 + (p.stored.getD p.tier).toNat * 2 ^ 32 + p.frame % 2 ^ 32)

/-- The entry that 8 bytes encode (R81). -/
def placeOfBits (w : W64) : Place :=
  let v := w.toNat
  { st := if v / 2 ^ 62 = 0 then .unwritten else if v / 2 ^ 62 = 1 then .dram else if v / 2 ^ 62 = 2 then .nvm else .bad,
    pin := v / 2 ^ 61 % 2 = 1, moving := v / 2 ^ 60 % 2 = 1, tier := BitVec.ofNat 16 (v / 2 ^ 32), frame := v % 2 ^ 32 }

/-- A line of the placement map, as firmware and MEM_ACC read it (R81, R358): `k` its number in the map. -/
def placeLine (s : State) (t k : Nat) : Line :=
  wordsLine (fun w => match mapPage s t (8 * k + w) with | some p => placeBits (getPlace s p) | none => 0#64)

/-- MEM_ACC writes a line of the placement map (R358). -/
def putPlaceLine (t k : Nat) (d : Line) (s : State) : State :=
  (List.range 8).foldl (fun s w => match mapPage s t (8 * k + w) with | some p => putPlace p (placeOfBits (lineWord d w)) s | none => s) s

/-- A frame and line of a tile that lie in its placement map: the line's number in the map. -/
def placeLineAt (s : State) (t frame i : Nat) : Option Nat :=
  let pages := s.map.cat.foldl (fun a r => a + share s r) 0
  if mapFrame0 s t ≤ frame ∧ frame < mapFrame0 s t + (4095 + 8 * pages) / 4096 then some (64 * (frame - mapFrame0 s t) + i) else none

/-- Frames in use by pages of a tile and tier: placement entries and the frames of moves in flight. -/
def usedFrames (s : State) (t : Nat) (nvm : Bool) : List Nat :=
  s.place.filterMap (fun e => if e.2.st = (if nvm then PageSt.nvm else PageSt.dram) ∧ homeHash (tileBits s) e.1 = t then some e.2.frame else none) ++
  s.tier.moves.filterMap (fun e => match e.2 with
    | some m => if m.tile = t ∧ m.toDram = !nvm then some m.dst else none
    | none => none)

/-- Free page frames of a tier. -/
def freeCount (s : State) (t : Nat) (nvm : Bool) : Nat := pageFrames s t nvm - (usedFrames s t nvm).length

/-- The frame taken: the lowest free one (DESIGN CHOICE, log 24). -/
def freeFrame (s : State) (t : Nat) (nvm : Bool) : Option Nat :=
  let u := usedFrames s t nvm
  ((List.range (u.length + 1)).find? (fun f => !u.contains f)).filter (· < pageFrames s t nvm)

/-- The page that owns a frame (R171). -/
def ownerOf (s : State) (t : Nat) (nvm : Bool) (frame : Nat) : Option Nat :=
  (s.place.find? (fun e => e.2.st = (if nvm then PageSt.nvm else PageSt.dram) ∧ e.2.frame = frame ∧ homeHash (tileBits s) e.1 = t)).map (·.1)

/-- Fold address of a line of a tile-local frame (R171). -/
def localFold (t f : Nat) : Nat := (1 <<< 41) ||| (t <<< 36) ||| f

end Sys2Proof.Machine
end

