-- ==== Sys2Proof/Machine/Nlink.lean ====
section
/-!
DEFINITION. The N-link transport (R189–R191): flits, acknowledgement and replay, messages and tags.
-/
namespace Sys2Proof.Machine

/-- A message header (R190) of a request. -/
def nlHeader (q : NReq) (tag : Nat) : Bytes :=
  leBytes 8 ((q.ref % 8 <<< 47) ||| (q.chunk % 2 ^ 31 <<< 16) ||| (tag % 512 <<< 7) ||| (q.pkg % 2 <<< 6) ||| q.opc % 64)

/-- ACKSEQ where ACKV is 1: the last sequenced flit received in order (R189). -/
def nlAckSeq (l : NLink) : Option Nat := if l.rxAny then some ((l.rxSeq + 4095) % 4096) else none

/-- The 256 bytes of a flit (R189); reserved bits and a short payload's rest are 0 (DESIGN CHOICE, log 25). -/
def flitBytes (f : NFlit) : Bytes :=
  let ack := match f.ack with | some a => 4096 + a % 4096 | none => 0
  let b := leBytes 2 (f.typ * 4096 + f.seq % 4096) ++ leBytes 2 ack ++ slice (f.payload ++ List.replicate 248 0#8) 0 248
  b ++ leBytes 4 (crc32 b).toNat

/-- A flit is sent; every flit carries the current ACKSEQ (R189, R191). -/
def nlSend (typ seq : Nat) (payload : Bytes) (l : NLink) : NLink := { l with sent := ⟨typ, seq, nlAckSeq l, payload⟩ :: l.sent }

/-- An idle flit, which carries the acknowledgement of what has just been received (R189, log 25). -/
def nlIdle (l : NLink) : NLink := nlSend 0 0 [] l

/-- Form sequenced flits while fewer than 32 are unacknowledged (R191); a last, partly filled flit is padded with 0 (DESIGN CHOICE, log 25). -/
def nlPump : Nat → NLink → NLink
  | 0, l => l
  | k + 1, l =>
    if l.txq.isEmpty || decide (32 ≤ l.replay.length) then l
    else nlPump k { nlSend 1 l.txSeq (slice l.txq 0 248) l with
      replay := l.replay ++ [(l.txSeq, slice l.txq 0 248)]
      txSeq := (l.txSeq + 1) % 4096
      txq := l.txq.drop 248 }

/-- Queue message bytes for the forward lane. -/
def nlQueue (b : Bytes) (l : NLink) : NLink := nlPump 33 { l with txq := l.txq ++ b }

/-- The lowest free tag (R190). -/
def freeTag (l : NLink) : Option Nat := (List.range 512).find? (fun t => (Table.get none l.reqs t).isNone)

/-- Programs outstanding on a package, at most 8 (R182). -/
def progsOn (l : NLink) (pkg : Nat) : Nat :=
  l.reqs.foldl (fun a e => match e.2 with | some q => if q.opc = 2 ∧ q.pkg = pkg then a + 1 else a | none => a) 0

/-- A waiting command may be sent. -/
def mayIssue (l : NLink) (q : NReq) : Bool := decide (q.opc ≠ 2) || decide (progsOn l q.pkg < 8)

/-- The waiting command sent next (R315): reads in PRIO order, oldest first, then programs and the rest in age order (log 25). -/
def nextWait (l : NLink) : Option NReq :=
  let reads := l.wait.filter (fun q => q.opc = 1)
  match reads.foldl (fun (b : Option NReq) q => match b with
      | none => some q
      | some x => if x.prio < q.prio then some q else some x) none with
  | some q => some q
  | none => l.wait.find? (mayIssue l)

/-- Send waiting commands while tags are free. -/
def nlIssue : Nat → NLink → NLink
  | 0, l => l
  | k + 1, l =>
    match nextWait l, freeTag l with
    | some q, some t =>
      let body := if q.opc = 2 then bchEncode q.body else if q.opc = 4 then slice q.body 0 352 else []
      nlIssue k (nlQueue (nlHeader q t ++ body) { l with wait := l.wait.erase q, reqs := Table.set none l.reqs t (some q) })
    | _, _ => l

/-- Give a link a command. -/
def nlSubmit (n : Nat) (q : NReq) (s : State) : State :=
  onNl n (fun l => nlIssue 520 { l with wait := l.wait ++ [{ q with since := s.time.now }] }) s

/-- Body length of a message by opcode (R190). -/
def bodyLen (opc : Nat) : Nat := if opc = 0x21 ∨ opc = 0x23 then 352 else if opc = 0x25 then 64 else 0

/-- Take whole messages from the received bytes: OPC 0 is fill, and other opcodes no package sends are dropped (log 25). -/
def nlParse : Nat → NLink → NLink
  | 0, l => l
  | k + 1, l =>
    if l.rx.length < 8 then l
    else
      let h := leNat (l.rx.take 8)
      let opc := h % 64
      let n := 8 + bodyLen opc
      if l.rx.length < n then l
      else
        let m : NMsg := ⟨h >>> 56, (h >>> 7) % 512, opc, (l.rx.drop 8).take (n - 8)⟩
        let known := decide (0x21 ≤ opc ∧ opc ≤ 0x25)
        nlParse k { l with rx := l.rx.drop n, inbox := if known then l.inbox ++ [m] else l.inbox }

/-- Acknowledgement of every flit up to `seq` (R191): progress when it frees a flit. -/
def nlAck (seq : Nat) (l : NLink) : NLink :=
  match l.replay.findIdx? (fun e => e.1 = seq) with
  | some i => nlPump 33 { l with replay := l.replay.drop (i + 1), replays := 0 }
  | none => l

/-- A dropped flit (R191): one NAK until the replay arrives. -/
def nlBad (l : NLink) : NLink := if l.naked then l else { nlSend 2 0 [] l with naked := true, naks := l.naks + 1 }

/-- The flits are sent again from the oldest unacknowledged one (R191). -/
def nlReplay (n : Nat) (s : State) : State :=
  addCnt (linkCnt n 4) (getLink s n).replay.length
    (onNl n (fun l => l.replay.foldl (fun l e => nlSend 1 e.1 e.2 l) { l with replays := l.replays + 1 }) s)

/-- The return lane delivers flits: the link is trained. -/
def nlUp (l : NLink) : Bool := decide (l.st = .active) || decide (l.st = .training) || decide (l.st = .spare) || decide (l.st = .rebuilding)

/-- A flit arrives (R189, R191): a CRC failure, a reserved TYPE, or a TYPE other than the command's is handled as a CRC failure. -/
def recvFlit (n typ : Nat) (flit : Bytes) (s : State) : State :=
  let l := getLink s n
  if !nlUp l then s
  else
    let h := leAt flit 0 2
    if flit.length ≠ 256 ∨ leAt flit 252 4 ≠ (crc32 (slice flit 0 252)).toNat ∨ h / 4096 ≠ typ then onNl n nlBad s
    else
      let a := leAt flit 2 2
      let s1 := if a / 4096 % 2 = 1 then onNl n (nlAck (a % 4096)) s else s
      if typ = 1 then
        if h % 4096 = l.rxSeq then
          onNl n (fun l => nlIdle (nlParse 64 { l with rx := l.rx ++ slice flit 4 248, rxSeq := (l.rxSeq + 1) % 4096, rxAny := true, naked := false })) s1
        else s1
      else if typ = 2 then nlReplay n s1
      else s1

/-- NLINK_IDLE_FLIT (R189). -/
def execNlinkIdleFlit (n : LinkId) (flit : Bytes) (s : State) : Host.Outcome State Fault Refusal := .next (recvFlit n.val 0 flit s)
/-- NLINK_PAYLOAD_FLIT (R189). -/
def execNlinkPayloadFlit (n : LinkId) (flit : Bytes) (s : State) : Host.Outcome State Fault Refusal := .next (recvFlit n.val 1 flit s)
/-- NLINK_NAK_FLIT (R191): replay from the flit after ACKSEQ. -/
def execNlinkNakFlit (n : LinkId) (flit : Bytes) (s : State) : Host.Outcome State Fault Refusal := .next (recvFlit n.val 2 flit s)

/-- NLINK_ACK_TIMEOUT (R191): 2 µs without an acknowledgement. -/
def execNlinkAckTimeout (n : LinkId) (s : State) : Host.Outcome State Fault Refusal :=
  .next (if nlUp (getLink s n.val) && !(getLink s n.val).replay.isEmpty then nlReplay n.val s else s)

/-- NLINK_REPLAY_LIMIT (R191): eight replays without progress start a retrain. -/
def execNlinkReplayLimit (n : LinkId) (s : State) : Host.Outcome State Fault Refusal :=
  let l := getLink s n.val
  .next (if (l.st = .active ∨ l.st = .rebuilding ∨ l.st = .spare) ∧ 8 ≤ l.replays then
      onNl n.val (fun l => { l with st := .retraining, retrains := satAdd l.retrains 1 255, retrainAt := (s.time.now :: l.retrainAt).take 3 }) s
    else s)

/-- The first message of an opcode in the inbox, taken out. -/
def takeMsg (n opc : Nat) (s : State) : Option (NMsg × State) :=
  (getLink s n).inbox.find? (fun m => m.opc = opc) |>.map (fun m => (m, onNl n (fun l => { l with inbox := l.inbox.erase m }) s))

/-- The command a response answers; its tag is free again (R190). -/
def takeReq (n tag : Nat) (s : State) : Option NReq × State :=
  (Table.get none (getLink s n).reqs tag, onNl n (fun l => nlIssue 520 { l with reqs := Table.set none l.reqs tag none }) s)

end Sys2Proof.Machine
end

