-- ==== Sys2Proof/Machine/Nvm.lean ====
section
/-!
DEFINITION. The NVM tier below its commands (R182–R209): where a line lies, the rotation maps and wear, reading and programming a chunk,
absorption slots, stripe work (destage, rebuild, reconstruction), block copies, and the loss of a link.
-/
namespace Sys2Proof.Machine

def pkgKey (n pkg : Nat) : Nat := 2 * n + pkg
def getBlk (s : State) (n pkg b : Nat) : Blk := Table.get {} s.nvm.blks (pkgKey n pkg * 2 ^ 23 + b)
def onBlk (n pkg b : Nat) (f : Blk → Blk) (s : State) : State := onNvm (fun x => { x with blks := Table.mod {} x.blks (pkgKey n pkg * 2 ^ 23 + b) f }) s
def getRot (s : State) (n pkg r : Nat) : Rot := Table.get {} s.nvm.rots (pkgKey n pkg * 1024 + r)
def onRot (n pkg r : Nat) (f : Rot → Rot) (s : State) : State := onNvm (fun x => { x with rots := Table.mod {} x.rots (pkgKey n pkg * 1024 + r) f }) s

/-- A slot entry: ROT and PBLOCK (R195). -/
def slotEnt (x : Rot) (region slot : Nat) : Nat × Nat := (Table.get none x.slots slot).getD (0, region * 4097 + slot)

/-- The slot of logical block `b` (R195). -/
def slotOf (x : Rot) (b : Nat) : Nat :=
  let v := (b % 4096 + x.start) % 4096
  if x.gap ≤ v then v + 1 else v

/-- Physical block and physical chunk address of a logical block's offset (R195). -/
def physOf (s : State) (n pkg b off : Nat) : Nat × Nat :=
  let r := b / 4096
  let x := getRot s n pkg r
  let e := slotEnt x r (slotOf x b)
  (e.2, e.2 * 256 + (off + e.1) % 256)

/-- The region and slot whose entry names a physical block. -/
def slotOfPhys (s : State) (n pkg p : Nat) : Option (Nat × Nat) :=
  let d := (p / 4097, p % 4097)
  if d.1 < 1024 ∧ (slotEnt (getRot s n pkg d.1) d.1 d.2).2 = p then some d
  else s.nvm.rots.findSome? (fun e =>
    if e.1 / 1024 = pkgKey n pkg then
      (e.2.slots.find? (fun q => match q.2 with | some y => y.2 = p | none => false)).map (fun q => (e.1 % 1024, q.1))
    else none)

/-- The logical block in a slot, if it is not the gap. -/
def blockOfSlot (x : Rot) (region slot : Nat) : Option Nat :=
  if slot = x.gap then none
  else
    let v := if x.gap < slot then slot - 1 else slot
    some (region * 4096 + (v + 4096 - x.start) % 4096)

/-- Where line index `i` of a frame lies (R194): group number, stripe, position, parity position. -/
def nvmLoc (s : State) (t frame i : Nat) : Nat × Nat × Nat × Nat :=
  let g := ranksOf s t
  let n := max 1 g.length
  let a := 2 * (frame / n) + i / 32
  let p := a % 9
  (g.getD (frame % n) 0, a, (p + 1 + i / 4 % 8) % 9, p)

/-- The frame of a stripe of the group of this number (R194). -/
def frameOf (s : State) (t grp a : Nat) : Nat :=
  let g := ranksOf s t
  a / 2 * g.length + (g.idxOf? grp).getD 0

/-- Position of data chunk `j` of stripe `a`, and back (R194). -/
def posOf (a j : Nat) : Nat := (a % 9 + 1 + j) % 9
def dataIdx (a pos : Nat) : Nat := (pos + 17 - a % 9) % 9

/-- The link that holds a position of stripe `a`: a spare being rebuilt holds only stripes below the rebuild line (R208). -/
def linkFor (s : State) (t g pos a : Nat) : Option Nat :=
  (linkAt s t g pos).filter (fun n =>
    if (getLink s n).st = .rebuilding then
      (match (getGrp s t g).rebuild with | some (line, _) => decide (a < line) | none => false)
    else true)

/-- The stripe lacks chunks on two or more positions (R209). -/
def stripeLost (s : State) (t g a : Nat) : Bool := decide (2 ≤ ((List.range 9).filter (fun p => (linkFor s t g p a).isNone)).length)

/-- A line of an NVM frame meets a data error: its chunk lay on a missing link of a stripe that cannot be reconstructed (R209). -/
def nvmLost (s : State) (t frame i : Nat) : Bool :=
  let (g, a, pos, _) := nvmLoc s t frame i
  (linkFor s t g pos a).isNone && stripeLost s t g a

/-- Package, logical block and offset of stripe `a` on a link (R194). -/
def stripePkg (a : Nat) : Nat := a / 2 ^ 30 % 2
def stripeBlk (a : Nat) : Nat := a / 256 % 2 ^ 22

def physStripe (s : State) (n a : Nat) : Nat × Nat := physOf s n (stripePkg a) (stripeBlk a) (a % 256)

/-- Seconds since Dawn 6 (R197). -/
def dawnSec (s : State) : Nat := (s.time.now - s.time.d6At) / 1000000

/-- Age of a block's oldest data, modulo 2^24 s (R197). -/
def blkAge (s : State) (b : Blk) : Nat := (dawnSec s + 2 ^ 24 - b.stamp % 2 ^ 24) % 2 ^ 24

/-- The reference index for an age (R199). -/
def refOf (age : Nat) : Nat :=
  if age < 10 then 0 else if age < 600 then 1 else if age < 43200 then 2 else if age < 604800 then 3 else if age < 2592000 then 4 else 5

/-- Content held in a program buffer for a chunk (R184), or for a retirement whose failed program it was, or that waits for its block lock (R198): the
newest. -/
def progBuf (s : State) (n pkg chunk : Nat) : Option Bytes :=
  let l := getLink s n
  let q := (l.reqs.filterMap (·.2)) ++ l.wait
  match (q.filter (fun x => x.opc = 2 ∧ x.pkg = pkg ∧ x.chunk = chunk)).getLast? with
  | some x => some x.body
  | none =>
    match s.nvm.retireQ.find? (fun e => decide (e.1 = n ∧ e.2.1 = pkg ∧ e.2.2.1 = chunk / 256 ∧ e.2.2.2.1 = chunk % 256)) with
    | some e => some e.2.2.2.2
    | none => s.nvm.ops.findSome? (fun e => e.2.bind (fun o =>
        if o.link = n ∧ o.pkg = pkg ∧ o.src = chunk / 256 then (o.failed.filter (fun f => f.1 = chunk % 256)).map (·.2) else none))

/-- A record's 80 bytes (R83), and back. -/
def recBytes (r : Rec) : Bytes := lineBytes r.data ++ leBytes 8 r.chk.toNat ++ leBytes 7 r.meta_.toNat ++ [r.mchk]
def bytesRec (b : Bytes) : Rec :=
  ⟨bytesLine (slice b 0 64), BitVec.ofNat 64 (leAt b 64 8), BitVec.ofNat 56 (leAt b 72 7), BitVec.ofNat 8 (leAt b 79 1)⟩

def chunkRec (c : Bytes) (slot : Nat) : Rec := bytesRec (slice c (80 * slot) 80)

def xorChunks (a b : Bytes) : Bytes := leBytes 320 (leNat a ^^^ leNat b)

/-- Key of content that arrives for a reader. -/
def arrKey (kind t frame i : Nat) : Nat := ((8 * kind + t) * 2 ^ 32 + frame) * 64 + i

/-- Content arrives for a reader: `medium` where it was read from the medium. -/
def setArrived (kind t frame i : Nat) (v : Option Bytes) (n : Nat) (medium : Bool) (s : State) : State :=
  onNvm (fun x => { x with arrived := Table.set none x.arrived (arrKey kind t frame i) (some (v, n, medium)) }) s

def getWork (s : State) (w : Nat) : Option Work := Table.get none s.nvm.works w
def setWork (w : Nat) (v : Option Work) (s : State) : State := onNvm (fun x => { x with works := Table.set none x.works w v }) s
def getOp (s : State) (w : Nat) : Option BlkOp := Table.get none s.nvm.ops w
def setOp (w : Nat) (v : Option BlkOp) (s : State) : State := onNvm (fun x => { x with ops := Table.set none x.ops w v }) s
def newId (s : State) : Nat × State := (s.nvm.nextId, onNvm (fun x => { x with nextId := x.nextId + 1 }) s)

/-- The block lock of a physical block is held (R196, R198). -/
def blkLocked (s : State) (n pkg b : Nat) : Bool :=
  s.nvm.ops.any (fun e => match e.2 with | some o => decide (o.link = n ∧ o.pkg = pkg ∧ (o.src = b ∨ o.dst = b)) | none => false)

def getRefresh (s : State) (t : Nat) : Option Refresh := Table.get none s.nvm.refresh t
def setRefresh (t : Nat) (r : Option Refresh) (s : State) : State := onNvm (fun x => { x with refresh := Table.set none x.refresh t r }) s

/-- The chunk lock of a physical chunk is held by a drift refresh (R200). -/
def chunkLocked (s : State) (n pkg chunk : Nat) : Bool :=
  s.nvm.refresh.any (fun e => match e.2 with
    | some r => decide (r.link = n ∧ r.pkg = pkg) && (match r.busy with | some (o, _) => decide (r.block * 256 + o = chunk) | none => false)
    | none => false)

/-- A drift refresh holds the chunk lock of a chunk of the block (R200). -/
def blkRefreshing (s : State) (n pkg b : Nat) : Bool := (List.range 256).any (fun o => chunkLocked s n pkg (b * 256 + o))

/-- Release line locks a walker holds (R223). -/
def unlockLines (ls : List Nat) (s : State) : State :=
  onHa (fun h => { h with walkLock := ls.foldl (fun t l => Table.set false t l false) h.walkLock }) s

/-- The stripe lock is held by a destage or a rebuild step (R203, R208). -/
def stripeLocked (s : State) (t g a : Nat) : Bool :=
  s.nvm.works.any (fun e => match e.2 with | some w => decide (w.kind ≠ .recon ∧ w.tile = t ∧ w.grp = g ∧ w.stripe = a) | none => false)

/-- A chunk for stripe work has arrived. -/
def gotChunk (w pos : Nat) (v : Option (Bytes × Bool)) (s : State) : State :=
  match getWork s w with
  | none => s
  | some k => setWork w (some { k with want := k.want.erase pos, got := Table.set none k.got pos v }) s

/-- Content of a chunk that nothing has programmed since Dawn, which is not read (R199): zeros, as an unwritten stripe's parity takes it (log 123). -/
def blankChunk : Bytes := List.replicate 320 0#8

/-- The block of a physical address has been programmed since Dawn, so its chunks may be read (R199). -/
def blkReadable (s : State) (n pkg b : Nat) : Bool := decide ((getBlk s n pkg b).st ≠ .fresh)

/-- The priority the reads of stripe work `w` carry: of what asked for it (R27, R315). -/
def workPrio (s : State) (w : Nat) : Nat := match getWork s w with | some k => k.prio | none => 0

/-- Read stripe `a`'s chunk on link `n` for stripe work: from the program buffer while a program is outstanding (R184). -/
def readWork (w pos n a : Nat) (s : State) : State :=
  let p := physStripe s n a
  match progBuf s n (stripePkg a) p.2 with
  | some b => gotChunk w pos (some (b, true)) s
  | none =>
    if !blkReadable s n (stripePkg a) p.1 then gotChunk w pos (some (blankChunk, true)) s else
    addCnt (linkCnt n 0) 1
      (nlSubmit n { opc := 1, pkg := stripePkg a, chunk := p.2, ref := refOf (blkAge s (getBlk s n (stripePkg a) p.1)), use := .work w pos, prio := workPrio s w } s)

/-- Program a physical chunk (R182). -/
def program (n pkg chunk : Nat) (body : Bytes) (use : NUse) (s : State) : State :=
  addCnt (linkCnt n 1) 1 (nlSubmit n { opc := 2, pkg := pkg, chunk := chunk, use := use, body := body } s)

/-- Start a reconstruction of the chunk at `pos` of stripe `a`: the other eight are read, at the priority of what asked for it (R206, R207, R315). -/
def startRecon (t g a pos : Nat) (cont : NReq) (reprog : Bool) (s : State) : Nat × State :=
  let (w, s1) := newId s
  let others := (List.range 9).filter (fun p => p ≠ pos)
  let s2 := setWork w (some ⟨.recon, t, g, a, pos, others, [], [], [], false, some cont, reprog, cont.prio, false⟩) s1
  (w, others.foldl (fun s p => match linkFor s t g p a with
    | some n => readWork w p n a s
    | none => gotChunk w p none s) s2)

/-- The XOR of a work's arrived chunks, all of which decoded. -/
def xorGot (k : Work) : Option Bytes :=
  k.got.foldl (fun a e => match a, e.2 with
    | some x, some (b, true) => some (xorChunks x b)
    | _, _ => none) (some blankChunk)

/-- The XOR of the stored forms of a work's arrived chunks (R193, R206). -/
def xorStored (k : Work) : Option Bytes :=
  k.got.foldl (fun a e => match a, e.2 with
    | some x, some (b, ok) => some (leBytes 352 (leNat x ^^^ leNat (if ok then bchEncode b else b)))
    | _, _ => none) (some (List.replicate 352 0#8))

/-- A reconstructed chunk, decoded again (R206). Where every chunk decoded their XOR is a code word already (R193). -/
def reconstructed (k : Work) : Option Bytes :=
  match xorGot k with
  | some b => some b
  | none => (xorStored k).bind (fun x => (bchDecode x).map (·.1))

/-- A chunk of a stripe is programmed: what a reconstruction of the stripe has read is stale (R206). -/
def markStale (t g a : Nat) (s : State) : State :=
  onNvm (fun x => { x with works := Table.mapAll none (fun _ v => v.map (fun k =>
    if k.kind = .recon ∧ k.tile = t ∧ k.grp = g ∧ k.stripe = a then { k with stale := true } else k)) x.works }) s

/-- Release the programs of a work whose blocks and chunks are not locked (R196, R200). -/
def pumpWork (w : Nat) (s : State) : State :=
  match getWork s w with
  | none => s
  | some k =>
    k.todo.foldl (fun s e =>
      match linkAt s k.tile k.grp e.1 with
      | none => (match getWork s w with | some k2 => setWork w (some { k2 with todo := k2.todo.erase e }) s | none => s)
      | some n =>
        let p := physStripe s n k.stripe
        if blkLocked s n (stripePkg k.stripe) p.1 || chunkLocked s n (stripePkg k.stripe) p.2 then s
        else match getWork s w with
          | some k2 => program n (stripePkg k.stripe) p.2 e.2 (.work w e.1) (markStale k.tile k.grp k.stripe
              (setWork w (some { k2 with todo := k2.todo.erase e, live := k2.live ++ [e.1] }) s))
          | none => s) s

/-- Every stripe work goes on where a lock has been released. -/
def pumpAll (s : State) : State := s.nvm.works.foldl (fun s e => pumpWork e.1 s) s

def slotKey (t frame j : Nat) : Nat := (t * 2 ^ 32 + frame) * 16 + j
def getSlot (s : State) (t frame j : Nat) : Option ASlot := Table.get none s.nvm.slots (slotKey t frame j)
def setSlot (t frame j : Nat) (v : Option ASlot) (s : State) : State := onNvm (fun x => { x with slots := Table.set none x.slots (slotKey t frame j) v }) s

/-- Slots in use on a tile (NL_ABS_STS USED). -/
def slotsUsed (s : State) (t : Nat) : List (Nat × ASlot) :=
  s.nvm.slots.filterMap (fun e => match e.2 with | some a => if e.1 / 16 / 2 ^ 32 = t then some (e.1, a) else none | none => none)

/-- SLOTS as it acts (NL_ABS_CFG). -/
def slotLimit (s : State) (t : Nat) : Nat := clampN 4096 65536 (regFld s .nlAbsCfg t 16 0)

/-- DRAM line of record `i` of slot number `k` (R201). -/
def absF (s : State) (t k i : Nat) : Nat := (absBase s t + k / 16) * 64 + 4 * (k % 16) + i % 4
/-- DRAM line of a slot's record (R201). -/
def slotF (s : State) (t : Nat) (a : ASlot) (i : Nat) : Nat := absF s t a.k i

/-- The record in a slot, as the DRAM holds it. -/
def slotRec (s : State) (t : Nat) (a : ASlot) (i : Nat) : Rec := recAt s t (slotF s t a i)

/-- A line index has its record in a slot (R201). -/
def slotHas (s : State) (t frame i : Nat) : Option ASlot := (getSlot s t frame (i / 4)).filter (fun a => a.mask.getLsbD (i % 4))

/-- New content of data chunk `j` of a frame over its old content (R203). -/
def mergeChunk (s : State) (t frame j : Nat) (old : Bytes) : Bytes :=
  match getSlot s t frame j with
  | none => old
  | some a => (List.range 4).flatMap (fun i => if a.mask.getLsbD i then recBytes (slotRec s t a i) else slice old (80 * i) 80)

/-- The positions of a stripe that no link serves now (R207, R209). -/
def missingOf (s : State) (t g a : Nat) : List Nat := (List.range 9).filter (fun q => (linkFor s t g q a).isNone)

/-- The data chunks of a stripe that its destage takes part in. -/
def destageSet (s : State) (t g a : Nat) : List Nat :=
  (List.range 8).filter (fun j => match getSlot s t (frameOf s t g a) (a % 2 * 8 + j) with | some x => x.destaging | none => false)

/-- The positions a destage of chunks `js` reads (R203, R207): none of a full stripe; the old chunks and the parity; where a data chunk is missing every
other chunk; where the parity is missing the old chunks alone. With two missing, what is in service of the old chunks and the parity (R209). -/
def destageReads (full : Bool) (missing js : List Nat) (a : Nat) : List Nat :=
  let p := a % 9
  if full then []
  else match missing with
    | [] => js.map (posOf a) ++ [p]
    | [m] => if m = p then js.map (posOf a) else (List.range 9).filter (fun q => q ≠ m)
    | _ => (js.map (posOf a) ++ [p]).filter (fun q => !missing.contains q)

/-- The programs of a destage once its reads have arrived (R203, R207, R209). -/
def destagePrograms (s : State) (k : Work) : List (Nat × Bytes) :=
  let frame := frameOf s k.tile k.grp k.stripe
  let half := k.stripe % 2 * 8
  let p := k.stripe % 9
  let idx := destageSet s k.tile k.grp k.stripe
  let old (pos : Nat) : Bytes := match Table.get none k.got pos with | some (b, _) => b | none => blankChunk
  let full := decide (idx.length = 8) && k.got.isEmpty
  let missing := missingOf s k.tile k.grp k.stripe
  let data (j : Nat) : Nat × Bytes := (posOf k.stripe j, mergeChunk s k.tile frame (half + j) (old (posOf k.stripe j)))
  let new := idx.map data
  let update (l : List (Nat × Bytes)) : Bytes := l.foldl (fun a e => xorChunks (xorChunks a (old e.1)) e.2) (old p)
  let parity : Bytes :=
    if full then new.foldl (fun a e => xorChunks a e.2) blankChunk
    else match missing with
      | [m] =>
        if m = p then blankChunk
        else
          -- the missing chunk's old content is the XOR of the other eight; parity over all data chunks, new where destaged
          let lost := (xorGot k).getD blankChunk
          (List.range 8).foldl (fun a j =>
            let q := posOf k.stripe j
            let o := if q = m then lost else old q
            xorChunks a (if idx.contains j then mergeChunk s k.tile frame (half + j) o else o)) blankChunk
      | _ => update (new.filter (fun e => !missing.contains e.1))
  (new ++ [(p, parity)]).filter (fun e => !missing.contains e.1)

/-- Every data chunk of the stripe lies whole in a slot that is not being destaged (R202). -/
def stripeFull (s : State) (t grp a : Nat) : Bool :=
  (List.range 8).all (fun j => match getSlot s t (frameOf s t grp a) (a % 2 * 8 + j) with | some x => x.mask = 15#4 && !x.destaging | none => false)

/-- Start the destage of a stripe of a frame (R202, R203): every slot of the stripe takes part. -/
def startDestage (t grp a : Nat) (s : State) : State :=
  let frame := frameOf s t grp a
  let half := a % 2 * 8
  let js := (List.range 8).filter (fun j => (getSlot s t frame (half + j)).isSome)
  if js.isEmpty || stripeLocked s t grp a then s
  else
    let full := js.all (fun j => match getSlot s t frame (half + j) with | some x => x.mask = 15#4 | none => false) && decide (js.length = 8)
    let s1 := js.foldl (fun s j => match getSlot s t frame (half + j) with
      | some x => setSlot t frame (half + j) (some { x with destaging := true, redirty := false }) s
      | none => s) s
    let reads := destageReads full (missingOf s t grp a) js a
    let (w, s2) := newId s1
    let s3 := setWork w (some ⟨.destage, t, grp, a, 0, reads, [], [], [], false, none, false, walkerPrio s, false⟩) s2
    reads.foldl (fun s q => match linkFor s t grp q a with | some n => readWork w q n a s | none => gotChunk w q none s) s3

/-- A destage whose reads are all in computes its programs. -/
def advanceDestage (w : Nat) (s : State) : State :=
  match getWork s w with
  | some k =>
    if k.kind = .destage ∧ k.want.isEmpty ∧ !k.merged then pumpWork w (setWork w (some { k with merged := true, todo := destagePrograms s k }) s)
    else s
  | none => s

/-- The copy of a block operation got a chunk: it is programmed at the destination (R196, R198). -/
def copyChunk (w off : Nat) (b : Bytes) (s : State) : State :=
  match getOp s w with
  | none => s
  | some o => program o.link o.pkg (o.dst * 256 + (off + o.rot) % 256) b (.copy w off) s

/-- Metadata of a line whose stored metadata is lost (R175, R206). -/
def poisonMeta (s : State) (line : Nat) : BitVec 56 :=
  match regionAt s (64 * line) with
  | some r => mkMeta (positionKey s r (dpaLoc s r line)) true (if isDb s r.idx then 2 else 0) 0 0
  | none => mkMeta 0#12 true 0 0 0

/-- The stored metadata word of a line was lost: a cached entry of an HDM-DB line takes HSTATE A (R175). -/
def lostEntry (line : Nat) (s : State) : State :=
  match regionAt s (64 * line) with
  | some r =>
    if isDb s r.idx then onHa (fun h => { h with dir := Table.mapAll {} (fun _ e =>
      if e.v && decide (e.line = line) then { e with hst := .a, holder := 0, hvec := 0#64, stHst := .a, stHolder := 0, mdirty := false } else e) h.dir }) s
    else s
  | none => s

/-- A line whose record now holds the metadata of `poisonMeta`: its cached entry, and the poison list (R175, R204, R206, R222). -/
def lostWord (line : Nat) (s : State) : State := addPoison (64 * line) 64 (lostEntry line s)

/-- The record written for a record with uncorrectable words (R175). -/
def poisonRec (s : State) (line : Nat) (c : Checked) : Rec :=
  if c.bad.contains 8 then
    let data := wordsLine (fun w => if c.bad.contains w then 0#64 else lineWord c.out.data w)
    mkRec line data (poisonMeta s line)
  else mkRec line 0#512 (c.out.meta_ ||| (1#56 <<< 43))

/-- A line of a packed store that lies in NVM: its region and its line of the block area (R246). -/
def nvmStoreAt (s : State) (t frame i : Nat) : Option (Region × Nat) :=
  s.map.cat.findSome? (fun r =>
    let b := regionBase s t r true
    if r.typ = .packed ∧ !storeInDram s r.idx ∧ b ≤ frame ∧ frame < b + r.store then some (r, 64 * (frame - b) + i) else none)

/-- A store line as the crypto block addresses it (R247, R282, R285). -/
def storeLoc (s : State) (r : Region) (t area k : Nat) : CLoc :=
  saLoc r.idx t area k (storeSa r.idx t area k) (64 * mapFrames s r) (if area = 2 then mapFrames s r else r.store)

/-- The page whose lines an NVM frame holds: its owner, or the page that a demotion writes there (R204, R219). -/
def nvmPage (s : State) (t frame : Nat) : Option Nat :=
  match ownerOf s t true frame with
  | some p => some p
  | none => s.tier.moves.findSome? (fun e => e.2.bind (fun m => if m.tile = t ∧ m.toDram = false ∧ m.dst = frame then some e.1 else none))

/-- Fold address and metadata of a line of an NVM frame whose content is lost (R171, R175, R204, R206). -/
def lostMeta (s : State) (t frame i : Nat) : Nat × BitVec 56 :=
  match nvmPage s t frame with
  | some p => (64 * p + i, poisonMeta s (64 * p + i))
  | none => (localFold t (64 * frame + i), match nvmStoreAt s t frame i with
      | some (r, k) => mkMeta (positionKey s r (storeLoc s r t 1 k)) true 0 0 0
      | none => mkMeta 0#12 true 0 0 0)

/-- The poisoned record of a line of an NVM frame. -/
def lostRec (s : State) (t frame i : Nat) : Rec := mkRec (lostMeta s t frame i).1 0#512 (lostMeta s t frame i).2

/-- A chunk of four poisoned records, for content that is lost (R206). -/
def lostChunk (s : State) (t frame j : Nat) : Bytes := (List.range 4).flatMap (fun i => recBytes (lostRec s t frame (4 * j + i)))

/-- The line's copy in a page's frame is stale: its page is moving and it has been copied (R220, R225). -/
def copiedAway (s : State) (t frame i : Nat) : Bool :=
  match ownerOf s t true frame with
  | some p => (match Table.get none s.tier.moves p with | some m => m.copied.getLsbD i | none => false)
  | none => false

/-- What a drift refresh programs (R174, R175, R200): each record checked under its fold address (R171); a corrected one carries fresh check bytes, and
an uncorrectable one of a page is poisoned. One of a tile-local frame is handled as its frame says (R250, R299). Parity chunks carry no records. -/
def refreshFix (n pkg chunk : Nat) (b : Bytes) (s : State) : Bytes × State :=
  let t := n / 40
  match slotOfPhys s n pkg (chunk / 256) with
  | none => (b, s)
  | some (r, sl) =>
    let x := getRot s n pkg r
    match blockOfSlot x r sl with
    | none => (b, s)
    | some lb =>
      let a := pkg * 2 ^ 30 + lb * 256 + (chunk % 256 + 256 - (slotEnt x r sl).1 % 256) % 256
      let pos := (getLink s n).pos
      if pos = a % 9 then (b, s)
      else
        let frame := frameOf s t (getLink s n).grp a
        let j := a % 2 * 8 + dataIdx a pos
        let own := ownerOf s t true frame
        if own.isNone && decide (frame < pageFrames s t true) then (b, s)
        else
          (List.range 4).foldl (fun (acc : Bytes × State) i =>
            let k := 4 * j + i
            let fold := match own with | some p => 64 * p + k | none => localFold t (64 * frame + k)
            let c := checkRec fold (chunkRec b i)
            if copiedAway acc.2 t frame k || (c.fixed = 0 && c.bad.isEmpty) then acc
            else
              let out := if c.bad.isEmpty then c.out else match own with | some _ => poisonRec acc.2 fold c | none => lostRec acc.2 t frame k
              let s1 := if c.bad.isEmpty then acc.2 else
                raiseWith (tileSrc t .nlUe) { addr := BitVec.ofNat 64 (64 * fold), detail := BitVec.ofNat 32 n } {} (match own with
                  | some _ => if c.bad.contains 8 then lostWord fold acc.2 else addPoison (64 * fold) 64 acc.2
                  | none => onNvm (fun x => { x with localBad := x.localBad ++ [(t, frame, k)] }) acc.2)
              (acc.1.take (80 * i) ++ recBytes out ++ acc.1.drop (80 * i + 80), s1)) (b, s)

/-- The lowest slot number not in use whose DRAM lines can be reached (R201, R204), while fewer slots than SLOTS are in use. -/
def freeSlot (s : State) (t : Nat) : Option Nat :=
  let ks := (slotsUsed s t).map (fun e => e.2.k)
  if slotLimit s t ≤ ks.length then none
  else (List.range (16 * (ks.length + 1))).find? (fun k => !ks.contains k && decide (k < 65536) && dramUp s t (absF s t k 0))

/-- The slot of a line's chunk, where its DRAM lines can be reached. -/
def slotUp (s : State) (t frame i : Nat) : Option ASlot := (getSlot s t frame (i / 4)).filter (fun a => dramUp s t (slotF s t a 0))

/-- Writes wait for a slot on the tile. -/
def slotQueue (s : State) (t : Nat) : Bool := s.nvm.slotWait.any (fun w => decide (w.tile = t)) || s.nvm.lineWait.any (fun w => decide (homeOf s w.1 = t))

/-- A write of a line of an NVM frame has to wait for a slot (R201): one is not free, or older writes wait. -/
def needSlot (s : State) (t frame i : Nat) : Bool :=
  (slotUp s t frame i).isNone && ((getSlot s t frame (i / 4)).isSome || (freeSlot s t).isNone || slotQueue s t)

/-- Start a destage, and its programs where it needs no reads. -/
def destage (t g a : Nat) (s : State) : State :=
  let w := s.nvm.nextId
  advanceDestage w (startDestage t g a s)

/-- A stripe whose eight chunks all have slots with full masks is destaged at once (R202). -/
def destageFull (t g a : Nat) (s : State) : State := if stripeFull s t g a && !stripeLocked s t g a then destage t g a s else s

/-- The used slots have reached HIGH: destage runs until LOW (R202). -/
def markHigh (t : Nat) (s : State) : State :=
  if (clampN 1 100 (regFld s .nlAbsLvl t 15 8)) * slotLimit s t ≤ 100 * (slotsUsed s t).length then onNvm (fun x => { x with draining := setBit x.draining t true }) s
  else s

/-- A slot for the line's chunk, allocated if it has none (R201). -/
def openSlot (t frame i : Nat) (s : State) : State :=
  match getSlot s t frame (i / 4), freeSlot s t with
  | none, some k => setSlot t frame (i / 4) (some ⟨k, 0#4, s.time.now, false, false⟩) s
  | _, _ => s

/-- Store a record in the slot of its chunk (R201, R204); an older record of the line that waits for a slot is overwritten by it. -/
def absStore (t frame i : Nat) (r : Rec) (prio : Nat) (s : State) : State :=
  let s1 := match getSlot s t frame (i / 4) with
    | some a =>
      let a2 := { a with mask := setBit a.mask (i % 4) true, redirty := a.redirty || a.destaging }
      drWrite t (slotF s t a2 i) r prio (setSlot t frame (i / 4) (some a2) s)
    | none => s
  let (g, a, _, _) := nvmLoc s t frame i
  let s2 := onNvm (fun x => { x with slotWait := x.slotWait.filter (fun w => ¬(w.tile = t ∧ w.frame = frame ∧ w.i = i)) }) s1
  markHigh t (destageFull t g a s2)

/-- Write a record into the absorption slot of its chunk (R201); with no free slot it waits behind older writes. -/
def absWrite (t frame i : Nat) (r : Rec) (prio : Nat) (s : State) : State :=
  if needSlot s t frame i then
    let old := s.nvm.slotWait.any (fun w => decide (w.tile = t ∧ w.frame = frame ∧ w.i = i))
    raiseBit .nlAbsSts t 31 (onNvm (fun x => { x with
      slotWait := if old then x.slotWait.map (fun w => if w.tile = t ∧ w.frame = frame ∧ w.i = i then { w with r := r } else w)
        else x.slotWait ++ [⟨t, frame, i, r, s.time.now, prio⟩] }) s)
  else absStore t frame i r prio (openSlot t frame i s)

/-- The chunk is lost: each of its lines becomes a poisoned record through absorption, and NL_UE is raised (R206). -/
def poisonChunk (t frame j n : Nat) (s : State) : State :=
  let s1 := (List.range 4).foldl (fun s i =>
    let k := 4 * j + i
    if (slotHas s t frame k).isSome || copiedAway s t frame k then s
    else
      let s1 := absWrite t frame k (lostRec s t frame k) (walkerPrio s) s
      match nvmPage s t frame with | some p => lostWord (64 * p + k) s1 | none => s1) s
  raiseWith (tileSrc t .nlUe) { addr := BitVec.ofNat 64 (4096 * (nvmPage s t frame).getD 0 + 256 * j), detail := BitVec.ofNat 32 n } {} s1

/-- A rebuild step whose reads are all in programs the spare (R208). Where the chunk cannot be reconstructed its lines are uncorrectable (R206). -/
def advanceRebuild (w : Nat) (s : State) : State :=
  match getWork s w with
  | some k =>
    if k.kind = .rebuild ∧ k.want.isEmpty ∧ !k.merged then
      let frame := frameOf s k.tile k.grp k.stripe
      let j := k.stripe % 2 * 8 + dataIdx k.stripe k.pos
      let data := decide (k.pos ≠ k.stripe % 9)
      let sp := match (getGrp s k.tile k.grp).rebuild with | some (_, n) => n | none => 0
      match reconstructed k with
      | some b => pumpWork w (setWork w (some { k with merged := true, todo := [(k.pos, b)] }) s)
      | none =>
        let s1 := pumpWork w (setWork w (some { k with merged := true, todo := [(k.pos, if data then lostChunk s k.tile frame j else blankChunk)] }) s)
        if data then poisonChunk k.tile frame j sp s1 else s1
    else s
  | none => s

/-- Chunk content reaches what asked for it. -/
def deliver (q : NReq) (n : Nat) (t : Nat) (b : Bytes) (s : State) : State :=
  match q.use with
  | .data kind frame i => setArrived kind t frame i (some b) n true s
  | .work w pos => advanceRebuild w (advanceDestage w (gotChunk w pos (some (b, true)) s))
  | .copy w off => copyChunk w off b s
  | .refresh off => let (b2, s1) := refreshFix n q.pkg q.chunk b s; program n q.pkg q.chunk b2 (.refresh off) s1
  | _ => s

/-- What asked for a chunk learns that it is lost (R206): a line's reader finds the poisoned record; a destage, a copy and a refresh take poisoned
records; a rebuild's own chunk is lost with it. -/
def deliverLost (q : NReq) (n t frame j : Nat) (data : Bool) (s : State) : State :=
  let b := if data then lostChunk s t frame j else blankChunk
  match q.use with
  | .data kind fr i => setArrived kind t fr i none n true s
  | .work w pos =>
    (match getWork s w with
    | some k => if k.kind = .rebuild then advanceRebuild w (gotChunk w pos none s) else deliver q n t b s
    | none => s)
  | _ => deliver q n t b s

/-- Mark a block due for a refresh (R200, R206). -/
def markDue (n pkg b : Nat) (s : State) : State := onBlk n pkg b (fun x => { x with due := true }) s

/-- An undecodable chunk is programmed again with its reconstructed content, where it lies now; the repair is counted and the block marked for
refresh (R206). Where a newer program of the chunk is outstanding, or a block copy or a drift refresh holds it, that program rewrites it. -/
def repairChunk (k : Work) (b : Bytes) (s : State) : State :=
  match linkFor s k.tile k.grp k.pos k.stripe with
  | none => s
  | some n =>
    let pkg := stripePkg k.stripe
    let p := physStripe s n k.stripe
    let s1 := if (progBuf s n pkg p.2).isSome || blkLocked s n pkg p.1 || chunkLocked s n pkg p.2 then s else program n pkg p.2 b .repair s
    markDue n pkg p.1 (addCnt (tileCnt k.tile 472) 1 s1)

/-- The end of a reconstruction whose chunks are in (R206, R207): its content is delivered and, for an undecodable chunk, programmed again. A chunk on a
missing link of a stripe that lacks two is no poison: its requests are data errors (R209). -/
def finishRecon (w : Nat) (s : State) : State :=
  match getWork s w with
  | some k =>
    let s1 := setWork w none s
    (match k.cont with
    | none => s1
    | some q =>
      let frame := frameOf s k.tile k.grp k.stripe
      let data := decide (k.pos ≠ k.stripe % 9)
      let j := k.stripe % 2 * 8 + dataIdx k.stripe k.pos
      let n := (linkAt s k.tile k.grp k.pos).getD 0
      match reconstructed k with
      | some b => deliver q n k.tile b (if k.reprog then repairChunk k b s1 else s1)
      | none =>
        let gone := (linkFor s k.tile k.grp k.pos k.stripe).isNone && stripeLost s k.tile k.grp k.stripe
        deliverLost q n k.tile frame j data (if data && !gone then poisonChunk k.tile frame j n s1 else s1))
  | none => s

/-- Programs of the stripe are made and not yet sent: its chunks are of two ages (R203). -/
def stripeMixed (s : State) (k : Work) : Bool :=
  s.nvm.works.any (fun e => match e.2 with
    | some x => decide (x.kind ≠ .recon ∧ x.tile = k.tile ∧ x.grp = k.grp ∧ x.stripe = k.stripe) && !x.todo.isEmpty
    | none => false)

/-- A reconstruction goes on (R206, R207): with every chunk in it ends, or is read again where the stripe has been programmed meanwhile. -/
def advanceRecon (w : Nat) (s : State) : State :=
  match getWork s w with
  | some k =>
    if k.kind ≠ .recon ∨ !k.want.isEmpty ∨ stripeMixed s k then s
    else if k.stale then
      (match k.cont with
      | none => setWork w none s
      | some q =>
        let (x, s1) := startRecon k.tile k.grp k.stripe k.pos q k.reprog (setWork w none s)
        match getWork s1 x with
        | some y => if y.want.isEmpty then finishRecon x s1 else s1
        | none => s1)
    else finishRecon w s
  | none => s

/-- Reconstructions that waited for the programs of their stripe go on. -/
def pumpRecon (s : State) : State := s.nvm.works.foldl (fun s e => advanceRecon e.1 s) s

/-- The stripe and position a physical chunk of a link belongs to: group, stripe, position. -/
def stripeOfChunk (s : State) (n pkg chunk : Nat) : Option (Nat × Nat × Nat) :=
  let l := getLink s n
  match slotOfPhys s n pkg (chunk / 256) with
  | none => none
  | some (r, sl) =>
    let x := getRot s n pkg r
    match blockOfSlot x r sl with
    | none => none
    | some b => some (l.grp, pkg * 2 ^ 30 + b * 256 + (chunk % 256 + 256 - (slotEnt x r sl).1 % 256) % 256, l.pos)

/-- An undecodable chunk, or one a lost link was asked for: it is reconstructed from its stripe (R192, R206). `raw` is its stored form. -/
def reconFor (n : Nat) (q : NReq) (raw : Option Bytes) (reprog : Bool) (s : State) : State :=
  let t := n / 40
  let start (g a pos : Nat) : State := let (x, s1) := startRecon t g a pos q reprog s; advanceRecon x s1
  match q.use with
  | .work w pos =>
    -- chunks of a reconstruction are not reconstructed again
    match getWork s w with
    | some k => if k.kind = .recon then advanceRecon w (gotChunk w pos (raw.map (fun b => (b, false))) s) else start k.grp k.stripe pos
    | none => s
  | .data _ frame i => let (g, a, pos, _) := nvmLoc s t frame i; start g a pos
  | _ =>
    if (getLink s n).st = .out then s
    else match stripeOfChunk s n q.pkg q.chunk with
      | some (g, a, pos) => start g a pos
      | none => deliver q n t blankChunk s

/-- Ask for a line or chunk of an NVM frame (R194, R195, R207): from a program buffer, from its link, or by reconstruction. -/
def nvmAsk (kind t frame i prio : Nat) (s : State) : State :=
  let (g, a, pos, _) := nvmLoc s t frame i
  match linkFor s t g pos a with
  | some n =>
    let p := physStripe s n a
    (match progBuf s n (stripePkg a) p.2 with
    | some b => setArrived kind t frame i (some b) n false s
    | none =>
      if !blkReadable s n (stripePkg a) p.1 then setArrived kind t frame i (some blankChunk) n false s else
      let rf := refOf (blkAge s (getBlk s n (stripePkg a) p.1))
      addCnt (linkCnt n 0) 1 (nlSubmit n { opc := 1, pkg := stripePkg a, chunk := p.2, ref := rf, use := .data kind frame i, prio := prio } s))
  | none =>
    let (x, s1) := startRecon t g a pos { opc := 1, pkg := stripePkg a, chunk := 0, use := .data kind frame i, prio := prio } false s
    advanceRecon x s1

/-- Corrected bits of a link; above the limit in any one second NL_CE_RATE is raised (R206). -/
def countBits (n k : Nat) (s : State) : State :=
  if k = 0 then s else
  let s1 := addCnt (linkCnt n 3) k (onNl n (fun l => { l with ce := withinSecond s.time.now k l.ce }) s)
  if paramNat s "x.nvm.ce.rate_limit" 4096 < wordsIn (getLink s1 n).ce then raiseTile (n / 40) .nlCeRate n s1 else s1

/-- REFRESH_CE as it acts (NL_DRIFT_CFG). -/
def refreshCe (s : State) (t : Nat) : Nat := clampN 1 21 (regFld s .nlDriftCfg t 15 8)
/-- HORIZON as it acts, in hours (NL_DRIFT_CFG). -/
def horizon (s : State) (t : Nat) : Nat := clampN 1 1440 (regFld s .nlDriftCfg t 31 16)

/-- A group loses its second link (R209). Its rebuild ends; the line stays, as the stripes below it lose only one chunk. -/
def loseGroup (t g : Nat) (s : State) : State :=
  if (getGrp s t g).st = .lost then s
  else
    reevaluate (tileSrc t .nlGroupLost) (raiseTile t .nlGroupLost g
      (onNvm (fun x => { x with grps := Table.mod {} x.grps (4 * t + g) (fun y => { y with st := .lost }) }) s))

/-- The lowest idle spare with the package count of a link (R180, R208). -/
def idleSpare (s : State) (t pkgs : Nat) : Option Nat :=
  ((List.range 4).map (fun k => 40 * t + 36 + k)).find? (fun n => (getLink s n).st = .spare && (getLink s n).pkgs = pkgs)

/-- What a link's outstanding commands come to when it leaves service (R192): a line's read is reconstructed, a chunk of a reconstruction is missing,
and programs count as completed; the link's block operations, its drift refresh, and rebuild steps and destages that read from it are ended by
`nlDown` before. -/
def dropReqs (n : Nat) (s : State) : State :=
  let l := getLink s n
  let qs := l.reqs.filterMap (·.2) ++ l.wait
  let s1 := onNl n (fun l => { l with reqs := [], wait := [], inbox := [], replay := [], txq := [], rx := [] }) s
  qs.foldl (fun s q =>
    match q.opc, q.use with
    | 1, .data .. | 1, .work .. => reconFor n q none false s
    | 2, .work w pos => (match getWork s w with | some k => setWork w (some { k with live := k.live.erase pos }) s | none => s)
    | _, _ => s) s1

/-- Destages of a group that have not merged their chunks start again, with the links the group has now (R203, R207). -/
def restartDestages (t g : Nat) (s : State) : State :=
  let ks := s.nvm.works.filterMap (fun e => match e.2 with
    | some k => if k.kind = .destage ∧ k.tile = t ∧ k.grp = g ∧ !k.merged then some (e.1, k.stripe) else none
    | none => none)
  let s1 := ks.foldl (fun s e =>
    let frame := frameOf s t g e.2
    (destageSet s t g e.2).foldl (fun s j => match getSlot s t frame (e.2 % 2 * 8 + j) with
      | some x => setSlot t frame (e.2 % 2 * 8 + j) (some { x with destaging := false, redirty := false }) s
      | none => s) (setWork e.1 none s)) s
  ks.foldl (fun s e => destage t g e.2 s) s1

/-- A link's block operations, its drift refresh with the locks it holds, and the rebuild of its group end with it (R192, R208). -/
def endLinkWork (n : Nat) (s : State) : State :=
  let held := s.nvm.refresh.flatMap (fun e => match e.2 with
    | some r => if r.link = n then (match r.busy with | some (_, ls) => ls | none => []) else []
    | none => [])
  let l := getLink s n
  unlockLines held (onNvm (fun x => { x with
    ops := x.ops.filter (fun e => match e.2 with | some o => o.link ≠ n | none => false)
    refresh := x.refresh.filter (fun e => match e.2 with | some r => r.link ≠ n | none => false)
    retireQ := x.retireQ.filter (fun e => decide (e.1 ≠ n))
    works := if l.pos = 15 then x.works else x.works.filter (fun e => match e.2 with
      | some k => !(decide (k.kind = .rebuild) && decide (k.tile = n / 40) && decide (k.grp = l.grp))
      | none => false) }) s)

/-- The stripes a rebuild of the group holds under its stripe lock (R208). -/
def rebuildStripes (s : State) (t g : Nat) : List Nat :=
  s.nvm.works.filterMap (fun e => match e.2 with | some k => if k.kind = .rebuild ∧ k.tile = t ∧ k.grp = g then some k.stripe else none | none => none)

/-- A link leaves service (R192, R208, R209). A stripe whose rebuild step ends with it and that has filled meanwhile is destaged (R202). -/
def nlDown (n : Nat) (why : NlReason) (code : Nat) (s : State) : State :=
  let l := getLink s n
  if l.st = .out ∨ l.st = .absent then s
  else
    let t := n / 40
    let s1 := onNl n (fun l => { l with st := .out, reason := why }) s
    let s2 := reevaluate (tileSrc t .nlLinkLost) (raiseTile t .nlLinkLost (n + 65536 * code) s1)
    let s3 : State :=
      if l.pos = 15 then s2
      else
        let g := getGrp s2 t l.grp
        if g.st = .absent ∨ g.st = .lost then s2
        else if g.st = .degraded ∧ g.missing ≠ l.pos then loseGroup t l.grp s2
        else match idleSpare s2 t l.pkgs with
          | some sp => onNvm (fun x => { x with grps := Table.set {} x.grps (4 * t + l.grp) ⟨.degraded, l.pos, some (0, sp)⟩ })
              (onNl sp (fun y => { y with st := .rebuilding, pos := l.pos, grp := l.grp }) s2)
          | none => onNvm (fun x => { x with grps := Table.set {} x.grps (4 * t + l.grp) ⟨.degraded, l.pos, none⟩ }) s2
    let cut := if l.pos = 15 then [] else rebuildStripes s3 t l.grp
    let s4 := dropReqs n (endLinkWork n s3)
    if l.pos = 15 then s4 else pumpRecon (pumpAll (cut.foldl (fun s a => destageFull t l.grp a s) (restartDestages t l.grp s4)))

/-- E(24 + t) has tripped and does not recover (R192, R209): every link of the tile, and every group at once. -/
def loseNvmTile (t : Nat) (s : State) : State :=
  let s1 := (List.range 4).foldl (fun s g => if (getGrp s t g).st = .absent then s else loseGroup t g s) s
  (List.range 40).foldl (fun s l => nlDown (40 * t + l) .efuse 4 s) s1

/-- Spare blocks of a package not used (R198). -/
def sparesLeft (s : State) (n pkg : Nat) : Nat := 65536 - Table.get 0 s.nvm.sparesUsed (pkgKey n pkg)

/-- Physical offsets of a block that a copy takes (R196, R198): all of a block that holds data, and the chunk whose program failed. -/
def copyList (b : Blk) (failed : Option (Nat × Bytes)) : List Nat :=
  if b.st = .fresh then (match failed with | some (o, _) => [o] | none => []) else List.range 256

/-- The next chunk of a block copy: read, or taken from the program buffer or the failed program (R198). -/
def nextCopy (w : Nat) (s : State) : State :=
  match getOp s w with
  | none => s
  | some o =>
    match o.todo with
    | [] => setOp w (some { o with finished := true }) s
    | off :: _ =>
      let c := o.src * 256 + off
      match progBuf s o.link o.pkg c with
      | some b => copyChunk w off b s
      | none =>
        let rf := refOf (blkAge s (getBlk s o.link o.pkg o.src))
        addCnt (linkCnt o.link 0) 1 (nlSubmit o.link { opc := 1, pkg := o.pkg, chunk := c, ref := rf, use := .copy w off, prio := walkerPrio s } s)

/-- Retire a block into a spare (R198); with the pool empty it becomes worn. While a block lock or a chunk lock holds the block, a failed program's
retirement waits for it. -/
def startRetire (n pkg b : Nat) (failed : Option (Nat × Bytes)) (s : State) : State :=
  let used := Table.get 0 s.nvm.sparesUsed (pkgKey n pkg)
  if blkLocked s n pkg b || blkRefreshing s n pkg b then
    (match failed with
     | some (o, x) => onNvm (fun y => { y with retireQ := y.retireQ ++ [(n, pkg, b, o, x)] }) s
     | none => s)
  else if 65536 ≤ used then
    if (getBlk s n pkg b).st = .worn then s
    else raiseTile (n / 40) .nlWorn (n + 65536 * pkg) (onBlk n pkg b (fun x => { x with st := .worn, save := true }) s)
  else
    match slotOfPhys s n pkg b with
    | none => s
    | some (r, sl) =>
      let s1 := onNvm (fun x => { x with sparesUsed := Table.set 0 x.sparesUsed (pkgKey n pkg) (used + 1) }) s
      let s2 := if 65536 - (used + 1) < 1024 then raiseTile (n / 40) .nlSpareLow (n + 65536 * pkg) s1 else s1
      let (w, s3) := newId s2
      nextCopy w (setOp w (some ⟨n, pkg, true, r, sl, sl, b, 1024 * 4097 + used, 0, copyList (getBlk s n pkg b) failed, failed, false, none⟩) s3)

/-- Retirements that waited for a lock start (R198). -/
def pumpRetire (s : State) : State :=
  s.nvm.retireQ.foldl (fun s e =>
    if blkLocked s e.1 e.2.1 e.2.2.1 || blkRefreshing s e.1 e.2.1 e.2.2.1 then s
    else startRetire e.1 e.2.1 e.2.2.1 (some e.2.2.2) (onNvm (fun y => { y with retireQ := y.retireQ.erase e }) s)) s

/-- Locks have been released: stripe work and retirements that waited for them go on. -/
def pumpLocks (s : State) : State := pumpRetire (pumpRecon (pumpAll s))

/-- A program completed (R196, R197): its block and rotation region count it. -/
def countProgram (n pkg chunk : Nat) (s : State) : State :=
  let b := chunk / 256
  let x := getBlk s n pkg b
  let w := satAdd x.wcount 1 0xFFFFFFFF
  let s1 := onBlk n pkg b (fun x => { x with
    wcount := w
    stamp := if x.held then x.stamp else dawnSec s % 2 ^ 24
    held := true
    st := if x.st = .fresh then .data else x.st
    save := x.save || decide (x.st = .fresh) || decide (w % 65536 = 0) }) s
  match slotOfPhys s n pkg b with
  | some (r, _) => onRot n pkg r (fun y => { y with progs := y.progs + 1 }) s1
  | none => s1

end Sys2Proof.Machine
end

