-- ==== Sys2Proof/Machine/MediaLoss.lean ====
section
/-!
DEFINITION. The loss of a DIMM channel (R178, R204, R217) and what an eFuse trip takes with it.
-/
namespace Sys2Proof.Machine

/-- Slots whose line lies on a lost sub-channel (R204): their lines become poisoned records, which go to the medium. -/
def loseSlots (t d : Nat) (s : State) : State :=
  (slotsUsed s t).foldl (fun s e =>
    let frame := e.1 / 16 % 2 ^ 32
    let j := e.1 % 16
    if subOf s t (slotF s t e.2 0) ≠ some d then s
    else
      let s1 := (List.range 4).foldl (fun s i =>
        if e.2.mask.getLsbD i then
          let k := 4 * j + i
          let s1 := onDram (fun x => { x with recs := Table.set {} x.recs (recKey t (slotF s t e.2 i)) (lostRec s t frame k) }) s
          match nvmPage s t frame with | some p => lostWord (64 * p + k) s1 | none => s1
        else s) s
      let (g, a, _, _) := nvmLoc s1 t frame (4 * j)
      let s2 := if e.2.destaging then setSlot t frame j (some { e.2 with redirty := true }) s1 else destage t g a s1
      raiseTile t .nlAbsLost d s2) s

/-- A DIMM channel leaves service (R178): its queues are discarded, DR_CH_LOST is raised, re-evaluation starts and DRAM_STOP is set. -/
def loseChannel (t c : Nat) (why : SubReason) (code : Nat) (s : State) : State :=
  let d := 16 * t + 2 * c
  if (getSub s d).st ≠ .service ∧ (getSub s (d + 1)).st ≠ .service then s
  else
    let out (x : SubCh) : SubCh := { x with st := .out, reason := why, wq := [], rq := [], back := [], rows := [], hits := [], rfm := [], trn := none }
    let s1 := onDimm t c (fun x => { x with dusk := .awake, abandon := false, leave := false }) (onSub (d + 1) out (onSub d out s))
    let s2 := onDram (fun x => { x with stop := setBit x.stop t true }) s1
    let s3 := reevaluate (tileSrc t .drChLost) (raiseTile t .drChLost (d + 65536 * code) s2)
    loseSlots t (d + 1) (loseSlots t d s3)

/-- E(08 + 2t + g) has tripped and does not recover (R148, R178). -/
def loseDimms (t g : Nat) (s : State) : State :=
  (List.range 4).foldl (fun s c => loseChannel t (4 * g + c) .efuse 4 s) s

end Sys2Proof.Machine
end

