-- ==== Sys2Proof/Machine/RegPath.lean ====
section
/-!
DEFINITION. Which register writes reach their register (R424, R429, R430).
-/
namespace Sys2Proof.Machine

/-- The RST_BLK_CTL bit of the block a tile register belongs to (R352, R422); none for the resets themselves and for device-wide registers. -/
def regBlock (k : RegKind) (i : Nat) : Option Nat :=
  match k with
  | .hpGangCfg => none
  | .hpPortSts => some (i % 8 / 4)
  | .haFillSts | .haDirCfg | .haDirSts | .haBiCfg | .ncWayCfg | .ncSts | .ncRangeBaseLo | .ncRangeBaseHi | .ncRangeLen | .ncRangeCtl | .ncRangeSts
  | .atpCfg | .qosTrk | .qosTileSts | .qosCbw => some 5
  | .drRefSts | .drTrnCtl | .drTrnPat | .drTrnSts | .drTrnLane | .drPhyAcc | .drScrubSts | .drChSts => some (2 + i % 16 / 8)
  | .nlWearCfg | .nlWearRetire | .nlWearSts | .nlDriftCfg | .nlAbsCfg | .nlAbsLvl | .nlAbsSts | .nlGroupSts | .nlTrainSts => some 4
  | .trCfg | .trFree | .trRate | .trReserve | .trSts | .trBudget => some 9
  | .jeSts => some 8
  | .pkCfg | .pkSts | .pkSpaceSel | .pkSpaceSts | .pkSpaceFree => some 7
  | .cryTwCfg | .crySts => some 6
  | _ => none

/-- A write reaches a register that takes it (R429, R430): the tile is there and reachable from `from_`, SV's link is up and T0, over which it is reached,
is not cut off (R428), and the block has not been put back into reset. -/
def regReachable (s : State) (from_ : Nat) (k : RegKind) (i : Nat) : Bool :=
  let sv := decide (0x04000000 ≤ regAddr k i) && decide (regAddr k i < 0x05000000)
  !(sv && (s.link.down || cutOff s from_ 0)) &&
  (match regTile k i with
   | some t => hasTile s t && tileRuns s t && !cutOff s from_ t &&
       (match regBlock k i with | some b => !(Table.get 0#10 s.clk.lost t).getLsbD b | none => true)
   | none => true)

/-- Where an agent's access enters: its head's tile, T0 for firmware. -/
def entryTile (a : Agent) : Nat := match a with | .head h _ => portTile h.val | .firmware => 0

/-- The agent's write reaches and changes this register, as far as its rights and its path go (R424, R429, R430). -/
def regOpen (s : State) (a : Agent) (k : RegKind) (i : Nat) : Bool := running s && hasRights s a && regReachable s (entryTile a) k i

end Sys2Proof.Machine
end

