-- ==== Sys2Proof/Machine/Dram.lean ====
section
/-!
DEFINITION. The DRAM commands outside data return and scrub (R148–R170, R178): refresh, RFM, the scheduler's limits, Dusk, sideband polls and
training helpers.
-/
namespace Sys2Proof.Machine

/-- Ranks of a sub-channel's DIMM (R149). -/
def ranksIn (s : State) (d : Nat) : Nat := match (getDimm s (d / 16) (dimmOf d)).spd with | some x => x.packageRanks * x.stack | none => 0

/-- POSTPONE_MAX as it acts (DR_REF_CFG). -/
def postponeMax (s : State) (t : Nat) : Nat := clampN 1 8 (regFld s .drRefCfg t 7 4)
/-- Same-bank refresh mode; 0b11 acts as 0b10 (R159). -/
def sameBank (s : State) (t : Nat) : Bool := decide (2 ≤ regFld s .drRefCfg t 1 0)

/-- The sub-channel runs and is awake, and no training helper holds it (R167). -/
def subAwake (s : State) (d : Nat) : Bool := subServes s d

/-- The ranks that an interval boundary concerns: all of them, or at the middle of an interval those whose interval is halved (R159). -/
def dueRanks (s : State) (d : Nat) (half : Bool) : List Nat :=
  (List.range (ranksIn s d)).filter (fun r => !half || (getSub s d).high.getLsbD r)

/-- REFRESH_INTERVAL (R159, R160, R166): D of every rank that the boundary concerns rises, not above POSTPONE_MAX; intervals in Dusk are not
counted. -/
def execRefreshInterval (d : SubId) (half : Bool) (s : State) : Host.Outcome State Fault Refusal :=
  if !subUp s d.val || inDusk s d.val then .next s
  else .next (onSub d.val (fun c => { c with
    debt := (dueRanks s d.val half).foldl (fun t r => Table.mod 0 t r (fun v => satAdd v 1 (postponeMax s (d.val / 16)))) c.debt }) s)

/-- A request is queued to a rank, and to a bank index of it when one is named (R161). -/
def queuedTo (s : State) (d rank : Nat) (bank : Option Nat) : Bool :=
  let c := getSub s d
  (c.rq ++ c.wq).any (fun q => let (rk, _, bk, _) := rowOf s (d / 16) q.f; rk = rank && (match bank with | some b => bk = b | none => true))

/-- Close the rows of a rank, or of one bank index of it. -/
def closeRows (rank : Nat) (bank : Option Nat) (rows : Table Nat) : Table Nat :=
  rows.filter (fun e => !(e.1 / 32 = rank && (match bank with | some b => e.1 % 4 = b | none => true)))

/-- A refresh of a rank, or of one bank index of it, takes the threshold off its banks' activation counts too, as JESD79-5 has it (R155; PRESUMED, log 122). -/
def lowerActs (rank : Nat) (bank : Option Nat) (c : SubCh) : SubCh :=
  { c with acts := Table.mapAll 0 (fun k n => if decide (k / 32 = rank) && (match bank with | some b => decide (k % 4 = b) | none => true) then n - c.raa else n) c.acts }

/-- One REFsb (R160): a complete set lowers D and clears the flags. -/
def refSb (rank bank : Nat) (c0 : SubCh) : SubCh :=
  let c := lowerActs rank (some bank) c0
  let f := setBit (Table.get 0#4 c.flags rank) bank true
  if f = 15#4 then { c with flags := Table.set 0#4 c.flags rank 0#4, debt := Table.mod 0 c.debt rank (· - 1), rows := closeRows rank (some bank) c.rows }
  else { c with flags := Table.set 0#4 c.flags rank f, rows := closeRows rank (some bank) c.rows }

/-- One REFab (R160, R162): in same-bank mode it counts as a complete set. -/
def refAb (rank : Nat) (c0 : SubCh) : SubCh :=
  let c := lowerActs rank none c0
  { c with flags := Table.set 0#4 c.flags rank 0#4, debt := Table.mod 0 c.debt rank (· - 1), rows := closeRows rank none c.rows }

/-- IDLE_REFRESH (R161): while D ≥ 1, into an idle bank index, the lowest such, or an idle rank. -/
def execIdleRefresh (d : SubId) (rank : RankId) (bank : Fin 4) (s : State) : Host.Outcome State Fault Refusal :=
  let c := getSub s d.val
  if !subAwake s d.val || decide (ranksIn s d.val ≤ rank.val) || decide (Table.get 0 c.debt rank.val = 0) then .next s
  else if sameBank s (d.val / 16) then
    let ok (b : Nat) : Bool := !(Table.get 0#4 c.flags rank.val).getLsbD b && !queuedTo s d.val rank.val (some b)
    .next (if ok bank.val && (List.range bank.val).all (fun b => !ok b) then onSub d.val (refSb rank.val bank.val) s else s)
  else .next (if queuedTo s d.val rank.val none then s else onSub d.val (refAb rank.val) s)

/-- REFRESH_DEADLINE (R162): the refresh is forced; with no flag set in same-bank mode one REFab is the fallback. -/
def execRefreshDeadline (d : SubId) (rank : RankId) (s : State) : Host.Outcome State Fault Refusal :=
  let c := getSub s d.val
  if !subAwake s d.val || decide (ranksIn s d.val ≤ rank.val) || decide (Table.get 0 c.debt rank.val < postponeMax s (d.val / 16)) then .next s
  else
    let fl := Table.get 0#4 c.flags rank.val
    let s1 := raiseBit .drRefSts d.val 9 (addCnt (subCnt d.val 5) 1 s)
    if sameBank s (d.val / 16) && fl ≠ 0#4 then
      .next (onSub d.val (fun c => (List.range 4).foldl (fun c b => if fl.getLsbD b then c else refSb rank.val b c) c) s1)
    else
      let s2 := if sameBank s (d.val / 16) then raiseBit .drRefSts d.val 8 s1 else s1
      .next (onSub d.val (refAb rank.val) s2)

/-- RFM_THRESHOLD (R155, R157): a bank whose count has reached the threshold gets its RFM ahead of its requests; while the sub-channel issues no
commands the RFM is owed. -/
def execRfmThreshold (d : SubId) (rank : RankId) (bg : Fin 8) (bank : Fin 4) (s : State) : Host.Outcome State Fault Refusal :=
  let k := bankKey rank.val bg.val bank.val
  if !subUp s d.val || !rfmDue s d.val k || decide (ranksIn s d.val ≤ rank.val) then .next s
  else if !subAwake s d.val then .next (onSub d.val (fun c => { c with rfm := if c.rfm.contains k then c.rfm else c.rfm ++ [k] }) s)
  else .next (rfmBank d.val k s)

/-- The oldest request of a queue goes before any other (R157 step 3). -/
def ageFirst : List DrReq → List DrReq
  | [] => []
  | r :: q => { r with first := true } :: q

/-- AGE_LIMIT (R157, R158): the oldest request that has waited longer than AGE_MAX is served next, turning the sub-channel if need be; a turn to
writes goes on to WQ_LOW. -/
def execAgeLimit (d : SubId) (read : Bool) (s : State) : Host.Outcome State Fault Refusal :=
  let c := getSub s d.val
  if !subAwake s d.val then .next s
  else if read then .next (if c.rq.isEmpty then s else onSub d.val (fun c => { c with rq := ageFirst c.rq, writing := false }) s)
  else .next (if c.wq.isEmpty then s
    else drainTo d.val (min (wqLow s (d.val / 16)) (c.wq.length - 1)) (onSub d.val (fun c => { c with wq := ageFirst c.wq }) s))

/-- MR4_READ (R159): the interval is halved for a rank that asks for it; beyond the operating range DR_OVERTEMP is raised and refresh goes on at
the halved interval. -/
def execMr4Read (d : SubId) (rank : RankId) (twice beyond : Bool) (s : State) : Host.Outcome State Fault Refusal :=
  if !subAwake s d.val || decide (ranksIn s d.val ≤ rank.val) then .next s
  else
    let s1 := onSub d.val (fun c => { c with high := setBit c.high rank.val (twice || beyond) }) s
    .next (if beyond then raiseTile (d.val / 16) .drOvertemp (d.val + 65536 * rank.val) s1 else s1)

/-- A line whose record lies on either sub-channel of a channel: of its DRAM frame, or of its absorption slot (R164, R201); of a line of a MOVING page that
has been copied, at the destination (R220). -/
def lineOnChannel (s : State) (t c line : Nat) : Bool :=
  let f : Option Nat := match lineAt s line with
    | some (false, frame) => some (64 * frame + line % 64)
    | some (true, frame) => (slotHas s t frame (line % 64)).map (fun a => slotF s t a (line % 64))
    | none => none
  decide (homeOf s line = t) && (match f.bind (subOf s t) with | some d => decide (dimmOf d = c) | none => false)

/-- A request for a line placed on either sub-channel of a channel is held in a tracker of the tile (R164): a home's open transaction, a request that
waits for its line or for a way, or a requester's tracker. -/
def channelBusy (s : State) (t c : Nat) : Bool :=
  let on := lineOnChannel s t c
  s.ha.txns.any (fun e => e.2.live && on e.1) || s.ha.lq.any (fun e => !e.2.isEmpty && on e.1) ||
  s.ha.allocQ.any (fun e => e.2.any (fun m => on m.line)) ||
  s.nc.trks.any (fun e => e.2.live && decide (e.1 / 2 ^ 42 = t) && on (e.1 % 2 ^ 42))

/-- tRFC of an all-bank refresh in the mode (R159, R165), in ns. -/
def tRfcAb (s : State) (d : Nat) : Nat := if regFld s .drRefCfg (d / 16) 1 0 = 0 then (getSub s d).timing.tRfc1 else (getSub s d).timing.tRfc2

/-- How long step 2 of Dusk entry takes, in ns: the ranks of the channel are paid in parallel (R165). -/
def payTime (s : State) (t c : Nat) : Nat :=
  let per (d : Nat) : Nat := ((getSub s d).debt.foldl (fun a e => max a e.2) 0) * tRfcAb s d
  max (per (16 * t + 2 * c)) (per (16 * t + 2 * c + 1))

/-- An RFM is owed on the sub-channel (R155, R164). -/
def rfmOwed (s : State) (d : Nat) : Bool := !(getSub s d).rfm.isEmpty || (getSub s d).acts.any (fun e => rfmDue s d e.1)

/-- DUSK_IDLE (R164, R165): both sub-channels idle for IDLE_US, nothing held for them and no RFM owed: entry starts. -/
def execDuskIdle (t : TileId) (c : DimmId) (s : State) : Host.Outcome State Fault Refusal :=
  let d := 16 * t.val + 2 * c.val
  let idle (i : Nat) : Bool := subUp s i && (getSub s i).wq.isEmpty && (getSub s i).rq.isEmpty && (getSub s i).trn.isNone && !rfmOwed s i
  if tileRuns s t.val && bit (regRaw s .drDuskCfg t.val) 0 && !s.qos.duskOff && idle d && idle (d + 1) &&
      (getDimm s t.val c.val).dusk = .awake && !channelBusy s t.val c.val then
    .next (onDimm t.val c.val (fun x => { x with dusk := .entering, abandon := false, leave := false, since := s.time.now, pay := payTime s t.val c.val }) s)
  else .next s

/-- Every rank's debt is paid by REFab, which closes its rows, and its flags clear (R165, R166). -/
def payDebt (t c : Nat) (s : State) : State :=
  let f (x : SubCh) : SubCh := { x.debt.foldl (fun x e => (List.range e.2).foldl (fun x _ => refAb e.1 x) x) x with debt := [], flags := [] }
  onSub (16 * t + 2 * c + 1) f (onSub (16 * t + 2 * c) f s)

/-- DUSK_ENTRY_DONE (R165): the channel is in Dusk, unless a request abandoned the entry before step 3; where one came later, exit starts at once. -/
def execDuskEntryDone (t : TileId) (c : DimmId) (s : State) : Host.Outcome State Fault Refusal :=
  let x := getDimm s t.val c.val
  if x.dusk ≠ .entering then .next s
  else
    let s1 := payDebt t.val c.val s
    let d := 16 * t.val + 2 * c.val
    if x.abandon then .next (turn (d + 1) (issueHeld (d + 1) (turn d (issueHeld d (onDimm t.val c.val (fun y => { y with dusk := .awake, abandon := false }) s1)))))
    else
      let close (y : SubCh) : SubCh := { y with rows := [] }
      .next (raiseBit .drDuskSts t.val (8 + c.val) (onSub (d + 1) close (onSub d close
        (onDimm t.val c.val (fun y => { y with dusk := if x.leave then .waking else .asleep, leave := false }) s1))))

/-- DUSK_EXIT_DONE (R166, R173): D is 0 and the flags clear; requests held are issued, and scrub catches up. -/
def execDuskExitDone (t : TileId) (c : DimmId) (s : State) : Host.Outcome State Fault Refusal :=
  if (getDimm s t.val c.val).dusk ≠ .waking then .next s
  else
    let d := 16 * t.val + 2 * c.val
    let s1 := payDebt t.val c.val (onDimm t.val c.val (fun y => { y with dusk := .awake }) s)
    let up (i : Nat) (s : State) : State :=
      let x := getSub s i
      turn i (issueHeld i (x.rfm.foldl (fun s k => rfmBank i k s) (onSub i (fun y => { y with behind := decide (0 < y.lag) }) s)))
    .next (up (d + 1) (up d s1))

/-- Lines of a sub-channel (R172): half its DIMM's capacity. -/
def subLines (s : State) (d : Nat) : Nat := match (getDimm s (d / 16) (dimmOf d)).spd with | some x => x.gib * 2 ^ 23 | none => 0

/-- SCRUB_CATCH_UP_WAKE (R173): more than half a period behind schedule. -/
def execScrubCatchUpWake (t : TileId) (c : DimmId) (s : State) : Host.Outcome State Fault Refusal :=
  let d := 16 * t.val + 2 * c.val
  let late (i : Nat) : Bool := decide (subLines s i < 2 * (getSub s i).lag)
  .next (if (getDimm s t.val c.val).dusk = .asleep && (late d || late (d + 1)) then wake d s else s)

/-- PMIC_POLL (R151, R178): the sideband bus polls the PMIC once the run lock is set. -/
def execPmicPoll (t : TileId) (c : DimmId) (faulty : Bool) (s : State) : Host.Outcome State Fault Refusal :=
  .next (if faulty && s.dawn.runLock && (getDimm s t.val c.val).pmic then loseChannel t.val c.val .pmic 5 s else s)

/-- PHY_LOCK_LOST (R178). -/
def execPhyLockLost (t : TileId) (c : DimmId) (s : State) : Host.Outcome State Fault Refusal :=
  .next (if subUp s (16 * t.val + 2 * c.val) then onDimm t.val c.val (fun x => { x with unlocked := true }) s else s)

/-- PHY_LOCK_TIMEOUT (R178): lock not regained within 10 µs. -/
def execPhyLockTimeout (t : TileId) (c : DimmId) (s : State) : Host.Outcome State Fault Refusal :=
  .next (if (getDimm s t.val c.val).unlocked then loseChannel t.val c.val .phy 6 (onDimm t.val c.val (fun x => { x with unlocked := false }) s) else s)

/-- The operation of an OP field (DR_TRN_CTL); reserved values act as 0b001. -/
def trnOp (v : Nat) : TrnOp :=
  if v = 0 then .writeRead else if v = 2 then .write else if v = 3 then .pattern else if v = 4 then .level else .read

/-- A write to DR_TRN_CTL[d] (R167): discarded after the run lock; START starts a run of OP, and has no effect while a helper runs. -/
def writeTrnCtl (d : Nat) (v : W32) (s : State) : State :=
  if locked s then s
  else
    let s1 := writeReg .drTrnCtl d v (wake d s)
    if bit v 31 && (getSub s d).trn.isNone then onSub d (fun c => { c with trn := some (trnOp (fld v 30 28)) }) s1 else s1

/-- The register word of a start command: START, its OP, and the other fields of `v`. -/
def trnWord (op : Nat) (v : W32) : W32 := merge32 0xF0000000#32 (BitVec.ofNat 32 (0x80000000 + op * 0x10000000)) v

/-- A training command by an agent with rights on a tile of the member (R424). -/
def startTraining (a : Agent) (d op : Nat) (v : W32) (s : State) : State :=
  if regOpen s a .drTrnCtl d then writeTrnCtl d (trnWord op v) s else s

/-- WRITE_READ_COMPARE (R167, DR_TRN_CTL OP 0b000). -/
def execWriteReadCompare (a : Agent) (d : SubId) (v : W32) (s : State) : Host.Outcome State Fault Refusal := .next (startTraining a d.val 0 v s)
/-- READ_COMPARE (OP 0b001). -/
def execReadCompare (a : Agent) (d : SubId) (v : W32) (s : State) : Host.Outcome State Fault Refusal := .next (startTraining a d.val 1 v s)
/-- WRITE_ONLY (OP 0b010). -/
def execWriteOnly (a : Agent) (d : SubId) (v : W32) (s : State) : Host.Outcome State Fault Refusal := .next (startTraining a d.val 2 v s)
/-- READ_TRAINING_PATTERN (OP 0b011). -/
def execReadTrainingPattern (a : Agent) (d : SubId) (v : W32) (s : State) : Host.Outcome State Fault Refusal := .next (startTraining a d.val 3 v s)
/-- WRITE_LEVELING_SAMPLE (OP 0b100). -/
def execWriteLevelingSample (a : Agent) (d : SubId) (v : W32) (s : State) : Host.Outcome State Fault Refusal := .next (startTraining a d.val 4 v s)

/-- TRAINING_RUN_DONE (R167, DR_TRN_STS). A write-only run leaves ERRCNT and the lane bits, and write leveling leaves ERRCNT, as they were (DESIGN CHOICE, log 157). -/
def execTrainingRunDone (d : SubId) (errs : Nat) (lanes : BitVec 40) (s : State) : Host.Outcome State Fault Refusal :=
  match (getSub s d.val).trn with
  | none => .next s
  | some op =>
    let e := if op = .level ∨ op = .write then (getSub s d.val).errs else min errs 65535
    .next (turn d.val (raiseBit .drTrnSts d.val 31 (onSub d.val (fun c => { c with trn := none, errs := e, lanes := if op = .write then c.lanes else lanes }) s)))

/-- Key of a PHY setting: KIND, LANE and RANK; CA and CS delay ignores the lane (DR_PHY_ACC). -/
def phyKey (v : W32) : Nat := 1024 * fld v 30 28 + (if fld v 30 28 = 5 then 0 else 16 * fld v 27 22) + fld v 19 16

/-- A write to DR_PHY_ACC[d] (R167): selects a setting and, with SET, gives it VALUE; reserved kinds have no effect. -/
def writePhyAcc (d : Nat) (v : W32) (s : State) : State :=
  if locked s || decide (6 ≤ fld v 30 28) then s
  else
    let s1 := setReg .drPhyAcc d (v &&& 0x7FCF0000#32) (wake d s)
    if bit v 31 then onSub d (fun c => { c with phy := Table.set 0#10 c.phy (phyKey v) (BitVec.ofNat 10 (fld v 9 0)) }) s1 else s1

/-- DR_PHY_ACC_WRITE (R167). -/
def execDrPhyAccWrite (a : Agent) (d : SubId) (v : W32) (s : State) : Host.Outcome State Fault Refusal :=
  .next (if regOpen s a .drPhyAcc d.val then writePhyAcc d.val v s else s)

/-- CLOSE_IDLE_PRECHARGE (R157 step 7). -/
def execCloseIdlePrecharge (d : SubId) (rank : RankId) (bg : Fin 8) (bank : Fin 4) (s : State) : Host.Outcome State Fault Refusal :=
  .next (if subAwake s d.val then onSub d.val (fun c => { c with rows := Table.drop c.rows (bankKey rank.val bg.val bank.val) }) s else s)

end Sys2Proof.Machine
end

