-- ==== Sys2Proof/Machine/NvmCmd.lean ====
section
/-!
DEFINITION. The N-link and NVM commands (R187–R209, R224): training, responses, gap moves, retirement, saves, destage, drift refresh, rebuild.
-/
namespace Sys2Proof.Machine

/-- A retrained link's state: what it was before (R191). -/
def backState (s : State) (n : Nat) : NlState :=
  let l := getLink s n
  if l.pos = 15 then .spare
  else match (getGrp s (n / 40) l.grp).rebuild with
    | some (_, sp) => if sp = n then .rebuilding else .active
    | none => .active

/-- NLINK_RETRAIN_DONE (R191, R192): the link resumes with replay; a failed retrain, or the third within 1 s, takes it out of service. -/
def execNlinkRetrainDone (n : LinkId) (ok : Bool) (s : State) : Host.Outcome State Fault Refusal :=
  let l := getLink s n.val
  if l.st ≠ .retraining then .next s
  else if !ok || (decide (l.retrainAt.length = 3) && decide (s.time.now - l.retrainAt.getLastD 0 < 1000000)) then .next (nlDown n.val .retry 2 s)
  else .next (onNl n.val (fun l => nlPump 33 { l with replays := 0 }) (nlReplay n.val (onNl n.val (fun l => { l with st := backState s n.val }) s)))

/-- Packages that step 5 of a link's training will report. -/
def foundOn (found : List (LinkId × Fin 3)) (n : Nat) : Nat := match found.find? (fun e => decide (e.1.val = n)) with | some e => e.2.val | none => 0

/-- ST goes to each package of a link (R187 step 6). -/
def askStatus (n pkgs : Nat) (s : State) : State :=
  (List.range pkgs).foldl (fun s p => nlSubmit n { opc := 5, pkg := p, chunk := 0, use := .status } s) s

/-- NLINK_TRAINING_START (R187): once SV reports the NVM rails good, worker firmware trains every populated link; ST goes to the packages that step 5
reports (log 27). -/
def execNlinkTrainingStart (t : TileId) (found : List (LinkId × Fin 3)) (s : State) : Host.Outcome State Fault Refusal :=
  if !firmwareRuns s t.val || midnight s || !s.sv.nvmRails.getLsbD t.val || !blockUp s t.val 4 || decide (s.dawn.stage ≠ 4) || s.dawn.recovery then .next s
  else .next ((List.range 40).foldl (fun s l =>
    let n := 40 * t.val + l
    if (getLink s n).st = .absent && decide (0 < foundOn found n) then
      askStatus n (foundOn found n) (onNl n (fun x => { x with st := .training, found := foundOn found n }) s)
    else s) s)

/-- PKGS of a link that has passed step 5 (R187). -/
def pkgsSeen (l : NLink) : NLink := { l with pkgs := l.found }

/-- NLINK_TRAIN_STEP_TIMEOUT (R187, R188): the link has missed the limit of a step; past step 5 PKGS is set. -/
def execNlinkTrainStepTimeout (n : LinkId) (step : Fin 8) (s : State) : Host.Outcome State Fault Refusal :=
  if (getLink s n.val).st ≠ .training then .next s
  else .next (raiseTile (n.val / 40) .nlTrainFail n.val
    (onNl n.val (fun l => { (if 5 < step.val then pkgsSeen l else l) with
      st := .out, reason := .training, reqs := [], wait := [], replay := [], txq := [], rx := [], inbox := [] }) s))

/-- A block entry as Dawn loads it (R197): STAMP and the states 0b00 and 0b01 restart. -/
def loadBlk (b : Blk) : Blk :=
  match b.st with
  | .fresh | .data => { wcount := satAdd b.wcount 65536 0xFFFFFFFF }
  | .retired => { wcount := b.wcount, st := .retired }
  | .worn => { wcount := b.wcount, st := .worn }

/-- What the metadata areas of a link's packages hold, as Dawn loads it (R195, R197). -/
def loadSaved (n : Nat) (s : State) : State :=
  onNvm (fun x => { x with
    blks := x.savedBlks.foldl (fun t e => if e.1 / 2 ^ 23 / 2 = n then Table.set {} t e.1 (loadBlk e.2) else t) x.blks
    rots := x.savedRots.foldl (fun t e => if e.1 / 1024 / 2 = n then Table.set {} t e.1 { e.2 with progs := 0, moves := 0 } else t) x.rots }) s

/-- A slot whose loaded entry names a retired block takes the package's next spare: a retired block is never used again (R198), and the saved map may
be older than the retirement (R196; log 160). -/
def skipRetired (n pkg b : Nat) (s : State) : State :=
  let used := Table.get 0 s.nvm.sparesUsed (pkgKey n pkg)
  match slotOfPhys s n pkg b with
  | some (r, sl) =>
    if 65536 ≤ used then s
    else onRot n pkg r (fun y => { y with slots := Table.set none y.slots sl (some ((slotEnt y r sl).1, 1024 * 4097 + used)) })
      (onNvm (fun x => { x with sparesUsed := Table.set 0 x.sparesUsed (pkgKey n pkg) (used + 1) }) s)
  | none => s

/-- Load the saved wear state and maps of a link's packages (R195, R197). A block entry never saved has WCOUNT 0 (log 158). -/
def loadWear (n : Nat) (s : State) : State :=
  let s1 := loadSaved n s
  s1.nvm.blks.foldl (fun s e =>
    if e.1 / 2 ^ 23 / 2 = n ∧ e.2.st = .retired then skipRetired n (e.1 / 2 ^ 23 % 2) (e.1 % 2 ^ 23) s else s) s1

/-- Every package of the link has been identified, and its saved state read (R187 steps 6 and 7). -/
def packagesKnown (s : State) (n : Nat) : Bool :=
  (List.range (getLink s n).found).all (fun p => s.nvm.known.contains (pkgKey n p)) &&
  !(getLink s n).reqs.any (fun e => match e.2 with | some q => decide (q.use = .status ∨ q.use = .metaRd) | none => false) &&
  !(getLink s n).wait.any (fun q => decide (q.use = .status ∨ q.use = .metaRd))

/-- NLINK_TRAINING_DONE (R179, R187): the packages known and their state loaded, the link becomes active at its place, or an idle spare. -/
def execNlinkTrainingDone (n : LinkId) (s : State) : Host.Outcome State Fault Refusal :=
  let l := n.val % 40
  if (getLink s n.val).st ≠ .training || !packagesKnown s n.val then .next s
  else
    let s1 := onNl n.val (fun x => { x with
      st := if l < 36 then .active else .spare
      pkgs := x.found
      pos := if l < 36 then l % 9 else 15
      grp := if l < 36 then l / 9 else 0 }) s
    .next (loadWear n.val s1)

/-- What STATUS calls for (R190): 0x02 is a fatal fault, 0x03 and above a package fault, as is 0x01 where no program is answered (log 25).
Answers whether the response stands. -/
def statusOk (n : Nat) (m : NMsg) (prog : Bool) (s : State) : Bool × State :=
  if m.status = 0 ∨ (m.status = 1 ∧ prog) then (true, s)
  else if m.status = 2 then (false, raiseTile (n / 40) .nlProto (n + 65536 * 2) s)
  else (false, nlDown n .package 3 s)

/-- A response of an opcode, with the command it answers. -/
def takeRsp (n opc : Nat) (s : State) : Option (NMsg × NReq × State) :=
  match takeMsg n opc s with
  | none => none
  | some (m, s1) =>
    let (q, s2) := takeReq n m.tag s1
    q.map (fun q => (m, q, s2))

/-- A chunk read, as the outer code decodes it (R193, R199, R206): counted and used, and marked for refresh above the limit; or reconstructed. -/
def chunkRead (n : Nat) (q : NReq) (m : NMsg) (d : Option (Bytes × Nat)) (s : State) : State :=
  match d with
  | some (b, k) => deliver q n (n / 40) b (if refreshCe s (n / 40) < k then markDue n q.pkg (q.chunk / 256) (countBits n k s) else countBits n k s)
  | none => reconFor n q (some m.body) true s

/-- A drift refresh's chunk is done: its locks go, and what waited for them goes on; with the last chunk STAMP becomes the time the refresh began
(R200). -/
def refreshDone (n : Nat) (off : Nat) (s : State) : State :=
  let t := n / 40
  match getRefresh s t with
  | none => s
  | some r =>
    let ls := match r.busy with | some (_, ls) => ls | none => []
    let s1 := unlockLines ls s
    let todo := r.todo.erase off
    pumpLocks <| if todo.isEmpty then
      onBlk r.link r.pkg r.block (fun b => { b with stamp := r.began % 2 ^ 24, due := false }) (setRefresh t none s1)
    else setRefresh t (some { r with todo := todo, busy := none }) s1

/-- What a program's completion moves on (R196, R200, R203, R208). -/
def programDone (n : Nat) (q : NReq) (s : State) : State :=
  match q.use with
  | .work w pos =>
    (match getWork s w with
    | some k =>
      if k.kind = .rebuild then
        destageFull k.tile k.grp k.stripe (onNvm (fun x => { x with grps := Table.mod {} x.grps (4 * k.tile + k.grp) (fun g =>
          { g with rebuild := g.rebuild.map (fun r => if r.2 = n then (k.stripe + 1, r.2) else r) }) }) (setWork w none s))
      else setWork w (some { k with live := k.live.erase pos }) s
    | none => s)
  | .copy w off =>
    (match getOp s w with
    | some o => nextCopy w (setOp w (some { o with todo := o.todo.erase off, first := some (o.first.getD (dawnSec s)) }) s)
    | none => s)
  | .refresh off => refreshDone n off s
  | _ => s

/-- PGC (R190, R197, R198): success is counted; a first verify failure is retried, and a second retires the block. -/
def execPgc (n : LinkId) (s : State) : Host.Outcome State Fault Refusal :=
  match takeRsp n.val 0x22 s with
  | none => .next s
  | some (m, q, s1) =>
    let (ok, s2) := statusOk n.val m true s1
    if !ok then .next (if m.status = 2 then s2 else programDone n.val q s2)
    else if m.status = 1 then
      if q.fails = 0 then .next (nlSubmit n.val { q with fails := 1 } s2)
      else .next (programDone n.val q (startRetire n.val q.pkg (q.chunk / 256) (some (q.chunk % 256, q.body)) s2))
    else .next (programDone n.val q (countProgram n.val q.pkg q.chunk s2))

/-- MRDD (R187, R190): saved state read from the metadata area; what it says is what the model keeps saved (log 26). -/
def execMrdd (n : LinkId) (s : State) : Host.Outcome State Fault Refusal :=
  match takeRsp n.val 0x23 s with
  | none => .next s
  | some (m, _, s1) => .next (statusOk n.val m false s1).2

/-- MPGC (R190, R196, R197): a save is in the metadata area; a verify failure is retried. -/
def execMpgc (n : LinkId) (s : State) : Host.Outcome State Fault Refusal :=
  match takeRsp n.val 0x24 s with
  | none => .next s
  | some (m, q, s1) =>
    let (ok, s2) := statusOk n.val m true s1
    if !ok then .next s2
    else if m.status = 1 ∧ q.fails = 0 then .next (nlSubmit n.val { q with fails := 1 } s2)
    else match q.use with
      | .metaRot r x => .next (onNvm (fun y => { y with savedRots := Table.set {} y.savedRots (pkgKey n.val q.pkg * 1024 + r) x }) s2)
      | .metaBlk b x => .next (onNvm (fun y => { y with savedBlks := Table.set {} y.savedBlks (pkgKey n.val q.pkg * 2 ^ 23 + b) { x with due := false, save := false } }) s2)
      | _ => .next s2

/-- STR (R187 step 6, R190): identity, geometry and revision are checked; an unsupported package leaves its link out of service, and a
supported one's saved state is asked for. -/
def execStr (n : LinkId) (s : State) : Host.Outcome State Fault Refusal :=
  match takeRsp n.val 0x25 s with
  | none => .next s
  | some (m, q, s1) =>
    let (ok, s2) := statusOk n.val m false (if (getLink s1 n.val).st = .training then onNl n.val pkgsSeen s1 else s1)
    if !ok || (getLink s2 n.val).st ≠ .training then .next s2
    else if leAt m.body 8 8 = 4261504 * 256 ∧ Config.supportedPackage (leAt m.body 0 4) (leAt m.body 4 4) = true then
      let fr := takeFree (onNvm (fun x => { x with known := x.known ++ [pkgKey n.val q.pkg] }) s2)
      .next (nlSubmit n.val { opc := 3, pkg := q.pkg, chunk := Config.metaIndex fr.1, use := .metaRd } fr.2)
    else .next (raiseTile (n.val / 40) .nlTrainFail n.val (onNl n.val (fun l => { l with st := .out, reason := .unsupported, reqs := [], wait := [] }) s2))

/-- GAP_INTERVAL as it acts (NL_WEAR_CFG). -/
def gapInterval (s : State) (t : Nat) : Nat := max 256 (regFld s .nlWearCfg t 15 0)

/-- The link runs and may take commands. -/
def linkServes (s : State) (n : Nat) : Bool := decide ((getLink s n).st = .active) || decide ((getLink s n).st = .rebuilding)

/-- GAP_MOVE (R196): after GAP_INTERVAL programs the region moves its gap, under the block lock. -/
def execGapMove (n : LinkId) (pkg : Fin 2) (region : Fin 1024) (s : State) : Host.Outcome State Fault Refusal :=
  let x := getRot s n.val pkg.val region.val
  let iv := gapInterval s (n.val / 40)
  if !linkServes s n.val || x.progs < iv then .next s
  else
    let src := if x.gap = 0 then 4096 else x.gap - 1
    let dst := if x.gap = 0 then 0 else x.gap
    let ps := (slotEnt x region.val src).2
    let pd := (slotEnt x region.val dst).2
    if blkLocked s n.val pkg.val ps || blkLocked s n.val pkg.val pd || blkRefreshing s n.val pkg.val ps then .next s
    else
      let (w, s1) := newId (onRot n.val pkg.val region.val (fun y => { y with progs := y.progs - iv }) s)
      .next (nextCopy w (setOp w (some ⟨n.val, pkg.val, false, region.val, src, dst, ps, pd, 1, copyList (getBlk s n.val pkg.val ps) none, none, false, none⟩) s1))

/-- The finished block operation of a package that satisfies `p`. -/
def finishedOp (s : State) (n pkg : Nat) (p : BlkOp → Bool) : Option (Nat × BlkOp) :=
  s.nvm.ops.findSome? (fun e => e.2.bind (fun o => if o.link = n ∧ o.pkg = pkg ∧ o.finished ∧ p o then some (e.1, o) else none))

/-- The destination of a block copy: its data was programmed from the copy's first program on (R197). -/
def copyDone (n pkg : Nat) (o : BlkOp) (b : Blk) (s : State) : State :=
  match o.first with
  | some at_ => onBlk n pkg o.dst (fun y => { y with stamp := at_ % 2 ^ 24, due := b.due }) s
  | none => s

/-- GAP_MOVE_DONE (R196): GAP, START and the slot entry change together. The source becomes the gap; its STATE stays, as it has been programmed since
Dawn (R197). -/
def execGapMoveDone (n : LinkId) (pkg : Fin 2) (region : Fin 1024) (s : State) : Host.Outcome State Fault Refusal :=
  match finishedOp s n.val pkg.val (fun o => !o.retire && o.region = region.val) with
  | none => .next s
  | some (w, o) =>
    let x := getRot s n.val pkg.val region.val
    let e := slotEnt x region.val o.slot
    let b := getBlk s n.val pkg.val o.src
    let s1 := onRot n.val pkg.val region.val (fun y => { y with
      slots := Table.set none y.slots o.dstSlot (some ((e.1 + 1) % 256, o.dst))
      gap := if y.gap = 0 then 4096 else y.gap - 1
      start := if y.gap = 0 then (y.start + 1) % 4096 else y.start
      moves := y.moves + 1 }) (setOp w none s)
    .next (pumpLocks (onBlk n.val pkg.val o.src (fun y => { y with due := false }) (copyDone n.val pkg.val o b s1)))

/-- MAP_STATE_SAVE (R196): after every 64 moves. -/
def execMapStateSave (n : LinkId) (pkg : Fin 2) (region : Fin 1024) (s : State) : Host.Outcome State Fault Refusal :=
  let x := getRot s n.val pkg.val region.val
  if !linkServes s n.val || x.moves < 64 then .next s
  else
    let fr := takeFree (onRot n.val pkg.val region.val (fun y => { y with moves := 0 }) s)
    .next (nlSubmit n.val { opc := 4, pkg := pkg.val, chunk := Config.metaIndex fr.1, use := .metaRot region.val x, body := Config.metaBytes fr.1 } fr.2)

/-- RETIRE as it acts (NL_WEAR_RETIRE). -/
def retireAt (s : State) (t : Nat) : Nat := clampN 100000000 0xFFFF0000 (regFld s .nlWearRetire t 31 0)

/-- BLOCK_RETIRE (R198): WCOUNT has reached RETIRE. -/
def execBlockRetire (n : LinkId) (pkg : Fin 2) (block : BitVec 23) (s : State) : Host.Outcome State Fault Refusal :=
  let b := getBlk s n.val pkg.val block.toNat
  .next (if linkServes s n.val && (b.st = .data || b.st = .fresh) && decide (retireAt s (n.val / 40) ≤ b.wcount)
    then startRetire n.val pkg.val block.toNat none s else s)

/-- BLOCK_RETIRE_DONE (R198): the slot entry points at the spare and the old block is retired. -/
def execBlockRetireDone (n : LinkId) (pkg : Fin 2) (block : BitVec 23) (s : State) : Host.Outcome State Fault Refusal :=
  match finishedOp s n.val pkg.val (fun o => o.retire && o.src = block.toNat) with
  | none => .next s
  | some (w, o) =>
    let x := getRot s n.val pkg.val o.region
    let b := getBlk s n.val pkg.val o.src
    let s1 := onRot n.val pkg.val o.region (fun y => { y with slots := Table.set none y.slots o.slot (some ((slotEnt x o.region o.slot).1, o.dst)) }) (setOp w none s)
    .next (pumpLocks (onBlk n.val pkg.val o.src (fun y => { y with st := .retired, due := false, save := true }) (copyDone n.val pkg.val o b s1)))

/-- WEAR_STATE_SAVE (R197). -/
def execWearStateSave (n : LinkId) (pkg : Fin 2) (block : BitVec 23) (s : State) : Host.Outcome State Fault Refusal :=
  let b := getBlk s n.val pkg.val block.toNat
  if !linkServes s n.val || !b.save then .next s
  else
    let fr := takeFree (onBlk n.val pkg.val block.toNat (fun y => { y with save := false }) s)
    .next (nlSubmit n.val { opc := 4, pkg := pkg.val, chunk := Config.metaIndex fr.1, use := .metaBlk block.toNat b, body := Config.metaBytes fr.1 } fr.2)

/-- The stripe of a slot, by its key: group and stripe. -/
def stripeOfSlot (s : State) (t key : Nat) : Nat × Nat :=
  let (g, a, _, _) := nvmLoc s t (key / 16 % 2 ^ 32) (4 * (key % 16))
  (g, a)

/-- Slots not being destaged, oldest first. -/
def idleSlots (s : State) (t : Nat) : List (Nat × ASlot) :=
  (slotsUsed s t).filter (fun e => !e.2.destaging) |>.foldl (fun (l : List (Nat × ASlot)) e =>
    l.takeWhile (fun x => x.2.at_ ≤ e.2.at_) ++ [e] ++ l.dropWhile (fun x => x.2.at_ ≤ e.2.at_)) []

/-- Destage the oldest slots whose stripe lock is free until at most `n` are left. -/
def destageUntil (t n : Nat) : Nat → State → State
  | 0, s => s
  | k + 1, s =>
    let idle := idleSlots s t
    if idle.length ≤ n then s
    else match idle.find? (fun e => let (g, a) := stripeOfSlot s t e.1; !stripeLocked s t g a) with
      | none => s
      | some e => let (g, a) := stripeOfSlot s t e.1; destageUntil t n k (destage t g a s)

/-- LOW as it acts, in slots (NL_ABS_LVL). -/
def absLow (s : State) (t : Nat) : Nat :=
  let hi := clampN 1 100 (regFld s .nlAbsLvl t 15 8)
  let lo := regFld s .nlAbsLvl t 7 0
  (if lo < hi then lo else hi - 1) * slotLimit s t / 100

/-- DESTAGE_HIGH_WATER (R202): the oldest slots are destaged until the count falls to LOW; slots whose stripe is locked keep it going. -/
def execDestageHighWater (t : TileId) (s : State) : Host.Outcome State Fault Refusal :=
  if !s.nvm.draining.getLsbD t.val then .next s
  else
    let s1 := destageUntil t.val (absLow s t.val) (idleSlots s t.val).length s
    .next (onNvm (fun x => { x with draining := setBit x.draining t.val (decide (absLow s1 t.val < (idleSlots s1 t.val).length)) }) s1)

/-- DESTAGE_MAX_AGE (R202): every slot older than MAX_AGE is destaged. -/
def execDestageMaxAge (t : TileId) (s : State) : Host.Outcome State Fault Refusal :=
  let ms := max 1 (regFld s .nlAbsCfg t.val 31 17)
  .next ((idleSlots s t.val).foldl (fun s e =>
    if ms * 1000 ≤ s.time.now - e.2.at_ then (let (g, a) := stripeOfSlot s t.val e.1; destage t.val g a s) else s) s)

/-- What has been read, or asked for, of the chunks that a destage programmed is asked for again: it may hold the old content (R219). -/
def rereadChunks (t frame : Nat) (js : List Nat) (s : State) : State :=
  let hit (f i : Nat) : Bool := decide (f = frame) && js.contains (i / 4)
  let old := s.nvm.arrived.filterMap (fun e =>
    if e.2.isSome && decide (e.1 / 64 / 2 ^ 32 % 8 = t) && hit (e.1 / 64 % 2 ^ 32) (e.1 % 64) then some (e.1 / 64 / 2 ^ 32 / 8, e.1 % 64) else none)
  let s1 := old.foldl (fun s e => onNvm (fun x => { x with arrived := Table.set none x.arrived (arrKey e.1 t frame e.2) none }) s) s
  let again (q : NReq) : Bool := match q.use with | .data _ f i => hit f i | _ => false
  let asked := (List.range 40).flatMap (fun l => (getLink s (40 * t + l)).reqs.filterMap (fun e => e.2.bind (fun q => if again q then some q else none)))
  let s2 := (List.range 40).foldl (fun s l => onNl (40 * t + l) (fun k => { k with
    reqs := k.reqs.map (fun e => match e.2 with | some q => (e.1, some (if again q then { q with use := .repair } else q)) | none => e) }) s) s1
  let s3 := asked.foldl (fun s q => match q.use with | .data kind f i => nvmAsk kind t f i q.prio s | _ => s) s2
  old.foldl (fun s e => nvmAsk e.1 t frame e.2 (walkerPrio s) s) s3

/-- DESTAGE_DONE (R203, R204): every program of the stripe has completed; its slots are freed, but for those written meanwhile. -/
def execDestageDone (t : TileId) (group : Fin 4) (stripe : BitVec 31) (s : State) : Host.Outcome State Fault Refusal :=
  let g := (ranksOf s t.val).getD group.val 4
  match s.nvm.works.findSome? (fun e => e.2.bind (fun k =>
      if k.kind = .destage ∧ k.tile = t.val ∧ k.grp = g ∧ k.stripe = stripe.toNat ∧ k.merged ∧ k.todo.isEmpty ∧ k.live.isEmpty then some (e.1, k) else none)) with
  | none => .next s
  | some (w, k) =>
    let frame := frameOf s t.val g k.stripe
    let js := (destageSet s t.val g k.stripe).map (k.stripe % 2 * 8 + ·)
    .next (destageFull t.val g k.stripe <| rereadChunks t.val frame js <| (List.range 8).foldl (fun s i =>
      let j := k.stripe % 2 * 8 + i
      match getSlot s t.val frame j with
      | some a => if !a.destaging then s
          else if a.redirty then setSlot t.val frame j (some { a with destaging := false, redirty := false }) s
          else setSlot t.val frame j none s
      | none => s) (setWork w none s))

/-- The frame holds a page, or lies outside the DPA space (R171, R200). -/
def frameHeld (s : State) (t frame : Nat) : Bool := (ownerOf s t true frame).isSome || decide (pageFrames s t true ≤ frame)

/-- Stripe and frame of a physical offset of a block, if it holds data of a frame in use. -/
def heldChunk (s : State) (n pkg b off : Nat) : Option (Nat × Nat × Nat) :=
  (stripeOfChunk s n pkg (b * 256 + off)).bind (fun x =>
    let f := frameOf s (n / 40) x.1 x.2.1
    if frameHeld s (n / 40) f then some (x.2.1, f, x.2.2) else none)

/-- DRIFT_REFRESH_BLOCK (R200): a block whose age has reached HORIZON, or that a read marked, is refreshed; one block at a time. -/
def execDriftRefreshBlock (n : LinkId) (pkg : Fin 2) (block : BitVec 23) (s : State) : Host.Outcome State Fault Refusal :=
  let t := n.val / 40
  let b := getBlk s n.val pkg.val block.toNat
  if !walkersRun s t || !linkServes s n.val || (getRefresh s t).isSome || !(b.st = .data || b.st = .worn) || !(b.due || decide (horizon s t * 3600 ≤ blkAge s b)) then .next s
  else
    let todo := (List.range 256).filter (fun o => (heldChunk s n.val pkg.val block.toNat o).isSome)
    if todo.isEmpty then .next (onBlk n.val pkg.val block.toNat (fun x => { x with stamp := dawnSec s % 2 ^ 24, due := false }) s)
    else .next (setRefresh t (some ⟨n.val, pkg.val, block.toNat, dawnSec s, todo, none⟩) s)

/-- No transaction holds the line lock, no request waits, and no walker holds it (R223). -/
def lineFree (s : State) (line : Nat) : Bool :=
  !(Table.get {} s.ha.txns line).live && (Table.get [] s.ha.lq line).isEmpty && !Table.get false s.ha.walkLock line &&
  (Table.get [] s.ha.wbuf line).isEmpty && !s.ha.allocQ.any (fun e => e.2.any (fun m => decide (m.line = line)))

def lockLines (ls : List Nat) (s : State) : State :=
  onHa (fun h => { h with walkLock := ls.foldl (fun t l => Table.set false t l true) h.walkLock }) s

/-- DRIFT_REFRESH_CHUNK (R200, R223, R225): the four line locks and the chunk lock are taken and the chunk read; where a lock is not granted the
walker waits. A chunk whose lines are all stale is skipped. -/
def execDriftRefreshChunk (n : LinkId) (pkg : Fin 2) (offset : Byte) (s : State) : Host.Outcome State Fault Refusal :=
  let t := n.val / 40
  match getRefresh s t with
  | none => .next s
  | some r =>
    if r.link ≠ n.val ∨ r.pkg ≠ pkg.val ∨ r.busy.isSome ∨ !r.todo.contains offset.toNat ∨ blkLocked s n.val pkg.val r.block ∨ !linkServes s n.val ∨ !walkersRun s t then .next s
    else
      match heldChunk s n.val pkg.val r.block offset.toNat with
      | none => .next (refreshDone n.val offset.toNat s)
      | some (a, f, pos) =>
        let j := a % 2 * 8 + dataIdx a pos
        let page := if pos = a % 9 then none else ownerOf s t true f
        let lines := match page with | some p => (List.range 4).map (fun i => 64 * p + 4 * j + i) | none => []
        let stale := match page with
          | some p => (match Table.get none s.tier.moves p with | some m => (List.range 4).all (fun i => m.copied.getLsbD (4 * j + i)) | none => false)
          | none => false
        if stale then .next (refreshDone n.val offset.toNat s)
        -- Twilight is served before drift refresh (R223)
        else if !lines.all (lineFree s) || lines.any (s.ha.twWait.contains ·) then .next s
        else
          let c := r.block * 256 + offset.toNat
          let s1 := setRefresh t (some { r with busy := some (offset.toNat, lines) }) (lockLines lines s)
          match progBuf s n.val pkg.val c with
          | some _ => .next (refreshDone n.val offset.toNat s1)
          | none =>
            let rf := refOf (blkAge s (getBlk s n.val pkg.val r.block))
            .next (addCnt (linkCnt n.val 0) 1 (nlSubmit n.val { opc := 1, pkg := pkg.val, chunk := c, ref := rf, use := .refresh offset.toNat, prio := walkerPrio s } s1))

/-- DRIFT_SKIP (R224): after 10 ms on one chunk the walker skips the block until its next scan; STAMP is unchanged. -/
def execDriftSkip (t : TileId) (s : State) : Host.Outcome State Fault Refusal :=
  match getRefresh s t.val with
  | some r => .next (if r.busy.isNone then setRefresh t.val none s else s)
  | none => .next s

/-- DRIFT_LATE (R224): a block has passed 1.5 × HORIZON without a completed refresh. -/
def execDriftLate (n : LinkId) (pkg : Fin 2) (block : BitVec 23) (s : State) : Host.Outcome State Fault Refusal :=
  let b := getBlk s n.val pkg.val block.toNat
  .next (if (b.st = .data || b.st = .worn) && decide (3 * horizon s (n.val / 40) * 3600 < 2 * blkAge s b) then raiseTile (n.val / 40) .nlDriftLate n.val s else s)

/-- NVM frames in use on a tile. -/
def nvmInUse (s : State) (t : Nat) : List Nat :=
  usedFrames s t true ++ (s.tier.moves.filterMap (fun e => match e.2 with | some m => if m.tile = t ∧ m.toDram then some m.src else none | none => none))

/-- The first frame outside the DPA space of a group's rank whose stripes reach `line`: packed stores (R171, R246). -/
def localFrom (s : State) (t gr line : Nat) : List Nat :=
  let g := max 1 (ranksOf s t).length
  let f0 := max (pageFrames s t true) (g * (line / 2))
  let f := f0 + (gr + g - f0 % g) % g
  [f, f + g].filter (fun x => x < nvmFrames s t && pageFrames s t true ≤ x)

/-- REBUILD_STRIPE (R208): the stripe at the rebuild line, of those whose frame holds a page, is reconstructed onto the spare; past the last
one the group returns to normal. -/
def execRebuildStripe (t : TileId) (group : Fin 4) (s : State) : Host.Outcome State Fault Refusal :=
  let g := getGrp s t.val group.val
  match g.rebuild with
  | none => .next s
  | some (line, sp) =>
    if g.st = .lost || !walkersRun s t.val || s.nvm.works.any (fun e => match e.2 with | some k => decide (k.kind = .rebuild ∧ k.tile = t.val ∧ k.grp = group.val) | none => false) then .next s
    else
      let rk := ranksOf s t.val
      let gr := (rk.idxOf? group.val).getD 0
      let cand := (nvmInUse s t.val ++ localFrom s t.val gr line).filter (fun f => f % max 1 rk.length = gr) |>.flatMap (fun f => let b := 2 * (f / max 1 rk.length); [b, b + 1])
      match (cand.filter (fun a => line ≤ a)).foldl (fun (m : Option Nat) a => match m with | some x => some (min x a) | none => some a) none with
      | none =>
        .next (onNl sp (fun l => { l with st := .active })
          (onNvm (fun x => { x with grps := Table.set {} x.grps (4 * t.val + group.val) ⟨.normal, 15, none⟩ }) s))
      | some a =>
        if stripeLocked s t.val group.val a then .next s
        else
          let s1 := onNvm (fun x => { x with grps := Table.set {} x.grps (4 * t.val + group.val) { g with rebuild := some (a, sp) } }) s
          let (w, s2) := newId s1
          let others := (List.range 9).filter (fun q => q ≠ g.missing)
          let s3 := setWork w (some ⟨.rebuild, t.val, group.val, a, g.missing, others, [], [], [], false, none, false, walkerPrio s, false⟩) s2
          .next (advanceRebuild w (others.foldl (fun s q => match linkFor s t.val group.val q a with
            | some n => readWork w q n a s
            | none => gotChunk w q none s) s3))

/-- Groups as Dawn forms them (R180, R188): a group whose links carry different package counts is left out, a failed link's count standing once its
training has found it (PKGS); failed links take spares with the group's count; one failed link without a spare leaves the group degraded, and two or
more leave it out of service. -/
def formGroup (t g : Nat) (s : State) : State :=
  let ns := (List.range 9).map (fun p => 40 * t + 9 * g + p)
  let k := ((ns.map (fun n => (getLink s n).pkgs)).find? (fun p => decide (p ≠ 0))).getD 0
  let setGrp (v : Grp) (s : State) : State := onNvm (fun x => { x with grps := Table.set {} x.grps (4 * t + g) v }) s
  let allOut (why : NlReason) (s : State) : State := ns.foldl (fun s n => onNl n (fun l => if l.st = .absent then l else { l with st := .out, reason := why }) s) s
  if ns.all (fun n => (getLink s n).st = .absent) then s
  else if ns.any (fun n => (getLink s n).st = .absent || (decide ((getLink s n).pkgs ≠ 0) && decide ((getLink s n).pkgs ≠ k))) then
    raiseTile t .nlTrainFail (40 * t + 9 * g) (allOut .population s)
  else
    let bad := ns.filter (fun n => (getLink s n).st ≠ .active)
    let (s1, left) := bad.foldl (fun (acc : State × List Nat) n =>
      match idleSpare acc.1 t k with
      | some sp => (onNl sp (fun l => { l with st := .active, pos := n % 40 % 9, grp := g }) acc.1, acc.2)
      | none => (acc.1, acc.2 ++ [n])) (s, [])
    let s2 := bad.foldl (fun s n => raiseTile t .nlTrainFail n s) s1
    match left with
    | [] => setGrp ⟨.normal, 15, none⟩ s2
    | [n] => setGrp ⟨.degraded, n % 40 % 9, none⟩ s2
    | _ => allOut .training (bad.foldl (fun s n => raiseTile t .nlTrainFail n s) s)

def formGroups (t : Nat) (s : State) : State :=
  let s1 := (List.range 4).foldl (fun s g => formGroup t g s) s
  onNvm (fun x => { x with ranks := Table.set [] x.ranks t ((List.range 4).filter (fun g => (getGrp s1 t g).st ≠ .absent)) }) s1

end Sys2Proof.Machine
end

