-- ==== Sys2Proof/Machine/LineStore.lean ====
section
/-!
DEFINITION. A DPA line's record through placement, absorption and moves (R81, R82, R174, R175, R201, R213, R219, R220): where it is served from,
asking for it, taking it with its errors, storing it, and materialising a page.
-/
namespace Sys2Proof.Machine

/-- Place of a shadow line of a region on a tile, by tag line (leaf and place) or item (level and index): its tier and tile-local line (R285, R289,
log 24). Only the tag lines of a packed block area in NVM lie in NVM. -/
def shadowPlace (s : State) (r : Region) (t area : Nat) (x : Sum (Nat × Nat) (Nat × Nat)) : Bool × Nat :=
  let dram := storeInDram s r.idx
  let n := if area = 0 then share s r else if area = 1 then r.store else mapFrames s r
  let tags := area ≠ 1 || dram
  let off := match x with
    | .inl (leaf, m) => 8 * leaf + m
    | .inr (l, i) => (if tags then 8 * n else 0) + ((List.range l).map (itemsAt n)).sum + i
  let b := 64 * regionBase s t r false
  let block := if dram then 64 * r.store else 0
  match area, x with
  | 0, _ => (false, b + off)
  | 1, .inl _ => if dram then (false, b + 64 * mapFrames s r + block + off) else (true, 64 * regionBase s t r true + 64 * r.store + off)
  | 1, .inr _ => (false, b + 64 * mapFrames s r + block + off)
  | _, _ => (false, b + 64 * mapFrames s r + block + 64 * shadowFrames r.store dram + off)

/-- What a shadow line holds (R285–R287): a tag line by leaf and place, or a counter line or node by level and index. -/
def shadowLine (s : State) (r : Region) (t area : Nat) (x : Sum (Nat × Nat) (Nat × Nat)) : Line :=
  match x with
  | .inl (leaf, m) => (Table.get none s.cry.tags (((((r.idx * 8 + t) * 4 + area) <<< 36) + leaf) * 8 + m)).getD 0#512
  | .inr (l, i) => storedItem s (leavesOf s r.idx area) ⟨r.idx, t, area, l, i⟩

/-- A shadow line goes into its tier's write queue as a record under the fold address of its frame, with KEY 0, POISON 0 and HSTATE I (R30, R171, R285,
R289). -/
def shadowWrite (r : Region) (t area : Nat) (x : Sum (Nat × Nat) (Nat × Nat)) (prio : Nat) (s : State) : State :=
  let (nvm, f) := shadowPlace s r t area x
  let y := mkRec (localFold t f) (shadowLine s r t area x) 0#56
  if nvm then absWrite t (f / 64) (f % 64) y prio s else drWrite t f y prio s

/-- A shadow line is read: a read of a channel in Dusk wakes it (R166, R289; log 130). -/
def shadowRead (r : Region) (t area : Nat) (x : Sum (Nat × Nat) (Nat × Nat)) (s : State) : State :=
  let (nvm, f) := shadowPlace s r t area x
  if nvm then s else match subOf s t f with | some d => wake d s | none => s

/-- Dirty nodes that the counter cache held in `s` and holds no more in `s'` (R289). -/
def nodesEvicted (s s' : State) : List Item :=
  (s.cry.cache.filter (fun e => (match e.2 with | some (_, true) => true | _ => false) && (Table.get none s'.cry.cache e.1).isNone)).map (fun e => itemOfKey e.1)

/-- The shadow traffic of an access to a protected or store line that took `s` to `s'` (R30, R285, R289): the tag line and the chain that the cache
missed are read; a write puts the tag line and the counter line into the write queue; evicted nodes are written. -/
def shadowTraffic (c : CLoc) (wroteTag wroteCtr : Bool) (prio : Nat) (s s' : State) : State :=
  match regionOf s c.region with
  | none => s'
  | some r =>
    let tag : Sum (Nat × Nat) (Nat × Nat) := .inl (c.leaf, c.i / 8)
    let s1 := (missChain s c.leaves 16 (leafItem c)).foldl (fun s t => shadowRead r t.tile t.area (.inr (t.level, t.idx)) s) (shadowRead r c.tile c.area tag s')
    let s2 := if wroteTag then shadowWrite r c.tile c.area tag prio s1 else s1
    let s3 := if wroteCtr then shadowWrite r c.tile c.area (.inr (0, c.leaf)) prio s2 else s2
    (nodesEvicted s s').foldl (fun s t => match regionOf s t.region with
      | some q => shadowWrite q t.tile t.area (.inr (t.level, t.idx)) prio s
      | none => s) s3

/-- What line `x` of a shadow area of `n` leaves holds (R285, R287, log 24): a tag line by leaf and place, or an item by level and index. -/
def shadowAt (n : Nat) (tags : Bool) (x : Nat) : Option (Sum (Nat × Nat) (Nat × Nat)) :=
  let y := if tags then x - 8 * n else x
  if tags && decide (x < 8 * n) then some (.inl (x / 8, x % 8))
  else if y < n then some (.inr (0, y))
  else
    ((List.range (topLevel n)).foldl (fun (acc : Nat × Option (Sum (Nat × Nat) (Nat × Nat))) k =>
      let m := itemsAt n (k + 1)
      if acc.2.isSome then acc else if acc.1 < m then (acc.1, some (.inr (k + 1, acc.1))) else (acc.1 - m, none)) (y - n, none)).2

/-- What a line of a region's tile-local DRAM frames holds: a line of the map area or the block area, a tag line, or a shadow item (log 24). -/
inductive LocalLine where
  | store (area k : Nat)
  | tag (area leaf m : Nat)
  | item (area level idx : Nat)
  | other
deriving DecidableEq, Repr

def localLineOf (s : State) (r : Region) (x : Nat) : LocalLine :=
  let sh (area n : Nat) (tags : Bool) (x : Nat) : LocalLine :=
    match shadowAt n tags x with
    | some (.inl (leaf, m)) => .tag area leaf m
    | some (.inr (l, i)) => .item area l i
    | none => .other
  match r.typ with
  | .protect => sh 0 (share s r) true x
  | .packed =>
    let m := 64 * mapFrames s r
    let b := if storeInDram s r.idx then 64 * r.store else 0
    let bs := 64 * shadowFrames r.store (storeInDram s r.idx)
    if x < m then .store 2 x
    else if x < m + b then .store 1 (x - m)
    else if x < m + b + bs then sh 1 r.store (storeInDram s r.idx) (x - m - b)
    else sh 2 (mapFrames s r) true (x - m - b - bs)
  | _ => .other

/-- The region and line that hold tile-local DRAM line F. -/
def localAt (s : State) (t f : Nat) : Option (Region × Nat) :=
  s.map.cat.findSome? (fun r =>
    let b := 64 * regionBase s t r false
    if b ≤ f ∧ f < b + 64 * regionLocal s r then some (r, f - b) else none)

/-- The latest write of a line that waits for a slot (R201). -/
def waitingRec (s : State) (t frame i : Nat) : Option Rec :=
  ((s.nvm.slotWait.filter (fun w => w.tile = t ∧ w.frame = frame ∧ w.i = i)).getLast?).map (·.r)

/-- Access to a location of a tile meets a data error (R178, R209). -/
def locLost (s : State) (t : Nat) (nvm : Bool) (frame i : Nat) : Bool :=
  if nvm then
    match slotHas s t frame i with
    | some a => !dramUp s t (slotF s t a i)
    | none => if (waitingRec s t frame i).isSome then false else nvmLost s t frame i
  else !dramUp s t (64 * frame + i)

/-- A write to a location cannot land: a lost DRAM sub-channel (R178). -/
def locLostWr (s : State) (t : Nat) (nvm : Bool) (frame i : Nat) : Bool :=
  if nvm then nvmLost s t frame i && (slotHas s t frame i).isNone else !dramUp s t (64 * frame + i)

/-- The line cannot be read, or written, where it lies. -/
def lineLost (s : State) (line : Nat) : Bool :=
  match lineAt s line with
  | some (nvm, f) => locLost s (homeOf s line) nvm f (line % 64)
  | none => false

/-- Ask for a location's record: queue a DRAM read, or read its slot or its chunk (R156, R201, R205). -/
def askLoc (kind t : Nat) (nvm : Bool) (frame i prio : Nat) (s : State) : State :=
  if nvm then
    match slotHas s t frame i with
    | some a => drRead t (slotF s t a i) prio s
    | none => if (waitingRec s t frame i).isSome then s else nvmAsk kind t frame i prio s
  else drRead t (64 * frame + i) prio s

def askLine (line prio : Nat) (s : State) : State :=
  match lineAt s line with
  | some (nvm, f) => askLoc 0 (homeOf s line) nvm f (line % 64) prio s
  | none => s

/-- The DRAM location read is there now: its sub-channel issues commands. -/
def fReady (s : State) (t f : Nat) : Bool := match subOf s t f with | some d => subServes s d | none => false

/-- A location's record once it has arrived, with the sub-channel it was read from, or the link; the read is finished. `flips` are the medium's errors:
a record that the write queue, a waiting write or a program buffer answers has none (R156, R184, R201). -/
def takeLoc (kind t : Nat) (nvm : Bool) (frame i : Nat) (flips : Flips) (s : State) : Option (Rec × Sum Nat Nat × State) :=
  let dram (f : Nat) : Option (Rec × Sum Nat Nat × State) :=
    if fReady s t f then
      some (if drFromMedium s t f then flipRec (recAt s t f) flips else recAt s t f, .inl ((subOf s t f).getD 0), drTake t f s)
    else none
  if !nvm then dram (64 * frame + i)
  else match slotHas s t frame i, waitingRec s t frame i with
    | some a, _ => dram (slotF s t a i)
    | none, some r => some (r, .inr 0, s)
    | none, none =>
      let k := arrKey kind t frame i
      match Table.get none s.nvm.arrived k with
      | some (some b, n, medium) =>
        some (if medium then flipRec (chunkRec b (i % 4)) flips else chunkRec b (i % 4), .inr n, onNvm (fun x => { x with arrived := Table.set none x.arrived k none }) s)
      | _ => none

/-- Store a record at a location: the DRAM write queue, or absorption (R30, R201). -/
def putLoc (t : Nat) (nvm : Bool) (frame i : Nat) (r : Rec) (prio : Nat) (s : State) : State :=
  if nvm then absWrite t frame i r prio s else drWrite t (64 * frame + i) r prio s

/-- Priority of a line's media requests (R315): of the request its home serves, else the walkers'. -/
def linePrio (s : State) (line : Nat) : Nat :=
  match (Table.get {} s.ha.txns line).req with | some m => classPrio s m.attr.cls | none => walkerPrio s

/-- Nobody waits for the line's record any longer. -/
def dropLine (line : Nat) (s : State) : State :=
  let t := homeOf s line
  match lineAt s line with
  | none => s
  | some (false, f) => drDrop t (64 * f + line % 64) s
  | some (true, f) => match slotHas s t f (line % 64) with | some a => drDrop t (slotF s t a (line % 64)) s | none => s

/-- A line is written: its record is no longer one that a lost tag line left unpoisoned (R299). -/
def rewritten (addr : Nat) (s : State) : State :=
  if s.cry.lost.contains addr then onCry (fun c => { c with lost := c.lost.filter (· ≠ addr) }) s else s

/-- A record read of a line: poisoned, data kept, where its tag line was lost before it could be (R299). -/
def tainted (s : State) (addr fold : Nat) (x : Rec) : Rec :=
  if s.cry.lost.contains addr then mkRec fold x.data (x.meta_ ||| (1#56 <<< 43)) else x

/-- Store a line's record; while its page moves every write goes to the destination and completes the line's copy (R220). -/
def putLine (line : Nat) (r : Rec) (s0 : State) : State :=
  let s := rewritten (64 * line) s0
  let t := homeOf s line
  match getMove s (line / 64) with
  | some m => putLoc t (!m.toDram) m.dst (line % 64) r (linePrio s line) (setMove (line / 64) (some { m with copied := setBit m.copied (line % 64) true }) s)
  | none => match lineAt s line with
    | some (nvm, f) => putLoc t nvm f (line % 64) r (linePrio s line) s
    | none => s

/-- Where a write of the line goes: the destination of a move, or where it lies (R220). -/
def writeAt (s : State) (line : Nat) : Option (Bool × Nat) :=
  match getMove s (line / 64) with | some m => some (!m.toDram, m.dst) | none => lineAt s line

/-- A write of the line has to wait for an absorption slot (R201). -/
def slotShort (s : State) (line : Nat) : Bool :=
  match writeAt s line with | some (true, f) => needSlot s (homeOf s line) f (line % 64) | _ => false

/-- The line's write waits for a slot under its line lock (R201). -/
def waitSlot (line : Nat) (s : State) : State :=
  if s.nvm.lineWait.any (fun w => decide (w.1 = line)) then s
  else raiseBit .nlAbsSts (homeOf s line) 31 (onNvm (fun x => { x with lineWait := x.lineWait ++ [(line, s.time.now)] }) s)

/-- Who reads: head and source kind for the fault record of an error (R400), and the class label of the request, none a walker's (R315). -/
structure Reader where
  head : Nat := 255
  kind : Nat := 255
  cls : Option Nat := none
deriving DecidableEq, Repr

/-- Priority of a reader's media requests (R315). -/
def readerPrio (who : Reader) (s : State) : Nat := match who.cls with | some c => classPrio s c | none => walkerPrio s

/-- A record read is checked (R86): corrections are counted and the corrected record stored by `store` (R174); an uncorrectable word poisons the
line, adds it to the poison list and raises DR_UE or NL_UE (R175). Answers the record as it stands and whether its metadata word was lost. -/
def settleRec (line : Nat) (r : Rec) (src : Sum Nat Nat) (who : Reader) (store : Rec → State → State) (s : State) : Rec × Bool × State :=
  let t := homeOf s line
  let c := checkRec line r
  let s1 := match src with | .inl d => countUe d c.bad.length (countCe d c.fixed s) | .inr _ => s
  if c.bad.isEmpty then (c.out, false, if c.fixed = 0 then s1 else store c.out s1)
  else
    let p := poisonRec s1 line c
    let lost := c.bad.contains 8
    let s2 := if lost then lostWord line (store p s1) else addPoison (64 * line) 64 (store p s1)
    let s3 := match src with
      | .inl d => raiseReq t .drUe (64 * line) who.head who.kind d s2
      | .inr n => raiseReq t .nlUe (64 * line) who.head who.kind n s2
    (p, lost, s3)

/-- Take a line's record for a transaction, with the media errors of the read. A read of a MOVING page's line completes its copy (R220). -/
def takeLine (line : Nat) (flips : Flips) (who : Reader) (s : State) : Option (Rec × Bool × State) :=
  match lineAt s line with
  | none => none
  | some (nvm, f) =>
    match takeLoc 0 (homeOf s line) nvm f (line % 64) flips s with
    | none => none
    | some (r, src, s1) =>
      let (out, lost, s2) := settleRec line r src who (putLine line) s1
      let pending := match getMove s2 (line / 64) with | some m => !m.copied.getLsbD (line % 64) | none => false
      let y := tainted s2 (64 * line) line out
      some (y, lost, if pending || decide (y ≠ out) then putLine line y s2 else s2)

/-- TIER_INFO fields (R210). -/
def heatOf (v : BitVec 16) : Nat := v.toNat / 256
def classIn (v : BitVec 16) : Nat := v.toNat / 16 % 16
def residOf (v : BitVec 16) : Nat := v.toNat % 16
def mkTier (heat cls resid : Nat) : BitVec 16 := BitVec.ofNat 16 (256 * min heat 255 + 16 * (cls % 16) + min resid 15)

/-- Pages of plain regions without the pin flag and of protected regions are tiered (R210). -/
def isTiered (r : Region) : Bool := (decide (r.typ = .plain) && !r.pin) || decide (r.typ = .protect)

/-- A host or job request for a line of a tiered page adds 1 to HEAT and writes its class (R211): in the placement-entry cache; whether the entry is
written back then is a free value (log 124). -/
def addHeat (line cls : Nat) (s : State) : State :=
  match regionAt s (64 * line) with
  | some r =>
    let p := getPlace s (line / 64)
    if isTiered r ∧ p.st ≠ .unwritten then
      let fr := takeFree s
      putPlace (line / 64) { p with
        tier := mkTier (heatOf p.tier + 1) cls (residOf p.tier)
        stored := if Config.placeWriteBack fr.1 then none else some (p.stored.getD p.tier) } fr.2
    else s
  | none => s

/-- DRAM frames of the migration reserve, and NVM frames (TR_RESERVE). -/
def reserveOf (s : State) (t : Nat) (nvm : Bool) : Nat := if nvm then regFld s .trReserve t 31 16 else regFld s .trReserve t 15 0

/-- Free frames outside the reserve. -/
def freeOut (s : State) (t : Nat) (nvm : Bool) : Nat := freeCount s t nvm - reserveOf s t nvm

/-- FREE_LOW and FREE_HIGH as they act, in frames of 4 KiB (TR_FREE). -/
def freeLow (s : State) (t : Nat) : Nat := 256 * regFld s .trFree t 15 0
def freeHigh (s : State) (t : Nat) : Nat := 256 * max (regFld s .trFree t 31 16) (regFld s .trFree t 15 0 + 1)

def dramStop (s : State) (t : Nat) : Bool := s.dram.stop.getLsbD t

/-- The tier a new page goes to (R213, R217): none when no frame is left; of the reserves, the chosen tier's comes before the other's (DESIGN CHOICE, log 159). -/
def placeTier (s : State) (t : Nat) (r : Region) : Option Bool :=
  if !isTiered r then (if 0 < freeCount s t false then some false else none)
  else
    let dOk := decide (0 < freeOut s t false) && !dramStop s t
    let nOk := decide (0 < freeOut s t true)
    let nvmFirst := bit (regRaw s .trCfg t) 3 || dramStop s t
    if nvmFirst then
      (if nOk then some true else if dOk then some false
       else if 0 < freeCount s t true then some true else if 0 < freeCount s t false ∧ !dramStop s t then some false else none)
    else if dOk && decide (freeLow s t < freeOut s t false) then some false
    else if nOk then some true
    else if 0 < freeCount s t false ∧ !dramStop s t then some false
    else if 0 < freeCount s t true then some true else none

/-- The page's placement entry reads the reserved STATE: a media error on every line (R81). -/
def pageBad (s : State) (line : Nat) : Bool := decide ((getPlace s (line / 64)).st = .bad)

/-- The reserved metadata bits of a line's record as it is stored (R84). A record that only the NVM medium holds, and that no read has brought, was
stored with zeros (log 118). -/
def storedRsv (s : State) (line : Nat) : Nat :=
  let of (r : Rec) : Nat := metaRsv (checkRec line r).out.meta_
  match lineAt s line with
  | none => 0
  | some (false, f) => of (recAt s (homeOf s line) (64 * f + line % 64))
  | some (true, f) =>
    let t := homeOf s line
    match slotHas s t f (line % 64), waitingRec s t f (line % 64) with
    | some a, _ => of (slotRec s t a (line % 64))
    | none, some r => of r
    | none, none => 0

/-- The materialised record of a line (R82): its key index is the position slot (R280). -/
def freshRec (s : State) (r : Region) (line : Nat) : Rec :=
  mkRec line 0#512 (mkMeta (if r.typ = .protect then positionKey s r (dpaLoc s r line) else currentKey s r) false 0 0 0)

/-- Demotion starts when the free DRAM frames outside the reserve fall below FREE_LOW, and runs until they reach FREE_HIGH (R216): looked at whenever a
frame is taken or freed. -/
def sampleFree (t : Nat) (s : State) : State :=
  let free := freeOut s t false
  if free < freeLow s t then onTier (fun x => { x with demoting := setBit x.demoting t true }) s
  else if freeHigh s t ≤ free then onTier (fun x => { x with demoting := setBit x.demoting t false }) s
  else s

/-- Materialise an unwritten page (R82): a frame, 64 records, a protected page's counter line, the placement entry; with no frame the request is a data error, TR_NOFRAME is raised
and NOFRAME set (R213). Answers whether the page has a frame. -/
def materialise (page : Nat) (who : Reader) (prio : Nat) (s : State) : Bool × State :=
  let line := 64 * page
  let t := homeOf s line
  if (getPlace s page).st ≠ .unwritten then (true, s)
  else match regionAt s (64 * line) with
    | none => (false, s)
    | some r =>
      if r.typ = .packed then (true, s)
      else match placeTier s t r with
        | none => (false, raiseReq t .trNoframe (64 * line) who.head who.kind r.idx (raiseBit .trSts t 30 s))
        | some nvm =>
          match freeFrame s t nvm with
          | none => (false, raiseReq t .trNoframe (64 * line) who.head who.kind r.idx (raiseBit .trSts t 30 s))
          | some f =>
            let s1 := putPlace page { st := if nvm then .nvm else .dram, pin := r.pin, frame := f } s
            let s2 := (List.range 64).foldl (fun s i => putLoc t nvm f i (freshRec s r (line + i)) prio s) s1
            let s3 := if r.typ = .protect then shadowWrite r t 0 (.inr (0, (dpaLoc s2 r line).leaf)) prio (putCounter (dpaLoc s2 r line) 0#512 s2) else s2
            (true, addCnt (tileCnt t 477) 1 (sampleFree t s3))

end Sys2Proof.Machine
end

