-- ==== Sys2Proof/Machine/CryOps.lean ====
section
/-!
DEFINITION. Reading and writing a record through the crypto block (R275–R293), the version overflow (R291, R292), and what media errors in shadow
lines do (R299, R300).
-/
namespace Sys2Proof.Machine

/-- What the crypto block gives for a stored line: a value, with POISON, or a data error. -/
inductive RdOut where
  | val (v : LVal)
  | err
deriving DecidableEq, Repr

def poisonVal : LVal := ⟨0#512, 0#64, true, false⟩

/-- The position slot of a line as it is stored: 0 outside protected and packed regions (R280, R281). -/
def slotFor (s : State) (r : Region) (c : CLoc) : BitVec 12 := if r.typ = .protect ∨ r.typ = .packed then positionKey s r c else 0#12

/-- The key slot is empty where a key is needed (R279): CRY_NO_KEY. -/
def noKey (c : CLoc) (addr : Nat) (k : BitVec 12) (who : Reader) (s : State) : State := raiseReq c.tile .cryNoKey addr who.head who.kind k.toNat s

/-- Priority of the shadow traffic of a line: that of the request it serves (R26, R315). -/
def shadowPrio (s : State) (c : CLoc) (who : Reader) : Nat := if c.area = 0 then linePrio s c.loc else readerPrio who s

/-- A record that passes the code and carries a KEY other than its position slot (R281): its metadata word becomes `m`, as R175 says of a lost one, a DPA
goes on the poison list, and CRY_META_KEY is raised. Answers the record and whether its word was lost. -/
def checkKey (r : Region) (c : CLoc) (fold : Nat) (m : BitVec 56) (who : Reader) (put : Rec → State → State) (x : Rec) (s : State) : Rec × Bool × State :=
  if metaKey x.meta_ = slotFor s r c then (x, false, s)
  else
    let y := mkRec fold x.data m
    let s1 := put y s
    (y, true, raiseReq c.tile .cryMetaKey (locAddr c) who.head who.kind (metaKey x.meta_).toNat (if c.area = 0 then addPoison (64 * c.loc) 64 s1 else s1))

/-- The check of a DPA line. -/
def fixKey (line : Nat) (r : Region) (who : Reader) (put : Rec → State → State) (x : Rec) (s : State) : Rec × Bool × State :=
  checkKey r (dpaLoc s r line) line (poisonMeta s line) who put x s

/-- The metadata word that a store line takes where its own is lost (R175). -/
def storeMeta (s : State) (r : Region) (c : CLoc) : BitVec 56 := mkMeta (slotFor s r c) true 0 0 0

/-- Read a checked record of a protected or store line (R293, R300). -/
def cryRead (r : Region) (c : CLoc) (rec_ : Rec) (who : Reader) (fold : Nat) (s : State) : RdOut × State :=
  let k := positionKey s r c
  if isDamaged s c || metaPoison rec_.meta_ then (.val poisonVal, s)
  else
    let s0 := cacheFill c s
    let v := version s0 c
    if v = 0 then (.val ⟨0#512, lineChk fold 0#512, false, false⟩, s0)
    else match decryptLine s0 c k v rec_.data with
      | none => (.err, noKey c (locAddr c) k who s0)
      | some d => (.val ⟨d, lineChk fold d, false, false⟩, startVerif c k v rec_.data (shadowTraffic c false false (shadowPrio s c who) s s0))

/-- The lines of a version's page that must be read before a write at minor 127 (R291). -/
def overflows (s : State) (c : CLoc) : Bool := decide (minor (itemNow s c.leaves (leafItem c)) c.i = 127)

/-- Rewrite line `i` of an overflowing page under the new version (R291); one with the wrong KEY becomes poisoned (R281). -/
def rewriteOne (r : Region) (at_ : Nat → CLoc) (old : Line) (get : Nat → State → Option Rec) (put : Nat → Rec → State → State) (fold : Nat → Nat)
    (who : Reader) (i : Nat) (s0 : State) : State :=
  let c := at_ i
  let k := positionKey s0 r c
  let vOld := verOf old i
  let vNew := (major old + 1) * 128
  match get i s0 with
  | none => s0
  | some x0 =>
    let (x, _, s) := checkKey r c (fold i) (if c.area = 0 then poisonMeta s0 c.loc else storeMeta s0 r c) who (put i) x0 s0
    if metaPoison x.meta_ then s
    else
      let s1 := if vOld = 0 ∨ tagMatches s c k vOld x.data then s else failCheck c.tile c.region (locAddr c) (decide (c.area ≠ 0)) none s
      let plain := if vOld = 0 then 0#512 else (decryptLine s1 c k vOld x.data).getD 0#512
      let (ct, s2) := encryptLine c k vNew plain s1
      put i (mkRec (fold i) ct x.meta_) (shadowTraffic c true true (shadowPrio s c who) s s2)

/-- A protected or store write (R283, R284, R289, R291, R292): the ciphertext, or none for a data error. -/
def cryWrite (r : Region) (at_ : Nat → CLoc) (i : Nat) (plain : Line) (get : Nat → State → Option Rec) (put : Nat → Rec → State → State)
    (fold : Nat → Nat) (who : Reader) (s : State) : Option Line × State :=
  let c := at_ i
  let k := positionKey s r c
  if (keySlot s k).isNone || s.cry.nonce.isNone then (none, noKey c (locAddr c) k who s)
  else
    let s0 := cacheFill c s
    let old := itemNow s0 c.leaves (leafItem c)
    if minor old i < 127 then
      let d := setMinor old i (minor old i + 1)
      let (ct, s1) := encryptLine c k (verOf d i) plain s0
      (some ct, shadowTraffic c true true (shadowPrio s c who) s (putCounter c d s1))
    else if (chainBad s c.leaves (leafItem c)).isSome then
      -- the rewrite waits for the verification (R291, R294)
      (none, failCheck c.tile c.region (locAddr c) (decide (c.area ≠ 0)) (chainBad s c.leaves (leafItem c)) s)
    else if 2 ^ 57 - 1 ≤ major old then (none, raiseReq c.tile .cryCtrEnd (locAddr c) who.head who.kind r.idx s0)
    else
      let s1 := ((List.range 64).filter (· ≠ i)).foldl (fun s j => rewriteOne r at_ old get put fold who j s) s0
      let d := setMinor (BitVec.ofNat 512 (major old + 1)) i 1
      let (ct, s2) := encryptLine c k (verOf d i) plain s1
      (some ct, shadowTraffic c true true (shadowPrio s c who) s (putCounter c d s2))

/-- The stored record of another line of the page, where it can be read now. -/
def peekLine (s : State) (line : Nat) : Option Rec :=
  match lineAt s line with
  | none => none
  | some (nvm, f) =>
    if locLost s (homeOf s line) nvm f (line % 64) then none
    else (takeLoc 0 (homeOf s line) nvm f (line % 64) 0#648 s).map (fun x => tainted s (64 * line) line (checkRec line x.1).out)

/-- Every other line of an overflowing page can be read or is lost (R291). -/
def pageReady (s : State) (line : Nat) : Bool :=
  (List.range 64).all (fun j =>
    let l := line / 64 * 64 + j
    l = line || (match lineAt s l with
      | none => true
      | some (nvm, f) => locLost s (homeOf s l) nvm f j || (takeLoc 0 (homeOf s l) nvm f j 0#648 s).isSome))

/-- Ask for every line of the page. -/
def askPage (line : Nat) (s : State) : State := (List.range 64).foldl (fun s j => askLine (line / 64 * 64 + j) (linePrio s line) s) s

/-- Store the value of a DPA line: encrypted for a protected region, with fresh check bytes and the metadata given (R22, R30, R275). Answers
whether the write was made. -/
def storeLine (line : Nat) (d : Line) (meta_ : BitVec 56) (who : Reader) (s : State) : Bool × State :=
  match regionAt s (64 * line) with
  | none => (false, s)
  | some r =>
    if r.typ = .protect then
      let base := line / 64 * 64
      let (ct, s1) := cryWrite r (fun j => dpaLoc s r (base + j)) (line % 64) d (fun j s => peekLine s (base + j))
        (fun j x s => putLine (base + j) x s) (fun j => base + j) who s
      -- a page that was rewritten has been read (R291)
      let s2 := if overflows s (dpaLoc s r line) then (List.range 64).foldl (fun s j => if j = line % 64 then s else dropLine (base + j) s) s1 else s1
      match ct with
      | some x => (true, putLine line (mkRec line x meta_) s2)
      | none => (false, s2)
    else (true, putLine line (mkRec line d meta_) s)

/-- A stored line becomes poisoned: POISON 1 with the data given as stored, on the poison list (R58, R456). -/
def setPoison (line : Nat) (r : Rec) (s : State) : State :=
  addPoison (64 * line) 64 (putLine line (mkRec line r.data (r.meta_ ||| (1#56 <<< 43))) s)

/-- A full line write without poison takes the line off the poison list (R58, R456). -/
def clearPoisonAt (line : Nat) (s : State) : State := dropPoison (64 * line) 64 s

/-- DPA pages under an item of a protected region, or of the whole tree of `n` leaves once its damage is no longer told apart (R300). -/
def pagesUnder (s : State) (r : Region) (t : Item) (n : Nat) : List Nat :=
  let whole := s.cry.treeAll.contains (t.region, t.tile, t.area)
  let lo := if whole then 0 else t.idx * 8 ^ t.level
  let hi := if whole then n else min n (lo + 8 ^ t.level)
  (List.range (hi - lo)).map (fun i => pageAt s t.tile (localPage s (r.base / 4096) + lo + i))

/-- An uncorrectable counter line or node: its subtree is damaged, CRY_TREE_UE is raised, each of its pages is put on the poison list and the item is
rewritten (R299, R300). An item of a damaged subtree is never read again. -/
def damageItem (t : Item) (n : Nat) (who : Reader) (s : State) : State :=
  if itemDamaged s t then s else
  let s1 := markDamaged t s
  let s2 := match regionOf s t.region with
    | some r => if t.area = 0 then (pagesUnder s1 r t n).foldl (fun s p => addPoison (4096 * p) 4096 s) s1 else s1
    | none => s1
  let s3 := onCry (fun c => { c with cache := Table.drop c.cache (itemKey t) }) s2
  let s4 := match regionOf s t.region with
    | some r => shadowWrite r t.tile t.area (.inr (t.level, t.idx)) (readerPrio who s) s3
    | none => s3
  raiseReq t.tile .cryTreeUe 0 who.head who.kind (t.region + 65536 * t.level) s4

/-- A line whose tag line was lost and whose record cannot be read now: it is poisoned as soon as it is (R299). -/
def taint (addr : Nat) (s : State) : State := onCry (fun c => { c with lost := if c.lost.contains addr then c.lost else addr :: c.lost }) s

/-- An uncorrectable tag line (R299): its eight lines, unless already poisoned, are poisoned with their data kept, and the tag line is rewritten with zero
tags. -/
def tagLineLost (r : Region) (c : CLoc) (line : Nat) (who : Reader) (s : State) : State :=
  let base := line / 8 * 8
  let s1 := shadowWrite r c.tile c.area (.inl (c.leaf, c.i / 8)) (readerPrio who s) (onCry (fun x => { x with tags := Table.set none x.tags (tagKey c) (some 0#512) }) s)
  let s2 := (List.range 8).foldl (fun s j =>
    match peekLine s (base + j) with
    | some x => if metaPoison x.meta_ then s else setPoison (base + j) x s
    | none => if (lineAt s (base + j)).isSome then addPoison (64 * (base + j)) 64 (taint (64 * (base + j)) s) else s) s1
  raiseReq c.tile .cryTagUe (64 * line) who.head who.kind r.idx s2

/-- Uncorrectable words that flips make in a shadow line (R86, R299): the code is linear, so the flips alone decide. -/
def flipsBad (f : Flips) : Bool := !(checkRec 0 (flipRec (mkRec 0 0#512 0#56) f)).bad.isEmpty

/-- What flips that the code lets pass change in a shadow line's content: nothing where it corrects them (R86). -/
def flipsSeen (f : Flips) : Line := (checkRec 0 (flipRec (mkRec 0 0#512 0#56) f)).out.data

/-- The media errors of a shadow line read from DRAM are counted on its sub-channel (R174, R177). -/
def countShadow (r : Region) (t area : Nat) (x : Sum (Nat × Nat) (Nat × Nat)) (f : Flips) (s : State) : State :=
  let (nvm, a) := shadowPlace s r t area x
  let c := checkRec 0 (flipRec (mkRec 0 0#512 0#56) f)
  match (if nvm then none else subOf s t a) with
  | some d => countUe d c.bad.length (countCe d c.fixed s)
  | none => s

/-- A tag line as a read with media errors brings it, where the code lets them pass (R295). -/
def flipTag (c : CLoc) (f : Flips) (s : State) : State :=
  if flipsSeen f = 0#512 then s
  else onCry (fun x => { x with tags := Table.set none x.tags (tagKey c) (some ((Table.get none x.tags (tagKey c)).getD 0#512 ^^^ flipsSeen f)) }) s

/-- A counter line or node as a read with media errors brings it, where the code lets them pass (R295). -/
def flipItem (t : Item) (f : Flips) (s : State) : State :=
  if flipsSeen f = 0#512 then s
  else onCry (fun x => { x with nodes := Table.set none x.nodes (itemKey t) (some (storedItem s (leavesOf s t.region t.area) t ^^^ flipsSeen f)) }) s

/-- The item of level `l` above a leaf item. -/
def ancestor (t : Item) : Nat → Item
  | 0 => t
  | l + 1 => parentItem (ancestor t l)

/-- A parity error in the cached item (R289, R299): a dirty line's subtree is damaged; a clean line is dropped, counted, and fetched again. -/
def cacheParity (c : CLoc) (t : Item) (who : Reader) (s : State) : State :=
  match Table.get none s.cry.cache (itemKey t) with
  | some (_, true) => damageItem t c.leaves who s
  | some (_, false) => addCnt (tileCnt c.tile 462) 1 (onCry (fun k => { k with cache := Table.drop k.cache (itemKey t) }) s)
  | none => s

/-- A parity error in the key table (0), a working key (1), the tree key (2) or the root store (3) that the access uses: Midnight (R295). -/
def onDieParity (c : CLoc) (which addr : Nat) (s : State) : State :=
  raiseWith (tileSrc c.tile .cryOndiePar) { addr := BitVec.ofNat 64 addr, detail := BitVec.ofNat 32 which }
    ⟨c.region, BitVec.ofNat 64 addr, if c.area = 0 then 0 else 1⟩ s

/-- The errors met on what a protected DPA line's read uses besides its record, by their number: 0 the tag line, 1 + k the level-k item, both media
errors, of which only items the counter cache misses are read (R289, R299); 32 + k a parity error in the cached item of level k (R289, R299);
64 + w a parity error on the die (R295). Errors that pass the code are seen by the checks. Nothing of a damaged subtree is read (R300). -/
def applyShadow (r : Region) (c : CLoc) (line : Nat) (sh : ShadowFlips) (who : Reader) (s : State) : State :=
  let chain := missChain s c.leaves 16 (leafItem c)
  sh.foldl (fun s e =>
    if 64 ≤ e.1 then (if e.1 < 68 then onDieParity c (e.1 - 64) (64 * line) s else s)
    else if isDamaged s c then s
    else if 32 ≤ e.1 then (if e.1 - 32 ≤ topLevel c.leaves then cacheParity c (ancestor (leafItem c) (e.1 - 32)) who s else s)
    else if e.1 = 0 then
      let s1 := countShadow r c.tile c.area (.inl (c.leaf, c.i / 8)) e.2 s
      if flipsBad e.2 then tagLineLost r c line who s1 else flipTag c e.2 s1
    else match chain.find? (fun t => t.level + 1 = e.1) with
      | some t =>
        let s1 := countShadow r c.tile c.area (.inr (t.level, t.idx)) e.2 s
        if flipsBad e.2 then damageItem t c.leaves who s1 else flipItem t e.2 s1
      | none => s) s

end Sys2Proof.Machine
end

