-- ==== Sys2Proof/Machine/Rings.lean ====
section
/-!
DEFINITION. Ring blocks (R227–R231, R240–R244): who may write what, enabling, doorbells, abort and disable, and the queue of completion records.
-/
namespace Sys2Proof.Machine

def getRing (s : State) (r : Nat) : Ring := Table.get {} s.job.rings r
def onRing (r : Nat) (f : Ring → Ring) (s : State) : State := onJob (fun j => { j with rings := Table.mod {} j.rings r f }) s
def jobKey (r n : Nat) : Nat := 2 ^ 32 * r + n
def getJob (s : State) (r n : Nat) : Option Job := Table.get none s.job.jobs (jobKey r n)
def setJob (r n : Nat) (j : Option Job) (s : State) : State := onJob (fun x => { x with jobs := Table.set none x.jobs (jobKey r n) j }) s
def partKey (r n j : Nat) : Nat := jobKey r n * 2 ^ 20 + j
def getPart (s : State) (r n j : Nat) : Option Part := Table.get none s.job.parts (partKey r n j)
def setPart (r n j : Nat) (p : Option Part) (s : State) : State := onJob (fun x => { x with parts := Table.set none x.parts (partKey r n j) p }) s

/-- RING_CFG fields. -/
def rgDlog (x : Ring) : Nat := fld x.cfg 4 0
def rgClog (x : Ring) : Nat := fld x.cfg 9 5
def rgOwner (x : Ring) : Nat := fld x.cfg 15 10
def rgClass (x : Ring) : Nat := fld x.cfg 19 16
def rgKey (x : Ring) : Nat := fld x.cfg 31 20
def rgDbase (x : Ring) : Nat := x.dbase.toNat / 4096 % 2 ^ 36 * 4096
def rgCbase (x : Ring) : Nat := x.cbase.toNat / 4096 % 2 ^ 36 * 4096

/-- The serving tile: the home tile of RING_DBASE (R227). -/
def servingTile (s : State) (r : Nat) : Nat := homeOf s (rgDbase (getRing s r) / 64)

/-- What an agent may do in a ring block (R228). -/
inductive RingRow where | full | owner | denied
deriving DecidableEq, Repr

def ringRow (s : State) (a : Agent) (r : Nat) : RingRow :=
  match a with
  | .firmware => .full
  | .head h _ => if hasRights s a then .full else if h.val = rgOwner (getRing s r) then .owner else .denied

/-- A ring-block write of an agent: refused rows are discarded and another head's counted (R228); a serving tile that cannot be reached takes
nothing (R60, R227). -/
def ringWrite (a : Agent) (r : Nat) (ownerMay : Bool) (f : State → State) (s : State) : State :=
  if !running s then s
  else
    let reach := !cutOff s (entryTile a) (servingTile s r)
    match ringRow s a r with
    | .full => if reach then f s else s
    | .owner => if reach && ownerMay then f s else s
    | .denied => (match a with | .head h _ => addCnt (portCnt h.val 8) 1 s | .firmware => s)

/-- A RING_TAIL write (R231). -/
def writeTail (r : Nat) (v : W32) (s : State) : State :=
  let x := getRing s r
  let live := decide (x.st = .running ∨ x.st = .aborting ∨ x.st = .stopped)
  if v = x.tail ∨ (live ∧ (v - x.head).toNat ≤ 2 ^ rgDlog x ∧ (v - x.tail).toNat < 2 ^ 31) then onRing r (fun y => { y with tail := v }) s
  else onRing r (fun y => { y with tailErr := true }) s

/-- A RING_CQ_HEAD write (R231). -/
def writeCqHead (r : Nat) (v : W32) (s : State) : State :=
  let x := getRing s r
  let live := decide (x.st = .running ∨ x.st = .aborting ∨ x.st = .stopped)
  if live ∧ (v - x.cqHead).toNat ≤ (x.cqTail - x.cqHead).toNat then onRing r (fun y => { y with cqHead := v }) s
  else onRing r (fun y => { y with cqhErr := true }) s

/-- RING_TAIL_WRITE (R231). -/
def execRingTailWrite (a : Agent) (r : RingId) (v : W32) (s : State) : Host.Outcome State Fault Refusal :=
  .next (ringWrite a r.toNat true (writeTail r.toNat v) s)

/-- RING_CQ_HEAD_WRITE (R231). -/
def execRingCqHeadWrite (a : Agent) (r : RingId) (v : W32) (s : State) : Host.Outcome State Fault Refusal :=
  .next (ringWrite a r.toNat true (writeCqHead r.toNat v) s)

/-- A RING_CFG write: discarded unless STATE is disabled. -/
def writeRingCfg (r : Nat) (v : W32) (s : State) : State := if (getRing s r).st = .disabled then onRing r (fun y => { y with cfg := v }) s else s

/-- A RING_DBASE or RING_CBASE write: [47:12], discarded unless STATE is disabled. -/
def writeRingBase (r : Nat) (cq : Bool) (v : W64) (s : State) : State :=
  let w := v &&& 0x0000FFFFFFFFF000#64
  if (getRing s r).st = .disabled then onRing r (fun y => if cq then { y with cbase := w } else { y with dbase := w }) s else s

/-- RING_CFG_WRITE (R227, R228). -/
def execRingCfgWrite (a : Agent) (r : RingId) (v : W32) (s : State) : Host.Outcome State Fault Refusal :=
  .next (ringWrite a r.toNat false (writeRingCfg r.toNat v) s)

/-- RING_BASE_WRITE (R227, R228). -/
def execRingBaseWrite (a : Agent) (r : RingId) (cq : Bool) (v : W64) (s : State) : Host.Outcome State Fault Refusal :=
  .next (ringWrite a r.toNat false (writeRingBase r.toNat cq v) s)

/-- Some LD of the owner has the region in view; every region for the management head (R229, R234). -/
def inView (s : State) (owner region : Nat) : Bool :=
  decide (owner = mgmtHead s) || s.map.views.any (fun v => v.head = owner ∧ v.region = region)

/-- The catalogued region a range lies wholly inside, in the owner's view. -/
def rangeRegion (s : State) (owner base len : Nat) : Option Region :=
  s.map.cat.find? (fun r => r.base ≤ base && base + len ≤ r.base + r.len && inView s owner r.idx)

def areaD (x : Ring) : Nat × Nat := (rgDbase x, 64 * 2 ^ rgDlog x)
def areaC (x : Ring) : Nat × Nat := (rgCbase x, 16 * 2 ^ rgClog x)
def overlaps (a b : Nat × Nat) : Bool := decide (a.1 < b.1 + b.2) && decide (b.1 < a.1 + a.2)

/-- The first failing check of an enable, 0 when all pass (R229). -/
def enableCode (s : State) (r : Nat) : Nat :=
  let x := getRing s r
  let ok (l : Nat) : Bool := decide (4 ≤ l ∧ l ≤ 16)
  let isRing (a : Nat × Nat) : Bool := match rangeRegion s (rgOwner x) a.1 a.2 with | some g => decide (g.typ = .ring) | none => false
  if !ok (rgDlog x) || !ok (rgClog x) then 1
  else if !isHead s (rgOwner x) then 2
  else if !isRing (areaD x) then 3
  else if !isRing (areaC x) then 4
  else if overlaps (areaD x) (areaC x) || s.job.rings.any (fun e => decide (e.1 ≠ r) && decide (e.2.st ≠ .disabled) &&
      (overlaps (areaD x) (areaD e.2) || overlaps (areaD x) (areaC e.2) || overlaps (areaC x) (areaD e.2) || overlaps (areaC x) (areaC e.2))) then 5
  else 0

/-- Lines of a completion queue. -/
def cqLines (x : Ring) : Nat := 16 * 2 ^ rgClog x / 64

/-- The attributes of a ring's requests (R26). -/
def ringAttr (x : Ring) : Attr := { head := rgOwner x, cls := rgClass x, key := BitVec.ofNat 12 (rgKey x), kind := 1 }

/-- The descriptor count used for the writes of R229 step 4. -/
def initN : Nat := 2 ^ 32

/-- The operations R229 step 4 starts: the lines of the queue, as writes of zeros. -/
def initOps (x : Ring) (r : Nat) : List (Nat × WOp) :=
  (List.range (cqLines x)).map (fun i =>
    let line := rgCbase x / 64 + i
    (line, .jobWr (ringAttr x) r initN 0 i (BitVec.allOnes 64) true { data := 0#512, chk := lineChk line 0#512 }))

/-- A write of 1 to ENABLE while disabled (R229): checks, then initialising. Answers the operations to start at the serving tile. -/
def enableRing (r : Nat) (s : State) : State × List (Nat × WOp) :=
  let x := getRing s r
  let c := enableCode s r
  if c ≠ 0 then (onRing r (fun y => { y with cfgErr := true, cfgCode := c }) s, [])
  else
    let n := cqLines x
    (onRing r (fun y => { y with tail := 0#32, head := 0#32, cqTail := 0#32, cqHead := 0#32, inflight := 0, st := .initialising,
                                 route := some (servingTile s r), zeroLeft := n, zeroBad := false }) s, initOps x r)

/-- Queue a completion record (R237): the FLAGS without PHASE. -/
def queueRecord (r n status flags detail : Nat) (user : W64) (s : State) : State :=
  onRing r (fun y => { y with outq := y.outq ++ [(n, status, flags, detail, user)] }) s

def statusCode : JobStatus → Nat
  | .success => 0 | .badType => 1 | .badDesc => 2 | .noRegion => 3 | .accessType => 4 | .keyMismatch => 5 | .poisonSrc => 6 | .dataError => 7
  | .aborted => 8 | .incompressible => 9 | .outputFull => 10 | .descError => 11

/-- USER of a descriptor. -/
def descUser (d : Bytes) : W64 := BitVec.ofNat 64 (leAt d 8 8)

/-- Jobs of a ring, by descriptor count. -/
def jobsOf (s : State) (r : Nat) : List (Nat × Job) :=
  s.job.jobs.filterMap (fun e => if e.1 / 2 ^ 32 = r then e.2.map (fun j => (e.1 % 2 ^ 32, j)) else none)

/-- Cancel what an abort cancels (R240): jobs not started whole, and the undispatched parts of those started. -/
def cancelJobs (r : Nat) (s : State) : State :=
  (jobsOf s r).foldl (fun s e =>
    if e.2.ended_ then s
    else if !e.2.started then
      let s1 := setJob r e.1 (some { e.2 with cancelled := true, ended_ := true }) s
      if e.2.descBad then queueRecord r e.1 11 4 0 0#64 s1 else queueRecord r e.1 8 4 0 (descUser e.2.desc) s1
    else if e.2.next < e.2.parts then setJob r e.1 (some { e.2 with cancelled := true }) s
    else s) s

/-- Every descriptor below MARK has its record (R240, R242): the ring runs again, or is disabled. -/
def markDone (r : Nat) (s : State) : State :=
  let x := getRing s r
  let clear := (jobsOf s r).isEmpty && x.outq.isEmpty && x.reading.isNone
  if x.st = .aborting ∧ x.head = x.mark ∧ clear then onRing r (fun y => { y with st := .running }) s
  else if x.st = .disabling ∧ (x.head = x.mark ∨ x.quiet) ∧ (jobsOf s r).isEmpty ∧ (x.quiet ∨ clear) then
    onRing r (fun y => { y with st := .disabled, route := none, quiet := false, outq := [], writing := false, inflight := 0 }) s
  else s

/-- No further record is written for a ring: it is stopped, or disabled from there (R242, R243). -/
def silent (x : Ring) : Bool := decide (x.st = .stopped) || x.quiet

/-- An abort (R240): MARK is TAIL. -/
def abortRing (r : Nat) (s : State) : State :=
  if (getRing s r).st ≠ .running then s
  else markDone r (cancelJobs r (onRing r (fun y => { y with st := .aborting, mark := y.tail }) s))

/-- A disable (R242): acts as an abort with MARK = TAIL; from stopped it only waits for parts still running. -/
def disableRing (r : Nat) (s : State) : State :=
  let x := getRing s r
  if x.st = .running then markDone r (cancelJobs r (onRing r (fun y => { y with st := .disabling, mark := y.tail }) s))
  else if x.st = .aborting then markDone r (cancelJobs r (onRing r (fun y => { y with st := .disabling, mark := y.tail }) s))
  else if x.st = .stopped then markDone r (onRing r (fun y => { y with st := .disabling, quiet := true, outq := [], writing := false }) s)
  else s

/-- The range is being filled (R90). -/
def inFill (s : State) (dpa : Nat) : Bool :=
  s.map.fills.any (fun e => match e.2 with | some f => decide (f.base ≤ dpa ∧ dpa < f.base + f.len) | none => false)

/-- The DPA lies in a Dynamic Capacity region in no extent bound to the LD, or to any LD of the head when none is named (R74).
A job of the management head may touch an extent bound to another head's LD (DESIGN CHOICE, log 152). -/
def unbound (s : State) (head : Nat) (ld : Option Nat) (dpa : Nat) : Bool :=
  match regionAt s dpa with
  | none => false
  | some r =>
    r.dc && (match extentAt s dpa with
      | none => true
      | some e =>
        let d := s.map.decls[e]?
        let mine := match d with | some d => decide (d.head = head) && (match ld with | some l => decide (d.ld = l) | none => true) | none => false
        match Table.get .free s.map.exts e with
        | .bound _ => !mine && !(ld.isNone && decide (head = mgmtHead s))
        | _ => true)

/-- A job access to a line meets a data error before it reaches its home (R74, R90, R236). -/
def jobBlocked (s : State) (owner line : Nat) : Bool := inFill s (64 * line) || unbound s owner none (64 * line)

end Sys2Proof.Machine
end

