-- ==== Sys2Proof/Machine/Tile.lean ====
section
/-!
DEFINITION. A tile's near cache and its own operations (R97–R104, R124–R147): slots, tree-PLRU, eviction buffers, requester trackers, what an
operation does on a line, and what it answers when it ends.
-/
namespace Sys2Proof.Machine

/-- Opcode of a Koist message (R457). -/
def opCode : Op → Nat
  | .rdShared => 0x00 | .rdOwn => 0x01 | .rdCur => 0x02 | .wrLine => 0x03 | .wrPart => 0x04 | .hostCe => 0x05
  | .snpInv => 0x06 | .snpShare => 0x07 | .snpOwn => 0x08 | .snpCur => 0x09
  | .datS => 0x0A | .datE => 0x0B | .datX => 0x0C | .grant => 0x0D | .fwdNote => 0x0E | .wbAck => 0x0F | .cmp => 0x10 | .biSnpReq => 0x11
  | .biAckReq => 0x12
  | .snpRspI => 0x13 | .snpRspIData => 0x14 | .snpRspFwd => 0x15 | .snpRspFwdS => 0x16 | .wbData => 0x17 | .biRspFwd => 0x18
  | .hostWb => 0x19 | .biConflictFwd => 0x1A
  | .fdatS => 0x1B | .fdatE => 0x1C | .fdatM => 0x1D | .fdatX => 0x1E
  | .farAtom => 0x1F | .atomRes => 0x20

/-- Key of a line at a tile. -/
def tkey (t line : Nat) : Nat := t * 2 ^ 42 + line

def getTrk (s : State) (t line : Nat) : Trk := Table.get {} s.nc.trks (tkey t line)
def setTrk (t line : Nat) (k : Trk) (s : State) : State := onNc (fun n => { n with trks := Table.set {} n.trks (tkey t line) k }) s
def getOps (s : State) (t line : Nat) : List WOp := Table.get [] s.nc.ops (tkey t line)
def setOps (t line : Nat) (l : List WOp) (s : State) : State := onNc (fun n => { n with ops := Table.set [] n.ops (tkey t line) l }) s
def getEvb (s : State) (t line : Nat) : Option LVal := Table.get none s.nc.evb (tkey t line)
def setEvb (t line : Nat) (v : Option LVal) (s : State) : State := onNc (fun n => { n with evb := Table.set none n.evb (tkey t line) v }) s

/-- Set index and tag of a line (R124). -/
def ncSet (line : Nat) : Nat := (line % 65536) ^^^ (line / 65536 % 65536) ^^^ (line / 2 ^ 32 % 1024)
def ncTag (line : Nat) : BitVec 26 := BitVec.ofNat 26 (line / 65536)

/-- The line a slot's set and tag name. -/
def ncLine (set : Nat) (tag : BitVec 26) : Nat :=
  65536 * tag.toNat + (set ^^^ (tag.toNat % 65536) ^^^ (tag.toNat / 65536 % 1024))

def ncKey (t set w : Nat) : Nat := (65536 * t + set) * 16 + w
def getNcSlot (s : State) (t set w : Nat) : Slot := Table.get {} s.nc.slots (ncKey t set w)
def setNcSlot (t set w : Nat) (x : Slot) (s : State) : State := onNc (fun n => { n with slots := Table.set {} n.slots (ncKey t set w) x }) s

/-- Way `w` is a scratch way; a way in both masks acts as scratch (R132). -/
def isScratch (s : State) (t w : Nat) : Bool := decide (8 ≤ w) && (regFld s .ncWayCfg t 15 8).testBit (w - 8)
def isLockable (s : State) (t w : Nat) : Bool := decide (8 ≤ w) && (regFld s .ncWayCfg t 7 0).testBit (w - 8) && !isScratch s t w
def isOrdinary (s : State) (t w : Nat) : Bool := !isScratch s t w && !isLockable s t w

/-- The way that holds a valid copy of the line. -/
def wayOf (s : State) (t line : Nat) : Option Nat :=
  (List.range 16).find? (fun w => let x := getNcSlot s t (ncSet line) w
    decide (x.st ≠ .i) && decide (x.tag = ncTag line) && !isScratch s t w)

/-- The kept-tag slot of the line (R133). -/
def keptWay (s : State) (t line : Nat) : Option Nat :=
  (List.range 16).find? (fun w => let x := getNcSlot s t (ncSet line) w
    decide (x.st = .i) && x.lock && decide (x.tag = ncTag line) && isLockable s t w)

/-- The slot is held by a requester tracker (R128). -/
def heldWay (s : State) (t set w : Nat) : Bool :=
  s.nc.trks.any (fun e => decide (e.1 / 2 ^ 42 = t) && e.2.live && decide (e.2.way = some w) && decide (ncSet (e.1 % 2 ^ 42) = set))

/-- The tree walk of R128: from node `n` over the ways from `lo`, `k` levels left. -/
def plruGo (bits : BitVec 15) (elig : Nat → Bool) : Nat → Nat → Nat → Nat
  | 0, _, lo => lo
  | k + 1, n, lo =>
    let some_ (a : Nat) : Bool := (List.range (2 ^ k)).any (fun i => elig (a + i))
    if (if bits.getLsbD n then some_ (lo + 2 ^ k) else !some_ lo) then plruGo bits elig k (2 * n + 2) (lo + 2 ^ k)
    else plruGo bits elig k (2 * n + 1) lo

/-- The victim among the eligible ways: an invalid one first, lowest way first (R128). -/
def plruPick (bits : BitVec 15) (empty elig : Nat → Bool) : Option Nat :=
  match (List.range 16).find? (fun w => elig w && empty w) with
  | some w => some w
  | none => if (List.range 16).any elig then some (plruGo bits elig 4 0 0) else none

/-- The node of level `k` on the path of way `w`, and the update of a use (R127, R129). -/
def plruTouch (bits : BitVec 15) (w : Nat) : BitVec 15 :=
  (List.range 4).foldl (fun b k => setBit b (2 ^ k - 1 + w >>> (4 - k)) (!w.testBit (3 - k))) bits

def getPlru (s : State) (t set : Nat) : BitVec 15 := Table.get 0#15 s.nc.plru (65536 * t + set)
def touchWay (t set w : Nat) (s : State) : State :=
  onNc (fun n => { n with plru := Table.set 0#15 n.plru (65536 * t + set) (plruTouch (Table.get 0#15 n.plru (65536 * t + set)) w) }) s

/-- The copy a tile can use: a valid slot, or what forwarded data has installed ahead of its note (R99). -/
def copyOf (s : State) (t line : Nat) : Option (LineSt × LVal) :=
  let k := getTrk s t line
  if k.live && decide (k.st = .isN) then (if k.bad then none else some (.s, k.val))
  else if k.live && decide (k.st = .imN) then (if k.bad then none else some (if k.dirty then .m else .e, k.val))
  else match wayOf s t line with
    | some w => let x := getNcSlot s t (ncSet line) w; some (x.st, x.val)
    | none => none

/-- Rewrite the copy. A slot that becomes I keeps its tag and its lock. -/
def putCopy (t line : Nat) (st : LineSt) (v : LVal) (s : State) : State :=
  let k := getTrk s t line
  if k.live && (decide (k.st = .isN) || decide (k.st = .imN)) then setTrk t line { k with val := v, dirty := k.dirty || decide (st = .m) } s
  else match wayOf s t line with
    | some w =>
      let x := getNcSlot s t (ncSet line) w
      setNcSlot t (ncSet line) w (if st = .i then { x with st := .i, val := {}, bad := false, tag := if x.lock then x.tag else 0#26 } else { x with st := st, val := v }) s
    | none => s

/-- A use of the line by a Read or Own operation (R129). -/
def touchLine (t line : Nat) (s : State) : State :=
  let k := getTrk s t line
  match (if k.live && (decide (k.st = .isN) || decide (k.st = .imN)) then k.way else wayOf s t line) with
  | some w => touchWay t (ncSet line) w s
  | none => s

/-- Lines written since their page was materialised (log 41). -/
def markWritten (line : Nat) (s : State) : State :=
  onHa (fun h => { h with written := Table.mod 0#64 h.written (line / 64) (fun w => setBit w (line % 64) true) }) s

/-- A read of a line that no write has reached is counted at its head: a host's, or the owner of the ring whose job it is (R26, R88). -/
def countUnwritten (line : Nat) (a : Attr) (s : State) : State :=
  if a.kind < 2 ∧ ¬(Table.get 0#64 s.ha.written (line / 64)).getLsbD (line % 64) then addCnt (portCnt a.head 7) 1 s else s

/-- Requester trackers in use on a tile (R98). -/
def trkCount (s : State) (t : Nat) : Nat := Table.count (fun k x => decide (k / 2 ^ 42 = t) && x.live) s.nc.trks

/-- The lowest tracker number free on a tile. -/
def freeTrk (s : State) (t : Nat) : Nat :=
  let used := s.nc.trks.filterMap (fun e => if e.1 / 2 ^ 42 = t ∧ e.2.live then some e.2.id else none)
  ((List.range 1024).find? (fun i => !used.contains i)).getD 0

/-- Eviction buffers of a tile that are in use, and those that hold lines of one home (R98, R130). -/
def evbCount (s : State) (t : Nat) : Nat := Table.count (fun k x => decide (k / 2 ^ 42 = t) && x.isSome) s.nc.evb
def evbRoom (s : State) (t line : Nat) : Bool :=
  decide (evbCount s t < 64) &&
  decide (Table.count (fun k x => decide (k / 2 ^ 42 = t) && x.isSome && decide (homeOf s (k % 2 ^ 42) = homeOf s line)) s.nc.evb < 8)

/-- Send on a channel; a message whose route crosses a down link is lost (R18, R455). -/
def sendHom (m : Msg) (s : State) : State := if cutOff s m.src m.dst then s else onFab (fun f => { f with hom := f.hom ++ [m] }) s
def sendRsp (m : Msg) (s : State) : State := if cutOff s m.src m.dst then s else onFab (fun f => { f with rsp := f.rsp ++ [m] }) s
def sendFwd (m : Msg) (s : State) : State := if cutOff s m.src m.dst then s else onFab (fun f => { f with fwd := f.fwd ++ [m] }) s

/-- Write an M line back (R115, R130): into an eviction buffer, WbData sent. The copy's place is the caller's. -/
def writeBack (t line : Nat) (v : LVal) (s : State) : State :=
  let h := homeOf s line
  if cutOff s t h then s
  else sendRsp { op := .wbData, src := t, dst := h, line := line, val := v } (setEvb t line (some v) (addCnt (tileCnt t 458) 1 s))

/-- A copy fails its check (R139): S and E become I; M is written back with its check bytes, or stays without serving until an eviction buffer is free.
Forwarded data whose note has not arrived waits for it. -/
def dropBad (t line : Nat) (s : State) : State :=
  let k := getTrk s t line
  if k.live && (decide (k.st = .isN) || decide (k.st = .imN)) then setTrk t line { k with bad := true } s
  else match wayOf s t line with
    | none => s
    | some w =>
      let x := getNcSlot s t (ncSet line) w
      if x.st ≠ .m then putCopy t line .i {} s
      else if evbRoom s t line then writeBack t line x.val (putCopy t line .i {} s)
      else setNcSlot t (ncSet line) w { x with bad := true } s

/-- The line's slot holds a copy that failed its check (R139). -/
def slotBad (s : State) (t line : Nat) : Bool := match wayOf s t line with | some w => (getNcSlot s t (ncSet line) w).bad | none => false

/-! Trackers at the home (R312). -/

/-- Reserve of a class at a home tile (QOS_TRK). -/
def resOf (s : State) (h c : Nat) : Nat := regFld s .qosTrk (16 * h + c) 12 0

/-- The shared pool of a home tile: what the reserves leave. -/
def sharedPool (s : State) (h : Nat) : Nat := 4096 - (List.range 16).foldl (fun a c => a + resOf s h c) 0

/-- The requests that hold a tracker of a home: sent to it, and not ended. A line that a decompression fills holds none. -/
def homeMsgs (s : State) (h : Nat) : List Msg :=
  (s.fab.req ++ s.ha.lq.flatMap (·.2) ++ s.ha.allocQ.flatMap (·.2) ++ s.ha.txns.filterMap (fun e => if e.2.live then e.2.req else none)).filter
    (fun m => m.dst = h ∧ m.op ≠ .datS)

/-- The line locks of a home that walkers hold: each has a tracker of the walker class. -/
def walkTrks (s : State) (h : Nat) : Nat := (s.ha.walkLock.filter (fun e => homeOf s e.1 = h)).length

def isWalker (s : State) (c : Nat) : Bool := decide (c = paramNat s "qos.class.walker" 15)

/-- Trackers of a home that a class holds (QOS_TRK), and those among them that are its reserve's. -/
def trkInUse (s : State) (h c : Nat) : Nat :=
  ((homeMsgs s h).filter (fun m => m.attr.cls = c)).length + (if isWalker s c then walkTrks s h else 0)
def resUse (s : State) (h c : Nat) : Nat :=
  ((homeMsgs s h).filter (fun m => m.attr.cls = c ∧ m.shared = false)).length + (if isWalker s c then walkTrks s h else 0)

/-- Request trackers of a home in use (TRK_ACTIVE), and those taken from the shared pool: a request keeps the one it took. -/
def trkActive (s : State) (h : Nat) : Nat := (homeMsgs s h).length + walkTrks s h
def sharedUse (s : State) (h : Nat) : Nat := ((homeMsgs s h).filter (·.shared)).length

/-- A class's own reserve at the home has room. -/
def inReserve (s : State) (h c : Nat) : Bool := decide (resUse s h c < resOf s h c)

/-- A request of the class can take a tracker: from its reserve, or from the pool that the throttle lends out (R312, R333). -/
def homeRoom (s : State) (h c : Nat) : Bool :=
  inReserve s h c || decide (sharedUse s h < sharedPool s h * (8 - s.meter.throttle) / 8)

/-! The operations. -/

/-- The attributes of firmware requests and of the range engine (R26): the firmware class, the key of the region. -/
def fwAttr (s : State) (line : Nat) : Attr :=
  let key := match regionAt s (64 * line) with | some r => currentKey s r | none => 0#12
  { head := 0, cls := paramNat s "qos.class.firmware" 14, key := key, kind := 3 }

def opAttr (s : State) (line : Nat) : WOp → Attr
  | .hostRd a _ _ _ _ => a
  | .hostWr a _ _ _ _ _ _ => a
  | .hostEvict a _ => a
  | .atom a _ _ _ => a
  | .jobRd a _ _ _ _ => a
  | .jobWr a _ _ _ _ _ _ _ => a
  | .descRd a _ _ => a
  | .cqWr a _ _ _ _ => a
  | .preload | .clean | .inv | .unlock | .fwRd _ | .fwWr _ _ | .poisonCmd _ _ _ => fwAttr s line

/-- The operation is a Read that allocates (R125, R458). -/
def isFill : WOp → Bool
  | .hostRd _ _ hk _ db => decide (hk = 1) && !db
  | _ => false

/-- The operation is served by a copy the tile holds (R102, R459). -/
def isRead : WOp → Bool
  | .hostRd _ _ hk _ db => decide (hk = 1) && !db
  | .fwRd _ | .jobRd _ _ _ _ _ | .descRd _ _ _ => true
  | _ => false

/-- Number of a memory operand, little-endian (R7). -/
def atomMask (size : Nat) : Nat := 2 ^ (8 * size) - 1

/-- Apply an atomic to a line (R142): the new line, the original value, and whether it writes. -/
def applyAtom (o : AtomOp) (d : Line) : Line × W64 × Bool :=
  let m := atomMask o.size
  let orig := (d.toNat >>> (8 * o.off)) &&& m
  let new := match o.kind with
    | .fetchAdd => (orig + o.operand.toNat) &&& m
    | .swap => o.operand.toNat &&& m
    | .cas => if orig = o.compare.toNat &&& m then o.operand.toNat &&& m else orig
  let writes := match o.kind with | .cas => decide (orig = o.compare.toNat &&& m) | _ => true
  let hole : Line := ~~~(BitVec.ofNat 512 (m <<< (8 * o.off)))
  ((d &&& hole) ||| BitVec.ofNat 512 (new <<< (8 * o.off)), BitVec.ofNat 64 orig, writes)

/-- Predictor entry of a line (R145). -/
def predKey (t line : Nat) : Nat := 1024 * t + ((line % 1024) ^^^ (line / 1024 % 1024))
def predTag (line : Nat) : BitVec 10 := BitVec.ofNat 10 (line / 2 ^ 20)

/-- Train the predictor (R146): a replaced entry trains nothing, and the fixed modes do not train. -/
def train (t line : Nat) (up : Bool) (n : Nat) (s : State) : State :=
  let mode := regFld s .atpCfg t 7 6
  let e := Table.get {} s.nc.pred (predKey t line)
  if mode = 1 ∨ mode = 2 ∨ ¬e.v ∨ e.tag ≠ predTag line then s
  else onNc (fun x => { x with pred := Table.set {} x.pred (predKey t line) { e with cnt := if up then min 7 (e.cnt + n) else e.cnt - n } }) s

def trainNear (t line : Nat) (k : FillKind) (s : State) : State :=
  match k with
  | .hit => train t line false 1 s
  | .forwarded => train t line true 2 s
  | .home => s

/-- Count the units of a host request or job part (R316, R413). -/
def countUnits (t : Nat) (a : Attr) (wr : Bool) (s : State) : State :=
  let s1 := addUnits (tileCnt t (96 + 2 * a.cls + b2n wr)) 1 s
  if a.kind = 0 then addUnits (portCnt a.head (2 + b2n wr)) 1 s1 else s1

/-- A request of a head ends: its class has one fewer outstanding (R313). -/
def endHostReq (a : Attr) (s : State) : State :=
  onQos (fun q => { q with out := Table.mod 0 q.out (16 * a.head + a.cls) (fun n => n - 1) }) s

def reply (a : Attr) (m : LinkMsg) (s : State) : State := if a.mute then s else send a.head m s

/-- The head answers requests as data errors before Dawn completes and from a quiesce on (R350, R351, R407). -/
def headErrs (s : State) (h : Nat) : Bool := !s.dawn.memActive || !(getPort s h).ready || quiesced s

/-- Why a request of the head meets a data error, as the state stands when it is answered (R56, log 116). -/
def causeOf (s : State) (a : Attr) (line : Nat) : ErrCause :=
  if headErrs s a.head then .closed
  else if cutOff s (portTile a.head) (homeOf s line) then .koistLink
  else if inFill s (64 * line) then .filling
  else match regionAt s (64 * line) with
    | none => .unbound
    | some r =>
      if (viewOf s a.head a.ld r.idx).isNone || unbound s a.head (some a.ld) (64 * line) then .unbound
      else if decide (r.typ = .protect ∨ r.typ = .packed) && !keyAllowed s r a.key then .keyMismatch
      else if decide (r.typ = .protect) && isDamaged s (dpaLoc s r line) then .damaged
      else if lineLost s line then .lost
      else .check

/-- A data error on a CXL.mem request is logged on its head (R56). -/
def hostError (a : Attr) (line : Nat) (s : State) : State := eventHead a.head ⟨.failure, .dataError (64 * line) (causeOf s a line)⟩ s

/-- An operation ends (R56, R60, R97): its answer to the head, the job engine, firmware, the mailbox or the range engine. -/
def finishOp (t line : Nat) (op : WOp) (v : LVal) (err : Bool) (ndr : Ndr) (s : State) : State :=
  let bad := err || v.poison
  match op with
  | .hostRd a tag hk _ db =>
    let data := decide (hk ≠ 4 ∧ hk ≠ 5 ∧ hk ≠ 7)
    let s1 := if data then
        let s0 := countUnits t a false s
        let s0 := if err then addCnt (portCnt a.head 6) 1 s0 else if v.poison then addCnt (portCnt a.head 5) 1 s0 else s0
        reply a (.memData tag (if bad then 0#512 else v.data) bad) s0
      else s
    let s2 := if db || !data then reply a (.ndr tag ndr) s1 else s1
    endHostReq a (if err then hostError a line s2 else s2)
  | .hostWr a tag _ _ _ _ _ =>
    let s1 := if err then hostError a line (addCnt (portCnt a.head 6) 1 s) else countUnits t a true s
    endHostReq a (reply a (.ndr tag ndr) s1)
  | .hostEvict a tag => endHostReq a (reply a (.ndr tag ndr) s)
  | .atom a tag _ _ =>
    -- a read unit on return, and a write unit where the operation is done (log 147)
    let s1 := countUnits t a false (if err then addCnt (portCnt a.head 6) 1 s else s)
    reply a (if bad then .atomicCpl tag .abort 0#64 else .atomicCpl tag .success (BitVec.ofNat 64 v.data.toNat)) (if bad then s1 else countUnits t a true s1)
  | .preload | .clean | .inv | .unlock =>
    onNc (fun n => { n with range := Table.mod {} n.range t (fun r => { r with waits := r.waits.erase line }) }) s
  | .fwRd tap =>
    if tap then onTap (fun x => { x with dr := if bad then 0 else v.data.toNat }) s
    else onNc (fun n => { n with fwOut := some (if bad then none else some v.data) }) s
  | .fwWr tap _ => if tap then s else onNc (fun n => { n with fwOut := some (if err then none else some 0#512) }) s
  | .jobRd a _ _ _ _ => onJob (fun j => { j with done := j.done ++ [(op, v, err)] }) (countUnits t a false s)
  | .jobWr a _ n _ _ _ _ _ =>
    onJob (fun j => { j with done := j.done ++ [(op, v, err)] }) (if err ∨ n = initN then s else countUnits t a true s)
  | .descRd _ _ _ | .cqWr _ _ _ _ _ => onJob (fun j => { j with done := j.done ++ [(op, v, err)] }) s
  | .poisonCmd f _ _ => if f = abandonedFn then s else onFn f (fun x => { x with rsp := some ⟨if err then .internalError else .success, .none⟩, payload := [] }) s

/-- A hit is counted; the operation that caused the fill was a miss (R134). -/
def countHit (t : Nat) (first : Bool) (s : State) : State := if first then s else addCnt (tileCnt t 456) 1 s

/-- A read served by a hit may be of an unwritten line (R88); the fill's own read has been counted at the home. -/
def countZeroHit (line : Nat) (op : WOp) (first poison : Bool) (s : State) : State :=
  match regionAt s (64 * line) with
  | some r => if r.typ ≠ .packed ∧ first = false ∧ poison = false then countUnwritten line (opAttr s line op) s else s
  | none => s

/-- A near atomic has computed a line: where it wrote, the copy becomes M with it (R99, R102, R142). -/
def nearWrite (t line : Nat) (v : LVal) (new : Line) (wr : Bool) (s : State) : State :=
  if wr then markWritten line (putCopy t line .m { v with data := new, chk := lineChk line new } s) else s

/-- Serve one operation from the tile's copy, if it can be (R102, R139): answers the state where it could. `k` is how the copy came, for the
operation that caused the fill; `first` that operation. -/
def serveHit (t line : Nat) (op : WOp) (first : Bool) (k : FillKind) (s : State) : Option State :=
  match copyOf s t line with
  | none => none
  | some (st, v) =>
    let serves := isRead op || (match op with | .atom _ _ _ false => decide (st ≠ .s) | _ => false)
    if !serves then none
    else if slotBad s t line then none
    else if !v.poison && !valOk line v.data v.chk then some (finishOp t line op {} true .cmp (dropBad t line (touchLine t line s)))
    else match op with
      | .atom _ _ o _ =>
        if v.poison then some (finishOp t line op v true .cmp (touchLine t line s))
        else
          let d := valFixed line v.data v.chk
          let (new, orig, wr) := applyAtom o d
          some (finishOp t line op { data := BitVec.ofNat 512 orig.toNat } false .cmp
            (trainNear t line (if first then k else .hit) (nearWrite t line v new wr (countHit t first (touchLine t line s)))))
      | _ =>
        let d := if v.poison then v else { v with data := valFixed line v.data v.chk }
        some (finishOp t line op d false .cmp (countHit t first (touchLine t line (countZeroHit line op first v.poison s))))

/-- Serve the operations that wait on a line from its copy, oldest first, until one cannot be (R104). -/
def serveHits (t line : Nat) (k : FillKind) : Nat → Bool → State → State
  | 0, _, s => s
  | f + 1, first, s =>
    match getOps s t line with
    | [] => s
    | op :: rest =>
      match serveHit t line op first k (setOps t line rest s) with
      | some s1 => serveHits t line k f false s1
      | none => s

/-- Give up the tile's copy before a request that fills nothing (R459): the data of an M copy that is dropped, if any. -/
def dropCopy (t line : Nat) (s : State) : Option LVal × State :=
  match copyOf s t line with
  | some (.m, v) => (some v, putCopy t line .i {} s)
  | some (_, _) => (none, putCopy t line .i {} s)
  | none => (none, s)

def fullMask : W64 := BitVec.allOnes 64

/-- A write's message (R97, R459): an M copy, its corrected words, is merged under a partial write and discarded under a full one. -/
def writeMsg (base : Msg) (mask : W64) (full : Bool) (v : LVal) (old : Option LVal) : Msg :=
  if full then { base with op := .wrLine, mask := fullMask, val := v }
  else match old with
    | none => { base with op := .wrPart, mask := mask, val := v }
    | some m =>
      let d := mergeLine mask v.data (if m.poison then m.data else valFixed base.line m.data m.chk)
      { base with op := .wrPart, mask := fullMask, val := { data := d, chk := lineChk base.line d, poison := v.poison || m.poison } }

/-- The REQ message of an operation that fills no line (R97, R142, R459, R460); `old` is M data it gave up. -/
def msgOf (s : State) (t line : Nat) (op : WOp) (old : Option LVal) : Msg :=
  let h := homeOf s line
  let b : Msg := { op := .rdCur, src := t, dst := h, line := line, attr := opAttr s line op }
  match op with
  | .hostRd _ _ hk mv db => { b with hk := hk, mv := mv, db := db }
  | .hostWr _ _ mv db mask full v => { writeMsg b mask full v old with hk := 6, mv := mv, db := db }
  | .hostEvict _ _ => { b with op := .hostCe }
  | .atom _ _ o _ => { b with op := .farAtom, atom := some o, mask := BitVec.ofNat 64 ((2 ^ o.size - 1) <<< o.off) }
  | .fwWr _ v => { b with op := .wrLine, mask := fullMask, val := v }
  | .jobWr _ _ _ _ _ mask full v => writeMsg b mask full v old
  | .cqWr _ _ _ mask v => writeMsg b mask false v old
  | .poisonCmd _ clear v => { b with op := .wrLine, mask := fullMask, val := v, setPoison := some (!clear) }
  | _ => b

/-- Requests for which the home sends Cmp (R97, R109): writes, host operations, and reads of HDM-DB views or without data. -/
def wantsCmp (m : Msg) : Bool :=
  match m.op with
  | .wrLine | .wrPart | .hostCe => true
  | .rdCur => decide (m.hk ≠ 0) && (m.db || decide (m.hk = 4) || decide (m.hk = 5) || decide (m.hk = 7))
  | _ => false

/-- Requests whose data or result the tracker waits for. -/
def wantsData (m : Msg) : Bool :=
  match m.op with
  | .rdCur => decide (m.hk ≠ 4 ∧ m.hk ≠ 5 ∧ m.hk ≠ 7)
  | .farAtom => true
  | _ => false

/-- A tracker ends: its request is over. With forwarded data still on its way to it, it stays to sink that (R98). -/
def freeTrkOf (t line : Nat) (s : State) : State :=
  let k := getTrk s t line
  setTrk t line (if k.live && s.fab.fwd.any (fun m => decide (m.op = .fdatX ∧ m.dst = t ∧ m.line = line ∧ m.trk = k.id)) then
    { id := k.id, sink := true, seq := k.seq, live := true } else {}) s

/-- The way a miss fills (R128, R133): the line's kept-tag slot, else the victim among ordinary ways. -/
def missWay (s : State) (t line : Nat) : Option Nat :=
  match keptWay s t line with
  | some w => if heldWay s t (ncSet line) w then none else some w
  | none => plruPick (getPlru s t (ncSet line)) (fun w => decide ((getNcSlot s t (ncSet line) w).st = .i))
      (fun w => isOrdinary s t w && !heldWay s t (ncSet line) w)

/-- A partial write that finds an M copy failing its check: it meets a data error (R22, R57, R139). -/
def mergeBad (s : State) (t line : Nat) (op : WOp) : Bool :=
  let part := match op with | .hostWr _ _ _ _ _ full _ | .jobWr _ _ _ _ _ _ full _ => !full | .cqWr _ _ _ _ _ => true | _ => false
  part && (match copyOf s t line with | some (.m, v) => !v.poison && !valOk line v.data v.chk | _ => false)

/-- A lockable slot of the line's set with LOCK 0 exists, be it held by a tracker (R128, R134). -/
def lockRoom (s : State) (t line : Nat) : Bool :=
  (List.range 16).any (fun w => isLockable s t w && !(getNcSlot s t (ncSet line) w).lock)

/-- UNLOCK's effect on one line (R134). -/
def unlockLine (t line : Nat) (s : State) : State :=
  (List.range 16).foldl (fun s w =>
    let x := getNcSlot s t (ncSet line) w
    if x.lock ∧ x.tag = ncTag line then setNcSlot t (ncSet line) w { x with lock := false, tag := if x.st = .i then 0#26 else x.tag } s else s) s

/-- The way a preload fills (R134): the kept-tag slot, the line's own unlocked slot (DEDUCED, log 42), else the choice among unlocked slots. -/
def preloadWay (s : State) (t line : Nat) : Option Nat :=
  match keptWay s t line with
  | some w => some w
  | none =>
    match wayOf s t line with
    | some w => some w
    | none => plruPick (getPlru s t (ncSet line)) (fun w => decide ((getNcSlot s t (ncSet line) w).st = .i))
        (fun w => isLockable s t w && !(getNcSlot s t (ncSet line) w).lock && !heldWay s t (ncSet line) w)

/-- A preload has written back the line of the slot it takes: its operation waits for that WbAck too (R137). -/
def noteWb (t victim : Nat) (s : State) : State := onNc (fun n => { n with range := Table.mod {} n.range t (fun r => { r with wbs := r.wbs ++ [victim] }) }) s

/-- Make a tracker's slot ready (R130): its victim is dropped or copied into an eviction buffer; none when no buffer can be taken. -/
def readySlot (t line : Nat) (k : Trk) (s : State) : Option State :=
  match k.way with
  | none => some s
  | some w =>
    let set := ncSet line
    let x := getNcSlot s t set w
    let mine (s : State) : State :=
      setNcSlot t set w { x with tag := ncTag line, st := .i, val := {}, lock := k.lock || (x.lock && decide (x.tag = ncTag line)) } s
    if x.st = .m then
      let victim := ncLine set x.tag
      if cutOff s t (homeOf s victim) then some (mine s)
      else if evbRoom s t victim then some (mine (writeBack t victim x.val (if k.lock then noteWb t victim s else s))) else none
    else some (mine s)

/-- An operation that meets a data error (R57, R103): its tracker, if any, ends. -/
def failFront (t line : Nat) (s : State) : State :=
  match getOps s t line with
  | [] => s
  | op :: rest => finishOp t line op {} true .cmp (setOps t line rest s)

/-! The shared pool's turns (R313, R331). -/

/-- PORT_CAP of a class as it acts (QOS_CLS_CFG). -/
def portCap (s : State) (c : Nat) : Nat := let v := regFld s .qosClsCfg c 10 0; if v = 0 ∨ 1024 < v then 1024 else v

def getHold (s : State) (h : Nat) : List HeldReq := Table.get [] s.qos.hold h

/-- The request needs a tracker at its home: its tile cannot serve it from a copy (R102). -/
def needsTrk (s : State) (h : Nat) (x : HeldReq) : Bool :=
  !(isRead x.op && (copyOf s (portTile h) x.line).isSome && (getOps s (portTile h) x.line).isEmpty)

/-- Fewer than PORT_CAP requests of the class are outstanding at the head (R313). -/
def underCap (s : State) (h : Nat) (x : HeldReq) : Bool := decide (Table.get 0 s.qos.out (16 * h + x.cls) < portCap s x.cls)

/-- It can leave without the shared pool, and with it. -/
def leavesNow (s : State) (h : Nat) (x : HeldReq) : Bool := underCap s h x && (!needsTrk s h x || inReserve s x.home x.cls)
def leavesPool (s : State) (h : Nat) (x : HeldReq) : Bool := underCap s h x && needsTrk s h x && !inReserve s x.home x.cls && homeRoom s x.home x.cls

/-- The head a request takes its turn for: its own, or the owner of the ring whose job it is. Firmware and range requests have none and stand as a
64th (DESIGN CHOICE, log 113). -/
def turnHead (a : Attr) : Nat := if a.kind < 2 then a.head else 64

/-- Tenant of a head: an unassigned one stands for itself (R331). -/
def tenantOf (s : State) (h : Nat) : Nat :=
  let v := leAt (slice s.host.surr 0 80) (16 + h) 1
  if 64 ≤ h ∨ v = 255 ∨ s.host.surr = [] then 256 + h else v

/-- The first of a list in cyclic order after `last` (0: no one yet). -/
def cyclicNext (last : Nat) (l : List Nat) : Option Nat :=
  let least (l : List Nat) : Option Nat := l.foldl (fun a x => match a with | none => some x | some y => some (min x y)) none
  match least (l.filter (fun x => last ≤ x)) with
  | some x => some x
  | none => least l

/-- A tracker whose request waits at its tile for a shared tracker of the home, with nothing else in its way (R130, R312). -/
def waitsPool (s : State) (home : Nat) (e : Nat × Trk) : Bool :=
  e.2.live && e.2.unsent && (match e.2.req with
    | some m => decide (m.dst = home) && !inReserve s home m.attr.cls && homeRoom s home m.attr.cls &&
        (readySlot (e.1 / 2 ^ 42) (e.1 % 2 ^ 42) e.2 s).isSome
    | none => false)

/-- The oldest request of a head that waits so: its place in the order of R331. -/
def oldestPool (s : State) (h home : Nat) : Option Nat :=
  (s.nc.trks.filter (fun e => waitsPool s home e && (match e.2.req with | some m => decide (turnHead m.attr = h) | none => false))).foldl
    (fun a e => match a with | none => some e.2.seq | some x => some (min x e.2.seq)) none

/-- A head has a request that waits so. -/
def deferredPool (s : State) (h home : Nat) : Bool := (oldestPool s h home).isSome

/-- The head whose turn it is for the shared pool of a home (R331): round robin over tenants, then over the heads of a tenant. -/
def poolTurn (s : State) (home : Nat) : Option Nat :=
  let hs := (heads s ++ [64]).filter (fun h => deferredPool s h home || (getHold s h).any (fun x => decide (x.home = home) && leavesPool s h x))
  match cyclicNext (Table.get 0 s.qos.poolRr home) (hs.map (tenantOf s)) with
  | none => none
  | some tn => cyclicNext (Table.get 0 s.qos.poolRr (1024 * (home + 1) + tn)) (hs.filter (fun h => tenantOf s h = tn))

/-- A head takes its turn of the shared pool of a home (R331). -/
def takeTurn (h home : Nat) (s : State) : State :=
  let tn := tenantOf s h
  onQos (fun q => { q with poolRr := Table.set 0 (Table.set 0 q.poolRr home (tn + 1)) (1024 * (home + 1) + tn) (h + 1) }) s

/-- It is the waiting request's turn: its head's, and the head's oldest (R331). -/
def itsTurn (s : State) (home : Nat) (a : Attr) (seq : Nat) : Bool :=
  decide (poolTurn s home = some (turnHead a)) && decide (oldestPool s (turnHead a) home = some seq)

/-- The request leaves for its home with a tracker of it. -/
def sendReq (t line : Nat) (k : Trk) (m : Msg) (shared : Bool) (s : State) : State :=
  addCnt (tileCnt t 478) 1 (onFab (fun f => { f with req := f.req ++ [{ m with trk := k.id, shared := shared }] }) (setTrk t line { k with unsent := false } s))

/-- Send a tracker's request (R18, R98, R130, R312, R331): a home that cannot be reached is a data error; without an eviction buffer or a home
tracker it stays unsent, and a shared tracker is taken in turn. -/
def launch (t line : Nat) (s : State) : State :=
  let k := getTrk s t line
  match k.req with
  | none => s
  | some m =>
    if cutOff s t m.dst then failFront t line (freeTrkOf t line s)
    else
      let s0 := setTrk t line { k with unsent := true } s
      match readySlot t line k s0 with
      | none => s0
      | some s1 =>
        if inReserve s1 m.dst m.attr.cls then sendReq t line k m false s1
        else if homeRoom s1 m.dst m.attr.cls && itsTurn s0 m.dst m.attr k.seq then sendReq t line k m true (takeTurn (turnHead m.attr) m.dst s1)
        else s1

/-- Take a tracker for a request (R98); none when all 1,024 are in use: the operation waits. -/
def takeTrk (t line : Nat) (k : Trk) (s : State) : State :=
  if 1024 ≤ trkCount s t then s
  else launch t line (onNc (fun n => { n with trkSeq := n.trkSeq + 1 }) (setTrk t line { k with id := freeTrk s t, seq := s.nc.trkSeq, live := true } s))

/-- A miss of a Read or Own operation allocates its slot and sends its request (R102, R126). -/
def allocMiss (t line : Nat) (st : TrkState) (op : Op) (w : WOp) (lock : Bool) (way : Option Nat) (s : State) : State :=
  match way with
  | none => s
  | some y =>
    let a := opAttr s line w
    let m : Msg := { op := op, src := t, dst := homeOf s line, line := line, attr := a,
                     hk := if isFill w then 1 else 0 }
    if 1024 ≤ trkCount s t then s
    else takeTrk t line { st := st, way := some y, req := some m, lock := lock } (addCnt (tileCnt t 457) 1 s)

/-- One operation's turn on a line with neither tracker nor eviction buffer (R102, R131, R134, R137, R459). Answers the state and whether the next
operation may take its turn. -/
def turnOp (t line : Nat) (op : WOp) (rest : List WOp) (s : State) : State × Bool :=
  let done (s : State) : State × Bool := (finishOp t line op {} false .cmp (setOps t line rest s), true)
  let out (s : State) : State × Bool :=
    if mergeBad s t line op then (finishOp t line op {} true .cmp (dropBad t line (setOps t line rest s)), false) else
    if 1024 ≤ trkCount s t || (isRead op && (copyOf s t line).isSome) then (s, false) else
    let (old, s1) := dropCopy t line (if isRead op then addCnt (tileCnt t 457) 1 s else s)
    (takeTrk t line { st := .x, req := some (msgOf s1 t line op old) } s1, false)
  let writeM (s : State) (v : LVal) : State × Bool :=
    if evbRoom s t line then (writeBack t line v (putCopy t line .i {} s), false) else (s, false)
  match op with
  | .clean =>
    match copyOf s t line with
    | some (.m, v) => writeM s v
    | _ => done s
  | .inv =>
    match copyOf s t line with
    | some (.m, v) => writeM s v
    | some _ => done (putCopy t line .i {} s)
    | none => done s
  | .preload =>
    match wayOf s t line with
    | some w =>
      let x := getNcSlot s t (ncSet line) w
      if isLockable s t w && x.lock then done s
      else if x.st = .m then writeM s x.val
      else if isOrdinary s t w then (putCopy t line .i {} s, true)
      else (allocMiss t line .isD .rdShared op true (some w) s, false)
    | none =>
      match preloadWay s t line with
      | none => if lockRoom s t line then (s, false) else done (onNc (fun n => { n with range := Table.mod {} n.range t (fun r => { r with skipped := min (r.skipped + 1) (2 ^ 30 - 1) }) }) s)
      | some w => if heldWay s t (ncSet line) w then (s, false) else (allocMiss t line .isD .rdShared op true (some w) s, false)
  | .unlock => done (unlockLine t line s)
  | .atom _ _ _ false =>
    match copyOf s t line with
    | some (.s, v) =>
      match wayOf s t line with
      | some w =>
        let x := getNcSlot s t (ncSet line) w
        if 1024 ≤ trkCount s t then (s, false)
        else
          let m : Msg := { op := .rdOwn, src := t, dst := homeOf s line, line := line, attr := opAttr s line op, have1 := true }
          let s1 := setNcSlot t (ncSet line) w { x with st := .i, val := {} } (addCnt (tileCnt t 457) 1 s)
          (takeTrk t line { st := .smD, way := some w, req := some m, val := v, lock := x.lock } s1, false)
      | none => (s, false)
    | some _ => (s, false)
    | none => (allocMiss t line .imD .rdOwn op false (missWay s t line) s, false)
  | .atom _ _ _ true | .hostEvict _ _ =>
    match copyOf s t line with
    | some (.m, v) => writeM s v
    | _ => out s
  | .hostRd _ _ hk _ db =>
    if hk = 1 ∧ ¬db ∧ (copyOf s t line).isSome then (s, false)
    else if hk = 1 ∧ ¬db then (allocMiss t line .isD .rdShared op false (missWay s t line) s, false)
    else match copyOf s t line with
      | some (.m, v) => writeM s v
      | _ => out s
  | _ => out s

/-- Let the operations of a line take their turns while nothing holds the line (R102, R131): an operation the copy serves ends at once. -/
def runOps : Nat → Nat → Nat → State → State
  | 0, _, _, s => s
  | f + 1, t, line, s =>
    let k := getTrk s t line
    if (getEvb s t line).isSome || (k.live && decide (k.st ≠ .isN ∧ k.st ≠ .imN)) then s
    else if slotBad s t line then dropBad t line s
    else match getOps s t line with
      | [] => s
      | op :: rest =>
        match serveHit t line op false .hit (setOps t line rest s) with
        | some s1 => runOps f t line s1
        | none =>
          if k.live then s
          else
            let (s1, again) := turnOp t line op rest s
            if again || !((getTrk s1 t line).live || (getEvb s1 t line).isSome || decide ((getOps s1 t line).length = rest.length + 1)) then
              runOps f t line s1
            else s1

/-- Fuel that covers every turn of a line's operations. -/
def opFuel (s : State) (t line : Nat) : Nat := 2 * (getOps s t line).length + 4

def runLine (t line : Nat) (s : State) : State := runOps (opFuel s t line) t line s

/-- Lines of a tile whose copies have failed their check and wait for an eviction buffer (R139). -/
def badLines (s : State) (t : Nat) : List Nat :=
  s.nc.slots.filterMap (fun e => if e.2.bad ∧ e.1 / 2 ^ 20 = t then some (ncLine (e.1 / 16 % 65536) e.2.tag) else none)

/-- Operations of a tile that wait for a tracker, a way or an eviction buffer get another chance, after the failing copies that wait for one. -/
def kickTile (t : Nat) (s : State) : State :=
  let s1 := (badLines s t).foldl (fun s l => runLine t l s) s
  (s1.nc.ops.filter (fun e => decide (e.1 / 2 ^ 42 = t))).foldl (fun s e => runLine t (e.1 % 2 ^ 42) s) s1

/-- A tile starts an operation on a line: it waits behind those that already wait there (R102, R143). -/
def startOp (t line : Nat) (op : WOp) (s : State) : State := runLine t line (setOps t line (getOps s t line ++ [op]) s)

/-- NC_COH_PROTO (R103): message opcode and line state; the states are numbered in R99's order (DEDUCED, log 43). -/
def ncProto (t line : Nat) (m : Op) (s : State) : State :=
  let k := getTrk s t line
  let st := if (getEvb s t line).isSome then 11
    else if k.live then (match k.st with | .isD => 4 | .isF => 5 | .isN => 6 | .imD => 7 | .imF => 8 | .imN => 9 | .smD => 10 | .x => 0)
    else match copyOf s t line with | some (.s, _) => 1 | some (.e, _) => 2 | some (.m, _) => 3 | _ => 0
  raiseWith (tileSrc t .ncCohProto) { addr := BitVec.ofNat 64 (64 * line), detail := BitVec.ofNat 32 (opCode m + 256 * st) } {} s

/-- Every operation waiting on a line ends as a data error (R103, R455). -/
def failAll (t line : Nat) (s : State) : State :=
  (getOps s t line).foldl (fun s op => finishOp t line op {} true .cmp s) (setOps t line [] s)

/-- The line becomes I whatever it was in (R103): its tracker, copy and buffer go. -/
def forceI (t line : Nat) (s : State) : State :=
  let k := getTrk s t line
  let s1 := if k.live && decide (k.st ≠ .x) then freeTrkOf t line s else s
  setEvb t line none (putCopy t line .i {} s1)

/-- An impossible message other than a snoop (R103). -/
def badMessage (t line : Nat) (m : Op) (s : State) : State := failAll t line (forceI t line (ncProto t line m s))

/-- Answer a snoop in a stable state (R100). -/
def snoopStable (t : Nat) (m : Msg) (s : State) : State :=
  let line := m.line
  let rsp (o : Op) (f : Msg → Msg) (s : State) : State := sendRsp (f { op := o, src := t, dst := m.src, line := line }) s
  let fwd (o : Op) (v : LVal) (s : State) : State := sendFwd { op := o, src := t, dst := m.q, line := line, trk := m.trk, val := v } s
  match copyOf s t line with
  | none => rsp .snpRspI id s
  | some (st, v) =>
    match m.op, st with
    | .snpInv, .m => rsp .snpRspIData (fun x => { x with val := v }) (putCopy t line .i {} s)
    | .snpInv, _ => rsp .snpRspI id (putCopy t line .i {} s)
    | .snpShare, .e => rsp .snpRspFwd (fun x => { x with newS := true }) (fwd .fdatS v (putCopy t line .s v s))
    | .snpShare, .m => rsp .snpRspFwdS (fun x => { x with val := v }) (fwd .fdatS v (putCopy t line .s v s))
    | .snpOwn, .e => rsp .snpRspFwd (fun x => { x with newI := true }) (fwd .fdatE v (putCopy t line .i {} s))
    | .snpOwn, .m => rsp .snpRspFwd (fun x => { x with newI := true }) (fwd .fdatM v (putCopy t line .i {} s))
    | .snpCur, .e | .snpCur, .m => rsp .snpRspFwd id (fwd .fdatX v s)
    | _, _ => rsp .snpRspI id (putCopy t line .i {} (ncProto t line m.op s))

/-- A snoop reaches a tile (R100). -/
def snoop (t : Nat) (m : Msg) (s : State) : State :=
  let line := m.line
  let k := getTrk s t line
  let rspI (s : State) : State := sendRsp { op := .snpRspI, src := t, dst := m.src, line := line } s
  if (getEvb s t line).isSome then rspI s
  else if !k.live then snoopStable t m s
  else match k.st with
    | .x => snoopStable t m s
    | .isD | .isN | .imD | .imN => rspI s
    | .isF | .imF => setTrk t line { k with deferred := k.deferred ++ [m] } s
    | .smD =>
      if m.op = .snpInv then rspI (setTrk t line { k with st := .imD, val := {} } s)
      else rspI (failAll t line (forceI t line (ncProto t line m.op s)))

/-- A fill of a way (R129, R132): the PLRU bits, and the tile's first fill. -/
def fillMark (t line w : Nat) (s : State) : State :=
  onNc (fun n => { n with filled := setBit n.filled t true }) (touchWay t (ncSet line) w s)

/-- The note of a line that failed its check has arrived (R57, R139): the line is I, or its M copy stands in its slot to be written back. -/
def noteBad (t line : Nat) (s : State) : State :=
  let k := getTrk s t line
  let s1 := freeTrkOf t line s
  let s2 := match k.way, k.dirty with
    | some w, true => setNcSlot t (ncSet line) w { getNcSlot s1 t (ncSet line) w with tag := ncTag line, st := .m, val := k.val, bad := true } s1
    | _, _ => s1
  kickTile t (runLine t line s2)

/-- A fill completes (R101, R104, R129, R144): the slot takes the line, the oldest waiting operation is served, deferred snoops are applied, and
the rest take their turns. A fill that fails its check or carries ERR leaves the line I and fails the oldest operation (R57): it counts neither
as the tile's first fill nor in the PLRU bits (R129, R132; DESIGN CHOICE, log 154). -/
def completeFill (t line : Nat) (st : LineSt) (v : LVal) (kind : FillKind) (first : Bool) (s : State) : State :=
  let k := getTrk s t line
  let ok := !v.err && (v.poison || valOk line v.data v.chk)
  let s1 := freeTrkOf t line s
  let s2 := if ok then
      match k.way with
      | some w =>
        let x := getNcSlot s1 t (ncSet line) w
        let y : Slot := { tag := ncTag line, st := st, lock := x.lock || k.lock, val := v }
        let s3 := setNcSlot t (ncSet line) w y s1
        if first then fillMark t line w s3 else s3
      | none => s1
    else s1
  let s3 := if ok then
      match getOps s2 t line with
      | .preload :: rest => finishOp t line .preload {} false .cmp (setOps t line rest s2)
      | _ => serveHits t line kind ((getOps s2 t line).length + 1) first s2
    else failFront t line s2
  kickTile t (runLine t line (k.deferred.foldl (fun s m => snoop t m s) s3))

/-- What a request that fills no line waits for has arrived: it ends (R97, R101, R142). -/
def tryEnd (t line : Nat) (s : State) : State :=
  let k := getTrk s t line
  match k.req with
  | none => s
  | some m =>
    if !k.live || k.st ≠ .x || (wantsData m && k.got.isNone) || (wantsCmp m && k.ndr.isNone) then s
    else
      let g := k.got.getD {}
      let v := { g with poison := g.poison || k.val.poison }
      let ok := v.err || v.poison || m.op = .farAtom || valOk line v.data v.chk || !wantsData m
      let d := if m.op = .farAtom ∨ v.poison then v else { v with data := valFixed line v.data v.chk }
      let s1 := freeTrkOf t line s
      let s2 := match getOps s1 t line with
        | [] => s1
        | op :: rest =>
          let s3 := setOps t line rest s1
          finishOp t line op (if ok then d else {}) (v.err || !ok) (k.ndr.getD .cmp) s3
      kickTile t (runLine t line s2)

/-- Data, a grant, a note or an acknowledgement from the home (R101). -/
def homMsg (t : Nat) (m : Msg) (s : State) : State :=
  let line := m.line
  let k := getTrk s t line
  let bad (s : State) : State := badMessage t line m.op s
  match m.op with
  | .datS =>
    if k.live && (decide (k.st = .isD) || decide (k.st = .isF)) then completeFill t line .s m.val .home true s else bad s
  | .datE =>
    if k.live && (decide (k.st = .imD) || decide (k.st = .imF)) then completeFill t line .e m.val .home true s else bad s
  | .grant =>
    if k.live && decide (k.st = .smD) then completeFill t line .e (if m.val.err then { k.val with err := true } else k.val) .home true s else bad s
  | .fwdNote =>
    if !k.live then bad s
    else match k.st with
      | .isD => setTrk t line { k with st := .isF } s
      | .imD => setTrk t line { k with st := .imF } s
      | .isN => if k.bad then noteBad t line s else completeFill t line .s k.val .forwarded false s
      | .imN => if k.bad then noteBad t line s else completeFill t line (if k.dirty then .m else .e) k.val .forwarded false s
      | _ => bad s
  | .wbAck =>
    if (getEvb s t line).isSome then
      let s1 := setEvb t line none s
      kickTile t (runLine t line s1)
    else bad s
  | .atomRes =>
    if k.live && decide (k.st = .x) then
      let s1 := if m.val.err || m.val.poison then s else train t line m.qbusy 1 s
      tryEnd t line (setTrk t line { k with got := some { m.val with data := BitVec.ofNat 512 m.orig.toNat } } s1)
    else s
  | .datX => if k.live && decide (k.st = .x) then tryEnd t line (setTrk t line { k with got := some m.val } s) else s
  | .cmp =>
    if !k.live || k.st ≠ .x then s
    else
      -- the NDR of a read leaves with its Cmp, so that a BIConflictAck sent later follows it (R112)
      let s1 := match getOps s t line with
        | .hostRd a tag hk mv true :: rest =>
          if (match k.req with | some q => wantsData q | none => false) && k.got.isNone then
            setOps t line (.hostRd a tag hk mv false :: rest) (reply a (.ndr tag m.ndr) s)
          else s
        | _ => s
      let got := if m.val.err then some { err := true } else k.got
      tryEnd t line (setTrk t line { k with ndr := some m.ndr, val := { k.val with poison := m.val.poison }, got := got } s1)
  | _ => s

/-- Forwarded data reaches a tile (R99, R101). Data ahead of its note is a fill at once; a word that fails its check drops the copy, and the oldest
operation meets a data error (R57). -/
def fwdMsg (t : Nat) (m : Msg) (s : State) : State :=
  let line := m.line
  let k := getTrk s t line
  let bad (s : State) : State := badMessage t line m.op s
  let early (st : TrkState) (dirty : Bool) : State :=
    if m.val.poison || valOk line m.val.data m.val.chk then
      let s1 := setTrk t line { k with st := st, val := m.val, dirty := dirty } s
      serveHits t line .forwarded ((getOps s t line).length + 1) true (match k.way with | some w => fillMark t line w s1 | none => s1)
    else failFront t line (setTrk t line { k with st := st, bad := true } s)
  if m.op = .fdatX then
    if !k.live || k.id ≠ m.trk then s
    else if k.sink then kickTile t (runLine t line (freeTrkOf t line s))
    else if k.st = .x then tryEnd t line (setTrk t line { k with got := some m.val } s) else s
  else if !k.live then bad s
  else match m.op, k.st with
    | .fdatS, .isD => early .isN false
    | .fdatS, .isF => completeFill t line .s m.val .forwarded true s
    | .fdatE, .imD => early .imN false
    | .fdatM, .imD => early .imN true
    | .fdatE, .imF => completeFill t line .e m.val .forwarded true s
    | .fdatM, .imF => completeFill t line .m m.val .forwarded true s
    | _, _ => bad s

end Sys2Proof.Machine
end

