-- ==== Sys2Proof/Machine/Packed.lean ====
section
/-!
DEFINITION. The packed store (R245–R250): where a store line lies, reading and writing it through the crypto block, the block map, runs, and
poisoned blocks.
-/
namespace Sys2Proof.Machine

/-- The place of a line of a packed window: region, block number, tile and map index (R245). -/
structure BlockOf where
  region : Nat
  block : Nat
  tile : Nat
  idx : Nat
  /-- Line of the block. -/
  i : Nat
deriving DecidableEq, Repr

def blockOf (s : State) (r : Region) (line : Nat) : BlockOf :=
  let b := (64 * line - r.base) / 2 ^ r.blkLog
  ⟨r.idx, b, homeOf s line, b >>> tileBits s, line % (2 ^ r.blkLog / 64)⟩

/-- First line of a block. -/
def blockLine (r : Region) (b : Nat) : Nat := (r.base + b * 2 ^ r.blkLog) / 64

/-- Key of a map entry. -/
def mapKey (t region idx : Nat) : Nat := (1024 * t + region) * 2 ^ 24 + idx
def getMap (s : State) (t region idx : Nat) : MapEnt := Table.get {} s.pk.maps (mapKey t region idx)

/-- First frame of an area: 1 the block area, 2 the map area (R246, log 24). -/
def areaFrame (s : State) (r : Region) (t area : Nat) : Bool × Nat :=
  if area = 2 then (false, regionBase s t r false)
  else if storeInDram s r.idx then (false, regionBase s t r false + mapFrames s r)
  else (true, regionBase s t r true)

/-- Where line `k` of an area lies: tier, frame, line of the frame. -/
def storeAt (s : State) (r : Region) (t area k : Nat) : Bool × Nat × Nat :=
  let (nvm, f) := areaFrame s r t area
  (nvm, f + k / 64, k % 64)

/-- Fold address of a store line (R171). -/
def storeFold (s : State) (r : Region) (t area k : Nat) : Nat :=
  let (_, f, i) := storeAt s r t area k
  localFold t (64 * f + i)

/-- A store line lies on a lost sub-channel or group (R255). -/
def storeLost (s : State) (r : Region) (t area k : Nat) : Bool :=
  let (nvm, f, i) := storeAt s r t area k
  locLost s t nvm f i

/-- A store line's record as it lies there: `x`, or at version 0 what the fill of its region left, zeros (R90, R246). -/
def storeBase (s : State) (r : Region) (t area k : Nat) (x : Rec) : Rec :=
  let c := storeLoc s r t area k
  if version s c = 0 then mkRec (storeFold s r t area k) 0#512 (mkMeta (slotFor s r c) false 0 0 0) else x

/-- A store line's record, where it can be read now. -/
def storeGet (s : State) (r : Region) (t area k : Nat) : Option Rec :=
  let (nvm, f, i) := storeAt s r t area k
  if locLost s t nvm f i then none
  else (takeLoc 2 t nvm f i 0#648 s).map (fun x => tainted s (storeSa r.idx t area k) (storeFold s r t area k) (storeBase s r t area k x.1))

/-- A store line's record as a read with media errors brings it: a record that the write queue answers has none (R156). -/
def storeRec (s : State) (r : Region) (t area k : Nat) (flips : Flips) (x : Rec) : Rec :=
  let (nvm, f, i) := storeAt s r t area k
  let medium := nvm || drFromMedium s t (64 * f + i)
  if version s (storeLoc s r t area k) = 0 then flipRec (storeBase s r t area k x) (if medium then flips else 0#648) else x

/-- Ask for a store line's record (R156, R205), with the PRIO of what it serves (R315). -/
def storeAsk (r : Region) (t area k prio : Nat) (s : State) : State :=
  let (nvm, f, i) := storeAt s r t area k
  askLoc 2 t nvm f i prio s

/-- Nobody waits for a store line's record any longer. -/
def storeDrop (r : Region) (t area k : Nat) (s : State) : State :=
  let (nvm, f, i) := storeAt s r t area k
  if nvm then (match slotHas s t f i with | some a => drDrop t (slotF s t a i) s | none => s) else drDrop t (64 * f + i) s

def storePut (r : Region) (t area k prio : Nat) (x : Rec) (s : State) : State :=
  let (nvm, f, i) := storeAt s r t area k
  putLoc t nvm f i x prio s

/-- The other lines of a store page can be read, or need not be, before a write of line `k` (R291). -/
def storeReady (s : State) (r : Region) (t area k : Nat) : Bool :=
  !overflows s (storeLoc s r t area k) ||
  (List.range 64).all (fun j => let x := k / 64 * 64 + j
    decide (x = k) || storeLost s r t area x || (storeGet s r t area x).isSome)

def storeAskPage (r : Region) (t area k prio : Nat) (s : State) : State :=
  (List.range 64).foldl (fun s j => storeAsk r t area (k / 64 * 64 + j) prio s) s

/-- Write a store line (R247): answers whether the write was made. -/
def storeWrite (r : Region) (t area k : Nat) (d : Line) (who : Reader) (s : State) : Bool × State :=
  let (nvm, f, i) := storeAt s r t area k
  if locLostWr s t nvm f i then (false, s)
  else
    let base := k / 64 * 64
    let (ct, s1) := cryWrite r (fun j => storeLoc s r t area (base + j)) (k % 64) d
      (fun j s => storeGet s r t area (base + j)) (fun j x s => storePut r t area (base + j) (readerPrio who s) x s) (fun j => storeFold s r t area (base + j)) who s
    let s1 := if overflows s (storeLoc s r t area k) then (List.range 64).foldl (fun s j => if j = k % 64 then s else storeDrop r t area (base + j) s) s1 else s1
    match ct with
    | some x =>
      let key := slotFor s r (storeLoc s r t area k)
      (true, storePut r t area k (readerPrio who s) (mkRec (storeFold s r t area k) x (mkMeta key false 0 0 0)) (rewritten (storeSa r.idx t area k) s1))
    | none => (false, s1)

/-- What reading a store line gives: its plaintext, an uncorrectable or damaged line, or a data error (R250, R255, R293). -/
inductive StoreOut where
  | data (d : Line)
  | bad
  | err
deriving DecidableEq, Repr

/-- Read a store line that has arrived, with its media errors (R174, R250, R253); one with the wrong KEY becomes poisoned (R281). -/
def storeRead (r : Region) (t area k : Nat) (flips : Flips) (who : Reader) (s : State) : StoreOut × State :=
  let (nvm, f, i) := storeAt s r t area k
  if locLost s t nvm f i then (.err, s)
  else match takeLoc 2 t nvm f i flips s with
    | none => (.err, s)
    | some (x0, src, s1) =>
      let x := storeRec s r t area k flips x0
      let c := checkRec (storeFold s r t area k) x
      let s2 := match src with | .inl d => countUe d c.bad.length (countCe d c.fixed s1) | .inr _ => s1
      if !c.bad.isEmpty then (.bad, s2)
      else
        let put (y : Rec) (s : State) : State := storePut r t area k (readerPrio who s) y s
        let l := storeLoc s r t area k
        let (y, _, s3) := checkKey r l (storeFold s r t area k) (storeMeta s r l) who put c.out (if c.fixed = 0 then s2 else put c.out s2)
        match cryRead r l (tainted s3 (storeSa r.idx t area k) (storeFold s r t area k) y) who (storeFold s r t area k) s3 with
        | (.val v, s4) => (if v.poison then .bad else .data v.data, s4)
        | (.err, s4) => (.err, s4)

/-- A map entry's 16 bytes (R249). -/
def entBytes (e : MapEnt) : Bytes := leBytes 6 e.run ++ [BitVec.ofNat 8 e.fmt, BitVec.ofNat 8 e.dblk] ++ leBytes 4 e.clen ++ leBytes 4 e.gen

/-- The plaintext of a map line: four entries. -/
def mapLine (s : State) (t region m : Nat) : Line :=
  bytesLine ((List.range 4).flatMap (fun i => entBytes (getMap s t region (4 * m + i))))

/-- A map index in the block-map cache: set, tag, and the way that holds it (R249, log 125). -/
def mapSet (region idx : Nat) : Nat := (idx + region) % 8192
def mapTag (region idx : Nat) : Nat := 2 ^ 24 * region + idx + 1
def mapCacheKey (t set w : Nat) : Nat := 65536 * t + 8 * set + w
def mapCacheWay (s : State) (t region idx : Nat) : Option Nat :=
  (List.range 8).find? (fun w => Table.get 0 s.pk.mapCache (mapCacheKey t (mapSet region idx) w) = mapTag region idx)

/-- An entry read from the map area is cached, in an empty way or in place of another (R249). -/
def cacheMap (t region idx : Nat) (s : State) : State :=
  let set := mapSet region idx
  if (mapCacheWay s t region idx).isSome then s
  else
    let put (w : Nat) (s : State) : State := onPk (fun p => { p with mapCache := Table.set 0 p.mapCache (mapCacheKey t set w) (mapTag region idx) }) s
    match (List.range 8).find? (fun w => Table.get 0 s.pk.mapCache (mapCacheKey t set w) = 0) with
    | some w => put w s
    | none => let fr := takeFree s; put (Config.mapVictim fr.1 % 8) fr.2

/-- The block-map cache holds an entry no longer. -/
def uncacheMap (t region idx : Nat) (s : State) : State :=
  match mapCacheWay s t region idx with
  | some w => onPk (fun p => { p with mapCache := Table.set 0 p.mapCache (mapCacheKey t (mapSet region idx) w) 0 }) s
  | none => s

/-- Write a map entry, in the map line and in any cached copy (R249, R271); not made where the line cannot be written. -/
def writeMap (r : Region) (t idx : Nat) (e : MapEnt) (who : Reader) (s : State) : Bool × State :=
  let s1 := onPk (fun p => { p with maps := Table.set {} p.maps (mapKey t r.idx idx) e }) s
  let (ok, s2) := storeWrite r t 2 (idx / 4) (mapLine s1 t r.idx (idx / 4)) who s1
  if ok then (true, s2) else (false, { s2 with pk := s.pk })

/-- Units of a run (R248). -/
def unitsOf (clen : Nat) : Nat := (clen + 255) / 256

def runKey (t region : Nat) : Nat := 1024 * t + region
def runsOf (s : State) (t region : Nat) : List (Nat × Nat) := Table.get [] s.pk.runs (runKey t region)

/-- A run of `n` units from `a` is free. -/
def unitsFree (runs : List (Nat × Nat)) (a n : Nat) : Bool := runs.all (fun x => decide (a + n ≤ x.1) || decide (x.1 + x.2 ≤ a))

/-- First fit from the cursor, wrapping at the end of the area (R248): a run starts at the cursor, after a held run, or at 0. -/
def findRun (s : State) (r : Region) (t n : Nat) : Option Nat :=
  let total := 16 * r.store
  let runs := runsOf s t r.idx
  let cur := Table.get 0 s.pk.cursor (runKey t r.idx)
  let starts := (0 :: cur :: runs.map (fun x => x.1 + x.2)).filter (fun a => decide (a + n ≤ total) && unitsFree runs a n)
  let least (l : List Nat) : Option Nat := l.foldl (fun b a => match b with | none => some a | some x => some (min x a)) none
  match least (starts.filter (fun a => cur ≤ a)) with
  | some a => some a
  | none => least starts

/-- Line `m` of a tile's free-unit bitmap: 512 units, 1 for a unit in use (R248, log 127). -/
def bitmapLine (s : State) (t region m : Nat) : Line :=
  BitVec.ofNat 512 ((runsOf s t region).foldl (fun a x =>
    let lo := max x.1 (512 * m)
    let hi := min (x.1 + x.2) (512 * m + 512)
    if lo < hi then a + (2 ^ (hi - lo) - 1) * 2 ^ (lo - 512 * m) else a) 0)

/-- First line of the bitmap in the map area: after the lines of the map entries (R246, R248, log 127). -/
def bitmapAt (s : State) (r : Region) : Nat := (blocksPer s r + 3) / 4

/-- The bitmap lines that changed are written; one whose store page must be read first waits (R291), and one on a lost sub-channel is not written. -/
def flushBitmap (s : State) : State :=
  s.pk.mapDirty.foldl (fun s e =>
    let (t, g, m) := e
    let gone (s : State) : State := onPk (fun p => { p with mapDirty := p.mapDirty.erase e }) s
    match regionOf s g with
    | none => gone s
    | some r =>
      let k := bitmapAt s r + m
      if storeLost s r t 2 k then gone s
      else if storeReady s r t 2 k then gone (storeWrite r t 2 k (bitmapLine s t g m) {} s).2
      else storeAskPage r t 2 k (walkerPrio s) s) s

/-- Units `a` to `a + n - 1` of a tile's block area change hands: their bitmap lines are written. -/
def touchUnits (t region a n : Nat) (s : State) : State :=
  let ms := (List.range ((a + n - 1) / 512 - a / 512 + 1)).map (fun i => (t, region, a / 512 + i))
  flushBitmap (onPk (fun p => { p with mapDirty := p.mapDirty ++ ms.filter (fun e => !p.mapDirty.contains e) }) s)

def allocRun (r : Region) (t n : Nat) (s : State) : Option (Nat × State) :=
  (findRun s r t n).map (fun a =>
    (a, touchUnits t r.idx a n (onPk (fun p => { p with
      runs := Table.set [] p.runs (runKey t r.idx) (Table.get [] p.runs (runKey t r.idx) ++ [(a, n)])
      cursor := Table.set 0 p.cursor (runKey t r.idx) ((a + n) % max 1 (16 * r.store)) }) s)))

def freeRun (t region a n : Nat) (s : State) : State :=
  touchUnits t region a n (onPk (fun p => { p with runs := Table.mod [] p.runs (runKey t region) (fun l => l.erase (a, n)) }) s)

/-- Where the error that poisons a block lay (R250). -/
inductive PkWhere where | map | store
deriving DecidableEq, Repr

/-- A block becomes poisoned (R250): its entry, the poison list, and the fault. -/
def poisonBlock (r : Region) (b : Nat) (at_ : PkWhere) (s : State) : State :=
  let line := blockLine r b
  let t := homeOf s line
  let idx := b >>> tileBits s
  let e := getMap s t r.idx idx
  let (_, s1) := writeMap r t idx { e with fmt := 2, dblk := 0, clen := 0 } {} s
  let s2 := addPoison (64 * line) (2 ^ r.blkLog) s1
  match at_ with
  | .map => raiseWith (tileSrc t .pkMapUe) { addr := BitVec.ofNat 64 (storeSa r.idx t 2 (idx / 4)), detail := BitVec.ofNat 32 r.idx } {} s2
  | .store => raiseWith (tileSrc t .pkStoreUe) { addr := BitVec.ofNat 64 (storeSa r.idx t 1 (4 * e.run)), detail := BitVec.ofNat 32 r.idx } {} s2

/-- Block number of a map index of a tile (R245): the block of its group that is homed there. -/
def blockAt (s : State) (r : Region) (t idx : Nat) : Nat :=
  ((List.range (tiles s)).map (fun k => idx * tiles s + k)).find? (fun b => homeOf s (blockLine r b) = t) |>.getD (idx * tiles s)

/-- Words of a map line were lost as it was read (R250): the block it was read for, `idx`, becomes poisoned whichever they are, and so do the blocks of
the other entries that could not be read. A scrub reads it for no block. -/
def mapLineLost (r : Region) (t m : Nat) (idx : Option Nat) (bad : List Nat) (s : State) : State :=
  let lost (i : Nat) : Bool := bad.contains 8 || bad.contains (2 * i) || bad.contains (2 * i + 1) || decide (idx = some (4 * m + i))
  (((List.range 4).filter lost).map (fun i => 4 * m + i)).foldl (fun s x =>
    if x < blocksPer s r ∧ (getMap s t r.idx x).fmt ≠ 2 then poisonBlock r (blockAt s r t x) .map s else s) s

/-- A line of a map area is found uncorrectable by a walker (R174, R250): of the map, or of the bitmap, which is written again. -/
def mapAreaBad (r : Region) (t k : Nat) (bad : List Nat) (s : State) : State :=
  if bitmapAt s r ≤ k then touchUnits t r.idx (512 * (k - bitmapAt s r)) 1 s else mapLineLost r t k none bad s

/-- Decompressors in use on a tile: loads and ingest validation (R257). -/
def decsOn (s : State) (t : Nat) : Nat := (s.pk.decs.filter (fun d => d.tile = t ∧ d.granted)).length
def validating (s : State) (t : Nat) : Nat :=
  Table.count (fun _ p => match p with | some p => decide (p.tile = t ∧ p.phase = .validating) | none => false) s.job.parts
def compressing (s : State) (t : Nat) : Nat :=
  Table.count (fun _ p => match p with | some p => decide (p.tile = t ∧ p.phase = .compressing) | none => false) s.job.parts
/-- INGEST_DEC as it acts (PK_CFG). -/
def ingestDec (s : State) (t : Nat) : Nat := clampN 1 6 (regFld s .pkCfg t 2 0)

/-- A load that waits for a decompressor or a commit (R256): counted, and LATE. -/
def lateLoad (t : Nat) (s : State) : State := raiseBit .pkSts t 31 (addCnt (tileCnt t 466) 1 s)

/-- Blocks of a tile that wait for a decompressor (R251). -/
def decWaits (s : State) (t : Nat) : Bool := s.pk.decs.any (fun d => decide (d.tile = t) && !d.granted && !d.mapWait)

/-- The block lock that a commit holds (R251, R271). -/
def lockOf (s : State) (region block : Nat) : Option BlkLock := s.pk.locks.find? (fun l => l.region = region ∧ l.block = block)

/-- The decompression of a block that is in flight. -/
def decOf (s : State) (region block : Nat) : Option Decomp := s.pk.decs.find? (fun d => d.region = region ∧ d.block = block)
def onDec (region block : Nat) (f : Decomp → Decomp) (s : State) : State :=
  onPk (fun p => { p with decs := p.decs.map (fun d => if d.region = region ∧ d.block = block then f d else d) }) s

/-- Ask for every line of a block's run (R251). -/
def askRun (r : Region) (t : Nat) (e : MapEnt) (prio : Nat) (s : State) : State :=
  (List.range (4 * unitsOf e.clen)).foldl (fun s k => storeAsk r t 1 (4 * e.run + k) prio s) s

/-- PRIO of the reads of a block's decompression: the highest of the requests that wait for it (R315). -/
def decPrio (s : State) (d : Decomp) : Nat := (d.waits.map (linePrio s)).foldl max 0

/-- A block's map entry names a stream: it takes a decompressor, or waits for one behind the blocks that wait already; each read that waits is late
(R251, R256, R257). -/
def takeDecomp (r : Region) (t b : Nat) (s : State) : State :=
  let d := (decOf s r.idx b).getD ⟨t, r.idx, b, false, false, false, [], false, []⟩
  if decsOn s t + validating s t < 12 ∧ decWaits s t = false then
    askRun r t (getMap s t r.idx (b >>> tileBits s)) (decPrio s d) (addCnt (tileCnt t 463) 1 (onDec r.idx b (fun d => { d with mapWait := false, granted := true }) s))
  else d.waits.foldl (fun s _ => lateLoad t s) (onDec r.idx b (fun d => { d with mapWait := false }) s)

/-- A read waits for a block's decompression in flight (R251); while that waits for a decompressor, the read is late (R256). -/
def joinDecomp (r : Region) (bo : BlockOf) (d : Decomp) (line : Nat) (s : State) : State :=
  let s1 := onDec r.idx bo.block (fun d => { d with waits := if d.waits.contains line then d.waits else d.waits ++ [line] }) s
  if !d.granted && !d.mapWait then lateLoad bo.tile s1 else s1

/-- A read begins work on its block (R251 step 4): with its map entry cached it takes a decompressor, else the map line is read first. -/
def startDecomp (r : Region) (bo : BlockOf) (line : Nat) (s : State) : State :=
  let cached := (mapCacheWay s bo.tile r.idx bo.idx).isSome
  let s1 := onPk (fun p => { p with decs := p.decs ++ [⟨bo.tile, r.idx, bo.block, false, false, false, [line], !cached, []⟩] }) s
  if cached then takeDecomp r bo.tile bo.block s1 else storeAsk r bo.tile 2 (bo.idx / 4) (linePrio s line) s1

/-- A read waits for the commit that holds its block's lock, and is late (R251 step 3, R256). -/
def waitLock (region block t line : Nat) (s : State) : State :=
  lateLoad t (onPk (fun p => { p with locks := p.locks.map (fun l =>
    if l.region = region ∧ l.block = block ∧ ¬l.waits.contains line then { l with waits := l.waits ++ [line] } else l) }) s)

/-- What a map entry answers a read with at once (R251): zero data, or poison; a stream takes a decompression. -/
def entryVal (line : Nat) (e : MapEnt) : Option LVal :=
  if e.fmt = 0 then some { data := 0#512, chk := lineChk line 0#512 } else if e.fmt = 1 then none else some poisonVal

end Sys2Proof.Machine
end

