-- ==== Sys2Proof/Machine/Dir.lean ====
section
/-!
DEFINITION. The home agents' directory caches (R93–R95, R117, R118): sets and ways, the choice of a victim, and transactions' own records.
-/
namespace Sys2Proof.Machine

/-- Set of a line in its home tile's directory cache (R93). -/
def dirSet (s : State) (line : Nat) : Nat := let l := localLine s line; (l % 131072) ^^^ (l / 131072 % 131072)

def dirKey (t set w : Nat) : Nat := (131072 * t + set) * 16 + w
def getDir (s : State) (t set w : Nat) : DirEnt := Table.get {} s.ha.dir (dirKey t set w)
def setDir (t set w : Nat) (e : DirEnt) (s : State) : State := onHa (fun h => { h with dir := Table.set {} h.dir (dirKey t set w) e }) s

/-- The way that holds a line's entry. -/
def dirWay (s : State) (line : Nat) : Option Nat :=
  (List.range 16).find? (fun w => let e := getDir s (homeOf s line) (dirSet s line) w; e.v && decide (e.line = line))

/-- The line's entry; an invalid one on a miss. -/
def entOf (s : State) (line : Nat) : DirEnt := match dirWay s line with | some w => getDir s (homeOf s line) (dirSet s line) w | none => {}

/-- Rewrite the line's entry. -/
def onEnt (line : Nat) (f : DirEnt → DirEnt) (s : State) : State :=
  match dirWay s line with
  | some w => setDir (homeOf s line) (dirSet s line) w (f (getDir s (homeOf s line) (dirSet s line) w)) s
  | none => s

def getTxn (s : State) (line : Nat) : Txn := Table.get {} s.ha.txns line
def setTxn (line : Nat) (k : Txn) (s : State) : State := onHa (fun h => { h with txns := Table.set {} h.txns line k }) s
def onTxn (line : Nat) (f : Txn → Txn) (s : State) : State := setTxn line (f (getTxn s line)) s

/-- Way 15 is reserved (RESERVED_WAY, R118). -/
def reservedWay (s : State) (t : Nat) : Bool := bit (regRaw s .haDirCfg t) 0
def openWays (s : State) (t : Nat) : List Nat := if reservedWay s t then List.range 15 else List.range 16

/-- BUSY: a transaction or an eviction is open on the entry's line (R94). -/
def wayBusy (s : State) (t set w : Nat) : Bool := let e := getDir s t set w; e.v && (getTxn s e.line).live

/-- An open way's entry is being evicted. -/
def wayEvicting (s : State) (t set w : Nat) : Bool := let e := getDir s t set w; e.v && (getTxn s e.line).live && (getTxn s e.line).evict

/-- A walker holds the lock of the entry's line, or its write-back waits: no eviction starts on it (R106, R223). -/
def wayHeld (s : State) (t set w : Nat) : Bool :=
  let e := getDir s t set w
  e.v && (Table.get false s.ha.walkLock e.line || !(Table.get [] s.ha.wbuf e.line).isEmpty)

/-- An invalid open way (R117 step 1): the lowest. -/
def emptyWay (s : State) (t set : Nat) : Option Nat := (openWays s t).find? (fun w => !(getDir s t set w).v)

def setKey (t set : Nat) : Nat := 131072 * t + set
def dirPlru (s : State) (t set : Nat) : BitVec 15 := Table.get 0#15 s.ha.dplru (setKey t set)

/-- The victim among open ways that are not busy (R117 steps 2 and 3). -/
def victimWay (s : State) (t set : Nat) : Option Nat :=
  let free (w : Nat) : Bool := (openWays s t).contains w && !wayBusy s t set w && !wayHeld s t set w
  let quiet (w : Nat) : Bool := free w && decide ((getDir s t set w).ts = .none) && !(getDir s t set w).mdirty
  let pick (p : Nat → Bool) : Option Nat := if (List.range 16).any p then some (plruGo (dirPlru s t set) p 4 0 0) else none
  if bit (regRaw s .haDirCfg t) 1 then (match pick quiet with | some w => some w | none => pick free) else pick free

/-- A use or a fill of a way; way 15 never updates the bits while it is reserved (R93, R118, R129). -/
def touchDir (t set w : Nat) (s : State) : State :=
  if reservedWay s t && decide (w = 15) then s
  else onHa (fun h => { h with dplru := Table.set 0#15 h.dplru (setKey t set) (plruTouch (Table.get 0#15 h.dplru (setKey t set)) w) }) s

/-- Misses that wait for a way of a set, oldest first (R118). -/
def waiters (s : State) (t set : Nat) : List Msg := Table.get [] s.ha.allocQ (setKey t set)
def setWaiters (t set : Nat) (l : List Msg) (s : State) : State := onHa (fun h => { h with allocQ := Table.set [] h.allocQ (setKey t set) l }) s

/-- Open ways of a set whose entries are being evicted for misses that found way 15 occupied: those misses take the freed ways (R118). -/
def claimedWays (s : State) (t set : Nat) : List Nat :=
  (openWays s t).filter (fun w => wayEvicting s t set w && (getTxn s (getDir s t set w).line).claimed)

/-- Way 15 as a miss takes it (R118): while a victim of the set is evicted that no earlier miss has claimed, or when every open way is busy. -/
def way15Now (s : State) (t set : Nat) : Option Bool :=
  if !reservedWay s t || (getDir s t set 15).v then none
  else if (openWays s t).any (fun w => wayEvicting s t set w && !(getTxn s (getDir s t set w).line).claimed) then some true
  else if (openWays s t).all (wayBusy s t set) then some false
  else none

/-- The miss that can take a way now, by its place among those that wait, the way, and whether it moves out of way 15 when its victim has gone (R117, R118):
the oldest takes an invalid open way; way 15 is for a miss that has begun no eviction for itself while way 15 was occupied. -/
def wayNow (s : State) (t set : Nat) : Option (Nat × Nat × Bool) :=
  match emptyWay s t set with
  | some w => some (0, w, false)
  | none => (way15Now s t set).map (fun g => ((claimedWays s t set).length, 15, g))

/-- HSTATE as the metadata word encodes it (R84). -/
def hstCode : HSt → Nat | .i => 0 | .s => 1 | .a => 2 | .e => 3
def hstOf : Nat → HSt | 0 => .i | 1 => .s | 2 => .a | _ => .e

/-- A new entry (R95): TS none; HSTATE I until the metadata word of an HDM-DB line has been read. -/
def newEntry (t set w : Nat) (guest : Bool) (line : Nat) (s : State) : State :=
  touchDir t set w (setDir t set w { v := true, line := line, guest := guest, unread := true } (addCnt (tileCnt t 459) 1 s))

/-- What a new entry takes from the metadata word (R95). -/
def takeMeta (s : State) (region : Nat) (m : BitVec 56) (e : DirEnt) : DirEnt :=
  let h := hstOf (metaHst m)
  { e with unread := false, hst := h, stHst := h, holder := if h = .e then metaHolder m else 0, stHolder := metaHolder m,
           hvec := if h = .s then viewMask s region else 0#64 }

/-- Free a line's entry. -/
def freeEntry (line : Nat) (s : State) : State := onEnt line (fun _ => {}) s

/-- Move the entry of way 15 into an open way, as a fill of it (R118). -/
def moveGuest (t set w : Nat) (s : State) : State :=
  touchDir t set w (setDir t set 15 {} (setDir t set w { getDir s t set 15 with guest := false } s))

/-- Eviction trackers in use on a tile, and the lowest one free (R94, R119). -/
def evictions (s : State) (t : Nat) : List Nat :=
  s.ha.txns.filterMap (fun e => if e.2.live ∧ e.2.evict ∧ homeOf s e.1 = t then some e.2.trk else none)
def freeEvTrk (s : State) (t : Nat) : Nat := ((List.range 64).map (· + 4096) |>.find? (fun i => !(evictions s t).contains i)).getD 4096

/-- Request trackers in use on a home tile, and the lowest one free (R94, R312). -/
def reqTrks (s : State) (t : Nat) : List Nat :=
  s.ha.txns.filterMap (fun e => if e.2.live ∧ ¬e.2.evict ∧ homeOf s e.1 = t then some e.2.trk else none)
def freeReqTrk (s : State) (t : Nat) : Nat := ((List.range 4096).find? (fun i => !(reqTrks s t).contains i)).getD 0

end Sys2Proof.Machine
end

