-- ==== Sys2Proof/Machine/Home.lean ====
section
/-!
DEFINITION. The home agent (R105–R122, R142, R252, R455): what a request does to the tile side and the host side of a line, data and media, the
end of a transaction, and evictions.
-/
namespace Sys2Proof.Machine

/-- The row of R108's table a request acts under. -/
inductive HostRow where | read | share | own | excl | cur | inv | write | ce
deriving DecidableEq, Repr

def hostRow (m : Msg) : HostRow :=
  match m.op with
  | .hostCe => .ce
  | .wrLine | .wrPart | .farAtom => .write
  | .rdOwn => .own
  | .rdShared => if m.hk = 0 then .share else .read
  | _ => if m.hk = 1 ∨ m.hk = 7 then .read else if m.hk = 2 ∨ m.hk = 4 then .excl else if m.hk = 5 then .inv else .cur

/-- The requesting head h of R108: none for HK 0 and for an LD whose view is HDM-H (R92). -/
def reqHead (s : State) (region : Nat) (m : Msg) : Option Nat :=
  if m.op = .hostCe then (if (viewMask s region).getLsbD m.attr.head then some m.attr.head else none)
  else if m.db ∧ m.hk ≠ 0 then some m.attr.head else none

/-- The BISnps of a request (R108): head, kind, and whether the head may hold the line dirty (R113). -/
def hostSnoops (e : DirEnt) (row : HostRow) (h : Option Nat) (vm : W64) : List (Nat × BiKind × Bool) :=
  let others (v : W64) : List Nat := (bitsOf 64 v).filter (fun g => some g ≠ h)
  match e.hst with
  | .i => []
  | .s => match row with
    | .own | .excl | .inv | .write => (others e.hvec).map (fun g => (g, .inv, false))
    | _ => []
  | .e =>
    if h = some e.holder then []
    else match row with
      | .read | .share => [(e.holder, .data, true)]
      | .cur => [(e.holder, .cur, true)]
      | .ce => []
      | _ => [(e.holder, .inv, true)]
  | .a => match row with
    | .read | .share => (others vm).map (fun g => (g, .data, true))
    | .cur => (others vm).map (fun g => (g, .cur, true))
    | .ce => []
    | _ => (others vm).map (fun g => (g, .inv, true))

/-- HSTATE, HOLDER and HVEC after a request (R108); `mv` the MetaValue of a write. -/
def hostAfter (e : DirEnt) (row : HostRow) (h : Option Nat) (mv : Mv) (ans : List (Nat × BiAns)) : HSt × Nat × W64 :=
  let same := (e.hst, e.holder, e.hvec)
  let none_ : HSt × Nat × W64 := (.i, 0, 0#64)
  let own : HSt × Nat × W64 := match h with | some g => (.e, g, 0#64) | none => none_
  let sOf (v : W64) : HSt × Nat × W64 := if v = 0#64 then none_ else (.s, 0, v)
  let addH (v : W64) : W64 := match h with | some g => setBit v g true | none => v
  let ansS : W64 := ans.foldl (fun v a => if a.2 = .s then setBit v a.1 true else v) 0#64
  let ansE := (ans.filter (fun a => a.2 = .e)).map (·.1)
  match row with
  | .read => match e.hst with
    | .i => sOf (addH 0#64)
    | .s => (.s, 0, addH e.hvec)
    | .e => if h = some e.holder then sOf (addH 0#64) else sOf (addH ansS)
    | .a => sOf (addH ansS)
  | .share => match e.hst with | .i => none_ | .s => same | _ => sOf ansS
  | .own | .inv => none_
  | .excl => own
  | .cur => match e.hst with
    | .i | .s => same
    | .e => if h = some e.holder ∨ ansE ≠ [] then same else sOf ansS
    | .a => match ansE with | [] => sOf ansS | [g] => (.e, g, 0#64) | _ => same
  | .write => match mv with | .s => sOf (addH 0#64) | .a => own | _ => none_
  | .ce => match e.hst with
    | .i => none_
    | .s => sOf (match h with | some g => setBit e.hvec g false | none => e.hvec)
    | .e => if h = some e.holder then none_ else same
    | .a => same

/-- The NDR a request ends with (R108). -/
def ndrFor (h : Option Nat) (after : HSt × Nat × W64) : Ndr :=
  match h with
  | none => .cmp
  | some g => if after.1 = .e ∧ after.2.1 = g then .cmpE else if after.1 = .s ∧ after.2.2.getLsbD g then .cmpS else .cmp

/-- Who a request is for, in fault records (R400). -/
def whoOf (a : Attr) : Reader := ⟨if a.kind < 2 then a.head else 255, a.kind, some a.cls⟩

/-- A Failure event on a head about a line (R108, R110, R113). -/
def biFailure (g line : Nat) (s : State) : State := eventHead g ⟨.failure, .biTimeout (64 * line)⟩ s

/-- Tags of the BISnps outstanding to a head (R110). -/
def biTags (s : State) (g : Nat) : List (BitVec 16) :=
  s.ha.txns.flatMap (fun e => e.2.bis.filterMap (fun b => if b.1 = g then some b.2.1 else none))

/-- The next BI tag of a head, passing over those that are outstanding (R110). -/
def biTagFor (s : State) (g : Nat) : BitVec 16 :=
  let n := Table.get 0 s.ha.biNext g
  let used := biTags s g
  BitVec.ofNat 16 (((List.range (used.length + 1)).map (n + ·)).find? (fun k => !used.contains (BitVec.ofNat 16 k)) |>.getD n)

/-- A BISnp to a head is sent, or answered at once where the link is down or the BI channel off (R46, R52), or timed out where the head's tile
is cut off (R455). -/
def sendBis (line : Nat) (x : Nat × BiKind × Bool) (s : State) : State :=
  let (g, kind, dirty) := x
  let t := homeOf s line
  if cutOff s t (portTile g) then
    raiseTile t .haBiTimeout g <| biFailure g line (onTxn line (fun k => { k with answers := k.answers ++ [(g, .i)], spoil := k.spoil || dirty }) s)
  else if !(getPort s g).up || !(getPort s g).bi then onTxn line (fun k => { k with answers := k.answers ++ [(g, .i)] }) s
  else
    let tag := biTagFor s g
    let s1 := onHa (fun h => { h with biNext := Table.set 0 h.biNext g (tag.toNat + 1) }) s
    sendHom { op := .biSnpReq, src := t, dst := portTile g, line := line, attr := { head := g }, bik := kind, biTag := tag }
      (onTxn line (fun k => { k with bis := k.bis ++ [(g, tag, kind, dirty)] }) s1)

/-- Snoops a home agent has outstanding to a tile: those awaited, less those not yet sent (R98). -/
def snoopsTo (s : State) (home x : Nat) : Nat :=
  (s.ha.txns.filter (fun e => e.2.live && e.2.snoops.getLsbD x && decide (homeOf s e.1 = home))).length -
  (s.ha.snoopQ.filter (fun m => decide (m.src = home ∧ m.dst = x))).length

/-- Send a snoop to a tile and wait for its answer; with 32 outstanding to the tile it waits its turn (R98). -/
def sendSnoop (line x : Nat) (op : Op) (q trk : Nat) (s : State) : State :=
  let m : Msg := { op := op, src := homeOf s line, dst := x, line := line, q := q, trk := trk }
  let s1 := onTxn line (fun k => { k with snoops := setBit k.snoops x true }) s
  if 32 ≤ snoopsTo s m.src x then onHa (fun h => { h with snoopQ := h.snoopQ ++ [m] }) s1 else sendHom m s1

/-- The snoops that wait are sent as far as their tiles take them, oldest first; one whose transaction no longer awaits it is dropped (R98). -/
def pumpSnoops (s : State) : State :=
  s.ha.snoopQ.foldl (fun s m =>
    let s1 := onHa (fun h => { h with snoopQ := h.snoopQ.erase m }) s
    if !(getTxn s m.line).live || !(getTxn s m.line).snoops.getLsbD m.dst then s1
    else if 32 ≤ snoopsTo s m.src m.dst then s
    else sendHom m s1) s

def setTs (e : DirEnt) : DirEnt := if e.tvec = 0#8 then { e with ts := .none } else e
def dropTile (x : Nat) (e : DirEnt) : DirEnt := setTs { e with tvec := setBit e.tvec x false }

/-- The owner tile, if TS is owned. -/
def ownerTile (e : DirEnt) : Option Nat := if e.ts = .owned then (bitsOf 8 e.tvec).head? else none

/-- The tile side of a request (R107, R455): snoops, forwards and notes. -/
def planTiles (line : Nat) (m : Msg) (s : State) : State :=
  let e := entOf s line
  let inv (s : State) : State := (bitsOf 8 e.tvec).foldl (fun s x => sendSnoop line x .snpInv m.src m.trk s) s
  let fwd (op : Op) (note : Bool) (x : Nat) : State :=
    if cutOff s x m.src then sendSnoop line x .snpInv m.src m.trk s
    else
      let s1 := sendSnoop line x op m.src m.trk (onTxn line (fun k => { k with owner := some x }) s)
      if note then sendHom { op := .fwdNote, src := homeOf s line, dst := m.src, line := line, q := x, attr := m.attr } s1 else s1
  match m.op with
  | .rdShared => match ownerTile e with | some x => fwd .snpShare true x | none => s
  | .rdOwn =>
    match ownerTile e with
    | some x => fwd .snpOwn true x
    | none =>
      (bitsOf 8 (setBit e.tvec m.src false)).foldl (fun s x => sendSnoop line x .snpInv m.src m.trk s) s
  | .rdCur =>
    if m.hk = 2 ∨ m.hk = 4 ∨ m.hk = 5 then inv s
    else match ownerTile e with | some x => fwd .snpCur false x | none => s
  | .wrLine | .wrPart | .farAtom => inv s
  | _ => s

/-- A full-line write, whatever the line held. -/
def fullWrite (m : Msg) : Bool := (decide (m.op = .wrLine) && decide (m.setPoison ≠ some true)) || (decide (m.op = .wrPart) && decide (m.mask = fullMask))

/-- The transaction needs the line's present value. -/
def needsVal (m : Msg) (k : Txn) : Bool :=
  k.spoil || (!k.merges.isEmpty && (!fullWrite m || k.fail)) ||
  (match m.op with
   | .rdShared => !k.forwarded
   | .rdOwn => !k.forwarded && !k.grant
   | .rdCur => wantsData m && !k.forwarded
   | .wrLine | .wrPart => !fullWrite m
   | .farAtom => true
   | _ => false)

/-- Two heads or more answered BIRspE to the BISnpCur of a line in A (R108): the answers contradict each other. -/
def contradicts (s : State) (line : Nat) (m : Msg) : Bool :=
  decide (hostRow m = .cur) && decide ((entOf s line).hst = .a) && decide (2 ≤ ((getTxn s line).answers.filter (fun a => a.2 = .e)).length)

/-- The transaction needs the line's value, and has none yet: for itself, or to poison the line after contradicting answers (R108). -/
def lacksVal (s : State) (line : Nat) (m : Msg) (k : Txn) : Bool := (needsVal m k || contradicts s line m) && k.val.isNone

/-- An output line of a decompression, as it waits to enter the home near cache (R31, R251): it has no class and takes no tracker. -/
def fillMsg (t line : Nat) (v : LVal) : Msg := { op := .datS, src := t, dst := t, line := line, val := v, attr := { cls := 16 } }

/-- The value of an output line that waits to enter the home near cache. -/
def fillPending (s : State) (line : Nat) : Option LVal :=
  ((s.ha.fillQ ++ (waiters s (homeOf s line) (dirSet s line)).filter (fun m => m.op = .datS)).find? (fun m => m.line = line)).map (·.val)

/-- Output lines that wait for it are dropped: the block's content is replaced, or its range filled. -/
def dropFills (p : Nat → Bool) (s : State) : State :=
  onHa (fun h => { h with fillQ := h.fillQ.filter (fun m => !p m.line)
                          allocQ := Table.mapAll [] (fun _ l => l.filter (fun m => !(decide (m.op = .datS) && p m.line))) h.allocQ }) s

/-- Serve a packed-window line in the order of R251: the home's copy, a decompression in flight, a commit's block lock, the block's map entry.
A line the home's copy serves leaves its PLRU bits as they are (R129; DESIGN CHOICE, log 153). -/
def packedRead (r : Region) (line : Nat) (s : State) : State :=
  let bo := blockOf s r line
  let give (v : LVal) (s : State) : State := onTxn line (fun k => { k with val := some v }) s
  let wait (s : State) : State := onTxn line (fun k => { k with media := true }) s
  match copyOf s bo.tile line with
  | some (_, v) =>
    if v.poison || valOk line v.data v.chk then give v s else onTxn line (fun k => { k with fail := true }) (putCopy bo.tile line .i {} s)
  | none => match fillPending s line with
    | some v => give v s
    | none =>
    match decOf s r.idx bo.block, lockOf s r.idx bo.block with
    | some d, _ =>
      if 64 * bo.i + 64 ≤ d.out.length then let x := bytesLine (slice d.out (64 * bo.i) 64); give { data := x, chk := lineChk line x } s
      else wait (joinDecomp r bo d line s)
    | none, some _ => wait (waitLock r.idx bo.block bo.tile line s)
    | none, none =>
      let e := getMap s bo.tile r.idx bo.idx
      if (mapCacheWay s bo.tile r.idx bo.idx).isNone then
        (if storeLost s r bo.tile 2 (bo.idx / 4) then onTxn line (fun k => { k with fail := true }) s else wait (startDecomp r bo line s))
      else match entryVal line e with
        | some v => give v (if e.fmt = 3 then poisonBlock r bo.block .map s else s)
        | none => wait (startDecomp r bo line s)

/-- Get the line's value: from media (R106), or as R251 says. -/
def fetchVal (line : Nat) (s : State) : State :=
  match regionAt s (64 * line), (getTxn s line).req with
  | some r, some m =>
    if r.typ = .packed then packedRead r line s
    else if pageBad s line then onTxn line (fun k => { k with val := some poisonVal }) s
    else if lineLost s line || (lineAt s line).isNone then onTxn line (fun k => { k with fail := true }) s
    else onTxn line (fun k => { k with media := true }) (askLine line (classPrio s m.attr.cls) s)
  | _, _ => onTxn line (fun k => { k with fail := true }) s

/-- The entry has an owner tile, a host E holder or state A (R455). -/
def entOwned (e : DirEnt) : Bool := decide (e.ts = .owned ∨ e.hst = .e ∨ e.hst = .a)

/-- Steps 1 and 2 of R109: the snoops and BISnps together, and the media read beside them. -/
def planTxn (line : Nat) (s : State) : State :=
  match (getTxn s line).req, regionAt s (64 * line) with
  | some m, some r =>
    let e := entOf s line
    let s1 := planTiles line m (onTxn line (fun k => { k with owned := k.owned || entOwned e }) s)
    let s2 := if isDb s r.idx then
        (hostSnoops e (hostRow m) (reqHead s r.idx m) (viewMask s r.idx)).foldl (fun s x => sendBis line x s) s1
      else s1
    let k := getTxn s2 line
    if needsVal m k && k.val.isNone && !k.media && (ownerTile e).isNone then fetchVal line s2 else s2
  | _, _ => onTxn line (fun k => { k with fail := true }) s

/-- R105 and R455 step 3: what the request says of its tile, and tiles cut off from the home. -/
def cleanEntry (line : Nat) (m : Msg) (s : State) : State :=
  let t := homeOf s line
  let s1 := if (getTxn s line).grant then s else onEnt line (dropTile m.src) s
  let e := entOf s1 line
  (bitsOf 8 e.tvec).foldl (fun s x =>
    if cutOff s t x then onEnt line (dropTile x) (if e.ts = .owned then onTxn line (fun k => { k with spoil := true }) s else s) else s) s1

/-- A request meets a data error before it acts: its key index (R281), a page without a frame (R213), a lost sub-channel or group (R178, R209), a write or
an atomic to a page whose STATE reads 0b11 (R81; DESIGN CHOICE: it is dropped, log 149), or write data that fails its check (R22, R57). -/
def reqChecks (line : Nat) (r : Region) (m : Msg) (s : State) : Bool × State :=
  let t := homeOf s line
  let who := whoOf m.attr
  if (r.typ = .protect ∨ r.typ = .packed) ∧ !keyAllowed s r m.attr.key then (false, raiseReq t .cryKeyReq (64 * line) who.head who.kind m.attr.key.toNat s)
  else if (m.op = .wrLine ∨ m.op = .wrPart) ∧ m.val.poison = false ∧ !valOk line m.val.data m.val.chk then (false, s)
  else if r.typ = .packed ∨ m.op = .hostCe then (true, s)
  else
    if pageBad s line then
      -- R81, R175: a media error on the line; it has no frame that a write could go to
      let write := decide (m.op = .wrLine ∨ m.op = .wrPart ∨ m.op = .farAtom)
      (!write, raiseReq t .drUe (64 * line) who.head who.kind ((subOf s t (64 * mapFrame0 s t)).getD 0) (addPoison (64 * line) 64 s))
    else
      let (ok, s1) := materialise (line / 64) who (classPrio s m.attr.cls) s
      (ok && !lineLost s1 line, s1)

/-- A request takes the line lock (R106): R105, checks, the metadata word of a new HDM-DB entry, and the plan. -/
def startTxn (line : Nat) (fresh : Bool) (m : Msg) (s : State) : State :=
  let t := homeOf s line
  match regionAt s (64 * line) with
  | none => setTxn line { live := true, req := some m, trk := freeReqTrk s t, fail := true } s
  | some r =>
    let e0 := entOf s line
    let q := !(Table.get [] s.ha.lq line).isEmpty || (match ownerTile e0 with | some x => decide (x ≠ m.src) | none => false)
    let s0 := match dirWay s line with | some w => if fresh then s else touchDir t (dirSet s line) w s | none => s
    let g := decide (m.op = .rdOwn) && m.have1 && decide (e0.ts = .shared) && e0.tvec.getLsbD m.src
    let s1 := setTxn line { live := true, req := some m, trk := freeReqTrk s t, qbusy := q, grant := g, owned := entOwned e0 } s0
    let s2 := cleanEntry line m s1
    let (ok, s3) := reqChecks line r m s2
    let s4 := if m.attr.kind < 2 then addHeat line m.attr.cls s3 else s3
    if !ok then onTxn line (fun k => { k with fail := true }) s4
    else if (entOf s4 line).unread && isDb s4 r.idx && decide (r.typ ≠ .packed) && (lineAt s4 line).isSome && !lineLost s4 line then
      onTxn line (fun k => { k with media := true, metaWait := true }) (askLine line (classPrio s4 m.attr.cls) s4)
    else planTxn line s4

/-- SnpInv to the tiles named, and BISnpInv for a packed line (R119, R120, R252): an eviction starts. -/
def startEvict (line : Nat) (lost : Bool) (s : State) : State :=
  let t := homeOf s line
  let e := entOf s line
  let all := if lost then tileList s else bitsOf 8 e.tvec
  let near := all.filter (fun x => !cutOff s t x)
  let cutOwner := match ownerTile e with | some x => cutOff s t x && !lost | none => false
  let s1 := addCnt (tileCnt t 460) 1 (setTxn line { live := true, evict := true, lost := lost, trk := freeEvTrk s t, spoil := cutOwner } s)
  let s2 := near.foldl (fun s x => sendSnoop line x .snpInv t 0 s) s1
  match regionAt s (64 * line) with
  | some r =>
    if r.typ = .packed ∧ isDb s r.idx then
      let hs : List Nat := if lost then bitsOf 64 (viewMask s r.idx)
        else match e.hst with | .i => [] | .s => bitsOf 64 e.hvec | .e => [e.holder] | .a => bitsOf 64 (viewMask s r.idx)
      hs.foldl (fun s g => sendBis line (g, .inv, false) s) s2
    else s2
  | none => s2

/-- An entry that fails its parity check or whose TS reads 0b11 (R120). -/
def entryLost (s : State) (line : Nat) : Bool :=
  let e := entOf s line
  e.tsBad || (e.badParity && bit (regRaw s .haDirCfg (homeOf s line)) 2)

/-- An entry that is lost when it is read (R120): HA_DIR_PARITY, PARITY_LOST and the snoops to every tile. -/
def loseEntry (line : Nat) (s : State) : State :=
  let t := homeOf s line
  startEvict line true (raiseTile t .haDirParity (dirSet s line) (raiseBit .haDirSts t 31 s))

/-- The eviction of a victim starts; an entry found lost as it is read is treated as R120 says (R119, R120). -/
def beginEvict (line : Nat) (s : State) : State := if entryLost s line then loseEntry line s else startEvict line false s

/-- Requests of a line that wait. -/
def getLq (s : State) (line : Nat) : List Msg := Table.get [] s.ha.lq line
def setLq (line : Nat) (l : List Msg) (s : State) : State := onHa (fun h => { h with lq := Table.set [] h.lq line l }) s

/-- A request whose line is free acts, or waits for a way (R106, R117, R118, R120). -/
def beginReq (line : Nat) (m : Msg) (s : State) : State :=
  let t := homeOf s line
  let set := dirSet s line
  match dirWay s line with
  | some _ =>
    if entryLost s line then
      (if 64 ≤ (evictions s t).length then setLq line (m :: getLq s line) s else loseEntry line (setLq line (m :: getLq s line) s))
    else startTxn line false m s
  | none =>
    if !(waiters s t set).isEmpty then setWaiters t set (waiters s t set ++ [m]) s
    else match wayNow s t set with
      | some (_, w, g) => startTxn line true m (newEntry t set w g line s)
      | none => setWaiters t set [m] s

/-- The line's lock is held: a transaction or an eviction is open on it, a walker holds it, or a miss on it waits for a way. -/
def lineHeld (s : State) (line : Nat) : Bool :=
  (getTxn s line).live || Table.get false s.ha.walkLock line || (waiters s (homeOf s line) (dirSet s line)).any (fun m => m.line = line)

/-- The line is taken: its lock is held, or a write-back waits that goes before any request (R106, R115). -/
def lineTaken (s : State) (line : Nat) : Bool := lineHeld s line || !(Table.get [] s.ha.wbuf line).isEmpty

/-- A REQ message reaches its home (R106). -/
def reqArrive (m : Msg) (s : State) : State :=
  if lineTaken s m.line || !(getLq s m.line).isEmpty then setLq m.line (getLq s m.line ++ [m]) s else beginReq m.line m s

/-- The answer of a request (R109 step 4, R142). -/
def answer (line : Nat) (m : Msg) (k : Txn) (v : LVal) (orig : W64) (ndr : Ndr) (s : State) : State :=
  let b : Msg := { op := .cmp, src := homeOf s line, dst := m.src, line := line, trk := m.trk, attr := m.attr }
  match m.op with
  | .rdShared => if k.forwarded then s else sendHom { b with op := .datS, val := v } s
  | .rdOwn => if k.forwarded then s else if k.grant then sendHom { b with op := .grant, val := if v.err then v else {} } s else sendHom { b with op := .datE, val := v } s
  | .rdCur =>
    let s1 := if wantsData m && !k.forwarded then sendHom { b with op := .datX, val := v } s else s
    if wantsCmp m then sendHom { b with ndr := ndr, val := if wantsData m then { poison := k.forwarded && v.poison } else v } s1 else s1
  | .farAtom => sendHom { b with op := .atomRes, val := v, orig := orig, qbusy := k.qbusy } s
  | _ => sendHom { b with ndr := ndr, val := if v.err then { err := true } else {} } s

/-- The line lock is released. -/
def closeTxn (line : Nat) (s : State) : State := setTxn line {} (if (getTxn s line).media then dropLine line s else s)

/-- TS and TVEC when a request has been answered (R107). -/
def tilesAfter (m : Msg) (e : DirEnt) : DirEnt :=
  match m.op with
  | .rdShared => { e with ts := .shared, tvec := setBit e.tvec m.src true }
  | .rdOwn => { e with ts := .owned, tvec := setBit 0#8 m.src true }
  | _ => e

/-- A request ends as a data error (R56, R57): its tile holds nothing of the line, but for data that an owner has forwarded to it. -/
def failTxn (line : Nat) (s : State) : State :=
  let k := getTxn s line
  match k.req with
  | some m => closeTxn line (onEnt line (if k.forwarded then tilesAfter m else dropTile m.src) (answer line m k { err := true } 0#64 .cmp s))
  | none => s

/-- A write of a protected line must wait until its page can be rewritten (R291). -/
def mustWait (s : State) (r : Region) (line : Nat) : Bool :=
  decide (r.typ = .protect) && overflows s (dpaLoc s r line) && (keySlot s (positionKey s r (dpaLoc s r line))).isSome && !pageReady s line

/-- The reserved metadata bits of the line: of the record its transaction read, else as stored (R84). -/
def rsvOf (s : State) (line : Nat) : Nat := match (getTxn s line).raw with | some x => metaRsv x.meta_ | none => storedRsv s line

/-- Write a line's value (R30, R58, R84): the metadata word keeps HSTATE and HOLDER as stored (R95), and its reserved bits. -/
def writeHome (line : Nat) (r : Region) (hst holder : Nat) (v : LVal) (who : Reader) (s : State) : Bool × State :=
  if r.typ = .protect ∧ isDamaged s (dpaLoc s r line) then (false, s)
  else
    let (ok, s1) := storeLine line v.data (mkMeta (slotFor s r (dpaLoc s r line)) v.poison hst holder (rsvOf s line)) who s
    if !ok then (false, s1)
    else (true, markWritten line (if v.poison then addPoison (64 * line) 64 s1 else clearPoisonAt line s1))

/-- Merge host write-backs into a value, oldest first (R111). -/
def mergeAll (line : Nat) (ms : List (W64 × LVal)) (v : LVal) : LVal :=
  ms.foldl (fun v x =>
    let d := mergeLine x.1 x.2.data v.data
    { data := d, chk := lineChk line d, poison := x.2.poison || (v.poison && decide (x.1 ≠ fullMask)) }) v

/-- What a transaction writes (R58, R107, R142, R460): the value, and an atomic's original value. -/
def writtenVal (line : Nat) (m : Msg) (k : Txn) (v : LVal) : Option LVal × W64 :=
  match m.op with
  | .wrLine =>
    if m.setPoison = some true then (some { v with poison := true }, 0#64) else (some m.val, 0#64)
  | .wrPart => (some (mergeAll line [(m.mask, m.val)] v), 0#64)
  | .farAtom =>
    match m.atom with
    | none => (none, 0#64)
    | some o =>
      let dirty : Option LVal := if k.fresh ∨ k.merges ≠ [] then some v else none
      if v.poison then (dirty, 0#64)
      else
        let (d, orig, wr) := applyAtom o v.data
        (if wr then some { data := d, chk := lineChk line d } else dirty, orig)
  | _ => (if k.fresh ∨ k.merges ≠ [] then some v else none, 0#64)

/-- HSTATE, HOLDER and HVEC take their new values; MDIRTY when the stored word differs (R94, R108, R252). -/
def hostEntry (packed : Bool) (x : HSt × Nat × W64) (e : DirEnt) : DirEnt :=
  { e with hst := x.1, holder := x.2.1, hvec := x.2.2,
           mdirty := !packed && (e.mdirty || decide (x.1 ≠ e.hst ∨ x.2.1 ≠ e.holder)) }

/-- A transaction ends (R109 steps 4 and 5): the write, the answers, the entry, the lock. An atomic on a line never written counts no unwritten read
(R88; DESIGN CHOICE, log 150). -/
def finish (line : Nat) (r : Region) (m : Msg) (s : State) : State :=
  let k := getTxn s line
  let e := entOf s line
  let packed := decide (r.typ = .packed)
  let row := hostRow m
  let h := reqHead s r.idx m
  let after := if isDb s r.idx then hostAfter e row h m.mv k.answers else (e.hst, e.holder, e.hvec)
  let both := (k.answers.filter (fun a => a.2 = .e)).map (·.1)
  let two := contradicts s line m
  let spoil := (k.spoil || two) && !packed
  let v0 := mergeAll line (if packed then [] else k.merges) (k.val.getD {})
  let (w0, orig) := writtenVal line m k (if m.op = .farAtom then { v0 with poison := v0.poison || spoil } else v0)
  let w : Option LVal := if packed then none else w0.map (fun x => { x with poison := x.poison || spoil })
  if w.isSome && mustWait s r line then onTxn line (fun k => { k with media := true }) (askPage line s)
  else if w.isSome && slotShort s line then onTxn line (fun k => { k with media := true }) (waitSlot line s)
  else
    let (ok, s1) := match w with
      | some x => writeHome line r (hstCode e.stHst) e.stHolder x (whoOf m.attr) s
      | none => match spoil, k.raw with
        | true, some x => (true, setPoison line x s)
        | _, _ => (true, s)
    if !ok && !k.forwarded then failTxn line s1
    else
      let v : LVal := if m.op = .farAtom then { poison := v0.poison || spoil } else { v0 with poison := v0.poison || spoil }
      let s2 := if two then both.foldl (fun s g => biFailure g line s) s1 else s1
      let s3 := answer line m k v orig (ndrFor h after) s2
      let reads := decide (m.op = .rdShared) || wantsData m && decide (m.op = .rdCur)
      let s4 := if reads && !packed then countUnwritten line m.attr s3 else s3
      closeTxn line (onEnt line (fun e => tilesAfter m (hostEntry packed after e)) s4)

/-- An eviction ends: the entry is freed, and an entry that waits in way 15 for it moves there (R118, R119). The way of an eviction that a waiting miss has
claimed is left to that miss. -/
def endEvict (line : Nat) (s : State) : State :=
  let t := homeOf s line
  let set := dirSet s line
  match dirWay s line with
  | none => closeTxn line s
  | some w =>
    let mine := (getTxn s line).claimed
    let s1 := closeTxn line (freeEntry line s)
    if !mine ∧ w ≠ 15 ∧ reservedWay s t ∧ (getDir s1 t set 15).v ∧ (getDir s1 t set 15).guest then moveGuest t set w s1 else s1

/-- The metadata word of a record with another HSTATE and HOLDER (R119). -/
def withHost (x : BitVec 56) (hst holder : Nat) : BitVec 56 := mkMeta (metaKey x) (metaPoison x) hst holder (metaRsv x)

/-- Steps 2 and 3 of an eviction whose answers are in (R119, R120, R252). -/
def evictWrite (line : Nat) (r : Region) (s : State) : State :=
  let k := getTxn s line
  let e := entOf s line
  let hst := if k.lost then (if isDb s r.idx then 2 else 0) else hstCode e.hst
  let holder := if k.lost ∨ e.hst ≠ .e then 0 else e.holder
  if r.typ = .packed then endEvict line s
  else match k.val with
    | some v =>
      if mustWait s r line then onTxn line (fun k => { k with media := true }) (askPage line s)
      else if slotShort s line then onTxn line (fun k => { k with media := true }) (waitSlot line s)
      else endEvict line (writeHome line r hst holder { v with poison := v.poison || k.spoil } {} s).2
    | none =>
      if !k.spoil && !e.mdirty && !(k.lost && isDb s r.idx) then endEvict line s
      else
        let put (x : Rec) : State :=
          let s1 := putLine line (mkRec line x.data (withHost x.meta_ hst holder)) s
          endEvict line (if k.spoil then setPoison line (mkRec line x.data (withHost x.meta_ hst holder)) s1 else s1)
        match k.raw with
        | some x => put x
        | none => if lineLost s line || (lineAt s line).isNone then endEvict line s
            else onTxn line (fun k => { k with media := true }) (askLine line (walkerPrio s) s)

/-- A transaction that a link loss has ended (R455 step 2): its line is poisoned as stored, and the lock released. -/
def poisonEnd (line : Nat) (r : Region) (s : State) : State :=
  let k := getTxn s line
  if !k.spoil || decide (r.typ = .packed) then closeTxn line s
  else match k.raw with
    | some x => closeTxn line (setPoison line x s)
    | none => if lineLost s line || (lineAt s line).isNone then closeTxn line s
        else onTxn line (fun k => { k with media := true }) (askLine line (walkerPrio s) s)

/-- A request that meets a data error ends. What its transaction has absorbed from a tile or a host has been acknowledged and is written first (R106), and
a line that is to be poisoned is (R108, R110, R113). -/
def failEnd (line : Nat) (r : Region) (s : State) : State :=
  let k := getTxn s line
  if decide (r.typ = .packed) || !(k.fresh || !k.merges.isEmpty || k.spoil) || lineLost s line || (lineAt s line).isNone || pageBad s line then failTxn line s
  else match k.val, k.raw with
    | some v, _ =>
      if mustWait s r line then onTxn line (fun k => { k with media := true }) (askPage line s)
      else if slotShort s line then onTxn line (fun k => { k with media := true }) (waitSlot line s)
      else
        let e := entOf s line
        let w := mergeAll line k.merges v
        failTxn line (writeHome line r (hstCode e.stHst) e.stHolder { w with poison := w.poison || k.spoil } {} s).2
    | none, some x => failTxn line (if k.spoil then setPoison line x s else s)
    | none, none => onTxn line (fun k => { k with media := true }) (askLine line (walkerPrio s) s)

/-- Step 3 of R109: with every answer in, the transaction or eviction goes on. -/
def advance (line : Nat) (s : State) : State :=
  let k := getTxn s line
  if !k.live || k.metaWait || k.media || decide (k.snoops ≠ 0#8) || !k.bis.isEmpty then s
  else match regionAt s (64 * line), k.req with
    | some r, none => if k.evict then evictWrite line r s else poisonEnd line r s
    | some r, some m =>
      if k.fail then failEnd line r s
      else if lacksVal s line m k then
        let s1 := fetchVal line s
        if (getTxn s1 line).fail then failEnd line r s1 else if (getTxn s1 line).media then s1 else finish line r m s1
      else finish line r m s
    | none, none => if k.evict then endEvict line s else closeTxn line s
    | none, some _ => failTxn line s

/-- Something is in the way of an output line: an operation of the home tile, an eviction buffer, a transaction or an eviction, or a walker. -/
def fillBusy (s : State) (t line : Nat) : Bool :=
  (getTrk s t line).live || (getEvb s t line).isSome || (getTxn s line).live || Table.get false s.ha.walkLock line

/-- An output line is filled into the home near cache in S under its directory entry (R31, R91, R251); none while no slot or no eviction buffer is free. -/
def fillSlot (t line : Nat) (v : LVal) (s : State) : Option State :=
  (missWay s t line).bind (fun w => (readySlot t line { way := some w } s).map (fun s1 =>
    let s2 := onEnt line (fun e => { e with ts := .shared, tvec := setBit e.tvec t true }) s1
    fillMark t line w (setNcSlot t (ncSet line) w { getNcSlot s2 t (ncSet line) w with tag := ncTag line, st := .s, val := v } s2)))

/-- An output line takes directory way `w` and is filled (R95, R251). -/
def fillWay (t line w : Nat) (guest : Bool) (v : LVal) (s : State) : Option State :=
  fillSlot t line v (touchDir t (dirSet s line) w (setDir t (dirSet s line) w { v := true, line := line, guest := guest } s))

/-- An output line that cannot enter yet waits. -/
def fillLater (m : Msg) (s : State) : State := onHa (fun h => { h with fillQ := h.fillQ ++ [m] }) s

/-- A waiting output line whose turn for a directory way has come takes it, unless it need not or cannot. -/
def fillTake (m : Msg) (w : Nat) (guest : Bool) (s : State) : State :=
  if (copyOf s m.dst m.line).isSome then s
  else if fillBusy s m.dst m.line || (dirWay s m.line).isSome then fillLater m s
  else (fillWay m.dst m.line w guest m.val s).getD (fillLater m s)

/-- One output line goes as far as it can, and whether it no longer waits here: it enters under the entry its line has, or with a way of the directory
cache, or waits for the eviction of a victim as a miss does (R31, R117, R118, R251). An entry found lost is treated as R120 says first. -/
def fillStep (m : Msg) (s : State) : Bool × State :=
  let t := m.dst
  let set := dirSet s m.line
  if (copyOf s t m.line).isSome then (true, s)
  else if fillBusy s t m.line || (missWay s t m.line).isNone then (false, s)
  else match dirWay s m.line with
    | some _ =>
      if entryLost s m.line then (false, if 64 ≤ (evictions s t).length then s else loseEntry m.line s)
      else if (entOf s m.line).ts = .owned then (false, s)
      else match fillSlot t m.line m.val s with | some s1 => (true, s1) | none => (false, s)
    | none =>
      if !(waiters s t set).isEmpty then (true, setWaiters t set (waiters s t set ++ [m]) s)
      else match wayNow s t set with
        | some (_, w, g) => (match fillWay t m.line w g m.val s with | some s1 => (true, s1) | none => (false, s))
        | none => (true, setWaiters t set [m] s)

/-- The output lines that wait go as far as they can, oldest first. -/
def pumpFills (s : State) : State :=
  s.ha.fillQ.foldl (fun s m =>
    let (ok, s1) := fillStep m s
    if ok then onHa (fun h => { h with fillQ := h.fillQ.erase m }) s1 else s1) s

/-- A set of the directory settles (R118): an idle entry of way 15 moves to an invalid open way, then the oldest miss takes a way. Answers the line
whose transaction began. -/
def nextWaiter (t set : Nat) (s : State) : Option (Nat × State) :=
  let e := getDir s t set 15
  let go (s : State) : Option (Nat × State) :=
    match wayNow s t set with
    | none => none
    | some (i, w, g) =>
      match (waiters s t set)[i]? with
      | none => none
      | some m =>
        let s1 := setWaiters t set ((waiters s t set).eraseIdx i) s
        if Table.get false s.ha.walkLock m.line then none
        else if m.op = .datS then some (m.line, fillTake m w g s1)
        else some (m.line, startTxn m.line true m (newEntry t set w g m.line s1))
  match (if reservedWay s t && e.v && !e.guest && !(getTxn s e.line).live then emptyWay s t set else none) with
  | some w => let s1 := moveGuest t set w s; some ((go s1).getD (e.line, s1))
  | none => go s

/-- Run a line on as far as it goes, and the misses of its set after it. -/
def drive : Nat → Nat → State → State
  | 0, line, s => advance line s
  | f + 1, line, s =>
    let s1 := advance line s
    match nextWaiter (homeOf s line) (dirSet s line) s1 with
    | some (l, s2) => drive f l s2
    | none => s1

def driveLine (line : Nat) (s : State) : State :=
  pumpFills (pumpSnoops (drive ((waiters s (homeOf s line) (dirSet s line)).length + 2) line s))

/-- An impossible combination at a home (R106): HA_COH_PROTO with what arrived, and an open transaction ends as a data error. -/
def protoAt (t line detail : Nat) (s : State) : State :=
  let s1 := raiseWith (tileSrc t .haCohProto) { addr := BitVec.ofNat 64 (64 * line), detail := BitVec.ofNat 32 detail } {} s
  let k := getTxn s1 line
  if k.live && !k.evict then driveLine line (onTxn line (fun k => { k with fail := true, metaWait := false, media := false, snoops := 0#8, bis := [] }) s1) else s1

/-- An impossible message at a home (R106). -/
def homeProto (m : Msg) (s : State) : State := protoAt m.dst m.line (opCode m.op + 256 * m.src) s

/-- A tile's dirty data as the home takes it: data that fails its check is stored poisoned (R57; DEDUCED, log 45). -/
def dirtyVal (line : Nat) (v : LVal) : LVal :=
  if v.poison then v else if valOk line v.data v.chk then { v with data := valFixed line v.data v.chk } else { v with poison := true }

/-- A snoop's answer (R106, R107, R109). -/
def snoopAnswer (m : Msg) (s : State) : State :=
  let k := getTxn s m.line
  if !k.live || !k.snoops.getLsbD m.src then homeProto m s
  else
    let s1 := onTxn m.line (fun k => { k with snoops := setBit k.snoops m.src false }) s
    let gone := onEnt m.line (dropTile m.src)
    let take (s : State) : State := onTxn m.line (fun k => { k with val := some (dirtyVal m.line m.val), fresh := true }) s
    let fwd (s : State) : State := onTxn m.line (fun k => { k with forwarded := true }) s
    let shared := onEnt m.line (fun e => { e with ts := .shared })
    driveLine m.line (match m.op with
      | .snpRspI => gone s1
      | .snpRspIData => gone (take s1)
      | .snpRspFwd => fwd (if m.newS then shared s1 else if m.newI then gone s1 else s1)
      | _ => shared (fwd (take s1)))

/-- A write-back of a stable line, where the walker's lock and the page let it be written now (R106, R115). -/
def applyWb (m : Msg) (s : State) : Bool × State :=
  match regionAt s (64 * m.line) with
  | none => (true, s)
  | some r =>
    let e := entOf s m.line
    if Table.get false s.ha.walkLock m.line then (false, s)
    else if mustWait s r m.line then (false, askPage m.line s)
    else if slotShort s m.line then (false, waitSlot m.line s)
    else
      let (_, s1) := writeHome m.line r (hstCode e.stHst) e.stHolder (dirtyVal m.line m.val) {} s
      (true, sendHom { op := .wbAck, src := m.dst, dst := m.src, line := m.line } (onEnt m.line (dropTile m.src) s1))

/-- WbData reaches its home (R106, R115). An entry that is found lost as it is read starts its eviction, which absorbs the write-back (R120). -/
def wbArrive (m : Msg) (s0 : State) : State :=
  let lost := (dirWay s0 m.line).isSome && !(getTxn s0 m.line).live && entryLost s0 m.line
  if lost && (decide (64 ≤ (evictions s0 m.dst).length) || Table.get false s0.ha.walkLock m.line) then
    onHa (fun h => { h with wbuf := Table.mod [] h.wbuf m.line (fun l => l ++ [m]) }) s0
  else
  let s := if lost then loseEntry m.line s0 else s0
  let k := getTxn s m.line
  let e := entOf s m.line
  if k.live then
    if e.tvec.getLsbD m.src ∨ k.lost then
      let s1 := onTxn m.line (fun k => { k with val := some (dirtyVal m.line m.val), fresh := true }) s
      sendHom { op := .wbAck, src := m.dst, dst := m.src, line := m.line } (onEnt m.line (dropTile m.src) s1)
    else homeProto m s
  else if ownerTile e = some m.src then
    let (ok, s1) := applyWb m s
    if ok then driveLine m.line s1 else onHa (fun h => { h with wbuf := Table.mod [] h.wbuf m.line (fun l => l ++ [m]) }) s1
  else homeProto m s

/-- A write into a packed window is discarded: the head's first in each second logs a Warning (R59). -/
def warnPacked (h line : Nat) (s : State) : State :=
  let sec := (s.time.now - s.time.relAt) / 1000000 + 1
  if Table.get 0 s.host.packedWarn h = sec then s
  else eventHead h ⟨.warning, .packedWrite (64 * line)⟩ (onHost (fun x => { x with packedWarn := Table.set 0 x.packedWarn h sec }) s)

/-- HostWb reaches its home (R106, R111, R252): absorbed while a BISnp to its head is outstanding. That of a packed line is discarded as a write is. -/
def hostWbArrive (m : Msg) (s : State) : State :=
  let k := getTxn s m.line
  if k.live && k.bis.any (fun b => b.1 = m.attr.head) then
    sendHom { op := .cmp, src := m.dst, dst := m.src, line := m.line, trk := 5000, attr := m.attr, biTag := m.biTag }
      (onTxn m.line (fun k => { k with merges := k.merges ++ [(m.mask, m.val)] })
        (match regionAt s (64 * m.line) with | some r => if r.typ = .packed then warnPacked m.attr.head m.line s else s | none => s))
  else homeProto m s

/-- One BISnp of a transaction is over (R108, R110, R113): the answer counted, and the line poisoned where `spoil`. -/
def endBis (line g : Nat) (tag : BitVec 16) (a : BiAns) (spoil : Bool) (s : State) : State :=
  onTxn line (fun k => { k with bis := k.bis.filter (fun b => ¬(b.1 = g ∧ b.2.1 = tag)), answers := k.answers ++ [(g, a)], spoil := k.spoil || spoil }) s

/-- The answers R110 accepts. -/
def biAccepts : BiKind → BiAns → Bool
  | .inv, .i | .data, .i | .data, .s | .cur, .i | .cur, .s | .cur, .e => true
  | _, _ => false

/-- BIRspFwd (R106, R110): matched by head and BI tag; with no match it is a late response. -/
def biRspArrive (m : Msg) (s : State) : State :=
  let g := m.attr.head
  match s.ha.txns.find? (fun e => e.2.live && decide (homeOf s e.1 = m.dst) && e.2.bis.any (fun b => b.1 = g ∧ b.2.1 = m.biTag)) with
  | none => addCnt (portCnt g 10) 1 s
  | some (line, k) =>
    match k.bis.find? (fun b => b.1 = g ∧ b.2.1 = m.biTag) with
    | none => s
    | some b =>
      if biAccepts b.2.2.1 m.ans then driveLine line (endBis line g m.biTag m.ans false s)
      else driveLine line (biFailure g line (endBis line g m.biTag .i true s))

/-- BIConflictFwd (R112): BIAckReq on HOM, after every Cmp sent to the head's tile before it. -/
def biConflictArrive (m : Msg) (s : State) : State :=
  sendHom { op := .biAckReq, src := m.dst, dst := m.src, line := m.line, attr := m.attr, biTag := m.biTag } s

/-- The BISnps outstanding to a head end as answered with BIRspI and poison nothing (R52, R113). -/
def dropBis (g : Nat) (s : State) : State :=
  (s.ha.txns.filter (fun e => e.2.live && e.2.bis.any (fun b => b.1 = g))).foldl (fun s e =>
    driveLine e.1 ((e.2.bis.filter (fun b => b.1 = g)).foldl (fun s b => endBis e.1 g b.2.1 .i false s) s)) s

/-- A record as the home agent reads it: its value above the crypto block (R22, R281, R293, R299). -/
def readVal (line : Nat) (r : Region) (x : Rec) (sh : ShadowFlips) (who : Reader) (s : State) : RdOut × State :=
  if r.typ = .protect then
    let c := dpaLoc s r line
    let s1 := applyShadow r c line sh who s
    let y := tainted s1 (64 * line) line ((peekLine s1 line).getD x)
    cryRead r c (if metaPoison y.meta_ then y else x) who line s1
  else (.val ⟨x.data, x.chk, metaPoison x.meta_, false⟩, s)

/-- The metadata word was lost (R175, R281): a cached entry takes HSTATE A, and the heads that the A column snoops are asked. -/
def metaLost (line : Nat) (r : Region) (s : State) : State :=
  if !isDb s r.idx then s
  else
    let s1 := lostEntry line s
    match (getTxn s1 line).req with
    | some m =>
      if (getTxn s1 line).metaWait then s1
      else
        let asked := ((getTxn s1 line).bis.map (·.1)) ++ (getTxn s1 line).answers.map (·.1)
        ((hostSnoops (entOf s1 line) (hostRow m) (reqHead s r.idx m) (viewMask s r.idx)).filter (fun x => !asked.contains x.1)).foldl
          (fun s x => sendBis line x s) s1
    | none => s1

/-- A media read's record goes to its transaction (R95, R106). -/
def takeMedia (line : Nat) (r : Region) (x : Rec) (lost : Bool) (sh : ShadowFlips) (s : State) : State :=
  let k := getTxn s line
  let who := match k.req with | some m => whoOf m.attr | none => {}
  let (y, bad, s1) := fixKey line r who (putLine line) x s
  let s2 := if lost || bad then metaLost line r s1 else s1
  let s3 := onTxn line (fun k => { k with media := false, raw := some y }) s2
  match k.req with
  | none => s3
  | some m =>
    let s4 := if k.metaWait then onTxn line (fun k => { k with metaWait := false }) (onEnt line (takeMeta s3 r.idx y.meta_) s3) else s3
    let need := lacksVal s4 line m (getTxn s4 line)
    let s5 := if need then
        (match readVal line r y sh who s4 with
         | (.val v, s) => onTxn line (fun k => { k with val := some v }) s
         | (.err, s) => onTxn line (fun k => { k with fail := true }) s)
      else s4
    if k.metaWait && !(getTxn s5 line).fail then planTxn line s5 else s5

end Sys2Proof.Machine
end

