-- ==== Sys2Proof/Machine/Range.lean ====
section
/-!
DEFINITION. The range engine of a near cache (R134, R137, R138): the lines and slots it takes, and the preload that runs on it.
-/
namespace Sys2Proof.Machine

def getRange (s : State) (t : Nat) : RangeEng := Table.get {} s.nc.range t
def onRange (t : Nat) (f : RangeEng → RangeEng) (s : State) : State := onNc (fun n => { n with range := Table.mod {} n.range t f }) s

/-- First line and number of lines of the programmed range (NC_RANGE_BASE, NC_RANGE_LEN). -/
def rangeBase (s : State) (t : Nat) : Nat := regFld s .ncRangeBaseLo t 31 6 + 2 ^ 26 * regFld s .ncRangeBaseHi t 15 0
def rangeLen (s : State) (t : Nat) : Nat := (regRaw s .ncRangeLen t).toNat

def inRange (s : State) (t line : Nat) : Bool := decide (rangeBase s t ≤ line) && decide (line < rangeBase s t + rangeLen s t)

/-- Place a number in an ascending list without repeats. -/
def sortIn (x : Nat) : List Nat → List Nat
  | [] => [x]
  | y :: l => if x < y then x :: y :: l else if x = y then y :: l else y :: sortIn x l

/-- The lines a tile's valid slots hold, in set and way order (R137). -/
def slotLines (s : State) (t : Nat) : List Nat :=
  s.nc.slots.filterMap (fun e =>
    let set := e.1 / 16 % 65536
    if e.1 / 2 ^ 20 = t ∧ e.2.st ≠ .i ∧ !isScratch s t (e.1 % 16) then some (ncLine set e.2.tag) else none)

/-- The lines a tile's fills (R138) and eviction buffers (R131) hold. -/
def movingLines (s : State) (t : Nat) : List Nat :=
  s.nc.trks.filterMap (fun e => if e.1 / 2 ^ 42 = t ∧ e.2.live ∧ e.2.st ≠ .x then some (e.1 % 2 ^ 42) else none) ++
  s.nc.evb.filterMap (fun e => if e.1 / 2 ^ 42 = t ∧ e.2.isSome then some (e.1 % 2 ^ 42) else none)

/-- The lines a maintenance operation acts on: those of the range in ascending order, or those of every slot in set and way order. -/
def rangeTargets (s : State) (t : Nat) (whole : Bool) : List Nat :=
  let held := slotLines s t ++ movingLines s t
  if whole then held.eraseDups else (held.filter (inRange s t)).foldl (fun l x => sortIn x l) []

/-- The next line at or above `x` that lies in a catalogued region, if there is one. -/
def nextCatalogued (s : State) (x : Nat) : Option Nat :=
  s.map.cat.foldl (fun a r =>
    let b := r.base / 64
    let e := (r.base + r.len) / 64
    if e ≤ x then a else match a with | some y => some (min y (max b x)) | none => some (max b x)) none

/-- PRELOAD_LOCK reaches its next lines while fewer than 32 are in flight (R134): lines in no catalogued region, or whose home the tile cannot
reach, are skipped and counted. -/
def pumpGo (t : Nat) : Nat → State → State
  | 0, s => s
  | f + 1, s =>
    let r := getRange s t
    if r.left = 0 ∨ 32 ≤ r.waits.length ∨ r.run ≠ some .preloadLock then s
    else
      let n := match nextCatalogued s r.next with | some y => y - r.next | none => r.left
      if n ≠ 0 then
        let k := min n r.left
        pumpGo t f (onRange t (fun x => { x with next := x.next + k, left := x.left - k, skipped := min (x.skipped + k) (2 ^ 30 - 1) }) s)
      else
        let s1 := onRange t (fun x => { x with next := x.next + 1, left := x.left - 1 }) s
        pumpGo t f (if cutOff s t (homeOf s r.next) then onRange t (fun x => { x with skipped := min (x.skipped + 1) (2 ^ 30 - 1) }) s1
          else startOp t r.next .preload (onRange t (fun x => { x with waits := x.waits ++ [r.next] }) s1))

def pumpRange (t : Nat) (s : State) : State := pumpGo t (2 * (getRange s t).left + 2) s

/-- Every running PRELOAD_LOCK goes on. -/
def pumpRanges (s : State) : State := s.nc.range.foldl (fun s e => pumpRange e.1 s) s

/-- UNLOCK (R134, R138): LOCK is cleared on every slot of the range, and a kept tag goes with it; the step on a line whose fill is under way waits behind
the operations of that line, and on a line in MI_A for its WbAck (R131). -/
def unlockRange (t : Nat) (s : State) : State :=
  let late := ((movingLines s t).filter (inRange s t)).eraseDups
  let s1 := onNc (fun n => { n with
    slots := Table.mapAll {} (fun k x =>
      let l := ncLine (k / 16 % 65536) x.tag
      if k / 2 ^ 20 = t ∧ x.lock ∧ inRange s t l ∧ ¬late.contains l then
        { x with lock := false, tag := if x.st = .i then 0#26 else x.tag } else x) n.slots }) s
  late.foldl (fun s l => startOp t l .unlock s) (onRange t (fun x => { x with waits := late }) s1)

/-- The encodings of OP (NC_RANGE_CTL). -/
def rangeOpOf (n : Nat) : Option RangeOp :=
  if n = 1 then some .clean else if n = 2 then some .inv else if n = 3 then some .cleanAll else if n = 4 then some .invAll
  else if n = 5 then some .preloadLock else if n = 6 then some .unlock else none

/-- START (R137): OP begins on the tile's lines. A range of 0 lines completes at once; an OP that acts as none starts nothing. -/
def startRange (t : Nat) (op : RangeOp) (s : State) : State :=
  let whole := decide (op = .cleanAll ∨ op = .invAll)
  if rangeLen s t = 0 ∧ ¬whole then raiseBit .ncRangeSts t 31 (onRange t (fun _ => {}) s)
  else
    match op with
    | .preloadLock => pumpRange t (onRange t (fun _ => { run := some op, next := rangeBase s t, left := rangeLen s t }) s)
    | .unlock => unlockRange t (onRange t (fun _ => { run := some op }) s)
    | _ =>
      let ls := rangeTargets s t whole
      let w : WOp := if op = .clean ∨ op = .cleanAll then .clean else .inv
      ls.foldl (fun s l => startOp t l w s) (onRange t (fun _ => { run := some op, waits := ls }) s)

/-- A write to NC_RANGE_CTL (R137): while START reads 1 nothing changes. -/
def writeRangeCtl (t : Nat) (v : W32) (s : State) : State :=
  if (getRange s t).run.isSome then s
  else
    let s1 := setReg .ncRangeCtl t (BitVec.ofNat 32 (fld v 2 0)) s
    if !bit v 4 then s1 else match rangeOpOf (fld v 2 0) with | some op => startRange t op s1 | none => s1

/-- A write to NC_RANGE_BASE or NC_RANGE_LEN: discarded while START reads 1. -/
def writeRangeReg (k : RegKind) (t : Nat) (v : W32) (s : State) : State := if (getRange s t).run.isSome then s else writeReg k t v s

/-- A write to NC_WAY_CFG (R132): discarded, with WAYCFG_LATE, once the near cache has taken a fill; the run lock discards it too (R8). -/
def writeWayCfg (t : Nat) (v : W32) (s : State) : State :=
  if s.nc.filled.getLsbD t then raiseBit .ncSts t 31 s else writeReg .ncWayCfg t v s

end Sys2Proof.Machine
end

