-- ==== Sys2Proof/Machine/Jobs.lean ====
section
/-!
DEFINITION. The job engine (R230–R243) and ingest (R261–R273): fetching, checks, parts, their reads and writes, outcomes, completion records and
commits. Operations a tile has ended for the job engine stand in `job.done` until `settle` takes them up.
-/
namespace Sys2Proof.Machine

/-- The serving tile as the route tables name it (R227). -/
def routeOf (s : State) (r : Nat) : Nat := (getRing s r).route.getD (servingTile s r)

/-- Job slots and part slots in use on a tile (JE_STS). -/
def jobSlots (s : State) (t : Nat) : Nat := Table.count (fun _ j => match j with | some j => decide (j.tile = t) | none => false) s.job.jobs
/-- Descriptor reads under way that have a job slot of the tile (R232). -/
def slotReads (s : State) (t : Nat) : Nat := (s.job.rings.filter (fun e => decide (routeOf s e.1 = t) && decide (e.2.reading = some false))).length
def partSlots (s : State) (t : Nat) : Nat := Table.count (fun _ p => match p with | some p => decide (p.tile = t) | none => false) s.job.parts

/-- Room for one more record (R232). -/
def cqRoom (x : Ring) : Bool := decide ((x.cqTail + BitVec.ofNat 32 x.inflight - x.cqHead).toNat < 2 ^ rgClog x)

/-- Line and address of descriptor `n` (R228). -/
def descLine (x : Ring) (n : Nat) : Nat := (rgDbase x + 64 * (n % 2 ^ rgDlog x)) / 64

/-! Descriptors (R230, R265). -/

def dType (d : Bytes) : Nat := leAt d 0 1
def dFence (d : Bytes) : Bool := decide (leAt d 1 1 % 2 = 1)
def dLen (d : Bytes) : Nat := leAt d 4 4
def dSrc (d : Bytes) : Nat := leAt d 16 8
def dDst (d : Bytes) : Nat := leAt d 24 8
def dParam (d : Bytes) (k : Nat) : Nat := leAt d (32 + 8 * k) 8
def inMode (d : Bytes) : Nat := dParam d 0 % 4
def inHuff (d : Bytes) : Nat := dParam d 0 / 4 % 4
def inEffort (d : Bytes) : Nat := dParam d 0 / 16 % 4
def inGain (d : Bytes) : Nat := dParam d 0 / 256 % 128

/-- A descriptor is malformed (R230, R265). -/
def malformed (d : Bytes) : Bool :=
  let rsv := decide (leAt d 1 1 / 2 ≠ 0) || decide (leAt d 2 2 ≠ 0) || decide (leAt d 56 8 ≠ 0)
  let len (lo : Nat) := decide (dLen d % 64 ≠ 0) || decide (dLen d < lo) || decide (2 ^ 30 < dLen d)
  match dType d with
  | 0 => rsv
  | 1 => rsv || decide (dParam d 0 ≠ 0) || decide (dParam d 1 ≠ 0) || decide (dParam d 2 ≠ 0) || decide (dSrc d % 64 ≠ 0) || decide (dDst d % 64 ≠ 0) || len 64 ||
      (decide (dSrc d < dDst d + dLen d) && decide (dDst d < dSrc d + dLen d))
  | 2 => rsv || decide (dParam d 1 ≠ 0) || decide (dParam d 2 ≠ 0) || decide (dDst d % 64 ≠ 0) || len 64
  | _ => rsv || decide (dParam d 1 ≠ 0) || decide (dParam d 2 ≠ 0) || decide (dSrc d % 64 ≠ 0) || decide (dDst d % 64 ≠ 0) ||
      decide (2 ≤ inMode d) || decide (dParam d 0 / 64 % 4 ≠ 0) || decide (dParam d 0 / 2 ^ 15 ≠ 0) ||
      (if inMode d = 0 then len 64 || decide (inHuff d = 3) || decide (100 < inGain d)
       else len 128 || decide (inHuff d ≠ 0) || decide (inEffort d ≠ 0) || decide (inGain d ≠ 0))

/-- A container header breaks R264. -/
def badHeader (len : Nat) (h : Bytes) : Bool :=
  !(decide (leAt h 0 4 = 0x514F485A) && decide (leAt h 4 2 = 1) && decide (leAt h 6 1 ≤ 2) && decide (leAt h 7 1 = 0) && decide (leAt h 12 4 = 0) &&
    decide (leAt h 48 16 = 0) && decide (1 ≤ leAt h 8 4 ∧ leAt h 8 4 ≤ 65536) && decide (leAt h 16 8 % 8 = 0 ∧ 64 ≤ leAt h 16 8) &&
    decide (leAt h 16 8 + 8 * leAt h 8 4 ≤ leAt h 24 8 ∧ leAt h 24 8 ≤ len))

/-- The packed region an INGEST job writes. -/
def destPacked (s : State) (d : Bytes) : Option Region := (regionAt s (dDst d)).filter (fun r => r.typ = .packed)

/-- Blocks of an INGEST job (R265). -/
def ingestBlocks (s : State) (j : Job) : Nat :=
  match destPacked s j.desc with
  | none => 1
  | some r => if inMode j.desc = 0 then (dLen j.desc + 2 ^ r.blkLog - 1) / 2 ^ r.blkLog else leAt (j.hdr.getD []) 8 4

/-- The key slots a job that starts may use: both of a pass that runs, the new one of a pass that is ending (R234, R305). -/
def keyStarts (s : State) (r : Region) (k : BitVec 12) : Bool :=
  match passOn s r.idx with
  | some p => decide (k = p.new) || (decide (k = p.old) && !p.ending)
  | none => decide (k = currentKey s r)

/-- The key rules of R234 for one range. -/
def keyRule (s : State) (x : Ring) (r : Region) : Bool := decide (r.typ ≠ .protect ∧ r.typ ≠ .packed) || keyStarts s r (BitVec.ofNat 12 (rgKey x))

def copySource (r : Region) : Bool := decide (r.typ = .plain ∨ r.typ = .staging ∨ r.typ = .protect)

/-- The header of a ZHOQ job can be read (R266): SRC lies in a region, and its home takes the ring's key (R281). A source that fails this fails a later
check of R234 whatever its header holds (log 46). -/
def headerReadable (s : State) (x : Ring) (d : Bytes) : Bool :=
  match regionAt s (dSrc d) with
  | some r => decide (r.typ ≠ .protect ∧ r.typ ≠ .packed) || keyAllowed s r (BitVec.ofNat 12 (rgKey x))
  | none => false

/-- The status of the first check that fails (R234, R266); none when the job starts. -/
def jobCheck (s : State) (x : Ring) (j : Job) : Option JobStatus :=
  let d := j.desc
  let o := rgOwner x
  let src : Option Region := if dType d = 1 ∨ dType d = 3 then rangeRegion s o (dSrc d) (dLen d) else none
  let needSrc := decide (dType d = 1 ∨ dType d = 3)
  if 4 ≤ dType d then some .badType
  else if malformed d then some .badDesc
  else if dType d = 3 ∧ inMode d = 1 ∧ ((j.hdr.map (badHeader (dLen d))).getD false) then some .badDesc
  else if dType d = 0 then none
  else
    let dst : Option Region :=
      if dType d ≠ 3 then rangeRegion s o (dDst d) (dLen d)
      else match destPacked s d with
        | some r =>
          let b := 2 ^ r.blkLog
          if (dDst d - r.base) % b ≠ 0 ∨ (inMode d = 1 ∧ ((j.hdr.map (fun h => decide (2 ^ (12 + 2 * leAt h 6 1) ≠ b))).getD false)) then none
          else rangeRegion s o (dDst d) (ingestBlocks s j * b)
        | none => rangeRegion s o (dDst d / 64 * 64) 64
    if needSrc && src.isNone then some .noRegion
    else match dst with
      | none => some .noRegion
      | some r =>
        let dstOk := if dType d = 3 then decide (r.typ = .packed) else copySource r
        let srcOk := match src with | some q => copySource q | none => true
        if !dstOk || !srcOk then some .accessType
        else if !keyRule s x r || (match src with | some q => !keyRule s x q || (decide (q.typ = .protect) && decide (r.typ ≠ .protect ∧ r.typ ≠ .packed)) | none => false) then
          some .keyMismatch
        else none

/-- Parts of a job (R235, R267). -/
def partCount (s : State) (j : Job) : Nat :=
  let d := j.desc
  if dType d = 0 then 0 else if dType d = 3 then ingestBlocks s j else (dDst d + dLen d - 1) / 4096 - dDst d / 4096 + 1

/-- Offset of a part's first byte from DST. -/
def partOff (s : State) (j : Job) (k : Nat) : Nat :=
  let d := j.desc
  if dType d = 3 then k * 2 ^ ((destPacked s d).map (·.blkLog)).getD 12 else if k = 0 then 0 else (dDst d / 4096 + k) * 4096 - dDst d

/-- The tile a part runs on: the home of its destination (R235, R267). -/
def partTile (s : State) (j : Job) (k : Nat) : Nat := homeOf s ((dDst j.desc + partOff s j k) / 64)

/-! Records (R237, R238). -/

/-- The 16 bytes of completion record `k` (R237). -/
def recordWord (x : Ring) (k n status flags detail : Nat) (user : W64) : Bytes :=
  let phase := 1 - (k >>> rgClog x) % 2
  leBytes 2 n ++ leBytes 1 status ++ leBytes 1 (flags + phase) ++ leBytes 4 detail ++ leBytes 8 user.toNat

/-- Write the oldest waiting record of a ring (R238): a 16-byte partial job write. -/
def startRecord (r : Nat) (s : State) : State :=
  let x := getRing s r
  match x.outq with
  | [] => s
  | (n, status, flags, detail, user) :: _ =>
    if x.writing || decide (x.st = .stopped) || decide (x.st = .disabled) || x.quiet then s
    else
      let a := rgCbase x + 16 * (x.cqTail.toNat % 2 ^ rgClog x)
      let off := a % 64
      let d := BitVec.ofNat 512 (leNat (recordWord x x.cqTail.toNat n status flags detail user) <<< (8 * off))
      let mask := BitVec.ofNat 64 (0xFFFF <<< off)
      let op : WOp := .cqWr (ringAttr x) r n mask { data := d, chk := lineChk (a / 64) d }
      let s1 := onRing r (fun y => { y with writing := true }) s
      if jobBlocked s (rgOwner x) (a / 64) then onJob (fun j => { j with done := j.done ++ [(op, {}, true)] }) s1
      else startOp (routeOf s r) (a / 64) op s1

/-- A job ends: its record waits to be written (R237); on a ring that writes no further record its slot is free (R242, R243). -/
def endJob (r n : Nat) (j : Job) (status : Nat) (flags detail : Nat) (s : State) : State :=
  if silent (getRing s r) then markDone r (setJob r n none s)
  else startRecord r (queueRecord r n status flags detail (if status = 11 then 0#64 else descUser j.desc) (setJob r n (some { j with ended_ := true }) s))

/-! Parts. -/

/-- A line or a whole ingest part fails: the lowest offset's status is kept (R236); a line that fails again, its destination after its source, is one line
with the later status; in an ingest part a poisoned source comes first (R269). -/
def addFail (ingest : Bool) (st : JobStatus) (off : Nat) (p : Part) : Part :=
  match p.fail with
  | none => { p with fail := some (st, off) }
  | some (a, o) =>
    if ingest then { p with fail := some (if st = .poisonSrc then st else a, o) }
    else if off = o then { p with fail := some (st, o) }
    else { p with multi := true, fail := if off < o then some (st, off) else some (a, o) }

/-- A destination a job may not write now (R74, R90, R236). -/
def destBlocked (s : State) (x : Ring) (line : Nat) : Bool := jobBlocked s (rgOwner x) line

/-- A COPY or FILL part's line `i`: its destination line. -/
def partLine (s : State) (j : Job) (k i : Nat) : Nat := (dDst j.desc + partOff s j k) / 64 + i

/-- Lines of a COPY or FILL part (R235). -/
def partLines (s : State) (j : Job) (k : Nat) : Nat :=
  let lo := partOff s j k
  let hi := min (dLen j.desc) (if k + 1 < partCount s j then partOff s j (k + 1) else dLen j.desc)
  (hi - lo) / 64

def onPart (r n k : Nat) (f : Part → Part) (s : State) : State :=
  match getPart s r n k with
  | some p => setPart r n k (some (f p)) s
  | none => s

/-- Write a destination line of a part. -/
def partWrite (x : Ring) (r n k : Nat) (j : Job) (i : Nat) (d : Line) (poison : Bool) (s : State) : State :=
  match getPart s r n k with
  | none => s
  | some p =>
    let line := partLine s j k i
    let off := partOff s j k + 64 * i
    let s1 := if poison then onPart r n k (addFail false .poisonSrc off) s else s
    if destBlocked s x line then onPart r n k (addFail false .dataError off) s1
    else startOp p.tile line (.jobWr (ringAttr x) r n k i (BitVec.allOnes 64) true { data := d, chk := lineChk line d, poison := poison })
      (onPart r n k (fun p => { p with writes := p.writes + 1 }) s1)

/-- FILL's pattern on a line (R230): PARAM0 repeated, byte 0 at DST. -/
def fillLine (v : Nat) : Line := wordsLine (fun _ => BitVec.ofNat 64 v)

/-- Nothing of a COPY or FILL part is outstanding: it has only to report (R236). -/
def partEnd (r n k : Nat) (s : State) : State :=
  match getPart s r n k with
  | some p => if p.phase = .lines ∧ p.todo = [] ∧ p.writes = 0 then setPart r n k (some { p with phase := .done }) s else s
  | none => s

/-- Start the reads of a part: a blocked source line meets a data error (R74, R90, R236). `lines` pairs a place in the part and a source line. -/
def startReads (x : Ring) (r n k : Nat) (ingest : Bool) (off : Nat → Nat) (lines : List (Nat × Nat)) (s : State) : State :=
  let s1 := onPart r n k (fun p => { p with todo := p.todo ++ lines.map (·.1) }) s
  lines.foldl (fun s e =>
    match getPart s r n k with
    | none => s
    | some p =>
      if jobBlocked s (rgOwner x) e.2 then
        onPart r n k (fun p => addFail ingest .dataError (off e.1) { p with todo := p.todo.erase e.1 }) (countUnits p.tile (ringAttr x) false s)
      else startOp p.tile e.2 (.jobRd (ringAttr x) r n k e.1) s) s1

/-- A dispatched COPY or FILL part starts (R235, R236). -/
def startPart (r n k : Nat) (j : Job) (s : State) : State :=
  let x := getRing s r
  let m := partLines s j k
  if dType j.desc = 2 then
    partEnd r n k ((List.range m).foldl (fun s i => partWrite x r n k j i (fillLine (dParam j.desc 0)) false s) s)
  else
    partEnd r n k (startReads x r n k false (fun i => partOff s j k + 64 * i)
      ((List.range m).map (fun i => (i, (dSrc j.desc + partOff s j k) / 64 + i))) s)

/-- A COPY part's source line has been read (R236). -/
def copyRead (r n k i : Nat) (j : Job) (v : LVal) (err : Bool) (s : State) : State :=
  let x := getRing s r
  let s1 := onPart r n k (fun p => { p with todo := p.todo.erase i }) s
  let s2 := if err then onPart r n k (addFail false .dataError (partOff s j k + 64 * i)) s1
    else partWrite x r n k j i (if v.poison then 0#512 else v.data) v.poison s1
  partEnd r n k s2

/-! Ingest parts (R267–R269). -/

/-- The bytes of a buffer of lines, `n` lines from 0, missing ones 0. -/
def bufBytes (b : Table (Option Line)) (n : Nat) : Bytes := (List.range n).flatMap (fun i => lineBytes ((Table.get none b i).getD 0#512))

def partFail (st : JobStatus) (p : Part) : Part := { addFail true st 0 p with phase := .done, buf := [], stream := [] }

/-- The place in a part's buffer of its table entry's line. -/
def entryIdx : Nat := 2 ^ 16

/-- Byte offset of entry `k` in the container (R263). -/
def entryOff (j : Job) (k : Nat) : Nat := leAt (j.hdr.getD []) 16 8 + 8 * k

/-- The table entry of a ZHOQ part. -/
def zhoqEntry (j : Job) (k : Nat) (p : Part) : Bytes := slice (lineBytes ((Table.get none p.buf entryIdx).getD 0#512)) ((dSrc j.desc + entryOff j k) % 64) 8

/-- First stream byte and its length (R263). -/
def streamAt (j : Job) (e : Bytes) : Nat × Nat := (dSrc j.desc + leAt (j.hdr.getD []) 24 8 + leAt e 0 4, leAt e 4 3)

/-- A table entry is valid (R263). -/
def entryOk (j : Job) (b : Nat) (e : Bytes) : Bool :=
  let fl := leAt e 7 1
  decide (fl < 2) &&
  (if fl = 1 then decide (leAt e 0 7 = 0)
   else decide (1 ≤ leAt e 4 3 ∧ leAt e 4 3 ≤ b + 128) && decide (leAt (j.hdr.getD []) 24 8 + leAt e 0 4 + leAt e 4 3 ≤ dLen j.desc))

/-- The queue place of a part, oldest first (R267, R268). -/
def queuePart (ph : PartPhase) (r n k : Nat) (s : State) : State :=
  onJob (fun x => { x with nextSeq := x.nextSeq + 1 }) (onPart r n k (fun p => { p with phase := ph, since := s.job.nextSeq }) s)

/-- The oldest part of a tile that waits in a phase: its key. -/
def oldestIn (s : State) (t : Nat) (ph : PartPhase) : Option (Nat × Nat) :=
  s.job.parts.foldl (fun a e => match e.2 with
    | some p => if p.tile = t ∧ p.phase = ph then (match a with | none => some (e.1, p.since) | some x => if p.since < x.2 then some (e.1, p.since) else a) else a
    | none => a) none

def setPhase (key : Nat) (ph : PartPhase) (s : State) : State :=
  onJob (fun x => { x with parts := Table.mod none x.parts key (fun p => p.map (fun p => { p with phase := ph })) }) s

/-- Compressors and validation decompressors go to the oldest parts that wait (R257, R267, R268). -/
def grantComp (t : Nat) (s : State) : State :=
  if compressing s t < 4 then (match oldestIn s t .waitComp with | some (k, _) => setPhase k .compressing s | none => s) else s
def grantVal (t : Nat) (s : State) : State :=
  if validating s t < ingestDec s t ∧ decsOn s t + validating s t < 12 ∧ decWaits s t = false then
    (match oldestIn s t .waitDec with | some (k, _) => setPhase k .validating s | none => s)
  else s

/-- An ingest part none of whose reads could start has failed (R269). -/
def failReads (r n k : Nat) (s : State) : State :=
  match getPart s r n k with
  | some p => match p.todo, p.fail with
    | [], some (st, _) => setPart r n k (some (partFail st p)) s
    | _, _ => s
  | none => s

/-- Result of an all-zero block (R267 step 2). -/
def zeroRes : BlkRes := ⟨0, 0, 0, 0, 0⟩

/-- The read of a ZHOQ part's table entry gave no data: it met a data error or a poisoned line. -/
def entryLostRead (p : Part) : Bool :=
  (Table.get none p.buf entryIdx).isNone || (match p.fail with | some (.poisonSrc, _) => true | _ => false)

/-- Every read of an ingest part has ended (R267, R268): it fails, or goes on to its next step. The causes are taken in the order of R269: every source
line has been read before a destination that is being filled counts, and that before a table entry that is not valid. -/
def ingestReads (r n k : Nat) (j : Job) (s : State) : State :=
  match getPart s r n k, destPacked s j.desc with
  | some p, some g =>
    let b := 2 ^ g.blkLog
    let entry := decide (inMode j.desc = 1 ∧ p.stream = [] ∧ p.dblk = 0)
    let e := zhoqEntry j k p
    if p.phase ≠ .reading ∨ p.todo ≠ [] then s
    else if entry && !entryLostRead p && entryOk j b e && decide (leAt e 7 1 ≠ 1) then
      -- the entry has been read; its stream is next
      let (a, len) := streamAt j e
      let lines := (List.range ((a + len - 1) / 64 - a / 64 + 1)).map (fun i => (i, a / 64 + i))
      failReads r n k (startReads (getRing s r) r n k true (fun _ => 0) lines (setPart r n k (some { p with dblk := 1 }) s))
    else match p.fail with
      | some (st, _) => setPart r n k (some (partFail st p)) s
      | none =>
        if inMode j.desc = 0 then
          let m := (min b (dLen j.desc - k * b)) / 64
          let block := slice (bufBytes p.buf m) 0 b
          if block.all (· = 0#8) then setPart r n k (some { p with phase := .done, res := some zeroRes, buf := [] }) s
          else grantComp p.tile (queuePart .waitComp r n k (setPart r n k (some { p with stream := block, buf := [] }) s))
        else if entry then
          setPart r n k (some (if entryOk j b e then { p with phase := .done, res := some zeroRes, buf := [] } else partFail .badDesc p)) s
        else
          let (a, len) := streamAt j (zhoqEntry j k p)
          let m := (a + len - 1) / 64 - a / 64 + 1
          let st := slice (bufBytes p.buf m) (a % 64) len
          grantVal p.tile (queuePart .waitDec r n k (setPart r n k (some { p with stream := st, buf := [] }) s))
  | _, _ => s

/-- An ingest part's source line has been read. -/
def ingestRead (r n k i : Nat) (j : Job) (v : LVal) (err : Bool) (s : State) : State :=
  let s1 := onPart r n k (fun p =>
    let p1 := { p with todo := p.todo.erase i, buf := Table.set none p.buf i (if err then none else some v.data) }
    if err then addFail true .dataError 0 p1 else if v.poison then addFail true .poisonSrc 0 p1 else p1) s
  ingestReads r n k j s1

/-- The lines of a stream as they are stored: the last unit's bytes beyond CLEN are 0 (R247, R248). -/
def streamLines (st : Bytes) : List Line := (List.range (4 * unitsOf st.length)).map (fun i => bytesLine (slice st (64 * i) 64))

/-- Every store line of a run can be written now (R291). -/
def runReady (s : State) (r : Region) (t run units : Nat) : Bool := (List.range (4 * units)).all (fun k => storeReady s r t 1 (4 * run + k))

/-- Write the lines of a run; answers whether every one was written. -/
def writeRun (r : Region) (t run : Nat) (ls : List Line) (who : Reader) (s : State) : Bool × State :=
  ls.zipIdx.foldl (fun a e => let (ok, s1) := storeWrite r t 1 (4 * run + e.2) e.1 who a.2; (a.1 && ok, s1)) (true, s)

/-- Steps 4 to 6 of R267: a run, the stream in it, the result. A part whose lines cannot be rewritten yet waits (R291). -/
def storeStream (r n k : Nat) (g : Region) (st : Bytes) (dblk : Nat) (s : State) : State :=
  match getPart s r n k with
  | none => s
  | some p =>
    match p.fail with
    | some (st, _) => setPart r n k (some (partFail st p)) s
    | none => match allocRun g p.tile (unitsOf st.length) s with
      | none => setPart r n k (some (partFail .outputFull p)) s
      | some (run, s1) =>
        if !runReady s g p.tile run (unitsOf st.length) then
          (List.range (unitsOf st.length)).foldl (fun s u => storeAskPage g p.tile 1 (4 * (run + u)) (classPrio s (rgClass (getRing s r))) s) s
        else
          let (ok, s2) := writeRun g p.tile run (streamLines st) ⟨rgOwner (getRing s r), 1, some (rgClass (getRing s r))⟩ s1
          let s2 := (List.range (streamLines st).length).foldl (fun s _ => countUnits p.tile (ringAttr (getRing s r)) true s) s2
          if ok then setPart r n k (some { p with phase := .done, stream := [], res := some ⟨1, dblk, st.length, run, unitsOf st.length⟩ }) s2
          else setPart r n k (some (partFail .dataError p)) (freeRun p.tile g.idx run (unitsOf st.length) s2)

/-- The stream of a block as R261 puts it together from the coded bodies. -/
def emitStream (block : Bytes) (huff effort : Nat) : Bytes :=
  let ps := deflateParts block
  packBits (ps.zipIdx.foldl (fun l e =>
    l ++ emitBlock huff l.length (decide (e.2 + 1 = ps.length)) e.1 (Config.codedBody block e.2 effort false) (Config.codedBody block e.2 effort true)) [])

/-- The stream a compressor gives, and its DEFLATE blocks (R261). Every coded body that R261 allows decodes back to its block; for a value of the constant
that does not, the blocks are stored ones (log 28). -/
def compressOf (b : Nat) (block : Bytes) (huff effort : Nat) : Bytes × Nat :=
  let c := emitStream block huff effort
  (if (inflate b c).map (·.1) = some block then c else storedForm 4 block, (b + 16383) / 16384)

/-! Outcomes (R237, R270, R271). -/

/-- Runs of a job's results are released (R269, R270): on tiles the serving tile reaches (R461). -/
def freeResults (t region : Nat) (l : List PartRes) (s : State) : State :=
  l.foldl (fun s e => match e.blk with
    | some b => if b.units = 0 ∨ cutOff s t e.tile then s else freeRun e.tile region b.run b.units s
    | none => s) s

/-- The failing or cancelled place with the lowest offset: offset, status; and how many failed. -/
def worst (l : List (Nat × JobStatus)) : Option (Nat × JobStatus) :=
  l.foldl (fun a e => match a with | none => some e | some x => if e.1 < x.1 then some e else a) none

/-- The outcome of a job whose reports are all in (R237, R270). Parts that a stopped ring leaves undispatched discard the job as cancelled ones do (R243,
log 126). -/
def conclude (r n : Nat) (j : Job) (s : State) : State :=
  let ingest := decide (dType j.desc = 3)
  let undone := if j.cancelled || silent (getRing s r) then j.parts - j.next else 0
  let fails : List (Nat × JobStatus) := j.reports.filterMap (fun p => if p.status = .success then none else some (p.off, p.status))
  let all := if undone = 0 then fails else fails ++ [(partOff s j j.next, .aborted)]
  let count := fails.length + undone + (if j.reports.any (·.multi) then 1 else 0)
  let flags := (if 1 < count then 2 else 0) + (if 0 < undone then 4 else 0)
  let clen := j.reports.foldl (fun a p => a + (match p.blk with | some b => b.clen | none => 0)) 0
  let region := match destPacked s j.desc with | some g => g.idx | none => 0
  match worst all with
  | some (off, st) => endJob r n j (statusCode st) flags off (if ingest then freeResults (routeOf s r) region j.reports s else s)
  | none =>
    if !ingest then endJob r n j 0 0 (if dType j.desc = 0 then 0 else dLen j.desc) s
    else
      let b := 2 ^ ((destPacked s j.desc).map (·.blkLog)).getD 12
      if inMode j.desc = 0 ∧ (100 - inGain j.desc) * j.parts * b < 100 * clen then endJob r n j 9 0 clen (freeResults (routeOf s r) region j.reports s)
      else
        let ts := (tileList s).filter (fun q => j.reports.any (fun p => p.tile = q))
        let s1 := setJob r n (some { j with committing := true, commit := ts }) s
        onPk (fun p => { p with commits := p.commits ++ ts.map (fun q => { tile := q, ring := r, n := n }) }) s1

/-- Every dispatched part has reported, and no more will be dispatched; `dead` on a ring that writes no further record. -/
def allIn (dead : Bool) (j : Job) : Bool :=
  j.started && !j.ended_ && !j.committing && decide (j.reports.length = j.next) &&
  (dead || decide (j.next = j.parts) || j.cancelled || (decide (dType j.desc = 3) && j.reports.any (fun p => p.status ≠ .success)))

/-- Decide a job's outcome when it can be decided. On a ring that writes no further record a job that has not started, or whose record waits, goes at once
(R242, R243). -/
def tryConclude (r n : Nat) (s : State) : State :=
  let dead := silent (getRing s r)
  match getJob s r n with
  | none => s
  | some j =>
    if dead && (!j.started || j.ended_) then markDone r (setJob r n none s)
    else if allIn dead j then conclude r n j s else s

/-- Decide every job of a ring that can be decided, after an abort, a disable or a stop (R240–R243). -/
def concludeAll (r : Nat) (s : State) : State := markDone r ((jobsOf s r).foldl (fun s e => tryConclude r e.1 s) s)

/-- A record write met a data error (R243). -/
def stopRing (r : Nat) (s : State) : State :=
  concludeAll r (raiseTile (routeOf s r) .jeCqLost r (onRing r (fun y => { y with st := .stopped, outq := [], writing := false, reading := none }) s))

/-- A record's write has ended (R238, R243). -/
def recordDone (r n : Nat) (err : Bool) (s : State) : State :=
  let x := getRing s r
  if !x.writing then s
  else if err then stopRing r s
  else
    let s1 := onRing r (fun y => { y with writing := false, outq := y.outq.drop 1, cqTail := y.cqTail + 1, inflight := y.inflight - 1 }) s
    let t := routeOf s r
    let s2 := match getJob s1 r n with
      | some j => if j.ended_ then addCnt (tileCnt t 473) 1 (setJob r n none s1) else s1
      | none => addCnt (tileCnt t 473) 1 s1
    startRecord r (markDone r s2)

/-- One part's outcome reaches the serving tile (R236). -/
def addReport (r n : Nat) (p : PartRes) (s : State) : State :=
  match getJob s r n with
  | none => s
  | some j => tryConclude r n (setJob r n (some { j with reports := j.reports ++ [p] }) s)

/-! Starting jobs. -/

/-- The descriptor counts of a ring's jobs that are older than `n`, in HEAD order. -/
def older (s : State) (r n : Nat) : List (Nat × Job) :=
  let h := (getRing s r).head
  let age (m : Nat) : Nat := (h - BitVec.ofNat 32 m).toNat
  (jobsOf s r).filter (fun e => decide (age n < age e.1))

/-- The ZHOQ header read's place among a job's reads (log 46). -/
def hdrPart : Nat := 2 ^ 20

/-- A job is checked and started, or ends at a check (R233, R234, R266). -/
def startJob (r n : Nat) (s : State) : State :=
  let x := getRing s r
  match getJob s r n with
  | none => s
  | some j =>
    let prev := older s r n
    if x.st ≠ .running ∨ j.started ∨ j.ended_ ∨ prev.any (fun e => !e.2.started && !e.2.ended_) then s
    else if j.descBad then endJob r n j 11 0 0 s
    else if dFence j.desc ∧ prev ≠ [] then s
    else match j.hdrBad with
      | some st => endJob r n j (statusCode st) 0 0 s
      | none =>
        let zhoq := decide (dType j.desc = 3) && decide (inMode j.desc = 1) && !malformed j.desc
        if zhoq && j.hdr.isNone && headerReadable s x j.desc then
          if j.hdrAsked then s
          else if jobBlocked s (rgOwner x) (dSrc j.desc / 64) then endJob r n j 7 0 0 s
          else startOp (routeOf s r) (dSrc j.desc / 64) (.jobRd (ringAttr x) r n hdrPart 0) (setJob r n (some { j with hdrAsked := true }) s)
        else match jobCheck s x j with
          | some st => endJob r n j (statusCode st) 0 0 s
          | none => tryConclude r n (setJob r n (some { j with started := true, parts := partCount s j }) s)

/-- A descriptor read has ended (R232, R240): read `q` of the ring. One that a stop has overtaken counts for nothing (R242, R243). -/
def descRead (r q : Nat) (v : LVal) (err : Bool) (s : State) : State :=
  let x := getRing s r
  if x.reads ≠ q then s else
  match x.reading with
  | none => s
  | some _ =>
    let n := x.head.toNat
    let bad := err || v.poison
    let s1 := onRing r (fun y => { y with reading := none, head := y.head + 1, inflight := y.inflight + 1 }) s
    if x.st = .running then
      setJob r n (some { tile := routeOf s r, desc := if bad then List.replicate 64 0#8 else lineBytes v.data, descBad := bad }) s1
    else if (x.st = .aborting ∨ x.st = .disabling) ∧ ¬x.quiet then
      startRecord r (if bad then queueRecord r n 11 4 0 0#64 s1 else queueRecord r n 8 4 0 (descUser (lineBytes v.data)) s1)
    else onRing r (fun y => { y with reading := none }) s

/-- A job's write has ended. -/
def writeDone (r n k i : Nat) (err : Bool) (s : State) : State :=
  if n = initN then onRing r (fun y => { y with zeroLeft := y.zeroLeft - 1, zeroBad := y.zeroBad || err }) s
  else match getJob s r n with
    | none => onPart r n k (fun p => { p with writes := p.writes - 1 }) s
    | some j =>
      partEnd r n k (onPart r n k (fun p =>
        let p1 := { p with writes := p.writes - 1 }
        if err then addFail false .dataError (partOff s j k + 64 * i) p1 else p1) s)

/-- A job's read has ended. -/
def readDone (r n k i : Nat) (v : LVal) (err : Bool) (s : State) : State :=
  match getJob s r n with
  | none => onPart r n k (fun p => { p with todo := p.todo.erase i }) s
  | some j =>
    if k = hdrPart then
      startJob r n (setJob r n (some { j with hdr := some (lineBytes v.data), hdrBad := if err then some .dataError else if v.poison then some .poisonSrc else none }) s)
    else if dType j.desc = 3 then ingestRead r n k i j v err s
    else copyRead r n k i j v err s

/-- Take up what the tiles have ended for the job engine. -/
def settleJobs : Nat → State → State
  | 0, s => s
  | f + 1, s =>
    match s.job.done with
    | [] => s
    | (op, v, err) :: rest =>
      let s1 := onJob (fun j => { j with done := rest }) s
      settleJobs f (match op with
        | .descRd _ r n => descRead r n v err s1
        | .cqWr _ r n _ _ => recordDone r n err s1
        | .jobRd _ r n k i => readDone r n k i v err s1
        | .jobWr _ r n k i _ _ _ => writeDone r n k i err s1
        | _ => s1)

/-- Running preloads go on, and the job engine acts on everything that has ended; after Midnight nothing does (R244, R296). -/
def settle (s : State) : State := if midnight s then s else settleJobs 65536 (pumpRanges s)

end Sys2Proof.Machine
end

