-- ==== Sys2Proof/Machine/JobCmd.lean ====
section
/-!
DEFINITION. The commands of job rings and ingest (R229–R243, R251–R273 on the ingest side).
-/
namespace Sys2Proof.Machine

/-- Tile engines go on: the tile runs and Midnight has not been entered (R244, R296). -/
def engineUp (s : State) (t : Nat) : Bool := tileRuns s t && blockUp s t 5 && !midnight s

/-- Start the writes of R229 step 4 at the serving tile; a blocked line is a data error at once (R74, R90). -/
def startInit (r : Nat) (ops : List (Nat × WOp)) (s : State) : State :=
  ops.foldl (fun s e =>
    if jobBlocked s (rgOwner (getRing s r)) e.1 then onRing r (fun y => { y with zeroLeft := y.zeroLeft - 1, zeroBad := true }) s
    else startOp (routeOf s r) e.1 e.2 s) s

/-- A write of ENABLE = 1 (R229, R350): discarded until Dawn 6. -/
def enableWrite (r : Nat) (s : State) : State :=
  if (getRing s r).st ≠ .disabled ∨ ¬s.dawn.memActive ∨ midnight s then s
  else let (s1, ops) := enableRing r s; settle (startInit r ops s1)

/-- RING_ENABLE (R228, R229). -/
def execRingEnable (a : Agent) (r : RingId) (s : State) : Host.Outcome State Fault Refusal := .next (ringWrite a r.toNat false (enableWrite r.toNat) s)

/-- RING_INIT_DONE (R229): every write of step 4 has ended. -/
def execRingInitDone (r : RingId) (s : State) : Host.Outcome State Fault Refusal :=
  let x := getRing s r.toNat
  if x.st ≠ .initialising ∨ x.zeroLeft ≠ 0 then .next s
  else if x.zeroBad then .next (onRing r.toNat (fun y => { y with st := .disabled, route := none, zeroBad := false, cfgErr := true, cfgCode := 6 }) s)
  else .next (onRing r.toNat (fun y => { y with st := .running }) s)

/-- A write of ABORT = 1 (R240). -/
def abortWrite (r : Nat) (s : State) : State := if midnight s then s else settle (startRecord r (concludeAll r (abortRing r s)))

/-- RING_ABORT (R228, R240): the write's ENABLE bit does not matter. -/
def execRingAbort (a : Agent) (r : RingId) (_enable : Bool) (s : State) : Host.Outcome State Fault Refusal :=
  .next (ringWrite a r.toNat true (abortWrite r.toNat) s)

/-- A write of ENABLE = 0 with ABORT = 0 (R242). -/
def disableWrite (r : Nat) (s : State) : State := if midnight s then s else settle (startRecord r (concludeAll r (disableRing r s)))

/-- RING_DISABLE (R228, R242). -/
def execRingDisable (a : Agent) (r : RingId) (s : State) : Host.Outcome State Fault Refusal := .next (ringWrite a r.toNat false (disableWrite r.toNat) s)

/-- A ring's descriptor at HEAD may be read (R232): a read takes a job slot from its start. -/
def mayFetch (s : State) (r : Nat) : Bool :=
  let x := getRing s r
  let t := routeOf s r
  decide (x.st = .running) && decide (x.head ≠ x.tail) && x.reading.isNone && cqRoom x && decide (jobSlots s t + slotReads s t < 2048)

/-- The ring served next by a tile's round robin (R232): the first after the last one served that meets the conditions. -/
def nextRing (s : State) (t : Nat) : Option Nat :=
  let rs := (s.job.rings.map (·.1)).filter (fun r => decide (routeOf s r = t) && mayFetch s r)
  let last := Table.get 0 s.job.rr t
  match rs.find? (fun r => decide (last ≤ r)) with
  | some r => some r
  | none => rs.head?

/-- Read the descriptor at HEAD as a job read (R232, R240); a blocked line is a data error (R74, R90). -/
def readDesc (r : Nat) (userOnly : Bool) (s : State) : State :=
  let x := getRing s r
  let line := descLine x x.head.toNat
  let s1 := onRing r (fun y => { y with reading := some userOnly, reads := y.reads + 1 }) s
  if jobBlocked s (rgOwner x) line then descRead r (x.reads + 1) {} true s1 else startOp (routeOf s r) line (.descRd (ringAttr x) r (x.reads + 1)) s1

/-- DESCRIPTOR_FETCH (R232, R407): of the ring whose turn it is. -/
def execDescriptorFetch (t : TileId) (r : RingId) (s : State) : Host.Outcome State Fault Refusal :=
  if !engineUp s t.val || quiesced s || decide (nextRing s t.val ≠ some r.toNat) then .next s
  else .next (settle (readDesc r.toNat false (onJob (fun j => { j with rr := Table.set 0 j.rr t.val (r.toNat + 1) }) s)))

/-- JOB_START (R233, R234). -/
def execJobStart (r : RingId) (n : W32) (s : State) : Host.Outcome State Fault Refusal :=
  .next (if engineUp s (routeOf s r.toNat) then settle (startJob r.toNat n.toNat s) else s)

/-- ABORT_USER_READ (R240): a descriptor below MARK that has not been read. -/
def execAbortUserRead (r : RingId) (s : State) : Host.Outcome State Fault Refusal :=
  let x := getRing s r.toNat
  if engineUp s (routeOf s r.toNat) && (decide (x.st = .aborting) || decide (x.st = .disabling)) && !x.quiet && decide (x.head ≠ x.mark) && x.reading.isNone &&
      cqRoom x && decide (x.inflight < 2048) then .next (settle (readDesc r.toNat true s))
  else .next s

/-- A part of the job can be dispatched now (R235, R240, R243, R270, R461): at most 64 of one job are outstanding, and the part's tile has a free slot or
is cut off. -/
def canDispatch (s : State) (r : Nat) (j : Job) : Bool :=
  let q := partTile s j j.next
  let failed := decide (dType j.desc = 3) && j.reports.any (fun p => decide (p.status ≠ .success))
  j.started && !j.ended_ && !j.cancelled && !failed && !silent (getRing s r) && decide (j.next < j.parts) && decide (j.next - j.reports.length < 64) &&
  (cutOff s (routeOf s r) q || decide (partSlots s q < 4096))

/-- The job whose turn it is on a serving tile (R235): the first, in the order of ring and descriptor count, after the one served last that can
dispatch a part (log 85). -/
def nextJob (s : State) (t : Nat) : Option Nat :=
  let ks := s.job.jobs.filterMap (fun e => e.2.bind (fun j => if routeOf s (e.1 / 2 ^ 32) = t ∧ canDispatch s (e.1 / 2 ^ 32) j then some e.1 else none))
  match ks.find? (fun k => decide (Table.get 0 s.job.turn t ≤ k)) with
  | some k => some k
  | none => ks.head?

/-- The next part of a job leaves its serving tile (R235, R461). -/
def dispatchPart (r n : Nat) (j : Job) (s : State) : State :=
  let q := partTile s j j.next
  let s0 := setJob r n (some { j with next := j.next + 1 }) s
  if cutOff s (routeOf s r) q then settle (addReport r n ⟨j.next, .dataError, partOff s j j.next, false, false, q, none⟩ s0)
  else if dType j.desc = 3 then setPart r n j.next (some { tile := q, phase := .reading, todo := [hdrPart] }) s0
  else settle (startPart r n j.next j (setPart r n j.next (some { tile := q, phase := .lines, todo := [] }) s0))

/-- PART_DISPATCH (R235, R461): the next part of the job whose turn it is. -/
def execPartDispatch (r : RingId) (n : W32) (s : State) : Host.Outcome State Fault Refusal :=
  let t := routeOf s r.toNat
  let key := jobKey r.toNat n.toNat
  match getJob s r.toNat n.toNat with
  | none => .next s
  | some j =>
    if !engineUp s t || quiesced s || decide (nextJob s t ≠ some key) then .next s
    else .next (dispatchPart r.toNat n.toNat j (onJob (fun x => { x with turn := Table.set 0 x.turn t (key + 1) }) s))

/-- PART_REPORT (R236, R461): a part that has ended reports and leaves its slot; a report that is lost, or cannot reach the serving tile, counts as a
data error at the part's first byte. -/
def execPartReport (r : RingId) (n : W32) (j : Nat) (lost : Bool) (s : State) : Host.Outcome State Fault Refusal :=
  match getPart s r.toNat n.toNat j, getJob s r.toNat n.toNat with
  | some p, some job =>
    let cut := cutOff s p.tile (routeOf s r.toNat)
    if !engineUp s p.tile || decide (p.phase ≠ .done) then .next s
    else
      let bad := lost || cut
      let base := partOff s job j
      let off := match p.fail with | some (_, o) => if dType job.desc = 3 then base else o | none => base
      let st := if bad then .dataError else match p.fail with | some (x, _) => x | none => JobStatus.success
      let s1 := addCnt (tileCnt p.tile 474) 1 (setPart r.toNat n.toNat j none s)
      .next (settle (addReport r.toNat n.toNat ⟨j, st, if bad then base else off, false, p.multi && !bad, p.tile, p.res⟩ s1))
  | some p, none => .next (if p.phase = .done then setPart r.toNat n.toNat j none s else s)
  | none, _ => .next s

/-- A part slot that is free of its job's fate: its first step has not begun. -/
def partFresh (p : Part) : Bool := decide (p.phase = .reading) && decide (p.todo = [hdrPart])

/-- Begin an ingest part's first reads; a destination that is being filled fails it once its source has been read (R269). -/
def beginIngest (r n k : Nat) (j : Job) (lines : List (Nat × Nat)) (s : State) : State :=
  let fail := decide (inFill s (dDst j.desc + partOff s j k) = true)
  failReads r n k (startReads (getRing s r) r n k true (fun _ => 0) lines
    (onPart r n k (fun p => (if fail then addFail true .dataError 0 else id) { p with todo := [] }) s))

/-- INGEST_RAW_PART (R267 steps 1 to 3): the block's source bytes are read as job reads. -/
def execIngestRawPart (r : RingId) (n : W32) (j : Nat) (s : State) : Host.Outcome State Fault Refusal :=
  match getPart s r.toNat n.toNat j, getJob s r.toNat n.toNat with
  | some p, some job =>
    match destPacked s job.desc with
    | none => .next s
    | some g =>
      let b := 2 ^ g.blkLog
      if !engineUp s p.tile || !partFresh p || decide (inMode job.desc ≠ 0) then .next s
      else .next (settle (beginIngest r.toNat n.toNat j job
        ((List.range (min b (dLen job.desc - j * b) / 64)).map (fun i => (i, (dSrc job.desc + j * b) / 64 + i))) s))
  | _, _ => .next s

/-- COMPRESS_DONE (R267 steps 3 to 6): the run, the stream's store lines and the result; the compressor goes to the oldest part that waits. -/
def execCompressDone (r : RingId) (n : W32) (j : Nat) (s : State) : Host.Outcome State Fault Refusal :=
  match getPart s r.toNat n.toNat j, getJob s r.toNat n.toNat with
  | some p, some job =>
    match destPacked s job.desc with
    | none => .next s
    | some g =>
      if !engineUp s p.tile || decide (p.phase ≠ .compressing) then .next s
      else
        let b := 2 ^ g.blkLog
        let (st, k) := compressOf b p.stream (inHuff job.desc) (inEffort job.desc)
        let s1 := storeStream r.toNat n.toNat j g st k s
        -- a part whose lines cannot be rewritten yet keeps its compressor, and the command comes again (R291)
        let ended : Bool := match getPart s1 r.toNat n.toNat j with | some q => decide (q.phase ≠ .compressing) | none => false
        .next (grantComp p.tile (if ended then addCnt (tileCnt p.tile 465) (b / 64) s1 else s1))
  | _, _ => .next s

/-- INGEST_ZHOQ_PART (R268 step 1): the part's table entry is read, and then its stream. -/
def execIngestZhoqPart (r : RingId) (n : W32) (j : Nat) (s : State) : Host.Outcome State Fault Refusal :=
  match getPart s r.toNat n.toNat j, getJob s r.toNat n.toNat with
  | some p, some job =>
    if !engineUp s p.tile || !partFresh p || decide (inMode job.desc ≠ 1) then .next s
    else .next (settle (beginIngest r.toNat n.toNat j job [(entryIdx, (dSrc job.desc + entryOff job j) / 64)] s))
  | _, _ => .next s

/-- A part's stream has been checked (R259, R268): it fails as a bad descriptor, or is stored. -/
def validated (r n k : Nat) (g : Region) (p : Part) (o : Option (Bytes × Nat)) (s : State) : State :=
  match o with
  | none => setPart r n k (some (partFail (match p.fail with | some (st, _) => st | none => .badDesc) p)) s
  | some (_, d) => storeStream r n k g p.stream d s

/-- VALIDATION_DONE (R259, R268 steps 3 and 4). -/
def execValidationDone (r : RingId) (n : W32) (j : Nat) (s : State) : Host.Outcome State Fault Refusal :=
  match getPart s r.toNat n.toNat j, getJob s r.toNat n.toNat with
  | some p, some job =>
    match destPacked s job.desc with
    | none => .next s
    | some g =>
      if !engineUp s p.tile || decide (p.phase ≠ .validating) then .next s
      else .next (grantVal p.tile (validated r.toNat n.toNat j g p (inflate (2 ^ g.blkLog) p.stream) s))
  | _, _ => .next s

end Sys2Proof.Machine
end

