-- ==== Sys2Proof/Machine/Reset.lean ====
section
/-!
DEFINITION. The two reset sources and their reach (R334–R339), and the reset commands outside Dawn.
-/
namespace Sys2Proof.Machine

/-- The STS bits of the SV slice (R399). -/
def svMask : BitVec 1024 := BitVec.ofNat 1024 (0xFFFFFFFFFFFFFFFF <<< 960)

/-- What the NM-256 packages keep through every reset: the saved wear and maps (R196, R197). -/
def keepNvm (n : Nvm) : Nvm := { savedBlks := n.savedBlks, savedRots := n.savedRots, sparesUsed := n.sparesUsed }

/-- What a reset leaves of the flash (R335, R348): its bytes and nothing in progress; a rewrite of the option block that it cuts short leaves the block erased,
which is no valid block (DESIGN CHOICE of what an invalid block holds, log 162). -/
def flashKept (s : State) : Flash :=
  { bytes := if s.time.now < s.flash.rewriteEnd then Table.keep (fun a _ => decide (4096 ≤ a)) s.flash.bytes else s.flash.bytes }

/-- What RESET_N leaves (R335, R402, R412): everything on the tiles takes its Reset value; SV's logic, the power path, the log store, the
fuse map, the flash, the TAP controller and the ROS fields are kept. -/
def tileReset (s : State) : State :=
  { ({} : State) with
    fuse := s.fuse
    rst := s.rst
    chans := s.chans
    sv := s.sv
    meter := { s.meter with throttle := 0, lowWindows := 0, highWindows := 0 }
    log := s.log
    faults := { sts := s.faults.sts &&& svMask, pend := s.faults.pend.filter (fun p => decide (960 ≤ p.src)) }
    cnt := { cnt := Table.keep (fun k _ => decide (4800 ≤ k)) s.cnt.cnt }
    tap := { s.tap with halted := 0#8 }
    dawn := { resets := s.dawn.resets }
    flash := flashKept s
    nvm := keepNvm s.nvm
    time := { now := s.time.now }
    free := s.free
    pending := s.pending }

/-- A qualified assertion of RESET_N (R336, R390): every tile enters reset, RESETS and the RESET_N count rise, and SV drives the ball. -/
def assertReset (s : State) : State :=
  let s1 := tileReset s
  let s2 := onLog (splitInc 5) (onDawn (fun d => { d with resets := satAdd d.resets 1 65535 }) s1)
  onRst (fun r => { r with resetN := true, driving := true, anchorWindow := false }) s2

/-- SV drives RESET_N at once (R371, R375). -/
def driveReset (s : State) : State :=
  if s.rst.resetN then onRst (fun r => { r with driving := true }) s else assertReset s

/-- Power-on reset asserted (R334, R335, R396): SV's logic and everything else; the fuse map, the log store's cells and the flash are kept, and
a log write in progress may be torn. -/
def assertPor (s : State) : State :=
  { ({} : State) with
    fuse := { s.fuse with anchorRead := 0#256 }
    rst := { perstLow := s.rst.perstLow, boardLow := s.rst.boardLow }
    log := logTear s.free s.log
    flash := flashKept s
    nvm := keepNvm s.nvm
    free := s.free + 1
    pending := s.pending }

/-- Every tile rail is good, a tile whose E0t is latched not counted, and no privileged channel keeps RESET_N driven (R371, R374). -/
def railsAllGood (s : State) : Bool :=
  (tileList s).all (fun t => s.sv.tilesGood.getLsbD t || decide ((getChan s t).state = .latched)) &&
  decide ((getChan s 32).state = .powerGood)

/-- POWER_ON_RESET (R334): asserted while neither feed is in its operating range. -/
def execPowerOnReset (s : State) : Host.Outcome State Fault Refusal :=
  .next (if s.sv.feedA || s.sv.feedB then s else assertPor s)

/-- POR_RELEASE (R334, R338, R393): SV is supplied; it starts the log store's power-up, where a ring found worn
raises LS_WORN (R388), and drives RESET_N out. -/
def execPorRelease (s : State) : Host.Outcome State Fault Refusal :=
  .next (if s.rst.por && (s.sv.feedA || s.sv.feedB) then
      raiseWorn 0#4 (onLog logPowerUp (onTime (fun t => { t with now := 0 }) (onRst (fun r => { r with por := false, driving := true }) s)))
    else s)

/-- RESET_N_ASSERT (R336): while SV drives the ball a low level from another agent only extends the reset. -/
def execResetNAssert (s : State) : Host.Outcome State Fault Refusal :=
  if s.rst.por then .next (onRst (fun r => { r with boardLow := true }) s)
  else if s.rst.resetN then .next (onRst (fun r => { r with boardLow := true }) s)
  else .next (onRst (fun r => { r with boardLow := true }) (assertReset s))

/-- RESET_N_DRIVE_END (R336, R374). -/
def execResetNDriveEnd (s : State) : Host.Outcome State Fault Refusal :=
  .next (if !s.rst.por && s.rst.driving && railsAllGood s then onRst (fun r => { r with driving := false }) s else s)

/-- Mesh width of the member (R19). -/
def meshW (s : State) : Nat := if tiles s = 8 then 4 else 2

/-- The Koist links of the member, each as its two tiles, the lower first (R16, R19). -/
def koistLinks (s : State) : List (Nat × Nat) :=
  (tileList s).flatMap (fun a => (tileList s).filterMap (fun b =>
    let w := meshW s
    if (b = a + 1 ∧ b / w = a / w) ∨ b = a + w then some (a, b) else none))

/-- The SV sources of class SERVICE or higher whose STS stands (R411). -/
def svStanding (s : State) : Option Nat :=
  ((List.range 64).map (· + 960)).find? (fun i => s.faults.sts.getLsbD i && decide (1 ≤ faultClass s i))

/-- The PERST_N balls that are low as RESET_N is released count as asserted (R53), each at its own port: no gang is configured yet (log 115). -/
def perstAtRelease (s : State) : State :=
  ((List.range (8 * tiles s)).filter (fun p => s.rst.perstLow.getLsbD p)).foldl (fun s p =>
    raiseBit .hpPortSts p 13 (onPort p (fun x => { x with perst := true }) s)) s

/-- RESET_N_RELEASE (R53, R336, R349, R411): the ball has read high for 1 µs; the device leaves reset and Dawn 0 starts: the tiles read the fuse map,
every Koist module trains afresh (R17), and a PERST_N that is low counts as asserted. -/
def execResetNRelease (s : State) : Host.Outcome State Fault Refusal :=
  if s.rst.por || !s.rst.resetN || s.rst.driving then .next s
  else
    let s1 := onRst (fun r => { r with resetN := false, boardLow := false, anchorWindow := r.firstRelease, firstRelease := false }) s
    let s2 := onFuse (fun f => { f with anchorRead := f.anchor }) (onTime (fun t => { t with relAt := t.now }) s1)
    let s3 := onFab (fun f => { f with modules := (koistLinks s).zipIdx.map (fun e => (e.2, 15#4)) }) s2
    let s4 := perstAtRelease s3
    .next (match svStanding s4 with | some i => replaceRequest i s4 | none => s4)

/-- REPLACE_N is driven low (R338, R371, R410, R411): in reset as the fuse map's identifier selects, and by SV itself while a latched HS keeps every
tile without power; otherwise while a replace request stands. -/
def replaceNLow (s : State) : Bool :=
  if running s then s.faults.rr
  else decide (s.fuse.id = 0x02#8 ∨ s.fuse.id = 0x03#8) || decide ((getChan s 32).state = .latched)

/-- MIDNIGHT_N is driven low (R338, R411): in reset as the identifier selects, otherwise from the first alarm to full reset. -/
def midnightNLow (s : State) : Bool := if running s then s.faults.midnight else decide (s.fuse.id = 0x03#8)

/-- The level a PERST_N ball reads that nothing drives (R338): low by the internal pull-down, except under identifier 0x03, which has none. -/
def perstNUndriven (s : State) : Option Bool := if s.fuse.id = 0x03#8 then none else some false

/-- RESET_N has its internal pull-up (R338). -/
def resetNPullUp (s : State) : Bool := decide (s.fuse.id = 0x03#8)

/-- TAP_RESET (R335): TRST_N resets the TAP controller. -/
def execTapReset (s : State) : Host.Outcome State Fault Refusal := .next (onTap (fun _ => { halted := s.tap.halted }) s)

end Sys2Proof.Machine
end

