-- ==== Sys2Proof/Machine/Sha.lean ====
section
/-!
DEFINITION. SHA-256 and RSASSA-PSS verification as R346 uses them (PRESUMED from FIPS 180-4 and PKCS #1, log 20).
-/
namespace Sys2Proof.Machine

/-- Integer cube and square roots of a scaled prime give the constants of FIPS 180-4: the first 32 bits of their fractions. -/
def isPrime (n : Nat) : Bool := decide (2 ≤ n) && (List.range n).all (fun d => decide (d < 2) || decide (n % d ≠ 0))

/-- The largest `r` below 2^`bits` with r^e ≤ n, bit by bit. -/
def rootOf (e n : Nat) : Nat → Nat → Nat
  | 0, r => r
  | b + 1, r => if (r + 2 ^ b) ^ e ≤ n then rootOf e n b (r + 2 ^ b) else rootOf e n b r

def primes64 : List Nat := ((List.range 312).filter isPrime).take 64

def shaK : Array W32 := (primes64.map (fun p => BitVec.ofNat 32 (rootOf 3 (p * 2 ^ 96) 35 0))).toArray

def shaH0 : List W32 := (primes64.take 8).map (fun p => BitVec.ofNat 32 (rootOf 2 (p * 2 ^ 64) 37 0))

/-- The message schedule, newest word first. -/
def shaSched : Nat → List W32 → List W32
  | 0, ws => ws
  | n + 1, ws =>
    let w2 := ws.getD 1 0#32
    let w15 := ws.getD 14 0#32
    let s1 := w2.rotateRight 17 ^^^ w2.rotateRight 19 ^^^ (w2 >>> 10)
    let s0 := w15.rotateRight 7 ^^^ w15.rotateRight 18 ^^^ (w15 >>> 3)
    shaSched n ((s1 + ws.getD 6 0#32 + s0 + ws.getD 15 0#32) :: ws)

def shaRound (v : List W32) (kw : W32) : List W32 :=
  match v with
  | [a, b, c, d, e, f, g, h] =>
    let t1 := h + (e.rotateRight 6 ^^^ e.rotateRight 11 ^^^ e.rotateRight 25) + ((e &&& f) ^^^ (~~~e &&& g)) + kw
    let t2 := (a.rotateRight 2 ^^^ a.rotateRight 13 ^^^ a.rotateRight 22) + ((a &&& b) ^^^ (a &&& c) ^^^ (b &&& c))
    [t1 + t2, a, b, c, d + t1, e, f, g]
  | _ => v

def shaBlock (h : List W32) (blk : Bytes) : List W32 :=
  let w0 := (List.range 16).map (fun i => BitVec.ofNat 32 (beNat ((blk.drop (4 * i)).take 4)))
  let ws := (shaSched 48 w0.reverse).reverse
  let v := ws.zipIdx.foldl (fun v e => shaRound v (e.1 + shaK.getD e.2 0#32)) h
  List.zipWith (· + ·) h v

/-- Hash block after block; `fuel` bounds the number of blocks. -/
def shaGo : Nat → Bytes → List W32 → List W32
  | 0, _, h => h
  | n + 1, m, h => if m.length < 64 then h else shaGo n (m.drop 64) (shaBlock h (m.take 64))

/-- SHA-256, as an octet string in digest byte order (R7). -/
def sha256 (m : Bytes) : Bytes :=
  let z := (119 - m.length % 64) % 64
  let p := m ++ [0x80#8] ++ List.replicate z 0#8 ++ beBytes 8 (8 * m.length)
  (shaGo (p.length / 64) p shaH0).flatMap (fun w => beBytes 4 w.toNat)

/-- A digest as a number: the octet string read big-endian. -/
def digest (m : Bytes) : BitVec 256 := BitVec.ofNat 256 (beNat (sha256 m))

/-- MGF1 with SHA-256. -/
def mgf1 (seed : Bytes) (n : Nat) : Bytes :=
  ((List.range ((n + 31) / 32)).flatMap (fun i => sha256 (seed ++ beBytes 4 i))).take n

/-- Square and multiply for the public exponent 65,537 = 2^16 + 1 (R343). -/
def rsaPublic (n s : Nat) : Nat :=
  let x := (List.range 16).foldl (fun x _ => x * x % n) (s % n)
  x * s % n

/-- RSASSA-PSS verification with SHA-256, MGF1 with SHA-256 and a 32-byte salt under a 3,072-bit modulus (R346). -/
def pssVerify (modulus msg sig : Bytes) : Bool :=
  let n := beNat modulus
  let s := beNat sig
  if modulus.length ≠ 384 ∨ sig.length ≠ 384 ∨ n ≤ s ∨ n < 2 ^ 3071 then false
  else
    let em := beBytes 384 (rsaPublic n s)
    let db := em.take 351
    let h := (em.drop 351).take 32
    if em.getLastD 0#8 ≠ 0xBC#8 ∨ (em.headD 0#8).getLsbD 7 then false
    else
      let m := List.zipWith (· ^^^ ·) db (mgf1 h 351)
      let m := (m.headD 0#8 &&& 0x7F#8) :: m.drop 1
      let ps := m.take 318
      let salt := m.drop 319
      decide (ps = List.replicate 318 0#8) && decide (m.getD 318 0#8 = 1#8) &&
        decide (sha256 (List.replicate 8 0#8 ++ sha256 msg ++ salt) = h)

end Sys2Proof.Machine
end

