-- ==== Sys2Proof/Machine/Tiering.lean ====
section
/-!
DEFINITION. Tiering (R210–R226): the epoch walk, the token buckets, promotion and demotion, and moves.
-/
namespace Sys2Proof.Machine

/-- A bucket's key: class 0–15, 16 the tile's, 17 the demotion bucket (R215, R216). -/
def bucketKey (t b : Nat) : Nat := 32 * t + b

/-- MAX_PPS of a tile in pages per second (TR_RATE), as a re-evaluation left it (R329). -/
def maxPps (s : State) (t : Nat) : Nat := 16 * ((Table.get none s.tier.maxPps t).getD (regFld s .trRate t 15 0))

/-- Rate of a bucket in pages per second. -/
def bucketRate (s : State) (t b : Nat) : Nat :=
  if b < 16 then 16 * regFld s .trBudget (16 * t + b) 15 0 else if b = 16 then maxPps s t else 16 * regFld s .trRate t 31 16

/-- What has been taken from a bucket and not refilled, in millionths of a page. -/
def bucketUsed (s : State) (t b : Nat) : Nat :=
  let (u, at_) := Table.get (0, 0) s.tier.used (bucketKey t b)
  u - bucketRate s t b * (s.time.now - at_)

/-- What a bucket holds, in millionths of a page. -/
def bucketLevel (s : State) (t b : Nat) : Nat := 1000000 * bucketRate s t b - bucketUsed s t b

/-- Rates of a tile's buckets change (R215, R329): a bucket keeps what it holds, up to one second's worth of its new rate. -/
def changeRates (t : Nat) (f : State → State) (s : State) : State :=
  let s1 := f s
  (List.range 18).foldl (fun x b =>
    let full := 1000000 * bucketRate s1 t b
    if bucketRate s1 t b = bucketRate s t b then x
    else onTier (fun y => { y with used := Table.set (0, 0) y.used (bucketKey t b) (full - min full (bucketLevel s t b), s.time.now) }) x) s1

/-- The bucket holds a token (R215). -/
def hasToken (s : State) (t b : Nat) : Bool := decide (bucketUsed s t b + 1000000 ≤ 1000000 * bucketRate s t b)

def takeToken (t b : Nat) (s : State) : State :=
  let u := bucketUsed s t b + 1000000
  onTier (fun x => { x with used := Table.set (0, 0) x.used (bucketKey t b) (u, s.time.now) }) s

/-- Moves in flight on a tile (TR_STS IN_FLIGHT). -/
def movesOn (s : State) (t : Nat) : List (Nat × Move) := s.tier.moves.filterMap (fun e => e.2.bind (fun m => if m.tile = t then some (e.1, m) else none))

def tierMode (s : State) (t : Nat) : Nat := let m := regFld s .trCfg t 1 0; if m = 3 then 1 else m

/-- EPOCH_WALK_ENTRY (R212, R214): candidate tests with the HEAT found, then HEAT is halved and RESID rises. -/
def execEpochWalkEntry (page : BitVec 36) (s : State) : Host.Outcome State Fault Refusal :=
  let p := getPlace s page.toNat
  let t := homeOf s (64 * page.toNat)
  match (if tileRuns s t then regionAt s (4096 * page.toNat) else none) with
  | none => .next s
  | some r =>
    if !tileRuns s t || !isTiered r || decide (p.st = .unwritten) || p.moving || decide (tierMode s t = 0) then .next s
    else
      let old := decide (regFld s .trCfg t 15 12 ≤ residOf p.tier)
      let up := decide (p.st = .nvm) && decide (regFld s .trCfg t 31 24 ≤ heatOf p.tier) && old
      let down := decide (p.st = .dram) && !p.pin && decide (heatOf p.tier ≤ regFld s .trCfg t 23 16) && old
      let s1 := putPlace page.toNat { p with tier := mkTier (heatOf p.tier / 2) (classIn p.tier) (residOf p.tier + 1) } s
      let q := if up then Table.get [] s.tier.promote t else Table.get [] s.tier.demote t
      if !up && !down || q.contains page.toNat then .next s1
      else if 1024 ≤ q.length then .next (addCnt (tileCnt t 470) 1 s1)
      else if up then .next (onTier (fun x => { x with promote := Table.set [] x.promote t (q ++ [page.toNat]) }) s1)
      else .next (onTier (fun x => { x with demote := Table.set [] x.demote t (q ++ [page.toNat]) }) s1)

/-- A chunk of an NVM frame has been asked for and has not arrived (R219). -/
def chunkAsked (s : State) (t frame i : Nat) : Bool :=
  let mine (q : NReq) : Bool := decide (q.use = .data 1 frame i)
  (List.range 40).any (fun l => let k := getLink s (40 * t + l); k.reqs.any (fun e => match e.2 with | some q => mine q | none => false) || k.wait.any mine) ||
  s.nvm.works.any (fun e => match e.2 with | some k => decide (k.tile = t) && (match k.cont with | some q => mine q | none => false) | none => false)

/-- Ask for source line `i` of a move (R219): a DRAM line, a slot, or the line's whole chunk. -/
def askSource (t : Nat) (toDram : Bool) (frame i : Nat) (s : State) : State :=
  if !toDram then drRead t (64 * frame + i) (walkerPrio s) s
  else match slotHas s t frame i with
    | some a => drRead t (slotF s t a i) (walkerPrio s) s
    | none =>
      let c := i / 4 * 4
      if (waitingRec s t frame i).isSome || (Table.get none s.nvm.arrived (arrKey 1 t frame c)).isSome || chunkAsked s t frame c then s
      else nvmAsk 1 t frame c (walkerPrio s) s

/-- Step 1 of a move (R219): a destination frame, MOVING set, COPIED clear; the source chunks of an NVM page are asked for. -/
def startMove (page : Nat) (toDram : Bool) (s : State) : State :=
  let p := getPlace s page
  let t := homeOf s (64 * page)
  match freeFrame s t (!toDram) with
  | none => s
  | some f =>
    let s1 := putPlace page { p with moving := true } (setMove page (some ⟨t, toDram, p.frame, f, 0#64, toDram⟩) s)
    let s2 := takeToken t 16 s1
    sampleFree t <| if toDram then
      (List.range 16).foldl (fun s j =>
        match (List.range 4).find? (fun i => (slotHas s t p.frame (4 * j + i)).isNone) with
        | some i => askSource t true p.frame (4 * j + i) s
        | none => s) s2
    else s2

/-- PROMOTION_START (R215, R217): round robin over the classes that have tokens, oldest first within a class. -/
def execPromotionStart (t : TileId) (s : State) : Host.Outcome State Fault Refusal :=
  let q := Table.get [] s.tier.promote t.val
  let room := decide (0 < freeOut s t.val false) || (movesOn s t.val).any (fun m => !m.2.toDram)
  if !walkersRun s t.val || tierMode s t.val ≠ 1 || dramStop s t.val || decide (16 ≤ (movesOn s t.val).length) || !hasToken s t.val 16 || !room then .next s
  else
    let last := Table.get 0 s.tier.rrClass t.val
    let order := (List.range 16).map (fun i => (last + i) % 16)
    match order.findSome? (fun c => if hasToken s t.val c then (q.find? (fun p => classIn (getPlace s p).tier = c)).map (fun p => (c, p)) else none) with
    | none => .next s
    | some (c, page) =>
      let p := getPlace s page
      let s1 := onTier (fun x => { x with promote := Table.set [] x.promote t.val (q.erase page), rrClass := Table.set 0 x.rrClass t.val (c + 1) }) s
      if p.moving || decide (p.st ≠ .nvm) then .next s1
      else if (freeFrame s1 t.val false).isNone then .next s
      else .next (startMove page true (takeToken t.val c s1))

/-- The page a demotion takes next (R216, R217): the oldest queue entry, or after a channel loss the lowest DRAM page not pinned. -/
def nextDemotion (s : State) (t : Nat) : Option Nat :=
  if dramStop s t then
    (s.place.find? (fun e => e.2.st = .dram && !e.2.pin && !e.2.moving && homeOf s (64 * e.1) = t &&
      (match regionAt s (4096 * e.1) with | some r => isTiered r | none => false))).map (·.1)
  else (Table.get [] s.tier.demote t).head?

/-- DEMOTION_START (R216, R217): from FREE_LOW until FREE_HIGH, or as MODE and DRAM_STOP say. -/
def execDemotionStart (t : TileId) (s : State) : Host.Outcome State Fault Refusal :=
  let s0 := sampleFree t.val s
  let on := s0.tier.demoting.getLsbD t.val
  let mode := tierMode s t.val
  let wanted := dramStop s t.val || decide (mode = 2) || (decide (mode = 1) && on)
  if !walkersRun s t.val || !wanted || decide (16 ≤ (movesOn s t.val).length) || !hasToken s t.val 16 || !hasToken s t.val 17 then .next s0
  else match nextDemotion s t.val with
    | none => .next s0
    | some page =>
      let p := getPlace s page
      let s1 := onTier (fun x => { x with demote := Table.mod [] x.demote t.val (fun q => q.erase page) }) s0
      if p.moving || decide (p.st ≠ .dram) then .next s1
      else if (freeFrame s1 t.val true).isNone then .next s0
      else .next (startMove page false (takeToken t.val 17 s1))

/-- The destination of a move takes a record; the COPIED bit is set (R219). -/
def copyTo (page : Nat) (m : Move) (i : Nat) (r : Rec) (s : State) : State :=
  putLoc m.tile (!m.toDram) m.dst i r (walkerPrio s) (setMove page (some { m with copied := setBit m.copied i true }) s)

/-- Store a record at the source of a move, where R175 poisons it before the copy (R222). -/
def putSource (m : Move) (i : Nat) (r : Rec) (s : State) : State := putLoc m.tile m.toDram m.src i r (walkerPrio s) s

/-- Source line `i` of a move, once its data has arrived (R219): a chunk that has arrived serves its four lines. -/
def takeSource (m : Move) (i : Nat) (flips : Flips) (s : State) : Option (Rec × Sum Nat Nat × State) :=
  if m.toDram && (slotHas s m.tile m.src i).isNone && (waitingRec s m.tile m.src i).isNone then
    match Table.get none s.nvm.arrived (arrKey 1 m.tile m.src (i / 4 * 4)) with
    | some (some b, n, medium) => some (if medium then flipRec (chunkRec b (i % 4)) flips else chunkRec b (i % 4), .inr n, s)
    | _ => none
  else takeLoc 1 m.tile m.toDram m.src i flips s

/-- The source line has been checked (R174, R222): its record goes to the destination of the move, if the page still moves. -/
def finishCopy (page i : Nat) (r : Rec) (s : State) : State :=
  match getMove s page with
  | some m => copyTo page m i r s
  | none => s

/-- MIGRATION_COPY (R219, R222): the line's source is asked for, and once its data has arrived it is copied if its line lock is granted and its COPIED
bit still clear; a lost source line becomes a poisoned record. -/
def execMigrationCopy (page : BitVec 36) (i : Fin 64) (flips : Flips) (s : State) : Host.Outcome State Fault Refusal :=
  match getMove s page.toNat with
  | none => .next s
  | some m =>
    let line := 64 * page.toNat + i.val
    if m.copied.getLsbD i.val || !lineFree s line || !walkersRun s m.tile then .next s
    else if locLost s m.tile m.toDram m.src i.val then
      let s1 := copyTo page.toNat m i.val (mkRec line 0#512 (poisonMeta s line)) s
      let reg := match regionAt s (64 * line) with | some r => r.idx | none => 0
      .next (raiseWith (tileSrc m.tile .trMigLost) ⟨BitVec.ofNat 64 (64 * line), 0xFF#8, 2#8, BitVec.ofNat 32 reg⟩ {} (lostWord line s1))
    else
      let s0 := askSource m.tile m.toDram m.src i.val s
      match takeSource m i.val flips s0 with
      | none => .next s0
      | some (r, src, s1) => let x := settleRec line r src {} (putSource m i.val) s1
        .next (finishCopy page.toNat i.val x.1 x.2.2)

/-- A frame's absorption slots are discarded (R204). -/
def dropSlots (t frame : Nat) (s : State) : State :=
  onNvm (fun x => { x with
    slots := x.slots.filter (fun e => decide (e.1 / 16 ≠ t * 2 ^ 32 + frame))
    slotWait := x.slotWait.filter (fun w => ¬(w.tile = t ∧ w.frame = frame))
    arrived := x.arrived.filter (fun e => decide (e.1 / 64 % 2 ^ 32 ≠ frame ∨ e.1 / 64 / 2 ^ 32 % 8 ≠ t)) }) s

/-- MIGRATION_COMPLETE (R219): all 64 bits set; the placement entry takes the new STATE and FRAME, and the source frame is free. -/
def execMigrationComplete (page : BitVec 36) (s : State) : Host.Outcome State Fault Refusal :=
  match getMove s page.toNat with
  | none => .next s
  | some m =>
    if m.copied ≠ BitVec.allOnes 64 || !walkersRun s m.tile then .next s
    else
      let p := getPlace s page.toNat
      let v : Place := { st := if m.toDram then .dram else .nvm, pin := p.pin, tier := mkTier (heatOf p.tier) (classIn p.tier) 0, frame := m.dst }
      let s1 := putPlace page.toNat v (setMove page.toNat none s)
      let s2 := if m.toDram then dropSlots m.tile m.src s1 else s1
      .next (addCnt (tileCnt m.tile (if m.toDram then 468 else 469)) 1 (sampleFree m.tile s2))

/-- A fill that meets a MOVING page ends the move: both frames are free (R221). -/
def endMove (page : Nat) (s : State) : State :=
  match getMove s page with
  | none => s
  | some m => let s1 := setMove page none s; sampleFree m.tile (if m.toDram then s1 else dropSlots m.tile m.dst s1)

end Sys2Proof.Machine
end

