-- ==== Sys2Proof/Machine/Admission.lean ====
section
/-!
DEFINITION. Admission arithmetic and the report (R317–R329): demands, capacities, bounds, checks, shedding.
-/
namespace Sys2Proof.Machine

/-- An exact non-negative fraction in lowest terms (R322). -/
structure Frac where
  num : Nat
  den : Nat
deriving DecidableEq, Repr

def frac (n d : Nat) : Frac := let g := max 1 (Nat.gcd n d); ⟨n / g, d / g⟩
def fadd (a b : Frac) : Frac := frac (a.num * b.den + b.num * a.den) (a.den * b.den)
def fmul (a b : Frac) : Frac := frac (a.num * b.num) (a.den * b.den)
def fsum (l : List Frac) : Frac := l.foldl fadd ⟨0, 1⟩
def fint (n : Nat) : Frac := ⟨n, 1⟩
/-- A demand is rounded up (R322). -/
def fceil (a : Frac) : Nat := (a.num + a.den - 1) / max 1 a.den
def ceilDiv (a b : Nat) : Nat := if b = 0 then 0 else (a + b - 1) / b

/-- What one evaluation works from (R322, R329). -/
structure EvalIn where
  cls : List ClassEnt
  /-- Tiles whose walkers are reduced. -/
  reduced : BitVec 8
  dusk : Bool
  hot : Bool
  /-- At Dawn link rates and widths are the admitted ones; later as trained. -/
  dawn : Bool
deriving DecidableEq, Repr

/-- One check (R325, R327). -/
structure Check_ where
  check : Nat
  tile : Nat
  cls : Nat
  head : Nat
  demand : Nat
  cap : Nat
deriving DecidableEq, Repr

def checkFails (c : Check_) : Bool := decide (c.cap < c.demand)

/-! Hardware found. -/

/-- The DIMMs of a tile that are in use. -/
def tileSpds (s : State) (t : Nat) : List Spd := (List.range 8).filterMap (fun c => (getDimm s t c).spd)

/-- Refresh mode as it acts (R159). -/
def refMode (s : State) (t : Nat) : Nat := min 2 (regFld s .drRefCfg t 1 0)

/-- tRFC and I of a tile's refresh mode (R325). -/
def tRfcMode (mode : Nat) (x : Spd) : Nat := if mode = 0 then x.tRfc1 else if mode = 1 then x.tRfc2 else x.tRfcSb

/-- tRFC of the REFab that pays debt before Dusk (R165, R318): tRFC2 in both fine-granularity modes. -/
def tRfcPay (mode : Nat) (x : Spd) : Nat := if mode = 0 then x.tRfc1 else x.tRfc2
def refInterval (mode : Nat) : Nat := if mode = 0 then 3900 else if mode = 1 then 1950 else 7800

/-- ρ in parts per million (R325); I is halved when hot (R332). -/
def rho (s : State) (e : EvalIn) (t : Nat) : Nat :=
  let mode := refMode s t
  (tileSpds s t).foldl (fun a x => max a (ceilDiv (10 ^ 6 * tRfcMode mode x * (if e.hot then 2 else 1)) (refInterval mode))) 0

def subsUp (s : State) (t : Nat) : Nat := ((List.range 16).filter (fun l => subUp s (16 * t + l))).length

/-- In-service groups of a tile, and the degraded ones among them (R325). -/
def groupsUp (s : State) (t : Nat) : List Nat := (List.range 4).filter (fun g => decide ((getGrp s t g).st = .normal ∨ (getGrp s t g).st = .degraded))
def groupsDegraded (s : State) (t : Nat) : Nat := ((List.range 4).filter (fun g => decide ((getGrp s t g).st = .degraded))).length

/-- In-service links of the in-service groups (R325). -/
def groupLinks (s : State) (t : Nat) : Nat :=
  (groupsUp s t).foldl (fun a g => a + ((List.range 9).filter (fun p => (linkAt s t g p).isSome)).length) 0

/-- Chunks on a tile's in-service links: 2^30 for each package (R179, R324). -/
def tileChunks (s : State) (t : Nat) : Nat :=
  (List.range 4).foldl (fun a g => (List.range 9).foldl (fun a p => match linkAt s t g p with | some n => a + (getLink s n).pkgs * 2 ^ 30 | none => a) a) 0

/-! Classes. -/

/-- The view entries' regions and heads of a class (R319, R321). -/
def classHeads (s : State) (c : Nat) : List Nat := (s.map.views.filterMap (fun v => if v.cls = c then some v.head else none)).eraseDups
def classRegions (s : State) (c : Nat) : List Region :=
  (s.map.views.filterMap (fun v => if v.cls = c then regionOf s v.region else none)).eraseDups
def classPacked (s : State) (c : Nat) : List Region := (classRegions s c).filter (fun r => r.typ = .packed)

/-- The class's packed store lies in NVM: some packed region in its view keeps its store there (log 51). -/
def classNvmStore (s : State) (c : Nat) : Bool := (classPacked s c).isEmpty || (classPacked s c).any (fun r => !storeInDram s r.idx)

def missFrac (s : State) : Frac := frac (2 * paramNat s "x.qos.ctr_miss_pct" 10) 100

/-- A class's demand on one tile (R323): DRAM lines, chunk reads, chunk programs, crypto lines, decompressed bytes, compression input bytes. -/
structure Demand where
  dram : Nat := 0
  nrd : Nat := 0
  npg : Nat := 0
  cry : Nat := 0
  dec : Nat := 0
  comp : Nat := 0
deriving DecidableEq, Repr

def classDemand (s : State) (x : ClassEnt) (c t : Nat) : Demand :=
  let n := tiles s
  let m := missFrac s
  let pct (p : Nat) : Frac := frac p 100
  let g := (groupsUp s t).length
  let deg := if g = 0 then fint 1 else frac (9 * g + 7 * groupsDegraded s t) (9 * g)
  let other := fmul (frac (x.floorRd * 10 ^ 6) (64 * n)) (pct (100 - x.pPacked))
  let wr := frac (x.floorWr * 10 ^ 6) (64 * n)
  let rN := fmul other (pct x.pNvm)
  let rD := fmul other (pct (100 - x.pNvm))
  let wN := fmul wr (pct x.pNvm)
  let wD := fmul wr (pct (100 - x.pNvm))
  let pr := pct x.pProt
  let np := pct (100 - x.pProt)
  let out := fmul (fmul (frac (x.floorRd * 10 ^ 6) n) (pct x.pPacked)) (pct (paramNat s "x.qos.packed_amp_pct" 100))
  let blk := (classPacked s c).foldl (fun a r => min a (2 ^ r.blkLog)) 65536
  let blk := if (classPacked s c).isEmpty then 4096 else blk
  let ratio := pct (paramNat s "x.qos.packed_ratio_pct" 50)
  let dcm := fmul out (frac 1 blk)
  let st := fmul (fmul out ratio) (frac 1 64)
  let nvmStore := classNvmStore s c
  let inp := frac (x.ingest * 10 ^ 6) n
  let il := fmul inp (frac 1 64)
  let sl := fmul il ratio
  let k (a : Nat) : Frac := fadd (fint a) m
  { dram := fceil (fsum [fmul rD np, fmul (fmul rD pr) (k 2), fmul wD np, fmul (fmul wD pr) (k 4), fmul (fmul rN pr) (k 1),
      fmul (fmul wN np) (fint 2), fmul (fmul wN pr) (k 5), fmul dcm (fint 2), fmul st (if nvmStore then frac 1 64 else frac 73 64),
      fmul il (k 2), fmul sl (k 4), fmul sl (k 5)])
    nrd := fceil (fmul deg (fsum [rN, fmul wN (fint 2), if nvmStore then fmul st (frac 9 32) else fint 0, fmul sl (fint 2)]))
    npg := fceil (fsum [fmul wN (fint 2), fmul sl (fint 2)])
    cry := fceil (fsum [fmul rD pr, fmul wD pr, fmul rN pr, fmul wN pr, dcm, st, il, fmul sl (fint 2)])
    dec := fceil out
    comp := fceil inp }

def addDemand (a b : Demand) : Demand := ⟨a.dram + b.dram, a.nrd + b.nrd, a.npg + b.npg, a.cry + b.cry, a.dec + b.dec, a.comp + b.comp⟩

/-- The walkers' charge on a tile (R324). On a tile without a group in service the walkers make no chunk accesses (DEDUCED, log 51). -/
def walkerDemand (s : State) (e : EvalIn) (t : Nat) : Demand :=
  let nv := !(groupsUp s t).isEmpty
  let on (n : Nat) : Nat := if nv then n else 0
  let iv := regFld s .drScrubCfg t 19 0
  let scrub := ceilDiv (subsUp s t * 10 ^ 9) (iv * 16)
  let drift := ceilDiv (tileChunks s t) (horizon s t * 3600)
  let stop := s.dram.stop.getLsbD t
  let pps := 16 * (if stop then regFld s .trRate t 31 16 else if e.reduced.getLsbD t then 0 else regFld s .trRate t 15 0)
  let rate := if e.reduced.getLsbD t then 1 else max 1 (regFld s .cryTwCfg t 7 0)
  let rb := clampN 1 100 (regFld s .nlWearCfg t 23 16) * 62500
  { dram := scrub + pps * 64 + ceilDiv (rate * 10 ^ 6 * 9) 4
    nrd := drift + on (pps * 16) + on (ceilDiv (rate * 10 ^ 6 * 9) 32) + on (8 * rb)
    npg := drift + on (pps * 18) + on (ceilDiv (rate * 10 ^ 6 * 9) 32) + on rb
    cry := rate * 10 ^ 6 * 2 }

def tileDemand (s : State) (e : EvalIn) (t : Nat) : Demand :=
  (e.cls.zipIdx.foldl (fun a x => addDemand a (classDemand s x.1 x.2 t)) {}) |> addDemand (walkerDemand s e t)

/-! Bounds. -/

/-- Hops between two tiles (R19). -/
def hops (s : State) (a b : Nat) : Nat := (route s a b).length - 1
def hopsOf (s : State) (c : Nat) : Nat :=
  let srcs := if (classHeads s c).isEmpty then tileList s else (classHeads s c).map portTile
  srcs.foldl (fun m a => (tileList s).foldl (fun m b => max m (hops s a b)) m) 0

/-- The refresh, scrub and Dusk terms of DRAM lines (R318), from the slowest DIMM. -/
def dramTerms (s : State) (e : EvalIn) : Nat :=
  let per (t : Nat) : Nat :=
    let m := refMode s t
    let scrub := if regFld s .drScrubCfg t 19 0 = 0 then 40 else 120
    (tileSpds s t).foldl (fun a x =>
      let ref := if m = 0 then x.tRp + x.tRfc1 else if m = 1 then x.tRp + x.tRfc2 else x.tRp + max (3 * x.tRefSbRd + x.tRfcSb) x.tRfc2
      let dusk := if e.dusk then max 2560 (clampN 1 8 (regFld s .drRefCfg t 7 4) * tRfcPay m x + 20) else 0
      max a (ref + scrub + dusk)) 0
  (tileList s).foldl (fun a t => max a (per t)) 0

/-- The R256 bound of the last line of a block. -/
def packedBound (r : Region) (nvm : Bool) : Nat := (if nvm then 1770 else 390) + 2 ^ r.blkLog / 16

/-- B_c (R319). -/
def boundOf (s : State) (e : EvalIn) (x : ClassEnt) (c : Nat) : Nat :=
  let h := 24 * hopsOf s c
  let prot := if x.pProt = 0 then 0 else 90
  let deg := (tileList s).any (fun t => decide (groupsDegraded s t ≠ 0))
  let dram := if x.pNvm < 100 ∧ x.pPacked < 100 then [128 + h + dramTerms s e + prot] else []
  let nvm := if 0 < x.pNvm then [(if deg then 1750 else 1600) + h + 1800 + prot] else []
  let pk := if 0 < x.pPacked then
      [(classPacked s c).foldl (fun a r => max a (packedBound { r with blkLog := (classPacked s c).foldl (fun b y => max b y.blkLog) 12 } (classNvmStore s c)))
        (if (classPacked s c).isEmpty then packedBound ⟨0, .packed, false, false, 0#12, 12, 0, 0, 0⟩ true else 0) + h + prot] else []
  match dram ++ nvm ++ pk with
  | [] => 72 + h
  | l => l.foldl max 0

/-- RES_c (R325). -/
def resFor (s : State) (e : EvalIn) (x : ClassEnt) (c : Nat) : Nat :=
  if x.floorRd = 0 ∧ x.floorWr = 0 then 0
  else max 16 (ceilDiv ((x.floorRd + x.floorWr) * 10 ^ 6 * boundOf s e x c) (64 * tiles s * 10 ^ 9))

/-! Links. -/

/-- A rate in tenths of GT/s. -/
def rateTenths : Rate → Nat | .down => 0 | .g2_5 => 25 | .g8 => 80 | .g16 => 160 | .g32 => 320 | .g64 => 640

/-- Lanes and rate a head is admitted at (R325): as declared at Dawn; as trained later, and as admitted while it is down (DEDUCED, log 51). -/
def headLink (s : State) (e : EvalIn) (h : Nat) : Nat × Nat :=
  let planned := (headLanes s h, min 640 (10 * paramNat s "x.qos.link_gts" 64))
  let p := getPort s h
  if e.dawn then planned else if p.up then (p.width, rateTenths p.rate) else Table.get planned s.qos.links h

def headClasses (s : State) (h : Nat) : List Nat := (s.map.views.filterMap (fun v => if v.head = h then some v.cls else none)).eraseDups

def headDemand (s : State) (e : EvalIn) (h : Nat) (wr : Bool) : Nat :=
  (headClasses s h).foldl (fun a c =>
    match e.cls[c]? with
    | some x => a + ceilDiv ((if wr then x.floorWr else x.floorRd) * 10 ^ 6) (classHeads s c).length
    | none => a) 0

def linkChecks (s : State) (e : EvalIn) : List Check_ :=
  (heads s).flatMap (fun h =>
    let (lanes, rate) := headLink s e h
    let cap := lanes * rate * 10 ^ 8 / 8 * (if 320 ≤ rate then 93 else 80) / 100
    [⟨1, 0xFF, 0xFF, h, headDemand s e h false, cap⟩, ⟨2, 0xFF, 0xFF, h, headDemand s e h true, cap⟩])

/-- The links of the cut (R19), and whether a tile lies on the side of higher x. -/
def cutLinks (s : State) : List Nat :=
  (koistLinks s).zipIdx.filterMap (fun e => if tileX s e.1.1 < (meshW s) / 2 ∧ (meshW s) / 2 ≤ tileX s e.1.2 then some e.2 else none)
def highSide (s : State) (t : Nat) : Bool := decide ((meshW s) / 2 ≤ tileX s t)

/-- Bisection demand toward the side `high` (R325). -/
def bisectDemand (s : State) (e : EvalIn) (high : Bool) : Nat :=
  e.cls.zipIdx.foldl (fun a y =>
    let (x, c) := y
    let hs := classHeads s c
    if hs.isEmpty then a + ceilDiv ((x.floorRd + x.floorWr) * 10 ^ 6) 4
    else
      let recv := (hs.filter (fun h => highSide s (portTile h) = high)).length
      a + ceilDiv ((x.floorRd * recv + x.floorWr * (hs.length - recv)) * 10 ^ 6) (2 * hs.length)) 0

def bisectChecks (s : State) (e : EvalIn) : List Check_ :=
  let mods := (cutLinks s).foldl (fun a l => a + ones 4 (Table.get 0#4 s.fab.modules l).toNat) 0
  let cap := mods * 250 * 10 ^ 9 * 85 / 100
  [⟨3, 0, 0xFF, 0xFF, bisectDemand s e false, cap⟩, ⟨3, 1, 0xFF, 0xFF, bisectDemand s e true, cap⟩]

/-! Checks. -/

def tileChecks (s : State) (e : EvalIn) (t : Nat) : List Check_ :=
  let d := tileDemand s e t
  let rate := match tileSpd s t with | some x => x.rate | none => 0
  let eff := 10 ^ 4 * paramNat s "x.qos.dram_eff_pct" 82 - rho s e t
  let dram := subsUp s t * rate * 10 ^ 6 * eff / (16 * 10 ^ 6)
  let trk := e.cls.zipIdx.foldl (fun a x => a + resFor s e x.1 x.2) 144
  [⟨4, t, 0xFF, 0xFF, d.dram, dram⟩, ⟨5, t, 0xFF, 0xFF, d.nrd, groupLinks s t * 10000000 * 60 / 100⟩,
   ⟨6, t, 0xFF, 0xFF, d.npg, groupLinks s t * 6250000 * 90 / 100⟩, ⟨7, t, 0xFF, 0xFF, d.cry, 13203125000⟩,
   ⟨8, t, 0xFF, 0xFF, d.dec, 192 * 10 ^ 9 * 75 / 100⟩, ⟨9, t, 0xFF, 0xFF, d.comp, 32 * 10 ^ 9⟩, ⟨10, t, 0xFF, 0xFF, trk, 3840⟩]

def boundChecks (s : State) (e : EvalIn) : List Check_ :=
  e.cls.zipIdx.filterMap (fun x => if x.1.lat = 0 then none else some ⟨11, 0xFF, x.2, 0xFF, boundOf s e x.1 x.2, x.1.lat⟩)

/-- The surroundings (R68): inlet in 0.1 °C, airflow, cap, slot identity. -/
def surrBytes (s : State) : Bytes := slice s.host.surr 0 80
def inletHot (s : State) : Bool :=
  let v := leAt (surrBytes s) 0 2
  decide (350 ≤ v ∧ v < 32768) || decide (leAt (surrBytes s) 2 1 = 0)
def powerCap (s : State) : Nat := leAt (surrBytes s) 4 2
def slotIdentity (s : State) : Bytes := slice (surrBytes s) 8 8

/-- The power estimate in mW (R326, R332). -/
def powerDemand (s : State) (e : EvalIn) : Nat :=
  let t := (tileList s).filter (fun t => s.clk.running.getLsbD t)
  let dimms := (tileList s).foldl (fun a t => a + ((List.range 8).filter (fun c => (getDimm s t c).seen.isSome)).length) 0
  let pkgs := (List.range (40 * tiles s)).foldl (fun a n => a + (getLink s n).pkgs) 0
  let static := 45000 * t.length + 4000 + 10000 * dimms + 1500 * pkgs
  let d := (tileList s).foldl (fun a t => addDemand a (tileDemand s e t)) {}
  let links := (heads s).foldl (fun a h => a + headDemand s e h false + headDemand s e h true) 0
  (if e.hot then ceilDiv (static * 11) 10 else static) + ceilDiv (d.dram * 64 * 60) (10 ^ 9) + ceilDiv (d.nrd * 256 * 200) (10 ^ 9) +
    ceilDiv (d.npg * 256 * 800) (10 ^ 9) + ceilDiv (links * 20) (10 ^ 9) + ceilDiv (d.cry * 64 * 30) (10 ^ 9) + ceilDiv (d.dec * 20) (10 ^ 9) +
    ceilDiv (d.comp * 150) (10 ^ 9)

def powerChecks (s : State) (e : EvalIn) : List Check_ :=
  if powerCap s = 0 then [] else [⟨12, 0xFF, 0xFF, 0xFF, powerDemand s e, 1000 * powerCap s⟩]

/-- Every check of one evaluation (R325). -/
def allChecks (s : State) (e : EvalIn) : List Check_ :=
  linkChecks s e ++ bisectChecks s e ++ (tileList s).flatMap (tileChecks s e) ++ boundChecks s e ++ powerChecks s e

/-- Dusk is allowed (R320). -/
def duskAllowed (s : State) (e : EvalIn) : Bool :=
  bit (regRaw s .drDuskCfg 0) 0 && !(boundChecks s { e with dusk := true }).any checkFails

/-! The report. -/

def checkLe (a b : Check_) : Bool :=
  decide (a.check < b.check) || (decide (a.check = b.check) && (decide (a.tile < b.tile) || (decide (a.tile = b.tile) &&
    (decide (a.cls < b.cls) || (decide (a.cls = b.cls) && decide (a.head ≤ b.head))))))

def checkIns (x : Check_) : List Check_ → List Check_
  | [] => [x]
  | y :: l => if checkLe x y then x :: y :: l else y :: checkIns x l

def checkSort (l : List Check_) : List Check_ := l.foldr checkIns []

/-- The passing instance of a CHECK with the smallest margin, the first in order on a tie. -/
def tightest (l : List Check_) : Option Check_ :=
  l.foldl (fun a x => match a with | none => some x | some y => if x.cap - x.demand < y.cap - y.demand then some x else some y) none

/-- The entries of one pass (R327): every failing check, then the tightest passing instance of each CHECK, each list in the order of R327. -/
def passEntries (l : List Check_) : List Check_ :=
  let o := checkSort l
  o.filter checkFails ++ (List.range 13).filterMap (fun k => tightest (o.filter (fun x => decide (x.check = k) && !checkFails x)))

def entryBytes (x : Check_) : Bytes :=
  [BitVec.ofNat 8 x.check, BitVec.ofNat 8 x.tile, BitVec.ofNat 8 x.cls, BitVec.ofNat 8 x.head, if checkFails x then 1#8 else 0#8, 0#8, 0#8, 0#8] ++
    leBytes 8 x.demand ++ leBytes 8 x.cap ++ List.replicate 8 0#8

/-- What an evaluation with its steps has come to (R329). -/
structure EvalOut where
  result : Nat
  inp : EvalIn
  shed : BitVec 16
  duskOff : Bool
  entries : List Check_
deriving DecidableEq, Repr

/-- The class to shed next (R329): of those with a floor or LAT, lowest SHED, highest label on a tie. -/
def nextShed (e : EvalIn) (shed : BitVec 16) : Option Nat :=
  (e.cls.zipIdx.filter (fun x => !shed.getLsbD x.2 && decide (x.1.floorRd ≠ 0 ∨ x.1.floorWr ≠ 0 ∨ x.1.lat ≠ 0))).foldl
    (fun (a : Option (Nat × Nat)) x => match a with
      | none => some (x.1.shed, x.2)
      | some y => if x.1.shed ≤ y.1 then some (x.1.shed, x.2) else some y) none |>.map (·.2)

/-- A shed class keeps running, with no floor, no bound and RES 0 (R329). -/
def shedClass (c : Nat) (e : EvalIn) : EvalIn :=
  { e with cls := e.cls.zipIdx.map (fun x => if x.2 = c then { x.1 with floorRd := 0, floorWr := 0, lat := 0, ingest := 0 } else x.1) }

def shedLoop (s : State) : Nat → EvalIn → BitVec 16 → List Check_ → EvalOut
  | 0, e, shed, acc => ⟨4, e, shed, !e.dusk, acc⟩
  | f + 1, e, shed, acc =>
    match nextShed e shed with
    | none => ⟨4, e, shed, !e.dusk, acc⟩
    | some c =>
      let e1 := shedClass c e
      let l := allChecks s e1
      let acc1 := acc ++ passEntries l
      if l.any checkFails then shedLoop s f e1 (setBit shed c true) acc1 else ⟨2, e1, setBit shed c true, !e1.dusk, acc1⟩

/-- An evaluation (R320, R325, R329): at Dawn a failing one is refused; later the steps of R329 follow. -/
def evaluate (s : State) (cls : List ClassEnt) (dawn : Bool) : EvalOut :=
  let e0 : EvalIn := ⟨cls, 0#8, false, inletHot s, dawn⟩
  let e := { e0 with dusk := duskAllowed s e0 }
  let l := allChecks s e
  let acc := passEntries l
  if !l.any checkFails then ⟨0, e, 0#16, !e.dusk, acc⟩
  else if dawn then ⟨3, e, 0#16, !e.dusk, acc⟩
  else
    let bad := (l.filter (fun x => checkFails x && decide (4 ≤ x.check ∧ x.check ≤ 10))).map (·.tile)
    let e1 := { e with reduced := bad.foldl (fun b t => setBit b t true) 0#8 }
    let l1 := allChecks s e1
    let acc1 := acc ++ passEntries l1
    if !l1.any checkFails then ⟨1, e1, 0#16, !e1.dusk, acc1⟩
    else
      let e2 := { e1 with dusk := false }
      let l2 := allChecks s e2
      let acc2 := if e1.dusk then acc1 ++ passEntries l2 else acc1
      if !l2.any checkFails then ⟨1, e2, 0#16, true, acc2⟩ else shedLoop s 16 e2 0#16 acc2

/-- The report's bytes (R327). -/
def reportBytes (s : State) (kind trigger : Nat) (o : EvalOut) : Bytes :=
  let sec (k : Nat) : Bytes := (s.dawn.sections.find? (fun x => x.1 = k)).map (·.2) |>.getD []
  [1#8, 0#8, BitVec.ofNat 8 kind, BitVec.ofNat 8 o.result] ++ leBytes 4 o.entries.length ++ leBytes 2 trigger ++ leBytes 2 o.shed.toNat ++
    [BitVec.ofNat 8 (b2n o.duskOff + 2 * b2n (decide (o.inp.reduced ≠ 0#8)) + 4 * b2n o.inp.hot), 0#8, 0#8, 0#8] ++
    sha256 (sec 2 ++ sec 3 ++ sec 4 ++ sec 5 ++ surrBytes s) ++ slotIdentity s ++ leBytes 4 s.dawn.seq.toNat ++ List.replicate 4 0#8 ++
    o.entries.flatMap entryBytes

/-- What an admission sets (R312, R320, R328, R329): reserves, bounds, the status, and reduced walkers, whose buckets have filled at the old rate until
now (R215). -/
def applyEval (o : EvalOut) (s : State) : State :=
  let w := paramNat s "qos.class.walker" 15
  let f := paramNat s "qos.class.firmware" 14
  let res (c : Nat) : Nat := if c = w then 128 else if c = f then 16 else match o.inp.cls[c]? with | some x => resFor s o.inp x c | none => 0
  let s1 := (tileList s).foldl (fun s t => (List.range 16).foldl (fun s c => setReg .qosTrk (16 * t + c) (BitVec.ofNat 32 (res c)) s) s) s
  let pps (t : Nat) : Option Nat := if o.inp.reduced.getLsbD t then some (if s.dram.stop.getLsbD t then regFld s .trRate t 31 16 else 0) else none
  let s2 := (tileList s).foldl (fun x t => changeRates t (onTier (fun y => { y with maxPps := Table.set none y.maxPps t (pps t) })) x) s1
  onQos (fun q => { q with result := o.result, duskOff := o.duskOff, hot := o.inp.hot, shed := o.shed, reduced := o.inp.reduced,
                           bound := o.inp.cls.zipIdx.map (fun x => boundOf s o.inp x.1 x.2) }) s2

end Sys2Proof.Machine
end

