-- ==== Sys2Proof/Machine/Qos.lean ====
section
/-!
DEFINITION. Regulation (R312, R313, R331, R333), the end of a re-evaluation (R328) and of a quiesce (R407).
-/
namespace Sys2Proof.Machine

/-- A request leaves its hold queue and starts at the head's tile (R313). -/
def leaveHold (h : Nat) (x : HeldReq) (s : State) : State :=
  let s1 := onQos (fun q => { q with hold := Table.mod [] q.hold h (fun l => l.erase x), out := Table.mod 0 q.out (16 * h + x.cls) (· + 1) }) s
  startOp (portTile h) x.line x.op s1

/-- The next request of a head that can leave does (R313): reserve first, oldest first; then, in the turns of R331, for the shared pool, whose tracker
it takes as it is sent. -/
def releaseHold (h : Nat) (s : State) : State :=
  match (getHold s h).find? (leavesNow s h) with
  | some x => leaveHold h x s
  | none =>
    match (getHold s h).find? (fun x => leavesPool s h x && decide (poolTurn s x.home = some h) && !deferredPool s h x.home) with
    | none => s
    | some x => leaveHold h x s

/-- A decoded request joins its head's hold queue, and leaves it at once where it can (R313). -/
def holdReq (h : Nat) (x : HeldReq) (s : State) : State :=
  releaseHold h (onQos (fun q => { q with hold := Table.mod [] q.hold h (fun l => l ++ [x]) }) s)

/-- HOLD_QUEUE_RELEASE (R313). -/
def execHoldQueueRelease (h : PortId) (s : State) : Host.Outcome State Fault Refusal :=
  .next (if tileRuns s (portTile h.val) && !midnight s then settle (releaseHold h.val s) else s)

/-- POWER_WINDOW (R333, R379): a 100 ms window ends; above the cap THROTTLE rises. -/
def execPowerWindow (s : State) : Host.Outcome State Fault Refusal :=
  let m := s.meter
  if m.samples.isEmpty then .next s
  else
    let mw := m.samples.foldl (· + ·) 0 / m.samples.length
    let s1 := onMeter (fun m => { m with samples := [], avg := BitVec.ofNat 16 (min (mw / 100) 65535),
                                         peak := BitVec.ofNat 16 (min (m.samples.foldl max 0 / 1000) 65535) }) s
    let cap := 1000 * powerCap s
    if cap = 0 ∨ !running s then .next s1
    else
      let up := decide (cap < mw)
      .next (onMeter (fun m => { m with
        throttle := if up then min 7 (m.throttle + 1) else m.throttle
        lowWindows := if 100 * mw < 95 * cap then m.lowWindows + 1 else 0
        highWindows := if up && decide (m.throttle = 7) then m.highWindows + 1 else 0 }) s1)

/-- THROTTLE_DOWN (R333): 1 s, ten windows, below 95 % of the cap. -/
def execThrottleDown (s : State) : Host.Outcome State Fault Refusal :=
  .next (if powerCap s ≠ 0 ∧ 10 ≤ s.meter.lowWindows then onMeter (fun m => { m with throttle := m.throttle - 1, lowWindows := 0 }) s else s)

/-- POWER_CAP_EXCEEDED (R333): ten seconds, a hundred windows, at step 7 above the cap. -/
def execPowerCapExceeded (s : State) : Host.Outcome State Fault Refusal :=
  .next (if powerCap s ≠ 0 ∧ 100 ≤ s.meter.highWindows then
      raiseTile 0 .qosPowerCap (s.meter.avg.toNat / 10) (onMeter (fun m => { m with highWindows := 0 }) s)
    else s)

/-- A re-evaluation with trigger `trig` gave `o` (R327–R329, R397): it is applied, its report kept and its record written. -/
def reevaluated (trig : Nat) (o : EvalOut) (s : State) : State :=
  let s1 := onQos (fun q => { q with busy := none, reReport := reportBytes s 1 trig o }) (applyEval o s)
  let s2 := primaryLog 0x04#8 0#8 0xFFFF#16 ([BitVec.ofNat 8 o.result, 0#8] ++ leBytes 2 trig ++ leBytes 2 o.shed.toNat) s1
  let s3 := eventAll ⟨.warning, .reevaluated⟩ s2
  if o.result = 4 then raiseTile 0 .qosUnadmitted o.shed.toNat s3 else s3

/-- REEVALUATION_DONE (R327–R329): the evaluation of the latest state. -/
def execReevaluationDone (s : State) : Host.Outcome State Fault Refusal :=
  match s.qos.busy with
  | none => .next s
  | some trig => .next (if !primaryRuns s || midnight s then s else reevaluated trig (evaluate s s.qos.cls false) s)

/-- QUIESCE_COMPLETE (R407): every request tracker and part slot of every tile is empty. -/
def execQuiesceComplete (s : State) : Host.Outcome State Fault Refusal :=
  let empty := !s.ha.txns.any (fun e => e.2.live) && !s.nc.trks.any (fun e => e.2.live) && s.job.parts.isEmpty && s.fab.req.isEmpty &&
    s.ha.lq.isEmpty && s.ha.allocQ.isEmpty
  .next (if s.faults.quiescing && !midnight s && empty then onFaults (fun f => { f with quiescing := false, quiesced := true }) s else s)

end Sys2Proof.Machine
end

