-- ==== Sys2Proof/Machine/HomeCmd.lean ====
section
/-!
DEFINITION. The Koist commands: a message of each channel reaches its tile (R96, R97), and the home agent's own commands (R106, R113, R116, R119,
R122, R130, R314).
-/
namespace Sys2Proof.Machine

/-- The next message of the HOM channel from a home to a tile, where it carries this opcode (R96). -/
def nextHom (s : State) (t home : Nat) (op : Op) : Option Msg := (s.fab.hom.find? (fun m => m.src = home ∧ m.dst = t)).filter (fun m => m.op = op)
/-- The next message of the RSP channel from a tile to a home, where it carries this opcode (R96). -/
def nextRsp (s : State) (t home : Nat) (op : Op) : Option Msg := (s.fab.rsp.find? (fun m => m.src = t ∧ m.dst = home)).filter (fun m => m.op = op)

/-- A HOM message reaches tile `t`: it leaves the fabric and `f` acts on it. -/
def onHom (t home : Nat) (op : Op) (f : Msg → State → State) (s : State) : State :=
  match nextHom s t home op with
  | none => s
  | some m => if engineUp s t then settle (pumpFills (f m (onFab (fun x => { x with hom := x.hom.erase m }) s))) else s

/-- A RSP message reaches its home. -/
def onRsp (t home : Nat) (op : Op) (f : Msg → State → State) (s : State) : State :=
  match nextRsp s t home op with
  | none => s
  | some m => if engineUp s home then settle (f m (onFab (fun x => { x with rsp := x.rsp.erase m }) s)) else s

/-- A FWD message reaches tile `t`: the channel keeps no order (R96). -/
def onFwd (t line : Nat) (op : Op) (s : State) : State :=
  match s.fab.fwd.find? (fun m => m.dst = t ∧ m.line = line ∧ m.op = op) with
  | none => s
  | some m => if engineUp s t then settle (pumpFills (fwdMsg t m (onFab (fun x => { x with fwd := x.fwd.erase m }) s))) else s

/-- Tracker numbers the home uses for completions that end no tracker: a HostWb's Cmp (R106), and a commit's own invalidation (R271). -/
def wbTrk : Nat := 5000
def commitTrk : Nat := 6000

/-- Cmp (R97, R111): of a write-back it is the ingress port's NDR; of a request it ends the tracker's wait. -/
def cmpMsg (t : Nat) (m : Msg) (s : State) : State :=
  if m.trk = wbTrk then reply m.attr (.ndr m.biTag .cmp) (countUnits t m.attr true s)
  else if m.trk = commitTrk then s else homMsg t m s

/-- BISnpReq (R52, R110): the ingress port sends BISnp; with the link down or BI off it answers BIRspI at once. -/
def biSnpMsg (t : Nat) (m : Msg) (s : State) : State :=
  let p := getPort s m.attr.head
  if p.up && p.bi then addCnt (portCnt m.attr.head 9) 1 (send m.attr.head (.biSnp m.biTag (BitVec.ofNat 42 m.line) m.bik) s)
  else sendRsp { op := .biRspFwd, src := t, dst := m.src, line := m.line, attr := m.attr, biTag := m.biTag, ans := .i } s

/-- BIAckReq (R112). -/
def biAckMsg (m : Msg) (s : State) : State := send m.attr.head (.biAck m.biTag) s

/-- The REQ message of a tile for a line. -/
def reqOf (s : State) (src line : Nat) : Option Msg := s.fab.req.find? (fun m => m.src = src ∧ m.line = line)

/-- The fabric output port that a REQ message waits at: the last of its path, into its home's tile; none on its own tile (R18, R314; DESIGN CHOICE: the model keeps
one queue for the ports of a path, log 113). -/
def reqPort (s : State) (m : Msg) : Option (Nat × Nat) :=
  match (route s m.src m.dst).reverse with
  | d :: p :: _ => some (p, d)
  | _ => none

/-- The REQ messages that wait at one output port. -/
def atPort (s : State) (p : Nat × Nat) : List Msg := s.fab.req.filter (fun m => reqPort s m = some p)

/-- WEIGHT of a class (R310, QOS_CLS_CFG). -/
def clsWeight (s : State) (c : Nat) : Nat := max 1 (regFld s .qosClsCfg c 29 22)

/-- The key of a port's round robin at one PRIO. -/
def turnKey (p : Nat × Nat) (prio : Nat) : Nat := 256 * p.1 + 32 * p.2 + prio

/-- The class that a port serves next at one PRIO, of those that wait there: the one served last until its turn has had WEIGHT messages, then the next in cyclic
order (R314). -/
def nextClass (s : State) (p : Nat × Nat) (prio : Nat) (waiting : List Nat) : Option Nat :=
  let cur := Table.get (0, 0) s.fab.reqTurn (turnKey p prio)
  if waiting.contains cur.1 && decide (cur.2 < clsWeight s cur.1) then some cur.1 else cyclicNext (cur.1 + 1) waiting

/-- The port of a REQ message sends it now (R314): one that has waited 2 µs goes before any other; else the highest PRIO goes first, and within it the class whose
turn it is. Nothing orders the messages of one class (R96). -/
def reqMay (s : State) (m : Msg) : Bool :=
  match reqPort s m with
  | none => true
  | some p =>
    let l := atPort s p
    let prio (x : Msg) : Nat := classPrio s x.attr.cls
    if l.any (·.aged) then m.aged
    else l.all (fun x => decide (prio x ≤ prio m)) &&
      decide (nextClass s p (prio m) ((l.filter (fun x => prio x = prio m)).map (·.attr.cls)) = some m.attr.cls)

/-- A port's round robin after it has sent a message in turn (R314). -/
def reqSent (m : Msg) (s : State) : State :=
  match reqPort s m with
  | none => s
  | some p =>
    if m.aged then s
    else
      let c := m.attr.cls
      onFab (fun f => { f with reqTurn := Table.mod (0, 0) f.reqTurn (turnKey p (classPrio s c)) (fun x =>
        if x.1 = c ∧ x.2 < clsWeight s c then (c, x.2 + 1) else (c, 1)) }) s

/-- One REQ message leaves the fabric and reaches its home (R106). -/
def landReq (m : Msg) (s : State) : State := driveLine m.line (reqArrive m (onFab (fun x => { x with req := x.req.erase m }) (reqSent m s)))

/-- Place of a tile in the order of a tie (R116). -/
def tiePlace (n start t : Nat) : Nat := (t + n - start % max 1 n) % max 1 n

/-- Requests that reach one line queue in the same cycle, in the order of R116. -/
def tieOrder (n start : Nat) (l : List Msg) : List Msg := (List.range n).flatMap (fun p => l.filter (fun m => tiePlace n start m.src = p))

/-- The requests for a line that reach its home in the same cycle as another: one from each other port, sent by its port now (R116, R314). -/
def tiedWith (m : Msg) (tied : List TileId) (s : State) : List Msg :=
  let named := (tied.map (·.val)).eraseDups.filterMap (fun t => if t = m.src then none else reqOf s t m.line)
  (named.filter (fun x => reqMay s x)).foldl (fun l x => if (m :: l).any (fun y => reqPort s y = reqPort s x) then l else l ++ [x]) []

/-- A request reaches its home, with those that reach it in the same cycle (R106, R116), where its fabric port sends it now (R314). The requests of a tie land one
after another (DESIGN CHOICE, log 155). -/
def onReq (op : Op) (src line : Nat) (tied : List TileId) (s : State) : State :=
  match (reqOf s src line).filter (fun m => m.op = op) with
  | none => s
  | some m =>
    if !engineUp s m.dst || !reqMay s m then s
    else
      let others := tiedWith m tied s
      let order := tieOrder (tiles s) (Table.get 0 s.ha.lastTie m.dst) (m :: others)
      let s1 := match others, order with
        | [], _ => s
        | _, [] => s
        | _, w :: _ => onHa (fun h => { h with lastTie := Table.set 0 h.lastTie m.dst (w.src + 1) }) s
      settle (order.foldl (fun s m => landReq m s) s1)

/-- RD_SHARED (R107). -/
def execRdShared (src : TileId) (line : LineAddr) (tied : List TileId) (s : State) : Host.Outcome State Fault Refusal :=
  .next (onReq .rdShared src.val line.toNat tied s)

/-- RD_OWN (R107). -/
def execRdOwn (src : TileId) (line : LineAddr) (tied : List TileId) (s : State) : Host.Outcome State Fault Refusal :=
  .next (onReq .rdOwn src.val line.toNat tied s)

/-- RD_CUR (R107). -/
def execRdCur (src : TileId) (line : LineAddr) (tied : List TileId) (s : State) : Host.Outcome State Fault Refusal :=
  .next (onReq .rdCur src.val line.toNat tied s)

/-- WR_LINE (R107). -/
def execWrLine (src : TileId) (line : LineAddr) (tied : List TileId) (s : State) : Host.Outcome State Fault Refusal :=
  .next (onReq .wrLine src.val line.toNat tied s)

/-- WR_PART (R107). -/
def execWrPart (src : TileId) (line : LineAddr) (tied : List TileId) (s : State) : Host.Outcome State Fault Refusal :=
  .next (onReq .wrPart src.val line.toNat tied s)

/-- HOST_CE (R108). -/
def execHostCe (src : TileId) (line : LineAddr) (tied : List TileId) (s : State) : Host.Outcome State Fault Refusal :=
  .next (onReq .hostCe src.val line.toNat tied s)

/-- FAR_ATOM (R142). -/
def execFarAtom (src : TileId) (line : LineAddr) (tied : List TileId) (s : State) : Host.Outcome State Fault Refusal :=
  .next (onReq .farAtom src.val line.toNat tied s)

/-- SNP_INV (R100). -/
def execSnpInv (t home : TileId) (s : State) : Host.Outcome State Fault Refusal :=
  .next (onHom t.val home.val .snpInv (snoop t.val) s)

/-- SNP_SHARE (R100). -/
def execSnpShare (t home : TileId) (s : State) : Host.Outcome State Fault Refusal :=
  .next (onHom t.val home.val .snpShare (snoop t.val) s)

/-- SNP_OWN (R100). -/
def execSnpOwn (t home : TileId) (s : State) : Host.Outcome State Fault Refusal :=
  .next (onHom t.val home.val .snpOwn (snoop t.val) s)

/-- SNP_CUR (R100). -/
def execSnpCur (t home : TileId) (s : State) : Host.Outcome State Fault Refusal :=
  .next (onHom t.val home.val .snpCur (snoop t.val) s)

/-- DAT_S (R101). -/
def execDatS (t home : TileId) (s : State) : Host.Outcome State Fault Refusal :=
  .next (onHom t.val home.val .datS (homMsg t.val) s)

/-- DAT_E (R101). -/
def execDatE (t home : TileId) (s : State) : Host.Outcome State Fault Refusal :=
  .next (onHom t.val home.val .datE (homMsg t.val) s)

/-- DAT_X (R101). -/
def execDatX (t home : TileId) (s : State) : Host.Outcome State Fault Refusal :=
  .next (onHom t.val home.val .datX (homMsg t.val) s)

/-- GRANT (R101). -/
def execGrant (t home : TileId) (s : State) : Host.Outcome State Fault Refusal :=
  .next (onHom t.val home.val .grant (homMsg t.val) s)

/-- FWD_NOTE (R101). -/
def execFwdNote (t home : TileId) (s : State) : Host.Outcome State Fault Refusal :=
  .next (onHom t.val home.val .fwdNote (homMsg t.val) s)

/-- WB_ACK (R101). -/
def execWbAck (t home : TileId) (s : State) : Host.Outcome State Fault Refusal :=
  .next (onHom t.val home.val .wbAck (homMsg t.val) s)

/-- CMP (R97, R111). -/
def execCmp (t home : TileId) (s : State) : Host.Outcome State Fault Refusal :=
  .next (onHom t.val home.val .cmp (cmpMsg t.val) s)

/-- BISNP_REQ (R110, R52). -/
def execBiSnpReq (t home : TileId) (s : State) : Host.Outcome State Fault Refusal :=
  .next (onHom t.val home.val .biSnpReq (biSnpMsg t.val) s)

/-- BI_ACK_REQ (R112). -/
def execBiAckReq (t home : TileId) (s : State) : Host.Outcome State Fault Refusal :=
  .next (onHom t.val home.val .biAckReq (biAckMsg) s)

/-- ATOM_RES (R142, R146). -/
def execAtomRes (t home : TileId) (s : State) : Host.Outcome State Fault Refusal :=
  .next (onHom t.val home.val .atomRes (homMsg t.val) s)

/-- SNP_RSP_I (R106). -/
def execSnpRspI (t home : TileId) (s : State) : Host.Outcome State Fault Refusal :=
  .next (onRsp t.val home.val .snpRspI snoopAnswer s)

/-- SNP_RSP_I_DATA (R106, R107). -/
def execSnpRspIData (t home : TileId) (s : State) : Host.Outcome State Fault Refusal :=
  .next (onRsp t.val home.val .snpRspIData snoopAnswer s)

/-- SNP_RSP_FWD (R107, R109). -/
def execSnpRspFwd (t home : TileId) (s : State) : Host.Outcome State Fault Refusal :=
  .next (onRsp t.val home.val .snpRspFwd snoopAnswer s)

/-- SNP_RSP_FWD_S (R107, R109). -/
def execSnpRspFwdS (t home : TileId) (s : State) : Host.Outcome State Fault Refusal :=
  .next (onRsp t.val home.val .snpRspFwdS snoopAnswer s)

/-- WB_DATA (R106, R115). -/
def execWbData (t home : TileId) (s : State) : Host.Outcome State Fault Refusal :=
  .next (onRsp t.val home.val .wbData wbArrive s)

/-- BI_RSP_FWD (R106, R110). -/
def execBiRspFwd (t home : TileId) (s : State) : Host.Outcome State Fault Refusal :=
  .next (onRsp t.val home.val .biRspFwd biRspArrive s)

/-- HOST_WB (R106, R111). -/
def execHostWb (t home : TileId) (s : State) : Host.Outcome State Fault Refusal :=
  .next (onRsp t.val home.val .hostWb hostWbArrive s)

/-- BI_CONFLICT_FWD (R112). -/
def execBiConflictFwd (t home : TileId) (s : State) : Host.Outcome State Fault Refusal :=
  .next (onRsp t.val home.val .biConflictFwd biConflictArrive s)

/-- FDAT_S (R99, R101). -/
def execFdatS (t : TileId) (line : LineAddr) (s : State) : Host.Outcome State Fault Refusal :=
  .next (onFwd t.val line.toNat .fdatS s)

/-- FDAT_E (R99, R101). -/
def execFdatE (t : TileId) (line : LineAddr) (s : State) : Host.Outcome State Fault Refusal :=
  .next (onFwd t.val line.toNat .fdatE s)

/-- FDAT_M (R99, R101). -/
def execFdatM (t : TileId) (line : LineAddr) (s : State) : Host.Outcome State Fault Refusal :=
  .next (onFwd t.val line.toNat .fdatM s)

/-- FDAT_X (R97, R101). -/
def execFdatX (t : TileId) (line : LineAddr) (s : State) : Host.Outcome State Fault Refusal :=
  .next (onFwd t.val line.toNat .fdatX s)

/-- The answer that a line's waiting read gets (R250, R254, R255). -/
inductive PkOut where
  | val (v : LVal)
  | err
deriving DecidableEq, Repr

/-- A waiting read of a packed line goes on with its line (R251). -/
def giveLine (line : Nat) (o : PkOut) (s : State) : State :=
  let k := getTxn s line
  if !k.live || !k.media then s
  else driveLine line (match o with
    | .val v => onTxn line (fun k => { k with media := false, val := some v }) s
    | .err => onTxn line (fun k => { k with media := false, fail := true }) s)

/-- Every read that waits for a block gets the same answer. -/
def giveAll (r : Region) (block : Nat) (o : PkOut) (s : State) : State :=
  (List.range (2 ^ r.blkLog / 64)).foldl (fun s i => giveLine (blockLine r block + i) o s) s

def dropDec (region block : Nat) (s : State) : State :=
  onPk (fun p => { p with decs := p.decs.filter (fun d => ¬(d.region = region ∧ d.block = block)) }) s

/-- Give each line that waits for a block the answer of its map entry, and end the block's read (R251, R254). -/
def giveEntry (r : Region) (b : Nat) (e : MapEnt) (s : State) : State :=
  (List.range (2 ^ r.blkLog / 64)).foldl (fun s i =>
    let l := blockLine r b + i
    match entryVal l e with | some v => giveLine l (.val v) s | none => s) (dropDec r.idx b s)

/-- What becomes of the reads of a block whose map line has been read as `m` (R250, R251, R255): `mbad` names its uncorrectable words. -/
def mapEnd (r : Region) (t b : Nat) (mbad : List Nat) (m : StoreOut) (s : State) : State :=
  let idx := b >>> tileBits s
  match m with
  | .err => giveAll r b .err (dropDec r.idx b s)
  | .bad =>
    let s1 := mapLineLost r t (idx / 4) (some idx) (if mbad.isEmpty then [8] else mbad) s
    giveAll r b (.val poisonVal) (dropDec r.idx b s1)
  | .data _ =>
    let e := getMap s t r.idx idx
    let s1 := cacheMap t r.idx idx s
    if e.fmt = 1 then takeDecomp r t b s1 else giveEntry r b e (if e.fmt = 3 then poisonBlock r b .map s1 else s1)

/-- The uncorrectable words of the map line of map index `idx`, as it is read (R250). -/
def mapBad (s : State) (r : Region) (t idx : Nat) (flips : Flips) : List Nat :=
  match storeGet s r t 2 (idx / 4) with
  | some x =>
    let (_, f, i) := storeAt s r t 2 (idx / 4)
    (checkRec (storeFold s r t 2 (idx / 4)) (if drFromMedium s t (64 * f + i) then flipRec x flips else x)).bad
  | none => []

/-- A map line's read is with the DRAM controller: in its read queue, at the medium, or answered by its write queue (R156). -/
def mapQueued (s : State) (r : Region) (t idx : Nat) : Bool :=
  let (_, f, i) := storeAt s r t 2 (idx / 4)
  drFromMedium s t (64 * f + i) || (match subOf s t (64 * f + i) with | some d => inQueue (64 * f + i) (getSub s d).wq | none => false)

/-- The map line of the block that holds packed line `l` arrives (R251 step 4): for a block whose map entry is being read. A line that another block's
read has taken is asked for again. -/
def mapArrive (r : Region) (l : Nat) (flips : Flips) (s : State) : State :=
  let bo := blockOf s r l
  match decOf s r.idx bo.block with
  | none => s
  | some d =>
    if !d.mapWait then s
    else if storeLost s r bo.tile 2 (bo.idx / 4) then giveAll r bo.block .err (dropDec r.idx bo.block s)
    else if (storeGet s r bo.tile 2 (bo.idx / 4)).isNone || !mapQueued s r bo.tile bo.idx then storeAsk r bo.tile 2 (bo.idx / 4) (decPrio s d) s
    else
      let bad := mapBad s r bo.tile bo.idx flips
      let (m, s1) := storeRead r bo.tile 2 (bo.idx / 4) flips {} s
      mapEnd r bo.tile bo.block bad m s1

/-- A transaction's media read is for its record: not for the other lines of an overflowing page (R291). -/
def readsOwn (s : State) (line : Nat) (k : Txn) : Bool :=
  k.metaWait || (match k.req with
    | some m => lacksVal s line m k || (k.fail && k.val.isNone && k.raw.isNone)
    | none => k.val.isNone && k.raw.isNone)

/-- MEDIA_READ_DATA (R106, R174, R175, R178): the record is checked, and the transaction goes on. With no media read outstanding it is impossible; it is
no Koist message, so the fault's opcode field reads 0xFF (log 119). A packed line has no record: what its read brings is the block's map line (R251). -/
def execMediaReadData (line : LineAddr) (flips : Flips) (shadow : ShadowFlips) (s : State) : Host.Outcome State Fault Refusal :=
  let l := line.toNat
  let k := getTxn s l
  match regionAt s (64 * l) with
  | none => .next s
  | some r =>
    if !engineUp s (homeOf s l) then .next s
    else if r.typ = .packed then .next (settle (mapArrive r l flips s))
    else if !k.live || !k.media then .next (settle (protoAt (homeOf s l) l (0xFF + 256 * homeOf s l) s))
    else if lineLost s l then .next (settle (driveLine l (onTxn l (fun k => { k with media := false, metaWait := false, fail := !k.evict, spoil := false }) s)))
    else if readsOwn s l k then
      match takeLine l flips (match k.req with | some m => whoOf m.attr | none => {}) s with
      | none => .next s
      | some (x, lost, s1) => .next (settle (driveLine l (takeMedia l r x lost shadow s1)))
    else if pageReady s l then .next (settle (driveLine l (onTxn l (fun k => { k with media := false }) s)))
    else .next s

/-- A line's write has got its slot: its transaction goes on (R201). A write-back that waits is taken by LINE_QUEUE_SERVE. -/
def slotGiven (line : Nat) (s : State) : State :=
  if (getTxn s line).live && (getTxn s line).media then settle (driveLine line (onTxn line (fun k => { k with media := false }) s)) else s

/-- ABSORB_SLOT_FREED (R201): the oldest waiting write takes a slot. -/
def execAbsorbSlotFreed (t : TileId) (s : State) : Host.Outcome State Fault Refusal :=
  let rec_ := s.nvm.slotWait.find? (fun w => decide (w.tile = t.val))
  let line := s.nvm.lineWait.find? (fun w => decide (homeOf s w.1 = t.val))
  let ready (f i : Nat) : Bool := (slotUp s t.val f i).isSome || ((getSlot s t.val f (i / 4)).isNone && (freeSlot s t.val).isSome)
  let first := match rec_, line with
    | some w, some l => decide (w.at_ ≤ l.2)
    | some _, none => true
    | none, _ => false
  match first, rec_, line with
  | true, some w, _ =>
    if ready w.frame w.i then
      .next (absStore t.val w.frame w.i w.r w.prio (openSlot t.val w.frame w.i (onNvm (fun x => { x with slotWait := x.slotWait.erase w }) s)))
    else .next s
  | _, _, some l =>
    let s1 := onNvm (fun x => { x with lineWait := x.lineWait.erase l }) s
    match writeAt s l.1 with
    | some (true, f) => if ready f (l.1 % 64) then .next (slotGiven l.1 (openSlot t.val f (l.1 % 64) s1)) else .next s
    | _ => .next (slotGiven l.1 s1)
  | _, _, _ => .next s

/-- ABSORB_STALL (R201): a write has waited longer than 10 µs for a slot. -/
def execAbsorbStall (t : TileId) (s : State) : Host.Outcome State Fault Refusal :=
  .next (if slotQueue s t.val then addCnt (tileCnt t.val 467) 1 s else s)

/-- Write-backs that waited are applied first (R106). -/
def applyWbs (line : Nat) (s : State) : State :=
  (Table.get [] s.ha.wbuf line).foldl (fun s m => wbArrive m s) (onHa (fun h => { h with wbuf := Table.set [] h.wbuf line [] }) s)

/-- LINE_QUEUE_SERVE (R106, R122): waiting write-backs, then the oldest request of the line. -/
def execLineQueueServe (line : LineAddr) (s : State) : Host.Outcome State Fault Refusal :=
  let l := line.toNat
  if !engineUp s (homeOf s l) || lineHeld s l then .next s
  else
    let s1 := applyWbs l s
    if !(Table.get [] s1.ha.wbuf l).isEmpty then .next s1
    else match getLq s1 l with
      | [] => .next (settle (driveLine l s1))
      | m :: rest => .next (settle (driveLine l (beginReq l m (setLq l rest s1))))

/-- BISNP_TIMEOUT (R113): as if BIRspI had arrived; a line the head may have held dirty is poisoned. -/
def execBisnpTimeout (line : LineAddr) (h : PortId) (s : State) : Host.Outcome State Fault Refusal :=
  let l := line.toNat
  match (getTxn s l).bis.find? (fun b => b.1 = h.val) with
  | none => .next s
  | some b =>
    if !engineUp s (homeOf s l) then .next s
    else .next (settle (driveLine l (raiseTile (homeOf s l) .haBiTimeout h.val (biFailure h.val l (endBis l h.val b.2.1 .i b.2.2.2 s)))))

/-- Open ways of a set whose entries are being evicted. -/
def evictingWays (s : State) (t set : Nat) : Nat := ((openWays s t).filter (wayEvicting s t set)).length

/-- DIR_EVICTION_START (R117, R118, R119, R120): the victim of a waiting miss, or an entry that must leave way 15. -/
def execDirEvictionStart (line : LineAddr) (s : State) : Host.Outcome State Fault Refusal :=
  let l := line.toNat
  let t := homeOf s l
  let set := dirSet s l
  match dirWay s l with
  | none => .next s
  | some w =>
    let guest15 := reservedWay s t && decide (w = 15) && !(getDir s t set 15).guest && (emptyWay s t set).isNone
    let victim := decide (victimWay s t set = some w) && (emptyWay s t set).isNone && decide (evictingWays s t set < (waiters s t set).length + b2n (reservedWay s t && (getDir s t set 15).guest))
    if !engineUp s t || (getTxn s l).live || wayHeld s t set w || decide (64 ≤ (evictions s t).length) || !(guest15 || (victim && !(waiters s t set).isEmpty)) then .next s
    else
      -- the miss that found way 15 occupied takes the way that its victim leaves (R118)
      let s1 := beginEvict l s
      .next (settle (driveLine l (if !guest15 && reservedWay s t && (getDir s t set 15).v then onTxn l (fun k => { k with claimed := true }) s1 else s1)))

/-- DEFERRED_MISS_SEND (R130, R331): a request that waited for an eviction buffer, for a tracker of its home, or for its turn of the shared pool, is sent. -/
def execDeferredMissSend (t : TileId) (line : LineAddr) (s : State) : Host.Outcome State Fault Refusal :=
  let k := getTrk s t.val line.toNat
  .next (if engineUp s t.val && k.live && k.unsent then settle (runLine t.val line.toNat (launch t.val line.toNat s)) else s)

/-- REQ_AGE_LIMIT (R314): a message that has waited 2 µs at an output port of its path is sent next, whatever its class, and counted. -/
def execReqAgeLimit (t : TileId) (src : TileId) (line : LineAddr) (s : State) : Host.Outcome State Fault Refusal :=
  match reqOf s src.val line.toNat with
  | none => .next s
  | some m => .next (if engineUp s t.val && (route s m.src m.dst).dropLast.contains t.val then
      addCnt (tileCnt t.val 479) 1 (onFab (fun f => { f with req := f.req.map (fun x => if x = m then { x with aged := true } else x) }) s)
    else s)

end Sys2Proof.Machine
end

