-- ==== Sys2Proof/Machine/Link.lean ====
section
/-!
DEFINITION. Host links (R37–R39, R46, R47, R49–R53): training, readiness, PERST_N and the events that act like it.
-/
namespace Sys2Proof.Machine

/-- The host side of head `h` works: its tile runs, the block of its port quad is out of reset, and there is no Midnight (R40, R352). -/
def headLive (s : State) (h : Nat) : Bool := tileRuns s (portTile h) && blockUp s (portTile h) (h % 8 / 4) && isHead s h && !midnight s

/-- The flit mode and rate go together (R38). -/
def flitOk (r : Rate) (f : FlitMode) : Bool :=
  match r, f with
  | .g8, .f68 | .g16, .f68 | .g32, .f68 => true
  | .g32, .f256 | .g32, .f256lo | .g64, .f256 | .g64, .f256lo => true
  | _, _ => false

/-- A trained width: a power of two up to the head's lanes (R39). -/
def widthOk (s : State) (h w : Nat) : Bool := [1, 2, 4, 8, 16].contains w && decide (w ≤ headLanes s h)

/-- A rate in tenths of GT/s, as admission counts it. -/
def rate10 : Rate → Nat | .down => 0 | .g2_5 => 25 | .g8 => 80 | .g16 => 160 | .g32 => 320 | .g64 => 640

/-- LINK_UP (R37–R39, R46, R47, R328): the link reaches L0. The BI channel runs on an SLD head with 256 B flits; a head below what it was admitted at
starts a re-evaluation. -/
def execLinkUp (h : PortId) (rate : Rate) (width : Nat) (flit : FlitMode) (switch : Bool) (s : State) : Host.Outcome State Fault Refusal :=
  let p := getPort s h.val
  if !headLive s h.val || p.up || p.perst || p.midnightStop || !flitOk rate flit || !widthOk s h.val width then .next s
  else
    let mld := isMld s h.val
    let bi := !mld && decide (flit ≠ .f68)
    let s1 := onPort h.val (fun p => { p with up := true, rate := rate, width := width, flit := flit, bi := bi, training := false, detect := false,
                                              asSld := mld && !switch }) s
    let s2 := if !mld && !bi then eventHead h.val ⟨.warning, .biOff⟩ s1 else s1
    let s3 := if mld && !switch then eventHead h.val ⟨.warning, .mldWithoutSwitch⟩ s2 else s2
    let adm := Table.get (0, 0) s.qos.links h.val
    .next (if width < adm.1 ∨ rate10 rate < adm.2 then reevaluate 0xFFFF s3 else s3)

/-- CXL_NEGOTIATION_FAIL (R37): the link stays in Detect. -/
def execCxlNegotiationFail (h : PortId) (s : State) : Host.Outcome State Fault Refusal :=
  if !headLive s h.val || (getPort s h.val).up || (getPort s h.val).perst then .next s
  else .next (raiseTile (portTile h.val) .hpNegFail h.val (eventHead h.val ⟨.warning, .negotiationFailed⟩
    (onPort h.val (fun p => { p with detect := true, training := false }) s)))

/-- HEAD_READY (R49, R50): primary firmware marks a head ready, from the end of Dawn 3. -/
def execHeadReady (h : PortId) (s : State) : Host.Outcome State Fault Refusal :=
  .next (if headLive s h.val && primaryRuns s && (getPort s h.val).up then onPort h.val (fun p => { p with ready := true }) s else s)

/-- An operation's head has been reset: its response is discarded (R52). -/
def muteAttr (h : Nat) (a : Attr) : Attr := if a.kind = 0 ∧ a.head = h then { a with mute := true } else a

def muteOp (h : Nat) : WOp → WOp
  | .hostRd a tag hk mv db => .hostRd (muteAttr h a) tag hk mv db
  | .hostWr a tag mv db mask full v => .hostWr (muteAttr h a) tag mv db mask full v
  | .hostEvict a tag => .hostEvict (muteAttr h a) tag
  | .atom a tag o far => .atom (muteAttr h a) tag o far
  | .poisonCmd f clear v => .poisonCmd (if f / 32 = h then abandonedFn else f) clear v
  | w => w

/-- Every request of the head that has arrived completes inside the device, and its response is discarded (R52). -/
def muteHead (h : Nat) (s : State) : State :=
  let msg (m : Msg) : Msg := { m with attr := muteAttr h m.attr }
  let s1 := onNc (fun n => { n with ops := n.ops.map (fun e => (e.1, e.2.map (muteOp h))) }) s
  let s2 := onFab (fun f => { f with req := f.req.map msg, hom := f.hom.map msg, rsp := f.rsp.map msg, fwd := f.fwd.map msg }) s1
  onQos (fun q => { q with hold := q.hold.map (fun e => (e.1, e.2.map (fun x => { x with op := muteOp h x.op }))) }) s2

/-- Write-backs and BISnp answers of the head that have arrived are applied before its snoops end (R52). -/
def flushHead (h : Nat) (s : State) : State :=
  let mine (m : Msg) : Bool := decide (m.attr.head = h) && (decide (m.op = .hostWb) || decide (m.op = .biRspFwd))
  (s.fab.rsp.filter mine).foldl (fun s m => if m.op = .hostWb then hostWbArrive m s else biRspArrive m s)
    (onFab (fun f => { f with rsp := f.rsp.filter (fun m => !mine m), hom := f.hom.filter (fun m => ¬(m.op = .biSnpReq ∧ m.attr.head = h)) }) s)

/-- Entries that name the head as E holder become I (R114). -/
def dropHolder (h : Nat) (s : State) : State :=
  let f (e : DirEnt) : DirEnt :=
    let keep := match regionAt s (64 * e.line) with | some r => decide (r.typ ≠ .packed) | none => false
    if e.v ∧ e.hst = .e ∧ e.holder = h then { e with hst := .i, holder := 0, mdirty := keep } else e
  onHa (fun x => { x with dir := Table.mapAll {} (fun _ e => f e) x.dir }) s

/-- The head's functions return to their reset values; event logs are kept, a command in progress is abandoned, and sessions end (R52, R355). -/
def resetFns (h : Nat) (s : State) : State :=
  let s1 := onHost (fun x => { x with
    clearing := x.clearing.map (fun k => if k / 32 = h then abandonedFn else k)
    fns := Table.mapAll {} (fun k f => if k / 32 = h then { events := f.events, evOver := f.evOver, alerts := f.alerts } else f) x.fns
    sessions := Table.keep (fun _ y => match y with | some z => decide (z.head ≠ h) | none => false) x.sessions }) s
  if h = mgmtHead s ∧ s.flash.busy.isSome then onHost (fun x => { x with bg := none }) (onFlash (fun f => { f with busy := none }) s1) else s1

/-- The effect of R52 on one head. -/
def linkReset (h : Nat) (train : Bool) (s : State) : State :=
  let s1 := onPort h (fun p => { p with up := false, rate := .down, width := 0, flit := .none, bi := false, asSld := false, ready := false,
                                        training := train }) s
  settle (resetFns h (muteHead h (dropHolder h (dropBis h (flushHead h s1)))))

/-- Ports of the head take PERST_SEEN (HP_PORT_STS). -/
def perstSeen (h : Nat) (s : State) : State :=
  (List.range 4).foldl (fun s i => let p := 4 * (h / 4) + i; if headOf s p = h then raiseBit .hpPortSts p 13 s else s) s

/-- PERST_N_ASSERT (R51–R53): qualified. Only the ball of a head's lowest port acts; before the head is ready it holds the link down. In reset and
after Midnight only the ball's level changes. -/
def execPerstNAssert (p : PortId) (s : State) : Host.Outcome State Fault Refusal :=
  let s0 := onRst (fun r => { r with perstLow := setBit r.perstLow p.val true }) s
  if !running s || midnight s || !isHead s p.val then .next s0
  else
    let s1 := onPort p.val (fun x => { x with perst := true }) (perstSeen p.val s0)
    if (getPort s p.val).ready || dawnDone s then .next (linkReset p.val false s1)
    else .next (onPort p.val (fun x => { x with up := false, rate := .down, width := 0, flit := .none, bi := false, training := false }) s1)

/-- PERST_N_RELEASE (R52): training starts within 20 ms. -/
def execPerstNRelease (p : PortId) (s : State) : Host.Outcome State Fault Refusal :=
  let s0 := onRst (fun r => { r with perstLow := setBit r.perstLow p.val false }) s
  .next (if (getPort s p.val).perst && running s && !midnight s then onPort p.val (fun x => { x with perst := false, training := headLive s p.val }) s0
    else s0)

/-- An event on a link that is up has the effect of R52 on its head (R53). -/
def linkEvent (h : Nat) (s : State) : State := if headLive s h && (getPort s h).up then linkReset h true s else s

/-- HOT_RESET (R53). -/
def execHotReset (h : PortId) (s : State) : Host.Outcome State Fault Refusal := .next (linkEvent h.val s)

/-- LINK_DISABLE (R53). -/
def execLinkDisable (h : PortId) (s : State) : Host.Outcome State Fault Refusal := .next (linkEvent h.val s)

/-- SECONDARY_BUS_RESET (R53): it reaches every LD of the head. -/
def execSecondaryBusReset (h : PortId) (s : State) : Host.Outcome State Fault Refusal := .next (linkEvent h.val s)

/-- SURPRISE_LINK_DOWN (R53): HP_LINK_DOWN besides. -/
def execSurpriseLinkDown (h : PortId) (s : State) : Host.Outcome State Fault Refusal :=
  .next (if headLive s h.val && (getPort s h.val).up then raiseTile (portTile h.val) .hpLinkDown h.val (linkEvent h.val s) else s)

/-- The features of R41 that a function has: AER and DOE; every other one is absent, and so is its capability structure. -/
def hasCap : CfgCap → Bool
  | .aer | .doe => true
  | .msi | .msix | .ats | .pri | .pasid | .sriov | .ptm | .ltr | .obff | .ide | .tsp | .flr | .cxlReset | .aspm => false

/-- Memory_Active_Timeout, in seconds (R49). -/
def memActiveTimeout : Nat := 16

/-- A base address register as it reads (R419): two 64-bit, non-prefetchable memory BARs, of 128 MiB and 4 MiB; no other is implemented. -/
def barReg (f : FnSt) (i : Nat) : W32 :=
  match i with
  | 0 => (f.bar0.setWidth 32 &&& 0xF8000000#32) ||| 4#32
  | 1 => (f.bar0 >>> 32).setWidth 32
  | 2 => (f.bar2.setWidth 32 &&& 0xFFC00000#32) ||| 4#32
  | 3 => (f.bar2 >>> 32).setWidth 32
  | _ => 0#32

/-- One half of a 64-bit register; the other half keeps its value (R426). -/
def halfSet (old : W64) (hi : Bool) (v : W32) : W64 :=
  if hi then (old &&& 0xFFFFFFFF#64) ||| (v.zeroExtend 64 <<< 32) else (old &&& 0xFFFFFFFF00000000#64) ||| v.zeroExtend 64

/-- A write of a base address register (R419). -/
def setBar (i : Nat) (v : W32) (f : FnSt) : FnSt :=
  match i with
  | 0 => { f with bar0 := halfSet f.bar0 false v }
  | 1 => { f with bar0 := halfSet f.bar0 true v }
  | 2 => { f with bar2 := halfSet f.bar2 false v }
  | 3 => { f with bar2 := halfSet f.bar2 true v }
  | _ => f

/-- What a configuration request writes: a base address register. -/
def cfgWrite (h ld : Nat) (q : CfgReq) (s : State) : State :=
  match q with
  | .setBar i v => onFn (fnKey h ld false) (setBar i.val v) s
  | _ => s

/-- What a configuration request returns (R41, R49, R54, R55, R419, R420): none where the spec gives the register no content. The device stays in D0, so a
write of the power state is ignored. -/
def cfgValue (s : State) (h ld : Nat) : CfgReq → Option Nat
  | .capability c => some (b2n (hasCap c))
  | .interruptPin => some 0
  | .powerState => some 0
  | .setPowerState _ => none
  | .memActiveTimeout => some memActiveTimeout
  | .memActive => some (b2n s.dawn.memActive)
  | .doeReady => some (b2n (decide ((getFn s (fnKey h ld false)).doe ≠ .none)))
  | .doeInterrupt => some 0
  | .registerBlock i => some (if i.val = 0 then 0x00000000 else 0x00010000)
  | .bar i => some (barReg (getFn s (fnKey h ld false)) i.val).toNat
  | .setBar _ _ => none
  | .other => none

/-- CONFIGURATION_REQUEST (R41, R49): RRS until the head is ready. -/
def execConfigurationRequest (h : PortId) (ld : LdId) (req : CfgReq) (s : State) : Host.Outcome State Fault Refusal :=
  let p := getPort s h.val
  .next (if !headLive s h.val || !p.up then s
    else if !p.ready then send h.val .rrs s
    else if ld.val < ldCount s h.val then send h.val (.cfgCpl (cfgValue s h.val ld.val req)) (cfgWrite h.val ld.val req s)
    else send h.val (.cpl .unsupported 0#64) s)

/-- LINK_ENTRY_TO_RECOVERY (R413): a link leaves L0 into Recovery. -/
def execLinkEntryToRecovery (h : PortId) (s : State) : Host.Outcome State Fault Refusal :=
  .next (if headLive s h.val && (getPort s h.val).up then addCnt (portCnt h.val 11) 1 s else s)

end Sys2Proof.Machine
end

