-- ==== Sys2Proof/Machine/Clocks.lean ====
section
/-!
DEFINITION. Clock-good and block resets (R349, R351, R352).
-/
namespace Sys2Proof.Machine

/-- The RST_CLK_STS bit of the clock that RST_BLK_CTL bit `b` waits for (R352). -/
def clkBit (b : Nat) : Nat := if b ≤ 4 then b else 6

def clkGood (s : State) (t c : Nat) : Bool := (Table.get 0#7 s.clk.good t).getLsbD c

/-- Blocks whose bit reads 0 and whose clock is good are released; a bit that reads 1 holds its block; a block that lost its clock stays in reset
(R352). -/
def releaseBlocks (t : Nat) (s : State) : State :=
  let ctl := regRaw s .rstBlkCtl t
  let old := Table.get 0#10 s.clk.released t
  let lost := Table.get 0#10 s.clk.lost t
  let rel := (List.range 10).foldl (fun w b =>
    setBit w b (!bit ctl b && !lost.getLsbD b && (old.getLsbD b || clkGood s t (clkBit b)))) 0#10
  onClk (fun k => { k with released := Table.set 0#10 k.released t rel }) s

/-- A write to RST_BLK_CTL[t]. -/
def writeRst (t : Nat) (v : W32) (s : State) : State := releaseBlocks t (writeReg .rstBlkCtl t v s)

/-- RST_BLK_CTL_WRITE (R352, R353, R424). -/
def execRstBlkCtlWrite (a : Agent) (t : TileId) (v : W32) (s : State) : Host.Outcome State Fault Refusal :=
  .next (if regOpen s a .rstBlkCtl t.val then writeRst t.val v s else s)

/-- CLOCK_GOOD (R349, R352): the clock is good, and a release that waited for it takes effect; with its fabric and management clocks good the tile
runs (log 13). -/
def execClockGood (t : TileId) (b : Fin 7) (s : State) : Host.Outcome State Fault Refusal :=
  if !running s || !hasTile s t.val || !s.sv.tilesGood.getLsbD t.val then .next s
  else
    let s1 := onClk (fun k => { k with good := Table.mod 0#7 k.good t.val (fun w => setBit w b.val true) }) s
    let up := clkGood s1 t.val 6 && clkGood s1 t.val 5
    .next (releaseBlocks t.val (onClk (fun k => { k with running := setBit k.running t.val (k.running.getLsbD t.val || up) }) s1))

/-- A surprise link-down of every head of a port quad (R352, R53). -/
def loseQuad (t q : Nat) (s : State) : State :=
  (List.range 4).foldl (fun s i =>
    let h := 8 * t + 4 * q + i
    if headLive s h && (getPort s h).up then raiseTile t .hpLinkDown h (linkReset h false s) else s) s

/-- What a block takes with it when its clock is lost (R352, R53, R178, R192). -/
def loseBlock (t b : Nat) (s : State) : State :=
  if b < 2 then loseQuad t b s
  else if b < 4 then (List.range 4).foldl (fun s c => loseChannel t (4 * (b - 2) + c) .phy 6 s) s
  else if b = 4 then (List.range 40).foldl (fun s l => nlDown (40 * t + l) .retry 2 s) s
  else s

/-- CLOCK_GOOD_LOST (R352): before release the release waits again; a released block goes back into reset, with CLK_LOST and RST_CLK_LOST. -/
def execClockGoodLost (t : TileId) (b : Fin 7) (s : State) : Host.Outcome State Fault Refusal :=
  if !running s || !hasTile s t.val || !clkGood s t.val b.val then .next s
  else
    let hit := (bitsOf 10 (Table.get 0#10 s.clk.released t.val)).filter (fun k => clkBit k = b.val)
    let s1 := hit.foldl (fun s k => loseBlock t.val k s) s
    let s2 := onClk (fun k => { k with
      good := Table.mod 0#7 k.good t.val (fun w => setBit w b.val false)
      released := Table.mod 0#10 k.released t.val (fun w => hit.foldl (fun w i => setBit w i false) w)
      lost := Table.mod 0#10 k.lost t.val (fun w => hit.foldl (fun w i => setBit w i true) w) }) s1
    .next (if hit.isEmpty then s2
      else hit.foldl (fun s k => raiseTile t.val .rstClkLost k s) (raiseBit .rstClkSts t.val 7 s2))

end Sys2Proof.Machine
end

