-- ==== Sys2Proof/Machine/Counters.lean ====
section
/-!
DEFINITION. Event counters, the low-half read latch and the bandwidth windows (R412–R414).
-/
namespace Sys2Proof.Machine

/-- The counter at a BAR0 offset: its key and whether the offset is that of the high half (R412). -/
def cntAt (off : Nat) : Option (Nat × Bool) :=
  if 0x05000000 ≤ off ∧ off < 0x05010000 then
    let r := off - 0x05000000
    let i := (r % 0x2000) / 8
    if i < 600 ∧ off % 4 = 0 then some (tileCnt (r / 0x2000) i, decide (r % 8 = 4)) else none
  else if 0x05010000 ≤ off ∧ off < 0x05010200 ∧ off % 4 = 0 then some (svCnt ((off - 0x05010000) / 8), decide (off % 8 = 4))
  else none

/-- Counters of R413: the indices listed; the others read 0. -/
def cntListed (k : Nat) : Bool :=
  if k < 4800 then decide (k % 600 < 480) else decide (k - 4800 < 37)

/-- The head may read the counter (R424): every counter for the management head; its own lowest port's for another head. -/
def mayReadCnt (s : State) (h : Nat) (ld : Nat) (k : Nat) : Bool :=
  (decide (h = mgmtHead s) && decide (ld < ldCount s h)) ||
  (decide (k < 4800) && decide (k % 600 < 96) && decide (8 * (k / 600) + (k % 600) / 12 = h))

/-- A port counter of a port that is not its gang's lowest: it reads 0 (R413). -/
def gangMember (s : State) (k : Nat) : Bool := decide (k < 4800) && decide (k % 600 < 96) && !isHead s (8 * (k / 600) + k % 600 / 12)

/-- The value a read of counter `k` returns: 0 where the index is not listed, the tile absent or the reader has no access (R412, R424). -/
def readCnt (s : State) (h ld k : Nat) : BitVec 48 :=
  if cntListed k && mayReadCnt s h ld k && (decide (4800 ≤ k) || hasTile s (k / 600)) && !gangMember s k then cntVal s k else 0#48

/-- A read of counter `k` completes with Completer Abort (R60, R430): the index is listed, the reader has access, and the counter's tile cannot be
reached, or, for one of SV's, SV's link is down or T0 cannot be reached (R428). -/
def cntAborts (s : State) (h ld k : Nat) : Bool :=
  cntListed k && mayReadCnt s h ld k &&
  (if k < 4800 then hasTile s (k / 600) && (!tileRuns s (k / 600) || cutOff s (portTile h) (k / 600)) else s.link.down || cutOff s (portTile h) 0)

/-- COUNTER_LOW_READ (R412, R426): a naturally aligned 32-bit read of the low half returns it and latches bits [47:32] for that head's next
read of the high half; a read of the high half returns what was latched and uses it up. -/
def execCounterLowRead (h : PortId) (ld : LdId) (off : BitVec 27) (s : State) : Host.Outcome State Fault Refusal :=
  if !isHead s h.val || !(getPort s h.val).up then .next s else
  match cntAt off.toNat with
  | none => .next s
  | some (k, hi) =>
    let v := readCnt s h.val ld.val k
    let f := fnKey h.val ld.val false
    if cntAborts s h.val ld.val k then .next (onFn f (fun q => { q with readData := none }) s) else
    if hi then
      let x : BitVec 16 := match Table.get none s.cnt.latch h.val with
        | some (k', x) => if k' = k then x else BitVec.ofNat 16 (v.toNat >>> 32)
        | none => BitVec.ofNat 16 (v.toNat >>> 32)
      .next (onCnt (fun c => { c with latch := Table.set none c.latch h.val none }) (onFn f (fun q => { q with readData := some (x.zeroExtend 64) }) s))
    else
      .next (onCnt (fun c => { c with latch := Table.set none c.latch h.val (some (k, BitVec.ofNat 16 (v.toNat >>> 32))) })
        (onFn f (fun q => { q with readData := some (BitVec.ofNat 64 (v.toNat % 2 ^ 32)) }) s))

/-- WINDOW_MS as it acts (CNT_WIN_CFG). -/
def windowMs (s : State) (t : Nat) : Nat := clampN 1 10000 (regFld s .cntWinCfg t 13 0)

/-- MB/s of an accumulator: units × 64 × 1,000 ÷ (WINDOW_MS × 10^6), rounded down (R414). -/
def mbps (units ms : Nat) : Nat := units * 64 * 1000 / (ms * 1000000)

/-- The counter keys a tile's window engine accumulates: port counters 2 and 3, and the class counters (R414). -/
def windowKeys (t : Nat) : List Nat :=
  (List.range 8).flatMap (fun l => [tileCnt t (12 * l + 2), tileCnt t (12 * l + 3)]) ++ (List.range 32).map (fun i => tileCnt t (96 + i))

/-- The accumulators of a tile restart (R414). -/
def restartWindow (t : Nat) (c : Counters) : Counters :=
  { c with acc := (windowKeys t).foldl (fun a k => Table.set 0 a k 0) c.acc, discard := setBit c.discard t false }

/-- WINDOW_BOUNDARY (R414): the accumulators are converted and latched together and restart; a window overtaken by a CNT_WIN_CFG write is
discarded without a latch. -/
def execWindowBoundary (t : TileId) (s : State) : Host.Outcome State Fault Refusal :=
  if !tileRuns s t.val || !bit (regRaw s .cntWinCfg t.val) 31 then .next s else
  let ms := windowMs s t.val
  .next (onCnt (fun c =>
    if c.discard.getLsbD t.val then restartWindow t.val c
    else restartWindow t.val { c with
      bw := (windowKeys t.val).foldl (fun b k => Table.set 0#32 b k (BitVec.ofNat 32 (mbps (Table.get 0 c.acc k) ms))) c.bw
      latches := Table.mod 0#32 c.latches t.val (· + 1) }) s)

/-- A write to CNT_WIN_CFG[t] (R414): takes effect at the next boundary, and the window now running is discarded. -/
def writeWinCfg (t : Nat) (v : W32) (s : State) : State :=
  onCnt (fun c => { c with discard := setBit c.discard t true }) (writeReg .cntWinCfg t v s)

/-- CNT_WIN_CFG_WRITE (R414, R424). -/
def execCntWinCfgWrite (a : Agent) (t : TileId) (v : W32) (s : State) : Host.Outcome State Fault Refusal :=
  .next (if regOpen s a .cntWinCfg t.val then writeWinCfg t.val v s else s)

end Sys2Proof.Machine
end

