-- ==== Sys2Proof/Machine/Fill.lean ====
section
/-!
DEFINITION. Fills (R90): marking a range, draining it, taking its pages, and its end.
-/
namespace Sys2Proof.Machine

def getFill (s : State) (n : Nat) : Option Fill := Table.get none s.map.fills n
def setFill (n : Nat) (f : Option Fill) (s : State) : State := onMap (fun m => { m with fills := Table.set none m.fills n f }) s

def fillHas (f : Fill) (line : Nat) : Bool := decide (f.base ≤ 64 * line) && decide (64 * line < f.base + f.len)

/-- The fill units of a range of region `r` (R278): the extent, or at region creation every extent of the region and the rest. -/
def fillUnits (s : State) (f : Fill) : List Nat :=
  match f.ext with
  | some e => [e]
  | none => 0xFFFF :: (List.range s.map.decls.length).filter (fun i => match s.map.decls[i]? with | some d => fillHas f (d.base / 64) | none => false)

/-- The block an ingest part writes (R267): its DPA. -/
def partDst (s : State) (key : Nat) : Option Nat :=
  (getJob s (key / 2 ^ 52) (key / 2 ^ 20 % 2 ^ 32)).bind (fun j => if dType j.desc = 3 then some (dDst j.desc + partOff s j (key % 2 ^ 20)) else none)

/-- Ingest parts that have not reported fail when a fill marks their destination, and release their runs (R269, R273). -/
def failIngest (f : Fill) (s : State) : State :=
  s.job.parts.foldl (fun s e =>
    match e.2, partDst s e.1 with
    | some p, some d =>
      if f.base ≤ d ∧ d < f.base + f.len then
        let s1 := match p.res with | some b => if b.units = 0 then s else freeRun p.tile f.region b.run b.units s | none => s
        onJob (fun x => { x with parts := Table.set none x.parts e.1 (some { addFail true .dataError 0 p with res := none }) }) s1
      else s
    | _, _ => s) s

/-- A commit under way on the range: it has passed ingress (R90 step 2, R273). -/
def commitOn (s : State) (f : Fill) : Bool :=
  s.pk.commits.any (fun c => match getJob s c.ring c.n with
    | some j => (List.range j.parts).any (fun k => let d := dDst j.desc + partOff s j k; decide (f.base ≤ d) && decide (d < f.base + f.len))
    | none => false)

/-- A fill starts (R90 step 1, R278): the range is marked and the fill count of each of its units rises. -/
def startFill (base len region : Nat) (ext : Option Nat) (s : State) : State :=
  let f : Fill := ⟨base, len, region, ext, false, [], 0#8⟩
  onMap (fun m => { m with nextFill := m.nextFill + 1 }) (setFill s.map.nextFill (some f) (failIngest f s))

/-- The fill counts of a fill's units rise once its counters are clear and before any later write (R278, R290). -/
def raiseFills (f : Fill) (s : State) : State :=
  onCry (fun c => { c with fills := (fillUnits s f).foldl (fun t u => Table.mod 0 t (65536 * f.region + u) (· + 1)) c.fills }) s

/-- A line satisfying `p` that something is under way on: an operation or tracker of a tile, an eviction buffer, a message, a transaction, a
waiting request or write-back, a held request, or a walker's lock. -/
def lineActive (s : State) (p : Nat → Bool) : Bool :=
  s.nc.ops.any (fun e => p (e.1 % 2 ^ 42)) || s.nc.trks.any (fun e => e.2.live && p (e.1 % 2 ^ 42)) ||
  s.nc.evb.any (fun e => e.2.isSome && p (e.1 % 2 ^ 42)) ||
  s.fab.req.any (fun m => p m.line) || s.fab.hom.any (fun m => p m.line) || s.fab.rsp.any (fun m => p m.line) || s.fab.fwd.any (fun m => p m.line) ||
  s.ha.txns.any (fun e => e.2.live && p e.1) || s.ha.lq.any (fun e => p e.1) || s.ha.allocQ.any (fun e => e.2.any (fun m => p m.line)) ||
  s.ha.fillQ.any (fun m => p m.line) || s.ha.wbuf.any (fun e => p e.1) || s.ha.walkLock.any (fun e => p e.1) || s.qos.hold.any (fun e => e.2.any (fun m => p m.line))

/-- Pages of the range that still hold something: a frame, a near-cache copy or a directory entry. -/
def pagesLeft (s : State) (f : Fill) : List Nat :=
  let placed := s.place.filterMap (fun e => if fillHas f (64 * e.1) then some e.1 else none)
  let copies := s.nc.slots.filterMap (fun e =>
    let l := ncLine (e.1 / 16 % 65536) e.2.tag
    if e.2.st ≠ .i ∧ fillHas f l then some (pageOf l) else none)
  let ents := s.ha.dir.filterMap (fun e => if e.2.v ∧ fillHas f e.2.line then some (pageOf e.2.line) else none)
  (placed ++ copies ++ ents).eraseDups

/-- The store held for a packed range is emptied (R90 step 4, R246): map entries zero, runs free, counters at version 0. -/
def clearStore (f : Fill) (s : State) : State :=
  match regionOf s f.region with
  | none => s
  | some r =>
    if r.typ ≠ .packed then s
    else
      let mine (k : Nat) : Bool := decide (k / 2 ^ 24 % 1024 = r.idx) && fillHas f (blockLine r (blockAt s r (k / 2 ^ 34) (k % 2 ^ 24)))
      let gone := s.pk.maps.filter (fun e => mine e.1)
      let s1 := gone.foldl (fun s e => if e.2.units = 0 then s else freeRun (e.1 / 2 ^ 34) r.idx e.2.run e.2.units s) s
      let s2 := onPk (fun p => { p with maps := Table.keep (fun k _ => !mine k) p.maps,
                                        decs := p.decs.filter (fun d => ¬(d.region = r.idx ∧ fillHas f (blockLine r d.block)))
                                        mapCache := Table.keep (fun _ v => decide ((v - 1) / 2 ^ 24 ≠ r.idx)) p.mapCache
                                        mapDirty := p.mapDirty.filter (fun e => decide (e.2.1 ≠ r.idx)) }) s1
      if f.ext.isSome then s2
      else onCry (fun c => { c with
        tags := Table.keep (fun k _ => decide (k / 8 / 2 ^ 36 / 32 ≠ r.idx)) c.tags
        lost := c.lost.filter (fun a => decide (a < 2 ^ 63 ∨ a / 2 ^ 53 % 1024 ≠ r.idx))
        nodes := Table.keep (fun k _ => decide ((itemOfKey k).region ≠ r.idx)) c.nodes
        cache := Table.keep (fun k _ => decide ((itemOfKey k).region ≠ r.idx)) c.cache
        roots := Table.keep (fun k _ => decide (k / 32 ≠ r.idx)) c.roots }) s2

/-- A drained fill has ended on a tile: no page of the range homed there is left, and nothing is under way on it. -/
def fillDoneOn (s : State) (f : Fill) (t : Nat) : Bool :=
  (pagesLeft s f).all (fun p => decide (homeOf s (64 * p) ≠ t)) && !lineActive s (fun l => fillHas f l && decide (homeOf s l = t))

/-- The tiles on which a fill ends now: each shows the region as its last (HA_FILL_STS). -/
def markFilled (n : Nat) (f : Fill) (s : State) : State :=
  ((tileList s).filter (fun t => !f.done.getLsbD t && fillDoneOn s f t)).foldl (fun s t =>
    onMap (fun m => { m with
      fills := Table.mod none m.fills n (fun x => x.map (fun f => { f with done := setBit f.done t true }))
      lastFill := Table.set 0 m.lastFill t f.region }) s) s

/-- A drained fill goes on: it ends on each tile that has no page left, and with no page left anywhere it ends (R90 steps 4 and 5): its poison-list
entries go, the range is unmarked, and a released extent is free. -/
def tryEndFill (n : Nat) (s0 : State) : State :=
  match getFill s0 n with
  | none => s0
  | some f =>
    let s := if f.drained then markFilled n f s0 else s0
    if !f.drained || !(pagesLeft s f).isEmpty || lineActive s (fillHas f) then s
    else
      let s1 := setFill n none (dropPoison f.base f.len (raiseFills f (clearStore f s)))
      onMap (fun m => { m with exts := match f.ext with | some e => Table.set .free m.exts e .free | none => m.exts }) s1

/-- FILL_DRAIN_DONE (R90 step 2): every request that had passed ingress for the range has completed. -/
def execFillDrainDone (fill : Nat) (s : State) : Host.Outcome State Fault Refusal :=
  match getFill s fill with
  | none => .next s
  | some f =>
    if !running s || midnight s || lineActive s (fillHas f) || commitOn s f then .next s
    else .next (tryEndFill fill (setFill fill (some { f with drained := true }) s))

/-- The heads that hold a line, as its entry or its stored metadata word says (R84, R90, R95); all in view where the word is lost. -/
def lineHeads (s : State) (r : Region) (line : Nat) : List Nat :=
  if !isDb s r.idx then []
  else
    let all := bitsOf 64 (viewMask s r.idx)
    let e := entOf s line
    if e.v && !e.unread then (match e.hst with | .i => [] | .s => bitsOf 64 e.hvec | .e => [e.holder] | .a => all)
    else if (lineAt s line).isNone || decide (r.typ = .packed) then []
    else match peekLine s line with
      | none => all
      | some x => match hstOf (metaHst x.meta_) with | .i => [] | .e => [metaHolder x.meta_] | _ => all

/-- One line of the page is invalidated everywhere (R90 step 3): snoops to its tiles, BISnp-Inv to its heads; what they return is discarded with
the page. An entry found lost names no tile: all are snooped (R120). -/
def sweepLine (r : Region) (line : Nat) (s : State) : State :=
  let e := entOf s line
  let lost := e.v && entryLost s line
  let hs := if lost then (if isDb s r.idx then bitsOf 64 (viewMask s r.idx) else []) else lineHeads s r line
  if !e.v && hs.isEmpty then s
  else
    let t := homeOf s line
    let s0 := if lost then raiseTile t .haDirParity (dirSet s line) (raiseBit .haDirSts t 31 s) else s
    let s1 := setTxn line { live := true, evict := true, lost := lost, trk := freeEvTrk s t } s0
    let s2 := (if lost then tileList s else if e.v then bitsOf 8 e.tvec else []).foldl (fun s x => if cutOff s t x then s else sendSnoop line x .snpInv t 0 s) s1
    driveLine line (hs.foldl (fun s g => sendBis line (g, .inv, false) s) s2)

/-- The page is taken: its frame returns to the pool, its placement entry becomes unwritten, a move ends, and a protected page's counters and tags
are as a fill leaves them (R90 steps 3 and 4, R221). -/
def takePage (r : Region) (page : Nat) (s : State) : State :=
  let p := getPlace s page
  let s1 := endMove page s
  let s2 := if p.st = .nvm then dropSlots (homeOf s (64 * page)) p.frame s1 else s1
  let s2 := onCry (fun x => { x with lost := x.lost.filter (fun l => decide (l / 4096 ≠ page)) }) s2
  let s3 := sampleFree (homeOf s (64 * page)) (onHa (fun h => { h with written := Table.drop h.written page }) (putPlace page {} s2))
  if r.typ = .protect ∧ p.st ≠ .unwritten then
    let c := dpaLoc s r (64 * page)
    (List.range 8).foldl (fun s j =>
      shadowWrite r c.tile 0 (.inl (c.leaf, j)) (walkerPrio s) (onCry (fun x => { x with tags := Table.drop x.tags (tagKey { c with i := 8 * j }) }) s))
      (shadowWrite r c.tile 0 (.inr (0, c.leaf)) (walkerPrio s3) (putCounter c 0#512 s3))
  else s3

/-- FILL_PAGE (R90 step 3): the page is taken once nothing holds a line of it; lines held by a tile or a host are invalidated first, and the command
comes again when they have answered. -/
def execFillPage (fill : Nat) (page : BitVec 36) (s : State) : Host.Outcome State Fault Refusal :=
  let p := page.toNat
  match getFill s fill, regionAt s (4096 * p) with
  | some f, some r =>
    let mine (l : Nat) : Bool := decide (l / 64 = p)
    if !running s || midnight s || !f.drained || !fillHas f (64 * p) || lineActive s mine then .next s
    else
      let held := s.ha.dir.any (fun e => e.2.v && mine e.2.line)
      if f.swept.contains p && !held then .next (tryEndFill fill (takePage r p s))
      else if isDb s r.idx && decide (r.typ ≠ .packed) && (lineAt s (64 * p)).isSome &&
          !(List.range 64).all (fun j => lineLost s (64 * p + j) || (peekLine s (64 * p + j)).isSome) then .next (askPage (64 * p) s)
      else
        let s1 := (List.range 64).foldl (fun s j => sweepLine r (64 * p + j) s) (setFill fill (some { f with swept := p :: f.swept.erase p }) s)
        .next (if lineActive s1 mine || s1.ha.dir.any (fun e => e.2.v && mine e.2.line) then s1 else tryEndFill fill (takePage r p s1))
  | _, _ => .next s

end Sys2Proof.Machine
end

