-- ==== Sys2Proof/Machine/HostMem.lean ====
section
/-!
DEFINITION. CXL.mem requests, BISnp answers and AtomicOps at the ingress port (R42, R56–R60, R72–R74, R80, R97, R110–R112, R141–R146, R458), decoder
commits (R71, R73), and firmware memory requests (R307).
-/
namespace Sys2Proof.Machine

/-- The host kind of a read (R97, R458): an LD whose view is HDM-H always reads with HK 1. -/
def readHk (db : Bool) (mv : Mv) : Nat := if !db then 1 else match mv with | .s => 1 | .a => 2 | .i | .noop => 3

/-- The host kind of a MemInv (R97); MetaField No-Op counts as I, as it does for a read (DESIGN CHOICE, log 52). -/
def invHk (mv : Mv) : Nat := match mv with | .s => 7 | .a => 4 | .i | .noop => 5

/-- The request meets a data error at ingress (R57, R74, R90, R350, R407). -/
def ingressErr (s : State) (h ld dpa : Nat) : Bool := headErrs s h || inFill s dpa || unbound s h (some ld) dpa

/-- A request that hits no committed decoder is answered as a data error; it has no DPA, so its event record names the HPA (DESIGN CHOICE, log 53). -/
def answerUnmapped (h hpa : Nat) (op : WOp) (s : State) : State :=
  let fail (s : State) : State := eventHead h ⟨.failure, .noDecoder hpa⟩ (addCnt (portCnt h 6) 1 s)
  match op with
  | .hostRd _ tag hk _ _ => if hk = 4 ∨ hk = 5 ∨ hk = 7 then send h (.ndr tag .cmp) s else fail (send h (.memData tag 0#512 true) (addUnits (portCnt h 2) 1 s))
  | .hostWr _ tag _ _ _ _ _ => fail (send h (.ndr tag .cmp) s)
  | .hostEvict _ tag => send h (.ndr tag .cmp) s
  | _ => s

/-- The BISnps to head `g` for a line that its port has sent and seen no answer to (R111). -/
def portSnoops (s : State) (g line : Nat) : Bool :=
  (getTxn s line).live && (getTxn s line).bis.any (fun b => decide (b.1 = g) &&
    !s.fab.hom.any (fun m => decide (m.op = .biSnpReq ∧ m.attr.head = g ∧ m.biTag = b.2.1)) &&
    !s.fab.rsp.any (fun m => decide (m.op = .biRspFwd ∧ m.attr.head = g ∧ m.biTag = b.2.1)))

/-- A write into a packed window (R59): Cmp, and one Warning event per head and second. -/
def packedWrite (h line : Nat) (tag : BitVec 16) (s : State) : State :=
  warnPacked h line (send h (.ndr tag .cmp) s)

/-- A request that fails at ingress ends there: its head's request count is as if it had been sent and had come back. -/
def failAtPort (h line : Nat) (op : WOp) (a : Attr) (s : State) : State :=
  finishOp (portTile h) line op {} true .cmp (onQos (fun q => { q with out := Table.mod 0 q.out (16 * h + a.cls) (· + 1) }) s)

/-- What the operation stores, if it is a host write: byte mask, value and tag. -/
def writeOf : WOp → Option (W64 × LVal × BitVec 16)
  | .hostWr _ tag _ _ mask _ v => some (mask, v, tag)
  | _ => none

/-- A CXL.mem request at its ingress port: decoded (R72), given its attributes (R26, R80), and answered, forwarded as HostWb (R111) or put in the hold
queue (R313). `mk` makes the operation from the attributes, the view's coherence type and the line. A full hold queue gives no credit. -/
def memReq (x : MemAddr) (cnt : Option Nat) (mk : Attr → Bool → Nat → WOp) (s : State) : State :=
  let h := x.head.val
  if !headLive s h || !(getPort s h).up || decide (256 ≤ (getHold s h).length) then s
  else
    let s1 := match cnt with | some k => addCnt (portCnt h k) 1 s | none => s
    match hpaToDpa s (fnKey h x.ld.val false) x.hpa.toNat with
    | none => answerUnmapped h x.hpa.toNat (mk { head := h } false 0) s1
    | some dpa =>
      let line := dpa / 64
      match regionAt s dpa with
      | none => answerUnmapped h x.hpa.toNat (mk { head := h } false line) s1
      | some r =>
        let v := viewOf s h x.ld.val r.idx
        let a : Attr := { head := h, cls := (v.map (·.cls)).getD 0, key := currentKey s r, kind := 0, ld := x.ld.val }
        let op := mk a ((v.map (·.db)).getD false) line
        match writeOf op, portSnoops s h line with
        | some (mask, d, tag), true =>
          sendRsp { op := .hostWb, src := portTile h, dst := homeOf s line, line := line, attr := a, mask := mask, val := d, biTag := tag } s1
        | w, _ =>
          if v.isNone || ingressErr s h x.ld.val dpa then failAtPort h line op a s1
          else match w, decide (r.typ = .packed) with
            | some (_, _, tag), true => packedWrite h line tag s1
            | _, _ => settle (holdReq h ⟨op, line, a.cls, homeOf s line⟩ s1)

/-- MEM_RD (R97, R458). -/
def execMemRd (a : MemAddr) (mv : Mv) (s : State) : Host.Outcome State Fault Refusal :=
  .next (memReq a (some 0) (fun t db _ => .hostRd t a.tag (readHk db mv) mv db) s)

/-- MEM_RD_DATA (R97): HK 1. -/
def execMemRdData (a : MemAddr) (s : State) : Host.Outcome State Fault Refusal :=
  .next (memReq a (some 0) (fun t db _ => .hostRd t a.tag 1 .s db) s)

/-- MEM_WR (R58, R59, R111). -/
def execMemWr (a : MemAddr) (mv : Mv) (data : Line) (poison : Bool) (s : State) : Host.Outcome State Fault Refusal :=
  .next (memReq a (some 1) (fun t db l => .hostWr t a.tag mv db fullMask true { data := data, chk := lineChk l data, poison := poison }) s)

/-- MEM_WR_PTL (R58, R59, R111). -/
def execMemWrPtl (a : MemAddr) (mv : Mv) (mask : W64) (data : Line) (poison : Bool) (s : State) : Host.Outcome State Fault Refusal :=
  .next (memReq a (some 1) (fun t db l => .hostWr t a.tag mv db mask false { data := data, chk := lineChk l data, poison := poison }) s)

/-- MEM_INV (R97): ownership without data. -/
def execMemInv (a : MemAddr) (mv : Mv) (s : State) : Host.Outcome State Fault Refusal :=
  .next (memReq a none (fun t db _ => .hostRd t a.tag (invHk mv) mv db) s)

/-- MEM_CLN_EVCT (R97, R108): HostCE. -/
def execMemClnEvct (a : MemAddr) (s : State) : Host.Outcome State Fault Refusal :=
  .next (memReq a none (fun t _ _ => .hostEvict t a.tag) s)

/-- BIRSP (R106, R110): the answer goes to the home of the BISnp of its tag; one that answers no BISnp the port has sent is late. -/
def execBirsp (h : PortId) (biTag : BitVec 16) (ans : BiAns) (s : State) : Host.Outcome State Fault Refusal :=
  if !headLive s h.val || !(getPort s h.val).up then .next s
  else
    let sent := !s.fab.hom.any (fun m => decide (m.op = .biSnpReq ∧ m.attr.head = h.val ∧ m.biTag = biTag))
    match s.ha.txns.find? (fun e => e.2.live && e.2.bis.any (fun b => b.1 = h.val ∧ b.2.1 = biTag)) with
    | some (line, _) =>
      if sent then .next (sendRsp { op := .biRspFwd, src := portTile h.val, dst := homeOf s line, line := line, attr := { head := h.val },
                                    biTag := biTag, ans := ans } s)
      else .next (addCnt (portCnt h.val 10) 1 s)
    | none => .next (addCnt (portCnt h.val 10) 1 s)

/-- BICONFLICT (R112). -/
def execBiconflict (h : PortId) (line : LineAddr) (biTag : BitVec 16) (s : State) : Host.Outcome State Fault Refusal :=
  .next (if !headLive s h.val || !(getPort s h.val).up then s
    else sendRsp { op := .biConflictFwd, src := portTile h.val, dst := homeOf s line.toNat, line := line.toNat, attr := { head := h.val }, biTag := biTag } s)

/-- POISONED_WRITE_TLP (R60): discarded, and AER reports it. -/
def execPoisonedWriteTlp (h : PortId) (ld : LdId) (s : State) : Host.Outcome State Fault Refusal :=
  .next (if headLive s h.val && (getPort s h.val).up && decide (ld.val < ldCount s h.val) then send h.val (.aer "poisoned TLP received") s else s)

/-- The elements of `host.atomic.window`, as head, LD, region index and offset in 8 MiB units: 8 bytes each (DESIGN CHOICE, log 54). -/
def windowList (s : State) : List (Nat × Nat × Nat × Nat) :=
  let b := (param s "host.atomic.window").getD []
  (List.range (b.length / 8)).map (fun i => (leAt b (8 * i) 1, leAt b (8 * i + 1) 1, leAt b (8 * i + 2) 2, leAt b (8 * i + 4) 4))

/-- The DPA base of a function's atomic window (R141). -/
def windowBase (s : State) (h ld : Nat) : Option Nat :=
  ((windowList s).find? (fun w => w.1 = h ∧ w.2.1 = ld)).bind (fun w => (regionOf s w.2.2.1).map (fun r => r.base + w.2.2.2 * 2 ^ 23))

/-- MODE of ATP_CFG: a reserved value acts as adaptive. -/
def atpMode (s : State) (t : Nat) : Nat := let m := regFld s .atpCfg t 7 6; if m = 3 then 0 else m

/-- The lookup of an arriving atomic (R146): an entry is allocated over whatever the index holds; answers far or near. -/
def predict (t line : Nat) (s : State) : Bool × State :=
  match atpMode s t with
  | 1 => (false, s)
  | 2 => (true, s)
  | _ =>
    let e := Table.get {} s.nc.pred (predKey t line)
    let hit := e.v && decide (e.tag = predTag line)
    let cnt := if hit then e.cnt else regFld s .atpCfg t 2 0
    let s1 := if hit then s else onNc (fun n => { n with pred := Table.set {} n.pred (predKey t line) ⟨true, cnt, predTag line⟩ }) s
    (decide (regFld s .atpCfg t 5 3 ≤ cnt), s1)

/-- The mode of the last atomic of the tile that is in flight on the line (R143). -/
def flightMode (s : State) (t line : Nat) : Option Bool :=
  (getOps s t line).foldl (fun a w => match w with | .atom _ _ _ far => some far | _ => a) none

/-- AtomicOps of a head that have not completed: a head has at most 1,024 non-posted requests outstanding (R41). -/
def atomsOut (s : State) (h : Nat) : Nat :=
  s.nc.ops.foldl (fun n e => n + (e.2.filter (fun w => match w with | .atom a _ _ _ => decide (a.head = h) && !a.mute | _ => false)).length) 0

/-- An AtomicOp that ends in a data error: completer abort, and one data error of the port (R56, R413). -/
def atomErr (p : Nat) (tag : BitVec 16) (s : State) : State := send p (.atomicCpl tag .abort 0#64) (addCnt (portCnt p 6) 1 s)

/-- ATOMIC_OP (R41, R42, R60, R141–R146, R350, R407): a request past the head's outstanding limit has no tag and is not taken. -/
def execAtomicOp (h : PortId) (ld : LdId) (r : AtomReq) (s : State) : Host.Outcome State Fault Refusal :=
  let p := h.val
  let o := r.offset.toNat
  if !headLive s p || !(getPort s p).up || decide (ldCount s p ≤ ld.val) || decide (1024 ≤ atomsOut s p) then .next s
  else if r.size = 0 ∨ o % r.size ≠ 0 then .next (send p (.aer "malformed TLP") s)
  else
    let s1 := addCnt (portCnt p 4) 1 s
    let refuse (c : CplStatus) : Host.Outcome State Fault Refusal := .next (send p (.atomicCpl r.tag c 0#64) s1)
    if (r.size ≠ 4 ∧ r.size ≠ 8) ∨ o < 0x1800000 ∨ 0x2000000 ≤ o then refuse .unsupported
    else match windowBase s p ld.val with
      | none => refuse (if headErrs s p then .abort else .unsupported)
      | some b =>
        let dpa := b + (o - 0x1800000)
        let line := dpa / 64
        match regionAt s dpa with
        | none => .next (atomErr p r.tag s1)
        | some g =>
          if ingressErr s p ld.val dpa then .next (atomErr p r.tag s1)
          else
            let t := portTile p
            let a : Attr := { head := p, cls := ((viewOf s p ld.val g.idx).map (·.cls)).getD 0, key := currentKey s g, kind := 0, ld := ld.val }
            let (far, s2) := predict t line s1
            let mode := (flightMode s t line).getD far
            .next (settle (startOp t line (.atom a r.tag ⟨r.kind, r.size, dpa % 64, r.operand, r.compare⟩ mode) s2))

/-! Decoder commits. -/

/-- Bytes of [a, b) that lie in regions of an LD's view with this coherence type. -/
def viewBytes (s : State) (h ld : Nat) (db : Bool) (a b : Nat) : Nat :=
  s.map.views.foldl (fun n v =>
    if v.head = h ∧ v.ld = ld ∧ v.db = db then
      match regionOf s v.region with
      | some r => n + (min b (r.base + r.len) - max a r.base)
      | none => n
    else n) 0

/-- The limits of R71 on a decoder: ways, granularity, size and skip. The base is aligned to 256 MiB, as CXL requires (PRESUMED, log 55). -/
def decoderShape (d : DecoderReq) : Bool :=
  [1, 2, 4, 8, 16].contains d.ways && [256, 512, 1024, 2048, 4096, 8192, 16384].contains d.gran &&
  decide (d.size.toNat ≠ 0 ∧ d.size.toNat % (2 ^ 28 * d.ways) = 0 ∧ d.skip.toNat % 2 ^ 28 = 0 ∧ d.base.toNat % 2 ^ 28 = 0)

/-- The DPA at which decoder `i` starts: after the decoder below it, and its skip (R71). -/
def decoderDpa (f : FnSt) (i : Nat) (d : DecoderReq) : Nat :=
  (if i = 0 then 0 else match Table.get none f.decs (i - 1) with | some x => x.dpa + x.size / x.ways | none => 0) + d.skip.toNat

/-- Increasing decoder number; increasing DPA holds by `decoderDpa` (R71; PRESUMED, log 55). -/
def decoderOrder (f : FnSt) (i : Nat) : Bool :=
  i = 0 || (Table.get none f.decs (i - 1)).isSome

/-- The checks of a commit (R46, R71, R73). -/
def commitOk (s : State) (h ld i : Nat) (d : DecoderReq) : Bool :=
  let f := getFn s (fnKey h ld false)
  let a := decoderDpa f i d
  let n := d.size.toNat / d.ways
  decoderShape d && decoderOrder f i && decide (viewBytes s h ld d.bi a (a + n) = n) && (!d.bi || (getPort s h).bi)

/-- DECODER_COMMIT (R46, R71, R73, R350): from the end of Dawn 3. A committed decoder is not committed again. -/
def execDecoderCommit (h : PortId) (ld : LdId) (idx : Fin 8) (d : DecoderReq) (s : State) : Host.Outcome State Fault Refusal :=
  let k := fnKey h.val ld.val false
  let f := getFn s k
  if !headLive s h.val || !(getPort s h.val).up || !(getPort s h.val).ready || decide (ldCount s h.val ≤ ld.val) || (Table.get none f.decs idx.val).isSome then .next s
  else if commitOk s h.val ld.val idx.val d then
    let x : Decoder := ⟨d.base.toNat, d.size.toNat, d.skip.toNat, d.ways, d.gran, d.bi, decoderDpa f idx.val d⟩
    .next (onFn k (fun f => { f with decs := Table.set none f.decs idx.val (some x), commitErr := false }) s)
  else .next (onFn k (fun f => { f with commitErr := true }) s)

/-! Firmware memory requests. -/


/-- A bus error of a firmware request. -/
def fwBusError (s : State) : State := onNc (fun n => { n with fwOut := some none }) s

/-- FIRMWARE_REQUEST (R307): to protected, packed, store or shadow memory a bus error, counted; a line being filled, or of no region, a bus error. -/
def execFirmwareRequest (t : TileId) (target : FwTarget) (wr : Option Line) (s : State) : Host.Outcome State Fault Refusal :=
  if !firmwareRuns s t.val || midnight s then .next s
  else match target with
    | .localFrame u f i =>
      match placeLineAt s u.val f.toNat i.val, wr with
      | some k, none => .next (if tileRuns s u.val && !cutOff s t.val u.val then onNc (fun n => { n with fwOut := some (some (placeLine s u.val k)) }) s
          else fwBusError s)
      | _, _ => .next (fwBusError (addCnt (tileCnt t.val 475) 1 s))
    | .dpa a =>
      match regionAt s a.toNat with
      | none => .next (fwBusError s)
      | some r =>
        let line := a.toNat / 64
        if r.typ = .protect ∨ r.typ = .packed then .next (fwBusError (addCnt (tileCnt t.val 475) 1 s))
        else if inFill s a.toNat then .next (fwBusError s)
        else
          let op : WOp := match wr with | none => .fwRd false | some d => .fwWr false { data := d, chk := lineChk line d }
          .next (settle (startOp t.val line op (onNc (fun n => { n with fwOut := none }) s)))

end Sys2Proof.Machine
end

