-- ==== Sys2Proof/Machine/Image.lean ====
section
/-!
DEFINITION. The configuration flash and images: the option block (R341, R342), slot headers (R343, R347), signatures (R346), sections and
parameters (R344, R345), and the image checks (R44, R45, R61, R79, R132, R141, R274, R279, R311, R344, R436, R454).
-/
namespace Sys2Proof.Machine

/-- `n` bytes of the configuration flash. -/
def flashRead (s : State) (off n : Nat) : Bytes := (List.range n).map (fun i => Table.get 0xFF#8 s.flash.bytes (off + i))

def flashWrite (off : Nat) (b : Bytes) (s : State) : State :=
  onFlash (fun f => { f with bytes := b.zipIdx.foldl (fun t e => Table.set 0xFF#8 t (off + e.2) e.1) f.bytes }) s

/-- Gang encodings in use (R44). -/
def gangOk (b : Nat) : Bool := decide (b % 8 < 5) && decide (b / 8 % 8 < 5) && decide (b < 64)

/-- The option block as stored is valid (R342). -/
def optValid (b : Bytes) : Bool :=
  decide (leAt b 0 4 = 0x4F4C5250) && decide (leAt b 4 2 = 1) && decide (leAt b 6 1 < 2) && decide (leAt b 7 1 < 3) && decide (leAt b 12 4 = 0) &&
  (slice b 16 8).all (fun x => gangOk x.toNat) && (slice b 25 4039).all (fun x => decide (x = 0#8)) &&
  decide (sha256 (slice b 0 4064) = slice b 4064 32)

def optOf (b : Bytes) : OptBlock :=
  { xspi := leAt b 6 1, activate := leAt b 7 1, actSeq := BitVec.ofNat 32 (leAt b 8 4), gang := slice b 16 8, refclk := BitVec.ofNat 8 (leAt b 24 1) }

/-- The defaults of R342. -/
def optDefaults : OptBlock := { gang := List.replicate 8 0#8 }

/-- The option block with a new ACTIVATE and ACT_SEQ, its other fields kept and a new DIGEST (R348). -/
def optRewrite (b : Bytes) (activate : Nat) (seq : W32) : Bytes :=
  let h := slice b 0 7 ++ [BitVec.ofNat 8 activate] ++ leBytes 4 seq.toNat ++ slice b 12 4052
  h ++ sha256 h

/-- Flash offset of a slot (R343). -/
def slotBase (slotB : Bool) : Nat := if slotB then 0x02100000 else 0x00100000

def secOf (b : Bytes) : Section_ := ⟨leAt b 0 2, leAt b 4 4, leAt b 8 4, BitVec.ofNat 256 (beNat (slice b 16 32))⟩

/-- A slot's header, read at `base` by `rd`, with MAGIC, VERSION, LENGTH and directory bounds correct (R343, R347). -/
def parseHdr (rd : Nat → Nat → Bytes) : Option SlotHdr :=
  let h := rd 0 416
  let n := leAt h 7 1
  let len := leAt h 12 4
  if leAt h 0 4 = 0x494C5250 ∧ leAt h 4 2 = 1 ∧ 1 ≤ n ∧ n ≤ 8 ∧ 1024 ≤ len ∧ len ≤ 2 ^ 25 ∧ 416 + 48 * n + 384 ≤ len then
    some ⟨leAt h 6 1, BitVec.ofNat 32 (leAt h 8 4), len, slice h 32 384, (List.range n).map (fun i => secOf (rd (416 + 48 * i) 48))⟩
  else none

def slotHdr (s : State) (slotB : Bool) : Option SlotHdr := parseHdr (fun off n => flashRead s (slotBase slotB + off) n)

/-- A usable header names this member (R347). -/
def usable (s : State) (slotB : Bool) : Option SlotHdr := (slotHdr s slotB).filter (fun h => h.member = tiles s)

/-- The signature over the header and the directory is valid under the trust anchor (R346). -/
def signedOk (s : State) (rd : Nat → Nat → Bytes) (h : SlotHdr) : Bool :=
  decide (digest h.modulus = s.fuse.anchorRead) && pssVerify h.modulus (rd 0 (416 + 48 * h.secs.length)) (rd (h.length - 384) 384)

/-- The candidates in order (R347). -/
def candidates (s : State) (o : OptBlock) : List Bool :=
  let act := if o.activate = 1 then some false else if o.activate = 2 then some true else none
  let first := match act with
    | some b => (match usable s b with | some h => if h.seq = o.actSeq then [b] else [] | none => [])
    | none => []
  let both := match usable s false, usable s true with
    | some a, some b => if a.seq.toNat < b.seq.toNat then [true, false] else [false, true]
    | some _, none => [false]
    | none, some _ => [true]
    | none, none => []
  first ++ both.filter (fun x => !first.contains x)

/-- A section of the candidate as stored. -/
def secBytes (s : State) (slotB : Bool) (x : Section_) : Bytes := flashRead s (slotBase slotB + x.off) x.size
def findSec (h : SlotHdr) (t : Nat) : Option Section_ := h.secs.find? (fun x => x.typ = t)
def secDigestOk (s : State) (slotB : Bool) (x : Section_) : Bool := decide (digest (secBytes s slotB x) = x.digest)

/-- The candidate's signature and firmware digest pass (Dawn 2, R346, R349): the firmware section fits T0's 8 MiB. -/
def firmwareOk (s : State) (slotB : Bool) (h : SlotHdr) : Bool :=
  signedOk s (fun off n => flashRead s (slotBase slotB + off) n) h &&
  (match findSec h 1 with | some x => decide (x.size ≤ 2 ^ 23) && decide (x.off + x.size ≤ h.length) && secDigestOk s slotB x | none => false)

/-- The directory obeys R344: types listed and not repeated, the required ones present, sections apart and in bounds. -/
def dirOk (h : SlotHdr) : Bool :=
  let ts := h.secs.map (·.typ)
  ts.all (fun t => decide (1 ≤ t) && decide (t ≤ 8)) && decide (ts.eraseDups.length = ts.length) && [1, 2, 3, 4, 5].all (ts.contains ·) &&
  h.secs.all (fun x => decide (416 + 48 * h.secs.length ≤ x.off) && decide (x.off + x.size ≤ h.length - 384) && decide (x.off % 64 = 0)) &&
  h.secs.zipIdx.all (fun a => h.secs.zipIdx.all (fun b => decide (a.2 = b.2) || decide (a.1.off + a.1.size ≤ b.1.off) || decide (b.1.off + b.1.size ≤ a.1.off)))

/-- Parameter records packed end to end (R344); none where a record runs past the section. -/
def parseParams : Nat → Bytes → Option (List (Bytes × Bytes))
  | 0, b => if b = [] then some [] else none
  | f + 1, b =>
    match b with
    | [] => some []
    | n :: t =>
      let v := leAt t n.toNat 2
      if t.length < n.toNat + 2 + v then none
      else (parseParams f (t.drop (n.toNat + 2 + v))).map (fun l => (t.take n.toNat, (t.drop (n.toNat + 2)).take v) :: l)

/-- The integer parameters, each with its range (R123, R132, R147, R154–R177, R196–R206, R226, R274, R309, R311, R322–R325, R345, R454). -/
def intParams : List (String × Nat × Nat) :=
  [("x.coh.dir.parity", 0, 1), ("x.coh.dir.prefer_quiet", 0, 1), ("x.coh.dir.reserved_way", 0, 1), ("x.coh.bisnp_timeout_ms", 1, 1000),
   ("nc.ways.lock", 0, 255), ("nc.ways.scratch", 0, 255), ("x.atomic.predictor.mode", 0, 2), ("x.atomic.predictor.threshold", 0, 7),
   ("x.atomic.predictor.init", 0, 7), ("x.dram.sched.age_max_ns", 0, 2040), ("x.dram.sched.wq_high", 1, 63), ("x.dram.sched.wq_low", 0, 63),
   ("x.dram.sched.hit_cap", 0, 15), ("x.dram.sched.close_idle", 0, 255), ("dram.refresh.mode", 0, 2), ("x.dram.refresh.postpone_max", 1, 8)] ++
  [("x.dram.refresh.deadline_ns", 0, 1020), ("dram.dusk.mode", 0, 1), ("dram.dusk.idle_us", 0, 65535), ("dram.scrub.period_h", 1, 168),
   ("x.dram.ce.rate_limit", 0, 0xFFFFFFFF), ("x.dram.ue.rate_limit", 0, 0xFFFFFFFF), ("x.nvm.ce.rate_limit", 0, 0xFFFFFFFF),
   ("x.nvm.wear.gap_interval", 256, 65535), ("x.nvm.rebuild.rate_pct", 1, 100), ("x.nvm.wear.retire", 100000000, 0xFFFF0000),
   ("nvm.drift.horizon_h", 1, 1440), ("x.nvm.drift.refresh_ce", 1, 21), ("nvm.absorb.slots", 4096, 65536), ("nvm.absorb.max_age_ms", 0, 32767),
   ("x.nvm.absorb.high_pct", 1, 100), ("x.nvm.absorb.low_pct", 0, 100)] ++
  [("tier.mode", 0, 2), ("tier.place.initial", 0, 1), ("tier.promote.heat", 0, 255), ("tier.demote.heat", 0, 255), ("x.tier.min_resid", 0, 15),
   ("tier.epoch_s", 10, 255), ("x.tier.free_low_mib", 0, 65535), ("x.tier.free_high_mib", 0, 65535), ("tier.rate.max_pps", 0, 1048575),
   ("x.tier.rate.demote_pps", 0, 1048575), ("x.tier.reserve.dram", 0, 65535), ("x.tier.reserve.nvm", 0, 65535), ("packed.ingest.decoders", 1, 6),
   ("x.crypto.twilight.rate", 0, 255)] ++
  [("qos.class.walker", 0, 15), ("qos.class.firmware", 0, 15), ("x.qos.ctr_miss_pct", 0, 100), ("x.qos.dram_eff_pct", 1, 100), ("x.qos.link_gts", 1, 64),
   ("x.qos.packed_amp_pct", 0, 65535), ("x.qos.packed_ratio_pct", 0, 65535), ("host.mgmt_head", 0, 63), ("host.refclk.mode", 0, 255),
   ("x.host.poison_inject", 0, 1)]

/-- The list-valued parameters, R378's by channel number with HS as 32 (DESIGN CHOICE on element sizes and units, log 54): whether a value is well formed. -/
def listOk (n : String) (v : Bytes) : Option Bool :=
  let pairsIn (n lo hi : Nat) : Bool := decide (v.length % 3 = 0) &&
    (List.range (v.length / 3)).all (fun i => decide (leAt v (3 * i) 2 < n) && decide (lo ≤ leAt v (3 * i + 2) 1) && decide (leAt v (3 * i + 2) 1 ≤ hi))
  let pairs (hi : Nat) : Bool := pairsIn 1024 0 hi
  if n = "host.port.gang" then some (decide (v.length = 8) && v.all (fun x => gangOk x.toNat))
  else if n = "host.atomic.window" then some (decide (v.length % 8 = 0))
  else if n = "fault.grace_ms" then some (decide (v.length = 8) && (List.range 4).all (fun k => decide (1 ≤ leAt v (2 * k) 2) && decide (leAt v (2 * k) 2 ≤ 60000)))
  else if n = "x.fault.class" then some (pairs 3)
  else if n = "x.fault.grace_sel" then some (pairs 3)
  else if n = "x.fault.enable" then some (pairs 1)
  else if n = "tier.class.budget_pps" then some (decide (v.length = 64) && (List.range 16).all (fun c => decide (leAt v (4 * c) 4 ≤ 1048575)))
  else if n = "packed.store.tier" then some (pairs 1)
  else if n = "power.channel.timer_ms" then some (pairsIn 33 1 40)
  else if n = "x.power.channel.slope" then some (pairsIn 33 1 64)
  else if n = "x.power.channel.ot_limit_c" then some (pairsIn 33 85 150)
  else if n = "crypto.provision.root" then some (decide (v.length = 32))
  else none

def listNames : List String :=
  ["host.port.gang", "host.atomic.window", "fault.grace_ms", "x.fault.class", "x.fault.grace_sel", "x.fault.enable", "tier.class.budget_pps",
   "packed.store.tier", "crypto.provision.root", "power.channel.timer_ms", "x.power.channel.slope", "x.power.channel.ot_limit_c"]

/-- A parameter record names a parameter and its value lies in range (R344). -/
def paramOk (p : Bytes × Bytes) : Bool :=
  match intParams.find? (fun x => ascii x.1 = p.1) with
  | some x => decide (1 ≤ p.2.length) && decide (x.2.1 ≤ leNat p.2) && decide (leNat p.2 ≤ x.2.2)
  | none => match listNames.find? (fun n => ascii n = p.1) with
    | some n => (listOk n p.2).getD false
    | none => false

def paramsOk (l : List (Bytes × Bytes)) : Bool := l.all paramOk && decide ((l.map (·.1)).eraseDups.length = l.length)

def regionTypeOf (n : Nat) : Option RegionType :=
  if n = 0 then some .plain else if n = 1 then some .protect else if n = 2 then some .packed else if n = 3 then some .ring
  else if n = 4 then some .staging else none

/-- A catalogue entry, obeying R70, R77, R79 and R279 by itself. -/
def parseRegion (b : Bytes) : Option Region :=
  match regionTypeOf (leAt b 2 1) with
  | none => none
  | some t =>
    let fl := leAt b 3 1
    let keyed := decide (t = .protect ∨ t = .packed)
    let key := leAt b 4 2
    let blk := leAt b 6 1
    let base := leAt b 8 8
    let len := leAt b 16 8
    let store := leAt b 24 8
    if decide (leAt b 0 2 < 1024) && decide (fl < 4) && decide (key < 4096) && decide (keyed = decide (key ≠ 0)) && (decide (t = .plain) || decide (fl % 2 = 0)) &&
       decide (leAt b 7 1 = 0) && decide (blk < 3) && (decide (t = .packed) || (decide (blk = 0) && decide (store = 0))) &&
       decide (base % 2 ^ 28 = 0) && decide (len % 2 ^ 28 = 0) && decide (0 < len) && decide (base + len ≤ 2 ^ 48) &&
       !(decide (t = .packed) && decide (2 ≤ fl)) then
      some ⟨leAt b 0 2, t, decide (fl % 2 = 1), decide (2 ≤ fl), BitVec.ofNat 12 key, 12 + 2 * blk, base, len, store⟩
    else none

/-- Every element of a table of `n`-byte entries, or none where one is refused. -/
def parseAll {α : Type} (n : Nat) (f : Bytes → Option α) (b : Bytes) : Option (List α) :=
  if b.length % n ≠ 0 then none else (List.range (b.length / n)).mapM (fun i => f (slice b (n * i) n))

def catOk (l : List Region) : Bool :=
  decide (l.length ≤ 1024) && decide ((l.map (·.idx)).eraseDups.length = l.length) &&
  l.zipIdx.all (fun a => l.zipIdx.all (fun b => decide (a.2 = b.2) || decide (a.1.base + a.1.len ≤ b.1.base) || decide (b.1.base + b.1.len ≤ a.1.base)))

def parseView (b : Bytes) : Option View :=
  if leAt b 0 1 < 64 ∧ leAt b 1 1 < 16 ∧ leAt b 4 1 < 16 ∧ leAt b 5 1 < 2 ∧ leAt b 6 2 = 0 then
    some ⟨leAt b 0 1, leAt b 1 1, leAt b 2 2, leAt b 4 1, decide (leAt b 5 1 = 1)⟩
  else none

/-- Number of LDs of each head: one more than the largest LD its view entries name (R45; DESIGN CHOICE, log 57). -/
def ldsOf (l : List View) : Table Nat := l.foldl (fun t v => Table.mod 1 t v.head (fun n => max n (v.ld + 1))) []

/-- View table checks (R45, R78, R79): `isH` says which ports are heads. -/
def viewsOk (isH : Nat → Bool) (cat : List Region) (l : List View) : Bool :=
  let lds := ldsOf l
  let n (h : Nat) : Nat := if isH h then Table.get 1 lds h else 0
  let tileLds (t : Nat) : Nat := (List.range 8).foldl (fun a p => a + n (8 * t + p)) 0
  decide (l.length ≤ 4096) && l.all (fun v => isH v.head && cat.any (fun r => r.idx = v.region) && !(v.db && decide (1 < Table.get 1 lds v.head))) &&
  decide ((l.map (fun v => (v.head, v.ld, v.region))).eraseDups.length = l.length) && (List.range 8).all (fun t => decide (tileLds t ≤ 32))

/-- A class table entry (R310, R311). -/
def parseClass (b : Bytes) : Option ClassEnt :=
  let cap := leAt b 24 2
  if leAt b 0 1 < 4 ∧ 1 ≤ leAt b 1 1 ∧ leAt b 2 1 < 16 ∧ leAt b 3 1 = 0 ∧ leAt b 16 1 ≤ 100 ∧ leAt b 17 1 ≤ 100 ∧ leAt b 18 1 ≤ 100 ∧ leAt b 19 1 = 0 ∧
     1 ≤ cap ∧ cap ≤ 1024 ∧ leAt b 26 6 = 0 then
    some { prio := leAt b 0 1, weight := leAt b 1 1, shed := leAt b 2 1, floorRd := leAt b 4 4, floorWr := leAt b 8 4, lat := leAt b 12 4,
           pNvm := leAt b 16 1, pPacked := leAt b 17 1, pProt := leAt b 18 1, ingest := leAt b 20 4, cap := cap }
  else none

/-- The walker and firmware classes are apart and carry no floor, INGEST or LAT (R311). -/
def classesOk (l : List ClassEnt) (w f : Nat) : Bool :=
  let quiet (c : Nat) : Bool := match l[c]? with | some x => decide (x.floorRd = 0 ∧ x.floorWr = 0 ∧ x.ingest = 0 ∧ x.lat = 0) | none => false
  decide (l.length = 16) && decide (w ≠ f) && quiet w && quiet f

/-- Surroundings in the layout of 0xC011, every value in range (R68). -/
def surrOk (b : Bytes) : Bool :=
  let inlet := (BitVec.ofNat 16 (leAt b 0 2)).toInt
  decide (b.length = 80) && decide (-400 ≤ inlet) && decide (inlet ≤ 850) && decide (leAt b 2 1 < 4) && decide (leAt b 3 1 < 32) && decide (leAt b 6 2 = 0)

/-- The pin options section (R436). -/
def pinsOk (b : Bytes) : Bool :=
  let a := leAt b 0 1
  decide (b.length = 16) && decide (8 ≤ a) && decide (a ≤ 0x77) && !([0x3E, 0x5E, 0x6E, 0x76].contains a) && decide (leAt b 1 1 < 3) && decide (leAt b 2 1 < 2) &&
  (b.drop 3).all (fun x => decide (x = 0#8))

/-- A declared extent (R61; its layout is the model's, DESIGN CHOICE, log 54). -/
def parseDecl (b : Bytes) : Option ExtDecl :=
  let d : ExtDecl := ⟨leAt b 0 1, leAt b 1 1, leAt b 2 1, leAt b 8 8, leAt b 16 8, BitVec.ofNat 128 (leAt b 24 16)⟩
  if d.dcRegion < 8 ∧ leAt b 3 5 = 0 ∧ d.base % 2 ^ 28 = 0 ∧ d.len % 2 ^ 28 = 0 ∧ 0 < d.len then some d else none

/-- Extent checks (R61): each in one Dynamic Capacity region that is in the LD's view, none overlapping, at most 64 to a DC region, 2,048 in all. -/
def declsOk (cat : List Region) (views : List View) (l : List ExtDecl) : Bool :=
  decide (l.length ≤ 2048) &&
  l.all (fun d => cat.any (fun r => r.dc && decide (r.base ≤ d.base) && decide (d.base + d.len ≤ r.base + r.len) &&
      views.any (fun v => v.head = d.head ∧ v.ld = d.ld ∧ v.region = r.idx)) &&
    decide ((l.filter (fun e => e.head = d.head ∧ e.ld = d.ld ∧ e.dcRegion = d.dcRegion)).length ≤ 64)) &&
  l.zipIdx.all (fun a => l.zipIdx.all (fun b => decide (a.2 = b.2) || decide (a.1.base + a.1.len ≤ b.1.base) || decide (b.1.base + b.1.len ≤ a.1.base)))

/-- What an image declares, once parsed. -/
structure Image where
  params : List (Bytes × Bytes)
  cat : List Region
  views : List View
  cls : List ClassEnt
  surr : Bytes
  decls : List ExtDecl
  secs : List (Nat × Bytes)

/-- Default surroundings where the image has none (DESIGN CHOICE, log 50). -/
def surrDefault : Bytes := [0#8, 0#8, 1#8] ++ List.replicate 13 0#8 ++ List.replicate 64 0xFF#8

/-- A port that is the lowest of a head under a gang list (R43, R44, R454). -/
def headUnder (n : Nat) (gang : Bytes) (p : Nat) : Bool :=
  let b := leAt gang (p / 8) 1
  let m := if p % 8 < 4 then b % 8 else b / 8 % 8
  decide (p < 8 * n) && (match m, p % 4 with
    | 1, 1 => false | 2, 3 => false | 3, 1 => false | 3, 3 => false
    | 4, 0 => true | 4, _ => false
    | _, _ => true)

def paramIn (l : List (Bytes × Bytes)) (n : String) : Option Bytes := (l.find? (fun p => p.1 = ascii n)).map (·.2)
def paramNatIn (l : List (Bytes × Bytes)) (n : String) (d : Nat) : Nat := match paramIn l n with | some b => leNat b | none => d

/-- The windows lie inside one region in the function's view, of a type that takes atomics (R141), at most one to a function. -/
def windowsOk (cat : List Region) (views : List View) (v : Bytes) : Bool :=
  let ws := (List.range (v.length / 8)).map (fun i => (leAt v (8 * i) 1, leAt v (8 * i + 1) 1, leAt v (8 * i + 2) 2, leAt v (8 * i + 4) 4))
  decide ((ws.map (fun w => (w.1, w.2.1))).eraseDups.length = ws.length) &&
  ws.all (fun w => (match cat.find? (fun r => r.idx = w.2.2.1) with
    | some r => decide (r.typ ≠ .packed) && decide ((w.2.2.2 + 1) * 2 ^ 23 ≤ r.len)
    | none => false) && views.any (fun x => x.head = w.1 ∧ x.ld = w.2.1 ∧ x.region = w.2.2.1))

/-- Store tiers name packed regions only, and all of them when any (R274). -/
def tiersOk (cat : List Region) (v : Option Bytes) : Bool :=
  match v with
  | none => true
  | some b =>
    let named := (List.range (b.length / 3)).map (fun i => leAt b (3 * i) 2)
    let packed := (cat.filter (fun r => r.typ = .packed)).map (·.idx)
    decide (named.eraseDups.length = named.length) && named.all (packed.contains ·) && (named.isEmpty || packed.all (named.contains ·))

/-- The image of a candidate, or none where the image checks of Dawn 3 refuse it. -/
def readImage (s : State) (slotB : Bool) (h : SlotHdr) : Option Image :=
  if !dirOk h || !h.secs.all (fun x => decide (x.typ = 1) || secDigestOk s slotB x) then none
  else
    let sec (t : Nat) : Option Bytes := (findSec h t).map (secBytes s slotB)
    let secs := [2, 3, 4, 5, 6, 7, 8].filterMap (fun t => (sec t).map (fun b => (t, b)))
    match parseParams ((sec 2).getD []).length ((sec 2).getD []), parseAll 32 parseRegion ((sec 3).getD []), parseAll 8 parseView ((sec 4).getD []),
          parseAll 32 parseClass ((sec 5).getD []), parseAll 40 parseDecl ((sec 8).getD []) with
    | some ps, some cat, some views, some cls, some decls =>
      let gang := (paramIn ps "host.port.gang").getD (List.replicate 8 0#8)
      let surr := (sec 6).getD surrDefault
      let w := paramNatIn ps "qos.class.walker" 15
      let f := paramNatIn ps "qos.class.firmware" 14
      let ok := paramsOk ps && catOk cat && viewsOk (headUnder (tiles s) gang) cat views && classesOk cls w f && declsOk cat views decls && surrOk surr &&
        (match sec 7 with | some b => pinsOk b | none => true) && windowsOk cat views ((paramIn ps "host.atomic.window").getD []) &&
        tiersOk cat (paramIn ps "packed.store.tier") && headUnder (tiles s) gang (paramNatIn ps "host.mgmt_head" 0) &&
        decide (paramNatIn ps "nc.ways.lock" 0 &&& paramNatIn ps "nc.ways.scratch" 0 = 0)
      if ok then some ⟨ps, cat, views, cls, surr, decls, secs⟩ else none
    | _, _, _, _, _ => none

end Sys2Proof.Machine
end

