-- ==== Sys2Proof/Machine/Power.lean ====
section
/-!
DEFINITION. The supervisor's commands: feeds and ORing, insertion and removal, channels, retries, the intermediate bus, tile rails and
input power (R359–R379, R333, R390).
-/
namespace Sys2Proof.Machine

def chStateCode : ChState → Nat
  | .off => 0 | .starting => 1 | .powerGood => 2 | .retryWait => 3 | .latched => 4

def chCauseCode : ChCause → Nat
  | .none => 0 | .faultTimer => 1 | .fastTrip => 2 | .startLimit => 3 | .damaged => 4 | .short => 5 | .overTemp => 6 | .busLost => 7
  | .railLost => 8

/-- HS and E00–E07 are privileged (R12, R370). -/
def privileged (e : Nat) : Bool := decide (e < 8) || decide (e = 32)

/-- The tile a channel serves; none for HS (R3, R148, R179). -/
def chanTile (e : Nat) : Option Nat :=
  if e < 8 then some e else if e < 24 then some ((e - 8) / 2) else if e < 32 then some (e - 24) else none

/-- The member uses the channel (R3). -/
def chanUsed (s : State) (e : Nat) : Bool := match chanTile e with | some t => hasTile s t | none => true

/-- TIMER in units of 0.5 ms (SV_CH_CFG). -/
def chTimer (s : State) (e : Nat) : Nat := clampN 1 40 (regFld s .svChCfg e 5 0)

/-- OT_LIMIT in °C (SV_CH_CFG). -/
def chOtLimit (s : State) (e : Nat) : Nat := clampN 85 150 (regFld s .svChCfg e 23 16)

/-- The power record of an event (R377, R397). -/
def powerRecord (ch : Nat) (src : SvSrc) (s : State) : State :=
  let c := getChan s ch
  logSubmit 0x20#8 0x08#8 (BitVec.ofNat 16 (svSrc src))
    (leBytes 1 ch ++ (if ch < 33 then [BitVec.ofNat 8 (chStateCode c.state), BitVec.ofNat 8 (chCauseCode c.cause), BitVec.ofNat 8 c.attempts]
      else [0#8, 0#8, 0#8]) ++ leBytes 2 s.sv.vinA.toNat ++ leBytes 2 s.sv.vinB.toNat ++
      (if ch < 33 then leBytes 2 c.tel.vout.toNat ++ leBytes 2 c.tel.current.toNat ++ leBytes 2 c.tel.vgs.toNat ++ leBytes 2 c.tel.temp.toNat
       else List.replicate 6 0#8 ++ leBytes 2 (if ch = 33 then s.sv.tempA.toNat else s.sv.tempB.toNat))) s

/-- An SV event: its fault source and its power record (R377). -/
def powerEvent (ch : Nat) (src : SvSrc) (detail : Nat) (s : State) : State := powerRecord ch src (raiseSv src detail s)

/-- The fault timer brought up to date (R367): up in real time above V_CB, down at one eighth of that rate below it, stopping at 0. -/
def timerNow (now : Nat) (c : Chan) : Nat :=
  if c.above then c.timer + 8 * (now - c.timerAt) else c.timer - (now - c.timerAt)

/-- The gate is pulled down: the shunt carries nothing, so the fault timer runs down from the count it has (R367). -/
def gateDown (now : Nat) (c : Chan) : Chan :=
  { c with gate10 := false, clamped := false, tested := false, above := false, timer := timerNow now c, timerAt := now }

/-- A channel that conducts or is starting stops, keeping its waits, counts and latch (R366, R371, R375). -/
def chOff (now : Nat) (c : Chan) : Chan :=
  match c.state with
  | .starting | .powerGood => { gateDown now c with state := .off }
  | _ => c

/-- The rails of a tile drop together (R371). -/
def dropRails (t : Nat) (s : State) : State :=
  onSv (fun v => { v with railEn := Table.set 0#5 v.railEn t 0#5, railPg := Table.set 0#5 v.railPg t 0#5,
                          tilesGood := setBit v.tilesGood t false }) s

/-- Everything fed by HS drops (R371, R375). -/
def dropBus (s : State) : State :=
  onSv (fun v => { v with railEn := [], railPg := [], tilesGood := 0#8, nvmRails := 0#8, ibcEn := false, ibGood := false, step7 := false })
    ((List.range 32).foldl (fun s e => onChan e (chOff s.time.now) s) s)

/-- What a channel's fault turn-off does to the device (R371). -/
def chanLoss (e : Nat) (s : State) : State :=
  if e = 32 then driveReset (dropBus s)
  else if e < 8 then driveReset (dropRails e s)
  else if e < 24 then loseDimms ((e - 8) / 2) ((e - 8) % 2) s
  else loseNvmTile (e - 24) (onSv (fun v => { v with nvmRails := setBit v.nvmRails (e - 24) false }) s)

/-- The channel after a fault (R364, R367–R370): off, counted, and waiting or latched. -/
def faulted (priv latch : Bool) (cause : ChCause) (timer now : Nat) (c : Chan) : Chan :=
  let l := latch || (priv && decide (3 ≤ c.attempts))
  { gateDown now c with
    state := if l then .latched else .retryWait
    cause := cause
    attempts := if priv && !l then c.attempts + 1 else c.attempts
    trips := satAdd c.trips 1 65535
    offAt := now, offTimer := timer }

/-- The fault source of the fault of a channel's group (R377), with its detail (R401). -/
def chanFaultSrc (e : Nat) (cause : ChCause) : SvSrc × Nat :=
  if e = 32 then (.hsFault, chCauseCode cause)
  else if e < 8 then (.tilePwr, e + 256 * chCauseCode cause)
  else (.efFault, e + 256 * chCauseCode cause)

/-- With every tile rail good, a latched tile not counted, E08 to E31 may start (R373 step 7, R374). -/
def reachStep7 (s : State) : State := if railsAllGood s then onSv (fun v => { v with step7 := true }) s else s

/-- A channel turns off for a fault (R364–R371, R377): the fault of its group, and beside it a damaged or shorted FET, heat and a privileged latch, each an event
of its own (log 12). -/
def chanFault (e : Nat) (cause : ChCause) (latch : Bool) (s : State) : State :=
  let s1 := onChan e (faulted (privileged e) latch cause (chTimer s e) s.time.now) s
  let f := chanFaultSrc e cause
  let s1 := powerEvent e f.1 f.2 s1
  let s2 := if cause = .damaged ∨ cause = .short then powerEvent e .fetDamaged e s1 else s1
  let s3 := if cause = .overTemp then powerEvent e .fetHot e (onChan e (fun c => { c with hot := true }) s2) else s2
  let s4 := if privileged e && decide ((getChan s3 e).state = .latched) then powerEvent e .latched e s3 else s3
  reachStep7 (chanLoss e s4)

/-- The channel's gate is driven. -/
def conducting (c : Chan) : Bool := decide (c.state = .starting) || decide (c.state = .powerGood)

/-- The channel is off, waits for nothing and is cool (R368–R370, R373). -/
def startable (s : State) (e : Nat) : Bool := chanUsed s e && decide ((getChan s e).state = .off) && !(getChan s e).hot

/-- A channel may start now: HS once insertion is qualified and a feed is in range, E00–E07 on the intermediate bus, E08–E31 from step 7, each group in
ascending order, where a channel that waits is skipped (R373). -/
def mayStart (s : State) (e : Nat) : Bool :=
  !s.rst.por && startable s e &&
  (if e = 32 then s.sv.present && (s.sv.feedA || s.sv.feedB)
   else if e < 8 then s.sv.ibGood && (List.range e).all (fun i => !startable s i)
   else s.sv.step7 && (List.range (e - 8)).all (fun i => !startable s (8 + i)))

/-- The ORing FETs as their feeds, the node and their heat leave them (R362, R363): each conducts while its feed is in range, unless the node rose above the feed
or it is hot and the other feed is in range. -/
def orDrive (v : Sv) : Sv :=
  { v with orA := v.feedA && !v.orRevA && !(v.orHotA && v.feedB)
           orB := v.feedB && !v.orRevB && !(v.orHotB && v.feedA) }

/-- FEED_IN_RANGE (R361, R362): its ORing FET may conduct; one that was kept on hot turns off (R363). -/
def execFeedInRange (f : Feed) (s : State) : Host.Outcome State Fault Refusal :=
  .next (match f with
    | .a => onSv (fun v => orDrive { v with feedA := true }) s
    | .b => onSv (fun v => orDrive { v with feedB := true }) s)

/-- FEED_OUT_OF_RANGE (R363, R334): the other feed carries the device; with neither in range power-on reset is asserted. -/
def execFeedOutOfRange (f : Feed) (s : State) : Host.Outcome State Fault Refusal :=
  .next (match f with
    | .a =>
      if !s.sv.feedA then s
      else
        let s1 := onSv (fun v => orDrive { v with feedA := false }) s
        if s.sv.feedB then powerEvent 33 .feedLost 0 s1 else assertPor s1
    | .b =>
      if !s.sv.feedB then s
      else
        let s1 := onSv (fun v => orDrive { v with feedB := false }) s
        if s.sv.feedA then powerEvent 34 .feedLost 1 s1 else assertPor s1)

/-- ORING_REVERSE (R362): a FET that conducts is turned off, and stays so until its feed stands above the node again. -/
def execOringReverse (f : Feed) (s : State) : Host.Outcome State Fault Refusal :=
  .next (onSv (fun v => orDrive (match f with
    | .a => { v with orRevA := v.orRevA || v.orA }
    | .b => { v with orRevB := v.orRevB || v.orB })) s)

/-- ORING_REENABLE (R362): the feed has stood more than 10 mV above the node for 100 µs; the FET conducts where its feed is in range and heat does not keep it off. -/
def execOringReenable (f : Feed) (s : State) : Host.Outcome State Fault Refusal :=
  .next (onSv (fun v => orDrive (match f with
    | .a => { v with orRevA := false }
    | .b => { v with orRevB := false })) s)

/-- ORING_FET_SHORT (R363): found while that FET's gate is off. -/
def execOringFetShort (f : Feed) (s : State) : Host.Outcome State Fault Refusal :=
  .next (match f with
    | .a => if s.sv.orA then s else powerEvent 33 .orShort 0 s
    | .b => if s.sv.orB then s else powerEvent 34 .orShort 1 s)

/-- Signed 0.1 °C reading above a limit in °C. -/
def hotter (t : BitVec 16) (deg : Nat) : Bool := decide (t.toInt > 10 * (deg : Int))

/-- Signed reading at or below a limit less 15 °C (R363, R368). -/
def cooled (t : BitVec 16) (deg : Nat) : Bool := decide (t.toInt ≤ 10 * ((deg : Int) - 15))

/-- An ORing FET's temperature (R363). -/
def orTemp (f : Feed) (s : State) : State :=
  let lim := chOtLimit s 32
  match f with
  | .a =>
    if hotter s.sv.tempA lim && !s.sv.orHotA then
      powerEvent 33 .fetHot 33 (onSv (fun v => orDrive { v with orHotA := true }) s)
    else if s.sv.orHotA && cooled s.sv.tempA lim then onSv (fun v => orDrive { v with orHotA := false }) s
    else s
  | .b =>
    if hotter s.sv.tempB lim && !s.sv.orHotB then
      powerEvent 34 .fetHot 34 (onSv (fun v => orDrive { v with orHotB := true }) s)
    else if s.sv.orHotB && cooled s.sv.tempB lim then onSv (fun v => orDrive { v with orHotB := false }) s
    else s

/-- A channel's temperature (R368): too hot turns it off as a fault; 15 °C below the limit it may restart. -/
def chTemp (e : Nat) (s : State) : State :=
  let c := getChan s e
  if conducting c && hotter c.tel.temp (chOtLimit s e) then chanFault e .overTemp false s
  else if c.hot && cooled c.tel.temp (chOtLimit s e) then onChan e (fun c => { c with hot := false }) s
  else s

/-- Input power of a sample in mW: HS output voltage (2 mV) × HS current (10 mA) (R379). -/
def inputMw (c : Chan) : Nat := c.tel.vout.toNat * c.tel.current.toNat * 20 / 1000

/-- One ms of input power and of power-good time into the meter and the SV counters (R379, R413). -/
def meterSample (s : State) : State :=
  let mw := inputMw (getChan s 32)
  let uj := s.meter.microJ + mw
  let s1 := addCnt (svCnt 0) (uj / 1000000) (onMeter (fun m => { m with samples := mw :: m.samples, microJ := uj % 1000000 }) s)
  (List.range 33).foldl (fun s e => if (getChan s e).state = .powerGood then addCnt (svCnt (4 + e)) 1 s else s) s1

/-- TELEMETRY_SAMPLE (R361, R363, R368, R379), with the PRESENT_N contacts as they read at it (log 161). -/
def execTelemetrySample (m : Telemetry) (s : State) : Host.Outcome State Fault Refusal :=
  if !s.sv.feedA && !s.sv.feedB then .next s else
  let s1 := onSv (fun v => { v with vinA := m.vinA, vinB := m.vinB, tempA := m.tempA, tempB := m.tempB, presentRaw := m.presentRaw }) s
  let s2 := m.chans.foldl (fun s p => onChan p.1.val (fun c => { c with tel := p.2 }) s) s1
  let s3 := meterSample s2
  let s4 := orTemp .b (orTemp .a s3)
  .next (m.chans.foldl (fun s p => chTemp p.1.val s) s4)

/-- PRESENT_QUALIFIED (R361, R373): both PRESENT_N have read low for 100 ms. -/
def execPresentQualified (s : State) : Host.Outcome State Fault Refusal :=
  .next (if s.sv.feedA || s.sv.feedB then onSv (fun v => { v with presentRaw := 3#2, present := true }) s else s)

/-- REMOVAL (R375): RESET_N driven and the power path taken down in order; not a fault, nothing counted. -/
def execRemoval (opened : BitVec 2) (s : State) : Host.Outcome State Fault Refusal :=
  if opened = 0#2 then .next s else
  let s1 := onSv (fun v => { v with presentRaw := v.presentRaw &&& ~~~opened, present := false }) s
  .next (if s.sv.present then onChan 32 (chOff s.time.now) (dropBus (driveReset s1)) else s1)

/-- CHANNEL_START (R364): the short test, then gate drive. -/
def execChannelStart (e : ChanId) (shorted : Bool) (s : State) : Host.Outcome State Fault Refusal :=
  if !mayStart s e.val then .next s
  else if shorted then .next (chanFault e.val .short true s)
  else .next (onChan e.val (fun c => { c with state := .starting, tested := false }) s)

/-- DAMAGED_FET_TEST (R361, R364): below 3 V at 1 ms the FET is damaged. -/
def execDamagedFetTest (e : ChanId) (mv : Nat) (s : State) : Host.Outcome State Fault Refusal :=
  let c := getChan s e.val
  .next (if c.state = .starting ∧ ¬c.tested then
      (if mv < 3000 then chanFault e.val .damaged true s else onChan e.val (fun c => { c with tested := true }) s)
    else s)

/-- OUTPUT_REACHES_INPUT (R364 step 5). -/
def execOutputReachesInput (e : ChanId) (s : State) : Host.Outcome State Fault Refusal :=
  .next (if (getChan s e.val).state = .starting then onChan e.val (fun c => { c with clamped := true, gate10 := true }) s else s)

/-- START_LIMIT_EXPIRY (R361, R364, R366): a start whose gate has not reached 10 V. -/
def execStartLimitExpiry (e : ChanId) (s : State) : Host.Outcome State Fault Refusal :=
  .next (if (getChan s e.val).state = .starting ∧ (getChan s e.val).clamped = false then chanFault e.val .startLimit false s else s)

/-- The fault timer's count has reached TIMER, as it now stands (R367). -/
def timerReached (s : State) (e : Nat) : Bool := decide (4000 * chTimer s e ≤ timerNow s.time.now (getChan s e))

/-- POWER_GOOD_QUALIFIED (R365, R366, R373): only with the gate at 10 V or above, and not where the fault timer has reached TIMER, which is a fault; HS power-good enables the intermediate bus, E0t the first rail of its tile, E(24 + t) reports the NVM
rails of Tt. -/
def execPowerGoodQualified (e : ChanId) (s : State) : Host.Outcome State Fault Refusal :=
  let c := getChan s e.val
  if ¬(c.state = .starting ∧ c.tested ∧ c.gate10) then .next s
  else if timerReached s e.val then .next (chanFault e.val .faultTimer false s) else
  let s1 := onChan e.val (fun c => { c with state := .powerGood, goodAt := s.time.now }) s
  .next (onSv (fun v =>
    if e.val = 32 then { v with ibcEn := true }
    else if e.val < 8 then { v with railEn := Table.set 0#5 v.railEn e.val 1#5 }
    else if 24 ≤ e.val then { v with nvmRails := setBit v.nvmRails (e.val - 24) true }
    else v) s1)

/-- CHANNEL_OVERCURRENT (R366, R367): the shunt voltage crosses V_CB; current limiting that pulls the gate below 10 V
ends qualification, which starts again when the gate is back at its clamp; after power-good the gate is the fault timer's concern. -/
def execChannelOvercurrent (e : ChanId) (above pulled : Bool) (s : State) : Host.Outcome State Fault Refusal :=
  .next (if conducting (getChan s e.val) then
      onChan e.val (fun c => { c with timer := timerNow s.time.now c, timerAt := s.time.now, above := above,
                                       gate10 := c.clamped && !pulled }) s
    else s)

/-- FAULT_TIMER_EXPIRY (R366, R367): nothing where the count stands below TIMER: an overload that ends before is no trip. -/
def execFaultTimerExpiry (e : ChanId) (s : State) : Host.Outcome State Fault Refusal :=
  .next (if conducting (getChan s e.val) && timerReached s e.val then chanFault e.val .faultTimer false s else s)

/-- FAST_TRIP (R361, R367). -/
def execFastTrip (e : ChanId) (s : State) : Host.Outcome State Fault Refusal :=
  .next (if conducting (getChan s e.val) then chanFault e.val .fastTrip false s else s)

/-- A wait of `us` since the channel turned off ends: the channel may be started again (R369–R371). -/
def waitOver (e us : Nat) (s : State) : State :=
  if (getChan s e).state = .retryWait ∧ (getChan s e).offAt + us ≤ s.time.now then onChan e (fun c => { c with state := .off }) s else s

/-- RETRY_OFF_TIME_EXPIRY (R369): 100 × TIMER off, as TIMER stood at the fault; the channel is then started again. -/
def execRetryOffTimeExpiry (e : ChanId) (s : State) : Host.Outcome State Fault Refusal :=
  .next (if privileged e.val then s else waitOver e.val (100 * 500 * (getChan s e.val).offTimer) s)

/-- PRIVILEGED_RETRY_EXPIRY (R370): 1 s off; the channel is then started again. -/
def execPrivilegedRetryExpiry (e : ChanId) (s : State) : Host.Outcome State Fault Refusal :=
  .next (if privileged e.val then waitOver e.val 1000000 s else s)

/-- ATTEMPTS_RESET (R370): power-good held for 10 s. -/
def execAttemptsReset (e : ChanId) (s : State) : Host.Outcome State Fault Refusal :=
  .next (if privileged e.val && decide ((getChan s e.val).state = .powerGood) && decide ((getChan s e.val).goodAt + 10000000 ≤ s.time.now) then onChan e.val (fun c => { c with attempts := 0 }) s else s)

/-- IBC_PG_QUALIFIED (R372). -/
def execIbcPgQualified (s : State) : Host.Outcome State Fault Refusal :=
  .next (if s.sv.ibcEn then onSv (fun v => { v with ibGood := true }) s else s)

/-- IBC_PG_TIMEOUT (R372): HS off as a fault with cause bus lost. -/
def execIbcPgTimeout (s : State) : Host.Outcome State Fault Refusal :=
  .next (if s.sv.ibcEn && !s.sv.ibGood then chanFault 32 .busLost false s else s)

/-- IBC_PG_FALL (R372): while HS is power-good, whether or not the 1 ms hold has ended. -/
def execIbcPgFall (s : State) : Host.Outcome State Fault Refusal :=
  .next (if s.sv.ibcEn && decide ((getChan s 32).state = .powerGood) then chanFault 32 .busLost false s else s)

/-- TRAIL_PG_GOOD (R373): with all five good the tile's rails are good; with every tile's good, E08 to E31 may start. -/
def execTrailPgGood (t : TileId) (k : Fin 5) (s : State) : Host.Outcome State Fault Refusal :=
  if !(Table.get 0#5 s.sv.railEn t.val).getLsbD k.val then .next s else
  let pg := setBit (Table.get 0#5 s.sv.railPg t.val) k.val true
  let s1 := onSv (fun v => { v with railPg := Table.set 0#5 v.railPg t.val pg,
                                    tilesGood := if pg = 31#5 then setBit v.tilesGood t.val true else v.tilesGood }) s
  .next (reachStep7 s1)

/-- RAIL_ENABLE (R373): the next TRAIL_EN of the tile, once every enabled rail is good. -/
def execRailEnable (t : TileId) (s : State) : Host.Outcome State Fault Refusal :=
  let en := Table.get 0#5 s.sv.railEn t.val
  .next (if en ≠ 0#5 ∧ Table.get 0#5 s.sv.railPg t.val = en ∧ en ≠ 31#5 then
      onSv (fun v => { v with railEn := Table.set 0#5 v.railEn t.val ((en <<< 1) ||| 1#5) }) s
    else s)

/-- TRAIL_PG_TIMEOUT (R372): E0t off as a fault with cause tile rail lost. -/
def execTrailPgTimeout (t : TileId) (s : State) : Host.Outcome State Fault Refusal :=
  .next (if Table.get 0#5 s.sv.railPg t.val ≠ Table.get 0#5 s.sv.railEn t.val then chanFault t.val .railLost false s else s)

/-- TRAIL_PG_FALL (R372): E0t off as a fault with cause tile rail lost, where the tile's rails are all good; in the sequence before that the rail is no longer
good, and its limit runs on (DEDUCED: "while its tile runs", log 132). -/
def execTrailPgFall (t : TileId) (k : Fin 5) (s : State) : Host.Outcome State Fault Refusal :=
  let pg := Table.get 0#5 s.sv.railPg t.val
  .next (if !pg.getLsbD k.val then s
    else if s.sv.tilesGood.getLsbD t.val then chanFault t.val .railLost false s
    else onSv (fun v => { v with railPg := Table.set 0#5 v.railPg t.val (setBit pg k.val false) }) s)

/-- POWERED_HOUR (R390): the powered-hours counter. -/
def execPoweredHour (s : State) : Host.Outcome State Fault Refusal := .next (if s.rst.por then s else onLog (splitInc 6) s)

end Sys2Proof.Machine
end

