-- ==== Sys2Proof/Machine/Scrub.lean ====
section
/-!
DEFINITION. The DRAM scrubber (R171–R175, R224, R225, R299).
-/
namespace Sys2Proof.Machine

/-- The tag lines of a store page are uncorrectable (R299): its eight lines are poisoned and the tags read zero. -/
def storeTagLost (r : Region) (t area leaf m : Nat) (s : State) : State :=
  let c := { storeLoc s r t area (64 * leaf) with i := 8 * m }
  let s1 := shadowWrite r t area (.inl (leaf, m)) (walkerPrio s) (onCry (fun x => { x with tags := Table.set none x.tags (tagKey c) (some 0#512) }) s)
  let s2 := (List.range 8).foldl (fun s j =>
    let k := 64 * leaf + 8 * m + j
    match storeGet s r t area k with
    | some x =>
      if metaPoison x.meta_ then s
      else if version s (storeLoc s r t area k) = 0 then taint (storeSa r.idx t area k) s
      else storePut r t area k (walkerPrio s) (mkRec (storeFold s r t area k) x.data (x.meta_ ||| (1#56 <<< 43))) s
    | none => taint (storeSa r.idx t area k) s) s1
  raiseReq t .cryTagUe (storeSa r.idx t area (64 * leaf + 8 * m)) 255 2 r.idx s2

/-- An uncorrectable line of a block area poisons the block whose run holds it (R254). -/
def storeLineBad (r : Region) (t k : Nat) (s : State) : State :=
  match s.pk.maps.find? (fun e => decide (e.1 / 2 ^ 24 = 1024 * t + r.idx) && decide (e.2.run ≤ k / 4) && decide (k / 4 < e.2.run + e.2.units)) with
  | some e => if e.2.fmt = 2 then s else poisonBlock r (blockAt s r t (e.1 % 2 ^ 24)) .store s
  | none => s

/-- An uncorrectable line of a tile-local NVM frame: of a block area, or of its tag lines (R200, R246, R285, R299). -/
def localNvmBad (t frame i : Nat) (s : State) : State :=
  match s.map.cat.find? (fun r => let b := regionBase s t r true; decide (r.typ = .packed) && decide (b ≤ frame) && decide (frame < b + regionLocalNvm s r)) with
  | none => s
  | some r =>
    let x := 64 * (frame - regionBase s t r true) + i
    if x < 64 * r.store then storeLineBad r t x s else storeTagLost r t 1 ((x - 64 * r.store) / 8) ((x - 64 * r.store) % 8) s

/-- The uncorrectable lines of tile-local NVM frames that a drift refresh has met are handled. -/
def settleLocal (s : State) : State := s.nvm.localBad.foldl (fun s e => localNvmBad e.1 e.2.1 e.2.2 s) (onNvm (fun x => { x with localBad := [] }) s)

/-- A read of a reader that took longer than R205's 1.6 µs is late (R205, R413): told by whole µs, so one of 2 µs or more is (log 82). -/
def countLate (n : Nat) (q : NReq) (s : State) : State :=
  match q.use with
  | .data _ _ _ => if q.since + 2 ≤ s.time.now then addCnt (linkCnt n 2) 1 s else s
  | _ => s

/-- RDD (R190, R193, R206): the chunk is decoded and used, or reconstructed. -/
def execRdd (n : LinkId) (s : State) : Host.Outcome State Fault Refusal :=
  match takeRsp n.val 0x21 s with
  | none => .next s
  | some (m, q, s1) =>
    let (ok, s2) := statusOk n.val m false (countLate n.val q s1)
    if !ok then .next (if m.status = 2 then s2 else settleLocal (reconFor n.val q none false s2))
    else .next (settleLocal (chunkRead n.val q m (bchDecode m.body) s2))

/-- An uncorrectable line of a tile-local frame (R176, R250, R299). -/
def localBad (r : Region) (t x : Nat) (flips : Flips) (s : State) : State :=
  let who : Reader := { kind := 2 }
  match localLineOf s r x with
  | .store 2 k =>
    let c := checkRec (storeFold s r t 2 k) (flipRec (storeBase s r t 2 k (recAt s t (64 * regionBase s t r false + x))) flips)
    mapAreaBad r t k c.bad s
  | .store _ k => storeLineBad r t k s
  | .tag area leaf m =>
    if area = 0 then
      let line := 64 * pageAt s t (localPage s (r.base / 4096) + leaf) + 8 * m
      tagLineLost r (dpaLoc s r line) line who s
    else storeTagLost r t area leaf m s
  | .item area l i =>
    damageItem ⟨r.idx, t, area, l, i⟩ (if area = 0 then share s r else if area = 1 then r.store else mapFrames s r) who s
  | .other => s

/-- The DPA line whose record lies at DRAM line F: of a page, or of an absorption slot (R171, R201). -/
def dramLineAt (s : State) (t f : Nat) : Option Nat :=
  if f / 64 < absBase s t then (ownerOf s t false (f / 64)).map (fun p => 64 * p + f % 64)
  else if f / 64 < mapFrame0 s t then
    (slotsUsed s t).findSome? (fun e =>
      (List.range 4).findSome? (fun i =>
        if e.2.mask.getLsbD i ∧ slotF s t e.2 i = f then
          (ownerOf s t true (e.1 / 16 % 2 ^ 32)).map (fun p => 64 * p + 4 * (e.1 % 16) + i)
        else none))
  else none

/-- The line is stale at its old frame: its page is MOVING and its COPIED bit set (R225). -/
def staleLine (s : State) (line : Nat) : Bool := match getMove s (line / 64) with | some m => m.copied.getLsbD (line % 64) | none => false

/-- The scrubber has read the line at a frame of a channel. -/
def scrubRead (d f : Nat) (s : State) : State := addCnt (subCnt d 6) 1 (addCnt (subCnt d 0) 1 (access (d / 16) f d s))

/-- A line of a page is scrubbed (R174, R224, R225): a locked line is skipped and counted, a poisoned one checked only. -/
def scrubPage (d f : Nat) (flips : Flips) (s : State) : State :=
  let t := d / 16
  match dramLineAt s t f with
  | none => s
  | some line =>
    if staleLine s line then s
    else if !lineFree s line then addCnt (tileCnt t 471) 1 s
    else
      let r := flipRec (recAt s t f) flips
      let c := checkRec line r
      let s1 := scrubRead d f s
      if metaPoison c.out.meta_ && !c.bad.contains 8 then countUe d c.bad.length (countCe d c.fixed s1)
      else
        let put (x : Rec) (s : State) : State := drWrite t f x (walkerPrio s) s
        let (y, lost, s2) := settleRec line r (.inl d) { kind := 2 } put s1
        match regionAt s (64 * line) with
        | some g => if lost then s2 else (fixKey line g { kind := 2 } put y s2).2.2
        | none => s2

/-- A frame of the placement maps, the frame owner tables or the block table is scrubbed (R86, R171): State holds these as their entries (log 121), so the
flips alone decide, the code being linear. -/
def scrubTable (d f : Nat) (flips : Flips) (s : State) : State :=
  let t := d / 16
  let c := checkRec (localFold t f) (flipRec (mkRec (localFold t f) 0#512 0#56) flips)
  let s1 := countUe d c.bad.length (countCe d c.fixed (scrubRead d f s))
  if c.bad.isEmpty then (if c.fixed = 0 then s1 else drWrite t f (recAt s t f) (walkerPrio s) s1)
  else raiseReq t .drUe (64 * localFold t f) 255 2 d s1

/-- The store line at a tile-local frame, with its fold, where State holds its record. -/
def localRec (s : State) (r : Region) (t f x : Nat) : Option (Nat × Rec) :=
  match localLineOf s r x with | .store a k => some (storeFold s r t a k, storeBase s r t a k (recAt s t f)) | _ => none

/-- The check of a line of a packed store, a tag or a counter line (R86). -/
def localCheck (flips : Flips) : Option (Nat × Rec) → Checked
  | some (fold, base) => checkRec fold (flipRec base flips)
  | none => checkRec 0 (flipRec (mkRec 0 0#512 0#56) flips)

/-- A store line's record carries the wrong KEY (R281). -/
def localKeyBad (s : State) (r : Region) (t x : Nat) (y : Rec) : Bool :=
  match localLineOf s r x with
  | .store a k => decide (metaKey y.meta_ ≠ slotFor s r (storeLoc s r t a k))
  | _ => false

/-- A line of a packed store, a tag or a counter line is scrubbed (R86, R171): `r` and `x` say which. -/
def scrubLocal (d f : Nat) (r : Region) (x : Nat) (flips : Flips) (s : State) : State :=
  let t := d / 16
  let c := localCheck flips (localRec s r t f x)
  let s1 := countUe d c.bad.length (countCe d c.fixed (scrubRead d f s))
  if !c.bad.isEmpty then localBad r t x flips s1
  else if localKeyBad s r t x c.out then
    match localLineOf s r x with
    | .store a k => (checkKey r (storeLoc s r t a k) (storeFold s r t a k) (storeMeta s r (storeLoc s r t a k)) { kind := 2 } (fun y s => drWrite t f y (walkerPrio s) s) c.out s1).2.2
    | _ => s1
  else if c.fixed = 0 then s1 else drWrite t f (if (localRec s r t f x).isSome then c.out else recAt s t f) (walkerPrio s) s1

/-- One line is scrubbed (R171): the frames below the tile-local part hold pages, and `localAt` says what the rest hold. -/
def scrubLine (d f : Nat) (flips : Flips) (s : State) : State :=
  if f / 64 < mapFrame0 s (d / 16) then scrubPage d f flips s
  else match localAt s (d / 16) f with
    | none => scrubTable d f flips s
    | some (r, x) => scrubLocal d f r x flips s

/-- Line F at a scrub position: the sub-channel's lines in ascending F (R152, R171). -/
def scrubF (s : State) (d k : Nat) : Nat :=
  let p := popSubs s (d / 16)
  (((k / 4) * p.length + (p.idxOf? d).getD 0) * 4) + k % 4

/-- SCRUB_TICK (R172, R173): a scrub interval of the sub-channel ends. In Dusk the position holds and the sub-channel falls behind by a line; in
catch-up each line takes it one line nearer its schedule (log 49). -/
def execScrubTick (d : SubId) (flips : Flips) (s : State) : Host.Outcome State Fault Refusal :=
  let x := getSub s d.val
  let t := d.val / 16
  if !walkersRun s t || x.st ≠ .service || x.trn.isSome || regFld s .drScrubCfg t 19 0 = 0 then .next s
  else if inDusk s d.val then .next (onSub d.val (fun c => { c with lag := c.lag + 1 }) s)
  else
    -- a scrub request ranks below every other (R157): those that are queued are issued before it
    let s1 := scrubLine d.val (scrubF s d.val x.scrub) flips (drServeAll d.val s)
    let n := subLines s d.val
    .next (onSub d.val (fun c =>
      let wrap := decide (n ≤ c.scrub + 1)
      { c with scrub := if wrap then 0 else c.scrub + 1, passes := if wrap then satAdd c.passes 1 32767 else c.passes,
               lag := c.lag - 1, behind := c.behind && decide (1 < c.lag) }) s1)

end Sys2Proof.Machine
end

