-- ==== Sys2Proof/Machine/Views.lean ====
section
/-!
DEFINITION. What every register of BAR0 and of a ring block reads as (R7–R11, R419–R430): the stored bits, and the fields the hardware keeps as views
of the block's own state.
-/
namespace Sys2Proof.Machine

/-- SPEED of HP_PORT_STS, and its FLIT_MODE. -/
def speedCode : Rate → Nat | .down => 0 | .g2_5 => 1 | .g8 => 2 | .g16 => 3 | .g32 => 4 | .g64 => 5
def flitCode : FlitMode → Nat | .none => 0 | .f68 => 1 | .f256 => 2 | .f256lo => 3

/-- HP_PORT_STS[p] without PERST_SEEN. -/
def portSts (s : State) (p : Nat) : W32 :=
  let x := getPort s p
  if headOf s p ≠ p then word [(14, b2n (getPort s (headOf s p)).midnightStop), (12, 1)]
  else word [(14, b2n x.midnightStop), (11, b2n x.bi), (9, flitCode x.flit), (4, x.width % 32), (1, speedCode x.rate), (0, b2n x.up)]

/-- The ranges being filled on tile `t` (R90): a range of any region spreads over every tile, and is filled on each for itself. -/
def fillsNow (s : State) (t : Nat) : List Fill := s.map.fills.filterMap (fun e => e.2.filter (fun f => !f.done.getLsbD t))

/-- Parts per 1,024 of a tile's share of a range already filled (HA_FILL_STS). -/
def fillPart (s : State) (t : Nat) (f : Fill) : Nat :=
  let n := max 1 (f.len / 4096 / tiles s)
  let left := ((pagesLeft s f).filter (fun p => decide (homeOf s (64 * p) = t))).length
  min 1023 (1024 * (n - left) / n)

def lowestFill : List Fill → Option Fill
  | [] => none
  | f :: l => match lowestFill l with | some g => some (if g.region < f.region then g else f) | none => some f

/-- HA_FILL_STS[t] (R90). -/
def fillSts (s : State) (t : Nat) : W32 :=
  match lowestFill (fillsNow s t) with
  | none => word [(10, Table.get 0 s.map.lastFill t)]
  | some f => word [(31, 1), (20, min 1024 ((fillsNow s t).length - 1)), (10, f.region), (0, fillPart s t f)]

/-- ATW_CFG of a function (R141). -/
def atwCfg (s : State) (h ld : Nat) : W32 :=
  match windowBase s h ld with
  | some b => word [(7, b / 2 ^ 23 % 2 ^ 25), (0, 1)]
  | none => 0#32

def subStCode : SubState → Nat | .absent => 0 | .training => 1 | .service => 2 | .out => 3
def subWhyCode : SubReason → Nat | .none => 0 | .unsupported => 1 | .training => 2 | .interleave => 3 | .efuse => 4 | .pmic => 5 | .phy => 6
def nlStCode : NlState → Nat | .absent => 0 | .training => 1 | .active => 2 | .retraining => 3 | .out => 4 | .spare => 5 | .rebuilding => 6
def nlWhyCode : NlReason → Nat
  | .none => 0 | .training => 1 | .retry => 2 | .package => 3 | .efuse => 4 | .unsupported => 5 | .population => 6
def grpCode : GrpState → Nat | .absent => 0 | .normal => 1 | .degraded => 2 | .lost => 3

/-- Parts per 1,024 of the scrubber's pass (DR_SCRUB_STS). -/
def scrubPart (s : State) (d : Nat) : Nat := min 1023 (1024 * (getSub s d).scrub / max 1 (subLines s d))

/-- NL_WEAR_STS[t]: blocks worn, and the smallest number of unused spares in any package of the tile. -/
def wearSts (s : State) (t : Nat) : W32 :=
  let worn := s.nvm.blks.filter (fun e => decide (e.1 / 2 ^ 23 / 80 = t) && decide (e.2.st = .worn))
  let pkgs := (List.range 40).flatMap (fun l => (List.range (getLink s (40 * t + l)).pkgs).map (fun p => sparesLeft s (40 * t + l) p))
  let low := match pkgs with | [] => 0 | x :: l => l.foldl min x
  word [(16, min worn.length 65535), (0, min low 65535)]

def groupSts (s : State) (t : Nat) : W32 :=
  word ((List.range 4).flatMap (fun k => let g := getGrp s t k
    [(8 * k + 6, grpCode g.st), (8 * k, g.missing)]))

def trainSts (s : State) (n : Nat) : W32 :=
  let l := getLink s n
  word [(24, min l.retrains 255), (12, l.pos), (10, l.grp), (8, l.pkgs), (5, nlWhyCode l.reason), (0, nlStCode l.st)]

/-- A region's current slot, or a pass, uses a key slot (CRY_KEY_STS, R277). -/
def keyUsed (s : State) (k : Nat) : Bool :=
  s.map.cat.any (fun r => decide ((currentKey s r).toNat = k)) || s.cry.passes.any (fun p => decide (p.old.toNat = k) || decide (p.new.toNat = k))

def keySts (s : State) : W32 :=
  let k := regFld s .cryKeySel 0 11 0
  match keySlot s (BitVec.ofNat 12 k) with
  | none => 0#32
  | some _ => word [(30, if keyUsed s k then 2 else 1)]

/-- The packed region PK_SPACE_SEL names. -/
def spaceRegion (s : State) (t : Nat) : Option Region := (regionOf s (regFld s .pkSpaceSel t 9 0)).filter (fun r => r.typ = .packed)

/-- Free units of a store, and its longest free run (PK_SPACE_STS, PK_SPACE_FREE): `runs` are the runs in use. -/
def freeUnits (runs : List (Nat × Nat)) (total : Nat) : Nat := total - runs.foldl (fun a x => a + x.2) 0
def longestFree (runs : List (Nat × Nat)) (total : Nat) : Nat :=
  (0 :: runs.map (fun x => x.1 + x.2)).foldl (fun best a =>
    let stop := runs.foldl (fun m x => if a ≤ x.1 then min m x.1 else m) total
    if runs.any (fun x => decide (x.1 ≤ a) && decide (a < x.1 + x.2)) then best else max best (stop - a)) 0

def spaceSts (s : State) (t : Nat) : W32 :=
  match spaceRegion s t with
  | none => 0#32
  | some r => word [(31, 1), (30, b2n (!storeInDram s r.idx)), (0, min 511 (longestFree (runsOf s t r.idx) (16 * r.store)))]

def spaceFree (s : State) (t : Nat) : W32 :=
  match spaceRegion s t with
  | none => 0#32
  | some r => BitVec.ofNat 32 (freeUnits (runsOf s t r.idx) (16 * r.store) / 16)

/-- Ingest parts of a tile that hold a run awaiting commit or discard (PK_STS PENDING). -/
def pendingRuns (s : State) (t : Nat) : Nat :=
  let held (b : Option BlkRes) : Bool := match b with | some x => decide (0 < x.units) | none => false
  Table.count (fun _ p => match p with | some p => decide (p.tile = t) && held p.res | none => false) s.job.parts +
  s.job.jobs.foldl (fun a e => match e.2 with
    | some j => if j.ended_ then a else a + (j.reports.filter (fun p => decide (p.tile = t) && held p.blk)).length
    | none => a) 0

def svPpSts (s : State) : W32 :=
  word [(24, s.sv.tilesGood.toNat), (16, b2n s.sv.ibGood), (15, b2n s.sv.present), (13, s.sv.presentRaw.toNat), (12, b2n s.sv.orB), (11, b2n s.sv.orA),
        (10, b2n s.sv.feedB), (9, b2n s.sv.feedA)]

/-- SV_CH_STS[e]. -/
def chSts (s : State) (e : Nat) : W32 :=
  let c := getChan s e
  let st := if chanUsed s e then chStateCode c.state else 5
  word [(29, st), (25, chCauseCode c.cause), (23, if privileged e then c.attempts else 0), (22, b2n (decide (c.state = .latched))), (0, c.trips)]

def escSts (s : State) : W32 :=
  let f := s.faults
  let q := f.grace.any (fun x => decide (faultClass s x = 2))
  word [(31, b2n f.rr), (30, b2n q), (29, b2n f.quiescing), (28, b2n f.quiesced), (27, b2n f.midnight), (26, b2n f.rrDawn), (16, f.qSource),
        (0, if f.rrDawn then 0 else f.rrSource)]

def dawnSts (s : State) : W32 :=
  let d := s.dawn
  word [(31, b2n d.runLock), (30, b2n d.failed), (29, b2n d.recovery), (28, b2n d.slotB), (27, b2n d.optDefault), (24, d.stage), (20, d.failCode),
        (0, min d.resets 65535)]

def fuseInfo (s : State) : W32 := word [(24, b2n (decide (s.fuse.anchor ≠ 0#256))), (16, s.fuse.tiles), (0, s.fuse.id.toNat)]

def lsSts (s : State) : W32 :=
  word [(31, b2n s.log.scanning), (30, b2n s.log.hintUsed), (29, b2n s.log.hintOff), (25, s.log.worn.toNat), (16, s.log.retired.length), (0, s.log.lost)]

/-- One half of a 48-bit counter, or of a latched bandwidth pair. -/
def half (hi : Bool) (v : Nat) : W32 := BitVec.ofNat 32 (if hi then v >>> 32 else v)

/-- The bits of a register that the hardware keeps: its RO, ROS and self-clearing fields; 0 where a field is stored (`State.regs`). -/
def hwBits (s : State) (k : RegKind) (i : Nat) : W32 :=
  match k with
  | .hpPortSts => portSts s i
  | .haFillSts => fillSts s i
  | .haDirSts => word [(16, (evictions s i).length), (0, trkActive s i)]
  | .ncSts => word [(16, evbCount s i), (0, trkCount s i)]
  | .ncRangeCtl => word [(4, b2n (getRange s i).run.isSome)]
  | .ncRangeSts => word [(0, min (getRange s i).skipped (2 ^ 30 - 1))]
  | .drRefSts => word [(7, b2n (decide ((getSub s i).high ≠ 0#16))), (0, (getSub s i).debt.foldl (fun a e => max a e.2) 0)]
  | .drDuskSts => word [(0, (List.range 8).foldl (fun a c => a + (if (getDimm s i c).dusk = .asleep then 2 ^ c else 0)) 0)]
  | .drTrnCtl => word [(31, b2n (getSub s i).trn.isSome)]
  | .drTrnSts => word [(8, (getSub s i).errs), (0, (getSub s i).lanes.toNat / 2 ^ 32)]
  | .drTrnLane => BitVec.ofNat 32 (getSub s i).lanes.toNat
  | .drPhyAcc => word [(0, (Table.get 0#10 (getSub s i).phy (phyKey (regRaw s .drPhyAcc i))).toNat)]
  | .drScrubSts => word [(31, b2n (getSub s i).behind), (16, min (getSub s i).passes 32767), (0, scrubPart s i)]
  | .drChSts => word [(3, subWhyCode (getSub s i).reason), (0, subStCode (getSub s i).st)]
  | .nlWearSts => wearSts s i
  | .nlAbsSts => word [(0, (slotsUsed s i).length)]
  | .nlGroupSts => groupSts s i
  | .nlTrainSts => trainSts s i
  | .trSts => word [(31, b2n (dramStop s i)), (22, (movesOn s i).length), (11, (Table.get [] s.tier.demote i).length), (0, (Table.get [] s.tier.promote i).length)]
  | .jeSts => word [(16, partSlots s i), (0, jobSlots s i)]
  | .pkSts => word [(20, decsOn s i + validating s i), (16, compressing s i), (0, pendingRuns s i)]
  | .pkSpaceSts => spaceSts s i
  | .pkSpaceFree => spaceFree s i
  | .cryKeySts => keySts s
  | .cryKeyGen => match keySlot s (BitVec.ofNat 12 (regFld s .cryKeySel 0 11 0)) with | some x => x.gen | none => 0#32
  | .crySts => word [(31, b2n (s.faults.alarm.getLsbD i)), (30, b2n (s.cry.treeAll.any (fun x => decide (x.2.1 = i)))),
      (16, (s.cry.damaged.filter (fun x => x.tile = i)).length), (8, s.cry.passes.length)]
  | .qosTrk => word [(16, trkInUse s (i / 16) (i % 16))]
  | .qosTileSts => word [(29, s.meter.throttle), (16, sharedUse s i), (0, sharedPool s i)]
  | .qosCbw => half (decide (i % 2 = 1)) (cntVal s (tileCnt (i / 64) (96 + 2 * (i % 64 / 4) + i % 4 / 2))).toNat
  | .qosSts => word [(31, b2n s.qos.busy.isSome), (28, s.qos.result), (27, b2n s.qos.duskOff), (26, b2n s.qos.hot), (0, s.qos.shed.toNat)]
  | .dawnSts => dawnSts s
  | .fuseInfo => fuseInfo s
  | .rstClkSts => word [(0, (Table.get 0#7 s.clk.good i).toNat)]
  | .svPpSts => svPpSts s
  | .svFeedTel => word [(16, s.sv.vinB.toNat), (0, s.sv.vinA.toNat)]
  | .svOrTemp => word [(16, s.sv.tempB.toNat), (0, s.sv.tempA.toNat)]
  | .svPwr => word [(16, s.meter.peak.toNat), (0, s.meter.avg.toNat)]
  | .svRailSts => word [(8, (Table.get 0#5 s.sv.railEn i).toNat), (0, (Table.get 0#5 s.sv.railPg i).toNat)]
  | .svChSts => chSts s i
  | .svTelA => word [(16, (getChan s i).tel.current.toNat), (0, (getChan s i).tel.vout.toNat)]
  | .svTelB => word [(16, (getChan s i).tel.vgs.toNat), (0, (getChan s i).tel.temp.toNat)]
  | .lsSts => lsSts s
  | .lsSeq => s.log.nextSeq
  | .fcSts => groupOf s.faults.sts i
  | .fcEn => groupOf s.faults.en i
  | .fcEscSts => escSts s
  | .fcCfg => word [(4, b2n (srcFixed i))]
  | .cntWinSts => Table.get 0#32 s.cnt.latches i
  | .cntPortBw => Table.get 0#32 s.cnt.bw (portCnt (i / 2) (2 + i % 2))
  | .cntClsBw => if i % 64 < 32 then Table.get 0#32 s.cnt.bw (tileCnt (i / 64) (96 + i % 64)) else 0#32
  | .hpGangCfg | .haDirCfg | .haBiCfg | .ncWayCfg | .ncRangeBaseLo | .ncRangeBaseHi | .ncRangeLen | .atwCfg | .atpCfg | .drSchedCfg | .drRefCfg
  | .drDuskCfg | .drTrnPat | .drScrubCfg | .nlWearCfg | .nlWearRetire | .nlDriftCfg | .nlAbsCfg | .nlAbsLvl | .trCfg | .trFree | .trRate | .trReserve
  | .trBudget | .pkCfg | .pkSpaceSel | .cryKeySel | .cryTwCfg | .qosClsCfg | .rstBlkCtl | .svChCfg | .fcForce | .fcGrace | .cntWinCfg => 0#32

/-- What a register word reads as, to firmware and the management head. SET and VALUE of DR_PHY_ACC and START of DR_TRN_CTL read as their tables say;
the stored STS, EN of the collector have no copy in the register file, and its bits and words of absent tiles read 0 (R399). -/
def regView (s : State) (k : RegKind) (i : Nat) : W32 :=
  match k with
  | .fcSts | .fcEn | .fcForce => hwBits s k i &&& groupMask s i
  | .fcCfg => if srcPresent (tiles s) i then regRaw s k i ||| hwBits s k i else 0#32
  | .drPhyAcc => (regRaw s k i &&& 0x7FFFFC00#32) ||| hwBits s k i
  | .drTrnCtl => (regRaw s k i &&& 0x7FFFFFFF#32) ||| hwBits s k i
  | _ => regRaw s k i ||| hwBits s k i

/-- The instance is implemented on the member (R423): its tile, and for a channel of SV a channel that exists. -/
def regThere (s : State) (k : RegKind) (i : Nat) : Bool := match regTile k i with | some t => hasTile s t | none => true

/-- A head that is not the management head may read the register (R424). -/
def tenantMay (s : State) (h : Nat) (k : RegKind) (i : Nat) : Bool :=
  match k with
  | .atwCfg | .dawnSts | .fuseInfo | .qosSts => true
  | .hpPortSts => decide (headOf s i = h)
  | .cntPortBw => decide (i / 2 = h)
  | _ => false

/-- RING_STS[r] and RING_CTL[r] (R228). -/
def ringStCode : RingSt → Nat | .disabled => 0 | .initialising => 1 | .running => 2 | .aborting => 3 | .disabling => 4 | .stopped => 5
def ringSts (x : Ring) : W32 :=
  word [(29, ringStCode x.st), (28, b2n x.tailErr), (27, b2n x.cqhErr), (26, b2n x.cfgErr), (15, x.cfgCode), (0, x.inflight)]
def ringCtl (x : Ring) : W32 := word [(1, b2n (decide (x.st = .aborting))), (0, b2n (decide (x.st ≠ .disabled ∧ x.st ≠ .disabling)))]

/-- A word of a ring block (R227). -/
def ringWord (x : Ring) (o : Nat) : W32 :=
  if o = 0 then x.tail else if o = 4 then x.cqHead else if o = 8 then x.head else if o = 12 then x.cqTail
  else if o = 16 then ringSts x else if o = 20 then ringCtl x else if o = 24 then x.cfg
  else if o = 32 then half false x.dbase.toNat else if o = 36 then half true x.dbase.toNat
  else if o = 40 then half false x.cbase.toNat else if o = 44 then half true x.cbase.toNat
  else 0#32

/-- A 32-bit read of a ring block through BAR2 (R60, R227, R228): it goes to the ring's serving tile, is Completer Abort where that tile cannot be
reached, and reads 0 to a head that is neither the owner nor the management head, whatever the path (R430). -/
def readRing (s : State) (a : Agent) (r o : Nat) : Option W32 :=
  match ringRow s a r with
  | .denied => some 0#32
  | .full | .owner =>
    if !tileRuns s (servingTile s r) || cutOff s (entryTile a) (servingTile s r) then none else some (ringWord (getRing s r) o)

/-- The numbers CXL gives its mailbox return codes (PRESUMED CXL 3.1, log 117). -/
def rcNum : MbRc → Nat
  | .success => 0x00 | .bgStarted => 0x01 | .invalidInput => 0x02 | .unsupported => 0x03 | .internalError => 0x04 | .retryRequired => 0x05
  | .busy => 0x06 | .invalidPhysicalAddress => 0x0F | .aborted => 0x12 | .invalidSecurityState => 0x13 | .invalidPayloadLength => 0x16

/-- Status bit of an event log (R55; PRESUMED CXL 3.1, log 117). -/
def logBit : EvLog → Nat | .info => 0 | .warning => 1 | .failure => 2 | .fatal => 3 | .dc => 4

/-- Event Status of a function: the logs that hold records (R55). -/
def eventStatus (s : State) (f : Nat) : Nat :=
  [EvLog.info, .warning, .failure, .fatal, .dc].foldl (fun a l => if (getFn s f).events.any (fun e => decide (e.log = l)) then a + 2 ^ logBit l else a) 0

/-- A command of the function waits: a Clear Log for its mark (R398), a poison command for its line (R460). Its mailbox's doorbell is set (R55). -/
def mailboxBusy (s : State) (f : Nat) : Bool :=
  s.host.clearing.contains f ||
  s.nc.ops.any (fun e => e.2.any (fun w => match w with | .poisonCmd k _ _ => decide (k = f) | _ => false))

/-- Background Command Status: opcode, percentage complete and return code (R55, R66). -/
def bgStatus (s : State) : Nat :=
  match s.host.bg with
  | some (op, live, rc) => op.toNat + 2 ^ 16 * (if live then 0 else 100) + 2 ^ 32 * rcNum rc
  | none => 0

/-- Memory Device Status (R49, R55, R407): Media Status is "error" from a quiesce on, ready once Mem_Active is set, and so "not ready" after a failed Dawn;
the mailbox is ready while the primary serves it. -/
def memDeviceStatus (s : State) : Nat := (if quiesced s then 8 else 4 * b2n s.dawn.memActive) + 16 * b2n (primaryRuns s)

/-- The capabilities that R420 lists, in its order, as CXL 3.1 numbers them, with their places from 0x1_0000 and their lengths (PRESUMED, log 117). -/
def devCaps : List (Nat × Nat × Nat) := [(0x0001, 0x80, 8), (0x0002, 0x100, 0x20 + 4096), (0x4000, 0x2000, 8)]

/-- Base of the HDM decoder capability: where the header of the CXL.cachemem primary range says (R420; PRESUMED CXL 3.1, log 117). -/
def hdmBase : Nat := 0x1000 + (Config.cxlReg 0x100C).toNat / 2 ^ 20

/-- Word `o` of HDM decoder `i` (R71; PRESUMED CXL 3.1, log 117): base, size, control with its committed and error bits, and DPA skip. -/
def decoderWord (f : FnSt) (i o : Nat) : W32 :=
  match Table.get none f.decs i with
  | none => if o = 16 then word [(11, b2n f.commitErr)] else 0#32
  | some d =>
    match o with
    | 0 => half false d.base
    | 4 => half true d.base
    | 8 => half false d.size
    | 12 => half true d.size
    | 16 => word [(13, b2n d.bi), (12, 1), (10, 1), (9, 1), (4, Nat.log2 d.ways), (0, Nat.log2 d.gran - 8)]
    | 20 => half false d.skip
    | 24 => half true d.skip
    | _ => 0#32

/-- A 32-bit word of the CXL device registers of a function at the places R420 gives them (R54, R55, R66), each block laid out as CXL 3.1 does (PRESUMED,
log 117); none for the words that only CXL gives content. The mailbox has 4 KiB of payload and reports neither its doorbell nor its background interrupt
as supported. -/
def deviceWord (s : State) (f : Nat) (off : Nat) : Option W32 :=
  let rsp := (getFn s f).rsp
  match off with
  | 0x10000 => some (word [(24, 1), (16, 1)])
  | 0x10004 => some (BitVec.ofNat 32 devCaps.length)
  | 0x10080 => some (BitVec.ofNat 32 (eventStatus s f))
  | 0x10084 => some 0#32
  | 0x10100 => some (word [(6, 0), (5, 0), (0, 12)])
  | 0x10104 => some (word [(2, 0), (1, 0), (0, b2n (mailboxBusy s f))])
  | 0x10108 => some (half false (getFn s f).mbCmd.toNat)
  | 0x1010C => some (half true (getFn s f).mbCmd.toNat)
  | 0x10110 => some (word [(0, b2n (match s.host.bg with | some (_, live, _) => live | none => false))])
  | 0x10114 => some (word [(0, match rsp with | some r => rcNum r.rc | none => 0)])
  | 0x10118 => some (BitVec.ofNat 32 (bgStatus s))
  | 0x1011C => some (BitVec.ofNat 32 (bgStatus s / 2 ^ 32))
  | 0x12000 => some (BitVec.ofNat 32 (memDeviceStatus s))
  | 0x12004 => some 0#32
  | _ =>
    let c := (off - 0x10010) / 16
    match (if 0x10010 ≤ off then devCaps[c]? else none), (off - 0x10010) % 16 with
    | some (id, _, _), 0 => some (word [(16, 1), (0, id)])
    | some (_, place, _), 4 => some (BitVec.ofNat 32 place)
    | some (_, _, len), 8 => some (BitVec.ofNat 32 len)
    | some _, _ => some 0#32
    | none, _ => none

/-- The mailbox payload (R66, R420). -/
def inPayload (off : Nat) : Bool := decide (0x10120 ≤ off) && decide (off < 0x11120)

/-- A byte of the mailbox payload: as last written, or, once a command has answered, a free value where it has not been written since. -/
def payloadAt (s : State) (f off : Nat) : Byte :=
  let x := getFn s f
  match x.payload.find? (fun e => e.1 = off - 0x10120) with
  | some e => e.2
  | none => if x.rsp.isSome then Config.payloadByte s.free (off - 0x10120) else 0#8

/-- A 32-bit word of BAR0 below 0x0100_0000: the function's own CXL component and device registers (R419, R420). -/
def cxlWord (s : State) (f : Nat) (off : Nat) : W32 :=
  if off < 0x1000 then 0#32
  else if off = 0x1000 then word [(24, 3), (20, 1), (16, 1), (0, 1)]
  else if inPayload off then BitVec.ofNat 32 (leNat ((List.range 4).map (fun i => payloadAt s f (off + i))))
  else match deviceWord s f off with
    | some w => w
    | none =>
      if off < 0x2000 ∧ hdmBase ≤ off ∧ off < hdmBase + 0x110 then
        (if off = hdmBase then word [(4, 1), (0, 4)]
         else if off < hdmBase + 0x10 then Config.cxlReg off
         else decoderWord (getFn s f) ((off - hdmBase - 0x10) / 32) ((off - hdmBase - 0x10) % 32))
      else Config.cxlReg off

/-- A 32-bit read completes with Completer Abort (R60, R430): a register of an unreachable tile of the member, or SV's while its link is down
or T0, over which it is reached, is cut off (R428). -/
def readAborts (s : State) (from_ : Nat) (off : Nat) : Bool :=
  (decide (0x04000000 ≤ off) && decide (off < 0x05000000) && (s.link.down || cutOff s from_ 0)) ||
  (match regAt off with
   | some (k, i) => (match regTile k i with | some t => hasTile s t && (!tileRuns s t || cutOff s from_ t) | none => false)
   | none => false)

/-- A 32-bit read of BAR0 at or above 0x0100_0000 by a function of a head (R424, R430): none is Completer Abort. A read outside the head's access returns
0 and completes normally, whatever the path. -/
def readWord (s : State) (h ld : Nat) (off : Nat) : Option W32 :=
  match regAt off with
  | none => if hasRights s (.head (BitVec.ofNat 6 h).toFin (BitVec.ofNat 4 ld).toFin) && readAborts s (portTile h) off then none else some 0#32
  | some (k, i) =>
    if !regThere s k i then some 0#32
    else if !(hasRights s (.head (BitVec.ofNat 6 h).toFin (BitVec.ofNat 4 ld).toFin) || tenantMay s h k i) then some 0#32
    else if readAborts s (portTile h) off then none
    else if k = .atwCfg then some (if i = 0 then atwCfg s h ld else 0#32)
    else some (regView s k i)

/-- The high half of a counter, as a 32-bit read of it alone finds it: what the head's last read of the low half has latched (R412). -/
def latchedHigh (s : State) (h k : Nat) (v : Nat) : W32 :=
  match Table.get none s.cnt.latch h with
  | some (k', x) => if k' = k then x.zeroExtend 32 else half true v
  | none => half true v

/-- A 32-bit word of a BAR as a read over it finds it (`alone` where it reads no other): a counter's half (R412), the function's own CXL registers below
0x0100_0000 (R419, R424), a register of BAR0 from there on, or a word of a ring block; none is Completer Abort. -/
def barWord (s : State) (h : PortId) (ld : LdId) (bar2 : Bool) (off : Nat) (alone : Bool) : Option W32 :=
  if bar2 then (if 4194304 ≤ off then some 0#32 else readRing s (.head h ld) (off / 64) (off % 64))
  else match cntAt off with
    | some (k, hi) => if cntAborts s h.val ld.val k then none else some (if hi && alone then latchedHigh s h.val k (readCnt s h.val ld.val k).toNat else half hi (readCnt s h.val ld.val k).toNat)
    | none => if off < 0x01000000 then some (cxlWord s (fnKey h.val ld.val false) off) else readWord s h.val ld.val off

/-- A register read of `len` bytes (R426): within one 8-byte aligned block it returns the addressed bytes of the registers it touches, each read once;
longer, or across a block's end, it is Completer Abort; within the mailbox payload it may have any length. It changes nothing but R412's latch (COUNTER_LOW_READ). -/
def barRead (s : State) (h : PortId) (ld : LdId) (bar2 : Bool) (off len : Nat) : Option Bytes :=
  if len = 0 then none
  else if !bar2 && inPayload off && decide (off + len ≤ 0x11120) then some ((List.range len).map (fun i => payloadAt s (fnKey h.val ld.val false) (off + i)))
  else if 8 < off % 8 + len then none
  else
    let first := off / 4
    (((List.range ((off + len - 1) / 4 - first + 1)).mapM (fun i => barWord s h ld bar2 (4 * (first + i)) (decide ((off + len - 1) / 4 = first)))).map
      (fun l => slice (l.flatMap (fun w => leBytes 4 w.toNat)) (off % 4) len))

end Sys2Proof.Machine
end

