-- ==== Sys2Proof/Machine/Registers.lean ====
section
/-!
DEFINITION. Register writes (R8, R9, R424–R430): sizes, rights, unreachable and lost blocks, and the effect of each register's own write.
-/
namespace Sys2Proof.Machine

/-- A write to FC_CFG: a fixed source's configuration does not change (R401). -/
def writeFcCfg (i : Nat) (v : W32) (s : State) : State :=
  if !srcPresent (tiles s) i then s else writeReg .fcCfg i (if srcFixed i then merge32 0xC#32 v (regRaw s .fcCfg i) else v) s

/-- A write to DR_TRN_PAT: discarded after the run lock (R167). -/
def writeTrnPat (d : Nat) (v : W32) (s : State) : State := if locked s then s else writeReg .drTrnPat d v s

/-- A write to DAWN_STS (R353): only firmware sets RUN_LOCK, and a Dawn that fails never does. -/
def writeDawnSts (a : Agent) (v : W32) (s : State) : State :=
  match a with
  | .firmware => if bit v 31 && !s.dawn.failed then onDawn (fun d => { d with runLock := true }) s else s
  | .head _ _ => s

/-- A write to QOS_TRK (R312, R424): only firmware writes RES. -/
def writeTrkRes (a : Agent) (i : Nat) (v : W32) (s : State) : State := match a with | .firmware => writeReg .qosTrk i v s | .head _ _ => s

/-- A write to the scheduler's or the refresh configuration of a tile needs its sub-channels: it wakes the channels in Dusk (R166). Discarded after the
run lock, it needs none. -/
def wakeTile (t : Nat) (s : State) : State := if locked s then s else (List.range 8).foldl (fun s c => wake (16 * t + 2 * c) s) s

/-- A 32-bit write to a register by an agent with access to it. -/
def writeKind (a : Agent) (k : RegKind) (i : Nat) (v : W32) (s : State) : State :=
  match k with
  | .fcSts => clearSts i v 0#32 s
  | .fcEn => writeEn i v s
  | .fcForce => forceGroup i v s
  | .fcCfg => writeFcCfg i v s
  | .cntWinCfg => writeWinCfg i v s
  | .ncWayCfg => writeWayCfg i v s
  | .ncRangeBaseLo | .ncRangeBaseHi | .ncRangeLen => writeRangeReg k i v s
  | .ncRangeCtl => settle (writeRangeCtl i v s)
  | .drTrnCtl => writeTrnCtl i v s
  | .drTrnPat => writeTrnPat i v s
  | .drPhyAcc => writePhyAcc i v s
  | .drSchedCfg | .drRefCfg => writeReg k i v (wakeTile i s)
  | .trRate => changeRates i (writeReg k i v) s
  | .trBudget => changeRates (i / 16) (writeReg k i v) s
  | .rstBlkCtl => writeRst i v s
  | .dawnSts => writeDawnSts a v s
  | .qosTrk => writeTrkRes a i v s
  | _ => writeReg k i v s

/-- A 32-bit write to BAR0 (R424, R430). Offsets below 0x0100_0000 reach the function's own CXL registers, whose layout is CXL's: the mailbox's Command
register takes what is written, and what the others do stands in commands of its own (log 56). -/
def write0 (a : Agent) (off : Nat) (v : W32) (s : State) : State :=
  match a, off with
  | .head h ld, 0x10108 => onFn (fnKey h.val ld.val false) (fun f => { f with mbCmd := halfSet f.mbCmd false v }) s
  | .head h ld, 0x1010C => onFn (fnKey h.val ld.val false) (fun f => { f with mbCmd := halfSet f.mbCmd true v }) s
  | _, _ =>
  match regAt off with
  | none => s
  | some (k, i) => if regOpen s a k i then writeKind a k i v s else s

/-- A write to RING_CTL (R228, R229, R240, R242): ABORT is the owner's as well, ENABLE is not. -/
def writeRingCtl (a : Agent) (r : Nat) (v : W32) (s : State) : State :=
  if bit v 1 then ringWrite a r true (abortWrite r) s
  else ringWrite a r false (if bit v 0 then enableWrite r else disableWrite r) s

/-- The W1C bits of RING_STS (R9). -/
def writeRingSts (r : Nat) (v : W32) (s : State) : State :=
  onRing r (fun y => { y with tailErr := y.tailErr && !bit v 28, cqhErr := y.cqhErr && !bit v 27, cfgErr := y.cfgErr && !bit v 26 }) s

/-- A 32-bit write to BAR2 (R227, R228). -/
def write2 (a : Agent) (off : Nat) (v : W32) (s : State) : State :=
  let r := off / 64
  let o := off % 64
  let x := getRing s r
  if 4194304 ≤ off then s
  else if o = 0x00 then ringWrite a r true (writeTail r v) s
  else if o = 0x04 then ringWrite a r true (writeCqHead r v) s
  else if o = 0x10 then ringWrite a r true (writeRingSts r v) s
  else if o = 0x14 then writeRingCtl a r v s
  else if o = 0x18 then ringWrite a r false (writeRingCfg r v) s
  else if o = 0x20 ∨ o = 0x24 then ringWrite a r false (writeRingBase r false (halfSet x.dbase (decide (o = 0x24)) v)) s
  else if o = 0x28 ∨ o = 0x2C then ringWrite a r false (writeRingBase r true (halfSet x.cbase (decide (o = 0x2C)) v)) s
  else ringWrite a r false (fun s => s) s

def write32 (a : Agent) (bar2 : Bool) (off : Nat) (v : W32) (s : State) : State := if bar2 then write2 a off v s else write0 a off v s

/-- The access comes from firmware, or from a function of a head whose link is up. -/
def agentUp (s : State) (a : Agent) : Bool :=
  match a with
  | .firmware => running s
  | .head h ld => headLive s h.val && (getPort s h.val).up && decide (ld.val < ldCount s h.val)

/-- A write of 1 to 64 bytes within the mailbox payload of a function (R426). A longer one is discarded (DESIGN CHOICE, log 117). -/
def payloadWrite (f off len : Nat) (v : Line) (s : State) : State :=
  if 64 < len then s
  else onFn f (fun x => { x with payload := (List.range len).foldl (fun t i =>
    Table.keep (fun k _ => decide (k ≠ off - 0x10120 + i)) t ++ [(off - 0x10120 + i, BitVec.ofNat 8 (v.toNat >>> (8 * i)))]) x.payload }) s

/-- A register write of `len` bytes (R426): within the mailbox payload it is taken whatever its size and place. Elsewhere, too long or across an 8-byte boundary, it
completes with Completer Abort and has no effect; otherwise it
is taken only when it is 4 or 8 bytes, naturally aligned and has every byte enabled, and 8 bytes are two 32-bit writes, lower address first. -/
def registerWrite (a : Agent) (bar2 : Bool) (off len : Nat) (v : Line) (full : Bool) (s : State) : State :=
  match a, !bar2 && inPayload off && decide (off + len ≤ 0x11120) with
  | .head h ld, true => payloadWrite (fnKey h.val ld.val false) off len v s
  | _, _ =>
  if 8 < len ∨ 8 < off % 8 + len then
    match a with | .head h _ => send h.val (.cpl .abort 0#64) s | .firmware => s
  else if !full then s
  else if len = 4 ∧ off % 4 = 0 then write32 a bar2 off (v.setWidth 32) s
  else if len = 8 ∧ off % 8 = 0 then write32 a bar2 (off + 4) ((v >>> 32).setWidth 32) (write32 a bar2 off (v.setWidth 32) s)
  else s

/-- REGISTER_WRITE (R8, R424–R430). -/
def execRegisterWrite (a : Agent) (bar2 : Bool) (off : BitVec 27) (len : Nat) (v : Line) (full : Bool) (s : State) : Host.Outcome State Fault Refusal :=
  .next (if agentUp s a then registerWrite a bar2 off.toNat len v full s else s)

end Sys2Proof.Machine
end

