-- ==== Sys2Proof/Machine/Dawn.lean ====
section
/-!
DEFINITION. Dawn (R339–R353): the stages, none of which runs in Midnight (R296), what each applies, candidates passed over, and Dawn's failure.
-/
namespace Sys2Proof.Machine

/-- HP_GANG_CFG of every tile from a gang list; the heads of each quad whose mode changes retrain (R44, R342, R349). -/
def setGang (gang : Bytes) (s : State) : State :=
  (tileList s).foldl (fun s t =>
    let w := leAt gang t 1 % 64
    let old := (regRaw s .hpGangCfg t).toNat
    let quad (q : Nat) (s0 s : State) : State :=
      if old / 8 ^ q % 8 = w / 8 ^ q % 8 then s
      else (List.range 4).foldl (fun s i =>
        let p := 8 * t + 4 * q + i
        let s1 := if isHead s0 p then resetFns p s else s
        onPort p (fun x => { perst := x.perst, midnightStop := x.midnightStop, training := !x.perst }) s1) s
    setReg .hpGangCfg t (BitVec.ofNat 32 w) (quad 1 s (quad 0 s s))) s

/-- What a refused image leaves (R347, R351): nothing of it, its training included; Dawn 0 and Dawn 1 stand. -/
def withdraw (s : State) : State :=
  let s1 := setGang s.dawn.opt.gang s
  let regs0 : State := { s1 with regs := [] }
  let s2 := (tileList s).foldl (fun s t =>
    let r := setReg .hpGangCfg t (BitVec.ofNat 32 (leAt s1.dawn.opt.gang t 1 % 64)) s
    setReg .rstBlkCtl t ((regRaw s1 .rstBlkCtl t) ||| 0x3FC#32) r) regs0
  { s2 with
    map := {}
    nc := {}
    ha := {}
    cry := { keys := s1.cry.keys, everInstalled := s1.cry.everInstalled }
    dram := {}
    nvm := keepNvm s.nvm
    tier := {}
    job := {}
    pk := {}
    qos := { report := s.qos.report }
    place := []
    faults := { s1.faults with en := BitVec.allOnes 1024 }
    clk := { s1.clk with released := Table.mapAll 0#10 (fun _ w => w &&& 3#10) s1.clk.released }
    host := { s1.host with lds := [], surr := [], surrSet := 0#5, fns := Table.mapAll {} (fun _ f => { f with decs := [] }) s1.host.fns }
    dawn := { s1.dawn with params := [], sections := [], fwDigest := 0#256, mgmtMem := [], started := 0#8, seq := 0#32, slotB := false, cand := none } }

/-- Heads whose links are up are marked ready (R49, R349, R351). -/
def readyHeads (s : State) : State :=
  (heads s).foldl (fun s h => if headLive s h && (getPort s h).up then onPort h (fun p => { p with ready := true }) s else s) s

/-- Dawn fails (R351): FAILED and FAIL_CODE, the log, a replace request, and recovery firmware, which T0 runs unless T0 itself failed Dawn 0. -/
def failDawn (code : Nat) (t0 : Bool) (s : State) : State :=
  let d := s.dawn
  let seq := match d.hdr with | some h => h.seq | none => 0#32
  let s1 := withdraw s
  let s2 := onDawn (fun x => { x with failed := true, failCode := code, recovery := !t0, cands := [] }) s1
  let s3 := primaryLog 0x02#8 0#8 0xFFFF#16
    ([BitVec.ofNat 8 code, BitVec.ofNat 8 d.stage, d.tried.setWidth 8, 0#8] ++ leBytes 4 seq.toNat) s2
  let s4 := replaceDawn code s3
  if t0 then s4 else readyHeads s4

/-- The candidate being tried is passed over with a cause (R347, R397); with none left Dawn fails with that cause. -/
def passOver (code : Nat) (s : State) : State :=
  let slot := match s.dawn.cand with | some b => b2n b | none => 0
  let s1 := primaryLog 0x03#8 0#8 0xFFFF#16 ([3#8, 0#8, BitVec.ofNat 8 slot, BitVec.ofNat 8 code]) s
  if s1.dawn.cands.isEmpty then failDawn code false s1 else withdraw s1

/-- CLOCK_GOOD_TIMEOUT (R351): a tile that has not reached clock-good fails Dawn 0; where another tile's failure came first, T0's own leaves no recovery
firmware to run. -/
def execClockGoodTimeout (t : TileId) (s : State) : Host.Outcome State Fault Refusal :=
  .next (if !(running s && !midnight s && hasTile s t.val && decide (s.dawn.stage = 0) && !tileRuns s t.val) then s
    else if !s.dawn.failed then failDawn 8 (decide (t.val = 0)) s
    else if t.val = 0 then onDawn (fun d => { d with recovery := false }) s
    else s)

/-- The Dawn sequencer resets the flash, applies the option block and releases the ports (R340–R342, R349). -/
def dawnOptions (s : State) : State :=
  let b := flashRead s 0 4096
  let o := if optValid b then optOf b else optDefaults
  let s0 := onFlash (fun x => { x with mode := .oneS25 }) s
  let s1 := onDawn (fun d => { d with stage := 1, opt := o, optDefault := !optValid b, optDigest := digest (slice b 0 4064) }) s0
  let s2 := if optValid b then s1 else primaryLog 0x03#8 0#8 0xFFFF#16 [1#8, 0#8] s1
  let s3 := (tileList s).foldl (fun s t => setReg .hpGangCfg t (BitVec.ofNat 32 (leAt o.gang t 1 % 64)) s) s2
  let s4 := (tileList s).foldl (fun s t => releaseBlocks t (setReg .rstBlkCtl t (regRaw s .rstBlkCtl t &&& 0x3FC#32) s)) s3
  (heads s4).foldl (fun s h => onPort h (fun p => { p with training := !p.perst }) s) s4

/-- What Dawn 1 leaves to try (R347): with no candidate Dawn fails, with FAIL_CODE 3 where a slot has a header and 2 where none has. -/
def candsFound (c : List Bool) (s : State) : State :=
  if c.isEmpty then failDawn (if (slotHdr s false).isSome || (slotHdr s true).isSome then 3 else 2) false s else onDawn (fun d => { d with cands := c }) s

/-- DAWN_1 (R347, R349, R351): once every tile runs or has failed Dawn 0, T0 not having failed it; tiles T0 cannot reach fail it; then the option block, the ports, and the
slot headers. -/
def execDawn1 (s : State) : Host.Outcome State Fault Refusal :=
  let all := (tileList s).all (fun t => tileRuns s t)
  if !tileRuns s 0 || midnight s || decide (s.dawn.stage ≠ 0) || !(all || s.dawn.failed) || (s.dawn.failed && !s.dawn.recovery) then .next s
  else
    let cut := (tileList s).any (fun t => cutOff s 0 t)
    let s1 := if cut && !s.dawn.failed then failDawn 9 false s else s
    let s2 := dawnOptions s1
    if s2.dawn.failed then .next s2
    else if s.fuse.anchorRead = 0#256 then .next (failDawn 1 false s2)
    else .next (candsFound (candidates s2 s2.dawn.opt) s2)

/-- The firmware section of a slot, which T0's management memory takes (R343, R349). -/
def firmwareSec (s : State) (slotB : Bool) (h : SlotHdr) : Bytes :=
  match findSec h 1 with | some x => secBytes s slotB x | none => []

/-- Candidates in order until one's signature and firmware digest pass (R347). -/
def tryCands : List Bool → State → State
  | [], s => s
  | c :: rest, s =>
    let h := usable s c
    let s1 := onDawn (fun d => { d with cand := some c, hdr := h, cands := rest, tried := setBit d.tried (b2n c) true }) s
    match h with
    | some h => if firmwareOk s c h then onDawn (fun d => { d with mgmtMem := firmwareSec s c h }) s1 else tryCands rest (passOver 4 s1)
    | none => tryCands rest (passOver 4 s1)

/-- The mode that XSPI_MODE names (R341). -/
def flashMode (xspi : Nat) : FlashMode := if xspi = 1 then .eightD200 else .oneS50

/-- DAWN_2 (R341, R346, R347, R349): the flash's mode is switched, and candidates are tried. -/
def execDawn2 (s : State) : Host.Outcome State Fault Refusal :=
  let d := s.dawn
  if !tileRuns s 0 || midnight s || d.failed || d.runLock || decide (d.stage = 0) || d.cand.isSome then .next s
  else .next (tryCands d.cands (onFlash (fun x => { x with mode := flashMode d.opt.xspi }) (onDawn (fun d => { d with stage := 2 }) s)))

/-- The image's declarations take effect and the workers start (R349): sections, parameters, catalogue, views, extents, LDs, surroundings and the class table. -/
def applyImage (slotB : Bool) (h : SlotHdr) (i : Image) (s : State) : State :=
  let fw := match findSec h 1 with | some x => x.digest | none => 0#256
  let up := (tileList s).foldl (fun w t => setBit w t true) 0#8
  let s1 := onDawn (fun d => { d with params := i.params, sections := i.secs, fwDigest := fw, seq := h.seq, slotB := slotB, started := up }) s
  let s2 := onMap (fun m => { m with cat := i.cat, views := i.views, decls := i.decls }) s1
  let s3 := onQos (fun q => { q with cls := i.cls }) s2
  onHost (fun x => { x with lds := ldsOf i.views, surr := i.surr, surrSet := 0#5 }) s3

/-- The candidate's other sections have been read (R344, R349): it is passed over with FAIL_CODE 5, or takes effect. -/
def imageRead (c : Bool) (h : SlotHdr) (i : Option Image) (s : State) : State :=
  match i with
  | none => passOver 5 s
  | some i => readyHeads (applyImage c h i s)

/-- The DIMM is supported (R149). -/
def spdOk (x : Spd) : Bool :=
  (match x.kind with
   | .rdimm => [4800, 5600, 6400, 7200, 8000, 8800].contains x.rate
   | .mrdimm => [8800, 12800].contains x.rate
   | .other => false) &&
  decide (x.width = 40) && [4, 8].contains x.dev && [16, 24, 32, 64].contains x.density && decide (x.groups = 8 ∧ x.banks = 4) &&
  [1, 2].contains x.packageRanks && [1, 2, 4, 8].contains x.stack && decide (x.gib ≤ 256) && decide (0 < x.gib)

/-- Two DIMMs of one tile match, and two of the device agree in type and rate (R149, R150). -/
def spdMatch (a b : Spd) : Bool :=
  decide (a.kind = b.kind ∧ a.rate = b.rate ∧ a.dev = b.dev ∧ a.density = b.density ∧ a.packageRanks = b.packageRanks ∧ a.stack = b.stack)
def spdDevice (a b : Spd) : Bool := decide (a.kind = b.kind ∧ a.rate = b.rate)

/-- A declared population obeys the rules of the tile's DIMMs and of the links of a group (R149, R150, R180). -/
def populationOk (s : State) (p : Population) : Bool :=
  let on (t : Nat) : List Spd := p.dimms.filterMap (fun d => if d.1.val = t then some d.2.2 else none)
  let all := (tileList s).flatMap on
  let pairs (ok : Spd → Spd → Bool) (l : List Spd) : Bool := l.all (fun a => l.all (ok a))
  let links (t g : Nat) : List Nat := (List.range 9).map (fun i => foundOn p.pkgs (40 * t + 9 * g + i))
  all.all spdOk && pairs spdDevice all &&
  (tileList s).all (fun t => pairs spdMatch (on t) && [1, 2, 4, 8].contains (on t).length && (List.range 4).all (fun g => (links t g).all (· = (links t g).headD 0)))

/-- DAWN_3 (R150, R180, R344, R349): the other sections are read and checked, and the population declared with them (log 65); heads are marked ready;
mailbox, DOE and the I3C target are served from its end. -/
def execDawn3 (declared : Option Population) (s : State) : Host.Outcome State Fault Refusal :=
  match s.dawn.cand, s.dawn.hdr with
  | some c, some h =>
    if !firmwareRuns s 0 || midnight s || decide (s.dawn.stage ≠ 2) then .next s
    else
      let s1 := onDawn (fun d => { d with stage := 3 }) s
      .next (imageRead c h (if (match declared with | some p => populationOk s p | none => true) then readImage s c h else none) s1)
  | _, _ => .next s

/-- Both sub-channels of a DIMM channel take a state. -/
def setChannel (t c : Nat) (st : SubState) (why : SubReason) (s : State) : State :=
  let f (x : SubCh) : SubCh := { x with st := st, reason := why }
  onSub (16 * t + 2 * c + 1) f (onSub (16 * t + 2 * c) f s)

/-- The runs of passing settings that a sweep sees (R168); the repeat of steps 6 and 7 sees what the first sweep saw unless an entry is of the repeat (R169). -/
def eyeOf (eyes : List Eye) (again : Bool) (d kind lane rank : Nat) : List (Nat × Nat) :=
  let named := eyes.filter (fun e => (match e.sub with | some x => decide (x.val = d) | none => true) && decide (e.kind.val = kind) &&
    (match e.lane with | some x => decide (x.val = lane) | none => true) && (match e.rank with | some x => decide (x.val = rank) | none => true))
  match (if again then named.find? (·.again) else none), named.find? (fun e => !e.again) with
  | some e, _ => e.runs
  | none, some e => e.runs
  | none, none => []

/-- The widest run of passing settings, the first of several (R168). -/
def widest (l : List (Nat × Nat)) : Option (Nat × Nat) :=
  l.foldl (fun b r => match b with | none => some r | some x => if x.2 - x.1 < r.2 - r.1 then some r else some x) none

/-- The setting training chooses for one lane (R168, R169): the centre of the widest run, at least min_window wide, rounded down (DESIGN CHOICE, log 156); the 0-to-1 transition of write
leveling; half a unit interval past the first passing read gate. -/
def settingOf (kind : Nat) (runs : List (Nat × Nat)) : Option Nat :=
  match widest runs with
  | none => none
  | some (lo, hi) =>
    if hi + 1 - lo < (if kind = 3 ∨ kind = 6 then 8 else 20) then none
    else some (if kind = 0 then lo else if kind = 1 then runs.foldl (fun m r => min m r.1) lo + 64 else (lo + hi) / 2)

/-- The lanes a kind of setting has on a sub-channel (DR_PHY_ACC, R169): DQS and the DRAM's Vref of each device, DQ lanes, one CA and CS delay. -/
def lanesOf (x : Spd) (kind : Nat) : List Nat :=
  let devices := (List.range (if x.dev = 4 then 10 else 5)).map (40 + ·)
  if kind ≤ 1 ∨ kind = 6 then devices else if kind = 5 then [0] else List.range 40

/-- The sweeps of R169 in order: the place of each in the sequence, and its kind of setting. Places 9 and 10 are the repeat of steps 6 and 7, and 11 is
step 9. -/
def sweeps : List (Nat × Nat) := [(2, 5), (4, 0), (5, 1), (6, 2), (7, 3), (8, 4), (8, 6), (9, 2), (10, 3)]

/-- The step of R169 at a place of the sequence, and the place of a step. -/
def stepAt (place : Nat) : Nat := if place = 9 then 6 else if place = 10 then 7 else if place = 11 then 9 else place
def placeOfStep (step : Nat) : Nat := if step = 9 then 11 else step

/-- One setting that training swept: its place in the sequence, kind, lane and rank, and the setting chosen where the lane passed (R168). -/
structure Swept where
  place : Nat
  kind : Nat
  lane : Nat
  rank : Nat
  value : Option Nat
deriving DecidableEq, Repr

/-- Every sweep of a sub-channel, in the order of R169, rank by rank within a step. -/
def sweepAll (eyes : List Eye) (x : Spd) (d : Nat) : List Swept :=
  sweeps.flatMap (fun k => (List.range (x.packageRanks * x.stack)).flatMap (fun rank => (lanesOf x k.2).map (fun lane =>
    ⟨k.1, k.2, lane, rank, settingOf k.2 (eyeOf eyes (decide (9 ≤ k.1)) d k.2 lane rank)⟩)))

/-- The place of the sequence at which a sub-channel fails (R168, R169): the first sweep with a lane whose window is too narrow, or the step that the
command names if that comes first. -/
def trainStop (eyes : List Eye) (failed : List (SubId × Fin 10)) (x : Spd) (d : Nat) : Option Nat :=
  match (failed.find? (fun f => f.1.val = d)).map (fun f => placeOfStep f.2.val), ((sweepAll eyes x d).find? (fun e => e.value.isNone)).map (·.place) with
  | some a, some b => some (min a b)
  | some a, none => some a
  | none, b => b

/-- The first sub-channel of a DIMM channel that fails training, and its step (R169, R170). -/
def trainFails (eyes : List Eye) (failed : List (SubId × Fin 10)) (x : Spd) (t c : Nat) : Option (Nat × Nat) :=
  [16 * t + 2 * c, 16 * t + 2 * c + 1].findSome? (fun d => (trainStop eyes failed x d).map (fun p => (d, stepAt p)))

/-- The settings that training has written on a sub-channel (R168): all of them, or those up to the place at which it fails, where a lane that did not
pass keeps the last setting of its sweep, a free value. -/
def settings (eyes : List Eye) (stop : Option Nat) (x : Spd) (d : Nat) : List Swept :=
  (sweepAll eyes x d).filter (fun e => match stop with | some p => decide (e.place ≤ p) | none => true)

def sweptValue (e : Swept) : BitVec 10 := match e.value with | some v => BitVec.ofNat 10 v | none => Config.sweepEnd e.kind

/-- What training leaves on a sub-channel of a supported DIMM (R154, R155, R168, R169): its PHY settings, the DRAM's Vref, the controller's timing
registers, and refresh management. -/
def trainedSub (eyes : List Eye) (stop : Option Nat) (x : Spd) (d : Nat) (c : SubCh) : SubCh :=
  let sets := settings eyes stop x d
  { c with
    phy := (sets.filter (fun e => e.kind ≤ 5)).foldl (fun p e => Table.set 0#10 p (1024 * e.kind + 16 * e.lane + e.rank) (sweptValue e)) c.phy
    vref := (sets.filter (fun e => e.kind = 6)).foldl (fun p e => Table.set 0#10 p (16 * (e.lane - 40) + e.rank) (sweptValue e)) c.vref
    errs := match stop with | some p => if p < 4 then c.errs else (Config.trainErrs d).toNat | none => 0
    lanes := match stop with | some p => if p < 4 then c.lanes else Config.trainLanes d | none => 0#40
    raa := if x.rfm || x.rfmMode then x.raa else 0
    timing := ⟨x.tRfc1, x.tRfc2, x.tRfcSb, x.tRp, x.tRefSbRd, x.rate / 8, x.times⟩ }

/-- The operation and the pattern kind with which each place of the sequence ends (R169). -/
def stepRun (place : Nat) : Nat × Nat :=
  if place = 4 then (4, 0) else if place = 5 then (3, 0) else if place = 7 ∨ place = 10 then (1, 0) else if place = 8 ∨ place = 11 then (0, 3) else (0, 0)

/-- The setting that training selected last (R168): of the last sweep, a lane that passed where one did. -/
def lastSet (l : List Swept) : Option Swept :=
  let phy := l.filter (fun e => e.kind ≤ 5)
  let last := phy.filter (fun e => decide (some e.place = phy.getLast?.map (·.place)))
  match (last.filter (fun e => e.value.isSome)).getLast? with
  | some e => some e
  | none => last.getLast?

/-- The training registers of a sub-channel after its last run (R167–R169): the final check of the last bank of the last rank with the last pattern
kind, or the run of the step that failed, whose addresses and burst count are free values. Steps 1 to 3 run no helper. -/
def trainRegs (eyes : List Eye) (stop : Option Nat) (x : Spd) (d : Nat) (s : State) : State :=
  let s1 := match lastSet (settings eyes stop x d) with
    | some e => setReg .drPhyAcc d (word [(28, e.kind), (22, e.lane), (16, e.rank)]) s
    | none => s
  let run (place : Nat) (rest : W32) (s : State) : State :=
    raiseBit .drTrnSts d 31 (setReg .drTrnPat d (word [(30, (stepRun place).2), (0, 1)]) (setReg .drTrnCtl d (word [(28, (stepRun place).1)] ||| (rest &&& 0x0FFFF800#32)) s))
  match stop with
  | none => run 11 (word [(24, x.packageRanks * x.stack - 1), (21, x.groups - 1), (19, x.banks - 1), (11, 255)]) s1
  | some p => if p < 4 then s1 else if p = 11 then run 11 (Config.trainCtl d ||| word [(11, 255)]) s1 else run p (Config.trainCtl d) s1

/-- Training of one sub-channel of a supported DIMM. -/
def trainSub (eyes : List Eye) (failed : List (SubId × Fin 10)) (x : Spd) (d : Nat) (s : State) : State :=
  let stop := trainStop eyes failed x d
  trainRegs eyes stop x d (onSub d (trainedSub eyes stop x d) s)

/-- A DIMM that Dawn finds (R151): its SPD read, its RCD, and MDB for MRDIMM, configured, and its PMIC enabled, unless step 1 fails. -/
def findDimm (failed : List (SubId × Fin 10)) (t : Nat) (d : Nat × Spd) (s : State) : State :=
  let done := !failed.any (fun f => decide (f.1.val / 2 = 8 * t + d.1 ∧ f.2.val ≤ 1))
  onDimm t d.1 (fun x => { x with seen := some d.2, rcd := done, mdb := done && decide (d.2.kind = .mrdimm), pmic := done }) s

/-- The DIMMs that Dawn 4 finds on a tile: those whose power channel E(08 + 2t + g) is power-good (R373). -/
def foundDimms (dimms : List (TileId × DimmId × Spd)) (s : State) (t : Nat) : List (Nat × Spd) :=
  (List.range 8).filterMap (fun c =>
    if (getChan s (8 + 2 * t + c / 4)).state = .powerGood then (dimms.find? (fun d => d.1.val = t ∧ d.2.1.val = c)).map (fun d => (c, d.2.2)) else none)

/-- The DIMM channels of a tile as training leaves them (R149–R151, R168–R170): every DIMM found is configured, every supported one trained, and among
the good ones those in use are chosen. -/
def trainDimms (first : Option Spd) (dimms : List (TileId × DimmId × Spd)) (eyes : List Eye) (failed : List (SubId × Fin 10)) (s : State) (t : Nat) : State :=
  let mine := foundDimms dimms s t
  let lead := (mine.find? (fun d => spdOk d.2 && (match first with | some f => spdDevice f d.2 | none => false))).map (·.2)
  let fits (x : Spd) : Bool := match lead with | some l => spdOk x && spdMatch l x && decide (l.gib = x.gib) | none => false
  let s1 := mine.foldl (fun s d => findDimm failed t d (if fits d.2 then s else setChannel t d.1 .out .unsupported s)) s
  let ok := mine.filter (fun d => fits d.2)
  let failsAt (d : Nat × Spd) : Option (Nat × Nat) := trainFails eyes failed d.2 t d.1
  let s2 := ok.foldl (fun s d =>
    let i := 16 * t + 2 * d.1
    let s0 := trainSub eyes failed d.2 (i + 1) (trainSub eyes failed d.2 i s)
    match failsAt d with
    | some (sub, step) => raiseTile t .drTrainFail (sub + 65536 * step) (setChannel t d.1 .out .training s0)
    | none => s0) s1
  let good := ok.filter (fun d => (failsAt d).isNone)
  let n := if 8 ≤ good.length then 8 else if 4 ≤ good.length then 4 else if 2 ≤ good.length then 2 else good.length
  let s3 := (good.drop n).foldl (fun s d => setChannel t d.1 .out .interleave s) s2
  (good.take n).foldl (fun s d => onDimm t d.1 (fun x => { x with spd := some d.2 }) (setChannel t d.1 .service .none s)) s3

/-- DEADLINE of a tile (R163): raised to tRP + 3 × tREFSBRD + 32 ns, rounded up to 4 ns. -/
def deadlineOf (s : State) (t : Nat) : Nat :=
  let d := paramNat s "x.dram.refresh.deadline_ns" 500 / 4
  (tileSpds s t).foldl (fun a x => max a ((x.tRp + 3 * x.tRefSbRd + 32 + 3) / 4)) d

/-- INTERVAL of the scrubber (R172). -/
def scrubInterval (s : State) (t : Nat) : Nat :=
  match tileSpd s t with
  | some x => paramNat s "dram.scrub.period_h" 24 * 3600 * 10 ^ 9 / (x.gib * 2 ^ 23 * 16)
  | none => 0

/-- The tile registers that parameters set (R123, R132, R147, R159–R172, R196–R202, R226, R274, R309): a parameter left out gives the Reset value. -/
def tileParams (s0 : State) (t : Nat) (s : State) : State :=
  let p (n : String) (d : Nat) : Nat := paramNat s0 n d
  let r (k : RegKind) (l : List (Nat × Nat)) (s : State) : State := setReg k t (word l) s
  let a := r .haDirCfg [(2, p "x.coh.dir.parity" 1), (1, p "x.coh.dir.prefer_quiet" 1), (0, p "x.coh.dir.reserved_way" 1)] s
  let a := r .haBiCfg [(0, p "x.coh.bisnp_timeout_ms" 50)] a
  let a := if s.nc.filled.getLsbD t then raiseBit .ncSts t 31 a else r .ncWayCfg [(8, p "nc.ways.scratch" 0), (0, p "nc.ways.lock" 0)] a
  let a := r .atpCfg [(6, p "x.atomic.predictor.mode" 0), (3, p "x.atomic.predictor.threshold" 4), (0, p "x.atomic.predictor.init" 3)] a
  let a := r .drSchedCfg [(24, p "x.dram.sched.age_max_ns" 400 / 8), (18, p "x.dram.sched.wq_high" 48), (12, p "x.dram.sched.wq_low" 16),
                          (8, p "x.dram.sched.hit_cap" 15), (0, p "x.dram.sched.close_idle" 64)] a
  let a := r .drRefCfg [(8, deadlineOf s0 t), (4, p "x.dram.refresh.postpone_max" 4), (0, p "dram.refresh.mode" 1)] a
  let a := r .drDuskCfg [(16, p "dram.dusk.idle_us" 1000), (0, p "dram.dusk.mode" 0)] a
  let a := r .drScrubCfg [(0, scrubInterval s0 t)] a
  let a := r .nlWearCfg [(16, p "x.nvm.rebuild.rate_pct" 25), (0, p "x.nvm.wear.gap_interval" 2560)] a
  let a := r .nlWearRetire [(0, p "x.nvm.wear.retire" 2000000000)] a
  let a := r .nlDriftCfg [(16, p "nvm.drift.horizon_h" 168), (8, p "x.nvm.drift.refresh_ce" 12)] a
  let a := r .nlAbsCfg [(17, p "nvm.absorb.max_age_ms" 100), (0, p "nvm.absorb.slots" 16384)] a
  let a := r .nlAbsLvl [(8, p "x.nvm.absorb.high_pct" 75), (0, p "x.nvm.absorb.low_pct" 50)] a
  let a := r .trCfg [(24, p "tier.promote.heat" 16), (16, p "tier.demote.heat" 1), (12, p "x.tier.min_resid" 2), (4, p "tier.epoch_s" 60),
                     (3, p "tier.place.initial" 0), (0, p "tier.mode" 1)] a
  let a := r .trFree [(16, p "x.tier.free_high_mib" 2048), (0, p "x.tier.free_low_mib" 1024)] a
  let a := r .trRate [(16, p "x.tier.rate.demote_pps" 8192 / 16), (0, p "tier.rate.max_pps" 16384 / 16)] a
  let a := r .trReserve [(16, p "x.tier.reserve.nvm" 1024), (0, p "x.tier.reserve.dram" 1024)] a
  let bud (c : Nat) : Nat := match param s0 "tier.class.budget_pps" with | some b => leAt b (4 * c) 4 / 16 | none => 256
  let a := (List.range 16).foldl (fun s c => setReg .trBudget (16 * t + c) (BitVec.ofNat 32 (bud c)) s) a
  let a := r .pkCfg [(0, p "packed.ingest.decoders" 2)] a
  r .cryTwCfg [(0, p "x.crypto.twilight.rate" 16)] a

/-- Each pair of a list parameter of (index, value). -/
def pairsOf (s : State) (n : String) : List (Nat × Nat) :=
  let b := (param s n).getD []
  (List.range (b.length / 3)).map (fun i => (leAt b (3 * i) 2, leAt b (3 * i + 2) 1))

/-- The fault configuration from the parameters (R406): a fixed source keeps its class and enable (R401). -/
def faultParams (s0 : State) (s : State) : State :=
  let free (i : Nat) : Bool := !srcFixed i && srcPresent (tiles s0) i
  let s1 := (pairsOf s0 "x.fault.class").foldl (fun s e => if free e.1 then setReg .fcCfg e.1 (merge32 3#32 (BitVec.ofNat 32 e.2) (regRaw s .fcCfg e.1)) s else s) s
  let s2 := (pairsOf s0 "x.fault.grace_sel").foldl (fun s e =>
    if srcPresent (tiles s0) e.1 then setReg .fcCfg e.1 (merge32 0xC#32 (BitVec.ofNat 32 (4 * e.2)) (regRaw s .fcCfg e.1)) s else s) s1
  let s3 := (pairsOf s0 "x.fault.enable").foldl (fun s e =>
    if free e.1 then onFaults (fun f => { f with en := setBit f.en e.1 (decide (e.2 = 1)) }) s else s) s2
  match param s0 "fault.grace_ms" with
  | some b => (List.range 4).foldl (fun s k => setReg .fcGrace k (BitVec.ofNat 32 (leAt b (2 * k) 2)) s) s3
  | none => s3

/-- The value a list parameter gives a channel; one left out takes the default (R378). -/
def channelParam (s : State) (n : String) (e d : Nat) : Nat := (((pairsOf s n).reverse.find? (fun x => x.1 = e)).map (·.2)).getD d

/-- The device-wide registers that the image sets: channels (R378), the class table (R310). -/
def deviceParams (s0 : State) (s : State) : State :=
  let w (e : Nat) : W32 := word [(16, channelParam s0 "x.power.channel.ot_limit_c" e 125), (6, channelParam s0 "x.power.channel.slope" e 16),
    (0, channelParam s0 "power.channel.timer_ms" e 4)]
  let s1 := if s0.link.down then s else (List.range 33).foldl (fun s e => setReg .svChCfg e (w e) s) s
  s0.qos.cls.zipIdx.foldl (fun s x => setReg .qosClsCfg x.2 (word [(30, x.1.prio), (22, x.1.weight), (18, x.1.shed), (0, x.1.cap)]) s) s1

def imageGang (s : State) : Bytes := (param s "host.port.gang").getD (List.replicate 8 0#8)

/-- DAWN_4 (R150, R167–R170, R278, R288, R342, R349): keys drawn, DRAM trained, RWL fields written, every block released. -/
def execDawn4 (nonce : W64) (treeKeys : List (BitVec 256)) (dimms : List (TileId × DimmId × Spd)) (eyes : List Eye) (failed : List (SubId × Fin 10)) (s : State) :
    Host.Outcome State Fault Refusal :=
  if !firmwareRuns s 0 || midnight s || decide (s.dawn.stage ≠ 3) || s.dawn.cand.isNone then .next s
  else
    let s1 := onDawn (fun d => { d with stage := 4 }) s
    let differs := decide ((tileList s).map (fun t => leAt (imageGang s) t 1) ≠ (tileList s).map (fun t => leAt s.dawn.opt.gang t 1))
    let s2 := if differs then primaryLog 0x03#8 0#8 0xFFFF#16 ([2#8, 0#8] ++ slice (imageGang s) 0 8) (setGang (imageGang s) s1) else s1
    let s3 := onCry (fun c => { c with nonce := some nonce, treeKeys := (tileList s).foldl (fun tb t => Table.set none tb t treeKeys[t]?) c.treeKeys }) s2
    let first := ((tileList s).flatMap (fun t => (foundDimms dimms s3 t).map (·.2))).find? spdOk
    let s4 := (tileList s).foldl (fun s t => trainDimms first dimms eyes failed s t) s3
    let s5 := (tileList s).foldl (fun a t => tileParams s4 t a) s4
    let s6 := deviceParams s4 (faultParams s4 s5)
    .next ((tileList s).foldl (fun s t => releaseBlocks t (setReg .rstBlkCtl t 0#32 s)) s6)

/-- The catalogue fits a tile's frames (R70): page frames outside the migration reserve hold every region that takes frames, DRAM those that must
stay there, and the tile-local areas lie within their tier. -/
def fitsTile (s : State) (t : Nat) : Bool :=
  let paged := s.map.cat.filter (fun r => r.typ ≠ .packed)
  let must := paged.filter (fun r => !isTiered r)
  let sum (l : List Region) : Nat := l.foldl (fun a r => a + share s r) 0
  let dr := pageFrames s t false - reserveOf s t false
  let nv := pageFrames s t true - reserveOf s t true
  decide (localDram s t ≤ dramFrames s t) && decide (localNvm s ≤ nvmFrames s t) && decide (sum must ≤ dr) && decide (sum paged ≤ dr + nv)

/-- Links still training have failed it, and the groups form (R180, R188). -/
def formTile (t : Nat) (s : State) : State :=
  formGroups t ((List.range 40).foldl (fun s l =>
    let n := 40 * t + l
    if (getLink s n).st = .training then raiseTile t .nlTrainFail n (onNl n (fun x => { x with st := .out, reason := .training, reqs := [], wait := [] }) s)
    else s) s)

/-- The Dawn evaluation is done (R320, R325, R327): its report is kept; a set not admitted passes the candidate over with FAIL_CODE 7; an admitted one
is applied, and the fill of every region starts (R90). -/
def admitted (o : EvalOut) (s : State) : State :=
  let s1 := onQos (fun q => { q with report := reportBytes s 0 0xFFFF o }) s
  if o.result = 3 then passOver 7 s1
  else
    let gts := min 640 (10 * paramNat s "x.qos.link_gts" 64)
    let s2 := onQos (fun q => { q with links := (heads s).foldl (fun tb h => Table.set (0, 0) tb h (headLanes s h, gts)) q.links }) (applyEval o s1)
    s2.map.cat.foldl (fun s r => startFill r.base r.len r.idx none s) s2

/-- DAWN_5 (R70, R90, R320, R325, R349): fit, admission, reserves, and the fill of every region. -/
def execDawn5 (s : State) : Host.Outcome State Fault Refusal :=
  if !firmwareRuns s 0 || midnight s || decide (s.dawn.stage ≠ 4) || s.dawn.cand.isNone then .next s
  else
    let s1 := (tileList s).foldl (fun s t => formTile t s) (onDawn (fun d => { d with stage := 5 }) s)
    if !(tileList s).all (fitsTile s1) then .next (passOver 6 s1)
    else .next (admitted (evaluate s1 s1.qos.cls true) s1)

/-- DAWN_6 (R197, R349, R353, R397): once every region is filled: the run lock, Mem_Active, the Dawn-complete record and the STAMP time base. -/
def execDawn6 (s : State) : Host.Outcome State Fault Refusal :=
  if !firmwareRuns s 0 || midnight s || decide (s.dawn.stage ≠ 5) || s.dawn.cand.isNone || s.map.fills.any (fun e => e.2.isSome) then .next s
  else
    let s1 := onDawn (fun d => { d with stage := 6, runLock := true, memActive := true }) (onTime (fun t => { t with d6At := t.now }) s)
    let flags := (s.qos.report.getD 12 0#8)
    .next (primaryLog 0x01#8 0#8 0xFFFF#16
      ([BitVec.ofNat 8 (b2n s.dawn.slotB), 0#8] ++ leBytes 4 s.dawn.seq.toNat ++ slotIdentity s ++ [BitVec.ofNat 8 s.qos.result, flags]) s1)

end Sys2Proof.Machine
end

