-- ==== Sys2Proof/Machine/Status.lean ====
section
/-!
DEFINITION. What the device reports of itself: the flags and body of Get Iluis Status (R68) and the I3C status image (R415, R418).
-/
namespace Sys2Proof.Machine

/-- `bw` words of a tile: read, or write, of class `c` (CNT_CLS_BW). -/
def clsBw (s : State) (t c : Nat) (wr : Bool) : Nat := (Table.get 0#32 s.cnt.bw (tileCnt t (96 + 2 * c + b2n wr))).toNat

def subsOut (s : State) : Nat := (List.range (16 * tiles s)).filter (fun d => (getSub s d).st = .out) |>.length
def linksOut (s : State) : Nat := (List.range (40 * tiles s)).filter (fun n => (getLink s n).st = .out) |>.length

/-- A Koist link of the member has fewer than its four modules in service (R17). -/
def modulesOut (s : State) : Bool := (koistLinks s).zipIdx.any (fun e => decide (Table.get 0#4 s.fab.modules e.2 ≠ 15#4))

/-- Degraded: the last evaluation ended otherwise than admitted, or a sub-channel, N-link, group or Koist module is out (R68 names the flag alone;
DESIGN CHOICE, log 58). -/
def degradedNow (s : State) : Bool :=
  decide (s.qos.result ≠ 0) || decide (0 < subsOut s) || decide (0 < linksOut s) || modulesOut s ||
  (List.range (4 * tiles s)).any (fun g => let x := getGrp s (g / 4) (g % 4); decide (x.st = .degraded) || decide (x.st = .lost))

/-- Bytes 0–1 of Get Iluis Status (R68, R329, R410). -/
def iluisFlags (s : State) : Nat :=
  b2n (dawnDone s) + 2 * b2n s.dawn.runLock + 4 * b2n s.faults.rr + 8 * b2n (degradedNow s) +
  16 * b2n (decide (s.qos.shed ≠ 0#16) || decide (s.qos.result = 4)) + 32 * b2n (!s.cry.passes.isEmpty) + 64 * b2n (decide (s.host.surrSet ≠ 0#5))

/-- Tiles none of whose sources has sticky status (R68). -/
def tilesClean (s : State) : Nat :=
  (tileList s).foldl (fun a t => if s.faults.sts.toNat / 2 ^ (120 * t) % 2 ^ 120 = 0 then a + 2 ^ t else a) 0

def secsUp (s : State) : Nat := (s.time.now - s.time.relAt) / 1000000

/-- The output of Get Iluis Status (R68). -/
def statusBytes (s : State) : Bytes :=
  leBytes 2 (iluisFlags s) ++ [BitVec.ofNat 8 (b2n s.dawn.slotB), BitVec.ofNat 8 s.dawn.stage] ++ leBytes 4 s.dawn.seq.toNat ++
  [BitVec.ofNat 8 (2 ^ tiles s - 1), BitVec.ofNat 8 (tilesClean s)] ++ leBytes 2 0 ++ leBytes 4 (secsUp s) ++
  leBytes 2 (ones 1024 s.faults.sts.toNat) ++ leBytes 2 (linksOut s) ++ leBytes 2 (subsOut s) ++ leBytes 2 0 ++
  leBytes 8 (Config.buildNumber s.dawn.recovery s.dawn.fwDigest).toNat

/-- Head bandwidth of port `p` in the image: its read and write MB/s, 0 where it is not the lowest port of a head, and in recovery (R418). -/
def portBwBytes (s : State) (p : Nat) : Bytes :=
  if isHead s p && !s.dawn.recovery then
    leBytes 4 (Table.get 0#32 s.cnt.bw (portCnt p 2)).toNat ++ leBytes 4 (Table.get 0#32 s.cnt.bw (portCnt p 3)).toNat
  else List.replicate 8 0#8

def classBwBytes (s : State) (c : Nat) : Bytes :=
  let sum (wr : Bool) : Nat := if s.dawn.recovery then 0 else (tileList s).foldl (fun a t => satAdd a (clsBw s t c wr) 0xFFFFFFFF) 0
  leBytes 4 (sum false) ++ leBytes 4 (sum true)

/-- A new status image with its GEN (R418). While SV cannot be reached its two words keep their last values and read stale (R25). -/
def statusImage (s : State) (gen : W32) : Bytes :=
  let sv := if s.link.down then slice s.i3c.image 40 8 else leBytes 4 (svPpSts s).toNat ++ leBytes 4 (regView s .svPwr 0).toNat
  leBytes 2 1 ++ leBytes 2 0 ++ leBytes 4 896 ++ leBytes 4 gen.toNat ++ leBytes 4 0 ++ leBytes 8 (s.time.now - s.time.relAt) ++
  leBytes 2 (iluisFlags s) ++ [BitVec.ofNat 8 (tiles s), BitVec.ofNat 8 (b2n s.link.stale + 2 * b2n s.dawn.recovery)] ++
  leBytes 4 (dawnSts s).toNat ++ leBytes 4 (regView s .qosSts 0).toNat ++ leBytes 4 (escSts s).toNat ++ sv ++ List.replicate 16 0#8 ++
  leBytes 128 s.faults.sts.toNat ++ (List.range 64).flatMap (portBwBytes s) ++ (List.range 16).flatMap (classBwBytes s) ++ List.replicate 64 0#8

end Sys2Proof.Machine
end

