-- ==== Sys2Proof/Machine/Twilight.lean ====
section
/-!
DEFINITION. The Twilight engine (R302–R306): the order of a pass, one line's rekeying, the end of a pass and its removal.
-/
namespace Sys2Proof.Machine

/-- Lines of a pass on one tile (R302): a protected share, or the map area and then the block area. -/
def passLines (s : State) (r : Region) : Nat := if r.typ = .packed then 64 * (mapFrames s r + r.store) else 64 * share s r

def onPass (region : Nat) (f : Pass → Pass) (s : State) : State :=
  onCry (fun c => { c with passes := c.passes.map (fun p => if p.region = region then f p else p) }) s

/-- Where a pass stands in its order: a DPA line, or a line of a store area. -/
inductive PassLine where
  | dpa (line : Nat)
  | store (area k : Nat)
deriving DecidableEq, Repr

def passLine (s : State) (r : Region) (t o : Nat) : PassLine :=
  if r.typ = .packed then
    let m := 64 * mapFrames s r
    if o < m then .store 2 o else .store 1 (o - m)
  else .dpa (64 * pageAt s t (localPage s (r.base / 4096) + o / 64) + o % 64)

/-- The first place at or after `o` that is not passed over at once (R303): not an unwritten page, nor a free unit of the block area. -/
def passSkip (s : State) (r : Region) (t o : Nat) : Nat :=
  let n := passLines s r
  if r.typ = .packed then
    let m := 64 * mapFrames s r
    if o < m then o
    else (runsOf s t r.idx).foldl (fun a x =>
      let lo := m + 4 * x.1
      let hi := m + 4 * (x.1 + x.2)
      if hi ≤ o then a else min a (max o lo)) n
  else
    s.place.foldl (fun a e =>
      let line := 64 * e.1
      if e.2.st ≠ .unwritten ∧ r.base ≤ 64 * line ∧ 64 * line < r.base + r.len ∧ homeOf s line = t then
        let lo := 64 * (localPage s e.1 - localPage s (r.base / 4096))
        if lo + 64 ≤ o then a else min a (max o lo)
      else a) n

/-- The first line that the engine rekeys: lines of damaged subtrees are passed over too (R300, R303). -/
def passNext (s : State) (r : Region) (t : Nat) : Nat → Nat → Nat
  | 0, o => o
  | f + 1, o =>
    let p := passSkip s r t o
    if passLines s r ≤ p then passLines s r
    else
      let c := match passLine s r t p with | .dpa l => dpaLoc s r l | .store a k => storeLoc s r t a k
      if isDamaged s c then passNext s r t f (p / 64 * 64 + 64) else p

/-- Every tile's twilight line has passed the end: the pass is ending and its slot current (R305). -/
def endPass (region : Nat) (s : State) : State :=
  match regionOf s region, passOn s region with
  | some r, some p =>
    if !p.ending && (tileList s).all (fun t => decide (passLines s r ≤ Table.get 0 p.pos t)) then
      onPass region (fun p => { p with ending := true }) (onCry (fun c => { c with cur := Table.set none c.cur region (some p.new) }) s)
    else s
  | _, _ => s

/-- The twilight line of a tile stands at `o`. -/
def setPos (region t o : Nat) (s : State) : State := endPass region (onPass region (fun p => { p with pos := Table.set 0 p.pos t o }) s)

def withKey (x : BitVec 56) (k : BitVec 12) : BitVec 56 := mkMeta k (metaPoison x) (metaHst x) (metaHolder x) (metaRsv x)

/-- What becomes of a line's record (R303): the new record, or a failed check, or nothing yet where a key is missing. -/
inductive Rekey where
  | write (r : Rec)
  | alarm (level : Option Nat)
  | stuck
deriving DecidableEq, Repr

/-- Rekey one record from the old slot to the new (R303): its tag and counter chain are verified first. -/
def rekey (c : CLoc) (p : Pass) (fold : Nat) (x : Rec) (s : State) : Rekey × State :=
  let old := (Table.get none s.cry.cur p.region).getD p.old
  let s0 := cacheFill c s
  let v := version s0 c
  if metaPoison x.meta_ || decide (v = 0) then (.write { x with meta_ := withKey x.meta_ p.new, mchk := BitVec.ofNat 8 (checkByte fold 8 (withKey x.meta_ p.new).toNat) }, s0)
  else match chainBad s c.leaves (leafItem c) with
    | some l => (.alarm (some l), s0)
    | none =>
      if !tagMatches s0 c old v x.data then (.alarm none, s0)
      else match decryptLine s0 c old v x.data with
        | none => (.stuck, s0)
        | some plain =>
          let (ct, s1) := encryptLine c p.new v plain s0
          (.write (mkRec fold ct (withKey x.meta_ p.new)), s1)

/-- The twilight line passes a line, and the tile's engine turns to its next pass (R303). -/
def passBy (region t o : Nat) (s : State) : State := setPos region t (o + 1) (onCry (fun c => { c with turn := Table.set 0 c.turn t (region + 1) }) s)

/-- The pass that a tile's engine serves next: the active passes with lines left take turns by region number (R303, log 129). -/
def passTurn (s : State) (t : Nat) : Option Nat :=
  let act := (s.cry.passes.filter (fun p => !p.ending && (match regionOf s p.region with
    | some r => decide (Table.get 0 p.pos t < passLines s r)
    | none => false))).map (·.region)
  match (act.filter (fun x => decide (Table.get 0 s.cry.turn t ≤ x))).min? with
  | some r => some r
  | none => act.min?

/-- RATE of a tile's Twilight engine as it acts: at least 1, and 1 on a tile that a re-evaluation reduced (CRY_TW_CFG, R303, R329). -/
def twRate (s : State) (t : Nat) : Nat := if s.qos.reduced.getLsbD t then 1 else max 1 (regFld s .cryTwCfg t 7 0)

/-- Lines that a tile's engine has rekeyed in this µs. -/
def twSpent (s : State) (t : Nat) : Nat := let (at_, n) := Table.get (0, 0) s.cry.pace t; if at_ = s.time.now then n else 0

/-- The rekeyed line is written and the twilight line passes it; a failed check is an alarm (R303, R306). -/
def rekeyEnd (r : Region) (t o : Nat) (c : CLoc) (addr : Nat) (isSa : Bool) (put : Rec → State → State) (s0 : State) (x : Rekey × State) : State :=
  match x with
  | (.write y, s) => passBy r.idx t o (addCnt (tileCnt t 476) 1 (onCry (fun c => { c with pace := Table.set (0, 0) c.pace t (s0.time.now, twSpent s0 t + 1) }) (put y (shadowTraffic c (decide (s.cry.tags ≠ s0.cry.tags)) false (walkerPrio s) s0 s))))
  | (.alarm l, s) => failCheck t r.idx addr isSa l s
  | (.stuck, s) => s

/-- A DPA line of a pass (R303, R306): it waits for the line lock and for its record; a lost channel or group leaves it as it is. -/
def twilightDpa (r : Region) (p : Pass) (t o line : Nat) (flips : Flips) (s : State) : State :=
  if !lineFree s line then onHa (fun h => { h with twWait := h.twWait ++ [line] }) s
  else if lineLost s line then passBy r.idx t o s
  else match takeLine line flips { kind := 2 } s with
    | none => askLine line (walkerPrio s) s
    | some (x0, lost, s1) =>
      let (x, bad, s1) := if lost then (x0, false, s1) else fixKey line r { kind := 2 } (putLine line) x0 s1
      let s2 := if lost || bad then metaLost line r s1 else s1
      rekeyEnd r t o (dpaLoc s2 r line) (64 * line) false (fun y s => putLine line y s) s2 (rekey (dpaLoc s2 r line) p line x s2)

/-- A store line of a pass. -/
def twilightStore (r : Region) (p : Pass) (t o area k : Nat) (flips : Flips) (s : State) : State :=
  let (nvm, f, i) := storeAt s r t area k
  let fold := storeFold s r t area k
  let put (y : Rec) (s : State) : State := storePut r t area k (walkerPrio s) y s
  if storeLost s r t area k then passBy r.idx t o s
  else match takeLoc 2 t nvm f i flips s with
    | none => storeAsk r t area k (walkerPrio s) s
    | some (x, src, s1) =>
      let c := checkRec fold (storeRec s r t area k flips x)
      let s2 := match src with | .inl d => countUe d c.bad.length (countCe d c.fixed s1) | .inr _ => s1
      if c.bad.isEmpty then
        let l := storeLoc s2 r t area k
        let (y, _, s3) := checkKey r l fold (storeMeta s2 r l) { kind := 2 } put c.out s2
        rekeyEnd r t o l (storeSa r.idx t area k) true put s3 (rekey l p fold (tainted s3 (storeSa r.idx t area k) fold y) s3)
      else if area = 2 then mapAreaBad r t k c.bad s2
      else
        let s3 := match s2.pk.maps.find? (fun e => decide (e.1 / 2 ^ 24 = 1024 * t + r.idx) && decide (e.2.run ≤ k / 4) && decide (k / 4 < e.2.run + e.2.units)) with
          | some e => if e.2.fmt = 2 then s2 else poisonBlock r (blockAt s2 r t (e.1 % 2 ^ 24)) .store s2
          | none => s2
        rekeyEnd r t o (storeLoc s3 r t area k) (storeSa r.idx t area k) true put s3 (rekey (storeLoc s3 r t area k) p fold (mkRec fold 0#512 (mkMeta p.old true 0 0 0)) s3)

/-- TWILIGHT_LINE (R303): the engine of the tile, where this pass has its turn, takes the pass's next line, passing over what needs no rekeying, unless it has rekeyed RATE lines in this µs. -/
def execTwilightLine (t : TileId) (region : RegionId) (flips : Flips) (s : State) : Host.Outcome State Fault Refusal :=
  match regionOf s region.val, passOn s region.val with
  | some r, some p =>
    let o := Table.get 0 p.pos t.val
    let s := onHa (fun h => { h with twWait := h.twWait.filter (fun l => !(decide (homeOf s l = t.val) && (match regionAt s (64 * l) with | some x => decide (x.idx = r.idx) | none => true))) }) s
    if !walkersRun s t.val || p.ending || decide (passTurn s t.val ≠ some r.idx) then .next s
    else
      let n := passNext s r t.val (s.place.length + 2 * (runsOf s t.val r.idx).length + mapFrames s r + 2) o
      let s1 := if n = o then s else setPos r.idx t.val n s
      if passLines s r ≤ n ∨ twRate s t.val ≤ twSpent s t.val then .next s1
      else match passLine s1 r t.val n with
        | .dpa l => .next (twilightDpa r p t.val n l flips s1)
        | .store a k => .next (twilightStore r p t.val n a k flips s1)
  | _, _ => .next s

/-- A request's attributes carry slot `k` for a line of region `region`. -/
def carries (s : State) (region : Nat) (k : BitVec 12) (line : Nat) (a : Attr) : Bool :=
  decide (a.key = k) && (match regionAt s (64 * line) with | some r => decide (r.idx = region) | none => false)

/-- A range of the job lies in the region: one that does and carries the old slot passed its checks before the switch (R234, R305). -/
def touches (s : State) (d : Bytes) (region : Nat) : Bool :=
  let in_ (a : Nat) : Bool := match regionAt s a with | some r => decide (r.idx = region) | none => false
  (decide (dType d = 1 ∨ dType d = 3) && in_ (dSrc d)) || (decide (dType d ≠ 0) && in_ (dDst d))

/-- Something admitted under the old slot has not completed (R305): a request at a tile, in a hold queue, in transit or at a home, or a job that has
passed its checks. -/
def oldInUse (s : State) (region : Nat) (k : BitVec 12) : Bool :=
  let msg (m : Msg) : Bool := carries s region k m.line m.attr
  s.nc.ops.any (fun e => e.2.any (fun w => carries s region k (e.1 % 2 ^ 42) (opAttr s (e.1 % 2 ^ 42) w))) ||
  s.qos.hold.any (fun e => e.2.any (fun h => carries s region k h.line (opAttr s h.line h.op))) ||
  s.fab.req.any msg || s.ha.lq.any (fun e => e.2.any msg) || s.ha.allocQ.any (fun e => e.2.any msg) ||
  s.ha.txns.any (fun e => e.2.live && (match e.2.req with | some m => msg m | none => false)) ||
  s.job.jobs.any (fun e => match e.2 with
    | some j => j.started && !j.ended_ && decide (rgKey (getRing s (e.1 / 2 ^ 32)) = k.toNat) && touches s j.desc region
    | none => false)

/-- TWILIGHT_PASS_REMOVE (R305): an ending pass with nothing left under its old slot is removed. -/
def execTwilightPassRemove (region : RegionId) (s : State) : Host.Outcome State Fault Refusal :=
  match passOn s region.val with
  | none => .next s
  | some p =>
    .next (if p.ending && !oldInUse s region.val p.old then onCry (fun c => { c with passes := c.passes.erase p }) s else s)

end Sys2Proof.Machine
end

