-- ==== Sys2Proof/Machine/MbCore.lean ====
section
/-!
DEFINITION. The mailbox's plumbing: which functions are served, which heads may send a command (R65–R67, R351), the Command Effects Log, and the secured
commands (R68, R277, R301).
-/
namespace Sys2Proof.Machine

/-- A function whose mailbox and DOE are served: its head is ready and the primary's firmware serves it (R49, R66, R349, R351). -/
def mbUp (s : State) (f : Fn) : Bool :=
  let p := getPort s f.head.val
  headLive s f.head.val && p.up && p.ready && primaryRuns s && fnExists s f

/-- A mailbox answer. -/
def mbPut (f : Fn) (rc : MbRc) (out : MbOut) (s : State) : State := onFn (fnOf f) (fun x => { x with rsp := some ⟨rc, out⟩, payload := [] }) s

/-- The Heads column of R67's table. -/
inductive Who where | any | mgmt | fm
deriving DecidableEq, Repr

def isMgmt (s : State) (f : Fn) : Bool := decide (f.head.val = mgmtHead s)

def headMay (s : State) (f : Fn) (w : Who) : Bool :=
  match w with
  | .any => true
  | .mgmt => isMgmt s f
  | .fm => isMgmt s f || f.fm

/-- A command reaches its function: recovery firmware and a head that may not issue it answer Unsupported (R67, R351); otherwise it acts. `r`: recovery
firmware serves it. -/
def serve (f : Fn) (w : Who) (r : Bool) (act : State → State) (s : State) : State :=
  if !mbUp s f then s
  else if (s.dawn.recovery && !r) || !headMay s f w then mbPut f .unsupported .none s
  else act s

/-- The commands of R67's table that are supported: opcode, Heads, and whether recovery firmware serves them (R351). -/
def commandTable : List (Nat × Who × Bool) :=
  [(0x0001, .any, true), (0x0002, .any, true), (0x0003, .any, false), (0x0004, .any, false), (0x0005, .mgmt, true), (0x0100, .any, true),
   (0x0101, .any, true), (0x0102, .any, false), (0x0103, .any, false), (0x0200, .any, true), (0x0201, .mgmt, true), (0x0202, .mgmt, true),
   (0x0300, .any, false), (0x0301, .mgmt, false), (0x0400, .any, true), (0x0401, .any, true), (0x0402, .any, false), (0x0403, .mgmt, false),
   (0x0405, .any, false), (0x0500, .any, false), (0x0501, .any, false), (0x0502, .any, false)] ++
  [(0x4000, .any, false), (0x4100, .any, false), (0x4200, .any, true), (0x4201, .any, false), (0x4202, .mgmt, false), (0x4300, .any, false),
   (0x4301, .mgmt, false), (0x4302, .mgmt, false), (0x4800, .any, false), (0x4801, .any, false), (0x4802, .any, false), (0x4803, .any, false)] ++
  [(0x5400, .fm, false), (0x5401, .fm, false), (0x5403, .fm, false), (0x5405, .fm, false), (0x5406, .fm, false), (0x5408, .fm, false),
   (0x5500, .fm, false), (0x5501, .fm, false), (0x5600, .fm, false), (0x5601, .fm, false), (0x5603, .fm, false), (0x5604, .fm, false),
   (0x5605, .fm, false)] ++
  [(0xC000, .any, true), (0xC010, .mgmt, false), (0xC011, .mgmt, false), (0xC020, .mgmt, true), (0xC030, .mgmt, true), (0xC040, .mgmt, false),
   (0xC041, .mgmt, false), (0xC042, .mgmt, false), (0xC043, .any, false), (0xC050, .mgmt, true)]

/-- The opcodes a function may issue: its Command Effects Log (R67). -/
def celOf (s : State) (f : Fn) : List Nat :=
  (commandTable.filter (fun c => headMay s f c.2.1 && (c.2.2 || !s.dawn.recovery))).map (·.1)

/-- A vendor command's input of `n` bytes (R68): none where it is shorter. -/
def inputOf (inp : Bytes) (n : Nat) : Option Bytes := if inp.length < n then none else some (inp.take n)

/-! The secured commands. -/

/-- INSTALL_KEY's outcome (R68, R277). -/
def installKeyIn (inp : Bytes) (s : State) : MbRc × State :=
  match inputOf inp 40 with
  | none => (.invalidPayloadLength, s)
  | some b =>
    let k := leAt b 0 2
    let gen := leAt b 4 4
    if 4096 ≤ k ∨ leAt b 2 2 ≠ 0 ∨ k = 0 ∨ gen = 0 ∨ (keySlot s (BitVec.ofNat 12 k)).isSome then (.invalidInput, s)
    else (.success, onCry (fun c => { c with
      keys := Table.set none c.keys k (some ⟨BitVec.ofNat 256 (beNat (slice b 8 32)), BitVec.ofNat 32 gen⟩), everInstalled := true }) s)

/-- RETIRE_KEY's outcome (R68): its checks in order. -/
def retireKeyIn (inp : Bytes) (s : State) : MbRc × State :=
  match inputOf inp 2 with
  | none => (.invalidPayloadLength, s)
  | some b =>
    let k := leAt b 0 2
    if k = 0 ∨ 4096 ≤ k then (.invalidInput, s)
    else if keyUsed s k then (.busy, s)
    else (.success, onCry (fun c => { c with keys := Table.set none c.keys k none }) s)

/-- A fill of the region or of one of its extents runs (R301). -/
def fillingRegion (s : State) (region : Nat) : Bool :=
  s.map.fills.any (fun e => match e.2 with | some f => decide (f.region = region) | none => false)

/-- START_TWILIGHT's outcome (R68, R301): the first failing check, or the pass started with each tile's twilight line at the start of its share. -/
def startTwilightIn (inp : Bytes) (s : State) : MbRc × State :=
  match inputOf inp 8 with
  | none => (.invalidPayloadLength, s)
  | some b =>
    let k := leAt b 2 2
    match (regionOf s (leAt b 0 2)).filter (fun r => r.typ = .protect ∨ r.typ = .packed) with
    | none => (.invalidInput, s)
    | some r =>
      if leAt b 4 4 ≠ 0 then (.invalidInput, s)
      else if k = 0 ∨ 4096 ≤ k ∨ (keySlot s (BitVec.ofNat 12 k)).isNone then (.invalidInput, s)
      else if k = (currentKey s r).toNat then (.invalidInput, s)
      else if (passOn s r.idx).isSome then (.busy, s)
      else if 8 ≤ s.cry.passes.length then (.busy, s)
      else if s.cry.passes.any (fun p => decide (p.old.toNat = k)) then (.busy, s)
      else if fillingRegion s r.idx then (.busy, s)
      else (.success, onCry (fun c => { c with passes := c.passes ++ [⟨r.idx, currentKey s r, BitVec.ofNat 12 k, false, []⟩] }) s)

/-- What answers a secured command before it is executed (R65, R277, R351): none where it is. -/
def securedRc (s : State) (v : Via) : Option MbRc :=
  if s.dawn.recovery then some .unsupported
  else match v with
    | .mailbox f => if isMgmt s f then some .invalidSecurityState else some .unsupported
    | .session h sid =>
      if h.val ≠ mgmtHead s then some .unsupported
      else match Table.get none s.host.sessions sid, param s "crypto.provision.root" with
        | some x, some root => if x.head = h.val ∧ x.root = BitVec.ofNat 256 (beNat root) then none else some .invalidSecurityState
        | _, _ => some .invalidSecurityState

/-- Function 0 of a head: where the answers of its sessions stand. -/
def lead (h : PortId) : Fn := ⟨h, 0, false⟩

/-- The head has this session (R355). -/
def sessionOf (s : State) (h sid : Nat) : Bool := match Table.get none s.host.sessions sid with | some x => decide (x.head = h) | none => false

/-- A secured command by either path (R65): in a session its answer is a vendor response. -/
def secured (v : Via) (opcode : BitVec 16) (act : State → MbRc × State) (s : State) : State :=
  match v with
  | .mailbox f => if !mbUp s f then s else mbPut f ((securedRc s v).getD .invalidSecurityState) .none s
  | .session h sid =>
    if !mbUp s (lead h) || !sessionOf s h.val sid then s
    else
      let (rc, s1) := match securedRc s v with | some rc => (rc, s) | none => act s
      onFn (fnOf (lead h)) (fun x => { x with doe := .vendor opcode rc .none }) s1

end Sys2Proof.Machine
end

