-- ==== Sys2Proof/Machine/Mailbox.lean ====
section
/-!
DEFINITION. The mailbox commands (R55, R61–R63, R66–R68, R277, R301, R302, R321, R348, R398, R456, R460), one for each row of R67's table. Where CXL
alone lays out a payload the answer names its content (`MbOut`, log 33).
-/
namespace Sys2Proof.Machine

/-! General commands. -/

/-- IDENTIFY (R67, R351). -/
def execIdentify (f : Fn) (s : State) : Host.Outcome State Fault Refusal :=
  .next (serve f .any true (fun s => mbPut f .success (.identity s.fuse.serial 4096) s) s)

/-- BACKGROUND_OPERATION_STATUS (R66, R67). -/
def execBackgroundOperationStatus (f : Fn) (s : State) : Host.Outcome State Fault Refusal :=
  .next (serve f .any true (fun s => mbPut f .success
    (match s.host.bg with | some (op, live, rc) => .background op (if live then 0 else 100) rc | none => .background 0#16 0 .success) s) s)

/-- GET_RESPONSE_MESSAGE_LIMIT (R67). -/
def execGetResponseMessageLimit (f : Fn) (s : State) : Host.Outcome State Fault Refusal :=
  .next (serve f .any false (fun s => mbPut f .success (.limit (getFn s (fnOf f)).limit) s) s)

/-- SET_RESPONSE_MESSAGE_LIMIT (R67): 2^n bytes from 256 up to the 4 KiB of R66 (PRESUMED, log 33). -/
def execSetResponseMessageLimit (f : Fn) (limit : Byte) (s : State) : Host.Outcome State Fault Refusal :=
  .next (serve f .any false (fun s =>
    if 8 ≤ limit.toNat ∧ limit.toNat ≤ 12 then mbPut f .success (.limit limit) (onFn (fnOf f) (fun x => { x with limit := limit }) s)
    else mbPut f .invalidInput .none s) s)

/-- REQUEST_ABORT_BACKGROUND_OPERATION (R67): an aborted transfer discards the partial image. -/
def execRequestAbortBackgroundOperation (f : Fn) (s : State) : Host.Outcome State Fault Refusal :=
  .next (serve f .mgmt true (fun s =>
    let s1 := match s.host.bg with
      | some (op, true, _) => onHost (fun h => { h with bg := some (op, false, .aborted) }) (onFlash (fun x => { x with busy := none }) s)
      | _ => s
    mbPut f .success .none s1) s)

/-! Events. -/

def eventsOf (x : FnSt) (log : EvLog) : List EvRec := x.events.filter (fun e => e.log = log)

/-- The first `n` records of a log leave it. -/
def dropEvents (log : EvLog) : Nat → List EvRec → List EvRec
  | 0, l => l
  | _ + 1, [] => []
  | n + 1, e :: l => if e.log = log then dropEvents log n l else e :: dropEvents log (n + 1) l

/-- GET_EVENT_RECORDS (R55, R67). -/
def execGetEventRecords (f : Fn) (log : EvLog) (s : State) : Host.Outcome State Fault Refusal :=
  .next (serve f .any true (fun s => let x := getFn s (fnOf f)
    mbPut f .success (.events (eventsOf x log) (x.evOver.contains log)) s) s)

/-- CLEAR_EVENT_RECORDS (R67): records are cleared oldest first; a log that becomes empty has no overflow (PRESUMED from CXL, log 33). -/
def execClearEventRecords (f : Fn) (log : EvLog) (count : Nat) (s : State) : Host.Outcome State Fault Refusal :=
  .next (serve f .any true (fun s =>
    let n := (eventsOf (getFn s (fnOf f)) log).length
    if n < count then mbPut f .invalidInput .none s
    else mbPut f .success .none (onFn (fnOf f) (fun x => { x with
      events := dropEvents log count x.events, evOver := if n = count then x.evOver.erase log else x.evOver }) s)) s)

/-- GET_EVENT_INTERRUPT_POLICY (R54, R67): no interrupts. -/
def execGetEventInterruptPolicy (f : Fn) (s : State) : Host.Outcome State Fault Refusal :=
  .next (serve f .any false (mbPut f .success .intPolicy) s)

/-- SET_EVENT_INTERRUPT_POLICY (R67): only "no interrupt" is accepted. -/
def execSetEventInterruptPolicy (f : Fn) (mode : Byte) (s : State) : Host.Outcome State Fault Refusal :=
  .next (serve f .any false (mbPut f (if mode = 0#8 then .success else .invalidInput) .none) s)

/-! Firmware. -/

/-- The inactive slot (R348): the one that does not run; slot B where none runs, as SLOT then reads A (DESIGN CHOICE, log 61). -/
def inactiveSlot (s : State) : Bool := !s.dawn.slotB

/-- A slot erased. -/
def eraseSlot (b : Bool) (s : State) : State :=
  onFlash (fun x => { x with bytes := Table.keep (fun a _ => decide (a < slotBase b) || decide (slotBase b + 2 ^ 25 ≤ a)) x.bytes }) s

/-- The option block's bytes as a rewrite takes them: an invalid block counts as the defaults (R342, R348; DESIGN CHOICE, log 61). -/
def optBytes (s : State) : Bytes :=
  let b := flashRead s 0 4096
  if optValid b then b else leBytes 4 0x4F4C5250 ++ leBytes 2 1 ++ List.replicate 4058 0#8

/-- Firmware rewrites the option block with an activation (R348): every field not named keeps its value, and a reset before the rewrite ends finds the block invalid. -/
def rewriteOpt (activate : Nat) (seq : Option W32) (s : State) : State :=
  let b := optBytes s
  let s1 := flashWrite 0 (optRewrite b activate (seq.getD (BitVec.ofNat 32 (leAt b 8 4)))) s
  let s2 := onFlash (fun x => { x with rewriteEnd := s1.time.now + Config.rewriteUs s1.free }) s1
  { s2 with free := s2.free + 1 }

/-- GET_FW_INFO (R67): two slots, the running one, the one activated for the next reset, and the SEQ of each usable header. -/
def execGetFwInfo (f : Fn) (s : State) : Host.Outcome State Fault Refusal :=
  .next (serve f .any true (fun s =>
    let o := optOf (optBytes s)
    mbPut f .success (.fwInfo 2 (if s.dawn.recovery then 0 else 1 + b2n s.dawn.slotB) o.activate
      [(slotHdr s false).map (·.seq), (slotHdr s true).map (·.seq)]) s) s)

/-- TRANSFER_FW (R66, R348): a background operation; the inactive slot is erased as it begins (DESIGN CHOICE, log 61). -/
def execTransferFw (f : Fn) (image : Bytes) (s : State) : Host.Outcome State Fault Refusal :=
  .next (serve f .mgmt true (fun s =>
    match s.host.bg with
    | some (_, true, _) => mbPut f .busy .none s
    | _ =>
      let b := inactiveSlot s
      mbPut f .bgStarted .none (eraseSlot b (onFlash (fun x => { x with busy := some (b, image) })
        (onHost (fun h => { h with bg := some (0x0201#16, true, .success) }) s)))) s)

/-- A transferred image is accepted (R343, R346, R348): a valid header and signature, and a SEQ above the running image's. -/
def transferOk (s : State) (image : Bytes) : Bool :=
  let rd (off n : Nat) : Bytes := slice image off n
  match parseHdr rd with
  | some h => [2, 4, 8].contains h.member && decide (h.length ≤ image.length) && decide (image.length ≤ 2 ^ 25) && signedOk s rd h &&
      (s.dawn.recovery || decide (s.dawn.seq.toNat < h.seq.toNat))
  | none => false

/-- TRANSFER_FW_DONE (R348): the whole image written and ACTIVATE 0, or Invalid Input with the slot left erased. -/
def execTransferFwDone (s : State) : Host.Outcome State Fault Refusal :=
  match s.flash.busy with
  | none => .next s
  | some (b, image) =>
    if !primaryRuns s then .next s
    else
      let ok := transferOk s image
      let s1 := onHost (fun h => { h with bg := some (0x0201#16, false, if ok then .success else .invalidInput) }) (onFlash (fun x => { x with busy := none }) s)
      .next (if ok then rewriteOpt 0 none (flashWrite (slotBase b) image s1) else s1)

/-- ACTIVATE_FW (R348): on the next reset; either slot whose header is usable. -/
def execActivateFw (f : Fn) (slotB : Bool) (online : Bool) (s : State) : Host.Outcome State Fault Refusal :=
  .next (serve f .mgmt true (fun s =>
    if online then mbPut f .unsupported .none s
    else match usable s slotB with
      | none => mbPut f .invalidInput .none s
      | some h => mbPut f .success .none (rewriteOpt (1 + b2n slotB) (some h.seq) s)) s)

/-! Time and logs. -/

/-- GET_TIMESTAMP (R67). -/
def execGetTimestamp (f : Fn) (s : State) : Host.Outcome State Fault Refusal :=
  .next (serve f .any false (fun s => mbPut f .success (.time (hostClock s)) s) s)

/-- SET_TIMESTAMP (R67). -/
def execSetTimestamp (f : Fn) (ns : W64) (s : State) : Host.Outcome State Fault Refusal :=
  .next (serve f .mgmt false (fun s => mbPut f .success .none (onTime (fun t => { t with stamp := some (ns, t.now) }) s)) s)

/-- The Iluis fault log (R398): ring F's records above the newest clear mark, in ascending SEQ, each as its 64 stored bytes. -/
def faultLog (s : State) : Bytes :=
  let rs : List (Nat × Nat × Nat) := recordsFrom s.log [0] 0
  let mark (e : Nat × Nat × Nat) : Bool := decide ((posBytes s.log e.2.1 e.2.2).getD 4 0#8 = 0x12#8)
  let top : Nat := (rs.filter mark).foldl (fun (a : Nat) e => max a (e.1 + 1)) 0
  (rs.filter (fun e => decide (top ≤ e.1))).flatMap (fun e => posBytes s.log e.2.1 e.2.2)

/-- The log store cannot be read: its scan runs, or SV cannot be reached (R25, R394). -/
def logAway (s : State) : Bool := (s.log.starting && s.log.scanning) || s.link.down

/-- What a read of the log store answers (R67, R398). -/
def logAnswer (f : Fn) (q : LogAsk) (s : State) : State :=
  match q with
  | .sizes => mbPut f .success (.logs (4 * (celOf s f).length) (faultLog s).length) s
  | .part offset length =>
    if 4096 < length ∨ (faultLog s).length < offset + length then mbPut f .invalidInput .none s
    else mbPut f .success (.bytes (slice (faultLog s) offset length)) s
  | .sub start count =>
    mbPut f .success (.logs (if start = 0 ∧ 0 < count then 4 * (celOf s f).length else 0) (if 1 < start + count then (faultLog s).length else 0)) s
  | .records first count =>
    let l := (recordsFrom s.log [0, 1, 2, 3] first).take (min 63 count)
    mbPut f .success (.bytes (leBytes 2 l.length ++ leBytes 2 0 ++ l.flatMap (fun e => posBytes s.log e.2.1 e.2.2))) s

/-- A read of the log store: Retry Required while it cannot be read (R25, R394), held while SV is on the hint path (R393). -/
def logRead (f : Fn) (q : LogAsk) (s : State) : State :=
  if logAway s then mbPut f .retryRequired .none s
  else if s.log.starting then onHost (fun h => { h with logHeld := h.logHeld ++ [(f, q)] }) (onFn (fnOf f) (fun x => { x with rsp := none }) s)
  else logAnswer f q s

/-- The reads that SV held are answered, for functions that are still served (R393). -/
def answerHeld (s : State) : State :=
  s.host.logHeld.foldl (fun s e => if mbUp s e.1 then logAnswer e.1 e.2 s else s) (onHost (fun h => { h with logHeld := [] }) s)

/-- LOG_SCAN_DONE (R390, R393, R394): the power-up path ends; after a full scan NEXT_SEQ and the pointers are what it found, and the records
queued meanwhile take their SEQ from it (DEDUCED, log 9); then the power-on count rises and a hint is due. Held reads are answered. -/
def execLogScanDone (s : State) : Host.Outcome State Fault Refusal :=
  if !s.log.starting then .next s
  else .next (answerHeld (onLog (fun l =>
    let l1 := if l.scanning then
        let f := fullScan l
        { l with ptrs := f.1, nextSeq := f.2 + l.nextSeq, queue := l.queue.map (fun r => { r with seq := r.seq + f.2 }) }
      else l
    startHint (splitInc 4 { l1 with scanning := false, starting := false })) s))

/-- GET_SUPPORTED_LOGS (R67): the CEL, four bytes an entry, and the Iluis fault log, with their sizes. -/
def execGetSupportedLogs (f : Fn) (s : State) : Host.Outcome State Fault Refusal :=
  .next (serve f .any true (logRead f .sizes) s)

/-- GET_LOG (R67, R398). -/
def execGetLog (f : Fn) (cel : Bool) (offset length : Nat) (s : State) : Host.Outcome State Fault Refusal :=
  .next (serve f .any true (fun s =>
    if cel then mbPut f .success (.cel (celOf s f)) s
    else logRead f (.part offset length) s) s)

/-- GET_LOG_CAPABILITIES (R67): only the Iluis fault log can be cleared. -/
def execGetLogCapabilities (f : Fn) (cel : Bool) (s : State) : Host.Outcome State Fault Refusal :=
  .next (serve f .any false (mbPut f .success (.logCaps (!cel))) s)

/-- CLEAR_LOG (R67, R398): a clear mark is queued, and the command completes once it is written; one that SV drops ends in Internal Error. -/
def execClearLog (f : Fn) (cel : Bool) (s : State) : Host.Outcome State Fault Refusal :=
  .next (serve f .mgmt false (fun s =>
    if cel then mbPut f .invalidInput .none s
    else
      let kept := if s.link.down then decide (s.link.held.length < 256) else decide (s.log.queue.length < 64)
      let s1 := primaryLog 0x12#8 0#8 0xFFFF#16 [] s
      if kept then onHost (fun h => { h with clearing := h.clearing ++ [fnOf f] }) (onFn (fnOf f) (fun x => { x with rsp := none }) s1)
      else mbPut f .internalError .none s1) s)

/-- GET_SUPPORTED_LOGS_SUB_LIST (R67): of log 0, the CEL, and log 1. -/
def execGetSupportedLogsSubList (f : Fn) (start count : Nat) (s : State) : Host.Outcome State Fault Refusal :=
  .next (serve f .any false (fun s =>
    if 2 ≤ start then mbPut f .invalidInput .none s
    else logRead f (.sub start count) s) s)

/-- GET_SUPPORTED_FEATURES (R67): the list is empty. -/
def execGetSupportedFeatures (f : Fn) (s : State) : Host.Outcome State Fault Refusal := .next (serve f .any false (mbPut f .success .features) s)

/-- GET_FEATURE (R67): every feature id returns Invalid Input. -/
def execGetFeature (f : Fn) (_ : BitVec 128) (s : State) : Host.Outcome State Fault Refusal := .next (serve f .any false (mbPut f .invalidInput .none) s)

/-- SET_FEATURE (R67): every feature id returns Invalid Input. -/
def execSetFeature (f : Fn) (_ : BitVec 128) (s : State) : Host.Outcome State Fault Refusal := .next (serve f .any false (mbPut f .invalidInput .none) s)

/-! Memory device commands. -/

/-- Bytes of the regions in an LD's view that are always there: those of Dynamic Capacity are not (R61). -/
def ldBytes (s : State) (h ld : Nat) : Nat :=
  s.map.cat.foldl (fun a r => if !r.dc && (viewOf s h ld r.idx).isSome then a + r.len else a) 0

/-- The capacity a function reports: its LD's; none for the FM-owned LD. -/
def fnBytes (s : State) (f : Fn) : Nat := if f.fm then 0 else ldBytes s f.head.val f.ld.val

/-- IDENTIFY_MEMORY_DEVICE (R67): all volatile, no LSA, a poison list of 4,096 entries. -/
def execIdentifyMemoryDevice (f : Fn) (s : State) : Host.Outcome State Fault Refusal :=
  .next (serve f .any false (fun s => mbPut f .success (.memDevice (fnBytes s f) 0 4096) s) s)

/-- GET_PARTITION_INFO (R67): no persistent partition. -/
def execGetPartitionInfo (f : Fn) (s : State) : Host.Outcome State Fault Refusal :=
  .next (serve f .any false (fun s => mbPut f .success (.partition (fnBytes s f)) s) s)

/-- GET_HEALTH_INFO (R55, R67, R410): Maintenance Needed while a replace request stands. -/
def execGetHealthInfo (f : Fn) (s : State) : Host.Outcome State Fault Refusal :=
  .next (serve f .any true (fun s => mbPut f .success (.health s.faults.rr (degradedNow s)) s) s)

/-- GET_ALERT_CONFIGURATION (R67). -/
def execGetAlertConfiguration (f : Fn) (s : State) : Host.Outcome State Fault Refusal :=
  .next (serve f .any false (fun s => mbPut f .success (.alerts (getFn s (fnOf f)).alerts) s) s)

/-- SET_ALERT_CONFIGURATION (R67). -/
def execSetAlertConfiguration (f : Fn) (v : W64) (s : State) : Host.Outcome State Fault Refusal :=
  .next (serve f .mgmt false (fun s => mbPut f .success .none (onFn (fnOf f) (fun x => { x with alerts := v }) s)) s)

/-- A DPA lies in the view of an LD (R67). -/
def fnSees (s : State) (f : Fn) (dpa : Nat) : Bool :=
  !f.fm && (match regionAt s dpa with | some r => (viewOf s f.head.val f.ld.val r.idx).isSome && !unbound s f.head.val (some f.ld.val) dpa | none => false)

/-- GET_POISON_LIST (R67, R456): the entries that overlap the range and the LD's view, in ascending DPA, at most the 254 that fit in 4 KiB, from the
LD's continuation position where the range is the same. -/
def execGetPoisonList (f : Fn) (dpa : Dpa) (len : Nat) (s : State) : Host.Outcome State Fault Refusal :=
  .next (serve f .any false (fun s =>
    let lo := dpa.toNat
    let from_ := match (getFn s (fnOf f)).poisonPos with | some (a, n, last) => if a = lo ∧ n = len then last + 1 else 0 | none => 0
    let hits := s.map.poison.entries.filter (fun e => decide (from_ ≤ e.dpa) && decide (e.dpa < lo + len) && decide (lo < e.dpa + e.len) && fnSees s f e.dpa)
    let out := hits.take 254
    let last := match out.getLast? with | some e => e.dpa | none => from_ - 1
    mbPut f .success (.poison (out.map (fun e => (e.dpa, e.len))) (decide (254 < hits.length)) s.map.poison.overflow)
      (onFn (fnOf f) (fun x => { x with poisonPos := if out.isEmpty ∧ from_ = 0 then none else some (lo, len, last) }) s)) s)

/-- A poison command's write starts at T0 as a firmware request, and its answer comes with the request's end (R460); a line that cannot be written
answers Internal Error. -/
def startPoison (f : Fn) (dpa : Nat) (r : Region) (clear : Bool) (d : Line) (s : State) : State :=
  let line := dpa / 64
  if inFill s dpa || unbound s f.head.val none dpa || (decide (r.typ = .protect) && isDamaged s (dpaLoc s r line)) then mbPut f .internalError .none s
  else settle (startOp 0 line (.poisonCmd (fnOf f) clear { data := d, chk := lineChk line d }) (onFn (fnOf f) (fun x => { x with rsp := none }) s))

/-- INJECT_POISON (R67, R460): plain regions, and only with `x.host.poison_inject` 1. -/
def execInjectPoison (f : Fn) (dpa : Dpa) (s : State) : Host.Outcome State Fault Refusal :=
  .next (serve f .mgmt false (fun s =>
    match regionAt s dpa.toNat with
    | some r => if r.typ = .plain ∧ paramNat s "x.host.poison_inject" 0 = 1 then startPoison f dpa.toNat r false 0#512 s
                else mbPut f .invalidPhysicalAddress .none s
    | none => mbPut f .invalidPhysicalAddress .none s) s)

/-- CLEAR_POISON (R67, R460): every region but packed ones. -/
def execClearPoison (f : Fn) (dpa : Dpa) (data : Line) (s : State) : Host.Outcome State Fault Refusal :=
  .next (serve f .mgmt false (fun s =>
    match regionAt s dpa.toNat with
    | some r => if r.typ ≠ .packed then startPoison f dpa.toNat r true data s else mbPut f .invalidPhysicalAddress .none s
    | none => mbPut f .invalidPhysicalAddress .none s) s)

/-! Dynamic Capacity (R61–R63). -/

/-- The DC regions of an LD: number, base and length of the catalogue region its declared extents lie in. -/
def dcRegions (s : State) (h ld : Nat) : List (Nat × Nat × Nat) :=
  (List.range 8).filterMap (fun k => (s.map.decls.find? (fun d => d.head = h ∧ d.ld = ld ∧ d.dcRegion = k)).bind (fun d =>
    (regionAt s d.base).map (fun r => (k, r.base, r.len))))

/-- Extents bound to an LD. -/
def boundTo (s : State) (h ld : Nat) : List ExtDecl :=
  (s.map.decls.zipIdx.filter (fun e => decide (e.1.head = h) && decide (e.1.ld = ld) &&
    (match Table.get .free s.map.exts e.2 with | .bound _ => true | _ => false))).map (·.1)

def setExt (i : Nat) (x : ExtState) (s : State) : State := onMap (fun m => { m with exts := Table.set .free m.exts i x }) s
def extState (s : State) (i : Nat) : ExtState := Table.get .free s.map.exts i

/-- The declared extent of an LD with exactly this start and length. -/
def extNamed (s : State) (h ld dpa len : Nat) : Option Nat :=
  s.map.decls.findIdx? (fun d => d.head = h ∧ d.ld = ld ∧ d.base = dpa ∧ d.len = len)

/-- GET_DYNAMIC_CAPACITY_CONFIGURATION (R61, R67). -/
def execGetDynamicCapacityConfiguration (f : Fn) (s : State) : Host.Outcome State Fault Refusal :=
  .next (serve f .any false (fun s => mbPut f .success (.dcConfig (if f.fm then [] else dcRegions s f.head.val f.ld.val) (2 ^ 28)) s) s)

/-- GET_DYNAMIC_CAPACITY_EXTENT_LIST (R67). -/
def execGetDynamicCapacityExtentList (f : Fn) (s : State) : Host.Outcome State Fault Refusal :=
  .next (serve f .any false (fun s => mbPut f .success (.extents (if f.fm then [] else boundTo s f.head.val f.ld.val)) s) s)

/-- The LD's extents on offer, with when each was offered. -/
def offers (s : State) (h ld : Nat) : List (Nat × Nat) :=
  s.map.decls.zipIdx.filterMap (fun e => if e.1.head = h ∧ e.1.ld = ld then (match extState s e.2 with | .offered t => some (e.2, t) | _ => none) else none)

/-- The offer made first. -/
def oldestOffer : List (Nat × Nat) → Option Nat
  | [] => none
  | x :: l => some (l.foldl (fun b y => if y.2 < b.2 then y else b) x).1

/-- ADD_DYNAMIC_CAPACITY_RESPONSE (R62): every extent named is a whole one on offer, and becomes bound; part of one is refused and stays offered. A
response that names none turns the oldest offer down (PRESUMED from CXL, log 62). -/
def execAddDynamicCapacityResponse (f : Fn) (extents : List (Dpa × Nat)) (s : State) : Host.Outcome State Fault Refusal :=
  .next (serve f .any false (fun s =>
    let mine := if f.fm then [] else offers s f.head.val f.ld.val
    let named := extents.map (fun e => (extNamed s f.head.val f.ld.val e.1.toNat e.2).filter (fun i => mine.any (fun m => m.1 = i)))
    if extents.isEmpty then
      mbPut f .success .none (match oldestOffer mine with | some i => setExt i .free s | none => s)
    else if named.all Option.isSome then mbPut f .success .none (named.foldl (fun s i => match i with | some i => setExt i (.bound false) s | none => s) s)
    else mbPut f .invalidInput .none s) s)

/-- RELEASE_DYNAMIC_CAPACITY (R63): a whole bound extent leaves the LD's view and is filled. -/
def execReleaseDynamicCapacity (f : Fn) (dpa : Dpa) (len : Nat) (s : State) : Host.Outcome State Fault Refusal :=
  .next (serve f .any false (fun s =>
    match (if f.fm then none else extNamed s f.head.val f.ld.val dpa.toNat len), regionAt s dpa.toNat with
    | some i, some r =>
      (match extState s i with
       | .bound _ => mbPut f .success .none (startFill dpa.toNat len r.idx (some i) (setExt i .filling s))
       | _ => mbPut f .invalidInput .none s)
    | _, _ => mbPut f .invalidInput .none s) s)

/-- DC_OFFER_TIMEOUT (R62): an offer left unanswered is withdrawn, and a DC event records it. -/
def execDcOfferTimeout (ext : Fin 2048) (s : State) : Host.Outcome State Fault Refusal :=
  match extState s ext.val, s.map.decls[ext.val]? with
  | .offered _, some d =>
    .next (if primaryRuns s then addEvent (fnKey d.head d.ld false) ⟨.dc, .dcWithdrawn ext.val⟩ (setExt ext.val .free s) else s)
  | _, _ => .next s

/-! The fabric manager's commands. -/

/-- GET_LD_INFO (R45, R67): the head's LDs and the device's capacity. -/
def execGetLdInfo (f : Fn) (s : State) : Host.Outcome State Fault Refusal :=
  .next (serve f .fm false (fun s => mbPut f .success (.ldInfo (ldCount s f.head.val) (s.map.cat.foldl (fun a r => a + r.len) 0)) s) s)

/-- GET_LD_ALLOCATIONS (R67): each LD of the head and its capacity. -/
def execGetLdAllocations (f : Fn) (s : State) : Host.Outcome State Fault Refusal :=
  .next (serve f .fm false (fun s => mbPut f .success
    (.ldAllocs ((List.range (ldCount s f.head.val)).map (fun ld => (ld, ldBytes s f.head.val ld)))) s) s)

/-- GET_QOS_CONTROL (R67): QoS telemetry is not among the features of R41, so both controls read off (DEDUCED, log 33). -/
def execGetQosControl (f : Fn) (s : State) : Host.Outcome State Fault Refusal :=
  .next (serve f .fm false (mbPut f .success (.qosControl false false)) s)

/-- GET_QOS_STATUS (R67): no backpressure is measured (DEDUCED, log 33). -/
def execGetQosStatus (f : Fn) (s : State) : Host.Outcome State Fault Refusal := .next (serve f .fm false (mbPut f .success (.qosStatus 0)) s)

/-- The admitted floors of a class at one head with a view entry of it (R321): reads, or writes, in MB/s; a shed class has none (R329). -/
def floorAt (s : State) (c : Nat) (wr : Bool) : Nat :=
  match s.qos.cls[c]? with
  | some x => if s.qos.shed.getLsbD c then 0 else (if wr then x.floorWr else x.floorRd) / max 1 (classHeads s c).length
  | none => 0

/-- An LD's floors: of every class its view entries name. -/
def ldFloors (s : State) (h ld : Nat) : Nat :=
  ((s.map.views.filterMap (fun v => if v.head = h ∧ v.ld = ld then some v.cls else none)).eraseDups).foldl
    (fun a c => a + floorAt s c false + floorAt s c true) 0

/-- GET_QOS_ALLOCATED_BW (R321): each LD's share, in 1/256, of its head's admitted floors. -/
def execGetQosAllocatedBw (f : Fn) (s : State) : Host.Outcome State Fault Refusal :=
  .next (serve f .fm false (fun s =>
    let l := (List.range (ldCount s f.head.val)).map (ldFloors s f.head.val)
    let sum := l.foldl (· + ·) 0
    mbPut f .success (.qosBw (l.map (fun x => 256 * x / max 1 sum))) s) s)

/-- GET_QOS_BW_LIMIT (R321): the full link for every LD, in 1/256. -/
def execGetQosBwLimit (f : Fn) (s : State) : Host.Outcome State Fault Refusal :=
  .next (serve f .fm false (fun s => mbPut f .success (.qosBw (List.replicate (ldCount s f.head.val) 256)) s) s)

/-- GET_MULTI_HEADED_INFO (R67): heads, LDs, and the LDs of each head. -/
def execGetMultiHeadedInfo (f : Fn) (s : State) : Host.Outcome State Fault Refusal :=
  .next (serve f .fm false (fun s =>
    let l := (heads s).map (fun h => (h, ldCount s h))
    mbPut f .success (.multiHeaded l.length (l.foldl (fun a x => a + x.2) 0) l) s) s)

/-- GET_HEAD_INFO (R67). -/
def execGetHeadInfo (f : Fn) (h : PortId) (s : State) : Host.Outcome State Fault Refusal :=
  .next (serve f .fm false (fun s =>
    let p := getPort s h.val
    if isHead s h.val then mbPut f .success (.headInfo h.val p.width (headLanes s h.val) p.rate p.up) s else mbPut f .invalidInput .none s) s)

/-- GET_DCD_INFO (R61, R67). -/
def execGetDcdInfo (f : Fn) (s : State) : Host.Outcome State Fault Refusal :=
  .next (serve f .fm false (fun s => mbPut f .success
    (.dcdInfo ((heads s).foldl (fun a h => a + ldCount s h) 0) 8 28 (s.map.decls.foldl (fun a d => a + d.len) 0)) s) s)

/-- The target LD of a fabric manager's command exists. -/
def ldThere (s : State) (h ld : Nat) : Bool := isHead s h && decide (ld < ldCount s h)

/-- GET_HOST_DC_REGION_CONFIGURATION (R67). -/
def execGetHostDcRegionConfiguration (f : Fn) (h : PortId) (ld : LdId) (s : State) : Host.Outcome State Fault Refusal :=
  .next (serve f .fm false (fun s =>
    if ldThere s h.val ld.val then mbPut f .success (.dcConfig (dcRegions s h.val ld.val) (2 ^ 28)) s else mbPut f .invalidInput .none s) s)

/-- GET_DC_REGION_EXTENT_LISTS (R67). -/
def execGetDcRegionExtentLists (f : Fn) (h : PortId) (ld : LdId) (s : State) : Host.Outcome State Fault Refusal :=
  .next (serve f .fm false (fun s =>
    if ldThere s h.val ld.val then mbPut f .success (.extents (boundTo s h.val ld.val)) s else mbPut f .invalidInput .none s) s)

/-- INITIATE_DYNAMIC_CAPACITY_ADD (R62): a declared extent named exactly is offered; Busy while it is bound, offered or being filled. -/
def execInitiateDynamicCapacityAdd (f : Fn) (h : PortId) (ld : LdId) (dpa : Dpa) (len : Nat) (tag : BitVec 128) (s : State) :
    Host.Outcome State Fault Refusal :=
  .next (serve f .fm false (fun s =>
    match s.map.decls.findIdx? (fun d => d.head = h.val ∧ d.ld = ld.val ∧ d.base = dpa.toNat ∧ d.len = len ∧ d.tag = tag) with
    | none => mbPut f .invalidInput .none s
    | some i =>
      if extState s i ≠ .free || inFill s dpa.toNat then mbPut f .busy .none s
      else mbPut f .success .none (addEvent (fnKey h.val ld.val false) ⟨.dc, .dcAdd i⟩ (setExt i (.offered s.time.now) s))) s)

/-- INITIATE_DYNAMIC_CAPACITY_RELEASE (R63): the release of a bound extent is asked of its host; forced removal is not supported. -/
def execInitiateDynamicCapacityRelease (f : Fn) (h : PortId) (ld : LdId) (dpa : Dpa) (len : Nat) (forced : Bool) (s : State) :
    Host.Outcome State Fault Refusal :=
  .next (serve f .fm false (fun s =>
    if forced then mbPut f .unsupported .none s
    else match extNamed s h.val ld.val dpa.toNat len with
      | some i => (match extState s i with
        | .bound _ => mbPut f .success .none (addEvent (fnKey h.val ld.val false) ⟨.dc, .dcRelease i⟩ (setExt i (.bound true) s))
        | _ => mbPut f .invalidInput .none s)
      | none => mbPut f .invalidInput .none s) s)

/-! Vendor commands (R68). -/

/-- GET_ILUIS_STATUS (R68). -/
def execGetIluisStatus (f : Fn) (s : State) : Host.Outcome State Fault Refusal :=
  .next (serve f .any true (fun s => mbPut f .success (.bytes (statusBytes s)) s) s)

/-- The surroundings in force (R68). -/
def surrNow (s : State) : Bytes := if s.host.surr.isEmpty then surrDefault else slice s.host.surr 0 80

/-- The new surroundings: fields whose valid flag is 0 keep their value (R68). -/
def mergeSurr (old new : Bytes) : Bytes :=
  let v := (leAt new 3 1)
  let pick (i off n : Nat) : Bytes := if v / 2 ^ i % 2 = 1 then slice new off n else slice old off n
  pick 0 0 2 ++ pick 1 2 1 ++ [0#8] ++ pick 2 4 2 ++ [0#8, 0#8] ++ pick 3 8 8 ++ pick 4 16 64

/-- SET_SURROUNDINGS (R68, R328): a change of inlet temperature, airflow or power cap starts a re-evaluation. -/
def execSetSurroundings (f : Fn) (inp : Bytes) (s : State) : Host.Outcome State Fault Refusal :=
  .next (serve f .mgmt false (fun s =>
    match inputOf inp 80 with
    | none => mbPut f .invalidPayloadLength .none s
    | some b =>
      if !surrOk b then mbPut f .invalidInput .none s
      else
        let old := surrNow s
        let new := mergeSurr old b
        let s1 := onHost (fun h => { h with surr := new, surrSet := h.surrSet ||| BitVec.ofNat 5 (leAt b 3 1) }) s
        mbPut f .success .none (if slice old 0 8 = slice new 0 8 then s1 else reevaluate 0xFFFF s1)) s)

/-- GET_SURROUNDINGS (R68): a valid flag is 1 for a field last set by mailbox. -/
def execGetSurroundings (f : Fn) (s : State) : Host.Outcome State Fault Refusal :=
  .next (serve f .mgmt false (fun s =>
    let b := surrNow s
    mbPut f .success (.bytes (slice b 0 3 ++ [s.host.surrSet.setWidth 8] ++ slice b 4 76)) s) s)

/-- GET_ADMISSION_REPORT (R68): of the Dawn evaluation, or of the latest re-evaluation; an offset past the end returns no report byte; any other
selector is Invalid Input (DESIGN CHOICE, log 148). -/
def execGetAdmissionReport (f : Fn) (inp : Bytes) (s : State) : Host.Outcome State Fault Refusal :=
  .next (serve f .mgmt true (fun s =>
    match inputOf inp 8 with
    | none => mbPut f .invalidPayloadLength .none s
    | some b =>
      if 2 ≤ leAt b 0 1 ∨ leAt b 1 3 ≠ 0 then mbPut f .invalidInput .none s
      else
        let r := if leAt b 0 1 = 0 then s.qos.report else s.qos.reReport
        let part := (r.drop (leAt b 4 4)).take 4088
        mbPut f .success (.bytes (leBytes 4 r.length ++ leBytes 4 part.length ++ part)) s) s)

/-- Bytes of one bit per source from `first` (R68). -/
def summaryBytes (s : State) (first count : Nat) : Bytes := leBytes ((count + 7) / 8) (s.faults.sts.toNat / 2 ^ first % 2 ^ count)

/-- GET_FAULT_SUMMARY (R68); a count of 0 is Invalid Input (DESIGN CHOICE, log 148). -/
def execGetFaultSummary (f : Fn) (inp : Bytes) (s : State) : Host.Outcome State Fault Refusal :=
  .next (serve f .mgmt true (fun s =>
    match inputOf inp 4 with
    | none => mbPut f .invalidPayloadLength .none s
    | some b =>
      let first := leAt b 0 2
      let count := leAt b 2 2
      if count = 0 ∨ 1024 < first + count then mbPut f .invalidInput .none s
      else mbPut f .success (.bytes (leBytes 2 first ++ leBytes 2 count ++ summaryBytes s first count)) s) s)

/-- INSTALL_KEY (R65, R68, R277). -/
def execInstallKey (v : Via) (inp : Bytes) (s : State) : Host.Outcome State Fault Refusal := .next (secured v 0xC040#16 (installKeyIn inp) s)

/-- RETIRE_KEY (R65, R68, R277). -/
def execRetireKey (v : Via) (inp : Bytes) (s : State) : Host.Outcome State Fault Refusal := .next (secured v 0xC041#16 (retireKeyIn inp) s)

/-- START_TWILIGHT (R65, R68, R301). -/
def execStartTwilight (v : Via) (inp : Bytes) (s : State) : Host.Outcome State Fault Refusal := .next (secured v 0xC042#16 (startTwilightIn inp) s)

/-- The tile with the fewest lines passed, the lowest on a tie (R302). -/
def slowestTile (s : State) (p : Pass) : Nat :=
  (tileList s).foldl (fun m t => if Table.get 0 p.pos t < Table.get 0 p.pos m then t else m) 0

/-- A pass's 24-byte entry (R68, R302). -/
def passEntry (s : State) (p : Pass) : Bytes :=
  match regionOf s p.region with
  | none => List.replicate 24 0#8
  | some r =>
    let n := passLines s r
    let t := slowestTile s p
    let addr := match passLine s r t (Table.get 0 p.pos t) with | .dpa l => 64 * l | .store a k => storeSa r.idx t a k
    let left := (tileList s).foldl (fun a t => a + (n - Table.get 0 p.pos t)) 0
    leBytes 2 p.region ++ leBytes 2 p.old.toNat ++ leBytes 2 p.new.toNat ++ leBytes 2 0 ++ leBytes 8 addr ++ leBytes 8 left

/-- GET_TWILIGHT_STATUS (R68, R302): a head that is not the management head sees only regions in its own view. -/
def execGetTwilightStatus (f : Fn) (s : State) : Host.Outcome State Fault Refusal :=
  .next (serve f .any false (fun s =>
    let l := s.cry.passes.filter (fun p => isMgmt s f || (!f.fm && (viewOf s f.head.val f.ld.val p.region).isSome))
    mbPut f .success (.bytes (leBytes 2 l.length ++ leBytes 2 0 ++ l.flatMap (passEntry s))) s) s)

/-- READ_LOG_RECORDS (R25, R68, R398): winning records of every ring from a SEQ on, at most the count asked for and 63. -/
def execReadLogRecords (f : Fn) (inp : Bytes) (s : State) : Host.Outcome State Fault Refusal :=
  .next (serve f .mgmt true (fun s =>
    match inputOf inp 6 with
    | none => mbPut f .invalidPayloadLength .none s
    | some b => logRead f (.records (leAt b 0 4) (leAt b 4 2)) s) s)

/-- UNSUPPORTED_COMMAND (R67): an opcode the table marks "no", or does not list. -/
def execUnsupportedCommand (f : Fn) (opcode : BitVec 16) (s : State) : Host.Outcome State Fault Refusal :=
  .next (if mbUp s f && !(commandTable.any (fun c => c.1 = opcode.toNat)) then mbPut f .unsupported .none s else s)

end Sys2Proof.Machine
end

