-- ==== Sys2Proof/Machine/Doe.lean ====
section
/-!
DEFINITION. The DOE mailboxes (R41, R64, R65, R277, R321, R354–R356): discovery, the CDAT, SPDM's certificate, challenge and measurements, and secured
sessions. Layouts the spec does not give are CXL's and DMTF's (PRESUMED, log 60).
-/
namespace Sys2Proof.Machine

def doePut (f : Fn) (r : DoeRsp) (s : State) : State := if mbUp s f then onFn (fnOf f) (fun x => { x with doe := r }) s else s

/-- DOE_DISCOVERY (R64): Discovery, CMA/SPDM, Secured CMA/SPDM of PCI-SIG, and Table Access of CXL; past the last, no protocol. -/
def execDoeDiscovery (f : Fn) (index : Byte) (s : State) : Host.Outcome State Fault Refusal :=
  .next (doePut f (match index.toNat with
    | 0 => .discovery false 0 1
    | 1 => .discovery false 1 2
    | 2 => .discovery false 2 3
    | 3 => .discovery true 2 0
    | _ => .none) s)

/-! The CDAT. -/

/-- The view entries of a function's LD. -/
def fnViews (s : State) (f : Fn) : List View := if f.fm then [] else s.map.views.filter (fun v => v.head = f.head.val ∧ v.ld = f.ld.val)

/-- A DSMAS entry: its handle, and the region's DPA range; a packed region is read-only. -/
def dsmas (k : Nat) (r : Region) : Bytes :=
  [0#8, 0#8] ++ leBytes 2 24 ++ [BitVec.ofNat 8 k, BitVec.ofNat 8 (64 * b2n (decide (r.typ = .packed))), 0#8, 0#8] ++ leBytes 8 r.base ++ leBytes 8 r.len

/-- A DSLBIS entry of one data type: its value over a base unit that lets it fit 16 bits. -/
def dslbis (k typ unit v : Nat) : Bytes :=
  let base := v / 65535 + 1
  [1#8, 0#8] ++ leBytes 2 24 ++ [BitVec.ofNat 8 k, 0#8, BitVec.ofNat 8 typ, 0#8] ++ leBytes 8 (unit * base) ++ leBytes 2 (v / base) ++ leBytes 6 0

/-- The entries of the CDAT after its header (R41, R321): per region in view its DSMAS, B_c as latency in ns, and the class's floors divided by n_c as
bandwidth in MB/s. -/
def cdatEntries (s : State) (f : Fn) : List Bytes :=
  (fnViews s f).zipIdx.flatMap (fun e =>
    match regionOf s e.1.region with
    | none => []
    | some r => [dsmas e.2 r, dslbis e.2 0 1000 (s.qos.bound.getD e.1.cls 0), dslbis e.2 4 1 (floorAt s e.1.cls false),
        dslbis e.2 5 1 (floorAt s e.1.cls true)])

/-- The CDAT's header: its length, revision, a checksum that makes the bytes of the table sum to 0, and a sequence number. -/
def cdatHeader (l : List Bytes) : Bytes :=
  let body := l.flatten
  let n := 16 + body.length
  let sum := (leBytes 4 n ++ [1#8] ++ body).foldl (fun a b => a + b) 0#8
  leBytes 4 n ++ [1#8, 0#8 - sum] ++ leBytes 6 0 ++ leBytes 4 0

/-- TABLE_ACCESS (R41, R64, R321): entry 0 is the header; each answer names the next entry, 0xFFFF after the last. -/
def execTableAccess (f : Fn) (entry : BitVec 16) (s : State) : Host.Outcome State Fault Refusal :=
  let l := cdatEntries s f
  let all := cdatHeader l :: l
  .next (doePut f (match all[entry.toNat]? with
    | some b => .cdat b (if entry.toNat + 1 < all.length then entry + 1#16 else 0xFFFF#16)
    | none => .cdat [] 0xFFFF#16) s)

/-! SPDM. -/

/-- The certificate chain of slot 0 and its digest (R354). -/
def chainOf (s : State) : Bytes := Config.certChain s.fuse.serial
def chainDigest (s : State) : BitVec 256 := digest (chainOf s)

/-- GET_CERTIFICATE (R354, R355): slots 1 to 7 are empty; at most 4,096 bytes at a time. -/
def execGetCertificate (f : Fn) (slot : Fin 8) (offset length : Nat) (s : State) : Host.Outcome State Fault Refusal :=
  let c := chainOf s
  .next (doePut f (if slot.val ≠ 0 ∨ c.length ≤ offset then .error "InvalidRequest"
    else
      let part := (c.drop offset).take (min length 4096)
      .certificate part (c.length - offset - part.length)) s)

/-- CHALLENGE (R354, R355): the device's nonce and its signature are free values. -/
def execChallenge (f : Fn) (slot : Fin 8) (nonce : BitVec 256) (s : State) : Host.Outcome State Fault Refusal :=
  if slot.val ≠ 0 then .next (doePut f (.error "InvalidRequest") s)
  else
    let own := Config.spdmNonce s.free
    let sig := Config.signature s.fuse.idKey (beBytes 32 (chainDigest s).toNat ++ beBytes 32 nonce.toNat ++ beBytes 32 own.toNat)
    .next (if mbUp s f then doePut f (.challengeAuth 0 (chainDigest s) own sig) (takeFree s).2 else s)

/-- The sections block 4 measures, as stored: parameters, catalogue, views, class table (R356). -/
def measuredSections (s : State) : Bytes :=
  [2, 3, 4, 5].flatMap (fun t => match s.dawn.sections.find? (fun x => x.1 = t) with | some x => x.2 | none => [])

/-- Every installed key slot with its generation number, in ascending slot order (R356). -/
def keyList (s : State) : Bytes :=
  s.cry.keys.flatMap (fun e => match e.2 with | some k => leBytes 2 e.1 ++ leBytes 4 k.gen.toNat | none => [])

def hashBytes (b : BitVec 256) : Bytes := beBytes 32 b.toNat

/-- A measurement block (R356). The order of block 5's eight bytes is the model's (DESIGN CHOICE, log 60). -/
def measurement (s : State) : Nat → Bytes
  | 1 => hashBytes Config.romDigest
  | 2 => [s.fuse.id, BitVec.ofNat 8 s.fuse.tiles] ++ hashBytes s.fuse.anchorRead
  | 3 => hashBytes (if s.dawn.recovery then Config.recoveryDigest else s.dawn.fwDigest)
  | 4 => sha256 (measuredSections s)
  | 5 => [BitVec.ofNat 8 (b2n s.dawn.slotB)] ++ leBytes 4 s.dawn.seq.toNat ++ [BitVec.ofNat 8 (b2n s.dawn.recovery), BitVec.ofNat 8 s.dawn.failCode, 0#8]
  | 6 => hashBytes s.dawn.optDigest
  | 7 => sha256 (keyList s)
  | _ => []

/-- The blocks a request names: all, one, or none but their number for index 0; none where it names a block there is not. -/
def blocksFor (index : Nat) : Option (List Nat) :=
  if index = 0xFF then some [1, 2, 3, 4, 5, 6, 7] else if index = 0 then some [] else if index ≤ 7 then some [index] else none

/-- GET_MEASUREMENTS (R356): signed; the signature is a free value. -/
def execGetMeasurements (f : Fn) (index : Byte) (s : State) : Host.Outcome State Fault Refusal :=
  .next (doePut f (match blocksFor index.toNat with
    | none => .error "InvalidRequest"
    | some l =>
      let b := l.map (fun i => (i, measurement s i))
      .measurements b (Config.signature s.fuse.idKey (b.flatMap (fun x => BitVec.ofNat 8 x.1 :: x.2)))) s)

/-- What the device offers in SPDM 1.3 (R355). No command of the table reads it: the session rules below follow from it. -/
structure SpdmCaps where
  certCap : Bool := true
  chalCap : Bool := true
  measCapSigned : Bool := true
  keyExCap : Bool := true
  mutAuthCap : Bool := true
  encapCap : Bool := true
  encryptCap : Bool := true
  macCap : Bool := true
  hbeatCap : Bool := true
  keyUpdCap : Bool := true
  chunkCap : Bool := true
  pskCap : Bool := false
  dataTransferSize : Nat := 4096
  ctExponent : Nat := 20
deriving DecidableEq, Repr

def spdmOffered : SpdmCaps := {}

/-- Sessions of a head, and of the device. -/
def sessionCount (s : State) (p : Session → Bool) : Nat := Table.count (fun _ x => match x with | some y => p y | none => false) s.host.sessions

/-- KEY_EXCHANGE (R64, R277, R355): with mutual authentication and the algorithms of R64, up to 2 sessions a head and 16 a device. -/
def execKeyExchange (f : Fn) (algorithms authentic : Bool) (root : BitVec 256) (s : State) : Host.Outcome State Fault Refusal :=
  let h := f.head.val
  if !mbUp s f then .next s
  else if !algorithms then .next (doePut f (.error "InvalidRequest") s)
  else if 2 ≤ sessionCount s (fun x => x.head = h) ∨ 16 ≤ sessionCount s (fun _ => true) then .next (doePut f (.error "SessionLimitExceeded") s)
  else if !authentic then .next (doePut f (.error "DecryptError") s)
  else
    let id := s.host.nextSid + 1
    .next (doePut f (.keyExchange id) (onHost (fun x => { x with nextSid := id, sessions := Table.set none x.sessions id (some ⟨h, root⟩) }) s))

/-- PSK_EXCHANGE (R355): PSK_CAP is not offered. -/
def execPskExchange (f : Fn) (s : State) : Host.Outcome State Fault Refusal := .next (doePut f (.error "UnsupportedRequest") s)

/-- SET_CERTIFICATE (R354): not supported. -/
def execSetCertificate (f : Fn) (s : State) : Host.Outcome State Fault Refusal := .next (doePut f (.error "UnsupportedRequest") s)

/-- GET_CSR (R354): not supported. -/
def execGetCsr (f : Fn) (s : State) : Host.Outcome State Fault Refusal := .next (doePut f (.error "UnsupportedRequest") s)

/-- HEARTBEAT (R355). -/
def execHeartbeat (f : Fn) (sid : Nat) (s : State) : Host.Outcome State Fault Refusal :=
  .next (doePut f (if sessionOf s f.head.val sid then .heartbeatAck else .error "InvalidSession") s)

/-- KEY_UPDATE (R355). -/
def execKeyUpdate (f : Fn) (sid : Nat) (s : State) : Host.Outcome State Fault Refusal :=
  .next (doePut f (if sessionOf s f.head.val sid then .keyUpdateAck else .error "InvalidSession") s)

/-- The secured commands of R67's table. -/
def securedAct : Nat → Option (Bytes → State → MbRc × State)
  | 0xC040 => some installKeyIn
  | 0xC041 => some retireKeyIn
  | 0xC042 => some startTwilightIn
  | _ => none

/-- VENDOR_DEFINED_REQUEST (R65): an opcode the table does not mark secured returns Unsupported; then the rights, then the command with the input
that its length names. -/
def execVendorDefinedRequest (h : PortId) (sid : Nat) (payload : Bytes) (s : State) : Host.Outcome State Fault Refusal :=
  let f := lead h
  let op := leAt payload 0 2
  let rsp (rc : MbRc) (s : State) : State := doePut f (.vendor (BitVec.ofNat 16 op) rc .none) s
  .next (if !sessionOf s h.val sid then doePut f (.error "InvalidSession") s
    else match securedAct op with
      | none => rsp .unsupported s
      | some act => secured (.session h sid) (BitVec.ofNat 16 op) (fun s =>
          if payload.length < 8 + leAt payload 4 4 then (.invalidPayloadLength, s)
          else if leAt payload 2 2 ≠ 0 then (.invalidInput, s)
          else act ((payload.drop 8).take (leAt payload 4 4)) s) s)

end Sys2Proof.Machine
end

