-- ==== Sys2Proof/Machine/I3cCmd.lean ====
section
/-!
DEFINITION. The I3C target's commands (R415–R418). The fields of MCTP control responses are DSP0236's (PRESUMED, log 30).
-/
namespace Sys2Proof.Machine

/-- The target serves: from Dawn 3, and while recovery firmware runs (R416). -/
def i3cUp (s : State) : Bool := primaryRuns s

/-- An answer of the target; none from one that does not serve. -/
def i3cAnswer (r : I3cRsp) (s : State) : State := if i3cUp s then onI3c (fun x => { x with rsp := r }) s else onI3c (fun x => { x with rsp := .none }) s

/-- The static address: byte 0 of the pin options section, 0x3A by default (R416, R436). -/
def i3cStatic (s : State) : Nat :=
  match s.dawn.sections.find? (fun x => x.1 = 7) with
  | some x => if s.dawn.recovery then 0x3A else leAt x.2 0 1
  | none => 0x3A

/-- STATUS_IMAGE_REFRESH (R415, R418): the new image is built complete, then switched to. -/
def execStatusImageRefresh (s : State) : Host.Outcome State Fault Refusal :=
  .next (if i3cUp s then onI3c (fun x => { x with gen := x.gen + 1#32, image := statusImage s (x.gen + 1#32) }) s else s)

/-- SETDASA (R416): the target whose static address is named, and which has no dynamic address, takes one. -/
def execSetdasa (target addr : BitVec 7) (s : State) : Host.Outcome State Fault Refusal :=
  .next (if i3cUp s && decide (target.toNat = i3cStatic s) && s.i3c.dyn.isNone then onI3c (fun x => { x with dyn := some addr, rsp := .ack }) s
    else onI3c (fun x => { x with rsp := .none }) s)

/-- ENTDAA (R416): a target that has no dynamic address takes part and accepts one. -/
def execEntdaa (addr : BitVec 7) (s : State) : Host.Outcome State Fault Refusal :=
  .next (if i3cUp s && s.i3c.dyn.isNone then onI3c (fun x => { x with dyn := some addr, rsp := .ack }) s else onI3c (fun x => { x with rsp := .none }) s)

/-- The common command codes that I3C Basic requires of a target: ENEC, DISEC, RSTDAA, ENTDAA, GETPID, GETBCR, GETDCR, GETSTATUS and GETCAPS,
besides RSTACT (PRESUMED, log 30). -/
def mandatoryCccs : List Nat := [0x00, 0x01, 0x80, 0x81, 0x06, 0x07, 0x8D, 0x8E, 0x8F, 0x90, 0x95, 0x2A, 0x9A]

/-- What a common command code that reads returns (R416): its contents are free values, but that the target raises no in-band interrupt and so has none
pending; none for a code that returns nothing. -/
def cccData (s : State) (ccc : Byte) : Option Bytes :=
  if ccc = 0x8D#8 then some (beBytes 6 (Config.i3cPid s.fuse.serial).toNat)
  else if ccc = 0x8E#8 then some [Config.i3cBcr &&& 0xF9#8]
  else if ccc = 0x8F#8 then some [Config.i3cDcr]
  else if ccc = 0x90#8 then some (beBytes 2 (Config.i3cStatus s.free &&& 0xFFF0#16).toNat)
  else if ccc = 0x95#8 then some (beBytes 4 Config.i3cCaps.toNat)
  else none

/-- I3C_MANDATORY_CCC (R416): acknowledged, with what it returns; RSTDAA drops the dynamic address. -/
def execI3cMandatoryCcc (ccc : Byte) (s : State) : Host.Outcome State Fault Refusal :=
  .next (if i3cUp s && mandatoryCccs.contains ccc.toNat then
      onI3c (fun x => { x with dyn := if ccc = 0x06#8 then none else x.dyn, rsp := match cccData s ccc with | some d => .data d | none => .ack })
        (if ccc = 0x90#8 then (takeFree s).2 else s)
    else onI3c (fun x => { x with rsp := .none }) s)

/-- SET_ENDPOINT_ID (R416): 0 and 0xFF are refused as invalid data; the answer carries completion code, status and the endpoint id. -/
def execSetEndpointId (eid : Byte) (s : State) : Host.Outcome State Fault Refusal :=
  .next (if !i3cUp s then onI3c (fun x => { x with rsp := .none }) s
    else if eid = 0#8 ∨ eid = 0xFF#8 then i3cAnswer (.control 1#8 [2#8]) s
    else onI3c (fun x => { x with eid := eid, rsp := .control 1#8 [0#8, 0#8, eid, 0#8] }) s)

/-- GET_ENDPOINT_ID (R416): completion code, endpoint id, a simple endpoint with a dynamic id, no medium-specific information. -/
def execGetEndpointId (s : State) : Host.Outcome State Fault Refusal := .next (i3cAnswer (.control 2#8 [0#8, s.i3c.eid, 0#8, 0#8]) s)

/-- GET_ENDPOINT_UUID (R416): the UUID is a free value. -/
def execGetEndpointUuid (s : State) : Host.Outcome State Fault Refusal :=
  .next (i3cAnswer (.control 3#8 (0#8 :: leBytes 16 (Config.endpointUuid s.fuse.serial).toNat)) s)

/-- GET_MCTP_VERSION_SUPPORT (R416): one version for the base specification, control messages and vendor-defined messages; other types are not
supported. -/
def execGetMctpVersionSupport (msgType : Byte) (s : State) : Host.Outcome State Fault Refusal :=
  .next (i3cAnswer (.control 4#8 (if [0xFF, 0x00, 0x7E].contains msgType.toNat then [0#8, 1#8, 0xF1#8, 0xF3#8, 0xF1#8, 0#8] else [0x80#8])) s)

/-- GET_MESSAGE_TYPE_SUPPORT (R416): besides control, only Vendor Defined – PCI. -/
def execGetMessageTypeSupport (s : State) : Host.Outcome State Fault Refusal := .next (i3cAnswer (.control 5#8 [0#8, 1#8, 0x7E#8]) s)

/-- GET_VENDOR_DEFINED_MESSAGE_SUPPORT (R416): one set, of the vendor ID of Iluis; 0xFF says there is no further one. -/
def execGetVendorDefinedMessageSupport (selector : Byte) (s : State) : Host.Outcome State Fault Refusal :=
  .next (i3cAnswer (.control 6#8 (if selector = 0#8 then [0#8, 0xFF#8, 0#8] ++ beBytes 2 Config.vendorId.toNat ++ [0#8, 0#8] else [2#8])) s)

/-- MCTP_MESSAGE_DISCARD (R416): a message of a type other than control and 0x7E is discarded. -/
def execMctpMessageDiscard (_ : Byte) (s : State) : Host.Outcome State Fault Refusal := .next (onI3c (fun x => { x with rsp := .none }) s)

/-- GET_STATUS_IMAGE_INFO (R417). -/
def execGetStatusImageInfo (reserved : Byte) (s : State) : Host.Outcome State Fault Refusal :=
  .next (i3cAnswer (if reserved ≠ 0#8 then .vendor 1#8 2#8 []
    else .vendor 1#8 0#8 (leBytes 2 1 ++ leBytes 2 0 ++ leBytes 4 896 ++ leBytes 4 s.i3c.gen.toNat)) s)

/-- READ_STATUS_IMAGE (R417): up to 48 bytes, with the GEN of the image they come from. -/
def execReadStatusImage (reserved : Byte) (offset : W32) (length : BitVec 16) (s : State) : Host.Outcome State Fault Refusal :=
  let n := length.toNat
  .next (i3cAnswer (if reserved ≠ 0#8 ∨ n = 0 ∨ 48 < n ∨ 896 < offset.toNat + n then .vendor 2#8 2#8 []
    else .vendor 2#8 0#8 (leBytes 4 s.i3c.gen.toNat ++ slice s.i3c.image offset.toNat n)) s)

/-- I3C_RESERVED_COMMAND (R417): return code 0x01. -/
def execI3cReservedCommand (command : Byte) (s : State) : Host.Outcome State Fault Refusal :=
  .next (i3cAnswer (if command = 1#8 ∨ command = 2#8 then .none else .vendor command 1#8 []) s)

end Sys2Proof.Machine
end

