-- ==== Sys2Proof/Machine/Koist.lean ====
section
/-!
DEFINITION. The loss of Koist modules and links (R17, R18, R455).
-/
namespace Sys2Proof.Machine

/-- The route of a message crosses Koist link `l`. -/
def crosses (s : State) (l : Nat) : List Nat → Bool
  | a :: b :: t => decide (linkBetween s a b = l) || crosses s l (b :: t)
  | _ => false

/-- Every message in transit on the link is lost (R455). -/
def dropTransit (l : Nat) (s : State) : State :=
  let keep (m : Msg) : Bool := !crosses s l (route s m.src m.dst)
  onFab (fun f => { f with req := f.req.filter keep, hom := f.hom.filter keep, rsp := f.rsp.filter keep, fwd := f.fwd.filter keep }) s

/-- Lines a tile holds, moves or waits on whose home it is cut off from. -/
def lostLines (s : State) (t : Nat) : List Nat :=
  let opLines := s.nc.ops.filterMap (fun e => if e.1 / 2 ^ 42 = t then some (e.1 % 2 ^ 42) else none)
  let trkLines := s.nc.trks.filterMap (fun e => if e.1 / 2 ^ 42 = t ∧ e.2.live then some (e.1 % 2 ^ 42) else none)
  ((slotLines s t ++ movingLines s t ++ opLines ++ trkLines).eraseDups).filter (fun l => cutOff s t (homeOf s l))

/-- R455 step 1 on one tile: its lines of cut homes go, and every operation and request on them ends as a data error. -/
def dropLines (t : Nat) (s : State) : State :=
  (lostLines s t).foldl (fun s l => failAll t l (freeTrkOf t l (forceI t l s))) s

/-- A requester whose transaction a link loss has ended (R455 step 2): its oldest operation on the line is a data error, and the rest go on. -/
def endRequester (t line : Nat) (s : State) : State :=
  let k := getTrk s t line
  if !k.live then s
  else
    let served := decide (k.st = .isN ∨ k.st = .imN)
    let s1 := freeTrkOf t line (if k.st = .x then s else forceI t line s)
    runLine t line (if served then s1 else failFront t line s1)

/-- The messages of an ended transaction leave the fabric, and the snoops its tiles have deferred are dropped. -/
def dropTxnMsgs (line : Nat) (s : State) : State :=
  let homGone : List Op := [.snpInv, .snpShare, .snpOwn, .snpCur, .datS, .datE, .datX, .grant, .fwdNote, .atomRes]
  let rspGone : List Op := [.snpRspI, .snpRspIData, .snpRspFwd, .snpRspFwdS]
  let s1 := onFab (fun f => { f with
    hom := f.hom.filter (fun m => ¬(m.line = line ∧ (homGone.contains m.op ∨ (m.op = .cmp ∧ m.trk < 4096))))
    rsp := f.rsp.filter (fun m => ¬(m.line = line ∧ rspGone.contains m.op))
    fwd := f.fwd.filter (fun m => m.line ≠ line) }) s
  onNc (fun n => { n with trks := n.trks.map (fun e => if e.1 % 2 ^ 42 = line then (e.1, { e.2 with deferred := [] }) else e) }) s1

/-- A transaction that needs a tile cut off from its home, or a forward that cannot arrive (R455 step 2). -/
def txnCut (s : State) (line : Nat) (k : Txn) : Bool :=
  let t := homeOf s line
  (match k.req with | some m => cutOff s t m.src || (match k.owner with | some x => cutOff s t x || cutOff s x m.src | none => false) | none => false) ||
  (bitsOf 8 k.snoops).any (fun x => cutOff s t x)

/-- The line is to be poisoned: a write, or a transaction that an owner tile, an E holder or state A took part in, whether or not the entry still names
it (R455 step 2). -/
def cutSpoils (s : State) (line : Nat) (k : Txn) : Bool :=
  (match k.req with | some m => [Op.wrLine, .wrPart, .farAtom].contains m.op | none => false) || k.owned || entOwned (entOf s line)

/-- A transaction ends with the link (R455 step 2). -/
def cutTxn (line : Nat) (s : State) : State :=
  let k := getTxn s line
  let spoil := k.spoil || cutSpoils s line k
  let s1 := dropTxnMsgs line s
  let s2 := match k.req with | some m => if cutOff s (homeOf s line) m.src then s1 else endRequester m.src line s1 | none => s1
  driveLine line (setTxn line { live := true, trk := k.trk, spoil := spoil, raw := k.raw, media := k.media && k.raw.isNone } s2)

/-- An eviction goes on without the tiles that are cut off (R455 steps 2 and 3). -/
def cutEvict (line : Nat) (s : State) : State :=
  let t := homeOf s line
  let k := getTxn s line
  let gone := (bitsOf 8 k.snoops).filter (fun x => cutOff s t x)
  let owner := match ownerTile (entOf s line) with | some x => gone.contains x | none => false
  driveLine line (onEnt line (fun e => gone.foldl (fun e x => dropTile x e) e)
    (onTxn line (fun k => { k with snoops := gone.foldl (fun w x => setBit w x false) k.snoops, spoil := k.spoil || owner }) s))

/-- BISnps to heads whose tile is cut off (R455 step 4): as timed out. -/
def cutBis (line : Nat) (s : State) : State :=
  let t := homeOf s line
  let gone := (getTxn s line).bis.filter (fun b => cutOff s t (portTile b.1))
  if gone.isEmpty then s
  else driveLine line (gone.foldl (fun s b => raiseTile t .haBiTimeout b.1 (biFailure b.1 line (endBis line b.1 b.2.1 .i b.2.2.2 s))) s)

/-- Requests that wait at a home for a tile it is cut off from are ended at that tile (R455 step 1): they leave the queues. -/
def dropQueued (s : State) : State :=
  let keep (m : Msg) : Bool := !cutOff s m.src m.dst
  let trim (q : Table (List Msg)) : Table (List Msg) := Table.mapAll [] (fun _ l => l.filter keep) q
  onHa (fun h => { h with lq := trim h.lq, allocQ := trim h.allocQ }) s

/-- Trackers that stood to sink forwarded data end where that data has been lost (R98, R455). -/
def dropSinks (s : State) : State :=
  (s.nc.trks.filter (fun e => e.2.sink)).foldl (fun s e =>
    let s1 := freeTrkOf (e.1 / 2 ^ 42) (e.1 % 2 ^ 42) s
    if (getTrk s1 (e.1 / 2 ^ 42) (e.1 % 2 ^ 42)).live then s else kickTile (e.1 / 2 ^ 42) (runLine (e.1 / 2 ^ 42) (e.1 % 2 ^ 42) s1)) s

/-- A Koist link has gone down (R18, R455). -/
def linkDown (l : Nat) (s : State) : State :=
  let s1 := (tileList s).foldl (fun s t => dropLines t s) (dropQueued (dropTransit l s))
  let open_ (s : State) : List Nat := s.ha.txns.filterMap (fun e => if e.2.live then some e.1 else none)
  let s2 := (open_ s1).foldl (fun s x =>
    let k := getTxn s x
    if !k.live || !txnCut s x k then s else if k.evict then cutEvict x s else cutTxn x s) s1
  settle (dropSinks (pumpFills ((open_ s2).foldl (fun s x => cutBis x s) s2)))

/-- A module goes out of service (R17, R328): both ends raise the fault; without a module the link is down. -/
def loseModule (l m : Nat) (s : State) : State :=
  match (koistLinks s)[l]? with
  | none => s
  | some (a, b) =>
    let old := Table.get 0#4 s.fab.modules l
    if !old.getLsbD m then s
    else
      let s1 := onFab (fun f => { f with modules := Table.mod 0#4 f.modules l (fun w => setBit w m false) }) s
      let s2 := reevaluate (tileSrc a .kfModuleLost) (raiseTile b .kfModuleLost (a + 16 * m) (raiseTile a .kfModuleLost (b + 16 * m) s1))
      if setBit old m false ≠ 0#4 then s2
      else linkDown l (reevaluate (tileSrc a .kfLinkLost) (raiseTile b .kfLinkLost a (raiseTile a .kfLinkLost b s2)))

/-- KOIST_TRAIN_TIMEOUT (R17): in Dawn 0. -/
def execKoistTrainTimeout (link : Fin 10) (module_ : Fin 4) (s : State) : Host.Outcome State Fault Refusal :=
  .next (if running s && decide (s.dawn.stage = 0) && !s.dawn.failed then loseModule link.val module_.val s else s)

/-- KOIST_MODULE_LOST (R17): at run time. -/
def execKoistModuleLost (link : Fin 10) (module_ : Fin 4) (s : State) : Host.Outcome State Fault Refusal :=
  .next (if running s then loseModule link.val module_.val s else s)

end Sys2Proof.Machine
end

