-- ==== Sys2Proof/Machine/LogStore.lean ====
section
/-!
DEFINITION. The log store's commands (R385–R394): a record submitted, a record or hint written and verified, the power-up path's end.
-/
namespace Sys2Proof.Machine

/-- LOG_RECORD_SUBMIT (R21, R24, R25, R384, R385): a record SV writes itself (ORIGIN bit 3) reaches its queue whenever SV is supplied. A record of a
tile goes through the primary, so it needs one that runs, and T0 holds it while the SV–T0 link is down. -/
def execLogRecordSubmit (typ origin : Byte) (source : BitVec 16) (payload : Bytes) (s : State) : Host.Outcome State Fault Refusal :=
  .next (if s.rst.por then s
    else if origin.getLsbD 3 then logSubmit typ origin source payload s
    else if primaryRuns s then primaryLog typ origin source payload s
    else s)

/-- A clear mark has been written, or dropped: the Clear Log that asked for it first ends (R398). -/
def clearDone (typ : Byte) (rc : MbRc) (s : State) : State :=
  match s.host.clearing with
  | f :: l =>
    if typ ≠ 0x12#8 then s
    else
      let s1 := onHost (fun h => { h with clearing := l }) s
      if f = abandonedFn then s1 else onFn f (fun x => { x with rsp := some ⟨rc, .none⟩, payload := [] }) s1
  | [] => s

/-- The type of the record being written. -/
def frontType (s : State) : Byte := match s.log.queue with | r :: _ => r.typ | [] => 0#8

/-- The front record leaves the queue without being written: dropped and counted (R387, R388). -/
def dropFront (s : State) : State :=
  clearDone (frontType s) .internalError
    (addCnt (svCnt 2) 1 (onLog (fun l => flushLost s.time.now (dropOne { l with queue := l.queue.tail, tries := 0 })) s))

/-- The pointer of ring `g` moves on (R386); a lap that ends raises the ring's lap counter, and at 360,000 laps every slot retires (R387). -/
def advanceRing (g : Nat) (last : W32) (l : LogStore) : LogStore :=
  let p := ringPtr l g
  let nx := nextPtr l g p.page p.pos
  let l1 := { l with ptrs := Table.insert g ⟨nx.1, nx.2.1, last⟩ (Table.drop l.ptrs g) }
  if nx.2.2 then
    let l2 := splitInc g l1
    if 360000 ≤ splitVal l2 g then (livePages l2 g).foldl (fun l p => retirePage p l) l2 else l2
  else l1

/-- The front record verified (R385, R386): its cells programmed, the pointer advanced, the next record begun. -/
def recordWritten (g : Nat) (r : LogRec) (s : State) : State :=
  let p := ringPtr s.log g
  let old := s.log.worn
  let s1 := onLog (fun l =>
    let l1 := setCells (posCell p.page p.pos) (recordBytes (splitVal l 4) r) l
    let l2 := markWorn (advanceRing g r.seq l1)
    flushLost s.time.now { l2 with queue := l2.queue.tail, tries := 0 }) s
  clearDone r.typ .success (raiseWorn old (addCnt (svCnt 1) 1 s1))

/-- The front record failed verification (R387): its slot is retired, LS_RETIRE raised, and the same record goes to the next position; after
four failed attempts it is dropped and counted. What the failed cells hold is a free value. -/
def recordFailed (g : Nat) (s : State) : State :=
  let p := ringPtr s.log g
  let old := s.log.worn
  let fr := takeFree s
  let s1 := onLog (fun l =>
    let l1 := (List.range 4).foldl (fun l j => setCell (posCell p.page p.pos + j) (Config.failedCell fr.1 (posCell p.page p.pos + j)) l) l
    markWorn { retirePage p.page (advanceRing g p.last l1) with tries := l.tries + 1 }) fr.2
  let s2 := raiseWorn old (raiseSv .lsRetire p.page s1)
  if 4 ≤ s2.log.tries then dropFront s2 else s2

/-- LOG_RECORD_WRITE_DONE (R385–R388, R394): the store writes one thing at a time, a hint before the records that are queued (log 9). -/
def execLogRecordWriteDone (verified : Bool) (s : State) : Host.Outcome State Fault Refusal :=
  if s.log.starting || s.rst.por || s.log.hintBusy.isSome then .next s else
  match s.log.queue with
  | [] => .next s
  | r :: _ =>
    match writeRing s.log (ringOf r.typ) with
    | none => .next (dropFront s)
    | some g => .next (if verified then recordWritten g r s else recordFailed g s)

/-- LOG_HINT_WRITE_DONE (R392): the next position in turn; one retry; then hints stop until power-on reset. -/
def execLogHintWriteDone (verified : Bool) (s : State) : Host.Outcome State Fault Refusal :=
  match s.log.hintBusy with
  | none => .next s
  | some old =>
    let pos := s.log.hintPos
    let b := old.getD (hintBytes s.log)
    if verified then
      .next (addCnt (svCnt 3) 1 (onLog (fun l => nextHint { setCells (posCell 0 pos) b l with hintPos := (pos + 1) % 4 }) s))
    else
      let fr := takeFree s
      let s1 := onLog (fun l =>
        let l1 := (List.range 4).foldl (fun l j => setCell (posCell 0 pos + j) (Config.failedCell fr.1 (posCell 0 pos + j)) l) l
        if old.isNone then { l1 with hintPos := (pos + 1) % 4, hintBusy := some (some b) }
        else nextHint { l1 with hintPos := (pos + 1) % 4, hintOff := true }) fr.2
      .next (if old.isNone then s1 else raiseSv .lsHintFail pos s1)

end Sys2Proof.Machine
end

