-- ==== Sys2Proof/Machine/NcCmd.lean ====
section
/-!
DEFINITION. Near-cache maintenance, way configuration and scratch (R132–R137), and what the memory requests of firmware meet (R307).
-/
namespace Sys2Proof.Machine

/-- A write of START with this OP to NC_RANGE_CTL[t] (R137, R424). -/
def rangeWrite (a : Agent) (t op : Nat) (s : State) : State :=
  if regOpen s a .ncRangeCtl t then settle (writeRangeCtl t (BitVec.ofNat 32 (16 + op)) s) else s

/-- CLEAN (R137). -/
def execClean (a : Agent) (t : TileId) (s : State) : Host.Outcome State Fault Refusal := .next (rangeWrite a t.val 1 s)

/-- INV (R137). -/
def execInv (a : Agent) (t : TileId) (s : State) : Host.Outcome State Fault Refusal := .next (rangeWrite a t.val 2 s)

/-- CLEAN_ALL (R137). -/
def execCleanAll (a : Agent) (t : TileId) (s : State) : Host.Outcome State Fault Refusal := .next (rangeWrite a t.val 3 s)

/-- INV_ALL (R137). -/
def execInvAll (a : Agent) (t : TileId) (s : State) : Host.Outcome State Fault Refusal := .next (rangeWrite a t.val 4 s)

/-- PRELOAD_LOCK (R134). -/
def execPreloadLock (a : Agent) (t : TileId) (s : State) : Host.Outcome State Fault Refusal := .next (rangeWrite a t.val 5 s)

/-- UNLOCK (R134). -/
def execUnlock (a : Agent) (t : TileId) (s : State) : Host.Outcome State Fault Refusal := .next (rangeWrite a t.val 6 s)

/-- RANGE_OP_DONE (R137): every line examined and every WbAck received; START is cleared and DONE set. -/
def execRangeOpDone (t : TileId) (s : State) : Host.Outcome State Fault Refusal :=
  let r := getRange s t.val
  .next (if tileRuns s t.val && r.run.isSome && r.waits.isEmpty && decide (r.left = 0) && r.wbs.all (fun l => (getEvb s t.val l).isNone) then
      raiseBit .ncRangeSts t.val 31 (onRange t.val (fun x => { x with run := none, wbs := [] }) s)
    else s)

/-- NC_WAY_CFG_WRITE (R132). -/
def execNcWayCfgWrite (a : Agent) (t : TileId) (v : W32) (s : State) : Host.Outcome State Fault Refusal :=
  .next (if regOpen s a .ncWayCfg t.val then writeWayCfg t.val v s else s)

/-! Scratch (R135, R136). -/

/-- The scratch ways of a tile, in ascending number: their place in the list is their rank. -/
def scratchWays (s : State) (t : Nat) : List Nat := (List.range 16).filter (isScratch s t)

/-- Key of the scratch word at a window offset; none beyond the configured size. -/
def scratchKey (s : State) (t off : Nat) : Option Nat :=
  ((scratchWays s t)[off / 2 ^ 22]?).map (fun w => 2 ^ 23 * t + 2 ^ 19 * (w - 8) + off % 2 ^ 22 / 8)

/-- The stored word and check byte; a word not written since reset holds a free value, which stays. -/
def scratchStored (key : Nat) (s : State) : (W64 × Byte) × State :=
  match Table.get none s.nc.scratch key with
  | some x => (x, s)
  | none =>
    let (n, s1) := takeFree s
    let p := (Config.scratchWord n).toNat
    let x : W64 × Byte := (BitVec.ofNat 64 p, BitVec.ofNat 8 (p >>> 64))
    (x, onNc (fun c => { c with scratch := Table.set none c.scratch key (some x) }) s1)

/-- The word as the checker passes it on (R86, R136): none when it is uncorrectable, which raises NC_SCR_UE. -/
def scratchRead (t off key : Nat) (flips : BitVec 72) (s : State) : Option W64 × State :=
  let (x, s1) := scratchStored key s
  let d := x.1.toNat ^^^ flips.toNat % 2 ^ 64
  let c := x.2.toNat ^^^ flips.toNat >>> 64
  match checkWord 64 (off / 64) (off / 8 % 8) d c with
  | .ok => (some (BitVec.ofNat 64 d), s1)
  | .fixed v => (some (BitVec.ofNat 64 v), s1)
  | .bad => (none, raiseTile t .ncScrUe (off / 8) s1)

def scratchStore (off key : Nat) (v : W64) (s : State) : State :=
  onNc (fun c => { c with scratch := Table.set none c.scratch key (some (v, BitVec.ofNat 8 (checkByte (off / 64) (off / 8 % 8) v.toNat))) }) s

def scratchAnswer (v : Option W64) (s : State) : State := onNc (fun c => { c with scrOut := some v }) s

/-- Bytes an access takes of the word it starts in: an access of 1 to 8 bytes acts on that word alone (DESIGN CHOICE, log 48). -/
def scratchLen (off len : Nat) : Nat := min len (8 - off % 8)

/-- SCRATCH_READ (R135, R136). -/
def execScratchRead (t : TileId) (off : BitVec 26) (len : Nat) (flips : BitVec 72) (s : State) : Host.Outcome State Fault Refusal :=
  let o := off.toNat
  if !tileRuns s t.val || decide (len = 0) then .next s
  else match scratchKey s t.val o with
    | none => .next (scratchAnswer none s)
    | some key =>
      match scratchRead t.val o key flips s with
      | (none, s1) => .next (scratchAnswer none s1)
      | (some v, s1) => .next (scratchAnswer (some (BitVec.ofNat 64 (v.toNat >>> (8 * (o % 8)) % 2 ^ (8 * scratchLen o len)))) s1)

/-- SCRATCH_WRITE (R135, R136): an 8-byte write stores word and check byte; a narrower one reads, checks, merges and writes back. -/
def execScratchWrite (t : TileId) (off : BitVec 26) (len : Nat) (v : W64) (flips : BitVec 72) (s : State) :
    Host.Outcome State Fault Refusal :=
  let o := off.toNat
  if !tileRuns s t.val || decide (len = 0) then .next s
  else match scratchKey s t.val o with
    | none => .next (scratchAnswer none s)
    | some key =>
      if 8 ≤ scratchLen o len then .next (scratchAnswer (some 0#64) (scratchStore o key v s))
      else match scratchRead t.val o key flips s with
        | (none, s1) => .next (scratchAnswer none s1)
        | (some old, s1) =>
          let m : W64 := BitVec.ofNat 64 ((2 ^ (8 * scratchLen o len) - 1) <<< (8 * (o % 8)))
          .next (scratchAnswer (some 0#64) (scratchStore o key (((v <<< (8 * (o % 8))) &&& m) ||| (old &&& ~~~m)) s1))

end Sys2Proof.Machine
end

