-- ==== Sys2Proof/Machine/PackCmd.lean ====
section
/-!
DEFINITION. Packed assets' commands: decompressions (R251–R255) and a tile's part of a commit (R271).
-/
namespace Sys2Proof.Machine

/-- The oldest block of a tile that waits for a decompressor (R251). -/
def firstWaiting (s : State) (t : Nat) : Option Decomp := s.pk.decs.find? (fun d => decide (d.tile = t) && !d.granted && !d.mapWait)

/-- DECOMPRESSOR_GRANT (R251, R257): a freed decompressor goes to the oldest block that waits, else to ingest validation. -/
def execDecompressorGrant (t : TileId) (s : State) : Host.Outcome State Fault Refusal :=
  if !engineUp s t.val || decide (12 ≤ decsOn s t.val + validating s t.val) then .next s
  else match firstWaiting s t.val, regionOf s (((firstWaiting s t.val).map (·.region)).getD 0) with
    | some d, some r =>
      let idx := d.block >>> tileBits s
      .next (askRun r t.val (getMap s t.val r.idx idx) (decPrio s d) (addCnt (tileCnt t.val 463) 1 (onDec d.region d.block (fun d => { d with granted := true }) s)))
    | some _, none => .next s
    | none, _ => .next (grantVal t.val s)

/-- Output of a block, whole lines: each to the home near cache, and to the read that waits for it (R251). -/
def outputBlock (r : Region) (t block : Nat) (out : Bytes) (s : State) : State :=
  (List.range (out.length / 64)).foldl (fun s i =>
    let line := blockLine r block + i
    let d := bytesLine (slice out (64 * i) 64)
    let v : LVal := { data := d, chk := lineChk line d }
    giveLine line (.val v) (pumpFills (fillLater (fillMsg t line v) s))) (addCnt (tileCnt t 464) (out.length / 64) s)

/-- The lines a decompression has read: the stream's bytes, or how it failed. -/
inductive RunOut where
  | bytes (b : Bytes)
  | bad
  | err
deriving DecidableEq, Repr

/-- Read the lines of a run in order (R251, R253). -/
def readRun (r : Region) (t : Nat) (e : MapEnt) (flips : Nat → Flips) (who : Reader) (s : State) : RunOut × State :=
  (List.range (4 * unitsOf e.clen)).foldl (fun a k =>
    match storeRead r t 1 (4 * e.run + k) (flips k) who a.2, a.1 with
    | (.data d, s1), .bytes b => (.bytes (b ++ lineBytes d), s1)
    | (.err, s1), _ => (.err, s1)
    | (.bad, s1), .bytes _ => (.bad, s1)
    | (_, s1), x => (x, s1)) (.bytes [], s)

/-- The media errors met on the shadow lines of a run of `n` lines (R289, R299): the number n + k names the tag line of line k, 2n + k its counter
line, which is read only where the cache misses it. -/
def runShadow (r : Region) (t : Nat) (e : MapEnt) (flips : Nat → Flips) (s : State) : State :=
  let n := 4 * unitsOf e.clen
  (List.range n).foldl (fun s k =>
    let c := storeLoc s r t 1 (4 * e.run + k)
    if isDamaged s c then s else
    let s0 := countShadow r t 1 (.inl (c.leaf, c.i / 8)) (flips (n + k)) s
    let s1 := if flipsBad (flips (n + k)) then storeTagLost r t 1 c.leaf (c.i / 8) s0 else flipTag c (flips (n + k)) s0
    if (cached s1 (leafItem c)).isSome then s1
    else
      let s2 := countShadow r t 1 (.inr (0, c.leaf)) (flips (2 * n + k)) s1
      if flipsBad (flips (2 * n + k)) then damageItem (leafItem c) c.leaves { kind := 2 } s2 else flipItem (leafItem c) (flips (2 * n + k)) s2) s

/-- What becomes of a block whose stream decoded to `o` (R251, R254): its lines go out. Of a stream that breaks R259 or R260 the lines it output go out and
stand in the output buffer, and the decompressor stays taken until the block's tags have verified. -/
def streamEnd (r : Region) (t b : Nat) (o : Except Bytes (Bytes × Nat)) (s : State) : State :=
  match o with
  | .ok (out, _) => settle (outputBlock r t b out (dropDec r.idx b s))
  | .error out => settle (outputBlock r t b out (onDec r.idx b (fun d => { d with failed := true, out := out.take (out.length / 64 * 64) }) s))

/-- What becomes of a block whose run has been read (R251, R254, R255). -/
def runEnd (r : Region) (t b clen : Nat) (o : RunOut) (s : State) : State :=
  match o with
  | .err => settle (giveAll r b .err (dropDec r.idx b s))
  | .bad => settle (giveAll r b (.val poisonVal) (dropDec r.idx b (poisonBlock r b .store s)))
  | .bytes x => streamEnd r t b (inflateTry (2 ^ r.blkLog) (x.take clen)) s

/-- DECOMPRESS_END (R251, R254, R255): `flips` are the media errors of the run's lines, by their number in the run, and of
their shadow lines (`runShadow`). Nothing happens before every line has
arrived. -/
def execDecompressEnd (region : RegionId) (block : BitVec 36) (flips : List (Nat × Flips)) (s : State) : Host.Outcome State Fault Refusal :=
  match decOf s region.val block.toNat, regionOf s region.val with
  | some d, some r =>
    let b := block.toNat
    let e := getMap s d.tile r.idx (b >>> tileBits s)
    let f (k : Nat) : Flips := ((flips.find? (fun x => x.1 = k)).map (·.2)).getD 0#648
    let run := (List.range (4 * unitsOf e.clen)).map (fun k => 4 * e.run + k)
    if !engineUp s d.tile || !d.granted || d.failed then .next s
    else if run.any (fun k => storeLost s r d.tile 1 k) then .next (settle (giveAll r b .err (dropDec r.idx b s)))
    else if run.any (fun k => (storeGet s r d.tile 1 k).isNone) then .next s
    else let (o, s1) := readRun r d.tile e f {} (runShadow r d.tile e f s); .next (runEnd r d.tile b e.clen o s1)
  | _, _ => .next s

/-- DECODE_RETRY (R254): with every tag of the block verified, PK_DECODE is raised, and the block is decompressed again, or poisoned. -/
def execDecodeRetry (region : RegionId) (block : BitVec 36) (s : State) : Host.Outcome State Fault Refusal :=
  match decOf s region.val block.toNat, regionOf s region.val with
  | some d, some r =>
    let b := block.toNat
    if !engineUp s d.tile || !d.failed || s.cry.verifs.any (fun v => decide (v.tile = d.tile) && decide (v.region = r.idx) && v.isSa) then .next s
    else
      let s1 := raiseBit .pkSts d.tile 30
        (raiseWith (tileSrc d.tile .pkDecode) { addr := BitVec.ofNat 64 (64 * blockLine r b), detail := BitVec.ofNat 32 r.idx } {} s)
      if d.second then .next (settle (giveAll r b (.val poisonVal) (dropDec r.idx b (poisonBlock r b .store s1))))
      else
        let idx := b >>> tileBits s
        .next (askRun r d.tile (getMap s1 d.tile r.idx idx) (decPrio s1 d) (addCnt (tileCnt d.tile 463) 1 (onDec r.idx b (fun d => { d with failed := false, second := true }) s1)))
  | _, _ => .next s

/-! Commits (R271). -/

/-- The blocks of a job whose results a tile holds, ascending: block number and result. -/
def commitBlocks (r : Region) (j : Job) (t : Nat) : List (Nat × BlkRes) :=
  let b0 := (dDst j.desc - r.base) / 2 ^ r.blkLog
  (List.range j.parts).filterMap (fun k => (j.reports.find? (fun p => p.j = k ∧ p.tile = t)).bind (fun p => p.blk.map (fun x => (b0 + k, x))))

/-- The lines of a block. -/
def blockLines (r : Region) (b : Nat) : List Nat := (List.range (2 ^ r.blkLog / 64)).map (fun i => blockLine r b + i)

/-- A tile or a host may hold a copy of the line (R252). -/
def lineCopied (s : State) (t l : Nat) : Bool :=
  decide ((entOf s l).tvec ≠ 0#8) || decide ((entOf s l).hst ≠ .i) || (copyOf s t l).isSome

/-- The lines of a block that a tile or a host may hold. -/
def heldLines (s : State) (r : Region) (t b : Nat) : List Nat := (blockLines r b).filter (lineCopied s t)

/-- A commit can take the block's lock (R271): no decompression of it is in flight, and no request has begun on a line of it (log 128). -/
def lockFree (s : State) (r : Region) (b : Nat) : Bool :=
  (decOf s r.idx b).isNone && (blockLines r b).all (fun l => !lineHeld s l)

/-- The commit's own invalidation of the line has not ended. -/
def invalidating (s : State) (l : Nat) : Bool :=
  ((getTxn s l).live && (match (getTxn s l).req with | some m => decide (m.trk = commitTrk) | none => true)) ||
  (getLq s l).any (fun m => m.trk = commitTrk)

/-- A commit's own invalidation of a line, as for WrLine with HK 0 (R107, R108, R271): the home tile's copy goes first (R459). -/
def invalidate (t l : Nat) (a : Attr) (s : State) : State :=
  let s1 := putCopy t l .i {} (dropFills (fun x => decide (x = l)) s)
  driveLine l (reqArrive { op := .wrLine, src := t, dst := t, line := l, trk := commitTrk, attr := a, mask := fullMask, val := { chk := lineChk l 0#512 } } s1)

/-- Steps 3 and 4 of a commit for one block: the map entry, then the old run. A write that meets a data error leaves the block as it was, and its map entry
can no longer be read (R271). The run is no longer pending (PK_STS). -/
def commitBlock (r : Region) (t rg n : Nat) (x : Nat × BlkRes) (s : State) : State :=
  let idx := x.1 >>> tileBits s
  let old := getMap s t r.idx idx
  let new : MapEnt := { run := x.2.run, fmt := x.2.fmt, dblk := x.2.dblk, clen := x.2.clen, gen := (old.gen + 1) % 2 ^ 32, units := x.2.units }
  let mark (j : Job) : Job := { j with reports := j.reports.map (fun p => if p.tile = t ∧ p.j = x.1 - (dDst j.desc - r.base) / 2 ^ r.blkLog then { p with blk := p.blk.map (fun b => { b with units := 0 }) } else p) }
  let s := match getJob s rg n with | some j => setJob rg n (some (mark j)) s | none => s
  let (ok, s1) := writeMap r t idx new ⟨rgOwner (getRing s rg), 1, some (rgClass (getRing s rg))⟩ s
  if ok then
    let s2 := dropPoison (64 * blockLine r x.1) (2 ^ r.blkLog) s1
    if old.units = 0 then s2 else freeRun t r.idx old.run old.units s2
  else
    let s2 := uncacheMap t r.idx idx (if x.2.units = 0 then s1 else freeRun t r.idx x.2.run x.2.units s1)
    match getJob s2 rg n with
    | some j => setJob rg n (some { j with lostBlks := j.lostBlks ++ [x.1 - (dDst j.desc - r.base) / 2 ^ r.blkLog] }) s2
    | none => s2

/-- The commit of a job has ended on every tile: its record (R271); a ring that writes no further record only frees its slot (R243). -/
def commitEnd (r : Region) (rg n : Nat) (s : State) : State :=
  match getJob s rg n with
  | none => s
  | some j =>
    if j.commit ≠ [] then s
    else
      let clen := j.reports.foldl (fun a p => a + (match p.blk with | some b => b.clen | none => 0)) 0
      match j.lostBlks with
      | [] => endJob rg n j 0 0 clen s
      | l => endJob rg n j 7 (if 1 < l.length then 2 else 0) ((l.foldl min (l.headD 0)) * 2 ^ r.blkLog) s

/-- The commit a tile is at (R271): the oldest that has reached it. -/
def firstCommit (s : State) (t : Nat) : Option Commit := s.pk.commits.find? (fun c => c.tile = t)

def onCommit (c : Commit) (f : Commit → Commit) (s : State) : State :=
  onPk (fun p => { p with commits := p.commits.map (fun x => if x = c then f x else x) }) s

/-- Step 5 of R271: the lock is released, and the reads that wait for it start again. -/
def releaseLock (region block : Nat) (s : State) : State :=
  let waits := match lockOf s region block with | some l => l.waits | none => []
  waits.foldl (fun s l => if (getTxn s l).live && (getTxn s l).media then driveLine l (onTxn l (fun k => { k with media := false }) s) else s)
    (onPk (fun p => { p with locks := p.locks.filter (fun l => ¬(l.region = region ∧ l.block = block)) }) s)

/-- The tile has applied every block of the commit (R271). -/
def commitDone (g : Region) (c : Commit) (s : State) : State :=
  let s1 := onPk (fun p => { p with commits := p.commits.erase c }) s
  let s2 := match getJob s1 c.ring c.n with
    | some j => setJob c.ring c.n (some { j with commit := j.commit.erase c.tile }) s1
    | none => s1
  commitEnd g c.ring c.n s2

/-- A commit on a tile goes on from its next block, in ascending order, as far as it can (R271): step 1, the lock; step 2, the invalidations, whose
answers it waits for; steps 3 to 5. -/
def commitGo : Nat → Region → Nat → Attr → List (Nat × BlkRes) → State → State
  | 0, _, _, _, _, s => s
  | f + 1, g, t, a, bs, s =>
    match firstCommit s t with
    | none => s
    | some c =>
      match bs[c.applied]? with
      | none => commitDone g c s
      | some b =>
        let idx := b.1 >>> tileBits s
        match lockOf s g.idx b.1 with
        | none =>
          if !lockFree s g b.1 then s
          else
            let s1 := onPk (fun p => { p with locks := p.locks ++ [{ tile := t, region := g.idx, block := b.1 }] }) s
            commitGo f g t a bs ((heldLines s g t b.1).foldl (fun s l => invalidate t l a s) s1)
        | some _ =>
          if (blockLines g b.1).any (invalidating s) then s
          else if !storeReady s g t 2 (idx / 4) then storeAskPage g t 2 (idx / 4) (classPrio s (rgClass (getRing s c.ring))) s
          else commitGo f g t a bs (onCommit c (fun c => { c with applied := c.applied + 1 }) (releaseLock g.idx b.1 (commitBlock g t c.ring c.n b s)))

/-- INGEST_COMMIT (R271): the commit that is first on the tile goes on. -/
def execIngestCommit (t : TileId) (r : RingId) (n : W32) (s : State) : Host.Outcome State Fault Refusal :=
  match getJob s r.toNat n.toNat with
  | none => .next s
  | some j =>
    match destPacked s j.desc with
    | none => .next s
    | some g =>
      let bs := commitBlocks g j t.val
      let mine := match firstCommit s t.val with | some c => decide (c.ring = r.toNat ∧ c.n = n.toNat) | none => false
      if !engineUp s t.val || !mine then .next s
      else .next (settle (commitGo (2 * bs.length + 1) g t.val (ringAttr (getRing s r.toNat)) bs s))

end Sys2Proof.Machine
end

