-- ==== Sys2Proof/Machine/SvLink.lean ====
section
/-!
DEFINITION. The SV–T0 link (R24, R25): frames and acknowledgements, resends, idle frames, link loss and retraining.
-/
namespace Sys2Proof.Machine

/-- SV_LINK_FRAME (R25): a frame whose CRC-16 is right is accepted and acknowledged, which frees it at its sender, whose next frame is then the
oldest outstanding; a damaged one is not. -/
def execSvLinkFrame (toSv : Bool) (payload : Bytes) (crc : BitVec 16) (s : State) : Host.Outcome State Fault Refusal :=
  .next (if s.link.down || decide (crc16 payload ≠ crc) then s
    else onLink (fun l =>
      if toSv then { l with gotSv := l.gotSv + 1, toSv := l.toSv.drop 1, sendsT0 := min 1 (l.toSv.drop 1).length }
      else { l with gotT0 := l.gotT0 + 1, stale := false, toT0 := l.toT0.drop 1, sendsSv := min 1 (l.toT0.drop 1).length }) s)

/-- T0 declares the link down (R25): SV_LINK_LOST, and through its class a replace request; the SV values are stale. -/
def linkLost (sends : Nat) (s : State) : State :=
  if s.link.down then s
  else raiseTile 0 .svLinkLost sends (onLink (fun l => { l with down := true, stale := true, attempts := 0, toSv := [], toT0 := [] }) s)

/-- SV_LINK_RESEND (R25): the oldest frame of a side, not acknowledged within 10 µs, is sent again; T0 declares the link down once it has sent one
frame 16 times. With no frame outstanding there is nothing to send again. -/
def execSvLinkResend (bySv : Bool) (s : State) : Host.Outcome State Fault Refusal :=
  .next (if s.link.down || (if bySv then s.link.toT0 else s.link.toSv).isEmpty then s
    else if bySv then onLink (fun l => { l with sendsSv := l.sendsSv + 1 }) s
    else
      let n := s.link.sendsT0 + 1
      let s1 := onLink (fun l => { l with sendsT0 := n }) s
      if 16 ≤ n then linkLost n s1 else s1)

/-- The payload of SV's idle frame: none (log 114). -/
def idleFrame : Bytes := []

/-- SV_LINK_IDLE_FRAME (R25): SV has sent nothing for 100 µs and sends an idle frame, which is acknowledged like every other. -/
def execSvLinkIdleFrame (s : State) : Host.Outcome State Fault Refusal :=
  .next (if s.link.down then s
    else onLink (fun l => { l with idle := l.idle + 1, toT0 := l.toT0 ++ [idleFrame], sendsSv := if l.toT0.isEmpty then 1 else l.sendsSv }) s)

/-- SV_LINK_DOWN (R25): nothing has arrived from SV for 1 ms; the detail is the sends of T0's unacknowledged frame. -/
def execSvLinkDown (s : State) : Host.Outcome State Fault Refusal := .next (linkLost s.link.sendsT0 s)

/-- The records T0 held go to SV in the order they were made, and SV adds T0's dropped count to its own (R25, R385). -/
def sendHeld (s : State) : State :=
  let s1 := s.link.held.foldl (fun s r => logSubmit r.1 r.2.1 r.2.2.1 r.2.2.2 s) s
  let n := s.link.heldDropped
  let s2 := if n = 0 then s1 else
    addCnt (svCnt 2) n (onLog (fun l => flushLost s.time.now { l with dropped := l.dropped + n, lost := satAdd l.lost n 65535 }) s1)
  onLink (fun l => { l with held := [], heldDropped := 0 }) s2

/-- SV_LINK_RETRAIN (R25): T0 tries every 10 ms; a success brings the link up again and sends what was held. SV_LINK_LOST and the replace
request stand. -/
def execSvLinkRetrain (ok : Bool) (s : State) : Host.Outcome State Fault Refusal :=
  .next (if !s.link.down then s
    else if ok then sendHeld (onLink (fun l => { l with down := false, stale := false, attempts := 0, sendsT0 := 0, sendsSv := 0 }) s)
    else onLink (fun l => { l with attempts := l.attempts + 1 }) s)

end Sys2Proof.Machine
end

