-- ==== Sys2Proof/Machine/TapCmd.lean ====
section
/-!
DEFINITION. The TAP instructions (R308, R357, R358). The layouts of FUSE_RD, ARRAY_ACC and of a frame's line are the model's (DESIGN CHOICE, log 31).
-/
namespace Sys2Proof.Machine

/-- An instruction runs: it is in the instruction register, and what it selects is shifted out. EXTEST alone drives the pins. -/
def tapRun (ir : Byte) (width dr : Nat) (s : State) : State :=
  if s.rst.por then s else onTap (fun x => { x with ir := ir, width := width, dr := dr % 2 ^ width, extest := decide (ir = 0#8) }) s

/-- BYPASS: one bit, captured 0 (IEEE 1149.1, PRESUMED, log 31). -/
def tapBypass (s : State) : State := tapRun 0xFF#8 1 0 s

/-- A gated instruction works: no key has been installed since full reset, and the device runs (R308, R358). -/
def tapGate (s : State) : Bool := running s && !s.cry.everInstalled

/-- EXTEST and SAMPLE/PRELOAD (R358): the chain captures the pins, a free value, and holds what is shifted in. -/
def tapChain (ir : Byte) (chain : List Bool) (s : State) : State :=
  if s.rst.por then s else
  let f := takeFree s
  tapRun ir chain.length (Config.boundaryCapture f.1) (onTap (fun x => { x with preload := chain }) f.2)

/-- EXTEST (R358). -/
def execExtest (chain : List Bool) (s : State) : Host.Outcome State Fault Refusal := .next (tapChain 0x00#8 chain s)

/-- SAMPLE_PRELOAD (R358). -/
def execSamplePreload (chain : List Bool) (s : State) : Host.Outcome State Fault Refusal := .next (tapChain 0x02#8 chain s)

/-- The IDCODE (R358): part 0x8A02, 0x8A04 or 0x8A08 by member. -/
def idcode (s : State) : W32 := word [(28, 1), (12, 0x8A00 + tiles s), (1, 0x2D3), (0, 1)]

/-- IDCODE (R358). -/
def execIdcode (s : State) : Host.Outcome State Fault Refusal := .next (tapRun 0x01#8 32 (idcode s).toNat s)

/-- FUSE_RD (R338, R358): identifier, member, serial number and trust anchor, low bits first. -/
def execFuseRd (s : State) : Host.Outcome State Fault Refusal :=
  .next (tapRun 0x10#8 336 (s.fuse.id.toNat + (s.fuse.tiles <<< 8) + (s.fuse.serial.toNat <<< 16) + (s.fuse.anchor.toNat <<< 80)) s)

/-- ANCHOR_PROG (R357): once, in its interval, while the anchor is zero; otherwise it acts as BYPASS. -/
def execAnchorProg (v : BitVec 256) (s : State) : Host.Outcome State Fault Refusal :=
  .next (if s.fuse.anchor = 0#256 ∧ s.rst.anchorWindow = true ∧ s.rst.por = false then
      tapRun 0x11#8 256 v.toNat (onFuse (fun f => { f with anchor := v }) s)
    else tapBypass s)

/-- DAWN_RD (R358): DAWN_STS low, FUSE_INFO high. -/
def execDawnRd (s : State) : Host.Outcome State Fault Refusal := .next (tapRun 0x18#8 64 ((dawnSts s).toNat + ((fuseInfo s).toNat <<< 32)) s)

def lineStCode : LineSt → Nat | .i => 0 | .s => 1 | .e => 2 | .m => 3
def lineStOf : Nat → LineSt | 0 => .i | 1 => .s | 2 => .e | _ => .m

/-- A near-cache slot: R124's tag entry, 512 data bits, 64 check bits, and the model's POISON and ERR. -/
def slotBits (x : Slot) : Nat :=
  b2n x.lock + 2 * lineStCode x.st + 8 * x.tag.toNat + (x.val.data.toNat <<< 29) + (x.val.chk.toNat <<< 541) + (b2n x.val.poison <<< 605) +
  (b2n x.val.err <<< 606)

def slotOfBits (v : Nat) : Slot :=
  { lock := decide (v % 2 = 1), st := lineStOf (v / 2 % 4), tag := BitVec.ofNat 26 (v / 8), val :=
    { data := BitVec.ofNat 512 (v >>> 29), chk := BitVec.ofNat 64 (v >>> 541), poison := decide ((v >>> 605) % 2 = 1), err := decide ((v >>> 606) % 2 = 1) } }

def tileStCode : TileSt → Nat | .none => 0 | .shared => 1 | .owned => 2

/-- A directory-cache entry in the 128 bits of R94; BUSY and TRK are those of its open transaction. -/
def dirBits (s : State) (e : DirEnt) : Nat :=
  let k := getTxn s e.line
  let busy := e.v && k.live
  let v := ((if busy then k.trk else 0) <<< 6) + (b2n busy <<< 19) + (b2n e.mdirty <<< 20) + (e.hvec.toNat <<< 21) + (e.holder <<< 85) +
    (hstCode e.hst <<< 91) + (e.tvec.toNat <<< 93) + ((if e.tsBad then 3 else tileStCode e.ts) <<< 101) +
    ((localLine s e.line / 2 ^ 17 % 2 ^ 24) <<< 103) + (b2n e.v <<< 127)
  v + (if oddParity 128 v != e.badParity then 1 else 0)

/-- A line homed on tile `t` with local number `l`: the first page of its group that is (R75, R93). -/
def lineOfLocal (s : State) (t l : Nat) : Nat :=
  let base := (l / 64) <<< tileBits s
  let p := ((List.range (tiles s)).find? (fun i => decide (homeOf s (64 * (base + i)) = t))).getD 0
  64 * (base + p) + l % 64

/-- The entry that 128 bits spell at a set of tile `t`, over the entry `old` that stands there. BUSY and TRK are not stored. -/
def dirOfBits (s : State) (t set v : Nat) (old : DirEnt) : DirEnt :=
  let tag := (v >>> 103) % 2 ^ 24
  let line := if old.v ∧ localLine s old.line / 2 ^ 17 % 2 ^ 24 = tag then old.line
    else lineOfLocal s t (tag * 2 ^ 17 + (set ^^^ (tag % 2 ^ 17)))
  let ts := (v >>> 101) % 4
  { old with
    v := decide ((v >>> 127) % 2 = 1), line := line, ts := if ts = 1 then .shared else if ts = 2 then .owned else .none, tsBad := decide (ts = 3)
    tvec := BitVec.ofNat 8 (v >>> 93), hst := hstOf ((v >>> 91) % 4), holder := (v >>> 85) % 64, hvec := BitVec.ofNat 64 (v >>> 21)
    mdirty := decide ((v >>> 20) % 2 = 1), badParity := oddParity 128 v }

/-- A requester tracker: live, state, way and line (the model's layout). -/
def trkStCode : TrkState → Nat | .isD => 0 | .isF => 1 | .isN => 2 | .imD => 3 | .imF => 4 | .imN => 5 | .smD => 6 | .x => 7
def trkStOf : Nat → TrkState | 0 => .isD | 1 => .isF | 2 => .isN | 3 => .imD | 4 => .imF | 5 => .imN | 6 => .smD | _ => .x

def trkBits (line : Nat) (k : Trk) : Nat :=
  b2n k.live + 2 * trkStCode k.st + (match k.way with | some w => 32 * w + 16 | none => 0) + (line <<< 10)

/-- The tracker numbered `i` of the member: tile i ÷ 1,024, tracker i mod 1,024. -/
def trkAt (s : State) (i : Nat) : Option (Nat × Trk) :=
  s.nc.trks.find? (fun e => e.2.live && decide (e.1 / 2 ^ 42 = i / 1024) && decide (e.2.id = i % 1024))

/-- What an array read gives. -/
def arrayRead (s : State) (array index : Nat) : Nat :=
  if array = 0 then slotBits (Table.get {} s.nc.slots index)
  else if array = 1 then dirBits s (Table.get {} s.ha.dir index)
  else match trkAt s index with | some (k, x) => trkBits (k % 2 ^ 42) x | none => 0

/-- An array write. -/
def arrayWrite (array index : Nat) (v : Nat) (s : State) : State :=
  if array = 0 then onNc (fun n => { n with slots := Table.set {} n.slots index (slotOfBits v) }) s
  else if array = 1 then
    onHa (fun h => { h with dir := Table.mod {} h.dir index (dirOfBits s (index / 16 / 131072) (index / 16 % 131072) v) }) s
  else match trkAt s index with
    | some (k, x) =>
      let y : Trk := { x with live := decide (v % 2 = 1), st := trkStOf (v / 2 % 8), way := if v / 16 % 2 = 1 then some (v / 32 % 16) else none }
      onNc (fun n => { n with trks := Table.set {} n.trks k (if y.live then y else {}) }) s
    | none => s

/-- How many places an array of the member has. -/
def arraySize (s : State) (array : Nat) : Nat :=
  if array = 0 then tiles s * 2 ^ 20 else if array = 1 then tiles s * 2 ^ 21 else tiles s * 1024

/-- ARRAY_ACC (R308, R358): gated; index is tile, set and way, or tile and tracker. -/
def execArrayAcc (array : Fin 3) (index : Nat) (wr : Option (BitVec 640)) (s : State) : Host.Outcome State Fault Refusal :=
  if !tapGate s || decide (arraySize s array.val ≤ index) then .next (tapRun 0x20#8 640 0 s)
  else match wr with
    | none => .next (tapRun 0x20#8 640 (arrayRead s array.val index) s)
    | some v => .next (arrayWrite array.val index v.toNat (tapRun 0x20#8 640 0 s))

/-- A DPA line through the home agents: its value is in the data register once the request has completed; 0 until then and for a data error. Writes to
packed lines have no effect. -/
def memAccLine (line : Nat) (wr : Option Line) (s : State) : State :=
  match regionAt s (64 * line) with
  | none => s
  | some r =>
    if inFill s (64 * line) || (wr.isSome && decide (r.typ = .packed)) then s
    else settle (startOp 0 line (match wr with | none => .fwRd true | some d => .fwWr true { data := d, chk := lineChk line d }) s)

/-- The shadow line that a tile-local line holds (R285, log 24). -/
def shadowOf (s : State) (t : Nat) (nvm : Bool) (f : Nat) : Option (Region × Nat × Sum (Nat × Nat) (Nat × Nat)) :=
  if nvm then
    s.map.cat.findSome? (fun r =>
      let b := 64 * regionBase s t r true
      if r.typ = .packed ∧ b + 64 * r.store ≤ f ∧ f < b + 64 * regionLocalNvm s r then some (r, 1, .inl ((f - b - 64 * r.store) / 8, (f - b - 64 * r.store) % 8)) else none)
  else match localAt s t f with
    | some (r, x) => (match localLineOf s r x with
      | .tag area leaf m => some (r, area, .inl (leaf, m))
      | .item area l i => some (r, area, .inr (l, i))
      | _ => none)
    | none => none

/-- A shadow line is written as it stands: its content is what the crypto block reads from then on. -/
def putShadow (t : Nat) (g : Region) (area : Nat) (x : Sum (Nat × Nat) (Nat × Nat)) (d : Line) (s : State) : State :=
  onCry (fun c => match x with
    | .inl (leaf, m) => { c with tags := Table.set none c.tags (((((g.idx * 8 + t) * 4 + area) <<< 36) + leaf) * 8 + m) (some d) }
    | .inr (l, i) => { c with nodes := Table.set none c.nodes (itemKey ⟨g.idx, t, area, l, i⟩) (some d) }) s

/-- A line of a tile-local frame: a read whose record has not arrived yet is asked for, and reads 0. -/
def memAccFrame (t : Nat) (nvm : Bool) (frame i : Nat) (wr : Option Line) (s : State) : State :=
  if !walkersRun s t || locLost s t nvm frame i then s
  else match (if nvm then none else placeLineAt s t frame i), wr with
    | some k, some d => putPlaceLine t k d s
    | some k, none => onTap (fun x => { x with dr := (placeLine s t k).toNat }) s
    | none, some d =>
      let s1 := match shadowOf s t nvm (64 * frame + i) with | some (g, a, x) => putShadow t g a x d s | none => s
      settle (putLoc t nvm frame i (mkRec (localFold t (64 * frame + i)) d 0#56) (classPrio s (paramNat s "qos.class.firmware" 14)) s1)
    | none, none => match takeLoc 2 t nvm frame i 0#648 s with
      | some (r, _, s1) => onTap (fun x => { x with dr := (match shadowOf s t nvm (64 * frame + i) with | some (g, a, y) => shadowLine s g t a y | none => r.data).toNat }) s1
      | none => askLoc 2 t nvm frame i (classPrio s (paramNat s "qos.class.firmware" 14)) s

/-- MEM_ACC (R293, R308, R358). -/
def execMemAcc (target : TapTarget) (wr : Option Line) (s : State) : Host.Outcome State Fault Refusal :=
  let s1 := tapRun 0x21#8 512 0 s
  .next (if !tapGate s || !tileRuns s 0 then s1
    else match target with
      | .line a => memAccLine a.toNat wr s1
      | .frame t nvm f i => memAccFrame t.val nvm f.toNat i.val wr s1)

/-- Key 4k + c of CRY_ACC: c 0 a tag line, 1 a counter line or node, 2 a root store, 3 a line of a counter cache. Nodes and roots that nothing has written
since the fill read as it computed them (R290). -/
def tapCryRead (s : State) (key : Nat) : Nat :=
  let k := key / 4
  let l : Option Line := match key % 4 with
    | 0 => Table.get none s.cry.tags k
    | 1 => some (storedItem s (leavesOf s (itemOfKey k).region (itemOfKey k).area) (itemOfKey k))
    | 2 => some (rootLine s (leavesOf s (k / 32) (k % 4)) ⟨k / 32, k / 4 % 8, k % 4, 0, 0⟩)
    | _ => (Table.get none s.cry.cache k).map (·.1)
  (l.getD 0#512).toNat

def tapCryWrite (key : Nat) (d : Line) (s : State) : State :=
  let k := key / 4
  onCry (fun c => match key % 4 with
    | 0 => { c with tags := Table.set none c.tags k (some d) }
    | 1 => { c with nodes := Table.set none c.nodes k (some d) }
    | 2 => { c with roots := Table.set none c.roots k (some d) }
    | _ => { c with cache := Table.mod none c.cache k (fun e => e.map (fun x => (d, x.2))) }) s

/-- CRY_ACC (R308, R358): gated; no key, working key or tree key can be read or written. -/
def execCryAcc (key : Nat) (wr : Option Line) (s : State) : Host.Outcome State Fault Refusal :=
  if !tapGate s then .next (tapRun 0x22#8 512 0 s)
  else match wr with
    | none => .next (tapRun 0x22#8 512 (tapCryRead s key) s)
    | some d => .next (tapCryWrite key d (tapRun 0x22#8 512 0 s))

/-- MP_DEBUG (R308, R358): a management processor is halted, or released. -/
def execMpDebug (t : TileId) (halt : Bool) (s : State) : Host.Outcome State Fault Refusal :=
  let s1 := tapRun 0x23#8 8 s.tap.halted.toNat s
  .next (if !tapGate s then tapRun 0x23#8 8 0 s
    else if hasTile s t.val then onTap (fun x => { x with halted := setBit x.halted t.val halt }) s1 else s1)

/-- BYPASS (R358), and every unlisted opcode. -/
def execBypass (_ : Byte) (s : State) : Host.Outcome State Fault Refusal := .next (tapBypass s)

end Sys2Proof.Machine
end

