-- ==== Sys2Proof/Machine/Dispatch.lean ====
section
/-!
DEFINITION. Dispatch: one arm for each command, one direct call of its meaning.
-/
namespace Sys2Proof.Machine

def exec (i : Instr) (s : State) : Host.Outcome State Fault Refusal :=
  match i with
  | .powerOnReset => Sys2Proof.Machine.execPowerOnReset s
  | .porRelease => Sys2Proof.Machine.execPorRelease s
  | .resetNAssert => Sys2Proof.Machine.execResetNAssert s
  | .resetNDriveEnd => Sys2Proof.Machine.execResetNDriveEnd s
  | .resetNRelease => Sys2Proof.Machine.execResetNRelease s
  | .tapReset => Sys2Proof.Machine.execTapReset s
  | .feedInRange f => Sys2Proof.Machine.execFeedInRange f s
  | .feedOutOfRange f => Sys2Proof.Machine.execFeedOutOfRange f s
  | .oringReverse f => Sys2Proof.Machine.execOringReverse f s
  | .oringReenable f => Sys2Proof.Machine.execOringReenable f s
  | .oringFetShort f => Sys2Proof.Machine.execOringFetShort f s
  | .telemetrySample m => Sys2Proof.Machine.execTelemetrySample m s
  | .presentQualified => Sys2Proof.Machine.execPresentQualified s
  | .removal opened => Sys2Proof.Machine.execRemoval opened s
  | .channelStart e shorted => Sys2Proof.Machine.execChannelStart e shorted s
  | .damagedFetTest e mv => Sys2Proof.Machine.execDamagedFetTest e mv s
  | .outputReachesInput e => Sys2Proof.Machine.execOutputReachesInput e s
  | .startLimitExpiry e => Sys2Proof.Machine.execStartLimitExpiry e s
  | .powerGoodQualified e => Sys2Proof.Machine.execPowerGoodQualified e s
  | .channelOvercurrent e above pulled => Sys2Proof.Machine.execChannelOvercurrent e above pulled s
  | .faultTimerExpiry e => Sys2Proof.Machine.execFaultTimerExpiry e s
  | .fastTrip e => Sys2Proof.Machine.execFastTrip e s
  | .retryOffTimeExpiry e => Sys2Proof.Machine.execRetryOffTimeExpiry e s
  | .privilegedRetryExpiry e => Sys2Proof.Machine.execPrivilegedRetryExpiry e s
  | .attemptsReset e => Sys2Proof.Machine.execAttemptsReset e s
  | .ibcPgQualified => Sys2Proof.Machine.execIbcPgQualified s
  | .ibcPgTimeout => Sys2Proof.Machine.execIbcPgTimeout s
  | .ibcPgFall => Sys2Proof.Machine.execIbcPgFall s
  | .trailPgGood t k => Sys2Proof.Machine.execTrailPgGood t k s
  | .railEnable t => Sys2Proof.Machine.execRailEnable t s
  | .trailPgTimeout t => Sys2Proof.Machine.execTrailPgTimeout t s
  | .trailPgFall t k => Sys2Proof.Machine.execTrailPgFall t k s
  | .powerWindow => Sys2Proof.Machine.execPowerWindow s
  | .throttleDown => Sys2Proof.Machine.execThrottleDown s
  | .powerCapExceeded => Sys2Proof.Machine.execPowerCapExceeded s
  | .poweredHour => Sys2Proof.Machine.execPoweredHour s
  | .svLinkFrame toSv payload crc => Sys2Proof.Machine.execSvLinkFrame toSv payload crc s
  | .svLinkResend bySv => Sys2Proof.Machine.execSvLinkResend bySv s
  | .svLinkIdleFrame => Sys2Proof.Machine.execSvLinkIdleFrame s
  | .svLinkDown => Sys2Proof.Machine.execSvLinkDown s
  | .svLinkRetrain ok => Sys2Proof.Machine.execSvLinkRetrain ok s
  | .logRecordSubmit typ origin source payload => Sys2Proof.Machine.execLogRecordSubmit typ origin source payload s
  | .logRecordWriteDone verified => Sys2Proof.Machine.execLogRecordWriteDone verified s
  | .logHintWriteDone verified => Sys2Proof.Machine.execLogHintWriteDone verified s
  | .logScanDone => Sys2Proof.Machine.execLogScanDone s
  | .faultRecordWrite => Sys2Proof.Machine.execFaultRecordWrite s
  | .faultStsClear a g v raised => Sys2Proof.Machine.execFaultStsClear a g v raised s
  | .faultForce a g v => Sys2Proof.Machine.execFaultForce a g v s
  | .graceWindowExpiry src => Sys2Proof.Machine.execGraceWindowExpiry src s
  | .quiesceComplete => Sys2Proof.Machine.execQuiesceComplete s
  | .quiesceLate => Sys2Proof.Machine.execQuiesceLate s
  | .verifyComplete t => Sys2Proof.Machine.execVerifyComplete t s
  | .windowBoundary t => Sys2Proof.Machine.execWindowBoundary t s
  | .cntWinCfgWrite a t v => Sys2Proof.Machine.execCntWinCfgWrite a t v s
  | .counterLowRead h ld off => Sys2Proof.Machine.execCounterLowRead h ld off s
  | .statusImageRefresh => Sys2Proof.Machine.execStatusImageRefresh s
  | .setdasa target addr => Sys2Proof.Machine.execSetdasa target addr s
  | .entdaa addr => Sys2Proof.Machine.execEntdaa addr s
  | .i3cMandatoryCcc ccc => Sys2Proof.Machine.execI3cMandatoryCcc ccc s
  | .setEndpointId eid => Sys2Proof.Machine.execSetEndpointId eid s
  | .getEndpointId => Sys2Proof.Machine.execGetEndpointId s
  | .getEndpointUuid => Sys2Proof.Machine.execGetEndpointUuid s
  | .getMctpVersionSupport msgType => Sys2Proof.Machine.execGetMctpVersionSupport msgType s
  | .getMessageTypeSupport => Sys2Proof.Machine.execGetMessageTypeSupport s
  | .getVendorDefinedMessageSupport selector => Sys2Proof.Machine.execGetVendorDefinedMessageSupport selector s
  | .mctpMessageDiscard msgType => Sys2Proof.Machine.execMctpMessageDiscard msgType s
  | .getStatusImageInfo reserved => Sys2Proof.Machine.execGetStatusImageInfo reserved s
  | .readStatusImage reserved offset length => Sys2Proof.Machine.execReadStatusImage reserved offset length s
  | .i3cReservedCommand command => Sys2Proof.Machine.execI3cReservedCommand command s
  | .linkUp h rate width flit switch => Sys2Proof.Machine.execLinkUp h rate width flit switch s
  | .cxlNegotiationFail h => Sys2Proof.Machine.execCxlNegotiationFail h s
  | .headReady h => Sys2Proof.Machine.execHeadReady h s
  | .perstNAssert p => Sys2Proof.Machine.execPerstNAssert p s
  | .perstNRelease p => Sys2Proof.Machine.execPerstNRelease p s
  | .hotReset h => Sys2Proof.Machine.execHotReset h s
  | .linkDisable h => Sys2Proof.Machine.execLinkDisable h s
  | .secondaryBusReset h => Sys2Proof.Machine.execSecondaryBusReset h s
  | .surpriseLinkDown h => Sys2Proof.Machine.execSurpriseLinkDown h s
  | .configurationRequest h ld req => Sys2Proof.Machine.execConfigurationRequest h ld req s
  | .memRd a mv => Sys2Proof.Machine.execMemRd a mv s
  | .memRdData a => Sys2Proof.Machine.execMemRdData a s
  | .memWr a mv data poison => Sys2Proof.Machine.execMemWr a mv data poison s
  | .memWrPtl a mv mask data poison => Sys2Proof.Machine.execMemWrPtl a mv mask data poison s
  | .memInv a mv => Sys2Proof.Machine.execMemInv a mv s
  | .memClnEvct a => Sys2Proof.Machine.execMemClnEvct a s
  | .birsp h biTag ans => Sys2Proof.Machine.execBirsp h biTag ans s
  | .biconflict h line biTag => Sys2Proof.Machine.execBiconflict h line biTag s
  | .atomicOp h ld r => Sys2Proof.Machine.execAtomicOp h ld r s
  | .poisonedWriteTlp h ld => Sys2Proof.Machine.execPoisonedWriteTlp h ld s
  | .decoderCommit h ld idx d => Sys2Proof.Machine.execDecoderCommit h ld idx d s
  | .registerWrite a bar2 off len v full => Sys2Proof.Machine.execRegisterWrite a bar2 off len v full s
  | .firmwareRequest t target wr => Sys2Proof.Machine.execFirmwareRequest t target wr s
  | .identify f => Sys2Proof.Machine.execIdentify f s
  | .backgroundOperationStatus f => Sys2Proof.Machine.execBackgroundOperationStatus f s
  | .getResponseMessageLimit f => Sys2Proof.Machine.execGetResponseMessageLimit f s
  | .setResponseMessageLimit f limit => Sys2Proof.Machine.execSetResponseMessageLimit f limit s
  | .requestAbortBackgroundOperation f => Sys2Proof.Machine.execRequestAbortBackgroundOperation f s
  | .getEventRecords f log => Sys2Proof.Machine.execGetEventRecords f log s
  | .clearEventRecords f log count => Sys2Proof.Machine.execClearEventRecords f log count s
  | .getEventInterruptPolicy f => Sys2Proof.Machine.execGetEventInterruptPolicy f s
  | .setEventInterruptPolicy f mode => Sys2Proof.Machine.execSetEventInterruptPolicy f mode s
  | .getFwInfo f => Sys2Proof.Machine.execGetFwInfo f s
  | .transferFw f image => Sys2Proof.Machine.execTransferFw f image s
  | .transferFwDone => Sys2Proof.Machine.execTransferFwDone s
  | .activateFw f slotB online => Sys2Proof.Machine.execActivateFw f slotB online s
  | .getTimestamp f => Sys2Proof.Machine.execGetTimestamp f s
  | .setTimestamp f ns => Sys2Proof.Machine.execSetTimestamp f ns s
  | .getSupportedLogs f => Sys2Proof.Machine.execGetSupportedLogs f s
  | .getLog f cel offset length => Sys2Proof.Machine.execGetLog f cel offset length s
  | .getLogCapabilities f cel => Sys2Proof.Machine.execGetLogCapabilities f cel s
  | .clearLog f cel => Sys2Proof.Machine.execClearLog f cel s
  | .getSupportedLogsSubList f start count => Sys2Proof.Machine.execGetSupportedLogsSubList f start count s
  | .getSupportedFeatures f => Sys2Proof.Machine.execGetSupportedFeatures f s
  | .getFeature f id => Sys2Proof.Machine.execGetFeature f id s
  | .setFeature f id => Sys2Proof.Machine.execSetFeature f id s
  | .identifyMemoryDevice f => Sys2Proof.Machine.execIdentifyMemoryDevice f s
  | .getPartitionInfo f => Sys2Proof.Machine.execGetPartitionInfo f s
  | .getHealthInfo f => Sys2Proof.Machine.execGetHealthInfo f s
  | .getAlertConfiguration f => Sys2Proof.Machine.execGetAlertConfiguration f s
  | .setAlertConfiguration f v => Sys2Proof.Machine.execSetAlertConfiguration f v s
  | .getPoisonList f dpa len => Sys2Proof.Machine.execGetPoisonList f dpa len s
  | .injectPoison f dpa => Sys2Proof.Machine.execInjectPoison f dpa s
  | .clearPoison f dpa data => Sys2Proof.Machine.execClearPoison f dpa data s
  | .getDynamicCapacityConfiguration f => Sys2Proof.Machine.execGetDynamicCapacityConfiguration f s
  | .getDynamicCapacityExtentList f => Sys2Proof.Machine.execGetDynamicCapacityExtentList f s
  | .addDynamicCapacityResponse f extents => Sys2Proof.Machine.execAddDynamicCapacityResponse f extents s
  | .releaseDynamicCapacity f dpa len => Sys2Proof.Machine.execReleaseDynamicCapacity f dpa len s
  | .dcOfferTimeout ext => Sys2Proof.Machine.execDcOfferTimeout ext s
  | .getLdInfo f => Sys2Proof.Machine.execGetLdInfo f s
  | .getLdAllocations f => Sys2Proof.Machine.execGetLdAllocations f s
  | .getQosControl f => Sys2Proof.Machine.execGetQosControl f s
  | .getQosStatus f => Sys2Proof.Machine.execGetQosStatus f s
  | .getQosAllocatedBw f => Sys2Proof.Machine.execGetQosAllocatedBw f s
  | .getQosBwLimit f => Sys2Proof.Machine.execGetQosBwLimit f s
  | .getMultiHeadedInfo f => Sys2Proof.Machine.execGetMultiHeadedInfo f s
  | .getHeadInfo f h => Sys2Proof.Machine.execGetHeadInfo f h s
  | .getDcdInfo f => Sys2Proof.Machine.execGetDcdInfo f s
  | .getHostDcRegionConfiguration f h ld => Sys2Proof.Machine.execGetHostDcRegionConfiguration f h ld s
  | .getDcRegionExtentLists f h ld => Sys2Proof.Machine.execGetDcRegionExtentLists f h ld s
  | .initiateDynamicCapacityAdd f h ld dpa len tag => Sys2Proof.Machine.execInitiateDynamicCapacityAdd f h ld dpa len tag s
  | .initiateDynamicCapacityRelease f h ld dpa len forced => Sys2Proof.Machine.execInitiateDynamicCapacityRelease f h ld dpa len forced s
  | .getIluisStatus f => Sys2Proof.Machine.execGetIluisStatus f s
  | .setSurroundings f inp => Sys2Proof.Machine.execSetSurroundings f inp s
  | .getSurroundings f => Sys2Proof.Machine.execGetSurroundings f s
  | .getAdmissionReport f inp => Sys2Proof.Machine.execGetAdmissionReport f inp s
  | .getFaultSummary f inp => Sys2Proof.Machine.execGetFaultSummary f inp s
  | .installKey v inp => Sys2Proof.Machine.execInstallKey v inp s
  | .retireKey v inp => Sys2Proof.Machine.execRetireKey v inp s
  | .startTwilight v inp => Sys2Proof.Machine.execStartTwilight v inp s
  | .getTwilightStatus f => Sys2Proof.Machine.execGetTwilightStatus f s
  | .readLogRecords f inp => Sys2Proof.Machine.execReadLogRecords f inp s
  | .unsupportedCommand f opcode => Sys2Proof.Machine.execUnsupportedCommand f opcode s
  | .doeDiscovery f index => Sys2Proof.Machine.execDoeDiscovery f index s
  | .tableAccess f entry => Sys2Proof.Machine.execTableAccess f entry s
  | .getCertificate f slot offset length => Sys2Proof.Machine.execGetCertificate f slot offset length s
  | .challenge f slot nonce => Sys2Proof.Machine.execChallenge f slot nonce s
  | .getMeasurements f index => Sys2Proof.Machine.execGetMeasurements f index s
  | .keyExchange f algorithms authentic root => Sys2Proof.Machine.execKeyExchange f algorithms authentic root s
  | .pskExchange f => Sys2Proof.Machine.execPskExchange f s
  | .setCertificate f => Sys2Proof.Machine.execSetCertificate f s
  | .getCsr f => Sys2Proof.Machine.execGetCsr f s
  | .heartbeat f sid => Sys2Proof.Machine.execHeartbeat f sid s
  | .keyUpdate f sid => Sys2Proof.Machine.execKeyUpdate f sid s
  | .vendorDefinedRequest h sid payload => Sys2Proof.Machine.execVendorDefinedRequest h sid payload s
  | .koistTrainTimeout link module_ => Sys2Proof.Machine.execKoistTrainTimeout link module_ s
  | .koistModuleLost link module_ => Sys2Proof.Machine.execKoistModuleLost link module_ s
  | .rdShared src line tied => Sys2Proof.Machine.execRdShared src line tied s
  | .rdOwn src line tied => Sys2Proof.Machine.execRdOwn src line tied s
  | .rdCur src line tied => Sys2Proof.Machine.execRdCur src line tied s
  | .wrLine src line tied => Sys2Proof.Machine.execWrLine src line tied s
  | .wrPart src line tied => Sys2Proof.Machine.execWrPart src line tied s
  | .hostCe src line tied => Sys2Proof.Machine.execHostCe src line tied s
  | .farAtom src line tied => Sys2Proof.Machine.execFarAtom src line tied s
  | .snpInv t home => Sys2Proof.Machine.execSnpInv t home s
  | .snpShare t home => Sys2Proof.Machine.execSnpShare t home s
  | .snpOwn t home => Sys2Proof.Machine.execSnpOwn t home s
  | .snpCur t home => Sys2Proof.Machine.execSnpCur t home s
  | .datS t home => Sys2Proof.Machine.execDatS t home s
  | .datE t home => Sys2Proof.Machine.execDatE t home s
  | .datX t home => Sys2Proof.Machine.execDatX t home s
  | .grant t home => Sys2Proof.Machine.execGrant t home s
  | .fwdNote t home => Sys2Proof.Machine.execFwdNote t home s
  | .wbAck t home => Sys2Proof.Machine.execWbAck t home s
  | .cmp t home => Sys2Proof.Machine.execCmp t home s
  | .biSnpReq t home => Sys2Proof.Machine.execBiSnpReq t home s
  | .biAckReq t home => Sys2Proof.Machine.execBiAckReq t home s
  | .snpRspI t home => Sys2Proof.Machine.execSnpRspI t home s
  | .snpRspIData t home => Sys2Proof.Machine.execSnpRspIData t home s
  | .snpRspFwd t home => Sys2Proof.Machine.execSnpRspFwd t home s
  | .snpRspFwdS t home => Sys2Proof.Machine.execSnpRspFwdS t home s
  | .wbData t home => Sys2Proof.Machine.execWbData t home s
  | .biRspFwd t home => Sys2Proof.Machine.execBiRspFwd t home s
  | .hostWb t home => Sys2Proof.Machine.execHostWb t home s
  | .biConflictFwd t home => Sys2Proof.Machine.execBiConflictFwd t home s
  | .fdatS t line => Sys2Proof.Machine.execFdatS t line s
  | .fdatE t line => Sys2Proof.Machine.execFdatE t line s
  | .fdatM t line => Sys2Proof.Machine.execFdatM t line s
  | .fdatX t line => Sys2Proof.Machine.execFdatX t line s
  | .atomRes t home => Sys2Proof.Machine.execAtomRes t home s
  | .mediaReadData line flips shadow => Sys2Proof.Machine.execMediaReadData line flips shadow s
  | .lineQueueServe line => Sys2Proof.Machine.execLineQueueServe line s
  | .bisnpTimeout line h => Sys2Proof.Machine.execBisnpTimeout line h s
  | .dirEvictionStart line => Sys2Proof.Machine.execDirEvictionStart line s
  | .deferredMissSend t line => Sys2Proof.Machine.execDeferredMissSend t line s
  | .holdQueueRelease h => Sys2Proof.Machine.execHoldQueueRelease h s
  | .reqAgeLimit t src line => Sys2Proof.Machine.execReqAgeLimit t src line s
  | .clean a t => Sys2Proof.Machine.execClean a t s
  | .inv a t => Sys2Proof.Machine.execInv a t s
  | .cleanAll a t => Sys2Proof.Machine.execCleanAll a t s
  | .invAll a t => Sys2Proof.Machine.execInvAll a t s
  | .preloadLock a t => Sys2Proof.Machine.execPreloadLock a t s
  | .unlock a t => Sys2Proof.Machine.execUnlock a t s
  | .rangeOpDone t => Sys2Proof.Machine.execRangeOpDone t s
  | .ncWayCfgWrite a t v => Sys2Proof.Machine.execNcWayCfgWrite a t v s
  | .scratchRead t off len flips => Sys2Proof.Machine.execScratchRead t off len flips s
  | .scratchWrite t off len v flips => Sys2Proof.Machine.execScratchWrite t off len v flips s
  | .fillDrainDone fill => Sys2Proof.Machine.execFillDrainDone fill s
  | .fillPage fill page => Sys2Proof.Machine.execFillPage fill page s
  | .refreshInterval d half => Sys2Proof.Machine.execRefreshInterval d half s
  | .idleRefresh d rank bank => Sys2Proof.Machine.execIdleRefresh d rank bank s
  | .refreshDeadline d rank => Sys2Proof.Machine.execRefreshDeadline d rank s
  | .rfmThreshold d rank bg bank => Sys2Proof.Machine.execRfmThreshold d rank bg bank s
  | .ageLimit d read => Sys2Proof.Machine.execAgeLimit d read s
  | .mr4Read d rank twice beyond => Sys2Proof.Machine.execMr4Read d rank twice beyond s
  | .duskIdle t c => Sys2Proof.Machine.execDuskIdle t c s
  | .duskEntryDone t c => Sys2Proof.Machine.execDuskEntryDone t c s
  | .duskExitDone t c => Sys2Proof.Machine.execDuskExitDone t c s
  | .scrubTick d flips => Sys2Proof.Machine.execScrubTick d flips s
  | .scrubCatchUpWake t c => Sys2Proof.Machine.execScrubCatchUpWake t c s
  | .pmicPoll t c faulty => Sys2Proof.Machine.execPmicPoll t c faulty s
  | .phyLockLost t c => Sys2Proof.Machine.execPhyLockLost t c s
  | .phyLockTimeout t c => Sys2Proof.Machine.execPhyLockTimeout t c s
  | .reevaluationDone => Sys2Proof.Machine.execReevaluationDone s
  | .writeReadCompare a d v => Sys2Proof.Machine.execWriteReadCompare a d v s
  | .readCompare a d v => Sys2Proof.Machine.execReadCompare a d v s
  | .writeOnly a d v => Sys2Proof.Machine.execWriteOnly a d v s
  | .readTrainingPattern a d v => Sys2Proof.Machine.execReadTrainingPattern a d v s
  | .writeLevelingSample a d v => Sys2Proof.Machine.execWriteLevelingSample a d v s
  | .trainingRunDone d errs lanes => Sys2Proof.Machine.execTrainingRunDone d errs lanes s
  | .drPhyAccWrite a d v => Sys2Proof.Machine.execDrPhyAccWrite a d v s
  | .nlinkIdleFlit n flit => Sys2Proof.Machine.execNlinkIdleFlit n flit s
  | .nlinkPayloadFlit n flit => Sys2Proof.Machine.execNlinkPayloadFlit n flit s
  | .nlinkNakFlit n flit => Sys2Proof.Machine.execNlinkNakFlit n flit s
  | .nlinkAckTimeout n => Sys2Proof.Machine.execNlinkAckTimeout n s
  | .nlinkReplayLimit n => Sys2Proof.Machine.execNlinkReplayLimit n s
  | .nlinkRetrainDone n ok => Sys2Proof.Machine.execNlinkRetrainDone n ok s
  | .nlinkTrainingStart t found => Sys2Proof.Machine.execNlinkTrainingStart t found s
  | .nlinkTrainStepTimeout n step => Sys2Proof.Machine.execNlinkTrainStepTimeout n step s
  | .nlinkTrainingDone n => Sys2Proof.Machine.execNlinkTrainingDone n s
  | .rdd n => Sys2Proof.Machine.execRdd n s
  | .pgc n => Sys2Proof.Machine.execPgc n s
  | .mrdd n => Sys2Proof.Machine.execMrdd n s
  | .mpgc n => Sys2Proof.Machine.execMpgc n s
  | .str n => Sys2Proof.Machine.execStr n s
  | .gapMove n pkg region => Sys2Proof.Machine.execGapMove n pkg region s
  | .gapMoveDone n pkg region => Sys2Proof.Machine.execGapMoveDone n pkg region s
  | .mapStateSave n pkg region => Sys2Proof.Machine.execMapStateSave n pkg region s
  | .blockRetire n pkg block => Sys2Proof.Machine.execBlockRetire n pkg block s
  | .blockRetireDone n pkg block => Sys2Proof.Machine.execBlockRetireDone n pkg block s
  | .wearStateSave n pkg block => Sys2Proof.Machine.execWearStateSave n pkg block s
  | .absorbSlotFreed t => Sys2Proof.Machine.execAbsorbSlotFreed t s
  | .absorbStall t => Sys2Proof.Machine.execAbsorbStall t s
  | .destageHighWater t => Sys2Proof.Machine.execDestageHighWater t s
  | .destageMaxAge t => Sys2Proof.Machine.execDestageMaxAge t s
  | .destageDone t group stripe => Sys2Proof.Machine.execDestageDone t group stripe s
  | .driftRefreshBlock n pkg block => Sys2Proof.Machine.execDriftRefreshBlock n pkg block s
  | .driftRefreshChunk n pkg offset => Sys2Proof.Machine.execDriftRefreshChunk n pkg offset s
  | .driftSkip t => Sys2Proof.Machine.execDriftSkip t s
  | .driftLate n pkg block => Sys2Proof.Machine.execDriftLate n pkg block s
  | .rebuildStripe t group => Sys2Proof.Machine.execRebuildStripe t group s
  | .epochWalkEntry page => Sys2Proof.Machine.execEpochWalkEntry page s
  | .promotionStart t => Sys2Proof.Machine.execPromotionStart t s
  | .demotionStart t => Sys2Proof.Machine.execDemotionStart t s
  | .migrationCopy page ix flips => Sys2Proof.Machine.execMigrationCopy page ix flips s
  | .migrationComplete page => Sys2Proof.Machine.execMigrationComplete page s
  | .ringTailWrite a r v => Sys2Proof.Machine.execRingTailWrite a r v s
  | .ringCqHeadWrite a r v => Sys2Proof.Machine.execRingCqHeadWrite a r v s
  | .ringEnable a r => Sys2Proof.Machine.execRingEnable a r s
  | .ringInitDone r => Sys2Proof.Machine.execRingInitDone r s
  | .ringAbort a r enable => Sys2Proof.Machine.execRingAbort a r enable s
  | .ringDisable a r => Sys2Proof.Machine.execRingDisable a r s
  | .ringCfgWrite a r v => Sys2Proof.Machine.execRingCfgWrite a r v s
  | .ringBaseWrite a r cq v => Sys2Proof.Machine.execRingBaseWrite a r cq v s
  | .descriptorFetch t r => Sys2Proof.Machine.execDescriptorFetch t r s
  | .jobStart r n => Sys2Proof.Machine.execJobStart r n s
  | .abortUserRead r => Sys2Proof.Machine.execAbortUserRead r s
  | .partDispatch r n => Sys2Proof.Machine.execPartDispatch r n s
  | .partReport r n j lost => Sys2Proof.Machine.execPartReport r n j lost s
  | .ingestRawPart r n j => Sys2Proof.Machine.execIngestRawPart r n j s
  | .compressDone r n j => Sys2Proof.Machine.execCompressDone r n j s
  | .ingestZhoqPart r n j => Sys2Proof.Machine.execIngestZhoqPart r n j s
  | .validationDone r n j => Sys2Proof.Machine.execValidationDone r n j s
  | .ingestCommit t r n => Sys2Proof.Machine.execIngestCommit t r n s
  | .decompressorGrant t => Sys2Proof.Machine.execDecompressorGrant t s
  | .decompressEnd region block flips => Sys2Proof.Machine.execDecompressEnd region block flips s
  | .decodeRetry region block => Sys2Proof.Machine.execDecodeRetry region block s
  | .twilightLine t region flips => Sys2Proof.Machine.execTwilightLine t region flips s
  | .twilightPassRemove region => Sys2Proof.Machine.execTwilightPassRemove region s
  | .extest chain => Sys2Proof.Machine.execExtest chain s
  | .idcode => Sys2Proof.Machine.execIdcode s
  | .samplePreload chain => Sys2Proof.Machine.execSamplePreload chain s
  | .fuseRd => Sys2Proof.Machine.execFuseRd s
  | .anchorProg v => Sys2Proof.Machine.execAnchorProg v s
  | .dawnRd => Sys2Proof.Machine.execDawnRd s
  | .arrayAcc array index wr => Sys2Proof.Machine.execArrayAcc array index wr s
  | .memAcc target wr => Sys2Proof.Machine.execMemAcc target wr s
  | .cryAcc key wr => Sys2Proof.Machine.execCryAcc key wr s
  | .mpDebug t halt => Sys2Proof.Machine.execMpDebug t halt s
  | .bypass opcode => Sys2Proof.Machine.execBypass opcode s
  | .clockGood t bit => Sys2Proof.Machine.execClockGood t bit s
  | .clockGoodTimeout t => Sys2Proof.Machine.execClockGoodTimeout t s
  | .clockGoodLost t bit => Sys2Proof.Machine.execClockGoodLost t bit s
  | .rstBlkCtlWrite a t v => Sys2Proof.Machine.execRstBlkCtlWrite a t v s
  | .dawn1 => Sys2Proof.Machine.execDawn1 s
  | .dawn2 => Sys2Proof.Machine.execDawn2 s
  | .dawn3 declared => Sys2Proof.Machine.execDawn3 declared s
  | .dawn4 nonce treeKeys dimms eyes failed => Sys2Proof.Machine.execDawn4 nonce treeKeys dimms eyes failed s
  | .dawn5 => Sys2Proof.Machine.execDawn5 s
  | .dawn6 => Sys2Proof.Machine.execDawn6 s
  | .closeIdlePrecharge d rank bg bank => Sys2Proof.Machine.execCloseIdlePrecharge d rank bg bank s
  | .linkEntryToRecovery h => Sys2Proof.Machine.execLinkEntryToRecovery h s

end Sys2Proof.Machine
end

