-- ==== Sys2Proof/Machine/Step.lean ====
section
/-!
DEFINITION. One step of the block: the command at the front of the queue, or the passing of time.
-/
namespace Sys2Proof.Machine

/-- The front command's effect on the state with the queue's rest; on an empty queue the block idles for 1 µs (log 1). -/
def step (s : State) : Host.Outcome State Fault Refusal :=
  match takeCommand s with
  | none => .next (tick s)
  | some (c, s1) => exec c s1

/-- `s` with the command that a word spells at the front of its queue; `s` itself where the word spells none. -/
def State.withFetchWord (s : State) (nbits w : Nat) : State :=
  match decodeTableWord nbits w with
  | some c => putFront c s
  | none => s

end Sys2Proof.Machine
end

