-- ==== Sys2Proof/Safety.lean ====
section
/-!
DEFINITION. What counts as a safe run: memories in canonical form, a fuse map of one of the members, and a step that answers a next state.
-/
namespace Sys2Proof.Machine

/-- The addressed memories of the block are in canonical form: strictly rising addresses, and no entry equal to what an unlisted address reads as. They
are the configuration flash, the log store's cells, DRAM's line records and the scratch words. -/
abbrev Memory.wf (s : State) : Prop :=
  Table.wf 0xFF#8 s.flash.bytes = true ∧ Table.wf erased s.log.cells = true ∧ Table.wf {} s.dram.recs = true ∧ Table.wf none s.nc.scratch = true

/-- The fuse map names a member (R3, R338). -/
abbrev memberOk (s : State) : Prop := s.fuse.tiles = 2 ∨ s.fuse.tiles = 4 ∨ s.fuse.tiles = 8

/-- The invariant of every step. -/
def Inv (s : State) : Prop := Memory.wf s ∧ memberOk s

/-- The step does not stop. -/
def goesOn (s : State) : Prop := ∃ t, step s = .next t

end Sys2Proof.Machine
end

