-- ==== Sys2Proof/Certificates/Slice0/Obligations.lean ====
section
/-!
DEFINITION. The statements for the provers: what the block and each command do.
-/
open Sys2Proof Sys2Proof.Machine

/-- A step runs the command at the front of the queue, or idles. With a command at the front of the queue, a step is that command's effect on
the state with the queue's rest. The queue is the model's own. On an empty queue a step adds 1 µs to the time since power-on reset ended and
changes nothing else; in power-on reset it changes nothing at all. That a step on an empty queue is 1 µs is the model's choice (log 1). -/
def Obligations.StepTakesFront : Prop :=
  (∀ (s : State) (c : Instr) (rest : List Instr), s.pending = c :: rest → step s = exec c { s with pending := rest }) ∧
  ((∀ s : State, s.pending = [] → s.rst.por = false → step s = .next { s with time := { s.time with now := s.time.now + 1 } }) ∧
  (∀ s : State, s.pending = [] → s.rst.por = true → step s = .next s))

/-- The invariant holds at reset, and what reset leaves. State.reset meets the invariant that every step keeps, and holds what the rules name:
the resets in effect, every enable bit of the fault collector set and no status bit, the run lock clear, no replace request, no Midnight, no
key slot filled, no ring with a register written, the trust anchor zero, feed A not in range, an empty queue. The fuse map of reset is the
model's choice (log 2). -/
def Obligations.ResetInv : Prop :=
  Machine.Inv State.reset ∧ State.reset.rst.por = true ∧ State.reset.rst.resetN = true ∧ State.reset.faults.sts = 0#1024 ∧
  State.reset.faults.en = BitVec.allOnes 1024 ∧ State.reset.dawn.runLock = false ∧ State.reset.faults.rr = false ∧ State.reset.faults.midnight = false ∧
  State.reset.cry.keys = [] ∧ State.reset.job.rings = [] ∧ State.reset.fuse.anchor = 0#256 ∧ State.reset.sv.feedA = false ∧ State.reset.pending = []

/-- Every step keeps the memories in canonical form and the fuse map that of a member. In every state that meets the invariant, reachable or
not, a step answers only states that meet it: the flash, the log store's cells, DRAM's records and the scratch words stay in canonical form
(strictly rising addresses, no entry equal to what an unlisted address reads as) and the member stays one of the three the manual describes. -/
def Obligations.StepKeepsInv : Prop :=
  ∀ s t : State, Machine.Inv s → step s = .next t → Machine.Inv t

/-- No command stops the block. In every state every command answers a next state: there is no fault and no refusal. What a command whose cause
is absent does is the model's choice (log 3). -/
def Obligations.EveryCommandGoesOn : Prop :=
  ∀ (c : Instr) (s : State), ∃ t, exec c s = .next t

/-- No command changes the queue. The commands that wait stay as they are, in their order, whatever a command does. -/
def Obligations.CommandsKeepQueue : Prop :=
  ∀ (c : Instr) (s t : State), exec c s = .next t → t.pending = s.pending

/-- An anchor that is not zero is never changed. No step changes the fuse map's identifier, member or serial number, and none changes a trust
anchor that is not zero. -/
def Obligations.AnchorProgrammedOnce : Prop :=
  ∀ s t : State, step s = .next t → t.fuse.id = s.fuse.id ∧ t.fuse.tiles = s.fuse.tiles ∧ t.fuse.serial = s.fuse.serial ∧
    (s.fuse.anchor ≠ 0#256 → t.fuse.anchor = s.fuse.anchor)

/-- The run lock, Midnight and a replace request end only by reset. A run lock that is set, Midnight once entered and a replace request that
stands are still so after a step, unless a reset source is in effect after it. -/
def Obligations.LocksUntilReset : Prop :=
  ∀ s t : State, step s = .next t → t.rst.resetN = false → t.rst.por = false →
    (s.dawn.runLock = true → t.dawn.runLock = true) ∧ (s.faults.midnight = true → t.faults.midnight = true) ∧
    (s.faults.rr = true → t.faults.rr = true)

/-- A key slot is filled only by INSTALL_KEY. A key slot that is empty stays empty under every command but INSTALL_KEY, the mailbox's or the one
a session carries as a vendor-defined request. -/
def Obligations.KeysComeOnlyByInstall : Prop :=
  ∀ (c : Instr) (s t : State) (k : Nat), exec c s = .next t → (∀ v x, c ≠ .installKey v x) →
    (∀ h sid x, c ≠ .vendorDefinedRequest h sid x) → Table.get none s.cry.keys k = none → Table.get none t.cry.keys k = none

/-- What the reset commands leave. POWER_ON_RESET with neither feed in range leaves the state after power-on with the fuse map, the flash's
bytes (but for an option block whose rewrite is cut short) and the packages' saved wear kept, the log store as the torn write leaves it and
the levels that the board drives; POR_RELEASE with a feed in range ends power-on reset, starts the log store's power-up and raises its worn
rings; RESET_N_ASSERT of a running device puts every tile at its Reset values, raises RESETS and the log store's RESET_N count and keeps
SV's side, and of one in reset only records the board's level; SV's drive ends once every rail is good; RESET_N_RELEASE ends reset, opens
the anchor's window at the first release only, gives every Koist link its four modules, samples PERST_N of every head and requests
replacement where a fault of SV stands; TAP_RESET clears all of the TAP but the halted processors. The free value that a torn log write
takes is the model's (log 4). -/
def Obligations.ResetPins : Prop :=
  (∀ s : State, s.sv.feedA = false → s.sv.feedB = false →
    exec .powerOnReset s = .next { State.reset with
      fuse := { s.fuse with anchorRead := 0#256 }, log := logTear s.free s.log, flash := flashKept s,
      nvm := { savedBlks := s.nvm.savedBlks, savedRots := s.nvm.savedRots, sparesUsed := s.nvm.sparesUsed },
      rst := { perstLow := s.rst.perstLow, boardLow := s.rst.boardLow }, free := s.free + 1, pending := s.pending }) ∧
  (∀ s : State, s.rst.por = true → s.sv.feedA = true ∨ s.sv.feedB = true →
    exec .porRelease s = .next (raiseWorn 0#4 { s with
      rst := { s.rst with por := false, driving := true }, time := { s.time with now := 0 }, log := logPowerUp s.log })) ∧
  (∀ s : State, s.rst.por = true ∨ s.rst.resetN = true → exec .resetNAssert s = .next { s with rst := { s.rst with boardLow := true } }) ∧
  (∀ s : State, s.rst.por = false → s.rst.resetN = false → ∃ t, exec .resetNAssert s = .next t ∧
    t.rst = { s.rst with resetN := true, driving := true, boardLow := true, anchorWindow := false } ∧
    t.dawn = { resets := satAdd s.dawn.resets 1 65535 } ∧ t.log = splitInc 5 s.log ∧ t.sv = s.sv ∧ t.chans = s.chans ∧ t.fuse = s.fuse ∧
    t.flash = flashKept s ∧ t.time = { now := s.time.now } ∧ t.faults.sts = s.faults.sts &&& svMask ∧ t.faults.en = BitVec.allOnes 1024 ∧
    t.faults.rr = false ∧ t.faults.midnight = false ∧ t.regs = [] ∧ t.clk = {} ∧ t.host = {} ∧ t.map = {} ∧ t.nc = {} ∧ t.ha = {} ∧ t.fab = {} ∧
    t.cry = {} ∧ t.dram = {} ∧ t.tier = {} ∧ t.job = {} ∧ t.pk = {} ∧ t.qos = {} ∧ t.place = [] ∧ t.i3c = {} ∧ t.link = {} ∧
    t.tap = { s.tap with halted := 0#8 } ∧
    t.nvm = { savedBlks := s.nvm.savedBlks, savedRots := s.nvm.savedRots, sparesUsed := s.nvm.sparesUsed } ∧ t.pending = s.pending ∧ t.free = s.free) ∧
  (∀ s : State, s.rst.por = false → s.rst.driving = true → railsAllGood s = true →
    exec .resetNDriveEnd s = .next { s with rst := { s.rst with driving := false } }) ∧
  (∀ s : State, s.rst.por = false → s.rst.resetN = true → s.rst.driving = false → ∃ u, u = perstAtRelease { s with
      rst := { s.rst with resetN := false, boardLow := false, anchorWindow := s.rst.firstRelease, firstRelease := false },
      fuse := { s.fuse with anchorRead := s.fuse.anchor }, time := { s.time with relAt := s.time.now },
      fab := { s.fab with modules := (koistLinks s).zipIdx.map (fun e => (e.2, 15#4)) } } ∧
    exec .resetNRelease s = .next (match svStanding u with | some i => replaceRequest i u | none => u)) ∧
  (∀ s : State, s.rst.perstLow = 0 → perstAtRelease s = s) ∧
  (∀ (s : State) (a : Nat), (s.flash.rewriteEnd ≤ s.time.now ∨ 4096 ≤ a → Table.get 0xFF#8 (flashKept s).bytes a = Table.get 0xFF#8 s.flash.bytes a) ∧
    (s.time.now < s.flash.rewriteEnd → a < 4096 → Table.get 0xFF#8 (flashKept s).bytes a = 0xFF#8) ∧ (flashKept s).busy = none) ∧
  (∀ s : State, exec .tapReset s = .next { s with tap := { halted := s.tap.halted } })

/-- What the feed, bus and rail events do. An ORing FET conducts while its feed is in range, unless the node rose above the feed or the FET is
hot while the other feed is in range; a feed lost with the other in range is a power event, and a feed lost with the other out of range
asserts power-on reset; a reverse current turns a FET that conducts off, and it stays off until it is re-enabled; a short found while the
gate is off is a power event. The intermediate bus reads good once it is enabled and IBC_PG is qualified, and a miss, or its fall while HS
is power-good, takes HS down with cause bus lost; a tile's rails are enabled one after another as each is good, all five make the tile's
rails good, and every tile's good with HS opens E08 to E31; a rail that is late, or lost once all five were good, takes E0t down with cause
tile rail lost, and one lost before that reads not good again; a powered hour is counted. -/
def Obligations.FeedsAndRails : Prop :=
  ((∀ s : State, exec (.feedInRange .a) s = .next { s with sv := { s.sv with
    feedA := true, orA := !s.sv.orRevA && !(s.sv.orHotA && s.sv.feedB), orB := s.sv.feedB && !s.sv.orRevB && !s.sv.orHotB } }) ∧
  (∀ s : State, exec (.feedInRange .b) s = .next { s with sv := { s.sv with
    feedB := true, orB := !s.sv.orRevB && !(s.sv.orHotB && s.sv.feedA), orA := s.sv.feedA && !s.sv.orRevA && !s.sv.orHotA } }) ∧
  (∀ s : State, s.sv.feedA = true → s.sv.feedB = true → exec (.feedOutOfRange .a) s =
    .next (powerEvent 33 .feedLost 0 { s with sv := { s.sv with feedA := false, orA := false, orB := !s.sv.orRevB } })) ∧
  (∀ s : State, s.sv.feedA = true → s.sv.feedB = true → exec (.feedOutOfRange .b) s =
    .next (powerEvent 34 .feedLost 1 { s with sv := { s.sv with feedB := false, orB := false, orA := !s.sv.orRevA } })) ∧
  (∀ s : State, s.sv.feedA = true → s.sv.feedB = false → ∃ t, exec (.feedOutOfRange .a) s = .next t ∧
    t.rst = { perstLow := s.rst.perstLow, boardLow := s.rst.boardLow } ∧ t.sv = {} ∧ t.chans = [] ∧ t.log.cells = (logTear s.free s.log).cells ∧ t.fuse.anchor = s.fuse.anchor) ∧
  (∀ s : State, s.sv.feedB = true → s.sv.feedA = false → ∃ t, exec (.feedOutOfRange .b) s = .next t ∧
    t.rst = { perstLow := s.rst.perstLow, boardLow := s.rst.boardLow } ∧ t.sv = {} ∧ t.chans = [] ∧ t.log.cells = (logTear s.free s.log).cells ∧ t.fuse.anchor = s.fuse.anchor) ∧
  (∀ s : State, s.sv.orA = true → exec (.oringReverse .a) s = .next { s with sv := { s.sv with
    orRevA := true, orA := false, orB := s.sv.feedB && !s.sv.orRevB && !(s.sv.orHotB && s.sv.feedA) } }) ∧
  (∀ s : State, s.sv.orB = true → exec (.oringReverse .b) s = .next { s with sv := { s.sv with
    orRevB := true, orB := false, orA := s.sv.feedA && !s.sv.orRevA && !(s.sv.orHotA && s.sv.feedB) } }) ∧
  (∀ s : State, exec (.oringReenable .a) s = .next { s with sv := { s.sv with
    orRevA := false, orA := s.sv.feedA && !(s.sv.orHotA && s.sv.feedB), orB := s.sv.feedB && !s.sv.orRevB && !(s.sv.orHotB && s.sv.feedA) } }) ∧
  (∀ s : State, exec (.oringReenable .b) s = .next { s with sv := { s.sv with
    orRevB := false, orB := s.sv.feedB && !(s.sv.orHotB && s.sv.feedA), orA := s.sv.feedA && !s.sv.orRevA && !(s.sv.orHotA && s.sv.feedB) } }) ∧
  (∀ s : State, s.sv.orA = false → exec (.oringFetShort .a) s = .next (powerEvent 33 .orShort 0 s)) ∧
  (∀ s : State, s.sv.orB = false → exec (.oringFetShort .b) s = .next (powerEvent 34 .orShort 1 s))) ∧
  ((∀ s : State, s.sv.ibcEn = true → exec .ibcPgQualified s = .next { s with sv := { s.sv with ibGood := true } }) ∧
  (∀ s : State, s.sv.ibcEn = true → s.sv.ibGood = false → exec .ibcPgTimeout s = .next (chanFault 32 .busLost false s)) ∧
  (∀ s : State, s.sv.ibcEn = true → (getChan s 32).state = .powerGood → exec .ibcPgFall s = .next (chanFault 32 .busLost false s)) ∧
  (∀ (s : State) (t : TileId) (k : Fin 5), (Table.get 0#5 s.sv.railEn t.val).getLsbD k.val = true → ∃ u, exec (.trailPgGood t k) s = .next u ∧
    Table.get 0#5 u.sv.railPg t.val = setBit (Table.get 0#5 s.sv.railPg t.val) k.val true ∧
    (∀ i, i ≠ t.val → Table.get 0#5 u.sv.railPg i = Table.get 0#5 s.sv.railPg i) ∧
    u.sv.tilesGood = (if Table.get 0#5 u.sv.railPg t.val = 31#5 then setBit s.sv.tilesGood t.val true else s.sv.tilesGood) ∧
    u.sv.step7 = (s.sv.step7 || railsAllGood u) ∧ u = { s with sv := u.sv }) ∧
  (∀ (s : State) (t : TileId), Table.get 0#5 s.sv.railEn t.val ≠ 0#5 → Table.get 0#5 s.sv.railPg t.val = Table.get 0#5 s.sv.railEn t.val →
    Table.get 0#5 s.sv.railEn t.val ≠ 31#5 → exec (.railEnable t) s =
    .next { s with sv := { s.sv with railEn := Table.set 0#5 s.sv.railEn t.val ((Table.get 0#5 s.sv.railEn t.val <<< 1) ||| 1#5) } }) ∧
  (∀ (s : State) (t : TileId), Table.get 0#5 s.sv.railPg t.val ≠ Table.get 0#5 s.sv.railEn t.val →
    exec (.trailPgTimeout t) s = .next (chanFault t.val .railLost false s)) ∧
  (∀ (s : State) (t : TileId) (k : Fin 5), (Table.get 0#5 s.sv.railPg t.val).getLsbD k.val = true → s.sv.tilesGood.getLsbD t.val = true →
    exec (.trailPgFall t k) s = .next (chanFault t.val .railLost false s)) ∧
  (∀ (s : State) (t : TileId) (k : Fin 5), (Table.get 0#5 s.sv.railPg t.val).getLsbD k.val = true → s.sv.tilesGood.getLsbD t.val = false →
    exec (.trailPgFall t k) s = .next { s with sv := { s.sv with
      railPg := Table.set 0#5 s.sv.railPg t.val (setBit (Table.get 0#5 s.sv.railPg t.val) k.val false) } }) ∧
  (∀ s : State, s.rst.por = false → exec .poweredHour s = .next { s with log := splitInc 6 s.log }))

/-- What a power channel's fault does. A channel that turns off for a fault records its cause, counts a trip, and waits for a retry or latches:
a privileged channel latches at its fourth fault, and a damaged or shorted FET latches any channel. Its gate is down and its fault timer
runs down from the count it has. Every other channel keeps its state, unless HS fell, which takes every channel that conducts or starts
down. A fault of HS or of a tile core rail channel drives RESET_N. -/
def Obligations.ChannelFault : Prop :=
  ∀ (s : State) (e : Nat) (cause : ChCause) (latch : Bool), e < 33 →
    (getChan (chanFault e cause latch s) e).state =
      (if latch = true ∨ (privileged e = true ∧ 3 ≤ (getChan s e).attempts) then ChState.latched else ChState.retryWait) ∧
    (getChan (chanFault e cause latch s) e).cause = cause ∧
    (getChan (chanFault e cause latch s) e).trips = satAdd (getChan s e).trips 1 65535 ∧
    (getChan (chanFault e cause latch s) e).attempts =
      (if latch = false ∧ privileged e = true ∧ (getChan s e).attempts < 3 then (getChan s e).attempts + 1 else (getChan s e).attempts) ∧
    (getChan (chanFault e cause latch s) e).offAt = s.time.now ∧
    (getChan (chanFault e cause latch s) e).timer = timerNow s.time.now (getChan s e) ∧ (getChan (chanFault e cause latch s) e).above = false ∧
    (getChan (chanFault e cause latch s) e).gate10 = false ∧
    (∀ i, i ≠ e → e ≠ 32 → getChan (chanFault e cause latch s) i = getChan s i) ∧
    (∀ i, i < 32 → e = 32 → getChan (chanFault e cause latch s) i = chOff s.time.now (getChan s i)) ∧
    (e = 32 ∨ e < 8 → (chanFault e cause latch s).rst.resetN = true ∧ (chanFault e cause latch s).rst.driving = true) ∧
    (8 ≤ e → e < 32 → (chanFault e cause latch s).rst = s.rst)

/-- How a power channel starts and how its limits act. CHANNEL_START drives the gate of a channel that may start, or latches it when its FET is
shorted; the damaged-FET test passes at 3 V or latches the channel; the output reaching the input clamps the gate; the start limit is a
fault unless the output had reached the input; qualified power-good of HS enables the intermediate bus, that of E0t the first rail of its
tile, and that of E(24 + t) reports the NVM rails; where the fault timer has reached the channel's TIMER by then it is a fault instead, and
a channel whose gate does not stand at 10 V does not become power-good. Above V_CB a conducting channel's fault timer counts up, below it
down at one eighth of the rate; its gate stands at 10 V unless it is pulled below; the timer reaching the channel's TIMER and a fast trip
are faults; an off-time of 100 times the TIMER at the fault, or 1 s for a privileged channel, ends a wait, and 10 s of power-good clear
ATTEMPTS of a privileged channel. -/
def Obligations.ChannelCommands : Prop :=
  ((∀ (s : State) (e : ChanId), mayStart s e.val = true → exec (.channelStart e false) s =
    .next { s with chans := Table.set {} s.chans e.val { getChan s e.val with state := .starting, tested := false } }) ∧
  (∀ (s : State) (e : ChanId), mayStart s e.val = true → exec (.channelStart e true) s = .next (chanFault e.val .short true s)) ∧
  (∀ (s : State) (e : ChanId) (mv : Nat), (getChan s e.val).state = .starting → (getChan s e.val).tested = false → 3000 ≤ mv →
    exec (.damagedFetTest e mv) s = .next { s with chans := Table.set {} s.chans e.val { getChan s e.val with tested := true } }) ∧
  (∀ (s : State) (e : ChanId) (mv : Nat), (getChan s e.val).state = .starting → (getChan s e.val).tested = false → mv < 3000 →
    exec (.damagedFetTest e mv) s = .next (chanFault e.val .damaged true s)) ∧
  (∀ (s : State) (e : ChanId), (getChan s e.val).state = .starting →
    exec (.outputReachesInput e) s = .next { s with chans := Table.set {} s.chans e.val { getChan s e.val with clamped := true, gate10 := true } }) ∧
  (∀ (s : State) (e : ChanId), (getChan s e.val).state = .starting → (getChan s e.val).clamped = false → exec (.startLimitExpiry e) s = .next (chanFault e.val .startLimit false s)) ∧
  (∀ (s : State) (e : ChanId), (getChan s e.val).state = .starting → (getChan s e.val).tested = true → (getChan s e.val).gate10 = true → timerReached s e.val = true →
    exec (.powerGoodQualified e) s = .next (chanFault e.val .faultTimer false s)) ∧
  (∀ (s : State) (e : ChanId), (getChan s e.val).state = .starting → (getChan s e.val).gate10 = false → exec (.powerGoodQualified e) s = .next s) ∧
  (∀ (s : State) (e : ChanId), (getChan s e.val).state = .starting → (getChan s e.val).tested = true → (getChan s e.val).gate10 = true → timerReached s e.val = false →
    exec (.powerGoodQualified e) s = .next { s with
      chans := Table.set {} s.chans e.val { getChan s e.val with state := .powerGood, goodAt := s.time.now },
      sv :=
        if e.val = 32 then { s.sv with ibcEn := true }
        else if e.val < 8 then { s.sv with railEn := Table.set 0#5 s.sv.railEn e.val 1#5 }
        else if 24 ≤ e.val then { s.sv with nvmRails := setBit s.sv.nvmRails (e.val - 24) true }
        else s.sv })) ∧
  ((∀ (s : State) (e : ChanId) (above pulled : Bool), conducting (getChan s e.val) = true → exec (.channelOvercurrent e above pulled) s =
    .next { s with chans := Table.set {} s.chans e.val { getChan s e.val with
      timer := if (getChan s e.val).above then (getChan s e.val).timer + 8 * (s.time.now - (getChan s e.val).timerAt)
        else (getChan s e.val).timer - (s.time.now - (getChan s e.val).timerAt),
      timerAt := s.time.now, above := above,
      gate10 := (getChan s e.val).clamped && !pulled } }) ∧
  (∀ (s : State) (e : ChanId), conducting (getChan s e.val) = true → timerReached s e.val = true →
    exec (.faultTimerExpiry e) s = .next (chanFault e.val .faultTimer false s)) ∧
  (∀ (s : State) (e : ChanId), conducting (getChan s e.val) = true → exec (.fastTrip e) s = .next (chanFault e.val .fastTrip false s)) ∧
  (∀ (s : State) (e : ChanId), privileged e.val = false → (getChan s e.val).state = .retryWait →
    (getChan s e.val).offAt + 50000 * (getChan s e.val).offTimer ≤ s.time.now → exec (.retryOffTimeExpiry e) s =
    .next { s with chans := Table.set {} s.chans e.val { getChan s e.val with state := .off } }) ∧
  (∀ (s : State) (e : ChanId), privileged e.val = true → (getChan s e.val).state = .retryWait →
    (getChan s e.val).offAt + 1000000 ≤ s.time.now → exec (.privilegedRetryExpiry e) s =
    .next { s with chans := Table.set {} s.chans e.val { getChan s e.val with state := .off } }) ∧
  (∀ (s : State) (e : ChanId), privileged e.val = true → (getChan s e.val).state = .powerGood →
    (getChan s e.val).goodAt + 10000000 ≤ s.time.now → exec (.attemptsReset e) s =
    .next { s with chans := Table.set {} s.chans e.val { getChan s e.val with attempts := 0 } }))

/-- What insertion, removal and telemetry do. A qualified insertion sets PRESENT; removal clears it, and of an inserted device drives RESET_N,
drops the bus and turns HS off, with no trip counted; a telemetry sample stores the feeds' readings, the PRESENT_N contacts (with the sample
by the model's choice, log 161) and the listed channels' samples before it acts on temperatures. -/
def Obligations.InsertionAndTelemetry : Prop :=
  (∀ s : State, s.sv.feedA = true ∨ s.sv.feedB = true → exec .presentQualified s = .next { s with sv := { s.sv with presentRaw := 3#2, present := true } }) ∧
  (∀ (s : State) (opened : BitVec 2), opened ≠ 0#2 → s.sv.present = true → ∃ t, exec (.removal opened) s = .next t ∧
    t.sv.present = false ∧ t.sv.presentRaw = s.sv.presentRaw &&& ~~~opened ∧ t.sv.ibcEn = false ∧ t.sv.ibGood = false ∧ t.sv.step7 = false ∧
    t.sv.railEn = [] ∧ t.sv.railPg = [] ∧ t.sv.tilesGood = 0#8 ∧ t.sv.nvmRails = 0#8 ∧ t.rst.resetN = true ∧ t.rst.driving = true ∧
    (∀ e, e ≤ 32 → getChan t e = chOff s.time.now (getChan s e)) ∧ t.fuse = s.fuse ∧
    t.flash.bytes = (if s.rst.resetN = true then s.flash.bytes else (flashKept s).bytes)) ∧
  (∀ (s : State) (opened : BitVec 2), opened ≠ 0#2 → s.sv.present = false → exec (.removal opened) s =
    .next { s with sv := { s.sv with presentRaw := s.sv.presentRaw &&& ~~~opened, present := false } }) ∧
  (∀ (s : State) (m : Telemetry), s.sv.feedA = true ∨ s.sv.feedB = true → m.chans = [] → ∃ t, exec (.telemetrySample m) s = .next t ∧
    t.sv.vinA = m.vinA ∧ t.sv.vinB = m.vinB ∧ t.sv.tempA = m.tempA ∧ t.sv.tempB = m.tempB ∧ t.sv.presentRaw = m.presentRaw ∧
    t.meter.samples = inputMw (getChan s 32) :: s.meter.samples ∧ t.meter.microJ = (s.meter.microJ + inputMw (getChan s 32)) % 1000000 ∧
    t.chans = s.chans) ∧
  (∀ (s : State) (m : Telemetry) (e : ChanId) (x : ChanSample), s.sv.feedA = true ∨ s.sv.feedB = true → m.chans = [(e, x)] →
    conducting (getChan s e.val) = false → ∃ t, exec (.telemetrySample m) s = .next t ∧
    (getChan t e.val).tel = x ∧ (getChan t e.val).hot = ((getChan s e.val).hot && !cooled x.temp (chOtLimit s e.val)) ∧
    (getChan t e.val).state = (getChan s e.val).state ∧ (∀ i, i ≠ e.val → getChan t i = getChan s i))

/-- What the power meter and its cap do. A 100 ms window gives AVG and PEAK of its samples; with a cap set on a running device THROTTLE rises by
one step, to 7 at most, when the window's power exceeds it, and the windows below 95 % of the cap and those above it at step 7 are counted;
ten of the first kind lower THROTTLE by one, a hundred of the second raise QOS_POWER_CAP. -/
def Obligations.InputPower : Prop :=
  (∀ s : State, s.meter.samples ≠ [] → powerCap s = 0 ∨ running s = false → exec .powerWindow s =
    .next { s with meter := { s.meter with
      samples := [],
      avg := BitVec.ofNat 16 (min (s.meter.samples.foldl (· + ·) 0 / s.meter.samples.length / 100) 65535),
      peak := BitVec.ofNat 16 (min (s.meter.samples.foldl max 0 / 1000) 65535) } }) ∧
  (∀ s : State, s.meter.samples ≠ [] → powerCap s ≠ 0 → running s = true → ∃ t, exec .powerWindow s = .next t ∧
    t.meter.samples = [] ∧ t.meter.microJ = s.meter.microJ ∧
    t.meter.avg = BitVec.ofNat 16 (min (s.meter.samples.foldl (· + ·) 0 / s.meter.samples.length / 100) 65535) ∧
    t.meter.peak = BitVec.ofNat 16 (min (s.meter.samples.foldl max 0 / 1000) 65535) ∧
    t.meter.highWindows = (if 1000 * powerCap s < s.meter.samples.foldl (· + ·) 0 / s.meter.samples.length ∧ s.meter.throttle = 7
      then s.meter.highWindows + 1 else 0) ∧
    t.meter.throttle = (if 1000 * powerCap s < s.meter.samples.foldl (· + ·) 0 / s.meter.samples.length then min 7 (s.meter.throttle + 1)
      else s.meter.throttle) ∧
    t.meter.lowWindows = (if 100 * (s.meter.samples.foldl (· + ·) 0 / s.meter.samples.length) < 95 * (1000 * powerCap s)
      then s.meter.lowWindows + 1 else 0) ∧ t = { s with meter := t.meter }) ∧
  (∀ s : State, powerCap s ≠ 0 → 10 ≤ s.meter.lowWindows → exec .throttleDown s =
    .next { s with meter := { s.meter with throttle := s.meter.throttle - 1, lowWindows := 0 } }) ∧
  (∀ s : State, powerCap s ≠ 0 → 100 ≤ s.meter.highWindows → exec .powerCapExceeded s =
    .next (raiseTile 0 .qosPowerCap (s.meter.avg.toNat / 10) { s with meter := { s.meter with highWindows := 0 } }))

/-- What the SV–T0 link commands do. On a link that is up a frame with the right CRC-16 is accepted, which takes it out of its sender's queue,
and a damaged one changes nothing; a resend of a frame that waits for its acknowledgement is counted for either side, and with no frame
waiting nothing is sent again; the sixteenth send of a frame of T0, and 1 ms without a frame, declare the link down, which raises
SV_LINK_LOST. An idle frame joins SV's frames; a failed retrain is counted, and a successful one brings the link up and submits the held
records in their order. -/
def Obligations.SvLinkCommands : Prop :=
  (∀ (s : State) (p : Bytes), s.link.down = false → exec (.svLinkFrame true p (crc16 p)) s =
    .next { s with link := { s.link with gotSv := s.link.gotSv + 1, toSv := s.link.toSv.drop 1, sendsT0 := min 1 (s.link.toSv.drop 1).length } }) ∧
  (∀ (s : State) (p : Bytes), s.link.down = false → exec (.svLinkFrame false p (crc16 p)) s = .next { s with link := { s.link with
    gotT0 := s.link.gotT0 + 1, stale := false, toT0 := s.link.toT0.drop 1, sendsSv := min 1 (s.link.toT0.drop 1).length } }) ∧
  (∀ (s : State) (b : Bool) (p : Bytes) (c : BitVec 16), c ≠ crc16 p → exec (.svLinkFrame b p c) s = .next s) ∧
  (∀ s : State, s.link.down = false → s.link.toT0 ≠ [] → exec (.svLinkResend true) s =
    .next { s with link := { s.link with sendsSv := s.link.sendsSv + 1 } }) ∧
  (∀ s : State, s.link.down = false → s.link.toSv ≠ [] → s.link.sendsT0 < 15 → exec (.svLinkResend false) s =
    .next { s with link := { s.link with sendsT0 := s.link.sendsT0 + 1 } }) ∧
  (∀ s : State, s.link.down = false → s.link.toSv ≠ [] → s.link.sendsT0 = 15 → exec (.svLinkResend false) s =
    .next (raiseTile 0 .svLinkLost 16 { s with link := { s.link with
      sendsT0 := 16, down := true, stale := true, attempts := 0, toSv := [], toT0 := [] } })) ∧
  (∀ s : State, s.link.toT0 = [] → s.link.toSv = [] → exec (.svLinkResend true) s = .next s ∧ exec (.svLinkResend false) s = .next s) ∧
  (∀ s : State, s.link.down = false → exec .svLinkIdleFrame s = .next { s with link := { s.link with
    idle := s.link.idle + 1, toT0 := s.link.toT0 ++ [idleFrame], sendsSv := if s.link.toT0.isEmpty then 1 else s.link.sendsSv } }) ∧
  (∀ s : State, s.link.down = false → exec .svLinkDown s = .next (raiseTile 0 .svLinkLost s.link.sendsT0
    { s with link := { s.link with down := true, stale := true, attempts := 0, toSv := [], toT0 := [] } })) ∧
  (∀ s : State, s.link.down = true → exec (.svLinkRetrain false) s = .next { s with link := { s.link with attempts := s.link.attempts + 1 } }) ∧
  (∀ s : State, s.link.down = true → s.link.heldDropped = 0 → ∃ t, exec (.svLinkRetrain true) s = .next t ∧
    t.link = { s.link with down := false, stale := false, attempts := 0, sendsT0 := 0, sendsSv := 0, held := [], heldDropped := 0 } ∧
    t.log = s.link.held.foldl (fun l r => logAccept s.time.now r.1 r.2.1 r.2.2.1 r.2.2.2 l) s.log ∧ t.faults = s.faults)

/-- How SV takes a log record. With no drop left to report, a record of a listed type that finds room in the queue of 64 takes NEXT_SEQ and
joins the queue's end; NEXT_SEQ rises by one; no record that waits and no cell is changed. With the queue full a record is dropped and
counted, except a Midnight record, which displaces the newest, then counted. -/
def Obligations.LogRecordAccepted : Prop :=
  ∀ (now : Nat) (typ origin : Byte) (source : BitVec 16) (payload : Bytes) (l : LogStore), typ ∈ recordTypes → l.dropped = 0 →
    (l.queue.length < 64 →
      (logAccept now typ origin source payload l).queue = l.queue ++ [⟨l.nextSeq, typ, origin, source, BitVec.ofNat 64 now, payload⟩] ∧
      (logAccept now typ origin source payload l).nextSeq = l.nextSeq + 1 ∧ (logAccept now typ origin source payload l).lost = l.lost ∧
      (logAccept now typ origin source payload l).cells = l.cells) ∧
    (64 ≤ l.queue.length → typ ≠ 0x30#8 → logAccept now typ origin source payload l = dropOne l) ∧
    (64 ≤ l.queue.length → typ = 0x30#8 →
      (logAccept now typ origin source payload l).queue = l.queue.dropLast ++ [⟨l.nextSeq, typ, origin, source, BitVec.ofNat 64 now, payload⟩] ∧
      (logAccept now typ origin source payload l).dropped = 1 ∧ (logAccept now typ origin source payload l).lost = satAdd l.lost 1 65535)

/-- What the log store commands do. A record of SV's own is submitted at once; a tile's goes through the primary while that runs: with the SV–T0
link up it is submitted and its frame joins T0's unacknowledged frames, with the link down it is held where fewer than 256 are and counted
as dropped else. A verified write programs the record at the ring's position, advances the ring, takes the record off the queue and clears
the tries, and where no ring becomes worn by it does nothing more than count and, for a clear event, answer; a failed one keeps the record
at the front, counts the try, retires the position's page and takes one free value. While a hint is being written no record is. A verified
hint write programs its position and moves to the next of four; a failed one moves to the next and is retried once, and a second failure
turns the hint off and raises LS_HINT_FAIL; a hint that falls due while one is written is written after it. The end of the power-up path
increments the power-on count, starts a hint and answers the log commands that were held; records queued during a full scan take their SEQ
after the highest that it found, which is the model's reading (log 9), as is the content of a failed cell (log 7). -/
def Obligations.LogCommands : Prop :=
  (∀ (s : State) (typ origin : Byte) (source : BitVec 16) (p : Bytes), s.rst.por = false → origin.getLsbD 3 = true →
    exec (.logRecordSubmit typ origin source p) s = .next (logSubmit typ origin source p s)) ∧
  (∀ (s : State) (typ origin : Byte) (source : BitVec 16) (p : Bytes), s.rst.por = false → origin.getLsbD 3 = false → primaryRuns s = true →
    s.link.down = false → exec (.logRecordSubmit typ origin source p) s = .next (logSubmit typ origin source p { s with link := { s.link with
      toSv := s.link.toSv ++ [[typ, origin] ++ leBytes 2 source.toNat ++ p], sendsT0 := if s.link.toSv.isEmpty then 1 else s.link.sendsT0 } })) ∧
  (∀ (s : State) (typ origin : Byte) (source : BitVec 16) (p : Bytes), s.rst.por = false → origin.getLsbD 3 = false → primaryRuns s = true →
    s.link.down = true → s.link.held.length < 256 → exec (.logRecordSubmit typ origin source p) s =
    .next { s with link := { s.link with held := s.link.held ++ [(typ, origin, source, p)] } }) ∧
  (∀ (s : State) (typ origin : Byte) (source : BitVec 16) (p : Bytes), s.rst.por = false → origin.getLsbD 3 = false → primaryRuns s = true →
    s.link.down = true → 256 ≤ s.link.held.length → exec (.logRecordSubmit typ origin source p) s =
    .next { s with link := { s.link with heldDropped := s.link.heldDropped + 1 } }) ∧
  (∀ (s : State) (r : LogRec) (q : List LogRec) (g : Nat) (l : LogStore), s.log.starting = false → s.rst.por = false → s.log.hintBusy = none →
    s.log.queue = r :: q → writeRing s.log (ringOf r.typ) = some g →
    l = advanceRing g r.seq (setCells (posCell (ringPtr s.log g).page (ringPtr s.log g).pos) (recordBytes (splitVal s.log 4) r) s.log) →
    (∃ t, exec (.logRecordWriteDone true) s = .next t ∧ q.take 63 <+: t.log.queue ∧ t.log.tries = 0 ∧ t.log.cells = l.cells ∧ t.log.ptrs = l.ptrs ∧
      t.log.retired = l.retired) ∧
    ((∀ k, k < 4 → s.log.worn.getLsbD k = ringWorn l k) → s.log.dropped = 0 → exec (.logRecordWriteDone true) s =
      .next (clearDone r.typ .success (addCnt (svCnt 1) 1 { s with log := { l with queue := q, tries := 0 } })))) ∧
  (∀ (l : LogStore) (g : Nat) (seq : W32), (nextPtr l g (ringPtr l g).page (ringPtr l g).pos).2.2 = false → advanceRing g seq l =
    { l with
      ptrs := Table.insert g ⟨(nextPtr l g (ringPtr l g).page (ringPtr l g).pos).1, (nextPtr l g (ringPtr l g).page (ringPtr l g).pos).2.1, seq⟩
        (Table.drop l.ptrs g) }) ∧
  (∀ (s : State) (r : LogRec) (q : List LogRec) (g : Nat), s.log.starting = false → s.rst.por = false → s.log.hintBusy = none → s.log.queue = r :: q →
    writeRing s.log (ringOf r.typ) = some g → s.log.tries < 3 → ∃ t, exec (.logRecordWriteDone false) s = .next t ∧
    t.log.queue.head? = some r ∧ t.log.tries = s.log.tries + 1 ∧ (ringPtr s.log g).page ∈ t.log.retired ∧ t.free = s.free + 1) ∧
  (∀ (s : State) (v : Bool), s.log.hintBusy.isSome = true → exec (.logRecordWriteDone v) s = .next s) ∧
  (∀ (s : State) (o : Option Bytes), s.log.hintBusy = some o → exec (.logHintWriteDone true) s =
    .next (addCnt (svCnt 3) 1 { s with
      log := nextHint { setCells (posCell 0 s.log.hintPos) (o.getD (hintBytes s.log)) s.log with hintPos := (s.log.hintPos + 1) % 4 } })) ∧
  (∀ (s : State) (l : LogStore),
    l = (List.range 4).foldl (fun l j => setCell (posCell 0 s.log.hintPos + j) (Config.failedCell s.free (posCell 0 s.log.hintPos + j)) l) s.log →
    (s.log.hintBusy = some none → exec (.logHintWriteDone false) s = .next { s with free := s.free + 1, log := { l with
      hintPos := (s.log.hintPos + 1) % 4, hintBusy := some (some (hintBytes s.log)) } }) ∧
    (∀ b : Bytes, s.log.hintBusy = some (some b) → exec (.logHintWriteDone false) s = .next (raiseSv .lsHintFail s.log.hintPos { s with
      free := s.free + 1, log := { l with hintPos := (s.log.hintPos + 1) % 4, hintBusy := none, hintDue := 0, hintOff := true } }))) ∧
  (∀ l : LogStore, l.hintOff = false →
    (l.hintBusy = none → startHint l = { l with hintBusy := some none }) ∧
    (l.hintBusy ≠ none → startHint l = { l with hintDue := l.hintDue + 1 }) ∧
    (l.hintDue = 0 → nextHint l = { l with hintBusy := none }) ∧
    (l.hintDue ≠ 0 → nextHint l = { l with hintBusy := some none, hintDue := l.hintDue - 1 })) ∧
  (∀ s : State, s.log.starting = true → s.log.scanning = false → exec .logScanDone s =
    .next (answerHeld { s with log := startHint (splitInc 4 { s.log with scanning := false, starting := false }) })) ∧
  (∀ s : State, s.log.starting = true → s.log.scanning = true → exec .logScanDone s =
    .next (answerHeld { s with log := startHint (splitInc 4 { s.log with
      scanning := false, starting := false, ptrs := (fullScan s.log).1, nextSeq := (fullScan s.log).2 + s.log.nextSeq,
      queue := s.log.queue.map (fun r => { r with seq := r.seq + (fullScan s.log).2 }) }) })) ∧
  (∀ s : State, (s.host.logHeld = [] → answerHeld s = s) ∧
    (∀ (f : Fn) (q : LogAsk), s.host.logHeld = [(f, q)] → mbUp s f = true → answerHeld s = logAnswer f q { s with host := { s.host with logHeld := [] } }))

/-- What a raise does. A raise of a source that is absent, disabled or already set changes nothing. Any other sets that source's status bit and
no other, and takes the step-1 action of its class: NOTE none, SERVICE a replace request, QUIESCE a replace request and a grace window,
FATAL the alarm. -/
def Obligations.RaiseOfASource : Prop :=
  ∀ (s : State) (src : Nat) (c : FaultCtx) (a : AlarmCtx), src < 1024 →
    (srcPresent (tiles s) src = false ∨ s.faults.en.getLsbD src = false ∨ s.faults.sts.getLsbD src = true → raiseWith src c a s = s) ∧
    (srcPresent (tiles s) src = true → s.faults.en.getLsbD src = true → s.faults.sts.getLsbD src = false →
      (raiseWith src c a s).faults.sts.getLsbD src = true ∧
      (∀ i, i ≠ src → (raiseWith src c a s).faults.sts.getLsbD i = s.faults.sts.getLsbD i) ∧
      (raiseWith src c a s).faults.pend = pendRaise src c s.faults.pend ∧ (raiseWith src c a s).faults.en = s.faults.en ∧
      (faultClass s src = 0 → raiseWith src c a s =
        { s with faults := { s.faults with sts := setBit s.faults.sts src true, pend := pendRaise src c s.faults.pend } }) ∧
      (faultClass s src = 1 ∨ faultClass s src = 2 → (raiseWith src c a s).faults.rr = true ∧
        (raiseWith src c a s).faults.rrSource = (if s.faults.rr then s.faults.rrSource else src) ∧
        (raiseWith src c a s).faults.midnight = s.faults.midnight ∧ (raiseWith src c a s).cry = s.cry) ∧
      (faultClass s src = 2 → s.faults.midnight = false → (raiseWith src c a s).faults.grace = s.faults.grace ++ [src]) ∧
      (3 ≤ faultClass s src → (raiseWith src c a s).faults.midnight = true ∧ (raiseWith src c a s).faults.rr = s.faults.rr))

/-- A force is one raise with fixed context. FAULT_FORCE with one bit set raises that source once, with DPA 0, head 0xFF, source kind 0b11 and
detail 0xFFFF_FFFF; the bits of fixed sources and of absent tiles are discarded; forcing a source whose class is FATAL causes Midnight;
forcing the loss of a sub-channel, a link or a group starts an admission evaluation as the raise does; a head without management rights
forces nothing. -/
def Obligations.ForceIsARaise : Prop :=
  (∀ (s : State) (a : Agent) (g i : Fin 32), hasRights s a = true → running s = true → srcFixed (32 * g.val + i.val) = false →
    960 ≤ 32 * g.val + i.val ∨ (32 * g.val + i.val) % 120 ∉ [13, 18, 24] →
    exec (.faultForce a g (1#32 <<< i.val)) s = .next (raiseWith (32 * g.val + i.val) ⟨0#64, 0xFF#8, 3#8, 0xFFFFFFFF#32⟩ {} s)) ∧
  (∀ (s : State) (a : Agent) (g i : Fin 32), hasRights s a = true → running s = true → srcFixed (32 * g.val + i.val) = false → dawnDone s = true →
    32 * g.val + i.val < 960 → (32 * g.val + i.val) % 120 ∈ [13, 18, 24] → srcPresent (tiles s) (32 * g.val + i.val) = true →
    s.faults.en.getLsbD (32 * g.val + i.val) = true → faultClass s (32 * g.val + i.val) < 3 → s.faults.midnight = false →
    ∃ t, exec (.faultForce a g (1#32 <<< i.val)) s = .next t ∧
    t.faults = (raiseWith (32 * g.val + i.val) ⟨0#64, 0xFF#8, 3#8, 0xFFFFFFFF#32⟩ {} s).faults ∧ t.qos.busy = some (32 * g.val + i.val)) ∧
  (∀ (s : State) (a : Agent) (g i : Fin 32), srcFixed (32 * g.val + i.val) = true ∨ srcPresent (tiles s) (32 * g.val + i.val) = false →
    exec (.faultForce a g (1#32 <<< i.val)) s = .next s) ∧
  (∀ (s : State) (a : Agent) (g i : Fin 32), hasRights s a = true → running s = true → srcFixed (32 * g.val + i.val) = false →
    srcPresent (tiles s) (32 * g.val + i.val) = true → s.faults.en.getLsbD (32 * g.val + i.val) = true →
    s.faults.sts.getLsbD (32 * g.val + i.val) = false → faultClass s (32 * g.val + i.val) = 3 →
    ∃ t, exec (.faultForce a g (1#32 <<< i.val)) s = .next t ∧ t.faults.midnight = true) ∧
  (∀ (s : State) (a : Agent) (g : Fin 32) (v : W32), hasRights s a = false → exec (.faultForce a g v) s = .next s)

/-- What the fault collector commands do. A write of 1 clears the status bit and ends its grace window; an expired grace window of a source
still set starts the quiesce and queues its step-2 entry; a quiesce with nothing in flight completes; a late one raises FC_QUIESCE_LATE with
a step-3 entry; the primary takes the first pending entry, where that is the next to be served, and submits its record; a verification that
passes leaves no trace, and one that fails is an alarm. -/
def Obligations.FaultCommands : Prop :=
  (∀ (s : State) (a : Agent) (g : Fin 32) (v : W32), hasRights s a = true → running s = true → exec (.faultStsClear a g v 0#32) s =
    .next { s with faults := { s.faults with
      sts := setGroup s.faults.sts g.val (groupOf s.faults.sts g.val &&& ~~~v),
      grace := s.faults.grace.filter (fun x => ¬(x / 32 = g.val ∧ v.getLsbD (x % 32))) } }) ∧
  (∀ (s : State) (a : Agent) (g : Fin 32) (v : W32), hasRights s a = false → exec (.faultStsClear a g v 0#32) s = .next s) ∧
  (∀ (s : State) (x : SourceId), x.val ∈ s.faults.grace → s.faults.sts.getLsbD x.val = true → s.faults.midnight = false → quiesced s = false →
    exec (.graceWindowExpiry x) s = .next { s with faults := { s.faults with
      grace := s.faults.grace.filter (· ≠ x.val), pend := pendInsert ⟨x.val, 2, {}, 0⟩ s.faults.pend, quiescing := true, qSource := x.val } }) ∧
  (∀ (s : State) (x : SourceId), x.val ∈ s.faults.grace → s.faults.sts.getLsbD x.val = false → exec (.graceWindowExpiry x) s =
    .next { s with faults := { s.faults with grace := s.faults.grace.filter (· ≠ x.val) } }) ∧
  (∀ s : State, s.faults.quiescing = true → s.faults.midnight = false → s.ha.txns = [] → s.nc.trks = [] → s.job.parts = [] → s.fab.req = [] →
    s.ha.lq = [] → s.ha.allocQ = [] → exec .quiesceComplete s =
    .next { s with faults := { s.faults with quiescing := false, quiesced := true } }) ∧
  (∀ s : State, s.faults.quiescing = true → s.faults.midnight = false → exec .quiesceLate s =
    .next (raiseSv .quiesceLate s.faults.qSource { s with faults := { s.faults with pend := pendInsert ⟨s.faults.qSource, 3, {}, 0⟩ s.faults.pend } })) ∧
  (∀ (s : State) (p : PendFault) (l : List PendFault), primaryRuns s = true → s.faults.pend = p :: l → nextPend s = some p → faultClass s p.src = 0 →
    s.faults.rr = false → exec .faultRecordWrite s =
    .next (primaryLog 0x10#8 (BitVec.ofNat 8 (if p.src < 960 then p.src / 120 else 0)) (BitVec.ofNat 16 p.src) (faultPayload 0 p)
      { s with faults := { s.faults with pend := s.faults.pend.filter (fun q => ¬(q.src = p.src ∧ q.step = p.step)) } })) ∧
  (∀ (s : State) (t : TileId) (v : Verif) (l : List Verif), s.cry.verifs = v :: l → v.tile = t.val → v.badLevel = none → v.tagOk = true →
    exec (.verifyComplete t) s = .next { s with cry := { s.cry with verifs := l } }) ∧
  (∀ (s : State) (t : TileId) (v : Verif) (l : List Verif), s.cry.verifs = v :: l → v.tile = t.val → v.badLevel = none → v.tagOk = false →
    exec (.verifyComplete t) s = .next (raiseWith (tileSrc t.val .cryTagFail) ⟨BitVec.ofNat 64 v.addr, 0xFF#8, 0xFF#8, BitVec.ofNat 32 v.region⟩
      ⟨v.region, BitVec.ofNat 64 v.addr, if v.isSa then 1 else 0⟩ { s with cry := { s.cry with verifs := l } }))

/-- What the counter and window commands do. A read of a counter's low half returns it and latches bits 47 to 32 for that head's next read of
the high half, which returns what was latched; a listed counter the reader may read, of a tile that cannot be reached, returns no data (a
Completer Abort) and latches nothing; a window boundary latches each accumulator as MB/s and restarts it; a CNT_WIN_CFG write makes the
running window be discarded, which then latches nothing. -/
def Obligations.CounterCommands : Prop :=
  (∀ (s : State) (h : PortId) (ld : LdId) (off : BitVec 27) (k : Nat), isHead s h.val = true → (getPort s h.val).up = true →
    cntAt off.toNat = some (k, false) → cntAborts s h.val ld.val k = false → ∃ t, exec (.counterLowRead h ld off) s = .next t ∧
    Table.get none t.cnt.latch h.val = some (k, BitVec.ofNat 16 ((readCnt s h.val ld.val k).toNat >>> 32)) ∧
    (getFn t (fnKey h.val ld.val false)).readData = some (BitVec.ofNat 64 ((readCnt s h.val ld.val k).toNat % 2 ^ 32)) ∧
    t.cnt.cnt = s.cnt.cnt ∧ (∀ g, g ≠ h.val → Table.get none t.cnt.latch g = Table.get none s.cnt.latch g)) ∧
  (∀ (s : State) (h : PortId) (ld : LdId) (off : BitVec 27) (k : Nat) (x : BitVec 16), isHead s h.val = true → (getPort s h.val).up = true →
    cntAt off.toNat = some (k, true) → cntAborts s h.val ld.val k = false → Table.get none s.cnt.latch h.val = some (k, x) → ∃ t, exec (.counterLowRead h ld off) s = .next t ∧
    Table.get none t.cnt.latch h.val = none ∧ (getFn t (fnKey h.val ld.val false)).readData = some (x.zeroExtend 64) ∧ t.cnt.cnt = s.cnt.cnt) ∧
  (∀ (s : State) (h : PortId) (ld : LdId) (off : BitVec 27) (k : Nat) (hi : Bool), isHead s h.val = true → (getPort s h.val).up = true →
    cntAt off.toNat = some (k, hi) → cntAborts s h.val ld.val k = true → ∃ t, exec (.counterLowRead h ld off) s = .next t ∧
    (getFn t (fnKey h.val ld.val false)).readData = none ∧ t.cnt = s.cnt) ∧
  (∀ (s : State) (t : TileId), tileRuns s t.val = true → bit (regRaw s .cntWinCfg t.val) 31 = true → s.cnt.discard.getLsbD t.val = false →
    ∃ u, exec (.windowBoundary t) s = .next u ∧
    (∀ k, k ∈ windowKeys t.val → Table.get 0 u.cnt.acc k = 0 ∧
      Table.get 0#32 u.cnt.bw k = BitVec.ofNat 32 (mbps (Table.get 0 s.cnt.acc k) (windowMs s t.val))) ∧
    (∀ k, k ∉ windowKeys t.val → Table.get 0 u.cnt.acc k = Table.get 0 s.cnt.acc k ∧ Table.get 0#32 u.cnt.bw k = Table.get 0#32 s.cnt.bw k) ∧
    Table.get 0#32 u.cnt.latches t.val = Table.get 0#32 s.cnt.latches t.val + 1 ∧ u.cnt.cnt = s.cnt.cnt ∧ u = { s with cnt := u.cnt }) ∧
  (∀ (s : State) (t : TileId), tileRuns s t.val = true → bit (regRaw s .cntWinCfg t.val) 31 = true → s.cnt.discard.getLsbD t.val = true →
    ∃ u, exec (.windowBoundary t) s = .next u ∧ (∀ k, k ∈ windowKeys t.val → Table.get 0 u.cnt.acc k = 0) ∧ u.cnt.bw = s.cnt.bw ∧
    u.cnt.latches = s.cnt.latches ∧ u = { s with cnt := u.cnt }) ∧
  (∀ (s : State) (a : Agent) (t : TileId) (v : W32), regOpen s a .cntWinCfg t.val = true → ∃ u, exec (.cntWinCfgWrite a t v) s = .next u ∧
    u.cnt.discard = setBit s.cnt.discard t.val true ∧
    regRaw u .cntWinCfg t.val = storeBits (regDesc .cntWinCfg) (locked s) (regRaw s .cntWinCfg t.val) v ∧
    u = { s with cnt := u.cnt, regs := u.regs }) ∧
  (∀ s : State, i3cUp s = true → exec .statusImageRefresh s =
    .next { s with i3c := { s.i3c with gen := s.i3c.gen + 1#32, image := statusImage s (s.i3c.gen + 1#32) } })

/-- What the I3C addressing and MCTP control commands do. A serving target without a dynamic address takes one by SETDASA to its static address
or by ENTDAA; one that has an address, or a SETDASA to another address, is not acknowledged; a mandatory common command is acknowledged, the
five that read a characteristic with its bytes, and RSTDAA drops the address. The list of mandatory codes is the model's, and the
characteristics are free values of the widths MIPI gives them (log 30). A serving target answers Set Endpoint ID with the new endpoint id,
or, for 0 and 0xFF, with a completion code that refuses it; Get Endpoint ID with the id in force; the version, message type and
vendor-defined message support as R416 lists them. A message of another type is discarded. The byte layouts are the model's, and UUID and
vendor id free values (log 30). -/
def Obligations.I3cAndMctp : Prop :=
  ((∀ (s : State) (t a : BitVec 7), i3cUp s = true → t.toNat = i3cStatic s → s.i3c.dyn = none → exec (.setdasa t a) s =
    .next { s with i3c := { s.i3c with dyn := some a, rsp := .ack } }) ∧
  (∀ (s : State) (t a : BitVec 7), t.toNat ≠ i3cStatic s ∨ s.i3c.dyn.isSome = true → exec (.setdasa t a) s =
    .next { s with i3c := { s.i3c with rsp := .none } }) ∧
  (∀ (s : State) (a : BitVec 7), i3cUp s = true → s.i3c.dyn = none → exec (.entdaa a) s =
    .next { s with i3c := { s.i3c with dyn := some a, rsp := .ack } }) ∧
  (∀ (s : State) (a : BitVec 7), s.i3c.dyn.isSome = true → exec (.entdaa a) s = .next { s with i3c := { s.i3c with rsp := .none } }) ∧
  (∀ s : State, i3cUp s = true → exec (.i3cMandatoryCcc 0x06#8) s = .next { s with i3c := { s.i3c with dyn := none, rsp := .ack } }) ∧
  (∀ (s : State) (c : Byte), i3cUp s = true → c.toNat ∈ [0x00, 0x01, 0x80, 0x81, 0x07, 0x2A, 0x9A] → exec (.i3cMandatoryCcc c) s =
    .next { s with i3c := { s.i3c with rsp := .ack } }) ∧
  (∀ (s : State) (c : Byte) (d : Bytes), i3cUp s = true → c ∈ [0x8D#8, 0x8E#8, 0x8F#8, 0x95#8] → cccData s c = some d → exec (.i3cMandatoryCcc c) s =
    .next { s with i3c := { s.i3c with rsp := .data d } }) ∧
  (∀ s : State, i3cUp s = true → exec (.i3cMandatoryCcc 0x90#8) s = .next { s with
    i3c := { s.i3c with rsp := .data (beBytes 2 (Config.i3cStatus s.free &&& 0xFFF0#16).toNat) }, free := s.free + 1 }) ∧
  (∀ s : State, (cccData s 0x8D#8).map (·.length) = some 6 ∧ (cccData s 0x8E#8).map (·.length) = some 1 ∧ (cccData s 0x8F#8).map (·.length) = some 1 ∧
    (cccData s 0x95#8).map (·.length) = some 4)) ∧
  (∀ s : State, i3cUp s = true →
    (∀ e : Byte, e ≠ 0#8 → e ≠ 0xFF#8 → exec (.setEndpointId e) s =
      .next { s with i3c := { s.i3c with eid := e, rsp := .control 1#8 [0#8, 0#8, e, 0#8] } }) ∧
    (∀ e : Byte, e = 0#8 ∨ e = 0xFF#8 → exec (.setEndpointId e) s = .next { s with i3c := { s.i3c with rsp := .control 1#8 [2#8] } }) ∧
    exec .getEndpointId s = .next { s with i3c := { s.i3c with rsp := .control 2#8 [0#8, s.i3c.eid, 0#8, 0#8] } } ∧
    exec .getEndpointUuid s =
      .next { s with i3c := { s.i3c with rsp := .control 3#8 (0#8 :: leBytes 16 (Config.endpointUuid s.fuse.serial).toNat) } } ∧
    (∀ m : Byte, m = 0xFF#8 ∨ m = 0#8 ∨ m = 0x7E#8 → exec (.getMctpVersionSupport m) s =
      .next { s with i3c := { s.i3c with rsp := .control 4#8 [0#8, 1#8, 0xF1#8, 0xF3#8, 0xF1#8, 0#8] } }) ∧
    (∀ m : Byte, m ≠ 0xFF#8 → m ≠ 0#8 → m ≠ 0x7E#8 → exec (.getMctpVersionSupport m) s =
      .next { s with i3c := { s.i3c with rsp := .control 4#8 [0x80#8] } }) ∧
    exec .getMessageTypeSupport s = .next { s with i3c := { s.i3c with rsp := .control 5#8 [0#8, 1#8, 0x7E#8] } } ∧
    exec (.getVendorDefinedMessageSupport 0#8) s =
      .next { s with i3c := { s.i3c with rsp := .control 6#8 ([0#8, 0xFF#8, 0#8] ++ beBytes 2 Config.vendorId.toNat ++ [0#8, 0#8]) } } ∧
    (∀ m : Byte, m ≠ 0#8 → exec (.getVendorDefinedMessageSupport m) s = .next { s with i3c := { s.i3c with rsp := .control 6#8 [2#8] } }) ∧
    (∀ m : Byte, exec (.mctpMessageDiscard m) s = .next { s with i3c := { s.i3c with rsp := .none } }))

/-- What the vendor-defined I3C commands answer. Get Status Image Info answers version, size and GEN; Read Status Image answers up to 48 bytes
of the image with the GEN they come from; a bad length, range or reserved byte, and a reserved command, are answered with their return
codes; a target that does not serve answers nothing. -/
def Obligations.StatusImageReads : Prop :=
  ∀ s : State,
    (i3cUp s = true → exec (.getStatusImageInfo 0#8) s = .next { s with i3c := { s.i3c with
      rsp := .vendor 1#8 0#8 (leBytes 2 1 ++ leBytes 2 0 ++ leBytes 4 896 ++ leBytes 4 s.i3c.gen.toNat) } }) ∧
    (∀ r : Byte, i3cUp s = true → r ≠ 0#8 → exec (.getStatusImageInfo r) s = .next { s with i3c := { s.i3c with rsp := .vendor 1#8 2#8 [] } }) ∧
    (∀ (o : W32) (n : BitVec 16), i3cUp s = true → 1 ≤ n.toNat → n.toNat ≤ 48 → o.toNat + n.toNat ≤ 896 → exec (.readStatusImage 0#8 o n) s =
      .next { s with i3c := { s.i3c with rsp := .vendor 2#8 0#8 (leBytes 4 s.i3c.gen.toNat ++ slice s.i3c.image o.toNat n.toNat) } }) ∧
    (∀ (r : Byte) (o : W32) (n : BitVec 16), i3cUp s = true → r ≠ 0#8 ∨ n.toNat = 0 ∨ 48 < n.toNat ∨ 896 < o.toNat + n.toNat →
      exec (.readStatusImage r o n) s = .next { s with i3c := { s.i3c with rsp := .vendor 2#8 2#8 [] } }) ∧
    (∀ c : Byte, i3cUp s = true → c ≠ 1#8 → c ≠ 2#8 → exec (.i3cReservedCommand c) s =
      .next { s with i3c := { s.i3c with rsp := .vendor c 1#8 [] } }) ∧
    (i3cUp s = false → exec (.getStatusImageInfo 0#8) s = .next { s with i3c := { s.i3c with rsp := .none } })

/-- What link training commands do. A trained link of a live head takes the rate, width and flit mode it trained at; BI is on for an SLD head
with 256 B flits only; an SLD head with 68 B flits, and an MLD head without a switch, log a warning; a link below what its head was admitted
at starts a re-evaluation; a failed negotiation stays in Detect, is logged and raises HP_NEG_FAIL; a head is marked ready; PERST_N released
starts training of a live head; a link that enters Recovery is counted. -/
def Obligations.HostLinkTraining : Prop :=
  (∀ (s : State) (h : PortId) (r : Rate) (w : Nat) (f : FlitMode) (sw : Bool), headLive s h.val = true → (getPort s h.val).up = false →
    (getPort s h.val).perst = false → (getPort s h.val).midnightStop = false → flitOk r f = true → widthOk s h.val w = true →
    Table.get (0, 0) s.qos.links h.val = (0, 0) →
    (isMld s h.val = false → f ≠ .f68 → exec (.linkUp h r w f sw) s = .next (onPort h.val (fun p => { p with
      up := true, rate := r, width := w, flit := f, bi := true, training := false, detect := false, asSld := false }) s)) ∧
    (isMld s h.val = false → f = .f68 → exec (.linkUp h r w f sw) s = .next (eventHead h.val ⟨.warning, .biOff⟩ (onPort h.val (fun p => { p with
      up := true, rate := r, width := w, flit := f, bi := false, training := false, detect := false, asSld := false }) s))) ∧
    (isMld s h.val = true → sw = true → exec (.linkUp h r w f sw) s = .next (onPort h.val (fun p => { p with
      up := true, rate := r, width := w, flit := f, bi := false, training := false, detect := false, asSld := false }) s)) ∧
    (isMld s h.val = true → sw = false → exec (.linkUp h r w f sw) s = .next (eventHead h.val ⟨.warning, .mldWithoutSwitch⟩ (onPort h.val (fun p =>
      { p with up := true, rate := r, width := w, flit := f, bi := false, training := false, detect := false, asSld := true }) s)))) ∧
  (∀ (s : State) (h : PortId) (r : Rate) (w : Nat) (f : FlitMode) (sw : Bool), headLive s h.val = true → (getPort s h.val).up = false →
    (getPort s h.val).perst = false → (getPort s h.val).midnightStop = false → flitOk r f = true → widthOk s h.val w = true →
    w < (Table.get (0, 0) s.qos.links h.val).1 → isMld s h.val = false → f ≠ .f68 → exec (.linkUp h r w f sw) s =
    .next (reevaluate 0xFFFF (onPort h.val (fun p => { p with
      up := true, rate := r, width := w, flit := f, bi := true, training := false, detect := false, asSld := false }) s))) ∧
  (∀ (s : State) (h : PortId), headLive s h.val = true → (getPort s h.val).up = false → (getPort s h.val).perst = false →
    exec (.cxlNegotiationFail h) s = .next (raiseTile (portTile h.val) .hpNegFail h.val (eventHead h.val ⟨.warning, .negotiationFailed⟩
      (onPort h.val (fun p => { p with detect := true, training := false }) s)))) ∧
  (∀ (s : State) (h : PortId), headLive s h.val = true → primaryRuns s = true → (getPort s h.val).up = true →
    exec (.headReady h) s = .next (onPort h.val (fun p => { p with ready := true }) s)) ∧
  (∀ (s : State) (p : PortId), (getPort s p.val).perst = true → running s = true → midnight s = false →
    exec (.perstNRelease p) s = .next (onPort p.val (fun x => { x with perst := false, training := headLive s p.val })
      { s with rst := { s.rst with perstLow := setBit s.rst.perstLow p.val false } })) ∧
  (∀ (s : State) (h : PortId), headLive s h.val = true → (getPort s h.val).up = true →
    exec (.linkEntryToRecovery h) s = .next (addCnt (portCnt h.val 11) 1 s))

/-- What resets of a head do. Hot Reset, Link Disable, a secondary bus reset and a surprise link-down of a live link, and PERST_N of a head that
is ready or once Dawn has completed, have one effect, that of R52; a surprise link-down raises HP_LINK_DOWN besides; PERST_N before that
only holds the link down; its level is kept for every port. A configuration request is answered with RRS until the head is ready, then with
the value the function holds or, of an LD the head does not have, with Unsupported Request; no function has MSI, MSI-X or an interrupt pin,
and Mem_Active is what Dawn set; a write of a base address register is kept above its window (the model's, log 117). -/
def Obligations.HeadResets : Prop :=
  (∀ (s : State) (h : PortId), headLive s h.val = true → (getPort s h.val).up = true →
    exec (.hotReset h) s = .next (linkReset h.val true s) ∧ exec (.linkDisable h) s = .next (linkReset h.val true s) ∧
    exec (.secondaryBusReset h) s = .next (linkReset h.val true s) ∧
    exec (.surpriseLinkDown h) s = .next (raiseTile (portTile h.val) .hpLinkDown h.val (linkReset h.val true s))) ∧
  (∀ (s : State) (p : PortId), running s = true → midnight s = false → isHead s p.val = true →
    (getPort s p.val).ready = true ∨ dawnDone s = true → exec (.perstNAssert p) s =
    .next (linkReset p.val false (onPort p.val (fun x => { x with perst := true })
      (perstSeen p.val { s with rst := { s.rst with perstLow := setBit s.rst.perstLow p.val true } })))) ∧
  (∀ (s : State) (p : PortId), running s = true → midnight s = false → isHead s p.val = true →
    (getPort s p.val).ready = false → dawnDone s = false → exec (.perstNAssert p) s =
    .next (onPort p.val (fun x => { x with up := false, rate := .down, width := 0, flit := .none, bi := false, training := false })
      (onPort p.val (fun x => { x with perst := true })
        (perstSeen p.val { s with rst := { s.rst with perstLow := setBit s.rst.perstLow p.val true } })))) ∧
  (∀ (s : State) (p : PortId), running s = false → exec (.perstNAssert p) s =
    .next { s with rst := { s.rst with perstLow := setBit s.rst.perstLow p.val true } }) ∧
  (∀ (s : State) (h : PortId) (ld : LdId) (q : CfgReq), headLive s h.val = true → (getPort s h.val).up = true →
    ((getPort s h.val).ready = false → exec (.configurationRequest h ld q) s =
      .next { s with host := { s.host with sent := (h.val, .rrs) :: s.host.sent } }) ∧
    ((getPort s h.val).ready = true → ld.val < ldCount s h.val → exec (.configurationRequest h ld q) s =
      .next (send h.val (.cfgCpl (cfgValue s h.val ld.val q)) (cfgWrite h.val ld.val q s))) ∧
    ((∀ i v, q ≠ .setBar i v) → cfgWrite h.val ld.val q s = s) ∧
    (∀ v : W32, cfgValue (cfgWrite h.val ld.val (.setBar 0 v) s) h.val ld.val (.bar 0) = some ((v &&& 0xF8000000#32) ||| 4#32).toNat) ∧
    ((getPort s h.val).ready = true → ldCount s h.val ≤ ld.val → exec (.configurationRequest h ld q) s =
      .next { s with host := { s.host with sent := (h.val, .cpl .unsupported 0#64) :: s.host.sent } })) ∧
  (∀ (s : State) (h ld : Nat), cfgValue s h ld (.capability .msi) = some 0 ∧ cfgValue s h ld (.capability .msix) = some 0 ∧
    cfgValue s h ld .interruptPin = some 0 ∧ cfgValue s h ld .memActive = some (if s.dawn.memActive then 1 else 0))

/-- The effect of a link reset on an idle head. With no message, transaction, range operation or finished job access under way, the effect of
R52 takes the head's link down, drops its readiness, its BI channel and its decoders, keeps its functions' event records and alert
configuration, ends its sessions, and leaves every other port and function, the address map, the near caches' slots, media and the power
path as they were. -/
def Obligations.LinkResetEffect : Prop :=
  ∀ (s : State) (h : Nat) (train : Bool), s.fab = { modules := s.fab.modules, reqTurn := s.fab.reqTurn } → s.ha.txns = [] → s.job.done = [] → s.nc.range = [] →
    (h ≠ mgmtHead s ∨ s.flash.busy = none) → Table.wf {} s.host.fns = true →
    getPort (linkReset h train s) h = { getPort s h with
      up := false, rate := .down, width := 0, flit := .none, bi := false, asSld := false, ready := false, training := train } ∧
    (∀ p, p ≠ h → getPort (linkReset h train s) p = getPort s p) ∧
    (∀ k, k / 32 = h → getFn (linkReset h train s) k =
      { events := (getFn s k).events, evOver := (getFn s k).evOver, alerts := (getFn s k).alerts }) ∧
    (∀ k, k / 32 ≠ h → getFn (linkReset h train s) k = getFn s k) ∧
    (linkReset h train s).map = s.map ∧ (linkReset h train s).nc.slots = s.nc.slots ∧ (linkReset h train s).dram = s.dram ∧
    (linkReset h train s).nvm = s.nvm ∧ (linkReset h train s).sv = s.sv ∧ (linkReset h train s).chans = s.chans ∧ (linkReset h train s).log = s.log ∧
    (linkReset h train s).cry = s.cry ∧ (linkReset h train s).regs = s.regs ∧ (linkReset h train s).tier = s.tier

/-- The DPA of an HPA that hits a committed decoder. For an HPA that hits a decoder with HPA base B, DPA base D, g the logarithm of the
granularity and w that of the ways, the DPA is D plus the offset with the w interleave bits above bit g taken out; the interleave position
the HPA falls in is not checked. -/
def Obligations.DecoderTranslation : Prop :=
  ∀ (d : Decoder) (hpa g w : Nat), d.gran = 2 ^ g → d.ways = 2 ^ w → d.base ≤ hpa → hpa < d.base + d.size →
    decodeHpa d hpa = some (d.dpa + (((hpa - d.base) >>> (g + w)) <<< g) + ((hpa - d.base) &&& ((1 <<< g) - 1)))

/-- What CXL.mem reads, MemInv and MemClnEvct do at their port. A request of a live link whose HPA decodes to a line of its view, which meets no
data error, joins its head's hold queue with its attributes and leaves it where it can: MemRd and MemInv with their host kinds, MemRdData
with host kind 1, MemClnEvct as HostCE. A MemRd that meets a data error fails at the port; one that hits no decoder is answered with poison,
counted and logged as a failure. What a request that hits no decoder logs, and that MetaField No-Op counts as I, is the model's choice (log
52, 53). -/
def Obligations.CxlMemReads : Prop :=
  (∀ (s : State) (a : MemAddr) (mv : Mv) (dpa : Nat) (r : Region) (v : View), headLive s a.head.val = true → (getPort s a.head.val).up = true → (getHold s a.head.val).length < 256 → hpaToDpa s (fnKey a.head.val a.ld.val false) a.hpa.toNat = some dpa → regionAt s dpa = some r → viewOf s a.head.val a.ld.val r.idx = some v →
    ingressErr s a.head.val a.ld.val dpa = false → 
    exec (.memRd a mv) s = .next (settle (holdReq a.head.val ⟨.hostRd { head := a.head.val, cls := v.cls, key := currentKey s r, ld := a.ld.val } a.tag (readHk v.db mv) mv v.db, dpa / 64, v.cls, homeOf s (dpa / 64)⟩
      (addCnt (portCnt a.head.val 0) 1 s))) ∧
    exec (.memRdData a) s = .next (settle (holdReq a.head.val ⟨.hostRd { head := a.head.val, cls := v.cls, key := currentKey s r, ld := a.ld.val } a.tag 1 .s v.db, dpa / 64, v.cls, homeOf s (dpa / 64)⟩
      (addCnt (portCnt a.head.val 0) 1 s))) ∧
    exec (.memInv a mv) s = .next (settle (holdReq a.head.val ⟨.hostRd { head := a.head.val, cls := v.cls, key := currentKey s r, ld := a.ld.val } a.tag (invHk mv) mv v.db, dpa / 64, v.cls, homeOf s (dpa / 64)⟩ s)) ∧
    exec (.memClnEvct a) s = .next (settle (holdReq a.head.val ⟨.hostEvict { head := a.head.val, cls := v.cls, key := currentKey s r, ld := a.ld.val } a.tag, dpa / 64, v.cls, homeOf s (dpa / 64)⟩ s))) ∧
  (∀ (s : State) (a : MemAddr) (mv : Mv) (dpa : Nat) (r : Region) (v : View), headLive s a.head.val = true → (getPort s a.head.val).up = true → (getHold s a.head.val).length < 256 → hpaToDpa s (fnKey a.head.val a.ld.val false) a.hpa.toNat = some dpa → regionAt s dpa = some r → viewOf s a.head.val a.ld.val r.idx = some v →
    ingressErr s a.head.val a.ld.val dpa = true → 
    exec (.memRd a mv) s = .next (failAtPort a.head.val (dpa / 64) (.hostRd { head := a.head.val, cls := v.cls, key := currentKey s r, ld := a.ld.val } a.tag (readHk v.db mv) mv v.db)
      { head := a.head.val, cls := v.cls, key := currentKey s r, ld := a.ld.val } (addCnt (portCnt a.head.val 0) 1 s))) ∧
  (∀ (s : State) (a : MemAddr) (mv : Mv), headLive s a.head.val = true → (getPort s a.head.val).up = true → (getHold s a.head.val).length < 256 → hpaToDpa s (fnKey a.head.val a.ld.val false) a.hpa.toNat = none →
    exec (.memRd a mv) s = .next (eventHead a.head.val ⟨.failure, .noDecoder a.hpa.toNat⟩ (addCnt (portCnt a.head.val 6) 1
      (send a.head.val (.memData a.tag 0#512 true) (addUnits (portCnt a.head.val 2) 1 (addCnt (portCnt a.head.val 0) 1 s))))))

/-- What CXL.mem writes do at their port. A write that meets no data error and no BISnp of its own head outstanding at this port joins the
head's hold queue with its byte mask (every byte for MemWr), its data, the data's check bytes and its poison bit, and leaves the queue where
it can; one that meets such a BISnp goes to the home as a host write-back; one that meets a data error fails at the port; one that hits no
decoder is answered Cmp, counted and logged; one into a packed window is answered Cmp, and the warning event is logged where the head has
logged none in this second, nothing else changing but the write's count. HOLD_QUEUE_RELEASE lets one request of a head leave: the first that
needs no tracker or finds one in its class's reserve, else the first whose head's turn at the home's shared pool it is, before which no
deferred miss of that head stands. -/
def Obligations.CxlMemWrites : Prop :=
  (∀ (s : State) (a : MemAddr) (mv : Mv) (m : W64) (d : Line) (p : Bool) (dpa : Nat) (r : Region) (v : View), headLive s a.head.val = true → (getPort s a.head.val).up = true → (getHold s a.head.val).length < 256 → hpaToDpa s (fnKey a.head.val a.ld.val false) a.hpa.toNat = some dpa → regionAt s dpa = some r → viewOf s a.head.val a.ld.val r.idx = some v →
    ingressErr s a.head.val a.ld.val dpa = false → 
    portSnoops s a.head.val (dpa / 64) = false → r.typ ≠ .packed →
    exec (.memWr a mv d p) s = .next (settle (holdReq a.head.val ⟨.hostWr { head := a.head.val, cls := v.cls, key := currentKey s r, ld := a.ld.val } a.tag mv v.db fullMask true { data := d, chk := lineChk (dpa / 64) d, poison := p },
      dpa / 64, v.cls, homeOf s (dpa / 64)⟩
      (addCnt (portCnt a.head.val 1) 1 s))) ∧
    exec (.memWrPtl a mv m d p) s = .next (settle (holdReq a.head.val ⟨.hostWr { head := a.head.val, cls := v.cls, key := currentKey s r, ld := a.ld.val } a.tag mv v.db m false { data := d, chk := lineChk (dpa / 64) d, poison := p },
      dpa / 64, v.cls, homeOf s (dpa / 64)⟩
      (addCnt (portCnt a.head.val 1) 1 s)))) ∧
  (∀ (s : State) (a : MemAddr) (mv : Mv) (m : W64) (d : Line) (p : Bool) (dpa : Nat) (r : Region) (v : View), headLive s a.head.val = true → (getPort s a.head.val).up = true → (getHold s a.head.val).length < 256 → hpaToDpa s (fnKey a.head.val a.ld.val false) a.hpa.toNat = some dpa → regionAt s dpa = some r → viewOf s a.head.val a.ld.val r.idx = some v →
    ingressErr s a.head.val a.ld.val dpa = false → 
    portSnoops s a.head.val (dpa / 64) = true →
    exec (.memWr a mv d p) s = .next (sendRsp
      { op := .hostWb, src := portTile a.head.val, dst := homeOf s (dpa / 64), line := dpa / 64, attr := { head := a.head.val, cls := v.cls, key := currentKey s r, ld := a.ld.val },
        mask := fullMask, val := { data := d, chk := lineChk (dpa / 64) d, poison := p }, biTag := a.tag } (addCnt (portCnt a.head.val 1) 1 s)) ∧
    exec (.memWrPtl a mv m d p) s = .next (sendRsp
      { op := .hostWb, src := portTile a.head.val, dst := homeOf s (dpa / 64), line := dpa / 64, attr := { head := a.head.val, cls := v.cls, key := currentKey s r, ld := a.ld.val },
        mask := m, val := { data := d, chk := lineChk (dpa / 64) d, poison := p }, biTag := a.tag } (addCnt (portCnt a.head.val 1) 1 s))) ∧
  (∀ (s : State) (a : MemAddr) (mv : Mv) (m : W64) (d : Line) (p : Bool) (dpa : Nat) (r : Region) (v : View), headLive s a.head.val = true → (getPort s a.head.val).up = true → (getHold s a.head.val).length < 256 → hpaToDpa s (fnKey a.head.val a.ld.val false) a.hpa.toNat = some dpa → regionAt s dpa = some r → viewOf s a.head.val a.ld.val r.idx = some v →
    ingressErr s a.head.val a.ld.val dpa = true → 
    portSnoops s a.head.val (dpa / 64) = false →
    exec (.memWr a mv d p) s = .next (failAtPort a.head.val (dpa / 64) (.hostWr { head := a.head.val, cls := v.cls, key := currentKey s r, ld := a.ld.val } a.tag mv v.db fullMask true
      { data := d, chk := lineChk (dpa / 64) d, poison := p }) { head := a.head.val, cls := v.cls, key := currentKey s r, ld := a.ld.val } (addCnt (portCnt a.head.val 1) 1 s)) ∧
    exec (.memWrPtl a mv m d p) s = .next (failAtPort a.head.val (dpa / 64) (.hostWr { head := a.head.val, cls := v.cls, key := currentKey s r, ld := a.ld.val } a.tag mv v.db m false
      { data := d, chk := lineChk (dpa / 64) d, poison := p }) { head := a.head.val, cls := v.cls, key := currentKey s r, ld := a.ld.val } (addCnt (portCnt a.head.val 1) 1 s))) ∧
  (∀ (s : State) (a : MemAddr) (mv : Mv) (m : W64) (d : Line) (p : Bool), headLive s a.head.val = true → (getPort s a.head.val).up = true → (getHold s a.head.val).length < 256 → hpaToDpa s (fnKey a.head.val a.ld.val false) a.hpa.toNat = none →
    exec (.memWr a mv d p) s = .next (eventHead a.head.val ⟨.failure, .noDecoder a.hpa.toNat⟩ (addCnt (portCnt a.head.val 6) 1
      (send a.head.val (.ndr a.tag .cmp) (addCnt (portCnt a.head.val 1) 1 s)))) ∧
    exec (.memWrPtl a mv m d p) s = exec (.memWr a mv d p) s) ∧
  (∀ (s : State) (a : MemAddr) (mv : Mv) (m : W64) (d : Line) (p : Bool) (dpa : Nat) (r : Region) (v : View), headLive s a.head.val = true → (getPort s a.head.val).up = true → (getHold s a.head.val).length < 256 → hpaToDpa s (fnKey a.head.val a.ld.val false) a.hpa.toNat = some dpa → regionAt s dpa = some r → viewOf s a.head.val a.ld.val r.idx = some v →
    ingressErr s a.head.val a.ld.val dpa = false → 
    portSnoops s a.head.val (dpa / 64) = false → r.typ = .packed →
    exec (.memWr a mv d p) s = .next (packedWrite a.head.val (dpa / 64) a.tag (addCnt (portCnt a.head.val 1) 1 s)) ∧
    exec (.memWrPtl a mv m d p) s = exec (.memWr a mv d p) s) ∧
  (∀ (s : State) (h line : Nat) (tag : BitVec 16), (getPort s h).up = true →
    (Table.get 0 s.host.packedWarn h = (s.time.now - s.time.relAt) / 1000000 + 1 → packedWrite h line tag s = send h (.ndr tag .cmp) s) ∧
    (Table.get 0 s.host.packedWarn h ≠ (s.time.now - s.time.relAt) / 1000000 + 1 → packedWrite h line tag s =
      eventHead h ⟨.warning, .packedWrite (64 * line)⟩ { s with host := { s.host with
        sent := (h, .ndr tag .cmp) :: s.host.sent,
        packedWarn := Table.set 0 s.host.packedWarn h ((s.time.now - s.time.relAt) / 1000000 + 1) } })) ∧
  (∀ (s : State) (h : PortId), tileRuns s (portTile h.val) = true → midnight s = false → exec (.holdQueueRelease h) s = .next (settle (releaseHold h.val s))) ∧
  (∀ (s : State) (h : Nat) (x : HeldReq),
    ((getHold s h).find? (leavesNow s h) = some x → releaseHold h s = leaveHold h x s) ∧
    ((getHold s h).find? (leavesNow s h) = none → (getHold s h).find? (fun x => leavesPool s h x && decide (poolTurn s x.home = some h) && !deferredPool s h x.home) = none →
      releaseHold h s = s) ∧
    ((getHold s h).find? (leavesNow s h) = none →
      (getHold s h).find? (fun x => leavesPool s h x && decide (poolTurn s x.home = some h) && !deferredPool s h x.home) = some x →
      releaseHold h s = leaveHold h x s))

/-- What an answer to a BISnp, a BIConflict and a poisoned write do at their port. A BIRsp to a BISnp the port has sent is forwarded to the home
of its line; one that answers none is counted as late; BIConflict is forwarded to the home; a poisoned write TLP is discarded and reported
by AER. -/
def Obligations.BiAnswers : Prop :=
  (∀ (s : State) (h : PortId) (tag : BitVec 16) (ans : BiAns) (line : Nat) (k : Txn), headLive s h.val = true → (getPort s h.val).up = true → 
    s.fab.hom = [] → s.ha.txns = [(line, k)] → k.live = true → k.bis.any (fun b => b.1 = h.val ∧ b.2.1 = tag) = true →
    exec (.birsp h tag ans) s =
    .next (sendRsp { op := .biRspFwd, src := portTile h.val, dst := homeOf s line, line := line, attr := { head := h.val }, biTag := tag,
                     ans := ans } s)) ∧
  (∀ (s : State) (h : PortId) (tag : BitVec 16) (ans : BiAns), headLive s h.val = true → (getPort s h.val).up = true → 
    (∀ e ∈ s.ha.txns, ∀ b ∈ e.2.bis, ¬(b.1 = h.val ∧ b.2.1 = tag)) → exec (.birsp h tag ans) s = .next (addCnt (portCnt h.val 10) 1 s)) ∧
  (∀ (s : State) (h : PortId) (line : LineAddr) (tag : BitVec 16), headLive s h.val = true → (getPort s h.val).up = true → exec (.biconflict h line tag) s =
    .next (sendRsp { op := .biConflictFwd, src := portTile h.val, dst := homeOf s line.toNat, line := line.toNat, attr := { head := h.val },
                     biTag := tag } s)) ∧
  (∀ (s : State) (h : PortId) (ld : LdId), headLive s h.val = true → (getPort s h.val).up = true → ld.val < ldCount s h.val → exec (.poisonedWriteTlp h ld) s =
    .next { s with host := { s.host with sent := (h.val, .aer "poisoned TLP received") :: s.host.sent } })

/-- What an AtomicOp does at its port. With fewer than 1,024 atomics of the head outstanding, an AtomicOp that is misaligned is malformed; one
of a size other than 4 and 8, or outside the atomic window, completes as Unsupported Request; one whose line may not be accessed now
completes with Completer Abort and counts as a data error; any other starts at its tile, near or far by the predictor unless an atomic of
the line is in flight, whose mode it takes. -/
def Obligations.AtomicRequests : Prop :=
  ∀ (s : State) (h : PortId) (ld : LdId) (r : AtomReq), headLive s h.val = true → (getPort s h.val).up = true → ld.val < ldCount s h.val → atomsOut s h.val < 1024 →
    (r.size ≠ 0 → r.offset.toNat % r.size ≠ 0 → exec (.atomicOp h ld r) s =
      .next { s with host := { s.host with sent := (h.val, .aer "malformed TLP") :: s.host.sent } }) ∧
    (r.size ≠ 0 → r.offset.toNat % r.size = 0 → (r.size ≠ 4 ∧ r.size ≠ 8) ∨ r.offset.toNat < 0x1800000 ∨ 0x2000000 ≤ r.offset.toNat →
      exec (.atomicOp h ld r) s = .next (send h.val (.atomicCpl r.tag .unsupported 0#64) (addCnt (portCnt h.val 4) 1 s))) ∧
    (∀ (b : Nat) (g : Region), r.size = 4 ∨ r.size = 8 → r.offset.toNat % r.size = 0 → 0x1800000 ≤ r.offset.toNat → r.offset.toNat < 0x2000000 →
      windowBase s h.val ld.val = some b → regionAt s (b + (r.offset.toNat - 0x1800000)) = some g →
      (ingressErr s h.val ld.val (b + (r.offset.toNat - 0x1800000)) = true → exec (.atomicOp h ld r) s =
        .next (send h.val (.atomicCpl r.tag .abort 0#64) (addCnt (portCnt h.val 6) 1 (addCnt (portCnt h.val 4) 1 s)))) ∧
      (ingressErr s h.val ld.val (b + (r.offset.toNat - 0x1800000)) = false → exec (.atomicOp h ld r) s =
        .next (settle (startOp (portTile h.val) ((b + (r.offset.toNat - 0x1800000)) / 64)
          (.atom { head := h.val, cls := ((viewOf s h.val ld.val g.idx).map (·.cls)).getD 0, key := currentKey s g, ld := ld.val } r.tag
            ⟨r.kind, r.size, (b + (r.offset.toNat - 0x1800000)) % 64, r.operand, r.compare⟩
            ((flightMode s (portTile h.val) ((b + (r.offset.toNat - 0x1800000)) / 64)).getD
              (predict (portTile h.val) ((b + (r.offset.toNat - 0x1800000)) / 64) (addCnt (portCnt h.val 4) 1 s)).1))
          (predict (portTile h.val) ((b + (r.offset.toNat - 0x1800000)) / 64) (addCnt (portCnt h.val 4) 1 s)).2))))

/-- What a decoder commit does. A commit that passes its checks commits the decoder, whose DPA starts where the decoder below it ends, with its
skip added, and clears Commit Error; one that does not sets Commit Error and commits nothing; every other decoder and function is kept. The
checks are the listed ways and granularities, a size that is a multiple of 256 MiB times the ways, a skip that is a multiple of 256 MiB, the
decoder below committed, the DPA range wholly in regions of the function's view of the decoder's coherence type, and BI running on the link
for an HDM-DB decoder. That the size is not 0 and the base is a multiple of 256 MiB is taken from CXL (log 55). -/
def Obligations.DecoderCommit : Prop :=
  ∀ (s : State) (h : PortId) (ld : LdId) (i : Fin 8) (d : DecoderReq), headLive s h.val = true → (getPort s h.val).up = true → (getPort s h.val).ready = true →
    ld.val < ldCount s h.val → Table.get none (getFn s (fnKey h.val ld.val false)).decs i.val = none →
    (commitOk s h.val ld.val i.val d = true → exec (.decoderCommit h ld i d) s = .next (onFn (fnKey h.val ld.val false) (fun f => { f with
      decs := Table.set none f.decs i.val (some ⟨d.base.toNat, d.size.toNat, d.skip.toNat, d.ways, d.gran, d.bi,
        decoderDpa (getFn s (fnKey h.val ld.val false)) i.val d⟩), commitErr := false }) s)) ∧
    (commitOk s h.val ld.val i.val d = false → exec (.decoderCommit h ld i d) s =
      .next (onFn (fnKey h.val ld.val false) (fun f => { f with commitErr := true }) s)) ∧
    (commitOk s h.val ld.val i.val d = true ↔
      (d.ways ∈ [1, 2, 4, 8, 16] ∧ d.gran ∈ [256, 512, 1024, 2048, 4096, 8192, 16384] ∧ d.size.toNat ≠ 0 ∧ d.size.toNat % (2 ^ 28 * d.ways) = 0 ∧
        d.skip.toNat % 2 ^ 28 = 0 ∧ d.base.toNat % 2 ^ 28 = 0) ∧
      (i.val = 0 ∨ (Table.get none (getFn s (fnKey h.val ld.val false)).decs (i.val - 1)).isSome = true) ∧
      viewBytes s h.val ld.val d.bi (decoderDpa (getFn s (fnKey h.val ld.val false)) i.val d)
        (decoderDpa (getFn s (fnKey h.val ld.val false)) i.val d + d.size.toNat / d.ways) = d.size.toNat / d.ways ∧
      (d.bi = true → (getPort s h.val).bi = true)) ∧
    (i.val = 0 → decoderDpa (getFn s (fnKey h.val ld.val false)) i.val d = d.skip.toNat) ∧
    (∀ x : Decoder, i.val ≠ 0 → Table.get none (getFn s (fnKey h.val ld.val false)).decs (i.val - 1) = some x →
      decoderDpa (getFn s (fnKey h.val ld.val false)) i.val d = x.dpa + x.size / x.ways + d.skip.toNat)

/-- What register writes and firmware requests do. A 4-byte aligned write with every byte enabled by an agent with access acts on the register
at its offset. Where the register has no action of its own, it stores each bit by its type and changes no other register: an RW bit, and an
RWL bit before the run lock, takes the bit written, a W1C bit is cleared where written 1, any other is kept. An aligned 8-byte write is two,
the lower address first. A write of more than 8 bytes or across an 8-byte boundary completes with Completer Abort, but in the mailbox
payload, whose bytes it stores; a partial one elsewhere, and one without rights, changes nothing. A management processor's request to a line
of a plain, ring or staging region starts at its tile with the firmware attributes; to protected or packed memory, to a store or shadow
frame, and a write to a tile-local frame, is answered with a bus error and counted; to a line of no region, or one being filled, with a bus
error. A read of the placement map of a tile that can be reached returns its entries. That the other tile-local frames count as store or
shadow frames is the model's (log 119). -/
def Obligations.RegisterAndFirmwareWrites : Prop :=
  ((∀ (s : State) (a : Agent) (off : BitVec 27) (v : Line) (k : RegKind) (i : Nat), agentUp s a = true → off.toNat % 4 = 0 → off.toNat % 8 ≤ 4 →
    regAt off.toNat = some (k, i) → regOpen s a k i = true →
    exec (.registerWrite a false off 4 v true) s = .next (writeKind a k i (v.setWidth 32) s)) ∧
  (∀ (s : State) (a : Agent) (k : RegKind) (i : Nat) (v : W32), k ∉ [RegKind.fcSts, .fcEn, .fcForce, .fcCfg, .cntWinCfg, .ncWayCfg, .ncRangeBaseLo, .ncRangeBaseHi,
      .ncRangeLen, .ncRangeCtl, .drTrnCtl, .drTrnPat, .drPhyAcc, .drSchedCfg, .drRefCfg, .trRate, .trBudget, .rstBlkCtl, .dawnSts, .qosTrk] →
    writeKind a k i v s = { s with regs := Table.set (regReset k i) s.regs (regAddr k i) (storeBits (regDesc k) (locked s) (regRaw s k i) v) }) ∧
  (∀ (d : RegDesc) (lock : Bool) (old v : W32) (b : Nat), b < 32 → (storeBits d lock old v).getLsbD b =
    ((if d.rw.testBit b || (d.rwl.testBit b && !lock) then v.getLsbD b else old.getLsbD b) && !(d.w1c.testBit b && v.getLsbD b))) ∧
  (∀ (s : State) (a : Agent) (b2 : Bool) (off : BitVec 27) (v : Line), agentUp s a = true → off.toNat % 8 = 0 →
    b2 = true ∨ inPayload off.toNat = false →
    exec (.registerWrite a b2 off 8 v true) s =
      .next (write32 a b2 (off.toNat + 4) ((v >>> 32).setWidth 32) (write32 a b2 off.toNat (v.setWidth 32) s))) ∧
  (∀ (s : State) (h : PortId) (ld : LdId) (b2 : Bool) (off : BitVec 27) (n : Nat) (v : Line) (full : Bool), agentUp s (.head h ld) = true →
    b2 = true ∨ inPayload off.toNat = false ∨ 0x11120 < off.toNat + n → 8 < n ∨ 8 < off.toNat % 8 + n → exec (.registerWrite (.head h ld) b2 off n v full) s =
    .next { s with host := { s.host with sent := (h.val, .cpl .abort 0#64) :: s.host.sent } }) ∧
  (∀ (s : State) (a : Agent) (b2 : Bool) (off : BitVec 27) (n : Nat) (v : Line), n ≤ 8 → off.toNat % 8 + n ≤ 8 → b2 = true ∨ inPayload off.toNat = false →
    exec (.registerWrite a b2 off n v false) s = .next s) ∧
  (∀ (s : State) (h : PortId) (ld : LdId) (off : BitVec 27) (n : Nat) (v : Line) (full : Bool), agentUp s (.head h ld) = true → inPayload off.toNat = true →
    off.toNat + n ≤ 0x11120 → n ≤ 64 → ∃ t, exec (.registerWrite (.head h ld) false off n v full) s = .next t ∧ t.regs = s.regs ∧
    (∀ i, i < n → payloadAt t (fnKey h.val ld.val false) (off.toNat + i) = BitVec.ofNat 8 (v.toNat >>> (8 * i)))) ∧
  (∀ (s : State) (a : Agent) (off : BitVec 27) (v : Line) (k : RegKind) (i : Nat), regAt off.toNat = some (k, i) → regOpen s a k i = false →
    off.toNat % 8 ≤ 4 → exec (.registerWrite a false off 4 v true) s = .next s)) ∧
  ((∀ (s : State) (t : TileId) (a : Dpa) (wr : Option Line) (r : Region), firmwareRuns s t.val = true → midnight s = false →
    regionAt s a.toNat = some r →
    (r.typ ≠ .protect → r.typ ≠ .packed → inFill s a.toNat = false → exec (.firmwareRequest t (.dpa a) none) s =
      .next (settle (startOp t.val (a.toNat / 64) (.fwRd false) { s with nc := { s.nc with fwOut := none } }))) ∧
    (∀ d : Line, r.typ ≠ .protect → r.typ ≠ .packed → inFill s a.toNat = false → exec (.firmwareRequest t (.dpa a) (some d)) s =
      .next (settle (startOp t.val (a.toNat / 64) (.fwWr false { data := d, chk := lineChk (a.toNat / 64) d }) { s with nc := { s.nc with fwOut := none } }))) ∧
    (r.typ = .protect ∨ r.typ = .packed → exec (.firmwareRequest t (.dpa a) wr) s = .next (fwBusError (addCnt (tileCnt t.val 475) 1 s))) ∧
    (r.typ ≠ .protect → r.typ ≠ .packed → inFill s a.toNat = true → exec (.firmwareRequest t (.dpa a) wr) s = .next (fwBusError s))) ∧
  (∀ (s : State) (t : TileId) (a : Dpa) (wr : Option Line), firmwareRuns s t.val = true → midnight s = false → regionAt s a.toNat = none →
    exec (.firmwareRequest t (.dpa a) wr) s = .next (fwBusError s)) ∧
  (∀ (s : State) (t u : TileId) (f : W32) (i : Fin 64) (wr : Option Line), firmwareRuns s t.val = true → midnight s = false →
    placeLineAt s u.val f.toNat i.val = none ∨ wr ≠ none →
    exec (.firmwareRequest t (.localFrame u f i) wr) s = .next (fwBusError (addCnt (tileCnt t.val 475) 1 s))) ∧
  (∀ (s : State) (t u : TileId) (f : W32) (i : Fin 64) (k : Nat), firmwareRuns s t.val = true → midnight s = false → tileRuns s u.val = true →
    cutOff s t.val u.val = false → placeLineAt s u.val f.toNat i.val = some k → exec (.firmwareRequest t (.localFrame u f i) none) s =
    .next { s with nc := { s.nc with fwOut := some (some (placeLine s u.val k)) } }))

/-- What the mailbox queries of any head answer. A query on a function whose mailbox is served answers Success with what R67 and R68 give it,
and changes nothing but that function's answer: identity, limits, events, firmware slots, time, logs (one whose range the log does not have
is Invalid Input), features (none, and every feature id is Invalid Input), capacity, health, alerts, Dynamic Capacity and status. While the
log store cannot be reached the queries of its length and content answer Retry Required, and while its power-up path runs they are held.
Payloads that CXL alone lays out are named by their content (log 33). -/
def Obligations.MailboxQueries : Prop :=
  ∀ (s : State) (f : Fn), mbUp s f = true → s.dawn.recovery = false →
    exec (.identify f) s = .next (mbPut f .success (.identity s.fuse.serial 4096) s) ∧
    exec (.getResponseMessageLimit f) s = .next (mbPut f .success (.limit (getFn s (fnOf f)).limit) s) ∧
    exec (.getEventInterruptPolicy f) s = .next (mbPut f .success (.intPolicy) s) ∧
    exec (.getFwInfo f) s = .next (mbPut f .success (.fwInfo 2 (1 + b2n s.dawn.slotB) (optOf (optBytes s)).activate
      [(slotHdr s false).map (·.seq), (slotHdr s true).map (·.seq)]) s) ∧
    exec (.getTimestamp f) s = .next (mbPut f .success (.time (hostClock s)) s) ∧
    exec (.getSupportedFeatures f) s = .next (mbPut f .success (.features) s) ∧
    exec (.identifyMemoryDevice f) s = .next (mbPut f .success (.memDevice (if f.fm then 0 else ldBytes s f.head.val f.ld.val) 0 4096) s) ∧
    exec (.getPartitionInfo f) s = .next (mbPut f .success (.partition (if f.fm then 0 else ldBytes s f.head.val f.ld.val)) s) ∧
    exec (.getHealthInfo f) s = .next (mbPut f .success (.health s.faults.rr (degradedNow s)) s) ∧
    exec (.getAlertConfiguration f) s = .next (mbPut f .success (.alerts (getFn s (fnOf f)).alerts) s) ∧
    exec (.getDynamicCapacityConfiguration f) s = .next (mbPut f .success (.dcConfig (if f.fm then [] else dcRegions s f.head.val f.ld.val) (2 ^ 28)) s) ∧
    exec (.getDynamicCapacityExtentList f) s = .next (mbPut f .success (.extents (if f.fm then [] else boundTo s f.head.val f.ld.val)) s) ∧
    exec (.getIluisStatus f) s = .next (mbPut f .success (.bytes (statusBytes s)) s) ∧
    (s.host.bg = none → exec (.backgroundOperationStatus f) s = .next (mbPut f .success (.background 0#16 0 .success) s)) ∧
    (∀ (op : BitVec 16) (rc : MbRc), s.host.bg = some (op, false, rc) →
      exec (.backgroundOperationStatus f) s = .next (mbPut f .success (.background op 100 rc) s)) ∧
    (∀ l : EvLog, exec (.getEventRecords f l) s =
      .next (mbPut f .success (.events (eventsOf (getFn s (fnOf f)) l) ((getFn s (fnOf f)).evOver.contains l)) s)) ∧
    (∀ c : Bool, exec (.getLogCapabilities f c) s = .next (mbPut f .success (.logCaps (!c)) s)) ∧
    (∀ i : BitVec 128, exec (.getFeature f i) s = .next (mbPut f .invalidInput .none s) ∧
      exec (.setFeature f i) s = .next (mbPut f .invalidInput .none s)) ∧
    (logAway s = true → exec (.getSupportedLogs f) s = .next (mbPut f .retryRequired .none s) ∧
      (∀ o n, exec (.getLog f false o n) s = .next (mbPut f .retryRequired .none s)) ∧
      (∀ k n, k < 2 → exec (.getSupportedLogsSubList f k n) s = .next (mbPut f .retryRequired .none s))) ∧
    (logAway s = false → s.log.starting = true → ∃ t, exec (.getSupportedLogs f) s = .next t ∧ t.host.logHeld = s.host.logHeld ++ [(f, .sizes)] ∧ t.log = s.log) ∧
    (logAway s = false → s.log.starting = false → exec (.getSupportedLogs f) s =
        .next (mbPut f .success (.logs (4 * (celOf s f).length) (faultLog s).length) s) ∧
      (∀ o n, n ≤ 4096 → o + n ≤ (faultLog s).length → exec (.getLog f false o n) s =
        .next (mbPut f .success (.bytes (slice (faultLog s) o n)) s)) ∧
      (∀ o n, 4096 < n ∨ (faultLog s).length < o + n → exec (.getLog f false o n) s = .next (mbPut f .invalidInput .none s)) ∧
      (∀ n, 2 ≤ n → exec (.getSupportedLogsSubList f 0 n) s =
        .next (mbPut f .success (.logs (4 * (celOf s f).length) (faultLog s).length) s))) ∧
    (∀ o n, exec (.getLog f true o n) s = .next (mbPut f .success (.cel (celOf s f)) s))

/-- What the mailbox commands that change state do. On a served function of the management head: the response limit, alert configuration and
timestamp are stored; events are cleared oldest first; only "no interrupt" is accepted as an event policy; Clear Log hands a clear mark to
the primary's log path and leaves its answer open, the function joining those that wait for such a mark; an abort ends a background
operation and discards its partial image; Transfer FW starts one and erases the inactive slot, and at its end the image is written there and
the option block rewritten if the image is accepted, Invalid Input being its result if not; Activate FW of a usable slot rewrites the option
block, every other field of which is kept. The range of limits and the erasure at the start are the model's (log 33, 61). -/
def Obligations.MailboxSettings : Prop :=
  ∀ (s : State) (f : Fn), mbUp s f = true → s.dawn.recovery = false → isMgmt s f = true →
    (∀ n : Byte, 8 ≤ n.toNat → n.toNat ≤ 12 → exec (.setResponseMessageLimit f n) s =
      .next (mbPut f .success (.limit n) (onFn (fnOf f) (fun x => { x with limit := n }) s))) ∧
    (∀ v : W64, exec (.setAlertConfiguration f v) s = .next (mbPut f .success .none (onFn (fnOf f) (fun x => { x with alerts := v }) s))) ∧
    (∀ ns : W64, exec (.setTimestamp f ns) s =
      .next (mbPut f .success .none { s with time := { s.time with stamp := some (ns, s.time.now) } })) ∧
    exec (.setEventInterruptPolicy f 0#8) s = .next (mbPut f .success .none s) ∧
    (∀ m : Byte, m ≠ 0#8 → exec (.setEventInterruptPolicy f m) s = .next (mbPut f .invalidInput .none s)) ∧
    (∀ (l : EvLog) (n : Nat), n < (eventsOf (getFn s (fnOf f)) l).length → exec (.clearEventRecords f l n) s =
      .next (mbPut f .success .none (onFn (fnOf f) (fun x => { x with events := dropEvents l n x.events }) s))) ∧
    (s.link.down = false → s.log.queue.length < 64 → exec (.clearLog f false) s =
      .next (onHost (fun h => { h with clearing := h.clearing ++ [fnOf f] }) (onFn (fnOf f) (fun x => { x with rsp := none })
        (primaryLog 0x12#8 0#8 0xFFFF#16 [] s)))) ∧
    exec (.clearLog f true) s = .next (mbPut f .invalidInput .none s) ∧
    (∀ (op : BitVec 16) (rc : MbRc), s.host.bg = some (op, true, rc) → exec (.requestAbortBackgroundOperation f) s =
      .next (mbPut f .success .none { s with host := { s.host with bg := some (op, false, .aborted) }, flash := { s.flash with busy := none } })) ∧
    (∀ img : Bytes, s.host.bg = none → exec (.transferFw f img) s = .next (mbPut f .bgStarted .none (eraseSlot (inactiveSlot s)
      { s with host := { s.host with bg := some (0x0201#16, true, .success) }, flash := { s.flash with busy := some (inactiveSlot s, img) } }))) ∧
    (∀ (op : BitVec 16) (rc : MbRc) (img : Bytes), s.host.bg = some (op, true, rc) → exec (.transferFw f img) s = .next (mbPut f .busy .none s)) ∧
    (∀ (b : Bool) (img : Bytes), s.flash.busy = some (b, img) → transferOk s img = true → exec .transferFwDone s =
      .next (rewriteOpt 0 none (flashWrite (slotBase b) img
        { s with host := { s.host with bg := some (0x0201#16, false, .success) }, flash := { s.flash with busy := none } }))) ∧
    (∀ (b : Bool) (img : Bytes), s.flash.busy = some (b, img) → transferOk s img = false → exec .transferFwDone s =
      .next { s with host := { s.host with bg := some (0x0201#16, false, .invalidInput) }, flash := { s.flash with busy := none } }) ∧
    (∀ (b : Bool) (h : SlotHdr), usable s b = some h → exec (.activateFw f b false) s =
      .next (mbPut f .success .none (rewriteOpt (1 + b2n b) (some h.seq) s))) ∧
    (∀ b : Bool, usable s b = none → exec (.activateFw f b false) s = .next (mbPut f .invalidInput .none s)) ∧
    (∀ b : Bool, exec (.activateFw f b true) s = .next (mbPut f .unsupported .none s)) ∧
    (∀ (n : Nat) (q : Option W32) (u : State), u = flashWrite 0 (optRewrite (optBytes s) n (q.getD (BitVec.ofNat 32 (leAt (optBytes s) 8 4)))) s →
      rewriteOpt n q s = { u with flash := { u.flash with rewriteEnd := s.time.now + Config.rewriteUs s.free }, free := s.free + 1 })

/-- What the fabric manager queries answer. On the management head or an FM-owned LD these queries answer Success with the LDs, capacities,
floors, heads and Dynamic Capacity of the device or of the LD named, and change nothing but the function's answer; one that names no head or
LD of the member answers Invalid Input; from another head every one of them is Unsupported, and so, on any head, is an opcode that the table
does not list. That QoS telemetry is off is the model's reading (log 33). -/
def Obligations.FabricManagerQueries : Prop :=
  (∀ (s : State) (f : Fn), mbUp s f = true → s.dawn.recovery = false → headMay s f .fm = true →
    exec (.getLdInfo f) s = .next (mbPut f .success (.ldInfo (ldCount s f.head.val) (s.map.cat.foldl (fun a r => a + r.len) 0)) s) ∧
    exec (.getLdAllocations f) s = .next (mbPut f .success (.ldAllocs ((List.range (ldCount s f.head.val)).map (fun ld => (ld, ldBytes s f.head.val ld)))) s) ∧
    exec (.getQosControl f) s = .next (mbPut f .success (.qosControl false false) s) ∧
    exec (.getQosStatus f) s = .next (mbPut f .success (.qosStatus 0) s) ∧
    exec (.getQosAllocatedBw f) s = .next (mbPut f .success (.qosBw (((List.range (ldCount s f.head.val)).map (ldFloors s f.head.val)).map (fun x =>
      256 * x / max 1 (((List.range (ldCount s f.head.val)).map (ldFloors s f.head.val)).foldl (· + ·) 0)))) s) ∧
    exec (.getQosBwLimit f) s = .next (mbPut f .success (.qosBw (List.replicate (ldCount s f.head.val) 256)) s) ∧
    exec (.getMultiHeadedInfo f) s = .next (mbPut f .success (.multiHeaded ((heads s).map (fun h => (h, ldCount s h))).length
      (((heads s).map (fun h => (h, ldCount s h))).foldl (fun a x => a + x.2) 0) ((heads s).map (fun h => (h, ldCount s h)))) s) ∧
    exec (.getDcdInfo f) s = .next (mbPut f .success (.dcdInfo ((heads s).foldl (fun a h => a + ldCount s h) 0) 8 28 (s.map.decls.foldl (fun a d => a + d.len) 0)) s) ∧
    (∀ h : PortId, isHead s h.val = true → exec (.getHeadInfo f h) s = .next (mbPut f .success
      (.headInfo h.val (getPort s h.val).width (headLanes s h.val) (getPort s h.val).rate (getPort s h.val).up) s)) ∧
    (∀ h : PortId, isHead s h.val = false → exec (.getHeadInfo f h) s = .next (mbPut f .invalidInput .none s)) ∧
    (∀ (h : PortId) (ld : LdId), ldThere s h.val ld.val = true →
      exec (.getHostDcRegionConfiguration f h ld) s = .next (mbPut f .success (.dcConfig (dcRegions s h.val ld.val) (2 ^ 28)) s) ∧
      exec (.getDcRegionExtentLists f h ld) s = .next (mbPut f .success (.extents (boundTo s h.val ld.val)) s)) ∧
    (∀ (h : PortId) (ld : LdId), ldThere s h.val ld.val = false →
      exec (.getHostDcRegionConfiguration f h ld) s = .next (mbPut f .invalidInput .none s) ∧
      exec (.getDcRegionExtentLists f h ld) s = .next (mbPut f .invalidInput .none s))) ∧
  (∀ (s : State) (f : Fn), mbUp s f = true → headMay s f .fm = false →
    exec (.getLdInfo f) s = .next (mbPut f .unsupported .none s) ∧
    exec (.getLdAllocations f) s = .next (mbPut f .unsupported .none s) ∧
    exec (.getQosControl f) s = .next (mbPut f .unsupported .none s) ∧
    exec (.getQosStatus f) s = .next (mbPut f .unsupported .none s) ∧
    exec (.getQosAllocatedBw f) s = .next (mbPut f .unsupported .none s) ∧
    exec (.getQosBwLimit f) s = .next (mbPut f .unsupported .none s) ∧
    exec (.getMultiHeadedInfo f) s = .next (mbPut f .unsupported .none s) ∧
    exec (.getDcdInfo f) s = .next (mbPut f .unsupported .none s) ∧
    (∀ (h : PortId) (ld : LdId), exec (.getHeadInfo f h) s = .next (mbPut f .unsupported .none s) ∧
      exec (.getHostDcRegionConfiguration f h ld) s = .next (mbPut f .unsupported .none s) ∧
      exec (.getDcRegionExtentLists f h ld) s = .next (mbPut f .unsupported .none s))) ∧
  (∀ (s : State) (f : Fn) (op : BitVec 16), mbUp s f = true → (∀ c ∈ commandTable, c.1 ≠ op.toNat) →
    exec (.unsupportedCommand f op) s = .next (mbPut f .unsupported .none s))

/-- What the poison list and Dynamic Capacity commands do. A declared extent that is free and not being filled is offered with an event for its
host, and one not free is Busy; the host's response that names one offered extent whole binds it, an empty one declines the oldest offer,
and one that names no declared extent is Invalid Input; an offer that times out is withdrawn with an event; a release asked of the host is
an event, and a forced one is Unsupported; the host's release of a bound extent starts its fill. Inject Poison on a plain region where it is
enabled, and Clear Poison on any region that is not packed, start a write of the line, unless the line is being filled, in no bound extent
or damaged, which is Internal Error; other lines are Invalid Physical Address. Get Poison List answers the first 254 entries that overlap
the range and that the function may see, and asked for the same range again the next 254; it says whether more follow and when the list
overflowed. The code for a release of no whole bound extent is the model's choice (log 134). -/
def Obligations.PoisonAndDynamicCapacity : Prop :=
  (∀ (s : State) (f : Fn), mbUp s f = true → s.dawn.recovery = false →
    (∀ (i : Nat) (e : Dpa × Nat), f.fm = false → extNamed s f.head.val f.ld.val e.1.toNat e.2 = some i →
      (offers s f.head.val f.ld.val).any (fun m => m.1 = i) = true → exec (.addDynamicCapacityResponse f [e]) s =
      .next (mbPut f .success .none { s with map := { s.map with exts := Table.set .free s.map.exts i (.bound false) } })) ∧
    (∀ i t : Nat, f.fm = false → offers s f.head.val f.ld.val = [(i, t)] → exec (.addDynamicCapacityResponse f []) s =
      .next (mbPut f .success .none { s with map := { s.map with exts := Table.set .free s.map.exts i .free } })) ∧
    (∀ e : Dpa × Nat, f.fm = false → extNamed s f.head.val f.ld.val e.1.toNat e.2 = none →
      exec (.addDynamicCapacityResponse f [e]) s = .next (mbPut f .invalidInput .none s)) ∧
    (∀ (d : Dpa) (n i : Nat) (r : Region) (q : Bool), f.fm = false → extNamed s f.head.val f.ld.val d.toNat n = some i →
      regionAt s d.toNat = some r → extState s i = .bound q → exec (.releaseDynamicCapacity f d n) s =
      .next (mbPut f .success .none (startFill d.toNat n r.idx (some i) (setExt i .filling s)))) ∧
    (∀ (d : Dpa) (n i : Nat), f.fm = false → extNamed s f.head.val f.ld.val d.toNat n = some i → extState s i = .free →
      exec (.releaseDynamicCapacity f d n) s = .next (mbPut f .invalidInput .none s)) ∧
    (∀ (d : Dpa) (n : Nat) (hits : List PoisonEntry), (getFn s (fnOf f)).poisonPos = none →
      hits = s.map.poison.entries.filter (fun e => decide (e.dpa < d.toNat + n) && decide (d.toNat < e.dpa + e.len) && fnSees s f e.dpa) →
      exec (.getPoisonList f d n) s = .next (mbPut f .success
        (.poison ((hits.take 254).map (fun e => (e.dpa, e.len))) (decide (254 < hits.length)) s.map.poison.overflow)
        (onFn (fnOf f) (fun x => { x with poisonPos := (hits.take 254).getLast?.map (fun e => (d.toNat, n, e.dpa)) }) s))) ∧
    (∀ (d : Dpa) (n last : Nat) (hits : List PoisonEntry), (getFn s (fnOf f)).poisonPos = some (d.toNat, n, last) →
      hits = s.map.poison.entries.filter (fun e => decide (last < e.dpa) && decide (e.dpa < d.toNat + n) && decide (d.toNat < e.dpa + e.len) && fnSees s f e.dpa) →
      exec (.getPoisonList f d n) s = .next (mbPut f .success
        (.poison ((hits.take 254).map (fun e => (e.dpa, e.len))) (decide (254 < hits.length)) s.map.poison.overflow)
        (onFn (fnOf f) (fun x => { x with poisonPos := some (d.toNat, n, ((hits.take 254).getLast?.map (·.dpa)).getD last) }) s))) ∧
    (isMgmt s f = true →
      (∀ (h : PortId) (ld : LdId) (d : Dpa) (n : Nat) (tag : BitVec 128) (i : Nat),
        s.map.decls.findIdx? (fun x => x.head = h.val ∧ x.ld = ld.val ∧ x.base = d.toNat ∧ x.len = n ∧ x.tag = tag) = some i →
        (extState s i = .free → inFill s d.toNat = false → exec (.initiateDynamicCapacityAdd f h ld d n tag) s =
          .next (mbPut f .success .none (addEvent (fnKey h.val ld.val false) ⟨.dc, .dcAdd i⟩ (setExt i (.offered s.time.now) s)))) ∧
        (extState s i ≠ .free → exec (.initiateDynamicCapacityAdd f h ld d n tag) s = .next (mbPut f .busy .none s))) ∧
      (∀ (h : PortId) (ld : LdId) (d : Dpa) (n i : Nat) (q : Bool), extNamed s h.val ld.val d.toNat n = some i → extState s i = .bound q →
        exec (.initiateDynamicCapacityRelease f h ld d n false) s =
          .next (mbPut f .success .none (addEvent (fnKey h.val ld.val false) ⟨.dc, .dcRelease i⟩ (setExt i (.bound true) s))) ∧
        exec (.initiateDynamicCapacityRelease f h ld d n true) s = .next (mbPut f .unsupported .none s)) ∧
      (∀ (d : Dpa) (r : Region), regionAt s d.toNat = some r → r.typ = .plain → inFill s d.toNat = false →
        unbound s f.head.val none d.toNat = false → paramNat s "x.host.poison_inject" 0 = 1 → exec (.injectPoison f d) s = .next (settle (startOp 0 (d.toNat / 64)
          (.poisonCmd (fnOf f) false { data := 0#512, chk := lineChk (d.toNat / 64) 0#512 }) (onFn (fnOf f) (fun x => { x with rsp := none }) s)))) ∧
      (∀ (d : Dpa) (r : Region), regionAt s d.toNat = some r → r.typ ≠ .plain ∨ paramNat s "x.host.poison_inject" 0 ≠ 1 →
        exec (.injectPoison f d) s = .next (mbPut f .invalidPhysicalAddress .none s)) ∧
      (∀ (d : Dpa) (v : Line) (r : Region), regionAt s d.toNat = some r → r.typ ≠ .packed → inFill s d.toNat = false →
        unbound s f.head.val none d.toNat = false → (r.typ = .protect → isDamaged s (dpaLoc s r (d.toNat / 64)) = false) →
        exec (.clearPoison f d v) s = .next (settle (startOp 0 (d.toNat / 64)
          (.poisonCmd (fnOf f) true { data := v, chk := lineChk (d.toNat / 64) v }) (onFn (fnOf f) (fun x => { x with rsp := none }) s)))) ∧
      (∀ (d : Dpa) (v : Line) (r : Region), regionAt s d.toNat = some r → r.typ ≠ .packed →
        inFill s d.toNat = true ∨ unbound s f.head.val none d.toNat = true ∨ (r.typ = .protect ∧ isDamaged s (dpaLoc s r (d.toNat / 64)) = true) →
        exec (.clearPoison f d v) s = .next (mbPut f .internalError .none s)) ∧
      (∀ (d : Dpa) (v : Line) (r : Region), regionAt s d.toNat = some r → r.typ = .packed →
        exec (.clearPoison f d v) s = .next (mbPut f .invalidPhysicalAddress .none s)))) ∧
  (∀ (s : State) (e : Fin 2048) (at_ : Nat) (d : ExtDecl), primaryRuns s = true → extState s e.val = .offered at_ → s.map.decls[e.val]? = some d →
    exec (.dcOfferTimeout e) s = .next (addEvent (fnKey d.head d.ld false) ⟨.dc, .dcWithdrawn e.val⟩ (setExt e.val .free s)))

/-- What the vendor commands of the management head do. On the management head Set Surroundings stores the flagged fields and a change of inlet,
airflow or cap starts a re-evaluation; the other commands answer the surroundings, the admission report, the fault summary, the log records
and the Twilight passes, and change nothing but the function's answer, the log records held while the power-up search for the log runs by
the hint; a payload too short is Invalid Payload Length, and another head is answered Unsupported, but for the Twilight passes, of which it
is answered those of regions that the requesting LD has in view (the model's reading, log 138). What is in force when no surroundings are
given is the model's choice (log 50). -/
def Obligations.VendorCommands : Prop :=
  (∀ (s : State) (f : Fn), mbUp s f = true → s.dawn.recovery = false → isMgmt s f = true →
    (∀ b : Bytes, b.length = 80 → surrOk b = true → slice (surrNow s) 0 8 = slice (mergeSurr (surrNow s) b) 0 8 → exec (.setSurroundings f b) s =
      .next (mbPut f .success .none { s with host :=
        { s.host with surr := mergeSurr (surrNow s) b, surrSet := s.host.surrSet ||| BitVec.ofNat 5 (leAt b 3 1) } })) ∧
    (∀ b : Bytes, b.length = 80 → surrOk b = true → slice (surrNow s) 0 8 ≠ slice (mergeSurr (surrNow s) b) 0 8 → exec (.setSurroundings f b) s =
      .next (mbPut f .success .none (reevaluate 0xFFFF { s with host :=
        { s.host with surr := mergeSurr (surrNow s) b, surrSet := s.host.surrSet ||| BitVec.ofNat 5 (leAt b 3 1) } }))) ∧
    (∀ b : Bytes, b.length = 80 → surrOk b = false → exec (.setSurroundings f b) s = .next (mbPut f .invalidInput .none s)) ∧
    (∀ b : Bytes, (b.length < 80 → exec (.setSurroundings f b) s = .next (mbPut f .invalidPayloadLength .none s)) ∧
      (b.length < 8 → exec (.getAdmissionReport f b) s = .next (mbPut f .invalidPayloadLength .none s)) ∧
      (b.length < 4 → exec (.getFaultSummary f b) s = .next (mbPut f .invalidPayloadLength .none s)) ∧
      (b.length < 6 → exec (.readLogRecords f b) s = .next (mbPut f .invalidPayloadLength .none s))) ∧
    exec (.getSurroundings f) s = .next (mbPut f .success
      (.bytes (slice (surrNow s) 0 3 ++ [s.host.surrSet.setWidth 8] ++ slice (surrNow s) 4 76)) s) ∧
    (∀ b : Bytes, b.length = 8 → leAt b 0 1 < 2 → leAt b 1 3 = 0 → exec (.getAdmissionReport f b) s = .next (mbPut f .success
      (.bytes (leBytes 4 (if leAt b 0 1 = 0 then s.qos.report else s.qos.reReport).length ++
        leBytes 4 (((if leAt b 0 1 = 0 then s.qos.report else s.qos.reReport).drop (leAt b 4 4)).take 4088).length ++
        ((if leAt b 0 1 = 0 then s.qos.report else s.qos.reReport).drop (leAt b 4 4)).take 4088)) s)) ∧
    (∀ b : Bytes, b.length = 4 → leAt b 2 2 ≠ 0 → leAt b 0 2 + leAt b 2 2 ≤ 1024 → exec (.getFaultSummary f b) s = .next (mbPut f .success
      (.bytes (leBytes 2 (leAt b 0 2) ++ leBytes 2 (leAt b 2 2) ++ summaryBytes s (leAt b 0 2) (leAt b 2 2))) s)) ∧
    (∀ b : Bytes, b.length = 6 → logAway s = false → s.log.starting = false → exec (.readLogRecords f b) s = .next (mbPut f .success
      (.bytes (leBytes 2 ((recordsFrom s.log [0, 1, 2, 3] (leAt b 0 4)).take (min 63 (leAt b 4 2))).length ++ leBytes 2 0 ++
        ((recordsFrom s.log [0, 1, 2, 3] (leAt b 0 4)).take (min 63 (leAt b 4 2))).flatMap (fun e => posBytes s.log e.2.1 e.2.2))) s)) ∧
    (∀ b : Bytes, b.length = 6 → logAway s = false → s.log.starting = true → exec (.readLogRecords f b) s =
      .next (onHost (fun h => { h with logHeld := h.logHeld ++ [(f, .records (leAt b 0 4) (leAt b 4 2))] }) (onFn (fnOf f) (fun x => { x with rsp := none }) s))) ∧
    (∀ b : Bytes, b.length = 6 → logAway s = true → exec (.readLogRecords f b) s = .next (mbPut f .retryRequired .none s)) ∧
    exec (.getTwilightStatus f) s = .next (mbPut f .success
      (.bytes (leBytes 2 s.cry.passes.length ++ leBytes 2 0 ++ s.cry.passes.flatMap (passEntry s))) s)) ∧
  (∀ (old b : Bytes) (i off n : Nat), old.length = 80 → b.length = 80 → (i, off, n) ∈ [(0, 0, 2), (1, 2, 1), (2, 4, 2), (3, 8, 8), (4, 16, 64)] →
    slice (mergeSurr old b) off n = (if (leAt b 3 1).testBit i then slice b off n else slice old off n)) ∧
  (∀ (s : State) (f : Fn), mbUp s f = true → s.dawn.recovery = false → isMgmt s f = false → f.fm = false → ∀ l : List Pass,
    l = s.cry.passes.filter (fun p => (viewOf s f.head.val f.ld.val p.region).isSome) →
    exec (.getTwilightStatus f) s = .next (mbPut f .success (.bytes (leBytes 2 l.length ++ leBytes 2 0 ++ l.flatMap (passEntry s))) s)) ∧
  (∀ (s : State) (f : Fn), mbUp s f = true → isMgmt s f = false → ∀ b : Bytes,
    exec (.setSurroundings f b) s = .next (mbPut f .unsupported .none s) ∧ exec (.getSurroundings f) s = .next (mbPut f .unsupported .none s) ∧
    exec (.getAdmissionReport f b) s = .next (mbPut f .unsupported .none s) ∧ exec (.getFaultSummary f b) s = .next (mbPut f .unsupported .none s) ∧
    exec (.readLogRecords f b) s = .next (mbPut f .unsupported .none s))

/-- What the secured commands do. In a session that meets R277 Install Key fills an empty slot 1 to 4,095 with the key and a generation number
that is not 0, and a slot that is filled is Invalid Input; Retire Key empties a slot nothing uses; Start Twilight starts a pass over a
protected region whose twilight line stands at the start of every tile's share. A whole vendor-defined request with the opcode of one of the
three acts as that command with its payload, and one with another opcode is Unsupported. In a session that does not meet R277, and through a
mailbox, the three are answered with the code that says so and change nothing. -/
def Obligations.SecuredCommands : Prop :=
  (∀ (s : State) (h : PortId) (sid k : Nat) (b : Bytes), mbUp s (lead h) = true → sessionOf s h.val sid = true → securedRc s (.session h sid) = none → b.length = 40 → leAt b 0 2 = k → 0 < k → k < 4096 → leAt b 2 2 = 0 → leAt b 4 4 ≠ 0 → keySlot s (BitVec.ofNat 12 k) = none → 
    exec (.installKey (.session h sid) b) s = .next (onFn (fnOf (lead h)) (fun x => { x with doe := .vendor 0xC040#16 .success .none }) 
      { s with cry := { s.cry with keys := Table.set none s.cry.keys k (some ⟨BitVec.ofNat 256 (beNat (slice b 8 32)), BitVec.ofNat 32 (leAt b 4 4)⟩),
                                   everInstalled := true } })) ∧
  (∀ (s : State) (h : PortId) (sid k : Nat) (b : Bytes), mbUp s (lead h) = true → sessionOf s h.val sid = true → securedRc s (.session h sid) = none → b.length = 40 → leAt b 0 2 = k → (keySlot s (BitVec.ofNat 12 k)).isSome = true →
    exec (.installKey (.session h sid) b) s = .next (onFn (fnOf (lead h)) (fun x => { x with doe := .vendor 0xC040#16 .invalidInput .none }) s)) ∧
  (∀ (s : State) (h : PortId) (sid k : Nat) (b : Bytes), mbUp s (lead h) = true → sessionOf s h.val sid = true → securedRc s (.session h sid) = none → b.length = 2 → leAt b 0 2 = k → 0 < k → k < 4096 → keyUsed s k = false →
    exec (.retireKey (.session h sid) b) s = .next (onFn (fnOf (lead h)) (fun x => { x with doe := .vendor 0xC041#16 .success .none }) 
      { s with cry := { s.cry with keys := Table.set none s.cry.keys k none } })) ∧
  (∀ (s : State) (h : PortId) (sid k : Nat) (b : Bytes) (r : Region), mbUp s (lead h) = true → sessionOf s h.val sid = true → securedRc s (.session h sid) = none → b.length = 8 → leAt b 2 2 = k →
    regionOf s (leAt b 0 2) = some r → r.typ = .protect → leAt b 4 4 = 0 → 0 < k → k < 4096 → (keySlot s (BitVec.ofNat 12 k)).isSome = true →
    k ≠ (currentKey s r).toNat → passOn s r.idx = none → s.cry.passes.length < 8 → s.cry.passes.any (fun p => decide (p.old.toNat = k)) = false →
    fillingRegion s r.idx = false → exec (.startTwilight (.session h sid) b) s = .next (onFn (fnOf (lead h)) (fun x => { x with doe := .vendor 0xC042#16 .success .none }) 
      { s with cry := { s.cry with passes := s.cry.passes ++ [⟨r.idx, currentKey s r, BitVec.ofNat 12 k, false, []⟩] } })) ∧
  (∀ (s : State) (h : PortId) (sid : Nat) (p b : Bytes), mbUp s (lead h) = true → sessionOf s h.val sid = true → leAt p 2 2 = 0 →
    8 + leAt p 4 4 ≤ p.length → b = (p.drop 8).take (leAt p 4 4) →
    (leAt p 0 2 = 0xC040 → exec (.vendorDefinedRequest h sid p) s = exec (.installKey (.session h sid) b) s) ∧
    (leAt p 0 2 = 0xC041 → exec (.vendorDefinedRequest h sid p) s = exec (.retireKey (.session h sid) b) s) ∧
    (leAt p 0 2 = 0xC042 → exec (.vendorDefinedRequest h sid p) s = exec (.startTwilight (.session h sid) b) s) ∧
    (leAt p 0 2 ∉ [0xC040, 0xC041, 0xC042] → exec (.vendorDefinedRequest h sid p) s =
      .next (onFn (fnOf (lead h)) (fun x => { x with doe := .vendor (BitVec.ofNat 16 (leAt p 0 2)) .unsupported .none }) s))) ∧
  (∀ (s : State) (f : Fn) (b : Bytes), mbUp s f = true → s.dawn.recovery = false → isMgmt s f = true →
    exec (.installKey (.mailbox f) b) s = .next (mbPut f .invalidSecurityState .none s) ∧
    exec (.retireKey (.mailbox f) b) s = .next (mbPut f .invalidSecurityState .none s) ∧
    exec (.startTwilight (.mailbox f) b) s = .next (mbPut f .invalidSecurityState .none s)) ∧
  (∀ (s : State) (h : PortId) (sid : Nat) (b : Bytes) (rc : MbRc), mbUp s (lead h) = true → sessionOf s h.val sid = true →
    securedRc s (.session h sid) = some rc → exec (.installKey (.session h sid) b) s = .next (onFn (fnOf (lead h)) (fun x => { x with doe := .vendor 0xC040#16 rc .none }) s) ∧
    exec (.retireKey (.session h sid) b) s = .next (onFn (fnOf (lead h)) (fun x => { x with doe := .vendor 0xC041#16 rc .none }) s) ∧
    exec (.startTwilight (.session h sid) b) s = .next (onFn (fnOf (lead h)) (fun x => { x with doe := .vendor 0xC042#16 rc .none }) s))

/-- What the DOE, CDAT and SPDM requests answer. On a served function Discovery lists the four protocols; Table Access gives the CDAT's header
as entry 0 and each further entry with the number of the next; the SPDM requests answer the chain of slot 0 (another slot is an error), a
challenge signed under a fresh nonce, the seven measurements, a new session within the limits of 2 a head and 16 a device and an error
beyond, heartbeats and key updates of its sessions, and refuse PSK exchange, certificate setting and CSR. The chain's bytes, nonces and
signatures are free values, and layouts the spec does not give are the model's (log 60). -/
def Obligations.DoeCommands : Prop :=
  ∀ (s : State) (f : Fn), mbUp s f = true →
    (exec (.doeDiscovery f 0#8) s = .next (onFn (fnOf f) (fun x => { x with doe := .discovery false 0 1 }) s) ∧
      exec (.doeDiscovery f 1#8) s = .next (onFn (fnOf f) (fun x => { x with doe := .discovery false 1 2 }) s) ∧
      exec (.doeDiscovery f 2#8) s = .next (onFn (fnOf f) (fun x => { x with doe := .discovery false 2 3 }) s) ∧
      exec (.doeDiscovery f 3#8) s = .next (onFn (fnOf f) (fun x => { x with doe := .discovery true 2 0 }) s)) ∧
    exec (.tableAccess f 0#16) s = .next (onFn (fnOf f) (fun x => { x with doe := .cdat (cdatHeader (cdatEntries s f)) (if cdatEntries s f = [] then 0xFFFF#16 else 1#16) }) s) ∧
    (∀ (e : BitVec 16) (b : Bytes), e ≠ 0#16 → (cdatEntries s f)[e.toNat - 1]? = some b → exec (.tableAccess f e) s =
      .next (onFn (fnOf f) (fun x => { x with doe := .cdat b (if e.toNat < (cdatEntries s f).length then e + 1#16 else 0xFFFF#16) }) s)) ∧
    (∀ o n : Nat, o < (chainOf s).length → exec (.getCertificate f 0 o n) s =
      .next (onFn (fnOf f) (fun x => { x with doe := .certificate (((chainOf s).drop o).take (min n 4096)) ((chainOf s).length - o - (((chainOf s).drop o).take (min n 4096)).length) }) s)) ∧
    (∀ (k : Fin 8) (o n : Nat), k.val ≠ 0 → exec (.getCertificate f k o n) s = .next (onFn (fnOf f) (fun x => { x with doe := .error "InvalidRequest" }) s)) ∧
    (∀ n : BitVec 256, ∃ sig, exec (.challenge f 0 n) s =
      .next (onFn (fnOf f) (fun x => { x with doe := .challengeAuth 0 (chainDigest s) (Config.spdmNonce s.free) sig }) { s with free := s.free + 1 })) ∧
    (∃ sig, exec (.getMeasurements f 0xFF#8) s =
      .next (onFn (fnOf f) (fun x => { x with doe := .measurements ([1, 2, 3, 4, 5, 6, 7].map (fun i => (i, measurement s i))) sig }) s)) ∧
    (∀ root : BitVec 256, sessionCount s (fun x => x.head = f.head.val) < 2 → sessionCount s (fun _ => true) < 16 →
      exec (.keyExchange f true true root) s = .next (onFn (fnOf f) (fun x => { x with doe := .keyExchange (s.host.nextSid + 1) }) 
        { s with host := { s.host with
          nextSid := s.host.nextSid + 1, sessions := Table.set none s.host.sessions (s.host.nextSid + 1) (some ⟨f.head.val, root⟩) } })) ∧
    (∀ (a : Bool) (root : BitVec 256), 2 ≤ sessionCount s (fun x => x.head = f.head.val) ∨ 16 ≤ sessionCount s (fun _ => true) →
      exec (.keyExchange f true a root) s = .next (onFn (fnOf f) (fun x => { x with doe := .error "SessionLimitExceeded" }) s)) ∧
    exec (.pskExchange f) s = .next (onFn (fnOf f) (fun x => { x with doe := .error "UnsupportedRequest" }) s) ∧
    exec (.setCertificate f) s = .next (onFn (fnOf f) (fun x => { x with doe := .error "UnsupportedRequest" }) s) ∧
    exec (.getCsr f) s = .next (onFn (fnOf f) (fun x => { x with doe := .error "UnsupportedRequest" }) s) ∧
    (∀ sid : Nat, sessionOf s f.head.val sid = true →
      exec (.heartbeat f sid) s = .next (onFn (fnOf f) (fun x => { x with doe := .heartbeatAck }) s) ∧ exec (.keyUpdate f sid) s = .next (onFn (fnOf f) (fun x => { x with doe := .keyUpdateAck }) s))

/-- What a Twilight line, a pass removal and a lost Koist module do. With no line waited for, the pass whose turn it is on a tile acts on the
next DPA line of its share that it does not skip: one locked by a request is waited for; one on a lost channel or group is passed over,
which takes the pass's turn; one whose record has not arrived is asked for; one whose record has arrived and carries the line's key is
checked and rewritten under the new slot, as rekey and rekeyEnd say, or raises the failed check. An ending pass with nothing admitted under
its old slot is removed. A Koist module that goes out of service leaves its link's other modules as they are and raises KF_MODULE_LOST at
both ends; in Dawn 0 a module's training timeout does the same. With the lines of its rate done at this value of the clock a tile does none.
The order and the pace of passes are the model's (log 129). -/
def Obligations.TwilightAndKoist : Prop :=
  (∀ (s : State) (t : TileId) (g : RegionId) (fl : Flips) (r : Region) (p : Pass), regionOf s g.val = some r → passOn s g.val = some p →
    walkersRun s t.val = true → p.ending = false → s.ha.twWait = [] → passTurn s t.val = some r.idx →
    passNext s r t.val (s.place.length + 2 * (runsOf s t.val r.idx).length + mapFrames s r + 2) (Table.get 0 p.pos t.val) = Table.get 0 p.pos t.val →
    Table.get 0 p.pos t.val < passLines s r → ∀ l : Nat, passLine s r t.val (Table.get 0 p.pos t.val) = .dpa l →
    twSpent s t.val < twRate s t.val →
    (lineFree s l = false → exec (.twilightLine t g fl) s = .next { s with ha := { s.ha with twWait := [l] } }) ∧
    (lineFree s l = true → lineLost s l = true → exec (.twilightLine t g fl) s = .next (setPos r.idx t.val (Table.get 0 p.pos t.val + 1)
      { s with cry := { s.cry with turn := Table.set 0 s.cry.turn t.val (r.idx + 1) } })) ∧
    (lineLost s l = false → lineFree s l = true → takeLine l fl { kind := 2 } s = none →
      exec (.twilightLine t g fl) s = .next (askLine l (walkerPrio s) s)) ∧
    (∀ (x : Rec) (s1 : State), lineLost s l = false → lineFree s l = true → takeLine l fl { kind := 2 } s = some (x, false, s1) →
      metaKey x.meta_ = slotFor s1 r (dpaLoc s1 r l) →
      exec (.twilightLine t g fl) s = .next (rekeyEnd r t.val (Table.get 0 p.pos t.val) (dpaLoc s1 r l) (64 * l) false
        (fun y s => putLine l y s) s1 (rekey (dpaLoc s1 r l) p l x s1)))) ∧
  (∀ (s : State) (t : TileId) (g : RegionId) (fl : Flips) (r : Region) (p : Pass), regionOf s g.val = some r → passOn s g.val = some p →
    walkersRun s t.val = true → p.ending = false → s.ha.twWait = [] → passTurn s t.val = some r.idx →
    passNext s r t.val (s.place.length + 2 * (runsOf s t.val r.idx).length + mapFrames s r + 2) (Table.get 0 p.pos t.val) = Table.get 0 p.pos t.val →
    twRate s t.val ≤ twSpent s t.val → exec (.twilightLine t g fl) s = .next s) ∧
  (∀ (s : State) (g : RegionId) (p : Pass), s.cry.passes = [p] → p.region = g.val → p.ending = true → oldInUse s g.val p.old = false →
    exec (.twilightPassRemove g) s = .next { s with cry := { s.cry with passes := [] } }) ∧
  (∀ (s : State) (l : Fin 10) (m : Fin 4) (a b : Nat), running s = true → (koistLinks s)[l.val]? = some (a, b) →
    (Table.get 0#4 s.fab.modules l.val).getLsbD m.val = true → setBit (Table.get 0#4 s.fab.modules l.val) m.val false ≠ 0#4 →
    exec (.koistModuleLost l m) s = .next (reevaluate (tileSrc a .kfModuleLost) (raiseTile b .kfModuleLost (a + 16 * m.val)
      (raiseTile a .kfModuleLost (b + 16 * m.val) { s with fab := { s.fab with
        modules := Table.set 0#4 s.fab.modules l.val (setBit (Table.get 0#4 s.fab.modules l.val) m.val false) } }))) ∧
    (s.dawn.stage = 0 → s.dawn.failed = false → exec (.koistTrainTimeout l m) s = exec (.koistModuleLost l m) s))

/-- How a tile answers each snoop in each state of a line. In I a snoop is answered SnpRspI. In S SnpInv is answered SnpRspI and the line
becomes I. In E and M the four snoops are answered as the table of R100 says, with forwarded data to the requester where it gives it. In
IS_D, IS_N, IM_D, IM_N and MI_A every snoop is answered SnpRspI and the state kept; in IS_F and IM_F it is deferred behind those already
deferred; in SM_D SnpInv is answered SnpRspI and the state becomes IM_D. -/
def Obligations.SnoopTable : Prop :=
  ∀ (s : State) (t : Nat) (m : Msg), m.op = .snpInv ∨ m.op = .snpShare ∨ m.op = .snpOwn ∨ m.op = .snpCur →
    ((getEvb s t m.line).isSome = true → snoop t m s = sendRsp { op := .snpRspI, src := t, dst := m.src, line := m.line } s) ∧
    (getEvb s t m.line = none → (getTrk s t m.line).live = true →
      ((getTrk s t m.line).st = .isD ∨ (getTrk s t m.line).st = .isN ∨ (getTrk s t m.line).st = .imD ∨ (getTrk s t m.line).st = .imN →
        snoop t m s = sendRsp { op := .snpRspI, src := t, dst := m.src, line := m.line } s) ∧
      ((getTrk s t m.line).st = .isF ∨ (getTrk s t m.line).st = .imF → snoop t m s =
        setTrk t m.line { getTrk s t m.line with deferred := (getTrk s t m.line).deferred ++ [m] } s) ∧
      ((getTrk s t m.line).st = .smD → m.op = .snpInv → snoop t m s =
        sendRsp { op := .snpRspI, src := t, dst := m.src, line := m.line } (setTrk t m.line { getTrk s t m.line with st := .imD, val := {} } s))) ∧
    (getEvb s t m.line = none → (getTrk s t m.line).live = false ∨ (getTrk s t m.line).st = .x →
      (copyOf s t m.line = none → snoop t m s = sendRsp { op := .snpRspI, src := t, dst := m.src, line := m.line } s) ∧
      (∀ v, copyOf s t m.line = some (.s, v) → m.op = .snpInv → snoop t m s =
        sendRsp { op := .snpRspI, src := t, dst := m.src, line := m.line } (putCopy t m.line .i {} s)) ∧
      (∀ v, copyOf s t m.line = some (.e, v) →
        (m.op = .snpInv → snoop t m s = sendRsp { op := .snpRspI, src := t, dst := m.src, line := m.line } (putCopy t m.line .i {} s)) ∧
        (m.op = .snpShare → snoop t m s = sendRsp { op := .snpRspFwd, src := t, dst := m.src, line := m.line, newS := true }
          (sendFwd { op := .fdatS, src := t, dst := m.q, line := m.line, trk := m.trk, val := v } (putCopy t m.line .s v s))) ∧
        (m.op = .snpOwn → snoop t m s = sendRsp { op := .snpRspFwd, src := t, dst := m.src, line := m.line, newI := true }
          (sendFwd { op := .fdatE, src := t, dst := m.q, line := m.line, trk := m.trk, val := v } (putCopy t m.line .i {} s))) ∧
        (m.op = .snpCur → snoop t m s = sendRsp { op := .snpRspFwd, src := t, dst := m.src, line := m.line }
          (sendFwd { op := .fdatX, src := t, dst := m.q, line := m.line, trk := m.trk, val := v } s))) ∧
      (∀ v, copyOf s t m.line = some (.m, v) →
        (m.op = .snpInv → snoop t m s =
          sendRsp { op := .snpRspIData, src := t, dst := m.src, line := m.line, val := v } (putCopy t m.line .i {} s)) ∧
        (m.op = .snpShare → snoop t m s = sendRsp { op := .snpRspFwdS, src := t, dst := m.src, line := m.line, val := v }
          (sendFwd { op := .fdatS, src := t, dst := m.q, line := m.line, trk := m.trk, val := v } (putCopy t m.line .s v s))) ∧
        (m.op = .snpOwn → snoop t m s = sendRsp { op := .snpRspFwd, src := t, dst := m.src, line := m.line, newI := true }
          (sendFwd { op := .fdatM, src := t, dst := m.q, line := m.line, trk := m.trk, val := v } (putCopy t m.line .i {} s))) ∧
        (m.op = .snpCur → snoop t m s = sendRsp { op := .snpRspFwd, src := t, dst := m.src, line := m.line }
          (sendFwd { op := .fdatX, src := t, dst := m.q, line := m.line, trk := m.trk, val := v } s))))

/-- What a request message does when it reaches its home. The oldest request of a tile for a line, in its turn at the last port of its path,
leaves the fabric at its home; out of turn it stays. An aged message goes before every other, a class of higher PRIO before the others, and
within one PRIO the class whose turn it is until its WEIGHT is spent. While the line is taken, or others wait for it, it joins the line's
queue; otherwise it begins: with a directory entry whose parity holds its transaction starts; with none, and no other request waiting for a
way of the set, it starts with a new entry in the way that is to be had, or waits for one. Requests that reach the home with it in the same
cycle land one after another in the order of the ports' turns. An aged request is counted at a port on its route. Where a message waits on
its path is the model's choice (log 113). -/
def Obligations.RequestsReachHome : Prop :=
  (∀ (s : State) (src : TileId) (line : LineAddr) (m : Msg) (p : Op × Instr), reqOf s src.val line.toNat = some m → m.op = p.1 → reqMay s m = true →
    p ∈ [(.rdShared, .rdShared src line []), (.rdOwn, .rdOwn src line []), (.rdCur, .rdCur src line []), (.wrLine, .wrLine src line []),
         (.wrPart, .wrPart src line []), (.hostCe, .hostCe src line []), (.farAtom, .farAtom src line [])] → engineUp s m.dst = true →
    (lineTaken s m.line = true ∨ getLq s m.line ≠ [] → exec p.2 s = .next (settle (driveLine m.line
      (setLq m.line (getLq s m.line ++ [m]) { reqSent m s with fab := { (reqSent m s).fab with req := (reqSent m s).fab.req.erase m } })))) ∧
    (lineTaken s m.line = false → getLq s m.line = [] → exec p.2 s = .next (settle (driveLine m.line
      (beginReq m.line m { reqSent m s with fab := { (reqSent m s).fab with req := (reqSent m s).fab.req.erase m } }))))) ∧
  (∀ (s : State) (src : TileId) (line : LineAddr) (tied : List TileId) (m : Msg) (i : Instr), reqOf s src.val line.toNat = some m → reqMay s m = false →
    i ∈ [.rdShared src line tied, .rdOwn src line tied, .rdCur src line tied, .wrLine src line tied, .wrPart src line tied, .hostCe src line tied, .farAtom src line tied] →
    exec i s = .next s) ∧
  (∀ (s : State) (m x : Msg) (p : Nat × Nat), reqPort s m = some p → x ∈ atPort s p → (x.aged = true → m.aged = false → reqMay s m = false) ∧
    (classPrio s m.attr.cls < classPrio s x.attr.cls → m.aged = false → reqMay s m = false) ∧
    (m.aged = true → m ∈ atPort s p → reqMay s m = true)) ∧
  (∀ (s : State) (m : Msg) (p : Nat × Nat), reqPort s m = some p → m.aged = false → m ∈ atPort s p →
    (∀ x ∈ atPort s p, x.aged = false ∧ classPrio s x.attr.cls ≤ classPrio s m.attr.cls) →
    ∀ turn : Nat × Nat, turn = Table.get (0, 0) s.fab.reqTurn (turnKey p (classPrio s m.attr.cls)) →
    (turn.1 = m.attr.cls → turn.2 < clsWeight s m.attr.cls → reqMay s m = true) ∧
    (turn.1 ≠ m.attr.cls → turn.2 < clsWeight s turn.1 → (∃ x ∈ atPort s p, x.attr.cls = turn.1 ∧ classPrio s x.attr.cls = classPrio s m.attr.cls) → reqMay s m = false)) ∧
  (∀ (s : State) (src : TileId) (line : LineAddr) (tied : List TileId) (m w : Msg) (others l : List Msg) (p : Op × Instr), reqOf s src.val line.toNat = some m →
    m.op = p.1 → reqMay s m = true → p ∈ [(.rdShared, .rdShared src line tied), (.rdOwn, .rdOwn src line tied), (.rdCur, .rdCur src line tied), (.wrLine, .wrLine src line tied),
         (.wrPart, .wrPart src line tied), (.hostCe, .hostCe src line tied), (.farAtom, .farAtom src line tied)] → engineUp s m.dst = true →
    others = tiedWith m tied s → others ≠ [] →
    tieOrder (tiles s) (Table.get 0 s.ha.lastTie m.dst) (m :: others) = w :: l → exec p.2 s = .next (settle ((w :: l).foldl (fun s m => landReq m s)
      { s with ha := { s.ha with lastTie := Table.set 0 s.ha.lastTie m.dst (w.src + 1) } }))) ∧
  (∀ (s : State) (m : Msg), landReq m s = driveLine m.line (reqArrive m { reqSent m s with fab := { (reqSent m s).fab with req := (reqSent m s).fab.req.erase m } })) ∧
  (∀ (s : State) (line w : Nat) (m : Msg), dirWay s line = some w → entryLost s line = false → beginReq line m s = startTxn line false m s) ∧
  (∀ (s : State) (line n w : Nat) (g : Bool) (m : Msg), dirWay s line = none → waiters s (homeOf s line) (dirSet s line) = [] →
    (wayNow s (homeOf s line) (dirSet s line) = some (n, w, g) →
      beginReq line m s = startTxn line true m (newEntry (homeOf s line) (dirSet s line) w g line s)) ∧
    (wayNow s (homeOf s line) (dirSet s line) = none → beginReq line m s = setWaiters (homeOf s line) (dirSet s line) [m] s)) ∧
  (∀ (s : State) (t src : TileId) (line : LineAddr) (m : Msg), reqOf s src.val line.toNat = some m → engineUp s t.val = true →
    t.val ∈ (route s m.src m.dst).dropLast → exec (.reqAgeLimit t src line) s = .next (addCnt (tileCnt t.val 479) 1
      { s with fab := { s.fab with req := s.fab.req.map (fun x => if x = m then { x with aged := true } else x) } }))

/-- What a HOM or FWD message does when it reaches its tile. The next HOM message from a home to a tile leaves the fabric: a snoop is taken by
the tile; DatS, DatE and Grant complete the fill that waits for them; FwdNote moves a waiting fill on, or completes one whose good data has
come and drops one whose data was bad; WbAck frees the eviction buffer; DatX, Cmp and AtomRes are kept by the request that fills no line,
which ends once it has all it waits for; BISnpReq sends the BISnp, or is answered BIRspI at once where the link or its BI channel is down,
and BIAckReq sends BIConflictAck. Forwarded data that comes ahead of its note and is poisoned or passes its check serves the operations that
wait, and data that comes after it completes the fill. DatS, DatE, or forwarded data that fills a line, for a line the tile has not asked
for is a protocol error. -/
def Obligations.HomeMessagesAtTile : Prop :=
  (∀ (s s' : State) (t home : TileId) (m : Msg), engineUp s t.val = true → s' = { s with fab := { s.fab with hom := s.fab.hom.erase m } } → 
    (∀ p ∈ [(Op.snpInv, Instr.snpInv t home), (.snpShare, .snpShare t home), (.snpOwn, .snpOwn t home), (.snpCur, .snpCur t home)],
      nextHom s t.val home.val p.1 = some m → exec p.2 s = .next (settle (pumpFills (snoop t.val m s')))) ∧
    (nextHom s t.val home.val .datS = some m → (getTrk s t.val m.line).live = true → (getTrk s t.val m.line).st = .isD ∨ (getTrk s t.val m.line).st = .isF →
      exec (.datS t home) s = .next (settle (pumpFills (completeFill t.val m.line .s m.val .home true s')))) ∧
    (nextHom s t.val home.val .datE = some m → (getTrk s t.val m.line).live = true → (getTrk s t.val m.line).st = .imD ∨ (getTrk s t.val m.line).st = .imF →
      exec (.datE t home) s = .next (settle (pumpFills (completeFill t.val m.line .e m.val .home true s')))) ∧
    (nextHom s t.val home.val .grant = some m → (getTrk s t.val m.line).live = true → (getTrk s t.val m.line).st = .smD → m.val.err = false →
      exec (.grant t home) s = .next (settle (pumpFills (completeFill t.val m.line .e (getTrk s t.val m.line).val .home true s')))) ∧
    (nextHom s t.val home.val .fwdNote = some m → (getTrk s t.val m.line).live = true → ((getTrk s t.val m.line).st = .isD →
        exec (.fwdNote t home) s = .next (settle (pumpFills (setTrk t.val m.line { getTrk s t.val m.line with st := .isF } s')))) ∧
      ((getTrk s t.val m.line).st = .imD → exec (.fwdNote t home) s = .next (settle (pumpFills (setTrk t.val m.line { getTrk s t.val m.line with st := .imF } s')))) ∧
      ((getTrk s t.val m.line).st = .isN ∨ (getTrk s t.val m.line).st = .imN → (getTrk s t.val m.line).bad = true → exec (.fwdNote t home) s = .next (settle (pumpFills (noteBad t.val m.line s')))) ∧
      ((getTrk s t.val m.line).st = .isN → (getTrk s t.val m.line).bad = false → exec (.fwdNote t home) s = .next (settle (pumpFills (completeFill t.val m.line .s (getTrk s t.val m.line).val .forwarded false s')))) ∧
      ((getTrk s t.val m.line).st = .imN → (getTrk s t.val m.line).bad = false → exec (.fwdNote t home) s = .next (settle (pumpFills (completeFill t.val m.line (if (getTrk s t.val m.line).dirty then .m else .e) (getTrk s t.val m.line).val .forwarded false s'))))) ∧
    (nextHom s t.val home.val .wbAck = some m → (getEvb s t.val m.line).isSome = true →
      exec (.wbAck t home) s = .next (settle (pumpFills (kickTile t.val (runLine t.val m.line (setEvb t.val m.line none s')))))) ∧
    (nextHom s t.val home.val .datX = some m → (getTrk s t.val m.line).live = true → (getTrk s t.val m.line).st = .x →
      exec (.datX t home) s = .next (settle (pumpFills (tryEnd t.val m.line (setTrk t.val m.line { getTrk s t.val m.line with got := some m.val } s'))))) ∧
    (nextHom s t.val home.val .cmp = some m → m.trk < 4096 → (getTrk s t.val m.line).live = true → (getTrk s t.val m.line).st = .x → (∀ a tag hk mv l, getOps s t.val m.line ≠ .hostRd a tag hk mv true :: l) →
      exec (.cmp t home) s = .next (settle (pumpFills (tryEnd t.val m.line (setTrk t.val m.line { getTrk s t.val m.line with
        ndr := some m.ndr, val := { (getTrk s t.val m.line).val with poison := m.val.poison }, got := if m.val.err then some { err := true } else (getTrk s t.val m.line).got } s'))))) ∧
    (nextHom s t.val home.val .atomRes = some m → (getTrk s t.val m.line).live = true → (getTrk s t.val m.line).st = .x → exec (.atomRes t home) s = .next (settle (pumpFills (tryEnd t.val m.line
      (setTrk t.val m.line { getTrk s t.val m.line with got := some { m.val with data := BitVec.ofNat 512 m.orig.toNat } }
        (if m.val.err || m.val.poison then s' else train t.val m.line m.qbusy 1 s')))))) ∧
    (nextHom s t.val home.val .biSnpReq = some m → (getPort s m.attr.head).up = true → (getPort s m.attr.head).bi = true → exec (.biSnpReq t home) s =
      .next (settle (pumpFills (addCnt (portCnt m.attr.head 9) 1 (send m.attr.head (.biSnp m.biTag (BitVec.ofNat 42 m.line) m.bik) s'))))) ∧
    (nextHom s t.val home.val .biSnpReq = some m → (getPort s m.attr.head).up = false ∨ (getPort s m.attr.head).bi = false → exec (.biSnpReq t home) s = .next (settle
      (sendRsp { op := .biRspFwd, src := t.val, dst := m.src, line := m.line, attr := m.attr, biTag := m.biTag, ans := .i } s'))) ∧
    (nextHom s t.val home.val .biAckReq = some m → exec (.biAckReq t home) s = .next (settle (pumpFills (send m.attr.head (.biAck m.biTag) s')))) ∧
    (nextHom s t.val home.val .datS = some m → (getTrk s t.val m.line).live = false → exec (.datS t home) s = .next (settle (pumpFills (badMessage t.val m.line .datS s')))) ∧
    (nextHom s t.val home.val .datE = some m → (getTrk s t.val m.line).live = false → exec (.datE t home) s = .next (settle (pumpFills (badMessage t.val m.line .datE s'))))) ∧
  (∀ (s s' : State) (t : TileId) (line : LineAddr) (m : Msg), engineUp s t.val = true →
    s' = { s with fab := { s.fab with fwd := s.fab.fwd.erase m } } →
    (∀ p ∈ [(Op.fdatS, Instr.fdatS t line, TrkState.isD, TrkState.isN, false), (.fdatE, .fdatE t line, .imD, .imN, false), (.fdatM, .fdatM t line, .imD, .imN, true)],
      s.fab.fwd.find? (fun m => m.dst = t.val ∧ m.line = line.toNat ∧ m.op = p.1) = some m → (getTrk s t.val m.line).live = true → (getTrk s t.val m.line).st = p.2.2.1 →
      m.val.poison = true ∨ valOk m.line m.val.data m.val.chk = true → ∀ s1 : State,
      s1 = setTrk t.val m.line { getTrk s t.val m.line with st := p.2.2.2.1, val := m.val, dirty := p.2.2.2.2 } s' → exec p.2.1 s =
        .next (settle (pumpFills (serveHits t.val m.line .forwarded ((getOps s t.val m.line).length + 1) true (match (getTrk s t.val m.line).way with
          | some w => fillMark t.val m.line w s1
          | none => s1))))) ∧
    (∀ p ∈ [(Op.fdatS, Instr.fdatS t line, TrkState.isF, LineSt.s), (.fdatE, .fdatE t line, .imF, .e), (.fdatM, .fdatM t line, .imF, .m)],
      s.fab.fwd.find? (fun m => m.dst = t.val ∧ m.line = line.toNat ∧ m.op = p.1) = some m → (getTrk s t.val m.line).live = true → (getTrk s t.val m.line).st = p.2.2.1 →
      exec p.2.1 s = .next (settle (pumpFills (completeFill t.val m.line p.2.2.2 m.val .forwarded true s')))) ∧
    (∀ p ∈ [(Op.fdatS, Instr.fdatS t line), (.fdatE, .fdatE t line), (.fdatM, .fdatM t line)],
      s.fab.fwd.find? (fun m => m.dst = t.val ∧ m.line = line.toNat ∧ m.op = p.1) = some m → (getTrk s t.val m.line).live = false →
      exec p.2 s = .next (settle (pumpFills (badMessage t.val m.line p.1 s')))) ∧
    (s.fab.fwd.find? (fun m => m.dst = t.val ∧ m.line = line.toNat ∧ m.op = .fdatX) = some m → (getTrk s t.val m.line).live = true → (getTrk s t.val m.line).id = m.trk → (getTrk s t.val m.line).sink = false → (getTrk s t.val m.line).st = .x →
      exec (.fdatX t line) s = .next (settle (pumpFills (tryEnd t.val m.line (setTrk t.val m.line { getTrk s t.val m.line with got := some m.val } s'))))))

/-- What a RSP message does when it reaches its home. The next RSP message from a tile to a home leaves the fabric. A snoop answer of a tile
that the line's transaction waits for takes the tile out of the entry, brings its data, or records the forward, and the transaction goes on;
one that no transaction waits for raises HA_COH_PROTO. A write-back of the owner of a stable line is written and acknowledged, or waits
where it cannot be written yet; one of another tile raises HA_COH_PROTO; one of a sharer that meets a transaction is that transaction's
data; one that finds an entry whose parity failed begins that entry's loss and is its data. A BI answer ends the BISnp it matches and is
late where it matches none; a host write-back is absorbed while a BISnp to its head is outstanding, with its Warning event where the line is
packed, and raises HA_COH_PROTO otherwise; a conflict is acknowledged on HOM. -/
def Obligations.AnswersAtHome : Prop :=
  ∀ (s s' : State) (t home : TileId) (m : Msg), engineUp s home.val = true → s' = { s with fab := { s.fab with rsp := s.fab.rsp.erase m } } →
    (∀ p ∈ [(Op.snpRspI, Instr.snpRspI t home), (.snpRspIData, .snpRspIData t home), (.snpRspFwd, .snpRspFwd t home), (.snpRspFwdS, .snpRspFwdS t home)],
      nextRsp s t.val home.val p.1 = some m → ((getTxn s m.line).live = false ∨ (getTxn s m.line).snoops.getLsbD m.src = false) →
      exec p.2 s = .next (settle (homeProto m s'))) ∧
    ((getTxn s m.line).live = true → (getTxn s m.line).snoops.getLsbD m.src = true → ∀ s'' : State,
      s'' = onTxn m.line (fun k => { k with snoops := setBit k.snoops m.src false }) s' →
      (nextRsp s t.val home.val .snpRspI = some m → exec (.snpRspI t home) s = .next (settle (driveLine m.line (onEnt m.line (dropTile m.src) s'')))) ∧
      (nextRsp s t.val home.val .snpRspIData = some m → exec (.snpRspIData t home) s = .next (settle (driveLine m.line (onEnt m.line (dropTile m.src)
        (onTxn m.line (fun k => { k with val := some (dirtyVal m.line m.val), fresh := true }) s''))))) ∧
      (nextRsp s t.val home.val .snpRspFwd = some m → m.newS = true → exec (.snpRspFwd t home) s = .next (settle (driveLine m.line
        (onTxn m.line (fun k => { k with forwarded := true }) (onEnt m.line (fun e => { e with ts := .shared }) s''))))) ∧
      (nextRsp s t.val home.val .snpRspFwd = some m → m.newS = false → m.newI = true → exec (.snpRspFwd t home) s = .next (settle (driveLine m.line
        (onTxn m.line (fun k => { k with forwarded := true }) (onEnt m.line (dropTile m.src) s''))))) ∧
      (nextRsp s t.val home.val .snpRspFwd = some m → m.newS = false → m.newI = false → exec (.snpRspFwd t home) s = .next (settle (driveLine m.line
        (onTxn m.line (fun k => { k with forwarded := true }) s'')))) ∧
      (nextRsp s t.val home.val .snpRspFwdS = some m → exec (.snpRspFwdS t home) s = .next (settle (driveLine m.line (onEnt m.line (fun e => { e with ts := .shared })
        (onTxn m.line (fun k => { k with forwarded := true })
          (onTxn m.line (fun k => { k with val := some (dirtyVal m.line m.val), fresh := true }) s''))))))) ∧
    (nextRsp s t.val home.val .wbData = some m → (getTxn s m.line).live = false → entryLost s m.line = false → ownerTile (entOf s m.line) = some m.src →
      ((applyWb m s').1 = true → exec (.wbData t home) s = .next (settle (driveLine m.line (applyWb m s').2))) ∧
      ((applyWb m s').1 = false → exec (.wbData t home) s = .next (settle
        (onHa (fun h => { h with wbuf := Table.mod [] h.wbuf m.line (fun l => l ++ [m]) }) (applyWb m s').2)))) ∧
    (nextRsp s t.val home.val .wbData = some m → (getTxn s m.line).live = false → entryLost s m.line = false → ownerTile (entOf s m.line) ≠ some m.src →
      exec (.wbData t home) s = .next (settle (homeProto m s'))) ∧
    (nextRsp s t.val home.val .wbData = some m → (getTxn s m.line).live = true → (entOf s m.line).tvec.getLsbD m.src = true ∨ (getTxn s m.line).lost = true → exec (.wbData t home) s = .next (settle
      (sendHom { op := .wbAck, src := m.dst, dst := m.src, line := m.line } (onEnt m.line (dropTile m.src)
        (onTxn m.line (fun k => { k with val := some (dirtyVal m.line m.val), fresh := true }) s'))))) ∧
    (nextRsp s t.val home.val .wbData = some m → (dirWay s m.line).isSome = true → (getTxn s m.line).live = false → entryLost s m.line = true → (evictions s m.dst).length < 64 →
      Table.get false s.ha.walkLock m.line = false → exec (.wbData t home) s = .next (settle
      (sendHom { op := .wbAck, src := m.dst, dst := m.src, line := m.line } (onEnt m.line (dropTile m.src)
        (onTxn m.line (fun k => { k with val := some (dirtyVal m.line m.val), fresh := true }) (loseEntry m.line s')))))) ∧
    (nextRsp s t.val home.val .biRspFwd = some m → (∀ e ∈ s.ha.txns, ∀ b ∈ e.2.bis, b.1 = m.attr.head → b.2.1 ≠ m.biTag) →
      exec (.biRspFwd t home) s = .next (settle (addCnt (portCnt m.attr.head 10) 1 s'))) ∧
    (∀ (line : Nat) (k : Txn) (b : Nat × BitVec 16 × BiKind × Bool),
      nextRsp s t.val home.val .biRspFwd = some m → s.ha.txns.find? (fun e => e.2.live && decide (homeOf s e.1 = m.dst) && e.2.bis.any (fun b => b.1 = m.attr.head ∧ b.2.1 = m.biTag)) = some (line, k) →
      k.bis.find? (fun b => b.1 = m.attr.head ∧ b.2.1 = m.biTag) = some b →
      (biAccepts b.2.2.1 m.ans = true →
        exec (.biRspFwd t home) s = .next (settle (driveLine line (endBis line m.attr.head m.biTag m.ans false s')))) ∧
      (biAccepts b.2.2.1 m.ans = false →
        exec (.biRspFwd t home) s = .next (settle (driveLine line (biFailure m.attr.head line (endBis line m.attr.head m.biTag .i true s')))))) ∧
    (nextRsp s t.val home.val .hostWb = some m → (getTxn s m.line).live = true → (∃ b ∈ (getTxn s m.line).bis, b.1 = m.attr.head) → ∀ r : Region, regionAt s (64 * m.line) = some r → exec (.hostWb t home) s = .next (settle
      (sendHom { op := .cmp, src := m.dst, dst := m.src, line := m.line, trk := wbTrk, attr := m.attr, biTag := m.biTag }
        (onTxn m.line (fun k => { k with merges := k.merges ++ [(m.mask, m.val)] }) (if r.typ = .packed then warnPacked m.attr.head m.line s' else s'))))) ∧
    (nextRsp s t.val home.val .hostWb = some m → (getTxn s m.line).live = false ∨ (∀ b ∈ (getTxn s m.line).bis, b.1 ≠ m.attr.head) → exec (.hostWb t home) s = .next (settle (homeProto m s'))) ∧
    (nextRsp s t.val home.val .biConflictFwd = some m → exec (.biConflictFwd t home) s = .next (settle
      (sendHom { op := .biAckReq, src := m.dst, dst := m.src, line := m.line, attr := m.attr, biTag := m.biTag } s')))

/-- What the home agent does of itself. A media read's record goes to its transaction, and a read of a line that no storage holds makes a
request's transaction fail; data that no read waits for is a protocol error. When a free line is served its parked write-backs are applied
and then its oldest queued request begins. A BISnp that is not answered in time raises HA_BI_TIMEOUT, logs a Failure event on the head and
counts as BIRspI, which spoils the line where the BISnp was sent as one that may lose dirty data. The victim of a waiting miss, or an entry
of way 15 whose transaction has ended and that finds no invalid open way, begins its eviction, as a lost entry where it is one
(HA_DIR_PARITY raised and PARITY_LOST set). A request that waited for a buffer or tracker is sent: under its class's reserve at once, and
with a shared tracker only where it is the oldest of the head whose turn, in its tenant's turn, it is. -/
def Obligations.HomeOwnCommands : Prop :=
  (∀ (s : State) (line : LineAddr) (r : Region) (flips : Flips) (shadow : ShadowFlips), regionAt s (64 * line.toNat) = some r →
    engineUp s (homeOf s line.toNat) = true → (getTxn s line.toNat).live = true → (getTxn s line.toNat).media = true → r.typ ≠ .packed →
    (lineLost s line.toNat = true → exec (.mediaReadData line flips shadow) s = .next (settle (driveLine line.toNat (onTxn line.toNat
      (fun k => { k with media := false, metaWait := false, fail := !k.evict, spoil := false }) s)))) ∧
    (∀ (x : Rec) (lost : Bool) (s1 : State), lineLost s line.toNat = false → readsOwn s line.toNat (getTxn s line.toNat) = true →
      takeLine line.toNat flips (match (getTxn s line.toNat).req with | some m => whoOf m.attr | none => {}) s = some (x, lost, s1) →
      exec (.mediaReadData line flips shadow) s = .next (settle (driveLine line.toNat (takeMedia line.toNat r x lost shadow s1))))) ∧
  (∀ (s : State) (line : LineAddr) (r : Region) (flips : Flips) (shadow : ShadowFlips), regionAt s (64 * line.toNat) = some r →
    engineUp s (homeOf s line.toNat) = true → r.typ ≠ .packed → (getTxn s line.toNat).live = false ∨ (getTxn s line.toNat).media = false →
    exec (.mediaReadData line flips shadow) s = .next (settle (protoAt (homeOf s line.toNat) line.toNat (0xFF + 256 * homeOf s line.toNat) s))) ∧
  (∀ (s : State) (line : LineAddr), engineUp s (homeOf s line.toNat) = true → lineHeld s line.toNat = false → ∀ s1 : State,
    s1 = (Table.get [] s.ha.wbuf line.toNat).foldl (fun s m => wbArrive m s) (onHa (fun h => { h with wbuf := Table.set [] h.wbuf line.toNat [] }) s) →
    (Table.get [] s1.ha.wbuf line.toNat ≠ [] → exec (.lineQueueServe line) s = .next s1) ∧
    (Table.get [] s1.ha.wbuf line.toNat = [] →
      (∀ m l, getLq s1 line.toNat = m :: l → exec (.lineQueueServe line) s =
        .next (settle (driveLine line.toNat (beginReq line.toNat m (setLq line.toNat l s1))))) ∧
      (getLq s1 line.toNat = [] → exec (.lineQueueServe line) s = .next (settle (driveLine line.toNat s1))))) ∧
  (∀ (s : State) (line : LineAddr) (h : PortId) (tag : BitVec 16) (k : BiKind) (d : Bool),
    engineUp s (homeOf s line.toNat) = true → (getTxn s line.toNat).bis.find? (fun b => b.1 = h.val) = some (h.val, tag, k, d) →
    exec (.bisnpTimeout line h) s = .next (settle (driveLine line.toNat (raiseTile (homeOf s line.toNat) .haBiTimeout h.val
      (eventHead h.val ⟨.failure, .biTimeout (64 * line.toNat)⟩ (onTxn line.toNat (fun k => { k with
        bis := k.bis.filter (fun b => ¬(b.1 = h.val ∧ b.2.1 = tag)), answers := k.answers ++ [(h.val, .i)], spoil := k.spoil || d }) s)))))) ∧
  (∀ (s : State) (line : LineAddr) (w : Nat), dirWay s line.toNat = some w → engineUp s (homeOf s line.toNat) = true →
    (getTxn s line.toNat).live = false → wayHeld s (homeOf s line.toNat) (dirSet s line.toNat) w = false → (evictions s (homeOf s line.toNat)).length < 64 →
    emptyWay s (homeOf s line.toNat) (dirSet s line.toNat) = none →
    (victimWay s (homeOf s line.toNat) (dirSet s line.toNat) = some w ∧ waiters s (homeOf s line.toNat) (dirSet s line.toNat) ≠ [] ∧
      evictingWays s (homeOf s line.toNat) (dirSet s line.toNat) < (waiters s (homeOf s line.toNat) (dirSet s line.toNat)).length +
        b2n (reservedWay s (homeOf s line.toNat) && (getDir s (homeOf s line.toNat) (dirSet s line.toNat) 15).guest)) ∨
      (reservedWay s (homeOf s line.toNat) = true ∧ w = 15 ∧ (getDir s (homeOf s line.toNat) (dirSet s line.toNat) 15).guest = false) →
    ∀ (s1 : State) (guest15 : Bool), guest15 = (reservedWay s (homeOf s line.toNat) && decide (w = 15) && !(getDir s (homeOf s line.toNat) (dirSet s line.toNat) 15).guest) →
    (entryLost s line.toNat = false → s1 = startEvict line.toNat false s) → (entryLost s line.toNat = true → s1 = startEvict line.toNat true
      (raiseTile (homeOf s line.toNat) .haDirParity (dirSet s line.toNat) (raiseBit .haDirSts (homeOf s line.toNat) 31 s))) →
    (guest15 = true ∨ reservedWay s (homeOf s line.toNat) = false ∨ (getDir s (homeOf s line.toNat) (dirSet s line.toNat) 15).v = false →
      exec (.dirEvictionStart line) s = .next (settle (driveLine line.toNat s1))) ∧
    (guest15 = false → reservedWay s (homeOf s line.toNat) = true → (getDir s (homeOf s line.toNat) (dirSet s line.toNat) 15).v = true →
      exec (.dirEvictionStart line) s = .next (settle (driveLine line.toNat (onTxn line.toNat (fun k => { k with claimed := true }) s1))))) ∧
  (∀ (s : State) (t : TileId) (line : LineAddr), engineUp s t.val = true → (getTrk s t.val line.toNat).live = true → (getTrk s t.val line.toNat).unsent = true →
    exec (.deferredMissSend t line) s = .next (settle (runLine t.val line.toNat (launch t.val line.toNat s)))) ∧
  (∀ (s s0 : State) (t line : Nat) (k : Trk) (m : Msg), k = getTrk s t line → k.req = some m → s0 = setTrk t line { k with unsent := true } s →
    (cutOff s t m.dst = true → launch t line s = failFront t line (freeTrkOf t line s)) ∧
    (cutOff s t m.dst = false → readySlot t line k s0 = none → launch t line s = s0) ∧
    (∀ s1, cutOff s t m.dst = false → readySlot t line k s0 = some s1 →
      (inReserve s1 m.dst m.attr.cls = true → launch t line s = sendReq t line k m false s1) ∧
      (inReserve s1 m.dst m.attr.cls = false → homeRoom s1 m.dst m.attr.cls = true → itsTurn s0 m.dst m.attr k.seq = true →
        launch t line s = sendReq t line k m true (takeTurn (turnHead m.attr) m.dst s1)) ∧
      (inReserve s1 m.dst m.attr.cls = false → homeRoom s1 m.dst m.attr.cls = false ∨ itsTurn s0 m.dst m.attr k.seq = false → launch t line s = s1))) ∧
  (∀ (s : State) (home seq : Nat) (a : Attr), itsTurn s home a seq = true ↔ poolTurn s home = some (turnHead a) ∧ oldestPool s (turnHead a) home = some seq)

/-- What the range engine, the way and scratch commands and a fill do. Each range-engine command stores its OP and starts it, does nothing while
START reads 1, and ends with START clear and DONE set once every line is done and every write-back it caused is acknowledged. A range of 0
lines completes at once; CLEAN and INV take the lines of the range that the tile holds, the ALL forms those of every slot. NC_WAY_CFG
written after the first fill is discarded with WAYCFG_LATE. Scratch answers an error beyond its size; an 8-byte write stores the word with
its check byte; a read answers the bytes asked for, corrected where one bit is wrong, or an error with NC_SCR_UE. A fill whose range no line
operation and no ingest commit is active in is drained; a page that is drained, swept and held by no directory entry is taken. -/
def Obligations.RangesScratchFills : Prop :=
  (∀ (s : State) (a : Agent) (t : TileId), regOpen s a .ncRangeCtl t.val = true →
    (∀ p ∈ [(RangeOp.clean, 1, Instr.clean a t), (RangeOp.inv, 2, Instr.inv a t), (RangeOp.cleanAll, 3, Instr.cleanAll a t), (RangeOp.invAll, 4, Instr.invAll a t), (RangeOp.preloadLock, 5, Instr.preloadLock a t), (RangeOp.unlock, 6, Instr.unlock a t)],
      ((getRange s t.val).run = none → exec p.2.2 s = .next (settle (startRange t.val p.1 (setReg .ncRangeCtl t.val (BitVec.ofNat 32 p.2.1) s)))) ∧
      ((getRange s t.val).run ≠ none → exec p.2.2 s = .next (settle s)))) ∧
  (∀ (s : State) (t : Nat) (op : RangeOp), rangeLen s t = 0 → op ≠ .cleanAll → op ≠ .invAll →
    startRange t op s = raiseBit .ncRangeSts t 31 (onRange t (fun _ => {}) s)) ∧
  (∀ (s : State) (t : Nat), rangeLen s t ≠ 0 →
    startRange t .clean s = (rangeTargets s t false).foldl (fun s l => startOp t l .clean s)
      (onRange t (fun _ => { run := some .clean, waits := rangeTargets s t false }) s) ∧
    startRange t .inv s = (rangeTargets s t false).foldl (fun s l => startOp t l .inv s)
      (onRange t (fun _ => { run := some .inv, waits := rangeTargets s t false }) s)) ∧
  (∀ (s : State) (t : Nat),
    startRange t .cleanAll s = (rangeTargets s t true).foldl (fun s l => startOp t l .clean s)
      (onRange t (fun _ => { run := some .cleanAll, waits := rangeTargets s t true }) s) ∧
    startRange t .invAll s = (rangeTargets s t true).foldl (fun s l => startOp t l .inv s)
      (onRange t (fun _ => { run := some .invAll, waits := rangeTargets s t true }) s)) ∧
  (∀ (s : State) (t : TileId), tileRuns s t.val = true → (getRange s t.val).run.isSome = true → (getRange s t.val).waits = [] → (getRange s t.val).left = 0 →
    ((∀ l ∈ (getRange s t.val).wbs, getEvb s t.val l = none) → exec (.rangeOpDone t) s = .next (raiseBit .ncRangeSts t.val 31 (onRange t.val (fun x => { x with run := none, wbs := [] }) s))) ∧
    ((∃ l ∈ (getRange s t.val).wbs, (getEvb s t.val l).isSome = true) → exec (.rangeOpDone t) s = .next s)) ∧
  (∀ (s : State) (a : Agent) (t : TileId) (v : W32), regOpen s a .ncWayCfg t.val = true →
    (s.nc.filled.getLsbD t.val = true → exec (.ncWayCfgWrite a t v) s = .next (raiseBit .ncSts t.val 31 s)) ∧
    (s.nc.filled.getLsbD t.val = false → exec (.ncWayCfgWrite a t v) s = .next (writeReg .ncWayCfg t.val v s))) ∧
  (∀ (s : State) (t : TileId) (off : BitVec 26) (len : Nat) (v : W64) (flips : BitVec 72), tileRuns s t.val = true → len ≠ 0 →
    (scratchKey s t.val off.toNat = none → exec (.scratchRead t off len flips) s = .next { s with nc := { s.nc with scrOut := some none } } ∧
      exec (.scratchWrite t off len v flips) s = .next { s with nc := { s.nc with scrOut := some none } }) ∧
    (∀ key, scratchKey s t.val off.toNat = some key →
      (off.toNat % 8 = 0 → 8 ≤ len → exec (.scratchWrite t off len v flips) s = .next { s with nc := { s.nc with
        scratch := Table.set none s.nc.scratch key (some (v, BitVec.ofNat 8 (checkByte (off.toNat / 64) (off.toNat / 8 % 8) v.toNat))),
        scrOut := some (some 0#64) } }) ∧
      (∀ (w : W64) (c : Byte), Table.get none s.nc.scratch key = some (w, c) →
        (checkWord 64 (off.toNat / 64) (off.toNat / 8 % 8) (w.toNat ^^^ flips.toNat % 2 ^ 64) (c.toNat ^^^ flips.toNat >>> 64) = .ok →
          exec (.scratchRead t off len flips) s = .next { s with nc := { s.nc with scrOut := some (some (BitVec.ofNat 64
            ((BitVec.ofNat 64 (w.toNat ^^^ flips.toNat % 2 ^ 64)).toNat >>> (8 * (off.toNat % 8)) % 2 ^ (8 * min len (8 - off.toNat % 8))))) } }) ∧
        (∀ x, checkWord 64 (off.toNat / 64) (off.toNat / 8 % 8) (w.toNat ^^^ flips.toNat % 2 ^ 64) (c.toNat ^^^ flips.toNat >>> 64) = .fixed x →
          exec (.scratchRead t off len flips) s = .next { s with nc := { s.nc with scrOut := some (some (BitVec.ofNat 64
            ((BitVec.ofNat 64 x).toNat >>> (8 * (off.toNat % 8)) % 2 ^ (8 * min len (8 - off.toNat % 8))))) } }) ∧
        (checkWord 64 (off.toNat / 64) (off.toNat / 8 % 8) (w.toNat ^^^ flips.toNat % 2 ^ 64) (c.toNat ^^^ flips.toNat >>> 64) = .bad →
          exec (.scratchRead t off len flips) s = .next (scratchAnswer none (raiseTile t.val .ncScrUe (off.toNat / 8) s)))))) ∧
  (∀ (s : State) (n : Nat) (f : Fill), getFill s n = some f → running s = true → midnight s = false → lineActive s (fillHas f) = false → commitOn s f = false →
    exec (.fillDrainDone n) s = .next (tryEndFill n (setFill n (some { f with drained := true }) s))) ∧
  (∀ (s : State) (n : Nat) (f : Fill) (page : BitVec 36) (r : Region), getFill s n = some f → regionAt s (4096 * page.toNat) = some r → running s = true →
    midnight s = false → f.drained = true → fillHas f (64 * page.toNat) = true → lineActive s (fun l => decide (l / 64 = page.toNat)) = false →
    (s.ha.dir.any (fun e => e.2.v && decide (e.2.line / 64 = page.toNat))) = false → page.toNat ∈ f.swept →
    exec (.fillPage n page) s = .next (tryEndFill n (takePage r page.toNat s)))

/-- What the DRAM commands do to a sub-channel or channel. An interval raises the refresh debt of every rank, a halved one that of the ranks
marked for it, not above POSTPONE_MAX, and does nothing in Dusk. An idle rank that owes a refresh takes one; a refresh of a whole rank
lowers its debt, and its banks' RFM counts by the threshold, and closes its rows. At the deadline the refresh is forced and FORCED set: in
same-bank mode of each bank index whose flag is clear where a flag is set, otherwise of the whole rank. An RFM of a bank whose count has
reached the threshold closes its row, and is owed while the sub-channel does not serve. A rank that asks for twice the rate, or is beyond
its range, is marked for the halved interval, and beyond it DR_OVERTEMP is raised. An aged read goes first and turns the sub-channel to
reads; an aged write goes first and the writes drain to WQ_LOW. An idle channel with Dusk enabled begins to enter Dusk; entry pays every
debt, closing the rows of the ranks that owed, and ends asleep with ENTERED set, in exit where a request came too late to abandon it, or
awake where one abandoned it; exit ends awake with no debt, and the RFMs owed are issued, and then the requests held, in the order of their
arrival. A fault that the PMIC poll reports after the run lock loses the channel, as does a PHY that stays unlocked. A scrub tick scrubs the
next line, and counts a line behind schedule in Dusk. -/
def Obligations.DramCommands : Prop :=
  (∀ (s : State) (d : SubId), ∀ half : Bool, (subUp s d.val = true → inDusk s d.val = false → exec (.refreshInterval d half) s = .next (onSub d.val (fun c =>
      { c with debt := ((List.range (ranksIn s d.val)).filter (fun r => !half || (getSub s d.val).high.getLsbD r)).foldl (fun t r => Table.mod 0 t r (fun v => satAdd v 1 (postponeMax s (d.val / 16)))) c.debt }) s)) ∧
    (inDusk s d.val = true → exec (.refreshInterval d half) s = .next s)) ∧
  (∀ (s : State) (d : SubId) (rank : RankId), subAwake s d.val = true → rank.val < ranksIn s d.val →
    (∀ bank, Table.get 0 (getSub s d.val).debt rank.val ≠ 0 → sameBank s (d.val / 16) = false → queuedTo s d.val rank.val none = false →
      exec (.idleRefresh d rank bank) s = .next (onSub d.val (refAb rank.val) s)) ∧
    (Table.get 0 (getSub s d.val).debt rank.val ≠ 0 → sameBank s (d.val / 16) = true → (Table.get 0#4 (getSub s d.val).flags rank.val).getLsbD 0 = false →
      queuedTo s d.val rank.val (some 0) = false → exec (.idleRefresh d rank 0) s = .next (onSub d.val (refSb rank.val 0) s)) ∧
    (postponeMax s (d.val / 16) ≤ Table.get 0 (getSub s d.val).debt rank.val → sameBank s (d.val / 16) = false →
      exec (.refreshDeadline d rank) s = .next (onSub d.val (refAb rank.val) (raiseBit .drRefSts d.val 9 (addCnt (subCnt d.val 5) 1 s)))) ∧
    (postponeMax s (d.val / 16) ≤ Table.get 0 (getSub s d.val).debt rank.val → sameBank s (d.val / 16) = true →
      Table.get 0#4 (getSub s d.val).flags rank.val = 0#4 → exec (.refreshDeadline d rank) s =
        .next (onSub d.val (refAb rank.val) (raiseBit .drRefSts d.val 8 (raiseBit .drRefSts d.val 9 (addCnt (subCnt d.val 5) 1 s))))) ∧
    (postponeMax s (d.val / 16) ≤ Table.get 0 (getSub s d.val).debt rank.val → sameBank s (d.val / 16) = true →
      Table.get 0#4 (getSub s d.val).flags rank.val ≠ 0#4 → exec (.refreshDeadline d rank) s =
        .next (onSub d.val (fun c => (List.range 4).foldl (fun c b => if (Table.get 0#4 (getSub s d.val).flags rank.val).getLsbD b then c else refSb rank.val b c) c)
          (raiseBit .drRefSts d.val 9 (addCnt (subCnt d.val 5) 1 s)))) ∧
    (exec (.mr4Read d rank true false) s = .next (onSub d.val (fun c => { c with high := setBit c.high rank.val true }) s)) ∧
    (exec (.mr4Read d rank false false) s = .next (onSub d.val (fun c => { c with high := setBit c.high rank.val false }) s)) ∧
    (∀ twice, exec (.mr4Read d rank twice true) s = .next (raiseTile (d.val / 16) .drOvertemp (d.val + 65536 * rank.val)
      (onSub d.val (fun c => { c with high := setBit c.high rank.val true }) s)))) ∧
  (∀ (rank : Nat) (c : SubCh), (refAb rank c).debt = Table.mod 0 c.debt rank (· - 1) ∧ (refAb rank c).flags = Table.set 0#4 c.flags rank 0#4 ∧
    (∀ e ∈ (refAb rank c).rows, e.1 / 32 ≠ rank) ∧ (Table.wf 0 c.acts = true → ∀ k, Table.get 0 (refAb rank c).acts k = Table.get 0 c.acts k - (if k / 32 = rank then c.raa else 0)) ∧
    (∀ b, Table.wf 0 c.acts = true → ∀ k, Table.get 0 (refSb rank b c).acts k = Table.get 0 c.acts k - (if k / 32 = rank ∧ k % 4 = b then c.raa else 0)) ∧ (refAb rank c).wq = c.wq ∧ (refAb rank c).rq = c.rq ∧ (refAb rank c).st = c.st) ∧
  (∀ (s : State) (d : SubId) (rank : RankId) (bg : Fin 8) (bank : Fin 4),
    (subAwake s d.val = true → exec (.closeIdlePrecharge d rank bg bank) s =
      .next (onSub d.val (fun c => { c with rows := Table.drop c.rows (bankKey rank.val bg.val bank.val) }) s)) ∧
    (subUp s d.val = true → rank.val < ranksIn s d.val → ∀ raa : Nat, raa = (getSub s d.val).raa → raa ≠ 0 →
      raa ≤ Table.get 0 (getSub s d.val).acts (bankKey rank.val bg.val bank.val) →
      (subAwake s d.val = true → exec (.rfmThreshold d rank bg bank) s = .next (addCnt (subCnt d.val 7) 1
        (onSub d.val (fun c => { c with rows := Table.drop c.rows (bankKey rank.val bg.val bank.val),
                                        acts := Table.mod 0 c.acts (bankKey rank.val bg.val bank.val) (· - raa),
                                        rfm := c.rfm.erase (bankKey rank.val bg.val bank.val) }) s))) ∧
      (subAwake s d.val = false → bankKey rank.val bg.val bank.val ∉ (getSub s d.val).rfm → exec (.rfmThreshold d rank bg bank) s =
        .next (onSub d.val (fun c => { c with rfm := (getSub s d.val).rfm ++ [bankKey rank.val bg.val bank.val] }) s)))) ∧
  (∀ (s : State) (d : SubId), subAwake s d.val = true →
    (∀ q l, (getSub s d.val).rq = q :: l → exec (.ageLimit d true) s =
      .next (onSub d.val (fun c => { c with rq := { q with first := true } :: l, writing := false }) s)) ∧
    (∀ q l, (getSub s d.val).wq = q :: l → exec (.ageLimit d false) s = .next (drainTo d.val (min (wqLow s (d.val / 16)) l.length)
      (onSub d.val (fun c => { c with wq := { q with first := true } :: l }) s)))) ∧
  (∀ (s : State) (t : TileId) (c : DimmId),
    (tileRuns s t.val = true → bit (regRaw s .drDuskCfg t.val) 0 = true → s.qos.duskOff = false → (getDimm s t.val c.val).dusk = .awake →
      channelBusy s t.val c.val = false → (∀ d, d = 16 * t.val + 2 * c.val ∨ d = 16 * t.val + 2 * c.val + 1 → (getSub s d).st = .service ∧ (getSub s d).wq = [] ∧
        (getSub s d).rq = [] ∧ (getSub s d).trn = none ∧ rfmOwed s d = false) →
      exec (.duskIdle t c) s = .next (onDimm t.val c.val (fun x =>
        { x with dusk := .entering, abandon := false, leave := false, since := s.time.now, pay := payTime s t.val c.val }) s)) ∧
    (∀ s1 s2 : State, s1 = payDebt t.val c.val s → s2 = payDebt t.val c.val (onDimm t.val c.val (fun y => { y with dusk := .awake }) s) →
      (∀ d, d = 16 * t.val + 2 * c.val ∨ d = 16 * t.val + 2 * c.val + 1 → (getSub s1 d).debt = [] ∧ (getSub s1 d).flags = [] ∧
        ∀ e ∈ (getSub s1 d).rows, e ∈ (getSub s d).rows ∧ Table.get 0 (getSub s d).debt (e.1 / 32) = 0) ∧
      ((getDimm s t.val c.val).dusk = .entering → (getDimm s t.val c.val).abandon = false → exec (.duskEntryDone t c) s = .next (raiseBit .drDuskSts t.val (8 + c.val)
        (onSub (16 * t.val + 2 * c.val + 1) (fun y => { y with rows := [] }) (onSub (16 * t.val + 2 * c.val) (fun y => { y with rows := [] })
          (onDimm t.val c.val (fun y => { y with dusk := if (getDimm s t.val c.val).leave then .waking else .asleep, leave := false }) s1))))) ∧
      ((getDimm s t.val c.val).dusk = .entering → (getDimm s t.val c.val).abandon = true → exec (.duskEntryDone t c) s =
        .next (turn (16 * t.val + 2 * c.val + 1) (issueHeld (16 * t.val + 2 * c.val + 1) (turn (16 * t.val + 2 * c.val) (issueHeld (16 * t.val + 2 * c.val)
          (onDimm t.val c.val (fun y => { y with dusk := .awake, abandon := false }) s1)))))) ∧
      (∀ up : Nat → State → State, (∀ i s, up i s = turn i (issueHeld i ((getSub s i).rfm.foldl (fun s k => rfmBank i k s) (onSub i (fun y => { y with behind := decide (0 < y.lag) }) s)))) →
        (getDimm s t.val c.val).dusk = .waking → exec (.duskExitDone t c) s = .next (up (16 * t.val + 2 * c.val + 1) (up (16 * t.val + 2 * c.val) s2)))) ∧
    (subLines s (16 * t.val + 2 * c.val) < 2 * (getSub s (16 * t.val + 2 * c.val)).lag ∨
        subLines s (16 * t.val + 2 * c.val + 1) < 2 * (getSub s (16 * t.val + 2 * c.val + 1)).lag → (getDimm s t.val c.val).dusk = .asleep →
      exec (.scrubCatchUpWake t c) s = .next (wake (16 * t.val + 2 * c.val) s)) ∧
    ((s.dawn.runLock = true → (getDimm s t.val c.val).pmic = true → exec (.pmicPoll t c true) s = .next (loseChannel t.val c.val .pmic 5 s)) ∧ exec (.pmicPoll t c false) s = .next s) ∧
    (subUp s (16 * t.val + 2 * c.val) = true → exec (.phyLockLost t c) s = .next (onDimm t.val c.val (fun x => { x with unlocked := true }) s)) ∧
    ((getDimm s t.val c.val).unlocked = true → exec (.phyLockTimeout t c) s =
      .next (loseChannel t.val c.val .phy 6 (onDimm t.val c.val (fun x => { x with unlocked := false }) s)))) ∧
  (∀ (s : State) (d : SubId) (flips : Flips), walkersRun s (d.val / 16) = true → (getSub s d.val).st = .service →
    (getSub s d.val).trn = none → regFld s .drScrubCfg (d.val / 16) 19 0 ≠ 0 → inDusk s d.val = true → exec (.scrubTick d flips) s =
      .next (onSub d.val (fun c => { c with lag := c.lag + 1 }) s)) ∧
  (∀ (s : State) (d : SubId) (flips : Flips), walkersRun s (d.val / 16) = true → (getSub s d.val).st = .service →
    (getSub s d.val).trn = none → regFld s .drScrubCfg (d.val / 16) 19 0 ≠ 0 → inDusk s d.val = false → exec (.scrubTick d flips) s =
      .next (onSub d.val (fun c =>
        { c with scrub := (if subLines s d.val ≤ c.scrub + 1 then 0 else c.scrub + 1), lag := c.lag - 1, behind := c.behind && decide (1 < c.lag),
                 passes := (if subLines s d.val ≤ c.scrub + 1 then satAdd c.passes 1 32767 else c.passes) }) (scrubLine d.val (scrubF s d.val (getSub s d.val).scrub) flips (drServeAll d.val s))))

/-- What the training commands of a sub-channel do. Before the run lock, each training command by an agent with rights stores the register and
starts a run of its OP, waking the channel, and starts nothing while a helper runs; after the run lock it is discarded. A run that ends
clears START, sets DONE, and leaves its error count where it compares and its lanes where it reads. Before the run lock a PHY setting is
stored under its kind, lane and rank; a reserved kind has no effect. -/
def Obligations.DramTraining : Prop :=
  (∀ (s : State) (a : Agent) (d : SubId) (v : W32), regOpen s a .drTrnCtl d.val = true →
    (∀ p ∈ [(TrnOp.writeRead, 0, Instr.writeReadCompare a d v), (TrnOp.read, 1, Instr.readCompare a d v), (TrnOp.write, 2, Instr.writeOnly a d v), (TrnOp.pattern, 3, Instr.readTrainingPattern a d v), (TrnOp.level, 4, Instr.writeLevelingSample a d v)],
      (locked s = true → exec p.2.2 s = .next s) ∧
      (locked s = false → (getSub s d.val).trn = none → exec p.2.2 s =
        .next (onSub d.val (fun c => { c with trn := some p.1 }) (writeReg .drTrnCtl d.val (trnWord p.2.1 v) (wake d.val s)))) ∧
      (locked s = false → (getSub s d.val).trn ≠ none → exec p.2.2 s = .next (writeReg .drTrnCtl d.val (trnWord p.2.1 v) (wake d.val s))))) ∧
  (∀ (s : State) (d : SubId) (errs : Nat) (lanes : BitVec 40) (op : TrnOp), (getSub s d.val).trn = some op →
    (op = .writeRead ∨ op = .read ∨ op = .pattern → exec (.trainingRunDone d errs lanes) s =
      .next (turn d.val (raiseBit .drTrnSts d.val 31 (onSub d.val (fun c => { c with trn := none, errs := min errs 65535, lanes := lanes }) s)))) ∧
    (op = .level → exec (.trainingRunDone d errs lanes) s =
      .next (turn d.val (raiseBit .drTrnSts d.val 31 (onSub d.val (fun c => { c with trn := none, errs := (getSub s d.val).errs, lanes := lanes }) s)))) ∧
    (op = .write → exec (.trainingRunDone d errs lanes) s =
      .next (turn d.val (raiseBit .drTrnSts d.val 31 (onSub d.val (fun c => { c with trn := none, errs := (getSub s d.val).errs, lanes := c.lanes }) s))))) ∧
  (∀ (s : State) (a : Agent) (d : SubId) (v : W32), regOpen s a .drPhyAcc d.val = true →
    (locked s = true ∨ 6 ≤ fld v 30 28 → exec (.drPhyAccWrite a d v) s = .next s) ∧
    (locked s = false → fld v 30 28 < 6 → v.getLsbD 31 = true → exec (.drPhyAccWrite a d v) s =
      .next (onSub d.val (fun c => { c with phy := Table.set 0#10 c.phy (phyKey v) (BitVec.ofNat 10 (fld v 9 0)) })
        (setReg .drPhyAcc d.val (v &&& 0x7FCF0000#32) (wake d.val s)))) ∧
    (locked s = false → fld v 30 28 < 6 → v.getLsbD 31 = false → exec (.drPhyAccWrite a d v) s = .next (setReg .drPhyAcc d.val (v &&& 0x7FCF0000#32) (wake d.val s))))

/-- What a flit does at an N-link, and what the link does of itself. A flit whose length, CRC or TYPE is wrong is dropped and answered with one
NAK, until the replay arrives; the acknowledgement of a good one frees the flits up to it; a payload flit in sequence is taken in and
answered with an idle flit, and one out of sequence dropped; a NAK, or 2 µs without an acknowledgement, sends every unacknowledged flit
again. Every flit sent carries the receiver's current ACKSEQ. Eight replays without progress start a retrain, which ends with the link back
in service and every unacknowledged flit sent again, or out of service when it fails or is the third within 1 s. At Dawn 4 training starts
on every link of a tile with good rails where packages are found; a step that is late takes the link out with NL_TRAIN_FAIL, PKGS set from
step 6 on; a link whose packages all answered, with their wear state loaded, becomes active at its place or an idle spare. -/
def Obligations.LinkTransport : Prop :=
  (∀ (s : State) (n : LinkId) (flit : Bytes), nlUp (getLink s n.val) = true →
    ∀ (s1 : State) (bad : Nat → Prop), s1 = (if leAt flit 2 2 / 4096 % 2 = 1 then onNl n.val (nlAck (leAt flit 2 2 % 4096)) s else s) →
    (∀ typ, bad typ ↔ (flit.length ≠ 256 ∨ leAt flit 252 4 ≠ (crc32 (slice flit 0 252)).toNat ∨ leAt flit 0 2 / 4096 ≠ typ)) →
    ((bad 0 → exec (.nlinkIdleFlit n flit) s = .next (onNl n.val nlBad s)) ∧ (bad 1 → exec (.nlinkPayloadFlit n flit) s = .next (onNl n.val nlBad s)) ∧
      (bad 2 → exec (.nlinkNakFlit n flit) s = .next (onNl n.val nlBad s)) ∧ (¬ bad 0 → exec (.nlinkIdleFlit n flit) s = .next s1) ∧
      (¬ bad 1 → leAt flit 0 2 % 4096 = (getLink s n.val).rxSeq → exec (.nlinkPayloadFlit n flit) s = .next (onNl n.val
        (fun l => nlSend 0 0 [] (nlParse 64 { l with rx := l.rx ++ slice flit 4 248, rxSeq := (l.rxSeq + 1) % 4096, rxAny := true, naked := false })) s1)) ∧
      (¬ bad 1 → leAt flit 0 2 % 4096 ≠ (getLink s n.val).rxSeq → exec (.nlinkPayloadFlit n flit) s = .next s1) ∧
      (¬ bad 2 → exec (.nlinkNakFlit n flit) s = .next (nlReplay n.val s1)))) ∧
  (∀ l : NLink, nlBad l = if l.naked then l else { nlSend 2 0 [] l with naked := true, naks := l.naks + 1 }) ∧
  (∀ (typ seq : Nat) (b : Bytes) (l : NLink), nlSend typ seq b l = { l with sent := ⟨typ, seq, nlAckSeq l, b⟩ :: l.sent }) ∧
  (∀ (n : Nat) (s : State), nlReplay n s = addCnt (linkCnt n 4) (getLink s n).replay.length
    (onNl n (fun l => l.replay.foldl (fun l e => nlSend 1 e.1 e.2 l) { l with replays := l.replays + 1 }) s)) ∧
  (∀ (s : State) (n : LinkId), nlUp (getLink s n.val) = true → (getLink s n.val).replay ≠ [] → exec (.nlinkAckTimeout n) s = .next (nlReplay n.val s)) ∧
  (∀ (s : State) (n : LinkId), (getLink s n.val).st = .active → 8 ≤ (getLink s n.val).replays → exec (.nlinkReplayLimit n) s =
    .next (onNl n.val (fun l => { l with st := .retraining, retrains := satAdd l.retrains 1 255, retrainAt := (s.time.now :: l.retrainAt).take 3 }) s)) ∧
  (∀ (s : State) (n : LinkId), (getLink s n.val).st = .retraining →
    (exec (.nlinkRetrainDone n false) s = .next (nlDown n.val .retry 2 s)) ∧
    ((getLink s n.val).retrainAt.length ≠ 3 ∨ 1000000 ≤ s.time.now - (getLink s n.val).retrainAt.getLastD 0 → exec (.nlinkRetrainDone n true) s =
      .next (onNl n.val (fun l => nlPump 33 { l with replays := 0 }) (nlReplay n.val (onNl n.val (fun l => { l with st := backState s n.val }) s)))) ∧
    ((getLink s n.val).retrainAt.length = 3 → s.time.now - (getLink s n.val).retrainAt.getLastD 0 < 1000000 →
      exec (.nlinkRetrainDone n true) s = .next (nlDown n.val .retry 2 s))) ∧
  (∀ (s : State) (t : TileId) (found : List (LinkId × Fin 3)), firmwareRuns s t.val = true → midnight s = false → s.sv.nvmRails.getLsbD t.val = true → blockUp s t.val 4 = true → s.dawn.stage = 4 → s.dawn.recovery = false →
    exec (.nlinkTrainingStart t found) s = .next ((List.range 40).foldl (fun s l => if (getLink s (40 * t.val + l)).st = .absent ∧ 0 < foundOn found (40 * t.val + l) then
      (List.range (foundOn found (40 * t.val + l))).foldl (fun s p => nlSubmit (40 * t.val + l) { opc := 5, pkg := p, chunk := 0, use := .status } s)
        (onNl (40 * t.val + l) (fun x => { x with st := .training, found := foundOn found (40 * t.val + l) }) s) else s) s)) ∧
  (∀ (s : State) (n : LinkId), (getLink s n.val).st = .training →
    (∀ step : Fin 8, exec (.nlinkTrainStepTimeout n step) s = .next (raiseTile (n.val / 40) .nlTrainFail n.val (onNl n.val
      (fun l => { l with pkgs := if 5 < step.val then l.found else l.pkgs, st := .out, reason := .training, reqs := [], wait := [], replay := [], txq := [], rx := [], inbox := [] }) s))) ∧
    (packagesKnown s n.val = true →
      (n.val % 40 < 36 → exec (.nlinkTrainingDone n) s = .next (loadWear n.val (onNl n.val (fun x =>
        { x with st := .active, pkgs := x.found, pos := n.val % 40 % 9, grp := n.val % 40 / 9 }) s))) ∧
      (36 ≤ n.val % 40 → exec (.nlinkTrainingDone n) s = .next (loadWear n.val (onNl n.val (fun x => { x with st := .spare, pkgs := x.found, pos := 15, grp := 0 }) s)))) ∧
    (packagesKnown s n.val = false → exec (.nlinkTrainingDone n) s = .next s))

/-- What each response of an NVM package does. A read that took whole microseconds enough to be late is counted. A chunk that decodes is counted
and used, and its block marked for refresh where it had more corrected bits than the limit; one that does not is reconstructed. A program
that succeeds is counted; a first verify failure is programmed again, and a second retires the block with the failed content. A save that
succeeds stands in the metadata area. A package whose geometry or revision is not supported takes its link out with NL_TRAIN_FAIL; a
supported one's saved state is asked for; either sets PKGS of the link in training. STATUS 0x02 raises NL_PROTO; 0x03 and above take the
link out with reason package fault, an outstanding read being reconstructed and a program taken as completed. The response of STR reads a
free metadata index and Config.supportedPackage (log 26, 27), and a late read is one of two whole microseconds (log 82). -/
def Obligations.PackageResponses : Prop :=
  (∀ (s s1 : State) (n : LinkId) (m : NMsg) (q : NReq), takeRsp n.val 0x21 s = some (m, q, s1) → m.status = 0 →
exec (.rdd n) s = .next (settleLocal (chunkRead n.val q m (bchDecode m.body) (countLate n.val q s1)))) ∧
  (∀ (n : Nat) (q : NReq) (s : State), (∀ g f i, q.use = .data g f i → countLate n q s = if q.since + 2 ≤ s.time.now then addCnt (linkCnt n 2) 1 s else s) ∧
    ((∀ g f i, q.use ≠ .data g f i) → countLate n q s = s)) ∧
  (∀ (n : Nat) (q : NReq) (m : NMsg) (s : State), chunkRead n q m none s = reconFor n q (some m.body) true s ∧
    ∀ b k, (k ≤ refreshCe s (n / 40) → chunkRead n q m (some (b, k)) s = deliver q n (n / 40) b (countBits n k s)) ∧
      (refreshCe s (n / 40) < k → chunkRead n q m (some (b, k)) s = deliver q n (n / 40) b (markDue n q.pkg (q.chunk / 256) (countBits n k s)))) ∧
  (∀ (s s1 : State) (n : LinkId) (m : NMsg) (q : NReq), takeRsp n.val 0x22 s = some (m, q, s1) → (m.status = 0 → exec (.pgc n) s = .next (programDone n.val q (countProgram n.val q.pkg q.chunk s1))) ∧
    (m.status = 1 → q.fails = 0 → exec (.pgc n) s = .next (nlSubmit n.val { q with fails := 1 } s1)) ∧
    (m.status = 1 → q.fails ≠ 0 → exec (.pgc n) s =
      .next (programDone n.val q (startRetire n.val q.pkg (q.chunk / 256) (some (q.chunk % 256, q.body)) s1)))) ∧
  (∀ (s s1 : State) (n : LinkId) (m : NMsg) (q : NReq), takeRsp n.val 0x23 s = some (m, q, s1) → m.status = 0 → exec (.mrdd n) s = .next s1) ∧
  (∀ (s s1 : State) (n : LinkId) (m : NMsg) (q : NReq), takeRsp n.val 0x24 s = some (m, q, s1) → (m.status = 1 → q.fails = 0 → exec (.mpgc n) s = .next (nlSubmit n.val { q with fails := 1 } s1)) ∧
    (∀ r x, m.status = 0 → q.use = .metaRot r x → exec (.mpgc n) s =
      .next (onNvm (fun y => { y with savedRots := Table.set {} y.savedRots (pkgKey n.val q.pkg * 1024 + r) x }) s1)) ∧
    (∀ b x, m.status = 0 → q.use = .metaBlk b x → exec (.mpgc n) s =
      .next (onNvm (fun y => { y with savedBlks := Table.set {} y.savedBlks (pkgKey n.val q.pkg * 2 ^ 23 + b) { x with due := false, save := false } }) s1))) ∧
  (∀ (s s1 : State) (n : LinkId) (m : NMsg) (q : NReq), takeRsp n.val 0x25 s = some (m, q, s1) → m.status = 0 → (getLink s1 n.val).st = .training → ∀ s2 : State, s2 = onNl n.val (fun l => { l with pkgs := l.found }) s1 →
    (leAt m.body 8 8 = 4261504 * 256 → Config.supportedPackage (leAt m.body 0 4) (leAt m.body 4 4) = true →
      exec (.str n) s = .next (nlSubmit n.val { opc := 3, pkg := q.pkg, chunk := Config.metaIndex s1.free, use := .metaRd }
        { s2 with nvm := { s2.nvm with known := s2.nvm.known ++ [pkgKey n.val q.pkg] }, free := s2.free + 1 })) ∧
    (leAt m.body 8 8 ≠ 4261504 * 256 ∨ Config.supportedPackage (leAt m.body 0 4) (leAt m.body 4 4) = false → exec (.str n) s =
      .next (raiseTile (n.val / 40) .nlTrainFail n.val (onNl n.val (fun l => { l with st := .out, reason := .unsupported, reqs := [], wait := [] }) s2)))) ∧
  (∀ (s s1 : State) (n : LinkId) (m : NMsg) (q : NReq), takeRsp n.val 0x25 s = some (m, q, s1) → m.status = 0 → (getLink s1 n.val).st ≠ .training → exec (.str n) s = .next s1) ∧
  (∀ p ∈ [(0x21, Instr.rdd), (0x22, Instr.pgc), (0x23, Instr.mrdd), (0x24, Instr.mpgc), (0x25, Instr.str)], ∀ s0 : State,
    (∀ (s s1 : State) (n : LinkId) (m : NMsg) (q : NReq), takeRsp n.val p.1 s = some (m, q, s1) → s0 = (if p.1 = 0x25 ∧ (getLink s1 n.val).st = .training then onNl n.val (fun l => { l with pkgs := l.found }) s1 else if p.1 = 0x21 then countLate n.val q s1 else s1) →
      (m.status = 2 → exec (p.2 n) s = .next (raiseTile (n.val / 40) .nlProto (n.val + 65536 * 2) s0)) ∧
      (3 ≤ m.status → exec (p.2 n) s = .next (if p.1 = 0x21 then settleLocal (reconFor n.val q none false (nlDown n.val .package 3 s0))
        else if p.1 = 0x22 then programDone n.val q (nlDown n.val .package 3 s0) else nlDown n.val .package 3 s0))) ∧
    (∀ (s : State) (n : LinkId), takeRsp n.val p.1 s = none → exec (p.2 n) s = .next s))

/-- What the wear, absorption, drift and rebuild commands do. After GAP_INTERVAL programs a region moves its gap: the slot entry, GAP and START
change together when the copy is done, and the destination's STAMP is the time of its first copy. After 64 moves a map is saved, and a
block's state when it is marked. A block whose WCOUNT reached RETIRE, in data or fresh, starts a retirement, which ends with the slot entry
on the spare and the old block retired. The longest waiting write takes a freed slot: a walker's record is stored, a line's write goes on. A
drain brings the slots down to LOW, and old slots are destaged; a destage that is done frees the slots not written again, reads again what
had been read of its chunks, and destages the stripe once more where it is full. A due block is refreshed one at a time: of a chunk that
holds a page's data the four line locks are taken and the chunk is read; one that holds none is passed over; a block may be skipped between
chunks; and one past 1.5 horizons raises NL_DRIFT_LATE. A rebuild with no stripe left ends with the spare active and the group normal. The
saves read free metadata (log 26). -/
def Obligations.WearAndDrift : Prop :=
  (∀ (s : State) (n : LinkId) (pkg : Fin 2) (region : Fin 1024), linkServes s n.val = true →
    ((getRot s n.val pkg.val region.val).progs < gapInterval s (n.val / 40) → exec (.gapMove n pkg region) s = .next s) ∧
    (∀ (src dst : Nat) (x : Rot) (s1 : State), x = getRot s n.val pkg.val region.val → gapInterval s (n.val / 40) ≤ x.progs →
      src = (if x.gap = 0 then 4096 else x.gap - 1) → dst = (if x.gap = 0 then 0 else x.gap) →
      blkLocked s n.val pkg.val (slotEnt x region.val src).2 = false → blkLocked s n.val pkg.val (slotEnt x region.val dst).2 = false → blkRefreshing s n.val pkg.val (slotEnt x region.val src).2 = false →
      s1 = onNvm (fun x => { x with nextId := x.nextId + 1 }) (onRot n.val pkg.val region.val (fun y => { y with progs := y.progs - gapInterval s (n.val / 40) }) s) →
      exec (.gapMove n pkg region) s = .next (nextCopy s.nvm.nextId (setOp s.nvm.nextId (some ⟨n.val, pkg.val, false, region.val, src, dst,
        (slotEnt x region.val src).2, (slotEnt x region.val dst).2, 1, copyList (getBlk s n.val pkg.val (slotEnt x region.val src).2) none, none, false, none⟩) s1))) ∧
    ((getRot s n.val pkg.val region.val).moves < 64 → exec (.mapStateSave n pkg region) s = .next s) ∧
    (∀ x, x = getRot s n.val pkg.val region.val → 64 ≤ x.moves → exec (.mapStateSave n pkg region) s = .next (nlSubmit n.val
      { opc := 4, pkg := pkg.val, chunk := Config.metaIndex s.free, use := .metaRot region.val x, body := Config.metaBytes s.free }
      (takeFree (onRot n.val pkg.val region.val (fun y => { y with moves := 0 }) s)).2))) ∧
  (∀ (s : State) (n : LinkId) (pkg : Fin 2) (region : Fin 1024) (w : Nat) (o : BlkOp), finishedOp s n.val pkg.val (fun o => !o.retire && o.region = region.val) = some (w, o) →
    exec (.gapMoveDone n pkg region) s = .next (pumpLocks (onBlk n.val pkg.val o.src (fun y => { y with due := false })
      (copyDone n.val pkg.val o (getBlk s n.val pkg.val o.src) (onRot n.val pkg.val region.val (fun y => { y with
        slots := Table.set none y.slots o.dstSlot (some (((slotEnt (getRot s n.val pkg.val region.val) region.val o.slot).1 + 1) % 256, o.dst))
        gap := if y.gap = 0 then 4096 else y.gap - 1
        start := if y.gap = 0 then (y.start + 1) % 4096 else y.start
        moves := y.moves + 1 }) (setOp w none s)))))) ∧
  (∀ (n pkg : Nat) (o : BlkOp) (b : Blk) (s : State), copyDone n pkg o b s = match o.first with
    | some at_ => onBlk n pkg o.dst (fun y => { y with stamp := at_ % 2 ^ 24, due := b.due }) s
    | none => s) ∧
  (∀ (s : State) (n : LinkId) (pkg : Fin 2) (block : BitVec 23), linkServes s n.val = true → ∀ b, b = getBlk s n.val pkg.val block.toNat →
    (b.st = .data ∨ b.st = .fresh → retireAt s (n.val / 40) ≤ b.wcount → exec (.blockRetire n pkg block) s = .next (startRetire n.val pkg.val block.toNat none s)) ∧
    (b.wcount < retireAt s (n.val / 40) → exec (.blockRetire n pkg block) s = .next s) ∧
    (b.save = true → exec (.wearStateSave n pkg block) s = .next (nlSubmit n.val
      { opc := 4, pkg := pkg.val, chunk := Config.metaIndex s.free, use := .metaBlk block.toNat b, body := Config.metaBytes s.free }
      (takeFree (onBlk n.val pkg.val block.toNat (fun y => { y with save := false }) s)).2)) ∧
    (b.save = false → exec (.wearStateSave n pkg block) s = .next s)) ∧
  (∀ (s : State) (n : LinkId) (pkg : Fin 2) (block : BitVec 23) (w : Nat) (o : BlkOp), finishedOp s n.val pkg.val (fun o => o.retire && o.src = block.toNat) = some (w, o) →
    exec (.blockRetireDone n pkg block) s = .next (pumpLocks (onBlk n.val pkg.val o.src (fun y => { y with st := .retired, due := false, save := true })
      (copyDone n.val pkg.val o (getBlk s n.val pkg.val o.src) (onRot n.val pkg.val o.region (fun y => { y with
        slots := Table.set none y.slots o.slot (some ((slotEnt (getRot s n.val pkg.val o.region) o.region o.slot).1, o.dst)) }) (setOp w none s)))))) ∧
  (∀ (s : State) (t : TileId),
    (∀ w, s.nvm.slotWait.find? (fun w => decide (w.tile = t.val)) = some w →
      (∀ l, s.nvm.lineWait.find? (fun w => decide (homeOf s w.1 = t.val)) = some l → w.at_ ≤ l.2) →
      (slotUp s t.val w.frame w.i).isSome = true ∨ (getSlot s t.val w.frame (w.i / 4) = none ∧ (freeSlot s t.val).isSome = true) → exec (.absorbSlotFreed t) s =
      .next (absStore t.val w.frame w.i w.r w.prio (openSlot t.val w.frame w.i (onNvm (fun x => { x with slotWait := x.slotWait.erase w }) s)))) ∧
    (∀ l f, s.nvm.lineWait.find? (fun w => decide (homeOf s w.1 = t.val)) = some l →
      (∀ w, s.nvm.slotWait.find? (fun w => decide (w.tile = t.val)) = some w → l.2 < w.at_) → writeAt s l.1 = some (true, f) →
      (slotUp s t.val f (l.1 % 64)).isSome = true ∨ (getSlot s t.val f (l.1 % 64 / 4) = none ∧ (freeSlot s t.val).isSome = true) → exec (.absorbSlotFreed t) s =
      .next (slotGiven l.1 (openSlot t.val f (l.1 % 64) (onNvm (fun x => { x with lineWait := x.lineWait.erase l }) s)))) ∧
    (slotQueue s t.val = true → exec (.absorbStall t) s = .next (addCnt (tileCnt t.val 467) 1 s)) ∧
    (slotQueue s t.val = false → exec (.absorbStall t) s = .next s) ∧
    (s.nvm.draining.getLsbD t.val = true → ∀ s1 : State, s1 = destageUntil t.val (absLow s t.val) (idleSlots s t.val).length s →
      exec (.destageHighWater t) s = .next (onNvm (fun x => { x with draining := setBit x.draining t.val (decide (absLow s1 t.val < (idleSlots s1 t.val).length)) }) s1)) ∧
    (s.nvm.draining.getLsbD t.val = false → exec (.destageHighWater t) s = .next s) ∧
    (exec (.destageMaxAge t) s = .next ((idleSlots s t.val).foldl (fun s e =>
      if max 1 (regFld s .nlAbsCfg t.val 31 17) * 1000 ≤ s.time.now - e.2.at_ then destage t.val (stripeOfSlot s t.val e.1).1 (stripeOfSlot s t.val e.1).2 s else s) s)) ∧
    (idleSlots s t.val = [] → exec (.destageMaxAge t) s = .next s)) ∧
  (∀ (s : State) (t : TileId) (group : Fin 4) (stripe : BitVec 31) (g w : Nat) (k : Work), g = (ranksOf s t.val).getD group.val 4 →
    s.nvm.works.findSome? (fun e => e.2.bind (fun k => if k.kind = .destage ∧ k.tile = t.val ∧ k.grp = g ∧ k.stripe = stripe.toNat ∧ k.merged ∧ k.todo.isEmpty ∧ k.live.isEmpty
      then some (e.1, k) else none)) = some (w, k) → exec (.destageDone t group stripe) s = .next (destageFull t.val g k.stripe
      (rereadChunks t.val (frameOf s t.val g k.stripe) ((destageSet s t.val g k.stripe).map (k.stripe % 2 * 8 + ·))
        ((List.range 8).foldl (fun s i => match getSlot s t.val (frameOf s t.val g k.stripe) (k.stripe % 2 * 8 + i) with
          | some a => if !a.destaging then s
            else if a.redirty then setSlot t.val (frameOf s t.val g k.stripe) (k.stripe % 2 * 8 + i) (some { a with destaging := false, redirty := false }) s
            else setSlot t.val (frameOf s t.val g k.stripe) (k.stripe % 2 * 8 + i) none s
          | none => s) (setWork w none s))))) ∧
  (∀ (s : State) (n : LinkId) (pkg : Fin 2) (block : BitVec 23) (b : Blk), b = getBlk s n.val pkg.val block.toNat → b.st = .data ∨ b.st = .worn →
    walkersRun s (n.val / 40) = true → linkServes s n.val = true → getRefresh s (n.val / 40) = none → b.due = true ∨ horizon s (n.val / 40) * 3600 ≤ blkAge s b →
    ((∃ o, o < 256 ∧ (heldChunk s n.val pkg.val block.toNat o).isSome = true) → exec (.driftRefreshBlock n pkg block) s = .next (setRefresh (n.val / 40) (some ⟨n.val, pkg.val,
      block.toNat, dawnSec s, (List.range 256).filter (fun o => (heldChunk s n.val pkg.val block.toNat o).isSome), none⟩) s)) ∧
    ((∀ o, o < 256 → heldChunk s n.val pkg.val block.toNat o = none) → exec (.driftRefreshBlock n pkg block) s =
      .next (onBlk n.val pkg.val block.toNat (fun x => { x with stamp := dawnSec s % 2 ^ 24, due := false }) s))) ∧
  (∀ (s : State) (n : LinkId) (pkg : Fin 2) (offset : Byte) (r : Refresh), getRefresh s (n.val / 40) = some r → r.link = n.val → r.pkg = pkg.val → r.busy = none →
    offset.toNat ∈ r.todo → linkServes s n.val = true → walkersRun s (n.val / 40) = true → blkLocked s n.val pkg.val r.block = false →
    (heldChunk s n.val pkg.val r.block offset.toNat = none → exec (.driftRefreshChunk n pkg offset) s = .next (refreshDone n.val offset.toNat s)) ∧
    (∀ (a f pos p : Nat) (lines : List Nat), heldChunk s n.val pkg.val r.block offset.toNat = some (a, f, pos) → pos ≠ a % 9 → ownerOf s (n.val / 40) true f = some p →
      lines = (List.range 4).map (fun i => 64 * p + 4 * (a % 2 * 8 + dataIdx a pos) + i) → Table.get none s.tier.moves p = none →
      lines.all (lineFree s) = true → lines.any (s.ha.twWait.contains ·) = false → progBuf s n.val pkg.val (r.block * 256 + offset.toNat) = none →
      exec (.driftRefreshChunk n pkg offset) s = .next (addCnt (linkCnt n.val 0) 1 (nlSubmit n.val
        { opc := 1, pkg := pkg.val, chunk := r.block * 256 + offset.toNat, ref := refOf (blkAge s (getBlk s n.val pkg.val r.block)), use := .refresh offset.toNat, prio := walkerPrio s }
        (setRefresh (n.val / 40) (some { r with busy := some (offset.toNat, lines) }) (lockLines lines s)))))) ∧
  (∀ (s : State) (t : TileId) (r : Refresh), getRefresh s t.val = some r →
    (r.busy = none → exec (.driftSkip t) s = .next (setRefresh t.val none s)) ∧ (r.busy ≠ none → exec (.driftSkip t) s = .next s)) ∧
  (∀ (s : State) (n : LinkId) (pkg : Fin 2) (block : BitVec 23), (getBlk s n.val pkg.val block.toNat).st = .data ∨ (getBlk s n.val pkg.val block.toNat).st = .worn →
    (3 * horizon s (n.val / 40) * 3600 < 2 * blkAge s (getBlk s n.val pkg.val block.toNat) → exec (.driftLate n pkg block) s =
      .next (raiseTile (n.val / 40) .nlDriftLate n.val s)) ∧
    (2 * blkAge s (getBlk s n.val pkg.val block.toNat) ≤ 3 * horizon s (n.val / 40) * 3600 → exec (.driftLate n pkg block) s = .next s)) ∧
  (∀ (s : State) (t : TileId) (group : Fin 4) (line sp : Nat), (getGrp s t.val group.val).rebuild = some (line, sp) → (getGrp s t.val group.val).st ≠ .lost → walkersRun s t.val = true →
    s.nvm.works = [] → nvmInUse s t.val = [] → nvmFrames s t.val = 0 → exec (.rebuildStripe t group) s = .next (onNl sp (fun l => { l with st := .active })
      (onNvm (fun x => { x with grps := Table.set {} x.grps (4 * t.val + group.val) ⟨.normal, 15, none⟩ }) s)))

/-- What the epoch walk, the promotion and demotion engines and a move do. The epoch walk halves a page's HEAT and raises its RESID; a cold-tier
page hot and old enough joins the promotion queue, a DRAM page cold and old enough the demotion queue, and a full queue drops it and counts.
A promotion takes the oldest queued page of the next class that has a token, and starts its move; a demotion, while one is wanted, takes the
oldest queued page, or any unpinned page of a tile whose DRAM is given up. A copy asks for its source line and, once that has come, stores
the checked record at the destination; a lost source line becomes a poisoned record and raises TR_MIG_LOST; a move whose 64 lines are copied
gives the page its new tier and frame, with RESID 0. -/
def Obligations.TieringCommands : Prop :=
  (∀ (s : State) (page : BitVec 36) (r : Region) (p : Place) (t : Nat), p = getPlace s page.toNat → t = homeOf s (64 * page.toNat) → tileRuns s t = true →
    regionAt s (4096 * page.toNat) = some r → isTiered r = true → p.moving = false → tierMode s t ≠ 0 →
    (p.st = .nvm → regFld s .trCfg t 31 24 ≤ heatOf p.tier → regFld s .trCfg t 15 12 ≤ residOf p.tier → page.toNat ∉ Table.get [] s.tier.promote t →
      ((Table.get [] s.tier.promote t).length < 1024 → exec (.epochWalkEntry page) s = .next (onTier
        (fun x => { x with promote := Table.set [] x.promote t (Table.get [] s.tier.promote t ++ [page.toNat]) })
        (putPlace page.toNat { p with tier := mkTier (heatOf p.tier / 2) (classIn p.tier) (residOf p.tier + 1) } s))) ∧
      (1024 ≤ (Table.get [] s.tier.promote t).length → exec (.epochWalkEntry page) s = .next (addCnt (tileCnt t 470) 1
        (putPlace page.toNat { p with tier := mkTier (heatOf p.tier / 2) (classIn p.tier) (residOf p.tier + 1) } s)))) ∧
    (p.st = .dram → p.pin = false → heatOf p.tier ≤ regFld s .trCfg t 23 16 → regFld s .trCfg t 15 12 ≤ residOf p.tier → page.toNat ∉ Table.get [] s.tier.demote t →
      ((Table.get [] s.tier.demote t).length < 1024 → exec (.epochWalkEntry page) s = .next (onTier
        (fun x => { x with demote := Table.set [] x.demote t (Table.get [] s.tier.demote t ++ [page.toNat]) })
        (putPlace page.toNat { p with tier := mkTier (heatOf p.tier / 2) (classIn p.tier) (residOf p.tier + 1) } s))) ∧
      (1024 ≤ (Table.get [] s.tier.demote t).length → exec (.epochWalkEntry page) s = .next (addCnt (tileCnt t 470) 1
        (putPlace page.toNat { p with tier := mkTier (heatOf p.tier / 2) (classIn p.tier) (residOf p.tier + 1) } s)))) ∧
    (p.st ≠ .unwritten → residOf p.tier < regFld s .trCfg t 15 12 → exec (.epochWalkEntry page) s =
      .next (putPlace page.toNat { p with tier := mkTier (heatOf p.tier / 2) (classIn p.tier) (residOf p.tier + 1) } s))) ∧
  (∀ (s : State) (t : TileId) (c page : Nat) (f : Nat) (s1 : State), walkersRun s t.val = true → tierMode s t.val = 1 → dramStop s t.val = false → (movesOn s t.val).length < 16 →
    hasToken s t.val 16 = true → 0 < freeOut s t.val false ∨ (∃ m ∈ movesOn s t.val, m.2.toDram = false) →
    ((List.range 16).map (fun i => (Table.get 0 s.tier.rrClass t.val + i) % 16)).findSome? (fun c => if hasToken s t.val c then
      ((Table.get [] s.tier.promote t.val).find? (fun p => classIn (getPlace s p).tier = c)).map (fun p => (c, p)) else none) = some (c, page) →
    s1 = onTier (fun x => { x with promote := Table.set [] x.promote t.val ((Table.get [] s.tier.promote t.val).erase page), rrClass := Table.set 0 x.rrClass t.val (c + 1) }) s →
    ((getPlace s page).st = .nvm → (getPlace s page).moving = false → freeFrame s1 t.val false = some f →
      exec (.promotionStart t) s = .next (startMove page true (takeToken t.val c s1))) ∧
    ((getPlace s page).st ≠ .nvm → exec (.promotionStart t) s = .next s1)) ∧
  (∀ (s : State) (t : TileId) (page f : Nat) (s1 : State), walkersRun s t.val = true → (movesOn s t.val).length < 16 →
    dramStop s t.val = true ∨ tierMode s t.val = 2 ∨ (tierMode s t.val = 1 ∧ (sampleFree t.val s).tier.demoting.getLsbD t.val = true) →
    hasToken s t.val 16 = true → hasToken s t.val 17 = true →
    nextDemotion s t.val = some page → (getPlace s page).st = .dram → (getPlace s page).moving = false →
    s1 = onTier (fun x => { x with demote := Table.mod [] x.demote t.val (fun q => q.erase page) }) (sampleFree t.val s) →
    freeFrame s1 t.val true = some f → exec (.demotionStart t) s = .next (startMove page false (takeToken t.val 17 s1))) ∧
  (∀ (s : State) (t : Nat), dramStop s t = false → nextDemotion s t = (Table.get [] s.tier.demote t).head?) ∧
  (∀ (s : State) (page : BitVec 36) (i : Fin 64) (flips : Flips) (m : Move), getMove s page.toNat = some m → m.copied.getLsbD i.val = false →
    lineFree s (64 * page.toNat + i.val) = true → walkersRun s m.tile = true →
    (∀ r, locLost s m.tile m.toDram m.src i.val = true → regionAt s (64 * (64 * page.toNat + i.val)) = some r → exec (.migrationCopy page i flips) s =
      .next (raiseWith (tileSrc m.tile .trMigLost) ⟨BitVec.ofNat 64 (64 * (64 * page.toNat + i.val)), 0xFF#8, 2#8, BitVec.ofNat 32 r.idx⟩ {}
        (lostWord (64 * page.toNat + i.val) (copyTo page.toNat m i.val
          (mkRec (64 * page.toNat + i.val) 0#512 (poisonMeta s (64 * page.toNat + i.val))) s)))) ∧
    (locLost s m.tile m.toDram m.src i.val = false → ∀ s0 : State, s0 = askSource m.tile m.toDram m.src i.val s →
      (takeSource m i.val flips s0 = none → exec (.migrationCopy page i flips) s = .next s0) ∧
      (∀ (r r2 : Rec) (src : Sum Nat Nat) (lost : Bool) (s1 s2 : State), takeSource m i.val flips s0 = some (r, src, s1) →
        settleRec (64 * page.toNat + i.val) r src {} (putSource m i.val) s1 = (r2, lost, s2) →
        exec (.migrationCopy page i flips) s = .next (finishCopy page.toNat i.val r2 s2)))) ∧
  (∀ (page i : Nat) (r : Rec) (s : State), (∀ m, getMove s page = some m → finishCopy page i r s = copyTo page m i r s) ∧
    (getMove s page = none → finishCopy page i r s = s)) ∧
  (∀ (s : State) (page : BitVec 36) (i : Fin 64) (flips : Flips) (m : Move), getMove s page.toNat = some m → m.copied.getLsbD i.val = true →
    exec (.migrationCopy page i flips) s = .next s) ∧
  (∀ (s : State) (page : BitVec 36) (m : Move), getMove s page.toNat = some m → walkersRun s m.tile = true →
    (m.copied ≠ BitVec.allOnes 64 → exec (.migrationComplete page) s = .next s) ∧
    (m.copied = BitVec.allOnes 64 → m.toDram = false → exec (.migrationComplete page) s = .next (addCnt (tileCnt m.tile 469) 1 (sampleFree m.tile
      (putPlace page.toNat { st := .nvm, pin := (getPlace s page.toNat).pin, tier := mkTier (heatOf (getPlace s page.toNat).tier) (classIn (getPlace s page.toNat).tier) 0, frame := m.dst }
        (setMove page.toNat none s))))) ∧
    (m.copied = BitVec.allOnes 64 → m.toDram = true → exec (.migrationComplete page) s = .next (addCnt (tileCnt m.tile 468) 1 (sampleFree m.tile (dropSlots m.tile m.src
      (putPlace page.toNat { st := .dram, pin := (getPlace s page.toNat).pin, tier := mkTier (heatOf (getPlace s page.toNat).tier) (classIn (getPlace s page.toNat).tier) 0, frame := m.dst }
        (setMove page.toNat none s)))))))

/-- What the ring and job commands do. A write to a ring block acts for an agent whose row of R228 allows it, and that of another head is
discarded and counted; one that cannot reach the serving tile is discarded. A tail or queue-head write within the ring moves it, and any
other sets its error flag. A configuration write acts only while disabled. An enable that fails a check sets CFG_ERR with the code, and one
that passes zeroes its completion queue, after which the ring runs. An abort marks the tail and cancels what it can; a disable acts as an
abort, and from stopped waits only for what still runs. A descriptor is fetched for the ring whose turn it is; a job's checks and start are
tried; the next part of the job whose turn it is goes to its home tile, or fails where that tile is cut off; a part that ended reports its
status, or a data error where its report is lost. -/
def Obligations.RingsAndJobs : Prop :=
  (∀ (s : State) (a : Agent) (r : RingId) (v : W32) (w : W64) (cq e : Bool),
    exec (.ringTailWrite a r v) s = .next (ringWrite a r.toNat true (writeTail r.toNat v) s) ∧
    exec (.ringCqHeadWrite a r v) s = .next (ringWrite a r.toNat true (writeCqHead r.toNat v) s) ∧
    exec (.ringCfgWrite a r v) s = .next (ringWrite a r.toNat false (writeRingCfg r.toNat v) s) ∧
    exec (.ringBaseWrite a r cq w) s = .next (ringWrite a r.toNat false (writeRingBase r.toNat cq w) s) ∧
    exec (.ringEnable a r) s = .next (ringWrite a r.toNat false (enableWrite r.toNat) s) ∧
    exec (.ringAbort a r e) s = .next (ringWrite a r.toNat true (abortWrite r.toNat) s) ∧
    exec (.ringDisable a r) s = .next (ringWrite a r.toNat false (disableWrite r.toNat) s)) ∧
  (∀ (s : State) (r : Nat) (own : Bool) (f : State → State), running s = true →
    (cutOff s 0 (servingTile s r) = false → ringWrite .firmware r own f s = f s) ∧ (cutOff s 0 (servingTile s r) = true → ringWrite .firmware r own f s = s) ∧
    (∀ h l, hasRights s (.head h l) = true → cutOff s (portTile h.val) (servingTile s r) = false → ringWrite (.head h l) r own f s = f s) ∧
    (∀ h l, hasRights s (.head h l) = false → h.val = rgOwner (getRing s r) → cutOff s (portTile h.val) (servingTile s r) = false →
      ringWrite (.head h l) r true f s = f s ∧ ringWrite (.head h l) r false f s = s) ∧
    (∀ h l, hasRights s (.head h l) = false → h.val ≠ rgOwner (getRing s r) → ringWrite (.head h l) r own f s = addCnt (portCnt h.val 8) 1 s)) ∧
  (∀ (s : State) (r : Nat) (v : W32) (w : W64),
    ((getRing s r).st = .running → (v - (getRing s r).head).toNat ≤ 2 ^ rgDlog (getRing s r) → (v - (getRing s r).tail).toNat < 2 ^ 31 →
      writeTail r v s = onRing r (fun y => { y with tail := v }) s) ∧
    (v ≠ (getRing s r).tail → 2 ^ rgDlog (getRing s r) < (v - (getRing s r).head).toNat → writeTail r v s = onRing r (fun y => { y with tailErr := true }) s) ∧
    ((getRing s r).st = .running → (v - (getRing s r).cqHead).toNat ≤ ((getRing s r).cqTail - (getRing s r).cqHead).toNat →
      writeCqHead r v s = onRing r (fun y => { y with cqHead := v }) s) ∧
    (((getRing s r).cqTail - (getRing s r).cqHead).toNat < (v - (getRing s r).cqHead).toNat → writeCqHead r v s = onRing r (fun y => { y with cqhErr := true }) s) ∧
    ((getRing s r).st = .disabled → writeRingCfg r v s = onRing r (fun y => { y with cfg := v }) s ∧
      writeRingBase r false w s = onRing r (fun y => { y with dbase := w &&& 0x0000FFFFFFFFF000#64 }) s ∧
      writeRingBase r true w s = onRing r (fun y => { y with cbase := w &&& 0x0000FFFFFFFFF000#64 }) s) ∧
    ((getRing s r).st ≠ .disabled → writeRingCfg r v s = s ∧ writeRingBase r false w s = s ∧ writeRingBase r true w s = s)) ∧
  (∀ (s : State) (r : Nat), (getRing s r).st = .disabled → s.dawn.memActive = true → midnight s = false →
    (enableCode s r ≠ 0 → enableWrite r s = settle (onRing r (fun y => { y with cfgErr := true, cfgCode := enableCode s r }) s)) ∧
    (enableCode s r = 0 → enableWrite r s = settle (startInit r (initOps (getRing s r) r) (onRing r (fun y =>
      { y with tail := 0#32, head := 0#32, cqTail := 0#32, cqHead := 0#32, inflight := 0, st := .initialising,
               route := some (servingTile s r), zeroLeft := cqLines (getRing s r), zeroBad := false }) s)))) ∧
  (∀ (s : State) (r : RingId), (getRing s r.toNat).st = .initialising → (getRing s r.toNat).zeroLeft = 0 →
    ((getRing s r.toNat).zeroBad = false → exec (.ringInitDone r) s = .next (onRing r.toNat (fun y => { y with st := .running }) s)) ∧
    ((getRing s r.toNat).zeroBad = true → exec (.ringInitDone r) s =
      .next (onRing r.toNat (fun y => { y with st := .disabled, route := none, zeroBad := false, cfgErr := true, cfgCode := 6 }) s))) ∧
  (∀ (s : State) (r : Nat), midnight s = false → (getRing s r).st = .running →
    abortWrite r s = settle (startRecord r (concludeAll r (markDone r (cancelJobs r (onRing r (fun y => { y with st := .aborting, mark := y.tail }) s))))) ∧
    disableWrite r s = settle (startRecord r (concludeAll r (markDone r (cancelJobs r (onRing r (fun y => { y with st := .disabling, mark := y.tail }) s)))))) ∧
  (∀ (s : State) (r : Nat), midnight s = false →
    ((getRing s r).st = .aborting → disableWrite r s =
      settle (startRecord r (concludeAll r (markDone r (cancelJobs r (onRing r (fun y => { y with st := .disabling, mark := y.tail }) s)))))) ∧
    ((getRing s r).st = .stopped → disableWrite r s =
      settle (startRecord r (concludeAll r (markDone r (onRing r (fun y => { y with st := .disabling, quiet := true, outq := [], writing := false }) s))))) ∧
    ((getRing s r).st ≠ .running → abortWrite r s = settle (startRecord r (concludeAll r s)))) ∧
  (∀ (s : State) (t : TileId) (r : RingId), engineUp s t.val = true → quiesced s = false →
    (nextRing s t.val = some r.toNat → exec (.descriptorFetch t r) s =
      .next (settle (readDesc r.toNat false (onJob (fun j => { j with rr := Table.set 0 j.rr t.val (r.toNat + 1) }) s)))) ∧
    (nextRing s t.val ≠ some r.toNat → exec (.descriptorFetch t r) s = .next s)) ∧
  (∀ (s : State) (r : RingId) (n : W32), engineUp s (routeOf s r.toNat) = true → exec (.jobStart r n) s = .next (settle (startJob r.toNat n.toNat s))) ∧
  (∀ (s : State) (r : RingId), engineUp s (routeOf s r.toNat) = true → (getRing s r.toNat).st = .aborting ∨ (getRing s r.toNat).st = .disabling → (getRing s r.toNat).quiet = false →
    (getRing s r.toNat).head ≠ (getRing s r.toNat).mark → (getRing s r.toNat).reading = none → cqRoom (getRing s r.toNat) = true → (getRing s r.toNat).inflight < 2048 →
    exec (.abortUserRead r) s = .next (settle (readDesc r.toNat true s))) ∧
  (∀ (s0 s : State) (r : RingId) (n : W32) (j : Job), getJob s0 r.toNat n.toNat = some j → engineUp s0 (routeOf s0 r.toNat) = true → quiesced s0 = false →
    (nextJob s0 (routeOf s0 r.toNat) ≠ some (jobKey r.toNat n.toNat) → exec (.partDispatch r n) s0 = .next s0) ∧
    (nextJob s0 (routeOf s0 r.toNat) = some (jobKey r.toNat n.toNat) →
    s = { s0 with job := { s0.job with turn := Table.set 0 s0.job.turn (routeOf s0 r.toNat) (jobKey r.toNat n.toNat + 1) } } →
    (cutOff s (routeOf s r.toNat) (partTile s j j.next) = true → exec (.partDispatch r n) s0 = .next (settle (addReport r.toNat n.toNat
      ⟨j.next, .dataError, partOff s j j.next, false, false, partTile s j j.next, none⟩ (setJob r.toNat n.toNat (some { j with next := j.next + 1 }) s)))) ∧
    (cutOff s (routeOf s r.toNat) (partTile s j j.next) = false →
      (dType j.desc ≠ 3 → exec (.partDispatch r n) s0 = .next (settle (startPart r.toNat n.toNat j.next j
        (setPart r.toNat n.toNat j.next (some { tile := partTile s j j.next, phase := .lines, todo := [] }) (setJob r.toNat n.toNat (some { j with next := j.next + 1 }) s))))) ∧
      (dType j.desc = 3 → exec (.partDispatch r n) s0 = .next
        (setPart r.toNat n.toNat j.next (some { tile := partTile s j j.next, phase := .reading, todo := [hdrPart] }) (setJob r.toNat n.toNat (some { j with next := j.next + 1 }) s)))))) ∧
  (∀ (s : State) (r : RingId) (n : W32) (k : Nat) (lost : Bool) (p : Part) (j : Job), getPart s r.toNat n.toNat k = some p → getJob s r.toNat n.toNat = some j →
    engineUp s p.tile = true → p.phase = .done →
    (lost = true → exec (.partReport r n k lost) s = .next (settle (addReport r.toNat n.toNat ⟨k, .dataError, partOff s j k, false, false, p.tile, p.res⟩
      (addCnt (tileCnt p.tile 474) 1 (setPart r.toNat n.toNat k none s))))) ∧
    (lost = false → cutOff s p.tile (routeOf s r.toNat) = false → p.fail = none → exec (.partReport r n k lost) s = .next (settle (addReport r.toNat n.toNat
      ⟨k, .success, partOff s j k, false, p.multi, p.tile, p.res⟩ (addCnt (tileCnt p.tile 474) 1 (setPart r.toNat n.toNat k none s))))) ∧
    (∀ st o, lost = false → cutOff s p.tile (routeOf s r.toNat) = false → p.fail = some (st, o) → exec (.partReport r n k lost) s = .next (settle (addReport r.toNat n.toNat
      ⟨k, st, if dType j.desc = 3 then partOff s j k else o, false, p.multi, p.tile, p.res⟩ (addCnt (tileCnt p.tile 474) 1 (setPart r.toNat n.toNat k none s))))))

/-- What the ingest, decompression and commit commands do. An ingest part that has begun reads its source; one whose compression ends stores its
stream and DBLK, and keeps its compressor where its store page must first be read; one whose stream breaks the rules fails as a bad
descriptor unless its reads failed. A freed decompressor goes to the oldest block that waits. A packed line's map line is delivered to the
block's decompression, whose block then takes a decompressor, or answers its reads at once where it holds none. A block whose run or map
line was lost answers its reads with a data error; one whose run is uncorrectable becomes poisoned, and so does every block of a map line
that is lost; one whose stream does not decode releases the lines before the failure and waits for its tags, after which it is tried again,
and then poisoned with PK_DECODE. A commit takes each block's lock once nothing holds its lines, asks for the copies of its lines, writes
its map entry, with GEN increased and the old run freed, or, where the entry cannot be written, frees the new run and counts the block as
lost, and releases the lock; after its last block it ends. -/
def Obligations.IngestAndPacked : Prop :=
  (∀ (s : State) (r : RingId) (n : W32) (k : Nat) (p : Part) (job : Job) (g : Region), getPart s r.toNat n.toNat k = some p → getJob s r.toNat n.toNat = some job →
    destPacked s job.desc = some g → engineUp s p.tile = true →
    (partFresh p = true → inMode job.desc = 0 → exec (.ingestRawPart r n k) s = .next (settle (beginIngest r.toNat n.toNat k job
      ((List.range (min (2 ^ g.blkLog) (dLen job.desc - k * 2 ^ g.blkLog) / 64)).map (fun i => (i, (dSrc job.desc + k * 2 ^ g.blkLog) / 64 + i))) s))) ∧
    (partFresh p = true → inMode job.desc = 1 → exec (.ingestZhoqPart r n k) s =
      .next (settle (beginIngest r.toNat n.toNat k job [(entryIdx, (dSrc job.desc + entryOff job k) / 64)] s))) ∧
    (∀ s1 : State, p.phase = .compressing → s1 = storeStream r.toNat n.toNat k g (compressOf (2 ^ g.blkLog) p.stream (inHuff job.desc) (inEffort job.desc)).1
        (compressOf (2 ^ g.blkLog) p.stream (inHuff job.desc) (inEffort job.desc)).2 s →
      ∀ q, getPart s1 r.toNat n.toNat k = some q → exec (.compressDone r n k) s =
        .next (grantComp p.tile (if q.phase = .compressing then s1 else addCnt (tileCnt p.tile 465) (2 ^ g.blkLog / 64) s1))) ∧
    (p.phase = .validating → exec (.validationDone r n k) s =
      .next (grantVal p.tile (validated r.toNat n.toNat k g p (inflate (2 ^ g.blkLog) p.stream) s)))) ∧
  (∀ (r n k d : Nat) (g : Region) (p : Part) (out : Bytes) (s : State),
    (p.fail = none → validated r n k g p none s = setPart r n k (some (partFail .badDesc p)) s) ∧
    (∀ st o, p.fail = some (st, o) → validated r n k g p none s = setPart r n k (some (partFail st p)) s) ∧
    validated r n k g p (some (out, d)) s = storeStream r n k g p.stream d s) ∧
  (∀ (b : Nat) (block : Bytes) (huff effort : Nat), (compressOf b block huff effort).2 = (b + 16383) / 16384 ∧
    ((inflate b (emitStream block huff effort)).map (·.1) = some block → (compressOf b block huff effort).1 = emitStream block huff effort)) ∧
  (∀ (s : State) (t : TileId), engineUp s t.val = true → decsOn s t.val + validating s t.val < 12 →
    ((∀ d ∈ s.pk.decs, d.tile = t.val → d.granted = true ∨ d.mapWait = true) → exec (.decompressorGrant t) s = .next (grantVal t.val s)) ∧
    (∀ (d : Decomp) (r : Region), s.pk.decs.find? (fun d => decide (d.tile = t.val) && !d.granted && !d.mapWait) = some d → regionOf s d.region = some r →
      exec (.decompressorGrant t) s = .next (askRun r t.val (getMap s t.val r.idx (d.block >>> tileBits s)) (decPrio s d)
        (addCnt (tileCnt t.val 463) 1 (onDec d.region d.block (fun d => { d with granted := true }) s))))) ∧
  (∀ (s : State) (line : LineAddr) (r : Region) (flips : Flips) (shadow : ShadowFlips) (d : Decomp) (b t m : Nat), regionAt s (64 * line.toNat) = some r → r.typ = .packed →
    engineUp s (homeOf s line.toNat) = true → b = (blockOf s r line.toNat).block → t = (blockOf s r line.toNat).tile → m = (blockOf s r line.toNat).idx / 4 →
    decOf s r.idx b = some d → d.mapWait = true →
    (storeLost s r t 2 m = true → exec (.mediaReadData line flips shadow) s = .next (settle (giveAll r b .err (dropDec r.idx b s)))) ∧
    (storeLost s r t 2 m = false → (storeGet s r t 2 m).isSome = true → mapQueued s r t (blockOf s r line.toNat).idx = true →
      exec (.mediaReadData line flips shadow) s = .next (settle (mapEnd r t b (mapBad s r t (blockOf s r line.toNat).idx flips)
        (storeRead r t 2 m flips {} s).1 (storeRead r t 2 m flips {} s).2)))) ∧
  (∀ (s : State) (region : RegionId) (block : BitVec 36) (flips : List (Nat × Flips)) (d : Decomp) (r : Region) (e : MapEnt), decOf s region.val block.toNat = some d →
    regionOf s region.val = some r → engineUp s d.tile = true → d.granted = true → d.failed = false → e = getMap s d.tile r.idx (block.toNat >>> tileBits s) →
    ((∃ k, k < 4 * unitsOf e.clen ∧ storeLost s r d.tile 1 (4 * e.run + k) = true) →
      exec (.decompressEnd region block flips) s = .next (settle (giveAll r block.toNat .err (dropDec r.idx block.toNat s)))) ∧
    (∀ (f : Nat → Flips) (x : RunOut × State), (∀ k, f k = ((flips.find? (fun x => x.1 = k)).map (·.2)).getD 0#648) →
      (∀ k, k < 4 * unitsOf e.clen → storeLost s r d.tile 1 (4 * e.run + k) = false ∧ (storeGet s r d.tile 1 (4 * e.run + k)).isSome = true) →
      x = readRun r d.tile e f {} (runShadow r d.tile e f s) → exec (.decompressEnd region block flips) s = .next (runEnd r d.tile block.toNat e.clen x.1 x.2))) ∧
  (∀ (r : Region) (t b clen : Nat) (d : Line) (x out : Bytes) (k : Nat) (s : State) (e : MapEnt), e = getMap s t r.idx (b >>> tileBits s) →
    (e.fmt = 1 → mapEnd r t b [] (.data d) s = takeDecomp r t b (cacheMap t r.idx (b >>> tileBits s) s)) ∧
    (e.fmt ≠ 1 → e.fmt ≠ 3 → mapEnd r t b [] (.data d) s = giveEntry r b e (cacheMap t r.idx (b >>> tileBits s) s)) ∧
    mapEnd r t b [] .err s = giveAll r b .err (dropDec r.idx b s) ∧
    mapEnd r t b [] .bad s = giveAll r b (.val poisonVal) (dropDec r.idx b (mapLineLost r t ((b >>> tileBits s) / 4) (some (b >>> tileBits s)) [8] s)) ∧
    (∀ (m : Nat) (o : Option Nat), mapLineLost r t m o [8] s = (List.range 4).foldl (fun s i =>
      if 4 * m + i < blocksPer s r ∧ (getMap s t r.idx (4 * m + i)).fmt ≠ 2 then poisonBlock r (blockAt s r t (4 * m + i)) .map s else s) s) ∧
    runEnd r t b clen .err s = settle (giveAll r b .err (dropDec r.idx b s)) ∧
    runEnd r t b clen .bad s = settle (giveAll r b (.val poisonVal) (dropDec r.idx b (poisonBlock r b .store s))) ∧
    runEnd r t b clen (.bytes x) s = streamEnd r t b (inflateTry (2 ^ r.blkLog) (x.take clen)) s ∧
    streamEnd r t b (.ok (out, k)) s = settle (outputBlock r t b out (dropDec r.idx b s)) ∧
    streamEnd r t b (.error out) s = settle (outputBlock r t b out (onDec r.idx b (fun d => { d with failed := true, out := out.take (out.length / 64 * 64) }) s))) ∧
  (∀ (s : State) (region : RegionId) (block : BitVec 36) (d : Decomp) (r : Region) (s1 : State), decOf s region.val block.toNat = some d → regionOf s region.val = some r →
    engineUp s d.tile = true → d.failed = true → (∀ v ∈ s.cry.verifs, v.tile = d.tile → v.region = r.idx → v.isSa = false) →
    s1 = raiseBit .pkSts d.tile 30 (raiseWith (tileSrc d.tile .pkDecode)
      { addr := BitVec.ofNat 64 (64 * blockLine r block.toNat), detail := BitVec.ofNat 32 r.idx } {} s) →
    (d.second = true → exec (.decodeRetry region block) s =
      .next (settle (giveAll r block.toNat (.val poisonVal) (dropDec r.idx block.toNat (poisonBlock r block.toNat .store s1))))) ∧
    (d.second = false → exec (.decodeRetry region block) s = .next (askRun r d.tile (getMap s1 d.tile r.idx (block.toNat >>> tileBits s)) (decPrio s1 d)
      (addCnt (tileCnt d.tile 463) 1 (onDec r.idx block.toNat (fun d => { d with failed := false, second := true }) s1))))) ∧
  (∀ (s : State) (t : TileId) (r : RingId) (n : W32) (j : Job) (g : Region), getJob s r.toNat n.toNat = some j → destPacked s j.desc = some g → engineUp s t.val = true →
    (∀ c, s.pk.commits.find? (fun c => c.tile = t.val) = some c → c.ring = r.toNat → c.n = n.toNat → exec (.ingestCommit t r n) s = .next (settle
      (commitGo (2 * (commitBlocks g j t.val).length + 1) g t.val (ringAttr (getRing s r.toNat)) (commitBlocks g j t.val) s))) ∧
    (∀ c, s.pk.commits.find? (fun c => c.tile = t.val) = some c → c.ring ≠ r.toNat ∨ c.n ≠ n.toNat → exec (.ingestCommit t r n) s = .next s)) ∧
  (∀ (s : State) (f t : Nat) (g : Region) (a : Attr) (bs : List (Nat × BlkRes)) (c : Commit), s.pk.commits.find? (fun c => c.tile = t) = some c →
    (bs[c.applied]? = none → commitGo (f + 1) g t a bs s = commitDone g c s) ∧
    (∀ b, bs[c.applied]? = some b →
      (lockOf s g.idx b.1 = none → lockFree s g b.1 = false → commitGo (f + 1) g t a bs s = s) ∧
      (lockOf s g.idx b.1 = none → lockFree s g b.1 = true → commitGo (f + 1) g t a bs s = commitGo f g t a bs ((heldLines s g t b.1).foldl (fun s l => invalidate t l a s)
        { s with pk := { s.pk with locks := s.pk.locks ++ [{ tile := t, region := g.idx, block := b.1 }] } })) ∧
      ((lockOf s g.idx b.1).isSome = true → (∃ l ∈ blockLines g b.1, invalidating s l = true) → commitGo (f + 1) g t a bs s = s) ∧
      ((lockOf s g.idx b.1).isSome = true → (∀ l ∈ blockLines g b.1, invalidating s l = false) → storeReady s g t 2 (b.1 >>> tileBits s / 4) = true →
        commitGo (f + 1) g t a bs s = commitGo f g t a bs
          (onCommit c (fun c => { c with applied := c.applied + 1 }) (releaseLock g.idx b.1 (commitBlock g t c.ring c.n b s)))))) ∧
  (∀ (s s0 s1 s2 : State) (r : Region) (t rg n : Nat) (x : Nat × BlkRes) (old : MapEnt) (ok : Bool), old = getMap s t r.idx (x.1 >>> tileBits s) →
    (∀ j, getJob s rg n = some j → s0 = setJob rg n (some { j with reports := j.reports.map (fun p =>
      if p.tile = t ∧ p.j = x.1 - (dDst j.desc - r.base) / 2 ^ r.blkLog then { p with blk := p.blk.map (fun b => { b with units := 0 }) } else p) }) s) →
    (getJob s rg n = none → s0 = s) →
    writeMap r t (x.1 >>> tileBits s) { run := x.2.run, fmt := x.2.fmt, dblk := x.2.dblk, clen := x.2.clen, gen := (old.gen + 1) % 2 ^ 32, units := x.2.units }
      ⟨rgOwner (getRing s0 rg), 1, some (rgClass (getRing s0 rg))⟩ s0 = (ok, s1) →
    (ok = true → s2 = dropPoison (64 * blockLine r x.1) (2 ^ r.blkLog) s1 →
      commitBlock r t rg n x s = if old.units = 0 then s2 else freeRun t r.idx old.run old.units s2) ∧
    (ok = false → s2 = uncacheMap t r.idx (x.1 >>> tileBits s) (if x.2.units = 0 then s1 else freeRun t r.idx x.2.run x.2.units s1) →
      (getJob s2 rg n = none → commitBlock r t rg n x s = s2) ∧
      (∀ j, getJob s2 rg n = some j → commitBlock r t rg n x s =
        setJob rg n (some { j with lostBlks := j.lostBlks ++ [x.1 - (dDst j.desc - r.base) / 2 ^ r.blkLog] }) s2)))

/-- What the TAP instructions do. With the TAP out of power-on reset an instruction stands in the instruction register and selects what is
shifted out. IDCODE, FUSE_RD and DAWN_RD always work; ANCHOR_PROG programs a zero anchor once, in its window, and is BYPASS otherwise. While
the logic runs and no key has been installed ARRAY_ACC, MEM_ACC, CRY_ACC and MP_DEBUG reach the arrays, the lines and frames (a frame of the
shadow structures shows and takes their counter lines, nodes and tags), the crypto state and the processors; otherwise they read zero and
change nothing. The layouts are the model's (log 31). -/
def Obligations.TapCommands : Prop :=
  (∀ (s : State) (ir : Byte) (w dr : Nat), s.rst.por = false →
    tapRun ir w dr s = { s with tap := { s.tap with ir := ir, width := w, dr := dr % 2 ^ w, extest := decide (ir = 0#8) } }) ∧
  (∀ (s : State) (chain : List Bool), s.rst.por = false →
    exec (.extest chain) s = .next { s with free := s.free + 1,
                                            tap := { s.tap with ir := 0#8, width := chain.length, preload := chain, extest := true,
                                                                dr := Config.boundaryCapture s.free % 2 ^ chain.length } } ∧
    exec (.samplePreload chain) s = .next { s with free := s.free + 1,
                                                   tap := { s.tap with ir := 2#8, width := chain.length, preload := chain, extest := false,
                                                                       dr := Config.boundaryCapture s.free % 2 ^ chain.length } }) ∧
  (∀ (s : State) (b : Byte), s.rst.por = false →
    exec (.bypass b) s = .next { s with tap := { s.tap with ir := 0xFF#8, width := 1, dr := 0, extest := false } }) ∧
  (∀ s : State, exec .idcode s = .next (tapRun 0x01#8 32 (idcode s).toNat s) ∧
    exec .fuseRd s = .next (tapRun 0x10#8 336 (s.fuse.id.toNat + (s.fuse.tiles <<< 8) + (s.fuse.serial.toNat <<< 16) + (s.fuse.anchor.toNat <<< 80)) s) ∧
    exec .dawnRd s = .next (tapRun 0x18#8 64 ((dawnSts s).toNat + ((fuseInfo s).toNat <<< 32)) s)) ∧
  (∀ s : State, (s.fuse.tiles = 2 → idcode s = 0x18A025A7#32) ∧ (s.fuse.tiles = 4 → idcode s = 0x18A045A7#32) ∧ (s.fuse.tiles = 8 → idcode s = 0x18A085A7#32)) ∧
  (∀ (s : State) (v : BitVec 256), s.rst.por = false →
    (s.fuse.anchor = 0#256 → s.rst.anchorWindow = true → exec (.anchorProg v) s =
      .next { s with fuse := { s.fuse with anchor := v }, tap := { s.tap with ir := 0x11#8, width := 256, dr := v.toNat, extest := false } }) ∧
    ((s.fuse.anchor ≠ 0#256 ∨ s.rst.anchorWindow = false) → exec (.anchorProg v) s =
      .next { s with tap := { s.tap with ir := 0xFF#8, width := 1, dr := 0, extest := false } })) ∧
  (∀ (s : State) (a : Fin 3) (i : Nat) (key : Nat) (t : TileId) (halt : Bool) (d : Line) (x : BitVec 640), s.rst.por = false → tapGate s = true →
    (i < arraySize s a.val →
      exec (.arrayAcc a i none) s = .next (tapRun 0x20#8 640 (arrayRead s a.val i) s) ∧
      exec (.arrayAcc a i (some x)) s = .next (arrayWrite a.val i x.toNat (tapRun 0x20#8 640 0 s))) ∧
    exec (.cryAcc key none) s = .next (tapRun 0x22#8 512 (tapCryRead s key) s) ∧
    exec (.cryAcc key (some d)) s = .next (tapCryWrite key d (tapRun 0x22#8 512 0 s)) ∧
    (t.val < s.fuse.tiles → exec (.mpDebug t halt) s =
      .next { s with tap := { s.tap with ir := 0x23#8, width := 8, dr := s.tap.halted.toNat, extest := false, halted := setBit s.tap.halted t.val halt } })) ∧
  (∀ (s : State) (a : LineAddr) (wr : Option Line) (t : TileId) (nvm : Bool) (f : BitVec 32) (i : Fin 64), tapGate s = true → tileRuns s 0 = true →
    exec (.memAcc (.line a) wr) s = .next (memAccLine a.toNat wr (tapRun 0x21#8 512 0 s)) ∧
    exec (.memAcc (.frame t nvm f i) wr) s = .next (memAccFrame t.val nvm f.toNat i.val wr (tapRun 0x21#8 512 0 s))) ∧
  (∀ (s : State) (line : Nat) (r : Region) (d : Line), regionAt s (64 * line) = some r → inFill s (64 * line) = false →
    memAccLine line none s = settle (startOp 0 line (.fwRd true) s) ∧
    (r.typ ≠ .packed → memAccLine line (some d) s = settle (startOp 0 line (.fwWr true { data := d, chk := lineChk line d }) s))) ∧
  (∀ (s s1 : State) (t f i : Nat) (nvm : Bool) (d : Line) (x : Rec) (src : Sum Nat Nat), walkersRun s t = true → locLost s t nvm f i = false →
    nvm = true ∨ placeLineAt s t f i = none →
    (shadowOf s t nvm (64 * f + i) = none →
      memAccFrame t nvm f i (some d) s = settle (putLoc t nvm f i (mkRec (localFold t (64 * f + i)) d 0#56) (classPrio s (paramNat s "qos.class.firmware" 14)) s) ∧
      (takeLoc 2 t nvm f i 0#648 s = some (x, src, s1) → memAccFrame t nvm f i none s = { s1 with tap := { s1.tap with dr := x.data.toNat } })) ∧
    (∀ (g : Region) (a : Nat) (y : Sum (Nat × Nat) (Nat × Nat)), shadowOf s t nvm (64 * f + i) = some (g, a, y) →
      memAccFrame t nvm f i (some d) s = settle (putLoc t nvm f i (mkRec (localFold t (64 * f + i)) d 0#56) (classPrio s (paramNat s "qos.class.firmware" 14)) (putShadow t g a y d s)) ∧
      (takeLoc 2 t nvm f i 0#648 s = some (x, src, s1) →
        memAccFrame t nvm f i none s = { s1 with tap := { s1.tap with dr := (shadowLine s g t a y).toNat } })) ∧
    (takeLoc 2 t nvm f i 0#648 s = none → memAccFrame t nvm f i none s = askLoc 2 t nvm f i (classPrio s (paramNat s "qos.class.firmware" 14)) s)) ∧
  (∀ (s : State) (a : Fin 3) (i key : Nat) (t : TileId) (halt : Bool) (g : TapTarget) (d : Option Line) (x : Option (BitVec 640)), tapGate s = false →
    exec (.arrayAcc a i x) s = .next (tapRun 0x20#8 640 0 s) ∧ exec (.cryAcc key d) s = .next (tapRun 0x22#8 512 0 s) ∧
    exec (.memAcc g d) s = .next (tapRun 0x21#8 512 0 s) ∧ exec (.mpDebug t halt) s = .next (tapRun 0x23#8 8 0 s))

/-- When a block is released from reset and what a lost clock does. A write to RST_BLK_CTL by an agent with rights stores and releases; a block
is released exactly when its bit reads 0 and its clock is good or was good before, and a block that lost its clock stays in reset. A clock
that becomes good is kept, starts the tile with its fabric and management clocks good (the model's reading, log 13) and lets the waiting
releases through. A clock that is lost before release only clears its bit; after release it puts its blocks back into reset, what they
served being lost, sets CLK_LOST and raises RST_CLK_LOST for each. A tile that never reaches clock-good fails Dawn 0 with FAIL_CODE 8; T0
after another leaves no recovery firmware. -/
def Obligations.ClocksAndReleases : Prop :=
  (∀ (s : State) (a : Agent) (t : TileId) (v : W32), regOpen s a .rstBlkCtl t.val = true →
    exec (.rstBlkCtlWrite a t v) s = .next (releaseBlocks t.val (writeReg .rstBlkCtl t.val v s))) ∧
  (∀ (s : State) (a : Agent) (t : TileId) (v : W32), regOpen s a .rstBlkCtl t.val = false → exec (.rstBlkCtlWrite a t v) s = .next s) ∧
  (∀ (s : State) (t b : Nat), b < 10 → (blockUp (releaseBlocks t s) t b = true ↔
    bit (regRaw s .rstBlkCtl t) b = false ∧ (Table.get 0#10 s.clk.lost t).getLsbD b = false ∧ (blockUp s t b = true ∨ clkGood s t (clkBit b) = true))) ∧
  (∀ (s : State) (t : Nat), releaseBlocks t s = { s with clk := { s.clk with released := (releaseBlocks t s).clk.released } } ∧
    ∀ u b, u ≠ t → blockUp (releaseBlocks t s) u b = blockUp s u b) ∧
  (∀ (s : State) (t : TileId) (b : Fin 7), running s = true → t.val < s.fuse.tiles → s.sv.tilesGood.getLsbD t.val = true →
    exec (.clockGood t b) s = .next (releaseBlocks t.val { s with
      clk := { s.clk with good := Table.mod 0#7 s.clk.good t.val (fun w => setBit w b.val true)
                          running := setBit s.clk.running t.val (s.clk.running.getLsbD t.val ||
                            ((clkGood s t.val 6 || decide (b.val = 6)) && (clkGood s t.val 5 || decide (b.val = 5)))) } })) ∧
  (∀ (s : State) (t : TileId) (b : Fin 7) (hit : List Nat), running s = true → t.val < s.fuse.tiles → clkGood s t.val b.val = true →
    hit = (bitsOf 10 (Table.get 0#10 s.clk.released t.val)).filter (fun k => clkBit k = b.val) →
    (hit = [] → exec (.clockGoodLost t b) s = .next { s with clk := { s.clk with
      good := Table.mod 0#7 s.clk.good t.val (fun w => setBit w b.val false)
      released := Table.mod 0#10 s.clk.released t.val id
      lost := Table.mod 0#10 s.clk.lost t.val id } }) ∧
    (∀ s1 s2, hit ≠ [] → s1 = hit.foldl (fun s k => loseBlock t.val k s) s → s2 = { s1 with clk := { s1.clk with
        good := Table.mod 0#7 s1.clk.good t.val (fun w => setBit w b.val false)
        released := Table.mod 0#10 s1.clk.released t.val (fun w => hit.foldl (fun w i => setBit w i false) w)
        lost := Table.mod 0#10 s1.clk.lost t.val (fun w => hit.foldl (fun w i => setBit w i true) w) } } →
      exec (.clockGoodLost t b) s = .next (hit.foldl (fun s k => raiseTile t.val .rstClkLost k s) (raiseBit .rstClkSts t.val 7 s2)))) ∧
  (∀ (s : State) (t : TileId), running s = true → t.val < s.fuse.tiles → midnight s = false → s.dawn.stage = 0 → s.dawn.failed = false → tileRuns s t.val = false →
    exec (.clockGoodTimeout t) s = .next (failDawn 8 (decide (t.val = 0)) s)) ∧
  (∀ (s : State) (t : TileId), running s = true → t.val < s.fuse.tiles → midnight s = false → s.dawn.stage = 0 → s.dawn.failed = true → tileRuns s t.val = false →
    exec (.clockGoodTimeout t) s = .next (if t.val = 0 then { s with dawn := { s.dawn with recovery := false } } else s))

/-- What each stage of Dawn does. Each stage runs once, after the one before it. Dawn 1 applies the option block and releases the ports, and
fails with code 9 where a tile cannot be reached, with 1 where the anchor is zero and with 2 or 3 where no slot has a usable header. Dawn 2
sets the flash's read mode and tries the candidates in order, loading the firmware of the first that passes. Dawn 3 passes the candidate
over with code 5, where its image does not read or declares a population that breaks the rules, or lets its image take effect. Dawn 4 draws
the keys, trains the DIMMs of the channels that have power, writes the fields of the run lock and releases every block. Dawn 5 passes the
candidate over with code 6 or 7, or applies the evaluation and starts the fills. Dawn 6, with every fill done, sets the run lock and
Mem_Active and logs. A candidate passed over leaves the next one or Dawn's failure; a failure sets FAILED, FAIL_CODE and RECOVERY. A
re-evaluation applies its result, keeps its report and logs it. -/
def Obligations.DawnStages : Prop :=
  (∀ s s2 : State, tileRuns s 0 = true → midnight s = false → s.dawn.stage = 0 → s.dawn.failed = false → (∀ t ∈ tileList s, tileRuns s t = true) →
    ((∃ t ∈ tileList s, cutOff s 0 t = true) → exec .dawn1 s = .next (dawnOptions (failDawn 9 false s))) ∧
    ((∀ t ∈ tileList s, cutOff s 0 t = false) → s2 = dawnOptions s → s.fuse.anchorRead = 0#256 → exec .dawn1 s = .next (failDawn 1 false s2)) ∧
    ((∀ t ∈ tileList s, cutOff s 0 t = false) → s2 = dawnOptions s → s.fuse.anchorRead ≠ 0#256 → exec .dawn1 s = .next (candsFound (candidates s2 s2.dawn.opt) s2))) ∧
  (∀ s : State, tileRuns s 0 = true → midnight s = false → s.dawn.stage = 0 → s.dawn.failed = true →
    (s.dawn.recovery = true → exec .dawn1 s = .next (dawnOptions s)) ∧ (s.dawn.recovery = false → exec .dawn1 s = .next s)) ∧
  (∀ s : State, (dawnOptions s).flash.mode = .oneS25 ∧ (dawnOptions s).dawn.stage = 1 ∧ (dawnOptions s).dawn.opt = (if optValid (flashRead s 0 4096) then optOf (flashRead s 0 4096) else optDefaults)) ∧
  (∀ (s : State) (c : Bool) (l : List Bool), candsFound (c :: l) s = onDawn (fun d => { d with cands := c :: l }) s ∧
    (slotHdr s false = none → slotHdr s true = none → candsFound [] s = failDawn 2 false s) ∧
    ((slotHdr s false).isSome = true ∨ (slotHdr s true).isSome = true → candsFound [] s = failDawn 3 false s)) ∧
  (∀ s : State, tileRuns s 0 = true → midnight s = false → s.dawn.failed = false → s.dawn.runLock = false → s.dawn.stage ≠ 0 → s.dawn.cand = none →
    exec .dawn2 s = .next (tryCands s.dawn.cands { s with flash := { s.flash with mode := flashMode s.dawn.opt.xspi }, dawn := { s.dawn with stage := 2 } })) ∧
  (∀ (s : State) (c : Bool) (l : List Bool) (h : SlotHdr) (s1 : State), tryCands [] s = s ∧
    (usable s c = some h → s1 = onDawn (fun d => { d with cand := some c, hdr := some h, cands := l, tried := setBit d.tried (b2n c) true }) s →
      (firmwareOk s c h = true → tryCands (c :: l) s = { s1 with dawn := { s1.dawn with mgmtMem := firmwareSec s c h } }) ∧ (firmwareOk s c h = false → tryCands (c :: l) s = tryCands l (passOver 4 s1)))) ∧
  (∀ (s : State) (code : Nat) (s1 : State), s1 = primaryLog 0x03#8 0#8 0xFFFF#16
      [3#8, 0#8, BitVec.ofNat 8 (match s.dawn.cand with | some b => b2n b | none => 0), BitVec.ofNat 8 code] s →
    (s.dawn.cands = [] → passOver code s = failDawn code false s1) ∧ (s.dawn.cands ≠ [] → passOver code s = withdraw s1)) ∧
  (∀ (s : State) (code : Nat) (t0 : Bool), (failDawn code t0 s).dawn.failed = true ∧ (failDawn code t0 s).dawn.failCode = code ∧
    (failDawn code t0 s).dawn.recovery = (!t0) ∧ (failDawn code t0 s).faults.rr = true) ∧
  (∀ (s : State) (c : Bool) (h : SlotHdr), firmwareRuns s 0 = true → midnight s = false → s.dawn.stage = 2 → s.dawn.cand = some c → s.dawn.hdr = some h →
    exec (.dawn3 none) s = .next (imageRead c h (readImage s c h) (onDawn (fun d => { d with stage := 3 }) s)) ∧
    (∀ p, populationOk s p = true → exec (.dawn3 (some p)) s = .next (imageRead c h (readImage s c h) (onDawn (fun d => { d with stage := 3 }) s))) ∧
    (∀ p, populationOk s p = false → exec (.dawn3 (some p)) s = .next (passOver 5 (onDawn (fun d => { d with stage := 3 }) s)))) ∧
  (∀ (s : State) (c : Bool) (h : SlotHdr) (i : Image), imageRead c h none s = passOver 5 s ∧ imageRead c h (some i) s = readyHeads (applyImage c h i s) ∧
    (∀ t ∈ tileList s, t < 8 → (applyImage c h i s).dawn.started.getLsbD t = true)) ∧
  (∀ (s : State) (nonce : W64) (keys : List (BitVec 256)) (dimms : List (TileId × DimmId × Spd)) (eyes : List Eye) (failed : List (SubId × Fin 10)) (s2 s3 s4 s6 : State),
    firmwareRuns s 0 = true → midnight s = false → s.dawn.stage = 3 → s.dawn.cand ≠ none →
    s2 = (if (tileList s).map (fun t => leAt (imageGang s) t 1) = (tileList s).map (fun t => leAt s.dawn.opt.gang t 1) then onDawn (fun d => { d with stage := 4 }) s
      else primaryLog 0x03#8 0#8 0xFFFF#16 ([2#8, 0#8] ++ slice (imageGang s) 0 8) (setGang (imageGang s) (onDawn (fun d => { d with stage := 4 }) s))) →
    s3 = onCry (fun c => { c with nonce := some nonce, treeKeys := (tileList s).foldl (fun tb t => Table.set none tb t keys[t]?) c.treeKeys }) s2 →
    s4 = (tileList s).foldl (fun a t => trainDimms (((tileList s).flatMap (fun t => (List.range 8).filterMap (fun c =>
      if (getChan s (8 + 2 * t + c / 4)).state = .powerGood then (dimms.find? (fun d => d.1.val = t ∧ d.2.1.val = c)).map (·.2.2) else none))).find? spdOk) dimms eyes failed a t) s3 →
    s6 = deviceParams s4 (faultParams s4 ((tileList s).foldl (fun a t => tileParams s4 t a) s4)) →
    exec (.dawn4 nonce keys dimms eyes failed) s = .next ((tileList s).foldl (fun s t => releaseBlocks t (setReg .rstBlkCtl t 0#32 s)) s6)) ∧
  (∀ s s1 : State, firmwareRuns s 0 = true → midnight s = false → s.dawn.stage = 4 → s.dawn.cand ≠ none →
    s1 = (tileList s).foldl (fun s t => formTile t s) (onDawn (fun d => { d with stage := 5 }) s) →
    ((∃ t ∈ tileList s, fitsTile s1 t = false) → exec .dawn5 s = .next (passOver 6 s1)) ∧
    ((∀ t ∈ tileList s, fitsTile s1 t = true) → exec .dawn5 s = .next (admitted (evaluate s1 s1.qos.cls true) s1))) ∧
  (∀ (o : EvalOut) (s s1 s2 : State), s1 = onQos (fun q => { q with report := reportBytes s 0 0xFFFF o }) s →
    (o.result = 3 → admitted o s = passOver 7 s1) ∧
    (o.result ≠ 3 → s2 = onQos (fun q => { q with links := (heads s).foldl (fun tb h =>
        Table.set (0, 0) tb h (headLanes s h, min 640 (10 * paramNat s "x.qos.link_gts" 64))) q.links }) (applyEval o s1) →
      admitted o s = s2.map.cat.foldl (fun s r => startFill r.base r.len r.idx none s) s2)) ∧
  (∀ s : State, firmwareRuns s 0 = true → midnight s = false → s.dawn.stage = 5 → s.dawn.cand ≠ none → (∀ e ∈ s.map.fills, e.2 = none) →
    exec .dawn6 s = .next (primaryLog 0x01#8 0#8 0xFFFF#16
      ([BitVec.ofNat 8 (b2n s.dawn.slotB), 0#8] ++ leBytes 4 s.dawn.seq.toNat ++ slotIdentity s ++ [BitVec.ofNat 8 s.qos.result, s.qos.report.getD 12 0#8])
      { s with dawn := { s.dawn with stage := 6, runLock := true, memActive := true }, time := { s.time with d6At := s.time.now } })) ∧
  (∀ (s : State) (nonce : W64) (keys : List (BitVec 256)) (dimms : List (TileId × DimmId × Spd)) (eyes : List Eye) (failed : List (SubId × Fin 10)),
    (s.dawn.stage ≠ 0 → exec .dawn1 s = .next s) ∧ ((s.dawn.stage = 0 ∨ s.dawn.cand ≠ none ∨ s.dawn.failed = true) → exec .dawn2 s = .next s) ∧
    (∀ p, s.dawn.stage ≠ 2 → exec (.dawn3 p) s = .next s) ∧ (s.dawn.stage ≠ 3 → exec (.dawn4 nonce keys dimms eyes failed) s = .next s) ∧
    (s.dawn.stage ≠ 4 → exec .dawn5 s = .next s) ∧ (s.dawn.stage ≠ 5 → exec .dawn6 s = .next s)) ∧
  (∀ (s : State) (trig : Nat), s.qos.busy = some trig → primaryRuns s = true → midnight s = false →
    exec .reevaluationDone s = .next (reevaluated trig (evaluate s s.qos.cls false) s)) ∧
  (∀ (o : EvalOut) (s s1 : State) (trig : Nat), s1 = eventAll ⟨.warning, .reevaluated⟩ (primaryLog 0x04#8 0#8 0xFFFF#16
      ([BitVec.ofNat 8 o.result, 0#8] ++ leBytes 2 trig ++ leBytes 2 o.shed.toNat)
      (onQos (fun q => { q with busy := none, reReport := reportBytes s 1 trig o }) (applyEval o s))) →
    (o.result = 4 → reevaluated trig o s = raiseTile 0 .qosUnadmitted o.shed.toNat s1) ∧ (o.result ≠ 4 → reevaluated trig o s = s1))

/-- A query changes nothing but its answer. A mailbox query, or an attempt at one, changes only what the functions of the heads hold to answer
with, and a query of the logs what is held back while the log is being found; a DOE request without a session and a configuration request
likewise change only the host side; an I3C or MCTP query changes only the I3C target. Every other register, memory, queue and flag stays as
it was. -/
def Obligations.QueriesChangeOnlyAnswers : Prop :=
  (∀ (s t : State) (f : Fn) (h : PortId) (ld : LdId) (l : EvLog) (cel : Bool) (id : BitVec 128) (b : Bytes) (op : BitVec 16) (c : Instr),
    c ∈ [.identify f, .getResponseMessageLimit f, .getEventInterruptPolicy f, .getFwInfo f, .getTimestamp f, .getSupportedFeatures f, .identifyMemoryDevice f,
      .getPartitionInfo f, .getHealthInfo f, .getAlertConfiguration f, .getDynamicCapacityConfiguration f, .getDynamicCapacityExtentList f, .getIluisStatus f,
      .backgroundOperationStatus f, .getEventRecords f l, .getLogCapabilities f cel, .getFeature f id, .setFeature f id, .getLdInfo f, .getLdAllocations f, .getQosControl f, .getQosStatus f, .getQosAllocatedBw f, .getQosBwLimit f,
      .getMultiHeadedInfo f, .getDcdInfo f, .getHeadInfo f h, .getHostDcRegionConfiguration f h ld, .getDcRegionExtentLists f h ld, .unsupportedCommand f op,
      .getSurroundings f, .getAdmissionReport f b, .getFaultSummary f b, .getTwilightStatus f] →
    exec c s = .next t → t = { s with host := { s.host with fns := t.host.fns } }) ∧
  (∀ (s t : State) (f : Fn) (cel : Bool) (o n : Nat) (b : Bytes) (c : Instr), c ∈ [.getSupportedLogs f, .getLog f cel o n, .getSupportedLogsSubList f o n, .readLogRecords f b] →
    exec c s = .next t → t = { s with host := { s.host with fns := t.host.fns, logHeld := t.host.logHeld } } ∧ (s.log.starting = false → t.host.logHeld = s.host.logHeld)) ∧
  (∀ (s t : State) (f : Fn) (i : Byte) (e : BitVec 16) (slot : Fin 8) (o n : Nat) (h : PortId) (ld : LdId) (q : CfgReq) (c : Instr),
    c ∈ [.doeDiscovery f i, .tableAccess f e, .getCertificate f slot o n, .getCsr f, .heartbeat f n, .keyUpdate f n, .configurationRequest h ld q] →
    exec c s = .next t → t = { s with host := { s.host with fns := t.host.fns, sent := t.host.sent } }) ∧
  (∀ (s t : State) (b : Byte) (w : W32) (n : BitVec 16) (c : Instr),
    c ∈ [.getEndpointId, .getEndpointUuid, .getMctpVersionSupport b, .getMessageTypeSupport, .getVendorDefinedMessageSupport b, .getStatusImageInfo b,
      .readStatusImage b w n, .i3cReservedCommand b] → exec c s = .next t → t = { s with i3c := t.i3c })

/-- No TAP instruction shows or sets a key. Two states that differ only in the keys, the working nonce, the identity key and the tree keys give
the same TAP state after any TAP instruction but MEM_ACC, whose data comes through the home agents; where CRY_ACC reads a tree node or root,
which is computed with the tree key, the tree keys are the same. No TAP instruction but MEM_ACC changes a key, the nonce, a tree key or the
identity key. -/
def Obligations.TapNeverReadsKeys : Prop :=
  ∀ (s : State) (k : Table (Option KeySlot)) (no : Option W64) (tk : Table (Option (BitVec 256))) (ik : BitVec 3072) (l : List Bool) (v : BitVec 256) (a : Fin 3) (i key : Nat)
      (x : Option (BitVec 640)) (d : Option Line) (t : TileId) (halt : Bool) (b : Byte) (c : Instr) (t1 t2 : State),
    c ∈ [.extest l, .samplePreload l, .idcode, .fuseRd, .anchorProg v, .dawnRd, .arrayAcc a i x, .cryAcc key d, .mpDebug t halt, .bypass b] →
    (c = .cryAcc key d → key % 4 = 0 ∨ key % 4 = 3 ∨ tk = s.cry.treeKeys) →
    exec c s = .next t1 → exec c { s with cry := { s.cry with keys := k, nonce := no, treeKeys := tk }, fuse := { s.fuse with idKey := ik } } = .next t2 →
    t2.tap = t1.tap ∧ t1.fuse.idKey = s.fuse.idKey ∧ t1.cry.keys = s.cry.keys ∧ t1.cry.nonce = s.cry.nonce ∧ t1.cry.treeKeys = s.cry.treeKeys
end

