-- ==== Sys2Proof/Laws/Table.lean ====
section
/-!
SUPPORT. The sparse table: its canonical form is kept by every operation, a read after a write gives what was written, and a write leaves every other
key alone.
-/
namespace Sys2Proof.Table
variable {α : Type}

/-- The canonical form, said of the list as a whole. -/
theorem wf_iff [DecidableEq α] (d : α) (t : Table α) :
    wf d t = true ↔ t.Pairwise (fun a b => a.1 < b.1) ∧ ∀ e ∈ t, e.2 ≠ d := by
  induction t with
  | nil => simp [wf]
  | cons e t ih =>
    obtain ⟨k, v⟩ := e
    cases t with
    | nil => simp [wf]
    | cons f t =>
      obtain ⟨k', v'⟩ := f
      simp only [wf, Bool.and_eq_true, decide_eq_true_eq, ih]
      constructor
      · rintro ⟨⟨hk, hv⟩, hp, hd⟩
        refine ⟨List.pairwise_cons.2 ⟨?_, hp⟩, ?_⟩
        · intro x hx
          rcases List.mem_cons.1 hx with rfl | hx
          · exact hk
          · exact Nat.lt_trans hk ((List.pairwise_cons.1 hp).1 x hx)
        · intro x hx
          rcases List.mem_cons.1 hx with rfl | hx
          · exact hv
          · exact hd x hx
      · rintro ⟨hp, hd⟩
        have hp' := List.pairwise_cons.1 hp
        exact ⟨⟨hp'.1 _ (List.mem_cons_self ..), hd (k, v) (List.mem_cons_self ..)⟩, hp'.2, fun x hx => hd x (List.mem_cons_of_mem _ hx)⟩

@[simp] theorem wf_nil [DecidableEq α] (d : α) : wf d ([] : Table α) = true := rfl

/-- Any part of a canonical table in its order is canonical. -/
theorem wf_sublist [DecidableEq α] {d : α} {t u : Table α} (h : u.Sublist t) (w : wf d t = true) : wf d u = true := by
  rw [wf_iff] at *
  exact ⟨w.1.sublist h, fun e he => w.2 e (h.subset he)⟩

theorem wf_drop [DecidableEq α] {d : α} {t : Table α} (w : wf d t = true) (i : Nat) : wf d (drop t i) = true :=
  wf_sublist List.filter_sublist w

theorem wf_keep [DecidableEq α] {d : α} {t : Table α} (w : wf d t = true) (p : Nat → α → Bool) : wf d (keep p t) = true :=
  wf_sublist List.filter_sublist w

theorem mem_insert (i : Nat) (v : α) (t : Table α) (e : Nat × α) : e ∈ insert i v t ↔ e = (i, v) ∨ e ∈ t := by
  induction t with
  | nil => simp [insert]
  | cons f t ih =>
    obtain ⟨k, w⟩ := f
    simp only [insert]
    split
    · simp
    · simp only [List.mem_cons, ih]
      tauto

/-- Inserting a key the table does not list keeps keys strictly rising. -/
theorem insert_sorted (i : Nat) (v : α) (t : Table α) (h : t.Pairwise (fun a b => a.1 < b.1)) (hi : ∀ e ∈ t, e.1 ≠ i) :
    (insert i v t).Pairwise (fun a b => a.1 < b.1) := by
  induction t with
  | nil => simp [insert]
  | cons f t ih =>
    obtain ⟨k, w⟩ := f
    have h' := List.pairwise_cons.1 h
    simp only [insert]
    split
    · rename_i hlt
      refine List.pairwise_cons.2 ⟨?_, h⟩
      intro x hx
      rcases List.mem_cons.1 hx with rfl | hx
      · exact hlt
      · exact Nat.lt_trans hlt (h'.1 x hx)
    · rename_i hge
      have hk : k ≠ i := hi (k, w) (List.mem_cons_self ..)
      refine List.pairwise_cons.2 ⟨?_, ih h'.2 (fun e he => hi e (List.mem_cons_of_mem _ he))⟩
      intro x hx
      rcases (mem_insert i v t x).1 hx with rfl | hx
      · show k < i
        omega
      · exact h'.1 x hx

theorem wf_set [DecidableEq α] {d : α} {t : Table α} (w : wf d t = true) (i : Nat) (v : α) : wf d (set d t i v) = true := by
  unfold set
  split
  · exact wf_drop w i
  · rename_i hv
    have hd := wf_drop w i
    rw [wf_iff] at *
    refine ⟨insert_sorted i v _ hd.1 (fun e he => by simpa [drop] using (List.mem_filter.1 he).2), ?_⟩
    intro e he
    rcases (mem_insert i v _ e).1 he with rfl | he
    · exact hv
    · exact hd.2 e he

theorem wf_mod [DecidableEq α] {d : α} {t : Table α} (w : wf d t = true) (i : Nat) (f : α → α) : wf d (mod d t i f) = true :=
  wf_set w i _

theorem wf_mapAll [DecidableEq α] {d : α} {t : Table α} (w : wf d t = true) (f : Nat → α → α) : wf d (mapAll d f t) = true := by
  rw [wf_iff] at *
  refine ⟨List.Pairwise.sublist List.filter_sublist (List.pairwise_map.2 w.1), ?_⟩
  intro e he
  simpa using (List.mem_filter.1 he).2

/-- A write of many keys keeps the form. -/
theorem wf_foldl_set [DecidableEq α] {β : Type} {d : α} (l : List β) (k : β → Nat) (v : β → α) (t : Table α) (w : wf d t = true) :
    wf d (l.foldl (fun t e => set d t (k e) (v e)) t) = true := by
  induction l generalizing t with
  | nil => exact w
  | cons e l ih => exact ih _ (wf_set w _ _)

theorem get_insert_same (d : α) (i : Nat) (v : α) (t : Table α) (hi : ∀ e ∈ t, e.1 ≠ i) : get d (insert i v t) i = v := by
  induction t with
  | nil => simp [insert, get]
  | cons f t ih =>
    obtain ⟨k, w⟩ := f
    have hk : k ≠ i := hi (k, w) (List.mem_cons_self ..)
    simp only [insert]
    split
    · simp [get]
    · simp [get, hk, ih (fun e he => hi e (List.mem_cons_of_mem _ he))]

theorem get_insert_other (d : α) (i j : Nat) (v : α) (t : Table α) (h : j ≠ i) : get d (insert i v t) j = get d t j := by
  induction t with
  | nil => simp [insert, get, h.symm]
  | cons f t ih =>
    obtain ⟨k, w⟩ := f
    simp only [insert]
    split
    · simp [get, h.symm]
    · simp [get, ih]

theorem drop_cons (k : Nat) (w : α) (t : Table α) (i : Nat) : drop ((k, w) :: t) i = if k = i then drop t i else (k, w) :: drop t i := by
  by_cases h : k = i <;> simp [drop, h]

theorem get_drop_same (d : α) (t : Table α) (i : Nat) : get d (drop t i) i = d := by
  induction t with
  | nil => rfl
  | cons f t ih =>
    rw [drop_cons]
    split
    · exact ih
    · rename_i hk
      simp [get, hk, ih]

theorem get_drop_other (d : α) (t : Table α) (i j : Nat) (h : j ≠ i) : get d (drop t i) j = get d t j := by
  induction t with
  | nil => rfl
  | cons f t ih =>
    rw [drop_cons]
    split
    · rename_i hk
      have hj : f.1 ≠ j := by omega
      simp [get, hj, ih]
    · simp [get, ih]

theorem drop_lists (t : Table α) (i : Nat) : ∀ e ∈ drop t i, e.1 ≠ i := by
  intro e he
  simpa [drop] using (List.mem_filter.1 he).2

/-- A read after a write to the same key gives what was written. -/
@[simp] theorem get_set_same [DecidableEq α] (d : α) (t : Table α) (i : Nat) (v : α) : get d (set d t i v) i = v := by
  unfold set
  split
  · rename_i h
    rw [get_drop_same, h]
  · exact get_insert_same d i v _ (drop_lists t i)

/-- A write leaves every other key alone. -/
theorem get_set_other [DecidableEq α] (d : α) (t : Table α) (i j : Nat) (v : α) (h : j ≠ i) : get d (set d t i v) j = get d t j := by
  unfold set
  split
  · exact get_drop_other d t i j h
  · rw [get_insert_other d i j v _ h, get_drop_other d t i j h]

@[simp] theorem get_mod_same [DecidableEq α] (d : α) (t : Table α) (i : Nat) (f : α → α) : get d (mod d t i f) i = f (get d t i) :=
  get_set_same ..

theorem get_mod_other [DecidableEq α] (d : α) (t : Table α) (i j : Nat) (f : α → α) (h : j ≠ i) : get d (mod d t i f) j = get d t j :=
  get_set_other _ _ _ _ _ h

@[simp] theorem get_nil (d : α) (i : Nat) : get d [] i = d := rfl

end Sys2Proof.Table
end

