-- ==== Sys2Proof/Laws/Log.lean ====
section
/-!
SUPPORT. The log store's operations keep its cells in canonical form; those that only queue a record leave the cells alone.
-/
namespace Sys2Proof.Machine

/-- The cells stay in canonical form from one log store to the next. -/
def CellsOk (l m : LogStore) : Prop := Table.wf erased l.cells = true → Table.wf erased m.cells = true

theorem CellsOk.trans {l m n : LogStore} (a : CellsOk l m) (b : CellsOk m n) : CellsOk l n := fun h => b (a h)

theorem CellsOk.of_eq {l m : LogStore} (a : m.cells = l.cells) : CellsOk l m := fun h => by rw [a]; exact h

theorem CellsOk.foldl {β : Type} {g : LogStore → β → LogStore} (h : ∀ l x, CellsOk l (g l x)) (ls : List β) (l : LogStore) :
    CellsOk l (ls.foldl g l) := by
  induction ls generalizing l with
  | nil => exact id
  | cons x ls ih => exact (h l x).trans (ih _)

theorem cellsOk_setCell {i : Nat} {v : BitVec 128} {l : LogStore} : CellsOk l (setCell i v l) := fun h => Table.wf_set h _ _

theorem cellsOk_setCells {i : Nat} {b : Bytes} {l : LogStore} : CellsOk l (setCells i b l) :=
  CellsOk.foldl (fun _ _ => cellsOk_setCell) _ _

theorem cellsOk_splitInc {k : Nat} {l : LogStore} : CellsOk l (splitInc k l) := by
  unfold splitInc
  dsimp only
  split
  · exact cellsOk_setCell
  · exact fun h => cellsOk_setCell (cellsOk_setCell h)

theorem cellsOk_writeRetired {page : Nat} {l : LogStore} : CellsOk l (writeRetired page l) := by
  unfold writeRetired
  dsimp only
  exact fun h => cellsOk_setCell (cellsOk_setCell h)

theorem cellsOk_retirePage {page : Nat} {l : LogStore} : CellsOk l (retirePage page l) := by
  unfold retirePage
  split
  · exact id
  · intro h
    refine cellsOk_writeRetired ?_
    exact h

theorem startHint_cells {l : LogStore} : (startHint l).cells = l.cells := by
  unfold startHint
  split
  · rfl
  · split <;> rfl

theorem nextHint_cells {l : LogStore} : (nextHint l).cells = l.cells := by
  unfold nextHint
  split <;> rfl

theorem enqueue_cells {now : Nat} {typ origin : Byte} {source : BitVec 16} {p : Bytes} {l : LogStore} :
    (enqueue now typ origin source p l).cells = l.cells := by
  unfold enqueue
  dsimp only
  split
  · exact startHint_cells
  · rfl

theorem flushLost_cells {now : Nat} {l : LogStore} : (flushLost now l).cells = l.cells := by
  unfold flushLost
  split
  · exact enqueue_cells
  · rfl

theorem logAccept_cells {now : Nat} {typ origin : Byte} {source : BitVec 16} {p : Bytes} {l : LogStore} :
    (logAccept now typ origin source p l).cells = l.cells := by
  unfold logAccept
  split
  · rfl
  · split
    · exact flushLost_cells.trans enqueue_cells
    · split
      · exact enqueue_cells
      · rfl

theorem logPowerUp_cells {l : LogStore} : (logPowerUp l).cells = l.cells := by
  unfold logPowerUp
  dsimp only
  split <;> rfl

theorem cellsOk_logTear {n : Nat} {l : LogStore} : CellsOk l (logTear n l) := by
  intro h
  unfold logTear
  dsimp only
  split
  · exact h
  · split
    · exact cellsOk_setCells h
    · exact h
    · split
      · exact h
      · exact cellsOk_setCells h

theorem cellsOk_advanceRing {g : Nat} {q : W32} {l : LogStore} : CellsOk l (advanceRing g q l) := by
  unfold advanceRing
  dsimp only
  split
  · split
    · refine CellsOk.trans ?_ (CellsOk.foldl (fun _ _ => cellsOk_retirePage) _ _)
      intro h
      refine cellsOk_splitInc ?_
      exact h
    · intro h
      refine cellsOk_splitInc ?_
      exact h
  · exact id

end Sys2Proof.Machine
end

