-- ==== Sys2Proof/Laws/State.lean ====
section
/-!
SUPPORT. One lemma per field per update of a part of the state.
-/
namespace Sys2Proof.Machine

@[simp] theorem onFuse_fuse (f : Fuse → Fuse) (s : State) : (onFuse f s).fuse = f s.fuse := rfl
@[simp] theorem onFuse_rst (f : Fuse → Fuse) (s : State) : (onFuse f s).rst = s.rst := rfl
@[simp] theorem onFuse_chans (f : Fuse → Fuse) (s : State) : (onFuse f s).chans = s.chans := rfl
@[simp] theorem onFuse_sv (f : Fuse → Fuse) (s : State) : (onFuse f s).sv = s.sv := rfl
@[simp] theorem onFuse_meter (f : Fuse → Fuse) (s : State) : (onFuse f s).meter = s.meter := rfl
@[simp] theorem onFuse_link (f : Fuse → Fuse) (s : State) : (onFuse f s).link = s.link := rfl
@[simp] theorem onFuse_log (f : Fuse → Fuse) (s : State) : (onFuse f s).log = s.log := rfl
@[simp] theorem onFuse_faults (f : Fuse → Fuse) (s : State) : (onFuse f s).faults = s.faults := rfl
@[simp] theorem onFuse_cnt (f : Fuse → Fuse) (s : State) : (onFuse f s).cnt = s.cnt := rfl
@[simp] theorem onFuse_i3c (f : Fuse → Fuse) (s : State) : (onFuse f s).i3c = s.i3c := rfl
@[simp] theorem onFuse_tap (f : Fuse → Fuse) (s : State) : (onFuse f s).tap = s.tap := rfl
@[simp] theorem onFuse_clk (f : Fuse → Fuse) (s : State) : (onFuse f s).clk = s.clk := rfl
@[simp] theorem onFuse_dawn (f : Fuse → Fuse) (s : State) : (onFuse f s).dawn = s.dawn := rfl
@[simp] theorem onFuse_flash (f : Fuse → Fuse) (s : State) : (onFuse f s).flash = s.flash := rfl
@[simp] theorem onFuse_time (f : Fuse → Fuse) (s : State) : (onFuse f s).time = s.time := rfl
@[simp] theorem onFuse_regs (f : Fuse → Fuse) (s : State) : (onFuse f s).regs = s.regs := rfl
@[simp] theorem onFuse_host (f : Fuse → Fuse) (s : State) : (onFuse f s).host = s.host := rfl
@[simp] theorem onFuse_map (f : Fuse → Fuse) (s : State) : (onFuse f s).map = s.map := rfl
@[simp] theorem onFuse_nc (f : Fuse → Fuse) (s : State) : (onFuse f s).nc = s.nc := rfl
@[simp] theorem onFuse_ha (f : Fuse → Fuse) (s : State) : (onFuse f s).ha = s.ha := rfl
@[simp] theorem onFuse_fab (f : Fuse → Fuse) (s : State) : (onFuse f s).fab = s.fab := rfl
@[simp] theorem onFuse_cry (f : Fuse → Fuse) (s : State) : (onFuse f s).cry = s.cry := rfl
@[simp] theorem onFuse_dram (f : Fuse → Fuse) (s : State) : (onFuse f s).dram = s.dram := rfl
@[simp] theorem onFuse_nvm (f : Fuse → Fuse) (s : State) : (onFuse f s).nvm = s.nvm := rfl
@[simp] theorem onFuse_tier (f : Fuse → Fuse) (s : State) : (onFuse f s).tier = s.tier := rfl
@[simp] theorem onFuse_job (f : Fuse → Fuse) (s : State) : (onFuse f s).job = s.job := rfl
@[simp] theorem onFuse_pk (f : Fuse → Fuse) (s : State) : (onFuse f s).pk = s.pk := rfl
@[simp] theorem onFuse_qos (f : Fuse → Fuse) (s : State) : (onFuse f s).qos = s.qos := rfl
@[simp] theorem onFuse_place (f : Fuse → Fuse) (s : State) : (onFuse f s).place = s.place := rfl
@[simp] theorem onFuse_free (f : Fuse → Fuse) (s : State) : (onFuse f s).free = s.free := rfl
@[simp] theorem onFuse_pending (f : Fuse → Fuse) (s : State) : (onFuse f s).pending = s.pending := rfl
@[simp] theorem onRst_fuse (f : Resets → Resets) (s : State) : (onRst f s).fuse = s.fuse := rfl
@[simp] theorem onRst_rst (f : Resets → Resets) (s : State) : (onRst f s).rst = f s.rst := rfl
@[simp] theorem onRst_chans (f : Resets → Resets) (s : State) : (onRst f s).chans = s.chans := rfl
@[simp] theorem onRst_sv (f : Resets → Resets) (s : State) : (onRst f s).sv = s.sv := rfl
@[simp] theorem onRst_meter (f : Resets → Resets) (s : State) : (onRst f s).meter = s.meter := rfl
@[simp] theorem onRst_link (f : Resets → Resets) (s : State) : (onRst f s).link = s.link := rfl
@[simp] theorem onRst_log (f : Resets → Resets) (s : State) : (onRst f s).log = s.log := rfl
@[simp] theorem onRst_faults (f : Resets → Resets) (s : State) : (onRst f s).faults = s.faults := rfl
@[simp] theorem onRst_cnt (f : Resets → Resets) (s : State) : (onRst f s).cnt = s.cnt := rfl
@[simp] theorem onRst_i3c (f : Resets → Resets) (s : State) : (onRst f s).i3c = s.i3c := rfl
@[simp] theorem onRst_tap (f : Resets → Resets) (s : State) : (onRst f s).tap = s.tap := rfl
@[simp] theorem onRst_clk (f : Resets → Resets) (s : State) : (onRst f s).clk = s.clk := rfl
@[simp] theorem onRst_dawn (f : Resets → Resets) (s : State) : (onRst f s).dawn = s.dawn := rfl
@[simp] theorem onRst_flash (f : Resets → Resets) (s : State) : (onRst f s).flash = s.flash := rfl
@[simp] theorem onRst_time (f : Resets → Resets) (s : State) : (onRst f s).time = s.time := rfl
@[simp] theorem onRst_regs (f : Resets → Resets) (s : State) : (onRst f s).regs = s.regs := rfl
@[simp] theorem onRst_host (f : Resets → Resets) (s : State) : (onRst f s).host = s.host := rfl
@[simp] theorem onRst_map (f : Resets → Resets) (s : State) : (onRst f s).map = s.map := rfl
@[simp] theorem onRst_nc (f : Resets → Resets) (s : State) : (onRst f s).nc = s.nc := rfl
@[simp] theorem onRst_ha (f : Resets → Resets) (s : State) : (onRst f s).ha = s.ha := rfl
@[simp] theorem onRst_fab (f : Resets → Resets) (s : State) : (onRst f s).fab = s.fab := rfl
@[simp] theorem onRst_cry (f : Resets → Resets) (s : State) : (onRst f s).cry = s.cry := rfl
@[simp] theorem onRst_dram (f : Resets → Resets) (s : State) : (onRst f s).dram = s.dram := rfl
@[simp] theorem onRst_nvm (f : Resets → Resets) (s : State) : (onRst f s).nvm = s.nvm := rfl
@[simp] theorem onRst_tier (f : Resets → Resets) (s : State) : (onRst f s).tier = s.tier := rfl
@[simp] theorem onRst_job (f : Resets → Resets) (s : State) : (onRst f s).job = s.job := rfl
@[simp] theorem onRst_pk (f : Resets → Resets) (s : State) : (onRst f s).pk = s.pk := rfl
@[simp] theorem onRst_qos (f : Resets → Resets) (s : State) : (onRst f s).qos = s.qos := rfl
@[simp] theorem onRst_place (f : Resets → Resets) (s : State) : (onRst f s).place = s.place := rfl
@[simp] theorem onRst_free (f : Resets → Resets) (s : State) : (onRst f s).free = s.free := rfl
@[simp] theorem onRst_pending (f : Resets → Resets) (s : State) : (onRst f s).pending = s.pending := rfl
@[simp] theorem onSv_fuse (f : Sv → Sv) (s : State) : (onSv f s).fuse = s.fuse := rfl
@[simp] theorem onSv_rst (f : Sv → Sv) (s : State) : (onSv f s).rst = s.rst := rfl
@[simp] theorem onSv_chans (f : Sv → Sv) (s : State) : (onSv f s).chans = s.chans := rfl
@[simp] theorem onSv_sv (f : Sv → Sv) (s : State) : (onSv f s).sv = f s.sv := rfl
@[simp] theorem onSv_meter (f : Sv → Sv) (s : State) : (onSv f s).meter = s.meter := rfl
@[simp] theorem onSv_link (f : Sv → Sv) (s : State) : (onSv f s).link = s.link := rfl
@[simp] theorem onSv_log (f : Sv → Sv) (s : State) : (onSv f s).log = s.log := rfl
@[simp] theorem onSv_faults (f : Sv → Sv) (s : State) : (onSv f s).faults = s.faults := rfl
@[simp] theorem onSv_cnt (f : Sv → Sv) (s : State) : (onSv f s).cnt = s.cnt := rfl
@[simp] theorem onSv_i3c (f : Sv → Sv) (s : State) : (onSv f s).i3c = s.i3c := rfl
@[simp] theorem onSv_tap (f : Sv → Sv) (s : State) : (onSv f s).tap = s.tap := rfl
@[simp] theorem onSv_clk (f : Sv → Sv) (s : State) : (onSv f s).clk = s.clk := rfl
@[simp] theorem onSv_dawn (f : Sv → Sv) (s : State) : (onSv f s).dawn = s.dawn := rfl
@[simp] theorem onSv_flash (f : Sv → Sv) (s : State) : (onSv f s).flash = s.flash := rfl
@[simp] theorem onSv_time (f : Sv → Sv) (s : State) : (onSv f s).time = s.time := rfl
@[simp] theorem onSv_regs (f : Sv → Sv) (s : State) : (onSv f s).regs = s.regs := rfl
@[simp] theorem onSv_host (f : Sv → Sv) (s : State) : (onSv f s).host = s.host := rfl
@[simp] theorem onSv_map (f : Sv → Sv) (s : State) : (onSv f s).map = s.map := rfl
@[simp] theorem onSv_nc (f : Sv → Sv) (s : State) : (onSv f s).nc = s.nc := rfl
@[simp] theorem onSv_ha (f : Sv → Sv) (s : State) : (onSv f s).ha = s.ha := rfl
@[simp] theorem onSv_fab (f : Sv → Sv) (s : State) : (onSv f s).fab = s.fab := rfl
@[simp] theorem onSv_cry (f : Sv → Sv) (s : State) : (onSv f s).cry = s.cry := rfl
@[simp] theorem onSv_dram (f : Sv → Sv) (s : State) : (onSv f s).dram = s.dram := rfl
@[simp] theorem onSv_nvm (f : Sv → Sv) (s : State) : (onSv f s).nvm = s.nvm := rfl
@[simp] theorem onSv_tier (f : Sv → Sv) (s : State) : (onSv f s).tier = s.tier := rfl
@[simp] theorem onSv_job (f : Sv → Sv) (s : State) : (onSv f s).job = s.job := rfl
@[simp] theorem onSv_pk (f : Sv → Sv) (s : State) : (onSv f s).pk = s.pk := rfl
@[simp] theorem onSv_qos (f : Sv → Sv) (s : State) : (onSv f s).qos = s.qos := rfl
@[simp] theorem onSv_place (f : Sv → Sv) (s : State) : (onSv f s).place = s.place := rfl
@[simp] theorem onSv_free (f : Sv → Sv) (s : State) : (onSv f s).free = s.free := rfl
@[simp] theorem onSv_pending (f : Sv → Sv) (s : State) : (onSv f s).pending = s.pending := rfl
@[simp] theorem onMeter_fuse (f : PowerMeter → PowerMeter) (s : State) : (onMeter f s).fuse = s.fuse := rfl
@[simp] theorem onMeter_rst (f : PowerMeter → PowerMeter) (s : State) : (onMeter f s).rst = s.rst := rfl
@[simp] theorem onMeter_chans (f : PowerMeter → PowerMeter) (s : State) : (onMeter f s).chans = s.chans := rfl
@[simp] theorem onMeter_sv (f : PowerMeter → PowerMeter) (s : State) : (onMeter f s).sv = s.sv := rfl
@[simp] theorem onMeter_meter (f : PowerMeter → PowerMeter) (s : State) : (onMeter f s).meter = f s.meter := rfl
@[simp] theorem onMeter_link (f : PowerMeter → PowerMeter) (s : State) : (onMeter f s).link = s.link := rfl
@[simp] theorem onMeter_log (f : PowerMeter → PowerMeter) (s : State) : (onMeter f s).log = s.log := rfl
@[simp] theorem onMeter_faults (f : PowerMeter → PowerMeter) (s : State) : (onMeter f s).faults = s.faults := rfl
@[simp] theorem onMeter_cnt (f : PowerMeter → PowerMeter) (s : State) : (onMeter f s).cnt = s.cnt := rfl
@[simp] theorem onMeter_i3c (f : PowerMeter → PowerMeter) (s : State) : (onMeter f s).i3c = s.i3c := rfl
@[simp] theorem onMeter_tap (f : PowerMeter → PowerMeter) (s : State) : (onMeter f s).tap = s.tap := rfl
@[simp] theorem onMeter_clk (f : PowerMeter → PowerMeter) (s : State) : (onMeter f s).clk = s.clk := rfl
@[simp] theorem onMeter_dawn (f : PowerMeter → PowerMeter) (s : State) : (onMeter f s).dawn = s.dawn := rfl
@[simp] theorem onMeter_flash (f : PowerMeter → PowerMeter) (s : State) : (onMeter f s).flash = s.flash := rfl
@[simp] theorem onMeter_time (f : PowerMeter → PowerMeter) (s : State) : (onMeter f s).time = s.time := rfl
@[simp] theorem onMeter_regs (f : PowerMeter → PowerMeter) (s : State) : (onMeter f s).regs = s.regs := rfl
@[simp] theorem onMeter_host (f : PowerMeter → PowerMeter) (s : State) : (onMeter f s).host = s.host := rfl
@[simp] theorem onMeter_map (f : PowerMeter → PowerMeter) (s : State) : (onMeter f s).map = s.map := rfl
@[simp] theorem onMeter_nc (f : PowerMeter → PowerMeter) (s : State) : (onMeter f s).nc = s.nc := rfl
@[simp] theorem onMeter_ha (f : PowerMeter → PowerMeter) (s : State) : (onMeter f s).ha = s.ha := rfl
@[simp] theorem onMeter_fab (f : PowerMeter → PowerMeter) (s : State) : (onMeter f s).fab = s.fab := rfl
@[simp] theorem onMeter_cry (f : PowerMeter → PowerMeter) (s : State) : (onMeter f s).cry = s.cry := rfl
@[simp] theorem onMeter_dram (f : PowerMeter → PowerMeter) (s : State) : (onMeter f s).dram = s.dram := rfl
@[simp] theorem onMeter_nvm (f : PowerMeter → PowerMeter) (s : State) : (onMeter f s).nvm = s.nvm := rfl
@[simp] theorem onMeter_tier (f : PowerMeter → PowerMeter) (s : State) : (onMeter f s).tier = s.tier := rfl
@[simp] theorem onMeter_job (f : PowerMeter → PowerMeter) (s : State) : (onMeter f s).job = s.job := rfl
@[simp] theorem onMeter_pk (f : PowerMeter → PowerMeter) (s : State) : (onMeter f s).pk = s.pk := rfl
@[simp] theorem onMeter_qos (f : PowerMeter → PowerMeter) (s : State) : (onMeter f s).qos = s.qos := rfl
@[simp] theorem onMeter_place (f : PowerMeter → PowerMeter) (s : State) : (onMeter f s).place = s.place := rfl
@[simp] theorem onMeter_free (f : PowerMeter → PowerMeter) (s : State) : (onMeter f s).free = s.free := rfl
@[simp] theorem onMeter_pending (f : PowerMeter → PowerMeter) (s : State) : (onMeter f s).pending = s.pending := rfl
@[simp] theorem onLink_fuse (f : SvLink → SvLink) (s : State) : (onLink f s).fuse = s.fuse := rfl
@[simp] theorem onLink_rst (f : SvLink → SvLink) (s : State) : (onLink f s).rst = s.rst := rfl
@[simp] theorem onLink_chans (f : SvLink → SvLink) (s : State) : (onLink f s).chans = s.chans := rfl
@[simp] theorem onLink_sv (f : SvLink → SvLink) (s : State) : (onLink f s).sv = s.sv := rfl
@[simp] theorem onLink_meter (f : SvLink → SvLink) (s : State) : (onLink f s).meter = s.meter := rfl
@[simp] theorem onLink_link (f : SvLink → SvLink) (s : State) : (onLink f s).link = f s.link := rfl
@[simp] theorem onLink_log (f : SvLink → SvLink) (s : State) : (onLink f s).log = s.log := rfl
@[simp] theorem onLink_faults (f : SvLink → SvLink) (s : State) : (onLink f s).faults = s.faults := rfl
@[simp] theorem onLink_cnt (f : SvLink → SvLink) (s : State) : (onLink f s).cnt = s.cnt := rfl
@[simp] theorem onLink_i3c (f : SvLink → SvLink) (s : State) : (onLink f s).i3c = s.i3c := rfl
@[simp] theorem onLink_tap (f : SvLink → SvLink) (s : State) : (onLink f s).tap = s.tap := rfl
@[simp] theorem onLink_clk (f : SvLink → SvLink) (s : State) : (onLink f s).clk = s.clk := rfl
@[simp] theorem onLink_dawn (f : SvLink → SvLink) (s : State) : (onLink f s).dawn = s.dawn := rfl
@[simp] theorem onLink_flash (f : SvLink → SvLink) (s : State) : (onLink f s).flash = s.flash := rfl
@[simp] theorem onLink_time (f : SvLink → SvLink) (s : State) : (onLink f s).time = s.time := rfl
@[simp] theorem onLink_regs (f : SvLink → SvLink) (s : State) : (onLink f s).regs = s.regs := rfl
@[simp] theorem onLink_host (f : SvLink → SvLink) (s : State) : (onLink f s).host = s.host := rfl
@[simp] theorem onLink_map (f : SvLink → SvLink) (s : State) : (onLink f s).map = s.map := rfl
@[simp] theorem onLink_nc (f : SvLink → SvLink) (s : State) : (onLink f s).nc = s.nc := rfl
@[simp] theorem onLink_ha (f : SvLink → SvLink) (s : State) : (onLink f s).ha = s.ha := rfl
@[simp] theorem onLink_fab (f : SvLink → SvLink) (s : State) : (onLink f s).fab = s.fab := rfl
@[simp] theorem onLink_cry (f : SvLink → SvLink) (s : State) : (onLink f s).cry = s.cry := rfl
@[simp] theorem onLink_dram (f : SvLink → SvLink) (s : State) : (onLink f s).dram = s.dram := rfl
@[simp] theorem onLink_nvm (f : SvLink → SvLink) (s : State) : (onLink f s).nvm = s.nvm := rfl
@[simp] theorem onLink_tier (f : SvLink → SvLink) (s : State) : (onLink f s).tier = s.tier := rfl
@[simp] theorem onLink_job (f : SvLink → SvLink) (s : State) : (onLink f s).job = s.job := rfl
@[simp] theorem onLink_pk (f : SvLink → SvLink) (s : State) : (onLink f s).pk = s.pk := rfl
@[simp] theorem onLink_qos (f : SvLink → SvLink) (s : State) : (onLink f s).qos = s.qos := rfl
@[simp] theorem onLink_place (f : SvLink → SvLink) (s : State) : (onLink f s).place = s.place := rfl
@[simp] theorem onLink_free (f : SvLink → SvLink) (s : State) : (onLink f s).free = s.free := rfl
@[simp] theorem onLink_pending (f : SvLink → SvLink) (s : State) : (onLink f s).pending = s.pending := rfl
@[simp] theorem onLog_fuse (f : LogStore → LogStore) (s : State) : (onLog f s).fuse = s.fuse := rfl
@[simp] theorem onLog_rst (f : LogStore → LogStore) (s : State) : (onLog f s).rst = s.rst := rfl
@[simp] theorem onLog_chans (f : LogStore → LogStore) (s : State) : (onLog f s).chans = s.chans := rfl
@[simp] theorem onLog_sv (f : LogStore → LogStore) (s : State) : (onLog f s).sv = s.sv := rfl
@[simp] theorem onLog_meter (f : LogStore → LogStore) (s : State) : (onLog f s).meter = s.meter := rfl
@[simp] theorem onLog_link (f : LogStore → LogStore) (s : State) : (onLog f s).link = s.link := rfl
@[simp] theorem onLog_log (f : LogStore → LogStore) (s : State) : (onLog f s).log = f s.log := rfl
@[simp] theorem onLog_faults (f : LogStore → LogStore) (s : State) : (onLog f s).faults = s.faults := rfl
@[simp] theorem onLog_cnt (f : LogStore → LogStore) (s : State) : (onLog f s).cnt = s.cnt := rfl
@[simp] theorem onLog_i3c (f : LogStore → LogStore) (s : State) : (onLog f s).i3c = s.i3c := rfl
@[simp] theorem onLog_tap (f : LogStore → LogStore) (s : State) : (onLog f s).tap = s.tap := rfl
@[simp] theorem onLog_clk (f : LogStore → LogStore) (s : State) : (onLog f s).clk = s.clk := rfl
@[simp] theorem onLog_dawn (f : LogStore → LogStore) (s : State) : (onLog f s).dawn = s.dawn := rfl
@[simp] theorem onLog_flash (f : LogStore → LogStore) (s : State) : (onLog f s).flash = s.flash := rfl
@[simp] theorem onLog_time (f : LogStore → LogStore) (s : State) : (onLog f s).time = s.time := rfl
@[simp] theorem onLog_regs (f : LogStore → LogStore) (s : State) : (onLog f s).regs = s.regs := rfl
@[simp] theorem onLog_host (f : LogStore → LogStore) (s : State) : (onLog f s).host = s.host := rfl
@[simp] theorem onLog_map (f : LogStore → LogStore) (s : State) : (onLog f s).map = s.map := rfl
@[simp] theorem onLog_nc (f : LogStore → LogStore) (s : State) : (onLog f s).nc = s.nc := rfl
@[simp] theorem onLog_ha (f : LogStore → LogStore) (s : State) : (onLog f s).ha = s.ha := rfl
@[simp] theorem onLog_fab (f : LogStore → LogStore) (s : State) : (onLog f s).fab = s.fab := rfl
@[simp] theorem onLog_cry (f : LogStore → LogStore) (s : State) : (onLog f s).cry = s.cry := rfl
@[simp] theorem onLog_dram (f : LogStore → LogStore) (s : State) : (onLog f s).dram = s.dram := rfl
@[simp] theorem onLog_nvm (f : LogStore → LogStore) (s : State) : (onLog f s).nvm = s.nvm := rfl
@[simp] theorem onLog_tier (f : LogStore → LogStore) (s : State) : (onLog f s).tier = s.tier := rfl
@[simp] theorem onLog_job (f : LogStore → LogStore) (s : State) : (onLog f s).job = s.job := rfl
@[simp] theorem onLog_pk (f : LogStore → LogStore) (s : State) : (onLog f s).pk = s.pk := rfl
@[simp] theorem onLog_qos (f : LogStore → LogStore) (s : State) : (onLog f s).qos = s.qos := rfl
@[simp] theorem onLog_place (f : LogStore → LogStore) (s : State) : (onLog f s).place = s.place := rfl
@[simp] theorem onLog_free (f : LogStore → LogStore) (s : State) : (onLog f s).free = s.free := rfl
@[simp] theorem onLog_pending (f : LogStore → LogStore) (s : State) : (onLog f s).pending = s.pending := rfl
@[simp] theorem onFaults_fuse (f : Faults → Faults) (s : State) : (onFaults f s).fuse = s.fuse := rfl
@[simp] theorem onFaults_rst (f : Faults → Faults) (s : State) : (onFaults f s).rst = s.rst := rfl
@[simp] theorem onFaults_chans (f : Faults → Faults) (s : State) : (onFaults f s).chans = s.chans := rfl
@[simp] theorem onFaults_sv (f : Faults → Faults) (s : State) : (onFaults f s).sv = s.sv := rfl
@[simp] theorem onFaults_meter (f : Faults → Faults) (s : State) : (onFaults f s).meter = s.meter := rfl
@[simp] theorem onFaults_link (f : Faults → Faults) (s : State) : (onFaults f s).link = s.link := rfl
@[simp] theorem onFaults_log (f : Faults → Faults) (s : State) : (onFaults f s).log = s.log := rfl
@[simp] theorem onFaults_faults (f : Faults → Faults) (s : State) : (onFaults f s).faults = f s.faults := rfl
@[simp] theorem onFaults_cnt (f : Faults → Faults) (s : State) : (onFaults f s).cnt = s.cnt := rfl
@[simp] theorem onFaults_i3c (f : Faults → Faults) (s : State) : (onFaults f s).i3c = s.i3c := rfl
@[simp] theorem onFaults_tap (f : Faults → Faults) (s : State) : (onFaults f s).tap = s.tap := rfl
@[simp] theorem onFaults_clk (f : Faults → Faults) (s : State) : (onFaults f s).clk = s.clk := rfl
@[simp] theorem onFaults_dawn (f : Faults → Faults) (s : State) : (onFaults f s).dawn = s.dawn := rfl
@[simp] theorem onFaults_flash (f : Faults → Faults) (s : State) : (onFaults f s).flash = s.flash := rfl
@[simp] theorem onFaults_time (f : Faults → Faults) (s : State) : (onFaults f s).time = s.time := rfl
@[simp] theorem onFaults_regs (f : Faults → Faults) (s : State) : (onFaults f s).regs = s.regs := rfl
@[simp] theorem onFaults_host (f : Faults → Faults) (s : State) : (onFaults f s).host = s.host := rfl
@[simp] theorem onFaults_map (f : Faults → Faults) (s : State) : (onFaults f s).map = s.map := rfl
@[simp] theorem onFaults_nc (f : Faults → Faults) (s : State) : (onFaults f s).nc = s.nc := rfl
@[simp] theorem onFaults_ha (f : Faults → Faults) (s : State) : (onFaults f s).ha = s.ha := rfl
@[simp] theorem onFaults_fab (f : Faults → Faults) (s : State) : (onFaults f s).fab = s.fab := rfl
@[simp] theorem onFaults_cry (f : Faults → Faults) (s : State) : (onFaults f s).cry = s.cry := rfl
@[simp] theorem onFaults_dram (f : Faults → Faults) (s : State) : (onFaults f s).dram = s.dram := rfl
@[simp] theorem onFaults_nvm (f : Faults → Faults) (s : State) : (onFaults f s).nvm = s.nvm := rfl
@[simp] theorem onFaults_tier (f : Faults → Faults) (s : State) : (onFaults f s).tier = s.tier := rfl
@[simp] theorem onFaults_job (f : Faults → Faults) (s : State) : (onFaults f s).job = s.job := rfl
@[simp] theorem onFaults_pk (f : Faults → Faults) (s : State) : (onFaults f s).pk = s.pk := rfl
@[simp] theorem onFaults_qos (f : Faults → Faults) (s : State) : (onFaults f s).qos = s.qos := rfl
@[simp] theorem onFaults_place (f : Faults → Faults) (s : State) : (onFaults f s).place = s.place := rfl
@[simp] theorem onFaults_free (f : Faults → Faults) (s : State) : (onFaults f s).free = s.free := rfl
@[simp] theorem onFaults_pending (f : Faults → Faults) (s : State) : (onFaults f s).pending = s.pending := rfl
@[simp] theorem onCnt_fuse (f : Counters → Counters) (s : State) : (onCnt f s).fuse = s.fuse := rfl
@[simp] theorem onCnt_rst (f : Counters → Counters) (s : State) : (onCnt f s).rst = s.rst := rfl
@[simp] theorem onCnt_chans (f : Counters → Counters) (s : State) : (onCnt f s).chans = s.chans := rfl
@[simp] theorem onCnt_sv (f : Counters → Counters) (s : State) : (onCnt f s).sv = s.sv := rfl
@[simp] theorem onCnt_meter (f : Counters → Counters) (s : State) : (onCnt f s).meter = s.meter := rfl
@[simp] theorem onCnt_link (f : Counters → Counters) (s : State) : (onCnt f s).link = s.link := rfl
@[simp] theorem onCnt_log (f : Counters → Counters) (s : State) : (onCnt f s).log = s.log := rfl
@[simp] theorem onCnt_faults (f : Counters → Counters) (s : State) : (onCnt f s).faults = s.faults := rfl
@[simp] theorem onCnt_cnt (f : Counters → Counters) (s : State) : (onCnt f s).cnt = f s.cnt := rfl
@[simp] theorem onCnt_i3c (f : Counters → Counters) (s : State) : (onCnt f s).i3c = s.i3c := rfl
@[simp] theorem onCnt_tap (f : Counters → Counters) (s : State) : (onCnt f s).tap = s.tap := rfl
@[simp] theorem onCnt_clk (f : Counters → Counters) (s : State) : (onCnt f s).clk = s.clk := rfl
@[simp] theorem onCnt_dawn (f : Counters → Counters) (s : State) : (onCnt f s).dawn = s.dawn := rfl
@[simp] theorem onCnt_flash (f : Counters → Counters) (s : State) : (onCnt f s).flash = s.flash := rfl
@[simp] theorem onCnt_time (f : Counters → Counters) (s : State) : (onCnt f s).time = s.time := rfl
@[simp] theorem onCnt_regs (f : Counters → Counters) (s : State) : (onCnt f s).regs = s.regs := rfl
@[simp] theorem onCnt_host (f : Counters → Counters) (s : State) : (onCnt f s).host = s.host := rfl
@[simp] theorem onCnt_map (f : Counters → Counters) (s : State) : (onCnt f s).map = s.map := rfl
@[simp] theorem onCnt_nc (f : Counters → Counters) (s : State) : (onCnt f s).nc = s.nc := rfl
@[simp] theorem onCnt_ha (f : Counters → Counters) (s : State) : (onCnt f s).ha = s.ha := rfl
@[simp] theorem onCnt_fab (f : Counters → Counters) (s : State) : (onCnt f s).fab = s.fab := rfl
@[simp] theorem onCnt_cry (f : Counters → Counters) (s : State) : (onCnt f s).cry = s.cry := rfl
@[simp] theorem onCnt_dram (f : Counters → Counters) (s : State) : (onCnt f s).dram = s.dram := rfl
@[simp] theorem onCnt_nvm (f : Counters → Counters) (s : State) : (onCnt f s).nvm = s.nvm := rfl
@[simp] theorem onCnt_tier (f : Counters → Counters) (s : State) : (onCnt f s).tier = s.tier := rfl
@[simp] theorem onCnt_job (f : Counters → Counters) (s : State) : (onCnt f s).job = s.job := rfl
@[simp] theorem onCnt_pk (f : Counters → Counters) (s : State) : (onCnt f s).pk = s.pk := rfl
@[simp] theorem onCnt_qos (f : Counters → Counters) (s : State) : (onCnt f s).qos = s.qos := rfl
@[simp] theorem onCnt_place (f : Counters → Counters) (s : State) : (onCnt f s).place = s.place := rfl
@[simp] theorem onCnt_free (f : Counters → Counters) (s : State) : (onCnt f s).free = s.free := rfl
@[simp] theorem onCnt_pending (f : Counters → Counters) (s : State) : (onCnt f s).pending = s.pending := rfl
@[simp] theorem onI3c_fuse (f : I3c → I3c) (s : State) : (onI3c f s).fuse = s.fuse := rfl
@[simp] theorem onI3c_rst (f : I3c → I3c) (s : State) : (onI3c f s).rst = s.rst := rfl
@[simp] theorem onI3c_chans (f : I3c → I3c) (s : State) : (onI3c f s).chans = s.chans := rfl
@[simp] theorem onI3c_sv (f : I3c → I3c) (s : State) : (onI3c f s).sv = s.sv := rfl
@[simp] theorem onI3c_meter (f : I3c → I3c) (s : State) : (onI3c f s).meter = s.meter := rfl
@[simp] theorem onI3c_link (f : I3c → I3c) (s : State) : (onI3c f s).link = s.link := rfl
@[simp] theorem onI3c_log (f : I3c → I3c) (s : State) : (onI3c f s).log = s.log := rfl
@[simp] theorem onI3c_faults (f : I3c → I3c) (s : State) : (onI3c f s).faults = s.faults := rfl
@[simp] theorem onI3c_cnt (f : I3c → I3c) (s : State) : (onI3c f s).cnt = s.cnt := rfl
@[simp] theorem onI3c_i3c (f : I3c → I3c) (s : State) : (onI3c f s).i3c = f s.i3c := rfl
@[simp] theorem onI3c_tap (f : I3c → I3c) (s : State) : (onI3c f s).tap = s.tap := rfl
@[simp] theorem onI3c_clk (f : I3c → I3c) (s : State) : (onI3c f s).clk = s.clk := rfl
@[simp] theorem onI3c_dawn (f : I3c → I3c) (s : State) : (onI3c f s).dawn = s.dawn := rfl
@[simp] theorem onI3c_flash (f : I3c → I3c) (s : State) : (onI3c f s).flash = s.flash := rfl
@[simp] theorem onI3c_time (f : I3c → I3c) (s : State) : (onI3c f s).time = s.time := rfl
@[simp] theorem onI3c_regs (f : I3c → I3c) (s : State) : (onI3c f s).regs = s.regs := rfl
@[simp] theorem onI3c_host (f : I3c → I3c) (s : State) : (onI3c f s).host = s.host := rfl
@[simp] theorem onI3c_map (f : I3c → I3c) (s : State) : (onI3c f s).map = s.map := rfl
@[simp] theorem onI3c_nc (f : I3c → I3c) (s : State) : (onI3c f s).nc = s.nc := rfl
@[simp] theorem onI3c_ha (f : I3c → I3c) (s : State) : (onI3c f s).ha = s.ha := rfl
@[simp] theorem onI3c_fab (f : I3c → I3c) (s : State) : (onI3c f s).fab = s.fab := rfl
@[simp] theorem onI3c_cry (f : I3c → I3c) (s : State) : (onI3c f s).cry = s.cry := rfl
@[simp] theorem onI3c_dram (f : I3c → I3c) (s : State) : (onI3c f s).dram = s.dram := rfl
@[simp] theorem onI3c_nvm (f : I3c → I3c) (s : State) : (onI3c f s).nvm = s.nvm := rfl
@[simp] theorem onI3c_tier (f : I3c → I3c) (s : State) : (onI3c f s).tier = s.tier := rfl
@[simp] theorem onI3c_job (f : I3c → I3c) (s : State) : (onI3c f s).job = s.job := rfl
@[simp] theorem onI3c_pk (f : I3c → I3c) (s : State) : (onI3c f s).pk = s.pk := rfl
@[simp] theorem onI3c_qos (f : I3c → I3c) (s : State) : (onI3c f s).qos = s.qos := rfl
@[simp] theorem onI3c_place (f : I3c → I3c) (s : State) : (onI3c f s).place = s.place := rfl
@[simp] theorem onI3c_free (f : I3c → I3c) (s : State) : (onI3c f s).free = s.free := rfl
@[simp] theorem onI3c_pending (f : I3c → I3c) (s : State) : (onI3c f s).pending = s.pending := rfl
@[simp] theorem onTap_fuse (f : Tap → Tap) (s : State) : (onTap f s).fuse = s.fuse := rfl
@[simp] theorem onTap_rst (f : Tap → Tap) (s : State) : (onTap f s).rst = s.rst := rfl
@[simp] theorem onTap_chans (f : Tap → Tap) (s : State) : (onTap f s).chans = s.chans := rfl
@[simp] theorem onTap_sv (f : Tap → Tap) (s : State) : (onTap f s).sv = s.sv := rfl
@[simp] theorem onTap_meter (f : Tap → Tap) (s : State) : (onTap f s).meter = s.meter := rfl
@[simp] theorem onTap_link (f : Tap → Tap) (s : State) : (onTap f s).link = s.link := rfl
@[simp] theorem onTap_log (f : Tap → Tap) (s : State) : (onTap f s).log = s.log := rfl
@[simp] theorem onTap_faults (f : Tap → Tap) (s : State) : (onTap f s).faults = s.faults := rfl
@[simp] theorem onTap_cnt (f : Tap → Tap) (s : State) : (onTap f s).cnt = s.cnt := rfl
@[simp] theorem onTap_i3c (f : Tap → Tap) (s : State) : (onTap f s).i3c = s.i3c := rfl
@[simp] theorem onTap_tap (f : Tap → Tap) (s : State) : (onTap f s).tap = f s.tap := rfl
@[simp] theorem onTap_clk (f : Tap → Tap) (s : State) : (onTap f s).clk = s.clk := rfl
@[simp] theorem onTap_dawn (f : Tap → Tap) (s : State) : (onTap f s).dawn = s.dawn := rfl
@[simp] theorem onTap_flash (f : Tap → Tap) (s : State) : (onTap f s).flash = s.flash := rfl
@[simp] theorem onTap_time (f : Tap → Tap) (s : State) : (onTap f s).time = s.time := rfl
@[simp] theorem onTap_regs (f : Tap → Tap) (s : State) : (onTap f s).regs = s.regs := rfl
@[simp] theorem onTap_host (f : Tap → Tap) (s : State) : (onTap f s).host = s.host := rfl
@[simp] theorem onTap_map (f : Tap → Tap) (s : State) : (onTap f s).map = s.map := rfl
@[simp] theorem onTap_nc (f : Tap → Tap) (s : State) : (onTap f s).nc = s.nc := rfl
@[simp] theorem onTap_ha (f : Tap → Tap) (s : State) : (onTap f s).ha = s.ha := rfl
@[simp] theorem onTap_fab (f : Tap → Tap) (s : State) : (onTap f s).fab = s.fab := rfl
@[simp] theorem onTap_cry (f : Tap → Tap) (s : State) : (onTap f s).cry = s.cry := rfl
@[simp] theorem onTap_dram (f : Tap → Tap) (s : State) : (onTap f s).dram = s.dram := rfl
@[simp] theorem onTap_nvm (f : Tap → Tap) (s : State) : (onTap f s).nvm = s.nvm := rfl
@[simp] theorem onTap_tier (f : Tap → Tap) (s : State) : (onTap f s).tier = s.tier := rfl
@[simp] theorem onTap_job (f : Tap → Tap) (s : State) : (onTap f s).job = s.job := rfl
@[simp] theorem onTap_pk (f : Tap → Tap) (s : State) : (onTap f s).pk = s.pk := rfl
@[simp] theorem onTap_qos (f : Tap → Tap) (s : State) : (onTap f s).qos = s.qos := rfl
@[simp] theorem onTap_place (f : Tap → Tap) (s : State) : (onTap f s).place = s.place := rfl
@[simp] theorem onTap_free (f : Tap → Tap) (s : State) : (onTap f s).free = s.free := rfl
@[simp] theorem onTap_pending (f : Tap → Tap) (s : State) : (onTap f s).pending = s.pending := rfl
@[simp] theorem onClk_fuse (f : Clocks → Clocks) (s : State) : (onClk f s).fuse = s.fuse := rfl
@[simp] theorem onClk_rst (f : Clocks → Clocks) (s : State) : (onClk f s).rst = s.rst := rfl
@[simp] theorem onClk_chans (f : Clocks → Clocks) (s : State) : (onClk f s).chans = s.chans := rfl
@[simp] theorem onClk_sv (f : Clocks → Clocks) (s : State) : (onClk f s).sv = s.sv := rfl
@[simp] theorem onClk_meter (f : Clocks → Clocks) (s : State) : (onClk f s).meter = s.meter := rfl
@[simp] theorem onClk_link (f : Clocks → Clocks) (s : State) : (onClk f s).link = s.link := rfl
@[simp] theorem onClk_log (f : Clocks → Clocks) (s : State) : (onClk f s).log = s.log := rfl
@[simp] theorem onClk_faults (f : Clocks → Clocks) (s : State) : (onClk f s).faults = s.faults := rfl
@[simp] theorem onClk_cnt (f : Clocks → Clocks) (s : State) : (onClk f s).cnt = s.cnt := rfl
@[simp] theorem onClk_i3c (f : Clocks → Clocks) (s : State) : (onClk f s).i3c = s.i3c := rfl
@[simp] theorem onClk_tap (f : Clocks → Clocks) (s : State) : (onClk f s).tap = s.tap := rfl
@[simp] theorem onClk_clk (f : Clocks → Clocks) (s : State) : (onClk f s).clk = f s.clk := rfl
@[simp] theorem onClk_dawn (f : Clocks → Clocks) (s : State) : (onClk f s).dawn = s.dawn := rfl
@[simp] theorem onClk_flash (f : Clocks → Clocks) (s : State) : (onClk f s).flash = s.flash := rfl
@[simp] theorem onClk_time (f : Clocks → Clocks) (s : State) : (onClk f s).time = s.time := rfl
@[simp] theorem onClk_regs (f : Clocks → Clocks) (s : State) : (onClk f s).regs = s.regs := rfl
@[simp] theorem onClk_host (f : Clocks → Clocks) (s : State) : (onClk f s).host = s.host := rfl
@[simp] theorem onClk_map (f : Clocks → Clocks) (s : State) : (onClk f s).map = s.map := rfl
@[simp] theorem onClk_nc (f : Clocks → Clocks) (s : State) : (onClk f s).nc = s.nc := rfl
@[simp] theorem onClk_ha (f : Clocks → Clocks) (s : State) : (onClk f s).ha = s.ha := rfl
@[simp] theorem onClk_fab (f : Clocks → Clocks) (s : State) : (onClk f s).fab = s.fab := rfl
@[simp] theorem onClk_cry (f : Clocks → Clocks) (s : State) : (onClk f s).cry = s.cry := rfl
@[simp] theorem onClk_dram (f : Clocks → Clocks) (s : State) : (onClk f s).dram = s.dram := rfl
@[simp] theorem onClk_nvm (f : Clocks → Clocks) (s : State) : (onClk f s).nvm = s.nvm := rfl
@[simp] theorem onClk_tier (f : Clocks → Clocks) (s : State) : (onClk f s).tier = s.tier := rfl
@[simp] theorem onClk_job (f : Clocks → Clocks) (s : State) : (onClk f s).job = s.job := rfl
@[simp] theorem onClk_pk (f : Clocks → Clocks) (s : State) : (onClk f s).pk = s.pk := rfl
@[simp] theorem onClk_qos (f : Clocks → Clocks) (s : State) : (onClk f s).qos = s.qos := rfl
@[simp] theorem onClk_place (f : Clocks → Clocks) (s : State) : (onClk f s).place = s.place := rfl
@[simp] theorem onClk_free (f : Clocks → Clocks) (s : State) : (onClk f s).free = s.free := rfl
@[simp] theorem onClk_pending (f : Clocks → Clocks) (s : State) : (onClk f s).pending = s.pending := rfl
@[simp] theorem onDawn_fuse (f : Dawn → Dawn) (s : State) : (onDawn f s).fuse = s.fuse := rfl
@[simp] theorem onDawn_rst (f : Dawn → Dawn) (s : State) : (onDawn f s).rst = s.rst := rfl
@[simp] theorem onDawn_chans (f : Dawn → Dawn) (s : State) : (onDawn f s).chans = s.chans := rfl
@[simp] theorem onDawn_sv (f : Dawn → Dawn) (s : State) : (onDawn f s).sv = s.sv := rfl
@[simp] theorem onDawn_meter (f : Dawn → Dawn) (s : State) : (onDawn f s).meter = s.meter := rfl
@[simp] theorem onDawn_link (f : Dawn → Dawn) (s : State) : (onDawn f s).link = s.link := rfl
@[simp] theorem onDawn_log (f : Dawn → Dawn) (s : State) : (onDawn f s).log = s.log := rfl
@[simp] theorem onDawn_faults (f : Dawn → Dawn) (s : State) : (onDawn f s).faults = s.faults := rfl
@[simp] theorem onDawn_cnt (f : Dawn → Dawn) (s : State) : (onDawn f s).cnt = s.cnt := rfl
@[simp] theorem onDawn_i3c (f : Dawn → Dawn) (s : State) : (onDawn f s).i3c = s.i3c := rfl
@[simp] theorem onDawn_tap (f : Dawn → Dawn) (s : State) : (onDawn f s).tap = s.tap := rfl
@[simp] theorem onDawn_clk (f : Dawn → Dawn) (s : State) : (onDawn f s).clk = s.clk := rfl
@[simp] theorem onDawn_dawn (f : Dawn → Dawn) (s : State) : (onDawn f s).dawn = f s.dawn := rfl
@[simp] theorem onDawn_flash (f : Dawn → Dawn) (s : State) : (onDawn f s).flash = s.flash := rfl
@[simp] theorem onDawn_time (f : Dawn → Dawn) (s : State) : (onDawn f s).time = s.time := rfl
@[simp] theorem onDawn_regs (f : Dawn → Dawn) (s : State) : (onDawn f s).regs = s.regs := rfl
@[simp] theorem onDawn_host (f : Dawn → Dawn) (s : State) : (onDawn f s).host = s.host := rfl
@[simp] theorem onDawn_map (f : Dawn → Dawn) (s : State) : (onDawn f s).map = s.map := rfl
@[simp] theorem onDawn_nc (f : Dawn → Dawn) (s : State) : (onDawn f s).nc = s.nc := rfl
@[simp] theorem onDawn_ha (f : Dawn → Dawn) (s : State) : (onDawn f s).ha = s.ha := rfl
@[simp] theorem onDawn_fab (f : Dawn → Dawn) (s : State) : (onDawn f s).fab = s.fab := rfl
@[simp] theorem onDawn_cry (f : Dawn → Dawn) (s : State) : (onDawn f s).cry = s.cry := rfl
@[simp] theorem onDawn_dram (f : Dawn → Dawn) (s : State) : (onDawn f s).dram = s.dram := rfl
@[simp] theorem onDawn_nvm (f : Dawn → Dawn) (s : State) : (onDawn f s).nvm = s.nvm := rfl
@[simp] theorem onDawn_tier (f : Dawn → Dawn) (s : State) : (onDawn f s).tier = s.tier := rfl
@[simp] theorem onDawn_job (f : Dawn → Dawn) (s : State) : (onDawn f s).job = s.job := rfl
@[simp] theorem onDawn_pk (f : Dawn → Dawn) (s : State) : (onDawn f s).pk = s.pk := rfl
@[simp] theorem onDawn_qos (f : Dawn → Dawn) (s : State) : (onDawn f s).qos = s.qos := rfl
@[simp] theorem onDawn_place (f : Dawn → Dawn) (s : State) : (onDawn f s).place = s.place := rfl
@[simp] theorem onDawn_free (f : Dawn → Dawn) (s : State) : (onDawn f s).free = s.free := rfl
@[simp] theorem onDawn_pending (f : Dawn → Dawn) (s : State) : (onDawn f s).pending = s.pending := rfl
@[simp] theorem onFlash_fuse (f : Flash → Flash) (s : State) : (onFlash f s).fuse = s.fuse := rfl
@[simp] theorem onFlash_rst (f : Flash → Flash) (s : State) : (onFlash f s).rst = s.rst := rfl
@[simp] theorem onFlash_chans (f : Flash → Flash) (s : State) : (onFlash f s).chans = s.chans := rfl
@[simp] theorem onFlash_sv (f : Flash → Flash) (s : State) : (onFlash f s).sv = s.sv := rfl
@[simp] theorem onFlash_meter (f : Flash → Flash) (s : State) : (onFlash f s).meter = s.meter := rfl
@[simp] theorem onFlash_link (f : Flash → Flash) (s : State) : (onFlash f s).link = s.link := rfl
@[simp] theorem onFlash_log (f : Flash → Flash) (s : State) : (onFlash f s).log = s.log := rfl
@[simp] theorem onFlash_faults (f : Flash → Flash) (s : State) : (onFlash f s).faults = s.faults := rfl
@[simp] theorem onFlash_cnt (f : Flash → Flash) (s : State) : (onFlash f s).cnt = s.cnt := rfl
@[simp] theorem onFlash_i3c (f : Flash → Flash) (s : State) : (onFlash f s).i3c = s.i3c := rfl
@[simp] theorem onFlash_tap (f : Flash → Flash) (s : State) : (onFlash f s).tap = s.tap := rfl
@[simp] theorem onFlash_clk (f : Flash → Flash) (s : State) : (onFlash f s).clk = s.clk := rfl
@[simp] theorem onFlash_dawn (f : Flash → Flash) (s : State) : (onFlash f s).dawn = s.dawn := rfl
@[simp] theorem onFlash_flash (f : Flash → Flash) (s : State) : (onFlash f s).flash = f s.flash := rfl
@[simp] theorem onFlash_time (f : Flash → Flash) (s : State) : (onFlash f s).time = s.time := rfl
@[simp] theorem onFlash_regs (f : Flash → Flash) (s : State) : (onFlash f s).regs = s.regs := rfl
@[simp] theorem onFlash_host (f : Flash → Flash) (s : State) : (onFlash f s).host = s.host := rfl
@[simp] theorem onFlash_map (f : Flash → Flash) (s : State) : (onFlash f s).map = s.map := rfl
@[simp] theorem onFlash_nc (f : Flash → Flash) (s : State) : (onFlash f s).nc = s.nc := rfl
@[simp] theorem onFlash_ha (f : Flash → Flash) (s : State) : (onFlash f s).ha = s.ha := rfl
@[simp] theorem onFlash_fab (f : Flash → Flash) (s : State) : (onFlash f s).fab = s.fab := rfl
@[simp] theorem onFlash_cry (f : Flash → Flash) (s : State) : (onFlash f s).cry = s.cry := rfl
@[simp] theorem onFlash_dram (f : Flash → Flash) (s : State) : (onFlash f s).dram = s.dram := rfl
@[simp] theorem onFlash_nvm (f : Flash → Flash) (s : State) : (onFlash f s).nvm = s.nvm := rfl
@[simp] theorem onFlash_tier (f : Flash → Flash) (s : State) : (onFlash f s).tier = s.tier := rfl
@[simp] theorem onFlash_job (f : Flash → Flash) (s : State) : (onFlash f s).job = s.job := rfl
@[simp] theorem onFlash_pk (f : Flash → Flash) (s : State) : (onFlash f s).pk = s.pk := rfl
@[simp] theorem onFlash_qos (f : Flash → Flash) (s : State) : (onFlash f s).qos = s.qos := rfl
@[simp] theorem onFlash_place (f : Flash → Flash) (s : State) : (onFlash f s).place = s.place := rfl
@[simp] theorem onFlash_free (f : Flash → Flash) (s : State) : (onFlash f s).free = s.free := rfl
@[simp] theorem onFlash_pending (f : Flash → Flash) (s : State) : (onFlash f s).pending = s.pending := rfl
@[simp] theorem onTime_fuse (f : Time → Time) (s : State) : (onTime f s).fuse = s.fuse := rfl
@[simp] theorem onTime_rst (f : Time → Time) (s : State) : (onTime f s).rst = s.rst := rfl
@[simp] theorem onTime_chans (f : Time → Time) (s : State) : (onTime f s).chans = s.chans := rfl
@[simp] theorem onTime_sv (f : Time → Time) (s : State) : (onTime f s).sv = s.sv := rfl
@[simp] theorem onTime_meter (f : Time → Time) (s : State) : (onTime f s).meter = s.meter := rfl
@[simp] theorem onTime_link (f : Time → Time) (s : State) : (onTime f s).link = s.link := rfl
@[simp] theorem onTime_log (f : Time → Time) (s : State) : (onTime f s).log = s.log := rfl
@[simp] theorem onTime_faults (f : Time → Time) (s : State) : (onTime f s).faults = s.faults := rfl
@[simp] theorem onTime_cnt (f : Time → Time) (s : State) : (onTime f s).cnt = s.cnt := rfl
@[simp] theorem onTime_i3c (f : Time → Time) (s : State) : (onTime f s).i3c = s.i3c := rfl
@[simp] theorem onTime_tap (f : Time → Time) (s : State) : (onTime f s).tap = s.tap := rfl
@[simp] theorem onTime_clk (f : Time → Time) (s : State) : (onTime f s).clk = s.clk := rfl
@[simp] theorem onTime_dawn (f : Time → Time) (s : State) : (onTime f s).dawn = s.dawn := rfl
@[simp] theorem onTime_flash (f : Time → Time) (s : State) : (onTime f s).flash = s.flash := rfl
@[simp] theorem onTime_time (f : Time → Time) (s : State) : (onTime f s).time = f s.time := rfl
@[simp] theorem onTime_regs (f : Time → Time) (s : State) : (onTime f s).regs = s.regs := rfl
@[simp] theorem onTime_host (f : Time → Time) (s : State) : (onTime f s).host = s.host := rfl
@[simp] theorem onTime_map (f : Time → Time) (s : State) : (onTime f s).map = s.map := rfl
@[simp] theorem onTime_nc (f : Time → Time) (s : State) : (onTime f s).nc = s.nc := rfl
@[simp] theorem onTime_ha (f : Time → Time) (s : State) : (onTime f s).ha = s.ha := rfl
@[simp] theorem onTime_fab (f : Time → Time) (s : State) : (onTime f s).fab = s.fab := rfl
@[simp] theorem onTime_cry (f : Time → Time) (s : State) : (onTime f s).cry = s.cry := rfl
@[simp] theorem onTime_dram (f : Time → Time) (s : State) : (onTime f s).dram = s.dram := rfl
@[simp] theorem onTime_nvm (f : Time → Time) (s : State) : (onTime f s).nvm = s.nvm := rfl
@[simp] theorem onTime_tier (f : Time → Time) (s : State) : (onTime f s).tier = s.tier := rfl
@[simp] theorem onTime_job (f : Time → Time) (s : State) : (onTime f s).job = s.job := rfl
@[simp] theorem onTime_pk (f : Time → Time) (s : State) : (onTime f s).pk = s.pk := rfl
@[simp] theorem onTime_qos (f : Time → Time) (s : State) : (onTime f s).qos = s.qos := rfl
@[simp] theorem onTime_place (f : Time → Time) (s : State) : (onTime f s).place = s.place := rfl
@[simp] theorem onTime_free (f : Time → Time) (s : State) : (onTime f s).free = s.free := rfl
@[simp] theorem onTime_pending (f : Time → Time) (s : State) : (onTime f s).pending = s.pending := rfl
@[simp] theorem onHost_fuse (f : Host_ → Host_) (s : State) : (onHost f s).fuse = s.fuse := rfl
@[simp] theorem onHost_rst (f : Host_ → Host_) (s : State) : (onHost f s).rst = s.rst := rfl
@[simp] theorem onHost_chans (f : Host_ → Host_) (s : State) : (onHost f s).chans = s.chans := rfl
@[simp] theorem onHost_sv (f : Host_ → Host_) (s : State) : (onHost f s).sv = s.sv := rfl
@[simp] theorem onHost_meter (f : Host_ → Host_) (s : State) : (onHost f s).meter = s.meter := rfl
@[simp] theorem onHost_link (f : Host_ → Host_) (s : State) : (onHost f s).link = s.link := rfl
@[simp] theorem onHost_log (f : Host_ → Host_) (s : State) : (onHost f s).log = s.log := rfl
@[simp] theorem onHost_faults (f : Host_ → Host_) (s : State) : (onHost f s).faults = s.faults := rfl
@[simp] theorem onHost_cnt (f : Host_ → Host_) (s : State) : (onHost f s).cnt = s.cnt := rfl
@[simp] theorem onHost_i3c (f : Host_ → Host_) (s : State) : (onHost f s).i3c = s.i3c := rfl
@[simp] theorem onHost_tap (f : Host_ → Host_) (s : State) : (onHost f s).tap = s.tap := rfl
@[simp] theorem onHost_clk (f : Host_ → Host_) (s : State) : (onHost f s).clk = s.clk := rfl
@[simp] theorem onHost_dawn (f : Host_ → Host_) (s : State) : (onHost f s).dawn = s.dawn := rfl
@[simp] theorem onHost_flash (f : Host_ → Host_) (s : State) : (onHost f s).flash = s.flash := rfl
@[simp] theorem onHost_time (f : Host_ → Host_) (s : State) : (onHost f s).time = s.time := rfl
@[simp] theorem onHost_regs (f : Host_ → Host_) (s : State) : (onHost f s).regs = s.regs := rfl
@[simp] theorem onHost_host (f : Host_ → Host_) (s : State) : (onHost f s).host = f s.host := rfl
@[simp] theorem onHost_map (f : Host_ → Host_) (s : State) : (onHost f s).map = s.map := rfl
@[simp] theorem onHost_nc (f : Host_ → Host_) (s : State) : (onHost f s).nc = s.nc := rfl
@[simp] theorem onHost_ha (f : Host_ → Host_) (s : State) : (onHost f s).ha = s.ha := rfl
@[simp] theorem onHost_fab (f : Host_ → Host_) (s : State) : (onHost f s).fab = s.fab := rfl
@[simp] theorem onHost_cry (f : Host_ → Host_) (s : State) : (onHost f s).cry = s.cry := rfl
@[simp] theorem onHost_dram (f : Host_ → Host_) (s : State) : (onHost f s).dram = s.dram := rfl
@[simp] theorem onHost_nvm (f : Host_ → Host_) (s : State) : (onHost f s).nvm = s.nvm := rfl
@[simp] theorem onHost_tier (f : Host_ → Host_) (s : State) : (onHost f s).tier = s.tier := rfl
@[simp] theorem onHost_job (f : Host_ → Host_) (s : State) : (onHost f s).job = s.job := rfl
@[simp] theorem onHost_pk (f : Host_ → Host_) (s : State) : (onHost f s).pk = s.pk := rfl
@[simp] theorem onHost_qos (f : Host_ → Host_) (s : State) : (onHost f s).qos = s.qos := rfl
@[simp] theorem onHost_place (f : Host_ → Host_) (s : State) : (onHost f s).place = s.place := rfl
@[simp] theorem onHost_free (f : Host_ → Host_) (s : State) : (onHost f s).free = s.free := rfl
@[simp] theorem onHost_pending (f : Host_ → Host_) (s : State) : (onHost f s).pending = s.pending := rfl
@[simp] theorem onMap_fuse (f : AddrMap → AddrMap) (s : State) : (onMap f s).fuse = s.fuse := rfl
@[simp] theorem onMap_rst (f : AddrMap → AddrMap) (s : State) : (onMap f s).rst = s.rst := rfl
@[simp] theorem onMap_chans (f : AddrMap → AddrMap) (s : State) : (onMap f s).chans = s.chans := rfl
@[simp] theorem onMap_sv (f : AddrMap → AddrMap) (s : State) : (onMap f s).sv = s.sv := rfl
@[simp] theorem onMap_meter (f : AddrMap → AddrMap) (s : State) : (onMap f s).meter = s.meter := rfl
@[simp] theorem onMap_link (f : AddrMap → AddrMap) (s : State) : (onMap f s).link = s.link := rfl
@[simp] theorem onMap_log (f : AddrMap → AddrMap) (s : State) : (onMap f s).log = s.log := rfl
@[simp] theorem onMap_faults (f : AddrMap → AddrMap) (s : State) : (onMap f s).faults = s.faults := rfl
@[simp] theorem onMap_cnt (f : AddrMap → AddrMap) (s : State) : (onMap f s).cnt = s.cnt := rfl
@[simp] theorem onMap_i3c (f : AddrMap → AddrMap) (s : State) : (onMap f s).i3c = s.i3c := rfl
@[simp] theorem onMap_tap (f : AddrMap → AddrMap) (s : State) : (onMap f s).tap = s.tap := rfl
@[simp] theorem onMap_clk (f : AddrMap → AddrMap) (s : State) : (onMap f s).clk = s.clk := rfl
@[simp] theorem onMap_dawn (f : AddrMap → AddrMap) (s : State) : (onMap f s).dawn = s.dawn := rfl
@[simp] theorem onMap_flash (f : AddrMap → AddrMap) (s : State) : (onMap f s).flash = s.flash := rfl
@[simp] theorem onMap_time (f : AddrMap → AddrMap) (s : State) : (onMap f s).time = s.time := rfl
@[simp] theorem onMap_regs (f : AddrMap → AddrMap) (s : State) : (onMap f s).regs = s.regs := rfl
@[simp] theorem onMap_host (f : AddrMap → AddrMap) (s : State) : (onMap f s).host = s.host := rfl
@[simp] theorem onMap_map (f : AddrMap → AddrMap) (s : State) : (onMap f s).map = f s.map := rfl
@[simp] theorem onMap_nc (f : AddrMap → AddrMap) (s : State) : (onMap f s).nc = s.nc := rfl
@[simp] theorem onMap_ha (f : AddrMap → AddrMap) (s : State) : (onMap f s).ha = s.ha := rfl
@[simp] theorem onMap_fab (f : AddrMap → AddrMap) (s : State) : (onMap f s).fab = s.fab := rfl
@[simp] theorem onMap_cry (f : AddrMap → AddrMap) (s : State) : (onMap f s).cry = s.cry := rfl
@[simp] theorem onMap_dram (f : AddrMap → AddrMap) (s : State) : (onMap f s).dram = s.dram := rfl
@[simp] theorem onMap_nvm (f : AddrMap → AddrMap) (s : State) : (onMap f s).nvm = s.nvm := rfl
@[simp] theorem onMap_tier (f : AddrMap → AddrMap) (s : State) : (onMap f s).tier = s.tier := rfl
@[simp] theorem onMap_job (f : AddrMap → AddrMap) (s : State) : (onMap f s).job = s.job := rfl
@[simp] theorem onMap_pk (f : AddrMap → AddrMap) (s : State) : (onMap f s).pk = s.pk := rfl
@[simp] theorem onMap_qos (f : AddrMap → AddrMap) (s : State) : (onMap f s).qos = s.qos := rfl
@[simp] theorem onMap_place (f : AddrMap → AddrMap) (s : State) : (onMap f s).place = s.place := rfl
@[simp] theorem onMap_free (f : AddrMap → AddrMap) (s : State) : (onMap f s).free = s.free := rfl
@[simp] theorem onMap_pending (f : AddrMap → AddrMap) (s : State) : (onMap f s).pending = s.pending := rfl
@[simp] theorem onNc_fuse (f : NearCache → NearCache) (s : State) : (onNc f s).fuse = s.fuse := rfl
@[simp] theorem onNc_rst (f : NearCache → NearCache) (s : State) : (onNc f s).rst = s.rst := rfl
@[simp] theorem onNc_chans (f : NearCache → NearCache) (s : State) : (onNc f s).chans = s.chans := rfl
@[simp] theorem onNc_sv (f : NearCache → NearCache) (s : State) : (onNc f s).sv = s.sv := rfl
@[simp] theorem onNc_meter (f : NearCache → NearCache) (s : State) : (onNc f s).meter = s.meter := rfl
@[simp] theorem onNc_link (f : NearCache → NearCache) (s : State) : (onNc f s).link = s.link := rfl
@[simp] theorem onNc_log (f : NearCache → NearCache) (s : State) : (onNc f s).log = s.log := rfl
@[simp] theorem onNc_faults (f : NearCache → NearCache) (s : State) : (onNc f s).faults = s.faults := rfl
@[simp] theorem onNc_cnt (f : NearCache → NearCache) (s : State) : (onNc f s).cnt = s.cnt := rfl
@[simp] theorem onNc_i3c (f : NearCache → NearCache) (s : State) : (onNc f s).i3c = s.i3c := rfl
@[simp] theorem onNc_tap (f : NearCache → NearCache) (s : State) : (onNc f s).tap = s.tap := rfl
@[simp] theorem onNc_clk (f : NearCache → NearCache) (s : State) : (onNc f s).clk = s.clk := rfl
@[simp] theorem onNc_dawn (f : NearCache → NearCache) (s : State) : (onNc f s).dawn = s.dawn := rfl
@[simp] theorem onNc_flash (f : NearCache → NearCache) (s : State) : (onNc f s).flash = s.flash := rfl
@[simp] theorem onNc_time (f : NearCache → NearCache) (s : State) : (onNc f s).time = s.time := rfl
@[simp] theorem onNc_regs (f : NearCache → NearCache) (s : State) : (onNc f s).regs = s.regs := rfl
@[simp] theorem onNc_host (f : NearCache → NearCache) (s : State) : (onNc f s).host = s.host := rfl
@[simp] theorem onNc_map (f : NearCache → NearCache) (s : State) : (onNc f s).map = s.map := rfl
@[simp] theorem onNc_nc (f : NearCache → NearCache) (s : State) : (onNc f s).nc = f s.nc := rfl
@[simp] theorem onNc_ha (f : NearCache → NearCache) (s : State) : (onNc f s).ha = s.ha := rfl
@[simp] theorem onNc_fab (f : NearCache → NearCache) (s : State) : (onNc f s).fab = s.fab := rfl
@[simp] theorem onNc_cry (f : NearCache → NearCache) (s : State) : (onNc f s).cry = s.cry := rfl
@[simp] theorem onNc_dram (f : NearCache → NearCache) (s : State) : (onNc f s).dram = s.dram := rfl
@[simp] theorem onNc_nvm (f : NearCache → NearCache) (s : State) : (onNc f s).nvm = s.nvm := rfl
@[simp] theorem onNc_tier (f : NearCache → NearCache) (s : State) : (onNc f s).tier = s.tier := rfl
@[simp] theorem onNc_job (f : NearCache → NearCache) (s : State) : (onNc f s).job = s.job := rfl
@[simp] theorem onNc_pk (f : NearCache → NearCache) (s : State) : (onNc f s).pk = s.pk := rfl
@[simp] theorem onNc_qos (f : NearCache → NearCache) (s : State) : (onNc f s).qos = s.qos := rfl
@[simp] theorem onNc_place (f : NearCache → NearCache) (s : State) : (onNc f s).place = s.place := rfl
@[simp] theorem onNc_free (f : NearCache → NearCache) (s : State) : (onNc f s).free = s.free := rfl
@[simp] theorem onNc_pending (f : NearCache → NearCache) (s : State) : (onNc f s).pending = s.pending := rfl
@[simp] theorem onHa_fuse (f : HomeAgents → HomeAgents) (s : State) : (onHa f s).fuse = s.fuse := rfl
@[simp] theorem onHa_rst (f : HomeAgents → HomeAgents) (s : State) : (onHa f s).rst = s.rst := rfl
@[simp] theorem onHa_chans (f : HomeAgents → HomeAgents) (s : State) : (onHa f s).chans = s.chans := rfl
@[simp] theorem onHa_sv (f : HomeAgents → HomeAgents) (s : State) : (onHa f s).sv = s.sv := rfl
@[simp] theorem onHa_meter (f : HomeAgents → HomeAgents) (s : State) : (onHa f s).meter = s.meter := rfl
@[simp] theorem onHa_link (f : HomeAgents → HomeAgents) (s : State) : (onHa f s).link = s.link := rfl
@[simp] theorem onHa_log (f : HomeAgents → HomeAgents) (s : State) : (onHa f s).log = s.log := rfl
@[simp] theorem onHa_faults (f : HomeAgents → HomeAgents) (s : State) : (onHa f s).faults = s.faults := rfl
@[simp] theorem onHa_cnt (f : HomeAgents → HomeAgents) (s : State) : (onHa f s).cnt = s.cnt := rfl
@[simp] theorem onHa_i3c (f : HomeAgents → HomeAgents) (s : State) : (onHa f s).i3c = s.i3c := rfl
@[simp] theorem onHa_tap (f : HomeAgents → HomeAgents) (s : State) : (onHa f s).tap = s.tap := rfl
@[simp] theorem onHa_clk (f : HomeAgents → HomeAgents) (s : State) : (onHa f s).clk = s.clk := rfl
@[simp] theorem onHa_dawn (f : HomeAgents → HomeAgents) (s : State) : (onHa f s).dawn = s.dawn := rfl
@[simp] theorem onHa_flash (f : HomeAgents → HomeAgents) (s : State) : (onHa f s).flash = s.flash := rfl
@[simp] theorem onHa_time (f : HomeAgents → HomeAgents) (s : State) : (onHa f s).time = s.time := rfl
@[simp] theorem onHa_regs (f : HomeAgents → HomeAgents) (s : State) : (onHa f s).regs = s.regs := rfl
@[simp] theorem onHa_host (f : HomeAgents → HomeAgents) (s : State) : (onHa f s).host = s.host := rfl
@[simp] theorem onHa_map (f : HomeAgents → HomeAgents) (s : State) : (onHa f s).map = s.map := rfl
@[simp] theorem onHa_nc (f : HomeAgents → HomeAgents) (s : State) : (onHa f s).nc = s.nc := rfl
@[simp] theorem onHa_ha (f : HomeAgents → HomeAgents) (s : State) : (onHa f s).ha = f s.ha := rfl
@[simp] theorem onHa_fab (f : HomeAgents → HomeAgents) (s : State) : (onHa f s).fab = s.fab := rfl
@[simp] theorem onHa_cry (f : HomeAgents → HomeAgents) (s : State) : (onHa f s).cry = s.cry := rfl
@[simp] theorem onHa_dram (f : HomeAgents → HomeAgents) (s : State) : (onHa f s).dram = s.dram := rfl
@[simp] theorem onHa_nvm (f : HomeAgents → HomeAgents) (s : State) : (onHa f s).nvm = s.nvm := rfl
@[simp] theorem onHa_tier (f : HomeAgents → HomeAgents) (s : State) : (onHa f s).tier = s.tier := rfl
@[simp] theorem onHa_job (f : HomeAgents → HomeAgents) (s : State) : (onHa f s).job = s.job := rfl
@[simp] theorem onHa_pk (f : HomeAgents → HomeAgents) (s : State) : (onHa f s).pk = s.pk := rfl
@[simp] theorem onHa_qos (f : HomeAgents → HomeAgents) (s : State) : (onHa f s).qos = s.qos := rfl
@[simp] theorem onHa_place (f : HomeAgents → HomeAgents) (s : State) : (onHa f s).place = s.place := rfl
@[simp] theorem onHa_free (f : HomeAgents → HomeAgents) (s : State) : (onHa f s).free = s.free := rfl
@[simp] theorem onHa_pending (f : HomeAgents → HomeAgents) (s : State) : (onHa f s).pending = s.pending := rfl
@[simp] theorem onFab_fuse (f : Fabric → Fabric) (s : State) : (onFab f s).fuse = s.fuse := rfl
@[simp] theorem onFab_rst (f : Fabric → Fabric) (s : State) : (onFab f s).rst = s.rst := rfl
@[simp] theorem onFab_chans (f : Fabric → Fabric) (s : State) : (onFab f s).chans = s.chans := rfl
@[simp] theorem onFab_sv (f : Fabric → Fabric) (s : State) : (onFab f s).sv = s.sv := rfl
@[simp] theorem onFab_meter (f : Fabric → Fabric) (s : State) : (onFab f s).meter = s.meter := rfl
@[simp] theorem onFab_link (f : Fabric → Fabric) (s : State) : (onFab f s).link = s.link := rfl
@[simp] theorem onFab_log (f : Fabric → Fabric) (s : State) : (onFab f s).log = s.log := rfl
@[simp] theorem onFab_faults (f : Fabric → Fabric) (s : State) : (onFab f s).faults = s.faults := rfl
@[simp] theorem onFab_cnt (f : Fabric → Fabric) (s : State) : (onFab f s).cnt = s.cnt := rfl
@[simp] theorem onFab_i3c (f : Fabric → Fabric) (s : State) : (onFab f s).i3c = s.i3c := rfl
@[simp] theorem onFab_tap (f : Fabric → Fabric) (s : State) : (onFab f s).tap = s.tap := rfl
@[simp] theorem onFab_clk (f : Fabric → Fabric) (s : State) : (onFab f s).clk = s.clk := rfl
@[simp] theorem onFab_dawn (f : Fabric → Fabric) (s : State) : (onFab f s).dawn = s.dawn := rfl
@[simp] theorem onFab_flash (f : Fabric → Fabric) (s : State) : (onFab f s).flash = s.flash := rfl
@[simp] theorem onFab_time (f : Fabric → Fabric) (s : State) : (onFab f s).time = s.time := rfl
@[simp] theorem onFab_regs (f : Fabric → Fabric) (s : State) : (onFab f s).regs = s.regs := rfl
@[simp] theorem onFab_host (f : Fabric → Fabric) (s : State) : (onFab f s).host = s.host := rfl
@[simp] theorem onFab_map (f : Fabric → Fabric) (s : State) : (onFab f s).map = s.map := rfl
@[simp] theorem onFab_nc (f : Fabric → Fabric) (s : State) : (onFab f s).nc = s.nc := rfl
@[simp] theorem onFab_ha (f : Fabric → Fabric) (s : State) : (onFab f s).ha = s.ha := rfl
@[simp] theorem onFab_fab (f : Fabric → Fabric) (s : State) : (onFab f s).fab = f s.fab := rfl
@[simp] theorem onFab_cry (f : Fabric → Fabric) (s : State) : (onFab f s).cry = s.cry := rfl
@[simp] theorem onFab_dram (f : Fabric → Fabric) (s : State) : (onFab f s).dram = s.dram := rfl
@[simp] theorem onFab_nvm (f : Fabric → Fabric) (s : State) : (onFab f s).nvm = s.nvm := rfl
@[simp] theorem onFab_tier (f : Fabric → Fabric) (s : State) : (onFab f s).tier = s.tier := rfl
@[simp] theorem onFab_job (f : Fabric → Fabric) (s : State) : (onFab f s).job = s.job := rfl
@[simp] theorem onFab_pk (f : Fabric → Fabric) (s : State) : (onFab f s).pk = s.pk := rfl
@[simp] theorem onFab_qos (f : Fabric → Fabric) (s : State) : (onFab f s).qos = s.qos := rfl
@[simp] theorem onFab_place (f : Fabric → Fabric) (s : State) : (onFab f s).place = s.place := rfl
@[simp] theorem onFab_free (f : Fabric → Fabric) (s : State) : (onFab f s).free = s.free := rfl
@[simp] theorem onFab_pending (f : Fabric → Fabric) (s : State) : (onFab f s).pending = s.pending := rfl
@[simp] theorem onCry_fuse (f : Crypto → Crypto) (s : State) : (onCry f s).fuse = s.fuse := rfl
@[simp] theorem onCry_rst (f : Crypto → Crypto) (s : State) : (onCry f s).rst = s.rst := rfl
@[simp] theorem onCry_chans (f : Crypto → Crypto) (s : State) : (onCry f s).chans = s.chans := rfl
@[simp] theorem onCry_sv (f : Crypto → Crypto) (s : State) : (onCry f s).sv = s.sv := rfl
@[simp] theorem onCry_meter (f : Crypto → Crypto) (s : State) : (onCry f s).meter = s.meter := rfl
@[simp] theorem onCry_link (f : Crypto → Crypto) (s : State) : (onCry f s).link = s.link := rfl
@[simp] theorem onCry_log (f : Crypto → Crypto) (s : State) : (onCry f s).log = s.log := rfl
@[simp] theorem onCry_faults (f : Crypto → Crypto) (s : State) : (onCry f s).faults = s.faults := rfl
@[simp] theorem onCry_cnt (f : Crypto → Crypto) (s : State) : (onCry f s).cnt = s.cnt := rfl
@[simp] theorem onCry_i3c (f : Crypto → Crypto) (s : State) : (onCry f s).i3c = s.i3c := rfl
@[simp] theorem onCry_tap (f : Crypto → Crypto) (s : State) : (onCry f s).tap = s.tap := rfl
@[simp] theorem onCry_clk (f : Crypto → Crypto) (s : State) : (onCry f s).clk = s.clk := rfl
@[simp] theorem onCry_dawn (f : Crypto → Crypto) (s : State) : (onCry f s).dawn = s.dawn := rfl
@[simp] theorem onCry_flash (f : Crypto → Crypto) (s : State) : (onCry f s).flash = s.flash := rfl
@[simp] theorem onCry_time (f : Crypto → Crypto) (s : State) : (onCry f s).time = s.time := rfl
@[simp] theorem onCry_regs (f : Crypto → Crypto) (s : State) : (onCry f s).regs = s.regs := rfl
@[simp] theorem onCry_host (f : Crypto → Crypto) (s : State) : (onCry f s).host = s.host := rfl
@[simp] theorem onCry_map (f : Crypto → Crypto) (s : State) : (onCry f s).map = s.map := rfl
@[simp] theorem onCry_nc (f : Crypto → Crypto) (s : State) : (onCry f s).nc = s.nc := rfl
@[simp] theorem onCry_ha (f : Crypto → Crypto) (s : State) : (onCry f s).ha = s.ha := rfl
@[simp] theorem onCry_fab (f : Crypto → Crypto) (s : State) : (onCry f s).fab = s.fab := rfl
@[simp] theorem onCry_cry (f : Crypto → Crypto) (s : State) : (onCry f s).cry = f s.cry := rfl
@[simp] theorem onCry_dram (f : Crypto → Crypto) (s : State) : (onCry f s).dram = s.dram := rfl
@[simp] theorem onCry_nvm (f : Crypto → Crypto) (s : State) : (onCry f s).nvm = s.nvm := rfl
@[simp] theorem onCry_tier (f : Crypto → Crypto) (s : State) : (onCry f s).tier = s.tier := rfl
@[simp] theorem onCry_job (f : Crypto → Crypto) (s : State) : (onCry f s).job = s.job := rfl
@[simp] theorem onCry_pk (f : Crypto → Crypto) (s : State) : (onCry f s).pk = s.pk := rfl
@[simp] theorem onCry_qos (f : Crypto → Crypto) (s : State) : (onCry f s).qos = s.qos := rfl
@[simp] theorem onCry_place (f : Crypto → Crypto) (s : State) : (onCry f s).place = s.place := rfl
@[simp] theorem onCry_free (f : Crypto → Crypto) (s : State) : (onCry f s).free = s.free := rfl
@[simp] theorem onCry_pending (f : Crypto → Crypto) (s : State) : (onCry f s).pending = s.pending := rfl
@[simp] theorem onDram_fuse (f : Dram → Dram) (s : State) : (onDram f s).fuse = s.fuse := rfl
@[simp] theorem onDram_rst (f : Dram → Dram) (s : State) : (onDram f s).rst = s.rst := rfl
@[simp] theorem onDram_chans (f : Dram → Dram) (s : State) : (onDram f s).chans = s.chans := rfl
@[simp] theorem onDram_sv (f : Dram → Dram) (s : State) : (onDram f s).sv = s.sv := rfl
@[simp] theorem onDram_meter (f : Dram → Dram) (s : State) : (onDram f s).meter = s.meter := rfl
@[simp] theorem onDram_link (f : Dram → Dram) (s : State) : (onDram f s).link = s.link := rfl
@[simp] theorem onDram_log (f : Dram → Dram) (s : State) : (onDram f s).log = s.log := rfl
@[simp] theorem onDram_faults (f : Dram → Dram) (s : State) : (onDram f s).faults = s.faults := rfl
@[simp] theorem onDram_cnt (f : Dram → Dram) (s : State) : (onDram f s).cnt = s.cnt := rfl
@[simp] theorem onDram_i3c (f : Dram → Dram) (s : State) : (onDram f s).i3c = s.i3c := rfl
@[simp] theorem onDram_tap (f : Dram → Dram) (s : State) : (onDram f s).tap = s.tap := rfl
@[simp] theorem onDram_clk (f : Dram → Dram) (s : State) : (onDram f s).clk = s.clk := rfl
@[simp] theorem onDram_dawn (f : Dram → Dram) (s : State) : (onDram f s).dawn = s.dawn := rfl
@[simp] theorem onDram_flash (f : Dram → Dram) (s : State) : (onDram f s).flash = s.flash := rfl
@[simp] theorem onDram_time (f : Dram → Dram) (s : State) : (onDram f s).time = s.time := rfl
@[simp] theorem onDram_regs (f : Dram → Dram) (s : State) : (onDram f s).regs = s.regs := rfl
@[simp] theorem onDram_host (f : Dram → Dram) (s : State) : (onDram f s).host = s.host := rfl
@[simp] theorem onDram_map (f : Dram → Dram) (s : State) : (onDram f s).map = s.map := rfl
@[simp] theorem onDram_nc (f : Dram → Dram) (s : State) : (onDram f s).nc = s.nc := rfl
@[simp] theorem onDram_ha (f : Dram → Dram) (s : State) : (onDram f s).ha = s.ha := rfl
@[simp] theorem onDram_fab (f : Dram → Dram) (s : State) : (onDram f s).fab = s.fab := rfl
@[simp] theorem onDram_cry (f : Dram → Dram) (s : State) : (onDram f s).cry = s.cry := rfl
@[simp] theorem onDram_dram (f : Dram → Dram) (s : State) : (onDram f s).dram = f s.dram := rfl
@[simp] theorem onDram_nvm (f : Dram → Dram) (s : State) : (onDram f s).nvm = s.nvm := rfl
@[simp] theorem onDram_tier (f : Dram → Dram) (s : State) : (onDram f s).tier = s.tier := rfl
@[simp] theorem onDram_job (f : Dram → Dram) (s : State) : (onDram f s).job = s.job := rfl
@[simp] theorem onDram_pk (f : Dram → Dram) (s : State) : (onDram f s).pk = s.pk := rfl
@[simp] theorem onDram_qos (f : Dram → Dram) (s : State) : (onDram f s).qos = s.qos := rfl
@[simp] theorem onDram_place (f : Dram → Dram) (s : State) : (onDram f s).place = s.place := rfl
@[simp] theorem onDram_free (f : Dram → Dram) (s : State) : (onDram f s).free = s.free := rfl
@[simp] theorem onDram_pending (f : Dram → Dram) (s : State) : (onDram f s).pending = s.pending := rfl
@[simp] theorem onNvm_fuse (f : Nvm → Nvm) (s : State) : (onNvm f s).fuse = s.fuse := rfl
@[simp] theorem onNvm_rst (f : Nvm → Nvm) (s : State) : (onNvm f s).rst = s.rst := rfl
@[simp] theorem onNvm_chans (f : Nvm → Nvm) (s : State) : (onNvm f s).chans = s.chans := rfl
@[simp] theorem onNvm_sv (f : Nvm → Nvm) (s : State) : (onNvm f s).sv = s.sv := rfl
@[simp] theorem onNvm_meter (f : Nvm → Nvm) (s : State) : (onNvm f s).meter = s.meter := rfl
@[simp] theorem onNvm_link (f : Nvm → Nvm) (s : State) : (onNvm f s).link = s.link := rfl
@[simp] theorem onNvm_log (f : Nvm → Nvm) (s : State) : (onNvm f s).log = s.log := rfl
@[simp] theorem onNvm_faults (f : Nvm → Nvm) (s : State) : (onNvm f s).faults = s.faults := rfl
@[simp] theorem onNvm_cnt (f : Nvm → Nvm) (s : State) : (onNvm f s).cnt = s.cnt := rfl
@[simp] theorem onNvm_i3c (f : Nvm → Nvm) (s : State) : (onNvm f s).i3c = s.i3c := rfl
@[simp] theorem onNvm_tap (f : Nvm → Nvm) (s : State) : (onNvm f s).tap = s.tap := rfl
@[simp] theorem onNvm_clk (f : Nvm → Nvm) (s : State) : (onNvm f s).clk = s.clk := rfl
@[simp] theorem onNvm_dawn (f : Nvm → Nvm) (s : State) : (onNvm f s).dawn = s.dawn := rfl
@[simp] theorem onNvm_flash (f : Nvm → Nvm) (s : State) : (onNvm f s).flash = s.flash := rfl
@[simp] theorem onNvm_time (f : Nvm → Nvm) (s : State) : (onNvm f s).time = s.time := rfl
@[simp] theorem onNvm_regs (f : Nvm → Nvm) (s : State) : (onNvm f s).regs = s.regs := rfl
@[simp] theorem onNvm_host (f : Nvm → Nvm) (s : State) : (onNvm f s).host = s.host := rfl
@[simp] theorem onNvm_map (f : Nvm → Nvm) (s : State) : (onNvm f s).map = s.map := rfl
@[simp] theorem onNvm_nc (f : Nvm → Nvm) (s : State) : (onNvm f s).nc = s.nc := rfl
@[simp] theorem onNvm_ha (f : Nvm → Nvm) (s : State) : (onNvm f s).ha = s.ha := rfl
@[simp] theorem onNvm_fab (f : Nvm → Nvm) (s : State) : (onNvm f s).fab = s.fab := rfl
@[simp] theorem onNvm_cry (f : Nvm → Nvm) (s : State) : (onNvm f s).cry = s.cry := rfl
@[simp] theorem onNvm_dram (f : Nvm → Nvm) (s : State) : (onNvm f s).dram = s.dram := rfl
@[simp] theorem onNvm_nvm (f : Nvm → Nvm) (s : State) : (onNvm f s).nvm = f s.nvm := rfl
@[simp] theorem onNvm_tier (f : Nvm → Nvm) (s : State) : (onNvm f s).tier = s.tier := rfl
@[simp] theorem onNvm_job (f : Nvm → Nvm) (s : State) : (onNvm f s).job = s.job := rfl
@[simp] theorem onNvm_pk (f : Nvm → Nvm) (s : State) : (onNvm f s).pk = s.pk := rfl
@[simp] theorem onNvm_qos (f : Nvm → Nvm) (s : State) : (onNvm f s).qos = s.qos := rfl
@[simp] theorem onNvm_place (f : Nvm → Nvm) (s : State) : (onNvm f s).place = s.place := rfl
@[simp] theorem onNvm_free (f : Nvm → Nvm) (s : State) : (onNvm f s).free = s.free := rfl
@[simp] theorem onNvm_pending (f : Nvm → Nvm) (s : State) : (onNvm f s).pending = s.pending := rfl
@[simp] theorem onTier_fuse (f : Tier → Tier) (s : State) : (onTier f s).fuse = s.fuse := rfl
@[simp] theorem onTier_rst (f : Tier → Tier) (s : State) : (onTier f s).rst = s.rst := rfl
@[simp] theorem onTier_chans (f : Tier → Tier) (s : State) : (onTier f s).chans = s.chans := rfl
@[simp] theorem onTier_sv (f : Tier → Tier) (s : State) : (onTier f s).sv = s.sv := rfl
@[simp] theorem onTier_meter (f : Tier → Tier) (s : State) : (onTier f s).meter = s.meter := rfl
@[simp] theorem onTier_link (f : Tier → Tier) (s : State) : (onTier f s).link = s.link := rfl
@[simp] theorem onTier_log (f : Tier → Tier) (s : State) : (onTier f s).log = s.log := rfl
@[simp] theorem onTier_faults (f : Tier → Tier) (s : State) : (onTier f s).faults = s.faults := rfl
@[simp] theorem onTier_cnt (f : Tier → Tier) (s : State) : (onTier f s).cnt = s.cnt := rfl
@[simp] theorem onTier_i3c (f : Tier → Tier) (s : State) : (onTier f s).i3c = s.i3c := rfl
@[simp] theorem onTier_tap (f : Tier → Tier) (s : State) : (onTier f s).tap = s.tap := rfl
@[simp] theorem onTier_clk (f : Tier → Tier) (s : State) : (onTier f s).clk = s.clk := rfl
@[simp] theorem onTier_dawn (f : Tier → Tier) (s : State) : (onTier f s).dawn = s.dawn := rfl
@[simp] theorem onTier_flash (f : Tier → Tier) (s : State) : (onTier f s).flash = s.flash := rfl
@[simp] theorem onTier_time (f : Tier → Tier) (s : State) : (onTier f s).time = s.time := rfl
@[simp] theorem onTier_regs (f : Tier → Tier) (s : State) : (onTier f s).regs = s.regs := rfl
@[simp] theorem onTier_host (f : Tier → Tier) (s : State) : (onTier f s).host = s.host := rfl
@[simp] theorem onTier_map (f : Tier → Tier) (s : State) : (onTier f s).map = s.map := rfl
@[simp] theorem onTier_nc (f : Tier → Tier) (s : State) : (onTier f s).nc = s.nc := rfl
@[simp] theorem onTier_ha (f : Tier → Tier) (s : State) : (onTier f s).ha = s.ha := rfl
@[simp] theorem onTier_fab (f : Tier → Tier) (s : State) : (onTier f s).fab = s.fab := rfl
@[simp] theorem onTier_cry (f : Tier → Tier) (s : State) : (onTier f s).cry = s.cry := rfl
@[simp] theorem onTier_dram (f : Tier → Tier) (s : State) : (onTier f s).dram = s.dram := rfl
@[simp] theorem onTier_nvm (f : Tier → Tier) (s : State) : (onTier f s).nvm = s.nvm := rfl
@[simp] theorem onTier_tier (f : Tier → Tier) (s : State) : (onTier f s).tier = f s.tier := rfl
@[simp] theorem onTier_job (f : Tier → Tier) (s : State) : (onTier f s).job = s.job := rfl
@[simp] theorem onTier_pk (f : Tier → Tier) (s : State) : (onTier f s).pk = s.pk := rfl
@[simp] theorem onTier_qos (f : Tier → Tier) (s : State) : (onTier f s).qos = s.qos := rfl
@[simp] theorem onTier_place (f : Tier → Tier) (s : State) : (onTier f s).place = s.place := rfl
@[simp] theorem onTier_free (f : Tier → Tier) (s : State) : (onTier f s).free = s.free := rfl
@[simp] theorem onTier_pending (f : Tier → Tier) (s : State) : (onTier f s).pending = s.pending := rfl
@[simp] theorem onJob_fuse (f : Jobs → Jobs) (s : State) : (onJob f s).fuse = s.fuse := rfl
@[simp] theorem onJob_rst (f : Jobs → Jobs) (s : State) : (onJob f s).rst = s.rst := rfl
@[simp] theorem onJob_chans (f : Jobs → Jobs) (s : State) : (onJob f s).chans = s.chans := rfl
@[simp] theorem onJob_sv (f : Jobs → Jobs) (s : State) : (onJob f s).sv = s.sv := rfl
@[simp] theorem onJob_meter (f : Jobs → Jobs) (s : State) : (onJob f s).meter = s.meter := rfl
@[simp] theorem onJob_link (f : Jobs → Jobs) (s : State) : (onJob f s).link = s.link := rfl
@[simp] theorem onJob_log (f : Jobs → Jobs) (s : State) : (onJob f s).log = s.log := rfl
@[simp] theorem onJob_faults (f : Jobs → Jobs) (s : State) : (onJob f s).faults = s.faults := rfl
@[simp] theorem onJob_cnt (f : Jobs → Jobs) (s : State) : (onJob f s).cnt = s.cnt := rfl
@[simp] theorem onJob_i3c (f : Jobs → Jobs) (s : State) : (onJob f s).i3c = s.i3c := rfl
@[simp] theorem onJob_tap (f : Jobs → Jobs) (s : State) : (onJob f s).tap = s.tap := rfl
@[simp] theorem onJob_clk (f : Jobs → Jobs) (s : State) : (onJob f s).clk = s.clk := rfl
@[simp] theorem onJob_dawn (f : Jobs → Jobs) (s : State) : (onJob f s).dawn = s.dawn := rfl
@[simp] theorem onJob_flash (f : Jobs → Jobs) (s : State) : (onJob f s).flash = s.flash := rfl
@[simp] theorem onJob_time (f : Jobs → Jobs) (s : State) : (onJob f s).time = s.time := rfl
@[simp] theorem onJob_regs (f : Jobs → Jobs) (s : State) : (onJob f s).regs = s.regs := rfl
@[simp] theorem onJob_host (f : Jobs → Jobs) (s : State) : (onJob f s).host = s.host := rfl
@[simp] theorem onJob_map (f : Jobs → Jobs) (s : State) : (onJob f s).map = s.map := rfl
@[simp] theorem onJob_nc (f : Jobs → Jobs) (s : State) : (onJob f s).nc = s.nc := rfl
@[simp] theorem onJob_ha (f : Jobs → Jobs) (s : State) : (onJob f s).ha = s.ha := rfl
@[simp] theorem onJob_fab (f : Jobs → Jobs) (s : State) : (onJob f s).fab = s.fab := rfl
@[simp] theorem onJob_cry (f : Jobs → Jobs) (s : State) : (onJob f s).cry = s.cry := rfl
@[simp] theorem onJob_dram (f : Jobs → Jobs) (s : State) : (onJob f s).dram = s.dram := rfl
@[simp] theorem onJob_nvm (f : Jobs → Jobs) (s : State) : (onJob f s).nvm = s.nvm := rfl
@[simp] theorem onJob_tier (f : Jobs → Jobs) (s : State) : (onJob f s).tier = s.tier := rfl
@[simp] theorem onJob_job (f : Jobs → Jobs) (s : State) : (onJob f s).job = f s.job := rfl
@[simp] theorem onJob_pk (f : Jobs → Jobs) (s : State) : (onJob f s).pk = s.pk := rfl
@[simp] theorem onJob_qos (f : Jobs → Jobs) (s : State) : (onJob f s).qos = s.qos := rfl
@[simp] theorem onJob_place (f : Jobs → Jobs) (s : State) : (onJob f s).place = s.place := rfl
@[simp] theorem onJob_free (f : Jobs → Jobs) (s : State) : (onJob f s).free = s.free := rfl
@[simp] theorem onJob_pending (f : Jobs → Jobs) (s : State) : (onJob f s).pending = s.pending := rfl
@[simp] theorem onPk_fuse (f : Packed → Packed) (s : State) : (onPk f s).fuse = s.fuse := rfl
@[simp] theorem onPk_rst (f : Packed → Packed) (s : State) : (onPk f s).rst = s.rst := rfl
@[simp] theorem onPk_chans (f : Packed → Packed) (s : State) : (onPk f s).chans = s.chans := rfl
@[simp] theorem onPk_sv (f : Packed → Packed) (s : State) : (onPk f s).sv = s.sv := rfl
@[simp] theorem onPk_meter (f : Packed → Packed) (s : State) : (onPk f s).meter = s.meter := rfl
@[simp] theorem onPk_link (f : Packed → Packed) (s : State) : (onPk f s).link = s.link := rfl
@[simp] theorem onPk_log (f : Packed → Packed) (s : State) : (onPk f s).log = s.log := rfl
@[simp] theorem onPk_faults (f : Packed → Packed) (s : State) : (onPk f s).faults = s.faults := rfl
@[simp] theorem onPk_cnt (f : Packed → Packed) (s : State) : (onPk f s).cnt = s.cnt := rfl
@[simp] theorem onPk_i3c (f : Packed → Packed) (s : State) : (onPk f s).i3c = s.i3c := rfl
@[simp] theorem onPk_tap (f : Packed → Packed) (s : State) : (onPk f s).tap = s.tap := rfl
@[simp] theorem onPk_clk (f : Packed → Packed) (s : State) : (onPk f s).clk = s.clk := rfl
@[simp] theorem onPk_dawn (f : Packed → Packed) (s : State) : (onPk f s).dawn = s.dawn := rfl
@[simp] theorem onPk_flash (f : Packed → Packed) (s : State) : (onPk f s).flash = s.flash := rfl
@[simp] theorem onPk_time (f : Packed → Packed) (s : State) : (onPk f s).time = s.time := rfl
@[simp] theorem onPk_regs (f : Packed → Packed) (s : State) : (onPk f s).regs = s.regs := rfl
@[simp] theorem onPk_host (f : Packed → Packed) (s : State) : (onPk f s).host = s.host := rfl
@[simp] theorem onPk_map (f : Packed → Packed) (s : State) : (onPk f s).map = s.map := rfl
@[simp] theorem onPk_nc (f : Packed → Packed) (s : State) : (onPk f s).nc = s.nc := rfl
@[simp] theorem onPk_ha (f : Packed → Packed) (s : State) : (onPk f s).ha = s.ha := rfl
@[simp] theorem onPk_fab (f : Packed → Packed) (s : State) : (onPk f s).fab = s.fab := rfl
@[simp] theorem onPk_cry (f : Packed → Packed) (s : State) : (onPk f s).cry = s.cry := rfl
@[simp] theorem onPk_dram (f : Packed → Packed) (s : State) : (onPk f s).dram = s.dram := rfl
@[simp] theorem onPk_nvm (f : Packed → Packed) (s : State) : (onPk f s).nvm = s.nvm := rfl
@[simp] theorem onPk_tier (f : Packed → Packed) (s : State) : (onPk f s).tier = s.tier := rfl
@[simp] theorem onPk_job (f : Packed → Packed) (s : State) : (onPk f s).job = s.job := rfl
@[simp] theorem onPk_pk (f : Packed → Packed) (s : State) : (onPk f s).pk = f s.pk := rfl
@[simp] theorem onPk_qos (f : Packed → Packed) (s : State) : (onPk f s).qos = s.qos := rfl
@[simp] theorem onPk_place (f : Packed → Packed) (s : State) : (onPk f s).place = s.place := rfl
@[simp] theorem onPk_free (f : Packed → Packed) (s : State) : (onPk f s).free = s.free := rfl
@[simp] theorem onPk_pending (f : Packed → Packed) (s : State) : (onPk f s).pending = s.pending := rfl
@[simp] theorem onQos_fuse (f : Qos → Qos) (s : State) : (onQos f s).fuse = s.fuse := rfl
@[simp] theorem onQos_rst (f : Qos → Qos) (s : State) : (onQos f s).rst = s.rst := rfl
@[simp] theorem onQos_chans (f : Qos → Qos) (s : State) : (onQos f s).chans = s.chans := rfl
@[simp] theorem onQos_sv (f : Qos → Qos) (s : State) : (onQos f s).sv = s.sv := rfl
@[simp] theorem onQos_meter (f : Qos → Qos) (s : State) : (onQos f s).meter = s.meter := rfl
@[simp] theorem onQos_link (f : Qos → Qos) (s : State) : (onQos f s).link = s.link := rfl
@[simp] theorem onQos_log (f : Qos → Qos) (s : State) : (onQos f s).log = s.log := rfl
@[simp] theorem onQos_faults (f : Qos → Qos) (s : State) : (onQos f s).faults = s.faults := rfl
@[simp] theorem onQos_cnt (f : Qos → Qos) (s : State) : (onQos f s).cnt = s.cnt := rfl
@[simp] theorem onQos_i3c (f : Qos → Qos) (s : State) : (onQos f s).i3c = s.i3c := rfl
@[simp] theorem onQos_tap (f : Qos → Qos) (s : State) : (onQos f s).tap = s.tap := rfl
@[simp] theorem onQos_clk (f : Qos → Qos) (s : State) : (onQos f s).clk = s.clk := rfl
@[simp] theorem onQos_dawn (f : Qos → Qos) (s : State) : (onQos f s).dawn = s.dawn := rfl
@[simp] theorem onQos_flash (f : Qos → Qos) (s : State) : (onQos f s).flash = s.flash := rfl
@[simp] theorem onQos_time (f : Qos → Qos) (s : State) : (onQos f s).time = s.time := rfl
@[simp] theorem onQos_regs (f : Qos → Qos) (s : State) : (onQos f s).regs = s.regs := rfl
@[simp] theorem onQos_host (f : Qos → Qos) (s : State) : (onQos f s).host = s.host := rfl
@[simp] theorem onQos_map (f : Qos → Qos) (s : State) : (onQos f s).map = s.map := rfl
@[simp] theorem onQos_nc (f : Qos → Qos) (s : State) : (onQos f s).nc = s.nc := rfl
@[simp] theorem onQos_ha (f : Qos → Qos) (s : State) : (onQos f s).ha = s.ha := rfl
@[simp] theorem onQos_fab (f : Qos → Qos) (s : State) : (onQos f s).fab = s.fab := rfl
@[simp] theorem onQos_cry (f : Qos → Qos) (s : State) : (onQos f s).cry = s.cry := rfl
@[simp] theorem onQos_dram (f : Qos → Qos) (s : State) : (onQos f s).dram = s.dram := rfl
@[simp] theorem onQos_nvm (f : Qos → Qos) (s : State) : (onQos f s).nvm = s.nvm := rfl
@[simp] theorem onQos_tier (f : Qos → Qos) (s : State) : (onQos f s).tier = s.tier := rfl
@[simp] theorem onQos_job (f : Qos → Qos) (s : State) : (onQos f s).job = s.job := rfl
@[simp] theorem onQos_pk (f : Qos → Qos) (s : State) : (onQos f s).pk = s.pk := rfl
@[simp] theorem onQos_qos (f : Qos → Qos) (s : State) : (onQos f s).qos = f s.qos := rfl
@[simp] theorem onQos_place (f : Qos → Qos) (s : State) : (onQos f s).place = s.place := rfl
@[simp] theorem onQos_free (f : Qos → Qos) (s : State) : (onQos f s).free = s.free := rfl
@[simp] theorem onQos_pending (f : Qos → Qos) (s : State) : (onQos f s).pending = s.pending := rfl
@[simp] theorem onPlace_fuse (f : Table Place → Table Place) (s : State) : (onPlace f s).fuse = s.fuse := rfl
@[simp] theorem onPlace_rst (f : Table Place → Table Place) (s : State) : (onPlace f s).rst = s.rst := rfl
@[simp] theorem onPlace_chans (f : Table Place → Table Place) (s : State) : (onPlace f s).chans = s.chans := rfl
@[simp] theorem onPlace_sv (f : Table Place → Table Place) (s : State) : (onPlace f s).sv = s.sv := rfl
@[simp] theorem onPlace_meter (f : Table Place → Table Place) (s : State) : (onPlace f s).meter = s.meter := rfl
@[simp] theorem onPlace_link (f : Table Place → Table Place) (s : State) : (onPlace f s).link = s.link := rfl
@[simp] theorem onPlace_log (f : Table Place → Table Place) (s : State) : (onPlace f s).log = s.log := rfl
@[simp] theorem onPlace_faults (f : Table Place → Table Place) (s : State) : (onPlace f s).faults = s.faults := rfl
@[simp] theorem onPlace_cnt (f : Table Place → Table Place) (s : State) : (onPlace f s).cnt = s.cnt := rfl
@[simp] theorem onPlace_i3c (f : Table Place → Table Place) (s : State) : (onPlace f s).i3c = s.i3c := rfl
@[simp] theorem onPlace_tap (f : Table Place → Table Place) (s : State) : (onPlace f s).tap = s.tap := rfl
@[simp] theorem onPlace_clk (f : Table Place → Table Place) (s : State) : (onPlace f s).clk = s.clk := rfl
@[simp] theorem onPlace_dawn (f : Table Place → Table Place) (s : State) : (onPlace f s).dawn = s.dawn := rfl
@[simp] theorem onPlace_flash (f : Table Place → Table Place) (s : State) : (onPlace f s).flash = s.flash := rfl
@[simp] theorem onPlace_time (f : Table Place → Table Place) (s : State) : (onPlace f s).time = s.time := rfl
@[simp] theorem onPlace_regs (f : Table Place → Table Place) (s : State) : (onPlace f s).regs = s.regs := rfl
@[simp] theorem onPlace_host (f : Table Place → Table Place) (s : State) : (onPlace f s).host = s.host := rfl
@[simp] theorem onPlace_map (f : Table Place → Table Place) (s : State) : (onPlace f s).map = s.map := rfl
@[simp] theorem onPlace_nc (f : Table Place → Table Place) (s : State) : (onPlace f s).nc = s.nc := rfl
@[simp] theorem onPlace_ha (f : Table Place → Table Place) (s : State) : (onPlace f s).ha = s.ha := rfl
@[simp] theorem onPlace_fab (f : Table Place → Table Place) (s : State) : (onPlace f s).fab = s.fab := rfl
@[simp] theorem onPlace_cry (f : Table Place → Table Place) (s : State) : (onPlace f s).cry = s.cry := rfl
@[simp] theorem onPlace_dram (f : Table Place → Table Place) (s : State) : (onPlace f s).dram = s.dram := rfl
@[simp] theorem onPlace_nvm (f : Table Place → Table Place) (s : State) : (onPlace f s).nvm = s.nvm := rfl
@[simp] theorem onPlace_tier (f : Table Place → Table Place) (s : State) : (onPlace f s).tier = s.tier := rfl
@[simp] theorem onPlace_job (f : Table Place → Table Place) (s : State) : (onPlace f s).job = s.job := rfl
@[simp] theorem onPlace_pk (f : Table Place → Table Place) (s : State) : (onPlace f s).pk = s.pk := rfl
@[simp] theorem onPlace_qos (f : Table Place → Table Place) (s : State) : (onPlace f s).qos = s.qos := rfl
@[simp] theorem onPlace_place (f : Table Place → Table Place) (s : State) : (onPlace f s).place = f s.place := rfl
@[simp] theorem onPlace_free (f : Table Place → Table Place) (s : State) : (onPlace f s).free = s.free := rfl
@[simp] theorem onPlace_pending (f : Table Place → Table Place) (s : State) : (onPlace f s).pending = s.pending := rfl

end Sys2Proof.Machine
end

