-- ==== Sys2Proof/Laws/Keeps.lean ====
section
/-!
SUPPORT. What every operation of the block keeps, said once as a relation between the state before and after, with the updates of the state's parts.
-/
namespace Sys2Proof.Machine

/-- What holds of a state once it has been true, until a reset: `b`, or a reset source is in effect. -/
abbrev orReset (s : State) (b : Bool) : Prop := b = true ∨ s.rst.resetN = true ∨ s.rst.por = true

/-- What an operation keeps: the queue, the fuse map but for an anchor not yet programmed (R338, R357), the canonical form of the memories, empty key
slots (R277), and until a reset the run lock, Midnight and a replace request (R296, R353, R410). -/
structure Keeps (s t : State) : Prop where
  queue : t.pending = s.pending
  fuseId : t.fuse.id = s.fuse.id
  tiles : t.fuse.tiles = s.fuse.tiles
  serial : t.fuse.serial = s.fuse.serial
  anchor : s.fuse.anchor ≠ 0#256 → t.fuse.anchor = s.fuse.anchor
  flash : Table.wf 0xFF#8 s.flash.bytes = true → Table.wf 0xFF#8 t.flash.bytes = true
  log : Table.wf erased s.log.cells = true → Table.wf erased t.log.cells = true
  recs : Table.wf {} s.dram.recs = true → Table.wf {} t.dram.recs = true
  scratch : Table.wf none s.nc.scratch = true → Table.wf none t.nc.scratch = true
  keys : ∀ k, Table.get none s.cry.keys k = none → Table.get none t.cry.keys k = none
  lock : orReset s s.dawn.runLock → orReset t t.dawn.runLock
  night : orReset s s.faults.midnight → orReset t t.faults.midnight
  replace : orReset s s.faults.rr → orReset t t.faults.rr

namespace Keeps

theorem refl (s : State) : Keeps s s :=
  ⟨rfl, rfl, rfl, rfl, fun _ => rfl, id, id, id, id, fun _ => id, id, id, id⟩

theorem trans {s m t : State} (a : Keeps s m) (b : Keeps m t) : Keeps s t where
  queue := b.queue.trans a.queue
  fuseId := b.fuseId.trans a.fuseId
  tiles := b.tiles.trans a.tiles
  serial := b.serial.trans a.serial
  anchor h := by
    have hm : m.fuse.anchor = s.fuse.anchor := a.anchor h
    exact (b.anchor (hm ▸ h)).trans hm
  flash h := b.flash (a.flash h)
  log h := b.log (a.log h)
  recs h := b.recs (a.recs h)
  scratch h := b.scratch (a.scratch h)
  keys k h := b.keys k (a.keys k h)
  lock h := b.lock (a.lock h)
  night h := b.night (a.night h)
  replace h := b.replace (a.replace h)

/-- The state that a pair carries, once the pair is known. -/
theorem pair {α : Type} {m t : State} {p : α × State} {a : α} (k : Keeps m p.2) (h : p = (a, t)) : Keeps m t := by
  rw [h] at k
  exact k

/-- A step of a longer operation: what it keeps is known to what follows. -/
theorem use {s t x : State} (h : Keeps s x) (k : Keeps s x → Keeps s t) : Keeps s t := k h

theorem useSnd {α : Type} {s t : State} {x : α × State} (h : Keeps s x.2) (k : Keeps s x.2 → Keeps s t) : Keeps s t := k h

theorem useFst {α : Type} {s t : State} {x : State × α} (h : Keeps s x.1) (k : Keeps s x.1 → Keeps s t) : Keeps s t := k h

theorem useThird {α β : Type} {s t : State} {x : α × β × State} (h : Keeps s x.2.2) (k : Keeps s x.2.2 → Keeps s t) : Keeps s t := k h

/-- The state that a pair or a triple carries, once it is known. -/
theorem pairFst {α : Type} {m t : State} {p : State × α} {a : α} (k : Keeps m p.1) (h : p = (t, a)) : Keeps m t := by
  rw [h] at k
  exact k

theorem triple {α β : Type} {m t : State} {p : α × β × State} {a : α} {b : β} (k : Keeps m p.2.2) (h : p = (a, b, t)) : Keeps m t := by
  rw [h] at k
  exact k

/-- An outcome is a next state, and what it keeps. -/
def Out (s : State) (o : Host.Outcome State Fault Refusal) : Prop := ∃ t, o = .next t ∧ Keeps s t

theorem out {s t : State} (h : Keeps s t) : Out s (.next t) := ⟨t, rfl, h⟩

theorem useOut {s x : State} {o : Host.Outcome State Fault Refusal} (h : Keeps s x) (k : Keeps s x → Out s o) : Out s o := k h

theorem useOutSnd {α : Type} {s : State} {x : α × State} {o : Host.Outcome State Fault Refusal} (h : Keeps s x.2) (k : Keeps s x.2 → Out s o) :
    Out s o := k h

theorem useOutFst {α : Type} {s : State} {x : State × α} {o : Host.Outcome State Fault Refusal} (h : Keeps s x.1) (k : Keeps s x.1 → Out s o) :
    Out s o := k h

/-- What holds of the value of an option where it has one. -/
def OfSome {α : Type} (o : Option α) (p : α → Prop) : Prop := ∀ x, o = some x → p x

theorem ofNone {α : Type} {p : α → Prop} : OfSome (none : Option α) p := fun _ h => nomatch h

theorem ofSome {α : Type} {p : α → Prop} {x : α} (h : p x) : OfSome (some x) p := fun _ e => by cases e; exact h

theorem ofMap {α β : Type} {p : α → Prop} {o : Option β} {f : β → α} (h : ∀ x, p (f x)) : OfSome (o.map f) p := by
  cases o with
  | none => exact ofNone
  | some x => exact ofSome (h x)

theorem OfSome.mk {α : Type} {o : Option α} {p : α → Prop} (h : ∀ x, o = some x → p x) : OfSome o p := h

theorem OfSome.out {α : Type} {o : Option α} {p : α → Prop} {x : α} (k : OfSome o p) (h : o = some x) : p x := k x h

/-- A fold of an operation that keeps. -/
theorem foldl {β : Type} {g : State → β → State} (l : List β) (s : State) (h : ∀ s x, Keeps s (g s x)) : Keeps s (l.foldl g s) := by
  induction l generalizing s with
  | nil => exact refl s
  | cons x l ih => exact (h s x).trans (ih _)

/-- A fold whose first component is a state. -/
theorem foldl_fst {β γ : Type} {g : State × γ → β → State × γ} (l : List β) (p : State × γ) (h : ∀ p x, Keeps p.1 (g p x).1) :
    Keeps p.1 (l.foldl g p).1 := by
  induction l generalizing p with
  | nil => exact refl _
  | cons x l ih => exact (h p x).trans (ih _)

/-- A fold whose second component is a state. -/
theorem foldl_snd {β γ : Type} {g : γ × State → β → γ × State} (l : List β) (p : γ × State) (h : ∀ p x, Keeps p.2 (g p x).2) :
    Keeps p.2 (l.foldl g p).2 := by
  induction l generalizing p with
  | nil => exact refl _
  | cons x l ih => exact (h p x).trans (ih _)

/-- A state that differs only in parts that nothing here speaks of. -/
theorem of_parts {s t : State} (a : t.pending = s.pending) (b : t.fuse = s.fuse) (c : t.flash = s.flash) (d : t.log = s.log) (e : t.dram = s.dram)
    (f : t.nc = s.nc) (g : t.cry = s.cry) (h : t.dawn = s.dawn) (i : t.faults = s.faults) (j : t.rst = s.rst) : Keeps s t := by
  refine ⟨a, by rw [b], by rw [b], by rw [b], fun _ => by rw [b], ?_, ?_, ?_, ?_, ?_, ?_, ?_, ?_⟩ <;>
    simp only [c, d, e, f, g, h, i, j, orReset, imp_self, implies_true]

end Keeps

/-! The updates of the state's parts. -/

theorem keeps_onSv {f : Sv → Sv} {s : State} : Keeps s (onSv f s) := Keeps.of_parts rfl rfl rfl rfl rfl rfl rfl rfl rfl rfl
theorem keeps_onMeter {f : PowerMeter → PowerMeter} {s : State} : Keeps s (onMeter f s) := Keeps.of_parts rfl rfl rfl rfl rfl rfl rfl rfl rfl rfl
theorem keeps_onLink {f : SvLink → SvLink} {s : State} : Keeps s (onLink f s) := Keeps.of_parts rfl rfl rfl rfl rfl rfl rfl rfl rfl rfl
theorem keeps_onCnt {f : Counters → Counters} {s : State} : Keeps s (onCnt f s) := Keeps.of_parts rfl rfl rfl rfl rfl rfl rfl rfl rfl rfl
theorem keeps_onI3c {f : I3c → I3c} {s : State} : Keeps s (onI3c f s) := Keeps.of_parts rfl rfl rfl rfl rfl rfl rfl rfl rfl rfl
theorem keeps_onTap {f : Tap → Tap} {s : State} : Keeps s (onTap f s) := Keeps.of_parts rfl rfl rfl rfl rfl rfl rfl rfl rfl rfl
theorem keeps_onClk {f : Clocks → Clocks} {s : State} : Keeps s (onClk f s) := Keeps.of_parts rfl rfl rfl rfl rfl rfl rfl rfl rfl rfl
theorem keeps_onTime {f : Time → Time} {s : State} : Keeps s (onTime f s) := Keeps.of_parts rfl rfl rfl rfl rfl rfl rfl rfl rfl rfl
theorem keeps_onHost {f : Host_ → Host_} {s : State} : Keeps s (onHost f s) := Keeps.of_parts rfl rfl rfl rfl rfl rfl rfl rfl rfl rfl
theorem keeps_onMap {f : AddrMap → AddrMap} {s : State} : Keeps s (onMap f s) := Keeps.of_parts rfl rfl rfl rfl rfl rfl rfl rfl rfl rfl
theorem keeps_onHa {f : HomeAgents → HomeAgents} {s : State} : Keeps s (onHa f s) := Keeps.of_parts rfl rfl rfl rfl rfl rfl rfl rfl rfl rfl
theorem keeps_onFab {f : Fabric → Fabric} {s : State} : Keeps s (onFab f s) := Keeps.of_parts rfl rfl rfl rfl rfl rfl rfl rfl rfl rfl
theorem keeps_onNvm {f : Nvm → Nvm} {s : State} : Keeps s (onNvm f s) := Keeps.of_parts rfl rfl rfl rfl rfl rfl rfl rfl rfl rfl
theorem keeps_onTier {f : Tier → Tier} {s : State} : Keeps s (onTier f s) := Keeps.of_parts rfl rfl rfl rfl rfl rfl rfl rfl rfl rfl
theorem keeps_onJob {f : Jobs → Jobs} {s : State} : Keeps s (onJob f s) := Keeps.of_parts rfl rfl rfl rfl rfl rfl rfl rfl rfl rfl
theorem keeps_onPk {f : Packed → Packed} {s : State} : Keeps s (onPk f s) := Keeps.of_parts rfl rfl rfl rfl rfl rfl rfl rfl rfl rfl
theorem keeps_onQos {f : Qos → Qos} {s : State} : Keeps s (onQos f s) := Keeps.of_parts rfl rfl rfl rfl rfl rfl rfl rfl rfl rfl
theorem keeps_onPlace {f : Table Place → Table Place} {s : State} : Keeps s (onPlace f s) := Keeps.of_parts rfl rfl rfl rfl rfl rfl rfl rfl rfl rfl

theorem keeps_onLog {f : LogStore → LogStore} {s : State} (h : Table.wf erased s.log.cells = true → Table.wf erased (f s.log).cells = true) :
    Keeps s (onLog f s) := ⟨rfl, rfl, rfl, rfl, fun _ => rfl, id, h, id, id, fun _ => id, id, id, id⟩

theorem keeps_onFlash {f : Flash → Flash} {s : State} (h : Table.wf 0xFF#8 s.flash.bytes = true → Table.wf 0xFF#8 (f s.flash).bytes = true) :
    Keeps s (onFlash f s) := ⟨rfl, rfl, rfl, rfl, fun _ => rfl, h, id, id, id, fun _ => id, id, id, id⟩

theorem keeps_onDram {f : Dram → Dram} {s : State} (h : Table.wf {} s.dram.recs = true → Table.wf {} (f s.dram).recs = true) :
    Keeps s (onDram f s) := ⟨rfl, rfl, rfl, rfl, fun _ => rfl, id, id, h, id, fun _ => id, id, id, id⟩

theorem keeps_onNc {f : NearCache → NearCache} {s : State} (h : Table.wf none s.nc.scratch = true → Table.wf none (f s.nc).scratch = true) :
    Keeps s (onNc f s) := ⟨rfl, rfl, rfl, rfl, fun _ => rfl, id, id, id, h, fun _ => id, id, id, id⟩

theorem keeps_onCry {f : Crypto → Crypto} {s : State} (h : ∀ k, Table.get none s.cry.keys k = none → Table.get none (f s.cry).keys k = none) :
    Keeps s (onCry f s) := ⟨rfl, rfl, rfl, rfl, fun _ => rfl, id, id, id, id, h, id, id, id⟩

theorem keeps_onDawn {f : Dawn → Dawn} {s : State} (h : s.dawn.runLock = true → (f s.dawn).runLock = true) : Keeps s (onDawn f s) :=
  ⟨rfl, rfl, rfl, rfl, fun _ => rfl, id, id, id, id, fun _ => id, fun x => x.imp h id, id, id⟩

theorem keeps_onFaults {f : Faults → Faults} {s : State} (h : s.faults.midnight = true → (f s.faults).midnight = true)
    (k : s.faults.rr = true → (f s.faults).rr = true) : Keeps s (onFaults f s) :=
  ⟨rfl, rfl, rfl, rfl, fun _ => rfl, id, id, id, id, fun _ => id, id, fun x => x.imp h id, fun x => x.imp k id⟩

theorem keeps_onRst {f : Resets → Resets} {s : State} (h : s.rst.resetN = true ∨ s.rst.por = true → (f s.rst).resetN = true ∨ (f s.rst).por = true) :
    Keeps s (onRst f s) :=
  ⟨rfl, rfl, rfl, rfl, fun _ => rfl, id, id, id, id, fun _ => id, fun x => x.imp id h, fun x => x.imp id h, fun x => x.imp id h⟩

theorem keeps_onFuse {f : Fuse → Fuse} {s : State} (a : (f s.fuse).id = s.fuse.id) (b : (f s.fuse).tiles = s.fuse.tiles)
    (c : (f s.fuse).serial = s.fuse.serial) (d : s.fuse.anchor ≠ 0#256 → (f s.fuse).anchor = s.fuse.anchor) : Keeps s (onFuse f s) :=
  ⟨rfl, a, b, c, d, id, id, id, id, fun _ => id, id, id, id⟩

theorem keeps_onChan {e : Nat} {f : Chan → Chan} {s : State} : Keeps s (onChan e f s) :=
  Keeps.of_parts rfl rfl rfl rfl rfl rfl rfl rfl rfl rfl

theorem keeps_setReg {k : RegKind} {i : Nat} {v : W32} {s : State} : Keeps s (setReg k i v s) :=
  Keeps.of_parts rfl rfl rfl rfl rfl rfl rfl rfl rfl rfl

theorem keeps_takeFree {s : State} : Keeps s (takeFree s).2 :=
  Keeps.of_parts rfl rfl rfl rfl rfl rfl rfl rfl rfl rfl

/-- What every operation keeps but that empty key slots stay empty: INSTALL_KEY fills one (R277). -/
structure KeepsButKeys (s t : State) : Prop where
  queue : t.pending = s.pending
  fuseId : t.fuse.id = s.fuse.id
  tiles : t.fuse.tiles = s.fuse.tiles
  serial : t.fuse.serial = s.fuse.serial
  anchor : s.fuse.anchor ≠ 0#256 → t.fuse.anchor = s.fuse.anchor
  flash : Table.wf 0xFF#8 s.flash.bytes = true → Table.wf 0xFF#8 t.flash.bytes = true
  log : Table.wf erased s.log.cells = true → Table.wf erased t.log.cells = true
  recs : Table.wf {} s.dram.recs = true → Table.wf {} t.dram.recs = true
  scratch : Table.wf none s.nc.scratch = true → Table.wf none t.nc.scratch = true
  lock : orReset s s.dawn.runLock → orReset t t.dawn.runLock
  night : orReset s s.faults.midnight → orReset t t.faults.midnight
  replace : orReset s s.faults.rr → orReset t t.faults.rr

theorem Keeps.butKeys {s t : State} (h : Keeps s t) : KeepsButKeys s t :=
  ⟨h.queue, h.fuseId, h.tiles, h.serial, h.anchor, h.flash, h.log, h.recs, h.scratch, h.lock, h.night, h.replace⟩

theorem KeepsButKeys.trans {s m t : State} (a : KeepsButKeys s m) (b : Keeps m t) : KeepsButKeys s t where
  queue := b.queue.trans a.queue
  fuseId := b.fuseId.trans a.fuseId
  tiles := b.tiles.trans a.tiles
  serial := b.serial.trans a.serial
  anchor h := by
    have hm : m.fuse.anchor = s.fuse.anchor := a.anchor h
    exact (b.anchor (hm ▸ h)).trans hm
  flash h := b.flash (a.flash h)
  log h := b.log (a.log h)
  recs h := b.recs (a.recs h)
  scratch h := b.scratch (a.scratch h)
  lock h := b.lock (a.lock h)
  night h := b.night (a.night h)
  replace h := b.replace (a.replace h)

theorem keepsButKeys_onCry {f : Crypto → Crypto} {s : State} : KeepsButKeys s (onCry f s) :=
  ⟨rfl, rfl, rfl, rfl, fun _ => rfl, id, id, id, id, id, id, id⟩

/-- What every operation keeps but the run lock, Midnight and a replace request: the release of a reset, which those last until, ends the excuse
`orReset` gives (R296, R353, R410). -/
structure KeepsButLocks (s t : State) : Prop where
  queue : t.pending = s.pending
  fuseId : t.fuse.id = s.fuse.id
  tiles : t.fuse.tiles = s.fuse.tiles
  serial : t.fuse.serial = s.fuse.serial
  anchor : s.fuse.anchor ≠ 0#256 → t.fuse.anchor = s.fuse.anchor
  flash : Table.wf 0xFF#8 s.flash.bytes = true → Table.wf 0xFF#8 t.flash.bytes = true
  log : Table.wf erased s.log.cells = true → Table.wf erased t.log.cells = true
  recs : Table.wf {} s.dram.recs = true → Table.wf {} t.dram.recs = true
  scratch : Table.wf none s.nc.scratch = true → Table.wf none t.nc.scratch = true
  keys : ∀ k, Table.get none s.cry.keys k = none → Table.get none t.cry.keys k = none

theorem Keeps.butLocks {s t : State} (h : Keeps s t) : KeepsButLocks s t :=
  ⟨h.queue, h.fuseId, h.tiles, h.serial, h.anchor, h.flash, h.log, h.recs, h.scratch, h.keys⟩

theorem KeepsButLocks.trans {s m t : State} (a : KeepsButLocks s m) (b : Keeps m t) : KeepsButLocks s t where
  queue := b.queue.trans a.queue
  fuseId := b.fuseId.trans a.fuseId
  tiles := b.tiles.trans a.tiles
  serial := b.serial.trans a.serial
  anchor h := by
    have hm : m.fuse.anchor = s.fuse.anchor := a.anchor h
    exact (b.anchor (hm ▸ h)).trans hm
  flash h := b.flash (a.flash h)
  log h := b.log (a.log h)
  recs h := b.recs (a.recs h)
  scratch h := b.scratch (a.scratch h)
  keys k h := b.keys k (a.keys k h)

theorem keepsButLocks_onRst {f : Resets → Resets} {s : State} : KeepsButLocks s (onRst f s) :=
  ⟨rfl, rfl, rfl, rfl, fun _ => rfl, id, id, id, id, fun _ => id⟩

end Sys2Proof.Machine
end

