-- ==== Sys2Proof/Laws/Keeps1.lean ====
section
/-!
SUPPORT. What the operations of the block keep, part 1: one lemma for each, in the order of their files.
-/
namespace Sys2Proof.Machine

theorem keeps_raiseBit {k : RegKind} {i b : Nat} {s : State} : Keeps s (raiseBit k i b s) := by
  unfold raiseBit
  repeat' first
    | with_reducible exact Keeps.refl _
    | with_reducible assumption
    | with_reducible apply Keeps.trans ?_ keeps_setReg

theorem keeps_writeReg {k : RegKind} {i : Nat} {v : W32} {s : State} : Keeps s (writeReg k i v s) := by
  unfold writeReg
  repeat' first
    | with_reducible exact Keeps.refl _
    | with_reducible assumption
    | with_reducible apply Keeps.trans ?_ keeps_setReg

theorem keeps_addCnt {k n : Nat} {s : State} : Keeps s (addCnt k n s) := by
  unfold addCnt
  repeat' first
    | with_reducible exact Keeps.refl _
    | with_reducible assumption
    | with_reducible apply Keeps.trans ?_ keeps_onCnt

theorem keeps_addUnits {k n : Nat} {s : State} : Keeps s (addUnits k n s) := by
  unfold addUnits
  repeat' first
    | with_reducible exact Keeps.refl _
    | with_reducible assumption
    | with_reducible apply Keeps.trans ?_ keeps_onCnt
    | with_reducible apply Keeps.trans ?_ (keeps_addCnt)

theorem keeps_onPort {p : Nat} {f : Port → Port} {s : State} : Keeps s (onPort p f s) := by
  unfold onPort
  repeat' first
    | with_reducible exact Keeps.refl _
    | with_reducible assumption
    | with_reducible apply Keeps.trans ?_ keeps_onHost

theorem keeps_onFn {k : Nat} {f : FnSt → FnSt} {s : State} : Keeps s (onFn k f s) := by
  unfold onFn
  repeat' first
    | with_reducible exact Keeps.refl _
    | with_reducible assumption
    | with_reducible apply Keeps.trans ?_ keeps_onHost

theorem keeps_addEvent {k : Nat} {e : EvRec} {s : State} : Keeps s (addEvent k e s) := by
  unfold addEvent
  repeat' first
    | with_reducible exact Keeps.refl _
    | with_reducible assumption
    | with_reducible apply Keeps.trans ?_ (keeps_onFn)

theorem keeps_eventHead {h : Nat} {e : EvRec} {s : State} : Keeps s (eventHead h e s) := by
  unfold eventHead
  repeat' first
    | with_reducible exact Keeps.refl _
    | with_reducible assumption
    | with_reducible apply Keeps.trans ?_ (keeps_addEvent)
    | with_reducible apply Keeps.trans ?_ (Keeps.foldl _ _ ?_)
    | with_reducible apply Keeps.trans ?_ (Keeps.foldl_fst _ _ ?_)
    | with_reducible apply Keeps.trans ?_ (Keeps.foldl_snd _ _ ?_)
    | with_reducible apply Keeps.trans ?_ (Keeps.pairFst (Keeps.foldl_fst _ _ ?_) (by assumption))
    | with_reducible apply Keeps.trans ?_ (Keeps.pair (Keeps.foldl_snd _ _ ?_) (by assumption))
    | with_reducible intro _

theorem keeps_eventAll {e : EvRec} {s : State} : Keeps s (eventAll e s) := by
  unfold eventAll
  repeat' first
    | with_reducible exact Keeps.refl _
    | with_reducible assumption
    | with_reducible apply Keeps.trans ?_ (keeps_eventHead)
    | with_reducible apply Keeps.trans ?_ (Keeps.foldl _ _ ?_)
    | with_reducible apply Keeps.trans ?_ (Keeps.foldl_fst _ _ ?_)
    | with_reducible apply Keeps.trans ?_ (Keeps.foldl_snd _ _ ?_)
    | with_reducible apply Keeps.trans ?_ (Keeps.pairFst (Keeps.foldl_fst _ _ ?_) (by assumption))
    | with_reducible apply Keeps.trans ?_ (Keeps.pair (Keeps.foldl_snd _ _ ?_) (by assumption))
    | with_reducible intro _

theorem keeps_send {h : Nat} {m : LinkMsg} {s : State} : Keeps s (send h m s) := by
  unfold send
  repeat' first
    | with_reducible exact Keeps.refl _
    | with_reducible assumption
    | with_reducible apply Keeps.trans ?_ keeps_onHost
    | with_reducible apply Keeps.trans ?_ (Keeps.foldl _ _ ?_)
    | with_reducible apply Keeps.trans ?_ (Keeps.foldl_fst _ _ ?_)
    | with_reducible apply Keeps.trans ?_ (Keeps.foldl_snd _ _ ?_)
    | with_reducible intro _
    | split

theorem keeps_logSubmit {typ origin : Byte} {source : BitVec 16} {payload : Bytes} {s : State} :
    Keeps s (logSubmit typ origin source payload s) := by
  unfold logSubmit
  extract_lets +onlyGivenNames drops
  clear_value drops
  have h : Keeps s (onLog (logAccept s.time.now typ origin source payload) s) :=
    keeps_onLog (fun h => by rw [logAccept_cells]; exact h)
  split
  · exact h.trans keeps_addCnt
  · exact h

theorem keeps_replaceRequest {src : Nat} {s : State} : Keeps s (replaceRequest src s) := by
  unfold replaceRequest
  repeat' first
    | with_reducible exact Keeps.refl _
    | with_reducible assumption
    | with_reducible apply Keeps.trans ?_ (keeps_onFaults (fun h => h) (fun h => h))
    | with_reducible apply Keeps.trans ?_ (keeps_onFaults (by intro h; first | exact h | rfl | (split <;> first | exact h | rfl)) (by intro h; first | exact h | rfl | (split <;> first | exact h | rfl)))

theorem keeps_replaceDawn {code : Nat} {s : State} : Keeps s (replaceDawn code s) := by
  unfold replaceDawn
  repeat' first
    | with_reducible exact Keeps.refl _
    | with_reducible assumption
    | with_reducible apply Keeps.trans ?_ (keeps_onFaults (fun h => h) (fun h => h))
    | with_reducible apply Keeps.trans ?_ (keeps_onFaults (by intro h; first | exact h | rfl | (split <;> first | exact h | rfl)) (by intro h; first | exact h | rfl | (split <;> first | exact h | rfl)))

theorem keeps_zeroise {s : State} : Keeps s (zeroise s) :=
  keeps_onCry (fun _ _ => rfl)

theorem keeps_stopPorts {s : State} : Keeps s (stopPorts s) := by
  unfold stopPorts
  repeat' first
    | with_reducible exact Keeps.refl _
    | with_reducible assumption
    | with_reducible apply Keeps.trans ?_ (keeps_onPort)
    | with_reducible apply Keeps.trans ?_ (Keeps.foldl _ _ ?_)
    | with_reducible apply Keeps.trans ?_ (Keeps.foldl_fst _ _ ?_)
    | with_reducible apply Keeps.trans ?_ (Keeps.foldl_snd _ _ ?_)
    | with_reducible apply Keeps.trans ?_ (Keeps.pairFst (Keeps.foldl_fst _ _ ?_) (by assumption))
    | with_reducible apply Keeps.trans ?_ (Keeps.pair (Keeps.foldl_snd _ _ ?_) (by assumption))
    | with_reducible intro _

theorem keeps_alarm {sl src : Nat} {c : AlarmCtx} {s : State} : Keeps s (alarm sl src c s) := by
  unfold alarm
  repeat' first
    | with_reducible exact Keeps.refl _
    | with_reducible assumption
    | with_reducible apply Keeps.trans ?_ (keeps_onFaults (fun h => h) (fun h => h))
    | with_reducible apply Keeps.trans ?_ (keeps_onFaults (by intro h; first | exact h | rfl | (split <;> first | exact h | rfl)) (by intro h; first | exact h | rfl | (split <;> first | exact h | rfl)))
    | with_reducible apply Keeps.trans ?_ (keeps_zeroise)
    | with_reducible apply Keeps.trans ?_ (keeps_stopPorts)
    | with_reducible apply Keeps.trans ?_ (keeps_onCry (fun _ h => h))
    | with_reducible apply Keeps.trans ?_ (keeps_onCry ?_)
    | with_reducible apply Keeps.trans ?_ (keeps_logSubmit)
    | (extract_lets +onlyGivenNames x; refine Keeps.use (x := x) ?_ (fun hx => ?_); subst x; rotate_left; clear_value x)
    | (extract_lets +onlyGivenNames x; refine Keeps.useSnd (x := x) ?_ (fun hx => ?_); subst x; rotate_left; clear_value x)
    | (extract_lets +onlyGivenNames x; refine Keeps.useFst (x := x) ?_ (fun hx => ?_); subst x; rotate_left; clear_value x)
    | (extract_lets +onlyGivenNames x; refine Keeps.useThird (x := x) ?_ (fun hx => ?_); subst x; rotate_left; clear_value x)
    | (extract_lets +onlyGivenNames x; have _ := fun a => x a; subst x)
    | (extract_lets +onlyGivenNames x; clear_value x)
    | with_reducible apply Keeps.trans ?_ (Keeps.foldl _ _ ?_)
    | with_reducible apply Keeps.trans ?_ (Keeps.foldl_fst _ _ ?_)
    | with_reducible apply Keeps.trans ?_ (Keeps.foldl_snd _ _ ?_)
    | with_reducible intro _
    | split

theorem keeps_raiseWith {src : Nat} {c : FaultCtx} {a : AlarmCtx} {s : State} : Keeps s (raiseWith src c a s) := by
  unfold raiseWith
  repeat' first
    | with_reducible exact Keeps.refl _
    | with_reducible assumption
    | with_reducible apply Keeps.trans ?_ (keeps_onFaults (fun h => h) (fun h => h))
    | with_reducible apply Keeps.trans ?_ (keeps_onFaults (by intro h; first | exact h | rfl | (split <;> first | exact h | rfl)) (by intro h; first | exact h | rfl | (split <;> first | exact h | rfl)))
    | with_reducible apply Keeps.trans ?_ (keeps_replaceRequest)
    | with_reducible apply Keeps.trans ?_ (keeps_alarm)
    | (extract_lets +onlyGivenNames x; refine Keeps.use (x := x) ?_ (fun hx => ?_); subst x; rotate_left; clear_value x)
    | (extract_lets +onlyGivenNames x; refine Keeps.useSnd (x := x) ?_ (fun hx => ?_); subst x; rotate_left; clear_value x)
    | (extract_lets +onlyGivenNames x; refine Keeps.useFst (x := x) ?_ (fun hx => ?_); subst x; rotate_left; clear_value x)
    | (extract_lets +onlyGivenNames x; refine Keeps.useThird (x := x) ?_ (fun hx => ?_); subst x; rotate_left; clear_value x)
    | (extract_lets +onlyGivenNames x; have _ := fun a => x a; subst x)
    | (extract_lets +onlyGivenNames x; clear_value x)
    | with_reducible apply Keeps.trans ?_ (Keeps.foldl _ _ ?_)
    | with_reducible apply Keeps.trans ?_ (Keeps.foldl_fst _ _ ?_)
    | with_reducible apply Keeps.trans ?_ (Keeps.foldl_snd _ _ ?_)
    | with_reducible intro _
    | split

theorem keeps_raiseTile {t : Nat} {k : TileSrc} {detail : Nat} {s : State} : Keeps s (raiseTile t k detail s) := by
  unfold raiseTile
  repeat' first
    | with_reducible exact Keeps.refl _
    | with_reducible assumption
    | with_reducible apply Keeps.trans ?_ (keeps_raiseWith)

theorem keeps_raiseReq {t : Nat} {k : TileSrc} {addr head kind detail : Nat} {s : State} : Keeps s (raiseReq t k addr head kind detail s) := by
  unfold raiseReq
  repeat' first
    | with_reducible exact Keeps.refl _
    | with_reducible assumption
    | with_reducible apply Keeps.trans ?_ (keeps_raiseWith)

theorem keeps_raiseSv {k : SvSrc} {detail : Nat} {s : State} : Keeps s (raiseSv k detail s) := by
  unfold raiseSv
  repeat' first
    | with_reducible exact Keeps.refl _
    | with_reducible assumption
    | with_reducible apply Keeps.trans ?_ (keeps_raiseWith)

theorem keeps_raiseWorn {old : BitVec 4} {s : State} : Keeps s (raiseWorn old s) := by
  unfold raiseWorn
  repeat' first
    | with_reducible exact Keeps.refl _
    | with_reducible assumption
    | with_reducible apply Keeps.trans ?_ (keeps_raiseSv)
    | with_reducible apply Keeps.trans ?_ (Keeps.foldl _ _ ?_)
    | with_reducible apply Keeps.trans ?_ (Keeps.foldl_fst _ _ ?_)
    | with_reducible apply Keeps.trans ?_ (Keeps.foldl_snd _ _ ?_)
    | with_reducible apply Keeps.trans ?_ (Keeps.pairFst (Keeps.foldl_fst _ _ ?_) (by assumption))
    | with_reducible apply Keeps.trans ?_ (Keeps.pair (Keeps.foldl_snd _ _ ?_) (by assumption))
    | with_reducible intro _
    | split

theorem keeps_primaryLog {typ origin : Byte} {source : BitVec 16} {payload : Bytes} {s : State} : Keeps s (primaryLog typ origin source payload s) := by
  unfold primaryLog
  repeat' first
    | with_reducible exact Keeps.refl _
    | with_reducible assumption
    | with_reducible apply Keeps.trans ?_ (keeps_logSubmit)
    | with_reducible apply Keeps.trans ?_ keeps_onLink
    | with_reducible apply Keeps.trans ?_ (Keeps.foldl _ _ ?_)
    | with_reducible apply Keeps.trans ?_ (Keeps.foldl_fst _ _ ?_)
    | with_reducible apply Keeps.trans ?_ (Keeps.foldl_snd _ _ ?_)
    | with_reducible intro _
    | split

theorem keeps_logReplace {s : State} : Keeps s (logReplace s) := by
  unfold logReplace
  repeat' first
    | with_reducible exact Keeps.refl _
    | with_reducible assumption
    | with_reducible apply Keeps.trans ?_ (keeps_onFaults (fun h => h) (fun h => h))
    | with_reducible apply Keeps.trans ?_ (keeps_onFaults (by intro h; first | exact h | rfl | (split <;> first | exact h | rfl)) (by intro h; first | exact h | rfl | (split <;> first | exact h | rfl)))
    | with_reducible apply Keeps.trans ?_ (keeps_primaryLog)
    | (extract_lets +onlyGivenNames x; refine Keeps.use (x := x) ?_ (fun hx => ?_); subst x; rotate_left; clear_value x)
    | (extract_lets +onlyGivenNames x; refine Keeps.useSnd (x := x) ?_ (fun hx => ?_); subst x; rotate_left; clear_value x)
    | (extract_lets +onlyGivenNames x; refine Keeps.useFst (x := x) ?_ (fun hx => ?_); subst x; rotate_left; clear_value x)
    | (extract_lets +onlyGivenNames x; refine Keeps.useThird (x := x) ?_ (fun hx => ?_); subst x; rotate_left; clear_value x)
    | (extract_lets +onlyGivenNames x; have _ := fun a => x a; subst x)
    | (extract_lets +onlyGivenNames x; clear_value x)
    | with_reducible apply Keeps.trans ?_ (Keeps.foldl _ _ ?_)
    | with_reducible apply Keeps.trans ?_ (Keeps.foldl_fst _ _ ?_)
    | with_reducible apply Keeps.trans ?_ (Keeps.foldl_snd _ _ ?_)
    | with_reducible intro _
    | split

theorem keeps_clearSts {g : Nat} {v raised : W32} {s : State} : Keeps s (clearSts g v raised s) := by
  unfold clearSts
  repeat' first
    | with_reducible exact Keeps.refl _
    | with_reducible assumption
    | with_reducible apply Keeps.trans ?_ (keeps_onFaults (fun h => h) (fun h => h))

theorem keeps_reevaluate {trigger : Nat} {s : State} : Keeps s (reevaluate trigger s) := by
  unfold reevaluate
  repeat' first
    | with_reducible exact Keeps.refl _
    | with_reducible assumption
    | with_reducible apply Keeps.trans ?_ keeps_onQos
    | with_reducible apply Keeps.trans ?_ (Keeps.foldl _ _ ?_)
    | with_reducible apply Keeps.trans ?_ (Keeps.foldl_fst _ _ ?_)
    | with_reducible apply Keeps.trans ?_ (Keeps.foldl_snd _ _ ?_)
    | with_reducible intro _
    | split

theorem keeps_forceRaise {src : Nat} {s : State} : Keeps s (forceRaise src s) := by
  unfold forceRaise
  repeat' first
    | with_reducible exact Keeps.refl _
    | with_reducible assumption
    | with_reducible apply Keeps.trans ?_ (keeps_raiseWith)
    | with_reducible apply Keeps.trans ?_ (keeps_reevaluate)
    | (extract_lets +onlyGivenNames x; refine Keeps.use (x := x) ?_ (fun hx => ?_); subst x; rotate_left; clear_value x)
    | (extract_lets +onlyGivenNames x; refine Keeps.useSnd (x := x) ?_ (fun hx => ?_); subst x; rotate_left; clear_value x)
    | (extract_lets +onlyGivenNames x; refine Keeps.useFst (x := x) ?_ (fun hx => ?_); subst x; rotate_left; clear_value x)
    | (extract_lets +onlyGivenNames x; refine Keeps.useThird (x := x) ?_ (fun hx => ?_); subst x; rotate_left; clear_value x)
    | (extract_lets +onlyGivenNames x; have _ := fun a => x a; subst x)
    | (extract_lets +onlyGivenNames x; clear_value x)
    | with_reducible apply Keeps.trans ?_ (Keeps.foldl _ _ ?_)
    | with_reducible apply Keeps.trans ?_ (Keeps.foldl_fst _ _ ?_)
    | with_reducible apply Keeps.trans ?_ (Keeps.foldl_snd _ _ ?_)
    | with_reducible intro _
    | split

theorem keeps_forceGroup {g : Nat} {v : W32} {s : State} : Keeps s (forceGroup g v s) := by
  unfold forceGroup
  repeat' first
    | with_reducible exact Keeps.refl _
    | with_reducible assumption
    | with_reducible apply Keeps.trans ?_ (keeps_forceRaise)
    | (extract_lets +onlyGivenNames x; refine Keeps.use (x := x) ?_ (fun hx => ?_); subst x; rotate_left; clear_value x)
    | (extract_lets +onlyGivenNames x; refine Keeps.useSnd (x := x) ?_ (fun hx => ?_); subst x; rotate_left; clear_value x)
    | (extract_lets +onlyGivenNames x; refine Keeps.useFst (x := x) ?_ (fun hx => ?_); subst x; rotate_left; clear_value x)
    | (extract_lets +onlyGivenNames x; refine Keeps.useThird (x := x) ?_ (fun hx => ?_); subst x; rotate_left; clear_value x)
    | (extract_lets +onlyGivenNames x; have _ := fun a => x a; subst x)
    | (extract_lets +onlyGivenNames x; clear_value x)
    | with_reducible apply Keeps.trans ?_ (Keeps.foldl _ _ ?_)
    | with_reducible apply Keeps.trans ?_ (Keeps.foldl_fst _ _ ?_)
    | with_reducible apply Keeps.trans ?_ (Keeps.foldl_snd _ _ ?_)
    | with_reducible apply Keeps.trans ?_ (Keeps.pairFst (Keeps.foldl_fst _ _ ?_) (by assumption))
    | with_reducible apply Keeps.trans ?_ (Keeps.pair (Keeps.foldl_snd _ _ ?_) (by assumption))
    | with_reducible intro _
    | split

theorem keeps_writeEn {g : Nat} {v : W32} {s : State} : Keeps s (writeEn g v s) := by
  unfold writeEn
  repeat' first
    | with_reducible exact Keeps.refl _
    | with_reducible assumption
    | with_reducible apply Keeps.trans ?_ (keeps_onFaults (fun h => h) (fun h => h))

theorem keeps_addPoison {dpa len : Nat} {s : State} : Keeps s (addPoison dpa len s) := by
  unfold addPoison
  repeat' first
    | with_reducible exact Keeps.refl _
    | with_reducible assumption
    | with_reducible apply Keeps.trans ?_ keeps_onMap
    | (extract_lets +onlyGivenNames x; refine Keeps.use (x := x) ?_ (fun hx => ?_); subst x; rotate_left; clear_value x)
    | (extract_lets +onlyGivenNames x; refine Keeps.useSnd (x := x) ?_ (fun hx => ?_); subst x; rotate_left; clear_value x)
    | (extract_lets +onlyGivenNames x; refine Keeps.useFst (x := x) ?_ (fun hx => ?_); subst x; rotate_left; clear_value x)
    | (extract_lets +onlyGivenNames x; refine Keeps.useThird (x := x) ?_ (fun hx => ?_); subst x; rotate_left; clear_value x)
    | (extract_lets +onlyGivenNames x; have _ := fun a => x a; subst x)
    | (extract_lets +onlyGivenNames x; clear_value x)
    | with_reducible apply Keeps.trans ?_ (Keeps.foldl _ _ ?_)
    | with_reducible apply Keeps.trans ?_ (Keeps.foldl_fst _ _ ?_)
    | with_reducible apply Keeps.trans ?_ (Keeps.foldl_snd _ _ ?_)
    | with_reducible intro _
    | split

theorem keeps_dropPoison {dpa len : Nat} {s : State} : Keeps s (dropPoison dpa len s) := by
  unfold dropPoison
  repeat' first
    | with_reducible exact Keeps.refl _
    | with_reducible assumption
    | with_reducible apply Keeps.trans ?_ keeps_onMap

theorem keeps_onSub {d : Nat} {f : SubCh → SubCh} {s : State} : Keeps s (onSub d f s) := by
  unfold onSub
  repeat' first
    | with_reducible exact Keeps.refl _
    | with_reducible assumption
    | with_reducible apply Keeps.trans ?_ (keeps_onDram (fun h => h))

theorem keeps_onDimm {t c : Nat} {f : DimmCh → DimmCh} {s : State} : Keeps s (onDimm t c f s) := by
  unfold onDimm
  repeat' first
    | with_reducible exact Keeps.refl _
    | with_reducible assumption
    | with_reducible apply Keeps.trans ?_ (keeps_onDram (fun h => h))

theorem keeps_rfmBank {d k : Nat} {s : State} : Keeps s (rfmBank d k s) := by
  unfold rfmBank
  repeat' first
    | with_reducible exact Keeps.refl _
    | with_reducible assumption
    | with_reducible apply Keeps.trans ?_ (keeps_addCnt)
    | with_reducible apply Keeps.trans ?_ (keeps_onSub)

theorem keeps_payRfm {d : Nat} {s : State} : Keeps s (payRfm d s) := by
  unfold payRfm
  repeat' first
    | with_reducible exact Keeps.refl _
    | with_reducible assumption
    | with_reducible apply Keeps.trans ?_ (keeps_rfmBank)
    | with_reducible apply Keeps.trans ?_ (Keeps.foldl _ _ ?_)
    | with_reducible apply Keeps.trans ?_ (Keeps.foldl_fst _ _ ?_)
    | with_reducible apply Keeps.trans ?_ (Keeps.foldl_snd _ _ ?_)
    | with_reducible apply Keeps.trans ?_ (Keeps.pairFst (Keeps.foldl_fst _ _ ?_) (by assumption))
    | with_reducible apply Keeps.trans ?_ (Keeps.pair (Keeps.foldl_snd _ _ ?_) (by assumption))
    | with_reducible intro _

theorem keeps_access {t f d : Nat} {s : State} : Keeps s (access t f d s) := by
  unfold access
  repeat' first
    | with_reducible exact Keeps.refl _
    | with_reducible assumption
    | with_reducible apply Keeps.trans ?_ (keeps_addCnt)
    | with_reducible apply Keeps.trans ?_ (keeps_onSub)
    | (extract_lets +onlyGivenNames x; refine Keeps.use (x := x) ?_ (fun hx => ?_); subst x; rotate_left; clear_value x)
    | (extract_lets +onlyGivenNames x; refine Keeps.useSnd (x := x) ?_ (fun hx => ?_); subst x; rotate_left; clear_value x)
    | (extract_lets +onlyGivenNames x; refine Keeps.useFst (x := x) ?_ (fun hx => ?_); subst x; rotate_left; clear_value x)
    | (extract_lets +onlyGivenNames x; refine Keeps.useThird (x := x) ?_ (fun hx => ?_); subst x; rotate_left; clear_value x)
    | (extract_lets +onlyGivenNames x; have _ := fun a => x a; subst x)
    | (extract_lets +onlyGivenNames x; clear_value x)
    | with_reducible apply Keeps.trans ?_ (Keeps.foldl _ _ ?_)
    | with_reducible apply Keeps.trans ?_ (Keeps.foldl_fst _ _ ?_)
    | with_reducible apply Keeps.trans ?_ (Keeps.foldl_snd _ _ ?_)
    | with_reducible intro _
    | split

theorem keeps_drIssue {d : Nat} {q : List DrReq} {r : DrReq} {s : State} : Keeps s (drIssue d q r s) := by
  unfold drIssue
  repeat' first
    | with_reducible exact Keeps.refl _
    | with_reducible assumption
    | with_reducible apply Keeps.trans ?_ (keeps_access)
    | with_reducible apply Keeps.trans ?_ (keeps_onSub)

theorem keeps_issueWrite {d : Nat} {r : DrReq} {s : State} : Keeps s (issueWrite d r s) := by
  unfold issueWrite
  repeat' first
    | with_reducible exact Keeps.refl _
    | with_reducible assumption
    | with_reducible apply Keeps.trans ?_ (keeps_addCnt)
    | with_reducible apply Keeps.trans ?_ (keeps_drIssue)
    | with_reducible apply Keeps.trans ?_ (keeps_onSub)

theorem keeps_issueRead {d : Nat} {r : DrReq} {s : State} : Keeps s (issueRead d r s) := by
  unfold issueRead
  repeat' first
    | with_reducible exact Keeps.refl _
    | with_reducible assumption
    | with_reducible apply Keeps.trans ?_ (keeps_addCnt)
    | with_reducible apply Keeps.trans ?_ (keeps_drIssue)
    | with_reducible apply Keeps.trans ?_ (keeps_onSub)

theorem keeps_issueHeld {d : Nat} {s : State} : Keeps s (issueHeld d s) := by
  unfold issueHeld
  repeat' first
    | with_reducible exact Keeps.refl _
    | with_reducible assumption
    | with_reducible apply Keeps.trans ?_ (keeps_issueRead)
    | with_reducible apply Keeps.trans ?_ (keeps_payRfm)
    | with_reducible apply Keeps.trans ?_ (keeps_issueWrite)
    | (extract_lets +onlyGivenNames x; refine Keeps.use (x := x) ?_ (fun hx => ?_); subst x; rotate_left; clear_value x)
    | (extract_lets +onlyGivenNames x; refine Keeps.useSnd (x := x) ?_ (fun hx => ?_); subst x; rotate_left; clear_value x)
    | (extract_lets +onlyGivenNames x; refine Keeps.useFst (x := x) ?_ (fun hx => ?_); subst x; rotate_left; clear_value x)
    | (extract_lets +onlyGivenNames x; refine Keeps.useThird (x := x) ?_ (fun hx => ?_); subst x; rotate_left; clear_value x)
    | (extract_lets +onlyGivenNames x; have _ := fun a => x a; subst x)
    | (extract_lets +onlyGivenNames x; clear_value x)
    | with_reducible apply Keeps.trans ?_ (Keeps.foldl _ _ ?_)
    | with_reducible apply Keeps.trans ?_ (Keeps.foldl_fst _ _ ?_)
    | with_reducible apply Keeps.trans ?_ (Keeps.foldl_snd _ _ ?_)
    | with_reducible apply Keeps.trans ?_ (Keeps.pairFst (Keeps.foldl_fst _ _ ?_) (by assumption))
    | with_reducible apply Keeps.trans ?_ (Keeps.pair (Keeps.foldl_snd _ _ ?_) (by assumption))
    | with_reducible intro _
    | split

theorem keeps_drainFrom {d n : Nat} {a0 : Nat} {a1 : Nat} {s : State} : Keeps s (drainFrom d n a0 a1 s) := by
  induction a0 generalizing a1 s with
  | zero => exact Keeps.refl _
  | succ f ih =>
    unfold drainFrom
    repeat' first
      | with_reducible apply Keeps.trans ?_ ih
      | with_reducible exact Keeps.refl _
      | with_reducible assumption
      | with_reducible apply Keeps.trans ?_ (keeps_onSub)
      | with_reducible apply Keeps.trans ?_ (keeps_payRfm)
      | with_reducible apply Keeps.trans ?_ (keeps_issueWrite)
      | (extract_lets +onlyGivenNames x; refine Keeps.use (x := x) ?_ (fun hx => ?_); subst x; rotate_left; clear_value x)
      | (extract_lets +onlyGivenNames x; refine Keeps.useSnd (x := x) ?_ (fun hx => ?_); subst x; rotate_left; clear_value x)
      | (extract_lets +onlyGivenNames x; refine Keeps.useFst (x := x) ?_ (fun hx => ?_); subst x; rotate_left; clear_value x)
      | (extract_lets +onlyGivenNames x; refine Keeps.useThird (x := x) ?_ (fun hx => ?_); subst x; rotate_left; clear_value x)
      | (extract_lets +onlyGivenNames x; have _ := fun a => x a; subst x)
      | (extract_lets +onlyGivenNames x; clear_value x)
      | with_reducible apply Keeps.trans ?_ (Keeps.foldl _ _ ?_)
      | with_reducible apply Keeps.trans ?_ (Keeps.foldl_fst _ _ ?_)
      | with_reducible apply Keeps.trans ?_ (Keeps.foldl_snd _ _ ?_)
      | with_reducible intro _
      | split

end Sys2Proof.Machine
end

