-- ==== Sys2Proof/Laws/Keeps2.lean ====
section
/-!
SUPPORT. What the operations of the block keep, part 2: one lemma for each, in the order of their files.
-/
namespace Sys2Proof.Machine

theorem keeps_drainTo {d n : Nat} {s : State} : Keeps s (drainTo d n s) := by
  unfold drainTo
  repeat' first
    | with_reducible exact Keeps.refl _
    | with_reducible assumption
    | with_reducible apply Keeps.trans ?_ (keeps_drainFrom)

theorem keeps_turn {d : Nat} {s : State} : Keeps s (turn d s) := by
  unfold turn
  repeat' first
    | with_reducible exact Keeps.refl _
    | with_reducible assumption
    | with_reducible apply Keeps.trans ?_ (keeps_drainTo)
    | (extract_lets +onlyGivenNames x; refine Keeps.use (x := x) ?_ (fun hx => ?_); subst x; rotate_left; clear_value x)
    | (extract_lets +onlyGivenNames x; refine Keeps.useSnd (x := x) ?_ (fun hx => ?_); subst x; rotate_left; clear_value x)
    | (extract_lets +onlyGivenNames x; refine Keeps.useFst (x := x) ?_ (fun hx => ?_); subst x; rotate_left; clear_value x)
    | (extract_lets +onlyGivenNames x; refine Keeps.useThird (x := x) ?_ (fun hx => ?_); subst x; rotate_left; clear_value x)
    | (extract_lets +onlyGivenNames x; have _ := fun a => x a; subst x)
    | (extract_lets +onlyGivenNames x; clear_value x)
    | with_reducible apply Keeps.trans ?_ (Keeps.foldl _ _ ?_)
    | with_reducible apply Keeps.trans ?_ (Keeps.foldl_fst _ _ ?_)
    | with_reducible apply Keeps.trans ?_ (Keeps.foldl_snd _ _ ?_)
    | with_reducible intro _
    | split

theorem keeps_wake {d : Nat} {s : State} : Keeps s (wake d s) := by
  unfold wake
  repeat' first
    | with_reducible exact Keeps.refl _
    | with_reducible assumption
    | with_reducible apply Keeps.trans ?_ (keeps_onDimm)
    | (extract_lets +onlyGivenNames x; refine Keeps.use (x := x) ?_ (fun hx => ?_); subst x; rotate_left; clear_value x)
    | (extract_lets +onlyGivenNames x; refine Keeps.useSnd (x := x) ?_ (fun hx => ?_); subst x; rotate_left; clear_value x)
    | (extract_lets +onlyGivenNames x; refine Keeps.useFst (x := x) ?_ (fun hx => ?_); subst x; rotate_left; clear_value x)
    | (extract_lets +onlyGivenNames x; refine Keeps.useThird (x := x) ?_ (fun hx => ?_); subst x; rotate_left; clear_value x)
    | (extract_lets +onlyGivenNames x; have _ := fun a => x a; subst x)
    | (extract_lets +onlyGivenNames x; clear_value x)
    | with_reducible apply Keeps.trans ?_ (Keeps.foldl _ _ ?_)
    | with_reducible apply Keeps.trans ?_ (Keeps.foldl_fst _ _ ?_)
    | with_reducible apply Keeps.trans ?_ (Keeps.foldl_snd _ _ ?_)
    | with_reducible intro _
    | split

theorem keeps_drWrite {t f : Nat} {r : Rec} {prio : Nat} {s : State} : Keeps s (drWrite t f r prio s) := by
  unfold drWrite
  repeat' first
    | with_reducible exact Keeps.refl _
    | with_reducible assumption
    | with_reducible apply Keeps.trans ?_ (keeps_onDram (fun h => h))
    | with_reducible apply Keeps.trans ?_ (keeps_onDram (by intro h; apply Table.wf_set; exact h))
    | with_reducible apply Keeps.trans ?_ (keeps_onDram (fun h => Table.wf_mapAll h _))
    | with_reducible apply Keeps.trans ?_ (keeps_wake)
    | with_reducible apply Keeps.trans ?_ (keeps_turn)
    | with_reducible apply Keeps.trans ?_ (keeps_onSub)
    | (extract_lets +onlyGivenNames x; refine Keeps.use (x := x) ?_ (fun hx => ?_); subst x; rotate_left; clear_value x)
    | (extract_lets +onlyGivenNames x; refine Keeps.useSnd (x := x) ?_ (fun hx => ?_); subst x; rotate_left; clear_value x)
    | (extract_lets +onlyGivenNames x; refine Keeps.useFst (x := x) ?_ (fun hx => ?_); subst x; rotate_left; clear_value x)
    | (extract_lets +onlyGivenNames x; refine Keeps.useThird (x := x) ?_ (fun hx => ?_); subst x; rotate_left; clear_value x)
    | (extract_lets +onlyGivenNames x; have _ := fun a => x a; subst x)
    | (extract_lets +onlyGivenNames x; clear_value x)
    | with_reducible apply Keeps.trans ?_ (Keeps.foldl _ _ ?_)
    | with_reducible apply Keeps.trans ?_ (Keeps.foldl_fst _ _ ?_)
    | with_reducible apply Keeps.trans ?_ (Keeps.foldl_snd _ _ ?_)
    | with_reducible intro _
    | split

theorem keeps_drRead {t f prio : Nat} {s : State} : Keeps s (drRead t f prio s) := by
  unfold drRead
  repeat' first
    | with_reducible exact Keeps.refl _
    | with_reducible assumption
    | with_reducible apply Keeps.trans ?_ (keeps_wake)
    | with_reducible apply Keeps.trans ?_ (keeps_onSub)
    | (extract_lets +onlyGivenNames x; refine Keeps.use (x := x) ?_ (fun hx => ?_); subst x; rotate_left; clear_value x)
    | (extract_lets +onlyGivenNames x; refine Keeps.useSnd (x := x) ?_ (fun hx => ?_); subst x; rotate_left; clear_value x)
    | (extract_lets +onlyGivenNames x; refine Keeps.useFst (x := x) ?_ (fun hx => ?_); subst x; rotate_left; clear_value x)
    | (extract_lets +onlyGivenNames x; refine Keeps.useThird (x := x) ?_ (fun hx => ?_); subst x; rotate_left; clear_value x)
    | (extract_lets +onlyGivenNames x; have _ := fun a => x a; subst x)
    | (extract_lets +onlyGivenNames x; clear_value x)
    | with_reducible apply Keeps.trans ?_ (Keeps.foldl _ _ ?_)
    | with_reducible apply Keeps.trans ?_ (Keeps.foldl_fst _ _ ?_)
    | with_reducible apply Keeps.trans ?_ (Keeps.foldl_snd _ _ ?_)
    | with_reducible intro _
    | split

theorem keeps_drServe {d : Nat} {s : State} : Keeps s (drServe d s) := by
  unfold drServe
  repeat' first
    | with_reducible exact Keeps.refl _
    | with_reducible assumption
    | with_reducible apply Keeps.trans ?_ (keeps_payRfm)
    | with_reducible apply Keeps.trans ?_ (keeps_issueRead)
    | (extract_lets +onlyGivenNames x; refine Keeps.use (x := x) ?_ (fun hx => ?_); subst x; rotate_left; clear_value x)
    | (extract_lets +onlyGivenNames x; refine Keeps.useSnd (x := x) ?_ (fun hx => ?_); subst x; rotate_left; clear_value x)
    | (extract_lets +onlyGivenNames x; refine Keeps.useFst (x := x) ?_ (fun hx => ?_); subst x; rotate_left; clear_value x)
    | (extract_lets +onlyGivenNames x; refine Keeps.useThird (x := x) ?_ (fun hx => ?_); subst x; rotate_left; clear_value x)
    | (extract_lets +onlyGivenNames x; have _ := fun a => x a; subst x)
    | (extract_lets +onlyGivenNames x; clear_value x)
    | with_reducible apply Keeps.trans ?_ (Keeps.foldl _ _ ?_)
    | with_reducible apply Keeps.trans ?_ (Keeps.foldl_fst _ _ ?_)
    | with_reducible apply Keeps.trans ?_ (Keeps.foldl_snd _ _ ?_)
    | with_reducible intro _
    | split

theorem keeps_drServeTo {d f : Nat} {a0 : Nat} {s : State} : Keeps s (drServeTo d f a0 s) := by
  induction a0 generalizing s with
  | zero => exact Keeps.refl _
  | succ f ih =>
    unfold drServeTo
    repeat' first
      | with_reducible apply Keeps.trans ?_ ih
      | with_reducible exact Keeps.refl _
      | with_reducible assumption
      | with_reducible apply Keeps.trans ?_ (keeps_drServe)
      | with_reducible apply Keeps.trans ?_ (Keeps.foldl _ _ ?_)
      | with_reducible apply Keeps.trans ?_ (Keeps.foldl_fst _ _ ?_)
      | with_reducible apply Keeps.trans ?_ (Keeps.foldl_snd _ _ ?_)
      | with_reducible intro _
      | split

theorem keeps_drServeAll {d : Nat} {s : State} : Keeps s (drServeAll d s) := by
  unfold drServeAll
  repeat' first
    | with_reducible exact Keeps.refl _
    | with_reducible assumption
    | with_reducible apply Keeps.trans ?_ (keeps_turn)
    | with_reducible apply Keeps.trans ?_ (keeps_drServe)
    | with_reducible apply Keeps.trans ?_ (Keeps.foldl _ _ ?_)
    | with_reducible apply Keeps.trans ?_ (Keeps.foldl_fst _ _ ?_)
    | with_reducible apply Keeps.trans ?_ (Keeps.foldl_snd _ _ ?_)
    | with_reducible apply Keeps.trans ?_ (Keeps.pairFst (Keeps.foldl_fst _ _ ?_) (by assumption))
    | with_reducible apply Keeps.trans ?_ (Keeps.pair (Keeps.foldl_snd _ _ ?_) (by assumption))
    | with_reducible intro _

theorem keeps_drTake {t f : Nat} {s : State} : Keeps s (drTake t f s) := by
  unfold drTake
  repeat' first
    | with_reducible exact Keeps.refl _
    | with_reducible assumption
    | with_reducible apply Keeps.trans ?_ (keeps_turn)
    | with_reducible apply Keeps.trans ?_ (keeps_onSub)
    | with_reducible apply Keeps.trans ?_ (keeps_drServeTo)
    | with_reducible apply Keeps.trans ?_ (Keeps.foldl _ _ ?_)
    | with_reducible apply Keeps.trans ?_ (Keeps.foldl_fst _ _ ?_)
    | with_reducible apply Keeps.trans ?_ (Keeps.foldl_snd _ _ ?_)
    | with_reducible intro _
    | split

theorem keeps_drDrop {t f : Nat} {s : State} : Keeps s (drDrop t f s) := by
  unfold drDrop
  repeat' first
    | with_reducible exact Keeps.refl _
    | with_reducible assumption
    | with_reducible apply Keeps.trans ?_ (keeps_turn)
    | with_reducible apply Keeps.trans ?_ (keeps_onSub)
    | with_reducible apply Keeps.trans ?_ (Keeps.foldl _ _ ?_)
    | with_reducible apply Keeps.trans ?_ (Keeps.foldl_fst _ _ ?_)
    | with_reducible apply Keeps.trans ?_ (Keeps.foldl_snd _ _ ?_)
    | with_reducible intro _
    | split

theorem keeps_countCe {d n : Nat} {s : State} : Keeps s (countCe d n s) := by
  unfold countCe
  repeat' first
    | with_reducible exact Keeps.refl _
    | with_reducible assumption
    | with_reducible apply Keeps.trans ?_ (keeps_addCnt)
    | with_reducible apply Keeps.trans ?_ (keeps_onSub)
    | with_reducible apply Keeps.trans ?_ (keeps_raiseTile)
    | (extract_lets +onlyGivenNames x; refine Keeps.use (x := x) ?_ (fun hx => ?_); subst x; rotate_left; clear_value x)
    | (extract_lets +onlyGivenNames x; refine Keeps.useSnd (x := x) ?_ (fun hx => ?_); subst x; rotate_left; clear_value x)
    | (extract_lets +onlyGivenNames x; refine Keeps.useFst (x := x) ?_ (fun hx => ?_); subst x; rotate_left; clear_value x)
    | (extract_lets +onlyGivenNames x; refine Keeps.useThird (x := x) ?_ (fun hx => ?_); subst x; rotate_left; clear_value x)
    | (extract_lets +onlyGivenNames x; have _ := fun a => x a; subst x)
    | (extract_lets +onlyGivenNames x; clear_value x)
    | with_reducible apply Keeps.trans ?_ (Keeps.foldl _ _ ?_)
    | with_reducible apply Keeps.trans ?_ (Keeps.foldl_fst _ _ ?_)
    | with_reducible apply Keeps.trans ?_ (Keeps.foldl_snd _ _ ?_)
    | with_reducible intro _
    | split

theorem keeps_countUe {d n : Nat} {s : State} : Keeps s (countUe d n s) := by
  unfold countUe
  repeat' first
    | with_reducible exact Keeps.refl _
    | with_reducible assumption
    | with_reducible apply Keeps.trans ?_ (keeps_addCnt)
    | with_reducible apply Keeps.trans ?_ (keeps_onSub)
    | with_reducible apply Keeps.trans ?_ (keeps_raiseTile)
    | (extract_lets +onlyGivenNames x; refine Keeps.use (x := x) ?_ (fun hx => ?_); subst x; rotate_left; clear_value x)
    | (extract_lets +onlyGivenNames x; refine Keeps.useSnd (x := x) ?_ (fun hx => ?_); subst x; rotate_left; clear_value x)
    | (extract_lets +onlyGivenNames x; refine Keeps.useFst (x := x) ?_ (fun hx => ?_); subst x; rotate_left; clear_value x)
    | (extract_lets +onlyGivenNames x; refine Keeps.useThird (x := x) ?_ (fun hx => ?_); subst x; rotate_left; clear_value x)
    | (extract_lets +onlyGivenNames x; have _ := fun a => x a; subst x)
    | (extract_lets +onlyGivenNames x; clear_value x)
    | with_reducible apply Keeps.trans ?_ (Keeps.foldl _ _ ?_)
    | with_reducible apply Keeps.trans ?_ (Keeps.foldl_fst _ _ ?_)
    | with_reducible apply Keeps.trans ?_ (Keeps.foldl_snd _ _ ?_)
    | with_reducible intro _
    | split

theorem keeps_putPlace {p : Nat} {v : Place} {s : State} : Keeps s (putPlace p v s) := by
  unfold putPlace
  repeat' first
    | with_reducible exact Keeps.refl _
    | with_reducible assumption
    | with_reducible apply Keeps.trans ?_ keeps_onPlace

theorem keeps_setMove {p : Nat} {m : Option Move} {s : State} : Keeps s (setMove p m s) := by
  unfold setMove
  repeat' first
    | with_reducible exact Keeps.refl _
    | with_reducible assumption
    | with_reducible apply Keeps.trans ?_ keeps_onTier

theorem keeps_onNl {n : Nat} {f : NLink → NLink} {s : State} : Keeps s (onNl n f s) := by
  unfold onNl
  repeat' first
    | with_reducible exact Keeps.refl _
    | with_reducible assumption
    | with_reducible apply Keeps.trans ?_ keeps_onNvm

theorem keeps_putPlaceLine {t k : Nat} {d : Line} {s : State} : Keeps s (putPlaceLine t k d s) := by
  unfold putPlaceLine
  repeat' first
    | with_reducible exact Keeps.refl _
    | with_reducible assumption
    | with_reducible apply Keeps.trans ?_ (keeps_putPlace)
    | with_reducible apply Keeps.trans ?_ (Keeps.foldl _ _ ?_)
    | with_reducible apply Keeps.trans ?_ (Keeps.foldl_fst _ _ ?_)
    | with_reducible apply Keeps.trans ?_ (Keeps.foldl_snd _ _ ?_)
    | with_reducible apply Keeps.trans ?_ (Keeps.pairFst (Keeps.foldl_fst _ _ ?_) (by assumption))
    | with_reducible apply Keeps.trans ?_ (Keeps.pair (Keeps.foldl_snd _ _ ?_) (by assumption))
    | with_reducible intro _
    | split

theorem keeps_nlSubmit {n : Nat} {q : NReq} {s : State} : Keeps s (nlSubmit n q s) := by
  unfold nlSubmit
  repeat' first
    | with_reducible exact Keeps.refl _
    | with_reducible assumption
    | with_reducible apply Keeps.trans ?_ (keeps_onNl)

theorem keeps_nlReplay {n : Nat} {s : State} : Keeps s (nlReplay n s) := by
  unfold nlReplay
  repeat' first
    | with_reducible exact Keeps.refl _
    | with_reducible assumption
    | with_reducible apply Keeps.trans ?_ (keeps_addCnt)
    | with_reducible apply Keeps.trans ?_ (keeps_onNl)

theorem keeps_recvFlit {n typ : Nat} {flit : Bytes} {s : State} : Keeps s (recvFlit n typ flit s) := by
  unfold recvFlit
  repeat' first
    | with_reducible exact Keeps.refl _
    | with_reducible assumption
    | with_reducible apply Keeps.trans ?_ (keeps_onNl)
    | with_reducible apply Keeps.trans ?_ (keeps_nlReplay)
    | (extract_lets +onlyGivenNames x; refine Keeps.use (x := x) ?_ (fun hx => ?_); subst x; rotate_left; clear_value x)
    | (extract_lets +onlyGivenNames x; refine Keeps.useSnd (x := x) ?_ (fun hx => ?_); subst x; rotate_left; clear_value x)
    | (extract_lets +onlyGivenNames x; refine Keeps.useFst (x := x) ?_ (fun hx => ?_); subst x; rotate_left; clear_value x)
    | (extract_lets +onlyGivenNames x; refine Keeps.useThird (x := x) ?_ (fun hx => ?_); subst x; rotate_left; clear_value x)
    | (extract_lets +onlyGivenNames x; have _ := fun a => x a; subst x)
    | (extract_lets +onlyGivenNames x; clear_value x)
    | with_reducible apply Keeps.trans ?_ (Keeps.foldl _ _ ?_)
    | with_reducible apply Keeps.trans ?_ (Keeps.foldl_fst _ _ ?_)
    | with_reducible apply Keeps.trans ?_ (Keeps.foldl_snd _ _ ?_)
    | with_reducible intro _
    | split

theorem keeps_takeMsg {n opc : Nat} {s : State} {m : NMsg} {t : State} (h : takeMsg n opc s = some (m, t)) : Keeps s t := by
  unfold takeMsg at h
  obtain ⟨x, -, hx⟩ := Option.map_eq_some_iff.1 h
  cases hx
  exact keeps_onNl

theorem keeps_takeReq {n tag : Nat} {s : State} : Keeps s (takeReq n tag s).2 := by
  unfold takeReq
  repeat' first
    | with_reducible exact Keeps.refl _
    | with_reducible assumption
    | with_reducible apply Keeps.trans ?_ (keeps_onNl)

theorem keeps_cachePut {t : Item} {d : Line} {dirty : Bool} {s : State} : Keeps s (cachePut t d dirty s) := by
  unfold cachePut
  repeat' first
    | with_reducible exact Keeps.refl _
    | with_reducible assumption
    | with_reducible apply Keeps.trans ?_ (keeps_onCry (fun _ h => h))

theorem keeps_setEntryWith {fetch : Item → State → State} {t : Item} {d : Line} {s : State} (h_fetch : ∀ x0 s, Keeps s (fetch x0 s)) : Keeps s (setEntryWith fetch t d s) := by
  unfold setEntryWith
  repeat' first
    | with_reducible exact Keeps.refl _
    | with_reducible assumption
    | with_reducible apply Keeps.trans ?_ (h_fetch _ _ )
    | with_reducible apply Keeps.trans ?_ (keeps_onCry (fun _ h => h))
    | with_reducible apply Keeps.trans ?_ (keeps_onCry ?_)
    | with_reducible apply Keeps.trans ?_ (keeps_cachePut)
    | (extract_lets +onlyGivenNames x; refine Keeps.use (x := x) ?_ (fun hx => ?_); subst x; rotate_left; clear_value x)
    | (extract_lets +onlyGivenNames x; refine Keeps.useSnd (x := x) ?_ (fun hx => ?_); subst x; rotate_left; clear_value x)
    | (extract_lets +onlyGivenNames x; refine Keeps.useFst (x := x) ?_ (fun hx => ?_); subst x; rotate_left; clear_value x)
    | (extract_lets +onlyGivenNames x; refine Keeps.useThird (x := x) ?_ (fun hx => ?_); subst x; rotate_left; clear_value x)
    | (extract_lets +onlyGivenNames x; have _ := fun a => x a; subst x)
    | (extract_lets +onlyGivenNames x; clear_value x)
    | with_reducible apply Keeps.trans ?_ (Keeps.foldl _ _ ?_)
    | with_reducible apply Keeps.trans ?_ (Keeps.foldl_fst _ _ ?_)
    | with_reducible apply Keeps.trans ?_ (Keeps.foldl_snd _ _ ?_)
    | with_reducible intro _
    | split

theorem keeps_cacheRoom {fetch : Item → State → State} {keep : List Nat} {t : Item} {s : State} (h_fetch : ∀ x0 s, Keeps s (fetch x0 s)) : Keeps s (cacheRoom fetch keep t s) := by
  unfold cacheRoom
  repeat' first
    | with_reducible exact Keeps.refl _
    | with_reducible assumption
    | with_reducible apply Keeps.trans ?_ (h_fetch _ _ )
    | with_reducible apply Keeps.trans ?_ keeps_takeFree
    | with_reducible apply Keeps.trans ?_ (keeps_onCry (fun _ h => h))
    | with_reducible apply Keeps.trans ?_ (keeps_onCry ?_)
    | with_reducible apply Keeps.trans ?_ (keeps_setEntryWith ?_)
    | (extract_lets +onlyGivenNames x; refine Keeps.use (x := x) ?_ (fun hx => ?_); subst x; rotate_left; clear_value x)
    | (extract_lets +onlyGivenNames x; refine Keeps.useSnd (x := x) ?_ (fun hx => ?_); subst x; rotate_left; clear_value x)
    | (extract_lets +onlyGivenNames x; refine Keeps.useFst (x := x) ?_ (fun hx => ?_); subst x; rotate_left; clear_value x)
    | (extract_lets +onlyGivenNames x; refine Keeps.useThird (x := x) ?_ (fun hx => ?_); subst x; rotate_left; clear_value x)
    | (extract_lets +onlyGivenNames x; have _ := fun a => x a; subst x)
    | (extract_lets +onlyGivenNames x; clear_value x)
    | with_reducible apply Keeps.trans ?_ (Keeps.foldl _ _ ?_)
    | with_reducible apply Keeps.trans ?_ (Keeps.foldl_fst _ _ ?_)
    | with_reducible apply Keeps.trans ?_ (Keeps.foldl_snd _ _ ?_)
    | with_reducible intro _
    | split

theorem keeps_chainVerif {c : CLoc} {bad : Option Nat} {s : State} : Keeps s (chainVerif c bad s) := by
  unfold chainVerif
  repeat' first
    | with_reducible exact Keeps.refl _
    | with_reducible assumption
    | with_reducible apply Keeps.trans ?_ (keeps_onCry (fun _ h => h))
    | with_reducible apply Keeps.trans ?_ (keeps_onCry ?_)
    | with_reducible apply Keeps.trans ?_ (Keeps.foldl _ _ ?_)
    | with_reducible apply Keeps.trans ?_ (Keeps.foldl_fst _ _ ?_)
    | with_reducible apply Keeps.trans ?_ (Keeps.foldl_snd _ _ ?_)
    | with_reducible intro _
    | split

theorem keeps_fetchItem {c : CLoc} {a0 : Nat} {a1 : List Nat} {a2 : Item} {s : State} : Keeps s (fetchItem c a0 a1 a2 s) := by
  induction a0 generalizing a1 a2 s with
  | zero => exact keeps_cachePut
  | succ f ih =>
    unfold fetchItem
    repeat' first
      | with_reducible apply Keeps.trans ?_ ih
      | with_reducible exact Keeps.refl _
      | with_reducible assumption
      | with_reducible apply Keeps.trans ?_ (keeps_cachePut)
      | with_reducible apply Keeps.trans ?_ (keeps_cacheRoom ?_)
      | with_reducible apply Keeps.trans ?_ (keeps_chainVerif)
      | (extract_lets +onlyGivenNames x; refine Keeps.use (x := x) ?_ (fun hx => ?_); subst x; rotate_left; clear_value x)
      | (extract_lets +onlyGivenNames x; refine Keeps.useSnd (x := x) ?_ (fun hx => ?_); subst x; rotate_left; clear_value x)
      | (extract_lets +onlyGivenNames x; refine Keeps.useFst (x := x) ?_ (fun hx => ?_); subst x; rotate_left; clear_value x)
      | (extract_lets +onlyGivenNames x; refine Keeps.useThird (x := x) ?_ (fun hx => ?_); subst x; rotate_left; clear_value x)
      | (extract_lets +onlyGivenNames x; have _ := fun a => x a; subst x)
      | (extract_lets +onlyGivenNames x; clear_value x)
      | with_reducible apply Keeps.trans ?_ (Keeps.foldl _ _ ?_)
      | with_reducible apply Keeps.trans ?_ (Keeps.foldl_fst _ _ ?_)
      | with_reducible apply Keeps.trans ?_ (Keeps.foldl_snd _ _ ?_)
      | with_reducible apply Keeps.trans ?_ (Keeps.pairFst (Keeps.foldl_fst _ _ ?_) (by assumption))
      | with_reducible apply Keeps.trans ?_ (Keeps.pair (Keeps.foldl_snd _ _ ?_) (by assumption))
      | with_reducible intro _
      | split

theorem keeps_cacheFill {c : CLoc} {s : State} : Keeps s (cacheFill c s) := by
  unfold cacheFill
  repeat' first
    | with_reducible exact Keeps.refl _
    | with_reducible assumption
    | with_reducible apply Keeps.trans ?_ (keeps_addCnt)
    | with_reducible apply Keeps.trans ?_ (keeps_fetchItem)
    | with_reducible apply Keeps.trans ?_ (Keeps.foldl _ _ ?_)
    | with_reducible apply Keeps.trans ?_ (Keeps.foldl_fst _ _ ?_)
    | with_reducible apply Keeps.trans ?_ (Keeps.foldl_snd _ _ ?_)
    | with_reducible intro _
    | split

theorem keeps_setEntry {c : CLoc} {d : Line} {s : State} : Keeps s (setEntry c d s) := by
  unfold setEntry
  repeat' first
    | with_reducible exact Keeps.refl _
    | with_reducible assumption
    | with_reducible apply Keeps.trans ?_ (keeps_setEntryWith ?_)
    | with_reducible apply Keeps.trans ?_ (keeps_fetchItem)
    | with_reducible apply Keeps.trans ?_ (Keeps.foldl _ _ ?_)
    | with_reducible apply Keeps.trans ?_ (Keeps.foldl_fst _ _ ?_)
    | with_reducible apply Keeps.trans ?_ (Keeps.foldl_snd _ _ ?_)
    | with_reducible intro _

theorem keeps_setTag {c : CLoc} {tag : Nat} {s : State} : Keeps s (setTag c tag s) := by
  unfold setTag
  repeat' first
    | with_reducible exact Keeps.refl _
    | with_reducible assumption
    | with_reducible apply Keeps.trans ?_ (keeps_onCry (fun _ h => h))

theorem keeps_putCounter {c : CLoc} {d : Line} {s : State} : Keeps s (putCounter c d s) := by
  unfold putCounter
  repeat' first
    | with_reducible exact Keeps.refl _
    | with_reducible assumption
    | with_reducible apply Keeps.trans ?_ (keeps_cacheFill)
    | with_reducible apply Keeps.trans ?_ (keeps_cachePut)
    | with_reducible apply Keeps.trans ?_ (keeps_onCry (fun _ h => h))
    | with_reducible apply Keeps.trans ?_ (keeps_onCry ?_)
    | with_reducible apply Keeps.trans ?_ (keeps_setEntry)

theorem keeps_encryptLine {c : CLoc} {k : BitVec 12} {v : Nat} {plain : Line} {s : State} : Keeps s (encryptLine c k v plain s).2 := by
  unfold encryptLine
  repeat' first
    | with_reducible exact Keeps.refl _
    | with_reducible assumption
    | with_reducible apply Keeps.trans ?_ (keeps_setTag)
    | (extract_lets +onlyGivenNames x; refine Keeps.use (x := x) ?_ (fun hx => ?_); subst x; rotate_left; clear_value x)
    | (extract_lets +onlyGivenNames x; refine Keeps.useSnd (x := x) ?_ (fun hx => ?_); subst x; rotate_left; clear_value x)
    | (extract_lets +onlyGivenNames x; refine Keeps.useFst (x := x) ?_ (fun hx => ?_); subst x; rotate_left; clear_value x)
    | (extract_lets +onlyGivenNames x; refine Keeps.useThird (x := x) ?_ (fun hx => ?_); subst x; rotate_left; clear_value x)
    | (extract_lets +onlyGivenNames x; have _ := fun a => x a; subst x)
    | (extract_lets +onlyGivenNames x; clear_value x)
    | with_reducible apply Keeps.trans ?_ (Keeps.foldl _ _ ?_)
    | with_reducible apply Keeps.trans ?_ (Keeps.foldl_fst _ _ ?_)
    | with_reducible apply Keeps.trans ?_ (Keeps.foldl_snd _ _ ?_)
    | with_reducible intro _
    | split

theorem keeps_startVerif {c : CLoc} {k : BitVec 12} {v : Nat} {ct : Line} {s : State} : Keeps s (startVerif c k v ct s) := by
  unfold startVerif
  repeat' first
    | with_reducible exact Keeps.refl _
    | with_reducible assumption
    | with_reducible apply Keeps.trans ?_ (keeps_onCry (fun _ h => h))

theorem keeps_failCheck {tile region addr : Nat} {isSa : Bool} {badLevel : Option Nat} {s : State} : Keeps s (failCheck tile region addr isSa badLevel s) := by
  unfold failCheck
  repeat' first
    | with_reducible exact Keeps.refl _
    | with_reducible assumption
    | with_reducible apply Keeps.trans ?_ (keeps_raiseWith)
    | (extract_lets +onlyGivenNames x; refine Keeps.use (x := x) ?_ (fun hx => ?_); subst x; rotate_left; clear_value x)
    | (extract_lets +onlyGivenNames x; refine Keeps.useSnd (x := x) ?_ (fun hx => ?_); subst x; rotate_left; clear_value x)
    | (extract_lets +onlyGivenNames x; refine Keeps.useFst (x := x) ?_ (fun hx => ?_); subst x; rotate_left; clear_value x)
    | (extract_lets +onlyGivenNames x; refine Keeps.useThird (x := x) ?_ (fun hx => ?_); subst x; rotate_left; clear_value x)
    | (extract_lets +onlyGivenNames x; have _ := fun a => x a; subst x)
    | (extract_lets +onlyGivenNames x; clear_value x)
    | with_reducible apply Keeps.trans ?_ (Keeps.foldl _ _ ?_)
    | with_reducible apply Keeps.trans ?_ (Keeps.foldl_fst _ _ ?_)
    | with_reducible apply Keeps.trans ?_ (Keeps.foldl_snd _ _ ?_)
    | with_reducible intro _
    | split

theorem keeps_markDamaged {t : Item} {s : State} : Keeps s (markDamaged t s) := by
  unfold markDamaged
  repeat' first
    | with_reducible exact Keeps.refl _
    | with_reducible assumption
    | with_reducible apply Keeps.trans ?_ (keeps_onCry (fun _ h => h))
    | with_reducible apply Keeps.trans ?_ (keeps_onCry ?_)
    | with_reducible apply Keeps.trans ?_ (Keeps.foldl _ _ ?_)
    | with_reducible apply Keeps.trans ?_ (Keeps.foldl_fst _ _ ?_)
    | with_reducible apply Keeps.trans ?_ (Keeps.foldl_snd _ _ ?_)
    | with_reducible intro _
    | split

theorem keeps_onBlk {n pkg b : Nat} {f : Blk → Blk} {s : State} : Keeps s (onBlk n pkg b f s) := by
  unfold onBlk
  repeat' first
    | with_reducible exact Keeps.refl _
    | with_reducible assumption
    | with_reducible apply Keeps.trans ?_ keeps_onNvm

theorem keeps_onRot {n pkg r : Nat} {f : Rot → Rot} {s : State} : Keeps s (onRot n pkg r f s) := by
  unfold onRot
  repeat' first
    | with_reducible exact Keeps.refl _
    | with_reducible assumption
    | with_reducible apply Keeps.trans ?_ keeps_onNvm

theorem keeps_setArrived {kind t frame i : Nat} {v : Option Bytes} {n : Nat} {medium : Bool} {s : State} : Keeps s (setArrived kind t frame i v n medium s) := by
  unfold setArrived
  repeat' first
    | with_reducible exact Keeps.refl _
    | with_reducible assumption
    | with_reducible apply Keeps.trans ?_ keeps_onNvm

theorem keeps_setWork {w : Nat} {v : Option Work} {s : State} : Keeps s (setWork w v s) := by
  unfold setWork
  repeat' first
    | with_reducible exact Keeps.refl _
    | with_reducible assumption
    | with_reducible apply Keeps.trans ?_ keeps_onNvm

theorem keeps_setOp {w : Nat} {v : Option BlkOp} {s : State} : Keeps s (setOp w v s) := by
  unfold setOp
  repeat' first
    | with_reducible exact Keeps.refl _
    | with_reducible assumption
    | with_reducible apply Keeps.trans ?_ keeps_onNvm

theorem keeps_newId {s : State} : Keeps s (newId s).2 := by
  unfold newId
  repeat' first
    | with_reducible exact Keeps.refl _
    | with_reducible assumption
    | with_reducible apply Keeps.trans ?_ keeps_onNvm

end Sys2Proof.Machine
end

