-- ==== Sys2Proof/Laws/Keeps3.lean ====
section
/-!
SUPPORT. What the operations of the block keep, part 3: one lemma for each, in the order of their files.
-/
namespace Sys2Proof.Machine

theorem keeps_setRefresh {t : Nat} {r : Option Refresh} {s : State} : Keeps s (setRefresh t r s) := by
  unfold setRefresh
  repeat' first
    | with_reducible exact Keeps.refl _
    | with_reducible assumption
    | with_reducible apply Keeps.trans ?_ keeps_onNvm

theorem keeps_unlockLines {ls : List Nat} {s : State} : Keeps s (unlockLines ls s) := by
  unfold unlockLines
  repeat' first
    | with_reducible exact Keeps.refl _
    | with_reducible assumption
    | with_reducible apply Keeps.trans ?_ keeps_onHa

theorem keeps_gotChunk {w pos : Nat} {v : Option (Bytes × Bool)} {s : State} : Keeps s (gotChunk w pos v s) := by
  unfold gotChunk
  repeat' first
    | with_reducible exact Keeps.refl _
    | with_reducible assumption
    | with_reducible apply Keeps.trans ?_ (keeps_setWork)
    | with_reducible apply Keeps.trans ?_ (Keeps.foldl _ _ ?_)
    | with_reducible apply Keeps.trans ?_ (Keeps.foldl_fst _ _ ?_)
    | with_reducible apply Keeps.trans ?_ (Keeps.foldl_snd _ _ ?_)
    | with_reducible intro _
    | split

theorem keeps_readWork {w pos n a : Nat} {s : State} : Keeps s (readWork w pos n a s) := by
  unfold readWork
  repeat' first
    | with_reducible exact Keeps.refl _
    | with_reducible assumption
    | with_reducible apply Keeps.trans ?_ (keeps_gotChunk)
    | with_reducible apply Keeps.trans ?_ (keeps_addCnt)
    | with_reducible apply Keeps.trans ?_ (keeps_nlSubmit)
    | (extract_lets +onlyGivenNames x; refine Keeps.use (x := x) ?_ (fun hx => ?_); subst x; rotate_left; clear_value x)
    | (extract_lets +onlyGivenNames x; refine Keeps.useSnd (x := x) ?_ (fun hx => ?_); subst x; rotate_left; clear_value x)
    | (extract_lets +onlyGivenNames x; refine Keeps.useFst (x := x) ?_ (fun hx => ?_); subst x; rotate_left; clear_value x)
    | (extract_lets +onlyGivenNames x; refine Keeps.useThird (x := x) ?_ (fun hx => ?_); subst x; rotate_left; clear_value x)
    | (extract_lets +onlyGivenNames x; have _ := fun a => x a; subst x)
    | (extract_lets +onlyGivenNames x; clear_value x)
    | with_reducible apply Keeps.trans ?_ (Keeps.foldl _ _ ?_)
    | with_reducible apply Keeps.trans ?_ (Keeps.foldl_fst _ _ ?_)
    | with_reducible apply Keeps.trans ?_ (Keeps.foldl_snd _ _ ?_)
    | with_reducible intro _
    | split

theorem keeps_program {n pkg chunk : Nat} {body : Bytes} {use : NUse} {s : State} : Keeps s (program n pkg chunk body use s) := by
  unfold program
  repeat' first
    | with_reducible exact Keeps.refl _
    | with_reducible assumption
    | with_reducible apply Keeps.trans ?_ (keeps_addCnt)
    | with_reducible apply Keeps.trans ?_ (keeps_nlSubmit)

theorem keeps_startRecon {t g a pos : Nat} {cont : NReq} {reprog : Bool} {s : State} : Keeps s (startRecon t g a pos cont reprog s).2 := by
  unfold startRecon
  repeat' first
    | with_reducible exact Keeps.refl _
    | with_reducible assumption
    | with_reducible apply Keeps.trans ?_ (keeps_newId)
    | with_reducible apply Keeps.trans ?_ (Keeps.pair (keeps_newId) (by assumption))
    | with_reducible apply Keeps.trans ?_ (keeps_setWork)
    | with_reducible apply Keeps.trans ?_ (keeps_readWork)
    | with_reducible apply Keeps.trans ?_ (keeps_gotChunk)
    | (extract_lets +onlyGivenNames x; refine Keeps.use (x := x) ?_ (fun hx => ?_); subst x; rotate_left; clear_value x)
    | (extract_lets +onlyGivenNames x; refine Keeps.useSnd (x := x) ?_ (fun hx => ?_); subst x; rotate_left; clear_value x)
    | (extract_lets +onlyGivenNames x; refine Keeps.useFst (x := x) ?_ (fun hx => ?_); subst x; rotate_left; clear_value x)
    | (extract_lets +onlyGivenNames x; refine Keeps.useThird (x := x) ?_ (fun hx => ?_); subst x; rotate_left; clear_value x)
    | (extract_lets +onlyGivenNames x; have _ := fun a => x a; subst x)
    | (extract_lets +onlyGivenNames x; clear_value x)
    | with_reducible apply Keeps.trans ?_ (Keeps.foldl _ _ ?_)
    | with_reducible apply Keeps.trans ?_ (Keeps.foldl_fst _ _ ?_)
    | with_reducible apply Keeps.trans ?_ (Keeps.foldl_snd _ _ ?_)
    | with_reducible apply Keeps.trans ?_ (Keeps.pairFst (Keeps.foldl_fst _ _ ?_) (by assumption))
    | with_reducible apply Keeps.trans ?_ (Keeps.pair (Keeps.foldl_snd _ _ ?_) (by assumption))
    | with_reducible intro _
    | split

theorem keeps_markStale {t g a : Nat} {s : State} : Keeps s (markStale t g a s) := by
  unfold markStale
  repeat' first
    | with_reducible exact Keeps.refl _
    | with_reducible assumption
    | with_reducible apply Keeps.trans ?_ keeps_onNvm

theorem keeps_pumpWork {w : Nat} {s : State} : Keeps s (pumpWork w s) := by
  unfold pumpWork
  repeat' first
    | with_reducible exact Keeps.refl _
    | with_reducible assumption
    | with_reducible apply Keeps.trans ?_ (keeps_setWork)
    | with_reducible apply Keeps.trans ?_ (keeps_program)
    | with_reducible apply Keeps.trans ?_ (keeps_markStale)
    | (extract_lets +onlyGivenNames x; refine Keeps.use (x := x) ?_ (fun hx => ?_); subst x; rotate_left; clear_value x)
    | (extract_lets +onlyGivenNames x; refine Keeps.useSnd (x := x) ?_ (fun hx => ?_); subst x; rotate_left; clear_value x)
    | (extract_lets +onlyGivenNames x; refine Keeps.useFst (x := x) ?_ (fun hx => ?_); subst x; rotate_left; clear_value x)
    | (extract_lets +onlyGivenNames x; refine Keeps.useThird (x := x) ?_ (fun hx => ?_); subst x; rotate_left; clear_value x)
    | (extract_lets +onlyGivenNames x; have _ := fun a => x a; subst x)
    | (extract_lets +onlyGivenNames x; clear_value x)
    | with_reducible apply Keeps.trans ?_ (Keeps.foldl _ _ ?_)
    | with_reducible apply Keeps.trans ?_ (Keeps.foldl_fst _ _ ?_)
    | with_reducible apply Keeps.trans ?_ (Keeps.foldl_snd _ _ ?_)
    | with_reducible apply Keeps.trans ?_ (Keeps.pairFst (Keeps.foldl_fst _ _ ?_) (by assumption))
    | with_reducible apply Keeps.trans ?_ (Keeps.pair (Keeps.foldl_snd _ _ ?_) (by assumption))
    | with_reducible intro _
    | split

theorem keeps_pumpAll {s : State} : Keeps s (pumpAll s) := by
  unfold pumpAll
  repeat' first
    | with_reducible exact Keeps.refl _
    | with_reducible assumption
    | with_reducible apply Keeps.trans ?_ (keeps_pumpWork)
    | with_reducible apply Keeps.trans ?_ (Keeps.foldl _ _ ?_)
    | with_reducible apply Keeps.trans ?_ (Keeps.foldl_fst _ _ ?_)
    | with_reducible apply Keeps.trans ?_ (Keeps.foldl_snd _ _ ?_)
    | with_reducible apply Keeps.trans ?_ (Keeps.pairFst (Keeps.foldl_fst _ _ ?_) (by assumption))
    | with_reducible apply Keeps.trans ?_ (Keeps.pair (Keeps.foldl_snd _ _ ?_) (by assumption))
    | with_reducible intro _

theorem keeps_setSlot {t frame j : Nat} {v : Option ASlot} {s : State} : Keeps s (setSlot t frame j v s) := by
  unfold setSlot
  repeat' first
    | with_reducible exact Keeps.refl _
    | with_reducible assumption
    | with_reducible apply Keeps.trans ?_ keeps_onNvm

theorem keeps_startDestage {t grp a : Nat} {s : State} : Keeps s (startDestage t grp a s) := by
  unfold startDestage
  repeat' first
    | with_reducible exact Keeps.refl _
    | with_reducible assumption
    | with_reducible apply Keeps.trans ?_ (keeps_setSlot)
    | with_reducible apply Keeps.trans ?_ (keeps_newId)
    | with_reducible apply Keeps.trans ?_ (Keeps.pair (keeps_newId) (by assumption))
    | with_reducible apply Keeps.trans ?_ (keeps_setWork)
    | with_reducible apply Keeps.trans ?_ (keeps_destage)
    | with_reducible apply Keeps.trans ?_ (keeps_readWork)
    | with_reducible apply Keeps.trans ?_ (keeps_gotChunk)
    | (extract_lets +onlyGivenNames x; refine Keeps.use (x := x) ?_ (fun hx => ?_); subst x; rotate_left; clear_value x)
    | (extract_lets +onlyGivenNames x; refine Keeps.useSnd (x := x) ?_ (fun hx => ?_); subst x; rotate_left; clear_value x)
    | (extract_lets +onlyGivenNames x; refine Keeps.useFst (x := x) ?_ (fun hx => ?_); subst x; rotate_left; clear_value x)
    | (extract_lets +onlyGivenNames x; refine Keeps.useThird (x := x) ?_ (fun hx => ?_); subst x; rotate_left; clear_value x)
    | (extract_lets +onlyGivenNames x; have _ := fun a => x a; subst x)
    | (extract_lets +onlyGivenNames x; clear_value x)
    | with_reducible apply Keeps.trans ?_ (Keeps.foldl _ _ ?_)
    | with_reducible apply Keeps.trans ?_ (Keeps.foldl_fst _ _ ?_)
    | with_reducible apply Keeps.trans ?_ (Keeps.foldl_snd _ _ ?_)
    | with_reducible apply Keeps.trans ?_ (Keeps.pairFst (Keeps.foldl_fst _ _ ?_) (by assumption))
    | with_reducible apply Keeps.trans ?_ (Keeps.pair (Keeps.foldl_snd _ _ ?_) (by assumption))
    | with_reducible intro _
    | split

theorem keeps_advanceDestage {w : Nat} {s : State} : Keeps s (advanceDestage w s) := by
  unfold advanceDestage
  repeat' first
    | with_reducible exact Keeps.refl _
    | with_reducible assumption
    | with_reducible apply Keeps.trans ?_ (keeps_destage)
    | with_reducible apply Keeps.trans ?_ (keeps_pumpWork)
    | with_reducible apply Keeps.trans ?_ (keeps_setWork)
    | with_reducible apply Keeps.trans ?_ (Keeps.foldl _ _ ?_)
    | with_reducible apply Keeps.trans ?_ (Keeps.foldl_fst _ _ ?_)
    | with_reducible apply Keeps.trans ?_ (Keeps.foldl_snd _ _ ?_)
    | with_reducible intro _
    | split

theorem keeps_copyChunk {w off : Nat} {b : Bytes} {s : State} : Keeps s (copyChunk w off b s) := by
  unfold copyChunk
  repeat' first
    | with_reducible exact Keeps.refl _
    | with_reducible assumption
    | with_reducible apply Keeps.trans ?_ (keeps_program)
    | with_reducible apply Keeps.trans ?_ (Keeps.foldl _ _ ?_)
    | with_reducible apply Keeps.trans ?_ (Keeps.foldl_fst _ _ ?_)
    | with_reducible apply Keeps.trans ?_ (Keeps.foldl_snd _ _ ?_)
    | with_reducible intro _
    | split

theorem keeps_lostEntry {line : Nat} {s : State} : Keeps s (lostEntry line s) := by
  unfold lostEntry
  repeat' first
    | with_reducible exact Keeps.refl _
    | with_reducible assumption
    | with_reducible apply Keeps.trans ?_ keeps_onHa
    | with_reducible apply Keeps.trans ?_ (Keeps.foldl _ _ ?_)
    | with_reducible apply Keeps.trans ?_ (Keeps.foldl_fst _ _ ?_)
    | with_reducible apply Keeps.trans ?_ (Keeps.foldl_snd _ _ ?_)
    | with_reducible intro _
    | split

theorem keeps_lostWord {line : Nat} {s : State} : Keeps s (lostWord line s) := by
  unfold lostWord
  repeat' first
    | with_reducible exact Keeps.refl _
    | with_reducible assumption
    | with_reducible apply Keeps.trans ?_ (keeps_addPoison)
    | with_reducible apply Keeps.trans ?_ (keeps_lostEntry)

theorem keeps_refreshFix {n pkg chunk : Nat} {b : Bytes} {s : State} : Keeps s (refreshFix n pkg chunk b s).2 := by
  unfold refreshFix
  repeat' first
    | with_reducible exact Keeps.refl _
    | with_reducible assumption
    | with_reducible apply Keeps.trans ?_ (keeps_raiseWith)
    | with_reducible apply Keeps.trans ?_ (keeps_lostWord)
    | with_reducible apply Keeps.trans ?_ (keeps_addPoison)
    | with_reducible apply Keeps.trans ?_ keeps_onNvm
    | with_reducible apply Keeps.trans ?_ (keeps_localBad)
    | (extract_lets +onlyGivenNames x; refine Keeps.use (x := x) ?_ (fun hx => ?_); subst x; rotate_left; clear_value x)
    | (extract_lets +onlyGivenNames x; refine Keeps.useSnd (x := x) ?_ (fun hx => ?_); subst x; rotate_left; clear_value x)
    | (extract_lets +onlyGivenNames x; refine Keeps.useFst (x := x) ?_ (fun hx => ?_); subst x; rotate_left; clear_value x)
    | (extract_lets +onlyGivenNames x; refine Keeps.useThird (x := x) ?_ (fun hx => ?_); subst x; rotate_left; clear_value x)
    | (extract_lets +onlyGivenNames x; have _ := fun a => x a; subst x)
    | (extract_lets +onlyGivenNames x; clear_value x)
    | with_reducible apply Keeps.trans ?_ (Keeps.foldl _ _ ?_)
    | with_reducible apply Keeps.trans ?_ (Keeps.foldl_fst _ _ ?_)
    | with_reducible apply Keeps.trans ?_ (Keeps.foldl_snd _ _ ?_)
    | with_reducible apply Keeps.trans ?_ (Keeps.pairFst (Keeps.foldl_fst _ _ ?_) (by assumption))
    | with_reducible apply Keeps.trans ?_ (Keeps.pair (Keeps.foldl_snd _ _ ?_) (by assumption))
    | with_reducible intro _
    | split

theorem keeps_destage {t g a : Nat} {s : State} : Keeps s (destage t g a s) := by
  unfold destage
  repeat' first
    | with_reducible exact Keeps.refl _
    | with_reducible assumption
    | with_reducible apply Keeps.trans ?_ (keeps_advanceDestage)
    | with_reducible apply Keeps.trans ?_ (keeps_startDestage)

theorem keeps_destageFull {t g a : Nat} {s : State} : Keeps s (destageFull t g a s) := by
  unfold destageFull
  repeat' first
    | with_reducible exact Keeps.refl _
    | with_reducible assumption
    | with_reducible apply Keeps.trans ?_ (keeps_destage)
    | with_reducible apply Keeps.trans ?_ (Keeps.foldl _ _ ?_)
    | with_reducible apply Keeps.trans ?_ (Keeps.foldl_fst _ _ ?_)
    | with_reducible apply Keeps.trans ?_ (Keeps.foldl_snd _ _ ?_)
    | with_reducible intro _
    | split

theorem keeps_markHigh {t : Nat} {s : State} : Keeps s (markHigh t s) := by
  unfold markHigh
  repeat' first
    | with_reducible exact Keeps.refl _
    | with_reducible assumption
    | with_reducible apply Keeps.trans ?_ keeps_onNvm
    | with_reducible apply Keeps.trans ?_ (Keeps.foldl _ _ ?_)
    | with_reducible apply Keeps.trans ?_ (Keeps.foldl_fst _ _ ?_)
    | with_reducible apply Keeps.trans ?_ (Keeps.foldl_snd _ _ ?_)
    | with_reducible intro _
    | split

theorem keeps_openSlot {t frame i : Nat} {s : State} : Keeps s (openSlot t frame i s) := by
  unfold openSlot
  repeat' first
    | with_reducible exact Keeps.refl _
    | with_reducible assumption
    | with_reducible apply Keeps.trans ?_ (keeps_setSlot)
    | with_reducible apply Keeps.trans ?_ (Keeps.foldl _ _ ?_)
    | with_reducible apply Keeps.trans ?_ (Keeps.foldl_fst _ _ ?_)
    | with_reducible apply Keeps.trans ?_ (Keeps.foldl_snd _ _ ?_)
    | with_reducible intro _
    | split

theorem keeps_absStore {t frame i : Nat} {r : Rec} {prio : Nat} {s : State} : Keeps s (absStore t frame i r prio s) := by
  unfold absStore
  repeat' first
    | with_reducible exact Keeps.refl _
    | with_reducible assumption
    | with_reducible apply Keeps.trans ?_ (keeps_drWrite)
    | with_reducible apply Keeps.trans ?_ (keeps_setSlot)
    | with_reducible apply Keeps.trans ?_ keeps_onNvm
    | with_reducible apply Keeps.trans ?_ (keeps_markHigh)
    | with_reducible apply Keeps.trans ?_ (keeps_destageFull)
    | (extract_lets +onlyGivenNames x; refine Keeps.use (x := x) ?_ (fun hx => ?_); subst x; rotate_left; clear_value x)
    | (extract_lets +onlyGivenNames x; refine Keeps.useSnd (x := x) ?_ (fun hx => ?_); subst x; rotate_left; clear_value x)
    | (extract_lets +onlyGivenNames x; refine Keeps.useFst (x := x) ?_ (fun hx => ?_); subst x; rotate_left; clear_value x)
    | (extract_lets +onlyGivenNames x; refine Keeps.useThird (x := x) ?_ (fun hx => ?_); subst x; rotate_left; clear_value x)
    | (extract_lets +onlyGivenNames x; have _ := fun a => x a; subst x)
    | (extract_lets +onlyGivenNames x; clear_value x)
    | with_reducible apply Keeps.trans ?_ (Keeps.foldl _ _ ?_)
    | with_reducible apply Keeps.trans ?_ (Keeps.foldl_fst _ _ ?_)
    | with_reducible apply Keeps.trans ?_ (Keeps.foldl_snd _ _ ?_)
    | with_reducible intro _
    | split

theorem keeps_absWrite {t frame i : Nat} {r : Rec} {prio : Nat} {s : State} : Keeps s (absWrite t frame i r prio s) := by
  unfold absWrite
  repeat' first
    | with_reducible exact Keeps.refl _
    | with_reducible assumption
    | with_reducible apply Keeps.trans ?_ (keeps_raiseBit)
    | with_reducible apply Keeps.trans ?_ keeps_onNvm
    | with_reducible apply Keeps.trans ?_ (keeps_absStore)
    | with_reducible apply Keeps.trans ?_ (keeps_openSlot)
    | (extract_lets +onlyGivenNames x; refine Keeps.use (x := x) ?_ (fun hx => ?_); subst x; rotate_left; clear_value x)
    | (extract_lets +onlyGivenNames x; refine Keeps.useSnd (x := x) ?_ (fun hx => ?_); subst x; rotate_left; clear_value x)
    | (extract_lets +onlyGivenNames x; refine Keeps.useFst (x := x) ?_ (fun hx => ?_); subst x; rotate_left; clear_value x)
    | (extract_lets +onlyGivenNames x; refine Keeps.useThird (x := x) ?_ (fun hx => ?_); subst x; rotate_left; clear_value x)
    | (extract_lets +onlyGivenNames x; have _ := fun a => x a; subst x)
    | (extract_lets +onlyGivenNames x; clear_value x)
    | with_reducible apply Keeps.trans ?_ (Keeps.foldl _ _ ?_)
    | with_reducible apply Keeps.trans ?_ (Keeps.foldl_fst _ _ ?_)
    | with_reducible apply Keeps.trans ?_ (Keeps.foldl_snd _ _ ?_)
    | with_reducible intro _
    | split

theorem keeps_poisonChunk {t frame j n : Nat} {s : State} : Keeps s (poisonChunk t frame j n s) := by
  unfold poisonChunk
  repeat' first
    | with_reducible exact Keeps.refl _
    | with_reducible assumption
    | with_reducible apply Keeps.trans ?_ (keeps_absWrite)
    | with_reducible apply Keeps.trans ?_ (keeps_lostWord)
    | with_reducible apply Keeps.trans ?_ (keeps_raiseWith)
    | (extract_lets +onlyGivenNames x; refine Keeps.use (x := x) ?_ (fun hx => ?_); subst x; rotate_left; clear_value x)
    | (extract_lets +onlyGivenNames x; refine Keeps.useSnd (x := x) ?_ (fun hx => ?_); subst x; rotate_left; clear_value x)
    | (extract_lets +onlyGivenNames x; refine Keeps.useFst (x := x) ?_ (fun hx => ?_); subst x; rotate_left; clear_value x)
    | (extract_lets +onlyGivenNames x; refine Keeps.useThird (x := x) ?_ (fun hx => ?_); subst x; rotate_left; clear_value x)
    | (extract_lets +onlyGivenNames x; have _ := fun a => x a; subst x)
    | (extract_lets +onlyGivenNames x; clear_value x)
    | with_reducible apply Keeps.trans ?_ (Keeps.foldl _ _ ?_)
    | with_reducible apply Keeps.trans ?_ (Keeps.foldl_fst _ _ ?_)
    | with_reducible apply Keeps.trans ?_ (Keeps.foldl_snd _ _ ?_)
    | with_reducible apply Keeps.trans ?_ (Keeps.pairFst (Keeps.foldl_fst _ _ ?_) (by assumption))
    | with_reducible apply Keeps.trans ?_ (Keeps.pair (Keeps.foldl_snd _ _ ?_) (by assumption))
    | with_reducible intro _
    | split

theorem keeps_advanceRebuild {w : Nat} {s : State} : Keeps s (advanceRebuild w s) := by
  unfold advanceRebuild
  repeat' first
    | with_reducible exact Keeps.refl _
    | with_reducible assumption
    | with_reducible apply Keeps.trans ?_ (keeps_pumpWork)
    | with_reducible apply Keeps.trans ?_ (keeps_setWork)
    | with_reducible apply Keeps.trans ?_ (keeps_poisonChunk)
    | (extract_lets +onlyGivenNames x; refine Keeps.use (x := x) ?_ (fun hx => ?_); subst x; rotate_left; clear_value x)
    | (extract_lets +onlyGivenNames x; refine Keeps.useSnd (x := x) ?_ (fun hx => ?_); subst x; rotate_left; clear_value x)
    | (extract_lets +onlyGivenNames x; refine Keeps.useFst (x := x) ?_ (fun hx => ?_); subst x; rotate_left; clear_value x)
    | (extract_lets +onlyGivenNames x; refine Keeps.useThird (x := x) ?_ (fun hx => ?_); subst x; rotate_left; clear_value x)
    | (extract_lets +onlyGivenNames x; have _ := fun a => x a; subst x)
    | (extract_lets +onlyGivenNames x; clear_value x)
    | with_reducible apply Keeps.trans ?_ (Keeps.foldl _ _ ?_)
    | with_reducible apply Keeps.trans ?_ (Keeps.foldl_fst _ _ ?_)
    | with_reducible apply Keeps.trans ?_ (Keeps.foldl_snd _ _ ?_)
    | with_reducible intro _
    | split

theorem keeps_deliver {q : NReq} {n : Nat} {t : Nat} {b : Bytes} {s : State} : Keeps s (deliver q n t b s) := by
  unfold deliver
  repeat' first
    | with_reducible exact Keeps.refl _
    | with_reducible assumption
    | with_reducible apply Keeps.trans ?_ (keeps_setArrived)
    | with_reducible apply Keeps.trans ?_ (keeps_advanceRebuild)
    | with_reducible apply Keeps.trans ?_ (keeps_advanceDestage)
    | with_reducible apply Keeps.trans ?_ (keeps_gotChunk)
    | with_reducible apply Keeps.trans ?_ (keeps_copyChunk)
    | with_reducible apply Keeps.trans ?_ (keeps_refreshFix)
    | with_reducible apply Keeps.trans ?_ (Keeps.pair (keeps_refreshFix) (by assumption))
    | with_reducible apply Keeps.trans ?_ (keeps_program)
    | (extract_lets +onlyGivenNames x; refine Keeps.use (x := x) ?_ (fun hx => ?_); subst x; rotate_left; clear_value x)
    | (extract_lets +onlyGivenNames x; refine Keeps.useSnd (x := x) ?_ (fun hx => ?_); subst x; rotate_left; clear_value x)
    | (extract_lets +onlyGivenNames x; refine Keeps.useFst (x := x) ?_ (fun hx => ?_); subst x; rotate_left; clear_value x)
    | (extract_lets +onlyGivenNames x; refine Keeps.useThird (x := x) ?_ (fun hx => ?_); subst x; rotate_left; clear_value x)
    | (extract_lets +onlyGivenNames x; have _ := fun a => x a; subst x)
    | (extract_lets +onlyGivenNames x; clear_value x)
    | with_reducible apply Keeps.trans ?_ (Keeps.foldl _ _ ?_)
    | with_reducible apply Keeps.trans ?_ (Keeps.foldl_fst _ _ ?_)
    | with_reducible apply Keeps.trans ?_ (Keeps.foldl_snd _ _ ?_)
    | with_reducible intro _
    | split

theorem keeps_deliverLost {q : NReq} {n t frame j : Nat} {data : Bool} {s : State} : Keeps s (deliverLost q n t frame j data s) := by
  unfold deliverLost
  repeat' first
    | with_reducible exact Keeps.refl _
    | with_reducible assumption
    | with_reducible apply Keeps.trans ?_ (keeps_setArrived)
    | with_reducible apply Keeps.trans ?_ (keeps_advanceRebuild)
    | with_reducible apply Keeps.trans ?_ (keeps_gotChunk)
    | with_reducible apply Keeps.trans ?_ (keeps_deliver)
    | (extract_lets +onlyGivenNames x; refine Keeps.use (x := x) ?_ (fun hx => ?_); subst x; rotate_left; clear_value x)
    | (extract_lets +onlyGivenNames x; refine Keeps.useSnd (x := x) ?_ (fun hx => ?_); subst x; rotate_left; clear_value x)
    | (extract_lets +onlyGivenNames x; refine Keeps.useFst (x := x) ?_ (fun hx => ?_); subst x; rotate_left; clear_value x)
    | (extract_lets +onlyGivenNames x; refine Keeps.useThird (x := x) ?_ (fun hx => ?_); subst x; rotate_left; clear_value x)
    | (extract_lets +onlyGivenNames x; have _ := fun a => x a; subst x)
    | (extract_lets +onlyGivenNames x; clear_value x)
    | with_reducible apply Keeps.trans ?_ (Keeps.foldl _ _ ?_)
    | with_reducible apply Keeps.trans ?_ (Keeps.foldl_fst _ _ ?_)
    | with_reducible apply Keeps.trans ?_ (Keeps.foldl_snd _ _ ?_)
    | with_reducible intro _
    | split

theorem keeps_markDue {n pkg b : Nat} {s : State} : Keeps s (markDue n pkg b s) := by
  unfold markDue
  repeat' first
    | with_reducible exact Keeps.refl _
    | with_reducible assumption
    | with_reducible apply Keeps.trans ?_ (keeps_onBlk)

theorem keeps_repairChunk {k : Work} {b : Bytes} {s : State} : Keeps s (repairChunk k b s) := by
  unfold repairChunk
  repeat' first
    | with_reducible exact Keeps.refl _
    | with_reducible assumption
    | with_reducible apply Keeps.trans ?_ (keeps_program)
    | with_reducible apply Keeps.trans ?_ (keeps_markDue)
    | with_reducible apply Keeps.trans ?_ (keeps_addCnt)
    | (extract_lets +onlyGivenNames x; refine Keeps.use (x := x) ?_ (fun hx => ?_); subst x; rotate_left; clear_value x)
    | (extract_lets +onlyGivenNames x; refine Keeps.useSnd (x := x) ?_ (fun hx => ?_); subst x; rotate_left; clear_value x)
    | (extract_lets +onlyGivenNames x; refine Keeps.useFst (x := x) ?_ (fun hx => ?_); subst x; rotate_left; clear_value x)
    | (extract_lets +onlyGivenNames x; refine Keeps.useThird (x := x) ?_ (fun hx => ?_); subst x; rotate_left; clear_value x)
    | (extract_lets +onlyGivenNames x; have _ := fun a => x a; subst x)
    | (extract_lets +onlyGivenNames x; clear_value x)
    | with_reducible apply Keeps.trans ?_ (Keeps.foldl _ _ ?_)
    | with_reducible apply Keeps.trans ?_ (Keeps.foldl_fst _ _ ?_)
    | with_reducible apply Keeps.trans ?_ (Keeps.foldl_snd _ _ ?_)
    | with_reducible intro _
    | split

theorem keeps_finishRecon {w : Nat} {s : State} : Keeps s (finishRecon w s) := by
  unfold finishRecon
  repeat' first
    | with_reducible exact Keeps.refl _
    | with_reducible assumption
    | with_reducible apply Keeps.trans ?_ (keeps_setWork)
    | with_reducible apply Keeps.trans ?_ (keeps_deliver)
    | with_reducible apply Keeps.trans ?_ (keeps_repairChunk)
    | with_reducible apply Keeps.trans ?_ (keeps_deliverLost)
    | with_reducible apply Keeps.trans ?_ (keeps_poisonChunk)
    | (extract_lets +onlyGivenNames x; refine Keeps.use (x := x) ?_ (fun hx => ?_); subst x; rotate_left; clear_value x)
    | (extract_lets +onlyGivenNames x; refine Keeps.useSnd (x := x) ?_ (fun hx => ?_); subst x; rotate_left; clear_value x)
    | (extract_lets +onlyGivenNames x; refine Keeps.useFst (x := x) ?_ (fun hx => ?_); subst x; rotate_left; clear_value x)
    | (extract_lets +onlyGivenNames x; refine Keeps.useThird (x := x) ?_ (fun hx => ?_); subst x; rotate_left; clear_value x)
    | (extract_lets +onlyGivenNames x; have _ := fun a => x a; subst x)
    | (extract_lets +onlyGivenNames x; clear_value x)
    | with_reducible apply Keeps.trans ?_ (Keeps.foldl _ _ ?_)
    | with_reducible apply Keeps.trans ?_ (Keeps.foldl_fst _ _ ?_)
    | with_reducible apply Keeps.trans ?_ (Keeps.foldl_snd _ _ ?_)
    | with_reducible intro _
    | split

theorem keeps_advanceRecon {w : Nat} {s : State} : Keeps s (advanceRecon w s) := by
  unfold advanceRecon
  repeat' first
    | with_reducible exact Keeps.refl _
    | with_reducible assumption
    | with_reducible apply Keeps.trans ?_ (keeps_setWork)
    | with_reducible apply Keeps.trans ?_ (keeps_startRecon)
    | with_reducible apply Keeps.trans ?_ (Keeps.pair (keeps_startRecon) (by assumption))
    | with_reducible apply Keeps.trans ?_ (keeps_finishRecon)
    | (extract_lets +onlyGivenNames x; refine Keeps.use (x := x) ?_ (fun hx => ?_); subst x; rotate_left; clear_value x)
    | (extract_lets +onlyGivenNames x; refine Keeps.useSnd (x := x) ?_ (fun hx => ?_); subst x; rotate_left; clear_value x)
    | (extract_lets +onlyGivenNames x; refine Keeps.useFst (x := x) ?_ (fun hx => ?_); subst x; rotate_left; clear_value x)
    | (extract_lets +onlyGivenNames x; refine Keeps.useThird (x := x) ?_ (fun hx => ?_); subst x; rotate_left; clear_value x)
    | (extract_lets +onlyGivenNames x; have _ := fun a => x a; subst x)
    | (extract_lets +onlyGivenNames x; clear_value x)
    | with_reducible apply Keeps.trans ?_ (Keeps.foldl _ _ ?_)
    | with_reducible apply Keeps.trans ?_ (Keeps.foldl_fst _ _ ?_)
    | with_reducible apply Keeps.trans ?_ (Keeps.foldl_snd _ _ ?_)
    | with_reducible intro _
    | split

theorem keeps_pumpRecon {s : State} : Keeps s (pumpRecon s) := by
  unfold pumpRecon
  repeat' first
    | with_reducible exact Keeps.refl _
    | with_reducible assumption
    | with_reducible apply Keeps.trans ?_ (keeps_advanceRecon)
    | with_reducible apply Keeps.trans ?_ (Keeps.foldl _ _ ?_)
    | with_reducible apply Keeps.trans ?_ (Keeps.foldl_fst _ _ ?_)
    | with_reducible apply Keeps.trans ?_ (Keeps.foldl_snd _ _ ?_)
    | with_reducible apply Keeps.trans ?_ (Keeps.pairFst (Keeps.foldl_fst _ _ ?_) (by assumption))
    | with_reducible apply Keeps.trans ?_ (Keeps.pair (Keeps.foldl_snd _ _ ?_) (by assumption))
    | with_reducible intro _

theorem keeps_reconFor {n : Nat} {q : NReq} {raw : Option Bytes} {reprog : Bool} {s : State} : Keeps s (reconFor n q raw reprog s) := by
  unfold reconFor
  repeat' first
    | with_reducible exact Keeps.refl _
    | with_reducible assumption
    | with_reducible apply Keeps.trans ?_ (keeps_startRecon)
    | with_reducible apply Keeps.trans ?_ (Keeps.pair (keeps_startRecon) (by assumption))
    | with_reducible apply Keeps.trans ?_ (keeps_advanceRecon)
    | with_reducible apply Keeps.trans ?_ (keeps_gotChunk)
    | with_reducible apply Keeps.trans ?_ (keeps_deliver)
    | (extract_lets +onlyGivenNames x; refine Keeps.use (x := x) ?_ (fun hx => ?_); subst x; rotate_left; clear_value x)
    | (extract_lets +onlyGivenNames x; refine Keeps.useSnd (x := x) ?_ (fun hx => ?_); subst x; rotate_left; clear_value x)
    | (extract_lets +onlyGivenNames x; refine Keeps.useFst (x := x) ?_ (fun hx => ?_); subst x; rotate_left; clear_value x)
    | (extract_lets +onlyGivenNames x; refine Keeps.useThird (x := x) ?_ (fun hx => ?_); subst x; rotate_left; clear_value x)
    | (extract_lets +onlyGivenNames x; have _ := fun a => x a; subst x)
    | (extract_lets +onlyGivenNames x; clear_value x)
    | with_reducible apply Keeps.trans ?_ (Keeps.foldl _ _ ?_)
    | with_reducible apply Keeps.trans ?_ (Keeps.foldl_fst _ _ ?_)
    | with_reducible apply Keeps.trans ?_ (Keeps.foldl_snd _ _ ?_)
    | with_reducible intro _
    | split

theorem keeps_nvmAsk {kind t frame i prio : Nat} {s : State} : Keeps s (nvmAsk kind t frame i prio s) := by
  unfold nvmAsk
  repeat' first
    | with_reducible exact Keeps.refl _
    | with_reducible assumption
    | with_reducible apply Keeps.trans ?_ (keeps_setArrived)
    | with_reducible apply Keeps.trans ?_ (keeps_addCnt)
    | with_reducible apply Keeps.trans ?_ (keeps_nlSubmit)
    | with_reducible apply Keeps.trans ?_ (keeps_startRecon)
    | with_reducible apply Keeps.trans ?_ (Keeps.pair (keeps_startRecon) (by assumption))
    | with_reducible apply Keeps.trans ?_ (keeps_advanceRecon)
    | (extract_lets +onlyGivenNames x; refine Keeps.use (x := x) ?_ (fun hx => ?_); subst x; rotate_left; clear_value x)
    | (extract_lets +onlyGivenNames x; refine Keeps.useSnd (x := x) ?_ (fun hx => ?_); subst x; rotate_left; clear_value x)
    | (extract_lets +onlyGivenNames x; refine Keeps.useFst (x := x) ?_ (fun hx => ?_); subst x; rotate_left; clear_value x)
    | (extract_lets +onlyGivenNames x; refine Keeps.useThird (x := x) ?_ (fun hx => ?_); subst x; rotate_left; clear_value x)
    | (extract_lets +onlyGivenNames x; have _ := fun a => x a; subst x)
    | (extract_lets +onlyGivenNames x; clear_value x)
    | with_reducible apply Keeps.trans ?_ (Keeps.foldl _ _ ?_)
    | with_reducible apply Keeps.trans ?_ (Keeps.foldl_fst _ _ ?_)
    | with_reducible apply Keeps.trans ?_ (Keeps.foldl_snd _ _ ?_)
    | with_reducible intro _
    | split

theorem keeps_countBits {n k : Nat} {s : State} : Keeps s (countBits n k s) := by
  unfold countBits
  repeat' first
    | with_reducible exact Keeps.refl _
    | with_reducible assumption
    | with_reducible apply Keeps.trans ?_ (keeps_addCnt)
    | with_reducible apply Keeps.trans ?_ (keeps_onNl)
    | with_reducible apply Keeps.trans ?_ (keeps_raiseTile)
    | (extract_lets +onlyGivenNames x; refine Keeps.use (x := x) ?_ (fun hx => ?_); subst x; rotate_left; clear_value x)
    | (extract_lets +onlyGivenNames x; refine Keeps.useSnd (x := x) ?_ (fun hx => ?_); subst x; rotate_left; clear_value x)
    | (extract_lets +onlyGivenNames x; refine Keeps.useFst (x := x) ?_ (fun hx => ?_); subst x; rotate_left; clear_value x)
    | (extract_lets +onlyGivenNames x; refine Keeps.useThird (x := x) ?_ (fun hx => ?_); subst x; rotate_left; clear_value x)
    | (extract_lets +onlyGivenNames x; have _ := fun a => x a; subst x)
    | (extract_lets +onlyGivenNames x; clear_value x)
    | with_reducible apply Keeps.trans ?_ (Keeps.foldl _ _ ?_)
    | with_reducible apply Keeps.trans ?_ (Keeps.foldl_fst _ _ ?_)
    | with_reducible apply Keeps.trans ?_ (Keeps.foldl_snd _ _ ?_)
    | with_reducible intro _
    | split

theorem keeps_loseGroup {t g : Nat} {s : State} : Keeps s (loseGroup t g s) := by
  unfold loseGroup
  repeat' first
    | with_reducible exact Keeps.refl _
    | with_reducible assumption
    | with_reducible apply Keeps.trans ?_ (keeps_reevaluate)
    | with_reducible apply Keeps.trans ?_ (keeps_raiseTile)
    | with_reducible apply Keeps.trans ?_ keeps_onNvm
    | with_reducible apply Keeps.trans ?_ (Keeps.foldl _ _ ?_)
    | with_reducible apply Keeps.trans ?_ (Keeps.foldl_fst _ _ ?_)
    | with_reducible apply Keeps.trans ?_ (Keeps.foldl_snd _ _ ?_)
    | with_reducible intro _
    | split

theorem keeps_dropReqs {n : Nat} {s : State} : Keeps s (dropReqs n s) := by
  unfold dropReqs
  repeat' first
    | with_reducible exact Keeps.refl _
    | with_reducible assumption
    | with_reducible apply Keeps.trans ?_ (keeps_onNl)
    | with_reducible apply Keeps.trans ?_ (keeps_reconFor)
    | with_reducible apply Keeps.trans ?_ (keeps_setWork)
    | (extract_lets +onlyGivenNames x; refine Keeps.use (x := x) ?_ (fun hx => ?_); subst x; rotate_left; clear_value x)
    | (extract_lets +onlyGivenNames x; refine Keeps.useSnd (x := x) ?_ (fun hx => ?_); subst x; rotate_left; clear_value x)
    | (extract_lets +onlyGivenNames x; refine Keeps.useFst (x := x) ?_ (fun hx => ?_); subst x; rotate_left; clear_value x)
    | (extract_lets +onlyGivenNames x; refine Keeps.useThird (x := x) ?_ (fun hx => ?_); subst x; rotate_left; clear_value x)
    | (extract_lets +onlyGivenNames x; have _ := fun a => x a; subst x)
    | (extract_lets +onlyGivenNames x; clear_value x)
    | with_reducible apply Keeps.trans ?_ (Keeps.foldl _ _ ?_)
    | with_reducible apply Keeps.trans ?_ (Keeps.foldl_fst _ _ ?_)
    | with_reducible apply Keeps.trans ?_ (Keeps.foldl_snd _ _ ?_)
    | with_reducible apply Keeps.trans ?_ (Keeps.pairFst (Keeps.foldl_fst _ _ ?_) (by assumption))
    | with_reducible apply Keeps.trans ?_ (Keeps.pair (Keeps.foldl_snd _ _ ?_) (by assumption))
    | with_reducible intro _
    | split

theorem keeps_restartDestages {t g : Nat} {s : State} : Keeps s (restartDestages t g s) := by
  unfold restartDestages
  repeat' first
    | with_reducible exact Keeps.refl _
    | with_reducible assumption
    | with_reducible apply Keeps.trans ?_ (keeps_destage)
    | with_reducible apply Keeps.trans ?_ (keeps_setSlot)
    | with_reducible apply Keeps.trans ?_ (keeps_setWork)
    | (extract_lets +onlyGivenNames x; refine Keeps.use (x := x) ?_ (fun hx => ?_); subst x; rotate_left; clear_value x)
    | (extract_lets +onlyGivenNames x; refine Keeps.useSnd (x := x) ?_ (fun hx => ?_); subst x; rotate_left; clear_value x)
    | (extract_lets +onlyGivenNames x; refine Keeps.useFst (x := x) ?_ (fun hx => ?_); subst x; rotate_left; clear_value x)
    | (extract_lets +onlyGivenNames x; refine Keeps.useThird (x := x) ?_ (fun hx => ?_); subst x; rotate_left; clear_value x)
    | (extract_lets +onlyGivenNames x; have _ := fun a => x a; subst x)
    | (extract_lets +onlyGivenNames x; clear_value x)
    | with_reducible apply Keeps.trans ?_ (Keeps.foldl _ _ ?_)
    | with_reducible apply Keeps.trans ?_ (Keeps.foldl_fst _ _ ?_)
    | with_reducible apply Keeps.trans ?_ (Keeps.foldl_snd _ _ ?_)
    | with_reducible apply Keeps.trans ?_ (Keeps.pairFst (Keeps.foldl_fst _ _ ?_) (by assumption))
    | with_reducible apply Keeps.trans ?_ (Keeps.pair (Keeps.foldl_snd _ _ ?_) (by assumption))
    | with_reducible intro _
    | split

theorem keeps_endLinkWork {n : Nat} {s : State} : Keeps s (endLinkWork n s) := by
  unfold endLinkWork
  repeat' first
    | with_reducible exact Keeps.refl _
    | with_reducible assumption
    | with_reducible apply Keeps.trans ?_ (keeps_unlockLines)
    | with_reducible apply Keeps.trans ?_ keeps_onNvm

theorem keeps_nlDown {n : Nat} {why : NlReason} {code : Nat} {s : State} : Keeps s (nlDown n why code s) := by
  unfold nlDown
  repeat' first
    | with_reducible exact Keeps.refl _
    | with_reducible assumption
    | with_reducible apply Keeps.trans ?_ (keeps_onNl)
    | with_reducible apply Keeps.trans ?_ (keeps_reevaluate)
    | with_reducible apply Keeps.trans ?_ (keeps_raiseTile)
    | with_reducible apply Keeps.trans ?_ (keeps_loseGroup)
    | with_reducible apply Keeps.trans ?_ keeps_onNvm
    | with_reducible apply Keeps.trans ?_ (keeps_dropReqs)
    | with_reducible apply Keeps.trans ?_ (keeps_endLinkWork)
    | with_reducible apply Keeps.trans ?_ (keeps_pumpRecon)
    | with_reducible apply Keeps.trans ?_ (keeps_pumpAll)
    | with_reducible apply Keeps.trans ?_ (keeps_destageFull)
    | with_reducible apply Keeps.trans ?_ (keeps_restartDestages)
    | (extract_lets +onlyGivenNames x; refine Keeps.use (x := x) ?_ (fun hx => ?_); subst x; rotate_left; clear_value x)
    | (extract_lets +onlyGivenNames x; refine Keeps.useSnd (x := x) ?_ (fun hx => ?_); subst x; rotate_left; clear_value x)
    | (extract_lets +onlyGivenNames x; refine Keeps.useFst (x := x) ?_ (fun hx => ?_); subst x; rotate_left; clear_value x)
    | (extract_lets +onlyGivenNames x; refine Keeps.useThird (x := x) ?_ (fun hx => ?_); subst x; rotate_left; clear_value x)
    | (extract_lets +onlyGivenNames x; have _ := fun a => x a; subst x)
    | (extract_lets +onlyGivenNames x; clear_value x)
    | with_reducible apply Keeps.trans ?_ (Keeps.foldl _ _ ?_)
    | with_reducible apply Keeps.trans ?_ (Keeps.foldl_fst _ _ ?_)
    | with_reducible apply Keeps.trans ?_ (Keeps.foldl_snd _ _ ?_)
    | with_reducible apply Keeps.trans ?_ (Keeps.pairFst (Keeps.foldl_fst _ _ ?_) (by assumption))
    | with_reducible apply Keeps.trans ?_ (Keeps.pair (Keeps.foldl_snd _ _ ?_) (by assumption))
    | with_reducible intro _
    | split

theorem keeps_loseNvmTile {t : Nat} {s : State} : Keeps s (loseNvmTile t s) := by
  unfold loseNvmTile
  repeat' first
    | with_reducible exact Keeps.refl _
    | with_reducible assumption
    | with_reducible apply Keeps.trans ?_ (keeps_loseGroup)
    | with_reducible apply Keeps.trans ?_ (keeps_nlDown)
    | (extract_lets +onlyGivenNames x; refine Keeps.use (x := x) ?_ (fun hx => ?_); subst x; rotate_left; clear_value x)
    | (extract_lets +onlyGivenNames x; refine Keeps.useSnd (x := x) ?_ (fun hx => ?_); subst x; rotate_left; clear_value x)
    | (extract_lets +onlyGivenNames x; refine Keeps.useFst (x := x) ?_ (fun hx => ?_); subst x; rotate_left; clear_value x)
    | (extract_lets +onlyGivenNames x; refine Keeps.useThird (x := x) ?_ (fun hx => ?_); subst x; rotate_left; clear_value x)
    | (extract_lets +onlyGivenNames x; have _ := fun a => x a; subst x)
    | (extract_lets +onlyGivenNames x; clear_value x)
    | with_reducible apply Keeps.trans ?_ (Keeps.foldl _ _ ?_)
    | with_reducible apply Keeps.trans ?_ (Keeps.foldl_fst _ _ ?_)
    | with_reducible apply Keeps.trans ?_ (Keeps.foldl_snd _ _ ?_)
    | with_reducible apply Keeps.trans ?_ (Keeps.pairFst (Keeps.foldl_fst _ _ ?_) (by assumption))
    | with_reducible apply Keeps.trans ?_ (Keeps.pair (Keeps.foldl_snd _ _ ?_) (by assumption))
    | with_reducible intro _
    | split

end Sys2Proof.Machine
end

