-- ==== Sys2Proof/Laws/Keeps4.lean ====
section
/-!
SUPPORT. What the operations of the block keep, part 4: one lemma for each, in the order of their files.
-/
namespace Sys2Proof.Machine

theorem keeps_nextCopy {w : Nat} {s : State} : Keeps s (nextCopy w s) := by
  unfold nextCopy
  repeat' first
    | with_reducible exact Keeps.refl _
    | with_reducible assumption
    | with_reducible apply Keeps.trans ?_ (keeps_setOp)
    | with_reducible apply Keeps.trans ?_ (keeps_copyChunk)
    | with_reducible apply Keeps.trans ?_ (keeps_addCnt)
    | with_reducible apply Keeps.trans ?_ (keeps_nlSubmit)
    | (extract_lets +onlyGivenNames x; refine Keeps.use (x := x) ?_ (fun hx => ?_); subst x; rotate_left; clear_value x)
    | (extract_lets +onlyGivenNames x; refine Keeps.useSnd (x := x) ?_ (fun hx => ?_); subst x; rotate_left; clear_value x)
    | (extract_lets +onlyGivenNames x; refine Keeps.useFst (x := x) ?_ (fun hx => ?_); subst x; rotate_left; clear_value x)
    | (extract_lets +onlyGivenNames x; refine Keeps.useThird (x := x) ?_ (fun hx => ?_); subst x; rotate_left; clear_value x)
    | (extract_lets +onlyGivenNames x; have _ := fun a => x a; subst x)
    | (extract_lets +onlyGivenNames x; clear_value x)
    | with_reducible apply Keeps.trans ?_ (Keeps.foldl _ _ ?_)
    | with_reducible apply Keeps.trans ?_ (Keeps.foldl_fst _ _ ?_)
    | with_reducible apply Keeps.trans ?_ (Keeps.foldl_snd _ _ ?_)
    | with_reducible intro _
    | split

theorem keeps_startRetire {n pkg b : Nat} {failed : Option (Nat × Bytes)} {s : State} : Keeps s (startRetire n pkg b failed s) := by
  unfold startRetire
  repeat' first
    | with_reducible exact Keeps.refl _
    | with_reducible assumption
    | with_reducible apply Keeps.trans ?_ keeps_onNvm
    | with_reducible apply Keeps.trans ?_ (keeps_raiseTile)
    | with_reducible apply Keeps.trans ?_ (keeps_onBlk)
    | with_reducible apply Keeps.trans ?_ (keeps_newId)
    | with_reducible apply Keeps.trans ?_ (Keeps.pair (keeps_newId) (by assumption))
    | with_reducible apply Keeps.trans ?_ (keeps_nextCopy)
    | with_reducible apply Keeps.trans ?_ (keeps_setOp)
    | (extract_lets +onlyGivenNames x; refine Keeps.use (x := x) ?_ (fun hx => ?_); subst x; rotate_left; clear_value x)
    | (extract_lets +onlyGivenNames x; refine Keeps.useSnd (x := x) ?_ (fun hx => ?_); subst x; rotate_left; clear_value x)
    | (extract_lets +onlyGivenNames x; refine Keeps.useFst (x := x) ?_ (fun hx => ?_); subst x; rotate_left; clear_value x)
    | (extract_lets +onlyGivenNames x; refine Keeps.useThird (x := x) ?_ (fun hx => ?_); subst x; rotate_left; clear_value x)
    | (extract_lets +onlyGivenNames x; have _ := fun a => x a; subst x)
    | (extract_lets +onlyGivenNames x; clear_value x)
    | with_reducible apply Keeps.trans ?_ (Keeps.foldl _ _ ?_)
    | with_reducible apply Keeps.trans ?_ (Keeps.foldl_fst _ _ ?_)
    | with_reducible apply Keeps.trans ?_ (Keeps.foldl_snd _ _ ?_)
    | with_reducible intro _
    | split

theorem keeps_pumpRetire {s : State} : Keeps s (pumpRetire s) := by
  unfold pumpRetire
  repeat' first
    | with_reducible exact Keeps.refl _
    | with_reducible assumption
    | with_reducible apply Keeps.trans ?_ (keeps_startRetire)
    | with_reducible apply Keeps.trans ?_ keeps_onNvm
    | with_reducible apply Keeps.trans ?_ (Keeps.foldl _ _ ?_)
    | with_reducible apply Keeps.trans ?_ (Keeps.foldl_fst _ _ ?_)
    | with_reducible apply Keeps.trans ?_ (Keeps.foldl_snd _ _ ?_)
    | with_reducible apply Keeps.trans ?_ (Keeps.pairFst (Keeps.foldl_fst _ _ ?_) (by assumption))
    | with_reducible apply Keeps.trans ?_ (Keeps.pair (Keeps.foldl_snd _ _ ?_) (by assumption))
    | with_reducible intro _
    | split

theorem keeps_pumpLocks {s : State} : Keeps s (pumpLocks s) := by
  unfold pumpLocks
  repeat' first
    | with_reducible exact Keeps.refl _
    | with_reducible assumption
    | with_reducible apply Keeps.trans ?_ (keeps_pumpRetire)
    | with_reducible apply Keeps.trans ?_ (keeps_pumpRecon)
    | with_reducible apply Keeps.trans ?_ (keeps_pumpAll)

theorem keeps_countProgram {n pkg chunk : Nat} {s : State} : Keeps s (countProgram n pkg chunk s) := by
  unfold countProgram
  repeat' first
    | with_reducible exact Keeps.refl _
    | with_reducible assumption
    | with_reducible apply Keeps.trans ?_ (keeps_onBlk)
    | with_reducible apply Keeps.trans ?_ (keeps_onRot)
    | (extract_lets +onlyGivenNames x; refine Keeps.use (x := x) ?_ (fun hx => ?_); subst x; rotate_left; clear_value x)
    | (extract_lets +onlyGivenNames x; refine Keeps.useSnd (x := x) ?_ (fun hx => ?_); subst x; rotate_left; clear_value x)
    | (extract_lets +onlyGivenNames x; refine Keeps.useFst (x := x) ?_ (fun hx => ?_); subst x; rotate_left; clear_value x)
    | (extract_lets +onlyGivenNames x; refine Keeps.useThird (x := x) ?_ (fun hx => ?_); subst x; rotate_left; clear_value x)
    | (extract_lets +onlyGivenNames x; have _ := fun a => x a; subst x)
    | (extract_lets +onlyGivenNames x; clear_value x)
    | with_reducible apply Keeps.trans ?_ (Keeps.foldl _ _ ?_)
    | with_reducible apply Keeps.trans ?_ (Keeps.foldl_fst _ _ ?_)
    | with_reducible apply Keeps.trans ?_ (Keeps.foldl_snd _ _ ?_)
    | with_reducible intro _
    | split

theorem keeps_loseSlots {t d : Nat} {s : State} : Keeps s (loseSlots t d s) := by
  unfold loseSlots
  refine Keeps.foldl _ _ ?_
  intro s e
  extract_lets +onlyGivenNames frame j
  clear_value frame j
  split
  · exact Keeps.refl _
  · extract_lets +onlyGivenNames x
    have hx : Keeps s x := by
      subst x
      refine Keeps.foldl _ _ ?_
      intro s i
      split
      · extract_lets +onlyGivenNames k y
        have hy : Keeps s y := by
          subst y
          with_reducible apply Keeps.trans ?_ (keeps_onDram (by intro h; apply Table.wf_set; exact h))
          exact Keeps.refl _
        clear_value y
        split
        · exact hy.trans keeps_lostWord
        · exact hy
      · exact Keeps.refl _
    clear_value x
    refine Keeps.trans ?_ keeps_raiseTile
    split
    · exact hx.trans keeps_setSlot
    · exact hx.trans keeps_destage

theorem keeps_loseChannel {t c : Nat} {why : SubReason} {code : Nat} {s : State} : Keeps s (loseChannel t c why code s) := by
  unfold loseChannel
  repeat' first
    | with_reducible exact Keeps.refl _
    | with_reducible assumption
    | with_reducible apply Keeps.trans ?_ (keeps_onDimm)
    | with_reducible apply Keeps.trans ?_ (keeps_onSub)
    | with_reducible apply Keeps.trans ?_ (keeps_onDram (fun h => h))
    | with_reducible apply Keeps.trans ?_ (keeps_onDram (by intro h; apply Table.wf_set; exact h))
    | with_reducible apply Keeps.trans ?_ (keeps_onDram (fun h => Table.wf_mapAll h _))
    | with_reducible apply Keeps.trans ?_ (keeps_reevaluate)
    | with_reducible apply Keeps.trans ?_ (keeps_raiseTile)
    | with_reducible apply Keeps.trans ?_ (keeps_loseSlots)
    | (extract_lets +onlyGivenNames x; refine Keeps.use (x := x) ?_ (fun hx => ?_); subst x; rotate_left; clear_value x)
    | (extract_lets +onlyGivenNames x; refine Keeps.useSnd (x := x) ?_ (fun hx => ?_); subst x; rotate_left; clear_value x)
    | (extract_lets +onlyGivenNames x; refine Keeps.useFst (x := x) ?_ (fun hx => ?_); subst x; rotate_left; clear_value x)
    | (extract_lets +onlyGivenNames x; refine Keeps.useThird (x := x) ?_ (fun hx => ?_); subst x; rotate_left; clear_value x)
    | (extract_lets +onlyGivenNames x; have _ := fun a => x a; subst x)
    | (extract_lets +onlyGivenNames x; clear_value x)
    | with_reducible apply Keeps.trans ?_ (Keeps.foldl _ _ ?_)
    | with_reducible apply Keeps.trans ?_ (Keeps.foldl_fst _ _ ?_)
    | with_reducible apply Keeps.trans ?_ (Keeps.foldl_snd _ _ ?_)
    | with_reducible intro _
    | split

theorem keeps_loseDimms {t g : Nat} {s : State} : Keeps s (loseDimms t g s) := by
  unfold loseDimms
  repeat' first
    | with_reducible exact Keeps.refl _
    | with_reducible assumption
    | with_reducible apply Keeps.trans ?_ (keeps_loseChannel)
    | with_reducible apply Keeps.trans ?_ (Keeps.foldl _ _ ?_)
    | with_reducible apply Keeps.trans ?_ (Keeps.foldl_fst _ _ ?_)
    | with_reducible apply Keeps.trans ?_ (Keeps.foldl_snd _ _ ?_)
    | with_reducible apply Keeps.trans ?_ (Keeps.pairFst (Keeps.foldl_fst _ _ ?_) (by assumption))
    | with_reducible apply Keeps.trans ?_ (Keeps.pair (Keeps.foldl_snd _ _ ?_) (by assumption))
    | with_reducible intro _

theorem keeps_payDebt {t c : Nat} {s : State} : Keeps s (payDebt t c s) := by
  unfold payDebt
  repeat' first
    | with_reducible exact Keeps.refl _
    | with_reducible assumption
    | with_reducible apply Keeps.trans ?_ (keeps_onSub)

theorem keeps_writeTrnCtl {d : Nat} {v : W32} {s : State} : Keeps s (writeTrnCtl d v s) := by
  unfold writeTrnCtl
  repeat' first
    | with_reducible exact Keeps.refl _
    | with_reducible assumption
    | with_reducible apply Keeps.trans ?_ (keeps_writeReg)
    | with_reducible apply Keeps.trans ?_ (keeps_wake)
    | with_reducible apply Keeps.trans ?_ (keeps_onSub)
    | (extract_lets +onlyGivenNames x; refine Keeps.use (x := x) ?_ (fun hx => ?_); subst x; rotate_left; clear_value x)
    | (extract_lets +onlyGivenNames x; refine Keeps.useSnd (x := x) ?_ (fun hx => ?_); subst x; rotate_left; clear_value x)
    | (extract_lets +onlyGivenNames x; refine Keeps.useFst (x := x) ?_ (fun hx => ?_); subst x; rotate_left; clear_value x)
    | (extract_lets +onlyGivenNames x; refine Keeps.useThird (x := x) ?_ (fun hx => ?_); subst x; rotate_left; clear_value x)
    | (extract_lets +onlyGivenNames x; have _ := fun a => x a; subst x)
    | (extract_lets +onlyGivenNames x; clear_value x)
    | with_reducible apply Keeps.trans ?_ (Keeps.foldl _ _ ?_)
    | with_reducible apply Keeps.trans ?_ (Keeps.foldl_fst _ _ ?_)
    | with_reducible apply Keeps.trans ?_ (Keeps.foldl_snd _ _ ?_)
    | with_reducible intro _
    | split

theorem keeps_startTraining {a : Agent} {d op : Nat} {v : W32} {s : State} : Keeps s (startTraining a d op v s) := by
  unfold startTraining
  repeat' first
    | with_reducible exact Keeps.refl _
    | with_reducible assumption
    | with_reducible apply Keeps.trans ?_ (keeps_writeTrnCtl)
    | with_reducible apply Keeps.trans ?_ (Keeps.foldl _ _ ?_)
    | with_reducible apply Keeps.trans ?_ (Keeps.foldl_fst _ _ ?_)
    | with_reducible apply Keeps.trans ?_ (Keeps.foldl_snd _ _ ?_)
    | with_reducible intro _
    | split

theorem keeps_writePhyAcc {d : Nat} {v : W32} {s : State} : Keeps s (writePhyAcc d v s) := by
  unfold writePhyAcc
  repeat' first
    | with_reducible exact Keeps.refl _
    | with_reducible assumption
    | with_reducible apply Keeps.trans ?_ keeps_setReg
    | with_reducible apply Keeps.trans ?_ (keeps_wake)
    | with_reducible apply Keeps.trans ?_ (keeps_onSub)
    | (extract_lets +onlyGivenNames x; refine Keeps.use (x := x) ?_ (fun hx => ?_); subst x; rotate_left; clear_value x)
    | (extract_lets +onlyGivenNames x; refine Keeps.useSnd (x := x) ?_ (fun hx => ?_); subst x; rotate_left; clear_value x)
    | (extract_lets +onlyGivenNames x; refine Keeps.useFst (x := x) ?_ (fun hx => ?_); subst x; rotate_left; clear_value x)
    | (extract_lets +onlyGivenNames x; refine Keeps.useThird (x := x) ?_ (fun hx => ?_); subst x; rotate_left; clear_value x)
    | (extract_lets +onlyGivenNames x; have _ := fun a => x a; subst x)
    | (extract_lets +onlyGivenNames x; clear_value x)
    | with_reducible apply Keeps.trans ?_ (Keeps.foldl _ _ ?_)
    | with_reducible apply Keeps.trans ?_ (Keeps.foldl_fst _ _ ?_)
    | with_reducible apply Keeps.trans ?_ (Keeps.foldl_snd _ _ ?_)
    | with_reducible intro _
    | split

theorem keeps_askStatus {n pkgs : Nat} {s : State} : Keeps s (askStatus n pkgs s) := by
  unfold askStatus
  repeat' first
    | with_reducible exact Keeps.refl _
    | with_reducible assumption
    | with_reducible apply Keeps.trans ?_ (keeps_nlSubmit)
    | with_reducible apply Keeps.trans ?_ (Keeps.foldl _ _ ?_)
    | with_reducible apply Keeps.trans ?_ (Keeps.foldl_fst _ _ ?_)
    | with_reducible apply Keeps.trans ?_ (Keeps.foldl_snd _ _ ?_)
    | with_reducible apply Keeps.trans ?_ (Keeps.pairFst (Keeps.foldl_fst _ _ ?_) (by assumption))
    | with_reducible apply Keeps.trans ?_ (Keeps.pair (Keeps.foldl_snd _ _ ?_) (by assumption))
    | with_reducible intro _

theorem keeps_loadSaved {n : Nat} {s : State} : Keeps s (loadSaved n s) := by
  unfold loadSaved
  repeat' first
    | with_reducible exact Keeps.refl _
    | with_reducible assumption
    | with_reducible apply Keeps.trans ?_ keeps_onNvm

theorem keeps_skipRetired {n pkg b : Nat} {s : State} : Keeps s (skipRetired n pkg b s) := by
  unfold skipRetired
  repeat' first
    | with_reducible exact Keeps.refl _
    | with_reducible assumption
    | with_reducible apply Keeps.trans ?_ (keeps_onRot)
    | with_reducible apply Keeps.trans ?_ keeps_onNvm
    | (extract_lets +onlyGivenNames x; refine Keeps.use (x := x) ?_ (fun hx => ?_); subst x; rotate_left; clear_value x)
    | (extract_lets +onlyGivenNames x; refine Keeps.useSnd (x := x) ?_ (fun hx => ?_); subst x; rotate_left; clear_value x)
    | (extract_lets +onlyGivenNames x; refine Keeps.useFst (x := x) ?_ (fun hx => ?_); subst x; rotate_left; clear_value x)
    | (extract_lets +onlyGivenNames x; refine Keeps.useThird (x := x) ?_ (fun hx => ?_); subst x; rotate_left; clear_value x)
    | (extract_lets +onlyGivenNames x; have _ := fun a => x a; subst x)
    | (extract_lets +onlyGivenNames x; clear_value x)
    | with_reducible apply Keeps.trans ?_ (Keeps.foldl _ _ ?_)
    | with_reducible apply Keeps.trans ?_ (Keeps.foldl_fst _ _ ?_)
    | with_reducible apply Keeps.trans ?_ (Keeps.foldl_snd _ _ ?_)
    | with_reducible intro _
    | split

theorem keeps_loadWear {n : Nat} {s : State} : Keeps s (loadWear n s) := by
  unfold loadWear
  repeat' first
    | with_reducible exact Keeps.refl _
    | with_reducible assumption
    | with_reducible apply Keeps.trans ?_ (keeps_loadSaved)
    | with_reducible apply Keeps.trans ?_ (keeps_skipRetired)
    | (extract_lets +onlyGivenNames x; refine Keeps.use (x := x) ?_ (fun hx => ?_); subst x; rotate_left; clear_value x)
    | (extract_lets +onlyGivenNames x; refine Keeps.useSnd (x := x) ?_ (fun hx => ?_); subst x; rotate_left; clear_value x)
    | (extract_lets +onlyGivenNames x; refine Keeps.useFst (x := x) ?_ (fun hx => ?_); subst x; rotate_left; clear_value x)
    | (extract_lets +onlyGivenNames x; refine Keeps.useThird (x := x) ?_ (fun hx => ?_); subst x; rotate_left; clear_value x)
    | (extract_lets +onlyGivenNames x; have _ := fun a => x a; subst x)
    | (extract_lets +onlyGivenNames x; clear_value x)
    | with_reducible apply Keeps.trans ?_ (Keeps.foldl _ _ ?_)
    | with_reducible apply Keeps.trans ?_ (Keeps.foldl_fst _ _ ?_)
    | with_reducible apply Keeps.trans ?_ (Keeps.foldl_snd _ _ ?_)
    | with_reducible apply Keeps.trans ?_ (Keeps.pairFst (Keeps.foldl_fst _ _ ?_) (by assumption))
    | with_reducible apply Keeps.trans ?_ (Keeps.pair (Keeps.foldl_snd _ _ ?_) (by assumption))
    | with_reducible intro _
    | split

theorem keeps_statusOk {n : Nat} {m : NMsg} {prog : Bool} {s : State} : Keeps s (statusOk n m prog s).2 := by
  unfold statusOk
  repeat' first
    | with_reducible exact Keeps.refl _
    | with_reducible assumption
    | with_reducible apply Keeps.trans ?_ (keeps_raiseTile)
    | with_reducible apply Keeps.trans ?_ (keeps_nlDown)
    | with_reducible apply Keeps.trans ?_ (Keeps.foldl _ _ ?_)
    | with_reducible apply Keeps.trans ?_ (Keeps.foldl_fst _ _ ?_)
    | with_reducible apply Keeps.trans ?_ (Keeps.foldl_snd _ _ ?_)
    | with_reducible intro _
    | split

theorem keeps_takeRsp {n opc : Nat} {s : State} {o0 : NMsg} {o1 : NReq} {u : State} : takeRsp n opc s = some (o0, o1, u) → Keeps s u := by
  refine Keeps.OfSome.out (p := fun x : NMsg × NReq × State => Keeps s x.2.2) ?_
  unfold takeRsp
  repeat' first
    | with_reducible exact Keeps.ofNone
    | with_reducible apply Keeps.ofSome ?_
    | with_reducible apply Keeps.ofMap ?_
    | with_reducible exact Keeps.refl _
    | with_reducible assumption
    | with_reducible apply Keeps.trans ?_ (keeps_takeMsg (by assumption))
    | with_reducible apply Keeps.trans ?_ (keeps_takeReq)
    | with_reducible apply Keeps.trans ?_ (Keeps.pair (keeps_takeReq) (by assumption))
    | (extract_lets +onlyGivenNames x; refine Keeps.use (x := x) ?_ (fun hx => ?_); subst x; rotate_left; clear_value x)
    | (extract_lets +onlyGivenNames x; refine Keeps.useSnd (x := x) ?_ (fun hx => ?_); subst x; rotate_left; clear_value x)
    | (extract_lets +onlyGivenNames x; refine Keeps.useFst (x := x) ?_ (fun hx => ?_); subst x; rotate_left; clear_value x)
    | (extract_lets +onlyGivenNames x; refine Keeps.useThird (x := x) ?_ (fun hx => ?_); subst x; rotate_left; clear_value x)
    | (extract_lets +onlyGivenNames x; have _ := fun a => x a; subst x)
    | (extract_lets +onlyGivenNames x; clear_value x)
    | with_reducible apply Keeps.trans ?_ (Keeps.foldl _ _ ?_)
    | with_reducible apply Keeps.trans ?_ (Keeps.foldl_fst _ _ ?_)
    | with_reducible apply Keeps.trans ?_ (Keeps.foldl_snd _ _ ?_)
    | with_reducible intro _
    | split

theorem keeps_chunkRead {n : Nat} {q : NReq} {m : NMsg} {d : Option (Bytes × Nat)} {s : State} : Keeps s (chunkRead n q m d s) := by
  unfold chunkRead
  repeat' first
    | with_reducible exact Keeps.refl _
    | with_reducible assumption
    | with_reducible apply Keeps.trans ?_ (keeps_deliver)
    | with_reducible apply Keeps.trans ?_ (keeps_markDue)
    | with_reducible apply Keeps.trans ?_ (keeps_countBits)
    | with_reducible apply Keeps.trans ?_ (keeps_reconFor)
    | with_reducible apply Keeps.trans ?_ (Keeps.foldl _ _ ?_)
    | with_reducible apply Keeps.trans ?_ (Keeps.foldl_fst _ _ ?_)
    | with_reducible apply Keeps.trans ?_ (Keeps.foldl_snd _ _ ?_)
    | with_reducible intro _
    | split

theorem keeps_refreshDone {n : Nat} {off : Nat} {s : State} : Keeps s (refreshDone n off s) := by
  unfold refreshDone
  repeat' first
    | with_reducible exact Keeps.refl _
    | with_reducible assumption
    | with_reducible apply Keeps.trans ?_ (keeps_unlockLines)
    | with_reducible apply Keeps.trans ?_ (keeps_pumpLocks)
    | with_reducible apply Keeps.trans ?_ (keeps_onBlk)
    | with_reducible apply Keeps.trans ?_ (keeps_setRefresh)
    | (extract_lets +onlyGivenNames x; refine Keeps.use (x := x) ?_ (fun hx => ?_); subst x; rotate_left; clear_value x)
    | (extract_lets +onlyGivenNames x; refine Keeps.useSnd (x := x) ?_ (fun hx => ?_); subst x; rotate_left; clear_value x)
    | (extract_lets +onlyGivenNames x; refine Keeps.useFst (x := x) ?_ (fun hx => ?_); subst x; rotate_left; clear_value x)
    | (extract_lets +onlyGivenNames x; refine Keeps.useThird (x := x) ?_ (fun hx => ?_); subst x; rotate_left; clear_value x)
    | (extract_lets +onlyGivenNames x; have _ := fun a => x a; subst x)
    | (extract_lets +onlyGivenNames x; clear_value x)
    | with_reducible apply Keeps.trans ?_ (Keeps.foldl _ _ ?_)
    | with_reducible apply Keeps.trans ?_ (Keeps.foldl_fst _ _ ?_)
    | with_reducible apply Keeps.trans ?_ (Keeps.foldl_snd _ _ ?_)
    | with_reducible intro _
    | split

theorem keeps_programDone {n : Nat} {q : NReq} {s : State} : Keeps s (programDone n q s) := by
  unfold programDone
  repeat' first
    | with_reducible exact Keeps.refl _
    | with_reducible assumption
    | with_reducible apply Keeps.trans ?_ (keeps_destageFull)
    | with_reducible apply Keeps.trans ?_ keeps_onNvm
    | with_reducible apply Keeps.trans ?_ (keeps_setWork)
    | with_reducible apply Keeps.trans ?_ (keeps_nextCopy)
    | with_reducible apply Keeps.trans ?_ (keeps_setOp)
    | with_reducible apply Keeps.trans ?_ (keeps_refreshDone)
    | with_reducible apply Keeps.trans ?_ (Keeps.foldl _ _ ?_)
    | with_reducible apply Keeps.trans ?_ (Keeps.foldl_fst _ _ ?_)
    | with_reducible apply Keeps.trans ?_ (Keeps.foldl_snd _ _ ?_)
    | with_reducible intro _
    | split

theorem keeps_copyDone {n pkg : Nat} {o : BlkOp} {b : Blk} {s : State} : Keeps s (copyDone n pkg o b s) := by
  unfold copyDone
  repeat' first
    | with_reducible exact Keeps.refl _
    | with_reducible assumption
    | with_reducible apply Keeps.trans ?_ (keeps_onBlk)
    | with_reducible apply Keeps.trans ?_ (Keeps.foldl _ _ ?_)
    | with_reducible apply Keeps.trans ?_ (Keeps.foldl_fst _ _ ?_)
    | with_reducible apply Keeps.trans ?_ (Keeps.foldl_snd _ _ ?_)
    | with_reducible intro _
    | split

theorem keeps_destageUntil {t n k : Nat} {s : State} : Keeps s (destageUntil t n k s) := by
  induction k generalizing s with
  | zero => exact Keeps.refl _
  | succ k ih =>
    unfold destageUntil
    extract_lets +onlyGivenNames idle
    split
    · exact Keeps.refl _
    · split
      · exact Keeps.refl _
      · exact keeps_destage.trans ih

theorem keeps_rereadChunks {t frame : Nat} {js : List Nat} {s : State} : Keeps s (rereadChunks t frame js s) := by
  unfold rereadChunks
  repeat' first
    | with_reducible exact Keeps.refl _
    | with_reducible assumption
    | with_reducible apply Keeps.trans ?_ keeps_onNvm
    | with_reducible apply Keeps.trans ?_ (keeps_onNl)
    | with_reducible apply Keeps.trans ?_ (keeps_nvmAsk)
    | (extract_lets +onlyGivenNames x; refine Keeps.use (x := x) ?_ (fun hx => ?_); subst x; rotate_left; clear_value x)
    | (extract_lets +onlyGivenNames x; refine Keeps.useSnd (x := x) ?_ (fun hx => ?_); subst x; rotate_left; clear_value x)
    | (extract_lets +onlyGivenNames x; refine Keeps.useFst (x := x) ?_ (fun hx => ?_); subst x; rotate_left; clear_value x)
    | (extract_lets +onlyGivenNames x; refine Keeps.useThird (x := x) ?_ (fun hx => ?_); subst x; rotate_left; clear_value x)
    | (extract_lets +onlyGivenNames x; have _ := fun a => x a; subst x)
    | (extract_lets +onlyGivenNames x; clear_value x)
    | with_reducible apply Keeps.trans ?_ (Keeps.foldl _ _ ?_)
    | with_reducible apply Keeps.trans ?_ (Keeps.foldl_fst _ _ ?_)
    | with_reducible apply Keeps.trans ?_ (Keeps.foldl_snd _ _ ?_)
    | with_reducible apply Keeps.trans ?_ (Keeps.pairFst (Keeps.foldl_fst _ _ ?_) (by assumption))
    | with_reducible apply Keeps.trans ?_ (Keeps.pair (Keeps.foldl_snd _ _ ?_) (by assumption))
    | with_reducible intro _
    | split

theorem keeps_lockLines {ls : List Nat} {s : State} : Keeps s (lockLines ls s) := by
  unfold lockLines
  repeat' first
    | with_reducible exact Keeps.refl _
    | with_reducible assumption
    | with_reducible apply Keeps.trans ?_ keeps_onHa

theorem keeps_formGroup {t g : Nat} {s : State} : Keeps s (formGroup t g s) := by
  unfold formGroup
  repeat' first
    | with_reducible exact Keeps.refl _
    | with_reducible assumption
    | with_reducible apply Keeps.trans ?_ keeps_onNvm
    | with_reducible apply Keeps.trans ?_ (keeps_onNl)
    | with_reducible apply Keeps.trans ?_ (keeps_raiseTile)
    | (extract_lets +onlyGivenNames x; refine Keeps.use (x := x) ?_ (fun hx => ?_); subst x; rotate_left; clear_value x)
    | (extract_lets +onlyGivenNames x; refine Keeps.useSnd (x := x) ?_ (fun hx => ?_); subst x; rotate_left; clear_value x)
    | (extract_lets +onlyGivenNames x; refine Keeps.useFst (x := x) ?_ (fun hx => ?_); subst x; rotate_left; clear_value x)
    | (extract_lets +onlyGivenNames x; refine Keeps.useThird (x := x) ?_ (fun hx => ?_); subst x; rotate_left; clear_value x)
    | (extract_lets +onlyGivenNames x; have _ := fun a => x a; subst x)
    | (extract_lets +onlyGivenNames x; clear_value x)
    | with_reducible apply Keeps.trans ?_ (Keeps.foldl _ _ ?_)
    | with_reducible apply Keeps.trans ?_ (Keeps.foldl_fst _ _ ?_)
    | with_reducible apply Keeps.trans ?_ (Keeps.foldl_snd _ _ ?_)
    | with_reducible apply Keeps.trans ?_ (Keeps.pairFst (Keeps.foldl_fst _ _ ?_) (by assumption))
    | with_reducible apply Keeps.trans ?_ (Keeps.pair (Keeps.foldl_snd _ _ ?_) (by assumption))
    | with_reducible intro _
    | split

theorem keeps_formGroups {t : Nat} {s : State} : Keeps s (formGroups t s) := by
  unfold formGroups
  repeat' first
    | with_reducible exact Keeps.refl _
    | with_reducible assumption
    | with_reducible apply Keeps.trans ?_ (keeps_formGroup)
    | with_reducible apply Keeps.trans ?_ keeps_onNvm
    | (extract_lets +onlyGivenNames x; refine Keeps.use (x := x) ?_ (fun hx => ?_); subst x; rotate_left; clear_value x)
    | (extract_lets +onlyGivenNames x; refine Keeps.useSnd (x := x) ?_ (fun hx => ?_); subst x; rotate_left; clear_value x)
    | (extract_lets +onlyGivenNames x; refine Keeps.useFst (x := x) ?_ (fun hx => ?_); subst x; rotate_left; clear_value x)
    | (extract_lets +onlyGivenNames x; refine Keeps.useThird (x := x) ?_ (fun hx => ?_); subst x; rotate_left; clear_value x)
    | (extract_lets +onlyGivenNames x; have _ := fun a => x a; subst x)
    | (extract_lets +onlyGivenNames x; clear_value x)
    | with_reducible apply Keeps.trans ?_ (Keeps.foldl _ _ ?_)
    | with_reducible apply Keeps.trans ?_ (Keeps.foldl_fst _ _ ?_)
    | with_reducible apply Keeps.trans ?_ (Keeps.foldl_snd _ _ ?_)
    | with_reducible apply Keeps.trans ?_ (Keeps.pairFst (Keeps.foldl_fst _ _ ?_) (by assumption))
    | with_reducible apply Keeps.trans ?_ (Keeps.pair (Keeps.foldl_snd _ _ ?_) (by assumption))
    | with_reducible intro _

theorem keeps_shadowWrite {r : Region} {t area : Nat} {x : Sum (Nat × Nat) (Nat × Nat)} {prio : Nat} {s : State} : Keeps s (shadowWrite r t area x prio s) := by
  unfold shadowWrite
  repeat' first
    | with_reducible exact Keeps.refl _
    | with_reducible assumption
    | with_reducible apply Keeps.trans ?_ (keeps_absWrite)
    | with_reducible apply Keeps.trans ?_ (keeps_drWrite)
    | (extract_lets +onlyGivenNames x; refine Keeps.use (x := x) ?_ (fun hx => ?_); subst x; rotate_left; clear_value x)
    | (extract_lets +onlyGivenNames x; refine Keeps.useSnd (x := x) ?_ (fun hx => ?_); subst x; rotate_left; clear_value x)
    | (extract_lets +onlyGivenNames x; refine Keeps.useFst (x := x) ?_ (fun hx => ?_); subst x; rotate_left; clear_value x)
    | (extract_lets +onlyGivenNames x; refine Keeps.useThird (x := x) ?_ (fun hx => ?_); subst x; rotate_left; clear_value x)
    | (extract_lets +onlyGivenNames x; have _ := fun a => x a; subst x)
    | (extract_lets +onlyGivenNames x; clear_value x)
    | with_reducible apply Keeps.trans ?_ (Keeps.foldl _ _ ?_)
    | with_reducible apply Keeps.trans ?_ (Keeps.foldl_fst _ _ ?_)
    | with_reducible apply Keeps.trans ?_ (Keeps.foldl_snd _ _ ?_)
    | with_reducible intro _
    | split

theorem keeps_shadowRead {r : Region} {t area : Nat} {x : Sum (Nat × Nat) (Nat × Nat)} {s : State} : Keeps s (shadowRead r t area x s) := by
  unfold shadowRead
  repeat' first
    | with_reducible exact Keeps.refl _
    | with_reducible assumption
    | with_reducible apply Keeps.trans ?_ (keeps_wake)
    | (extract_lets +onlyGivenNames x; refine Keeps.use (x := x) ?_ (fun hx => ?_); subst x; rotate_left; clear_value x)
    | (extract_lets +onlyGivenNames x; refine Keeps.useSnd (x := x) ?_ (fun hx => ?_); subst x; rotate_left; clear_value x)
    | (extract_lets +onlyGivenNames x; refine Keeps.useFst (x := x) ?_ (fun hx => ?_); subst x; rotate_left; clear_value x)
    | (extract_lets +onlyGivenNames x; refine Keeps.useThird (x := x) ?_ (fun hx => ?_); subst x; rotate_left; clear_value x)
    | (extract_lets +onlyGivenNames x; have _ := fun a => x a; subst x)
    | (extract_lets +onlyGivenNames x; clear_value x)
    | with_reducible apply Keeps.trans ?_ (Keeps.foldl _ _ ?_)
    | with_reducible apply Keeps.trans ?_ (Keeps.foldl_fst _ _ ?_)
    | with_reducible apply Keeps.trans ?_ (Keeps.foldl_snd _ _ ?_)
    | with_reducible intro _
    | split

theorem keeps_shadowTraffic {c : CLoc} {wroteTag wroteCtr : Bool} {prio : Nat} {s s' : State} : Keeps s' (shadowTraffic c wroteTag wroteCtr prio s s') := by
  unfold shadowTraffic
  repeat' first
    | with_reducible exact Keeps.refl _
    | with_reducible assumption
    | with_reducible apply Keeps.trans ?_ (keeps_shadowRead)
    | with_reducible apply Keeps.trans ?_ (keeps_shadowWrite)
    | (extract_lets +onlyGivenNames x; refine Keeps.use (x := x) ?_ (fun hx => ?_); subst x; rotate_left; clear_value x)
    | (extract_lets +onlyGivenNames x; refine Keeps.useSnd (x := x) ?_ (fun hx => ?_); subst x; rotate_left; clear_value x)
    | (extract_lets +onlyGivenNames x; refine Keeps.useFst (x := x) ?_ (fun hx => ?_); subst x; rotate_left; clear_value x)
    | (extract_lets +onlyGivenNames x; refine Keeps.useThird (x := x) ?_ (fun hx => ?_); subst x; rotate_left; clear_value x)
    | (extract_lets +onlyGivenNames x; have _ := fun a => x a; subst x)
    | (extract_lets +onlyGivenNames x; clear_value x)
    | with_reducible apply Keeps.trans ?_ (Keeps.foldl _ _ ?_)
    | with_reducible apply Keeps.trans ?_ (Keeps.foldl_fst _ _ ?_)
    | with_reducible apply Keeps.trans ?_ (Keeps.foldl_snd _ _ ?_)
    | with_reducible apply Keeps.trans ?_ (Keeps.pairFst (Keeps.foldl_fst _ _ ?_) (by assumption))
    | with_reducible apply Keeps.trans ?_ (Keeps.pair (Keeps.foldl_snd _ _ ?_) (by assumption))
    | with_reducible intro _
    | split

theorem keeps_askLoc {kind t : Nat} {nvm : Bool} {frame i prio : Nat} {s : State} : Keeps s (askLoc kind t nvm frame i prio s) := by
  unfold askLoc
  repeat' first
    | with_reducible exact Keeps.refl _
    | with_reducible assumption
    | with_reducible apply Keeps.trans ?_ (keeps_drRead)
    | with_reducible apply Keeps.trans ?_ (keeps_nvmAsk)
    | with_reducible apply Keeps.trans ?_ (Keeps.foldl _ _ ?_)
    | with_reducible apply Keeps.trans ?_ (Keeps.foldl_fst _ _ ?_)
    | with_reducible apply Keeps.trans ?_ (Keeps.foldl_snd _ _ ?_)
    | with_reducible intro _
    | split

theorem keeps_askLine {line prio : Nat} {s : State} : Keeps s (askLine line prio s) := by
  unfold askLine
  repeat' first
    | with_reducible exact Keeps.refl _
    | with_reducible assumption
    | with_reducible apply Keeps.trans ?_ (keeps_askLoc)
    | with_reducible apply Keeps.trans ?_ (Keeps.foldl _ _ ?_)
    | with_reducible apply Keeps.trans ?_ (Keeps.foldl_fst _ _ ?_)
    | with_reducible apply Keeps.trans ?_ (Keeps.foldl_snd _ _ ?_)
    | with_reducible intro _
    | split

theorem keeps_takeLoc {kind t : Nat} {nvm : Bool} {frame i : Nat} {flips : Flips} {s : State} {o0 : Rec} {o1 : Sum Nat Nat} {u : State} : takeLoc kind t nvm frame i flips s = some (o0, o1, u) → Keeps s u := by
  refine Keeps.OfSome.out (p := fun x : Rec × Sum Nat Nat × State => Keeps s x.2.2) ?_
  unfold takeLoc
  repeat' first
    | with_reducible exact Keeps.ofNone
    | with_reducible apply Keeps.ofSome ?_
    | with_reducible apply Keeps.ofMap ?_
    | with_reducible exact Keeps.refl _
    | with_reducible assumption
    | with_reducible apply Keeps.trans ?_ (keeps_drTake)
    | with_reducible apply Keeps.trans ?_ keeps_onNvm
    | (extract_lets +onlyGivenNames x; refine Keeps.use (x := x) ?_ (fun hx => ?_); subst x; rotate_left; clear_value x)
    | (extract_lets +onlyGivenNames x; refine Keeps.useSnd (x := x) ?_ (fun hx => ?_); subst x; rotate_left; clear_value x)
    | (extract_lets +onlyGivenNames x; refine Keeps.useFst (x := x) ?_ (fun hx => ?_); subst x; rotate_left; clear_value x)
    | (extract_lets +onlyGivenNames x; refine Keeps.useThird (x := x) ?_ (fun hx => ?_); subst x; rotate_left; clear_value x)
    | (extract_lets +onlyGivenNames x; have _ := fun a => x a; subst x)
    | (extract_lets +onlyGivenNames x; clear_value x)
    | with_reducible apply Keeps.trans ?_ (Keeps.foldl _ _ ?_)
    | with_reducible apply Keeps.trans ?_ (Keeps.foldl_fst _ _ ?_)
    | with_reducible apply Keeps.trans ?_ (Keeps.foldl_snd _ _ ?_)
    | with_reducible intro _
    | split
    | dsimp -zeta only

theorem keeps_putLoc {t : Nat} {nvm : Bool} {frame i : Nat} {r : Rec} {prio : Nat} {s : State} : Keeps s (putLoc t nvm frame i r prio s) := by
  unfold putLoc
  repeat' first
    | with_reducible exact Keeps.refl _
    | with_reducible assumption
    | with_reducible apply Keeps.trans ?_ (keeps_absWrite)
    | with_reducible apply Keeps.trans ?_ (keeps_drWrite)
    | with_reducible apply Keeps.trans ?_ (Keeps.foldl _ _ ?_)
    | with_reducible apply Keeps.trans ?_ (Keeps.foldl_fst _ _ ?_)
    | with_reducible apply Keeps.trans ?_ (Keeps.foldl_snd _ _ ?_)
    | with_reducible intro _
    | split

theorem keeps_dropLine {line : Nat} {s : State} : Keeps s (dropLine line s) := by
  unfold dropLine
  repeat' first
    | with_reducible exact Keeps.refl _
    | with_reducible assumption
    | with_reducible apply Keeps.trans ?_ (keeps_drDrop)
    | (extract_lets +onlyGivenNames x; refine Keeps.use (x := x) ?_ (fun hx => ?_); subst x; rotate_left; clear_value x)
    | (extract_lets +onlyGivenNames x; refine Keeps.useSnd (x := x) ?_ (fun hx => ?_); subst x; rotate_left; clear_value x)
    | (extract_lets +onlyGivenNames x; refine Keeps.useFst (x := x) ?_ (fun hx => ?_); subst x; rotate_left; clear_value x)
    | (extract_lets +onlyGivenNames x; refine Keeps.useThird (x := x) ?_ (fun hx => ?_); subst x; rotate_left; clear_value x)
    | (extract_lets +onlyGivenNames x; have _ := fun a => x a; subst x)
    | (extract_lets +onlyGivenNames x; clear_value x)
    | with_reducible apply Keeps.trans ?_ (Keeps.foldl _ _ ?_)
    | with_reducible apply Keeps.trans ?_ (Keeps.foldl_fst _ _ ?_)
    | with_reducible apply Keeps.trans ?_ (Keeps.foldl_snd _ _ ?_)
    | with_reducible intro _
    | split

theorem keeps_rewritten {addr : Nat} {s : State} : Keeps s (rewritten addr s) := by
  unfold rewritten
  repeat' first
    | with_reducible exact Keeps.refl _
    | with_reducible assumption
    | with_reducible apply Keeps.trans ?_ (keeps_onCry (fun _ h => h))
    | with_reducible apply Keeps.trans ?_ (keeps_onCry ?_)
    | with_reducible apply Keeps.trans ?_ (Keeps.foldl _ _ ?_)
    | with_reducible apply Keeps.trans ?_ (Keeps.foldl_fst _ _ ?_)
    | with_reducible apply Keeps.trans ?_ (Keeps.foldl_snd _ _ ?_)
    | with_reducible intro _
    | split

theorem keeps_putLine {line : Nat} {r : Rec} {s0 : State} : Keeps s0 (putLine line r s0) := by
  unfold putLine
  repeat' first
    | with_reducible exact Keeps.refl _
    | with_reducible assumption
    | with_reducible apply Keeps.trans ?_ (keeps_rewritten)
    | with_reducible apply Keeps.trans ?_ (keeps_putLoc)
    | with_reducible apply Keeps.trans ?_ (keeps_setMove)
    | (extract_lets +onlyGivenNames x; refine Keeps.use (x := x) ?_ (fun hx => ?_); subst x; rotate_left; clear_value x)
    | (extract_lets +onlyGivenNames x; refine Keeps.useSnd (x := x) ?_ (fun hx => ?_); subst x; rotate_left; clear_value x)
    | (extract_lets +onlyGivenNames x; refine Keeps.useFst (x := x) ?_ (fun hx => ?_); subst x; rotate_left; clear_value x)
    | (extract_lets +onlyGivenNames x; refine Keeps.useThird (x := x) ?_ (fun hx => ?_); subst x; rotate_left; clear_value x)
    | (extract_lets +onlyGivenNames x; have _ := fun a => x a; subst x)
    | (extract_lets +onlyGivenNames x; clear_value x)
    | with_reducible apply Keeps.trans ?_ (Keeps.foldl _ _ ?_)
    | with_reducible apply Keeps.trans ?_ (Keeps.foldl_fst _ _ ?_)
    | with_reducible apply Keeps.trans ?_ (Keeps.foldl_snd _ _ ?_)
    | with_reducible intro _
    | split

theorem keeps_waitSlot {line : Nat} {s : State} : Keeps s (waitSlot line s) := by
  unfold waitSlot
  repeat' first
    | with_reducible exact Keeps.refl _
    | with_reducible assumption
    | with_reducible apply Keeps.trans ?_ (keeps_raiseBit)
    | with_reducible apply Keeps.trans ?_ keeps_onNvm
    | with_reducible apply Keeps.trans ?_ (Keeps.foldl _ _ ?_)
    | with_reducible apply Keeps.trans ?_ (Keeps.foldl_fst _ _ ?_)
    | with_reducible apply Keeps.trans ?_ (Keeps.foldl_snd _ _ ?_)
    | with_reducible intro _
    | split

theorem keeps_settleRec {line : Nat} {r : Rec} {src : Sum Nat Nat} {who : Reader} {store : Rec → State → State} {s : State} (h_store : ∀ x0 s, Keeps s (store x0 s)) : Keeps s (settleRec line r src who store s).2.2 := by
  unfold settleRec
  repeat' first
    | with_reducible exact Keeps.refl _
    | with_reducible assumption
    | with_reducible apply Keeps.trans ?_ (h_store _ _ )
    | with_reducible apply Keeps.trans ?_ (keeps_countUe)
    | with_reducible apply Keeps.trans ?_ (keeps_countCe)
    | with_reducible apply Keeps.trans ?_ (keeps_lostWord)
    | with_reducible apply Keeps.trans ?_ (keeps_addPoison)
    | with_reducible apply Keeps.trans ?_ (keeps_raiseReq)
    | (extract_lets +onlyGivenNames x; refine Keeps.use (x := x) ?_ (fun hx => ?_); subst x; rotate_left; clear_value x)
    | (extract_lets +onlyGivenNames x; refine Keeps.useSnd (x := x) ?_ (fun hx => ?_); subst x; rotate_left; clear_value x)
    | (extract_lets +onlyGivenNames x; refine Keeps.useFst (x := x) ?_ (fun hx => ?_); subst x; rotate_left; clear_value x)
    | (extract_lets +onlyGivenNames x; refine Keeps.useThird (x := x) ?_ (fun hx => ?_); subst x; rotate_left; clear_value x)
    | (extract_lets +onlyGivenNames x; have _ := fun a => x a; subst x)
    | (extract_lets +onlyGivenNames x; clear_value x)
    | with_reducible apply Keeps.trans ?_ (Keeps.foldl _ _ ?_)
    | with_reducible apply Keeps.trans ?_ (Keeps.foldl_fst _ _ ?_)
    | with_reducible apply Keeps.trans ?_ (Keeps.foldl_snd _ _ ?_)
    | with_reducible intro _
    | split

theorem keeps_takeLine {line : Nat} {flips : Flips} {who : Reader} {s : State} {o0 : Rec} {o1 : Bool} {u : State} : takeLine line flips who s = some (o0, o1, u) → Keeps s u := by
  refine Keeps.OfSome.out (p := fun x : Rec × Bool × State => Keeps s x.2.2) ?_
  unfold takeLine
  repeat' first
    | with_reducible exact Keeps.ofNone
    | with_reducible apply Keeps.ofSome ?_
    | with_reducible apply Keeps.ofMap ?_
    | with_reducible exact Keeps.refl _
    | with_reducible assumption
    | with_reducible apply Keeps.trans ?_ (keeps_takeLoc (by assumption))
    | with_reducible apply Keeps.trans ?_ (keeps_settleRec ?_)
    | with_reducible apply Keeps.trans ?_ (Keeps.triple (keeps_settleRec ?_) (by assumption))
    | with_reducible apply Keeps.trans ?_ (keeps_putLine)
    | (extract_lets +onlyGivenNames x; refine Keeps.use (x := x) ?_ (fun hx => ?_); subst x; rotate_left; clear_value x)
    | (extract_lets +onlyGivenNames x; refine Keeps.useSnd (x := x) ?_ (fun hx => ?_); subst x; rotate_left; clear_value x)
    | (extract_lets +onlyGivenNames x; refine Keeps.useFst (x := x) ?_ (fun hx => ?_); subst x; rotate_left; clear_value x)
    | (extract_lets +onlyGivenNames x; refine Keeps.useThird (x := x) ?_ (fun hx => ?_); subst x; rotate_left; clear_value x)
    | (extract_lets +onlyGivenNames x; have _ := fun a => x a; subst x)
    | (extract_lets +onlyGivenNames x; clear_value x)
    | with_reducible apply Keeps.trans ?_ (Keeps.foldl _ _ ?_)
    | with_reducible apply Keeps.trans ?_ (Keeps.foldl_fst _ _ ?_)
    | with_reducible apply Keeps.trans ?_ (Keeps.foldl_snd _ _ ?_)
    | with_reducible intro _
    | split

end Sys2Proof.Machine
end

