-- ==== Sys2Proof/Laws/Keeps5.lean ====
section
/-!
SUPPORT. What the operations of the block keep, part 5: one lemma for each, in the order of their files.
-/
namespace Sys2Proof.Machine

theorem keeps_addHeat {line cls : Nat} {s : State} : Keeps s (addHeat line cls s) := by
  unfold addHeat
  repeat' first
    | with_reducible exact Keeps.refl _
    | with_reducible assumption
    | with_reducible apply Keeps.trans ?_ keeps_takeFree
    | with_reducible apply Keeps.trans ?_ (keeps_putPlace)
    | (extract_lets +onlyGivenNames x; refine Keeps.use (x := x) ?_ (fun hx => ?_); subst x; rotate_left; clear_value x)
    | (extract_lets +onlyGivenNames x; refine Keeps.useSnd (x := x) ?_ (fun hx => ?_); subst x; rotate_left; clear_value x)
    | (extract_lets +onlyGivenNames x; refine Keeps.useFst (x := x) ?_ (fun hx => ?_); subst x; rotate_left; clear_value x)
    | (extract_lets +onlyGivenNames x; refine Keeps.useThird (x := x) ?_ (fun hx => ?_); subst x; rotate_left; clear_value x)
    | (extract_lets +onlyGivenNames x; have _ := fun a => x a; subst x)
    | (extract_lets +onlyGivenNames x; clear_value x)
    | with_reducible apply Keeps.trans ?_ (Keeps.foldl _ _ ?_)
    | with_reducible apply Keeps.trans ?_ (Keeps.foldl_fst _ _ ?_)
    | with_reducible apply Keeps.trans ?_ (Keeps.foldl_snd _ _ ?_)
    | with_reducible intro _
    | split

theorem keeps_sampleFree {t : Nat} {s : State} : Keeps s (sampleFree t s) := by
  unfold sampleFree
  repeat' first
    | with_reducible exact Keeps.refl _
    | with_reducible assumption
    | with_reducible apply Keeps.trans ?_ keeps_onTier
    | (extract_lets +onlyGivenNames x; refine Keeps.use (x := x) ?_ (fun hx => ?_); subst x; rotate_left; clear_value x)
    | (extract_lets +onlyGivenNames x; refine Keeps.useSnd (x := x) ?_ (fun hx => ?_); subst x; rotate_left; clear_value x)
    | (extract_lets +onlyGivenNames x; refine Keeps.useFst (x := x) ?_ (fun hx => ?_); subst x; rotate_left; clear_value x)
    | (extract_lets +onlyGivenNames x; refine Keeps.useThird (x := x) ?_ (fun hx => ?_); subst x; rotate_left; clear_value x)
    | (extract_lets +onlyGivenNames x; have _ := fun a => x a; subst x)
    | (extract_lets +onlyGivenNames x; clear_value x)
    | with_reducible apply Keeps.trans ?_ (Keeps.foldl _ _ ?_)
    | with_reducible apply Keeps.trans ?_ (Keeps.foldl_fst _ _ ?_)
    | with_reducible apply Keeps.trans ?_ (Keeps.foldl_snd _ _ ?_)
    | with_reducible intro _
    | split

theorem keeps_materialise {page : Nat} {who : Reader} {prio : Nat} {s : State} : Keeps s (materialise page who prio s).2 := by
  unfold materialise
  repeat' first
    | with_reducible exact Keeps.refl _
    | with_reducible assumption
    | with_reducible apply Keeps.trans ?_ (keeps_raiseReq)
    | with_reducible apply Keeps.trans ?_ (keeps_raiseBit)
    | with_reducible apply Keeps.trans ?_ (keeps_putPlace)
    | with_reducible apply Keeps.trans ?_ (keeps_putLoc)
    | with_reducible apply Keeps.trans ?_ (keeps_shadowWrite)
    | with_reducible apply Keeps.trans ?_ (keeps_putCounter)
    | with_reducible apply Keeps.trans ?_ (keeps_addCnt)
    | with_reducible apply Keeps.trans ?_ (keeps_sampleFree)
    | (extract_lets +onlyGivenNames x; refine Keeps.use (x := x) ?_ (fun hx => ?_); subst x; rotate_left; clear_value x)
    | (extract_lets +onlyGivenNames x; refine Keeps.useSnd (x := x) ?_ (fun hx => ?_); subst x; rotate_left; clear_value x)
    | (extract_lets +onlyGivenNames x; refine Keeps.useFst (x := x) ?_ (fun hx => ?_); subst x; rotate_left; clear_value x)
    | (extract_lets +onlyGivenNames x; refine Keeps.useThird (x := x) ?_ (fun hx => ?_); subst x; rotate_left; clear_value x)
    | (extract_lets +onlyGivenNames x; have _ := fun a => x a; subst x)
    | (extract_lets +onlyGivenNames x; clear_value x)
    | with_reducible apply Keeps.trans ?_ (Keeps.foldl _ _ ?_)
    | with_reducible apply Keeps.trans ?_ (Keeps.foldl_fst _ _ ?_)
    | with_reducible apply Keeps.trans ?_ (Keeps.foldl_snd _ _ ?_)
    | with_reducible apply Keeps.trans ?_ (Keeps.pairFst (Keeps.foldl_fst _ _ ?_) (by assumption))
    | with_reducible apply Keeps.trans ?_ (Keeps.pair (Keeps.foldl_snd _ _ ?_) (by assumption))
    | with_reducible intro _
    | split

theorem keeps_noKey {c : CLoc} {addr : Nat} {k : BitVec 12} {who : Reader} {s : State} : Keeps s (noKey c addr k who s) := by
  unfold noKey
  repeat' first
    | with_reducible exact Keeps.refl _
    | with_reducible assumption
    | with_reducible apply Keeps.trans ?_ (keeps_raiseReq)

theorem keeps_checkKey {r : Region} {c : CLoc} {fold : Nat} {m : BitVec 56} {who : Reader} {put : Rec → State → State} {x : Rec} {s : State} (h_put : ∀ x0 s, Keeps s (put x0 s)) : Keeps s (checkKey r c fold m who put x s).2.2 := by
  unfold checkKey
  repeat' first
    | with_reducible exact Keeps.refl _
    | with_reducible assumption
    | with_reducible apply Keeps.trans ?_ (h_put _ _ )
    | with_reducible apply Keeps.trans ?_ (keeps_raiseReq)
    | with_reducible apply Keeps.trans ?_ (keeps_addPoison)
    | (extract_lets +onlyGivenNames x; refine Keeps.use (x := x) ?_ (fun hx => ?_); subst x; rotate_left; clear_value x)
    | (extract_lets +onlyGivenNames x; refine Keeps.useSnd (x := x) ?_ (fun hx => ?_); subst x; rotate_left; clear_value x)
    | (extract_lets +onlyGivenNames x; refine Keeps.useFst (x := x) ?_ (fun hx => ?_); subst x; rotate_left; clear_value x)
    | (extract_lets +onlyGivenNames x; refine Keeps.useThird (x := x) ?_ (fun hx => ?_); subst x; rotate_left; clear_value x)
    | (extract_lets +onlyGivenNames x; have _ := fun a => x a; subst x)
    | (extract_lets +onlyGivenNames x; clear_value x)
    | with_reducible apply Keeps.trans ?_ (Keeps.foldl _ _ ?_)
    | with_reducible apply Keeps.trans ?_ (Keeps.foldl_fst _ _ ?_)
    | with_reducible apply Keeps.trans ?_ (Keeps.foldl_snd _ _ ?_)
    | with_reducible intro _
    | split

theorem keeps_fixKey {line : Nat} {r : Region} {who : Reader} {put : Rec → State → State} {x : Rec} {s : State} (h_put : ∀ x0 s, Keeps s (put x0 s)) : Keeps s (fixKey line r who put x s).2.2 := by
  unfold fixKey
  repeat' first
    | with_reducible exact Keeps.refl _
    | with_reducible assumption
    | with_reducible apply Keeps.trans ?_ (h_put _ _ )
    | with_reducible apply Keeps.trans ?_ (keeps_checkKey ?_)

theorem keeps_cryRead {r : Region} {c : CLoc} {rec_ : Rec} {who : Reader} {fold : Nat} {s : State} : Keeps s (cryRead r c rec_ who fold s).2 := by
  unfold cryRead
  repeat' first
    | with_reducible exact Keeps.refl _
    | with_reducible assumption
    | with_reducible apply Keeps.trans ?_ (keeps_cacheFill)
    | with_reducible apply Keeps.trans ?_ (keeps_noKey)
    | with_reducible apply Keeps.trans ?_ (keeps_startVerif)
    | with_reducible apply Keeps.trans ?_ (keeps_shadowTraffic)
    | (extract_lets +onlyGivenNames x; refine Keeps.use (x := x) ?_ (fun hx => ?_); subst x; rotate_left; clear_value x)
    | (extract_lets +onlyGivenNames x; refine Keeps.useSnd (x := x) ?_ (fun hx => ?_); subst x; rotate_left; clear_value x)
    | (extract_lets +onlyGivenNames x; refine Keeps.useFst (x := x) ?_ (fun hx => ?_); subst x; rotate_left; clear_value x)
    | (extract_lets +onlyGivenNames x; refine Keeps.useThird (x := x) ?_ (fun hx => ?_); subst x; rotate_left; clear_value x)
    | (extract_lets +onlyGivenNames x; have _ := fun a => x a; subst x)
    | (extract_lets +onlyGivenNames x; clear_value x)
    | with_reducible apply Keeps.trans ?_ (Keeps.foldl _ _ ?_)
    | with_reducible apply Keeps.trans ?_ (Keeps.foldl_fst _ _ ?_)
    | with_reducible apply Keeps.trans ?_ (Keeps.foldl_snd _ _ ?_)
    | with_reducible intro _
    | split

theorem keeps_rewriteOne {r : Region} {at_ : Nat → CLoc} {old : Line} {get : Nat → State → Option Rec} {put : Nat → Rec → State → State} {fold : Nat → Nat} {who : Reader} {i : Nat} {s0 : State} (h_put : ∀ x0 x1 s, Keeps s (put x0 x1 s)) : Keeps s0 (rewriteOne r at_ old get put fold who i s0) := by
  unfold rewriteOne
  repeat' first
    | with_reducible exact Keeps.refl _
    | with_reducible assumption
    | with_reducible apply Keeps.trans ?_ (h_put _ _ _ )
    | with_reducible apply Keeps.trans ?_ (keeps_checkKey ?_)
    | with_reducible apply Keeps.trans ?_ (Keeps.triple (keeps_checkKey ?_) (by assumption))
    | with_reducible apply Keeps.trans ?_ (keeps_failCheck)
    | with_reducible apply Keeps.trans ?_ (keeps_encryptLine)
    | with_reducible apply Keeps.trans ?_ (Keeps.pair (keeps_encryptLine) (by assumption))
    | with_reducible apply Keeps.trans ?_ (keeps_shadowTraffic)
    | (extract_lets +onlyGivenNames x; refine Keeps.use (x := x) ?_ (fun hx => ?_); subst x; rotate_left; clear_value x)
    | (extract_lets +onlyGivenNames x; refine Keeps.useSnd (x := x) ?_ (fun hx => ?_); subst x; rotate_left; clear_value x)
    | (extract_lets +onlyGivenNames x; refine Keeps.useFst (x := x) ?_ (fun hx => ?_); subst x; rotate_left; clear_value x)
    | (extract_lets +onlyGivenNames x; refine Keeps.useThird (x := x) ?_ (fun hx => ?_); subst x; rotate_left; clear_value x)
    | (extract_lets +onlyGivenNames x; have _ := fun a => x a; subst x)
    | (extract_lets +onlyGivenNames x; clear_value x)
    | with_reducible apply Keeps.trans ?_ (Keeps.foldl _ _ ?_)
    | with_reducible apply Keeps.trans ?_ (Keeps.foldl_fst _ _ ?_)
    | with_reducible apply Keeps.trans ?_ (Keeps.foldl_snd _ _ ?_)
    | with_reducible intro _
    | split

theorem keeps_cryWrite {r : Region} {at_ : Nat → CLoc} {i : Nat} {plain : Line} {get : Nat → State → Option Rec} {put : Nat → Rec → State → State} {fold : Nat → Nat} {who : Reader} {s : State} (h_put : ∀ x0 x1 s, Keeps s (put x0 x1 s)) : Keeps s (cryWrite r at_ i plain get put fold who s).2 := by
  unfold cryWrite
  repeat' first
    | with_reducible exact Keeps.refl _
    | with_reducible assumption
    | with_reducible apply Keeps.trans ?_ (h_put _ _ _ )
    | with_reducible apply Keeps.trans ?_ (keeps_noKey)
    | with_reducible apply Keeps.trans ?_ (keeps_cacheFill)
    | with_reducible apply Keeps.trans ?_ (keeps_encryptLine)
    | with_reducible apply Keeps.trans ?_ (Keeps.pair (keeps_encryptLine) (by assumption))
    | with_reducible apply Keeps.trans ?_ (keeps_shadowTraffic)
    | with_reducible apply Keeps.trans ?_ (keeps_putCounter)
    | with_reducible apply Keeps.trans ?_ (keeps_failCheck)
    | with_reducible apply Keeps.trans ?_ (keeps_raiseReq)
    | with_reducible apply Keeps.trans ?_ (keeps_rewriteOne ?_)
    | (extract_lets +onlyGivenNames x; refine Keeps.use (x := x) ?_ (fun hx => ?_); subst x; rotate_left; clear_value x)
    | (extract_lets +onlyGivenNames x; refine Keeps.useSnd (x := x) ?_ (fun hx => ?_); subst x; rotate_left; clear_value x)
    | (extract_lets +onlyGivenNames x; refine Keeps.useFst (x := x) ?_ (fun hx => ?_); subst x; rotate_left; clear_value x)
    | (extract_lets +onlyGivenNames x; refine Keeps.useThird (x := x) ?_ (fun hx => ?_); subst x; rotate_left; clear_value x)
    | (extract_lets +onlyGivenNames x; have _ := fun a => x a; subst x)
    | (extract_lets +onlyGivenNames x; clear_value x)
    | with_reducible apply Keeps.trans ?_ (Keeps.foldl _ _ ?_)
    | with_reducible apply Keeps.trans ?_ (Keeps.foldl_fst _ _ ?_)
    | with_reducible apply Keeps.trans ?_ (Keeps.foldl_snd _ _ ?_)
    | with_reducible apply Keeps.trans ?_ (Keeps.pairFst (Keeps.foldl_fst _ _ ?_) (by assumption))
    | with_reducible apply Keeps.trans ?_ (Keeps.pair (Keeps.foldl_snd _ _ ?_) (by assumption))
    | with_reducible intro _
    | split

theorem keeps_askPage {line : Nat} {s : State} : Keeps s (askPage line s) := by
  unfold askPage
  repeat' first
    | with_reducible exact Keeps.refl _
    | with_reducible assumption
    | with_reducible apply Keeps.trans ?_ (keeps_askLine)
    | with_reducible apply Keeps.trans ?_ (Keeps.foldl _ _ ?_)
    | with_reducible apply Keeps.trans ?_ (Keeps.foldl_fst _ _ ?_)
    | with_reducible apply Keeps.trans ?_ (Keeps.foldl_snd _ _ ?_)
    | with_reducible apply Keeps.trans ?_ (Keeps.pairFst (Keeps.foldl_fst _ _ ?_) (by assumption))
    | with_reducible apply Keeps.trans ?_ (Keeps.pair (Keeps.foldl_snd _ _ ?_) (by assumption))
    | with_reducible intro _

theorem keeps_storeLine {line : Nat} {d : Line} {meta_ : BitVec 56} {who : Reader} {s : State} : Keeps s (storeLine line d meta_ who s).2 := by
  unfold storeLine
  repeat' first
    | with_reducible exact Keeps.refl _
    | with_reducible assumption
    | with_reducible apply Keeps.trans ?_ (keeps_cryWrite ?_)
    | with_reducible apply Keeps.trans ?_ (Keeps.pair (keeps_cryWrite ?_) (by assumption))
    | with_reducible apply Keeps.trans ?_ (keeps_putLine)
    | with_reducible apply Keeps.trans ?_ (keeps_rewritten)
    | with_reducible apply Keeps.trans ?_ (keeps_dropLine)
    | (extract_lets +onlyGivenNames x; refine Keeps.use (x := x) ?_ (fun hx => ?_); subst x; rotate_left; clear_value x)
    | (extract_lets +onlyGivenNames x; refine Keeps.useSnd (x := x) ?_ (fun hx => ?_); subst x; rotate_left; clear_value x)
    | (extract_lets +onlyGivenNames x; refine Keeps.useFst (x := x) ?_ (fun hx => ?_); subst x; rotate_left; clear_value x)
    | (extract_lets +onlyGivenNames x; refine Keeps.useThird (x := x) ?_ (fun hx => ?_); subst x; rotate_left; clear_value x)
    | (extract_lets +onlyGivenNames x; have _ := fun a => x a; subst x)
    | (extract_lets +onlyGivenNames x; clear_value x)
    | with_reducible apply Keeps.trans ?_ (Keeps.foldl _ _ ?_)
    | with_reducible apply Keeps.trans ?_ (Keeps.foldl_fst _ _ ?_)
    | with_reducible apply Keeps.trans ?_ (Keeps.foldl_snd _ _ ?_)
    | with_reducible apply Keeps.trans ?_ (Keeps.pairFst (Keeps.foldl_fst _ _ ?_) (by assumption))
    | with_reducible apply Keeps.trans ?_ (Keeps.pair (Keeps.foldl_snd _ _ ?_) (by assumption))
    | with_reducible intro _
    | split

theorem keeps_setPoison {line : Nat} {r : Rec} {s : State} : Keeps s (setPoison line r s) := by
  unfold setPoison
  repeat' first
    | with_reducible exact Keeps.refl _
    | with_reducible assumption
    | with_reducible apply Keeps.trans ?_ (keeps_addPoison)
    | with_reducible apply Keeps.trans ?_ (keeps_putLine)

theorem keeps_clearPoisonAt {line : Nat} {s : State} : Keeps s (clearPoisonAt line s) := by
  unfold clearPoisonAt
  repeat' first
    | with_reducible exact Keeps.refl _
    | with_reducible assumption
    | with_reducible apply Keeps.trans ?_ (keeps_dropPoison)

theorem keeps_damageItem {t : Item} {n : Nat} {who : Reader} {s : State} : Keeps s (damageItem t n who s) := by
  unfold damageItem
  repeat' first
    | with_reducible exact Keeps.refl _
    | with_reducible assumption
    | with_reducible apply Keeps.trans ?_ (keeps_markDamaged)
    | with_reducible apply Keeps.trans ?_ (keeps_addPoison)
    | with_reducible apply Keeps.trans ?_ (keeps_onCry (fun _ h => h))
    | with_reducible apply Keeps.trans ?_ (keeps_onCry ?_)
    | with_reducible apply Keeps.trans ?_ (keeps_shadowWrite)
    | with_reducible apply Keeps.trans ?_ (keeps_raiseReq)
    | (extract_lets +onlyGivenNames x; refine Keeps.use (x := x) ?_ (fun hx => ?_); subst x; rotate_left; clear_value x)
    | (extract_lets +onlyGivenNames x; refine Keeps.useSnd (x := x) ?_ (fun hx => ?_); subst x; rotate_left; clear_value x)
    | (extract_lets +onlyGivenNames x; refine Keeps.useFst (x := x) ?_ (fun hx => ?_); subst x; rotate_left; clear_value x)
    | (extract_lets +onlyGivenNames x; refine Keeps.useThird (x := x) ?_ (fun hx => ?_); subst x; rotate_left; clear_value x)
    | (extract_lets +onlyGivenNames x; have _ := fun a => x a; subst x)
    | (extract_lets +onlyGivenNames x; clear_value x)
    | with_reducible apply Keeps.trans ?_ (Keeps.foldl _ _ ?_)
    | with_reducible apply Keeps.trans ?_ (Keeps.foldl_fst _ _ ?_)
    | with_reducible apply Keeps.trans ?_ (Keeps.foldl_snd _ _ ?_)
    | with_reducible apply Keeps.trans ?_ (Keeps.pairFst (Keeps.foldl_fst _ _ ?_) (by assumption))
    | with_reducible apply Keeps.trans ?_ (Keeps.pair (Keeps.foldl_snd _ _ ?_) (by assumption))
    | with_reducible intro _
    | split

theorem keeps_taint {addr : Nat} {s : State} : Keeps s (taint addr s) := by
  unfold taint
  repeat' first
    | with_reducible exact Keeps.refl _
    | with_reducible assumption
    | with_reducible apply Keeps.trans ?_ (keeps_onCry (fun _ h => h))

theorem keeps_tagLineLost {r : Region} {c : CLoc} {line : Nat} {who : Reader} {s : State} : Keeps s (tagLineLost r c line who s) := by
  unfold tagLineLost
  repeat' first
    | with_reducible exact Keeps.refl _
    | with_reducible assumption
    | with_reducible apply Keeps.trans ?_ (keeps_shadowWrite)
    | with_reducible apply Keeps.trans ?_ (keeps_onCry (fun _ h => h))
    | with_reducible apply Keeps.trans ?_ (keeps_onCry ?_)
    | with_reducible apply Keeps.trans ?_ (keeps_setPoison)
    | with_reducible apply Keeps.trans ?_ (keeps_addPoison)
    | with_reducible apply Keeps.trans ?_ (keeps_taint)
    | with_reducible apply Keeps.trans ?_ (keeps_raiseReq)
    | (extract_lets +onlyGivenNames x; refine Keeps.use (x := x) ?_ (fun hx => ?_); subst x; rotate_left; clear_value x)
    | (extract_lets +onlyGivenNames x; refine Keeps.useSnd (x := x) ?_ (fun hx => ?_); subst x; rotate_left; clear_value x)
    | (extract_lets +onlyGivenNames x; refine Keeps.useFst (x := x) ?_ (fun hx => ?_); subst x; rotate_left; clear_value x)
    | (extract_lets +onlyGivenNames x; refine Keeps.useThird (x := x) ?_ (fun hx => ?_); subst x; rotate_left; clear_value x)
    | (extract_lets +onlyGivenNames x; have _ := fun a => x a; subst x)
    | (extract_lets +onlyGivenNames x; clear_value x)
    | with_reducible apply Keeps.trans ?_ (Keeps.foldl _ _ ?_)
    | with_reducible apply Keeps.trans ?_ (Keeps.foldl_fst _ _ ?_)
    | with_reducible apply Keeps.trans ?_ (Keeps.foldl_snd _ _ ?_)
    | with_reducible apply Keeps.trans ?_ (Keeps.pairFst (Keeps.foldl_fst _ _ ?_) (by assumption))
    | with_reducible apply Keeps.trans ?_ (Keeps.pair (Keeps.foldl_snd _ _ ?_) (by assumption))
    | with_reducible intro _
    | split

theorem keeps_countShadow {r : Region} {t area : Nat} {x : Sum (Nat × Nat) (Nat × Nat)} {f : Flips} {s : State} : Keeps s (countShadow r t area x f s) := by
  unfold countShadow
  repeat' first
    | with_reducible exact Keeps.refl _
    | with_reducible assumption
    | with_reducible apply Keeps.trans ?_ (keeps_countUe)
    | with_reducible apply Keeps.trans ?_ (keeps_countCe)
    | (extract_lets +onlyGivenNames x; refine Keeps.use (x := x) ?_ (fun hx => ?_); subst x; rotate_left; clear_value x)
    | (extract_lets +onlyGivenNames x; refine Keeps.useSnd (x := x) ?_ (fun hx => ?_); subst x; rotate_left; clear_value x)
    | (extract_lets +onlyGivenNames x; refine Keeps.useFst (x := x) ?_ (fun hx => ?_); subst x; rotate_left; clear_value x)
    | (extract_lets +onlyGivenNames x; refine Keeps.useThird (x := x) ?_ (fun hx => ?_); subst x; rotate_left; clear_value x)
    | (extract_lets +onlyGivenNames x; have _ := fun a => x a; subst x)
    | (extract_lets +onlyGivenNames x; clear_value x)
    | with_reducible apply Keeps.trans ?_ (Keeps.foldl _ _ ?_)
    | with_reducible apply Keeps.trans ?_ (Keeps.foldl_fst _ _ ?_)
    | with_reducible apply Keeps.trans ?_ (Keeps.foldl_snd _ _ ?_)
    | with_reducible intro _
    | split

theorem keeps_flipTag {c : CLoc} {f : Flips} {s : State} : Keeps s (flipTag c f s) := by
  unfold flipTag
  repeat' first
    | with_reducible exact Keeps.refl _
    | with_reducible assumption
    | with_reducible apply Keeps.trans ?_ (keeps_onCry (fun _ h => h))
    | with_reducible apply Keeps.trans ?_ (keeps_onCry ?_)
    | with_reducible apply Keeps.trans ?_ (Keeps.foldl _ _ ?_)
    | with_reducible apply Keeps.trans ?_ (Keeps.foldl_fst _ _ ?_)
    | with_reducible apply Keeps.trans ?_ (Keeps.foldl_snd _ _ ?_)
    | with_reducible intro _
    | split

theorem keeps_flipItem {t : Item} {f : Flips} {s : State} : Keeps s (flipItem t f s) := by
  unfold flipItem
  repeat' first
    | with_reducible exact Keeps.refl _
    | with_reducible assumption
    | with_reducible apply Keeps.trans ?_ (keeps_onCry (fun _ h => h))
    | with_reducible apply Keeps.trans ?_ (keeps_onCry ?_)
    | with_reducible apply Keeps.trans ?_ (Keeps.foldl _ _ ?_)
    | with_reducible apply Keeps.trans ?_ (Keeps.foldl_fst _ _ ?_)
    | with_reducible apply Keeps.trans ?_ (Keeps.foldl_snd _ _ ?_)
    | with_reducible intro _
    | split

theorem keeps_cacheParity {c : CLoc} {t : Item} {who : Reader} {s : State} : Keeps s (cacheParity c t who s) := by
  unfold cacheParity
  repeat' first
    | with_reducible exact Keeps.refl _
    | with_reducible assumption
    | with_reducible apply Keeps.trans ?_ (keeps_damageItem)
    | with_reducible apply Keeps.trans ?_ (keeps_addCnt)
    | with_reducible apply Keeps.trans ?_ (keeps_onCry (fun _ h => h))
    | with_reducible apply Keeps.trans ?_ (keeps_onCry ?_)
    | with_reducible apply Keeps.trans ?_ (Keeps.foldl _ _ ?_)
    | with_reducible apply Keeps.trans ?_ (Keeps.foldl_fst _ _ ?_)
    | with_reducible apply Keeps.trans ?_ (Keeps.foldl_snd _ _ ?_)
    | with_reducible intro _
    | split

theorem keeps_onDieParity {c : CLoc} {which addr : Nat} {s : State} : Keeps s (onDieParity c which addr s) := by
  unfold onDieParity
  repeat' first
    | with_reducible exact Keeps.refl _
    | with_reducible assumption
    | with_reducible apply Keeps.trans ?_ (keeps_raiseWith)

theorem keeps_applyShadow {r : Region} {c : CLoc} {line : Nat} {sh : ShadowFlips} {who : Reader} {s : State} : Keeps s (applyShadow r c line sh who s) := by
  unfold applyShadow
  repeat' first
    | with_reducible exact Keeps.refl _
    | with_reducible assumption
    | with_reducible apply Keeps.trans ?_ (keeps_onDieParity)
    | with_reducible apply Keeps.trans ?_ (keeps_cacheParity)
    | with_reducible apply Keeps.trans ?_ (keeps_countShadow)
    | with_reducible apply Keeps.trans ?_ (keeps_tagLineLost)
    | with_reducible apply Keeps.trans ?_ (keeps_flipTag)
    | with_reducible apply Keeps.trans ?_ (keeps_damageItem)
    | with_reducible apply Keeps.trans ?_ (keeps_flipItem)
    | (extract_lets +onlyGivenNames x; refine Keeps.use (x := x) ?_ (fun hx => ?_); subst x; rotate_left; clear_value x)
    | (extract_lets +onlyGivenNames x; refine Keeps.useSnd (x := x) ?_ (fun hx => ?_); subst x; rotate_left; clear_value x)
    | (extract_lets +onlyGivenNames x; refine Keeps.useFst (x := x) ?_ (fun hx => ?_); subst x; rotate_left; clear_value x)
    | (extract_lets +onlyGivenNames x; refine Keeps.useThird (x := x) ?_ (fun hx => ?_); subst x; rotate_left; clear_value x)
    | (extract_lets +onlyGivenNames x; have _ := fun a => x a; subst x)
    | (extract_lets +onlyGivenNames x; clear_value x)
    | with_reducible apply Keeps.trans ?_ (Keeps.foldl _ _ ?_)
    | with_reducible apply Keeps.trans ?_ (Keeps.foldl_fst _ _ ?_)
    | with_reducible apply Keeps.trans ?_ (Keeps.foldl_snd _ _ ?_)
    | with_reducible apply Keeps.trans ?_ (Keeps.pairFst (Keeps.foldl_fst _ _ ?_) (by assumption))
    | with_reducible apply Keeps.trans ?_ (Keeps.pair (Keeps.foldl_snd _ _ ?_) (by assumption))
    | with_reducible intro _
    | split

theorem keeps_onRing {r : Nat} {f : Ring → Ring} {s : State} : Keeps s (onRing r f s) := by
  unfold onRing
  repeat' first
    | with_reducible exact Keeps.refl _
    | with_reducible assumption
    | with_reducible apply Keeps.trans ?_ keeps_onJob

theorem keeps_setJob {r n : Nat} {j : Option Job} {s : State} : Keeps s (setJob r n j s) := by
  unfold setJob
  repeat' first
    | with_reducible exact Keeps.refl _
    | with_reducible assumption
    | with_reducible apply Keeps.trans ?_ keeps_onJob

theorem keeps_setPart {r n j : Nat} {p : Option Part} {s : State} : Keeps s (setPart r n j p s) := by
  unfold setPart
  repeat' first
    | with_reducible exact Keeps.refl _
    | with_reducible assumption
    | with_reducible apply Keeps.trans ?_ keeps_onJob

theorem keeps_ringWrite {a : Agent} {r : Nat} {ownerMay : Bool} {f : State → State} {s : State} (h_f : ∀ s, Keeps s (f s)) : Keeps s (ringWrite a r ownerMay f s) := by
  unfold ringWrite
  repeat' first
    | with_reducible exact Keeps.refl _
    | with_reducible assumption
    | with_reducible apply Keeps.trans ?_ (h_f _ )
    | with_reducible apply Keeps.trans ?_ (keeps_addCnt)
    | (extract_lets +onlyGivenNames x; refine Keeps.use (x := x) ?_ (fun hx => ?_); subst x; rotate_left; clear_value x)
    | (extract_lets +onlyGivenNames x; refine Keeps.useSnd (x := x) ?_ (fun hx => ?_); subst x; rotate_left; clear_value x)
    | (extract_lets +onlyGivenNames x; refine Keeps.useFst (x := x) ?_ (fun hx => ?_); subst x; rotate_left; clear_value x)
    | (extract_lets +onlyGivenNames x; refine Keeps.useThird (x := x) ?_ (fun hx => ?_); subst x; rotate_left; clear_value x)
    | (extract_lets +onlyGivenNames x; have _ := fun a => x a; subst x)
    | (extract_lets +onlyGivenNames x; clear_value x)
    | with_reducible apply Keeps.trans ?_ (Keeps.foldl _ _ ?_)
    | with_reducible apply Keeps.trans ?_ (Keeps.foldl_fst _ _ ?_)
    | with_reducible apply Keeps.trans ?_ (Keeps.foldl_snd _ _ ?_)
    | with_reducible intro _
    | split

theorem keeps_writeTail {r : Nat} {v : W32} {s : State} : Keeps s (writeTail r v s) := by
  unfold writeTail
  repeat' first
    | with_reducible exact Keeps.refl _
    | with_reducible assumption
    | with_reducible apply Keeps.trans ?_ (keeps_onRing)
    | (extract_lets +onlyGivenNames x; refine Keeps.use (x := x) ?_ (fun hx => ?_); subst x; rotate_left; clear_value x)
    | (extract_lets +onlyGivenNames x; refine Keeps.useSnd (x := x) ?_ (fun hx => ?_); subst x; rotate_left; clear_value x)
    | (extract_lets +onlyGivenNames x; refine Keeps.useFst (x := x) ?_ (fun hx => ?_); subst x; rotate_left; clear_value x)
    | (extract_lets +onlyGivenNames x; refine Keeps.useThird (x := x) ?_ (fun hx => ?_); subst x; rotate_left; clear_value x)
    | (extract_lets +onlyGivenNames x; have _ := fun a => x a; subst x)
    | (extract_lets +onlyGivenNames x; clear_value x)
    | with_reducible apply Keeps.trans ?_ (Keeps.foldl _ _ ?_)
    | with_reducible apply Keeps.trans ?_ (Keeps.foldl_fst _ _ ?_)
    | with_reducible apply Keeps.trans ?_ (Keeps.foldl_snd _ _ ?_)
    | with_reducible intro _
    | split

theorem keeps_writeCqHead {r : Nat} {v : W32} {s : State} : Keeps s (writeCqHead r v s) := by
  unfold writeCqHead
  repeat' first
    | with_reducible exact Keeps.refl _
    | with_reducible assumption
    | with_reducible apply Keeps.trans ?_ (keeps_onRing)
    | (extract_lets +onlyGivenNames x; refine Keeps.use (x := x) ?_ (fun hx => ?_); subst x; rotate_left; clear_value x)
    | (extract_lets +onlyGivenNames x; refine Keeps.useSnd (x := x) ?_ (fun hx => ?_); subst x; rotate_left; clear_value x)
    | (extract_lets +onlyGivenNames x; refine Keeps.useFst (x := x) ?_ (fun hx => ?_); subst x; rotate_left; clear_value x)
    | (extract_lets +onlyGivenNames x; refine Keeps.useThird (x := x) ?_ (fun hx => ?_); subst x; rotate_left; clear_value x)
    | (extract_lets +onlyGivenNames x; have _ := fun a => x a; subst x)
    | (extract_lets +onlyGivenNames x; clear_value x)
    | with_reducible apply Keeps.trans ?_ (Keeps.foldl _ _ ?_)
    | with_reducible apply Keeps.trans ?_ (Keeps.foldl_fst _ _ ?_)
    | with_reducible apply Keeps.trans ?_ (Keeps.foldl_snd _ _ ?_)
    | with_reducible intro _
    | split

theorem keeps_writeRingCfg {r : Nat} {v : W32} {s : State} : Keeps s (writeRingCfg r v s) := by
  unfold writeRingCfg
  repeat' first
    | with_reducible exact Keeps.refl _
    | with_reducible assumption
    | with_reducible apply Keeps.trans ?_ (keeps_onRing)
    | with_reducible apply Keeps.trans ?_ (Keeps.foldl _ _ ?_)
    | with_reducible apply Keeps.trans ?_ (Keeps.foldl_fst _ _ ?_)
    | with_reducible apply Keeps.trans ?_ (Keeps.foldl_snd _ _ ?_)
    | with_reducible intro _
    | split

theorem keeps_writeRingBase {r : Nat} {cq : Bool} {v : W64} {s : State} : Keeps s (writeRingBase r cq v s) := by
  unfold writeRingBase
  repeat' first
    | with_reducible exact Keeps.refl _
    | with_reducible assumption
    | with_reducible apply Keeps.trans ?_ (keeps_onRing)
    | (extract_lets +onlyGivenNames x; refine Keeps.use (x := x) ?_ (fun hx => ?_); subst x; rotate_left; clear_value x)
    | (extract_lets +onlyGivenNames x; refine Keeps.useSnd (x := x) ?_ (fun hx => ?_); subst x; rotate_left; clear_value x)
    | (extract_lets +onlyGivenNames x; refine Keeps.useFst (x := x) ?_ (fun hx => ?_); subst x; rotate_left; clear_value x)
    | (extract_lets +onlyGivenNames x; refine Keeps.useThird (x := x) ?_ (fun hx => ?_); subst x; rotate_left; clear_value x)
    | (extract_lets +onlyGivenNames x; have _ := fun a => x a; subst x)
    | (extract_lets +onlyGivenNames x; clear_value x)
    | with_reducible apply Keeps.trans ?_ (Keeps.foldl _ _ ?_)
    | with_reducible apply Keeps.trans ?_ (Keeps.foldl_fst _ _ ?_)
    | with_reducible apply Keeps.trans ?_ (Keeps.foldl_snd _ _ ?_)
    | with_reducible intro _
    | split

theorem keeps_enableRing {r : Nat} {s : State} : Keeps s (enableRing r s).1 := by
  unfold enableRing
  repeat' first
    | with_reducible exact Keeps.refl _
    | with_reducible assumption
    | with_reducible apply Keeps.trans ?_ (keeps_onRing)
    | (extract_lets +onlyGivenNames x; refine Keeps.use (x := x) ?_ (fun hx => ?_); subst x; rotate_left; clear_value x)
    | (extract_lets +onlyGivenNames x; refine Keeps.useSnd (x := x) ?_ (fun hx => ?_); subst x; rotate_left; clear_value x)
    | (extract_lets +onlyGivenNames x; refine Keeps.useFst (x := x) ?_ (fun hx => ?_); subst x; rotate_left; clear_value x)
    | (extract_lets +onlyGivenNames x; refine Keeps.useThird (x := x) ?_ (fun hx => ?_); subst x; rotate_left; clear_value x)
    | (extract_lets +onlyGivenNames x; have _ := fun a => x a; subst x)
    | (extract_lets +onlyGivenNames x; clear_value x)
    | with_reducible apply Keeps.trans ?_ (Keeps.foldl _ _ ?_)
    | with_reducible apply Keeps.trans ?_ (Keeps.foldl_fst _ _ ?_)
    | with_reducible apply Keeps.trans ?_ (Keeps.foldl_snd _ _ ?_)
    | with_reducible intro _
    | split

theorem keeps_queueRecord {r n status flags detail : Nat} {user : W64} {s : State} : Keeps s (queueRecord r n status flags detail user s) := by
  unfold queueRecord
  repeat' first
    | with_reducible exact Keeps.refl _
    | with_reducible assumption
    | with_reducible apply Keeps.trans ?_ (keeps_onRing)

theorem keeps_cancelJobs {r : Nat} {s : State} : Keeps s (cancelJobs r s) := by
  unfold cancelJobs
  repeat' first
    | with_reducible exact Keeps.refl _
    | with_reducible assumption
    | with_reducible apply Keeps.trans ?_ (keeps_setJob)
    | with_reducible apply Keeps.trans ?_ (keeps_queueRecord)
    | (extract_lets +onlyGivenNames x; refine Keeps.use (x := x) ?_ (fun hx => ?_); subst x; rotate_left; clear_value x)
    | (extract_lets +onlyGivenNames x; refine Keeps.useSnd (x := x) ?_ (fun hx => ?_); subst x; rotate_left; clear_value x)
    | (extract_lets +onlyGivenNames x; refine Keeps.useFst (x := x) ?_ (fun hx => ?_); subst x; rotate_left; clear_value x)
    | (extract_lets +onlyGivenNames x; refine Keeps.useThird (x := x) ?_ (fun hx => ?_); subst x; rotate_left; clear_value x)
    | (extract_lets +onlyGivenNames x; have _ := fun a => x a; subst x)
    | (extract_lets +onlyGivenNames x; clear_value x)
    | with_reducible apply Keeps.trans ?_ (Keeps.foldl _ _ ?_)
    | with_reducible apply Keeps.trans ?_ (Keeps.foldl_fst _ _ ?_)
    | with_reducible apply Keeps.trans ?_ (Keeps.foldl_snd _ _ ?_)
    | with_reducible apply Keeps.trans ?_ (Keeps.pairFst (Keeps.foldl_fst _ _ ?_) (by assumption))
    | with_reducible apply Keeps.trans ?_ (Keeps.pair (Keeps.foldl_snd _ _ ?_) (by assumption))
    | with_reducible intro _
    | split

theorem keeps_markDone {r : Nat} {s : State} : Keeps s (markDone r s) := by
  unfold markDone
  repeat' first
    | with_reducible exact Keeps.refl _
    | with_reducible assumption
    | with_reducible apply Keeps.trans ?_ (keeps_onRing)
    | (extract_lets +onlyGivenNames x; refine Keeps.use (x := x) ?_ (fun hx => ?_); subst x; rotate_left; clear_value x)
    | (extract_lets +onlyGivenNames x; refine Keeps.useSnd (x := x) ?_ (fun hx => ?_); subst x; rotate_left; clear_value x)
    | (extract_lets +onlyGivenNames x; refine Keeps.useFst (x := x) ?_ (fun hx => ?_); subst x; rotate_left; clear_value x)
    | (extract_lets +onlyGivenNames x; refine Keeps.useThird (x := x) ?_ (fun hx => ?_); subst x; rotate_left; clear_value x)
    | (extract_lets +onlyGivenNames x; have _ := fun a => x a; subst x)
    | (extract_lets +onlyGivenNames x; clear_value x)
    | with_reducible apply Keeps.trans ?_ (Keeps.foldl _ _ ?_)
    | with_reducible apply Keeps.trans ?_ (Keeps.foldl_fst _ _ ?_)
    | with_reducible apply Keeps.trans ?_ (Keeps.foldl_snd _ _ ?_)
    | with_reducible intro _
    | split

theorem keeps_abortRing {r : Nat} {s : State} : Keeps s (abortRing r s) := by
  unfold abortRing
  repeat' first
    | with_reducible exact Keeps.refl _
    | with_reducible assumption
    | with_reducible apply Keeps.trans ?_ (keeps_markDone)
    | with_reducible apply Keeps.trans ?_ (keeps_cancelJobs)
    | with_reducible apply Keeps.trans ?_ (keeps_onRing)
    | with_reducible apply Keeps.trans ?_ (Keeps.foldl _ _ ?_)
    | with_reducible apply Keeps.trans ?_ (Keeps.foldl_fst _ _ ?_)
    | with_reducible apply Keeps.trans ?_ (Keeps.foldl_snd _ _ ?_)
    | with_reducible intro _
    | split

theorem keeps_disableRing {r : Nat} {s : State} : Keeps s (disableRing r s) := by
  unfold disableRing
  repeat' first
    | with_reducible exact Keeps.refl _
    | with_reducible assumption
    | with_reducible apply Keeps.trans ?_ (keeps_markDone)
    | with_reducible apply Keeps.trans ?_ (keeps_cancelJobs)
    | with_reducible apply Keeps.trans ?_ (keeps_onRing)
    | (extract_lets +onlyGivenNames x; refine Keeps.use (x := x) ?_ (fun hx => ?_); subst x; rotate_left; clear_value x)
    | (extract_lets +onlyGivenNames x; refine Keeps.useSnd (x := x) ?_ (fun hx => ?_); subst x; rotate_left; clear_value x)
    | (extract_lets +onlyGivenNames x; refine Keeps.useFst (x := x) ?_ (fun hx => ?_); subst x; rotate_left; clear_value x)
    | (extract_lets +onlyGivenNames x; refine Keeps.useThird (x := x) ?_ (fun hx => ?_); subst x; rotate_left; clear_value x)
    | (extract_lets +onlyGivenNames x; have _ := fun a => x a; subst x)
    | (extract_lets +onlyGivenNames x; clear_value x)
    | with_reducible apply Keeps.trans ?_ (Keeps.foldl _ _ ?_)
    | with_reducible apply Keeps.trans ?_ (Keeps.foldl_fst _ _ ?_)
    | with_reducible apply Keeps.trans ?_ (Keeps.foldl_snd _ _ ?_)
    | with_reducible intro _
    | split

theorem keeps_setTrk {t line : Nat} {k : Trk} {s : State} : Keeps s (setTrk t line k s) := by
  unfold setTrk
  repeat' first
    | with_reducible exact Keeps.refl _
    | with_reducible assumption
    | with_reducible apply Keeps.trans ?_ (keeps_onNc (fun h => h))

theorem keeps_setOps {t line : Nat} {l : List WOp} {s : State} : Keeps s (setOps t line l s) := by
  unfold setOps
  repeat' first
    | with_reducible exact Keeps.refl _
    | with_reducible assumption
    | with_reducible apply Keeps.trans ?_ (keeps_onNc (fun h => h))

theorem keeps_setEvb {t line : Nat} {v : Option LVal} {s : State} : Keeps s (setEvb t line v s) := by
  unfold setEvb
  repeat' first
    | with_reducible exact Keeps.refl _
    | with_reducible assumption
    | with_reducible apply Keeps.trans ?_ (keeps_onNc (fun h => h))

theorem keeps_setNcSlot {t set w : Nat} {x : Slot} {s : State} : Keeps s (setNcSlot t set w x s) := by
  unfold setNcSlot
  repeat' first
    | with_reducible exact Keeps.refl _
    | with_reducible assumption
    | with_reducible apply Keeps.trans ?_ (keeps_onNc (fun h => h))

end Sys2Proof.Machine
end

