-- ==== Sys2Proof/Laws/Keeps6.lean ====
section
/-!
SUPPORT. What the operations of the block keep, part 6: one lemma for each, in the order of their files.
-/
namespace Sys2Proof.Machine

theorem keeps_touchWay {t set w : Nat} {s : State} : Keeps s (touchWay t set w s) := by
  unfold touchWay
  repeat' first
    | with_reducible exact Keeps.refl _
    | with_reducible assumption
    | with_reducible apply Keeps.trans ?_ (keeps_onNc (fun h => h))

theorem keeps_putCopy {t line : Nat} {st : LineSt} {v : LVal} {s : State} : Keeps s (putCopy t line st v s) := by
  unfold putCopy
  repeat' first
    | with_reducible exact Keeps.refl _
    | with_reducible assumption
    | with_reducible apply Keeps.trans ?_ (keeps_setTrk)
    | with_reducible apply Keeps.trans ?_ (keeps_setNcSlot)
    | (extract_lets +onlyGivenNames x; refine Keeps.use (x := x) ?_ (fun hx => ?_); subst x; rotate_left; clear_value x)
    | (extract_lets +onlyGivenNames x; refine Keeps.useSnd (x := x) ?_ (fun hx => ?_); subst x; rotate_left; clear_value x)
    | (extract_lets +onlyGivenNames x; refine Keeps.useFst (x := x) ?_ (fun hx => ?_); subst x; rotate_left; clear_value x)
    | (extract_lets +onlyGivenNames x; refine Keeps.useThird (x := x) ?_ (fun hx => ?_); subst x; rotate_left; clear_value x)
    | (extract_lets +onlyGivenNames x; have _ := fun a => x a; subst x)
    | (extract_lets +onlyGivenNames x; clear_value x)
    | with_reducible apply Keeps.trans ?_ (Keeps.foldl _ _ ?_)
    | with_reducible apply Keeps.trans ?_ (Keeps.foldl_fst _ _ ?_)
    | with_reducible apply Keeps.trans ?_ (Keeps.foldl_snd _ _ ?_)
    | with_reducible intro _
    | split

theorem keeps_touchLine {t line : Nat} {s : State} : Keeps s (touchLine t line s) := by
  unfold touchLine
  repeat' first
    | with_reducible exact Keeps.refl _
    | with_reducible assumption
    | with_reducible apply Keeps.trans ?_ (keeps_touchWay)
    | (extract_lets +onlyGivenNames x; refine Keeps.use (x := x) ?_ (fun hx => ?_); subst x; rotate_left; clear_value x)
    | (extract_lets +onlyGivenNames x; refine Keeps.useSnd (x := x) ?_ (fun hx => ?_); subst x; rotate_left; clear_value x)
    | (extract_lets +onlyGivenNames x; refine Keeps.useFst (x := x) ?_ (fun hx => ?_); subst x; rotate_left; clear_value x)
    | (extract_lets +onlyGivenNames x; refine Keeps.useThird (x := x) ?_ (fun hx => ?_); subst x; rotate_left; clear_value x)
    | (extract_lets +onlyGivenNames x; have _ := fun a => x a; subst x)
    | (extract_lets +onlyGivenNames x; clear_value x)
    | with_reducible apply Keeps.trans ?_ (Keeps.foldl _ _ ?_)
    | with_reducible apply Keeps.trans ?_ (Keeps.foldl_fst _ _ ?_)
    | with_reducible apply Keeps.trans ?_ (Keeps.foldl_snd _ _ ?_)
    | with_reducible intro _
    | split

theorem keeps_markWritten {line : Nat} {s : State} : Keeps s (markWritten line s) := by
  unfold markWritten
  repeat' first
    | with_reducible exact Keeps.refl _
    | with_reducible assumption
    | with_reducible apply Keeps.trans ?_ keeps_onHa

theorem keeps_countUnwritten {line : Nat} {a : Attr} {s : State} : Keeps s (countUnwritten line a s) := by
  unfold countUnwritten
  repeat' first
    | with_reducible exact Keeps.refl _
    | with_reducible assumption
    | with_reducible apply Keeps.trans ?_ (keeps_addCnt)
    | with_reducible apply Keeps.trans ?_ (Keeps.foldl _ _ ?_)
    | with_reducible apply Keeps.trans ?_ (Keeps.foldl_fst _ _ ?_)
    | with_reducible apply Keeps.trans ?_ (Keeps.foldl_snd _ _ ?_)
    | with_reducible intro _
    | split

theorem keeps_sendHom {m : Msg} {s : State} : Keeps s (sendHom m s) := by
  unfold sendHom
  repeat' first
    | with_reducible exact Keeps.refl _
    | with_reducible assumption
    | with_reducible apply Keeps.trans ?_ keeps_onFab
    | with_reducible apply Keeps.trans ?_ (Keeps.foldl _ _ ?_)
    | with_reducible apply Keeps.trans ?_ (Keeps.foldl_fst _ _ ?_)
    | with_reducible apply Keeps.trans ?_ (Keeps.foldl_snd _ _ ?_)
    | with_reducible intro _
    | split

theorem keeps_sendRsp {m : Msg} {s : State} : Keeps s (sendRsp m s) := by
  unfold sendRsp
  repeat' first
    | with_reducible exact Keeps.refl _
    | with_reducible assumption
    | with_reducible apply Keeps.trans ?_ keeps_onFab
    | with_reducible apply Keeps.trans ?_ (Keeps.foldl _ _ ?_)
    | with_reducible apply Keeps.trans ?_ (Keeps.foldl_fst _ _ ?_)
    | with_reducible apply Keeps.trans ?_ (Keeps.foldl_snd _ _ ?_)
    | with_reducible intro _
    | split

theorem keeps_sendFwd {m : Msg} {s : State} : Keeps s (sendFwd m s) := by
  unfold sendFwd
  repeat' first
    | with_reducible exact Keeps.refl _
    | with_reducible assumption
    | with_reducible apply Keeps.trans ?_ keeps_onFab
    | with_reducible apply Keeps.trans ?_ (Keeps.foldl _ _ ?_)
    | with_reducible apply Keeps.trans ?_ (Keeps.foldl_fst _ _ ?_)
    | with_reducible apply Keeps.trans ?_ (Keeps.foldl_snd _ _ ?_)
    | with_reducible intro _
    | split

theorem keeps_writeBack {t line : Nat} {v : LVal} {s : State} : Keeps s (writeBack t line v s) := by
  unfold writeBack
  repeat' first
    | with_reducible exact Keeps.refl _
    | with_reducible assumption
    | with_reducible apply Keeps.trans ?_ (keeps_sendRsp)
    | with_reducible apply Keeps.trans ?_ (keeps_setEvb)
    | with_reducible apply Keeps.trans ?_ (keeps_addCnt)
    | (extract_lets +onlyGivenNames x; refine Keeps.use (x := x) ?_ (fun hx => ?_); subst x; rotate_left; clear_value x)
    | (extract_lets +onlyGivenNames x; refine Keeps.useSnd (x := x) ?_ (fun hx => ?_); subst x; rotate_left; clear_value x)
    | (extract_lets +onlyGivenNames x; refine Keeps.useFst (x := x) ?_ (fun hx => ?_); subst x; rotate_left; clear_value x)
    | (extract_lets +onlyGivenNames x; refine Keeps.useThird (x := x) ?_ (fun hx => ?_); subst x; rotate_left; clear_value x)
    | (extract_lets +onlyGivenNames x; have _ := fun a => x a; subst x)
    | (extract_lets +onlyGivenNames x; clear_value x)
    | with_reducible apply Keeps.trans ?_ (Keeps.foldl _ _ ?_)
    | with_reducible apply Keeps.trans ?_ (Keeps.foldl_fst _ _ ?_)
    | with_reducible apply Keeps.trans ?_ (Keeps.foldl_snd _ _ ?_)
    | with_reducible intro _
    | split

theorem keeps_dropBad {t line : Nat} {s : State} : Keeps s (dropBad t line s) := by
  unfold dropBad
  repeat' first
    | with_reducible exact Keeps.refl _
    | with_reducible assumption
    | with_reducible apply Keeps.trans ?_ (keeps_setTrk)
    | with_reducible apply Keeps.trans ?_ (keeps_putCopy)
    | with_reducible apply Keeps.trans ?_ (keeps_writeBack)
    | with_reducible apply Keeps.trans ?_ (keeps_setNcSlot)
    | (extract_lets +onlyGivenNames x; refine Keeps.use (x := x) ?_ (fun hx => ?_); subst x; rotate_left; clear_value x)
    | (extract_lets +onlyGivenNames x; refine Keeps.useSnd (x := x) ?_ (fun hx => ?_); subst x; rotate_left; clear_value x)
    | (extract_lets +onlyGivenNames x; refine Keeps.useFst (x := x) ?_ (fun hx => ?_); subst x; rotate_left; clear_value x)
    | (extract_lets +onlyGivenNames x; refine Keeps.useThird (x := x) ?_ (fun hx => ?_); subst x; rotate_left; clear_value x)
    | (extract_lets +onlyGivenNames x; have _ := fun a => x a; subst x)
    | (extract_lets +onlyGivenNames x; clear_value x)
    | with_reducible apply Keeps.trans ?_ (Keeps.foldl _ _ ?_)
    | with_reducible apply Keeps.trans ?_ (Keeps.foldl_fst _ _ ?_)
    | with_reducible apply Keeps.trans ?_ (Keeps.foldl_snd _ _ ?_)
    | with_reducible intro _
    | split

theorem keeps_train {t line : Nat} {up : Bool} {n : Nat} {s : State} : Keeps s (train t line up n s) := by
  unfold train
  repeat' first
    | with_reducible exact Keeps.refl _
    | with_reducible assumption
    | with_reducible apply Keeps.trans ?_ (keeps_onNc (fun h => h))
    | with_reducible apply Keeps.trans ?_ (keeps_onNc (by intro h; apply Table.wf_set; exact h))
    | (extract_lets +onlyGivenNames x; refine Keeps.use (x := x) ?_ (fun hx => ?_); subst x; rotate_left; clear_value x)
    | (extract_lets +onlyGivenNames x; refine Keeps.useSnd (x := x) ?_ (fun hx => ?_); subst x; rotate_left; clear_value x)
    | (extract_lets +onlyGivenNames x; refine Keeps.useFst (x := x) ?_ (fun hx => ?_); subst x; rotate_left; clear_value x)
    | (extract_lets +onlyGivenNames x; refine Keeps.useThird (x := x) ?_ (fun hx => ?_); subst x; rotate_left; clear_value x)
    | (extract_lets +onlyGivenNames x; have _ := fun a => x a; subst x)
    | (extract_lets +onlyGivenNames x; clear_value x)
    | with_reducible apply Keeps.trans ?_ (Keeps.foldl _ _ ?_)
    | with_reducible apply Keeps.trans ?_ (Keeps.foldl_fst _ _ ?_)
    | with_reducible apply Keeps.trans ?_ (Keeps.foldl_snd _ _ ?_)
    | with_reducible intro _
    | split

theorem keeps_trainNear {t line : Nat} {k : FillKind} {s : State} : Keeps s (trainNear t line k s) := by
  unfold trainNear
  repeat' first
    | with_reducible exact Keeps.refl _
    | with_reducible assumption
    | with_reducible apply Keeps.trans ?_ (keeps_train)
    | with_reducible apply Keeps.trans ?_ (Keeps.foldl _ _ ?_)
    | with_reducible apply Keeps.trans ?_ (Keeps.foldl_fst _ _ ?_)
    | with_reducible apply Keeps.trans ?_ (Keeps.foldl_snd _ _ ?_)
    | with_reducible intro _
    | split

theorem keeps_countUnits {t : Nat} {a : Attr} {wr : Bool} {s : State} : Keeps s (countUnits t a wr s) := by
  unfold countUnits
  repeat' first
    | with_reducible exact Keeps.refl _
    | with_reducible assumption
    | with_reducible apply Keeps.trans ?_ (keeps_addUnits)
    | (extract_lets +onlyGivenNames x; refine Keeps.use (x := x) ?_ (fun hx => ?_); subst x; rotate_left; clear_value x)
    | (extract_lets +onlyGivenNames x; refine Keeps.useSnd (x := x) ?_ (fun hx => ?_); subst x; rotate_left; clear_value x)
    | (extract_lets +onlyGivenNames x; refine Keeps.useFst (x := x) ?_ (fun hx => ?_); subst x; rotate_left; clear_value x)
    | (extract_lets +onlyGivenNames x; refine Keeps.useThird (x := x) ?_ (fun hx => ?_); subst x; rotate_left; clear_value x)
    | (extract_lets +onlyGivenNames x; have _ := fun a => x a; subst x)
    | (extract_lets +onlyGivenNames x; clear_value x)
    | with_reducible apply Keeps.trans ?_ (Keeps.foldl _ _ ?_)
    | with_reducible apply Keeps.trans ?_ (Keeps.foldl_fst _ _ ?_)
    | with_reducible apply Keeps.trans ?_ (Keeps.foldl_snd _ _ ?_)
    | with_reducible intro _
    | split

theorem keeps_endHostReq {a : Attr} {s : State} : Keeps s (endHostReq a s) := by
  unfold endHostReq
  repeat' first
    | with_reducible exact Keeps.refl _
    | with_reducible assumption
    | with_reducible apply Keeps.trans ?_ keeps_onQos

theorem keeps_reply {a : Attr} {m : LinkMsg} {s : State} : Keeps s (reply a m s) := by
  unfold reply
  repeat' first
    | with_reducible exact Keeps.refl _
    | with_reducible assumption
    | with_reducible apply Keeps.trans ?_ (keeps_send)
    | with_reducible apply Keeps.trans ?_ (Keeps.foldl _ _ ?_)
    | with_reducible apply Keeps.trans ?_ (Keeps.foldl_fst _ _ ?_)
    | with_reducible apply Keeps.trans ?_ (Keeps.foldl_snd _ _ ?_)
    | with_reducible intro _
    | split

theorem keeps_hostError {a : Attr} {line : Nat} {s : State} : Keeps s (hostError a line s) := by
  unfold hostError
  repeat' first
    | with_reducible exact Keeps.refl _
    | with_reducible assumption
    | with_reducible apply Keeps.trans ?_ (keeps_eventHead)

theorem keeps_finishOp {t line : Nat} {op : WOp} {v : LVal} {err : Bool} {ndr : Ndr} {s : State} : Keeps s (finishOp t line op v err ndr s) := by
  unfold finishOp
  repeat' first
    | with_reducible exact Keeps.refl _
    | with_reducible assumption
    | with_reducible apply Keeps.trans ?_ (keeps_countUnits)
    | with_reducible apply Keeps.trans ?_ (keeps_addCnt)
    | with_reducible apply Keeps.trans ?_ (keeps_reply)
    | with_reducible apply Keeps.trans ?_ (keeps_endHostReq)
    | with_reducible apply Keeps.trans ?_ (keeps_hostError)
    | with_reducible apply Keeps.trans ?_ (keeps_onNc (fun h => h))
    | with_reducible apply Keeps.trans ?_ (keeps_onNc (by intro h; apply Table.wf_set; exact h))
    | with_reducible apply Keeps.trans ?_ keeps_onTap
    | with_reducible apply Keeps.trans ?_ keeps_onJob
    | with_reducible apply Keeps.trans ?_ (keeps_onFn)
    | (extract_lets +onlyGivenNames x; refine Keeps.use (x := x) ?_ (fun hx => ?_); subst x; rotate_left; clear_value x)
    | (extract_lets +onlyGivenNames x; refine Keeps.useSnd (x := x) ?_ (fun hx => ?_); subst x; rotate_left; clear_value x)
    | (extract_lets +onlyGivenNames x; refine Keeps.useFst (x := x) ?_ (fun hx => ?_); subst x; rotate_left; clear_value x)
    | (extract_lets +onlyGivenNames x; refine Keeps.useThird (x := x) ?_ (fun hx => ?_); subst x; rotate_left; clear_value x)
    | (extract_lets +onlyGivenNames x; have _ := fun a => x a; subst x)
    | (extract_lets +onlyGivenNames x; clear_value x)
    | with_reducible apply Keeps.trans ?_ (Keeps.foldl _ _ ?_)
    | with_reducible apply Keeps.trans ?_ (Keeps.foldl_fst _ _ ?_)
    | with_reducible apply Keeps.trans ?_ (Keeps.foldl_snd _ _ ?_)
    | with_reducible intro _
    | split

theorem keeps_countHit {t : Nat} {first : Bool} {s : State} : Keeps s (countHit t first s) := by
  unfold countHit
  repeat' first
    | with_reducible exact Keeps.refl _
    | with_reducible assumption
    | with_reducible apply Keeps.trans ?_ (keeps_addCnt)
    | with_reducible apply Keeps.trans ?_ (Keeps.foldl _ _ ?_)
    | with_reducible apply Keeps.trans ?_ (Keeps.foldl_fst _ _ ?_)
    | with_reducible apply Keeps.trans ?_ (Keeps.foldl_snd _ _ ?_)
    | with_reducible intro _
    | split

theorem keeps_countZeroHit {line : Nat} {op : WOp} {first poison : Bool} {s : State} : Keeps s (countZeroHit line op first poison s) := by
  unfold countZeroHit
  repeat' first
    | with_reducible exact Keeps.refl _
    | with_reducible assumption
    | with_reducible apply Keeps.trans ?_ (keeps_countUnwritten)
    | with_reducible apply Keeps.trans ?_ (Keeps.foldl _ _ ?_)
    | with_reducible apply Keeps.trans ?_ (Keeps.foldl_fst _ _ ?_)
    | with_reducible apply Keeps.trans ?_ (Keeps.foldl_snd _ _ ?_)
    | with_reducible intro _
    | split

theorem keeps_nearWrite {t line : Nat} {v : LVal} {new : Line} {wr : Bool} {s : State} : Keeps s (nearWrite t line v new wr s) := by
  unfold nearWrite
  repeat' first
    | with_reducible exact Keeps.refl _
    | with_reducible assumption
    | with_reducible apply Keeps.trans ?_ (keeps_markWritten)
    | with_reducible apply Keeps.trans ?_ (keeps_putCopy)
    | with_reducible apply Keeps.trans ?_ (Keeps.foldl _ _ ?_)
    | with_reducible apply Keeps.trans ?_ (Keeps.foldl_fst _ _ ?_)
    | with_reducible apply Keeps.trans ?_ (Keeps.foldl_snd _ _ ?_)
    | with_reducible intro _
    | split

theorem keeps_serveHit {t line : Nat} {op : WOp} {first : Bool} {k : FillKind} {s : State} {u : State} : serveHit t line op first k s = some u → Keeps s u := by
  refine Keeps.OfSome.out (p := fun x : State => Keeps s x) ?_
  unfold serveHit
  repeat' first
    | with_reducible exact Keeps.ofNone
    | with_reducible apply Keeps.ofSome ?_
    | with_reducible apply Keeps.ofMap ?_
    | with_reducible exact Keeps.refl _
    | with_reducible assumption
    | with_reducible apply Keeps.trans ?_ (keeps_finishOp)
    | with_reducible apply Keeps.trans ?_ (keeps_dropBad)
    | with_reducible apply Keeps.trans ?_ (keeps_touchLine)
    | with_reducible apply Keeps.trans ?_ (keeps_trainNear)
    | with_reducible apply Keeps.trans ?_ (keeps_nearWrite)
    | with_reducible apply Keeps.trans ?_ (keeps_countHit)
    | with_reducible apply Keeps.trans ?_ (keeps_countZeroHit)
    | (extract_lets +onlyGivenNames x; refine Keeps.use (x := x) ?_ (fun hx => ?_); subst x; rotate_left; clear_value x)
    | (extract_lets +onlyGivenNames x; refine Keeps.useSnd (x := x) ?_ (fun hx => ?_); subst x; rotate_left; clear_value x)
    | (extract_lets +onlyGivenNames x; refine Keeps.useFst (x := x) ?_ (fun hx => ?_); subst x; rotate_left; clear_value x)
    | (extract_lets +onlyGivenNames x; refine Keeps.useThird (x := x) ?_ (fun hx => ?_); subst x; rotate_left; clear_value x)
    | (extract_lets +onlyGivenNames x; have _ := fun a => x a; subst x)
    | (extract_lets +onlyGivenNames x; clear_value x)
    | with_reducible apply Keeps.trans ?_ (Keeps.foldl _ _ ?_)
    | with_reducible apply Keeps.trans ?_ (Keeps.foldl_fst _ _ ?_)
    | with_reducible apply Keeps.trans ?_ (Keeps.foldl_snd _ _ ?_)
    | with_reducible intro _
    | split

theorem keeps_serveHits {t line : Nat} {k : FillKind} {a0 : Nat} {a1 : Bool} {s : State} : Keeps s (serveHits t line k a0 a1 s) := by
  induction a0 generalizing a1 s with
  | zero => exact Keeps.refl _
  | succ f ih =>
    unfold serveHits
    repeat' first
      | with_reducible apply Keeps.trans ?_ ih
      | with_reducible exact Keeps.refl _
      | with_reducible assumption
      | with_reducible apply Keeps.trans ?_ (keeps_serveHit (by assumption))
      | with_reducible apply Keeps.trans ?_ (keeps_setOps)
      | with_reducible apply Keeps.trans ?_ (Keeps.foldl _ _ ?_)
      | with_reducible apply Keeps.trans ?_ (Keeps.foldl_fst _ _ ?_)
      | with_reducible apply Keeps.trans ?_ (Keeps.foldl_snd _ _ ?_)
      | with_reducible intro _
      | split

theorem keeps_dropCopy {t line : Nat} {s : State} : Keeps s (dropCopy t line s).2 := by
  unfold dropCopy
  repeat' first
    | with_reducible exact Keeps.refl _
    | with_reducible assumption
    | with_reducible apply Keeps.trans ?_ (keeps_putCopy)
    | with_reducible apply Keeps.trans ?_ (Keeps.foldl _ _ ?_)
    | with_reducible apply Keeps.trans ?_ (Keeps.foldl_fst _ _ ?_)
    | with_reducible apply Keeps.trans ?_ (Keeps.foldl_snd _ _ ?_)
    | with_reducible intro _
    | split

theorem keeps_freeTrkOf {t line : Nat} {s : State} : Keeps s (freeTrkOf t line s) := by
  unfold freeTrkOf
  repeat' first
    | with_reducible exact Keeps.refl _
    | with_reducible assumption
    | with_reducible apply Keeps.trans ?_ (keeps_setTrk)

theorem keeps_unlockLine {t line : Nat} {s : State} : Keeps s (unlockLine t line s) := by
  unfold unlockLine
  repeat' first
    | with_reducible exact Keeps.refl _
    | with_reducible assumption
    | with_reducible apply Keeps.trans ?_ (keeps_setNcSlot)
    | (extract_lets +onlyGivenNames x; refine Keeps.use (x := x) ?_ (fun hx => ?_); subst x; rotate_left; clear_value x)
    | (extract_lets +onlyGivenNames x; refine Keeps.useSnd (x := x) ?_ (fun hx => ?_); subst x; rotate_left; clear_value x)
    | (extract_lets +onlyGivenNames x; refine Keeps.useFst (x := x) ?_ (fun hx => ?_); subst x; rotate_left; clear_value x)
    | (extract_lets +onlyGivenNames x; refine Keeps.useThird (x := x) ?_ (fun hx => ?_); subst x; rotate_left; clear_value x)
    | (extract_lets +onlyGivenNames x; have _ := fun a => x a; subst x)
    | (extract_lets +onlyGivenNames x; clear_value x)
    | with_reducible apply Keeps.trans ?_ (Keeps.foldl _ _ ?_)
    | with_reducible apply Keeps.trans ?_ (Keeps.foldl_fst _ _ ?_)
    | with_reducible apply Keeps.trans ?_ (Keeps.foldl_snd _ _ ?_)
    | with_reducible apply Keeps.trans ?_ (Keeps.pairFst (Keeps.foldl_fst _ _ ?_) (by assumption))
    | with_reducible apply Keeps.trans ?_ (Keeps.pair (Keeps.foldl_snd _ _ ?_) (by assumption))
    | with_reducible intro _
    | split

theorem keeps_noteWb {t victim : Nat} {s : State} : Keeps s (noteWb t victim s) := by
  unfold noteWb
  repeat' first
    | with_reducible exact Keeps.refl _
    | with_reducible assumption
    | with_reducible apply Keeps.trans ?_ (keeps_onNc (fun h => h))

theorem keeps_readySlot {t line : Nat} {k : Trk} {s : State} {u : State} : readySlot t line k s = some u → Keeps s u := by
  refine Keeps.OfSome.out (p := fun x : State => Keeps s x) ?_
  unfold readySlot
  repeat' first
    | with_reducible exact Keeps.ofNone
    | with_reducible apply Keeps.ofSome ?_
    | with_reducible apply Keeps.ofMap ?_
    | with_reducible exact Keeps.refl _
    | with_reducible assumption
    | with_reducible apply Keeps.trans ?_ (keeps_setNcSlot)
    | with_reducible apply Keeps.trans ?_ (keeps_writeBack)
    | with_reducible apply Keeps.trans ?_ (keeps_noteWb)
    | (extract_lets +onlyGivenNames x; refine Keeps.use (x := x) ?_ (fun hx => ?_); subst x; rotate_left; clear_value x)
    | (extract_lets +onlyGivenNames x; refine Keeps.useSnd (x := x) ?_ (fun hx => ?_); subst x; rotate_left; clear_value x)
    | (extract_lets +onlyGivenNames x; refine Keeps.useFst (x := x) ?_ (fun hx => ?_); subst x; rotate_left; clear_value x)
    | (extract_lets +onlyGivenNames x; refine Keeps.useThird (x := x) ?_ (fun hx => ?_); subst x; rotate_left; clear_value x)
    | (extract_lets +onlyGivenNames x; have _ := fun a => x a; subst x)
    | (extract_lets +onlyGivenNames x; clear_value x)
    | with_reducible apply Keeps.trans ?_ (Keeps.foldl _ _ ?_)
    | with_reducible apply Keeps.trans ?_ (Keeps.foldl_fst _ _ ?_)
    | with_reducible apply Keeps.trans ?_ (Keeps.foldl_snd _ _ ?_)
    | with_reducible intro _
    | split

theorem keeps_failFront {t line : Nat} {s : State} : Keeps s (failFront t line s) := by
  unfold failFront
  repeat' first
    | with_reducible exact Keeps.refl _
    | with_reducible assumption
    | with_reducible apply Keeps.trans ?_ (keeps_finishOp)
    | with_reducible apply Keeps.trans ?_ (keeps_setOps)
    | with_reducible apply Keeps.trans ?_ (Keeps.foldl _ _ ?_)
    | with_reducible apply Keeps.trans ?_ (Keeps.foldl_fst _ _ ?_)
    | with_reducible apply Keeps.trans ?_ (Keeps.foldl_snd _ _ ?_)
    | with_reducible intro _
    | split

theorem keeps_takeTurn {h home : Nat} {s : State} : Keeps s (takeTurn h home s) := by
  unfold takeTurn
  repeat' first
    | with_reducible exact Keeps.refl _
    | with_reducible assumption
    | with_reducible apply Keeps.trans ?_ keeps_onQos

theorem keeps_sendReq {t line : Nat} {k : Trk} {m : Msg} {shared : Bool} {s : State} : Keeps s (sendReq t line k m shared s) := by
  unfold sendReq
  repeat' first
    | with_reducible exact Keeps.refl _
    | with_reducible assumption
    | with_reducible apply Keeps.trans ?_ (keeps_addCnt)
    | with_reducible apply Keeps.trans ?_ keeps_onFab
    | with_reducible apply Keeps.trans ?_ (keeps_setTrk)

theorem keeps_launch {t line : Nat} {s : State} : Keeps s (launch t line s) := by
  unfold launch
  repeat' first
    | with_reducible exact Keeps.refl _
    | with_reducible assumption
    | with_reducible apply Keeps.trans ?_ (keeps_failFront)
    | with_reducible apply Keeps.trans ?_ (keeps_freeTrkOf)
    | with_reducible apply Keeps.trans ?_ (keeps_setTrk)
    | with_reducible apply Keeps.trans ?_ (keeps_readySlot (by assumption))
    | with_reducible apply Keeps.trans ?_ (keeps_sendReq)
    | with_reducible apply Keeps.trans ?_ (keeps_takeTurn)
    | (extract_lets +onlyGivenNames x; refine Keeps.use (x := x) ?_ (fun hx => ?_); subst x; rotate_left; clear_value x)
    | (extract_lets +onlyGivenNames x; refine Keeps.useSnd (x := x) ?_ (fun hx => ?_); subst x; rotate_left; clear_value x)
    | (extract_lets +onlyGivenNames x; refine Keeps.useFst (x := x) ?_ (fun hx => ?_); subst x; rotate_left; clear_value x)
    | (extract_lets +onlyGivenNames x; refine Keeps.useThird (x := x) ?_ (fun hx => ?_); subst x; rotate_left; clear_value x)
    | (extract_lets +onlyGivenNames x; have _ := fun a => x a; subst x)
    | (extract_lets +onlyGivenNames x; clear_value x)
    | with_reducible apply Keeps.trans ?_ (Keeps.foldl _ _ ?_)
    | with_reducible apply Keeps.trans ?_ (Keeps.foldl_fst _ _ ?_)
    | with_reducible apply Keeps.trans ?_ (Keeps.foldl_snd _ _ ?_)
    | with_reducible intro _
    | split

theorem keeps_takeTrk {t line : Nat} {k : Trk} {s : State} : Keeps s (takeTrk t line k s) := by
  unfold takeTrk
  split
  · exact Keeps.refl _
  · generalize h : setTrk t line _ s = x
    have hx : Keeps s x := h ▸ keeps_setTrk
    clear h
    exact hx.trans ((keeps_onNc id).trans keeps_launch)

theorem keeps_allocMiss {t line : Nat} {st : TrkState} {op : Op} {w : WOp} {lock : Bool} {way : Option Nat} {s : State} : Keeps s (allocMiss t line st op w lock way s) := by
  unfold allocMiss
  repeat' first
    | with_reducible exact Keeps.refl _
    | with_reducible assumption
    | with_reducible apply Keeps.trans ?_ (keeps_takeTrk)
    | with_reducible apply Keeps.trans ?_ (keeps_addCnt)
    | (extract_lets +onlyGivenNames x; refine Keeps.use (x := x) ?_ (fun hx => ?_); subst x; rotate_left; clear_value x)
    | (extract_lets +onlyGivenNames x; refine Keeps.useSnd (x := x) ?_ (fun hx => ?_); subst x; rotate_left; clear_value x)
    | (extract_lets +onlyGivenNames x; refine Keeps.useFst (x := x) ?_ (fun hx => ?_); subst x; rotate_left; clear_value x)
    | (extract_lets +onlyGivenNames x; refine Keeps.useThird (x := x) ?_ (fun hx => ?_); subst x; rotate_left; clear_value x)
    | (extract_lets +onlyGivenNames x; have _ := fun a => x a; subst x)
    | (extract_lets +onlyGivenNames x; clear_value x)
    | with_reducible apply Keeps.trans ?_ (Keeps.foldl _ _ ?_)
    | with_reducible apply Keeps.trans ?_ (Keeps.foldl_fst _ _ ?_)
    | with_reducible apply Keeps.trans ?_ (Keeps.foldl_snd _ _ ?_)
    | with_reducible intro _
    | split

theorem keeps_turnOp {t line : Nat} {op : WOp} {rest : List WOp} {s : State} : Keeps s (turnOp t line op rest s).1 := by
  unfold turnOp
  repeat' first
    | with_reducible exact Keeps.refl _
    | with_reducible assumption
    | with_reducible apply Keeps.trans ?_ (keeps_finishOp)
    | with_reducible apply Keeps.trans ?_ (keeps_setOps)
    | with_reducible apply Keeps.trans ?_ (keeps_dropBad)
    | with_reducible apply Keeps.trans ?_ (keeps_dropCopy)
    | with_reducible apply Keeps.trans ?_ (Keeps.pair (keeps_dropCopy) (by assumption))
    | with_reducible apply Keeps.trans ?_ (keeps_addCnt)
    | with_reducible apply Keeps.trans ?_ (keeps_takeTrk)
    | with_reducible apply Keeps.trans ?_ (keeps_writeBack)
    | with_reducible apply Keeps.trans ?_ (keeps_putCopy)
    | with_reducible apply Keeps.trans ?_ (keeps_allocMiss)
    | with_reducible apply Keeps.trans ?_ (keeps_onNc (fun h => h))
    | with_reducible apply Keeps.trans ?_ (keeps_onNc (by intro h; apply Table.wf_set; exact h))
    | with_reducible apply Keeps.trans ?_ (keeps_unlockLine)
    | with_reducible apply Keeps.trans ?_ (keeps_setNcSlot)
    | (extract_lets +onlyGivenNames x; refine Keeps.use (x := x) ?_ (fun hx => ?_); subst x; rotate_left; clear_value x)
    | (extract_lets +onlyGivenNames x; refine Keeps.useSnd (x := x) ?_ (fun hx => ?_); subst x; rotate_left; clear_value x)
    | (extract_lets +onlyGivenNames x; refine Keeps.useFst (x := x) ?_ (fun hx => ?_); subst x; rotate_left; clear_value x)
    | (extract_lets +onlyGivenNames x; refine Keeps.useThird (x := x) ?_ (fun hx => ?_); subst x; rotate_left; clear_value x)
    | (extract_lets +onlyGivenNames x; have _ := fun a => x a; subst x)
    | (extract_lets +onlyGivenNames x; clear_value x)
    | with_reducible apply Keeps.trans ?_ (Keeps.foldl _ _ ?_)
    | with_reducible apply Keeps.trans ?_ (Keeps.foldl_fst _ _ ?_)
    | with_reducible apply Keeps.trans ?_ (Keeps.foldl_snd _ _ ?_)
    | with_reducible intro _
    | split
    | dsimp -zeta only

theorem keeps_runOps  {a0 : Nat} {a1 : Nat} {a2 : Nat} {s : State} : Keeps s (runOps a0 a1 a2 s) := by
  induction a0 generalizing a1 a2 s with
  | zero => exact Keeps.refl _
  | succ f ih =>
    unfold runOps
    repeat' first
      | with_reducible apply Keeps.trans ?_ ih
      | with_reducible exact Keeps.refl _
      | with_reducible assumption
      | with_reducible apply Keeps.trans ?_ (keeps_dropBad)
      | with_reducible apply Keeps.trans ?_ (keeps_serveHit (by assumption))
      | with_reducible apply Keeps.trans ?_ (keeps_setOps)
      | with_reducible apply Keeps.trans ?_ (keeps_turnOp)
      | with_reducible apply Keeps.trans ?_ (Keeps.pairFst (keeps_turnOp) (by assumption))
      | (extract_lets +onlyGivenNames x; refine Keeps.use (x := x) ?_ (fun hx => ?_); subst x; rotate_left; clear_value x)
      | (extract_lets +onlyGivenNames x; refine Keeps.useSnd (x := x) ?_ (fun hx => ?_); subst x; rotate_left; clear_value x)
      | (extract_lets +onlyGivenNames x; refine Keeps.useFst (x := x) ?_ (fun hx => ?_); subst x; rotate_left; clear_value x)
      | (extract_lets +onlyGivenNames x; refine Keeps.useThird (x := x) ?_ (fun hx => ?_); subst x; rotate_left; clear_value x)
      | (extract_lets +onlyGivenNames x; have _ := fun a => x a; subst x)
      | (extract_lets +onlyGivenNames x; clear_value x)
      | with_reducible apply Keeps.trans ?_ (Keeps.foldl _ _ ?_)
      | with_reducible apply Keeps.trans ?_ (Keeps.foldl_fst _ _ ?_)
      | with_reducible apply Keeps.trans ?_ (Keeps.foldl_snd _ _ ?_)
      | with_reducible intro _
      | split

theorem keeps_runLine {t line : Nat} {s : State} : Keeps s (runLine t line s) := by
  unfold runLine
  repeat' first
    | with_reducible exact Keeps.refl _
    | with_reducible assumption
    | with_reducible apply Keeps.trans ?_ (keeps_runOps)

theorem keeps_kickTile {t : Nat} {s : State} : Keeps s (kickTile t s) := by
  unfold kickTile
  repeat' first
    | with_reducible exact Keeps.refl _
    | with_reducible assumption
    | with_reducible apply Keeps.trans ?_ (keeps_runLine)
    | (extract_lets +onlyGivenNames x; refine Keeps.use (x := x) ?_ (fun hx => ?_); subst x; rotate_left; clear_value x)
    | (extract_lets +onlyGivenNames x; refine Keeps.useSnd (x := x) ?_ (fun hx => ?_); subst x; rotate_left; clear_value x)
    | (extract_lets +onlyGivenNames x; refine Keeps.useFst (x := x) ?_ (fun hx => ?_); subst x; rotate_left; clear_value x)
    | (extract_lets +onlyGivenNames x; refine Keeps.useThird (x := x) ?_ (fun hx => ?_); subst x; rotate_left; clear_value x)
    | (extract_lets +onlyGivenNames x; have _ := fun a => x a; subst x)
    | (extract_lets +onlyGivenNames x; clear_value x)
    | with_reducible apply Keeps.trans ?_ (Keeps.foldl _ _ ?_)
    | with_reducible apply Keeps.trans ?_ (Keeps.foldl_fst _ _ ?_)
    | with_reducible apply Keeps.trans ?_ (Keeps.foldl_snd _ _ ?_)
    | with_reducible apply Keeps.trans ?_ (Keeps.pairFst (Keeps.foldl_fst _ _ ?_) (by assumption))
    | with_reducible apply Keeps.trans ?_ (Keeps.pair (Keeps.foldl_snd _ _ ?_) (by assumption))
    | with_reducible intro _

theorem keeps_startOp {t line : Nat} {op : WOp} {s : State} : Keeps s (startOp t line op s) := by
  unfold startOp
  repeat' first
    | with_reducible exact Keeps.refl _
    | with_reducible assumption
    | with_reducible apply Keeps.trans ?_ (keeps_runLine)
    | with_reducible apply Keeps.trans ?_ (keeps_setOps)

theorem keeps_ncProto {t line : Nat} {m : Op} {s : State} : Keeps s (ncProto t line m s) := by
  unfold ncProto
  repeat' first
    | with_reducible exact Keeps.refl _
    | with_reducible assumption
    | with_reducible apply Keeps.trans ?_ (keeps_raiseWith)

theorem keeps_failAll {t line : Nat} {s : State} : Keeps s (failAll t line s) := by
  unfold failAll
  repeat' first
    | with_reducible exact Keeps.refl _
    | with_reducible assumption
    | with_reducible apply Keeps.trans ?_ (keeps_finishOp)
    | with_reducible apply Keeps.trans ?_ (keeps_setOps)
    | with_reducible apply Keeps.trans ?_ (Keeps.foldl _ _ ?_)
    | with_reducible apply Keeps.trans ?_ (Keeps.foldl_fst _ _ ?_)
    | with_reducible apply Keeps.trans ?_ (Keeps.foldl_snd _ _ ?_)
    | with_reducible apply Keeps.trans ?_ (Keeps.pairFst (Keeps.foldl_fst _ _ ?_) (by assumption))
    | with_reducible apply Keeps.trans ?_ (Keeps.pair (Keeps.foldl_snd _ _ ?_) (by assumption))
    | with_reducible intro _

end Sys2Proof.Machine
end

