-- ==== Sys2Proof/Laws/Keeps7.lean ====
section
/-!
SUPPORT. What the operations of the block keep, part 7: one lemma for each, in the order of their files.
-/
namespace Sys2Proof.Machine

theorem keeps_forceI {t line : Nat} {s : State} : Keeps s (forceI t line s) := by
  unfold forceI
  repeat' first
    | with_reducible exact Keeps.refl _
    | with_reducible assumption
    | with_reducible apply Keeps.trans ?_ (keeps_freeTrkOf)
    | with_reducible apply Keeps.trans ?_ (keeps_setEvb)
    | with_reducible apply Keeps.trans ?_ (keeps_putCopy)
    | (extract_lets +onlyGivenNames x; refine Keeps.use (x := x) ?_ (fun hx => ?_); subst x; rotate_left; clear_value x)
    | (extract_lets +onlyGivenNames x; refine Keeps.useSnd (x := x) ?_ (fun hx => ?_); subst x; rotate_left; clear_value x)
    | (extract_lets +onlyGivenNames x; refine Keeps.useFst (x := x) ?_ (fun hx => ?_); subst x; rotate_left; clear_value x)
    | (extract_lets +onlyGivenNames x; refine Keeps.useThird (x := x) ?_ (fun hx => ?_); subst x; rotate_left; clear_value x)
    | (extract_lets +onlyGivenNames x; have _ := fun a => x a; subst x)
    | (extract_lets +onlyGivenNames x; clear_value x)
    | with_reducible apply Keeps.trans ?_ (Keeps.foldl _ _ ?_)
    | with_reducible apply Keeps.trans ?_ (Keeps.foldl_fst _ _ ?_)
    | with_reducible apply Keeps.trans ?_ (Keeps.foldl_snd _ _ ?_)
    | with_reducible intro _
    | split

theorem keeps_badMessage {t line : Nat} {m : Op} {s : State} : Keeps s (badMessage t line m s) := by
  unfold badMessage
  repeat' first
    | with_reducible exact Keeps.refl _
    | with_reducible assumption
    | with_reducible apply Keeps.trans ?_ (keeps_failAll)
    | with_reducible apply Keeps.trans ?_ (keeps_forceI)
    | with_reducible apply Keeps.trans ?_ (keeps_ncProto)

theorem keeps_snoopStable {t : Nat} {m : Msg} {s : State} : Keeps s (snoopStable t m s) := by
  unfold snoopStable
  repeat' first
    | with_reducible exact Keeps.refl _
    | with_reducible assumption
    | with_reducible apply Keeps.trans ?_ (keeps_sendRsp)
    | with_reducible apply Keeps.trans ?_ (keeps_sendFwd)
    | with_reducible apply Keeps.trans ?_ (keeps_putCopy)
    | with_reducible apply Keeps.trans ?_ (keeps_ncProto)
    | (extract_lets +onlyGivenNames x; refine Keeps.use (x := x) ?_ (fun hx => ?_); subst x; rotate_left; clear_value x)
    | (extract_lets +onlyGivenNames x; refine Keeps.useSnd (x := x) ?_ (fun hx => ?_); subst x; rotate_left; clear_value x)
    | (extract_lets +onlyGivenNames x; refine Keeps.useFst (x := x) ?_ (fun hx => ?_); subst x; rotate_left; clear_value x)
    | (extract_lets +onlyGivenNames x; refine Keeps.useThird (x := x) ?_ (fun hx => ?_); subst x; rotate_left; clear_value x)
    | (extract_lets +onlyGivenNames x; have _ := fun a => x a; subst x)
    | (extract_lets +onlyGivenNames x; clear_value x)
    | with_reducible apply Keeps.trans ?_ (Keeps.foldl _ _ ?_)
    | with_reducible apply Keeps.trans ?_ (Keeps.foldl_fst _ _ ?_)
    | with_reducible apply Keeps.trans ?_ (Keeps.foldl_snd _ _ ?_)
    | with_reducible intro _
    | split

theorem keeps_snoop {t : Nat} {m : Msg} {s : State} : Keeps s (snoop t m s) := by
  unfold snoop
  repeat' first
    | with_reducible exact Keeps.refl _
    | with_reducible assumption
    | with_reducible apply Keeps.trans ?_ (keeps_sendRsp)
    | with_reducible apply Keeps.trans ?_ (keeps_snoopStable)
    | with_reducible apply Keeps.trans ?_ (keeps_setTrk)
    | with_reducible apply Keeps.trans ?_ (keeps_failAll)
    | with_reducible apply Keeps.trans ?_ (keeps_forceI)
    | with_reducible apply Keeps.trans ?_ (keeps_ncProto)
    | (extract_lets +onlyGivenNames x; refine Keeps.use (x := x) ?_ (fun hx => ?_); subst x; rotate_left; clear_value x)
    | (extract_lets +onlyGivenNames x; refine Keeps.useSnd (x := x) ?_ (fun hx => ?_); subst x; rotate_left; clear_value x)
    | (extract_lets +onlyGivenNames x; refine Keeps.useFst (x := x) ?_ (fun hx => ?_); subst x; rotate_left; clear_value x)
    | (extract_lets +onlyGivenNames x; refine Keeps.useThird (x := x) ?_ (fun hx => ?_); subst x; rotate_left; clear_value x)
    | (extract_lets +onlyGivenNames x; have _ := fun a => x a; subst x)
    | (extract_lets +onlyGivenNames x; clear_value x)
    | with_reducible apply Keeps.trans ?_ (Keeps.foldl _ _ ?_)
    | with_reducible apply Keeps.trans ?_ (Keeps.foldl_fst _ _ ?_)
    | with_reducible apply Keeps.trans ?_ (Keeps.foldl_snd _ _ ?_)
    | with_reducible intro _
    | split

theorem keeps_fillMark {t line w : Nat} {s : State} : Keeps s (fillMark t line w s) := by
  unfold fillMark
  repeat' first
    | with_reducible exact Keeps.refl _
    | with_reducible assumption
    | with_reducible apply Keeps.trans ?_ (keeps_onNc (fun h => h))
    | with_reducible apply Keeps.trans ?_ (keeps_onNc (by intro h; apply Table.wf_set; exact h))
    | with_reducible apply Keeps.trans ?_ (keeps_touchWay)

theorem keeps_noteBad {t line : Nat} {s : State} : Keeps s (noteBad t line s) := by
  unfold noteBad
  repeat' first
    | with_reducible exact Keeps.refl _
    | with_reducible assumption
    | with_reducible apply Keeps.trans ?_ (keeps_freeTrkOf)
    | with_reducible apply Keeps.trans ?_ (keeps_setNcSlot)
    | with_reducible apply Keeps.trans ?_ (keeps_kickTile)
    | with_reducible apply Keeps.trans ?_ (keeps_runLine)
    | (extract_lets +onlyGivenNames x; refine Keeps.use (x := x) ?_ (fun hx => ?_); subst x; rotate_left; clear_value x)
    | (extract_lets +onlyGivenNames x; refine Keeps.useSnd (x := x) ?_ (fun hx => ?_); subst x; rotate_left; clear_value x)
    | (extract_lets +onlyGivenNames x; refine Keeps.useFst (x := x) ?_ (fun hx => ?_); subst x; rotate_left; clear_value x)
    | (extract_lets +onlyGivenNames x; refine Keeps.useThird (x := x) ?_ (fun hx => ?_); subst x; rotate_left; clear_value x)
    | (extract_lets +onlyGivenNames x; have _ := fun a => x a; subst x)
    | (extract_lets +onlyGivenNames x; clear_value x)
    | with_reducible apply Keeps.trans ?_ (Keeps.foldl _ _ ?_)
    | with_reducible apply Keeps.trans ?_ (Keeps.foldl_fst _ _ ?_)
    | with_reducible apply Keeps.trans ?_ (Keeps.foldl_snd _ _ ?_)
    | with_reducible intro _
    | split

theorem keeps_completeFill {t line : Nat} {st : LineSt} {v : LVal} {kind : FillKind} {first : Bool} {s : State} :
    Keeps s (completeFill t line st v kind first s) := by
  unfold completeFill
  extract_lets +onlyGivenNames k ok
  clear_value k ok
  extract_lets +onlyGivenNames s1
  have h1 : Keeps s s1 := keeps_freeTrkOf
  clear_value s1
  extract_lets +onlyGivenNames s2
  have h2 : Keeps s s2 := by
    subst s2
    split
    · split
      · extract_lets +onlyGivenNames x y s3
        have h3 : Keeps s s3 := h1.trans keeps_setNcSlot
        clear_value s3
        split
        · exact h3.trans keeps_fillMark
        · exact h3
      · exact h1
    · exact h1
  clear_value s2
  extract_lets +onlyGivenNames s3
  have h3 : Keeps s s3 := by
    subst s3
    split
    · split
      · exact h2.trans (keeps_setOps.trans keeps_finishOp)
      · exact h2.trans keeps_serveHits
    · exact h2.trans keeps_failFront
  clear_value s3
  exact h3.trans ((Keeps.foldl _ _ (fun _ _ => keeps_snoop)).trans (keeps_runLine.trans keeps_kickTile))

theorem keeps_tryEnd {t line : Nat} {s : State} : Keeps s (tryEnd t line s) := by
  unfold tryEnd
  repeat' first
    | with_reducible exact Keeps.refl _
    | with_reducible assumption
    | with_reducible apply Keeps.trans ?_ (keeps_freeTrkOf)
    | with_reducible apply Keeps.trans ?_ (keeps_setOps)
    | with_reducible apply Keeps.trans ?_ (keeps_finishOp)
    | with_reducible apply Keeps.trans ?_ (keeps_kickTile)
    | with_reducible apply Keeps.trans ?_ (keeps_runLine)
    | (extract_lets +onlyGivenNames x; refine Keeps.use (x := x) ?_ (fun hx => ?_); subst x; rotate_left; clear_value x)
    | (extract_lets +onlyGivenNames x; refine Keeps.useSnd (x := x) ?_ (fun hx => ?_); subst x; rotate_left; clear_value x)
    | (extract_lets +onlyGivenNames x; refine Keeps.useFst (x := x) ?_ (fun hx => ?_); subst x; rotate_left; clear_value x)
    | (extract_lets +onlyGivenNames x; refine Keeps.useThird (x := x) ?_ (fun hx => ?_); subst x; rotate_left; clear_value x)
    | (extract_lets +onlyGivenNames x; have _ := fun a => x a; subst x)
    | (extract_lets +onlyGivenNames x; clear_value x)
    | with_reducible apply Keeps.trans ?_ (Keeps.foldl _ _ ?_)
    | with_reducible apply Keeps.trans ?_ (Keeps.foldl_fst _ _ ?_)
    | with_reducible apply Keeps.trans ?_ (Keeps.foldl_snd _ _ ?_)
    | with_reducible intro _
    | split

theorem keeps_homMsg {t : Nat} {m : Msg} {s : State} : Keeps s (homMsg t m s) := by
  unfold homMsg
  repeat' first
    | with_reducible exact Keeps.refl _
    | with_reducible assumption
    | with_reducible apply Keeps.trans ?_ (keeps_badMessage)
    | with_reducible apply Keeps.trans ?_ (keeps_completeFill)
    | with_reducible apply Keeps.trans ?_ (keeps_setTrk)
    | with_reducible apply Keeps.trans ?_ (keeps_noteBad)
    | with_reducible apply Keeps.trans ?_ (keeps_setEvb)
    | with_reducible apply Keeps.trans ?_ (keeps_kickTile)
    | with_reducible apply Keeps.trans ?_ (keeps_runLine)
    | with_reducible apply Keeps.trans ?_ (keeps_train)
    | with_reducible apply Keeps.trans ?_ (keeps_tryEnd)
    | with_reducible apply Keeps.trans ?_ (keeps_setOps)
    | with_reducible apply Keeps.trans ?_ (keeps_reply)
    | (extract_lets +onlyGivenNames x; refine Keeps.use (x := x) ?_ (fun hx => ?_); subst x; rotate_left; clear_value x)
    | (extract_lets +onlyGivenNames x; refine Keeps.useSnd (x := x) ?_ (fun hx => ?_); subst x; rotate_left; clear_value x)
    | (extract_lets +onlyGivenNames x; refine Keeps.useFst (x := x) ?_ (fun hx => ?_); subst x; rotate_left; clear_value x)
    | (extract_lets +onlyGivenNames x; refine Keeps.useThird (x := x) ?_ (fun hx => ?_); subst x; rotate_left; clear_value x)
    | (extract_lets +onlyGivenNames x; have _ := fun a => x a; subst x)
    | (extract_lets +onlyGivenNames x; clear_value x)
    | with_reducible apply Keeps.trans ?_ (Keeps.foldl _ _ ?_)
    | with_reducible apply Keeps.trans ?_ (Keeps.foldl_fst _ _ ?_)
    | with_reducible apply Keeps.trans ?_ (Keeps.foldl_snd _ _ ?_)
    | with_reducible intro _
    | split

theorem keeps_fwdMsg {t : Nat} {m : Msg} {s : State} : Keeps s (fwdMsg t m s) := by
  unfold fwdMsg
  repeat' first
    | with_reducible exact Keeps.refl _
    | with_reducible assumption
    | with_reducible apply Keeps.trans ?_ (keeps_badMessage)
    | with_reducible apply Keeps.trans ?_ (keeps_setTrk)
    | with_reducible apply Keeps.trans ?_ (keeps_serveHits)
    | with_reducible apply Keeps.trans ?_ (keeps_fillMark)
    | with_reducible apply Keeps.trans ?_ (keeps_failFront)
    | with_reducible apply Keeps.trans ?_ (keeps_kickTile)
    | with_reducible apply Keeps.trans ?_ (keeps_runLine)
    | with_reducible apply Keeps.trans ?_ (keeps_freeTrkOf)
    | with_reducible apply Keeps.trans ?_ (keeps_tryEnd)
    | with_reducible apply Keeps.trans ?_ (keeps_completeFill)
    | (extract_lets +onlyGivenNames x; refine Keeps.use (x := x) ?_ (fun hx => ?_); subst x; rotate_left; clear_value x)
    | (extract_lets +onlyGivenNames x; refine Keeps.useSnd (x := x) ?_ (fun hx => ?_); subst x; rotate_left; clear_value x)
    | (extract_lets +onlyGivenNames x; refine Keeps.useFst (x := x) ?_ (fun hx => ?_); subst x; rotate_left; clear_value x)
    | (extract_lets +onlyGivenNames x; refine Keeps.useThird (x := x) ?_ (fun hx => ?_); subst x; rotate_left; clear_value x)
    | (extract_lets +onlyGivenNames x; have _ := fun a => x a; subst x)
    | (extract_lets +onlyGivenNames x; clear_value x)
    | with_reducible apply Keeps.trans ?_ (Keeps.foldl _ _ ?_)
    | with_reducible apply Keeps.trans ?_ (Keeps.foldl_fst _ _ ?_)
    | with_reducible apply Keeps.trans ?_ (Keeps.foldl_snd _ _ ?_)
    | with_reducible intro _
    | split

theorem keeps_changeRates {t : Nat} {f : State → State} {s : State} (h_f : ∀ s, Keeps s (f s)) : Keeps s (changeRates t f s) := by
  unfold changeRates
  repeat' first
    | with_reducible exact Keeps.refl _
    | with_reducible assumption
    | with_reducible apply Keeps.trans ?_ (h_f _ )
    | with_reducible apply Keeps.trans ?_ keeps_onTier
    | (extract_lets +onlyGivenNames x; refine Keeps.use (x := x) ?_ (fun hx => ?_); subst x; rotate_left; clear_value x)
    | (extract_lets +onlyGivenNames x; refine Keeps.useSnd (x := x) ?_ (fun hx => ?_); subst x; rotate_left; clear_value x)
    | (extract_lets +onlyGivenNames x; refine Keeps.useFst (x := x) ?_ (fun hx => ?_); subst x; rotate_left; clear_value x)
    | (extract_lets +onlyGivenNames x; refine Keeps.useThird (x := x) ?_ (fun hx => ?_); subst x; rotate_left; clear_value x)
    | (extract_lets +onlyGivenNames x; have _ := fun a => x a; subst x)
    | (extract_lets +onlyGivenNames x; clear_value x)
    | with_reducible apply Keeps.trans ?_ (Keeps.foldl _ _ ?_)
    | with_reducible apply Keeps.trans ?_ (Keeps.foldl_fst _ _ ?_)
    | with_reducible apply Keeps.trans ?_ (Keeps.foldl_snd _ _ ?_)
    | with_reducible apply Keeps.trans ?_ (Keeps.pairFst (Keeps.foldl_fst _ _ ?_) (by assumption))
    | with_reducible apply Keeps.trans ?_ (Keeps.pair (Keeps.foldl_snd _ _ ?_) (by assumption))
    | with_reducible intro _
    | split

theorem keeps_takeToken {t b : Nat} {s : State} : Keeps s (takeToken t b s) := by
  unfold takeToken
  repeat' first
    | with_reducible exact Keeps.refl _
    | with_reducible assumption
    | with_reducible apply Keeps.trans ?_ keeps_onTier

theorem keeps_askSource {t : Nat} {toDram : Bool} {frame i : Nat} {s : State} : Keeps s (askSource t toDram frame i s) := by
  unfold askSource
  repeat' first
    | with_reducible exact Keeps.refl _
    | with_reducible assumption
    | with_reducible apply Keeps.trans ?_ (keeps_drRead)
    | with_reducible apply Keeps.trans ?_ (keeps_nvmAsk)
    | (extract_lets +onlyGivenNames x; refine Keeps.use (x := x) ?_ (fun hx => ?_); subst x; rotate_left; clear_value x)
    | (extract_lets +onlyGivenNames x; refine Keeps.useSnd (x := x) ?_ (fun hx => ?_); subst x; rotate_left; clear_value x)
    | (extract_lets +onlyGivenNames x; refine Keeps.useFst (x := x) ?_ (fun hx => ?_); subst x; rotate_left; clear_value x)
    | (extract_lets +onlyGivenNames x; refine Keeps.useThird (x := x) ?_ (fun hx => ?_); subst x; rotate_left; clear_value x)
    | (extract_lets +onlyGivenNames x; have _ := fun a => x a; subst x)
    | (extract_lets +onlyGivenNames x; clear_value x)
    | with_reducible apply Keeps.trans ?_ (Keeps.foldl _ _ ?_)
    | with_reducible apply Keeps.trans ?_ (Keeps.foldl_fst _ _ ?_)
    | with_reducible apply Keeps.trans ?_ (Keeps.foldl_snd _ _ ?_)
    | with_reducible intro _
    | split

theorem keeps_startMove {page : Nat} {toDram : Bool} {s : State} : Keeps s (startMove page toDram s) := by
  unfold startMove
  repeat' first
    | with_reducible exact Keeps.refl _
    | with_reducible assumption
    | with_reducible apply Keeps.trans ?_ (keeps_putPlace)
    | with_reducible apply Keeps.trans ?_ (keeps_setMove)
    | with_reducible apply Keeps.trans ?_ (keeps_takeToken)
    | with_reducible apply Keeps.trans ?_ (keeps_sampleFree)
    | with_reducible apply Keeps.trans ?_ (keeps_askSource)
    | (extract_lets +onlyGivenNames x; refine Keeps.use (x := x) ?_ (fun hx => ?_); subst x; rotate_left; clear_value x)
    | (extract_lets +onlyGivenNames x; refine Keeps.useSnd (x := x) ?_ (fun hx => ?_); subst x; rotate_left; clear_value x)
    | (extract_lets +onlyGivenNames x; refine Keeps.useFst (x := x) ?_ (fun hx => ?_); subst x; rotate_left; clear_value x)
    | (extract_lets +onlyGivenNames x; refine Keeps.useThird (x := x) ?_ (fun hx => ?_); subst x; rotate_left; clear_value x)
    | (extract_lets +onlyGivenNames x; have _ := fun a => x a; subst x)
    | (extract_lets +onlyGivenNames x; clear_value x)
    | with_reducible apply Keeps.trans ?_ (Keeps.foldl _ _ ?_)
    | with_reducible apply Keeps.trans ?_ (Keeps.foldl_fst _ _ ?_)
    | with_reducible apply Keeps.trans ?_ (Keeps.foldl_snd _ _ ?_)
    | with_reducible apply Keeps.trans ?_ (Keeps.pairFst (Keeps.foldl_fst _ _ ?_) (by assumption))
    | with_reducible apply Keeps.trans ?_ (Keeps.pair (Keeps.foldl_snd _ _ ?_) (by assumption))
    | with_reducible intro _
    | split

theorem keeps_copyTo {page : Nat} {m : Move} {i : Nat} {r : Rec} {s : State} : Keeps s (copyTo page m i r s) := by
  unfold copyTo
  repeat' first
    | with_reducible exact Keeps.refl _
    | with_reducible assumption
    | with_reducible apply Keeps.trans ?_ (keeps_putLoc)
    | with_reducible apply Keeps.trans ?_ (keeps_setMove)

theorem keeps_putSource {m : Move} {i : Nat} {r : Rec} {s : State} : Keeps s (putSource m i r s) := by
  unfold putSource
  repeat' first
    | with_reducible exact Keeps.refl _
    | with_reducible assumption
    | with_reducible apply Keeps.trans ?_ (keeps_putLoc)

theorem keeps_takeSource {m : Move} {i : Nat} {flips : Flips} {s : State} {o0 : Rec} {o1 : Sum Nat Nat} {u : State} : takeSource m i flips s = some (o0, o1, u) → Keeps s u := by
  refine Keeps.OfSome.out (p := fun x : Rec × Sum Nat Nat × State => Keeps s x.2.2) ?_
  unfold takeSource
  repeat' first
    | with_reducible exact Keeps.ofNone
    | with_reducible apply Keeps.ofSome ?_
    | with_reducible apply Keeps.ofMap ?_
    | with_reducible exact Keeps.refl _
    | with_reducible assumption
    | with_reducible apply Keeps.trans ?_ (keeps_takeLoc (by assumption))
    | with_reducible apply Keeps.trans ?_ (Keeps.foldl _ _ ?_)
    | with_reducible apply Keeps.trans ?_ (Keeps.foldl_fst _ _ ?_)
    | with_reducible apply Keeps.trans ?_ (Keeps.foldl_snd _ _ ?_)
    | with_reducible intro _
    | split
    | dsimp -zeta only
    | dsimp only
    | dsimp only [id]
    | with_reducible exact Keeps.OfSome.mk fun ⟨_, _, _⟩ h => keeps_takeLoc h

theorem keeps_finishCopy {page i : Nat} {r : Rec} {s : State} : Keeps s (finishCopy page i r s) := by
  unfold finishCopy
  repeat' first
    | with_reducible exact Keeps.refl _
    | with_reducible assumption
    | with_reducible apply Keeps.trans ?_ (keeps_copyTo)
    | with_reducible apply Keeps.trans ?_ (Keeps.foldl _ _ ?_)
    | with_reducible apply Keeps.trans ?_ (Keeps.foldl_fst _ _ ?_)
    | with_reducible apply Keeps.trans ?_ (Keeps.foldl_snd _ _ ?_)
    | with_reducible intro _
    | split

theorem keeps_dropSlots {t frame : Nat} {s : State} : Keeps s (dropSlots t frame s) := by
  unfold dropSlots
  repeat' first
    | with_reducible exact Keeps.refl _
    | with_reducible assumption
    | with_reducible apply Keeps.trans ?_ keeps_onNvm

theorem keeps_endMove {page : Nat} {s : State} : Keeps s (endMove page s) := by
  unfold endMove
  repeat' first
    | with_reducible exact Keeps.refl _
    | with_reducible assumption
    | with_reducible apply Keeps.trans ?_ (keeps_setMove)
    | with_reducible apply Keeps.trans ?_ (keeps_sampleFree)
    | with_reducible apply Keeps.trans ?_ (keeps_dropSlots)
    | (extract_lets +onlyGivenNames x; refine Keeps.use (x := x) ?_ (fun hx => ?_); subst x; rotate_left; clear_value x)
    | (extract_lets +onlyGivenNames x; refine Keeps.useSnd (x := x) ?_ (fun hx => ?_); subst x; rotate_left; clear_value x)
    | (extract_lets +onlyGivenNames x; refine Keeps.useFst (x := x) ?_ (fun hx => ?_); subst x; rotate_left; clear_value x)
    | (extract_lets +onlyGivenNames x; refine Keeps.useThird (x := x) ?_ (fun hx => ?_); subst x; rotate_left; clear_value x)
    | (extract_lets +onlyGivenNames x; have _ := fun a => x a; subst x)
    | (extract_lets +onlyGivenNames x; clear_value x)
    | with_reducible apply Keeps.trans ?_ (Keeps.foldl _ _ ?_)
    | with_reducible apply Keeps.trans ?_ (Keeps.foldl_fst _ _ ?_)
    | with_reducible apply Keeps.trans ?_ (Keeps.foldl_snd _ _ ?_)
    | with_reducible intro _
    | split

/-- A reset keeps the flash in canonical form (R348). -/
theorem flashKept_wf {s : State} (h : Table.wf 0xFF#8 s.flash.bytes = true) : Table.wf 0xFF#8 (flashKept s).bytes = true := by
  unfold flashKept
  split
  · have k := Table.wf_keep h (fun a _ => decide (4096 ≤ a))
    exact k
  · exact h

/-- What RESET_N leaves of the parts that an operation keeps, but for what a reset clears (R335). -/
theorem tileReset_parts {s : State} : (tileReset s).pending = s.pending ∧ (tileReset s).fuse = s.fuse ∧ (tileReset s).flash = flashKept s ∧
    (tileReset s).log = s.log ∧ (tileReset s).dram = {} ∧ (tileReset s).nc = {} ∧ (tileReset s).cry = {} :=
  ⟨rfl, rfl, rfl, rfl, rfl, rfl, rfl⟩

theorem keeps_assertReset {s : State} : Keeps s (assertReset s) where
  queue := rfl
  fuseId := rfl
  tiles := rfl
  serial := rfl
  anchor _ := rfl
  flash h := flashKept_wf h
  log h := cellsOk_splitInc h
  recs _ := rfl
  scratch _ := rfl
  keys _ _ := rfl
  lock _ := .inr (.inl rfl)
  night _ := .inr (.inl rfl)
  replace _ := .inr (.inl rfl)

theorem keeps_driveReset {s : State} : Keeps s (driveReset s) := by
  unfold driveReset
  repeat' first
    | with_reducible exact Keeps.refl _
    | with_reducible assumption
    | with_reducible apply Keeps.trans ?_ (keeps_onRst (fun h => h))
    | with_reducible apply Keeps.trans ?_ (keeps_onRst (by intro h; first | exact h | rfl | (split <;> first | exact h | rfl)))
    | with_reducible apply Keeps.trans ?_ (keeps_assertReset)
    | with_reducible apply Keeps.trans ?_ (Keeps.foldl _ _ ?_)
    | with_reducible apply Keeps.trans ?_ (Keeps.foldl_fst _ _ ?_)
    | with_reducible apply Keeps.trans ?_ (Keeps.foldl_snd _ _ ?_)
    | with_reducible intro _
    | split

theorem keeps_assertPor {s : State} : Keeps s (assertPor s) where
  queue := rfl
  fuseId := rfl
  tiles := rfl
  serial := rfl
  anchor _ := rfl
  flash h := flashKept_wf h
  log h := cellsOk_logTear h
  recs _ := rfl
  scratch _ := rfl
  keys _ _ := rfl
  lock _ := .inr (.inr rfl)
  night _ := .inr (.inr rfl)
  replace _ := .inr (.inr rfl)

theorem keeps_perstAtRelease {s : State} : Keeps s (perstAtRelease s) := by
  unfold perstAtRelease
  repeat' first
    | with_reducible exact Keeps.refl _
    | with_reducible assumption
    | with_reducible apply Keeps.trans ?_ (keeps_raiseBit)
    | with_reducible apply Keeps.trans ?_ (keeps_onPort)
    | with_reducible apply Keeps.trans ?_ (Keeps.foldl _ _ ?_)
    | with_reducible apply Keeps.trans ?_ (Keeps.foldl_fst _ _ ?_)
    | with_reducible apply Keeps.trans ?_ (Keeps.foldl_snd _ _ ?_)
    | with_reducible apply Keeps.trans ?_ (Keeps.pairFst (Keeps.foldl_fst _ _ ?_) (by assumption))
    | with_reducible apply Keeps.trans ?_ (Keeps.pair (Keeps.foldl_snd _ _ ?_) (by assumption))
    | with_reducible intro _

theorem keeps_applyEval {o : EvalOut} {s : State} : Keeps s (applyEval o s) := by
  unfold applyEval
  repeat' first
    | with_reducible exact Keeps.refl _
    | with_reducible assumption
    | with_reducible apply Keeps.trans ?_ keeps_setReg
    | with_reducible apply Keeps.trans ?_ (keeps_changeRates ?_)
    | with_reducible apply Keeps.trans ?_ keeps_onTier
    | with_reducible apply Keeps.trans ?_ keeps_onQos
    | (extract_lets +onlyGivenNames x; refine Keeps.use (x := x) ?_ (fun hx => ?_); subst x; rotate_left; clear_value x)
    | (extract_lets +onlyGivenNames x; refine Keeps.useSnd (x := x) ?_ (fun hx => ?_); subst x; rotate_left; clear_value x)
    | (extract_lets +onlyGivenNames x; refine Keeps.useFst (x := x) ?_ (fun hx => ?_); subst x; rotate_left; clear_value x)
    | (extract_lets +onlyGivenNames x; refine Keeps.useThird (x := x) ?_ (fun hx => ?_); subst x; rotate_left; clear_value x)
    | (extract_lets +onlyGivenNames x; have _ := fun a => x a; subst x)
    | (extract_lets +onlyGivenNames x; clear_value x)
    | with_reducible apply Keeps.trans ?_ (Keeps.foldl _ _ ?_)
    | with_reducible apply Keeps.trans ?_ (Keeps.foldl_fst _ _ ?_)
    | with_reducible apply Keeps.trans ?_ (Keeps.foldl_snd _ _ ?_)
    | with_reducible apply Keeps.trans ?_ (Keeps.pairFst (Keeps.foldl_fst _ _ ?_) (by assumption))
    | with_reducible apply Keeps.trans ?_ (Keeps.pair (Keeps.foldl_snd _ _ ?_) (by assumption))
    | with_reducible intro _

theorem keeps_storeAsk {r : Region} {t area k prio : Nat} {s : State} : Keeps s (storeAsk r t area k prio s) := by
  unfold storeAsk
  repeat' first
    | with_reducible exact Keeps.refl _
    | with_reducible assumption
    | with_reducible apply Keeps.trans ?_ (keeps_askLoc)

theorem keeps_storeDrop {r : Region} {t area k : Nat} {s : State} : Keeps s (storeDrop r t area k s) := by
  unfold storeDrop
  repeat' first
    | with_reducible exact Keeps.refl _
    | with_reducible assumption
    | with_reducible apply Keeps.trans ?_ (keeps_drDrop)
    | (extract_lets +onlyGivenNames x; refine Keeps.use (x := x) ?_ (fun hx => ?_); subst x; rotate_left; clear_value x)
    | (extract_lets +onlyGivenNames x; refine Keeps.useSnd (x := x) ?_ (fun hx => ?_); subst x; rotate_left; clear_value x)
    | (extract_lets +onlyGivenNames x; refine Keeps.useFst (x := x) ?_ (fun hx => ?_); subst x; rotate_left; clear_value x)
    | (extract_lets +onlyGivenNames x; refine Keeps.useThird (x := x) ?_ (fun hx => ?_); subst x; rotate_left; clear_value x)
    | (extract_lets +onlyGivenNames x; have _ := fun a => x a; subst x)
    | (extract_lets +onlyGivenNames x; clear_value x)
    | with_reducible apply Keeps.trans ?_ (Keeps.foldl _ _ ?_)
    | with_reducible apply Keeps.trans ?_ (Keeps.foldl_fst _ _ ?_)
    | with_reducible apply Keeps.trans ?_ (Keeps.foldl_snd _ _ ?_)
    | with_reducible intro _
    | split

theorem keeps_storePut {r : Region} {t area k prio : Nat} {x : Rec} {s : State} : Keeps s (storePut r t area k prio x s) := by
  unfold storePut
  repeat' first
    | with_reducible exact Keeps.refl _
    | with_reducible assumption
    | with_reducible apply Keeps.trans ?_ (keeps_putLoc)

theorem keeps_storeAskPage {r : Region} {t area k prio : Nat} {s : State} : Keeps s (storeAskPage r t area k prio s) := by
  unfold storeAskPage
  repeat' first
    | with_reducible exact Keeps.refl _
    | with_reducible assumption
    | with_reducible apply Keeps.trans ?_ (keeps_storeAsk)
    | with_reducible apply Keeps.trans ?_ (Keeps.foldl _ _ ?_)
    | with_reducible apply Keeps.trans ?_ (Keeps.foldl_fst _ _ ?_)
    | with_reducible apply Keeps.trans ?_ (Keeps.foldl_snd _ _ ?_)
    | with_reducible apply Keeps.trans ?_ (Keeps.pairFst (Keeps.foldl_fst _ _ ?_) (by assumption))
    | with_reducible apply Keeps.trans ?_ (Keeps.pair (Keeps.foldl_snd _ _ ?_) (by assumption))
    | with_reducible intro _

theorem keeps_storeWrite {r : Region} {t area k : Nat} {d : Line} {who : Reader} {s : State} : Keeps s (storeWrite r t area k d who s).2 := by
  unfold storeWrite
  repeat' first
    | with_reducible exact Keeps.refl _
    | with_reducible assumption
    | with_reducible apply Keeps.trans ?_ (keeps_cryWrite ?_)
    | with_reducible apply Keeps.trans ?_ (Keeps.pair (keeps_cryWrite ?_) (by assumption))
    | with_reducible apply Keeps.trans ?_ (keeps_storePut)
    | with_reducible apply Keeps.trans ?_ (keeps_storeDrop)
    | with_reducible apply Keeps.trans ?_ (keeps_rewritten)
    | (extract_lets +onlyGivenNames x; refine Keeps.use (x := x) ?_ (fun hx => ?_); subst x; rotate_left; clear_value x)
    | (extract_lets +onlyGivenNames x; refine Keeps.useSnd (x := x) ?_ (fun hx => ?_); subst x; rotate_left; clear_value x)
    | (extract_lets +onlyGivenNames x; refine Keeps.useFst (x := x) ?_ (fun hx => ?_); subst x; rotate_left; clear_value x)
    | (extract_lets +onlyGivenNames x; refine Keeps.useThird (x := x) ?_ (fun hx => ?_); subst x; rotate_left; clear_value x)
    | (extract_lets +onlyGivenNames x; have _ := fun a => x a; subst x)
    | (extract_lets +onlyGivenNames x; clear_value x)
    | with_reducible apply Keeps.trans ?_ (Keeps.foldl _ _ ?_)
    | with_reducible apply Keeps.trans ?_ (Keeps.foldl_fst _ _ ?_)
    | with_reducible apply Keeps.trans ?_ (Keeps.foldl_snd _ _ ?_)
    | with_reducible apply Keeps.trans ?_ (Keeps.pairFst (Keeps.foldl_fst _ _ ?_) (by assumption))
    | with_reducible apply Keeps.trans ?_ (Keeps.pair (Keeps.foldl_snd _ _ ?_) (by assumption))
    | with_reducible intro _
    | split

theorem keeps_storeRead {r : Region} {t area k : Nat} {flips : Flips} {who : Reader} {s : State} : Keeps s (storeRead r t area k flips who s).2 := by
  unfold storeRead
  repeat' first
    | with_reducible exact Keeps.refl _
    | with_reducible assumption
    | with_reducible apply Keeps.trans ?_ (keeps_takeLoc (by assumption))
    | with_reducible apply Keeps.trans ?_ (keeps_countUe)
    | with_reducible apply Keeps.trans ?_ (keeps_countCe)
    | with_reducible apply Keeps.trans ?_ (keeps_storePut)
    | with_reducible apply Keeps.trans ?_ (keeps_checkKey ?_)
    | with_reducible apply Keeps.trans ?_ (Keeps.triple (keeps_checkKey ?_) (by assumption))
    | with_reducible apply Keeps.trans ?_ (keeps_cryRead)
    | with_reducible apply Keeps.trans ?_ (Keeps.pair (keeps_cryRead) (by assumption))
    | (extract_lets +onlyGivenNames x; refine Keeps.use (x := x) ?_ (fun hx => ?_); subst x; rotate_left; clear_value x)
    | (extract_lets +onlyGivenNames x; refine Keeps.useSnd (x := x) ?_ (fun hx => ?_); subst x; rotate_left; clear_value x)
    | (extract_lets +onlyGivenNames x; refine Keeps.useFst (x := x) ?_ (fun hx => ?_); subst x; rotate_left; clear_value x)
    | (extract_lets +onlyGivenNames x; refine Keeps.useThird (x := x) ?_ (fun hx => ?_); subst x; rotate_left; clear_value x)
    | (extract_lets +onlyGivenNames x; have _ := fun a => x a; subst x)
    | (extract_lets +onlyGivenNames x; clear_value x)
    | with_reducible apply Keeps.trans ?_ (Keeps.foldl _ _ ?_)
    | with_reducible apply Keeps.trans ?_ (Keeps.foldl_fst _ _ ?_)
    | with_reducible apply Keeps.trans ?_ (Keeps.foldl_snd _ _ ?_)
    | with_reducible intro _
    | split

theorem keeps_cacheMap {t region idx : Nat} {s : State} : Keeps s (cacheMap t region idx s) := by
  unfold cacheMap
  repeat' first
    | with_reducible exact Keeps.refl _
    | with_reducible assumption
    | with_reducible apply Keeps.trans ?_ keeps_onPk
    | with_reducible apply Keeps.trans ?_ keeps_takeFree
    | (extract_lets +onlyGivenNames x; refine Keeps.use (x := x) ?_ (fun hx => ?_); subst x; rotate_left; clear_value x)
    | (extract_lets +onlyGivenNames x; refine Keeps.useSnd (x := x) ?_ (fun hx => ?_); subst x; rotate_left; clear_value x)
    | (extract_lets +onlyGivenNames x; refine Keeps.useFst (x := x) ?_ (fun hx => ?_); subst x; rotate_left; clear_value x)
    | (extract_lets +onlyGivenNames x; refine Keeps.useThird (x := x) ?_ (fun hx => ?_); subst x; rotate_left; clear_value x)
    | (extract_lets +onlyGivenNames x; have _ := fun a => x a; subst x)
    | (extract_lets +onlyGivenNames x; clear_value x)
    | with_reducible apply Keeps.trans ?_ (Keeps.foldl _ _ ?_)
    | with_reducible apply Keeps.trans ?_ (Keeps.foldl_fst _ _ ?_)
    | with_reducible apply Keeps.trans ?_ (Keeps.foldl_snd _ _ ?_)
    | with_reducible intro _
    | split

theorem keeps_uncacheMap {t region idx : Nat} {s : State} : Keeps s (uncacheMap t region idx s) := by
  unfold uncacheMap
  repeat' first
    | with_reducible exact Keeps.refl _
    | with_reducible assumption
    | with_reducible apply Keeps.trans ?_ keeps_onPk
    | with_reducible apply Keeps.trans ?_ (Keeps.foldl _ _ ?_)
    | with_reducible apply Keeps.trans ?_ (Keeps.foldl_fst _ _ ?_)
    | with_reducible apply Keeps.trans ?_ (Keeps.foldl_snd _ _ ?_)
    | with_reducible intro _
    | split

theorem keeps_writeMap {r : Region} {t idx : Nat} {e : MapEnt} {who : Reader} {s : State} : Keeps s (writeMap r t idx e who s).2 := by
  unfold writeMap
  extract_lets +onlyGivenNames s1
  split
  rename_i ok s2 heq
  have h : Keeps s s2 := Keeps.trans keeps_onPk (Keeps.pair keeps_storeWrite heq)
  split
  · exact h
  · exact h.trans (Keeps.of_parts rfl rfl rfl rfl rfl rfl rfl rfl rfl rfl)

theorem keeps_flushBitmap {s : State} : Keeps s (flushBitmap s) := by
  unfold flushBitmap
  repeat' first
    | with_reducible exact Keeps.refl _
    | with_reducible assumption
    | with_reducible apply Keeps.trans ?_ keeps_onPk
    | with_reducible apply Keeps.trans ?_ (keeps_storeWrite)
    | with_reducible apply Keeps.trans ?_ (Keeps.pair (keeps_storeWrite) (by assumption))
    | with_reducible apply Keeps.trans ?_ (keeps_storeAskPage)
    | (extract_lets +onlyGivenNames x; refine Keeps.use (x := x) ?_ (fun hx => ?_); subst x; rotate_left; clear_value x)
    | (extract_lets +onlyGivenNames x; refine Keeps.useSnd (x := x) ?_ (fun hx => ?_); subst x; rotate_left; clear_value x)
    | (extract_lets +onlyGivenNames x; refine Keeps.useFst (x := x) ?_ (fun hx => ?_); subst x; rotate_left; clear_value x)
    | (extract_lets +onlyGivenNames x; refine Keeps.useThird (x := x) ?_ (fun hx => ?_); subst x; rotate_left; clear_value x)
    | (extract_lets +onlyGivenNames x; have _ := fun a => x a; subst x)
    | (extract_lets +onlyGivenNames x; clear_value x)
    | with_reducible apply Keeps.trans ?_ (Keeps.foldl _ _ ?_)
    | with_reducible apply Keeps.trans ?_ (Keeps.foldl_fst _ _ ?_)
    | with_reducible apply Keeps.trans ?_ (Keeps.foldl_snd _ _ ?_)
    | with_reducible apply Keeps.trans ?_ (Keeps.pairFst (Keeps.foldl_fst _ _ ?_) (by assumption))
    | with_reducible apply Keeps.trans ?_ (Keeps.pair (Keeps.foldl_snd _ _ ?_) (by assumption))
    | with_reducible intro _
    | split

theorem keeps_touchUnits {t region a n : Nat} {s : State} : Keeps s (touchUnits t region a n s) := by
  unfold touchUnits
  repeat' first
    | with_reducible exact Keeps.refl _
    | with_reducible assumption
    | with_reducible apply Keeps.trans ?_ (keeps_flushBitmap)
    | with_reducible apply Keeps.trans ?_ keeps_onPk

theorem keeps_allocRun {r : Region} {t n : Nat} {s : State} {o0 : Nat} {u : State} : allocRun r t n s = some (o0, u) → Keeps s u := by
  refine Keeps.OfSome.out (p := fun x : Nat × State => Keeps s x.2) ?_
  unfold allocRun
  repeat' first
    | with_reducible exact Keeps.ofNone
    | with_reducible apply Keeps.ofSome ?_
    | with_reducible apply Keeps.ofMap ?_
    | with_reducible exact Keeps.refl _
    | with_reducible assumption
    | with_reducible apply Keeps.trans ?_ (keeps_touchUnits)
    | with_reducible apply Keeps.trans ?_ keeps_onPk
    | with_reducible apply Keeps.trans ?_ (Keeps.foldl _ _ ?_)
    | with_reducible apply Keeps.trans ?_ (Keeps.foldl_fst _ _ ?_)
    | with_reducible apply Keeps.trans ?_ (Keeps.foldl_snd _ _ ?_)
    | with_reducible intro _

theorem keeps_freeRun {t region a n : Nat} {s : State} : Keeps s (freeRun t region a n s) := by
  unfold freeRun
  repeat' first
    | with_reducible exact Keeps.refl _
    | with_reducible assumption
    | with_reducible apply Keeps.trans ?_ (keeps_touchUnits)
    | with_reducible apply Keeps.trans ?_ keeps_onPk

theorem keeps_poisonBlock {r : Region} {b : Nat} {at_ : PkWhere} {s : State} : Keeps s (poisonBlock r b at_ s) := by
  unfold poisonBlock
  repeat' first
    | with_reducible exact Keeps.refl _
    | with_reducible assumption
    | with_reducible apply Keeps.trans ?_ (keeps_writeMap)
    | with_reducible apply Keeps.trans ?_ (Keeps.pair (keeps_writeMap) (by assumption))
    | with_reducible apply Keeps.trans ?_ (keeps_addPoison)
    | with_reducible apply Keeps.trans ?_ (keeps_raiseWith)
    | (extract_lets +onlyGivenNames x; refine Keeps.use (x := x) ?_ (fun hx => ?_); subst x; rotate_left; clear_value x)
    | (extract_lets +onlyGivenNames x; refine Keeps.useSnd (x := x) ?_ (fun hx => ?_); subst x; rotate_left; clear_value x)
    | (extract_lets +onlyGivenNames x; refine Keeps.useFst (x := x) ?_ (fun hx => ?_); subst x; rotate_left; clear_value x)
    | (extract_lets +onlyGivenNames x; refine Keeps.useThird (x := x) ?_ (fun hx => ?_); subst x; rotate_left; clear_value x)
    | (extract_lets +onlyGivenNames x; have _ := fun a => x a; subst x)
    | (extract_lets +onlyGivenNames x; clear_value x)
    | with_reducible apply Keeps.trans ?_ (Keeps.foldl _ _ ?_)
    | with_reducible apply Keeps.trans ?_ (Keeps.foldl_fst _ _ ?_)
    | with_reducible apply Keeps.trans ?_ (Keeps.foldl_snd _ _ ?_)
    | with_reducible intro _
    | split

end Sys2Proof.Machine
end

