-- ==== Sys2Proof/Laws/Keeps9.lean ====
section
/-!
SUPPORT. What the operations of the block keep, part 9: one lemma for each, in the order of their files.
-/
namespace Sys2Proof.Machine

theorem keeps_finish {line : Nat} {r : Region} {m : Msg} {s : State} : Keeps s (finish line r m s) := by
  unfold finish
  repeat' first
    | with_reducible exact Keeps.refl _
    | with_reducible assumption
    | with_reducible apply Keeps.trans ?_ (keeps_onTxn)
    | with_reducible apply Keeps.trans ?_ (keeps_askPage)
    | with_reducible apply Keeps.trans ?_ (keeps_waitSlot)
    | with_reducible apply Keeps.trans ?_ (keeps_writeHome)
    | with_reducible apply Keeps.trans ?_ (Keeps.pair (keeps_writeHome) (by assumption))
    | with_reducible apply Keeps.trans ?_ (keeps_setPoison)
    | with_reducible apply Keeps.trans ?_ (keeps_failTxn)
    | with_reducible apply Keeps.trans ?_ (keeps_biFailure)
    | with_reducible apply Keeps.trans ?_ (keeps_answer)
    | with_reducible apply Keeps.trans ?_ (keeps_countUnwritten)
    | with_reducible apply Keeps.trans ?_ (keeps_closeTxn)
    | with_reducible apply Keeps.trans ?_ (keeps_onEnt)
    | (extract_lets +onlyGivenNames x; refine Keeps.use (x := x) ?_ (fun hx => ?_); subst x; rotate_left; clear_value x)
    | (extract_lets +onlyGivenNames x; refine Keeps.useSnd (x := x) ?_ (fun hx => ?_); subst x; rotate_left; clear_value x)
    | (extract_lets +onlyGivenNames x; refine Keeps.useFst (x := x) ?_ (fun hx => ?_); subst x; rotate_left; clear_value x)
    | (extract_lets +onlyGivenNames x; refine Keeps.useThird (x := x) ?_ (fun hx => ?_); subst x; rotate_left; clear_value x)
    | (extract_lets +onlyGivenNames x; have _ := fun a => x a; subst x)
    | (extract_lets +onlyGivenNames x; clear_value x)
    | with_reducible apply Keeps.trans ?_ (Keeps.foldl _ _ ?_)
    | with_reducible apply Keeps.trans ?_ (Keeps.foldl_fst _ _ ?_)
    | with_reducible apply Keeps.trans ?_ (Keeps.foldl_snd _ _ ?_)
    | with_reducible apply Keeps.trans ?_ (Keeps.pairFst (Keeps.foldl_fst _ _ ?_) (by assumption))
    | with_reducible apply Keeps.trans ?_ (Keeps.pair (Keeps.foldl_snd _ _ ?_) (by assumption))
    | with_reducible intro _
    | split
    | with_reducible apply Keeps.trans ?_ (Keeps.pair (m := s) ?_ (by assumption))

theorem keeps_endEvict {line : Nat} {s : State} : Keeps s (endEvict line s) := by
  unfold endEvict
  repeat' first
    | with_reducible exact Keeps.refl _
    | with_reducible assumption
    | with_reducible apply Keeps.trans ?_ (keeps_closeTxn)
    | with_reducible apply Keeps.trans ?_ (keeps_freeEntry)
    | with_reducible apply Keeps.trans ?_ (keeps_moveGuest)
    | (extract_lets +onlyGivenNames x; refine Keeps.use (x := x) ?_ (fun hx => ?_); subst x; rotate_left; clear_value x)
    | (extract_lets +onlyGivenNames x; refine Keeps.useSnd (x := x) ?_ (fun hx => ?_); subst x; rotate_left; clear_value x)
    | (extract_lets +onlyGivenNames x; refine Keeps.useFst (x := x) ?_ (fun hx => ?_); subst x; rotate_left; clear_value x)
    | (extract_lets +onlyGivenNames x; refine Keeps.useThird (x := x) ?_ (fun hx => ?_); subst x; rotate_left; clear_value x)
    | (extract_lets +onlyGivenNames x; have _ := fun a => x a; subst x)
    | (extract_lets +onlyGivenNames x; clear_value x)
    | with_reducible apply Keeps.trans ?_ (Keeps.foldl _ _ ?_)
    | with_reducible apply Keeps.trans ?_ (Keeps.foldl_fst _ _ ?_)
    | with_reducible apply Keeps.trans ?_ (Keeps.foldl_snd _ _ ?_)
    | with_reducible intro _
    | split

theorem keeps_evictWrite {line : Nat} {r : Region} {s : State} : Keeps s (evictWrite line r s) := by
  unfold evictWrite
  repeat' first
    | with_reducible exact Keeps.refl _
    | with_reducible assumption
    | with_reducible apply Keeps.trans ?_ (keeps_endEvict)
    | with_reducible apply Keeps.trans ?_ (keeps_onTxn)
    | with_reducible apply Keeps.trans ?_ (keeps_askPage)
    | with_reducible apply Keeps.trans ?_ (keeps_waitSlot)
    | with_reducible apply Keeps.trans ?_ (keeps_writeHome)
    | with_reducible apply Keeps.trans ?_ (Keeps.pair (keeps_writeHome) (by assumption))
    | with_reducible apply Keeps.trans ?_ (keeps_putLine)
    | with_reducible apply Keeps.trans ?_ (keeps_setPoison)
    | with_reducible apply Keeps.trans ?_ (keeps_askLine)
    | (extract_lets +onlyGivenNames x; refine Keeps.use (x := x) ?_ (fun hx => ?_); subst x; rotate_left; clear_value x)
    | (extract_lets +onlyGivenNames x; refine Keeps.useSnd (x := x) ?_ (fun hx => ?_); subst x; rotate_left; clear_value x)
    | (extract_lets +onlyGivenNames x; refine Keeps.useFst (x := x) ?_ (fun hx => ?_); subst x; rotate_left; clear_value x)
    | (extract_lets +onlyGivenNames x; refine Keeps.useThird (x := x) ?_ (fun hx => ?_); subst x; rotate_left; clear_value x)
    | (extract_lets +onlyGivenNames x; have _ := fun a => x a; subst x)
    | (extract_lets +onlyGivenNames x; clear_value x)
    | with_reducible apply Keeps.trans ?_ (Keeps.foldl _ _ ?_)
    | with_reducible apply Keeps.trans ?_ (Keeps.foldl_fst _ _ ?_)
    | with_reducible apply Keeps.trans ?_ (Keeps.foldl_snd _ _ ?_)
    | with_reducible intro _
    | split

theorem keeps_poisonEnd {line : Nat} {r : Region} {s : State} : Keeps s (poisonEnd line r s) := by
  unfold poisonEnd
  repeat' first
    | with_reducible exact Keeps.refl _
    | with_reducible assumption
    | with_reducible apply Keeps.trans ?_ (keeps_closeTxn)
    | with_reducible apply Keeps.trans ?_ (keeps_setPoison)
    | with_reducible apply Keeps.trans ?_ (keeps_onTxn)
    | with_reducible apply Keeps.trans ?_ (keeps_askLine)
    | (extract_lets +onlyGivenNames x; refine Keeps.use (x := x) ?_ (fun hx => ?_); subst x; rotate_left; clear_value x)
    | (extract_lets +onlyGivenNames x; refine Keeps.useSnd (x := x) ?_ (fun hx => ?_); subst x; rotate_left; clear_value x)
    | (extract_lets +onlyGivenNames x; refine Keeps.useFst (x := x) ?_ (fun hx => ?_); subst x; rotate_left; clear_value x)
    | (extract_lets +onlyGivenNames x; refine Keeps.useThird (x := x) ?_ (fun hx => ?_); subst x; rotate_left; clear_value x)
    | (extract_lets +onlyGivenNames x; have _ := fun a => x a; subst x)
    | (extract_lets +onlyGivenNames x; clear_value x)
    | with_reducible apply Keeps.trans ?_ (Keeps.foldl _ _ ?_)
    | with_reducible apply Keeps.trans ?_ (Keeps.foldl_fst _ _ ?_)
    | with_reducible apply Keeps.trans ?_ (Keeps.foldl_snd _ _ ?_)
    | with_reducible intro _
    | split

theorem keeps_failEnd {line : Nat} {r : Region} {s : State} : Keeps s (failEnd line r s) := by
  unfold failEnd
  repeat' first
    | with_reducible exact Keeps.refl _
    | with_reducible assumption
    | with_reducible apply Keeps.trans ?_ (keeps_failTxn)
    | with_reducible apply Keeps.trans ?_ (keeps_onTxn)
    | with_reducible apply Keeps.trans ?_ (keeps_askPage)
    | with_reducible apply Keeps.trans ?_ (keeps_waitSlot)
    | with_reducible apply Keeps.trans ?_ (keeps_writeHome)
    | with_reducible apply Keeps.trans ?_ (Keeps.pair (keeps_writeHome) (by assumption))
    | with_reducible apply Keeps.trans ?_ (keeps_setPoison)
    | with_reducible apply Keeps.trans ?_ (keeps_askLine)
    | (extract_lets +onlyGivenNames x; refine Keeps.use (x := x) ?_ (fun hx => ?_); subst x; rotate_left; clear_value x)
    | (extract_lets +onlyGivenNames x; refine Keeps.useSnd (x := x) ?_ (fun hx => ?_); subst x; rotate_left; clear_value x)
    | (extract_lets +onlyGivenNames x; refine Keeps.useFst (x := x) ?_ (fun hx => ?_); subst x; rotate_left; clear_value x)
    | (extract_lets +onlyGivenNames x; refine Keeps.useThird (x := x) ?_ (fun hx => ?_); subst x; rotate_left; clear_value x)
    | (extract_lets +onlyGivenNames x; have _ := fun a => x a; subst x)
    | (extract_lets +onlyGivenNames x; clear_value x)
    | with_reducible apply Keeps.trans ?_ (Keeps.foldl _ _ ?_)
    | with_reducible apply Keeps.trans ?_ (Keeps.foldl_fst _ _ ?_)
    | with_reducible apply Keeps.trans ?_ (Keeps.foldl_snd _ _ ?_)
    | with_reducible intro _
    | split

theorem keeps_advance {line : Nat} {s : State} : Keeps s (advance line s) := by
  unfold advance
  repeat' first
    | with_reducible exact Keeps.refl _
    | with_reducible assumption
    | with_reducible apply Keeps.trans ?_ (keeps_evictWrite)
    | with_reducible apply Keeps.trans ?_ (keeps_poisonEnd)
    | with_reducible apply Keeps.trans ?_ (keeps_failEnd)
    | with_reducible apply Keeps.trans ?_ (keeps_fetchVal)
    | with_reducible apply Keeps.trans ?_ (keeps_finish)
    | with_reducible apply Keeps.trans ?_ (keeps_endEvict)
    | with_reducible apply Keeps.trans ?_ (keeps_closeTxn)
    | with_reducible apply Keeps.trans ?_ (keeps_failTxn)
    | (extract_lets +onlyGivenNames x; refine Keeps.use (x := x) ?_ (fun hx => ?_); subst x; rotate_left; clear_value x)
    | (extract_lets +onlyGivenNames x; refine Keeps.useSnd (x := x) ?_ (fun hx => ?_); subst x; rotate_left; clear_value x)
    | (extract_lets +onlyGivenNames x; refine Keeps.useFst (x := x) ?_ (fun hx => ?_); subst x; rotate_left; clear_value x)
    | (extract_lets +onlyGivenNames x; refine Keeps.useThird (x := x) ?_ (fun hx => ?_); subst x; rotate_left; clear_value x)
    | (extract_lets +onlyGivenNames x; have _ := fun a => x a; subst x)
    | (extract_lets +onlyGivenNames x; clear_value x)
    | with_reducible apply Keeps.trans ?_ (Keeps.foldl _ _ ?_)
    | with_reducible apply Keeps.trans ?_ (Keeps.foldl_fst _ _ ?_)
    | with_reducible apply Keeps.trans ?_ (Keeps.foldl_snd _ _ ?_)
    | with_reducible intro _
    | split

theorem keeps_fillSlot {t line : Nat} {v : LVal} {s : State} {u : State} : fillSlot t line v s = some u → Keeps s u := by
  intro h
  unfold fillSlot at h
  obtain ⟨w, -, h1⟩ := Option.bind_eq_some_iff.1 h
  obtain ⟨s1, h2, h3⟩ := Option.map_eq_some_iff.1 h1
  subst h3
  extract_lets +onlyGivenNames s2
  have k : Keeps s s2 := (keeps_readySlot h2).trans keeps_onEnt
  clear_value s2
  exact k.trans (keeps_setNcSlot.trans keeps_fillMark)

theorem keeps_fillWay {t line w : Nat} {guest : Bool} {v : LVal} {s : State} {u : State} : fillWay t line w guest v s = some u → Keeps s u := by
  intro h
  unfold fillWay at h
  exact (keeps_setDir.trans keeps_touchDir).trans (keeps_fillSlot h)

theorem keeps_fillLater {m : Msg} {s : State} : Keeps s (fillLater m s) := by
  unfold fillLater
  repeat' first
    | with_reducible exact Keeps.refl _
    | with_reducible assumption
    | with_reducible apply Keeps.trans ?_ keeps_onHa

theorem keeps_fillTake {m : Msg} {w : Nat} {guest : Bool} {s : State} : Keeps s (fillTake m w guest s) := by
  unfold fillTake
  split
  · exact Keeps.refl _
  · split
    · exact keeps_fillLater
    · cases h : fillWay m.dst m.line w guest m.val s with
      | none => exact keeps_fillLater
      | some u => exact keeps_fillWay h

theorem keeps_fillStep {m : Msg} {s : State} : Keeps s (fillStep m s).2 := by
  unfold fillStep
  repeat' first
    | with_reducible exact Keeps.refl _
    | with_reducible assumption
    | with_reducible apply Keeps.trans ?_ (keeps_loseEntry)
    | with_reducible apply Keeps.trans ?_ (keeps_fillSlot (by assumption))
    | with_reducible apply Keeps.trans ?_ (keeps_setWaiters)
    | with_reducible apply Keeps.trans ?_ (keeps_fillWay (by assumption))
    | (extract_lets +onlyGivenNames x; refine Keeps.use (x := x) ?_ (fun hx => ?_); subst x; rotate_left; clear_value x)
    | (extract_lets +onlyGivenNames x; refine Keeps.useSnd (x := x) ?_ (fun hx => ?_); subst x; rotate_left; clear_value x)
    | (extract_lets +onlyGivenNames x; refine Keeps.useFst (x := x) ?_ (fun hx => ?_); subst x; rotate_left; clear_value x)
    | (extract_lets +onlyGivenNames x; refine Keeps.useThird (x := x) ?_ (fun hx => ?_); subst x; rotate_left; clear_value x)
    | (extract_lets +onlyGivenNames x; have _ := fun a => x a; subst x)
    | (extract_lets +onlyGivenNames x; clear_value x)
    | with_reducible apply Keeps.trans ?_ (Keeps.foldl _ _ ?_)
    | with_reducible apply Keeps.trans ?_ (Keeps.foldl_fst _ _ ?_)
    | with_reducible apply Keeps.trans ?_ (Keeps.foldl_snd _ _ ?_)
    | with_reducible intro _
    | split

theorem keeps_pumpFills {s : State} : Keeps s (pumpFills s) := by
  unfold pumpFills
  repeat' first
    | with_reducible exact Keeps.refl _
    | with_reducible assumption
    | with_reducible apply Keeps.trans ?_ (keeps_fillStep)
    | with_reducible apply Keeps.trans ?_ (Keeps.pair (keeps_fillStep) (by assumption))
    | with_reducible apply Keeps.trans ?_ keeps_onHa
    | (extract_lets +onlyGivenNames x; refine Keeps.use (x := x) ?_ (fun hx => ?_); subst x; rotate_left; clear_value x)
    | (extract_lets +onlyGivenNames x; refine Keeps.useSnd (x := x) ?_ (fun hx => ?_); subst x; rotate_left; clear_value x)
    | (extract_lets +onlyGivenNames x; refine Keeps.useFst (x := x) ?_ (fun hx => ?_); subst x; rotate_left; clear_value x)
    | (extract_lets +onlyGivenNames x; refine Keeps.useThird (x := x) ?_ (fun hx => ?_); subst x; rotate_left; clear_value x)
    | (extract_lets +onlyGivenNames x; have _ := fun a => x a; subst x)
    | (extract_lets +onlyGivenNames x; clear_value x)
    | with_reducible apply Keeps.trans ?_ (Keeps.foldl _ _ ?_)
    | with_reducible apply Keeps.trans ?_ (Keeps.foldl_fst _ _ ?_)
    | with_reducible apply Keeps.trans ?_ (Keeps.foldl_snd _ _ ?_)
    | with_reducible apply Keeps.trans ?_ (Keeps.pairFst (Keeps.foldl_fst _ _ ?_) (by assumption))
    | with_reducible apply Keeps.trans ?_ (Keeps.pair (Keeps.foldl_snd _ _ ?_) (by assumption))
    | with_reducible intro _
    | split

theorem keeps_nextWaiter {t set : Nat} {s : State} {o0 : Nat} {u : State} : nextWaiter t set s = some (o0, u) → Keeps s u := by
  intro h
  unfold nextWaiter at h
  extract_lets +onlyGivenNames e go at h
  have hg : ∀ s x, go s = some x → Keeps s x.2 := by
    intro s x hx
    simp only [go] at hx
    split at hx
    · cases hx
    · split at hx
      · cases hx
      · split at hx
        · cases hx
        · split at hx <;> cases hx
          · exact keeps_setWaiters.trans keeps_fillTake
          · exact keeps_setWaiters.trans (keeps_newEntry.trans keeps_startTxn)
  clear_value e go
  split at h
  · rename_i w _
    extract_lets +onlyGivenNames s1 at h
    have h1 : Keeps s s1 := keeps_moveGuest
    clear_value s1
    cases hs : go s1 with
    | none => rw [hs] at h; cases h; exact h1
    | some x => rw [hs] at h; cases h; exact h1.trans (hg s1 _ hs)
  · exact hg s _ h

theorem keeps_drive  {a0 : Nat} {a1 : Nat} {s : State} : Keeps s (drive a0 a1 s) := by
  induction a0 generalizing a1 s with
  | zero => exact keeps_advance
  | succ f ih =>
    unfold drive
    repeat' first
      | with_reducible apply Keeps.trans ?_ ih
      | with_reducible exact Keeps.refl _
      | with_reducible assumption
      | with_reducible apply Keeps.trans ?_ (keeps_advance)
      | with_reducible apply Keeps.trans ?_ (keeps_nextWaiter (by assumption))
      | (extract_lets +onlyGivenNames x; refine Keeps.use (x := x) ?_ (fun hx => ?_); subst x; rotate_left; clear_value x)
      | (extract_lets +onlyGivenNames x; refine Keeps.useSnd (x := x) ?_ (fun hx => ?_); subst x; rotate_left; clear_value x)
      | (extract_lets +onlyGivenNames x; refine Keeps.useFst (x := x) ?_ (fun hx => ?_); subst x; rotate_left; clear_value x)
      | (extract_lets +onlyGivenNames x; refine Keeps.useThird (x := x) ?_ (fun hx => ?_); subst x; rotate_left; clear_value x)
      | (extract_lets +onlyGivenNames x; have _ := fun a => x a; subst x)
      | (extract_lets +onlyGivenNames x; clear_value x)
      | with_reducible apply Keeps.trans ?_ (Keeps.foldl _ _ ?_)
      | with_reducible apply Keeps.trans ?_ (Keeps.foldl_fst _ _ ?_)
      | with_reducible apply Keeps.trans ?_ (Keeps.foldl_snd _ _ ?_)
      | with_reducible intro _
      | split

theorem keeps_driveLine {line : Nat} {s : State} : Keeps s (driveLine line s) := by
  unfold driveLine
  repeat' first
    | with_reducible exact Keeps.refl _
    | with_reducible assumption
    | with_reducible apply Keeps.trans ?_ (keeps_pumpFills)
    | with_reducible apply Keeps.trans ?_ (keeps_pumpSnoops)
    | with_reducible apply Keeps.trans ?_ (keeps_drive)

theorem keeps_protoAt {t line detail : Nat} {s : State} : Keeps s (protoAt t line detail s) := by
  unfold protoAt
  repeat' first
    | with_reducible exact Keeps.refl _
    | with_reducible assumption
    | with_reducible apply Keeps.trans ?_ (keeps_raiseWith)
    | with_reducible apply Keeps.trans ?_ (keeps_driveLine)
    | with_reducible apply Keeps.trans ?_ (keeps_onTxn)
    | (extract_lets +onlyGivenNames x; refine Keeps.use (x := x) ?_ (fun hx => ?_); subst x; rotate_left; clear_value x)
    | (extract_lets +onlyGivenNames x; refine Keeps.useSnd (x := x) ?_ (fun hx => ?_); subst x; rotate_left; clear_value x)
    | (extract_lets +onlyGivenNames x; refine Keeps.useFst (x := x) ?_ (fun hx => ?_); subst x; rotate_left; clear_value x)
    | (extract_lets +onlyGivenNames x; refine Keeps.useThird (x := x) ?_ (fun hx => ?_); subst x; rotate_left; clear_value x)
    | (extract_lets +onlyGivenNames x; have _ := fun a => x a; subst x)
    | (extract_lets +onlyGivenNames x; clear_value x)
    | with_reducible apply Keeps.trans ?_ (Keeps.foldl _ _ ?_)
    | with_reducible apply Keeps.trans ?_ (Keeps.foldl_fst _ _ ?_)
    | with_reducible apply Keeps.trans ?_ (Keeps.foldl_snd _ _ ?_)
    | with_reducible intro _
    | split

theorem keeps_homeProto {m : Msg} {s : State} : Keeps s (homeProto m s) := by
  unfold homeProto
  repeat' first
    | with_reducible exact Keeps.refl _
    | with_reducible assumption
    | with_reducible apply Keeps.trans ?_ (keeps_protoAt)

theorem keeps_snoopAnswer {m : Msg} {s : State} : Keeps s (snoopAnswer m s) := by
  unfold snoopAnswer
  repeat' first
    | with_reducible exact Keeps.refl _
    | with_reducible assumption
    | with_reducible apply Keeps.trans ?_ (keeps_homeProto)
    | with_reducible apply Keeps.trans ?_ (keeps_onTxn)
    | with_reducible apply Keeps.trans ?_ (keeps_onEnt)
    | with_reducible apply Keeps.trans ?_ (keeps_driveLine)
    | (extract_lets +onlyGivenNames x; refine Keeps.use (x := x) ?_ (fun hx => ?_); subst x; rotate_left; clear_value x)
    | (extract_lets +onlyGivenNames x; refine Keeps.useSnd (x := x) ?_ (fun hx => ?_); subst x; rotate_left; clear_value x)
    | (extract_lets +onlyGivenNames x; refine Keeps.useFst (x := x) ?_ (fun hx => ?_); subst x; rotate_left; clear_value x)
    | (extract_lets +onlyGivenNames x; refine Keeps.useThird (x := x) ?_ (fun hx => ?_); subst x; rotate_left; clear_value x)
    | (extract_lets +onlyGivenNames x; have _ := fun a => x a; subst x)
    | (extract_lets +onlyGivenNames x; clear_value x)
    | with_reducible apply Keeps.trans ?_ (Keeps.foldl _ _ ?_)
    | with_reducible apply Keeps.trans ?_ (Keeps.foldl_fst _ _ ?_)
    | with_reducible apply Keeps.trans ?_ (Keeps.foldl_snd _ _ ?_)
    | with_reducible intro _
    | split

theorem keeps_applyWb {m : Msg} {s : State} : Keeps s (applyWb m s).2 := by
  unfold applyWb
  repeat' first
    | with_reducible exact Keeps.refl _
    | with_reducible assumption
    | with_reducible apply Keeps.trans ?_ (keeps_askPage)
    | with_reducible apply Keeps.trans ?_ (keeps_waitSlot)
    | with_reducible apply Keeps.trans ?_ (keeps_writeHome)
    | with_reducible apply Keeps.trans ?_ (Keeps.pair (keeps_writeHome) (by assumption))
    | with_reducible apply Keeps.trans ?_ (keeps_sendHom)
    | with_reducible apply Keeps.trans ?_ (keeps_onEnt)
    | (extract_lets +onlyGivenNames x; refine Keeps.use (x := x) ?_ (fun hx => ?_); subst x; rotate_left; clear_value x)
    | (extract_lets +onlyGivenNames x; refine Keeps.useSnd (x := x) ?_ (fun hx => ?_); subst x; rotate_left; clear_value x)
    | (extract_lets +onlyGivenNames x; refine Keeps.useFst (x := x) ?_ (fun hx => ?_); subst x; rotate_left; clear_value x)
    | (extract_lets +onlyGivenNames x; refine Keeps.useThird (x := x) ?_ (fun hx => ?_); subst x; rotate_left; clear_value x)
    | (extract_lets +onlyGivenNames x; have _ := fun a => x a; subst x)
    | (extract_lets +onlyGivenNames x; clear_value x)
    | with_reducible apply Keeps.trans ?_ (Keeps.foldl _ _ ?_)
    | with_reducible apply Keeps.trans ?_ (Keeps.foldl_fst _ _ ?_)
    | with_reducible apply Keeps.trans ?_ (Keeps.foldl_snd _ _ ?_)
    | with_reducible intro _
    | split

theorem keeps_wbArrive {m : Msg} {s0 : State} : Keeps s0 (wbArrive m s0) := by
  unfold wbArrive
  repeat' first
    | with_reducible exact Keeps.refl _
    | with_reducible assumption
    | with_reducible apply Keeps.trans ?_ keeps_onHa
    | with_reducible apply Keeps.trans ?_ (keeps_loseEntry)
    | with_reducible apply Keeps.trans ?_ (keeps_onTxn)
    | with_reducible apply Keeps.trans ?_ (keeps_sendHom)
    | with_reducible apply Keeps.trans ?_ (keeps_onEnt)
    | with_reducible apply Keeps.trans ?_ (keeps_homeProto)
    | with_reducible apply Keeps.trans ?_ (keeps_applyWb)
    | with_reducible apply Keeps.trans ?_ (Keeps.pair (keeps_applyWb) (by assumption))
    | with_reducible apply Keeps.trans ?_ (keeps_driveLine)
    | (extract_lets +onlyGivenNames x; refine Keeps.use (x := x) ?_ (fun hx => ?_); subst x; rotate_left; clear_value x)
    | (extract_lets +onlyGivenNames x; refine Keeps.useSnd (x := x) ?_ (fun hx => ?_); subst x; rotate_left; clear_value x)
    | (extract_lets +onlyGivenNames x; refine Keeps.useFst (x := x) ?_ (fun hx => ?_); subst x; rotate_left; clear_value x)
    | (extract_lets +onlyGivenNames x; refine Keeps.useThird (x := x) ?_ (fun hx => ?_); subst x; rotate_left; clear_value x)
    | (extract_lets +onlyGivenNames x; have _ := fun a => x a; subst x)
    | (extract_lets +onlyGivenNames x; clear_value x)
    | with_reducible apply Keeps.trans ?_ (Keeps.foldl _ _ ?_)
    | with_reducible apply Keeps.trans ?_ (Keeps.foldl_fst _ _ ?_)
    | with_reducible apply Keeps.trans ?_ (Keeps.foldl_snd _ _ ?_)
    | with_reducible intro _
    | split

theorem keeps_warnPacked {h line : Nat} {s : State} : Keeps s (warnPacked h line s) := by
  unfold warnPacked
  repeat' first
    | with_reducible exact Keeps.refl _
    | with_reducible assumption
    | with_reducible apply Keeps.trans ?_ (keeps_eventHead)
    | with_reducible apply Keeps.trans ?_ (keeps_packedWrite)
    | with_reducible apply Keeps.trans ?_ keeps_onHost
    | (extract_lets +onlyGivenNames x; refine Keeps.use (x := x) ?_ (fun hx => ?_); subst x; rotate_left; clear_value x)
    | (extract_lets +onlyGivenNames x; refine Keeps.useSnd (x := x) ?_ (fun hx => ?_); subst x; rotate_left; clear_value x)
    | (extract_lets +onlyGivenNames x; refine Keeps.useFst (x := x) ?_ (fun hx => ?_); subst x; rotate_left; clear_value x)
    | (extract_lets +onlyGivenNames x; refine Keeps.useThird (x := x) ?_ (fun hx => ?_); subst x; rotate_left; clear_value x)
    | (extract_lets +onlyGivenNames x; have _ := fun a => x a; subst x)
    | (extract_lets +onlyGivenNames x; clear_value x)
    | with_reducible apply Keeps.trans ?_ (Keeps.foldl _ _ ?_)
    | with_reducible apply Keeps.trans ?_ (Keeps.foldl_fst _ _ ?_)
    | with_reducible apply Keeps.trans ?_ (Keeps.foldl_snd _ _ ?_)
    | with_reducible intro _
    | split

theorem keeps_hostWbArrive {m : Msg} {s : State} : Keeps s (hostWbArrive m s) := by
  unfold hostWbArrive
  repeat' first
    | with_reducible exact Keeps.refl _
    | with_reducible assumption
    | with_reducible apply Keeps.trans ?_ (keeps_sendHom)
    | with_reducible apply Keeps.trans ?_ (keeps_onTxn)
    | with_reducible apply Keeps.trans ?_ (keeps_warnPacked)
    | with_reducible apply Keeps.trans ?_ (keeps_homeProto)
    | (extract_lets +onlyGivenNames x; refine Keeps.use (x := x) ?_ (fun hx => ?_); subst x; rotate_left; clear_value x)
    | (extract_lets +onlyGivenNames x; refine Keeps.useSnd (x := x) ?_ (fun hx => ?_); subst x; rotate_left; clear_value x)
    | (extract_lets +onlyGivenNames x; refine Keeps.useFst (x := x) ?_ (fun hx => ?_); subst x; rotate_left; clear_value x)
    | (extract_lets +onlyGivenNames x; refine Keeps.useThird (x := x) ?_ (fun hx => ?_); subst x; rotate_left; clear_value x)
    | (extract_lets +onlyGivenNames x; have _ := fun a => x a; subst x)
    | (extract_lets +onlyGivenNames x; clear_value x)
    | with_reducible apply Keeps.trans ?_ (Keeps.foldl _ _ ?_)
    | with_reducible apply Keeps.trans ?_ (Keeps.foldl_fst _ _ ?_)
    | with_reducible apply Keeps.trans ?_ (Keeps.foldl_snd _ _ ?_)
    | with_reducible intro _
    | split

theorem keeps_endBis {line g : Nat} {tag : BitVec 16} {a : BiAns} {spoil : Bool} {s : State} : Keeps s (endBis line g tag a spoil s) := by
  unfold endBis
  repeat' first
    | with_reducible exact Keeps.refl _
    | with_reducible assumption
    | with_reducible apply Keeps.trans ?_ (keeps_onTxn)

theorem keeps_biRspArrive {m : Msg} {s : State} : Keeps s (biRspArrive m s) := by
  unfold biRspArrive
  repeat' first
    | with_reducible exact Keeps.refl _
    | with_reducible assumption
    | with_reducible apply Keeps.trans ?_ (keeps_addCnt)
    | with_reducible apply Keeps.trans ?_ (keeps_driveLine)
    | with_reducible apply Keeps.trans ?_ (keeps_endBis)
    | with_reducible apply Keeps.trans ?_ (keeps_biFailure)
    | (extract_lets +onlyGivenNames x; refine Keeps.use (x := x) ?_ (fun hx => ?_); subst x; rotate_left; clear_value x)
    | (extract_lets +onlyGivenNames x; refine Keeps.useSnd (x := x) ?_ (fun hx => ?_); subst x; rotate_left; clear_value x)
    | (extract_lets +onlyGivenNames x; refine Keeps.useFst (x := x) ?_ (fun hx => ?_); subst x; rotate_left; clear_value x)
    | (extract_lets +onlyGivenNames x; refine Keeps.useThird (x := x) ?_ (fun hx => ?_); subst x; rotate_left; clear_value x)
    | (extract_lets +onlyGivenNames x; have _ := fun a => x a; subst x)
    | (extract_lets +onlyGivenNames x; clear_value x)
    | with_reducible apply Keeps.trans ?_ (Keeps.foldl _ _ ?_)
    | with_reducible apply Keeps.trans ?_ (Keeps.foldl_fst _ _ ?_)
    | with_reducible apply Keeps.trans ?_ (Keeps.foldl_snd _ _ ?_)
    | with_reducible intro _
    | split

theorem keeps_biConflictArrive {m : Msg} {s : State} : Keeps s (biConflictArrive m s) := by
  unfold biConflictArrive
  repeat' first
    | with_reducible exact Keeps.refl _
    | with_reducible assumption
    | with_reducible apply Keeps.trans ?_ (keeps_sendHom)

theorem keeps_dropBis {g : Nat} {s : State} : Keeps s (dropBis g s) := by
  unfold dropBis
  repeat' first
    | with_reducible exact Keeps.refl _
    | with_reducible assumption
    | with_reducible apply Keeps.trans ?_ (keeps_driveLine)
    | with_reducible apply Keeps.trans ?_ (keeps_endBis)
    | with_reducible apply Keeps.trans ?_ (Keeps.foldl _ _ ?_)
    | with_reducible apply Keeps.trans ?_ (Keeps.foldl_fst _ _ ?_)
    | with_reducible apply Keeps.trans ?_ (Keeps.foldl_snd _ _ ?_)
    | with_reducible apply Keeps.trans ?_ (Keeps.pairFst (Keeps.foldl_fst _ _ ?_) (by assumption))
    | with_reducible apply Keeps.trans ?_ (Keeps.pair (Keeps.foldl_snd _ _ ?_) (by assumption))
    | with_reducible intro _

theorem keeps_readVal {line : Nat} {r : Region} {x : Rec} {sh : ShadowFlips} {who : Reader} {s : State} : Keeps s (readVal line r x sh who s).2 := by
  unfold readVal
  repeat' first
    | with_reducible exact Keeps.refl _
    | with_reducible assumption
    | with_reducible apply Keeps.trans ?_ (keeps_applyShadow)
    | with_reducible apply Keeps.trans ?_ (keeps_cryRead)
    | with_reducible apply Keeps.trans ?_ (Keeps.pair (keeps_cryRead) (by assumption))
    | (extract_lets +onlyGivenNames x; refine Keeps.use (x := x) ?_ (fun hx => ?_); subst x; rotate_left; clear_value x)
    | (extract_lets +onlyGivenNames x; refine Keeps.useSnd (x := x) ?_ (fun hx => ?_); subst x; rotate_left; clear_value x)
    | (extract_lets +onlyGivenNames x; refine Keeps.useFst (x := x) ?_ (fun hx => ?_); subst x; rotate_left; clear_value x)
    | (extract_lets +onlyGivenNames x; refine Keeps.useThird (x := x) ?_ (fun hx => ?_); subst x; rotate_left; clear_value x)
    | (extract_lets +onlyGivenNames x; have _ := fun a => x a; subst x)
    | (extract_lets +onlyGivenNames x; clear_value x)
    | with_reducible apply Keeps.trans ?_ (Keeps.foldl _ _ ?_)
    | with_reducible apply Keeps.trans ?_ (Keeps.foldl_fst _ _ ?_)
    | with_reducible apply Keeps.trans ?_ (Keeps.foldl_snd _ _ ?_)
    | with_reducible intro _
    | split

theorem keeps_metaLost {line : Nat} {r : Region} {s : State} : Keeps s (metaLost line r s) := by
  unfold metaLost
  repeat' first
    | with_reducible exact Keeps.refl _
    | with_reducible assumption
    | with_reducible apply Keeps.trans ?_ (keeps_lostEntry)
    | with_reducible apply Keeps.trans ?_ (keeps_sendBis)
    | (extract_lets +onlyGivenNames x; refine Keeps.use (x := x) ?_ (fun hx => ?_); subst x; rotate_left; clear_value x)
    | (extract_lets +onlyGivenNames x; refine Keeps.useSnd (x := x) ?_ (fun hx => ?_); subst x; rotate_left; clear_value x)
    | (extract_lets +onlyGivenNames x; refine Keeps.useFst (x := x) ?_ (fun hx => ?_); subst x; rotate_left; clear_value x)
    | (extract_lets +onlyGivenNames x; refine Keeps.useThird (x := x) ?_ (fun hx => ?_); subst x; rotate_left; clear_value x)
    | (extract_lets +onlyGivenNames x; have _ := fun a => x a; subst x)
    | (extract_lets +onlyGivenNames x; clear_value x)
    | with_reducible apply Keeps.trans ?_ (Keeps.foldl _ _ ?_)
    | with_reducible apply Keeps.trans ?_ (Keeps.foldl_fst _ _ ?_)
    | with_reducible apply Keeps.trans ?_ (Keeps.foldl_snd _ _ ?_)
    | with_reducible apply Keeps.trans ?_ (Keeps.pairFst (Keeps.foldl_fst _ _ ?_) (by assumption))
    | with_reducible apply Keeps.trans ?_ (Keeps.pair (Keeps.foldl_snd _ _ ?_) (by assumption))
    | with_reducible intro _
    | split

theorem keeps_takeMedia {line : Nat} {r : Region} {x : Rec} {lost : Bool} {sh : ShadowFlips} {s : State} : Keeps s (takeMedia line r x lost sh s) := by
  unfold takeMedia
  repeat' first
    | with_reducible exact Keeps.refl _
    | with_reducible assumption
    | with_reducible apply Keeps.trans ?_ (keeps_fixKey ?_)
    | with_reducible apply Keeps.trans ?_ (Keeps.triple (keeps_fixKey ?_) (by assumption))
    | with_reducible apply Keeps.trans ?_ (keeps_putLine)
    | with_reducible apply Keeps.trans ?_ (keeps_metaLost)
    | with_reducible apply Keeps.trans ?_ (keeps_onTxn)
    | with_reducible apply Keeps.trans ?_ (keeps_onEnt)
    | with_reducible apply Keeps.trans ?_ (keeps_readVal)
    | with_reducible apply Keeps.trans ?_ (Keeps.pair (keeps_readVal) (by assumption))
    | with_reducible apply Keeps.trans ?_ (keeps_planTxn)
    | (extract_lets +onlyGivenNames x; refine Keeps.use (x := x) ?_ (fun hx => ?_); subst x; rotate_left; clear_value x)
    | (extract_lets +onlyGivenNames x; refine Keeps.useSnd (x := x) ?_ (fun hx => ?_); subst x; rotate_left; clear_value x)
    | (extract_lets +onlyGivenNames x; refine Keeps.useFst (x := x) ?_ (fun hx => ?_); subst x; rotate_left; clear_value x)
    | (extract_lets +onlyGivenNames x; refine Keeps.useThird (x := x) ?_ (fun hx => ?_); subst x; rotate_left; clear_value x)
    | (extract_lets +onlyGivenNames x; have _ := fun a => x a; subst x)
    | (extract_lets +onlyGivenNames x; clear_value x)
    | with_reducible apply Keeps.trans ?_ (Keeps.foldl _ _ ?_)
    | with_reducible apply Keeps.trans ?_ (Keeps.foldl_fst _ _ ?_)
    | with_reducible apply Keeps.trans ?_ (Keeps.foldl_snd _ _ ?_)
    | with_reducible intro _
    | split

theorem keeps_onRange {t : Nat} {f : RangeEng → RangeEng} {s : State} : Keeps s (onRange t f s) := by
  unfold onRange
  repeat' first
    | with_reducible exact Keeps.refl _
    | with_reducible assumption
    | with_reducible apply Keeps.trans ?_ (keeps_onNc (fun h => h))

theorem keeps_pumpGo {t : Nat} {a0 : Nat} {s : State} : Keeps s (pumpGo t a0 s) := by
  induction a0 generalizing s with
  | zero => exact Keeps.refl _
  | succ f ih =>
    unfold pumpGo
    repeat' first
      | with_reducible apply Keeps.trans ?_ ih
      | with_reducible exact Keeps.refl _
      | with_reducible assumption
      | with_reducible apply Keeps.trans ?_ (keeps_onRange)
      | with_reducible apply Keeps.trans ?_ (keeps_startOp)
      | (extract_lets +onlyGivenNames x; refine Keeps.use (x := x) ?_ (fun hx => ?_); subst x; rotate_left; clear_value x)
      | (extract_lets +onlyGivenNames x; refine Keeps.useSnd (x := x) ?_ (fun hx => ?_); subst x; rotate_left; clear_value x)
      | (extract_lets +onlyGivenNames x; refine Keeps.useFst (x := x) ?_ (fun hx => ?_); subst x; rotate_left; clear_value x)
      | (extract_lets +onlyGivenNames x; refine Keeps.useThird (x := x) ?_ (fun hx => ?_); subst x; rotate_left; clear_value x)
      | (extract_lets +onlyGivenNames x; have _ := fun a => x a; subst x)
      | (extract_lets +onlyGivenNames x; clear_value x)
      | with_reducible apply Keeps.trans ?_ (Keeps.foldl _ _ ?_)
      | with_reducible apply Keeps.trans ?_ (Keeps.foldl_fst _ _ ?_)
      | with_reducible apply Keeps.trans ?_ (Keeps.foldl_snd _ _ ?_)
      | with_reducible intro _
      | split

theorem keeps_pumpRange {t : Nat} {s : State} : Keeps s (pumpRange t s) := by
  unfold pumpRange
  repeat' first
    | with_reducible exact Keeps.refl _
    | with_reducible assumption
    | with_reducible apply Keeps.trans ?_ (keeps_pumpGo)

theorem keeps_pumpRanges {s : State} : Keeps s (pumpRanges s) := by
  unfold pumpRanges
  repeat' first
    | with_reducible exact Keeps.refl _
    | with_reducible assumption
    | with_reducible apply Keeps.trans ?_ (keeps_pumpRange)
    | with_reducible apply Keeps.trans ?_ (Keeps.foldl _ _ ?_)
    | with_reducible apply Keeps.trans ?_ (Keeps.foldl_fst _ _ ?_)
    | with_reducible apply Keeps.trans ?_ (Keeps.foldl_snd _ _ ?_)
    | with_reducible apply Keeps.trans ?_ (Keeps.pairFst (Keeps.foldl_fst _ _ ?_) (by assumption))
    | with_reducible apply Keeps.trans ?_ (Keeps.pair (Keeps.foldl_snd _ _ ?_) (by assumption))
    | with_reducible intro _

theorem keeps_unlockRange {t : Nat} {s : State} : Keeps s (unlockRange t s) := by
  unfold unlockRange
  repeat' first
    | with_reducible exact Keeps.refl _
    | with_reducible assumption
    | with_reducible apply Keeps.trans ?_ (keeps_onNc (fun h => h))
    | with_reducible apply Keeps.trans ?_ (keeps_onNc (by intro h; apply Table.wf_set; exact h))
    | with_reducible apply Keeps.trans ?_ (keeps_startOp)
    | with_reducible apply Keeps.trans ?_ (keeps_onRange)
    | (extract_lets +onlyGivenNames x; refine Keeps.use (x := x) ?_ (fun hx => ?_); subst x; rotate_left; clear_value x)
    | (extract_lets +onlyGivenNames x; refine Keeps.useSnd (x := x) ?_ (fun hx => ?_); subst x; rotate_left; clear_value x)
    | (extract_lets +onlyGivenNames x; refine Keeps.useFst (x := x) ?_ (fun hx => ?_); subst x; rotate_left; clear_value x)
    | (extract_lets +onlyGivenNames x; refine Keeps.useThird (x := x) ?_ (fun hx => ?_); subst x; rotate_left; clear_value x)
    | (extract_lets +onlyGivenNames x; have _ := fun a => x a; subst x)
    | (extract_lets +onlyGivenNames x; clear_value x)
    | with_reducible apply Keeps.trans ?_ (Keeps.foldl _ _ ?_)
    | with_reducible apply Keeps.trans ?_ (Keeps.foldl_fst _ _ ?_)
    | with_reducible apply Keeps.trans ?_ (Keeps.foldl_snd _ _ ?_)
    | with_reducible apply Keeps.trans ?_ (Keeps.pairFst (Keeps.foldl_fst _ _ ?_) (by assumption))
    | with_reducible apply Keeps.trans ?_ (Keeps.pair (Keeps.foldl_snd _ _ ?_) (by assumption))
    | with_reducible intro _

theorem keeps_startRange {t : Nat} {op : RangeOp} {s : State} : Keeps s (startRange t op s) := by
  unfold startRange
  repeat' first
    | with_reducible exact Keeps.refl _
    | with_reducible assumption
    | with_reducible apply Keeps.trans ?_ (keeps_raiseBit)
    | with_reducible apply Keeps.trans ?_ (keeps_onRange)
    | with_reducible apply Keeps.trans ?_ (keeps_pumpRange)
    | with_reducible apply Keeps.trans ?_ (keeps_unlockRange)
    | with_reducible apply Keeps.trans ?_ (keeps_startOp)
    | (extract_lets +onlyGivenNames x; refine Keeps.use (x := x) ?_ (fun hx => ?_); subst x; rotate_left; clear_value x)
    | (extract_lets +onlyGivenNames x; refine Keeps.useSnd (x := x) ?_ (fun hx => ?_); subst x; rotate_left; clear_value x)
    | (extract_lets +onlyGivenNames x; refine Keeps.useFst (x := x) ?_ (fun hx => ?_); subst x; rotate_left; clear_value x)
    | (extract_lets +onlyGivenNames x; refine Keeps.useThird (x := x) ?_ (fun hx => ?_); subst x; rotate_left; clear_value x)
    | (extract_lets +onlyGivenNames x; have _ := fun a => x a; subst x)
    | (extract_lets +onlyGivenNames x; clear_value x)
    | with_reducible apply Keeps.trans ?_ (Keeps.foldl _ _ ?_)
    | with_reducible apply Keeps.trans ?_ (Keeps.foldl_fst _ _ ?_)
    | with_reducible apply Keeps.trans ?_ (Keeps.foldl_snd _ _ ?_)
    | with_reducible apply Keeps.trans ?_ (Keeps.pairFst (Keeps.foldl_fst _ _ ?_) (by assumption))
    | with_reducible apply Keeps.trans ?_ (Keeps.pair (Keeps.foldl_snd _ _ ?_) (by assumption))
    | with_reducible intro _
    | split

theorem keeps_writeRangeCtl {t : Nat} {v : W32} {s : State} : Keeps s (writeRangeCtl t v s) := by
  unfold writeRangeCtl
  repeat' first
    | with_reducible exact Keeps.refl _
    | with_reducible assumption
    | with_reducible apply Keeps.trans ?_ keeps_setReg
    | with_reducible apply Keeps.trans ?_ (keeps_startRange)
    | (extract_lets +onlyGivenNames x; refine Keeps.use (x := x) ?_ (fun hx => ?_); subst x; rotate_left; clear_value x)
    | (extract_lets +onlyGivenNames x; refine Keeps.useSnd (x := x) ?_ (fun hx => ?_); subst x; rotate_left; clear_value x)
    | (extract_lets +onlyGivenNames x; refine Keeps.useFst (x := x) ?_ (fun hx => ?_); subst x; rotate_left; clear_value x)
    | (extract_lets +onlyGivenNames x; refine Keeps.useThird (x := x) ?_ (fun hx => ?_); subst x; rotate_left; clear_value x)
    | (extract_lets +onlyGivenNames x; have _ := fun a => x a; subst x)
    | (extract_lets +onlyGivenNames x; clear_value x)
    | with_reducible apply Keeps.trans ?_ (Keeps.foldl _ _ ?_)
    | with_reducible apply Keeps.trans ?_ (Keeps.foldl_fst _ _ ?_)
    | with_reducible apply Keeps.trans ?_ (Keeps.foldl_snd _ _ ?_)
    | with_reducible intro _
    | split

theorem keeps_writeRangeReg {k : RegKind} {t : Nat} {v : W32} {s : State} : Keeps s (writeRangeReg k t v s) := by
  unfold writeRangeReg
  repeat' first
    | with_reducible exact Keeps.refl _
    | with_reducible assumption
    | with_reducible apply Keeps.trans ?_ (keeps_writeReg)
    | with_reducible apply Keeps.trans ?_ (Keeps.foldl _ _ ?_)
    | with_reducible apply Keeps.trans ?_ (Keeps.foldl_fst _ _ ?_)
    | with_reducible apply Keeps.trans ?_ (Keeps.foldl_snd _ _ ?_)
    | with_reducible intro _
    | split

theorem keeps_writeWayCfg {t : Nat} {v : W32} {s : State} : Keeps s (writeWayCfg t v s) := by
  unfold writeWayCfg
  repeat' first
    | with_reducible exact Keeps.refl _
    | with_reducible assumption
    | with_reducible apply Keeps.trans ?_ (keeps_raiseBit)
    | with_reducible apply Keeps.trans ?_ (keeps_writeReg)
    | with_reducible apply Keeps.trans ?_ (Keeps.foldl _ _ ?_)
    | with_reducible apply Keeps.trans ?_ (Keeps.foldl_fst _ _ ?_)
    | with_reducible apply Keeps.trans ?_ (Keeps.foldl_snd _ _ ?_)
    | with_reducible intro _
    | split

theorem keeps_startRecord {r : Nat} {s : State} : Keeps s (startRecord r s) := by
  unfold startRecord
  repeat' first
    | with_reducible exact Keeps.refl _
    | with_reducible assumption
    | with_reducible apply Keeps.trans ?_ (keeps_onRing)
    | with_reducible apply Keeps.trans ?_ keeps_onJob
    | with_reducible apply Keeps.trans ?_ (keeps_startOp)
    | (extract_lets +onlyGivenNames x; refine Keeps.use (x := x) ?_ (fun hx => ?_); subst x; rotate_left; clear_value x)
    | (extract_lets +onlyGivenNames x; refine Keeps.useSnd (x := x) ?_ (fun hx => ?_); subst x; rotate_left; clear_value x)
    | (extract_lets +onlyGivenNames x; refine Keeps.useFst (x := x) ?_ (fun hx => ?_); subst x; rotate_left; clear_value x)
    | (extract_lets +onlyGivenNames x; refine Keeps.useThird (x := x) ?_ (fun hx => ?_); subst x; rotate_left; clear_value x)
    | (extract_lets +onlyGivenNames x; have _ := fun a => x a; subst x)
    | (extract_lets +onlyGivenNames x; clear_value x)
    | with_reducible apply Keeps.trans ?_ (Keeps.foldl _ _ ?_)
    | with_reducible apply Keeps.trans ?_ (Keeps.foldl_fst _ _ ?_)
    | with_reducible apply Keeps.trans ?_ (Keeps.foldl_snd _ _ ?_)
    | with_reducible intro _
    | split

theorem keeps_endJob {r n : Nat} {j : Job} {status : Nat} {flags detail : Nat} {s : State} : Keeps s (endJob r n j status flags detail s) := by
  unfold endJob
  repeat' first
    | with_reducible exact Keeps.refl _
    | with_reducible assumption
    | with_reducible apply Keeps.trans ?_ (keeps_markDone)
    | with_reducible apply Keeps.trans ?_ (keeps_setJob)
    | with_reducible apply Keeps.trans ?_ (keeps_startRecord)
    | with_reducible apply Keeps.trans ?_ (keeps_queueRecord)
    | with_reducible apply Keeps.trans ?_ (Keeps.foldl _ _ ?_)
    | with_reducible apply Keeps.trans ?_ (Keeps.foldl_fst _ _ ?_)
    | with_reducible apply Keeps.trans ?_ (Keeps.foldl_snd _ _ ?_)
    | with_reducible intro _
    | split

end Sys2Proof.Machine
end

