-- ==== Sys2Proof/Laws/Keeps12.lean ====
section
/-!
SUPPORT. What the operations of the block keep, part 12: one lemma for each, in the order of their files.
-/
namespace Sys2Proof.Machine

theorem keeps_fwBusError {s : State} : Keeps s (fwBusError s) := by
  unfold fwBusError
  repeat' first
    | with_reducible exact Keeps.refl _
    | with_reducible assumption
    | with_reducible apply Keeps.trans ?_ (keeps_onNc (fun h => h))

theorem keeps_storeTagLost {r : Region} {t area leaf m : Nat} {s : State} : Keeps s (storeTagLost r t area leaf m s) := by
  unfold storeTagLost
  repeat' first
    | with_reducible exact Keeps.refl _
    | with_reducible assumption
    | with_reducible apply Keeps.trans ?_ (keeps_shadowWrite)
    | with_reducible apply Keeps.trans ?_ (keeps_onCry (fun _ h => h))
    | with_reducible apply Keeps.trans ?_ (keeps_onCry ?_)
    | with_reducible apply Keeps.trans ?_ (keeps_taint)
    | with_reducible apply Keeps.trans ?_ (keeps_storePut)
    | with_reducible apply Keeps.trans ?_ (keeps_raiseReq)
    | (extract_lets +onlyGivenNames x; refine Keeps.use (x := x) ?_ (fun hx => ?_); subst x; rotate_left; clear_value x)
    | (extract_lets +onlyGivenNames x; refine Keeps.useSnd (x := x) ?_ (fun hx => ?_); subst x; rotate_left; clear_value x)
    | (extract_lets +onlyGivenNames x; refine Keeps.useFst (x := x) ?_ (fun hx => ?_); subst x; rotate_left; clear_value x)
    | (extract_lets +onlyGivenNames x; refine Keeps.useThird (x := x) ?_ (fun hx => ?_); subst x; rotate_left; clear_value x)
    | (extract_lets +onlyGivenNames x; have _ := fun a => x a; subst x)
    | (extract_lets +onlyGivenNames x; clear_value x)
    | with_reducible apply Keeps.trans ?_ (Keeps.foldl _ _ ?_)
    | with_reducible apply Keeps.trans ?_ (Keeps.foldl_fst _ _ ?_)
    | with_reducible apply Keeps.trans ?_ (Keeps.foldl_snd _ _ ?_)
    | with_reducible apply Keeps.trans ?_ (Keeps.pairFst (Keeps.foldl_fst _ _ ?_) (by assumption))
    | with_reducible apply Keeps.trans ?_ (Keeps.pair (Keeps.foldl_snd _ _ ?_) (by assumption))
    | with_reducible intro _
    | split

theorem keeps_storeLineBad {r : Region} {t k : Nat} {s : State} : Keeps s (storeLineBad r t k s) := by
  unfold storeLineBad
  repeat' first
    | with_reducible exact Keeps.refl _
    | with_reducible assumption
    | with_reducible apply Keeps.trans ?_ (keeps_poisonBlock)
    | with_reducible apply Keeps.trans ?_ (Keeps.foldl _ _ ?_)
    | with_reducible apply Keeps.trans ?_ (Keeps.foldl_fst _ _ ?_)
    | with_reducible apply Keeps.trans ?_ (Keeps.foldl_snd _ _ ?_)
    | with_reducible intro _
    | split

theorem keeps_localNvmBad {t frame i : Nat} {s : State} : Keeps s (localNvmBad t frame i s) := by
  unfold localNvmBad
  repeat' first
    | with_reducible exact Keeps.refl _
    | with_reducible assumption
    | with_reducible apply Keeps.trans ?_ (keeps_storeLineBad)
    | with_reducible apply Keeps.trans ?_ (keeps_storeTagLost)
    | (extract_lets +onlyGivenNames x; refine Keeps.use (x := x) ?_ (fun hx => ?_); subst x; rotate_left; clear_value x)
    | (extract_lets +onlyGivenNames x; refine Keeps.useSnd (x := x) ?_ (fun hx => ?_); subst x; rotate_left; clear_value x)
    | (extract_lets +onlyGivenNames x; refine Keeps.useFst (x := x) ?_ (fun hx => ?_); subst x; rotate_left; clear_value x)
    | (extract_lets +onlyGivenNames x; refine Keeps.useThird (x := x) ?_ (fun hx => ?_); subst x; rotate_left; clear_value x)
    | (extract_lets +onlyGivenNames x; have _ := fun a => x a; subst x)
    | (extract_lets +onlyGivenNames x; clear_value x)
    | with_reducible apply Keeps.trans ?_ (Keeps.foldl _ _ ?_)
    | with_reducible apply Keeps.trans ?_ (Keeps.foldl_fst _ _ ?_)
    | with_reducible apply Keeps.trans ?_ (Keeps.foldl_snd _ _ ?_)
    | with_reducible intro _
    | split

theorem keeps_settleLocal {s : State} : Keeps s (settleLocal s) := by
  unfold settleLocal
  repeat' first
    | with_reducible exact Keeps.refl _
    | with_reducible assumption
    | with_reducible apply Keeps.trans ?_ (keeps_localBad)
    | with_reducible apply Keeps.trans ?_ (keeps_localNvmBad)
    | with_reducible apply Keeps.trans ?_ keeps_onNvm
    | with_reducible apply Keeps.trans ?_ (Keeps.foldl _ _ ?_)
    | with_reducible apply Keeps.trans ?_ (Keeps.foldl_fst _ _ ?_)
    | with_reducible apply Keeps.trans ?_ (Keeps.foldl_snd _ _ ?_)
    | with_reducible apply Keeps.trans ?_ (Keeps.pairFst (Keeps.foldl_fst _ _ ?_) (by assumption))
    | with_reducible apply Keeps.trans ?_ (Keeps.pair (Keeps.foldl_snd _ _ ?_) (by assumption))
    | with_reducible intro _

theorem keeps_countLate {n : Nat} {q : NReq} {s : State} : Keeps s (countLate n q s) := by
  unfold countLate
  repeat' first
    | with_reducible exact Keeps.refl _
    | with_reducible assumption
    | with_reducible apply Keeps.trans ?_ (keeps_addCnt)
    | with_reducible apply Keeps.trans ?_ (Keeps.foldl _ _ ?_)
    | with_reducible apply Keeps.trans ?_ (Keeps.foldl_fst _ _ ?_)
    | with_reducible apply Keeps.trans ?_ (Keeps.foldl_snd _ _ ?_)
    | with_reducible intro _
    | split

theorem keeps_localBad {r : Region} {t x : Nat} {flips : Flips} {s : State} : Keeps s (localBad r t x flips s) := by
  unfold localBad
  repeat' first
    | with_reducible exact Keeps.refl _
    | with_reducible assumption
    | with_reducible apply Keeps.trans ?_ (keeps_mapAreaBad)
    | with_reducible apply Keeps.trans ?_ (keeps_storeLineBad)
    | with_reducible apply Keeps.trans ?_ (keeps_tagLineLost)
    | with_reducible apply Keeps.trans ?_ (keeps_storeTagLost)
    | with_reducible apply Keeps.trans ?_ (keeps_damageItem)
    | (extract_lets +onlyGivenNames x; refine Keeps.use (x := x) ?_ (fun hx => ?_); subst x; rotate_left; clear_value x)
    | (extract_lets +onlyGivenNames x; refine Keeps.useSnd (x := x) ?_ (fun hx => ?_); subst x; rotate_left; clear_value x)
    | (extract_lets +onlyGivenNames x; refine Keeps.useFst (x := x) ?_ (fun hx => ?_); subst x; rotate_left; clear_value x)
    | (extract_lets +onlyGivenNames x; refine Keeps.useThird (x := x) ?_ (fun hx => ?_); subst x; rotate_left; clear_value x)
    | (extract_lets +onlyGivenNames x; have _ := fun a => x a; subst x)
    | (extract_lets +onlyGivenNames x; clear_value x)
    | with_reducible apply Keeps.trans ?_ (Keeps.foldl _ _ ?_)
    | with_reducible apply Keeps.trans ?_ (Keeps.foldl_fst _ _ ?_)
    | with_reducible apply Keeps.trans ?_ (Keeps.foldl_snd _ _ ?_)
    | with_reducible intro _
    | split

theorem keeps_scrubRead {d f : Nat} {s : State} : Keeps s (scrubRead d f s) := by
  unfold scrubRead
  repeat' first
    | with_reducible exact Keeps.refl _
    | with_reducible assumption
    | with_reducible apply Keeps.trans ?_ (keeps_addCnt)
    | with_reducible apply Keeps.trans ?_ (keeps_access)

theorem keeps_scrubPage {d f : Nat} {flips : Flips} {s : State} : Keeps s (scrubPage d f flips s) := by
  unfold scrubPage
  extract_lets +onlyGivenNames t
  clear_value t
  split
  · exact Keeps.refl _
  · split
    · exact Keeps.refl _
    · split
      · exact keeps_addCnt
      · extract_lets +onlyGivenNames r c s1
        have h : Keeps s s1 := keeps_scrubRead
        clear_value c r s1
        split
        · exact h.trans (keeps_countCe.trans keeps_countUe)
        · extract_lets +onlyGivenNames put
          have hp : ∀ x s, Keeps s (put x s) := fun _ _ => keeps_drWrite
          clear_value put
          split
          rename_i heq
          have h2 := h.trans (Keeps.triple (keeps_settleRec hp) heq)
          split
          · split
            · exact h2
            · exact h2.trans (keeps_fixKey hp)
          · exact h2

theorem keeps_scrubTable {d f : Nat} {flips : Flips} {s : State} : Keeps s (scrubTable d f flips s) := by
  unfold scrubTable
  extract_lets +onlyGivenNames t c
  clear_value c
  extract_lets +onlyGivenNames s1
  have h : Keeps s s1 := keeps_scrubRead.trans (keeps_countCe.trans keeps_countUe)
  clear_value s1
  split
  · split
    · exact h
    · exact h.trans keeps_drWrite
  · exact h.trans keeps_raiseReq

theorem keeps_scrubLocal {d f : Nat} {r : Region} {x : Nat} {flips : Flips} {s : State} : Keeps s (scrubLocal d f r x flips s) := by
  unfold scrubLocal
  extract_lets +onlyGivenNames t c
  clear_value c
  extract_lets +onlyGivenNames s1
  have h : Keeps s s1 := keeps_scrubRead.trans (keeps_countCe.trans keeps_countUe)
  clear_value s1
  split
  · exact h.trans keeps_localBad
  · split
    · split
      · exact h.trans (keeps_checkKey (fun _ _ => keeps_drWrite))
      · exact h
    · split
      · exact h
      · exact h.trans keeps_drWrite

theorem keeps_scrubLine {d f : Nat} {flips : Flips} {s : State} : Keeps s (scrubLine d f flips s) := by
  unfold scrubLine
  repeat' first
    | with_reducible exact Keeps.refl _
    | with_reducible assumption
    | with_reducible apply Keeps.trans ?_ (keeps_scrubPage)
    | with_reducible apply Keeps.trans ?_ (keeps_scrubTable)
    | with_reducible apply Keeps.trans ?_ (keeps_scrubLocal)
    | with_reducible apply Keeps.trans ?_ (Keeps.foldl _ _ ?_)
    | with_reducible apply Keeps.trans ?_ (Keeps.foldl_fst _ _ ?_)
    | with_reducible apply Keeps.trans ?_ (Keeps.foldl_snd _ _ ?_)
    | with_reducible intro _
    | split

theorem keeps_powerRecord {ch : Nat} {src : SvSrc} {s : State} : Keeps s (powerRecord ch src s) := by
  unfold powerRecord
  repeat' first
    | with_reducible exact Keeps.refl _
    | with_reducible assumption
    | with_reducible apply Keeps.trans ?_ (keeps_logSubmit)

theorem keeps_powerEvent {ch : Nat} {src : SvSrc} {detail : Nat} {s : State} : Keeps s (powerEvent ch src detail s) := by
  unfold powerEvent
  repeat' first
    | with_reducible exact Keeps.refl _
    | with_reducible assumption
    | with_reducible apply Keeps.trans ?_ (keeps_powerRecord)
    | with_reducible apply Keeps.trans ?_ (keeps_raiseSv)

theorem keeps_dropRails {t : Nat} {s : State} : Keeps s (dropRails t s) := by
  unfold dropRails
  repeat' first
    | with_reducible exact Keeps.refl _
    | with_reducible assumption
    | with_reducible apply Keeps.trans ?_ keeps_onSv

theorem keeps_dropBus {s : State} : Keeps s (dropBus s) := by
  unfold dropBus
  repeat' first
    | with_reducible exact Keeps.refl _
    | with_reducible assumption
    | with_reducible apply Keeps.trans ?_ keeps_onSv
    | with_reducible apply Keeps.trans ?_ keeps_onChan
    | with_reducible apply Keeps.trans ?_ (Keeps.foldl _ _ ?_)
    | with_reducible apply Keeps.trans ?_ (Keeps.foldl_fst _ _ ?_)
    | with_reducible apply Keeps.trans ?_ (Keeps.foldl_snd _ _ ?_)
    | with_reducible apply Keeps.trans ?_ (Keeps.pairFst (Keeps.foldl_fst _ _ ?_) (by assumption))
    | with_reducible apply Keeps.trans ?_ (Keeps.pair (Keeps.foldl_snd _ _ ?_) (by assumption))
    | with_reducible intro _

theorem keeps_chanLoss {e : Nat} {s : State} : Keeps s (chanLoss e s) := by
  unfold chanLoss
  repeat' first
    | with_reducible exact Keeps.refl _
    | with_reducible assumption
    | with_reducible apply Keeps.trans ?_ (keeps_driveReset)
    | with_reducible apply Keeps.trans ?_ (keeps_dropBus)
    | with_reducible apply Keeps.trans ?_ (keeps_dropRails)
    | with_reducible apply Keeps.trans ?_ (keeps_loseDimms)
    | with_reducible apply Keeps.trans ?_ (keeps_loseNvmTile)
    | with_reducible apply Keeps.trans ?_ keeps_onSv
    | with_reducible apply Keeps.trans ?_ (Keeps.foldl _ _ ?_)
    | with_reducible apply Keeps.trans ?_ (Keeps.foldl_fst _ _ ?_)
    | with_reducible apply Keeps.trans ?_ (Keeps.foldl_snd _ _ ?_)
    | with_reducible intro _
    | split

theorem keeps_reachStep7 {s : State} : Keeps s (reachStep7 s) := by
  unfold reachStep7
  repeat' first
    | with_reducible exact Keeps.refl _
    | with_reducible assumption
    | with_reducible apply Keeps.trans ?_ keeps_onSv
    | with_reducible apply Keeps.trans ?_ (Keeps.foldl _ _ ?_)
    | with_reducible apply Keeps.trans ?_ (Keeps.foldl_fst _ _ ?_)
    | with_reducible apply Keeps.trans ?_ (Keeps.foldl_snd _ _ ?_)
    | with_reducible intro _
    | split

theorem keeps_chanFault {e : Nat} {cause : ChCause} {latch : Bool} {s : State} : Keeps s (chanFault e cause latch s) := by
  unfold chanFault
  repeat' first
    | with_reducible exact Keeps.refl _
    | with_reducible assumption
    | with_reducible apply Keeps.trans ?_ keeps_onChan
    | with_reducible apply Keeps.trans ?_ (keeps_powerEvent)
    | with_reducible apply Keeps.trans ?_ (keeps_reachStep7)
    | with_reducible apply Keeps.trans ?_ (keeps_chanLoss)
    | (extract_lets +onlyGivenNames x; refine Keeps.use (x := x) ?_ (fun hx => ?_); subst x; rotate_left; clear_value x)
    | (extract_lets +onlyGivenNames x; refine Keeps.useSnd (x := x) ?_ (fun hx => ?_); subst x; rotate_left; clear_value x)
    | (extract_lets +onlyGivenNames x; refine Keeps.useFst (x := x) ?_ (fun hx => ?_); subst x; rotate_left; clear_value x)
    | (extract_lets +onlyGivenNames x; refine Keeps.useThird (x := x) ?_ (fun hx => ?_); subst x; rotate_left; clear_value x)
    | (extract_lets +onlyGivenNames x; have _ := fun a => x a; subst x)
    | (extract_lets +onlyGivenNames x; clear_value x)
    | with_reducible apply Keeps.trans ?_ (Keeps.foldl _ _ ?_)
    | with_reducible apply Keeps.trans ?_ (Keeps.foldl_fst _ _ ?_)
    | with_reducible apply Keeps.trans ?_ (Keeps.foldl_snd _ _ ?_)
    | with_reducible intro _
    | split

theorem keeps_orTemp {f : Feed} {s : State} : Keeps s (orTemp f s) := by
  unfold orTemp
  repeat' first
    | with_reducible exact Keeps.refl _
    | with_reducible assumption
    | with_reducible apply Keeps.trans ?_ (keeps_powerEvent)
    | with_reducible apply Keeps.trans ?_ keeps_onSv
    | (extract_lets +onlyGivenNames x; refine Keeps.use (x := x) ?_ (fun hx => ?_); subst x; rotate_left; clear_value x)
    | (extract_lets +onlyGivenNames x; refine Keeps.useSnd (x := x) ?_ (fun hx => ?_); subst x; rotate_left; clear_value x)
    | (extract_lets +onlyGivenNames x; refine Keeps.useFst (x := x) ?_ (fun hx => ?_); subst x; rotate_left; clear_value x)
    | (extract_lets +onlyGivenNames x; refine Keeps.useThird (x := x) ?_ (fun hx => ?_); subst x; rotate_left; clear_value x)
    | (extract_lets +onlyGivenNames x; have _ := fun a => x a; subst x)
    | (extract_lets +onlyGivenNames x; clear_value x)
    | with_reducible apply Keeps.trans ?_ (Keeps.foldl _ _ ?_)
    | with_reducible apply Keeps.trans ?_ (Keeps.foldl_fst _ _ ?_)
    | with_reducible apply Keeps.trans ?_ (Keeps.foldl_snd _ _ ?_)
    | with_reducible intro _
    | split

theorem keeps_chTemp {e : Nat} {s : State} : Keeps s (chTemp e s) := by
  unfold chTemp
  repeat' first
    | with_reducible exact Keeps.refl _
    | with_reducible assumption
    | with_reducible apply Keeps.trans ?_ (keeps_chanFault)
    | with_reducible apply Keeps.trans ?_ keeps_onChan
    | (extract_lets +onlyGivenNames x; refine Keeps.use (x := x) ?_ (fun hx => ?_); subst x; rotate_left; clear_value x)
    | (extract_lets +onlyGivenNames x; refine Keeps.useSnd (x := x) ?_ (fun hx => ?_); subst x; rotate_left; clear_value x)
    | (extract_lets +onlyGivenNames x; refine Keeps.useFst (x := x) ?_ (fun hx => ?_); subst x; rotate_left; clear_value x)
    | (extract_lets +onlyGivenNames x; refine Keeps.useThird (x := x) ?_ (fun hx => ?_); subst x; rotate_left; clear_value x)
    | (extract_lets +onlyGivenNames x; have _ := fun a => x a; subst x)
    | (extract_lets +onlyGivenNames x; clear_value x)
    | with_reducible apply Keeps.trans ?_ (Keeps.foldl _ _ ?_)
    | with_reducible apply Keeps.trans ?_ (Keeps.foldl_fst _ _ ?_)
    | with_reducible apply Keeps.trans ?_ (Keeps.foldl_snd _ _ ?_)
    | with_reducible intro _
    | split

theorem keeps_meterSample {s : State} : Keeps s (meterSample s) := by
  unfold meterSample
  repeat' first
    | with_reducible exact Keeps.refl _
    | with_reducible assumption
    | with_reducible apply Keeps.trans ?_ (keeps_addCnt)
    | with_reducible apply Keeps.trans ?_ keeps_onMeter
    | (extract_lets +onlyGivenNames x; refine Keeps.use (x := x) ?_ (fun hx => ?_); subst x; rotate_left; clear_value x)
    | (extract_lets +onlyGivenNames x; refine Keeps.useSnd (x := x) ?_ (fun hx => ?_); subst x; rotate_left; clear_value x)
    | (extract_lets +onlyGivenNames x; refine Keeps.useFst (x := x) ?_ (fun hx => ?_); subst x; rotate_left; clear_value x)
    | (extract_lets +onlyGivenNames x; refine Keeps.useThird (x := x) ?_ (fun hx => ?_); subst x; rotate_left; clear_value x)
    | (extract_lets +onlyGivenNames x; have _ := fun a => x a; subst x)
    | (extract_lets +onlyGivenNames x; clear_value x)
    | with_reducible apply Keeps.trans ?_ (Keeps.foldl _ _ ?_)
    | with_reducible apply Keeps.trans ?_ (Keeps.foldl_fst _ _ ?_)
    | with_reducible apply Keeps.trans ?_ (Keeps.foldl_snd _ _ ?_)
    | with_reducible apply Keeps.trans ?_ (Keeps.pairFst (Keeps.foldl_fst _ _ ?_) (by assumption))
    | with_reducible apply Keeps.trans ?_ (Keeps.pair (Keeps.foldl_snd _ _ ?_) (by assumption))
    | with_reducible intro _
    | split

theorem keeps_waitOver {e us : Nat} {s : State} : Keeps s (waitOver e us s) := by
  unfold waitOver
  repeat' first
    | with_reducible exact Keeps.refl _
    | with_reducible assumption
    | with_reducible apply Keeps.trans ?_ keeps_onChan
    | with_reducible apply Keeps.trans ?_ (Keeps.foldl _ _ ?_)
    | with_reducible apply Keeps.trans ?_ (Keeps.foldl_fst _ _ ?_)
    | with_reducible apply Keeps.trans ?_ (Keeps.foldl_snd _ _ ?_)
    | with_reducible intro _
    | split

theorem keeps_writeWinCfg {t : Nat} {v : W32} {s : State} : Keeps s (writeWinCfg t v s) := by
  unfold writeWinCfg
  repeat' first
    | with_reducible exact Keeps.refl _
    | with_reducible assumption
    | with_reducible apply Keeps.trans ?_ keeps_onCnt
    | with_reducible apply Keeps.trans ?_ (keeps_writeReg)

theorem keeps_tick {s : State} : Keeps s (tick s) := by
  unfold tick
  repeat' first
    | with_reducible exact Keeps.refl _
    | with_reducible assumption
    | with_reducible apply Keeps.trans ?_ keeps_onTime
    | with_reducible apply Keeps.trans ?_ (Keeps.foldl _ _ ?_)
    | with_reducible apply Keeps.trans ?_ (Keeps.foldl_fst _ _ ?_)
    | with_reducible apply Keeps.trans ?_ (Keeps.foldl_snd _ _ ?_)
    | with_reducible intro _
    | split

theorem keeps_releaseBlocks {t : Nat} {s : State} : Keeps s (releaseBlocks t s) := by
  unfold releaseBlocks
  repeat' first
    | with_reducible exact Keeps.refl _
    | with_reducible assumption
    | with_reducible apply Keeps.trans ?_ keeps_onClk

theorem keeps_writeRst {t : Nat} {v : W32} {s : State} : Keeps s (writeRst t v s) := by
  unfold writeRst
  repeat' first
    | with_reducible exact Keeps.refl _
    | with_reducible assumption
    | with_reducible apply Keeps.trans ?_ (keeps_releaseBlocks)
    | with_reducible apply Keeps.trans ?_ (keeps_writeReg)

theorem keeps_loseQuad {t q : Nat} {s : State} : Keeps s (loseQuad t q s) := by
  unfold loseQuad
  repeat' first
    | with_reducible exact Keeps.refl _
    | with_reducible assumption
    | with_reducible apply Keeps.trans ?_ (keeps_raiseTile)
    | with_reducible apply Keeps.trans ?_ (keeps_linkReset)
    | (extract_lets +onlyGivenNames x; refine Keeps.use (x := x) ?_ (fun hx => ?_); subst x; rotate_left; clear_value x)
    | (extract_lets +onlyGivenNames x; refine Keeps.useSnd (x := x) ?_ (fun hx => ?_); subst x; rotate_left; clear_value x)
    | (extract_lets +onlyGivenNames x; refine Keeps.useFst (x := x) ?_ (fun hx => ?_); subst x; rotate_left; clear_value x)
    | (extract_lets +onlyGivenNames x; refine Keeps.useThird (x := x) ?_ (fun hx => ?_); subst x; rotate_left; clear_value x)
    | (extract_lets +onlyGivenNames x; have _ := fun a => x a; subst x)
    | (extract_lets +onlyGivenNames x; clear_value x)
    | with_reducible apply Keeps.trans ?_ (Keeps.foldl _ _ ?_)
    | with_reducible apply Keeps.trans ?_ (Keeps.foldl_fst _ _ ?_)
    | with_reducible apply Keeps.trans ?_ (Keeps.foldl_snd _ _ ?_)
    | with_reducible apply Keeps.trans ?_ (Keeps.pairFst (Keeps.foldl_fst _ _ ?_) (by assumption))
    | with_reducible apply Keeps.trans ?_ (Keeps.pair (Keeps.foldl_snd _ _ ?_) (by assumption))
    | with_reducible intro _
    | split

theorem keeps_loseBlock {t b : Nat} {s : State} : Keeps s (loseBlock t b s) := by
  unfold loseBlock
  repeat' first
    | with_reducible exact Keeps.refl _
    | with_reducible assumption
    | with_reducible apply Keeps.trans ?_ (keeps_loseQuad)
    | with_reducible apply Keeps.trans ?_ (keeps_loseChannel)
    | with_reducible apply Keeps.trans ?_ (keeps_nlDown)
    | with_reducible apply Keeps.trans ?_ (Keeps.foldl _ _ ?_)
    | with_reducible apply Keeps.trans ?_ (Keeps.foldl_fst _ _ ?_)
    | with_reducible apply Keeps.trans ?_ (Keeps.foldl_snd _ _ ?_)
    | with_reducible apply Keeps.trans ?_ (Keeps.pairFst (Keeps.foldl_fst _ _ ?_) (by assumption))
    | with_reducible apply Keeps.trans ?_ (Keeps.pair (Keeps.foldl_snd _ _ ?_) (by assumption))
    | with_reducible intro _
    | split

theorem keeps_flashWrite {off : Nat} {b : Bytes} {s : State} : Keeps s (flashWrite off b s) := by
  unfold flashWrite
  repeat' first
    | with_reducible exact Keeps.refl _
    | with_reducible assumption
    | with_reducible apply Keeps.trans ?_ (keeps_onFlash (fun h => h))
    | with_reducible apply Keeps.trans ?_ (keeps_onFlash (by intro h; apply Table.wf_keep; exact h))
    | with_reducible apply Keeps.trans ?_ (keeps_onFlash (fun h => Table.wf_foldl_set _ _ _ _ h))

theorem keeps_writeFcCfg {i : Nat} {v : W32} {s : State} : Keeps s (writeFcCfg i v s) := by
  unfold writeFcCfg
  repeat' first
    | with_reducible exact Keeps.refl _
    | with_reducible assumption
    | with_reducible apply Keeps.trans ?_ (keeps_writeReg)
    | with_reducible apply Keeps.trans ?_ (Keeps.foldl _ _ ?_)
    | with_reducible apply Keeps.trans ?_ (Keeps.foldl_fst _ _ ?_)
    | with_reducible apply Keeps.trans ?_ (Keeps.foldl_snd _ _ ?_)
    | with_reducible intro _
    | split

theorem keeps_writeTrnPat {d : Nat} {v : W32} {s : State} : Keeps s (writeTrnPat d v s) := by
  unfold writeTrnPat
  repeat' first
    | with_reducible exact Keeps.refl _
    | with_reducible assumption
    | with_reducible apply Keeps.trans ?_ (keeps_writeReg)
    | with_reducible apply Keeps.trans ?_ (Keeps.foldl _ _ ?_)
    | with_reducible apply Keeps.trans ?_ (Keeps.foldl_fst _ _ ?_)
    | with_reducible apply Keeps.trans ?_ (Keeps.foldl_snd _ _ ?_)
    | with_reducible intro _
    | split

theorem keeps_writeDawnSts {a : Agent} {v : W32} {s : State} : Keeps s (writeDawnSts a v s) := by
  unfold writeDawnSts
  repeat' first
    | with_reducible exact Keeps.refl _
    | with_reducible assumption
    | with_reducible apply Keeps.trans ?_ (keeps_onDawn (fun h => h))
    | with_reducible apply Keeps.trans ?_ (keeps_onDawn (by intro h; first | exact h | rfl | (split <;> first | exact h | rfl)))
    | with_reducible apply Keeps.trans ?_ (Keeps.foldl _ _ ?_)
    | with_reducible apply Keeps.trans ?_ (Keeps.foldl_fst _ _ ?_)
    | with_reducible apply Keeps.trans ?_ (Keeps.foldl_snd _ _ ?_)
    | with_reducible intro _
    | split

theorem keeps_writeTrkRes {a : Agent} {i : Nat} {v : W32} {s : State} : Keeps s (writeTrkRes a i v s) := by
  unfold writeTrkRes
  repeat' first
    | with_reducible exact Keeps.refl _
    | with_reducible assumption
    | with_reducible apply Keeps.trans ?_ (keeps_writeReg)
    | with_reducible apply Keeps.trans ?_ (Keeps.foldl _ _ ?_)
    | with_reducible apply Keeps.trans ?_ (Keeps.foldl_fst _ _ ?_)
    | with_reducible apply Keeps.trans ?_ (Keeps.foldl_snd _ _ ?_)
    | with_reducible intro _
    | split

theorem keeps_wakeTile {t : Nat} {s : State} : Keeps s (wakeTile t s) := by
  unfold wakeTile
  repeat' first
    | with_reducible exact Keeps.refl _
    | with_reducible assumption
    | with_reducible apply Keeps.trans ?_ (keeps_wake)
    | with_reducible apply Keeps.trans ?_ (Keeps.foldl _ _ ?_)
    | with_reducible apply Keeps.trans ?_ (Keeps.foldl_fst _ _ ?_)
    | with_reducible apply Keeps.trans ?_ (Keeps.foldl_snd _ _ ?_)
    | with_reducible apply Keeps.trans ?_ (Keeps.pairFst (Keeps.foldl_fst _ _ ?_) (by assumption))
    | with_reducible apply Keeps.trans ?_ (Keeps.pair (Keeps.foldl_snd _ _ ?_) (by assumption))
    | with_reducible intro _
    | split

theorem keeps_writeKind {a : Agent} {k : RegKind} {i : Nat} {v : W32} {s : State} : Keeps s (writeKind a k i v s) := by
  unfold writeKind
  repeat' first
    | with_reducible exact Keeps.refl _
    | with_reducible assumption
    | with_reducible apply Keeps.trans ?_ (keeps_clearSts)
    | with_reducible apply Keeps.trans ?_ (keeps_writeEn)
    | with_reducible apply Keeps.trans ?_ (keeps_forceGroup)
    | with_reducible apply Keeps.trans ?_ (keeps_writeFcCfg)
    | with_reducible apply Keeps.trans ?_ (keeps_writeWinCfg)
    | with_reducible apply Keeps.trans ?_ (keeps_writeWayCfg)
    | with_reducible apply Keeps.trans ?_ (keeps_writeRangeReg)
    | with_reducible apply Keeps.trans ?_ (keeps_settle)
    | with_reducible apply Keeps.trans ?_ (keeps_writeRangeCtl)
    | with_reducible apply Keeps.trans ?_ (keeps_writeTrnCtl)
    | with_reducible apply Keeps.trans ?_ (keeps_writeTrnPat)
    | with_reducible apply Keeps.trans ?_ (keeps_writePhyAcc)
    | with_reducible apply Keeps.trans ?_ (keeps_writeReg)
    | with_reducible apply Keeps.trans ?_ (keeps_wakeTile)
    | with_reducible apply Keeps.trans ?_ (keeps_changeRates ?_)
    | with_reducible apply Keeps.trans ?_ (keeps_writeRst)
    | with_reducible apply Keeps.trans ?_ (keeps_writeDawnSts)
    | with_reducible apply Keeps.trans ?_ (keeps_writeTrkRes)
    | with_reducible apply Keeps.trans ?_ (Keeps.foldl _ _ ?_)
    | with_reducible apply Keeps.trans ?_ (Keeps.foldl_fst _ _ ?_)
    | with_reducible apply Keeps.trans ?_ (Keeps.foldl_snd _ _ ?_)
    | with_reducible intro _
    | split

theorem keeps_write0 {a : Agent} {off : Nat} {v : W32} {s : State} : Keeps s (write0 a off v s) := by
  unfold write0
  repeat' first
    | with_reducible exact Keeps.refl _
    | with_reducible assumption
    | with_reducible apply Keeps.trans ?_ (keeps_onFn)
    | with_reducible apply Keeps.trans ?_ (keeps_writeKind)
    | with_reducible apply Keeps.trans ?_ (Keeps.foldl _ _ ?_)
    | with_reducible apply Keeps.trans ?_ (Keeps.foldl_fst _ _ ?_)
    | with_reducible apply Keeps.trans ?_ (Keeps.foldl_snd _ _ ?_)
    | with_reducible intro _
    | split

theorem keeps_writeRingCtl {a : Agent} {r : Nat} {v : W32} {s : State} : Keeps s (writeRingCtl a r v s) := by
  unfold writeRingCtl
  repeat' first
    | with_reducible exact Keeps.refl _
    | with_reducible assumption
    | with_reducible apply Keeps.trans ?_ (keeps_ringWrite ?_)
    | with_reducible apply Keeps.trans ?_ (keeps_abortWrite)
    | with_reducible apply Keeps.trans ?_ (keeps_enableWrite)
    | with_reducible apply Keeps.trans ?_ (keeps_disableWrite)
    | with_reducible apply Keeps.trans ?_ (Keeps.foldl _ _ ?_)
    | with_reducible apply Keeps.trans ?_ (Keeps.foldl_fst _ _ ?_)
    | with_reducible apply Keeps.trans ?_ (Keeps.foldl_snd _ _ ?_)
    | with_reducible intro _
    | split

theorem keeps_writeRingSts {r : Nat} {v : W32} {s : State} : Keeps s (writeRingSts r v s) := by
  unfold writeRingSts
  repeat' first
    | with_reducible exact Keeps.refl _
    | with_reducible assumption
    | with_reducible apply Keeps.trans ?_ (keeps_onRing)

theorem keeps_write2 {a : Agent} {off : Nat} {v : W32} {s : State} : Keeps s (write2 a off v s) := by
  unfold write2
  repeat' first
    | with_reducible exact Keeps.refl _
    | with_reducible assumption
    | with_reducible apply Keeps.trans ?_ (keeps_ringWrite ?_)
    | with_reducible apply Keeps.trans ?_ (keeps_writeTail)
    | with_reducible apply Keeps.trans ?_ (keeps_writeCqHead)
    | with_reducible apply Keeps.trans ?_ (keeps_writeRingSts)
    | with_reducible apply Keeps.trans ?_ (keeps_writeRingCtl)
    | with_reducible apply Keeps.trans ?_ (keeps_writeRingCfg)
    | with_reducible apply Keeps.trans ?_ (keeps_writeRingBase)
    | (extract_lets +onlyGivenNames x; refine Keeps.use (x := x) ?_ (fun hx => ?_); subst x; rotate_left; clear_value x)
    | (extract_lets +onlyGivenNames x; refine Keeps.useSnd (x := x) ?_ (fun hx => ?_); subst x; rotate_left; clear_value x)
    | (extract_lets +onlyGivenNames x; refine Keeps.useFst (x := x) ?_ (fun hx => ?_); subst x; rotate_left; clear_value x)
    | (extract_lets +onlyGivenNames x; refine Keeps.useThird (x := x) ?_ (fun hx => ?_); subst x; rotate_left; clear_value x)
    | (extract_lets +onlyGivenNames x; have _ := fun a => x a; subst x)
    | (extract_lets +onlyGivenNames x; clear_value x)
    | with_reducible apply Keeps.trans ?_ (Keeps.foldl _ _ ?_)
    | with_reducible apply Keeps.trans ?_ (Keeps.foldl_fst _ _ ?_)
    | with_reducible apply Keeps.trans ?_ (Keeps.foldl_snd _ _ ?_)
    | with_reducible intro _
    | split

end Sys2Proof.Machine
end

