-- ==== Sys2Proof/Laws/Keeps13.lean ====
section
/-!
SUPPORT. What the operations of the block keep, part 13: one lemma for each, in the order of their files.
-/
namespace Sys2Proof.Machine

theorem keeps_write32 {a : Agent} {bar2 : Bool} {off : Nat} {v : W32} {s : State} : Keeps s (write32 a bar2 off v s) := by
  unfold write32
  repeat' first
    | with_reducible exact Keeps.refl _
    | with_reducible assumption
    | with_reducible apply Keeps.trans ?_ (keeps_write2)
    | with_reducible apply Keeps.trans ?_ (keeps_write0)
    | with_reducible apply Keeps.trans ?_ (Keeps.foldl _ _ ?_)
    | with_reducible apply Keeps.trans ?_ (Keeps.foldl_fst _ _ ?_)
    | with_reducible apply Keeps.trans ?_ (Keeps.foldl_snd _ _ ?_)
    | with_reducible intro _
    | split

theorem keeps_payloadWrite {f off len : Nat} {v : Line} {s : State} : Keeps s (payloadWrite f off len v s) := by
  unfold payloadWrite
  repeat' first
    | with_reducible exact Keeps.refl _
    | with_reducible assumption
    | with_reducible apply Keeps.trans ?_ (keeps_onFn)
    | with_reducible apply Keeps.trans ?_ (Keeps.foldl _ _ ?_)
    | with_reducible apply Keeps.trans ?_ (Keeps.foldl_fst _ _ ?_)
    | with_reducible apply Keeps.trans ?_ (Keeps.foldl_snd _ _ ?_)
    | with_reducible apply Keeps.trans ?_ (Keeps.pairFst (Keeps.foldl_fst _ _ ?_) (by assumption))
    | with_reducible apply Keeps.trans ?_ (Keeps.pair (Keeps.foldl_snd _ _ ?_) (by assumption))
    | with_reducible intro _
    | split

theorem keeps_registerWrite {a : Agent} {bar2 : Bool} {off len : Nat} {v : Line} {full : Bool} {s : State} : Keeps s (registerWrite a bar2 off len v full s) := by
  unfold registerWrite
  repeat' first
    | with_reducible exact Keeps.refl _
    | with_reducible assumption
    | with_reducible apply Keeps.trans ?_ (keeps_payloadWrite)
    | with_reducible apply Keeps.trans ?_ (keeps_send)
    | with_reducible apply Keeps.trans ?_ (keeps_write32)
    | with_reducible apply Keeps.trans ?_ (Keeps.foldl _ _ ?_)
    | with_reducible apply Keeps.trans ?_ (Keeps.foldl_fst _ _ ?_)
    | with_reducible apply Keeps.trans ?_ (Keeps.foldl_snd _ _ ?_)
    | with_reducible intro _
    | split

theorem keeps_setGang {gang : Bytes} {s : State} : Keeps s (setGang gang s) := by
  unfold setGang
  repeat' first
    | with_reducible exact Keeps.refl _
    | with_reducible assumption
    | with_reducible apply Keeps.trans ?_ (keeps_resetFns)
    | with_reducible apply Keeps.trans ?_ (keeps_onPort)
    | with_reducible apply Keeps.trans ?_ keeps_setReg
    | (extract_lets +onlyGivenNames x; refine Keeps.use (x := x) ?_ (fun hx => ?_); subst x; rotate_left; clear_value x)
    | (extract_lets +onlyGivenNames x; refine Keeps.useSnd (x := x) ?_ (fun hx => ?_); subst x; rotate_left; clear_value x)
    | (extract_lets +onlyGivenNames x; refine Keeps.useFst (x := x) ?_ (fun hx => ?_); subst x; rotate_left; clear_value x)
    | (extract_lets +onlyGivenNames x; refine Keeps.useThird (x := x) ?_ (fun hx => ?_); subst x; rotate_left; clear_value x)
    | (extract_lets +onlyGivenNames x; have _ := fun a => x a; subst x)
    | (extract_lets +onlyGivenNames x; clear_value x)
    | with_reducible apply Keeps.trans ?_ (Keeps.foldl _ _ ?_)
    | with_reducible apply Keeps.trans ?_ (Keeps.foldl_fst _ _ ?_)
    | with_reducible apply Keeps.trans ?_ (Keeps.foldl_snd _ _ ?_)
    | with_reducible apply Keeps.trans ?_ (Keeps.pairFst (Keeps.foldl_fst _ _ ?_) (by assumption))
    | with_reducible apply Keeps.trans ?_ (Keeps.pair (Keeps.foldl_snd _ _ ?_) (by assumption))
    | with_reducible intro _
    | split
    | dsimp -zeta only

/-- A fold that writes registers changes the register file alone. -/
theorem foldl_setReg {l : List Nat} {f g : Nat → RegKind × Nat × W32} {s : State} :
    ∃ rg, l.foldl (fun s t => setReg (f t).1 (f t).2.1 (f t).2.2 (setReg (g t).1 (g t).2.1 (g t).2.2 s)) s = { s with regs := rg } := by
  induction l generalizing s with
  | nil => exact ⟨s.regs, rfl⟩
  | cons t l ih =>
    obtain ⟨rg, h⟩ := @ih (setReg (f t).1 (f t).2.1 (f t).2.2 (setReg (g t).1 (g t).2.1 (g t).2.2 s))
    exact ⟨rg, h⟩

theorem keeps_withdraw {s : State} : Keeps s (withdraw s) := by
  unfold withdraw
  extract_lets +onlyGivenNames s1
  have h1 : Keeps s s1 := keeps_setGang
  clear_value s1
  extract_lets +onlyGivenNames regs0 s2
  obtain ⟨rg, h2⟩ : ∃ rg, s2 = { regs0 with regs := rg } :=
    foldl_setReg (f := fun t => (.rstBlkCtl, t, (regRaw s1 .rstBlkCtl t) ||| 0x3FC#32))
      (g := fun t => (.hpGangCfg, t, BitVec.ofNat 32 (leAt s1.dawn.opt.gang t 1 % 64)))
  clear_value s2
  subst h2
  exact h1.trans ⟨rfl, rfl, rfl, rfl, fun _ => rfl, id, id, fun _ => rfl, fun _ => rfl, fun _ h => h, id, id, id⟩

theorem keeps_readyHeads {s : State} : Keeps s (readyHeads s) := by
  unfold readyHeads
  repeat' first
    | with_reducible exact Keeps.refl _
    | with_reducible assumption
    | with_reducible apply Keeps.trans ?_ (keeps_onPort)
    | with_reducible apply Keeps.trans ?_ (Keeps.foldl _ _ ?_)
    | with_reducible apply Keeps.trans ?_ (Keeps.foldl_fst _ _ ?_)
    | with_reducible apply Keeps.trans ?_ (Keeps.foldl_snd _ _ ?_)
    | with_reducible apply Keeps.trans ?_ (Keeps.pairFst (Keeps.foldl_fst _ _ ?_) (by assumption))
    | with_reducible apply Keeps.trans ?_ (Keeps.pair (Keeps.foldl_snd _ _ ?_) (by assumption))
    | with_reducible intro _
    | split

theorem keeps_failDawn {code : Nat} {t0 : Bool} {s : State} : Keeps s (failDawn code t0 s) := by
  unfold failDawn
  repeat' first
    | with_reducible exact Keeps.refl _
    | with_reducible assumption
    | with_reducible apply Keeps.trans ?_ (keeps_withdraw)
    | with_reducible apply Keeps.trans ?_ (keeps_onDawn (fun h => h))
    | with_reducible apply Keeps.trans ?_ (keeps_onDawn (by intro h; first | exact h | rfl | (split <;> first | exact h | rfl)))
    | with_reducible apply Keeps.trans ?_ (keeps_primaryLog)
    | with_reducible apply Keeps.trans ?_ (keeps_replaceDawn)
    | with_reducible apply Keeps.trans ?_ (keeps_readyHeads)
    | (extract_lets +onlyGivenNames x; refine Keeps.use (x := x) ?_ (fun hx => ?_); subst x; rotate_left; clear_value x)
    | (extract_lets +onlyGivenNames x; refine Keeps.useSnd (x := x) ?_ (fun hx => ?_); subst x; rotate_left; clear_value x)
    | (extract_lets +onlyGivenNames x; refine Keeps.useFst (x := x) ?_ (fun hx => ?_); subst x; rotate_left; clear_value x)
    | (extract_lets +onlyGivenNames x; refine Keeps.useThird (x := x) ?_ (fun hx => ?_); subst x; rotate_left; clear_value x)
    | (extract_lets +onlyGivenNames x; have _ := fun a => x a; subst x)
    | (extract_lets +onlyGivenNames x; clear_value x)
    | with_reducible apply Keeps.trans ?_ (Keeps.foldl _ _ ?_)
    | with_reducible apply Keeps.trans ?_ (Keeps.foldl_fst _ _ ?_)
    | with_reducible apply Keeps.trans ?_ (Keeps.foldl_snd _ _ ?_)
    | with_reducible intro _
    | split

theorem keeps_passOver {code : Nat} {s : State} : Keeps s (passOver code s) := by
  unfold passOver
  repeat' first
    | with_reducible exact Keeps.refl _
    | with_reducible assumption
    | with_reducible apply Keeps.trans ?_ (keeps_primaryLog)
    | with_reducible apply Keeps.trans ?_ (keeps_failDawn)
    | with_reducible apply Keeps.trans ?_ (keeps_withdraw)
    | (extract_lets +onlyGivenNames x; refine Keeps.use (x := x) ?_ (fun hx => ?_); subst x; rotate_left; clear_value x)
    | (extract_lets +onlyGivenNames x; refine Keeps.useSnd (x := x) ?_ (fun hx => ?_); subst x; rotate_left; clear_value x)
    | (extract_lets +onlyGivenNames x; refine Keeps.useFst (x := x) ?_ (fun hx => ?_); subst x; rotate_left; clear_value x)
    | (extract_lets +onlyGivenNames x; refine Keeps.useThird (x := x) ?_ (fun hx => ?_); subst x; rotate_left; clear_value x)
    | (extract_lets +onlyGivenNames x; have _ := fun a => x a; subst x)
    | (extract_lets +onlyGivenNames x; clear_value x)
    | with_reducible apply Keeps.trans ?_ (Keeps.foldl _ _ ?_)
    | with_reducible apply Keeps.trans ?_ (Keeps.foldl_fst _ _ ?_)
    | with_reducible apply Keeps.trans ?_ (Keeps.foldl_snd _ _ ?_)
    | with_reducible intro _
    | split

theorem keeps_dawnOptions {s : State} : Keeps s (dawnOptions s) := by
  unfold dawnOptions
  repeat' first
    | with_reducible exact Keeps.refl _
    | with_reducible assumption
    | with_reducible apply Keeps.trans ?_ (keeps_onFlash (fun h => h))
    | with_reducible apply Keeps.trans ?_ (keeps_onFlash (by intro h; apply Table.wf_keep; exact h))
    | with_reducible apply Keeps.trans ?_ (keeps_onFlash (fun h => Table.wf_foldl_set _ _ _ _ h))
    | with_reducible apply Keeps.trans ?_ (keeps_onDawn (fun h => h))
    | with_reducible apply Keeps.trans ?_ (keeps_onDawn (by intro h; first | exact h | rfl | (split <;> first | exact h | rfl)))
    | with_reducible apply Keeps.trans ?_ (keeps_primaryLog)
    | with_reducible apply Keeps.trans ?_ keeps_setReg
    | with_reducible apply Keeps.trans ?_ (keeps_releaseBlocks)
    | with_reducible apply Keeps.trans ?_ (keeps_onPort)
    | (extract_lets +onlyGivenNames x; refine Keeps.use (x := x) ?_ (fun hx => ?_); subst x; rotate_left; clear_value x)
    | (extract_lets +onlyGivenNames x; refine Keeps.useSnd (x := x) ?_ (fun hx => ?_); subst x; rotate_left; clear_value x)
    | (extract_lets +onlyGivenNames x; refine Keeps.useFst (x := x) ?_ (fun hx => ?_); subst x; rotate_left; clear_value x)
    | (extract_lets +onlyGivenNames x; refine Keeps.useThird (x := x) ?_ (fun hx => ?_); subst x; rotate_left; clear_value x)
    | (extract_lets +onlyGivenNames x; have _ := fun a => x a; subst x)
    | (extract_lets +onlyGivenNames x; clear_value x)
    | with_reducible apply Keeps.trans ?_ (Keeps.foldl _ _ ?_)
    | with_reducible apply Keeps.trans ?_ (Keeps.foldl_fst _ _ ?_)
    | with_reducible apply Keeps.trans ?_ (Keeps.foldl_snd _ _ ?_)
    | with_reducible apply Keeps.trans ?_ (Keeps.pairFst (Keeps.foldl_fst _ _ ?_) (by assumption))
    | with_reducible apply Keeps.trans ?_ (Keeps.pair (Keeps.foldl_snd _ _ ?_) (by assumption))
    | with_reducible intro _
    | split

theorem keeps_candsFound {c : List Bool} {s : State} : Keeps s (candsFound c s) := by
  unfold candsFound
  repeat' first
    | with_reducible exact Keeps.refl _
    | with_reducible assumption
    | with_reducible apply Keeps.trans ?_ (keeps_failDawn)
    | with_reducible apply Keeps.trans ?_ (keeps_onDawn (fun h => h))
    | with_reducible apply Keeps.trans ?_ (keeps_onDawn (by intro h; first | exact h | rfl | (split <;> first | exact h | rfl)))
    | with_reducible apply Keeps.trans ?_ (Keeps.foldl _ _ ?_)
    | with_reducible apply Keeps.trans ?_ (Keeps.foldl_fst _ _ ?_)
    | with_reducible apply Keeps.trans ?_ (Keeps.foldl_snd _ _ ?_)
    | with_reducible intro _
    | split

theorem keeps_tryCands  {a0 : List Bool} {s : State} : Keeps s (tryCands a0 s) := by
  induction a0 generalizing s with
  | nil => exact Keeps.refl _
  | cons c l ih =>
    unfold tryCands
    repeat' first
      | with_reducible apply Keeps.trans ?_ ih
      | with_reducible exact Keeps.refl _
      | with_reducible assumption
      | with_reducible apply Keeps.trans ?_ (keeps_onDawn (fun h => h))
      | with_reducible apply Keeps.trans ?_ (keeps_onDawn (by intro h; first | exact h | rfl | (split <;> first | exact h | rfl)))
      | with_reducible apply Keeps.trans ?_ (keeps_passOver)
      | (extract_lets +onlyGivenNames x; refine Keeps.use (x := x) ?_ (fun hx => ?_); subst x; rotate_left; clear_value x)
      | (extract_lets +onlyGivenNames x; refine Keeps.useSnd (x := x) ?_ (fun hx => ?_); subst x; rotate_left; clear_value x)
      | (extract_lets +onlyGivenNames x; refine Keeps.useFst (x := x) ?_ (fun hx => ?_); subst x; rotate_left; clear_value x)
      | (extract_lets +onlyGivenNames x; refine Keeps.useThird (x := x) ?_ (fun hx => ?_); subst x; rotate_left; clear_value x)
      | (extract_lets +onlyGivenNames x; have _ := fun a => x a; subst x)
      | (extract_lets +onlyGivenNames x; clear_value x)
      | with_reducible apply Keeps.trans ?_ (Keeps.foldl _ _ ?_)
      | with_reducible apply Keeps.trans ?_ (Keeps.foldl_fst _ _ ?_)
      | with_reducible apply Keeps.trans ?_ (Keeps.foldl_snd _ _ ?_)
      | with_reducible intro _
      | split

theorem keeps_applyImage {slotB : Bool} {h : SlotHdr} {i : Image} {s : State} : Keeps s (applyImage slotB h i s) := by
  unfold applyImage
  repeat' first
    | with_reducible exact Keeps.refl _
    | with_reducible assumption
    | with_reducible apply Keeps.trans ?_ (keeps_onDawn (fun h => h))
    | with_reducible apply Keeps.trans ?_ (keeps_onDawn (by intro h; first | exact h | rfl | (split <;> first | exact h | rfl)))
    | with_reducible apply Keeps.trans ?_ keeps_onMap
    | with_reducible apply Keeps.trans ?_ keeps_onQos
    | with_reducible apply Keeps.trans ?_ keeps_onHost

theorem keeps_imageRead {c : Bool} {h : SlotHdr} {i : Option Image} {s : State} : Keeps s (imageRead c h i s) := by
  unfold imageRead
  repeat' first
    | with_reducible exact Keeps.refl _
    | with_reducible assumption
    | with_reducible apply Keeps.trans ?_ (keeps_passOver)
    | with_reducible apply Keeps.trans ?_ (keeps_readyHeads)
    | with_reducible apply Keeps.trans ?_ (keeps_applyImage)
    | with_reducible apply Keeps.trans ?_ (Keeps.foldl _ _ ?_)
    | with_reducible apply Keeps.trans ?_ (Keeps.foldl_fst _ _ ?_)
    | with_reducible apply Keeps.trans ?_ (Keeps.foldl_snd _ _ ?_)
    | with_reducible intro _
    | split

theorem keeps_setChannel {t c : Nat} {st : SubState} {why : SubReason} {s : State} : Keeps s (setChannel t c st why s) := by
  unfold setChannel
  repeat' first
    | with_reducible exact Keeps.refl _
    | with_reducible assumption
    | with_reducible apply Keeps.trans ?_ (keeps_onSub)

theorem keeps_trainRegs {eyes : List Eye} {stop : Option Nat} {x : Spd} {d : Nat} {s : State} : Keeps s (trainRegs eyes stop x d s) := by
  unfold trainRegs
  repeat' first
    | with_reducible exact Keeps.refl _
    | with_reducible assumption
    | with_reducible apply Keeps.trans ?_ keeps_setReg
    | with_reducible apply Keeps.trans ?_ (keeps_raiseBit)
    | (extract_lets +onlyGivenNames x; refine Keeps.use (x := x) ?_ (fun hx => ?_); subst x; rotate_left; clear_value x)
    | (extract_lets +onlyGivenNames x; refine Keeps.useSnd (x := x) ?_ (fun hx => ?_); subst x; rotate_left; clear_value x)
    | (extract_lets +onlyGivenNames x; refine Keeps.useFst (x := x) ?_ (fun hx => ?_); subst x; rotate_left; clear_value x)
    | (extract_lets +onlyGivenNames x; refine Keeps.useThird (x := x) ?_ (fun hx => ?_); subst x; rotate_left; clear_value x)
    | (extract_lets +onlyGivenNames x; have _ := fun a => x a; subst x)
    | (extract_lets +onlyGivenNames x; clear_value x)
    | with_reducible apply Keeps.trans ?_ (Keeps.foldl _ _ ?_)
    | with_reducible apply Keeps.trans ?_ (Keeps.foldl_fst _ _ ?_)
    | with_reducible apply Keeps.trans ?_ (Keeps.foldl_snd _ _ ?_)
    | with_reducible intro _
    | split

theorem keeps_trainSub {eyes : List Eye} {failed : List (SubId × Fin 10)} {x : Spd} {d : Nat} {s : State} : Keeps s (trainSub eyes failed x d s) := by
  unfold trainSub
  repeat' first
    | with_reducible exact Keeps.refl _
    | with_reducible assumption
    | with_reducible apply Keeps.trans ?_ (keeps_trainRegs)
    | with_reducible apply Keeps.trans ?_ (keeps_onSub)

theorem keeps_findDimm {failed : List (SubId × Fin 10)} {t : Nat} {d : Nat × Spd} {s : State} : Keeps s (findDimm failed t d s) := by
  unfold findDimm
  repeat' first
    | with_reducible exact Keeps.refl _
    | with_reducible assumption
    | with_reducible apply Keeps.trans ?_ (keeps_onDimm)

theorem keeps_trainDimms {first : Option Spd} {dimms : List (TileId × DimmId × Spd)} {eyes : List Eye} {failed : List (SubId × Fin 10)} {s : State} {t : Nat} : Keeps s (trainDimms first dimms eyes failed s t) := by
  unfold trainDimms
  repeat' first
    | with_reducible exact Keeps.refl _
    | with_reducible assumption
    | with_reducible apply Keeps.trans ?_ (keeps_findDimm)
    | with_reducible apply Keeps.trans ?_ (keeps_setChannel)
    | with_reducible apply Keeps.trans ?_ (keeps_trainSub)
    | with_reducible apply Keeps.trans ?_ (keeps_step)
    | with_reducible apply Keeps.trans ?_ (Keeps.triple (keeps_step) (by assumption))
    | with_reducible apply Keeps.trans ?_ (keeps_raiseTile)
    | with_reducible apply Keeps.trans ?_ (keeps_onDimm)
    | (extract_lets +onlyGivenNames x; refine Keeps.use (x := x) ?_ (fun hx => ?_); subst x; rotate_left; clear_value x)
    | (extract_lets +onlyGivenNames x; refine Keeps.useSnd (x := x) ?_ (fun hx => ?_); subst x; rotate_left; clear_value x)
    | (extract_lets +onlyGivenNames x; refine Keeps.useFst (x := x) ?_ (fun hx => ?_); subst x; rotate_left; clear_value x)
    | (extract_lets +onlyGivenNames x; refine Keeps.useThird (x := x) ?_ (fun hx => ?_); subst x; rotate_left; clear_value x)
    | (extract_lets +onlyGivenNames x; have _ := fun a => x a; subst x)
    | (extract_lets +onlyGivenNames x; clear_value x)
    | with_reducible apply Keeps.trans ?_ (Keeps.foldl _ _ ?_)
    | with_reducible apply Keeps.trans ?_ (Keeps.foldl_fst _ _ ?_)
    | with_reducible apply Keeps.trans ?_ (Keeps.foldl_snd _ _ ?_)
    | with_reducible apply Keeps.trans ?_ (Keeps.pairFst (Keeps.foldl_fst _ _ ?_) (by assumption))
    | with_reducible apply Keeps.trans ?_ (Keeps.pair (Keeps.foldl_snd _ _ ?_) (by assumption))
    | with_reducible intro _
    | split

theorem keeps_tileParams {s0 : State} {t : Nat} {s : State} : Keeps s (tileParams s0 t s) := by
  unfold tileParams
  repeat' first
    | with_reducible exact Keeps.refl _
    | with_reducible assumption
    | with_reducible apply Keeps.trans ?_ keeps_setReg
    | with_reducible apply Keeps.trans ?_ (keeps_raiseBit)
    | (extract_lets +onlyGivenNames x; refine Keeps.use (x := x) ?_ (fun hx => ?_); subst x; rotate_left; clear_value x)
    | (extract_lets +onlyGivenNames x; refine Keeps.useSnd (x := x) ?_ (fun hx => ?_); subst x; rotate_left; clear_value x)
    | (extract_lets +onlyGivenNames x; refine Keeps.useFst (x := x) ?_ (fun hx => ?_); subst x; rotate_left; clear_value x)
    | (extract_lets +onlyGivenNames x; refine Keeps.useThird (x := x) ?_ (fun hx => ?_); subst x; rotate_left; clear_value x)
    | (extract_lets +onlyGivenNames x; have _ := fun a => x a; subst x)
    | (extract_lets +onlyGivenNames x; clear_value x)
    | with_reducible apply Keeps.trans ?_ (Keeps.foldl _ _ ?_)
    | with_reducible apply Keeps.trans ?_ (Keeps.foldl_fst _ _ ?_)
    | with_reducible apply Keeps.trans ?_ (Keeps.foldl_snd _ _ ?_)
    | with_reducible apply Keeps.trans ?_ (Keeps.pairFst (Keeps.foldl_fst _ _ ?_) (by assumption))
    | with_reducible apply Keeps.trans ?_ (Keeps.pair (Keeps.foldl_snd _ _ ?_) (by assumption))
    | with_reducible intro _
    | split

theorem keeps_faultParams {s0 : State} {s : State} : Keeps s (faultParams s0 s) := by
  unfold faultParams
  repeat' first
    | with_reducible exact Keeps.refl _
    | with_reducible assumption
    | with_reducible apply Keeps.trans ?_ keeps_setReg
    | with_reducible apply Keeps.trans ?_ (keeps_onFaults (fun h => h) (fun h => h))
    | with_reducible apply Keeps.trans ?_ (keeps_onFaults (by intro h; first | exact h | rfl | (split <;> first | exact h | rfl)) (by intro h; first | exact h | rfl | (split <;> first | exact h | rfl)))
    | (extract_lets +onlyGivenNames x; refine Keeps.use (x := x) ?_ (fun hx => ?_); subst x; rotate_left; clear_value x)
    | (extract_lets +onlyGivenNames x; refine Keeps.useSnd (x := x) ?_ (fun hx => ?_); subst x; rotate_left; clear_value x)
    | (extract_lets +onlyGivenNames x; refine Keeps.useFst (x := x) ?_ (fun hx => ?_); subst x; rotate_left; clear_value x)
    | (extract_lets +onlyGivenNames x; refine Keeps.useThird (x := x) ?_ (fun hx => ?_); subst x; rotate_left; clear_value x)
    | (extract_lets +onlyGivenNames x; have _ := fun a => x a; subst x)
    | (extract_lets +onlyGivenNames x; clear_value x)
    | with_reducible apply Keeps.trans ?_ (Keeps.foldl _ _ ?_)
    | with_reducible apply Keeps.trans ?_ (Keeps.foldl_fst _ _ ?_)
    | with_reducible apply Keeps.trans ?_ (Keeps.foldl_snd _ _ ?_)
    | with_reducible apply Keeps.trans ?_ (Keeps.pairFst (Keeps.foldl_fst _ _ ?_) (by assumption))
    | with_reducible apply Keeps.trans ?_ (Keeps.pair (Keeps.foldl_snd _ _ ?_) (by assumption))
    | with_reducible intro _
    | split

theorem keeps_deviceParams {s0 : State} {s : State} : Keeps s (deviceParams s0 s) := by
  unfold deviceParams
  repeat' first
    | with_reducible exact Keeps.refl _
    | with_reducible assumption
    | with_reducible apply Keeps.trans ?_ keeps_setReg
    | (extract_lets +onlyGivenNames x; refine Keeps.use (x := x) ?_ (fun hx => ?_); subst x; rotate_left; clear_value x)
    | (extract_lets +onlyGivenNames x; refine Keeps.useSnd (x := x) ?_ (fun hx => ?_); subst x; rotate_left; clear_value x)
    | (extract_lets +onlyGivenNames x; refine Keeps.useFst (x := x) ?_ (fun hx => ?_); subst x; rotate_left; clear_value x)
    | (extract_lets +onlyGivenNames x; refine Keeps.useThird (x := x) ?_ (fun hx => ?_); subst x; rotate_left; clear_value x)
    | (extract_lets +onlyGivenNames x; have _ := fun a => x a; subst x)
    | (extract_lets +onlyGivenNames x; clear_value x)
    | with_reducible apply Keeps.trans ?_ (Keeps.foldl _ _ ?_)
    | with_reducible apply Keeps.trans ?_ (Keeps.foldl_fst _ _ ?_)
    | with_reducible apply Keeps.trans ?_ (Keeps.foldl_snd _ _ ?_)
    | with_reducible apply Keeps.trans ?_ (Keeps.pairFst (Keeps.foldl_fst _ _ ?_) (by assumption))
    | with_reducible apply Keeps.trans ?_ (Keeps.pair (Keeps.foldl_snd _ _ ?_) (by assumption))
    | with_reducible intro _
    | split

theorem keeps_formTile {t : Nat} {s : State} : Keeps s (formTile t s) := by
  unfold formTile
  repeat' first
    | with_reducible exact Keeps.refl _
    | with_reducible assumption
    | with_reducible apply Keeps.trans ?_ (keeps_formGroups)
    | with_reducible apply Keeps.trans ?_ (keeps_raiseTile)
    | with_reducible apply Keeps.trans ?_ (keeps_onNl)
    | (extract_lets +onlyGivenNames x; refine Keeps.use (x := x) ?_ (fun hx => ?_); subst x; rotate_left; clear_value x)
    | (extract_lets +onlyGivenNames x; refine Keeps.useSnd (x := x) ?_ (fun hx => ?_); subst x; rotate_left; clear_value x)
    | (extract_lets +onlyGivenNames x; refine Keeps.useFst (x := x) ?_ (fun hx => ?_); subst x; rotate_left; clear_value x)
    | (extract_lets +onlyGivenNames x; refine Keeps.useThird (x := x) ?_ (fun hx => ?_); subst x; rotate_left; clear_value x)
    | (extract_lets +onlyGivenNames x; have _ := fun a => x a; subst x)
    | (extract_lets +onlyGivenNames x; clear_value x)
    | with_reducible apply Keeps.trans ?_ (Keeps.foldl _ _ ?_)
    | with_reducible apply Keeps.trans ?_ (Keeps.foldl_fst _ _ ?_)
    | with_reducible apply Keeps.trans ?_ (Keeps.foldl_snd _ _ ?_)
    | with_reducible apply Keeps.trans ?_ (Keeps.pairFst (Keeps.foldl_fst _ _ ?_) (by assumption))
    | with_reducible apply Keeps.trans ?_ (Keeps.pair (Keeps.foldl_snd _ _ ?_) (by assumption))
    | with_reducible intro _
    | split

theorem keeps_admitted {o : EvalOut} {s : State} : Keeps s (admitted o s) := by
  unfold admitted
  repeat' first
    | with_reducible exact Keeps.refl _
    | with_reducible assumption
    | with_reducible apply Keeps.trans ?_ keeps_onQos
    | with_reducible apply Keeps.trans ?_ (keeps_passOver)
    | with_reducible apply Keeps.trans ?_ (keeps_applyEval)
    | with_reducible apply Keeps.trans ?_ (keeps_startFill)
    | (extract_lets +onlyGivenNames x; refine Keeps.use (x := x) ?_ (fun hx => ?_); subst x; rotate_left; clear_value x)
    | (extract_lets +onlyGivenNames x; refine Keeps.useSnd (x := x) ?_ (fun hx => ?_); subst x; rotate_left; clear_value x)
    | (extract_lets +onlyGivenNames x; refine Keeps.useFst (x := x) ?_ (fun hx => ?_); subst x; rotate_left; clear_value x)
    | (extract_lets +onlyGivenNames x; refine Keeps.useThird (x := x) ?_ (fun hx => ?_); subst x; rotate_left; clear_value x)
    | (extract_lets +onlyGivenNames x; have _ := fun a => x a; subst x)
    | (extract_lets +onlyGivenNames x; clear_value x)
    | with_reducible apply Keeps.trans ?_ (Keeps.foldl _ _ ?_)
    | with_reducible apply Keeps.trans ?_ (Keeps.foldl_fst _ _ ?_)
    | with_reducible apply Keeps.trans ?_ (Keeps.foldl_snd _ _ ?_)
    | with_reducible apply Keeps.trans ?_ (Keeps.pairFst (Keeps.foldl_fst _ _ ?_) (by assumption))
    | with_reducible apply Keeps.trans ?_ (Keeps.pair (Keeps.foldl_snd _ _ ?_) (by assumption))
    | with_reducible intro _
    | split

theorem keeps_onPass {region : Nat} {f : Pass → Pass} {s : State} : Keeps s (onPass region f s) := by
  unfold onPass
  repeat' first
    | with_reducible exact Keeps.refl _
    | with_reducible assumption
    | with_reducible apply Keeps.trans ?_ (keeps_onCry (fun _ h => h))

theorem keeps_endPass {region : Nat} {s : State} : Keeps s (endPass region s) := by
  unfold endPass
  repeat' first
    | with_reducible exact Keeps.refl _
    | with_reducible assumption
    | with_reducible apply Keeps.trans ?_ (keeps_onPass)
    | with_reducible apply Keeps.trans ?_ (keeps_onCry (fun _ h => h))
    | with_reducible apply Keeps.trans ?_ (keeps_onCry ?_)
    | with_reducible apply Keeps.trans ?_ (Keeps.foldl _ _ ?_)
    | with_reducible apply Keeps.trans ?_ (Keeps.foldl_fst _ _ ?_)
    | with_reducible apply Keeps.trans ?_ (Keeps.foldl_snd _ _ ?_)
    | with_reducible intro _
    | split

theorem keeps_setPos {region t o : Nat} {s : State} : Keeps s (setPos region t o s) := by
  unfold setPos
  repeat' first
    | with_reducible exact Keeps.refl _
    | with_reducible assumption
    | with_reducible apply Keeps.trans ?_ (keeps_endPass)
    | with_reducible apply Keeps.trans ?_ (keeps_onPass)

theorem keeps_rekey {c : CLoc} {p : Pass} {fold : Nat} {x : Rec} {s : State} : Keeps s (rekey c p fold x s).2 := by
  unfold rekey
  repeat' first
    | with_reducible exact Keeps.refl _
    | with_reducible assumption
    | with_reducible apply Keeps.trans ?_ (keeps_cacheFill)
    | with_reducible apply Keeps.trans ?_ (keeps_alarm)
    | with_reducible apply Keeps.trans ?_ (keeps_encryptLine)
    | with_reducible apply Keeps.trans ?_ (Keeps.pair (keeps_encryptLine) (by assumption))
    | (extract_lets +onlyGivenNames x; refine Keeps.use (x := x) ?_ (fun hx => ?_); subst x; rotate_left; clear_value x)
    | (extract_lets +onlyGivenNames x; refine Keeps.useSnd (x := x) ?_ (fun hx => ?_); subst x; rotate_left; clear_value x)
    | (extract_lets +onlyGivenNames x; refine Keeps.useFst (x := x) ?_ (fun hx => ?_); subst x; rotate_left; clear_value x)
    | (extract_lets +onlyGivenNames x; refine Keeps.useThird (x := x) ?_ (fun hx => ?_); subst x; rotate_left; clear_value x)
    | (extract_lets +onlyGivenNames x; have _ := fun a => x a; subst x)
    | (extract_lets +onlyGivenNames x; clear_value x)
    | with_reducible apply Keeps.trans ?_ (Keeps.foldl _ _ ?_)
    | with_reducible apply Keeps.trans ?_ (Keeps.foldl_fst _ _ ?_)
    | with_reducible apply Keeps.trans ?_ (Keeps.foldl_snd _ _ ?_)
    | with_reducible intro _
    | split

theorem keeps_passBy {region t o : Nat} {s : State} : Keeps s (passBy region t o s) := by
  unfold passBy
  repeat' first
    | with_reducible exact Keeps.refl _
    | with_reducible assumption
    | with_reducible apply Keeps.trans ?_ (keeps_setPos)
    | with_reducible apply Keeps.trans ?_ (keeps_onCry (fun _ h => h))

theorem keeps_rekeyEnd {r : Region} {t o : Nat} {c : CLoc} {addr : Nat} {isSa : Bool} {put : Rec → State → State} {s0 : State} {x : Rekey × State}
    (h : ∀ y s, Keeps s (put y s)) : Keeps x.2 (rekeyEnd r t o c addr isSa put s0 x) := by
  unfold rekeyEnd
  split
  · exact keeps_shadowTraffic.trans ((h _ _).trans ((keeps_onCry (fun _ h => h)).trans (keeps_addCnt.trans keeps_passBy)))
  · exact keeps_failCheck
  · exact Keeps.refl _

theorem keeps_twilightDpa {r : Region} {p : Pass} {t o line : Nat} {flips : Flips} {s : State} : Keeps s (twilightDpa r p t o line flips s) := by
  unfold twilightDpa
  repeat' first
    | with_reducible exact Keeps.refl _
    | with_reducible assumption
    | with_reducible apply Keeps.trans ?_ keeps_onHa
    | with_reducible apply Keeps.trans ?_ (keeps_passBy)
    | with_reducible apply Keeps.trans ?_ (keeps_takeLine (by assumption))
    | with_reducible apply Keeps.trans ?_ (keeps_askLine)
    | with_reducible apply Keeps.trans ?_ (keeps_fixKey ?_)
    | with_reducible apply Keeps.trans ?_ (Keeps.triple (keeps_fixKey ?_) (by assumption))
    | with_reducible apply Keeps.trans ?_ (keeps_putLine)
    | with_reducible apply Keeps.trans ?_ (keeps_metaLost)
    | with_reducible apply Keeps.trans ?_ (keeps_rekeyEnd ?_)
    | with_reducible apply Keeps.trans ?_ (keeps_rekey)
    | with_reducible apply Keeps.trans ?_ (Keeps.pair (keeps_rekey) (by assumption))
    | (extract_lets +onlyGivenNames x; refine Keeps.use (x := x) ?_ (fun hx => ?_); subst x; rotate_left; clear_value x)
    | (extract_lets +onlyGivenNames x; refine Keeps.useSnd (x := x) ?_ (fun hx => ?_); subst x; rotate_left; clear_value x)
    | (extract_lets +onlyGivenNames x; refine Keeps.useFst (x := x) ?_ (fun hx => ?_); subst x; rotate_left; clear_value x)
    | (extract_lets +onlyGivenNames x; refine Keeps.useThird (x := x) ?_ (fun hx => ?_); subst x; rotate_left; clear_value x)
    | (extract_lets +onlyGivenNames x; have _ := fun a => x a; subst x)
    | (extract_lets +onlyGivenNames x; clear_value x)
    | with_reducible apply Keeps.trans ?_ (Keeps.foldl _ _ ?_)
    | with_reducible apply Keeps.trans ?_ (Keeps.foldl_fst _ _ ?_)
    | with_reducible apply Keeps.trans ?_ (Keeps.foldl_snd _ _ ?_)
    | with_reducible intro _
    | split

theorem keeps_twilightStore {r : Region} {p : Pass} {t o area k : Nat} {flips : Flips} {s : State} : Keeps s (twilightStore r p t o area k flips s) := by
  unfold twilightStore
  repeat' first
    | with_reducible exact Keeps.refl _
    | with_reducible assumption
    | with_reducible apply Keeps.trans ?_ (keeps_storePut)
    | with_reducible apply Keeps.trans ?_ (keeps_passBy)
    | with_reducible apply Keeps.trans ?_ (keeps_takeLoc (by assumption))
    | with_reducible apply Keeps.trans ?_ (keeps_storeAsk)
    | with_reducible apply Keeps.trans ?_ (keeps_countUe)
    | with_reducible apply Keeps.trans ?_ (keeps_countCe)
    | with_reducible apply Keeps.trans ?_ (keeps_checkKey ?_)
    | with_reducible apply Keeps.trans ?_ (Keeps.triple (keeps_checkKey ?_) (by assumption))
    | with_reducible apply Keeps.trans ?_ (keeps_rekeyEnd ?_)
    | with_reducible apply Keeps.trans ?_ (keeps_rekey)
    | with_reducible apply Keeps.trans ?_ (Keeps.pair (keeps_rekey) (by assumption))
    | with_reducible apply Keeps.trans ?_ (keeps_mapAreaBad)
    | with_reducible apply Keeps.trans ?_ (keeps_poisonBlock)
    | (extract_lets +onlyGivenNames x; refine Keeps.use (x := x) ?_ (fun hx => ?_); subst x; rotate_left; clear_value x)
    | (extract_lets +onlyGivenNames x; refine Keeps.useSnd (x := x) ?_ (fun hx => ?_); subst x; rotate_left; clear_value x)
    | (extract_lets +onlyGivenNames x; refine Keeps.useFst (x := x) ?_ (fun hx => ?_); subst x; rotate_left; clear_value x)
    | (extract_lets +onlyGivenNames x; refine Keeps.useThird (x := x) ?_ (fun hx => ?_); subst x; rotate_left; clear_value x)
    | (extract_lets +onlyGivenNames x; have _ := fun a => x a; subst x)
    | (extract_lets +onlyGivenNames x; clear_value x)
    | with_reducible apply Keeps.trans ?_ (Keeps.foldl _ _ ?_)
    | with_reducible apply Keeps.trans ?_ (Keeps.foldl_fst _ _ ?_)
    | with_reducible apply Keeps.trans ?_ (Keeps.foldl_snd _ _ ?_)
    | with_reducible intro _
    | split

theorem keeps_mbPut {f : Fn} {rc : MbRc} {out : MbOut} {s : State} : Keeps s (mbPut f rc out s) := by
  unfold mbPut
  repeat' first
    | with_reducible exact Keeps.refl _
    | with_reducible assumption
    | with_reducible apply Keeps.trans ?_ (keeps_onFn)

theorem keeps_serve {f : Fn} {w : Who} {r : Bool} {act : State → State} {s : State} (h_act : ∀ s, Keeps s (act s)) : Keeps s (serve f w r act s) := by
  unfold serve
  repeat' first
    | with_reducible exact Keeps.refl _
    | with_reducible assumption
    | with_reducible apply Keeps.trans ?_ (h_act _ )
    | with_reducible apply Keeps.trans ?_ (keeps_mbPut)
    | with_reducible apply Keeps.trans ?_ (Keeps.foldl _ _ ?_)
    | with_reducible apply Keeps.trans ?_ (Keeps.foldl_fst _ _ ?_)
    | with_reducible apply Keeps.trans ?_ (Keeps.foldl_snd _ _ ?_)
    | with_reducible intro _
    | split

theorem keeps_installKeyIn {inp : Bytes} {s : State} : KeepsButKeys s (installKeyIn inp s).2 := by
  unfold installKeyIn
  split
  · exact (Keeps.refl _).butKeys
  · extract_lets +onlyGivenNames k gen
    clear_value k gen
    split
    · exact (Keeps.refl _).butKeys
    · dsimp only
      exact keepsButKeys_onCry

theorem keeps_retireKeyIn {inp : Bytes} {s : State} : Keeps s (retireKeyIn inp s).2 := by
  unfold retireKeyIn
  split
  · exact Keeps.refl _
  · extract_lets +onlyGivenNames k
    clear_value k
    split
    · exact Keeps.refl _
    · split
      · exact Keeps.refl _
      · dsimp only
        refine keeps_onCry (fun i h => ?_)
        dsimp only
        by_cases hi : i = k
        · rw [hi, Table.get_set_same]
        · rw [Table.get_set_other _ _ _ _ _ hi, h]

theorem keeps_startTwilightIn {inp : Bytes} {s : State} : Keeps s (startTwilightIn inp s).2 := by
  unfold startTwilightIn
  repeat' first
    | with_reducible exact Keeps.refl _
    | with_reducible assumption
    | with_reducible apply Keeps.trans ?_ (keeps_onCry (fun _ h => h))
    | with_reducible apply Keeps.trans ?_ (keeps_onCry ?_)
    | (extract_lets +onlyGivenNames x; refine Keeps.use (x := x) ?_ (fun hx => ?_); subst x; rotate_left; clear_value x)
    | (extract_lets +onlyGivenNames x; refine Keeps.useSnd (x := x) ?_ (fun hx => ?_); subst x; rotate_left; clear_value x)
    | (extract_lets +onlyGivenNames x; refine Keeps.useFst (x := x) ?_ (fun hx => ?_); subst x; rotate_left; clear_value x)
    | (extract_lets +onlyGivenNames x; refine Keeps.useThird (x := x) ?_ (fun hx => ?_); subst x; rotate_left; clear_value x)
    | (extract_lets +onlyGivenNames x; have _ := fun a => x a; subst x)
    | (extract_lets +onlyGivenNames x; clear_value x)
    | with_reducible apply Keeps.trans ?_ (Keeps.foldl _ _ ?_)
    | with_reducible apply Keeps.trans ?_ (Keeps.foldl_fst _ _ ?_)
    | with_reducible apply Keeps.trans ?_ (Keeps.foldl_snd _ _ ?_)
    | with_reducible intro _
    | split

theorem keeps_secured {v : Via} {opcode : BitVec 16} {act : State → MbRc × State} {s : State} (h_act : ∀ s, Keeps s (act s).2) : Keeps s (secured v opcode act s) := by
  unfold secured
  repeat' first
    | with_reducible exact Keeps.refl _
    | with_reducible assumption
    | with_reducible apply Keeps.trans ?_ (h_act _ )
    | with_reducible apply Keeps.trans ?_ (Keeps.pair (h_act _ ) (by assumption))
    | with_reducible apply Keeps.trans ?_ (keeps_mbPut)
    | with_reducible apply Keeps.trans ?_ (keeps_onFn)
    | (extract_lets +onlyGivenNames x; refine Keeps.use (x := x) ?_ (fun hx => ?_); subst x; rotate_left; clear_value x)
    | (extract_lets +onlyGivenNames x; refine Keeps.useSnd (x := x) ?_ (fun hx => ?_); subst x; rotate_left; clear_value x)
    | (extract_lets +onlyGivenNames x; refine Keeps.useFst (x := x) ?_ (fun hx => ?_); subst x; rotate_left; clear_value x)
    | (extract_lets +onlyGivenNames x; refine Keeps.useThird (x := x) ?_ (fun hx => ?_); subst x; rotate_left; clear_value x)
    | (extract_lets +onlyGivenNames x; have _ := fun a => x a; subst x)
    | (extract_lets +onlyGivenNames x; clear_value x)
    | with_reducible apply Keeps.trans ?_ (Keeps.foldl _ _ ?_)
    | with_reducible apply Keeps.trans ?_ (Keeps.foldl_fst _ _ ?_)
    | with_reducible apply Keeps.trans ?_ (Keeps.foldl_snd _ _ ?_)
    | with_reducible intro _
    | split

theorem keeps_eraseSlot {b : Bool} {s : State} : Keeps s (eraseSlot b s) := by
  unfold eraseSlot
  repeat' first
    | with_reducible exact Keeps.refl _
    | with_reducible assumption
    | with_reducible apply Keeps.trans ?_ (keeps_onFlash (fun h => h))
    | with_reducible apply Keeps.trans ?_ (keeps_onFlash (by intro h; apply Table.wf_keep; exact h))

theorem keeps_rewriteOpt {activate : Nat} {seq : Option W32} {s : State} : Keeps s (rewriteOpt activate seq s) := by
  unfold rewriteOpt
  extract_lets +onlyGivenNames b s1 s2
  have h1 : Keeps s s1 := keeps_flashWrite
  clear_value s1
  have h2 : Keeps s s2 := h1.trans (keeps_onFlash id)
  clear_value s2
  exact h2.trans (Keeps.of_parts rfl rfl rfl rfl rfl rfl rfl rfl rfl rfl)

theorem keeps_logAnswer {f : Fn} {q : LogAsk} {s : State} : Keeps s (logAnswer f q s) := by
  unfold logAnswer
  repeat' first
    | with_reducible exact Keeps.refl _
    | with_reducible assumption
    | with_reducible apply Keeps.trans ?_ (keeps_mbPut)
    | (extract_lets +onlyGivenNames x; refine Keeps.use (x := x) ?_ (fun hx => ?_); subst x; rotate_left; clear_value x)
    | (extract_lets +onlyGivenNames x; refine Keeps.useSnd (x := x) ?_ (fun hx => ?_); subst x; rotate_left; clear_value x)
    | (extract_lets +onlyGivenNames x; refine Keeps.useFst (x := x) ?_ (fun hx => ?_); subst x; rotate_left; clear_value x)
    | (extract_lets +onlyGivenNames x; refine Keeps.useThird (x := x) ?_ (fun hx => ?_); subst x; rotate_left; clear_value x)
    | (extract_lets +onlyGivenNames x; have _ := fun a => x a; subst x)
    | (extract_lets +onlyGivenNames x; clear_value x)
    | with_reducible apply Keeps.trans ?_ (Keeps.foldl _ _ ?_)
    | with_reducible apply Keeps.trans ?_ (Keeps.foldl_fst _ _ ?_)
    | with_reducible apply Keeps.trans ?_ (Keeps.foldl_snd _ _ ?_)
    | with_reducible intro _
    | split

end Sys2Proof.Machine
end

