-- ==== Sys2Proof/Laws/KeepsExec3.lean ====
section
/-!
SUPPORT. What the commands keep, part 3.
-/
namespace Sys2Proof.Machine

theorem keeps_execIngestRawPart {r : RingId} {n : W32} {j : Nat} {s : State} : Keeps.Out s (execIngestRawPart r n j s) := by
  unfold execIngestRawPart
  repeat' first
    | with_reducible apply Keeps.out
    | with_reducible exact Keeps.refl _
    | with_reducible assumption
    | with_reducible apply Keeps.trans ?_ (keeps_settle)
    | with_reducible apply Keeps.trans ?_ (keeps_beginIngest)
    | (extract_lets +onlyGivenNames x; refine Keeps.useOut (x := x) ?_ (fun hx => ?_); subst x; rotate_left; clear_value x)
    | (extract_lets +onlyGivenNames x; refine Keeps.useOutSnd (x := x) ?_ (fun hx => ?_); subst x; rotate_left; clear_value x)
    | (extract_lets +onlyGivenNames x; refine Keeps.useOutFst (x := x) ?_ (fun hx => ?_); subst x; rotate_left; clear_value x)
    | (extract_lets +onlyGivenNames x; refine Keeps.use (x := x) ?_ (fun hx => ?_); subst x; rotate_left; clear_value x)
    | (extract_lets +onlyGivenNames x; refine Keeps.useSnd (x := x) ?_ (fun hx => ?_); subst x; rotate_left; clear_value x)
    | (extract_lets +onlyGivenNames x; refine Keeps.useFst (x := x) ?_ (fun hx => ?_); subst x; rotate_left; clear_value x)
    | (extract_lets +onlyGivenNames x; refine Keeps.useThird (x := x) ?_ (fun hx => ?_); subst x; rotate_left; clear_value x)
    | (extract_lets +onlyGivenNames x; have _ := fun a => x a; subst x)
    | (extract_lets +onlyGivenNames x; clear_value x)
    | with_reducible apply Keeps.trans ?_ (Keeps.foldl _ _ ?_)
    | with_reducible apply Keeps.trans ?_ (Keeps.foldl_fst _ _ ?_)
    | with_reducible apply Keeps.trans ?_ (Keeps.foldl_snd _ _ ?_)
    | with_reducible intro _
    | split

theorem keeps_execCompressDone {r : RingId} {n : W32} {j : Nat} {s : State} : Keeps.Out s (execCompressDone r n j s) := by
  unfold execCompressDone
  repeat' first
    | with_reducible apply Keeps.out
    | with_reducible exact Keeps.refl _
    | with_reducible assumption
    | with_reducible apply Keeps.trans ?_ (keeps_storeStream)
    | with_reducible apply Keeps.trans ?_ (keeps_rewritten)
    | with_reducible apply Keeps.trans ?_ (keeps_grantComp)
    | with_reducible apply Keeps.trans ?_ (keeps_addCnt)
    | (extract_lets +onlyGivenNames x; refine Keeps.useOut (x := x) ?_ (fun hx => ?_); subst x; rotate_left; clear_value x)
    | (extract_lets +onlyGivenNames x; refine Keeps.useOutSnd (x := x) ?_ (fun hx => ?_); subst x; rotate_left; clear_value x)
    | (extract_lets +onlyGivenNames x; refine Keeps.useOutFst (x := x) ?_ (fun hx => ?_); subst x; rotate_left; clear_value x)
    | (extract_lets +onlyGivenNames x; refine Keeps.use (x := x) ?_ (fun hx => ?_); subst x; rotate_left; clear_value x)
    | (extract_lets +onlyGivenNames x; refine Keeps.useSnd (x := x) ?_ (fun hx => ?_); subst x; rotate_left; clear_value x)
    | (extract_lets +onlyGivenNames x; refine Keeps.useFst (x := x) ?_ (fun hx => ?_); subst x; rotate_left; clear_value x)
    | (extract_lets +onlyGivenNames x; refine Keeps.useThird (x := x) ?_ (fun hx => ?_); subst x; rotate_left; clear_value x)
    | (extract_lets +onlyGivenNames x; have _ := fun a => x a; subst x)
    | (extract_lets +onlyGivenNames x; clear_value x)
    | with_reducible apply Keeps.trans ?_ (Keeps.foldl _ _ ?_)
    | with_reducible apply Keeps.trans ?_ (Keeps.foldl_fst _ _ ?_)
    | with_reducible apply Keeps.trans ?_ (Keeps.foldl_snd _ _ ?_)
    | with_reducible intro _
    | split

theorem keeps_execIngestZhoqPart {r : RingId} {n : W32} {j : Nat} {s : State} : Keeps.Out s (execIngestZhoqPart r n j s) := by
  unfold execIngestZhoqPart
  repeat' first
    | with_reducible apply Keeps.out
    | with_reducible exact Keeps.refl _
    | with_reducible assumption
    | with_reducible apply Keeps.trans ?_ (keeps_settle)
    | with_reducible apply Keeps.trans ?_ (keeps_beginIngest)
    | with_reducible apply Keeps.trans ?_ (Keeps.foldl _ _ ?_)
    | with_reducible apply Keeps.trans ?_ (Keeps.foldl_fst _ _ ?_)
    | with_reducible apply Keeps.trans ?_ (Keeps.foldl_snd _ _ ?_)
    | with_reducible intro _
    | split

theorem keeps_execValidationDone {r : RingId} {n : W32} {j : Nat} {s : State} : Keeps.Out s (execValidationDone r n j s) := by
  unfold execValidationDone
  repeat' first
    | with_reducible apply Keeps.out
    | with_reducible exact Keeps.refl _
    | with_reducible assumption
    | with_reducible apply Keeps.trans ?_ (keeps_grantVal)
    | with_reducible apply Keeps.trans ?_ (keeps_validated)
    | with_reducible apply Keeps.trans ?_ (Keeps.foldl _ _ ?_)
    | with_reducible apply Keeps.trans ?_ (Keeps.foldl_fst _ _ ?_)
    | with_reducible apply Keeps.trans ?_ (Keeps.foldl_snd _ _ ?_)
    | with_reducible intro _
    | split

theorem keeps_execHoldQueueRelease {h : PortId} {s : State} : Keeps.Out s (execHoldQueueRelease h s) := by
  unfold execHoldQueueRelease
  repeat' first
    | with_reducible apply Keeps.out
    | with_reducible exact Keeps.refl _
    | with_reducible assumption
    | with_reducible apply Keeps.trans ?_ (keeps_settle)
    | with_reducible apply Keeps.trans ?_ (keeps_releaseHold)
    | with_reducible apply Keeps.trans ?_ (Keeps.foldl _ _ ?_)
    | with_reducible apply Keeps.trans ?_ (Keeps.foldl_fst _ _ ?_)
    | with_reducible apply Keeps.trans ?_ (Keeps.foldl_snd _ _ ?_)
    | with_reducible intro _
    | split

theorem keeps_execPowerWindow {s : State} : Keeps.Out s (execPowerWindow s) := by
  unfold execPowerWindow
  repeat' first
    | with_reducible apply Keeps.out
    | with_reducible exact Keeps.refl _
    | with_reducible assumption
    | with_reducible apply Keeps.trans ?_ keeps_onMeter
    | (extract_lets +onlyGivenNames x; refine Keeps.useOut (x := x) ?_ (fun hx => ?_); subst x; rotate_left; clear_value x)
    | (extract_lets +onlyGivenNames x; refine Keeps.useOutSnd (x := x) ?_ (fun hx => ?_); subst x; rotate_left; clear_value x)
    | (extract_lets +onlyGivenNames x; refine Keeps.useOutFst (x := x) ?_ (fun hx => ?_); subst x; rotate_left; clear_value x)
    | (extract_lets +onlyGivenNames x; refine Keeps.use (x := x) ?_ (fun hx => ?_); subst x; rotate_left; clear_value x)
    | (extract_lets +onlyGivenNames x; refine Keeps.useSnd (x := x) ?_ (fun hx => ?_); subst x; rotate_left; clear_value x)
    | (extract_lets +onlyGivenNames x; refine Keeps.useFst (x := x) ?_ (fun hx => ?_); subst x; rotate_left; clear_value x)
    | (extract_lets +onlyGivenNames x; refine Keeps.useThird (x := x) ?_ (fun hx => ?_); subst x; rotate_left; clear_value x)
    | (extract_lets +onlyGivenNames x; have _ := fun a => x a; subst x)
    | (extract_lets +onlyGivenNames x; clear_value x)
    | with_reducible apply Keeps.trans ?_ (Keeps.foldl _ _ ?_)
    | with_reducible apply Keeps.trans ?_ (Keeps.foldl_fst _ _ ?_)
    | with_reducible apply Keeps.trans ?_ (Keeps.foldl_snd _ _ ?_)
    | with_reducible apply Keeps.trans ?_ (Keeps.pairFst (Keeps.foldl_fst _ _ ?_) (by assumption))
    | with_reducible apply Keeps.trans ?_ (Keeps.pair (Keeps.foldl_snd _ _ ?_) (by assumption))
    | with_reducible intro _
    | split

theorem keeps_execThrottleDown {s : State} : Keeps.Out s (execThrottleDown s) := by
  unfold execThrottleDown
  repeat' first
    | with_reducible apply Keeps.out
    | with_reducible exact Keeps.refl _
    | with_reducible assumption
    | with_reducible apply Keeps.trans ?_ keeps_onMeter
    | with_reducible apply Keeps.trans ?_ (Keeps.foldl _ _ ?_)
    | with_reducible apply Keeps.trans ?_ (Keeps.foldl_fst _ _ ?_)
    | with_reducible apply Keeps.trans ?_ (Keeps.foldl_snd _ _ ?_)
    | with_reducible intro _
    | split

theorem keeps_execPowerCapExceeded {s : State} : Keeps.Out s (execPowerCapExceeded s) := by
  unfold execPowerCapExceeded
  repeat' first
    | with_reducible apply Keeps.out
    | with_reducible exact Keeps.refl _
    | with_reducible assumption
    | with_reducible apply Keeps.trans ?_ (keeps_raiseTile)
    | with_reducible apply Keeps.trans ?_ keeps_onMeter
    | with_reducible apply Keeps.trans ?_ (Keeps.foldl _ _ ?_)
    | with_reducible apply Keeps.trans ?_ (Keeps.foldl_fst _ _ ?_)
    | with_reducible apply Keeps.trans ?_ (Keeps.foldl_snd _ _ ?_)
    | with_reducible intro _
    | split

theorem keeps_execReevaluationDone {s : State} : Keeps.Out s (execReevaluationDone s) := by
  unfold execReevaluationDone
  repeat' first
    | with_reducible apply Keeps.out
    | with_reducible exact Keeps.refl _
    | with_reducible assumption
    | with_reducible apply Keeps.trans ?_ (keeps_reevaluated)
    | with_reducible apply Keeps.trans ?_ (Keeps.foldl _ _ ?_)
    | with_reducible apply Keeps.trans ?_ (Keeps.foldl_fst _ _ ?_)
    | with_reducible apply Keeps.trans ?_ (Keeps.foldl_snd _ _ ?_)
    | with_reducible intro _
    | split

theorem keeps_execQuiesceComplete {s : State} : Keeps.Out s (execQuiesceComplete s) := by
  unfold execQuiesceComplete
  repeat' first
    | with_reducible apply Keeps.out
    | with_reducible exact Keeps.refl _
    | with_reducible assumption
    | with_reducible apply Keeps.trans ?_ (keeps_onFaults (fun h => h) (fun h => h))
    | with_reducible apply Keeps.trans ?_ (keeps_onFaults (by intro h; first | exact h | rfl | (split <;> first | exact h | rfl)) (by intro h; first | exact h | rfl | (split <;> first | exact h | rfl)))
    | (extract_lets +onlyGivenNames x; refine Keeps.useOut (x := x) ?_ (fun hx => ?_); subst x; rotate_left; clear_value x)
    | (extract_lets +onlyGivenNames x; refine Keeps.useOutSnd (x := x) ?_ (fun hx => ?_); subst x; rotate_left; clear_value x)
    | (extract_lets +onlyGivenNames x; refine Keeps.useOutFst (x := x) ?_ (fun hx => ?_); subst x; rotate_left; clear_value x)
    | (extract_lets +onlyGivenNames x; refine Keeps.use (x := x) ?_ (fun hx => ?_); subst x; rotate_left; clear_value x)
    | (extract_lets +onlyGivenNames x; refine Keeps.useSnd (x := x) ?_ (fun hx => ?_); subst x; rotate_left; clear_value x)
    | (extract_lets +onlyGivenNames x; refine Keeps.useFst (x := x) ?_ (fun hx => ?_); subst x; rotate_left; clear_value x)
    | (extract_lets +onlyGivenNames x; refine Keeps.useThird (x := x) ?_ (fun hx => ?_); subst x; rotate_left; clear_value x)
    | (extract_lets +onlyGivenNames x; have _ := fun a => x a; subst x)
    | (extract_lets +onlyGivenNames x; clear_value x)
    | with_reducible apply Keeps.trans ?_ (Keeps.foldl _ _ ?_)
    | with_reducible apply Keeps.trans ?_ (Keeps.foldl_fst _ _ ?_)
    | with_reducible apply Keeps.trans ?_ (Keeps.foldl_snd _ _ ?_)
    | with_reducible intro _
    | split

theorem keeps_execRdShared {src : TileId} {line : LineAddr} {tied : List TileId} {s : State} : Keeps.Out s (execRdShared src line tied s) := by
  unfold execRdShared
  repeat' first
    | with_reducible apply Keeps.out
    | with_reducible exact Keeps.refl _
    | with_reducible assumption
    | with_reducible apply Keeps.trans ?_ (keeps_onReq)

theorem keeps_execRdOwn {src : TileId} {line : LineAddr} {tied : List TileId} {s : State} : Keeps.Out s (execRdOwn src line tied s) := by
  unfold execRdOwn
  repeat' first
    | with_reducible apply Keeps.out
    | with_reducible exact Keeps.refl _
    | with_reducible assumption
    | with_reducible apply Keeps.trans ?_ (keeps_onReq)

theorem keeps_execRdCur {src : TileId} {line : LineAddr} {tied : List TileId} {s : State} : Keeps.Out s (execRdCur src line tied s) := by
  unfold execRdCur
  repeat' first
    | with_reducible apply Keeps.out
    | with_reducible exact Keeps.refl _
    | with_reducible assumption
    | with_reducible apply Keeps.trans ?_ (keeps_onReq)

theorem keeps_execWrLine {src : TileId} {line : LineAddr} {tied : List TileId} {s : State} : Keeps.Out s (execWrLine src line tied s) := by
  unfold execWrLine
  repeat' first
    | with_reducible apply Keeps.out
    | with_reducible exact Keeps.refl _
    | with_reducible assumption
    | with_reducible apply Keeps.trans ?_ (keeps_onReq)

theorem keeps_execWrPart {src : TileId} {line : LineAddr} {tied : List TileId} {s : State} : Keeps.Out s (execWrPart src line tied s) := by
  unfold execWrPart
  repeat' first
    | with_reducible apply Keeps.out
    | with_reducible exact Keeps.refl _
    | with_reducible assumption
    | with_reducible apply Keeps.trans ?_ (keeps_onReq)

theorem keeps_execHostCe {src : TileId} {line : LineAddr} {tied : List TileId} {s : State} : Keeps.Out s (execHostCe src line tied s) := by
  unfold execHostCe
  repeat' first
    | with_reducible apply Keeps.out
    | with_reducible exact Keeps.refl _
    | with_reducible assumption
    | with_reducible apply Keeps.trans ?_ (keeps_onReq)

theorem keeps_execFarAtom {src : TileId} {line : LineAddr} {tied : List TileId} {s : State} : Keeps.Out s (execFarAtom src line tied s) := by
  unfold execFarAtom
  repeat' first
    | with_reducible apply Keeps.out
    | with_reducible exact Keeps.refl _
    | with_reducible assumption
    | with_reducible apply Keeps.trans ?_ (keeps_onReq)

theorem keeps_execSnpInv {t home : TileId} {s : State} : Keeps.Out s (execSnpInv t home s) := by
  unfold execSnpInv
  repeat' first
    | with_reducible apply Keeps.out
    | with_reducible exact Keeps.refl _
    | with_reducible assumption
    | with_reducible apply Keeps.trans ?_ (keeps_onHom ?_)
    | with_reducible apply Keeps.trans ?_ (keeps_snoop)
    | with_reducible apply Keeps.trans ?_ (Keeps.foldl _ _ ?_)
    | with_reducible apply Keeps.trans ?_ (Keeps.foldl_fst _ _ ?_)
    | with_reducible apply Keeps.trans ?_ (Keeps.foldl_snd _ _ ?_)
    | with_reducible intro _

theorem keeps_execSnpShare {t home : TileId} {s : State} : Keeps.Out s (execSnpShare t home s) := by
  unfold execSnpShare
  repeat' first
    | with_reducible apply Keeps.out
    | with_reducible exact Keeps.refl _
    | with_reducible assumption
    | with_reducible apply Keeps.trans ?_ (keeps_onHom ?_)
    | with_reducible apply Keeps.trans ?_ (keeps_snoop)
    | with_reducible apply Keeps.trans ?_ (Keeps.foldl _ _ ?_)
    | with_reducible apply Keeps.trans ?_ (Keeps.foldl_fst _ _ ?_)
    | with_reducible apply Keeps.trans ?_ (Keeps.foldl_snd _ _ ?_)
    | with_reducible intro _

theorem keeps_execSnpOwn {t home : TileId} {s : State} : Keeps.Out s (execSnpOwn t home s) := by
  unfold execSnpOwn
  repeat' first
    | with_reducible apply Keeps.out
    | with_reducible exact Keeps.refl _
    | with_reducible assumption
    | with_reducible apply Keeps.trans ?_ (keeps_onHom ?_)
    | with_reducible apply Keeps.trans ?_ (keeps_snoop)
    | with_reducible apply Keeps.trans ?_ (Keeps.foldl _ _ ?_)
    | with_reducible apply Keeps.trans ?_ (Keeps.foldl_fst _ _ ?_)
    | with_reducible apply Keeps.trans ?_ (Keeps.foldl_snd _ _ ?_)
    | with_reducible intro _

theorem keeps_execSnpCur {t home : TileId} {s : State} : Keeps.Out s (execSnpCur t home s) := by
  unfold execSnpCur
  repeat' first
    | with_reducible apply Keeps.out
    | with_reducible exact Keeps.refl _
    | with_reducible assumption
    | with_reducible apply Keeps.trans ?_ (keeps_onHom ?_)
    | with_reducible apply Keeps.trans ?_ (keeps_snoop)
    | with_reducible apply Keeps.trans ?_ (Keeps.foldl _ _ ?_)
    | with_reducible apply Keeps.trans ?_ (Keeps.foldl_fst _ _ ?_)
    | with_reducible apply Keeps.trans ?_ (Keeps.foldl_snd _ _ ?_)
    | with_reducible intro _

theorem keeps_execDatS {t home : TileId} {s : State} : Keeps.Out s (execDatS t home s) := by
  unfold execDatS
  repeat' first
    | with_reducible apply Keeps.out
    | with_reducible exact Keeps.refl _
    | with_reducible assumption
    | with_reducible apply Keeps.trans ?_ (keeps_onHom ?_)
    | with_reducible apply Keeps.trans ?_ (keeps_homMsg)
    | with_reducible apply Keeps.trans ?_ (Keeps.foldl _ _ ?_)
    | with_reducible apply Keeps.trans ?_ (Keeps.foldl_fst _ _ ?_)
    | with_reducible apply Keeps.trans ?_ (Keeps.foldl_snd _ _ ?_)
    | with_reducible intro _

theorem keeps_execDatE {t home : TileId} {s : State} : Keeps.Out s (execDatE t home s) := by
  unfold execDatE
  repeat' first
    | with_reducible apply Keeps.out
    | with_reducible exact Keeps.refl _
    | with_reducible assumption
    | with_reducible apply Keeps.trans ?_ (keeps_onHom ?_)
    | with_reducible apply Keeps.trans ?_ (keeps_homMsg)
    | with_reducible apply Keeps.trans ?_ (Keeps.foldl _ _ ?_)
    | with_reducible apply Keeps.trans ?_ (Keeps.foldl_fst _ _ ?_)
    | with_reducible apply Keeps.trans ?_ (Keeps.foldl_snd _ _ ?_)
    | with_reducible intro _

theorem keeps_execDatX {t home : TileId} {s : State} : Keeps.Out s (execDatX t home s) := by
  unfold execDatX
  repeat' first
    | with_reducible apply Keeps.out
    | with_reducible exact Keeps.refl _
    | with_reducible assumption
    | with_reducible apply Keeps.trans ?_ (keeps_onHom ?_)
    | with_reducible apply Keeps.trans ?_ (keeps_homMsg)
    | with_reducible apply Keeps.trans ?_ (Keeps.foldl _ _ ?_)
    | with_reducible apply Keeps.trans ?_ (Keeps.foldl_fst _ _ ?_)
    | with_reducible apply Keeps.trans ?_ (Keeps.foldl_snd _ _ ?_)
    | with_reducible intro _

theorem keeps_execGrant {t home : TileId} {s : State} : Keeps.Out s (execGrant t home s) := by
  unfold execGrant
  repeat' first
    | with_reducible apply Keeps.out
    | with_reducible exact Keeps.refl _
    | with_reducible assumption
    | with_reducible apply Keeps.trans ?_ (keeps_onHom ?_)
    | with_reducible apply Keeps.trans ?_ (keeps_homMsg)
    | with_reducible apply Keeps.trans ?_ (Keeps.foldl _ _ ?_)
    | with_reducible apply Keeps.trans ?_ (Keeps.foldl_fst _ _ ?_)
    | with_reducible apply Keeps.trans ?_ (Keeps.foldl_snd _ _ ?_)
    | with_reducible intro _

theorem keeps_execFwdNote {t home : TileId} {s : State} : Keeps.Out s (execFwdNote t home s) := by
  unfold execFwdNote
  repeat' first
    | with_reducible apply Keeps.out
    | with_reducible exact Keeps.refl _
    | with_reducible assumption
    | with_reducible apply Keeps.trans ?_ (keeps_onHom ?_)
    | with_reducible apply Keeps.trans ?_ (keeps_homMsg)
    | with_reducible apply Keeps.trans ?_ (Keeps.foldl _ _ ?_)
    | with_reducible apply Keeps.trans ?_ (Keeps.foldl_fst _ _ ?_)
    | with_reducible apply Keeps.trans ?_ (Keeps.foldl_snd _ _ ?_)
    | with_reducible intro _

theorem keeps_execWbAck {t home : TileId} {s : State} : Keeps.Out s (execWbAck t home s) := by
  unfold execWbAck
  repeat' first
    | with_reducible apply Keeps.out
    | with_reducible exact Keeps.refl _
    | with_reducible assumption
    | with_reducible apply Keeps.trans ?_ (keeps_onHom ?_)
    | with_reducible apply Keeps.trans ?_ (keeps_homMsg)
    | with_reducible apply Keeps.trans ?_ (Keeps.foldl _ _ ?_)
    | with_reducible apply Keeps.trans ?_ (Keeps.foldl_fst _ _ ?_)
    | with_reducible apply Keeps.trans ?_ (Keeps.foldl_snd _ _ ?_)
    | with_reducible intro _

theorem keeps_execCmp {t home : TileId} {s : State} : Keeps.Out s (execCmp t home s) := by
  unfold execCmp
  repeat' first
    | with_reducible apply Keeps.out
    | with_reducible exact Keeps.refl _
    | with_reducible assumption
    | with_reducible apply Keeps.trans ?_ (keeps_onHom ?_)
    | with_reducible apply Keeps.trans ?_ (keeps_cmpMsg)
    | with_reducible apply Keeps.trans ?_ (Keeps.foldl _ _ ?_)
    | with_reducible apply Keeps.trans ?_ (Keeps.foldl_fst _ _ ?_)
    | with_reducible apply Keeps.trans ?_ (Keeps.foldl_snd _ _ ?_)
    | with_reducible intro _

theorem keeps_execBiSnpReq {t home : TileId} {s : State} : Keeps.Out s (execBiSnpReq t home s) := by
  unfold execBiSnpReq
  repeat' first
    | with_reducible apply Keeps.out
    | with_reducible exact Keeps.refl _
    | with_reducible assumption
    | with_reducible apply Keeps.trans ?_ (keeps_onHom ?_)
    | with_reducible apply Keeps.trans ?_ (keeps_biSnpMsg)
    | with_reducible apply Keeps.trans ?_ (Keeps.foldl _ _ ?_)
    | with_reducible apply Keeps.trans ?_ (Keeps.foldl_fst _ _ ?_)
    | with_reducible apply Keeps.trans ?_ (Keeps.foldl_snd _ _ ?_)
    | with_reducible intro _

theorem keeps_execBiAckReq {t home : TileId} {s : State} : Keeps.Out s (execBiAckReq t home s) := by
  unfold execBiAckReq
  repeat' first
    | with_reducible apply Keeps.out
    | with_reducible exact Keeps.refl _
    | with_reducible assumption
    | with_reducible apply Keeps.trans ?_ (keeps_onHom ?_)
    | with_reducible apply Keeps.trans ?_ (keeps_biAckMsg)
    | with_reducible apply Keeps.trans ?_ (Keeps.foldl _ _ ?_)
    | with_reducible apply Keeps.trans ?_ (Keeps.foldl_fst _ _ ?_)
    | with_reducible apply Keeps.trans ?_ (Keeps.foldl_snd _ _ ?_)
    | with_reducible intro _

theorem keeps_execAtomRes {t home : TileId} {s : State} : Keeps.Out s (execAtomRes t home s) := by
  unfold execAtomRes
  repeat' first
    | with_reducible apply Keeps.out
    | with_reducible exact Keeps.refl _
    | with_reducible assumption
    | with_reducible apply Keeps.trans ?_ (keeps_onHom ?_)
    | with_reducible apply Keeps.trans ?_ (keeps_homMsg)
    | with_reducible apply Keeps.trans ?_ (Keeps.foldl _ _ ?_)
    | with_reducible apply Keeps.trans ?_ (Keeps.foldl_fst _ _ ?_)
    | with_reducible apply Keeps.trans ?_ (Keeps.foldl_snd _ _ ?_)
    | with_reducible intro _

theorem keeps_execSnpRspI {t home : TileId} {s : State} : Keeps.Out s (execSnpRspI t home s) := by
  unfold execSnpRspI
  repeat' first
    | with_reducible apply Keeps.out
    | with_reducible exact Keeps.refl _
    | with_reducible assumption
    | with_reducible apply Keeps.trans ?_ (keeps_onRsp ?_)
    | with_reducible apply Keeps.trans ?_ (keeps_snoopAnswer)
    | with_reducible apply Keeps.trans ?_ (Keeps.foldl _ _ ?_)
    | with_reducible apply Keeps.trans ?_ (Keeps.foldl_fst _ _ ?_)
    | with_reducible apply Keeps.trans ?_ (Keeps.foldl_snd _ _ ?_)
    | with_reducible intro _

theorem keeps_execSnpRspIData {t home : TileId} {s : State} : Keeps.Out s (execSnpRspIData t home s) := by
  unfold execSnpRspIData
  repeat' first
    | with_reducible apply Keeps.out
    | with_reducible exact Keeps.refl _
    | with_reducible assumption
    | with_reducible apply Keeps.trans ?_ (keeps_onRsp ?_)
    | with_reducible apply Keeps.trans ?_ (keeps_snoopAnswer)
    | with_reducible apply Keeps.trans ?_ (Keeps.foldl _ _ ?_)
    | with_reducible apply Keeps.trans ?_ (Keeps.foldl_fst _ _ ?_)
    | with_reducible apply Keeps.trans ?_ (Keeps.foldl_snd _ _ ?_)
    | with_reducible intro _

theorem keeps_execSnpRspFwd {t home : TileId} {s : State} : Keeps.Out s (execSnpRspFwd t home s) := by
  unfold execSnpRspFwd
  repeat' first
    | with_reducible apply Keeps.out
    | with_reducible exact Keeps.refl _
    | with_reducible assumption
    | with_reducible apply Keeps.trans ?_ (keeps_onRsp ?_)
    | with_reducible apply Keeps.trans ?_ (keeps_snoopAnswer)
    | with_reducible apply Keeps.trans ?_ (Keeps.foldl _ _ ?_)
    | with_reducible apply Keeps.trans ?_ (Keeps.foldl_fst _ _ ?_)
    | with_reducible apply Keeps.trans ?_ (Keeps.foldl_snd _ _ ?_)
    | with_reducible intro _

theorem keeps_execSnpRspFwdS {t home : TileId} {s : State} : Keeps.Out s (execSnpRspFwdS t home s) := by
  unfold execSnpRspFwdS
  repeat' first
    | with_reducible apply Keeps.out
    | with_reducible exact Keeps.refl _
    | with_reducible assumption
    | with_reducible apply Keeps.trans ?_ (keeps_onRsp ?_)
    | with_reducible apply Keeps.trans ?_ (keeps_snoopAnswer)
    | with_reducible apply Keeps.trans ?_ (Keeps.foldl _ _ ?_)
    | with_reducible apply Keeps.trans ?_ (Keeps.foldl_fst _ _ ?_)
    | with_reducible apply Keeps.trans ?_ (Keeps.foldl_snd _ _ ?_)
    | with_reducible intro _

theorem keeps_execWbData {t home : TileId} {s : State} : Keeps.Out s (execWbData t home s) := by
  unfold execWbData
  repeat' first
    | with_reducible apply Keeps.out
    | with_reducible exact Keeps.refl _
    | with_reducible assumption
    | with_reducible apply Keeps.trans ?_ (keeps_onRsp ?_)
    | with_reducible apply Keeps.trans ?_ (keeps_wbArrive)
    | with_reducible apply Keeps.trans ?_ (Keeps.foldl _ _ ?_)
    | with_reducible apply Keeps.trans ?_ (Keeps.foldl_fst _ _ ?_)
    | with_reducible apply Keeps.trans ?_ (Keeps.foldl_snd _ _ ?_)
    | with_reducible intro _

theorem keeps_execBiRspFwd {t home : TileId} {s : State} : Keeps.Out s (execBiRspFwd t home s) := by
  unfold execBiRspFwd
  repeat' first
    | with_reducible apply Keeps.out
    | with_reducible exact Keeps.refl _
    | with_reducible assumption
    | with_reducible apply Keeps.trans ?_ (keeps_onRsp ?_)
    | with_reducible apply Keeps.trans ?_ (keeps_biRspArrive)
    | with_reducible apply Keeps.trans ?_ (Keeps.foldl _ _ ?_)
    | with_reducible apply Keeps.trans ?_ (Keeps.foldl_fst _ _ ?_)
    | with_reducible apply Keeps.trans ?_ (Keeps.foldl_snd _ _ ?_)
    | with_reducible intro _

theorem keeps_execHostWb {t home : TileId} {s : State} : Keeps.Out s (execHostWb t home s) := by
  unfold execHostWb
  repeat' first
    | with_reducible apply Keeps.out
    | with_reducible exact Keeps.refl _
    | with_reducible assumption
    | with_reducible apply Keeps.trans ?_ (keeps_onRsp ?_)
    | with_reducible apply Keeps.trans ?_ (keeps_hostWbArrive)
    | with_reducible apply Keeps.trans ?_ (Keeps.foldl _ _ ?_)
    | with_reducible apply Keeps.trans ?_ (Keeps.foldl_fst _ _ ?_)
    | with_reducible apply Keeps.trans ?_ (Keeps.foldl_snd _ _ ?_)
    | with_reducible intro _

theorem keeps_execBiConflictFwd {t home : TileId} {s : State} : Keeps.Out s (execBiConflictFwd t home s) := by
  unfold execBiConflictFwd
  repeat' first
    | with_reducible apply Keeps.out
    | with_reducible exact Keeps.refl _
    | with_reducible assumption
    | with_reducible apply Keeps.trans ?_ (keeps_onRsp ?_)
    | with_reducible apply Keeps.trans ?_ (keeps_biConflictArrive)
    | with_reducible apply Keeps.trans ?_ (Keeps.foldl _ _ ?_)
    | with_reducible apply Keeps.trans ?_ (Keeps.foldl_fst _ _ ?_)
    | with_reducible apply Keeps.trans ?_ (Keeps.foldl_snd _ _ ?_)
    | with_reducible intro _

theorem keeps_execFdatS {t : TileId} {line : LineAddr} {s : State} : Keeps.Out s (execFdatS t line s) := by
  unfold execFdatS
  repeat' first
    | with_reducible apply Keeps.out
    | with_reducible exact Keeps.refl _
    | with_reducible assumption
    | with_reducible apply Keeps.trans ?_ (keeps_onFwd)

end Sys2Proof.Machine
end

