-- ==== Sys2Proof/Laws/KeepsExec9.lean ====
section
/-!
SUPPORT. What the commands keep, part 9.
-/
namespace Sys2Proof.Machine

theorem keeps_execBypass {id : Byte} {s : State} : Keeps.Out s (execBypass id s) := by
  unfold execBypass
  repeat' first
    | with_reducible apply Keeps.out
    | with_reducible exact Keeps.refl _
    | with_reducible assumption
    | with_reducible apply Keeps.trans ?_ (keeps_tapBypass)

end Sys2Proof.Machine
end

