-- ==== Sys2Proof/Machine/BallMap.lean ====
section
/-!
DEFINITION. The package: ball names (R15), the ball map (R442–R451), the ordering code (R453), and the ratings, power and service life that chapter 18
states as tables of numbers (R431, R432, R437, R441). Nothing of it is state.
-/
namespace Sys2Proof.Machine

/-- The letters of ball rows (R15). -/
def rowLetters : List Char := ['A', 'B', 'C', 'D', 'E', 'F', 'G', 'H', 'J', 'K', 'L', 'M', 'N', 'P', 'T', 'U', 'V', 'W', 'Y']

def rowLetter (n : Nat) : Char := rowLetters.getD (n - 1) '?'

/-- The name of row `r`, 1 to 130 (R15, R442). -/
def rowName (r : Nat) : String := if r < 20 then String.ofList [rowLetter r] else String.ofList [rowLetter ((r - 20) / 19 + 1), rowLetter ((r - 20) % 19 + 1)]

/-- The name of a ball (R15). -/
def ballName (r c : Nat) : String := rowName r ++ toString c

/-- Centre of a ball from the A1 edges, in tenths of a mm: along the row, and across the rows (R442). -/
def ballCentre (r c : Nat) : Nat × Nat := (34 + 8 * (c - 1), 34 + 8 * (r - 1))

/-- The net of a ball, by device-wide sub-channel, DIMM channel, link, port, tile and eFuse channel. -/
inductive Net where
  | vss | vddCore | vddSram | vddPhy | vddqDdr | vddAux
  | dq (d lane : Nat) | dqsT (d v : Nat) | dqsC (d v : Nat) | dca (d k : Nat) | dpar (d : Nat) | dcsN (d k : Nat) | dckT (d : Nat) | dckC (d : Nat)
  | alertN (t c : Nat) | ddrResetN (t c : Nat) | scl (t c : Nat) | sda (t c : Nat)
  | nlTxP (n : Nat) | nlTxN (n : Nat) | nlRxP (n : Nat) | nlRxN (n : Nat)
  | txP (p lane : Nat) | txN (p lane : Nat) | rxP (p lane : Nat) | rxN (p lane : Nat) | perstN (p : Nat)
  | refclkP (t : Nat) | refclkN (t : Nat) | thermA (t : Nat) | thermK (t : Nat)
  | xspiIo (k : Nat) | xspiSck | xspiCsN | xspiDqs | xspiRstN | bmcScl | bmcSda | tck | tms | tdi | tdo | trstN
  | resetN | midnightN | replaceN
  | trailEn (t k : Nat) | trailPg (t k : Nat) | efSnsP (e : Nat) | efSnsN (e : Nat) | efGate (e : Nat) | efOut (e : Nat) | efNtc (e : Nat)
  | vinA | vinB | orGateA | orGateB | orNtcA | orNtcB | orNode | hsSnsP | hsSnsN | hsGate | hsOut | hsNtc | ibcEn | ibcPg | presentN (i : Nat)
  /-- A ball of an empty slot that is not VSS (R451). -/
  | notConnected
deriving DecidableEq, Repr

/-- Slot of a tile (R444): 4y + x. -/
def slotOfTile (n t : Nat) : Nat := let w := if n = 8 then 4 else 2; 4 * (t / w) + t % w

/-- The tile in a slot of a member of `n` tiles. -/
def tileInSlot (n slot : Nat) : Option Nat := (List.range n).find? (fun t => slotOfTile n t = slot)

/-- DQS balls: index 2v is DQS_t of device v, 2v + 1 its DQS_c (R446). -/
def dqsNet (d m : Nat) : Net := if m % 2 = 0 then .dqsT d (m / 2) else .dqsC d (m / 2)

/-- A DDR5 channel group's ball (R446): tile, DIMM channel, group row and column. -/
def ddrNet (t c gr gc : Nat) : Net :=
  let half := (gr - 1) / 10
  let d := 16 * t + 2 * c + half
  let r := (gr - 1) % 10 + 1
  let k := gc - 1
  if r ≤ 5 then .dq d (8 * (r - 1) + k)
  else if r ≤ 7 then dqsNet d (8 * (r - 6) + k)
  else if r = 8 then (if k < 4 then dqsNet d (16 + k) else if k % 2 = 0 then .vddqDdr else .vss)
  else if r = 9 then (if k < 7 then .dca d k else .dpar d)
  else match k with
    | 0 => .dcsN d 0
    | 1 => .dcsN d 1
    | 2 => .dckT d
    | 3 => .dckC d
    | 4 => if half = 0 then .alertN t c else .scl t c
    | 5 => if half = 0 then .ddrResetN t c else .sda t c
    | 6 => .vddqDdr
    | _ => .vss

/-- An N-link quad's ball (R447): quad `i` of tile `t`. -/
def nlNet (t i gr gc : Nat) : Net :=
  let n := 40 * t + 4 * i + (gc - 1)
  match gr with
  | 1 => .nlTxP n
  | 2 => .nlTxN n
  | 5 => .nlRxP n
  | 6 => .nlRxN n
  | _ => .vss

/-- A host quad's ball (R448). -/
def hostNet (t i gr gc : Nat) : Net :=
  if gc ≤ 4 then
    let p := 8 * t + 4 * i + gc - 1
    let lane := (gr - 1) / 4
    match (gr - 1) % 4 with
    | 0 => .txP p lane
    | 1 => .txN p lane
    | 2 => .rxP p lane
    | _ => .rxN p lane
  else if gc = 5 ∨ gr ≤ 12 then .vss
  else .perstN (8 * t + 4 * i + (gr - 12) - 1)

/-- A power block's ball (R449). -/
def powerNet (t i gr gc : Nat) : Net :=
  match gr with
  | 1 => if i = 3 then (match gc with | 1 => .refclkP t | 2 => .refclkN t | 3 => .thermA t | 4 => .thermK t | _ => .vss) else .vss
  | 2 | 3 => .vddCore
  | 4 => .vss
  | 5 => if gc ≤ 6 then .vddCore else .vddAux
  | 6 => if gc ≤ 6 then .vddSram else .vss
  | _ => .vddPhy

/-- The ball at tile row and column of a tile region (R445). -/
def regionNet (t rr cc : Nat) : Net :=
  let r := rr - 1
  let c := cc - 1
  if rr ≤ 40 then ddrNet t (4 * (r / 20) + c / 8) (r % 20 + 1) (c % 8 + 1)
  else if rr ≤ 56 then
    if cc ≤ 20 then nlNet t (5 * ((r - 40) / 8) + c / 4) ((r - 40) % 8 + 1) (c % 4 + 1)
    else hostNet t ((c - 20) / 6) (r - 40 + 1) ((c - 20) % 6 + 1)
  else powerNet t (c / 8) (r - 56 + 1) (c % 8 + 1)

/-- Rows CH and CJ of the SV band in columns 98–129 (R450). -/
def feedNet (cj : Bool) (c : Nat) : Net :=
  match cj, c with
  | false, 100 | false, 102 | false, 104 | false, 106 => .vinA
  | false, 108 => .orGateA
  | false, 110 => .orNtcA
  | false, 112 => .orNode
  | false, 114 => .hsSnsP
  | false, 116 => .hsGate
  | false, 118 => .hsOut
  | false, 120 => .hsNtc
  | false, 122 => .ibcEn
  | false, 124 => .presentN 0
  | true, 101 | true, 103 | true, 105 | true, 107 => .vinB
  | true, 109 => .orGateB
  | true, 111 => .orNtcB
  | true, 113 => .orNode
  | true, 115 => .hsSnsN
  | true, 119 => .hsOut
  | true, 123 => .ibcPg
  | true, 125 => .presentN 1
  | _, _ => .vss

/-- The SV band (R450): band row 0–3 for CG, CH, CJ and CK, columns 2–129. -/
def bandNet (b c : Nat) : Net :=
  let list (l : List Net) (i : Nat) : Net := l.getD i .vss
  if c < 10 then
    match b with
    | 0 => .xspiIo (c - 2)
    | 1 => list [.xspiSck, .xspiCsN, .xspiDqs, .xspiRstN, .vss, .bmcScl, .bmcSda] (c - 2)
    | 2 => list [.tck, .tms, .tdi, .tdo, .trstN] (c - 2)
    | _ => list [.resetN, .midnightN, .replaceN] (c - 2)
  else if c < 34 then
    let t := (c - 10) / 3
    let k := (c - 10) % 3
    match b with
    | 0 => .trailEn t k
    | 1 => if k < 2 then .trailEn t (3 + k) else .vss
    | 2 => .trailPg t k
    | _ => if k < 2 then .trailPg t (3 + k) else .vss
  else if c < 98 then
    let e := (c - 34) / 2
    let first := (c - 34) % 2 = 0
    match b with
    | 0 => if first then .efSnsP e else .vss
    | 1 => if first then .efSnsN e else .vss
    | 2 => if first then .efGate e else .vss
    | _ => if first then .efOut e else .efNtc e
  else if b = 1 ∨ b = 2 then feedNet (decide (b = 2)) c
  else .vss

/-- Slot, tile row and tile column of a ball in a tile region (R443, R444). -/
def slotAt (r c : Nat) : Nat × Nat × Nat := ((c - 2) / 32 + (if r ≤ 63 then 0 else 4), if r ≤ 63 then r else 131 - r, (c - 2) % 32 + 1)

/-- The net of ball (r, c) on a member of `n` tiles (R442–R451). -/
def netAt (n r c : Nat) : Net :=
  if c ≤ 1 ∨ 130 ≤ c then .vss
  else if 64 ≤ r ∧ r ≤ 67 then bandNet (r - 64) c
  else
    let (slot, rr, cc) := slotAt r c
    match tileInSlot n slot with
    | some t => regionNet t rr cc
    | none => if regionNet slot rr cc = .vss then .vss else .notConnected

/-- The ordering code (R453): member, silicon revision A1, fuse-map identifier in two hexadecimal digits. -/
def orderingCode (s : State) : String :=
  let hex (k : Nat) : Char := ("0123456789ABCDEF".toList).getD k '?'
  "PRL" ++ toString (tiles s) ++ "-A1-" ++ String.ofList [hex (s.fuse.id.toNat / 16), hex (s.fuse.id.toNat % 16)]

/-! Tables of chapter 18. -/

/-- A tile rail in the order of R373, with its nominal voltage and R432's limits, in mV, and R431's absolute maximum in mV. -/
structure RailRating where
  nominal : Nat
  low : Nat
  high : Nat
  absMax : Nat
deriving DecidableEq, Repr

def railRating : Fin 5 → RailRating
  | 0 => ⟨1800, 1710, 1890, 2100⟩
  | 1 => ⟨750, 731, 769, 950⟩
  | 2 => ⟨850, 824, 876, 1050⟩
  | 3 => ⟨900, 873, 927, 1100⟩
  | 4 => ⟨1100, 1067, 1133, 1400⟩

/-- Power of a rail per tile (R437): typical W, maximum W, maximum current in 0.1 A, balls. -/
def railPower : Fin 5 → Nat × Nat × Nat × Nat
  | 0 => (2, 2, 11, 8)
  | 1 => (36, 54, 720, 88)
  | 2 => (10, 13, 153, 24)
  | 3 => (12, 18, 200, 32)
  | 4 => (7, 10, 91, 48)

/-- Package power of a member, typical and maximum, in W: its tiles and SV (R437). -/
def packagePower (n : Nat) : Nat × Nat := (67 * n + 4, 97 * n + 4)

/-- Service life in years by the time-weighted average junction temperature in °C (R441); none above 105 °C, outside R432. -/
def serviceYears (avg : Nat) : Option Nat := if avg ≤ 95 then some 20 else if avg ≤ 100 then some 14 else if avg ≤ 105 then some 10 else none

end Sys2Proof.Machine
end

