-- ==== Sys2Proof/Machine/Balls.lean ====
section
/-!
DEFINITION. The states that the balls take around Dawn (R339), as a view of the block's state.
-/
namespace Sys2Proof.Machine

/-- A ball group of R339. A tile's balls carry their port, DIMM channel or N-link. -/
inductive Ball where
  | hostTx (p : PortId) | hostRx (p : PortId) | perstN (p : PortId) | refclk (p : PortId)
  | ddrCk (t : TileId) (c : DimmId) | ddrCsN (t : TileId) (c : DimmId) | ddrCa (t : TileId) (c : DimmId) | ddrDq (t : TileId) (c : DimmId)
  | ddrResetN (t : TileId) (c : DimmId) | dimmBus (t : TileId) (c : DimmId)
  | nlinkTx (n : LinkId) | nlinkRx (n : LinkId)
  | xspiRstN | xspiCsN | xspiSck | xspiIo
  | bmc | tck | trstN | tdo
  | resetN | midnightN | replaceN | sv
deriving DecidableEq, Repr

/-- What R339 says of a ball. -/
inductive BallState where
  /-- The tile's rails are not good. -/
  | unpowered
  | electricalIdle | training
  /-- Per link state: the link is up. -/
  | linkUp
  | highImpedance | terminated
  /-- An input, with its internal pull in kΩ: up, down or none. -/
  | inputUp (k : Nat) | inputDown (k : Nat) | input
  /-- Stopped: true leg low, complement high. -/
  | clockStopped
  | clockRunning
  | high | low
  /-- Driven as the commands, transfers or polls of its controller need. -/
  | active
  /-- An I3C target answers. -/
  | i3cTarget
  /-- Open drain, not driven. -/
  | released
  /-- A ball of SV, which RESET_N does not reach. -/
  | svOwn
deriving DecidableEq, Repr

/-- A tile is in reset (R336, R337). -/
def inReset (s : State) : Bool := !running s

/-- Before Dawn 4 the DRAM balls keep their states of reset (R339). -/
def dramHeld (s : State) : Bool := inReset s || decide (s.dawn.stage < 4)

def dimmBall (s : State) (t c : Nat) : Ball → BallState
  | .ddrCk .. => if dramHeld s || inDusk s (16 * t + 2 * c) then .clockStopped else .clockRunning
  | .ddrCsN .. => if dramHeld s then .high else .active
  | .ddrCa .. => if dramHeld s then .low else .active
  | .ddrDq .. => if dramHeld s then .highImpedance else .active
  | .ddrResetN .. => if dramHeld s then .low else .high
  | _ => if dramHeld s then .highImpedance else .active

def portBall (s : State) (p : Nat) : Ball → BallState
  | .hostTx _ =>
    let x := getPort s (headOf s p)
    if inReset s || decide (s.dawn.stage < 1) then .electricalIdle else if x.up then .linkUp else if x.training then .training else .electricalIdle
  | .hostRx _ => if inReset s || decide (s.dawn.stage < 1) then .highImpedance else .terminated
  | .perstN _ => if s.fuse.id = 0x03#8 then .input else .inputDown 20
  | _ => .terminated

/-- The state of a ball (R338, R339). -/
def ballState (s : State) (b : Ball) : BallState :=
  let on (t : Nat) (x : BallState) : BallState := if s.rst.por || !s.sv.tilesGood.getLsbD t then .unpowered else x
  match b with
  | .hostTx p | .hostRx p | .perstN p | .refclk p => on (portTile p.val) (portBall s p.val b)
  | .ddrCk t c | .ddrCsN t c | .ddrCa t c | .ddrDq t c | .ddrResetN t c | .dimmBus t c => on t.val (dimmBall s t.val c.val b)
  | .nlinkTx n => on (n.val / 40) (if dramHeld s then .electricalIdle else match (getLink s n.val).st with
      | .active | .spare | .rebuilding => .linkUp
      | .training => .training
      | _ => .electricalIdle)
  | .nlinkRx n => on (n.val / 40) .terminated
  | .xspiRstN => on 0 (if inReset s || decide (s.dawn.stage < 1) then .low else .high)
  | .xspiCsN => on 0 (if inReset s then .high else .active)
  | .xspiSck => on 0 (if inReset s then .low else .active)
  | .xspiIo => on 0 (if inReset s then .inputUp 50 else .active)
  | .bmc => on 0 (if primaryRuns s then .i3cTarget else .highImpedance)
  | .tck => on 0 (.inputUp 50)
  | .trstN => on 0 (.inputDown 50)
  | .tdo => on 0 .highImpedance
  | .resetN => if s.rst.driving then .low else .released
  | .midnightN => if midnightNLow s then .low else .released
  | .replaceN => if replaceNLow s then .low else .released
  | .sv => .svOwn

end Sys2Proof.Machine
end

