-- ==== Sys2Proof/WellFormed.lean ====
section
/-!
DEFINITION. Which terms of `Instr` a link, a bus or a register can carry: lengths and ranges that the types of the operands do not hold. A meaning is
total all the same.
-/
namespace Sys2Proof

/-- A command's operands fit what carries them: payloads of a mailbox (R66), of a record (R384), of a flit (R189), an image (R343), DPA ranges (R12),
widths (R39) and accesses of 1 to 8 bytes (R8, R136). -/
def wellFormed (i : Instr) : Bool :=
  match i with
  | .damagedFetTest _ mv => decide (mv ≤ 65535)
  | .svLinkFrame _ p _ => decide (p.length ≤ 256)
  | .logRecordSubmit _ _ _ p => decide (p.length ≤ 40)
  | .linkUp _ _ w _ _ => [1, 2, 4, 8, 16].contains w
  | .registerWrite _ _ _ n _ _ => decide (1 ≤ n) && decide (n ≤ 64)
  | .transferFw _ b => decide (b.length ≤ 2 ^ 25)
  | .getPoisonList _ a n => decide (a.toNat + n ≤ 2 ^ 48)
  | .addDynamicCapacityResponse _ l => l.all (fun e => decide (e.1.toNat + e.2 ≤ 2 ^ 48))
  | .releaseDynamicCapacity _ a n => decide (a.toNat + n ≤ 2 ^ 48)
  | .initiateDynamicCapacityAdd _ _ _ a n _ => decide (a.toNat + n ≤ 2 ^ 48)
  | .initiateDynamicCapacityRelease _ _ _ a n _ => decide (a.toNat + n ≤ 2 ^ 48)
  | .setSurroundings _ b => decide (b.length ≤ 4096)
  | .getAdmissionReport _ b => decide (b.length ≤ 4096)
  | .getFaultSummary _ b => decide (b.length ≤ 4096)
  | .installKey _ b => decide (b.length ≤ 4096)
  | .retireKey _ b => decide (b.length ≤ 4096)
  | .startTwilight _ b => decide (b.length ≤ 4096)
  | .readLogRecords _ b => decide (b.length ≤ 4096)
  | .scratchRead _ _ n _ => decide (1 ≤ n) && decide (n ≤ 8)
  | .scratchWrite _ _ n _ _ => decide (1 ≤ n) && decide (n ≤ 8)
  | .nlinkIdleFlit _ b => decide (b.length = 256)
  | .nlinkPayloadFlit _ b => decide (b.length = 256)
  | .nlinkNakFlit _ b => decide (b.length = 256)
  | .powerOnReset .. | .porRelease .. | .resetNAssert .. | .resetNDriveEnd .. | .resetNRelease .. | .tapReset .. | .feedInRange ..
  | .feedOutOfRange .. | .oringReverse .. | .oringReenable .. | .oringFetShort .. | .telemetrySample .. | .presentQualified .. | .removal ..
  | .channelStart .. | .outputReachesInput .. | .startLimitExpiry .. | .powerGoodQualified .. | .channelOvercurrent .. | .faultTimerExpiry ..
  | .fastTrip .. | .retryOffTimeExpiry .. | .privilegedRetryExpiry .. | .attemptsReset .. | .ibcPgQualified .. | .ibcPgTimeout .. | .ibcPgFall ..
  | .trailPgGood .. | .railEnable .. | .trailPgTimeout .. | .trailPgFall .. | .powerWindow .. | .throttleDown .. | .powerCapExceeded ..
  | .poweredHour .. | .svLinkResend .. | .svLinkIdleFrame .. | .svLinkDown .. | .svLinkRetrain .. | .logRecordWriteDone .. | .logHintWriteDone ..
  | .logScanDone .. | .faultRecordWrite .. | .faultStsClear .. | .faultForce .. | .graceWindowExpiry .. | .quiesceComplete .. | .quiesceLate ..
  | .verifyComplete .. | .windowBoundary .. | .cntWinCfgWrite .. | .counterLowRead .. | .statusImageRefresh .. | .setdasa .. | .entdaa ..
  | .i3cMandatoryCcc .. | .setEndpointId .. | .getEndpointId .. | .getEndpointUuid .. | .getMctpVersionSupport .. | .getMessageTypeSupport ..
  | .getVendorDefinedMessageSupport .. | .mctpMessageDiscard .. | .getStatusImageInfo .. | .readStatusImage .. | .i3cReservedCommand ..
  | .cxlNegotiationFail .. | .headReady .. | .perstNAssert .. | .perstNRelease .. | .hotReset .. | .linkDisable .. | .secondaryBusReset ..
  | .surpriseLinkDown .. | .configurationRequest .. | .memRd .. | .memRdData .. | .memWr .. | .memWrPtl .. | .memInv .. | .memClnEvct .. | .birsp ..
  | .biconflict .. | .atomicOp .. | .poisonedWriteTlp .. | .decoderCommit .. | .firmwareRequest .. | .identify .. | .backgroundOperationStatus ..
  | .getResponseMessageLimit .. | .setResponseMessageLimit .. | .requestAbortBackgroundOperation .. | .getEventRecords .. | .clearEventRecords ..
  | .getEventInterruptPolicy .. | .setEventInterruptPolicy .. | .getFwInfo .. | .transferFwDone .. | .activateFw .. | .getTimestamp ..
  | .setTimestamp .. | .getSupportedLogs .. | .getLog .. | .getLogCapabilities .. | .clearLog .. | .getSupportedLogsSubList ..
  | .getSupportedFeatures .. | .getFeature .. | .setFeature .. | .identifyMemoryDevice .. | .getPartitionInfo .. | .getHealthInfo ..
  | .getAlertConfiguration .. | .setAlertConfiguration .. | .injectPoison .. | .clearPoison .. | .getDynamicCapacityConfiguration ..
  | .getDynamicCapacityExtentList .. | .dcOfferTimeout .. | .getLdInfo .. | .getLdAllocations .. | .getQosControl .. | .getQosStatus ..
  | .getQosAllocatedBw .. | .getQosBwLimit .. | .getMultiHeadedInfo .. | .getHeadInfo .. | .getDcdInfo .. | .getHostDcRegionConfiguration ..
  | .getDcRegionExtentLists .. | .getIluisStatus .. | .getSurroundings .. | .getTwilightStatus .. | .unsupportedCommand .. | .doeDiscovery ..
  | .tableAccess .. | .getCertificate .. | .challenge .. | .getMeasurements .. | .keyExchange .. | .pskExchange .. | .setCertificate .. | .getCsr ..
  | .heartbeat .. | .keyUpdate .. | .vendorDefinedRequest .. | .koistTrainTimeout .. | .koistModuleLost .. | .rdShared .. | .rdOwn .. | .rdCur ..
  | .wrLine .. | .wrPart .. | .hostCe .. | .farAtom .. | .snpInv .. | .snpShare .. | .snpOwn .. | .snpCur .. | .datS .. | .datE .. | .datX ..
  | .grant .. | .fwdNote .. | .wbAck .. | .cmp .. | .biSnpReq .. | .biAckReq .. | .snpRspI .. | .snpRspIData .. | .snpRspFwd .. | .snpRspFwdS ..
  | .wbData .. | .biRspFwd .. | .hostWb .. | .biConflictFwd .. | .fdatS .. | .fdatE .. | .fdatM .. | .fdatX .. | .atomRes .. | .mediaReadData ..
  | .lineQueueServe .. | .bisnpTimeout .. | .dirEvictionStart .. | .deferredMissSend .. | .holdQueueRelease .. | .reqAgeLimit .. | .clean ..
  | .inv .. | .cleanAll .. | .invAll .. | .preloadLock .. | .unlock .. | .rangeOpDone .. | .ncWayCfgWrite .. | .fillDrainDone .. | .fillPage ..
  | .refreshInterval .. | .idleRefresh .. | .refreshDeadline .. | .rfmThreshold .. | .ageLimit .. | .mr4Read .. | .duskIdle .. | .duskEntryDone ..
  | .duskExitDone .. | .scrubTick .. | .scrubCatchUpWake .. | .pmicPoll .. | .phyLockLost .. | .phyLockTimeout .. | .reevaluationDone ..
  | .writeReadCompare .. | .readCompare .. | .writeOnly .. | .readTrainingPattern .. | .writeLevelingSample .. | .trainingRunDone ..
  | .drPhyAccWrite .. | .nlinkAckTimeout .. | .nlinkReplayLimit .. | .nlinkRetrainDone .. | .nlinkTrainingStart .. | .nlinkTrainStepTimeout ..
  | .nlinkTrainingDone .. | .rdd .. | .pgc .. | .mrdd .. | .mpgc .. | .str .. | .gapMove .. | .gapMoveDone .. | .mapStateSave .. | .blockRetire ..
  | .blockRetireDone .. | .wearStateSave .. | .absorbSlotFreed .. | .absorbStall .. | .destageHighWater .. | .destageMaxAge .. | .destageDone ..
  | .driftRefreshBlock .. | .driftRefreshChunk .. | .driftSkip .. | .driftLate .. | .rebuildStripe .. | .epochWalkEntry .. | .promotionStart ..
  | .demotionStart .. | .migrationCopy .. | .migrationComplete .. | .ringTailWrite .. | .ringCqHeadWrite .. | .ringEnable .. | .ringInitDone ..
  | .ringAbort .. | .ringDisable .. | .ringCfgWrite .. | .ringBaseWrite .. | .descriptorFetch .. | .jobStart .. | .abortUserRead ..
  | .partDispatch .. | .partReport .. | .ingestRawPart .. | .compressDone .. | .ingestZhoqPart .. | .validationDone .. | .ingestCommit ..
  | .decompressorGrant .. | .decompressEnd .. | .decodeRetry .. | .twilightLine .. | .twilightPassRemove .. | .extest .. | .idcode ..
  | .samplePreload .. | .fuseRd .. | .anchorProg .. | .dawnRd .. | .arrayAcc .. | .memAcc .. | .cryAcc .. | .mpDebug .. | .bypass .. | .clockGood ..
  | .clockGoodTimeout .. | .clockGoodLost .. | .rstBlkCtlWrite .. | .dawn1 .. | .dawn2 .. | .dawn3 .. | .dawn4 .. | .dawn5 .. | .dawn6 ..
  | .closeIdlePrecharge .. | .linkEntryToRecovery .. => true

end Sys2Proof
end

