-- ==== Sys2Proof/Tests/Slice0.lean ====
section
/-!
SUPPORT. The model's own tests: what WellFormed refuses, small steps, and states that meet the hypotheses of each statement.
-/
namespace Sys2Proof.Tests
set_option Elab.async false
open Sys2Proof Sys2Proof.Machine

/-- Out of reset, with every tile running and Dawn done. -/
def up : State :=
  { rst := { por := false, resetN := false, driving := false },
    clk := { running := 0xFF#8, released := (List.range 8).map (fun t => (t, 0x3FF#10)) },
    dawn := { stage := 6, runLock := true, memActive := true, started := 0xFF#8 },
    fab := { modules := (List.range 10).map (fun i => (i, 15#4)) } }

/-- An RDIMM of x4 16 Gb devices with one rank, which reports refresh management. -/
def spd16 : Spd := ⟨.rdimm, 6400, 40, 4, 16, 8, 4, 1, 1, 32, 295, 160, 130, 16, 30, true, false, 32, {}⟩

def fnA : Fn := ⟨0, 0, false⟩
/-- One ill-formed term for each check of WellFormed. -/
theorem test_ill_formed_power_and_log (b : Bytes) (h : b.length = 257) :
    wellFormed (.damagedFetTest 0 65536) = false ∧ wellFormed (.svLinkFrame true b 0#16) = false ∧ wellFormed (.logRecordSubmit 0#8 0#8 0#16 b) = false := by
  simp [wellFormed, h]
theorem test_ill_formed_host :
    wellFormed (.linkUp 0 .g32 3 .f256 false) = false ∧ wellFormed (.registerWrite .firmware false 0#27 0 0#512 true) = false ∧
    wellFormed (.registerWrite .firmware false 0#27 65 0#512 true) = false := by decide
theorem test_ill_formed_firmware (b : Bytes) (h : b.length = 2 ^ 25 + 1) : wellFormed (.transferFw fnA b) = false := by simp [wellFormed, h]
theorem test_ill_formed_ranges (a : Dpa) (h : a.toNat = 2 ^ 48 - 1) :
    wellFormed (.getPoisonList fnA a 2) = false ∧ wellFormed (.addDynamicCapacityResponse fnA [(a, 2)]) = false ∧
    wellFormed (.releaseDynamicCapacity fnA a 2) = false ∧ wellFormed (.initiateDynamicCapacityAdd fnA 0 0 a 2 0#128) = false ∧
    wellFormed (.initiateDynamicCapacityRelease fnA 0 0 a 2 false) = false := by simp [wellFormed, h]
theorem test_ill_formed_payloads (b : Bytes) (h : b.length = 4097) :
    wellFormed (.setSurroundings fnA b) = false ∧ wellFormed (.getAdmissionReport fnA b) = false ∧ wellFormed (.getFaultSummary fnA b) = false ∧
    wellFormed (.installKey (.mailbox fnA) b) = false ∧ wellFormed (.retireKey (.mailbox fnA) b) = false ∧ wellFormed (.startTwilight (.mailbox fnA) b) = false ∧
    wellFormed (.readLogRecords fnA b) = false := by simp [wellFormed, h]
theorem test_ill_formed_media :
    wellFormed (.scratchRead 0 0#26 0 0#72) = false ∧ wellFormed (.scratchRead 0 0#26 9 0#72) = false ∧ wellFormed (.scratchWrite 0 0#26 9 0#64 0#72) = false ∧
    wellFormed (.nlinkIdleFlit 0 []) = false ∧ wellFormed (.nlinkPayloadFlit 0 []) = false ∧ wellFormed (.nlinkNakFlit 0 []) = false := by decide

/-- No row of the table gives bits, so no word spells a command and nothing is put in front. -/
theorem test_no_word_decodes (n w : Nat) : decodeTableWord n w = none ∧ up.withFetchWord n w = up := ⟨rfl, rfl⟩

/-- The published check values of the two CRCs over the digits 1 to 9 (R25, R189). -/
theorem test_crc16_check : crc16 [0x31#8, 0x32#8, 0x33#8, 0x34#8, 0x35#8, 0x36#8, 0x37#8, 0x38#8, 0x39#8] = 0x29B1#16 := by decide +kernel
theorem test_crc32_check : crc32 [0x31#8, 0x32#8, 0x33#8, 0x34#8, 0x35#8, 0x36#8, 0x37#8, 0x38#8, 0x39#8] = 0xCBF43926#32 := by decide +kernel

/-- IDCODE of an eight-tile member, from the fields of R358. -/
theorem test_idcode : idcode up = 0x18A085A7#32 := by decide
/-- The worked example of the counter window: 91,553,000 units in 250 ms are 23,437 MB/s (R414). -/
theorem test_window_example : mbps 91553000 250 = 23437 := by decide

theorem witness_StepRunsFront : ({ pending := [.dawn6] } : State).pending = [.dawn6] := by decide

theorem witness_StepIdles : (up.pending = [] ∧ up.rst.por = false) ∧ (State.reset.pending = [] ∧ State.reset.rst.por = true) := by decide

theorem witness_StepKeepsInv : Machine.Inv up ∧ step { up with pending := [.poweredHour] } = exec .poweredHour up ∧ goesOn { up with pending := [.dawn6] } :=
  ⟨by unfold Machine.Inv; decide, rfl, _, rfl⟩

theorem witness_CommandsKeepQueue : ∃ t, exec .dawn6 up = .next t := ⟨_, rfl⟩

theorem witness_AnchorProgrammedOnce : (∃ t, step { up with fuse := { anchor := 5#256 } } = .next t) ∧
    ({ up with fuse := { anchor := 5#256 } } : State).fuse.anchor ≠ 0#256 := ⟨⟨_, rfl⟩, by decide⟩

theorem witness_LocksUntilReset : (∃ t, step { up with faults := { midnight := true, rr := true } } = .next t ∧ t.rst.resetN = false ∧ t.rst.por = false) ∧
    up.dawn.runLock = true := ⟨⟨_, rfl, rfl, rfl⟩, rfl⟩

theorem witness_KeysComeOnlyByInstall : (∃ t, exec .dawn6 up = .next t) ∧ Table.get none up.cry.keys 7 = none := ⟨⟨_, rfl⟩, by decide⟩

/-- In power-on reset with a feed in range; SV driving RESET_N with every rail good; RESET_N released by every agent. -/
def porOn : State := { sv := { feedA := true } }
def driven : State :=
  { rst := { por := false, driving := true }, sv := { tilesGood := 0xFF#8 }, chans := [(32, { state := .powerGood })] }
def letGo : State := { rst := { por := false, driving := false } }

theorem witness_ResetPins :
    (State.reset.sv.feedA = false ∧ State.reset.sv.feedB = false) ∧ (porOn.rst.por = true ∧ porOn.sv.feedA = true) ∧
    (up.rst.por = false ∧ up.rst.resetN = false) ∧ (driven.rst.por = false ∧ driven.rst.driving = true ∧ railsAllGood driven = true) ∧
    (up.flash.rewriteEnd ≤ up.time.now ∧ ({ up with flash := { rewriteEnd := 5 } } : State).time.now < 5 ∧ 4095 < 4096) ∧
    (letGo.rst.por = false ∧ letGo.rst.resetN = true ∧ letGo.rst.driving = false) := by decide

theorem witness_Feeds :
    (({ sv := { feedA := true, feedB := true } } : State).sv.feedA = true ∧ ({ sv := { feedA := true, feedB := true } } : State).sv.feedB = true) ∧
    (porOn.sv.feedA = true ∧ porOn.sv.feedB = false) ∧ (porOn.sv.orA = false ∧ porOn.sv.orB = false) ∧
    (({ sv := { feedB := true } } : State).sv.feedB = true ∧ ({ sv := { orA := true } } : State).sv.orA = true ∧ ({ sv := { orB := true } } : State).sv.orB = true) := by decide

/-- The intermediate bus enabled, or good; tile 2 with two rails enabled and the first, or both, good. -/
def busOn (good : Bool) : State := { sv := { ibcEn := true, ibGood := good }, chans := [(32, { state := .powerGood })] }
def rails (pg : BitVec 5) : State := { sv := { railEn := [(2, 3#5)], railPg := [(2, pg)] } }

theorem witness_BusAndRails : ((busOn false).sv.ibcEn = true ∧ (busOn false).sv.ibGood = false) ∧
    ((busOn true).sv.ibcEn = true ∧ (getChan (busOn true) 32).state = .powerGood) ∧
    (Table.get 0#5 (rails 1#5).sv.railEn 2).getLsbD 1 = true ∧
    (Table.get 0#5 (rails 3#5).sv.railEn 2 ≠ 0#5 ∧ Table.get 0#5 (rails 3#5).sv.railPg 2 = Table.get 0#5 (rails 3#5).sv.railEn 2 ∧
      Table.get 0#5 (rails 3#5).sv.railEn 2 ≠ 31#5) ∧
    Table.get 0#5 (rails 1#5).sv.railPg 2 ≠ Table.get 0#5 (rails 1#5).sv.railEn 2 ∧ (Table.get 0#5 (rails 1#5).sv.railPg 2).getLsbD 0 = true ∧
    (rails 1#5).sv.tilesGood.getLsbD 2 = false ∧ { (rails 31#5).sv with tilesGood := 4#8 }.tilesGood.getLsbD 2 = true ∧
    up.rst.por = false := by decide

theorem witness_ChannelFault : (5 : Nat) < 33 ∧ (5 : Nat) ≠ 6 ∧ (32 : Nat) < 33 ∧ 8 ≤ 20 ∧ 20 < 32 := by decide

/-- HS ready to start, and a channel starting before and after its damaged-FET test. -/
def hsReady : State := { rst := { por := false }, sv := { feedA := true, present := true } }
def starting (tested gate : Bool) : State := { rst := { por := false }, chans := [(3, { state := .starting, tested := tested, gate10 := gate })] }
/-- One whose fault timer stands at the longest TIMER. -/
def timedOut : State := { rst := { por := false }, chans := [(3, { state := .starting, tested := true, gate10 := true, timer := 160000 })] }

theorem witness_ChannelStart : mayStart hsReady 32 = true ∧
    ((getChan (starting false false) 3).state = .starting ∧ (getChan (starting false false) 3).tested = false ∧ 3000 ≤ 3000 ∧ 2999 < 3000) ∧
    ((getChan (starting true true) 3).state = .starting ∧ (getChan (starting true true) 3).tested = true ∧ (getChan (starting true true) 3).clamped = false ∧
      (getChan (starting true true) 3).gate10 = true ∧ timerReached (starting true true) 3 = false) ∧
    ((getChan (starting true false) 3).gate10 = false ∧ (getChan (starting true false) 3).state = .starting) ∧
    ((getChan timedOut 3).state = .starting ∧ (getChan timedOut 3).tested = true ∧ (getChan timedOut 3).gate10 = true ∧ timerReached timedOut 3 = true) := by decide

/-- A channel that waits for its retry, long enough; HS good for 10 s. -/
def waiting (e : Nat) : State := { chans := [(e, { state := .retryWait, offTimer := 8 })], time := { now := 1000000 } }
def goodLong : State := { driven with time := { now := 10000000 } }

theorem witness_ChannelLimits : (conducting (getChan timedOut 3) = true ∧ timerReached timedOut 3 = true ∧ (getChan timedOut 3).state = .starting) ∧
    (privileged 12 = false ∧ (getChan (waiting 12) 12).state = .retryWait ∧
      (getChan (waiting 12) 12).offAt + 50000 * (getChan (waiting 12) 12).offTimer ≤ (waiting 12).time.now) ∧
    (privileged 4 = true ∧ (getChan (waiting 4) 4).state = .retryWait ∧ (getChan (waiting 4) 4).offAt + 1000000 ≤ (waiting 4).time.now) ∧
    (privileged 32 = true ∧ (getChan goodLong 32).state = .powerGood ∧ (getChan goodLong 32).goodAt + 10000000 ≤ goodLong.time.now) := by decide

def inserted : State := { sv := { feedA := true, present := true, presentRaw := 3#2 } }

theorem witness_InsertionAndTelemetry : inserted.sv.feedA = true ∧ ((1#2 : BitVec 2) ≠ 0#2 ∧ inserted.sv.present = true) ∧
    porOn.sv.present = false ∧ (porOn.sv.feedA = true ∧ conducting (getChan porOn 9) = false) := by decide

/-- Running under a cap of 1,024 W, with samples waiting and windows counted. -/
def capped : State :=
  { up with host := { surr := List.replicate 80 0#8 |>.set 5 0x04#8 }, meter := { samples := [2000000], lowWindows := 10, highWindows := 100 } }

theorem witness_InputPower : (capped.meter.samples ≠ [] ∧ powerCap capped ≠ 0 ∧ running capped = true) ∧
    (10 ≤ capped.meter.lowWindows ∧ 100 ≤ capped.meter.highWindows) ∧
    (({ meter := { samples := [5] } } : State).meter.samples ≠ [] ∧ powerCap ({ meter := { samples := [5] } } : State) = 0) := by decide

def linkDown (held : List (Byte × Byte × BitVec 16 × Bytes)) : State := { link := { down := true, held := held } }
/-- A frame each way that waits for its acknowledgement, T0's sent `n` times. -/
def framesOut (n : Nat) : State := { link := { toSv := [[1#8]], toT0 := [[]], sendsT0 := n, sendsSv := 1 } }

theorem witness_SvLinkCommands : up.link.down = false ∧ ((1#16 : BitVec 16) ≠ crc16 []) ∧ (up.link.toT0 = [] ∧ up.link.toSv = []) ∧
    ((framesOut 14).link.down = false ∧ (framesOut 14).link.toSv ≠ [] ∧ (framesOut 14).link.toT0 ≠ [] ∧ (framesOut 14).link.sendsT0 < 15) ∧
    ((framesOut 15).link.sendsT0 = 15 ∧ (framesOut 15).link.toSv ≠ [] ∧ (framesOut 15).link.down = false) ∧
    ((linkDown [(0x10#8, 0#8, 0#16, [])]).link.down = true ∧ (linkDown [(0x10#8, 0#8, 0#16, [])]).link.heldDropped = 0 ∧
      (linkDown [(0x10#8, 0#8, 0#16, [])]).link.held ≠ []) := by decide

def fullLog : LogStore := { queue := List.replicate 64 ⟨0#32, 0x20#8, 8#8, 0#16, 0#64, []⟩ }

theorem witness_LogRecordAccepted : (0x20#8 : Byte) ∈ recordTypes ∧ (0x30#8 : Byte) ∈ recordTypes ∧ fullLog.dropped = 0 ∧ 64 ≤ fullLog.queue.length ∧
    (0x20#8 : Byte) ≠ 0x30#8 ∧ ({} : LogStore).queue.length < 64 := by decide

def logging (l : LogStore) : State := { rst := { por := false }, log := l }
/-- One record of T0's waits to be written. -/
def oneLog : LogStore := { queue := [⟨0#32, 0x20#8, 8#8, 0#16, 0#64, []⟩] }
/-- The device running with the primary in its firmware, the SV–T0 link up or down. -/
def primaryUp (down : Bool) (n : Nat) : State :=
  { up with dawn := { up.dawn with stage := 6 }, link := { down := down, held := List.replicate n (0x20#8, 0#8, 0#16, []) } }

theorem witness_LogCommands_submit : up.rst.por = false ∧ ((0x08#8 : Byte).getLsbD 3 = true ∧ (0x07#8 : Byte).getLsbD 3 = false) ∧
    (primaryRuns (primaryUp false 0) = true ∧ (primaryUp false 0).link.down = false ∧ (primaryUp false 0).rst.por = false) ∧
    (primaryRuns (primaryUp true 255) = true ∧ (primaryUp true 255).link.down = true ∧ (primaryUp true 255).link.held.length < 256) ∧
    256 ≤ (primaryUp true 256).link.held.length := by decide +kernel

theorem witness_LogCommands : ((logging oneLog).log.queue = [⟨0#32, 0x20#8, 8#8, 0#16, 0#64, []⟩] ∧ (logging oneLog).log.hintBusy = none ∧
      (logging oneLog).log.tries < 3 ∧ (logging oneLog).log.starting = false ∧ (logging oneLog).rst.por = false ∧ (logging oneLog).log.dropped = 0 ∧
      writeRing oneLog (ringOf 0x20#8) = some 1) ∧
    (logging { hintBusy := some none }).log.hintBusy = some none ∧ (logging { hintBusy := some (some [1#8]) }).log.hintBusy = some (some [1#8]) ∧
    ((logging { starting := true }).log.starting = true ∧ (logging { starting := true }).log.scanning = false) ∧
    (logging { starting := true, scanning := true }).log.scanning = true ∧ ({} : LogStore).hintOff = false := by decide +kernel

/-- The first position of ring 1 is not the last of its lap, and no ring is worn. -/
theorem witness_LogCommands_position : (nextPtr oneLog 1 (ringPtr oneLog 1).page (ringPtr oneLog 1).pos).2.2 = false ∧
    ((List.range 4).all fun k => oneLog.worn.getLsbD k == ringWorn oneLog k) = true := by decide +kernel

theorem witness_RaiseOfASource : ((45 : Nat) < 1024 ∧ srcPresent (tiles up) 45 = true ∧ faultClass up 45 = 0 ∧ faultClass up 52 = 1 ∧
    faultClass up 40 = 3 ∧ up.faults.midnight = false ∧ faultClass { up with regs := [(regAddr .fcCfg 45, 2#32)] } 45 = 2 ∧
    srcPresent 2 700 = false) ∧ up.faults.en.getLsbD 45 = true ∧ up.faults.sts.getLsbD 45 = false := ⟨by decide, by simp [up], by simp [up]⟩

theorem witness_ForceIsARaise : hasRights up .firmware = true ∧ running up = true ∧ srcFixed (32 * 1 + 13) = false ∧ srcFixed (32 * 1 + 8) = true ∧
    hasRights up (.head 9 0) = false ∧ srcPresent 2 (32 * 9 + 3) = false ∧ (45 % 120 ∉ [13, 18, 24]) ∧
    (srcFixed (32 * 4 + 5) = false ∧ (32 * 4 + 5) % 120 ∈ [13, 18, 24] ∧ srcPresent (tiles up) (32 * 4 + 5) = true ∧ faultClass up (32 * 4 + 5) < 3 ∧
      dawnDone { up with dawn := { up.dawn with stage := 6 } } = true ∧ up.faults.midnight = false) ∧
    faultClass { up with regs := [(regAddr .fcCfg 45, 3#32)] } 45 = 3 ∧ srcPresent (tiles up) 45 = true := by decide

/-- Fault-collector states: a source set and in its grace window, a quiesce under way, an entry pending; and a verification under way. -/
def faulted (sts : BitVec 1024) : State := { up with faults := { sts := sts, grace := [52], pend := [⟨45, 1, {}, 0⟩] } }
def quiescing : State := { up with faults := { quiescing := true } }
def verifying (ok : Bool) : State := { up with cry := { verifs := [⟨2, 5, 64, false, ok, none⟩] } }

theorem witness_FaultCommands : (hasRights up .firmware = true ∧ running up = true ∧ hasRights up (.head 9 0) = false) ∧
    (52 ∈ (faulted 0#1024).faults.grace ∧ (faulted 0#1024).faults.midnight = false ∧ quiesced (faulted 0#1024) = false) ∧
    (quiescing.faults.quiescing = true ∧ quiescing.faults.midnight = false ∧ quiescing.ha.txns = [] ∧ quiescing.nc.trks = [] ∧
      quiescing.job.parts = [] ∧ quiescing.fab.req = [] ∧ quiescing.ha.lq = [] ∧ quiescing.ha.allocQ = []) ∧
    (primaryRuns (faulted 0#1024) = true ∧ nextPend (faulted 0#1024) = some ⟨45, 1, {}, 0⟩ ∧ (faulted 0#1024).faults.pend = [⟨45, 1, {}, 0⟩] ∧
      faultClass (faulted 0#1024) 45 = 0 ∧ (faulted 0#1024).faults.rr = false) ∧
    (verifying true).cry.verifs = [⟨2, 5, 64, false, true, none⟩] ∧ (verifying false).cry.verifs = [⟨2, 5, 64, false, false, none⟩] := by decide

theorem witness_FaultCommands_sts : (faulted (1#1024 <<< 52)).faults.sts.getLsbD 52 = true ∧ (faulted 0#1024).faults.sts.getLsbD 52 = false :=
  ⟨by simp [faulted], by simp [faulted]⟩

/-- Head 0 up; the window engine of tile 1 on; a latched high half. -/
def hostUp : State := { up with host := { ports := [(0, { up := true, ready := true })] } }
def windowOn (discard : BitVec 8) : State := { up with regs := [(regAddr .cntWinCfg 1, 0x800003E8#32)], cnt := { discard := discard } }
def stranded : State := { hostUp with fab := { hostUp.fab with modules := (List.range 10).map (fun l => (l, 0#4)) } }
def latched : State := { hostUp with cnt := { latch := [(0, some (2, 7#16))] } }

theorem witness_CounterCommands : (isHead hostUp 0 = true ∧ (getPort hostUp 0).up = true ∧ cntAt (0x5000010#27).toNat = some (2, false) ∧
      cntAborts hostUp 0 0 2 = false) ∧
    (isHead latched 0 = true ∧ (getPort latched 0).up = true ∧ cntAt (0x5000014#27).toNat = some (2, true) ∧
      cntAborts latched 0 0 2 = false ∧ Table.get none latched.cnt.latch 0 = some (2, 7#16)) ∧
    (isHead stranded 0 = true ∧ (getPort stranded 0).up = true ∧ cntAt (0x5004000#27).toNat = some (1200, false) ∧ cntAborts stranded 0 0 1200 = true) ∧
    (tileRuns (windowOn 0#8) 1 = true ∧ bit (regRaw (windowOn 0#8) .cntWinCfg 1) 31 = true ∧ (windowOn 0#8).cnt.discard.getLsbD 1 = false ∧
      (windowOn 2#8).cnt.discard.getLsbD 1 = true) ∧ regOpen up .firmware .cntWinCfg 1 = true ∧ i3cUp up = true := by decide

theorem witness_I3cAddressing : i3cUp up = true ∧ (0x3A#7).toNat = i3cStatic up ∧ (0x3B#7).toNat ≠ i3cStatic up ∧ up.i3c.dyn = none ∧
    ({ i3c := { dyn := some 5#7 } } : State).i3c.dyn.isSome = true ∧ (0x80#8).toNat ∈ [0x00, 0x01, 0x80, 0x81, 0x07, 0x2A, 0x9A] ∧ (0x8E#8 : Byte) ∈ [0x8D#8, 0x8E#8, 0x8F#8, 0x95#8] ∧
    (cccData up 0x8E#8).isSome = true := by decide

theorem witness_MctpControl : i3cUp up = true ∧ ((9#8 : Byte) ≠ 0#8 ∧ (9#8 : Byte) ≠ 0xFF#8 ∧ (9#8 : Byte) ≠ 0x7E#8) := by decide

theorem witness_StatusImageReads : i3cUp up = true ∧ i3cUp State.reset = false ∧ (3#8 : Byte) ≠ 0#8 ∧ (3#8 : Byte) ≠ 1#8 ∧ (3#8 : Byte) ≠ 2#8 ∧
    (1 ≤ (48#16).toNat ∧ (48#16).toNat ≤ 48 ∧ (848#32).toNat + (48#16).toNat ≤ 896) ∧ 896 < (849#32).toNat + (48#16).toNat ∧
    48 < (256#16).toNat := by decide

/-- Head 0 down; declared MLD; admitted at 16 lanes; with PERST_N asserted. -/
def hostDown : State := { up with host := {} }
def hostMld : State := { up with host := { lds := [(0, 4)] } }
def hostAdmitted : State := { up with qos := { links := [(0, (16, 640))] } }
def hostHeld : State := { up with host := { ports := [(0, { perst := true })] } }

theorem witness_HostLinkTraining :
    (headLive hostDown 0 = true ∧ (getPort hostDown 0).up = false ∧ (getPort hostDown 0).perst = false ∧ (getPort hostDown 0).midnightStop = false ∧
      flitOk .g64 .f256 = true ∧ flitOk .g32 .f68 = true ∧ widthOk hostDown 0 4 = true ∧ Table.get (0, 0) hostDown.qos.links 0 = (0, 0) ∧
      isMld hostDown 0 = false) ∧ (headLive hostMld 0 = true ∧ isMld hostMld 0 = true ∧ widthOk hostMld 0 4 = true) ∧
    (headLive hostAdmitted 0 = true ∧ 4 < (Table.get (0, 0) hostAdmitted.qos.links 0).1 ∧ isMld hostAdmitted 0 = false) ∧
    (headLive hostUp 0 = true ∧ primaryRuns hostUp = true ∧ (getPort hostUp 0).up = true) ∧
    (getPort hostHeld 0).perst = true ∧ running hostHeld = true ∧ midnight hostHeld = false := by decide

/-- Head 0 up and not yet ready; and a device whose Dawn has not completed. -/
def hostTrained : State := { up with host := { ports := [(0, { up := true })] } }
def beforeDawn : State := { up with dawn := { stage := 3 } }

theorem witness_HeadResets : (headLive hostUp 0 = true ∧ (getPort hostUp 0).up = true ∧ (getPort hostUp 0).ready = true ∧ 0 < ldCount hostUp 0 ∧
      ldCount hostUp 0 ≤ 3) ∧ (headLive hostTrained 0 = true ∧ (getPort hostTrained 0).up = true ∧ (getPort hostTrained 0).ready = false) ∧
    (running hostUp = true ∧ midnight hostUp = false ∧ isHead hostUp 0 = true ∧ dawnDone hostUp = true) ∧ running State.reset = false ∧
    (running beforeDawn = true ∧ isHead beforeDawn 0 = true ∧ (getPort beforeDawn 0).ready = false ∧ dawnDone beforeDawn = false) := by decide

theorem witness_LinkResetEffect : hostUp.fab = { modules := hostUp.fab.modules, reqTurn := hostUp.fab.reqTurn } ∧ hostUp.ha.txns = [] ∧ hostUp.job.done = [] ∧ hostUp.nc.range = [] ∧
    hostUp.flash.busy = none ∧ 3 ≠ mgmtHead hostUp ∧ Table.wf {} hostUp.host.fns = true ∧ (0 : Nat) / 32 = 0 ∧ 32 / 32 ≠ 0 := by decide

/-- A decoder of 1 GiB at 4 GiB, 2 ways of 256 bytes. -/
def decoder2 : Decoder := ⟨0x100000000, 0x40000000, 0, 2, 256, false, 0⟩

theorem witness_DecoderTranslation : decoder2.gran = 2 ^ 8 ∧ decoder2.ways = 2 ^ 1 ∧ decoder2.base ≤ 0x100000300 ∧
    0x100000300 < decoder2.base + decoder2.size ∧ decodeHpa decoder2 0x100000300 = some 0x100 := by decide

/-- Head 0 with a plain region of 1 GiB and a packed one behind a decoder, both in its view. -/
def mapped : State :=
  { up with
    host := { ports := [(0, { up := true, ready := true })], fns := [(0, { decs := [(0, some ⟨0x100000000, 0x80000000, 0, 1, 256, false, 0⟩)] })] },
    map := { cat := [⟨0, .plain, false, false, 0#12, 0, 0, 0x40000000, 0⟩, ⟨1, .packed, false, false, 0#12, 12, 0x40000000, 0x40000000, 16⟩],
             views := [⟨0, 0, 0, 3, false⟩, ⟨0, 0, 1, 3, false⟩] } }
def addr0 (hpa : Hpa) : MemAddr := ⟨0, 0, hpa, 7#16⟩

theorem witness_CxlMemReads : (headLive mapped 0 = true ∧ (getPort mapped 0).up = true ∧ (getHold mapped 0).length < 256 ∧
      hpaToDpa mapped (fnKey 0 0 false) (addr0 0x100001000#64).hpa.toNat = some 0x1000 ∧ (regionAt mapped 0x1000).map (·.idx) = some 0 ∧
      viewOf mapped 0 0 0 = some ⟨0, 0, 0, 3, false⟩ ∧ ingressErr mapped 0 0 0x1000 = false) ∧
    (ingressErr { mapped with faults := { quiescing := true } } 0 0 0x1000 = true ∧ headLive { mapped with faults := { quiescing := true } } 0 = true) ∧
    hpaToDpa mapped (fnKey 0 0 false) (addr0 0x1000#64).hpa.toNat = none := by decide

/-- A BISnp of line 64 sent to head 0 and unanswered; and a packed write already logged in this second. -/
def snooped : State := { mapped with ha := { txns := [(64, { live := true, bis := [(0, 5#16, .inv, true)] })] } }
def warned : State := { mapped with host := { mapped.host with packedWarn := [(0, 1)] } }

theorem witness_CxlMemWrites : portSnoops mapped 0 64 = false ∧
    (portSnoops snooped 0 (0x1000 / 64) = true ∧ ingressErr snooped 0 0 0x1000 = false ∧ headLive snooped 0 = true ∧ (getHold snooped 0).length < 256 ∧
      hpaToDpa snooped (fnKey 0 0 false) (addr0 0x100001000#64).hpa.toNat = some 0x1000) ∧
    ((regionAt warned 0x40000000).map (·.typ) = some .packed ∧ ingressErr warned 0 0 0x40000000 = false ∧ portSnoops warned 0 0x1000000 = false ∧
      hpaToDpa warned (fnKey 0 0 false) (addr0 0x140000000#64).hpa.toNat = some 0x40000000 ∧
      Table.get 0 warned.host.packedWarn 0 = (warned.time.now - warned.time.relAt) / 1000000 + 1) := by decide

/-- A read of line 64 that waits in the hold queue of head 0, its class with a reserve of one tracker at each home or with none. -/
def holdOne (reserve : Bool) : State :=
  { mapped with qos := { hold := [(0, [⟨.fwRd false, 64, 3, 0⟩])] }
                regs := if reserve then [(regAddr .qosTrk 3, 1#32)] else [] }
theorem witness_CxlMemWrites_hold : tileRuns mapped (portTile 0) = true ∧ midnight mapped = false ∧ ((getHold mapped 0).find? (leavesNow mapped 0)) = none ∧
    ((getHold (holdOne true) 0).find? (leavesNow (holdOne true) 0)).isSome = true ∧ ((getHold (holdOne false) 0).find? (leavesNow (holdOne false) 0)) = none ∧
    ((getHold (holdOne false) 0).find? (fun x => leavesPool (holdOne false) 0 x && decide (poolTurn (holdOne false) x.home = some 0) && !deferredPool (holdOne false) 0 x.home)).isSome = true := by decide +kernel

theorem witness_BiAnswers : (headLive snooped 0 = true ∧ (getPort snooped 0).up = true ∧ snooped.fab.hom = [] ∧
      snooped.ha.txns = [(64, { live := true, bis := [(0, 5#16, .inv, true)] })] ∧
      ([(0, 5#16, BiKind.inv, true)] : List (Nat × BitVec 16 × BiKind × Bool)).any (fun b => b.1 = 0 ∧ b.2.1 = 5#16) = true) ∧
    (headLive mapped 0 = true ∧ mapped.ha.txns = [] ∧ 0 < ldCount mapped 0) := by decide

/-- Head 0 with an atomic window over the start of its plain region. -/
def atomics : State := { mapped with dawn := { mapped.dawn with params := [(ascii "host.atomic.window", [0#8, 0#8, 0#8, 0#8, 0#8, 0#8, 0#8, 0#8])] } }
def atom0 (size : Nat) (off : BitVec 27) : AtomReq := ⟨.fetchAdd, size, off, 1#64, 0#64, 3#16⟩

theorem witness_AtomicRequests : (headLive atomics 0 = true ∧ (getPort atomics 0).up = true ∧ 0 < ldCount atomics 0 ∧ atomsOut atomics 0 < 1024) ∧
    (atom0 8 0x1800004#27).offset.toNat % 8 ≠ 0 ∧ (atom0 2 0x1800000#27).size ≠ 4 ∧ (atom0 8 0x1800000#27).offset.toNat % 8 = 0 ∧
    windowBase atomics 0 0 = some 0 ∧ (regionAt atomics (0 + ((0x1800000#27).toNat - 0x1800000))).isSome = true ∧
    ingressErr atomics 0 0 0 = false ∧ ingressErr { atomics with faults := { quiescing := true } } 0 0 0 = true := by decide

/-- A decoder of 1 GiB after the one committed, and one of no size. -/
def nextDecoder (size : W64) : DecoderReq := ⟨0x200000000#64, size, 0#64, 1, 256, false⟩
def fresh : State := { mapped with host := { mapped.host with fns := [] } }

theorem witness_DecoderCommit : (headLive fresh 0 = true ∧ (getPort fresh 0).up = true ∧ (getPort fresh 0).ready = true ∧ 0 < ldCount fresh 0 ∧
    Table.get none (getFn fresh (fnKey 0 0 false)).decs 0 = none) ∧ commitOk fresh 0 0 0 (nextDecoder 0x40000000#64) = true ∧
    commitOk fresh 0 0 0 (nextDecoder 0#64) = false ∧
    Table.get none (getFn mapped (fnKey 0 0 false)).decs (1 - 1) = some ⟨0x100000000, 0x80000000, 0, 1, 256, false, 0⟩ := by decide

theorem witness_RegisterWrites : (agentUp up .firmware = true ∧ agentUp hostUp (.head 0 0) = true ∧
      (BitVec.ofNat 27 (regAddr .haDirCfg 2)).toNat % 4 = 0 ∧ (BitVec.ofNat 27 (regAddr .haDirCfg 2)).toNat % 8 ≤ 4 ∧
      regAt (BitVec.ofNat 27 (regAddr .haDirCfg 2)).toNat = some (.haDirCfg, 2) ∧ regOpen up .firmware .haDirCfg 2 = true) ∧
    RegKind.haDirCfg ∉ [RegKind.fcSts, .fcEn, .fcForce, .fcCfg, .cntWinCfg, .ncWayCfg, .ncRangeBaseLo, .ncRangeBaseHi, .ncRangeLen, .ncRangeCtl, .drTrnCtl, .drTrnPat,
      .drPhyAcc, .drSchedCfg, .drRefCfg, .trRate, .trBudget, .rstBlkCtl, .dawnSts, .qosTrk] ∧
    ((0x1000000#27).toNat % 8 = 0 ∧ inPayload (0x1000000#27).toNat = false ∧ inPayload (0x10123#27).toNat = true ∧ (0x10123#27).toNat + 64 ≤ 0x11120 ∧
      inPayload (0x11118#27).toNat = true ∧ 0x11120 < (0x11118#27).toNat + 64) ∧ 8 < (0x1000004#27).toNat % 8 + 8 ∧ regOpen hostUp (.head 9 0) .haDirCfg 2 = false := by decide

theorem witness_FirmwareRequests : firmwareRuns mapped 3 = true ∧ midnight mapped = false ∧ (regionAt mapped (0x1000#48).toNat).map (·.typ) = some .plain ∧
    inFill mapped (0x1000#48).toNat = false ∧ (regionAt mapped (0x40000000#48).toNat).map (·.typ) = some .packed ∧
    regionAt mapped (0xFFFF00000000#48).toNat = none ∧ placeLineAt mapped 0 (0#32).toNat (0 : Fin 64).val = none ∧
    (placeLineAt mapped 0 (BitVec.ofNat 32 (mapFrame0 mapped 0)).toNat (0 : Fin 64).val = some 0 ∧ tileRuns mapped 0 = true ∧ cutOff mapped 3 0 = false) := by decide

/-- Function 0 of the management head. -/
def fn0 : Fn := ⟨0, 0, false⟩

theorem witness_MailboxQueries : mbUp mapped fn0 = true ∧ mapped.dawn.recovery = false ∧ mapped.host.bg = none ∧ logAway mapped = false ∧ mapped.log.starting = false ∧
    (mbUp { mapped with link := { down := true } } fn0 = true ∧ logAway { mapped with link := { down := true } } = true) ∧
    ({ mapped with host := { mapped.host with bg := some (0x201#16, false, .success) } } : State).host.bg = some (0x201#16, false, .success) ∧
    0 + 0 ≤ (faultLog up).length := by
  refine ⟨by decide, by decide, by decide, by decide, by decide, by decide, rfl, Nat.zero_le _⟩

/-- A transfer under way; and an event record held. -/
def transferring : State := { mapped with host := { mapped.host with bg := some (0x201#16, true, .success) }, flash := { busy := some (true, []) } }
def withEvent : State := addEvent (fnOf fn0) ⟨.warning, .biOff⟩ mapped

theorem witness_MailboxSettings : (mbUp mapped fn0 = true ∧ mapped.dawn.recovery = false ∧ isMgmt mapped fn0 = true ∧ mapped.host.bg = none ∧
      mapped.link.down = false ∧ mapped.log.queue.length < 64) ∧ (8 ≤ (8#8).toNat ∧ (12#8).toNat ≤ 12) ∧ (1#8 : Byte) ≠ 0#8 ∧
    (mbUp withEvent fn0 = true ∧ 0 < (eventsOf (getFn withEvent (fnOf fn0)) .warning).length) ∧
    (mbUp transferring fn0 = true ∧ transferring.host.bg = some (0x201#16, true, .success) ∧ transferring.flash.busy = some (true, []) ∧
      transferOk transferring [] = false) := by decide

/-- Head 1 of `twoHeads` is not the management head. -/
def twoHeads : State := { mapped with host := { mapped.host with ports := [(0, { up := true, ready := true }), (1, { up := true, ready := true })] } }
def fn1 : Fn := ⟨1, 0, false⟩

theorem witness_FabricManagerQueries : headMay mapped fn0 .fm = true ∧ isHead mapped 0 = true ∧ isHead { mapped with fuse := { tiles := 2 } } 60 = false ∧
    ldThere mapped 0 0 = true ∧ ldThere mapped 0 3 = false ∧ (mbUp twoHeads fn1 = true ∧ headMay twoHeads fn1 .fm = false) ∧
    (∀ c ∈ commandTable, c.1 ≠ (0x9999#16).toNat) := by decide

/-- One extent of the plain region declared for function 0 of head 0, in the state given. -/
def dynamic (x : ExtState) : State :=
  { mapped with map := { mapped.map with decls := [⟨0, 0, 0, 0, 0x10000000, 5#128⟩], exts := Table.set .free [] 0 x }
                dawn := { mapped.dawn with params := [(ascii "x.host.poison_inject", [1#8])] } }

theorem witness_PoisonAndDynamicCapacity : (mbUp (dynamic .free) fn0 = true ∧ isMgmt (dynamic .free) fn0 = true ∧
      extNamed (dynamic .free) 0 0 0 0x10000000 = some 0 ∧ extNamed (dynamic .free) 0 0 0 1 = none ∧ extState (dynamic .free) 0 = .free ∧
      inFill (dynamic .free) 0 = false ∧ (regionAt (dynamic .free) 0).map (·.typ) = some .plain ∧
      (regionAt (dynamic .free) 0x40000000).map (·.typ) = some .packed ∧ paramNat (dynamic .free) "x.host.poison_inject" 0 = 1 ∧
      (getFn (dynamic .free) (fnOf fn0)).poisonPos = none ∧ unbound (dynamic (.bound false)) 0 none 0 = false ∧ unbound (onMap (fun m => { m with cat := m.cat.map (fun r => { r with dc := true }) }) (dynamic .free)) 0 none 0 = true) ∧
    (getFn { dynamic .free with host := { (dynamic .free).host with fns := [(fnOf fn0, { poisonPos := some (0, 64, 0) })] } } (fnOf fn0)).poisonPos =
      some ((0#48 : Dpa).toNat, 64, 0) ∧ offers (dynamic (.offered 0)) 0 0 = [(0, 0)] ∧
    ((offers (dynamic (.offered 0)) 0 0).any (fun m => m.1 = 0) = true ∧ extState (dynamic (.offered 0)) 0 = .offered 0 ∧
      (dynamic (.offered 0)).map.decls[0]? = some ⟨0, 0, 0, 0, 0x10000000, 5#128⟩ ∧ primaryRuns (dynamic (.offered 0)) = true) ∧
    extState (dynamic (.bound false)) 0 = .bound false := by decide

/-- Surroundings as Set Surroundings takes them: an inlet of 40.0 °C given, or nothing given. -/
def surrIn (flags : Byte) : Bytes := [0x90#8, 0x01#8, 1#8, flags] ++ List.replicate 12 0#8 ++ List.replicate 64 0xFF#8

theorem witness_LogCommands_held : mapped.host.logHeld = [] ∧ mbUp mapped ⟨0, 0, false⟩ = true := by decide

theorem witness_VendorCommands : (mbUp mapped fn0 = true ∧ isMgmt mapped fn0 = true ∧ mapped.dawn.recovery = false ∧ logAway mapped = false ∧ mapped.log.starting = false) ∧ logAway { mapped with log := { mapped.log with starting := true } } = false ∧
    ((surrIn 1#8).length = 80 ∧ surrOk (surrIn 1#8) = true ∧ slice (surrNow mapped) 0 8 ≠ slice (mergeSurr (surrNow mapped) (surrIn 1#8)) 0 8) ∧
    (surrOk (surrIn 0#8) = true ∧ slice (surrNow mapped) 0 8 = slice (mergeSurr (surrNow mapped) (surrIn 0#8)) 0 8) ∧
    ((List.replicate 80 0xFF#8 : Bytes).length = 80 ∧ surrOk (List.replicate 80 0xFF#8) = false) ∧
    (leAt (List.replicate 8 0#8) 0 1 < 2 ∧ leAt (List.replicate 8 0#8) 1 3 = 0) ∧
    (leAt [0#8, 0#8, 0#8, 4#8] 2 2 ≠ 0 ∧ leAt [0#8, 0#8, 0#8, 4#8] 0 2 + leAt [0#8, 0#8, 0#8, 4#8] 2 2 ≤ 1024) ∧
    (mbUp twoHeads fn1 = true ∧ isMgmt twoHeads fn1 = false ∧ fn1.fm = false ∧ twoHeads.dawn.recovery = false) ∧
    (surrNow mapped).length = 80 := by decide

/-- Head 0, the management head, in session 1, whose requester's root is the provisioned one; a protected region under slot 5, and slot 9 filled. -/
def secure : State :=
  { mapped with
    host := { mapped.host with sessions := [(1, some ⟨0, 7#256⟩)] }
    dawn := { mapped.dawn with params := [(ascii "crypto.provision.root", beBytes 32 7)] }
    map := { cat := [⟨2, .protect, false, false, 5#12, 0, 0, 0x40000000, 0⟩] }
    cry := { keys := [(9, some ⟨1#256, 1#32⟩)] } }
def keyIn (k : Byte) : Bytes := [k, 0#8, 0#8, 0#8, 1#8, 0#8, 0#8, 0#8] ++ List.replicate 32 0x11#8

theorem witness_SecuredCommands : (mbUp secure (lead 0) = true ∧ sessionOf secure 0 1 = true ∧ securedRc secure (.session 0 1) = none) ∧
    ((keyIn 6#8).length = 40 ∧ leAt (keyIn 6#8) 0 2 = 6 ∧ leAt (keyIn 6#8) 2 2 = 0 ∧ leAt (keyIn 6#8) 4 4 ≠ 0 ∧ keySlot secure 6#12 = none ∧
      leAt (keyIn 9#8) 0 2 = 9 ∧ (keySlot secure 9#12).isSome = true) ∧ (leAt [9#8, 0#8] 0 2 = 9 ∧ keyUsed secure 9 = false) ∧
    (leAt [2#8, 0#8, 9#8, 0#8, 0#8, 0#8, 0#8, 0#8] 2 2 = 9 ∧ (regionOf secure 2).map (·.typ) = some .protect ∧ passOn secure 2 = none ∧
      secure.cry.passes = [] ∧ fillingRegion secure 2 = false) ∧
    (leAt ([0x40#8, 0xC0#8, 0#8, 0#8, 40#8, 0#8, 0#8, 0#8] ++ keyIn 6#8) 0 2 = 0xC040 ∧
      leAt ([0x40#8, 0xC0#8, 0#8, 0#8, 40#8, 0#8, 0#8, 0#8] ++ keyIn 6#8) 2 2 = 0 ∧
      8 + 40 ≤ ([0x40#8, 0xC0#8, 0#8, 0#8, 40#8, 0#8, 0#8, 0#8] ++ keyIn 6#8).length ∧ leAt [0x41#8, 0xC0#8] 0 2 = 0xC041 ∧ leAt [0x42#8, 0xC0#8] 0 2 = 0xC042 ∧
      leAt [0#8, 0#8] 0 2 ∉ [0xC040, 0xC041, 0xC042] ∧
      leAt ([0x40#8, 0xC0#8, 0#8, 0#8, 40#8, 0#8, 0#8, 0#8] ++ keyIn 6#8) 4 4 = 40) ∧
    securedRc { secure with host := { secure.host with sessions := [(1, some ⟨0, 8#256⟩)] } } (.session 0 1) = some .invalidSecurityState := by decide

theorem witness_DoeCommands : mbUp secure fn0 = true ∧ ((cdatEntries { secure with map := mapped.map } fn0)[(1#16 : BitVec 16).toNat - 1]?).isSome = true ∧ sessionCount secure (fun x => x.head = 0) < 2 ∧ sessionCount secure (fun _ => true) < 16 ∧
    sessionOf secure 0 1 = true ∧ (3 : Fin 8).val ≠ 0 ∧
    2 ≤ sessionCount { secure with host := { secure.host with sessions := [(1, some ⟨0, 7#256⟩), (2, some ⟨0, 7#256⟩)] } } (fun x => x.head = 0) := by decide

/-- A pass over a protected region whose next line stands in a DRAM page, its record read or its sub-channel out; one that is ending; and Dawn 0 with every
module in service. -/
def passing (sub : SubState) : State :=
  { secure with
    place := [(0, { st := .dram })]
    dram := { subs := [(0, { st := sub, rq := [{ f := 0 }] })], dimms := [(0, { spd := some spd16 })], recs := [(0, mkRec 0 0#512 0#56)] }
    cry := { secure.cry with passes := [⟨2, 5#12, 9#12, false, []⟩] } }
def passingBusy : State := { passing .service with ha := { txns := [(0, { live := true })] } }
def paced : State := onCry (fun c => { c with pace := Table.set (0, 0) c.pace 0 (0, 10 ^ 6) }) (passing .service)
def region2 : Region := ⟨2, .protect, false, false, 5#12, 0, 0, 0x40000000, 0⟩
def ending : State := { secure with cry := { secure.cry with passes := [⟨2, 5#12, 9#12, true, []⟩] } }
def dawn0 : State := { up with dawn := {} }

theorem witness_TwilightAndKoist : (regionOf (passing .service) 2 = some region2 ∧ passOn (passing .service) 2 = some ⟨2, 5#12, 9#12, false, []⟩ ∧
      walkersRun (passing .service) 0 = true ∧ passNext (passing .service) region2 0 (1 + 2 * (runsOf (passing .service) 0 2).length +
        mapFrames (passing .service) region2 + 2) 0 = 0 ∧ 0 < passLines (passing .service) region2 ∧
      passLine (passing .service) region2 0 0 = .dpa 0 ∧ lineLost (passing .out) 0 = true ∧ lineLost passingBusy 0 = false ∧
      lineFree passingBusy 0 = false ∧ lineLost (passing .service) 0 = false ∧ lineFree (passing .service) 0 = true ∧
      (passing .service).ha.twWait = [] ∧ twSpent (passing .service) 0 < twRate (passing .service) 0 ∧
      twRate paced 0 ≤ twSpent paced 0 ∧ passTurn (passing .service) 0 = some 2 ∧ passTurn passingBusy 0 = some 2) ∧
    (ending.cry.passes = [⟨2, 5#12, 9#12, true, []⟩] ∧ oldInUse ending 2 5#12 = false) ∧
    (running dawn0 = true ∧ (koistLinks dawn0)[0]? = some (0, 1) ∧ (Table.get 0#4 dawn0.fab.modules 0).getLsbD 2 = true ∧
      setBit (Table.get 0#4 dawn0.fab.modules 0) 2 false ≠ 0#4 ∧ dawn0.dawn.stage = 0 ∧ dawn0.dawn.failed = false) := by decide

theorem witness_TwilightAndKoist_line : ((takeLine 0 0#648 { kind := 2 } (onDram (fun d => { d with recs := [(0, mkRec 0 0#512 (mkMeta 5#12 false 0 0 0))] }) (passing .service))).map
    (fun x => (x.2.1, decide (metaKey x.1.meta_ = slotFor x.2.2 region2 (dpaLoc x.2.2 region2 0))))) = some (false, true) := by
  decide +kernel

/-- A line of tile 1 held in a stable state, with a tracker, or in the eviction buffer. -/
def holding (st : LineSt) : State := { up with nc := { slots := [(ncKey 1 0 3, { st := st, tag := 0#26 })] } }
def tracking (st : TrkState) : State := setTrk 1 0 { live := true, st := st } up
def evicting : State := setEvb 1 0 (some {}) up
def snoopOf (op : Op) : Msg := { op := op, src := 0, dst := 1, line := 0, q := 2 }

theorem witness_SnoopTable : (getEvb evicting 1 0).isSome = true ∧
    (∀ st ∈ [TrkState.isD, .isF, .isN, .imD, .imF, .imN, .smD], getEvb (tracking st) 1 0 = none ∧ (getTrk (tracking st) 1 0).live = true ∧
      (getTrk (tracking st) 1 0).st = st) ∧
    (copyOf up 1 0 = none ∧ (getTrk up 1 0).live = false ∧ getEvb up 1 0 = none) ∧
    (copyOf (holding .s) 1 0 = some (.s, {}) ∧ copyOf (holding .e) 1 0 = some (.e, {}) ∧ copyOf (holding .m) 1 0 = some (.m, {})) ∧
    ((snoopOf .snpInv).op = .snpInv ∧ (snoopOf .snpShare).op = .snpShare ∧ (snoopOf .snpOwn).op = .snpOwn ∧ (snoopOf .snpCur).op = .snpCur) := by decide +kernel

/-- A request of tile 1 for line 0 on its way to its home; the line taken, or not. -/
def reqMsg (op : Op) : Msg := { op := op, src := 1, dst := homeOf mapped 0, line := 0 }
def requested (op : Op) (taken : Bool) : State := { mapped with fab := { mapped.fab with req := [reqMsg op] }, ha := { txns := [(0, { live := taken })] } }

theorem witness_RequestsReachHome :
    (∀ op ∈ [Op.rdShared, .rdOwn, .rdCur, .wrLine, .wrPart, .hostCe, .farAtom], reqOf (requested op true) 1 0 = some (reqMsg op) ∧ (reqMsg op).op = op ∧
      reqOf (requested op false) 1 0 = some (reqMsg op) ∧ reqMay (requested op true) (reqMsg op) = true ∧ reqMay (requested op false) (reqMsg op) = true) ∧
    (engineUp (requested .rdOwn true) (homeOf mapped 0) = true ∧ lineTaken (requested .rdOwn true) 0 = true ∧
      lineTaken (requested .rdOwn false) 0 = false ∧ getLq (requested .rdOwn false) 0 = []) ∧
    (dirWay mapped 0 = none ∧ waiters mapped (homeOf mapped 0) (dirSet mapped 0) = [] ∧
      (wayNow mapped (homeOf mapped 0) (dirSet mapped 0)).isSome = true) ∧
    ((1 : TileId).val ∈ (route mapped 1 (homeOf mapped 0)).dropLast ∧ engineUp mapped 1 = true) := by decide +kernel

/-- Requests of tiles 1 and 4 for line 0 that reach its home in one cycle, by different ports. -/
def tiedTwo : State := { mapped with fab := { mapped.fab with req := [reqMsg .rdOwn, { reqMsg .rdOwn with src := 4 }] } }
/-- Two requests at one port: tiles 1 and 2 by the link into the home, the second aged, or of a class whose turn it is. -/
def portTwo (cls : Nat) (aged : Bool) : State :=
  { mapped with fab := { mapped.fab with req := [reqMsg .rdOwn, { reqMsg .rdOwn with src := 2, aged := aged, attr := { cls := cls } }], reqTurn := Table.set (0, 0) [] (turnKey (1, 0) 0) (cls, 0) } }
theorem witness_RequestsReachHome_port : reqPort (portTwo 0 true) (reqMsg .rdOwn) = some (1, 0) ∧ atPort (portTwo 0 true) (1, 0) = (portTwo 0 true).fab.req ∧
    reqMay (portTwo 0 true) (reqMsg .rdOwn) = false ∧ reqMay (portTwo 0 false) (reqMsg .rdOwn) = true ∧ reqMay (portTwo 3 false) (reqMsg .rdOwn) = false ∧
    reqPort (portTwo 3 false) (reqMsg .rdOwn) = some (1, 0) ∧ (∀ x ∈ atPort (portTwo 3 false) (1, 0), x.aged = false ∧ classPrio (portTwo 3 false) x.attr.cls ≤ 0) := by decide +kernel
theorem witness_RequestsReachHome_tied : reqOf tiedTwo 1 0 = some (reqMsg .rdOwn) ∧ engineUp tiedTwo (homeOf mapped 0) = true ∧
    reqMay tiedTwo (reqMsg .rdOwn) = true ∧ tiedWith (reqMsg .rdOwn) [4] tiedTwo = [{ reqMsg .rdOwn with src := 4 }] ∧
    tieOrder (tiles tiedTwo) (Table.get 0 tiedTwo.ha.lastTie (homeOf mapped 0)) [reqMsg .rdOwn, { reqMsg .rdOwn with src := 4 }] =
      [reqMsg .rdOwn, { reqMsg .rdOwn with src := 4 }] := by decide +kernel

def entered : State := newEntry (homeOf mapped 0) (dirSet mapped 0) 2 false 0 mapped
theorem witness_RequestsReachHome_entry : dirWay entered 0 = some 2 ∧ entryLost entered 0 = false := by decide +kernel

/-- A HOM or FWD message on its way to tile 1, whose tracker of line 0 is in state `st`. -/
def homTo (op : Op) (st : TrkState) : State :=
  { setTrk 1 0 { live := true, st := st } mapped with fab := { mapped.fab with hom := [{ op := op, src := 0, dst := 1, line := 0, val := { err := decide (op = .atomRes) } }] } }
def fwdTo (op : Op) (st : TrkState) : State :=
  { setTrk 1 0 { live := true, st := st } mapped with fab := { mapped.fab with fwd := [{ op := op, src := 0, dst := 1, line := 0 }] } }

theorem witness_HomeMessagesAtTile :
    (∀ p ∈ [(Op.snpInv, TrkState.isD), (.snpShare, .isD), (.snpOwn, .isD), (.snpCur, .isD), (.datS, .isD), (.datS, .isF), (.datE, .imD), (.datE, .imF),
            (.grant, .smD), (.fwdNote, .isD), (.fwdNote, .imD), (.fwdNote, .isN), (.fwdNote, .imN), (.datX, .x), (.cmp, .x), (.atomRes, .x),
            (.wbAck, .x), (.biSnpReq, .x), (.biAckReq, .x)],
      (nextHom (homTo p.1 p.2) 1 0 p.1).isSome = true ∧ engineUp (homTo p.1 p.2) 1 = true ∧ (getTrk (homTo p.1 p.2) 1 0).live = true ∧
      (getTrk (homTo p.1 p.2) 1 0).st = p.2 ∧ getOps (homTo p.1 p.2) 1 0 = []) ∧
    ((getEvb (setEvb 1 0 (some {}) (homTo .wbAck .x)) 1 0).isSome = true ∧ (nextHom (setEvb 1 0 (some {}) (homTo .wbAck .x)) 1 0 .wbAck).isSome = true) ∧
    ((getPort (homTo .biSnpReq .x) 0).up = true ∧ (getPort (onPort 0 (fun p => { p with bi := true }) (homTo .biSnpReq .x)) 0).bi = true ∧
      (getPort (onPort 0 (fun p => { p with up := false }) (homTo .biSnpReq .x)) 0).up = false) ∧
    ((nextHom (setTrk 1 0 {} (homTo .datS .x)) 1 0 .datS).isSome = true ∧ (getTrk (setTrk 1 0 {} (homTo .datS .x)) 1 0).live = false) ∧
    (∀ p ∈ [(Op.fdatS, TrkState.isF), (.fdatS, .isD), (.fdatE, .imD), (.fdatM, .imD), (.fdatE, .imF), (.fdatM, .imF), (.fdatX, .x)], engineUp (fwdTo p.1 p.2) 1 = true ∧
      ((fwdTo p.1 p.2).fab.fwd.find? (fun m => m.dst = 1 ∧ m.line = 0 ∧ m.op = p.1)).isSome = true ∧ (getTrk (fwdTo p.1 p.2) 1 0).live = true ∧
      (getTrk (fwdTo p.1 p.2) 1 0).st = p.2) ∧
    (getTrk (setTrk 1 0 {} (fwdTo .fdatS .x)) 1 0).live = false ∧ (getTrk (setTrk 1 0 { live := true, st := .isN, bad := true } (homTo .fwdNote .isN)) 1 0).bad = true ∧
    valOk 0 0#512 (lineChk 0 0#512) = true := by decide +kernel

/-- A RSP message of tile 1 on its way to tile 0, with a transaction of line 0 that waits for tile 1 and for head 2; or with no transaction. -/
def rspMsg (op : Op) (newS newI : Bool) : Msg := { op := op, src := 1, dst := 0, line := 0, newS := newS, newI := newI, attr := { head := 2 } }
def answering (op : Op) (newS newI : Bool) : State :=
  { mapped with fab := { mapped.fab with rsp := [rspMsg op newS newI] },
                ha := { txns := [(0, { live := true, snoops := 2#8, lost := true, bis := [(2, 0#16, .inv, true)] })] } }
def unasked (op : Op) : State := { mapped with fab := { mapped.fab with rsp := [rspMsg op false false] } }
def owned : State := onEnt 0 (fun e => { e with ts := .owned, tvec := 2#8 }) (newEntry 0 (dirSet mapped 0) 2 false 0 (unasked .wbData))

def broken : State := onEnt 0 (fun e => { e with tsBad := true }) owned

theorem witness_AnswersAtHome :
    (∀ op ∈ [Op.snpRspI, .snpRspIData, .snpRspFwd, .snpRspFwdS, .wbData, .biRspFwd, .hostWb, .biConflictFwd],
      nextRsp (answering op false false) 1 0 op = some (rspMsg op false false) ∧ engineUp (answering op false false) 0 = true ∧
      (getTxn (answering op false false) 0).live = true ∧ (getTxn (answering op false false) 0).snoops.getLsbD 1 = true ∧
      (getTxn (answering op false false) 0).lost = true ∧
      (answering op false false).ha.txns.find? (fun e => e.2.live && decide (homeOf (answering op false false) e.1 = 0) && e.2.bis.any (fun b => b.1 = 2 ∧ b.2.1 = 0#16)) =
        some (0, { live := true, snoops := 2#8, lost := true, bis := [(2, 0#16, .inv, true)] }) ∧
      (∃ b ∈ (getTxn (answering op false false) 0).bis, b.1 = (rspMsg op false false).attr.head) ∧ (regionAt (answering op false false) 0).isSome = true ∧
      nextRsp (unasked op) 1 0 op = some (rspMsg op false false) ∧ (getTxn (unasked op) 0).live = false ∧ (unasked op).ha.txns = [] ∧
      ownerTile (entOf (unasked op) 0) ≠ some 1 ∧ entryLost (unasked op) 0 = false) ∧
    ((∀ p ∈ [(true, false), (false, true)], nextRsp (answering .snpRspFwd p.1 p.2) 1 0 .snpRspFwd = some (rspMsg .snpRspFwd p.1 p.2))) ∧
    (biAccepts .inv .i = true ∧ biAccepts .inv .s = false) ∧
    (nextRsp owned 1 0 .wbData = some (rspMsg .wbData false false) ∧ (getTxn owned 0).live = false ∧ ownerTile (entOf owned 0) = some 1 ∧
      (applyWb (rspMsg .wbData false false) owned).1 = true ∧ entryLost owned 0 = false) ∧
    (applyWb (rspMsg .wbData false false) (onHa (fun h => { h with walkLock := [(0, true)] }) owned)).1 = false ∧
    ((dirWay broken 0).isSome = true ∧ entryLost broken 0 = true ∧ (getTxn broken 0).live = false ∧ nextRsp broken 1 0 .wbData = some (rspMsg .wbData false false) ∧
      (evictions broken 0).length < 64 ∧ Table.get false broken.ha.walkLock 0 = false) := by decide +kernel

/-- One DIMM of 16 GiB on channel 0 of tile 0, both sub-channels in service. -/
def dimmed (s : State) : State := { s with dram := { s.dram with
  subs := [(0, { st := .service }), (1, { st := .service })], dimms := [(0, { spd := some spd16 })] } }
def stored0 : State := putPlace 0 { st := .dram, frame := 5 } (dimmed mapped)
/-- A transaction of line 0 that reads its record and has a BISnp to head 2 outstanding; a full directory set with a miss that waits; a tracker unsent. -/
def reading : State := { stored0 with ha := { txns := [(0, { live := true, media := true, metaWait := true, bis := [(2, 0#16, .inv, true)] })] } }
def queuedAt : State := { mapped with ha := { lq := [(0, [{ op := .rdOwn, src := 1, dst := 0, line := 0 }])] } }
def fullSet : State := setWaiters 0 (dirSet mapped 0) [{ op := .rdOwn, src := 1, dst := 0, line := 0 }]
  ((List.range 16).foldl (fun s w => newEntry 0 (dirSet mapped 0) w false (8192 * w) s) mapped)
def victimLine : Nat := match victimWay fullSet 0 (dirSet mapped 0) with | some w => (getDir fullSet 0 (dirSet mapped 0) w).line | none => 0
def brokenSet : State := onEnt victimLine (fun e => { e with tsBad := true }) fullSet

/-- A host's miss of head 0 at tile 1 that waits for a shared tracker. -/
def hostMiss : Msg := { op := .rdShared, src := 1, dst := 0, line := 0, attr := { head := 0, kind := 0 } }
def ownTurn : State := setTrk 1 0 { live := true, unsent := true, req := some hostMiss } mapped

/-- A miss of head 1 that waits beside it; and a full set with way 15 reserved and in use. -/
def twoTurns : State := setTrk 1 1 { live := true, unsent := true, req := some { hostMiss with line := 1, attr := { head := 1, kind := 0 } } } ownTurn
def guestSet : State := { newEntry 0 (dirSet mapped 0) 15 false 1048833 fullSet with regs := [(regAddr .haDirCfg 0, 1#32)] }

theorem witness_HomeOwnCommands :
    ((regionAt reading 0).isSome = true ∧ engineUp reading (homeOf reading 0) = true ∧ (getTxn reading 0).live = true ∧
      (getTxn reading 0).media = true ∧ (regionAt reading 0).map (·.typ) ≠ some .packed ∧ lineLost reading 0 = false ∧
      readsOwn reading 0 (getTxn reading 0) = true ∧ (takeLine 0 0#648 {} reading).isSome = true ∧
      lineLost { reading with dram := { reading.dram with subs := [] } } 0 = true ∧ (regionAt mapped 0).isSome = true ∧ engineUp mapped (homeOf mapped 0) = true ∧
      (getTxn mapped 0).live = false) ∧
    (lineHeld queuedAt 0 = false ∧ Table.get [] queuedAt.ha.wbuf 0 = [] ∧ (getLq queuedAt 0).length = 1 ∧ getLq mapped 0 = [] ∧ lineHeld mapped 0 = false ∧
      Table.get [] (wbArrive (rspMsg .wbData false false) (onHa (fun h => { h with walkLock := [(0, true)] }) broken)).ha.wbuf 0 ≠ []) ∧
    ((getTxn reading 0).bis.find? (fun b => b.1 = 2) = some (2, 0#16, .inv, true)) ∧
    (∃ w, dirWay fullSet victimLine = some w ∧ victimWay fullSet (homeOf fullSet victimLine) (dirSet fullSet victimLine) = some w ∧
      (getTxn fullSet victimLine).live = false ∧ (evictions fullSet 0).length < 64 ∧ emptyWay fullSet 0 (dirSet mapped 0) = none ∧
      homeOf fullSet victimLine = 0 ∧ dirSet fullSet victimLine = dirSet mapped 0 ∧ waiters fullSet 0 (dirSet mapped 0) ≠ [] ∧
      evictingWays fullSet 0 (dirSet mapped 0) < 1 ∧ wayHeld fullSet 0 (dirSet mapped 0) w = false ∧ entryLost fullSet victimLine = false) ∧
    (∃ w, dirWay brokenSet victimLine = some w ∧ victimWay brokenSet (homeOf brokenSet victimLine) (dirSet brokenSet victimLine) = some w ∧
      (getTxn brokenSet victimLine).live = false ∧ (evictions brokenSet 0).length < 64 ∧ emptyWay brokenSet 0 (dirSet mapped 0) = none ∧
      waiters brokenSet 0 (dirSet mapped 0) ≠ [] ∧ evictingWays brokenSet 0 (dirSet mapped 0) < 1 ∧ wayHeld brokenSet 0 (dirSet mapped 0) w = false ∧ entryLost brokenSet victimLine = true) ∧
    (engineUp (setTrk 1 0 { live := true, unsent := true } up) 1 = true ∧ (getTrk (setTrk 1 0 { live := true, unsent := true } up) 1 0).unsent = true ∧ (getTrk (setTrk 1 0 { live := true, unsent := true } up) 1 0).req = none) ∧
    ((getTrk ownTurn 1 0).req = some hostMiss ∧ hostMiss.attr.kind = 0 ∧ inReserve ownTurn 0 hostMiss.attr.cls = false ∧ homeRoom ownTurn 0 hostMiss.attr.cls = true ∧
      poolTurn ownTurn 0 = some 0 ∧ itsTurn ownTurn 0 hostMiss.attr 0 = true ∧ itsTurn (onQos (fun q => { q with poolRr := [(0, tenantOf ownTurn 1)] }) twoTurns) 0 hostMiss.attr 0 = false ∧
      cutOff ownTurn 1 0 = false ∧ cutOff { ownTurn with fab := { ownTurn.fab with modules := [] } } 1 0 = true ∧ (readySlot 1 0 (getTrk ownTurn 1 0) ownTurn).isSome = true ∧ poolTurn (onQos (fun q => { q with poolRr := [(0, tenantOf ownTurn 1)] }) twoTurns) 0 = some 1 ∧ (getTrk twoTurns 1 0).req = some hostMiss) ∧
    (reservedWay guestSet 0 = true ∧ dirWay guestSet 1048833 = some 15 ∧ (getDir guestSet 0 (dirSet guestSet 1048833) 15).guest = false ∧
      emptyWay guestSet 0 (dirSet guestSet 1048833) = none ∧ wayHeld guestSet 0 (dirSet guestSet 1048833) 15 = false ∧ homeOf guestSet 1048833 = 0 ∧
      (getTxn guestSet 1048833).live = false ∧ engineUp guestSet 0 = true) := by
  refine ⟨by decide +kernel, by decide +kernel, by decide +kernel, ⟨(victimWay fullSet 0 (dirSet mapped 0)).getD 0, by decide +kernel⟩,
    ⟨(victimWay brokenSet 0 (dirSet mapped 0)).getD 0, by decide +kernel⟩, by decide +kernel, by decide +kernel, by decide +kernel⟩

/-- A range of four lines set up at tile 1; the range engine running and done; scratch in way 8; a fill of region 0. -/
def rangeSet : State := { up with regs := [(regAddr .ncRangeLen 1, 4#32)] }
def rangeRuns : State := onRange 1 (fun _ => { run := some .clean }) rangeSet
def withScratch : State := { up with regs := [(regAddr .ncWayCfg 1, 0x0100#32)], nc := { scratch := [(2 ^ 23, some (0#64, BitVec.ofNat 8 (checkByte 0 0 0)))] } }
def filling : State := setFill 3 (some ⟨0, 0x40000000, 0, none, true, [2], 0#8⟩) mapped

theorem witness_RangesScratchFills :
    (regOpen rangeSet .firmware .ncRangeCtl 1 = true ∧ (getRange rangeSet 1).run = none ∧ rangeLen rangeSet 1 = 4 ∧ rangeLen up 1 = 0 ∧
      (getRange rangeRuns 1).run ≠ none ∧ regOpen rangeRuns .firmware .ncRangeCtl 1 = true ∧ (getRange rangeRuns 1).waits = [] ∧
      (getRange rangeRuns 1).left = 0 ∧ (getRange rangeRuns 1).wbs = [] ∧ getEvb (setEvb 1 0 (some {}) (onRange 1 (fun x => { x with wbs := [0] }) rangeRuns)) 1 0 = some {} ∧ tileRuns rangeRuns 1 = true) ∧
    (regOpen up .firmware .ncWayCfg 1 = true ∧ up.nc.filled.getLsbD 1 = false ∧ ({ up with nc := { filled := 2#8 } } : State).nc.filled.getLsbD 1 = true) ∧
    (tileRuns withScratch 1 = true ∧ scratchKey withScratch 1 0 = some (2 ^ 23) ∧ scratchKey withScratch 1 0x400000 = none ∧
      Table.get none withScratch.nc.scratch (2 ^ 23) = some (0#64, BitVec.ofNat 8 (checkByte 0 0 0)) ∧
      checkWord 64 0 0 0 (BitVec.ofNat 8 (checkByte 0 0 0)).toNat = .ok ∧ checkWord 64 0 0 3 (BitVec.ofNat 8 (checkByte 0 0 0)).toNat = .bad ∧ checkWord 64 0 0 1 (BitVec.ofNat 8 (checkByte 0 0 0)).toNat = .fixed 0) ∧
    (commitOn filling ⟨0, 0x40000000, 0, none, true, [2], 0#8⟩ = false ∧ getFill filling 3 = some ⟨0, 0x40000000, 0, none, true, [2], 0#8⟩ ∧ running filling = true ∧ midnight filling = false ∧
      lineActive filling (fillHas ⟨0, 0x40000000, 0, none, true, [2], 0#8⟩) = false ∧ (regionAt filling (4096 * 2)).isSome = true ∧
      fillHas ⟨0, 0x40000000, 0, none, true, [2], 0#8⟩ (64 * 2) = true ∧ lineActive filling (fun l => decide (l / 64 = 2)) = false ∧
      (filling.ha.dir.any (fun e => e.2.v && decide (e.2.line / 64 = 2))) = false) := by decide +kernel

/-- The DIMM of channel 0 of tile 0 with a rank that owes `debt`; its two sub-channels idle, the channel in Dusk state `k`. -/
def owing (debt : Nat) : State := onSub 0 (fun c => { c with debt := [(0, debt)] }) (dimmed up)
def duskAs (k : DuskSt) (abandon : Bool) : State := onDimm 0 0 (fun x => { x with dusk := k, abandon := abandon }) (dimmed { up with regs := [(regAddr .drDuskCfg 0, 1#32), (regAddr .drScrubCfg 0, 9#32)] })
def sameBanked (debt : Nat) : State := { owing debt with regs := [(regAddr .drRefCfg 0, 0x82#32)] }

theorem witness_DramCommands :
    (subAwake (owing 1) 0 = true ∧ subAwake (duskAs .asleep false) 0 = false ∧ 0 < ranksIn (owing 1) 0 ∧ Table.get 0 (getSub (owing 1) 0).debt 0 ≠ 0 ∧
      sameBank { owing 8 with regs := [(regAddr .drRefCfg 0, 0x80#32)] } 0 = false ∧ queuedTo (owing 1) 0 0 none = false ∧
      sameBank (sameBanked 8) 0 = true ∧ queuedTo (sameBanked 1) 0 0 (some 0) = false ∧ (Table.get 0#4 (getSub (sameBanked 1) 0).flags 0) = 0#4 ∧
      postponeMax (sameBanked 8) 0 ≤ Table.get 0 (getSub (sameBanked 8) 0).debt 0 ∧
      Table.get 0#4 (getSub (onSub 0 (fun c => { c with flags := [(0, 1#4)] }) (sameBanked 8)) 0).flags 0 ≠ 0#4) ∧
    ((getSub (onSub 0 (fun c => { c with raa := 32, acts := [(0, 32)] }) (owing 1)) 0).raa = 32 ∧ (owing 1).dawn.runLock = true ∧
      (getDimm (onDimm 0 0 (fun x => { x with pmic := true }) (owing 1)) 0 0).pmic = true ∧ subUp (owing 1) 0 = true ∧ Table.get 0 (getSub (onSub 0 (fun c => { c with raa := 32, acts := [(0, 32)] }) (owing 1)) 0).acts (bankKey 0 0 0) = 32 ∧ inDusk (owing 1) 0 = false ∧
      inDusk (duskAs .asleep false) 0 = true ∧ subUp (duskAs .asleep false) 0 = true) ∧
    ((getSub (onSub 0 (fun c => { c with rq := [{ f := 3 }], wq := [{ f := 7 }] }) (dimmed up)) 0).rq ≠ [] ∧ (getSub (onSub 0 (fun c => { c with rq := [{ f := 3 }], wq := [{ f := 7 }] }) (dimmed up)) 0).wq ≠ []) ∧
    (tileRuns (duskAs .awake false) 0 = true ∧ bit (regRaw (duskAs .awake false) .drDuskCfg 0) 0 = true ∧ (duskAs .awake false).qos.duskOff = false ∧
      (getDimm (duskAs .awake false) 0 0).dusk = .awake ∧ channelBusy (duskAs .awake false) 0 0 = false ∧
      (∀ d ∈ [0, 1], (getSub (duskAs .awake false) d).st = .service ∧ (getSub (duskAs .awake false) d).wq = [] ∧ (getSub (duskAs .awake false) d).rq = [] ∧
        (getSub (duskAs .awake false) d).trn = none ∧ rfmOwed (duskAs .awake false) d = false)) ∧
    ((getDimm (duskAs .entering false) 0 0).dusk = .entering ∧ (getDimm (duskAs .entering true) 0 0).abandon = true ∧ (getDimm (duskAs .waking false) 0 0).dusk = .waking) ∧
    (subLines (onSub 0 (fun c => { c with lag := 2 ^ 40 }) (duskAs .asleep false)) 0 < 2 * (getSub (onSub 0 (fun c => { c with lag := 2 ^ 40 }) (duskAs .asleep false)) 0).lag) ∧
    ((getDimm (onDimm 0 0 (fun x => { x with unlocked := true }) (dimmed up)) 0 0).unlocked = true) ∧
    (walkersRun (duskAs .awake false) 0 = true ∧ regFld (duskAs .awake false) .drScrubCfg 0 19 0 ≠ 0 ∧ inDusk (duskAs .awake false) 0 = false ∧
      (getSub (duskAs .awake false) 0).trn = none ∧ walkersRun (duskAs .asleep false) 0 = true ∧
      regFld (duskAs .asleep false) .drScrubCfg 0 19 0 ≠ 0) := by decide +kernel

/-- Before the run lock, with a helper of sub-channel 0 idle or running. -/
def unlocked (op : Option TrnOp) : State := onSub 0 (fun c => { c with trn := op }) { up with dawn := { stage := 3 } }

theorem witness_DramTraining :
    (regOpen (unlocked none) .firmware .drTrnCtl 0 = true ∧ locked (unlocked none) = false ∧ (getSub (unlocked none) 0).trn = none ∧
      locked up = true ∧ regOpen up .firmware .drTrnCtl 0 = true ∧ regOpen up .firmware .drPhyAcc 0 = true ∧ regOpen (unlocked none) .firmware .drPhyAcc 0 = true) ∧
    (∀ op ∈ [TrnOp.writeRead, .read, .write, .pattern, .level], (getSub (unlocked (some op)) 0).trn = some op) ∧
    (fld 0x80000000#32 30 28 < 6 ∧ (0x80000000#32).getLsbD 31 = true ∧ 6 ≤ fld 0xE0000000#32 30 28 ∧ (0x50000000#32).getLsbD 31 = false ∧
      fld 0x50000000#32 30 28 < 6) := by decide +kernel

/-- A flit of a TYPE and FSN with a good CRC; link 3 in a state, with one flit unacknowledged. -/
def flitOf (typ fsn : Nat) : Bytes :=
  let b := leBytes 2 (4096 * typ + fsn) ++ List.replicate 250 0#8
  b ++ leBytes 4 (crc32 b).toNat
def linkAs (st : NlState) (replays : Nat) (at_ : List Nat) : State :=
  onNl 3 (fun l => { l with st := st, replays := replays, retrainAt := at_, replay := [(0, [])] }) up
def dawn4Up : State := { up with dawn := { stage := 4 }, sv := { up.sv with nvmRails := 0xFF#8 } }

theorem witness_LinkTransport : nlUp (getLink (linkAs .active 8 []) 3) = true ∧
    (([] : Bytes).length ≠ 256) ∧
    ((getLink (linkAs .active 8 []) 3).rxSeq = 0) ∧
    ((getLink (linkAs .active 8 []) 3).replay ≠ [] ∧ (getLink (linkAs .active 8 []) 3).st = .active ∧ 8 ≤ (getLink (linkAs .active 8 []) 3).replays) ∧
    ((getLink (linkAs .retraining 8 [0]) 3).st = .retraining ∧ (getLink (linkAs .retraining 8 [0]) 3).retrainAt.length ≠ 3 ∧
      (getLink (linkAs .retraining 8 [0, 0, 0]) 3).retrainAt.length = 3 ∧
      (linkAs .retraining 8 [0, 0, 0]).time.now - (getLink (linkAs .retraining 8 [0, 0, 0]) 3).retrainAt.getLastD 0 < 1000000) ∧
    (firmwareRuns dawn4Up 0 = true ∧ midnight dawn4Up = false ∧ dawn4Up.sv.nvmRails.getLsbD 0 = true ∧ blockUp dawn4Up 0 4 = true ∧ dawn4Up.dawn.stage = 4 ∧ dawn4Up.dawn.recovery = false) ∧
    ((getLink (linkAs .training 0 []) 3).st = .training ∧ packagesKnown (linkAs .training 0 []) 3 = true ∧
      packagesKnown (onNl 3 (fun l => { l with found := 1 }) (linkAs .training 0 [])) 3 = false) := by decide +kernel

theorem witness_LinkTransport_crc (b : Bytes) (h : b.length = 252) (c : W32) :
    slice (b ++ leBytes 4 c.toNat) 0 252 = b ∧ leAt (b ++ leBytes 4 c.toNat) 252 4 = c.toNat := by
  have hc := c.isLt
  refine ⟨by simp [slice, ← h], ?_⟩
  have e : (b ++ leBytes 4 c.toNat).drop 252 = leBytes 4 c.toNat := by rw [← h]; exact List.drop_left
  simp only [leAt, slice]
  rw [e]
  have e2 : List.take 4 (leBytes 4 c.toNat) = leBytes 4 c.toNat := rfl
  have e3 : (List.replicate (4 - (leBytes 4 c.toNat).length) 0#8) = [] := rfl
  rw [e2, e3, List.append_nil]
  simp only [leBytes, leNat, BitVec.toNat_ofNat]
  omega

/-- A good flit of each TYPE, in sequence (FSN 0) or not: its length, CRC and TYPE are right. -/
theorem witness_LinkTransport_good : ∀ p ∈ [(0, 0), (1, 0), (1, 4), (2, 0)], (flitOf p.1 p.2).length = 256 ∧
    leAt (flitOf p.1 p.2) 252 4 = (crc32 (slice (flitOf p.1 p.2) 0 252)).toNat ∧ leAt (flitOf p.1 p.2) 0 2 / 4096 = p.1 ∧
    leAt (flitOf p.1 p.2) 0 2 % 4096 = p.2 := by
  intro p hp
  obtain ⟨h1, h2⟩ := witness_LinkTransport_crc (leBytes 2 (4096 * p.1 + p.2) ++ List.replicate 250 0#8) (by
    rw [List.length_append, List.length_replicate]; rfl) (crc32 (leBytes 2 (4096 * p.1 + p.2) ++ List.replicate 250 0#8))
  refine ⟨?_, ?_, ?_⟩
  · simp only [flitOf, List.length_append, List.length_replicate, leBytes, List.length]
  · rw [flitOf, h1]; exact h2
  · have e3 : leAt (flitOf p.1 p.2) 0 2 = leNat (leBytes 2 (4096 * p.1 + p.2)) := rfl
    rw [e3]; clear h1 h2 e3; revert p; decide +kernel

/-- Link 3 with command `q` under tag 0 and its response in the inbox. -/
def answered (st : NlState) (opc status : Nat) (q : NReq) (body : Bytes) : State :=
  onNl 3 (fun l => { l with st := st, reqs := [(0, some q)], inbox := [⟨status, 0, opc, body⟩] }) up
def readReq : NReq := { opc := 1, pkg := 0, chunk := 0, use := .data 0 0 0 }

theorem witness_PackageResponses :
    (∀ p ∈ [(0x21, readReq), (0x22, { readReq with opc := 2, fails := 0 }), (0x22, { readReq with opc := 2, fails := 1 }), (0x23, readReq),
            (0x24, { readReq with use := .metaRot 5 {} }), (0x24, { readReq with use := .metaBlk 5 {} }), (0x25, readReq)],
      ∀ status ∈ [0, 1, 2, 3], ((takeRsp 3 p.1 (answered .active p.1 status p.2 [])).map (fun x => (x.1.status, x.2.1))) = some (status, p.2)) ∧
    (takeRsp 3 0x21 up = none) ∧
    ((takeRsp 3 0x25 (answered .training 0x25 0 readReq (List.replicate 8 0#8 ++ leBytes 8 (4261504 * 256)))).map
      (fun x => (leAt x.1.body 8 8, (getLink x.2.2 3).st))) = some (4261504 * 256, .training) ∧
    ((takeRsp 3 0x25 (answered .training 0x25 0 readReq [])).map (fun x => (leAt x.1.body 8 8, (getLink x.2.2 3).st))) = some (0, .training) := by decide +kernel

/-- Link 0 of tile 0 in service as the only link of a group; and what each walker finds there. -/
def nvmUp (f : Nvm → Nvm) : State := { up with nvm := f { links := [(0, { st := .active, pkgs := 1 })], grps := [(0, ⟨.normal, 15, none⟩)], ranks := [(0, [0])] } }
def wornMap : State := onRot 0 0 3 (fun y => { y with progs := 1000000, moves := 64 }) (nvmUp id)
def oldBlock : State := onBlk 0 0 7 (fun b => { b with st := .data, wcount := 4294000000, save := true, due := true }) (nvmUp id)
def doneOp (retire : Bool) : State := setOp 0 (some ⟨0, 0, retire, 3, 5, 6, 7, 8, 1, [], none, true, some 4⟩) (nvmUp id)
def waitingWrite : State := { dimmed (nvmUp (fun n => { n with slotWait := [⟨0, 1, 2, {}, 0, 0⟩], draining := 1#8 })) with regs := [(regAddr .nlAbsCfg 0, 0xFFFF#32)] }
/-- A line of an NVM page whose write waits for a slot. -/
def lineWaits : State := putPlace 0 { st := .nvm } { dimmed mapped with regs := [(regAddr .nlAbsCfg 0, 0xFFFF#32)], nvm := { waitingWrite.nvm with slotWait := [], lineWait := [(0, 3)] } }
def destaged : State := setWork 4 (some ⟨.destage, 0, 0, 9, 15, [], [], [], [], true, none, false, 0, false⟩) (nvmUp id)
def heldBlock : State := onBlk 0 0 7 (fun b => { b with st := .data, due := true }) (nvmUp (fun n => { n with links := (List.range 9).map (fun i => (i, { st := .active, pkgs := 1, pos := i })) }))
def refreshing (busy : Option (Nat × List Nat)) : State := setRefresh 0 (some ⟨0, 0, 7, 0, [5], busy⟩) heldBlock
def lateBlock : State := onBlk 0 0 7 (fun b => { b with st := .data, stamp := 1 }) (nvmUp id)

theorem witness_WearAndDrift :
    (linkServes wornMap 0 = true ∧ gapInterval wornMap 0 ≤ (getRot wornMap 0 0 3).progs ∧ 64 ≤ (getRot wornMap 0 0 3).moves ∧ (getRot (nvmUp id) 0 0 3).moves < 64 ∧
      (getRot (nvmUp id) 0 0 3).progs < gapInterval (nvmUp id) 0 ∧ (∀ b ∈ ([0, 1, 2] : List Nat), blkLocked wornMap 0 0 b = false) ∧ blkRefreshing wornMap 0 0 (slotEnt (getRot wornMap 0 0 3) 3 4095).2 = false ∧ linkServes (nvmUp id) 0 = true ∧
      wornMap.nvm.ops = []) ∧
    ((finishedOp (doneOp false) 0 0 (fun o => !o.retire && o.region = 3)).isSome = true ∧ (finishedOp (doneOp true) 0 0 (fun o => o.retire && o.src = 7)).isSome = true) ∧
    (linkServes oldBlock 0 = true ∧ (getBlk oldBlock 0 0 7).st = .data ∧ retireAt oldBlock 0 ≤ (getBlk oldBlock 0 0 7).wcount ∧ (getBlk oldBlock 0 0 7).save = true ∧
      (getBlk (nvmUp id) 0 0 7).wcount < retireAt (nvmUp id) 0 ∧ (getBlk (nvmUp id) 0 0 7).save = false) ∧
    ((waitingWrite.nvm.slotWait.find? (fun w => decide (w.tile = 0))).isSome = true ∧ waitingWrite.nvm.lineWait = [] ∧ (freeSlot waitingWrite 0).isSome = true ∧
      getSlot waitingWrite 0 1 0 = none ∧ slotQueue waitingWrite 0 = true ∧ slotQueue up 0 = false ∧ waitingWrite.nvm.draining.getLsbD 0 = true ∧
      up.nvm.draining.getLsbD 0 = false ∧ idleSlots waitingWrite 0 = []) ∧
    (destaged.nvm.works = [(4, some ⟨.destage, 0, 0, 9, 15, [], [], [], [], true, none, false, 0, false⟩)] ∧ (ranksOf destaged 0).getD 0 4 = 0) ∧ (writeAt lineWaits 0 = some (true, 0) ∧ (lineWaits.nvm.lineWait.find? (fun w => decide (homeOf lineWaits w.1 = 0))) = some (0, 3) ∧
      (freeSlot lineWaits 0).isSome = true ∧ getSlot lineWaits 0 0 0 = none ∧ lineWaits.nvm.slotWait = []) ∧
    (walkersRun heldBlock 0 = true ∧ linkServes heldBlock 0 = true ∧ getRefresh heldBlock 0 = none ∧ (getBlk heldBlock 0 0 7).st = .data ∧ (getBlk heldBlock 0 0 7).due = true ∧ walkersRun oldBlock 0 = true ∧ getRefresh oldBlock 0 = none ∧ (getBlk oldBlock 0 0 7).due = true ∧ nvmFrames oldBlock 0 ≤ 2 ^ 30) ∧
    (getRefresh (refreshing none) 0 = some ⟨0, 0, 7, 0, [5], none⟩ ∧ walkersRun (refreshing none) 0 = true ∧ linkServes (refreshing none) 0 = true ∧
      (getRefresh (refreshing (some (5, []))) 0).map (·.busy) ≠ some none ∧ blkLocked (refreshing none) 0 0 7 = false) ∧
    (3 * horizon lateBlock 0 * 3600 < 2 * blkAge lateBlock (getBlk lateBlock 0 0 7) ∧ 2 * blkAge oldBlock (getBlk oldBlock 0 0 7) ≤ 3 * horizon oldBlock 0 * 3600) ∧
    ((getGrp { up with nvm := { grps := [(0, ⟨.degraded, 3, some (0, 36)⟩)] } } 0 0) = ⟨.degraded, 3, some (0, 36)⟩ ∧
      nvmInUse { up with nvm := { grps := [(0, ⟨.degraded, 3, some (0, 36)⟩)] } } 0 = [] ∧ nvmFrames { up with nvm := { grps := [(0, ⟨.degraded, 3, some (0, 36)⟩)] } } 0 = 0) := by
  repeat' apply And.intro
  all_goals decide +kernel

/-- A drift refresh that has come to the chunk of link 1 that holds lines of page 0. -/
def refreshPage : State := setRefresh 0 (some ⟨1, 0, 0, 0, [0], none⟩) (putPlace 0 { st := .nvm } { heldBlock with map := mapped.map })
theorem witness_WearAndDrift_page : heldChunk refreshPage 1 0 0 0 = some (0, 0, 1) ∧ ownerOf refreshPage 0 true 0 = some 0 ∧ linkServes refreshPage 1 = true ∧
    walkersRun refreshPage 0 = true ∧ blkLocked refreshPage 1 0 0 = false ∧ progBuf refreshPage 1 0 0 = none ∧
    ((List.range 4).map (fun i => 64 * 0 + 4 * (0 % 2 * 8 + dataIdx 0 1) + i)).all (lineFree refreshPage) = true ∧ Table.get none refreshPage.tier.moves 0 = none ∧
    refreshPage.ha.twWait = [] := by
  repeat' apply And.intro
  all_goals decide +kernel

/-- The drift clauses: a chunk that holds data of a frame in use, and one that holds none. -/
theorem witness_WearAndDrift_chunks : (∃ o, o < 256 ∧ (heldChunk oldBlock 0 0 7 o).isSome = true) ∧ (∀ o, o < 256 → heldChunk heldBlock 0 0 7 o = none) ∧
    heldChunk (refreshing none) 0 0 7 5 = none := by
  refine ⟨⟨0, by decide +kernel, by decide +kernel⟩, by decide +kernel, by decide +kernel⟩

/-- Page 0 of the mapped region, held in a tier with TIER_INFO `v`; the nine links of a group in service, and one DIMM, beside it. -/
def nineLinks (s : State) : State :=
  { s with nvm := { links := (List.range 9).map (fun i => (i, { st := .active, pkgs := 1, pos := i })), grps := [(0, ⟨.normal, 15, none⟩)], ranks := [(0, [0])] } }
def tiered (st : PageSt) (v : BitVec 16) : State :=
  let s := putPlace 0 { st := st, tier := v } (nineLinks (dimmed { mapped with map := { mapped.map with cat := [⟨0, .plain, false, false, 0#12, 0, 0, 0x40000000, 0⟩] } }))
  { s with regs := [(regAddr .trCfg 0, 0x10081001#32), (regAddr .trFree 0, 0xFFFFFFFF#32), (regAddr .trRate 0, 0x00100010#32), (regAddr .trBudget 3, 0x10#32), (regAddr .trReserve 0, 0x00010001#32)] }
def fullQueue : State := { tiered .nvm 0xF0FF#16 with tier := { promote := [(0, List.range' 1 1024)] } }
def noPages : State := { tiered .nvm 0x8030#16 with tier := { promote := [(0, [0])] }, place := [] }
def noDimm : State := { setMove 0 (some ⟨0, false, 0, 5, 0#64, true⟩) (tiered .dram 0x8030#16) with dram := {} }
def promoting : State := { tiered .nvm 0x8030#16 with tier := { promote := [(0, [0])] } }
def demotable : State := { tiered .dram 0x0010#16 with tier := { demote := [(0, [0])] } }
def movable : State := setMove 0 (some ⟨0, false, 0, 5, 0#64, true⟩) (tiered .dram 0x8030#16)
def moving (toDram : Bool) (copied : W64) : State := setMove 0 (some ⟨0, toDram, 0, 5, copied, true⟩) (tiered (if toDram then .nvm else .dram) 0x8030#16)

/-- Every block of the group holds data, so that a chunk is read from its package. -/
def oldChunks (s : State) : State := (List.range 9).foldl (fun s n => onBlk n 0 0 (fun b => { b with st := .data }) s) s

theorem witness_TieringCommands :
    (tileRuns (tiered .nvm 0xF0FF#16) 0 = true ∧ homeOf (tiered .nvm 0xF0FF#16) 0 = 0 ∧ (regionAt (tiered .nvm 0xF0FF#16) 0).map isTiered = some true ∧
      tierMode (tiered .nvm 0xF0FF#16) 0 = 1 ∧ regFld (tiered .nvm 0xF0FF#16) .trCfg 0 31 24 ≤ heatOf 0xF0FF#16 ∧
      regFld (tiered .nvm 0xF0FF#16) .trCfg 0 15 12 ≤ residOf 0xF0FF#16 ∧ (Table.get [] (tiered .nvm 0xF0FF#16).tier.promote 0).length < 1024 ∧
      heatOf 0x003F#16 ≤ regFld (tiered .dram 0x003F#16) .trCfg 0 23 16 ∧ residOf 0x0030#16 < regFld (tiered .dram 0x0030#16) .trCfg 0 15 12 ∧
      1024 ≤ (Table.get [] fullQueue.tier.promote 0).length ∧ (Table.get [] fullQueue.tier.promote 0).contains 0 = false ∧
      1024 ≤ (Table.get [] ({ fullQueue with tier := { demote := fullQueue.tier.promote } } : State).tier.demote 0).length) ∧
    (walkersRun promoting 0 = true ∧ tierMode promoting 0 = 1 ∧ dramStop promoting 0 = false ∧ (movesOn promoting 0).length < 16 ∧ hasToken promoting 0 16 = true ∧
      0 < freeOut promoting 0 false ∧ ((List.range 16).map (fun i => (Table.get 0 promoting.tier.rrClass 0 + i) % 16)).findSome? (fun c =>
        if hasToken promoting 0 c then ((Table.get [] promoting.tier.promote 0).find? (fun p => classIn (getPlace promoting p).tier = c)).map (fun p => (c, p)) else none) = some (3, 0)) ∧
    ((getPlace promoting 0).st = .nvm ∧ (freeFrame (onTier (fun x => { x with promote := [], rrClass := [(0, 4)] }) promoting) 0 false).isSome = true ∧
      (getPlace noPages 0).st ≠ .nvm) ∧
    (walkersRun demotable 0 = true ∧ tierMode demotable 0 = 1 ∧ hasToken demotable 0 16 = true ∧ hasToken demotable 0 17 = true ∧ (sampleFree 0 demotable).tier.demoting.getLsbD 0 = true ∧
      (movesOn demotable 0).length < 16 ∧ Table.get [] demotable.tier.demote 0 = [0] ∧ nextDemotion demotable 0 = some 0 ∧ dramStop demotable 0 = false ∧ (getPlace demotable 0).st = .dram ∧
      (freeFrame (onTier (fun x => { x with demote := [] }) (sampleFree 0 demotable)) 0 true).isSome = true) ∧
    ((getMove (moving true 0#64) 0 = some ⟨0, true, 0, 5, 0#64, true⟩ ∧ walkersRun (moving true 0#64) 0 = true ∧ lineFree (moving true 0#64) 0 = true) ∧
      (getMove (moving true 0xFFFFFFFFFFFFFFFF#64) 0 = some ⟨0, true, 0, 5, 0xFFFFFFFFFFFFFFFF#64, true⟩ ∧ walkersRun (moving true 0xFFFFFFFFFFFFFFFF#64) 0 = true ∧ lineFree (moving true 0xFFFFFFFFFFFFFFFF#64) 0 = true) ∧
      (getMove (moving false 0#64) 0 = some ⟨0, false, 0, 5, 0#64, true⟩ ∧ walkersRun (moving false 0#64) 0 = true ∧ lineFree (moving false 0#64) 0 = true) ∧
      (getMove (moving false 0xFFFFFFFFFFFFFFFF#64) 0 = some ⟨0, false, 0, 5, 0xFFFFFFFFFFFFFFFF#64, true⟩ ∧ walkersRun (moving false 0xFFFFFFFFFFFFFFFF#64) 0 = true ∧ lineFree (moving false 0xFFFFFFFFFFFFFFFF#64) 0 = true)) ∧
    (locLost noDimm 0 false 0 0 = true ∧ locLost (moving true 0#64) 0 true 0 0 = false ∧
      (takeSource ⟨0, true, 0, 5, 0#64, true⟩ 0 0#648 (askSource 0 true 0 0 (oldChunks (moving true 0#64)))).isNone = true ∧ locLost movable 0 false 0 0 = false ∧
      getMove movable 0 = some ⟨0, false, 0, 5, 0#64, true⟩ ∧ lineFree movable 0 = true ∧ walkersRun movable 0 = true ∧
      (takeSource ⟨0, false, 0, 5, 0#64, true⟩ 0 0#648 (askSource 0 false 0 0 movable)).isSome = true) := by
  repeat' apply And.intro
  all_goals decide +kernel

/-- Ring 5 of head 9 in a state, with a descriptor to fetch, two records in its queue and room for more; and a job of it with a part. -/
def ringUp (st : RingSt) (f : Ring → Ring) : State :=
  { mapped with job := { rings := [(5, f { st := st, tail := 8#32, head := 4#32, cqTail := 2#32, cfg := 0x00002484#32, dbase := 0x1000#64, cbase := 0x2000#64, route := some 0, mark := 8#32 })] } }
def enableable (cfg : W32) : State :=
  { ringUp .disabled (fun x => { x with cfg := cfg }) with
    host := { mapped.host with ports := (0, { up := true, ready := true }) :: [(9, { up := true, ready := true })] }
    map := { mapped.map with cat := [⟨0, .ring, false, false, 0#12, 0, 0, 0x40000000, 0⟩], views := [⟨9, 0, 0, 3, false⟩] } }
def withJob (typ : Nat) (parts : Nat) (ps : List (Nat × Option Part)) : State :=
  let s := ringUp .running id
  { s with job := { s.job with jobs := [(jobKey 5 4, some { tile := 0, desc := leBytes 1 typ ++ List.replicate 63 0#8, started := true, parts := parts })], parts := ps } }
/-- No link is up: the rings that tiles other than T0 serve are out of its reach. -/
def cutRing : State := { ringUp .running id with fab := {} }
def otherHead : PortId := 3
def ownerHead : PortId := 9

theorem witness_RingsAndJobs :
    (running (ringUp .running id) = true ∧ hasRights (ringUp .running id) (.head ownerHead 0) = false ∧ ownerHead.val = rgOwner (getRing (ringUp .running id) 5) ∧
      otherHead.val ≠ rgOwner (getRing (ringUp .running id) 5) ∧ hasRights (ringUp .running id) (.head otherHead 0) = false ∧
      hasRights (ringUp .running id) (.head 0 0) = true ∧ cutOff (ringUp .running id) (portTile 9) (servingTile (ringUp .running id) 5) = false ∧
      cutOff (ringUp .running id) (portTile 0) (servingTile (ringUp .running id) 5) = false ∧ cutOff (ringUp .running id) 0 (servingTile (ringUp .running id) 5) = false ∧
      running cutRing = true ∧ cutOff cutRing 0 (servingTile cutRing 5) = true) ∧
    ((9#32 - (getRing (ringUp .running id) 5).head).toNat ≤ 2 ^ rgDlog (getRing (ringUp .running id) 5) ∧ (9#32 - (getRing (ringUp .running id) 5).tail).toNat < 2 ^ 31 ∧
      2 ^ rgDlog (getRing (ringUp .running id) 5) < (100#32 - (getRing (ringUp .running id) 5).head).toNat ∧
      (1#32 - (getRing (ringUp .running id) 5).cqHead).toNat ≤ ((getRing (ringUp .running id) 5).cqTail - (getRing (ringUp .running id) 5).cqHead).toNat ∧
      ((getRing (ringUp .running id) 5).cqTail - (getRing (ringUp .running id) 5).cqHead).toNat < (3#32 - (getRing (ringUp .running id) 5).cqHead).toNat) ∧
    ((getRing (enableable 0x00002484#32) 5).st = .disabled ∧ (enableable 0x00002484#32).dawn.memActive = true ∧ midnight (enableable 0x00002484#32) = false ∧
      enableCode (enableable 0x00002484#32) 5 = 0 ∧ enableCode (enableable 0#32) 5 = 1) ∧
    (∀ b ∈ [true, false], (getRing (ringUp .initialising (fun x => { x with zeroBad := b })) 5).st = .initialising ∧
      (getRing (ringUp .initialising (fun x => { x with zeroBad := b })) 5).zeroLeft = 0 ∧ (getRing (ringUp .initialising (fun x => { x with zeroBad := b })) 5).zeroBad = b) := by
  decide +kernel

theorem witness_RingsAndJobs_jobs :
    (engineUp (ringUp .running id) 0 = true ∧ quiesced (ringUp .running id) = false ∧ nextRing (ringUp .running id) 0 = some 5 ∧ nextRing (ringUp .disabled id) 0 = none) ∧
    (engineUp (ringUp .aborting id) (routeOf (ringUp .aborting id) 5) = true ∧ (getRing (ringUp .aborting id) 5).quiet = false ∧
      (getRing (ringUp .aborting id) 5).head ≠ (getRing (ringUp .aborting id) 5).mark ∧ (getRing (ringUp .aborting id) 5).reading = none ∧
      cqRoom (getRing (ringUp .aborting id) 5) = true ∧ (getRing (ringUp .aborting id) 5).inflight < 2048) ∧
    (∀ typ ∈ [1, 3], (getJob (withJob typ 2 []) 5 4).map (fun j => j.started && !j.ended_ && !j.cancelled && j.reports.isEmpty && decide (j.next < j.parts) && decide (dType j.desc = typ)) =
        some true ∧ engineUp (withJob typ 2 []) (routeOf (withJob typ 2 []) 5) = true ∧ (getRing (withJob typ 2 []) 5).st = .running ∧
      (getJob (withJob typ 2 []) 5 4).map (fun j => !cutOff (withJob typ 2 []) (routeOf (withJob typ 2 []) 5) (partTile (withJob typ 2 []) j j.next) &&
        decide (nextJob (withJob typ 2 []) 0 = some (jobKey 5 4))) = some true) ∧
    ((getPart (withJob 1 2 [(partKey 5 4 0, some { tile := 0, phase := .done })]) 5 4 0).map (fun p => (p.tile, p.phase, p.fail)) = some (0, .done, none) ∧
      (getPart (withJob 1 2 [(partKey 5 4 0, some { tile := 0, phase := .done, fail := some (.dataError, 64) })]) 5 4 0).map (·.fail) = some (some (.dataError, 64)) ∧
      (getJob (withJob 1 0 []) 5 4).isSome = true ∧ nextJob (withJob 1 0 []) 0 = none ∧ midnight (ringUp .stopped id) = false ∧ midnight (ringUp .aborting id) = false ∧
      engineUp (withJob 1 2 [(partKey 5 4 0, some { tile := 0, phase := .done })]) 0 = true ∧
      cutOff (withJob 1 2 [(partKey 5 4 0, some { tile := 0, phase := .done })]) 0 (routeOf (withJob 1 2 [(partKey 5 4 0, some { tile := 0, phase := .done })]) 5) = false) := by
  repeat' apply And.intro
  all_goals decide +kernel

/-- A part whose destination's home is a tile that the serving tile cannot reach. -/
def farJob : State :=
  let s := withJob 1 2 []
  { s with fab := {}, job := { s.job with jobs := [(jobKey 5 4, some { tile := 0, desc := leBytes 1 1 ++ List.replicate 23 0#8 ++ leBytes 8 0x1000 ++ List.replicate 32 0#8, started := true, parts := 2 })] } }
theorem witness_RingsAndJobs_far : (getJob farJob 5 4).map (fun j => cutOff farJob (routeOf farJob 5) (partTile farJob j j.next)) = some true ∧
    engineUp farJob (routeOf farJob 5) = true ∧ (getJob farJob 5 4).map (fun j => (j.started, j.ended_, decide (j.next < j.parts))) = some (true, false, true) ∧
    nextJob farJob (routeOf farJob 5) = some (jobKey 5 4) ∧ quiesced farJob = false := by decide +kernel

/-- A packed region of 4 KiB blocks with a decompression of its block 0, a commit that waits, and an ingest job with a part in a phase. -/
def packed (d : Decomp) : State :=
  { up with map := { cat := [⟨1, .packed, false, false, 0#12, 12, 0, 0x100000, 16⟩] }, pk := { decs := [d], commits := [{ tile := 0, ring := 5, n := 4 }] } }
def partOf (ph : PartPhase) (mode : Nat) (stream : Bytes) (reports : List PartRes) : State :=
  let s := packed { tile := 0, region := 1, block := 9, granted := false, second := false, failed := false, waits := [] }
  { s with job := { jobs := [(jobKey 5 4, some { tile := 0, desc := leBytes 1 3 ++ List.replicate 31 0#8 ++ leBytes 1 mode ++ List.replicate 31 0#8, started := true, parts := 1, reports := reports })]
                    parts := [(partKey 5 4 0, some { tile := 0, phase := ph, todo := [hdrPart], stream := stream })] } }
def blkReport : PartRes := ⟨0, .success, 0, false, false, 0, some ⟨1, 1, 1, 0, 1⟩⟩
def decWith (granted second failed : Bool) : State :=
  packed { tile := 0, region := 1, block := 0, granted := granted, second := second, failed := failed, waits := [] }

def runWith : State := { decWith true false false with pk := { (decWith true false false).pk with maps := [(mapKey 0 1 0, { fmt := 1, dblk := 1, clen := 2, units := 1 })] } }

theorem witness_IngestAndPacked :
    (∀ mode ∈ [0, 1], (getPart (partOf .reading mode [] []) 5 4 0).map (fun p => (p.tile, partFresh p)) = some (0, true) ∧
      (getJob (partOf .reading mode [] []) 5 4).map (fun j => inMode j.desc) = some mode ∧
      ((getJob (partOf .reading mode [] []) 5 4).bind (fun j => destPacked (partOf .reading mode [] []) j.desc)).map (·.idx) = some 1 ∧ engineUp (partOf .reading mode [] []) 0 = true) ∧
    ((getPart (partOf .compressing 0 [] []) 5 4 0).map (·.phase) = some .compressing ∧ (getPart (partOf .validating 1 [] []) 5 4 0).map (·.phase) = some .validating ∧
      ((getPart (partOf .compressing 0 [] []) 5 4 0).bind (fun p => getPart (storeStream 5 4 0 ⟨1, .packed, false, false, 0#12, 12, 0, 0x100000, 16⟩ [] 1
        (setPart 5 4 0 (some { p with fail := some (.dataError, 0) }) (partOf .compressing 0 [] []))) 5 4 0)).isSome = true) ∧
    (decsOn (decWith false false false) 0 + validating (decWith false false false) 0 < 12 ∧ ((decWith false false false).pk.decs.find? (fun d => decide (d.tile = 0) && !d.granted && !d.mapWait)).isSome = true ∧
      ((decWith true false false).pk.decs.all (fun d => d.granted)) = true ∧ (regionOf (decWith false false false) 1).isSome = true) ∧
    ((decOf (decWith true false false) 1 0).isSome = true ∧ engineUp (decWith true false false) 0 = true ∧
      ((regionOf (decWith true false false) 1).map (fun r => storeLost (decWith true false false) r 0 1 0)) = some true ∧ unitsOf (getMap runWith 0 1 0).clen = 1 ∧
      ((regionOf runWith 1).map (fun r => storeLost runWith r 0 1 0)) = some true ∧ (decOf runWith 1 0).isSome = true) ∧
    (∀ b ∈ [true, false], (decOf (decWith true b true) 1 0).map (fun d => (d.failed, d.second)) = some (true, b) ∧ (decWith true b true).cry.verifs = []) ∧
    ((getJob (partOf .done 1 [] [blkReport]) 5 4).isSome = true ∧ (partOf .done 1 [] [blkReport]).pk.commits.find? (fun c => c.tile = 0) = some { tile := 0, ring := 5, n := 4 } ∧
      (getJob (setJob 5 6 (getJob (partOf .done 1 [] []) 5 4) (partOf .done 1 [] [])) 5 6).isSome = true ∧ engineUp (partOf .done 1 [] []) 0 = true) := by
  repeat' apply And.intro
  all_goals decide +kernel

/-- A decompression whose store lines can be read: the packed store of region 1 in the DRAM of a DIMM; and streams that decode and that do not. -/
def storeUp : State :=
  let s := dimmed (decWith true false false)
  { s with dawn := { s.dawn with params := [(ascii "packed.store.tier", [1#8, 0#8, 0#8])] }, pk := { s.pk with maps := [(mapKey 0 1 0, { fmt := 1, dblk := 1, clen := 2, units := 1 })] } }
theorem witness_IngestAndPacked_store :
    ((regionOf storeUp 1).map (fun r => !storeLost storeUp r 0 2 0 && (storeGet storeUp r 0 2 0).isSome && (List.range 4).all (fun i => !storeLost storeUp r 0 1 i && (storeGet storeUp r 0 1 i).isSome))) = some true ∧
    unitsOf (getMap storeUp 0 1 0).clen = 1 ∧ (getMap storeUp 0 1 0).run = 0 ∧ (decOf storeUp 1 0).map (fun d => (d.granted, d.failed)) = some (true, false) ∧
    engineUp storeUp 0 = true := by
  repeat' apply And.intro
  all_goals decide +kernel

/-- A decompression whose map line has been asked for and stands in the write queue, and one on a lost sub-channel. -/
def mapWaits (sub : SubState) : State :=
  let s := storeUp
  let f := (storeAt s ⟨1, .packed, false, false, 0#12, 12, 0, 0x100000, 16⟩ 0 2 0)
  { s with pk := { s.pk with decs := [{ tile := 0, region := 1, block := 0, granted := false, second := false, failed := false, waits := [], mapWait := true }] }
           dram := { s.dram with subs := [0, 1].map (fun d => (d, { st := sub, wq := [{ f := 64 * f.2.1 + f.2.2 }] })) } }
theorem witness_IngestAndPacked_map :
    (regionAt (mapWaits .service) 0).map (·.typ) = some .packed ∧ engineUp (mapWaits .service) (homeOf (mapWaits .service) 0) = true ∧
    ((regionOf (mapWaits .service) 1).map (fun r => decide ((blockOf (mapWaits .service) r 0).block = 0) && decide ((blockOf (mapWaits .service) r 0).tile = 0) &&
      !storeLost (mapWaits .service) r 0 2 0 && (storeGet (mapWaits .service) r 0 2 0).isSome && mapQueued (mapWaits .service) r 0 0 && storeLost (mapWaits .out) r 0 2 0)) = some true ∧
    (decOf (mapWaits .service) 1 0).map (·.mapWait) = some true := by
  repeat' apply And.intro
  all_goals decide +kernel

/-- The commit clauses: a block with a decompression in flight, a block that is free, one whose lock is held, and a tile without blocks of the job. -/
def commitHeld (dec : Bool) (locks : List BlkLock) : State :=
  let s := dimmed (partOf .done 1 [] [blkReport])
  { s with cry := { keys := [(5, some ⟨1#256, 1#32⟩)], nonce := some 0#64 }
           dawn := { s.dawn with params := [(ascii "packed.store.tier", [1#8, 0#8, 0#8])] }
           pk := { s.pk with decs := if dec then [{ tile := 0, region := 1, block := 0, granted := true, second := false, failed := false, waits := [] }] else [], locks := locks } }
def region1 : Region := ⟨1, .packed, false, false, 0#12, 12, 0, 0x100000, 16⟩
theorem witness_IngestAndPacked_commit :
    ((getJob (commitHeld true []) 5 4).bind (fun j => (destPacked (commitHeld true []) j.desc).map (fun g => decide (g = region1) && (commitBlocks g j 0).any (fun b => decide (b.1 = 0))))) =
      some true ∧
    (lockFree (commitHeld true []) region1 0 = false ∧ lockFree (commitHeld false []) region1 0 = true ∧ lockOf (commitHeld false []) 1 0 = none) ∧
    ((lockOf (commitHeld false [⟨0, 1, 0, []⟩]) 1 0).isSome = true ∧ (blockLines region1 0).all (fun l => !invalidating (commitHeld false [⟨0, 1, 0, []⟩]) l) = true ∧
      storeReady (commitHeld false [⟨0, 1, 0, []⟩]) region1 0 2 0 = true) ∧
    invalidating (setTxn 0 { live := true, req := some { op := .wrLine, src := 0, dst := 0, line := 0, trk := commitTrk } } (commitHeld false [⟨0, 1, 0, []⟩])) 0 = true ∧
    ((getJob (partOf .done 1 [] []) 5 4).bind (fun j => (destPacked (partOf .done 1 [] []) j.desc).map (fun g => (commitBlocks g j 0).isEmpty))) = some true ∧
    (writeMap { region1 with key := 5#12 } 0 0 { fmt := 1, dblk := 1, clen := 2, gen := 1, units := 1 } {} (commitHeld false [])).1 = true ∧ (writeMap region1 0 0 {} {} (packed { tile := 0, region := 1, block := 0, granted := true, second := false, failed := false, waits := [] })).1 = false := by
  repeat' apply And.intro
  all_goals decide +kernel

/-- Out of reset with a line's region and a programmed anchor, before and after a key. -/
def keyed (b : Bool) : State := { mapped with cry := { everInstalled := b } }
theorem witness_TapCommands :
    ((keyed false).rst.por = false ∧ tapGate (keyed false) = true ∧ tapGate (keyed true) = false ∧ tileRuns (keyed false) 0 = true ∧ (keyed false).fuse.tiles = 8 ∧
      arraySize (keyed false) 2 = 8192) ∧
    ({ up with fuse := { up.fuse with tiles := 2 } } : State).fuse.tiles = 2 ∧ ({ up with fuse := { up.fuse with tiles := 4 } } : State).fuse.tiles = 4 ∧
    (up.fuse.anchor = 0#256 ∧ ({ up with rst := { up.rst with anchorWindow := true } } : State).rst.anchorWindow = true ∧ up.rst.anchorWindow = false) ∧
    ((regionAt (keyed false) 0).map (fun r => decide (r.typ ≠ .packed))) = some true ∧ inFill (keyed false) 0 = false ∧ walkersRun (dimmed up) 0 = true ∧
    locLost (dimmed up) 0 false 0 0 = false ∧ placeLineAt (dimmed up) 0 0 0 = none ∧ (takeLoc 2 0 false 0 0 0#648 (dimmed up)).isSome = true ∧
    (takeLoc 2 0 true 0 0 0#648 (nineLinks up)).isNone = true ∧ locLost (nineLinks up) 0 true 0 0 = false ∧ walkersRun (nineLinks up) 0 = true ∧
    shadowOf (dimmed up) 0 false 0 = none ∧ (shadowOf (dimmed secure) 0 false (64 * 8383926)).isSome = true ∧ walkersRun (dimmed secure) 0 = true ∧
    locLost (dimmed secure) 0 false 8383926 0 = false ∧ placeLineAt (dimmed secure) 0 8383926 0 = none ∧ (takeLoc 2 0 false 8383926 0 0#648 (dimmed secure)).isSome = true := by
  repeat' apply And.intro
  all_goals decide +kernel

/-- Out of reset in Dawn 0 with a tile's clocks and released blocks. -/
def dawnZero (good : BitVec 7) (rel : BitVec 10) : State :=
  { rst := { por := false, resetN := false, driving := false }, sv := { tilesGood := 0xFF#8 }, clk := { good := [(1, good)], released := [(1, rel)] } }
theorem witness_ClocksAndReleases :
    (regOpen up (.head 0 0) .rstBlkCtl 1 = true ∧ regOpen up (.head 3 1) .rstBlkCtl 1 = false) ∧
    (running (dawnZero 1#7 0#10) = true ∧ 1 < (dawnZero 1#7 0#10).fuse.tiles ∧ (dawnZero 1#7 0#10).sv.tilesGood.getLsbD 1 = true ∧ clkGood (dawnZero 1#7 0#10) 1 0 = true ∧
      (bitsOf 10 (Table.get 0#10 (dawnZero 1#7 0#10).clk.released 1)).filter (fun k => clkBit k = 0) = [] ∧
      (bitsOf 10 (Table.get 0#10 (dawnZero 1#7 1#10).clk.released 1)).filter (fun k => clkBit k = 0) = [0]) ∧
    ((dawnZero 1#7 0#10).dawn.stage = 0 ∧ (dawnZero 1#7 0#10).dawn.failed = false ∧ tileRuns (dawnZero 1#7 0#10) 1 = false ∧ midnight (dawnZero 1#7 0#10) = false) := by
  repeat' apply And.intro
  all_goals decide +kernel

/-- A member of two tiles at a stage of Dawn, with slot A as its candidate. -/
def atStage (n : Nat) (cand : Option Bool) (mods : Table (BitVec 4)) : State :=
  { up with fuse := { up.fuse with tiles := 2 }, fab := { modules := mods }
            dawn := { stage := n, cand := cand, hdr := cand.map (fun _ => ⟨2, 1#32, 4096, [], []⟩) } }
def koistUp : Table (BitVec 4) := (List.range 10).map (fun i => (i, 15#4))
theorem witness_DawnStages :
    (tileRuns (atStage 0 none koistUp) 0 = true ∧ (atStage 0 none koistUp).dawn.failed = false ∧ (∀ t ∈ tileList (atStage 0 none koistUp), tileRuns (atStage 0 none koistUp) t = true) ∧
      (∀ t ∈ tileList (atStage 0 none koistUp), cutOff (atStage 0 none koistUp) 0 t = false) ∧ (∃ t ∈ tileList (atStage 0 none []), cutOff (atStage 0 none []) 0 t = true) ∧
      (atStage 0 none koistUp).fuse.anchorRead = 0#256) ∧
    ({ up with fuse := { up.fuse with anchorRead := 1#256 } } : State).fuse.anchorRead ≠ 0#256 ∧
    ((atStage 1 none koistUp).dawn.cand = none ∧ (atStage 1 none koistUp).dawn.runLock = false ∧ tileRuns (atStage 1 none koistUp) 0 = true) ∧
    ((atStage 2 (some false) koistUp).dawn.hdr.isSome = true ∧ firmwareRuns (atStage 2 (some false) koistUp) 0 = true ∧ midnight (atStage 2 (some false) koistUp) = false ∧ (atStage 2 (some false) koistUp).dawn.cand = some false) ∧
    (firmwareRuns (atStage 4 (some false) koistUp) 0 = true ∧ populationOk (atStage 2 (some false) koistUp) ⟨[(0, 0, spd16), (1, 0, spd16)], []⟩ = true ∧
      populationOk (atStage 2 (some false) koistUp) ⟨[(0, 0, { spd16 with width := 20 })], []⟩ = false ∧ (∀ e ∈ (atStage 5 (some false) koistUp).map.fills, e.2 = none)) ∧
    (({ up with qos := { busy := some 2 } } : State).qos.busy = some 2 ∧ primaryRuns { up with qos := { busy := some 2 } } = true ∧ midnight up = false) := by
  repeat' apply And.intro
  all_goals decide +kernel

/-- Dawn 5 of that member without DIMMs, where nothing fits, and with a DIMM on each tile and no regions. -/
def atFive (fitted : Bool) : State :=
  let s := atStage 4 (some false) koistUp
  let d : DimmCh := { spd := some spd16 }
  if fitted then { s with dram := { s.dram with subs := [(0, { st := .service }), (1, { st := .service }), (16, { st := .service }), (17, { st := .service })], dimms := [(0, d), (8, d)] } } else s
def grouped (s : State) : State := (tileList s).foldl (fun s t => formTile t s) (onDawn (fun d => { d with stage := 5 }) s)
theorem witness_DawnStages_fit : (∀ t ∈ tileList (atFive true), fitsTile (grouped (atFive true)) t = true) ∧
    (∃ t ∈ tileList (atFive false), fitsTile (grouped (atFive false)) t = false) := by
  refine ⟨by decide +kernel, by decide +kernel⟩

theorem witness_QueriesChangeOnlyAnswers : (exec (.getTimestamp ⟨0, 0, false⟩) up = .next (serve ⟨0, 0, false⟩ .any false (fun s => mbPut ⟨0, 0, false⟩ .success (.time (hostClock s)) s) up)) ∧
    exec .getEndpointId up = .next (i3cAnswer (.control 2#8 [0#8, up.i3c.eid, 0#8, 0#8]) up) ∧ exec (.getCsr ⟨0, 0, false⟩) up = .next (doePut ⟨0, 0, false⟩ (.error "UnsupportedRequest") up) :=
  ⟨rfl, rfl, rfl⟩

theorem witness_TapNeverReadsKeys : exec (.bypass 3#8) up = .next (tapBypass up) ∧ exec .idcode up = .next (tapRun 0x01#8 32 (idcode up).toNat up) := ⟨rfl, rfl⟩

end Sys2Proof.Tests
end

section
/-!
The reset state, register writes and firmware requests, and DRAM training (O2, O33, O49): the small laws of register words, of the register map, of the
mailbox payload and of the training register, then the statements they settle.
-/
namespace Sys2Proof.Machine

/-! The reset state. -/

/-- The state that power-on reset leaves lists no memory entry and names an eight-tile member. -/
theorem inv_reset : Inv State.reset := ⟨⟨rfl, rfl, rfl, rfl⟩, Or.inr (Or.inr rfl)⟩

/-- Settles O2: the memories of the reset state are empty, and each field named is the one its part starts with. -/
theorem resetInv : Obligations.ResetInv :=
  ⟨inv_reset, rfl, rfl, rfl, rfl, rfl, rfl, rfl, rfl, rfl, rfl, rfl, rfl⟩

/-! Words and registers. -/

theorem merge32_getLsbD (mask a b : W32) (i : Nat) (hi : i < 32) :
    (merge32 mask a b).getLsbD i = if mask.getLsbD i then a.getLsbD i else b.getLsbD i := by
  simp only [merge32, BitVec.getLsbD_or, BitVec.getLsbD_and, BitVec.getLsbD_not, hi]
  cases mask.getLsbD i <;> simp

/-- What a software write leaves in a bit, by its type: RW and, before the run lock, RWL bits are taken, W1C bits cleared by a 1 (R8, R9). -/
theorem storeBits_getLsbD (d : RegDesc) (lock : Bool) (old v : W32) (b : Nat) (hb : b < 32) :
    (storeBits d lock old v).getLsbD b =
      ((if d.rw.testBit b || (d.rwl.testBit b && !lock) then v.getLsbD b else old.getLsbD b) && !(d.w1c.testBit b && v.getLsbD b)) := by
  have hw : (BitVec.ofNat 32 (d.rw ||| if lock then 0 else d.rwl)).getLsbD b = (d.rw.testBit b || (d.rwl.testBit b && !lock)) := by
    cases lock <;> simp only [BitVec.getLsbD_ofNat, hb] <;> simp
  have hc : (BitVec.ofNat 32 d.w1c).getLsbD b = d.w1c.testBit b := by simp only [BitVec.getLsbD_ofNat, hb, decide_true, Bool.true_and]
  simp only [storeBits, BitVec.getLsbD_and, BitVec.getLsbD_not, merge32_getLsbD _ _ _ _ hb, hw, hc, hb, decide_true, Bool.true_and,
    Bool.and_comm]

/-- A field is the word's extract at its place. -/
theorem fld_eq_extractLsb' (w : W32) (hi lo : Nat) : fld w hi lo = (w.extractLsb' lo (hi - lo + 1)).toNat := by
  simp [fld, BitVec.extractLsb'_toNat]

/-- Every register of the map lies at 0x0100_0000 or above (R420–R422). -/
theorem regDesc_base_ge (k : RegKind) : 0x01000000 ≤ (regDesc k).base := by
  cases k <;> decide

theorem base_le_of_regInst {k : RegKind} {off i : Nat} (h : regInst k off = some i) : (regDesc k).base ≤ off := by
  by_contra hlt
  simp [regInst, hlt, Nat.lt_of_not_le hlt] at h

theorem regAt_ge {off i : Nat} {k : RegKind} (h : regAt off = some (k, i)) : 0x01000000 ≤ off := by
  obtain ⟨k', -, hk⟩ := List.exists_of_findSome?_eq_some h
  obtain ⟨i', hi, -⟩ := Option.map_eq_some_iff.1 hk
  exact (regDesc_base_ge k').trans (base_le_of_regInst hi)

theorem inPayload_of_regAt {off i : Nat} {k : RegKind} (h : regAt off = some (k, i)) : inPayload off = false := by
  have hoff := regAt_ge h
  simp only [inPayload, Bool.and_eq_false_iff, decide_eq_false_iff_not]
  omega

/-- A word of the register map is written where the agent reaches it, and not otherwise. -/
theorem write0_regAt {a : Agent} {off i : Nat} {k : RegKind} (h : regAt off = some (k, i)) (v : W32) (s : State) :
    write0 a off v s = if regOpen s a k i then writeKind a k i v s else s := by
  have hoff := regAt_ge h
  unfold write0
  split
  · omega
  · omega
  · rw [h]

/-- A register without an action of its own only stores its bits (R8). -/
theorem writeKind_plain (a : Agent) (k : RegKind) (i : Nat) (v : W32) (s : State)
    (hk : k ∉ [RegKind.fcSts, .fcEn, .fcForce, .fcCfg, .cntWinCfg, .ncWayCfg, .ncRangeBaseLo, .ncRangeBaseHi,
      .ncRangeLen, .ncRangeCtl, .drTrnCtl, .drTrnPat, .drPhyAcc, .drSchedCfg, .drRefCfg, .trRate, .trBudget, .rstBlkCtl, .dawnSts, .qosTrk]) :
    writeKind a k i v s = writeReg k i v s := by
  revert hk
  cases k <;> simp [writeKind]

/-! REGISTER_WRITE by its size and place (R426). -/

section
variable {a : Agent} {bar2 full : Bool} {off n : Nat} {v : Line} {s : State}

/-- A write lies outside the mailbox payload: in BAR2, or at an offset that is not the payload's, or past its end. -/
def offPayload (bar2 : Bool) (off n : Nat) : Prop := bar2 = true ∨ inPayload off = false ∨ 0x11120 < off + n

theorem payload_test_of_offPayload (h : offPayload bar2 off n) : (!bar2 && inPayload off && decide (off + n ≤ 0x11120)) = false := by
  rcases h with h | h | h
  · simp [h]
  · simp [h]
  · simp [Nat.not_le_of_lt h]

/-- Too long, or across an 8-byte boundary, a function's write completes with Completer Abort. -/
theorem registerWrite_abort {h : PortId} {ld : LdId} (hp : offPayload bar2 off n) (hn : 8 < n ∨ 8 < off % 8 + n) :
    registerWrite (.head h ld) bar2 off n v full s = send h.val (.cpl .abort 0#64) s := by
  simp only [registerWrite, payload_test_of_offPayload hp, if_pos hn]

/-- Within an 8-byte word the byte enables, the size and the alignment decide. -/
theorem registerWrite_short (hp : offPayload bar2 off n) (hb : off % 8 + n ≤ 8) :
    registerWrite a bar2 off n v full s =
      if !full then s
      else if n = 4 ∧ off % 4 = 0 then write32 a bar2 off (v.setWidth 32) s
      else if n = 8 ∧ off % 8 = 0 then write32 a bar2 (off + 4) ((v >>> 32).setWidth 32) (write32 a bar2 off (v.setWidth 32) s)
      else s := by
  have hn : ¬(8 < n ∨ 8 < off % 8 + n) := by omega
  cases a <;> simp only [registerWrite, payload_test_of_offPayload hp, if_neg hn]

theorem registerWrite_partial (hp : offPayload bar2 off n) (hb : off % 8 + n ≤ 8) : registerWrite a bar2 off n v false s = s :=
  registerWrite_short hp hb

theorem registerWrite_four (hp : offPayload bar2 off 4) (hb : off % 8 ≤ 4) :
    registerWrite a bar2 off 4 v true s = if off % 4 = 0 then write32 a bar2 off (v.setWidth 32) s else s := by
  rw [registerWrite_short hp (by omega)]
  simp

theorem registerWrite_eight (hp : offPayload bar2 off 8) (hb : off % 8 = 0) :
    registerWrite a bar2 off 8 v true s = write32 a bar2 (off + 4) ((v >>> 32).setWidth 32) (write32 a bar2 off (v.setWidth 32) s) := by
  rw [registerWrite_short hp (by omega)]
  simp [hb]

theorem registerWrite_payload {h : PortId} {ld : LdId} (hp : inPayload off = true) (hn : off + n ≤ 0x11120) :
    registerWrite (.head h ld) false off n v full s = payloadWrite (fnKey h.val ld.val false) off n v s := by
  simp [registerWrite, hp, hn]

theorem exec_registerWrite {o : BitVec 27} : exec (.registerWrite a bar2 o n v full) s = execRegisterWrite a bar2 o n v full s := rfl

theorem exec_registerWrite_of_agentUp {o : BitVec 27} (h : agentUp s a = true) :
    exec (.registerWrite a bar2 o n v full) s = .next (registerWrite a bar2 o.toNat n v full s) := by
  simp [exec_registerWrite, execRegisterWrite, h]

/-- A write that does nothing where it lands does nothing, whether or not its agent is there. -/
theorem exec_registerWrite_eq_self {o : BitVec 27} (h : registerWrite a bar2 o.toNat n v full s = s) :
    exec (.registerWrite a bar2 o n v full) s = .next s := by
  simp [exec_registerWrite, execRegisterWrite, h]

end

theorem send_of_up {s : State} {h : Nat} (hu : (getPort s h).up = true) (m : LinkMsg) :
    send h m s = { s with host := { s.host with sent := (h, m) :: s.host.sent } } := by
  simp [send, hu, onHost]

theorem port_up_of_agentUp {s : State} {h : PortId} {ld : LdId} (ha : agentUp s (.head h ld) = true) : (getPort s h.val).up = true := by
  simp only [agentUp, Bool.and_eq_true] at ha
  exact ha.1.2

/-! The mailbox payload (R66, R420). -/

@[simp] theorem getFn_onFn (k : Nat) (f : FnSt → FnSt) (s : State) : getFn (onFn k f s) k = f (getFn s k) := by
  simp [getFn, onFn]

/-- A payload byte's place is rewritten as the last entry, as `payloadWrite` does it. -/
def putByte (t : Table Byte) (k : Nat) (b : Byte) : Table Byte := Table.keep (fun j _ => decide (j ≠ k)) t ++ [(k, b)]

theorem find?_putByte_same (t : Table Byte) (k : Nat) (b : Byte) : (putByte t k b).find? (fun e => e.1 = k) = some (k, b) := by
  have hkeep : (Table.keep (fun j _ => decide (j ≠ k)) t).find? (fun e => e.1 = k) = none := by simp [Table.keep]
  rw [putByte, List.find?_append, hkeep]
  simp

theorem find?_putByte_other (t : Table Byte) {j k : Nat} (b : Byte) (h : j ≠ k) :
    (putByte t k b).find? (fun e => e.1 = j) = t.find? (fun e => e.1 = j) := by
  have hkeep : (Table.keep (fun i _ => decide (i ≠ k)) t).find? (fun e => e.1 = j) = t.find? (fun e => e.1 = j) := by
    rw [Table.keep, List.find?_filter]
    congr 1
    funext e
    by_cases he : e.1 = j <;> simp [he, h]
  rw [putByte, List.find?_append, hkeep]
  simp [h.symm]

/-- After bytes `0` to `n - 1` have been put from place `p` on, each is found at its place. -/
theorem find?_foldl_putByte (t : Table Byte) (p : Nat) (b : Nat → Byte) {n i : Nat} (hi : i < n) :
    ((List.range n).foldl (fun t i => putByte t (p + i) (b i)) t).find? (fun e => e.1 = p + i) = some (p + i, b i) := by
  induction n with
  | zero => omega
  | succ n ih =>
    rw [List.range_succ, List.foldl_append, List.foldl_cons, List.foldl_nil]
    by_cases h : i = n
    · subst h
      exact find?_putByte_same ..
    · rw [find?_putByte_other _ _ (by omega)]
      exact ih (by omega)

theorem payloadWrite_eq_onFn {f off n : Nat} (hn : n ≤ 64) (v : Line) (s : State) : payloadWrite f off n v s = onFn f (fun x =>
    { x with payload := (List.range n).foldl (fun t i => putByte t (off - 0x10120 + i) (BitVec.ofNat 8 (v.toNat >>> (8 * i)))) x.payload }) s := by
  rw [payloadWrite, if_neg (by omega)]
  rfl

@[simp] theorem payloadWrite_regs (f off n : Nat) (v : Line) (s : State) : (payloadWrite f off n v s).regs = s.regs := by
  unfold payloadWrite onFn
  split <;> rfl

/-- A payload byte reads back as it was written. -/
theorem payloadAt_payloadWrite {f off n i : Nat} (hoff : inPayload off = true) (hn : n ≤ 64) (hi : i < n) (v : Line) (s : State) :
    payloadAt (payloadWrite f off n v s) f (off + i) = BitVec.ofNat 8 (v.toNat >>> (8 * i)) := by
  have hplace : off + i - 0x10120 = off - 0x10120 + i := by
    simp only [inPayload, Bool.and_eq_true, decide_eq_true_eq] at hoff
    omega
  rw [payloadWrite_eq_onFn hn]
  simp only [payloadAt, getFn_onFn, hplace, find?_foldl_putByte _ _ _ hi]

/-! Firmware's memory requests (R307). -/

/-- What a firmware request starts at a line: a read, or a write of the line with its check code. -/
def fwOp (line : Nat) : Option Line → WOp
  | none => .fwRd false
  | some d => .fwWr false { data := d, chk := lineChk line d }

theorem exec_firmwareRequest (t : TileId) (x : FwTarget) (wr : Option Line) (s : State) :
    exec (.firmwareRequest t x wr) s = execFirmwareRequest t x wr s := rfl

section
variable {s : State} {t : TileId} (hrun : firmwareRuns s t.val = true) (hmid : midnight s = false)
include hrun hmid

/-- A request to a line of no region is a bus error. -/
theorem exec_firmwareRequest_noRegion {a : Dpa} (wr : Option Line) (hr : regionAt s a.toNat = none) :
    exec (.firmwareRequest t (.dpa a) wr) s = .next (fwBusError s) := by
  simp [exec_firmwareRequest, execFirmwareRequest, hrun, hmid, hr]

theorem exec_firmwareRequest_region {a : Dpa} {r : Region} (wr : Option Line) (hr : regionAt s a.toNat = some r) :
    exec (.firmwareRequest t (.dpa a) wr) s =
      .next (if r.typ = .protect ∨ r.typ = .packed then fwBusError (addCnt (tileCnt t.val 475) 1 s)
        else if inFill s a.toNat then fwBusError s
        else settle (startOp t.val (a.toNat / 64) (fwOp (a.toNat / 64) wr) { s with nc := { s.nc with fwOut := none } })) := by
  simp only [exec_firmwareRequest, execFirmwareRequest, hrun, hmid, hr, Bool.not_true, Bool.or_self, Bool.false_eq_true, if_false]
  cases wr <;> split_ifs <;> rfl

/-- A request that names no line of the placement map, or that writes one, is a bus error and is counted. -/
theorem exec_firmwareRequest_localFrame_error {u : TileId} {f : W32} {i : Fin 64} {wr : Option Line}
    (h : placeLineAt s u.val f.toNat i.val = none ∨ wr ≠ none) :
    exec (.firmwareRequest t (.localFrame u f i) wr) s = .next (fwBusError (addCnt (tileCnt t.val 475) 1 s)) := by
  simp only [exec_firmwareRequest, execFirmwareRequest, hrun, hmid, Bool.not_true, Bool.or_self, Bool.false_eq_true, if_false]
  split
  · simp_all
  · rfl

theorem exec_firmwareRequest_placeLine {u : TileId} {f : W32} {i : Fin 64} {k : Nat} (hu : tileRuns s u.val = true)
    (hc : cutOff s t.val u.val = false) (hk : placeLineAt s u.val f.toNat i.val = some k) :
    exec (.firmwareRequest t (.localFrame u f i) none) s = .next { s with nc := { s.nc with fwOut := some (some (placeLine s u.val k)) } } := by
  simp [exec_firmwareRequest, execFirmwareRequest, hrun, hmid, hk, hu, hc, onNc]

end

/-- Settles O33: each clause is REGISTER_WRITE's law for its size and place, or FIRMWARE_REQUEST's for its target. -/
theorem registerAndFirmwareWrites : Obligations.RegisterAndFirmwareWrites := by
  refine ⟨⟨?word, fun s a k i v hk => writeKind_plain a k i v s hk, storeBits_getLsbD, ?eight, ?abort, ?part, ?payload, ?closed⟩,
    ⟨?region, ?noRegion, ?localError, ?placement⟩⟩
  case word =>
    intro s a off v k i ha h4 h8 hk hopen
    rw [exec_registerWrite_of_agentUp ha, registerWrite_four (.inr (.inl (inPayload_of_regAt hk))) h8, if_pos h4]
    simp [write32, write0_regAt hk, hopen]
  case eight =>
    intro s a b2 off v ha h8 hp
    rw [exec_registerWrite_of_agentUp ha, registerWrite_eight (hp.imp_right .inl) h8]
  case abort =>
    intro s h ld b2 off n v full ha hp hn
    rw [exec_registerWrite_of_agentUp ha, registerWrite_abort hp hn, send_of_up (port_up_of_agentUp ha)]
  case part =>
    intro s a b2 off n v _ hb hp
    exact exec_registerWrite_eq_self (registerWrite_partial (hp.imp_right .inl) hb)
  case payload =>
    intro s h ld off n v full ha hp hend hn
    refine ⟨payloadWrite (fnKey h.val ld.val false) off.toNat n v s, ?_, payloadWrite_regs .., fun i hi => payloadAt_payloadWrite hp hn hi v s⟩
    rw [exec_registerWrite_of_agentUp ha, registerWrite_payload hp hend]
  case closed =>
    intro s a off v k i hk hclosed h8
    refine exec_registerWrite_eq_self ?_
    rw [registerWrite_four (.inr (.inl (inPayload_of_regAt hk))) h8]
    simp [write32, write0_regAt hk, hclosed]
  case region =>
    intro s t a wr r hrun hmid hr
    have hexec := fun wr => exec_firmwareRequest_region hrun hmid wr hr
    refine ⟨fun h1 h2 hf => ?_, fun d h1 h2 hf => ?_, fun h => ?_, fun h1 h2 hf => ?_⟩
    · simp [hexec, h1, h2, hf, fwOp]
    · simp [hexec, h1, h2, hf, fwOp]
    · simp [hexec, h]
    · simp [hexec, h1, h2, hf]
  case noRegion =>
    intro s t a wr hrun hmid hr
    exact exec_firmwareRequest_noRegion hrun hmid wr hr
  case localError =>
    intro s t u f i wr hrun hmid h
    exact exec_firmwareRequest_localFrame_error hrun hmid h
  case placement =>
    intro s t u f i k hrun hmid hu hc hk
    exact exec_firmwareRequest_placeLine hrun hmid hu hc hk

/-! Training runs and PHY settings (R167). -/

/-- The OP field of a start command's word does not depend on the word it is made from. -/
theorem trnWord_opField (op : Nat) (v : W32) :
    (trnWord op v).extractLsb' 28 3 = (BitVec.ofNat 32 (0x80000000 + op * 0x10000000)).extractLsb' 28 3 := by
  have hm : (0xF0000000#32).extractLsb' 28 3 = BitVec.allOnes 3 := by decide
  have hc : (~~~0xF0000000#32).extractLsb' 28 3 = 0#3 := by decide
  simp only [trnWord, merge32, BitVec.extractLsb'_or, BitVec.extractLsb'_and, hm, hc, BitVec.and_allOnes, BitVec.and_zero, BitVec.or_zero]

theorem fld_trnWord_op {op : Nat} (hop : op < 8) (v : W32) : fld (trnWord op v) 30 28 = op := by
  rw [fld_eq_extractLsb', trnWord_opField]
  interval_cases op <;> rfl

theorem bit_trnWord_start {op : Nat} (hop : op < 8) (v : W32) : bit (trnWord op v) 31 = true := by
  have hm : (0xF0000000#32).getLsbD 31 = true := by decide
  rw [bit, trnWord, merge32_getLsbD _ _ _ _ (by omega), if_pos hm]
  interval_cases op <;> rfl

/-- Before the run lock a start command stores its word, and starts a run of its OP where no helper runs. -/
theorem writeTrnCtl_trnWord {s : State} {d op : Nat} (hop : op < 8) (v : W32) (hl : locked s = false) :
    writeTrnCtl d (trnWord op v) s =
      if (getSub s d).trn.isNone then onSub d (fun c => { c with trn := some (trnOp op) }) (writeReg .drTrnCtl d (trnWord op v) (wake d s))
      else writeReg .drTrnCtl d (trnWord op v) (wake d s) := by
  simp [writeTrnCtl, hl, bit_trnWord_start hop, fld_trnWord_op hop]

/-- What a training command does by the run lock and by whether a helper runs. -/
theorem exec_startTraining {s : State} {a : Agent} {d op : Nat} {v : W32} {c : Instr} (hop : op < 8)
    (hopen : regOpen s a .drTrnCtl d = true) (hc : exec c s = .next (startTraining a d op v s)) :
    (locked s = true → exec c s = .next s) ∧
    (locked s = false → (getSub s d).trn = none → exec c s =
      .next (onSub d (fun c => { c with trn := some (trnOp op) }) (writeReg .drTrnCtl d (trnWord op v) (wake d s)))) ∧
    (locked s = false → (getSub s d).trn ≠ none → exec c s = .next (writeReg .drTrnCtl d (trnWord op v) (wake d s))) := by
  rw [hc, startTraining, if_pos hopen]
  refine ⟨fun hl => ?_, fun hl hn => ?_, fun hl hn => ?_⟩
  · simp [writeTrnCtl, hl]
  · simp [writeTrnCtl_trnWord hop v hl, hn]
  · simp [writeTrnCtl_trnWord hop v hl, hn]

/-- The end of a run: START is cleared, DONE set, and the error count and the lanes are replaced where the OP finds them (log 157). -/
theorem exec_trainingRunDone {s : State} {d : SubId} {op : TrnOp} (h : (getSub s d.val).trn = some op) (errs : Nat) (lanes : BitVec 40) :
    exec (.trainingRunDone d errs lanes) s = .next (turn d.val (raiseBit .drTrnSts d.val 31 (onSub d.val (fun c =>
      { c with trn := none, errs := if op = .level ∨ op = .write then (getSub s d.val).errs else min errs 65535,
               lanes := if op = .write then c.lanes else lanes }) s))) := by
  change execTrainingRunDone d errs lanes s = _
  simp only [execTrainingRunDone, h]

theorem exec_drPhyAccWrite {s : State} {a : Agent} {d : SubId} {v : W32} (h : regOpen s a .drPhyAcc d.val = true) :
    exec (.drPhyAccWrite a d v) s = .next (writePhyAcc d.val v s) := by
  change execDrPhyAccWrite a d v s = _
  rw [execDrPhyAccWrite, if_pos h]

/-- Settles O49: the five training commands are one start with their OP, and the end of a run and the PHY write go by OP and KIND. -/
theorem dramTraining : Obligations.DramTraining := by
  refine ⟨?start, ?done, ?phy⟩
  case start =>
    intro s a d v hopen
    simp only [List.forall_mem_cons, List.not_mem_nil, false_implies, implies_true, and_true]
    exact ⟨exec_startTraining (by decide) hopen rfl, exec_startTraining (by decide) hopen rfl, exec_startTraining (by decide) hopen rfl,
      exec_startTraining (by decide) hopen rfl, exec_startTraining (by decide) hopen rfl⟩
  case done =>
    intro s d errs lanes op h
    rw [exec_trainingRunDone h]
    refine ⟨?_, ?_, ?_⟩
    · rintro (rfl | rfl | rfl) <;> rfl
    · rintro rfl
      rfl
    · rintro rfl
      rfl
  case phy =>
    intro s a d v hopen
    rw [exec_drPhyAccWrite hopen]
    refine ⟨fun h => ?_, fun hl hk (hset : bit v 31 = true) => ?_, fun hl hk (hset : bit v 31 = false) => ?_⟩
    · simp [writePhyAcc, h]
    · simp [writePhyAcc, hl, Nat.not_le_of_lt hk, hset]
    · simp [writePhyAcc, hl, Nat.not_le_of_lt hk, hset]

end Sys2Proof.Machine
end

section
/-!
The SV–T0 link (O15): what a submission leaves of the state, and the link's laws.
-/
namespace Sys2Proof.Machine

/-! What a submission of records leaves of the state (R385). -/

/-- A submission changes the log store as `logAccept` does, and the counters. -/
theorem logSubmit_eq (typ origin : Byte) (source : BitVec 16) (p : Bytes) (s : State) :
    ∃ c, logSubmit typ origin source p s = { s with log := logAccept s.time.now typ origin source p s.log, cnt := c } := by
  unfold logSubmit
  dsimp only
  split
  · exact ⟨_, rfl⟩
  · exact ⟨s.cnt, rfl⟩

/-- Records submitted one after another are accepted in their order. -/
theorem foldl_logSubmit_eq (l : List (Byte × Byte × BitVec 16 × Bytes)) (s : State) :
    ∃ c, l.foldl (fun s r => logSubmit r.1 r.2.1 r.2.2.1 r.2.2.2 s) s =
      { s with log := l.foldl (fun l r => logAccept s.time.now r.1 r.2.1 r.2.2.1 r.2.2.2 l) s.log, cnt := c } := by
  induction l generalizing s with
  | nil => exact ⟨s.cnt, rfl⟩
  | cons r l ih =>
    obtain ⟨c, hc⟩ := logSubmit_eq r.1 r.2.1 r.2.2.1 r.2.2.2 s
    rw [List.foldl_cons, hc]
    exact ih _

/-! The link's commands (R25). -/

/-- A frame whose CRC-16 is right is accepted on a link that is up. -/
theorem exec_svLinkFrame_accepted (toSv : Bool) (p : Bytes) {s : State} (h : s.link.down = false) :
    exec (.svLinkFrame toSv p (crc16 p)) s = .next (onLink (fun l =>
      if toSv then { l with gotSv := l.gotSv + 1, toSv := l.toSv.drop 1, sendsT0 := min 1 (l.toSv.drop 1).length }
      else { l with gotT0 := l.gotT0 + 1, stale := false, toT0 := l.toT0.drop 1, sendsSv := min 1 (l.toT0.drop 1).length }) s) := by
  change execSvLinkFrame toSv p (crc16 p) s = _
  simp [execSvLinkFrame, h]

theorem exec_svLinkFrame_damaged (toSv : Bool) {p : Bytes} {c : BitVec 16} (h : c ≠ crc16 p) (s : State) :
    exec (.svLinkFrame toSv p c) s = .next s := by
  change execSvLinkFrame toSv p c s = _
  simp [execSvLinkFrame, h.symm]

theorem exec_svLinkResend_sv {s : State} (h : s.link.down = false) (hf : s.link.toT0 ≠ []) :
    exec (.svLinkResend true) s = .next (onLink (fun l => { l with sendsSv := l.sendsSv + 1 }) s) := by
  change execSvLinkResend true s = _
  simp [execSvLinkResend, h, hf]

/-- T0 sends its oldest frame again, and declares the link down at the sixteenth send. -/
theorem exec_svLinkResend_t0 {s : State} (h : s.link.down = false) (hf : s.link.toSv ≠ []) :
    exec (.svLinkResend false) s = .next
      (if 16 ≤ s.link.sendsT0 + 1 then linkLost (s.link.sendsT0 + 1) (onLink (fun l => { l with sendsT0 := s.link.sendsT0 + 1 }) s)
       else onLink (fun l => { l with sendsT0 := s.link.sendsT0 + 1 }) s) := by
  change execSvLinkResend false s = _
  simp [execSvLinkResend, h, hf]

theorem exec_svLinkResend_nothing (bySv : Bool) {s : State} (ht : s.link.toT0 = []) (hs : s.link.toSv = []) :
    exec (.svLinkResend bySv) s = .next s := by
  change execSvLinkResend bySv s = _
  cases bySv <;> simp [execSvLinkResend, ht, hs]

theorem linkLost_of_up (n : Nat) {s : State} (h : s.link.down = false) : linkLost n s =
    raiseTile 0 .svLinkLost n (onLink (fun l => { l with down := true, stale := true, attempts := 0, toSv := [], toT0 := [] }) s) := by
  simp [linkLost, h]

theorem exec_svLinkDown (s : State) : exec .svLinkDown s = .next (linkLost s.link.sendsT0 s) := rfl

theorem exec_svLinkIdleFrame {s : State} (h : s.link.down = false) : exec .svLinkIdleFrame s = .next (onLink (fun l =>
    { l with idle := l.idle + 1, toT0 := l.toT0 ++ [idleFrame], sendsSv := if l.toT0.isEmpty then 1 else l.sendsSv }) s) := by
  change execSvLinkIdleFrame s = _
  simp [execSvLinkIdleFrame, h]

theorem exec_svLinkRetrain_failed {s : State} (h : s.link.down = true) :
    exec (.svLinkRetrain false) s = .next (onLink (fun l => { l with attempts := l.attempts + 1 }) s) := by
  change execSvLinkRetrain false s = _
  simp [execSvLinkRetrain, h]

theorem exec_svLinkRetrain_trained {s : State} (h : s.link.down = true) : exec (.svLinkRetrain true) s = .next
    (sendHeld (onLink (fun l => { l with down := false, stale := false, attempts := 0, sendsT0 := 0, sendsSv := 0 }) s)) := by
  change execSvLinkRetrain true s = _
  simp [execSvLinkRetrain, h]

/-- With no held record dropped, the held ones are submitted in their order, and that is all. -/
theorem sendHeld_parts {s : State} (h : s.link.heldDropped = 0) :
    (sendHeld s).link = { s.link with held := [], heldDropped := 0 } ∧
    (sendHeld s).log = s.link.held.foldl (fun l r => logAccept s.time.now r.1 r.2.1 r.2.2.1 r.2.2.2 l) s.log ∧
    (sendHeld s).faults = s.faults := by
  obtain ⟨c, hc⟩ := foldl_logSubmit_eq s.link.held s
  simp only [sendHeld, h, if_true, hc]
  exact ⟨rfl, rfl, rfl⟩

/-- Settles O15: each clause is one link command's law on a link that is up, or down. -/
theorem svLinkCommands : Obligations.SvLinkCommands := by
  refine ⟨fun s p h => exec_svLinkFrame_accepted true p h, fun s p h => exec_svLinkFrame_accepted false p h,
    fun s b p c h => exec_svLinkFrame_damaged b h s, fun s h hf => exec_svLinkResend_sv h hf, ?again, ?lost,
    fun s ht hs => ⟨exec_svLinkResend_nothing true ht hs, exec_svLinkResend_nothing false ht hs⟩,
    fun s h => exec_svLinkIdleFrame h, ?silent, fun s h => exec_svLinkRetrain_failed h, ?trained⟩
  case again =>
    intro s h hf hn
    rw [exec_svLinkResend_t0 h hf, if_neg (by omega)]
    rfl
  case lost =>
    intro s h hf hn
    rw [exec_svLinkResend_t0 h hf, if_pos (by omega), linkLost_of_up, hn]
    · rfl
    · exact h
  case silent =>
    intro s h
    rw [exec_svLinkDown, linkLost_of_up _ h]
    rfl
  case trained =>
    intro s h hd
    rw [exec_svLinkRetrain_trained h]
    refine ⟨_, rfl, sendHeld_parts ?_⟩
    exact hd

end Sys2Proof.Machine
end

section
/-!
The log store's commands (O17): what writes to cells leave of the queue, what queueing leaves of the rest of the store, and the commands' laws.
-/
namespace Sys2Proof.Machine

/-! Operations that program cells, move a pointer or retire a slot leave the queue alone (R386–R390). -/

/-- The queue, the tries, the drop count and WORN stay from one log store to the next. -/
structure SameQueue (l m : LogStore) : Prop where
  queue : m.queue = l.queue
  tries : m.tries = l.tries
  dropped : m.dropped = l.dropped
  worn : m.worn = l.worn

theorem SameQueue.refl (l : LogStore) : SameQueue l l := ⟨rfl, rfl, rfl, rfl⟩

theorem SameQueue.trans {l m n : LogStore} (a : SameQueue l m) (b : SameQueue m n) : SameQueue l n :=
  ⟨b.queue.trans a.queue, b.tries.trans a.tries, b.dropped.trans a.dropped, b.worn.trans a.worn⟩

theorem SameQueue.foldl {β : Type} {g : LogStore → β → LogStore} (h : ∀ l x, SameQueue l (g l x)) (ls : List β) (l : LogStore) :
    SameQueue l (ls.foldl g l) := by
  induction ls generalizing l with
  | nil => exact .refl l
  | cons x ls ih => exact (h l x).trans (ih _)

theorem sameQueue_setCell {i : Nat} {v : BitVec 128} {l : LogStore} : SameQueue l (setCell i v l) := ⟨rfl, rfl, rfl, rfl⟩

theorem sameQueue_setCells {i : Nat} {b : Bytes} {l : LogStore} : SameQueue l (setCells i b l) :=
  SameQueue.foldl (fun _ _ => sameQueue_setCell) _ _

theorem sameQueue_splitInc {k : Nat} {l : LogStore} : SameQueue l (splitInc k l) := by
  unfold splitInc
  dsimp only
  split
  · exact sameQueue_setCell
  · exact sameQueue_setCell.trans sameQueue_setCell

theorem sameQueue_writeRetired {page : Nat} {l : LogStore} : SameQueue l (writeRetired page l) := by
  unfold writeRetired
  dsimp only
  exact sameQueue_setCell.trans sameQueue_setCell

theorem sameQueue_retirePage {page : Nat} {l : LogStore} : SameQueue l (retirePage page l) := by
  have listed (x : List Nat) : SameQueue l { l with retired := x } := ⟨rfl, rfl, rfl, rfl⟩
  unfold retirePage
  split
  · exact .refl l
  · exact (listed _).trans sameQueue_writeRetired

/-- A page that is retired is among the retired pages (R387). -/
theorem mem_retirePage (page : Nat) (l : LogStore) : page ∈ (retirePage page l).retired := by
  unfold retirePage
  split
  case isTrue h => simpa using h
  case isFalse => exact List.mem_append_right _ (List.mem_singleton_self page)

/-- Within a lap the pointer moves on, and nothing else changes (R386). -/
theorem advanceRing_of_sameLap {l : LogStore} {g : Nat} (q : W32) (h : (nextPtr l g (ringPtr l g).page (ringPtr l g).pos).2.2 = false) :
    advanceRing g q l = { l with
      ptrs := Table.insert g ⟨(nextPtr l g (ringPtr l g).page (ringPtr l g).pos).1, (nextPtr l g (ringPtr l g).page (ringPtr l g).pos).2.1, q⟩
        (Table.drop l.ptrs g) } := by
  simp [advanceRing, h]

theorem sameQueue_advanceRing {g : Nat} {q : W32} {l : LogStore} : SameQueue l (advanceRing g q l) := by
  unfold advanceRing
  dsimp only
  have moved (p : Table RingPtr) : SameQueue l { l with ptrs := p } := ⟨rfl, rfl, rfl, rfl⟩
  split
  · split
    · exact ((moved _).trans sameQueue_splitInc).trans (SameQueue.foldl (fun _ _ => sameQueue_retirePage) _ _)
    · exact (moved _).trans sameQueue_splitInc
  · exact moved _

/-- WORN is marked as it stands where it follows the live slots already (R388). -/
theorem markWorn_eq_self {l : LogStore} (h : ∀ k, k < 4 → l.worn.getLsbD k = ringWorn l k) : markWorn l = l := by
  have hw : (List.range 4).foldl (fun w r => setBit w r (ringWorn l r)) 0#4 = l.worn := by
    simp only [List.range_succ, List.range_zero, List.nil_append, List.foldl_append, List.foldl_cons, List.foldl_nil,
      ← h 0 (by omega), ← h 1 (by omega), ← h 2 (by omega), ← h 3 (by omega)]
    generalize l.worn = w
    revert w
    decide
  rw [markWorn, hw]

/-! Taking a record into the queue leaves the store's cells and pointers alone, and the queue's first 63 records in their places (R385). -/

/-- From one log store to the next records have at most been queued: of those that waited, at most one past the 63rd was displaced. -/
structure OnlyQueues (l m : LogStore) : Prop where
  cells : m.cells = l.cells
  ptrs : m.ptrs = l.ptrs
  retired : m.retired = l.retired
  tries : m.tries = l.tries
  front : ∀ q : List LogRec, q.take 63 <+: l.queue → q.take 63 <+: m.queue

theorem OnlyQueues.refl (l : LogStore) : OnlyQueues l l := ⟨rfl, rfl, rfl, rfl, fun _ => id⟩

theorem OnlyQueues.trans {l m n : LogStore} (a : OnlyQueues l m) (b : OnlyQueues m n) : OnlyQueues l n :=
  ⟨b.cells.trans a.cells, b.ptrs.trans a.ptrs, b.retired.trans a.retired, b.tries.trans a.tries, fun q h => b.front q (a.front q h)⟩

theorem onlyQueues_startHint {l : LogStore} : OnlyQueues l (startHint l) := by
  unfold startHint
  split
  · exact .refl l
  · split <;> exact ⟨rfl, rfl, rfl, rfl, fun _ => id⟩

theorem onlyQueues_enqueue {now : Nat} {typ origin : Byte} {source : BitVec 16} {p : Bytes} {l : LogStore} :
    OnlyQueues l (enqueue now typ origin source p l) := by
  have appended (r : LogRec) (n : W32) : OnlyQueues l { l with queue := l.queue ++ [r], nextSeq := n } :=
    ⟨rfl, rfl, rfl, rfl, fun _ h => h.trans (List.prefix_append ..)⟩
  unfold enqueue
  dsimp only
  split
  · exact (appended _ _).trans onlyQueues_startHint
  · exact appended _ _

theorem onlyQueues_flushLost {now : Nat} {l : LogStore} : OnlyQueues l (flushLost now l) := by
  unfold flushLost
  split
  · exact onlyQueues_enqueue.trans ⟨rfl, rfl, rfl, rfl, fun _ => id⟩
  · exact .refl l

theorem onlyQueues_dropOne {l : LogStore} : OnlyQueues l (dropOne l) := ⟨rfl, rfl, rfl, rfl, fun _ => id⟩

/-- The newest of 64 records or more is not among the first 63. -/
theorem onlyQueues_dropLast {l : LogStore} (h : 64 ≤ l.queue.length) : OnlyQueues l { l with queue := l.queue.dropLast } := by
  refine ⟨rfl, rfl, rfl, rfl, fun q hq => ?_⟩
  refine List.prefix_of_prefix_length_le hq (List.dropLast_prefix _) ?_
  simp only [List.length_take, List.length_dropLast]
  omega

theorem onlyQueues_logAccept {now : Nat} {typ origin : Byte} {source : BitVec 16} {p : Bytes} {l : LogStore} :
    OnlyQueues l (logAccept now typ origin source p l) := by
  unfold logAccept
  split
  · exact .refl l
  · split
    · exact onlyQueues_enqueue.trans onlyQueues_flushLost
    · split
      · exact ((onlyQueues_dropLast (by omega)).trans onlyQueues_dropOne).trans onlyQueues_enqueue
      · exact onlyQueues_dropOne

/-- From one state to the next the log store has at most queued records, and no free value was taken. -/
structure QueuesOnly (s t : State) : Prop where
  log : OnlyQueues s.log t.log
  free : t.free = s.free

theorem QueuesOnly.of_eq {s t : State} (h : t.log = s.log) (hf : t.free = s.free) : QueuesOnly s t := ⟨h ▸ .refl _, hf⟩

theorem QueuesOnly.trans {s m t : State} (a : QueuesOnly s m) (b : QueuesOnly m t) : QueuesOnly s t :=
  ⟨a.log.trans b.log, b.free.trans a.free⟩

theorem QueuesOnly.foldl {β : Type} {g : State → β → State} (h : ∀ s x, QueuesOnly s (g s x)) (l : List β) (s : State) :
    QueuesOnly s (l.foldl g s) := by
  induction l generalizing s with
  | nil => exact .of_eq rfl rfl
  | cons x l ih => exact (h s x).trans (ih _)

theorem queuesOnly_logSubmit {typ origin : Byte} {source : BitVec 16} {p : Bytes} {s : State} :
    QueuesOnly s (logSubmit typ origin source p s) := by
  obtain ⟨c, hc⟩ := logSubmit_eq typ origin source p s
  rw [hc]
  exact ⟨onlyQueues_logAccept, rfl⟩

theorem queuesOnly_stopPorts {s : State} : QueuesOnly s (stopPorts s) := by
  refine QueuesOnly.foldl (fun s p => ?_) _ _
  exact .of_eq rfl rfl

/-- An alarm queues the Midnight record where Midnight is entered by it (R296). -/
theorem queuesOnly_alarm {sl src : Nat} {c : AlarmCtx} {s : State} : QueuesOnly s (alarm sl src c s) := by
  unfold alarm
  dsimp only
  split
  · exact .of_eq rfl rfl
  · refine QueuesOnly.trans (m := stopPorts _) ?_ (QueuesOnly.trans (m := onCry _ (zeroise _)) (.of_eq rfl rfl) queuesOnly_logSubmit)
    exact QueuesOnly.trans (m := onFaults _ (onFaults _ s)) (.of_eq rfl rfl) queuesOnly_stopPorts

theorem queuesOnly_raiseWith {src : Nat} {c : FaultCtx} {a : AlarmCtx} {s : State} : QueuesOnly s (raiseWith src c a s) := by
  unfold raiseWith
  dsimp only
  split
  · exact .of_eq rfl rfl
  split
  · exact .of_eq rfl rfl
  split
  · exact .of_eq rfl rfl
  · exact .of_eq rfl rfl
  · split <;> exact .of_eq rfl rfl
  · exact QueuesOnly.trans (m := onFaults _ s) (.of_eq rfl rfl) queuesOnly_alarm

theorem queuesOnly_raiseWorn {old : BitVec 4} {s : State} : QueuesOnly s (raiseWorn old s) := by
  refine QueuesOnly.foldl (fun s r => ?_) _ _
  split
  · exact queuesOnly_raiseWith
  · exact .of_eq rfl rfl

/-- No ring that has become worn, no raise. -/
theorem raiseWorn_of_worn {old : BitVec 4} {s : State} (h : s.log.worn = old) : raiseWorn old s = s :=
  List.foldl_fixed' (fun r => by simp [h]) _

theorem queuesOnly_clearDone {typ : Byte} {rc : MbRc} {s : State} : QueuesOnly s (clearDone typ rc s) := by
  unfold clearDone
  split
  · split
    · exact .of_eq rfl rfl
    · dsimp only
      split <;> exact .of_eq rfl rfl
  · exact .of_eq rfl rfl

/-! The commands (R384–R394). -/

section
variable {s : State} {typ origin : Byte} {source : BitVec 16} {p : Bytes} (hpor : s.rst.por = false)
include hpor

theorem exec_logRecordSubmit_sv (ho : origin.getLsbD 3 = true) :
    exec (.logRecordSubmit typ origin source p) s = .next (logSubmit typ origin source p s) := by
  change execLogRecordSubmit typ origin source p s = _
  simp only [execLogRecordSubmit, hpor, ho, Bool.false_eq_true, if_false, if_true]

theorem exec_logRecordSubmit_tile (ho : origin.getLsbD 3 = false) (hrun : primaryRuns s = true) :
    exec (.logRecordSubmit typ origin source p) s = .next (primaryLog typ origin source p s) := by
  change execLogRecordSubmit typ origin source p s = _
  simp only [execLogRecordSubmit, hpor, ho, hrun, Bool.false_eq_true, if_false, if_true]

end

theorem primaryLog_of_up {s : State} (h : s.link.down = false) (typ origin : Byte) (source : BitVec 16) (p : Bytes) :
    primaryLog typ origin source p s = logSubmit typ origin source p (onLink (sendToSv (recordFrame typ origin source p)) s) := by
  simp [primaryLog, h]

theorem primaryLog_of_down {s : State} (h : s.link.down = true) (typ origin : Byte) (source : BitVec 16) (p : Bytes) :
    primaryLog typ origin source p s = onLink (fun l => if l.held.length < 256 then { l with held := l.held ++ [(typ, origin, source, p)] }
      else { l with heldDropped := l.heldDropped + 1 }) s := by
  simp [primaryLog, h]

/-- While a hint is being written no record is. -/
theorem exec_logRecordWriteDone_hint {s : State} (v : Bool) (h : s.log.hintBusy.isSome = true) : exec (.logRecordWriteDone v) s = .next s := by
  change execLogRecordWriteDone v s = _
  simp [execLogRecordWriteDone, h]

/-- The front record of the queue is the one written, where its ring or ring F takes it. -/
theorem exec_logRecordWriteDone_front {s : State} {r : LogRec} {q : List LogRec} {g : Nat} (hst : s.log.starting = false)
    (hpor : s.rst.por = false) (hh : s.log.hintBusy = none) (hq : s.log.queue = r :: q) (hg : writeRing s.log (ringOf r.typ) = some g) (v : Bool) :
    exec (.logRecordWriteDone v) s = .next (if v then recordWritten g r s else recordFailed g s) := by
  change execLogRecordWriteDone v s = _
  simp [execLogRecordWriteDone, hst, hpor, hh, hq, hg]

/-- The log store with the front record of ring `g` programmed and the ring's pointer moved on (R385, R386). -/
def programmed (g : Nat) (r : LogRec) (l : LogStore) : LogStore :=
  advanceRing g r.seq (setCells (posCell (ringPtr l g).page (ringPtr l g).pos) (recordBytes (splitVal l 4) r) l)

theorem sameQueue_programmed (g : Nat) (r : LogRec) (l : LogStore) : SameQueue l (programmed g r l) :=
  sameQueue_setCells.trans sameQueue_advanceRing

/-- The log store after a verified write: WORN marked, the record off the queue, the tries cleared, and drops reported where there is room. -/
def afterWrite (now g : Nat) (r : LogRec) (l : LogStore) : LogStore :=
  flushLost now { markWorn (programmed g r l) with queue := (markWorn (programmed g r l)).queue.tail, tries := 0 }

theorem onlyQueues_afterWrite (now g : Nat) (r : LogRec) (l : LogStore) :
    OnlyQueues { programmed g r l with queue := l.queue.tail, tries := 0 } (afterWrite now g r l) := by
  refine OnlyQueues.trans ?_ onlyQueues_flushLost
  refine ⟨rfl, rfl, rfl, rfl, fun q h => ?_⟩
  rwa [← (sameQueue_programmed g r l).queue] at h

/-- Where WORN does not change and no drop waits to be reported, nothing more happens to the store. -/
theorem afterWrite_of_worn {now g : Nat} {r : LogRec} {l : LogStore} (hw : ∀ k, k < 4 → l.worn.getLsbD k = ringWorn (programmed g r l) k)
    (hd : l.dropped = 0) : afterWrite now g r l = { programmed g r l with queue := l.queue.tail, tries := 0 } := by
  obtain ⟨hqueue, -, hdropped, hworn⟩ := sameQueue_programmed g r l
  rw [afterWrite, markWorn_eq_self (by rwa [hworn]), hqueue, flushLost, if_neg]
  simp [hdropped, hd]

theorem recordWritten_eq (g : Nat) (r : LogRec) (s : State) :
    recordWritten g r s = clearDone r.typ .success (raiseWorn s.log.worn (addCnt (svCnt 1) 1 { s with log := afterWrite s.time.now g r s.log })) := rfl

/-- A record written leaves the store as `programmed` does, the record off the queue and the tries cleared, but for records queued. -/
theorem onlyQueues_recordWritten (g : Nat) (r : LogRec) (s : State) :
    OnlyQueues { programmed g r s.log with queue := s.log.queue.tail, tries := 0 } (recordWritten g r s).log := by
  have raised : QueuesOnly (addCnt (svCnt 1) 1 { s with log := afterWrite s.time.now g r s.log }) (recordWritten g r s) :=
    recordWritten_eq g r s ▸ queuesOnly_raiseWorn.trans queuesOnly_clearDone
  exact (onlyQueues_afterWrite s.time.now g r s.log).trans raised.log

/-- With no ring newly worn and nothing lost to report, a record written is counted, and a clear event is answered. -/
theorem recordWritten_of_worn {g : Nat} {r : LogRec} {s : State} (hw : ∀ k, k < 4 → s.log.worn.getLsbD k = ringWorn (programmed g r s.log) k)
    (hd : s.log.dropped = 0) :
    recordWritten g r s = clearDone r.typ .success (addCnt (svCnt 1) 1
      { s with log := { programmed g r s.log with queue := s.log.queue.tail, tries := 0 } }) := by
  rw [recordWritten_eq, afterWrite_of_worn hw hd, raiseWorn_of_worn]
  exact (sameQueue_programmed g r s.log).worn

/-- Four consecutive cells programmed without success: what they hold is a free value (R387, log 7). -/
def failCells (n i : Nat) (l : LogStore) : LogStore :=
  (List.range 4).foldl (fun l j => setCell (i + j) (Config.failedCell n (i + j)) l) l

theorem sameQueue_failCells {n i : Nat} {l : LogStore} : SameQueue l (failCells n i l) :=
  SameQueue.foldl (fun _ _ => sameQueue_setCell) _ _

/-- The log store after a failed write at ring `g`'s position: its page retired, the pointer moved on and the try counted (R387). -/
def afterFailure (n g : Nat) (l : LogStore) : LogStore :=
  markWorn { retirePage (ringPtr l g).page (advanceRing g (ringPtr l g).last (failCells n (posCell (ringPtr l g).page (ringPtr l g).pos) l))
    with tries := l.tries + 1 }

theorem afterFailure_queue (n g : Nat) (l : LogStore) : (afterFailure n g l).queue = l.queue :=
  ((sameQueue_failCells.trans sameQueue_advanceRing).trans sameQueue_retirePage).queue

theorem mem_afterFailure_retired (n g : Nat) (l : LogStore) : (ringPtr l g).page ∈ (afterFailure n g l).retired :=
  mem_retirePage (ringPtr l g).page _

/-- The state after a failed write, LS_RETIRE and LS_WORN raised (R387, R388). -/
def raisedFailure (g : Nat) (s : State) : State :=
  raiseWorn s.log.worn (raiseSv .lsRetire (ringPtr s.log g).page { s with free := s.free + 1, log := afterFailure s.free g s.log })

theorem queuesOnly_raisedFailure (g : Nat) (s : State) :
    QueuesOnly { s with free := s.free + 1, log := afterFailure s.free g s.log } (raisedFailure g s) :=
  queuesOnly_raiseWith.trans queuesOnly_raiseWorn

theorem recordFailed_eq (g : Nat) (s : State) :
    recordFailed g s = if 4 ≤ (raisedFailure g s).log.tries then dropFront (raisedFailure g s) else raisedFailure g s := rfl

/-- Before the fourth failed attempt the record stays. -/
theorem recordFailed_of_tries {g : Nat} {s : State} (h : s.log.tries < 3) : recordFailed g s = raisedFailure g s := by
  have htries : (raisedFailure g s).log.tries = s.log.tries + 1 := (queuesOnly_raisedFailure g s).log.tries
  rw [recordFailed_eq, if_neg (by omega)]

/-! Hints (R392). -/

theorem startHint_idle {l : LogStore} (h : l.hintOff = false) (hb : l.hintBusy = none) : startHint l = { l with hintBusy := some none } := by
  simp [startHint, h, hb]

theorem startHint_busy {l : LogStore} (h : l.hintOff = false) (hb : l.hintBusy ≠ none) : startHint l = { l with hintDue := l.hintDue + 1 } := by
  simp [startHint, h, Option.isSome_iff_ne_none.2 hb]

theorem nextHint_none {l : LogStore} (h : l.hintDue = 0) : nextHint l = { l with hintBusy := none } := by
  rw [nextHint, if_pos (.inr h), ← h]

theorem nextHint_due {l : LogStore} (h : l.hintOff = false) (hd : l.hintDue ≠ 0) :
    nextHint l = { l with hintBusy := some none, hintDue := l.hintDue - 1 } := by
  simp [nextHint, h, hd]

theorem nextHint_off {l : LogStore} (h : l.hintOff = true) : nextHint l = { l with hintBusy := none, hintDue := 0 } := by
  simp [nextHint, h]

theorem exec_logHintWriteDone_verified {s : State} {o : Option Bytes} (h : s.log.hintBusy = some o) : exec (.logHintWriteDone true) s =
    .next (addCnt (svCnt 3) 1 { s with
      log := nextHint { setCells (posCell 0 s.log.hintPos) (o.getD (hintBytes s.log)) s.log with hintPos := (s.log.hintPos + 1) % 4 } }) := by
  change execLogHintWriteDone true s = _
  simp only [execLogHintWriteDone, h, if_true, onLog]

/-- A hint that fails verification the first time is tried once more, at the next position. -/
theorem exec_logHintWriteDone_retry {s : State} (h : s.log.hintBusy = some none) : exec (.logHintWriteDone false) s =
    .next { s with free := s.free + 1, log := { failCells s.free (posCell 0 s.log.hintPos) s.log with
      hintPos := (s.log.hintPos + 1) % 4, hintBusy := some (some (hintBytes s.log)) } } := by
  change execLogHintWriteDone false s = _
  simp only [execLogHintWriteDone, h]
  rfl

/-- A hint that fails verification again turns hints off. -/
theorem exec_logHintWriteDone_stop {s : State} {b : Bytes} (h : s.log.hintBusy = some (some b)) : exec (.logHintWriteDone false) s =
    .next (raiseSv .lsHintFail s.log.hintPos { s with free := s.free + 1, log := { failCells s.free (posCell 0 s.log.hintPos) s.log with
      hintPos := (s.log.hintPos + 1) % 4, hintBusy := none, hintDue := 0, hintOff := true } }) := by
  have hoff := nextHint_off (l := { failCells s.free (posCell 0 s.log.hintPos) s.log with hintPos := (s.log.hintPos + 1) % 4, hintOff := true }) rfl
  change execLogHintWriteDone false s = _
  simp only [execLogHintWriteDone, h]
  exact congrArg (fun l => Host.Outcome.next (raiseSv .lsHintFail s.log.hintPos { s with free := s.free + 1, log := l })) hoff

/-! The end of the power-up path (R390, R393, R394). -/

theorem exec_logScanDone_hint {s : State} (hst : s.log.starting = true) (hsc : s.log.scanning = false) : exec .logScanDone s =
    .next (answerHeld { s with log := startHint (splitInc 4 { s.log with scanning := false, starting := false }) }) := by
  change execLogScanDone s = _
  simp [execLogScanDone, onLog, hst, hsc]

theorem exec_logScanDone_full {s : State} (hst : s.log.starting = true) (hsc : s.log.scanning = true) : exec .logScanDone s =
    .next (answerHeld { s with log := startHint (splitInc 4 { s.log with
      scanning := false, starting := false, ptrs := (fullScan s.log).1, nextSeq := (fullScan s.log).2 + s.log.nextSeq,
      queue := s.log.queue.map (fun r => { r with seq := r.seq + (fullScan s.log).2 }) }) }) := by
  change execLogScanDone s = _
  simp [execLogScanDone, onLog, hst, hsc]

theorem answerHeld_nil {s : State} (h : s.host.logHeld = []) : answerHeld s = s := by
  rw [answerHeld, h, List.foldl_nil, onHost, ← h]

theorem answerHeld_singleton {s : State} {f : Fn} {q : LogAsk} (h : s.host.logHeld = [(f, q)]) (hup : mbUp s f = true) :
    answerHeld s = logAnswer f q { s with host := { s.host with logHeld := [] } } := by
  rw [answerHeld, h, List.foldl_cons, List.foldl_nil]
  exact if_pos hup

/-- Settles O17: a clause is the law of its command, of the pointer or of the hint; what a raise can do to the store is `QueuesOnly`. -/
theorem logCommands : Obligations.LogCommands := by
  refine ⟨fun s typ origin source p hpor ho => exec_logRecordSubmit_sv hpor ho, ?sent, ?held, ?heldFull, ?written,
    fun l g seq h => advanceRing_of_sameLap seq h, ?failed, fun s v h => exec_logRecordWriteDone_hint v h,
    fun s o h => exec_logHintWriteDone_verified h, ?hintFailed, ?hints, fun s hst hsc => exec_logScanDone_hint hst hsc,
    fun s hst hsc => exec_logScanDone_full hst hsc, fun s => ⟨answerHeld_nil, fun f q h hup => answerHeld_singleton h hup⟩⟩
  case sent =>
    intro s typ origin source p hpor ho hrun hl
    rw [exec_logRecordSubmit_tile hpor ho hrun, primaryLog_of_up hl]
    rfl
  case held =>
    intro s typ origin source p hpor ho hrun hl hn
    rw [exec_logRecordSubmit_tile hpor ho hrun, primaryLog_of_down hl, onLink, if_pos hn]
  case heldFull =>
    intro s typ origin source p hpor ho hrun hl hn
    rw [exec_logRecordSubmit_tile hpor ho hrun, primaryLog_of_down hl, onLink, if_neg (by omega)]
  case written =>
    rintro s r q g l hst hpor hh hq hg rfl
    rw [exec_logRecordWriteDone_front hst hpor hh hq hg true, if_pos rfl]
    refine ⟨⟨_, rfl, ?_⟩, fun hw hd => ?_⟩
    · obtain ⟨hcells, hptrs, hretired, htries, hfront⟩ := onlyQueues_recordWritten g r s
      refine ⟨hfront q ?_, htries, hcells, hptrs, hretired⟩
      simpa [hq] using List.take_prefix 63 q
    · rw [recordWritten_of_worn hw hd, hq]
      rfl
  case failed =>
    intro s r q g hst hpor hh hq hg ht
    rw [exec_logRecordWriteDone_front hst hpor hh hq hg false, recordFailed_of_tries ht]
    obtain ⟨⟨-, -, hretired, htries, hfront⟩, hfree⟩ := queuesOnly_raisedFailure g s
    have hqueue := afterFailure_queue s.free g s.log
    refine ⟨_, rfl, ?_, htries, hretired ▸ mem_afterFailure_retired s.free g s.log, hfree⟩
    obtain ⟨t, ht⟩ := hfront (r :: q) (by simpa [hqueue, hq] using List.take_prefix 62 q)
    simp [← ht]
  case hintFailed =>
    rintro s l rfl
    exact ⟨fun h => exec_logHintWriteDone_retry h, fun b h => exec_logHintWriteDone_stop h⟩
  case hints =>
    intro l h
    exact ⟨fun hb => startHint_idle h hb, fun hb => startHint_busy h hb, fun hd => nextHint_none hd, fun hd => nextHint_due h hd⟩

end Sys2Proof.Machine
end

section
/-!
The vendor commands of the management head (O38): when a command reaches its function, what its input must be, and the new surroundings.
-/
namespace Sys2Proof.Machine

/-! When a command reaches its function (R67, R351). -/

/-- Firmware that serves every command lets a head that may issue one reach its function. -/
theorem serve_of_may {s : State} {f : Fn} {w : Who} (hup : mbUp s f = true) (hrec : s.dawn.recovery = false) (hw : headMay s f w = true)
    (r : Bool) (act : State → State) : serve f w r act s = act s := by
  simp [serve, hup, hrec, hw]

theorem serve_of_may_not {s : State} {f : Fn} {w : Who} (hup : mbUp s f = true) (hw : headMay s f w = false)
    (r : Bool) (act : State → State) : serve f w r act s = mbPut f .unsupported .none s := by
  simp [serve, hup, hw]

theorem exec_of_serve {s : State} {f : Fn} {w : Who} {r : Bool} {act : State → State} {c : Instr} (hc : exec c s = .next (serve f w r act s))
    (hup : mbUp s f = true) (hrec : s.dawn.recovery = false) (hw : headMay s f w = true) : exec c s = .next (act s) := by
  rw [hc, serve_of_may hup hrec hw]

/-- A command of the management head alone is Unsupported on another head. -/
theorem exec_of_serve_mgmt {s : State} {f : Fn} {r : Bool} {act : State → State} {c : Instr} (hc : exec c s = .next (serve f .mgmt r act s))
    (hup : mbUp s f = true) (hm : isMgmt s f = false) : exec c s = .next (mbPut f .unsupported .none s) := by
  rw [hc, serve_of_may_not (w := .mgmt) hup hm]

/-! The input of a vendor command (R68). -/

theorem inputOf_short {b : Bytes} {n : Nat} (h : b.length < n) : inputOf b n = none := if_pos h

theorem inputOf_exact {b : Bytes} {n : Nat} (h : b.length = n) : inputOf b n = some b := by
  simp [inputOf, ← h]

/-! The fields of the surroundings (R68). -/

theorem slice_append_of_le {a : Bytes} {off : Nat} (h : a.length ≤ off) (c : Bytes) (n : Nat) :
    slice (a ++ c) off n = slice c (off - a.length) n := by
  simp [slice, List.drop_append, List.drop_eq_nil_of_le h]

theorem slice_cons_succ (x : Byte) (c : Bytes) (off n : Nat) : slice (x :: c) (off + 1) n = slice c off n := rfl

theorem slice_zero {x : Bytes} {n : Nat} (h : x.length = n) : slice x 0 n = x := by
  subst h
  simp [slice]

theorem slice_append_zero {x : Bytes} {n : Nat} (h : x.length = n) (c : Bytes) : slice (x ++ c) 0 n = x := by
  subst h
  simp [slice]

@[simp] theorem length_slice (l : Bytes) (off n : Nat) : (slice l off n).length = n := by
  simp only [slice, List.length_append, List.length_replicate, List.length_take]
  omega

/-- A field of the new surroundings as they are merged: the new value where its valid flag is 1. -/
def pickField (old new : Bytes) (i off n : Nat) : Bytes := if (leAt new 3 1).testBit i then slice new off n else slice old off n

theorem length_pickField (old new : Bytes) (i off n : Nat) : (pickField old new i off n).length = n := by
  unfold pickField
  split <;> exact length_slice ..

theorem mergeSurr_eq (old new : Bytes) : mergeSurr old new =
    pickField old new 0 0 2 ++ (pickField old new 1 2 1 ++ ([0#8] ++ (pickField old new 2 4 2 ++
      ([0#8, 0#8] ++ (pickField old new 3 8 8 ++ (pickField old new 4 16 64 ++ [])))))) := by
  simp only [mergeSurr, pickField, Nat.testBit_eq_decide_div_mod_eq, decide_eq_true_eq, List.append_assoc, List.append_nil]

/-- Each field of the new surroundings is the new one where its valid flag is 1, and the old one else. -/
theorem slice_mergeSurr (old new : Bytes) {i off n : Nat} (h : (i, off, n) ∈ [(0, 0, 2), (1, 2, 1), (2, 4, 2), (3, 8, 8), (4, 16, 64)]) :
    slice (mergeSurr old new) off n = pickField old new i off n := by
  simp only [List.mem_cons, List.not_mem_nil, or_false, Prod.mk.injEq] at h
  rw [mergeSurr_eq]
  obtain ⟨rfl, rfl, rfl⟩ | ⟨rfl, rfl, rfl⟩ | ⟨rfl, rfl, rfl⟩ | ⟨rfl, rfl, rfl⟩ | ⟨rfl, rfl, rfl⟩ := h <;>
    simp [slice_append_of_le, slice_cons_succ, slice_append_zero, slice_zero, length_pickField]

/-! The commands on the management head. -/

section
variable {s : State} {f : Fn} (hup : mbUp s f = true) (hrec : s.dawn.recovery = false) (hm : isMgmt s f = true) {b : Bytes}
include hup hrec hm

/-- Surroundings whose fields are all in range are merged, and a change of inlet, airflow or cap starts a re-evaluation. -/
theorem exec_setSurroundings_valid (hb : b.length = 80) (hok : surrOk b = true) : exec (.setSurroundings f b) s =
    .next (mbPut f .success .none
      (if slice (surrNow s) 0 8 = slice (mergeSurr (surrNow s) b) 0 8 then
        onHost (fun h => { h with surr := mergeSurr (surrNow s) b, surrSet := h.surrSet ||| BitVec.ofNat 5 (leAt b 3 1) }) s
       else reevaluate 0xFFFF
        (onHost (fun h => { h with surr := mergeSurr (surrNow s) b, surrSet := h.surrSet ||| BitVec.ofNat 5 (leAt b 3 1) }) s))) := by
  rw [exec_of_serve (c := .setSurroundings f b) rfl hup hrec hm]
  simp only [inputOf_exact hb, hok, Bool.not_true, Bool.false_eq_true, if_false]

theorem exec_setSurroundings_invalid (hb : b.length = 80) (hok : surrOk b = false) :
    exec (.setSurroundings f b) s = .next (mbPut f .invalidInput .none s) := by
  rw [exec_of_serve (c := .setSurroundings f b) rfl hup hrec hm]
  simp only [inputOf_exact hb, hok, Bool.not_false, if_true]

theorem exec_setSurroundings_short (hb : b.length < 80) : exec (.setSurroundings f b) s = .next (mbPut f .invalidPayloadLength .none s) := by
  rw [exec_of_serve (c := .setSurroundings f b) rfl hup hrec hm]
  simp only [inputOf_short hb]

theorem exec_getSurroundings : exec (.getSurroundings f) s = .next (mbPut f .success
    (.bytes (slice (surrNow s) 0 3 ++ [s.host.surrSet.setWidth 8] ++ slice (surrNow s) 4 76)) s) :=
  exec_of_serve (c := .getSurroundings f) rfl hup hrec hm

/-- The report asked for is that of the Dawn evaluation or of the latest re-evaluation. -/
theorem exec_getAdmissionReport_valid (hb : b.length = 8) (hsel : leAt b 0 1 < 2) (hrsv : leAt b 1 3 = 0) :
    ∀ r : Bytes, r = (if leAt b 0 1 = 0 then s.qos.report else s.qos.reReport) → exec (.getAdmissionReport f b) s =
      .next (mbPut f .success (.bytes (leBytes 4 r.length ++ leBytes 4 ((r.drop (leAt b 4 4)).take 4088).length ++
        (r.drop (leAt b 4 4)).take 4088)) s) := by
  rintro r rfl
  rw [exec_of_serve (c := .getAdmissionReport f b) rfl hup hrec hm]
  simp only [inputOf_exact hb]
  rw [if_neg (by omega)]

theorem exec_getAdmissionReport_short (hb : b.length < 8) : exec (.getAdmissionReport f b) s = .next (mbPut f .invalidPayloadLength .none s) := by
  rw [exec_of_serve (c := .getAdmissionReport f b) rfl hup hrec hm]
  simp only [inputOf_short hb]

theorem exec_getFaultSummary_valid (hb : b.length = 4) (hn : leAt b 2 2 ≠ 0) (hend : leAt b 0 2 + leAt b 2 2 ≤ 1024) :
    exec (.getFaultSummary f b) s = .next (mbPut f .success
      (.bytes (leBytes 2 (leAt b 0 2) ++ leBytes 2 (leAt b 2 2) ++ summaryBytes s (leAt b 0 2) (leAt b 2 2))) s) := by
  rw [exec_of_serve (c := .getFaultSummary f b) rfl hup hrec hm]
  simp only [inputOf_exact hb]
  rw [if_neg (by omega)]

theorem exec_getFaultSummary_short (hb : b.length < 4) : exec (.getFaultSummary f b) s = .next (mbPut f .invalidPayloadLength .none s) := by
  rw [exec_of_serve (c := .getFaultSummary f b) rfl hup hrec hm]
  simp only [inputOf_short hb]

theorem exec_readLogRecords_valid (hb : b.length = 6) :
    exec (.readLogRecords f b) s = .next (logRead f (.records (leAt b 0 4) (leAt b 4 2)) s) := by
  rw [exec_of_serve (c := .readLogRecords f b) rfl hup hrec hm]
  simp only [inputOf_exact hb]

theorem exec_readLogRecords_short (hb : b.length < 6) : exec (.readLogRecords f b) s = .next (mbPut f .invalidPayloadLength .none s) := by
  rw [exec_of_serve (c := .readLogRecords f b) rfl hup hrec hm]
  simp only [inputOf_short hb]

end

/-! A read of the log store by the power-up path (R25, R393, R394). -/

section
variable {s : State} (f : Fn) (q : LogAsk)

theorem logRead_away (h : logAway s = true) : logRead f q s = mbPut f .retryRequired .none s := if_pos h

theorem logRead_starting (h : logAway s = false) (hst : s.log.starting = true) : logRead f q s =
    onHost (fun h => { h with logHeld := h.logHeld ++ [(f, q)] }) (onFn (fnOf f) (fun x => { x with rsp := none }) s) := by
  simp [logRead, h, hst]

theorem logRead_ready (h : logAway s = false) (hst : s.log.starting = false) : logRead f q s = logAnswer f q s := by
  simp [logRead, h, hst]

end

/-! The Twilight passes (R302). -/

/-- The passes that a function is answered: all on the management head, else those of regions in its LD's view. -/
theorem exec_getTwilightStatus {s : State} {f : Fn} (hup : mbUp s f = true) (hrec : s.dawn.recovery = false) :
    ∀ l : List Pass, l = s.cry.passes.filter (fun p => isMgmt s f || (!f.fm && (viewOf s f.head.val f.ld.val p.region).isSome)) →
    exec (.getTwilightStatus f) s = .next (mbPut f .success (.bytes (leBytes 2 l.length ++ leBytes 2 0 ++ l.flatMap (passEntry s))) s) := by
  rintro l rfl
  rw [exec_of_serve (c := .getTwilightStatus f) rfl hup hrec rfl]

/-- Settles O38: each command on the management head by its input, the fields of the surroundings, and what another head is answered. -/
theorem vendorCommands : Obligations.VendorCommands := by
  refine ⟨fun s f hup hrec hm => ⟨?unchanged, ?changed, fun b => exec_setSurroundings_invalid hup hrec hm, ?short, exec_getSurroundings hup hrec hm,
    fun b hb hsel hrsv => exec_getAdmissionReport_valid hup hrec hm hb hsel hrsv _ rfl, fun b => exec_getFaultSummary_valid hup hrec hm,
    ?records, ?held, ?away, ?passes⟩, ?fields, ?view, ?other⟩
  case unchanged =>
    intro b hb hok heq
    rw [exec_setSurroundings_valid hup hrec hm hb hok, if_pos heq]
    rfl
  case changed =>
    intro b hb hok hne
    rw [exec_setSurroundings_valid hup hrec hm hb hok, if_neg hne]
    rfl
  case short =>
    exact fun b => ⟨exec_setSurroundings_short hup hrec hm, exec_getAdmissionReport_short hup hrec hm, exec_getFaultSummary_short hup hrec hm,
      exec_readLogRecords_short hup hrec hm⟩
  case records =>
    intro b hb ha hst
    rw [exec_readLogRecords_valid hup hrec hm hb, logRead_ready _ _ ha hst]
    rfl
  case held =>
    intro b hb ha hst
    rw [exec_readLogRecords_valid hup hrec hm hb, logRead_starting _ _ ha hst]
  case away =>
    intro b hb ha
    rw [exec_readLogRecords_valid hup hrec hm hb, logRead_away _ _ ha]
  case passes =>
    exact exec_getTwilightStatus hup hrec _ (by simp [hm])
  case fields =>
    intro old b i off n _ _ h
    exact slice_mergeSurr old b h
  case view =>
    rintro s f hup hrec hm hfm l rfl
    exact exec_getTwilightStatus hup hrec _ (by simp [hm, hfm])
  case other =>
    intro s f hup hm b
    exact ⟨exec_of_serve_mgmt rfl hup hm, exec_of_serve_mgmt rfl hup hm, exec_of_serve_mgmt rfl hup hm, exec_of_serve_mgmt rfl hup hm,
      exec_of_serve_mgmt rfl hup hm⟩

end Sys2Proof.Machine
end

section
/-!
The lines of a Twilight pass, the removal of a pass, and the loss of a Koist module (O41).
-/
namespace Sys2Proof.Machine

/-! One line of a pass (R303, R306). -/

section
variable {s : State} {r : Region} {p : Pass} {t o l : Nat} {fl : Flips}

theorem twilightDpa_locked (h : lineFree s l = false) :
    twilightDpa r p t o l fl s = onHa (fun h => { h with twWait := h.twWait ++ [l] }) s := by
  simp [twilightDpa, h]

theorem twilightDpa_lost (hf : lineFree s l = true) (h : lineLost s l = true) : twilightDpa r p t o l fl s = passBy r.idx t o s := by
  simp [twilightDpa, hf, h]

theorem twilightDpa_asked (hf : lineFree s l = true) (hl : lineLost s l = false) (h : takeLine l fl { kind := 2 } s = none) :
    twilightDpa r p t o l fl s = askLine l (walkerPrio s) s := by
  simp [twilightDpa, hf, hl, h]

/-- A record that carries its position's key passes the check of its key unchanged (R281). -/
theorem fixKey_of_slot {who : Reader} {put : Rec → State → State} {x : Rec} (h : metaKey x.meta_ = slotFor s r (dpaLoc s r l)) :
    fixKey l r who put x s = (x, false, s) :=
  if_pos h

/-- A record that has arrived whole, under its position's key, is rekeyed. -/
theorem twilightDpa_rekeyed {x : Rec} {s1 : State} (hf : lineFree s l = true) (hl : lineLost s l = false)
    (h : takeLine l fl { kind := 2 } s = some (x, false, s1)) (hk : metaKey x.meta_ = slotFor s1 r (dpaLoc s1 r l)) :
    twilightDpa r p t o l fl s =
      rekeyEnd r t o (dpaLoc s1 r l) (64 * l) false (fun y s => putLine l y s) s1 (rekey (dpaLoc s1 r l) p l x s1) := by
  simp [twilightDpa, hf, hl, h, fixKey_of_slot hk]

end

/-! TWILIGHT_LINE (R303): no line is waited for, the pass has its turn, and its next line is where it stands. -/

section
variable {s : State} {t : TileId} {g : RegionId} {fl : Flips} {r : Region} {p : Pass} (hr : regionOf s g.val = some r)
  (hp : passOn s g.val = some p) (hrun : walkersRun s t.val = true) (hend : p.ending = false) (hw : s.ha.twWait = [])
  (hturn : passTurn s t.val = some r.idx)
  (hnext : passNext s r t.val (s.place.length + 2 * (runsOf s t.val r.idx).length + mapFrames s r + 2) (Table.get 0 p.pos t.val) =
    Table.get 0 p.pos t.val)

include hw in
/-- Where no line is waited for, none leaves the list of those waited for. -/
theorem filter_twWait (f : Nat → Bool) : onHa (fun h => { h with twWait := h.twWait.filter f }) s = s := by
  rw [onHa, hw, List.filter_nil, ← hw]

include hr hp hrun hend hw hturn hnext

/-- With the lines of its rate done at this value of the clock a tile does none. -/
theorem exec_twilightLine_spent (hs : twRate s t.val ≤ twSpent s t.val) : exec (.twilightLine t g fl) s = .next s := by
  change execTwilightLine t g fl s = _
  simp [execTwilightLine, hr, hp, filter_twWait hw, hrun, hend, hturn, hnext, hs]

theorem exec_twilightLine_dpa {l : Nat} (hin : Table.get 0 p.pos t.val < passLines s r)
    (hl : passLine s r t.val (Table.get 0 p.pos t.val) = .dpa l) (hs : twSpent s t.val < twRate s t.val) :
    exec (.twilightLine t g fl) s = .next (twilightDpa r p t.val (Table.get 0 p.pos t.val) l fl s) := by
  change execTwilightLine t g fl s = _
  simp [execTwilightLine, hr, hp, filter_twWait hw, hrun, hend, hturn, hnext, hl, Nat.not_le_of_lt hin, Nat.not_le_of_lt hs]

end

/-! TWILIGHT_PASS_REMOVE (R305). -/

theorem exec_twilightPassRemove {s : State} {g : RegionId} {p : Pass} (hp : passOn s g.val = some p) (hend : p.ending = true)
    (hold : oldInUse s g.val p.old = false) :
    exec (.twilightPassRemove g) s = .next (onCry (fun c => { c with passes := c.passes.erase p }) s) := by
  change execTwilightPassRemove g s = _
  simp [execTwilightPassRemove, hp, hend, hold]

theorem passOn_singleton {s : State} {p : Pass} (h : s.cry.passes = [p]) : passOn s p.region = some p := by
  simp [passOn, h]

/-! Koist modules (R17, R328). -/

theorem exec_koistModuleLost {s : State} (hrun : running s = true) (l : Fin 10) (m : Fin 4) :
    exec (.koistModuleLost l m) s = .next (loseModule l.val m.val s) :=
  congrArg Host.Outcome.next (if_pos hrun)

theorem exec_koistTrainTimeout {s : State} (hrun : running s = true) (hst : s.dawn.stage = 0) (hok : s.dawn.failed = false)
    (l : Fin 10) (m : Fin 4) : exec (.koistTrainTimeout l m) s = .next (loseModule l.val m.val s) := by
  change execKoistTrainTimeout l m s = _
  simp [execKoistTrainTimeout, hrun, hst, hok]

/-- A link that keeps a module stays up. -/
theorem loseModule_of_remaining {s : State} {l m a b : Nat} (hl : (koistLinks s)[l]? = some (a, b))
    (hm : (Table.get 0#4 s.fab.modules l).getLsbD m = true) (hrest : setBit (Table.get 0#4 s.fab.modules l) m false ≠ 0#4) :
    loseModule l m s = reevaluate (tileSrc a .kfModuleLost) (raiseTile b .kfModuleLost (a + 16 * m) (raiseTile a .kfModuleLost (b + 16 * m)
      (onFab (fun f => { f with modules := Table.mod 0#4 f.modules l (fun w => setBit w m false) }) s))) := by
  simp [loseModule, hl, hm, hrest]

/-- Settles O41: what a pass's line meets, a pass with nothing left under its old slot, and a module lost while its link keeps another. -/
theorem twilightAndKoist : Obligations.TwilightAndKoist := by
  refine ⟨?line, ?spent, ?remove, ?koist⟩
  case line =>
    intro s t g fl r p hr hp hrun hend hw hturn hnext hin l hl hs
    rw [exec_twilightLine_dpa hr hp hrun hend hw hturn hnext hin hl hs]
    refine ⟨fun hf => ?locked, fun hf hlost => ?lost, fun hlost hf h => ?asked, fun x s1 hlost hf h hk => ?rekeyed⟩
    case locked => rw [twilightDpa_locked hf, onHa, hw, List.nil_append]
    case lost => rw [twilightDpa_lost hf hlost, passBy, onCry]
    case asked => rw [twilightDpa_asked hf hlost h]
    case rekeyed => rw [twilightDpa_rekeyed hf hlost h hk]
  case spent =>
    intro s t g fl r p hr hp hrun hend hw hturn hnext hs
    exact exec_twilightLine_spent hr hp hrun hend hw hturn hnext hs
  case remove =>
    intro s g p hpass hg hend hold
    have hp : passOn s g.val = some p := hg ▸ passOn_singleton hpass
    rw [exec_twilightPassRemove hp hend hold, onCry, hpass, List.erase_cons_head]
  case koist =>
    intro s l m a b hrun hl hm hrest
    refine ⟨?_, fun hst hok => ?_⟩
    · rw [exec_koistModuleLost hrun, loseModule_of_remaining hl hm hrest]
      rfl
    · rw [exec_koistTrainTimeout hrun hst hok, exec_koistModuleLost hrun]

end Sys2Proof.Machine
end

section
/-!
Queries (O59): a mailbox query answers its function or does nothing, and what each kind of query can change follows from that.
-/
namespace Sys2Proof.Machine

/-! Mailbox queries (R66–R68). -/

/-- A command that does nothing, or gives one function a mailbox answer and does no more. -/
def AnswersOnly (c : Instr) : Prop := ∀ s, exec c s = .next s ∨ ∃ f rc out, exec c s = .next (mbPut f rc out s)

/-- A served command whose action is an answer answers only, whether or not it reaches its function. -/
theorem answersOnly_of_serve {c : Instr} {f : Fn} {w : Who} {r : Bool} {act : State → State} (hc : ∀ s, exec c s = .next (serve f w r act s))
    (hact : ∀ s, ∃ rc out, act s = mbPut f rc out s) : AnswersOnly c := by
  intro s
  rw [hc, serve]
  split
  · exact .inl rfl
  split
  · exact .inr ⟨f, _, _, rfl⟩
  · obtain ⟨rc, out, h⟩ := hact s
    exact .inr ⟨f, rc, out, congrArg _ h⟩

/-- An action that gives one of two answers is an answer. -/
theorem exists_mbPut_ite (p : Prop) [Decidable p] (f : Fn) (rc rc' : MbRc) (out out' : MbOut) (s : State) :
    ∃ rc'' out'', (if p then mbPut f rc out s else mbPut f rc' out' s) = mbPut f rc'' out'' s := by
  split <;> exact ⟨_, _, rfl⟩

theorem AnswersOnly.frame {c : Instr} (hc : AnswersOnly c) {s t : State} (h : exec c s = .next t) :
    t = { s with host := { s.host with fns := t.host.fns } } := by
  rcases hc s with hs | ⟨f, rc, out, hs⟩ <;> rw [hs] at h <;> cases h <;> rfl

section
variable (f : Fn) (h : PortId) (ld : LdId) (b : Bytes)

theorem answersOnly_getHeadInfo : AnswersOnly (.getHeadInfo f h) :=
  answersOnly_of_serve (fun _ => rfl) fun _ => exists_mbPut_ite ..

theorem answersOnly_getHostDcRegionConfiguration : AnswersOnly (.getHostDcRegionConfiguration f h ld) :=
  answersOnly_of_serve (fun _ => rfl) fun _ => exists_mbPut_ite ..

theorem answersOnly_getDcRegionExtentLists : AnswersOnly (.getDcRegionExtentLists f h ld) :=
  answersOnly_of_serve (fun _ => rfl) fun _ => exists_mbPut_ite ..

theorem answersOnly_getAdmissionReport : AnswersOnly (.getAdmissionReport f b) := by
  refine answersOnly_of_serve (fun _ => rfl) fun s => ?_
  dsimp only
  split
  · exact ⟨_, _, rfl⟩
  · exact exists_mbPut_ite ..

theorem answersOnly_getFaultSummary : AnswersOnly (.getFaultSummary f b) := by
  refine answersOnly_of_serve (fun _ => rfl) fun s => ?_
  dsimp only
  split
  · exact ⟨_, _, rfl⟩
  · exact exists_mbPut_ite ..

theorem answersOnly_unsupportedCommand (op : BitVec 16) : AnswersOnly (.unsupportedCommand f op) := by
  intro s
  change execUnsupportedCommand f op s = _ ∨ ∃ f' rc out, execUnsupportedCommand f op s = _
  unfold execUnsupportedCommand
  split
  · exact .inr ⟨_, _, _, rfl⟩
  · exact .inl rfl

end

/-! Queries of the log store (R393, R398). -/

/-- What a query of the log store can change: the functions, and, while the log is being found, the queries held. -/
def LogQueryFrame (s t : State) : Prop :=
  t = { s with host := { s.host with fns := t.host.fns, logHeld := t.host.logHeld } } ∧ (s.log.starting = false → t.host.logHeld = s.host.logHeld)

theorem logQueryFrame_refl (s : State) : LogQueryFrame s s := ⟨rfl, fun _ => rfl⟩
theorem logQueryFrame_mbPut (f : Fn) (rc : MbRc) (out : MbOut) (s : State) : LogQueryFrame s (mbPut f rc out s) := ⟨rfl, fun _ => rfl⟩

/-- What the log store answers is an answer. -/
theorem logAnswer_eq_mbPut (f : Fn) (q : LogAsk) (s : State) : ∃ rc out, logAnswer f q s = mbPut f rc out s := by
  cases q with
  | sizes => exact ⟨_, _, rfl⟩
  | part offset length => exact exists_mbPut_ite ..
  | sub start count => exact ⟨_, _, rfl⟩
  | records first count => exact ⟨_, _, rfl⟩

theorem logQueryFrame_logRead (f : Fn) (q : LogAsk) (s : State) : LogQueryFrame s (logRead f q s) := by
  unfold logRead
  split
  · exact logQueryFrame_mbPut ..
  split
  case isTrue hst => exact ⟨rfl, fun h => absurd (h.symm.trans hst) (by decide)⟩
  case isFalse =>
    obtain ⟨rc, out, h⟩ := logAnswer_eq_mbPut f q s
    exact h ▸ logQueryFrame_mbPut ..

theorem logQueryFrame_serve {f : Fn} {w : Who} {r : Bool} {act : State → State} (hact : ∀ s, LogQueryFrame s (act s)) (s : State) :
    LogQueryFrame s (serve f w r act s) := by
  unfold serve
  split
  · exact logQueryFrame_refl s
  split
  · exact logQueryFrame_mbPut ..
  · exact hact s

theorem logQueryFrame_of_serve {c : Instr} {f : Fn} {w : Who} {r : Bool} {act : State → State} {s t : State}
    (hc : exec c s = .next (serve f w r act s)) (hact : ∀ s, LogQueryFrame s (act s)) (h : exec c s = .next t) : LogQueryFrame s t := by
  obtain rfl := Host.Outcome.next.inj (hc.symm.trans h)
  exact logQueryFrame_serve hact s

/-! DOE requests without a session, configuration requests, and queries of the I3C target (R41, R64, R416). -/

/-- What a DOE or configuration request can change: the functions, and what has been sent. -/
def RequestFrame (s t : State) : Prop := t = { s with host := { s.host with fns := t.host.fns, sent := t.host.sent } }

theorem requestFrame_doePut (f : Fn) (r : DoeRsp) (s : State) : RequestFrame s (doePut f r s) := by
  unfold doePut
  split <;> rfl

theorem requestFrame_send (h : Nat) (m : LinkMsg) (s : State) : RequestFrame s (send h m s) := by
  unfold send
  split <;> rfl

theorem requestFrame_cfgWrite (h ld : Nat) (q : CfgReq) (s : State) : RequestFrame s (cfgWrite h ld q s) := by
  unfold cfgWrite
  split <;> rfl

theorem RequestFrame.trans {s m t : State} (a : RequestFrame s m) (b : RequestFrame m t) : RequestFrame s t := by
  rw [RequestFrame, a] at b
  exact b

theorem requestFrame_of_doePut {c : Instr} {f : Fn} {r : DoeRsp} {s t : State} (hc : exec c s = .next (doePut f r s))
    (h : exec c s = .next t) : RequestFrame s t := by
  obtain rfl := Host.Outcome.next.inj (hc.symm.trans h)
  exact requestFrame_doePut ..

theorem requestFrame_configurationRequest {h : PortId} {ld : LdId} {q : CfgReq} {s t : State}
    (hx : exec (.configurationRequest h ld q) s = .next t) : RequestFrame s t := by
  obtain rfl := Host.Outcome.next.inj hx
  split
  · exact rfl
  split
  · exact requestFrame_send ..
  split
  · exact (requestFrame_cfgWrite ..).trans (requestFrame_send ..)
  · exact requestFrame_send ..

theorem i3cFrame_of_answer {c : Instr} {r : I3cRsp} {s t : State} (hc : exec c s = .next (i3cAnswer r s)) (h : exec c s = .next t) :
    t = { s with i3c := t.i3c } := by
  obtain rfl := Host.Outcome.next.inj (hc.symm.trans h)
  unfold i3cAnswer
  split <;> rfl

/-- Settles O59: a mailbox query answers only, a log query may be held besides, and the other requests keep within their frames. -/
theorem queriesChangeOnlyAnswers : Obligations.QueriesChangeOnlyAnswers := by
  refine ⟨?mailbox, ?log, ?request, ?i3c⟩
  case mailbox =>
    intro s t f h ld l cel id b op c hc
    suffices AnswersOnly c from this.frame
    revert c
    simp only [List.forall_mem_cons, List.not_mem_nil, false_implies, implies_true, and_true]
    refine ⟨?_, ?_, ?_, ?_, ?_, ?_, ?_, ?_, ?_, ?_, ?_, ?_, ?_, ?_, ?_, ?_, ?_, ?_, ?_, ?_, ?_, ?_, ?_, ?_, ?_, ?_,
      answersOnly_getHeadInfo f h, answersOnly_getHostDcRegionConfiguration f h ld, answersOnly_getDcRegionExtentLists f h ld,
      answersOnly_unsupportedCommand f op, ?_, answersOnly_getAdmissionReport f b, answersOnly_getFaultSummary f b, ?_⟩ <;>
      exact answersOnly_of_serve (fun _ => rfl) fun _ => ⟨_, _, rfl⟩
  case log =>
    intro s t f cel o n b c hc
    change exec c s = .next t → LogQueryFrame s t
    revert c
    simp only [List.forall_mem_cons, List.not_mem_nil, false_implies, implies_true, and_true]
    refine ⟨logQueryFrame_of_serve rfl (logQueryFrame_logRead f _), logQueryFrame_of_serve rfl fun s => ?_, logQueryFrame_of_serve rfl fun s => ?_,
      logQueryFrame_of_serve rfl fun s => ?_⟩
    all_goals
      split
      · exact logQueryFrame_mbPut ..
      · exact logQueryFrame_logRead ..
  case request =>
    intro s t f i e slot o n h ld q c hc
    change exec c s = .next t → RequestFrame s t
    revert c
    simp only [List.forall_mem_cons, List.not_mem_nil, false_implies, implies_true, and_true]
    exact ⟨requestFrame_of_doePut rfl, requestFrame_of_doePut rfl, requestFrame_of_doePut rfl, requestFrame_of_doePut rfl,
      requestFrame_of_doePut rfl, requestFrame_of_doePut rfl, requestFrame_configurationRequest⟩
  case i3c =>
    intro s t b w n c
    revert c
    simp only [List.forall_mem_cons, List.not_mem_nil, false_implies, implies_true, and_true]
    exact ⟨i3cFrame_of_answer rfl, i3cFrame_of_answer rfl, i3cFrame_of_answer rfl, i3cFrame_of_answer rfl, i3cFrame_of_answer rfl,
      i3cFrame_of_answer rfl, i3cFrame_of_answer rfl, i3cFrame_of_answer rfl⟩

end Sys2Proof.Machine
end

section
/-!
The host links (O24, O25): what their training commands do, what resets a head, and configuration requests.
-/
namespace Sys2Proof.Machine

/-! Training (R37–R39, R46, R47, R49). -/

/-- The state of a head's link that has trained with these parameters (R38, R39, R46, R47). -/
def trained (h : Nat) (r : Rate) (w : Nat) (f : FlitMode) (sw : Bool) (s : State) : State :=
  onPort h (fun p => { p with
    up := true, rate := r, width := w, flit := f, bi := !isMld s h && decide (f ≠ .f68), training := false, detect := false,
    asSld := isMld s h && !sw }) s

/-- The warnings that a trained link logs: BI off on an SLD head, and an MLD head without a switch (R46, R47). -/
def trainedEvents (h : Nat) (f : FlitMode) (mld sw : Bool) (s : State) : State :=
  let s1 := if !mld && !(!mld && decide (f ≠ .f68)) then eventHead h ⟨.warning, .biOff⟩ s else s
  if mld && !sw then eventHead h ⟨.warning, .mldWithoutSwitch⟩ s1 else s1

section
variable {s : State} {h : PortId} (hlive : headLive s h.val = true)
include hlive

theorem exec_linkUp {r : Rate} {w : Nat} {f : FlitMode} (hdown : (getPort s h.val).up = false) (hperst : (getPort s h.val).perst = false)
    (hstop : (getPort s h.val).midnightStop = false) (hflit : flitOk r f = true) (hwidth : widthOk s h.val w = true) (sw : Bool) :
    exec (.linkUp h r w f sw) s = .next
      (if w < (Table.get (0, 0) s.qos.links h.val).1 ∨ rate10 r < (Table.get (0, 0) s.qos.links h.val).2 then
        reevaluate 0xFFFF (trainedEvents h.val f (isMld s h.val) sw (trained h.val r w f sw s))
       else trainedEvents h.val f (isMld s h.val) sw (trained h.val r w f sw s)) := by
  change execLinkUp h r w f sw s = _
  rw [execLinkUp, if_neg (by simp [hlive, hdown, hperst, hstop, hflit, hwidth])]
  rfl

/-- A head that the image admits without a link is never below it. -/
theorem exec_linkUp_unadmitted {r : Rate} {w : Nat} {f : FlitMode} (hdown : (getPort s h.val).up = false) (hperst : (getPort s h.val).perst = false)
    (hstop : (getPort s h.val).midnightStop = false) (hflit : flitOk r f = true) (hwidth : widthOk s h.val w = true) (sw : Bool)
    (hadm : Table.get (0, 0) s.qos.links h.val = (0, 0)) :
    exec (.linkUp h r w f sw) s = .next (trainedEvents h.val f (isMld s h.val) sw (trained h.val r w f sw s)) := by
  rw [exec_linkUp hlive hdown hperst hstop hflit hwidth, if_neg (by simp [hadm])]

theorem exec_cxlNegotiationFail (hdown : (getPort s h.val).up = false) (hperst : (getPort s h.val).perst = false) :
    exec (.cxlNegotiationFail h) s = .next (raiseTile (portTile h.val) .hpNegFail h.val (eventHead h.val ⟨.warning, .negotiationFailed⟩
      (onPort h.val (fun p => { p with detect := true, training := false }) s))) := by
  change execCxlNegotiationFail h s = _
  rw [execCxlNegotiationFail, if_neg (by simp [hlive, hdown, hperst])]

theorem exec_headReady (hrun : primaryRuns s = true) (hup : (getPort s h.val).up = true) :
    exec (.headReady h) s = .next (onPort h.val (fun p => { p with ready := true }) s) := by
  refine congrArg Host.Outcome.next (if_pos ?_)
  simp [hlive, hrun, hup]

theorem exec_linkEntryToRecovery (hup : (getPort s h.val).up = true) :
    exec (.linkEntryToRecovery h) s = .next (addCnt (portCnt h.val 11) 1 s) := by
  refine congrArg Host.Outcome.next (if_pos ?_)
  simp [hlive, hup]

end

theorem exec_perstNRelease {s : State} {p : PortId} (hperst : (getPort s p.val).perst = true) (hrun : running s = true) (hmid : midnight s = false) :
    exec (.perstNRelease p) s = .next (onPort p.val (fun x => { x with perst := false, training := headLive s p.val })
      { s with rst := { s.rst with perstLow := setBit s.rst.perstLow p.val false } }) := by
  refine congrArg Host.Outcome.next (if_pos ?_)
  simp [hperst, hrun, hmid]

/-- Settles O24: LINK_UP by the flit mode and by the head's LDs, on a link as wide and as fast as admitted and on a narrower one; then each other command's law. -/
theorem hostLinkTraining : Obligations.HostLinkTraining := by
  refine ⟨?up, ?narrow, fun s h hlive hdown hperst => exec_cxlNegotiationFail hlive hdown hperst, fun s h hlive => exec_headReady hlive,
    fun s p => exec_perstNRelease, fun s h hlive => exec_linkEntryToRecovery hlive⟩
  case up =>
    intro s h r w f sw hlive hdown hperst hstop hflit hwidth hadm
    rw [exec_linkUp_unadmitted hlive hdown hperst hstop hflit hwidth sw hadm]
    refine ⟨fun hm hf => ?_, fun hm hf => ?_, fun hm hsw => ?_, fun hm hsw => ?_⟩
    · simp [trainedEvents, trained, hm, hf]
    · simp [trainedEvents, trained, hm, hf]
    · simp [trainedEvents, trained, hm, hsw]
    · simp [trainedEvents, trained, hm, hsw]
  case narrow =>
    intro s h r w f sw hlive hdown hperst hstop hflit hwidth hw hm hf
    rw [exec_linkUp hlive hdown hperst hstop hflit hwidth, if_pos (.inl hw)]
    simp [trainedEvents, trained, hm, hf]

/-! Resets of a head (R51–R53). -/

theorem linkEvent_of_up {s : State} {h : Nat} (hlive : headLive s h = true) (hup : (getPort s h).up = true) : linkEvent h s = linkReset h true s := by
  simp [linkEvent, hlive, hup]

theorem exec_surpriseLinkDown {s : State} {h : PortId} (hlive : headLive s h.val = true) (hup : (getPort s h.val).up = true) :
    exec (.surpriseLinkDown h) s = .next (raiseTile (portTile h.val) .hpLinkDown h.val (linkEvent h.val s)) := by
  refine congrArg Host.Outcome.next (if_pos ?_)
  simp [hlive, hup]

/-- PERST_N of a running device's head, by whether the head is ready or Dawn has completed (R51–R53). -/
theorem exec_perstNAssert_head {s : State} {p : PortId} (hrun : running s = true) (hmid : midnight s = false) (hhead : isHead s p.val = true)
    {s1 : State} (hs1 : s1 = onPort p.val (fun x => { x with perst := true })
      (perstSeen p.val { s with rst := { s.rst with perstLow := setBit s.rst.perstLow p.val true } })) :
    exec (.perstNAssert p) s = .next (if (getPort s p.val).ready || dawnDone s then linkReset p.val false s1
      else onPort p.val (fun x => { x with up := false, rate := .down, width := 0, flit := .none, bi := false, training := false }) s1) := by
  change execPerstNAssert p s = _
  rw [execPerstNAssert, if_neg (by simp [hrun, hmid, hhead]), hs1]
  split <;> rfl

theorem exec_perstNAssert_off {s : State} (p : PortId) (hrun : running s = false) :
    exec (.perstNAssert p) s = .next { s with rst := { s.rst with perstLow := setBit s.rst.perstLow p.val true } } :=
  if_pos (by simp [hrun])

/-! Configuration requests (R41, R49, R419). -/

theorem halfSet_low_setWidth (old : W64) (v : W32) : (halfSet old false v).setWidth 32 = v := by
  simp [halfSet]

/-- BAR0 reads back the bits above its window of what has been written, and its type bits (R419). -/
theorem barReg_setBar_zero (v : W32) (f : FnSt) : barReg (setBar 0 v f) 0 = (v &&& 0xF8000000#32) ||| 4#32 := by
  simp only [barReg, setBar, halfSet_low_setWidth]

theorem cfgWrite_of_ne_setBar {q : CfgReq} (hq : ∀ i v, q ≠ .setBar i v) (h ld : Nat) (s : State) : cfgWrite h ld q s = s := by
  unfold cfgWrite
  split
  · exact absurd rfl (hq _ _)
  · rfl

section
variable {s : State} {h : PortId} {ld : LdId} {q : CfgReq} (hlive : headLive s h.val = true) (hup : (getPort s h.val).up = true)
include hlive hup

theorem exec_configurationRequest : exec (.configurationRequest h ld q) s = .next
    (if !(getPort s h.val).ready then send h.val .rrs s
     else if ld.val < ldCount s h.val then send h.val (.cfgCpl (cfgValue s h.val ld.val q)) (cfgWrite h.val ld.val q s)
     else send h.val (.cpl .unsupported 0#64) s) := by
  refine congrArg Host.Outcome.next (if_neg ?_)
  simp [hlive, hup]

end

/-- Settles O25: the link's resets, PERST_N by what the device does and by how far the head is, and a configuration request by the head and its LD. -/
theorem headResets : Obligations.HeadResets := by
  refine ⟨?link, ?perst, ?hold, fun s p => exec_perstNAssert_off p, ?config, fun s h ld => ⟨rfl, rfl, rfl, rfl⟩⟩
  case link =>
    intro s h hlive hup
    have hevent := linkEvent_of_up hlive hup
    exact ⟨congrArg _ hevent, congrArg _ hevent, congrArg _ hevent, by rw [exec_surpriseLinkDown hlive hup, hevent]⟩
  case perst =>
    intro s p hrun hmid hhead hgo
    rw [exec_perstNAssert_head hrun hmid hhead rfl, if_pos (by simpa using hgo)]
  case hold =>
    intro s p hrun hmid hhead hready hdawn
    rw [exec_perstNAssert_head hrun hmid hhead rfl, if_neg (by simp [hready, hdawn])]
  case config =>
    intro s h ld q hlive hup
    have hexec := exec_configurationRequest (ld := ld) (q := q) hlive hup
    refine ⟨fun hready => ?_, fun hready hld => ?_, fun hq => cfgWrite_of_ne_setBar hq _ _ s, fun v => ?_, fun hready hld => ?_⟩
    · rw [hexec, if_pos (by simp [hready]), send_of_up hup]
    · rw [hexec, if_neg (by simp [hready]), if_pos hld]
    · simp [cfgWrite, cfgValue, barReg_setBar_zero]
    · rw [hexec, if_neg (by simp [hready]), if_neg (by omega), send_of_up hup]

end Sys2Proof.Machine
end

section
/-!
The mailbox (O34–O37): what its queries answer, its settings, the fabric manager's queries, the poison list and Dynamic Capacity.
-/
namespace Sys2Proof.Machine

/-! Queries of any head (R67, R68). -/

section
variable {s : State} {f : Fn} (hup : mbUp s f = true) (hrec : s.dawn.recovery = false)
include hup hrec

/-- A command that any head may issue reaches its function where firmware serves every command. -/
theorem exec_of_serve_any {r : Bool} {act : State → State} {c : Instr} (hc : exec c s = .next (serve f .any r act s)) : exec c s = .next (act s) :=
  exec_of_serve hc hup hrec rfl

/-- A read of the fault log's part (R398). -/
theorem exec_getLog_fault (o n : Nat) : exec (.getLog f false o n) s = .next (logRead f (.part o n) s) :=
  exec_of_serve_any hup hrec rfl

theorem exec_getSupportedLogs : exec (.getSupportedLogs f) s = .next (logRead f .sizes s) :=
  exec_of_serve_any hup hrec rfl

/-- The logs are two. -/
theorem exec_getSupportedLogsSubList {k : Nat} (hk : k < 2) (n : Nat) :
    exec (.getSupportedLogsSubList f k n) s = .next (logRead f (.sub k n) s) := by
  rw [exec_of_serve_any (c := .getSupportedLogsSubList f k n) hup hrec rfl, if_neg (by omega)]

theorem exec_getFwInfo : exec (.getFwInfo f) s = .next (mbPut f .success (.fwInfo 2 (1 + b2n s.dawn.slotB) (optOf (optBytes s)).activate
    [(slotHdr s false).map (·.seq), (slotHdr s true).map (·.seq)]) s) := by
  rw [exec_of_serve_any (c := .getFwInfo f) hup hrec rfl]
  simp only [hrec, Bool.false_eq_true, if_false]

theorem exec_backgroundOperationStatus : exec (.backgroundOperationStatus f) s = .next (mbPut f .success
    (match s.host.bg with | some (op, live, rc) => .background op (if live then 0 else 100) rc | none => .background 0#16 0 .success) s) :=
  exec_of_serve_any hup hrec rfl

end

theorem logAnswer_part {s : State} {f : Fn} {o n : Nat} (hn : n ≤ 4096) (hend : o + n ≤ (faultLog s).length) :
    logAnswer f (.part o n) s = mbPut f .success (.bytes (slice (faultLog s) o n)) s := if_neg (by omega)

theorem logAnswer_part_invalid {s : State} {f : Fn} {o n : Nat} (h : 4096 < n ∨ (faultLog s).length < o + n) :
    logAnswer f (.part o n) s = mbPut f .invalidInput .none s := if_pos h

/-- A sub-list from the first log on, of two logs or more, is the whole list. -/
theorem logAnswer_sub_all {s : State} {f : Fn} {n : Nat} (hn : 2 ≤ n) : logAnswer f (.sub 0 n) s = logAnswer f .sizes s := by
  have h0 : 0 < n := by omega
  have h1 : 1 < n := by omega
  simp [logAnswer, h0, h1]

/-- Settles O34: every query is served with its answer; a query of the log's length or content goes by where the log store is. -/
theorem mailboxQueries : Obligations.MailboxQueries := by
  intro s f hup hrec
  have hserve {r : Bool} {act : State → State} {c : Instr} : exec c s = .next (serve f .any r act s) → exec c s = .next (act s) :=
    exec_of_serve_any hup hrec
  refine ⟨hserve rfl, hserve rfl, hserve rfl, exec_getFwInfo hup hrec, hserve rfl, hserve rfl, hserve rfl, hserve rfl, hserve rfl, hserve rfl,
    hserve rfl, hserve rfl, hserve rfl, fun h => ?idle, fun op rc h => ?done, fun l => hserve rfl, fun c => hserve rfl,
    fun i => ⟨hserve rfl, hserve rfl⟩, fun ha => ⟨?_, fun o n => ?_, fun k n hk => ?_⟩, fun ha hst => ?held, fun ha hst => ⟨?_, fun o n hn hend => ?_,
      fun o n h => ?_, fun n hn => ?_⟩, fun o n => hserve rfl⟩
  case idle => rw [exec_backgroundOperationStatus hup hrec, h]
  case done =>
    rw [exec_backgroundOperationStatus hup hrec, h]
    rfl
  · rw [exec_getSupportedLogs hup hrec, logRead_away _ _ ha]
  · rw [exec_getLog_fault hup hrec, logRead_away _ _ ha]
  · rw [exec_getSupportedLogsSubList hup hrec hk, logRead_away _ _ ha]
  case held =>
    rw [exec_getSupportedLogs hup hrec, logRead_starting _ _ ha hst]
    exact ⟨_, rfl, rfl, rfl⟩
  · rw [exec_getSupportedLogs hup hrec, logRead_ready _ _ ha hst]
    rfl
  · rw [exec_getLog_fault hup hrec, logRead_ready _ _ ha hst, logAnswer_part hn hend]
  · rw [exec_getLog_fault hup hrec, logRead_ready _ _ ha hst, logAnswer_part_invalid h]
  · rw [exec_getSupportedLogsSubList hup hrec (by omega), logRead_ready _ _ ha hst, logAnswer_sub_all hn]
    rfl

/-! Settings (R54, R66, R348, R398). -/

section
variable {s : State} {f : Fn} (hup : mbUp s f = true) (hrec : s.dawn.recovery = false)
include hup hrec

theorem exec_setResponseMessageLimit {n : Byte} (h8 : 8 ≤ n.toNat) (h12 : n.toNat ≤ 12) : exec (.setResponseMessageLimit f n) s =
    .next (mbPut f .success (.limit n) (onFn (fnOf f) (fun x => { x with limit := n }) s)) := by
  rw [exec_of_serve_any (c := .setResponseMessageLimit f n) hup hrec rfl, if_pos ⟨h8, h12⟩]

theorem exec_setEventInterruptPolicy (m : Byte) : exec (.setEventInterruptPolicy f m) s =
    .next (mbPut f (if m = 0#8 then .success else .invalidInput) .none s) :=
  exec_of_serve_any hup hrec rfl

/-- Some of a log's records leave it, the oldest first; the log does not become empty and its overflow stands. -/
theorem exec_clearEventRecords {l : EvLog} {n : Nat} (hn : n < (eventsOf (getFn s (fnOf f)) l).length) : exec (.clearEventRecords f l n) s =
    .next (mbPut f .success .none (onFn (fnOf f) (fun x => { x with events := dropEvents l n x.events }) s)) := by
  rw [exec_of_serve_any (c := .clearEventRecords f l n) hup hrec rfl]
  simp only [if_neg (Nat.not_lt_of_lt hn), if_neg (Nat.ne_of_gt hn)]

variable (hm : isMgmt s f = true)
include hm

theorem exec_of_serve_onMgmt {r : Bool} {act : State → State} {c : Instr} (hc : exec c s = .next (serve f .mgmt r act s)) : exec c s = .next (act s) :=
  exec_of_serve hc hup hrec hm

/-- A clear mark that the log path keeps leaves the answer open (R398). -/
theorem exec_clearLog_kept (hl : s.link.down = false) (hq : s.log.queue.length < 64) : exec (.clearLog f false) s =
    .next (onHost (fun h => { h with clearing := h.clearing ++ [fnOf f] }) (onFn (fnOf f) (fun x => { x with rsp := none })
      (primaryLog 0x12#8 0#8 0xFFFF#16 [] s))) := by
  rw [exec_of_serve_onMgmt (c := .clearLog f false) hup hrec hm rfl]
  simp [hl, hq]

theorem exec_requestAbort {op : BitVec 16} {rc : MbRc} (hbg : s.host.bg = some (op, true, rc)) : exec (.requestAbortBackgroundOperation f) s =
    .next (mbPut f .success .none { s with host := { s.host with bg := some (op, false, .aborted) }, flash := { s.flash with busy := none } }) := by
  rw [exec_of_serve_onMgmt (c := .requestAbortBackgroundOperation f) hup hrec hm rfl]
  simp only [hbg]
  rfl

theorem exec_transferFw_idle (img : Bytes) (hbg : s.host.bg = none) : exec (.transferFw f img) s = .next (mbPut f .bgStarted .none (eraseSlot (inactiveSlot s)
    { s with host := { s.host with bg := some (0x0201#16, true, .success) }, flash := { s.flash with busy := some (inactiveSlot s, img) } })) := by
  rw [exec_of_serve_onMgmt (c := .transferFw f img) hup hrec hm rfl]
  simp only [hbg]
  rfl

theorem exec_transferFw_busy {op : BitVec 16} {rc : MbRc} (img : Bytes) (hbg : s.host.bg = some (op, true, rc)) :
    exec (.transferFw f img) s = .next (mbPut f .busy .none s) := by
  rw [exec_of_serve_onMgmt (c := .transferFw f img) hup hrec hm rfl]
  simp only [hbg]

theorem exec_activateFw_usable {b : Bool} {h : SlotHdr} (hu : usable s b = some h) :
    exec (.activateFw f b false) s = .next (mbPut f .success .none (rewriteOpt (1 + b2n b) (some h.seq) s)) := by
  rw [exec_of_serve_onMgmt (c := .activateFw f b false) hup hrec hm rfl]
  simp only [Bool.false_eq_true, if_false, hu]

theorem exec_activateFw_unusable {b : Bool} (hu : usable s b = none) :
    exec (.activateFw f b false) s = .next (mbPut f .invalidInput .none s) := by
  rw [exec_of_serve_onMgmt (c := .activateFw f b false) hup hrec hm rfl]
  simp only [Bool.false_eq_true, if_false, hu]

end

@[simp] theorem flashWrite_time (off : Nat) (b : Bytes) (s : State) : (flashWrite off b s).time = s.time := rfl
@[simp] theorem flashWrite_free (off : Nat) (b : Bytes) (s : State) : (flashWrite off b s).free = s.free := rfl

theorem primaryRuns_of_mbUp {s : State} {f : Fn} (hup : mbUp s f = true) : primaryRuns s = true := by
  simp only [mbUp, Bool.and_eq_true] at hup
  exact hup.1.2

section
variable {s : State} {b : Bool} {img : Bytes} (hrun : primaryRuns s = true) (hbusy : s.flash.busy = some (b, img))
include hrun hbusy

theorem exec_transferFwDone_accepted (hok : transferOk s img = true) : exec .transferFwDone s =
    .next (rewriteOpt 0 none (flashWrite (slotBase b) img
      { s with host := { s.host with bg := some (0x0201#16, false, .success) }, flash := { s.flash with busy := none } })) := by
  change execTransferFwDone s = _
  simp only [execTransferFwDone, hbusy, hrun, hok, Bool.not_true, Bool.false_eq_true, if_false, if_true]
  rfl

theorem exec_transferFwDone_refused (hok : transferOk s img = false) : exec .transferFwDone s =
    .next { s with host := { s.host with bg := some (0x0201#16, false, .invalidInput) }, flash := { s.flash with busy := none } } := by
  change execTransferFwDone s = _
  simp only [execTransferFwDone, hbusy, hrun, hok, Bool.not_true, Bool.false_eq_true, if_false]
  rfl

end

/-- Settles O35: each setting is its command's law on the management head; a transfer and an activation go by the image and the slot. -/
theorem mailboxSettings : Obligations.MailboxSettings := by
  intro s f hup hrec hm
  refine ⟨fun n => exec_setResponseMessageLimit hup hrec, fun v => exec_of_serve_onMgmt (c := .setAlertConfiguration f v) hup hrec hm rfl, fun ns => exec_of_serve_onMgmt (c := .setTimestamp f ns) hup hrec hm rfl,
    exec_setEventInterruptPolicy hup hrec _, fun m hne => ?policy, fun l n => exec_clearEventRecords hup hrec, exec_clearLog_kept hup hrec hm,
    exec_of_serve_onMgmt hup hrec hm rfl, fun op rc => exec_requestAbort hup hrec hm, fun img => exec_transferFw_idle hup hrec hm img,
    fun op rc img => exec_transferFw_busy hup hrec hm img, fun b img => exec_transferFwDone_accepted (primaryRuns_of_mbUp hup),
    fun b img => exec_transferFwDone_refused (primaryRuns_of_mbUp hup), fun b h => exec_activateFw_usable hup hrec hm,
    fun b => exec_activateFw_unusable hup hrec hm, fun b => exec_of_serve_onMgmt (c := .activateFw f b true) hup hrec hm rfl, fun n q u hu => ?rewrite⟩
  case policy => rw [exec_setEventInterruptPolicy hup hrec, if_neg hne]
  case rewrite =>
    have htime : s.time = u.time := by rw [hu, flashWrite_time]
    have hfree : s.free = u.free := by rw [hu, flashWrite_free]
    rw [htime, hfree, rewriteOpt]
    dsimp only
    rw [← hu]
    rfl

/-! The fabric manager's queries (R45, R61, R67, R321). -/

theorem headMay_fm_of_mgmt {s : State} {f : Fn} (hm : isMgmt s f = true) : headMay s f .fm = true := by simp [headMay, hm]

theorem exec_of_serve_fm_not {s : State} {f : Fn} {r : Bool} {act : State → State} {c : Instr} (hup : mbUp s f = true) (hw : headMay s f .fm = false)
    (hc : exec c s = .next (serve f .fm r act s)) : exec c s = .next (mbPut f .unsupported .none s) := by
  rw [hc, serve_of_may_not hup hw]

section
variable {s : State} {f : Fn} (hup : mbUp s f = true) (hrec : s.dawn.recovery = false) (hw : headMay s f .fm = true)
include hup hrec hw

theorem exec_getHeadInfo (h : PortId) : exec (.getHeadInfo f h) s = .next (if isHead s h.val then mbPut f .success
    (.headInfo h.val (getPort s h.val).width (headLanes s h.val) (getPort s h.val).rate (getPort s h.val).up) s else mbPut f .invalidInput .none s) :=
  exec_of_serve (c := .getHeadInfo f h) rfl hup hrec hw

theorem exec_getHostDcRegionConfiguration (h : PortId) (ld : LdId) : exec (.getHostDcRegionConfiguration f h ld) s = .next
    (if ldThere s h.val ld.val then mbPut f .success (.dcConfig (dcRegions s h.val ld.val) (2 ^ 28)) s else mbPut f .invalidInput .none s) :=
  exec_of_serve (c := .getHostDcRegionConfiguration f h ld) rfl hup hrec hw

theorem exec_getDcRegionExtentLists (h : PortId) (ld : LdId) : exec (.getDcRegionExtentLists f h ld) s = .next
    (if ldThere s h.val ld.val then mbPut f .success (.extents (boundTo s h.val ld.val)) s else mbPut f .invalidInput .none s) :=
  exec_of_serve (c := .getDcRegionExtentLists f h ld) rfl hup hrec hw

end

theorem exec_unsupportedCommand {s : State} {f : Fn} {op : BitVec 16} (hup : mbUp s f = true) (hop : ∀ c ∈ commandTable, c.1 ≠ op.toNat) :
    exec (.unsupportedCommand f op) s = .next (mbPut f .unsupported .none s) := by
  have hnot : commandTable.any (fun c => c.1 = op.toNat) = false := by
    rw [List.any_eq_false]
    exact fun c hc => by simpa using hop c hc
  refine congrArg Host.Outcome.next (if_pos ?_)
  rw [hup, hnot]
  rfl

/-- Settles O36: a query of a head that may ask is served, one that names a head or LD by whether it is there, and one of a head that may not is Unsupported. -/
theorem fabricManagerQueries : Obligations.FabricManagerQueries := by
  refine ⟨fun s f hup hrec hw => ?served, fun s f hup hw => ?refused, fun s f op => exec_unsupportedCommand⟩
  case served =>
    have hserve {r : Bool} {act : State → State} {c : Instr} (hc : exec c s = .next (serve f .fm r act s)) : exec c s = .next (act s) :=
      exec_of_serve hc hup hrec hw
    refine ⟨hserve rfl, hserve rfl, hserve rfl, hserve rfl, hserve rfl, hserve rfl, hserve rfl, hserve rfl, fun h hh => ?_, fun h hh => ?_,
      fun h ld hl => ⟨?_, ?_⟩, fun h ld hl => ⟨?_, ?_⟩⟩
    · rw [exec_getHeadInfo hup hrec hw, if_pos hh]
    · rw [exec_getHeadInfo hup hrec hw, if_neg (by simp [hh])]
    · rw [exec_getHostDcRegionConfiguration hup hrec hw, if_pos hl]
    · rw [exec_getDcRegionExtentLists hup hrec hw, if_pos hl]
    · rw [exec_getHostDcRegionConfiguration hup hrec hw, if_neg (by simp [hl])]
    · rw [exec_getDcRegionExtentLists hup hrec hw, if_neg (by simp [hl])]
  case refused =>
    have hrefuse {r : Bool} {act : State → State} {c : Instr} (hc : exec c s = .next (serve f .fm r act s)) :
        exec c s = .next (mbPut f .unsupported .none s) := exec_of_serve_fm_not hup hw hc
    exact ⟨hrefuse rfl, hrefuse rfl, hrefuse rfl, hrefuse rfl, hrefuse rfl, hrefuse rfl, hrefuse rfl, hrefuse rfl,
      fun h ld => ⟨hrefuse rfl, hrefuse rfl, hrefuse rfl⟩⟩

end Sys2Proof.Machine
end

section
/-!
The poison list and Dynamic Capacity (O37).
-/
namespace Sys2Proof.Machine

/-! Extents offered, bound and released by their host (R62, R63). -/

section
variable {s : State} {f : Fn} (hup : mbUp s f = true) (hrec : s.dawn.recovery = false)
include hup hrec

theorem exec_addDynamicCapacityResponse_unnamed {e : Dpa × Nat} (hi : extNamed s f.head.val f.ld.val e.1.toNat e.2 = none) :
    exec (.addDynamicCapacityResponse f [e]) s = .next (mbPut f .invalidInput .none s) := by
  rw [exec_of_serve (c := .addDynamicCapacityResponse f [e]) rfl hup hrec rfl]
  simp [hi]

variable (hfm : f.fm = false)
include hfm

/-- A response that names one extent on offer whole binds it. -/
theorem exec_addDynamicCapacityResponse_accepts {i : Nat} {e : Dpa × Nat} (hi : extNamed s f.head.val f.ld.val e.1.toNat e.2 = some i)
    (ho : (offers s f.head.val f.ld.val).any (fun m => m.1 = i) = true) :
    exec (.addDynamicCapacityResponse f [e]) s = .next (mbPut f .success .none (setExt i (.bound false) s)) := by
  rw [exec_of_serve (c := .addDynamicCapacityResponse f [e]) rfl hup hrec rfl]
  simp [hfm, hi, Option.filter, ho]

/-- An empty response declines the oldest offer (log 62). -/
theorem exec_addDynamicCapacityResponse_declines {i : Nat} (hi : oldestOffer (offers s f.head.val f.ld.val) = some i) :
    exec (.addDynamicCapacityResponse f []) s = .next (mbPut f .success .none (setExt i .free s)) := by
  rw [exec_of_serve (c := .addDynamicCapacityResponse f []) rfl hup hrec rfl]
  simp [hfm, hi]

theorem exec_releaseDynamicCapacity_bound {d : Dpa} {n i : Nat} {r : Region} {q : Bool} (hi : extNamed s f.head.val f.ld.val d.toNat n = some i)
    (hr : regionAt s d.toNat = some r) (hb : extState s i = .bound q) : exec (.releaseDynamicCapacity f d n) s =
    .next (mbPut f .success .none (startFill d.toNat n r.idx (some i) (setExt i .filling s))) := by
  rw [exec_of_serve (c := .releaseDynamicCapacity f d n) rfl hup hrec rfl]
  simp [hfm, hi, hr, hb]

theorem exec_releaseDynamicCapacity_free {d : Dpa} {n i : Nat} (hi : extNamed s f.head.val f.ld.val d.toNat n = some i)
    (hb : extState s i = .free) : exec (.releaseDynamicCapacity f d n) s = .next (mbPut f .invalidInput .none s) := by
  rw [exec_of_serve (c := .releaseDynamicCapacity f d n) rfl hup hrec rfl]
  cases hr : regionAt s d.toNat <;> simp [hfm, hi, hb]

end

/-! The poison list (R456). -/

/-- The entries that overlap a range and that the function may see, from a DPA on. -/
def poisonHits (s : State) (f : Fn) (d n from_ : Nat) : List PoisonEntry :=
  s.map.poison.entries.filter (fun e => decide (from_ ≤ e.dpa) && decide (e.dpa < d + n) && decide (d < e.dpa + e.len) && fnSees s f e.dpa)

/-- Where a function's poison list goes on: past the last entry answered, where the range is the same. -/
def poisonFrom (s : State) (f : Fn) (d n : Nat) : Nat :=
  match (getFn s (fnOf f)).poisonPos with
  | some (a, m, last) => if a = d ∧ m = n then last + 1 else 0
  | none => 0

/-- Where it stands after these entries have been answered. -/
def poisonNext (d n from_ : Nat) (out : List PoisonEntry) : Option (Nat × Nat × Nat) :=
  if out.isEmpty ∧ from_ = 0 then none else some (d, n, match out.getLast? with | some e => e.dpa | none => from_ - 1)

theorem poisonNext_zero (d n : Nat) (out : List PoisonEntry) : poisonNext d n 0 out = out.getLast?.map (fun e => (d, n, e.dpa)) := by
  cases hlast : out.getLast? with
  | none => simp [poisonNext, List.getLast?_eq_none_iff.1 hlast]
  | some e =>
    have hne : out ≠ [] := fun h => by simp [h] at hlast
    simp [poisonNext, hlast, hne]

theorem poisonNext_succ (d n last : Nat) (out : List PoisonEntry) :
    poisonNext d n (last + 1) out = some (d, n, (out.getLast?.map (·.dpa)).getD last) := by
  cases hlast : out.getLast? <;> simp [poisonNext, hlast]

/-- The first 254 entries from the function's position on, and the position after them. -/
theorem exec_getPoisonList {s : State} {f : Fn} (hup : mbUp s f = true) (hrec : s.dawn.recovery = false) (d : Dpa) (n : Nat) :
    ∀ from_, from_ = poisonFrom s f d.toNat n → ∀ hits, hits = poisonHits s f d.toNat n from_ → exec (.getPoisonList f d n) s =
      .next (mbPut f .success (.poison ((hits.take 254).map (fun e => (e.dpa, e.len))) (decide (254 < hits.length)) s.map.poison.overflow)
        (onFn (fnOf f) (fun x => { x with poisonPos := poisonNext d.toNat n from_ (hits.take 254) }) s)) := by
  rintro from_ rfl hits rfl
  exact exec_of_serve (c := .getPoisonList f d n) rfl hup hrec rfl

/-! Poison commands (R460). -/

section
variable {s : State} {f : Fn} {r : Region} {d : Nat} {clear : Bool} {v : Line}

theorem startPoison_started (hf : inFill s d = false) (hu : unbound s f.head.val none d = false)
    (hd : r.typ = .protect → isDamaged s (dpaLoc s r (d / 64)) = false) : startPoison f d r clear v s =
    settle (startOp 0 (d / 64) (.poisonCmd (fnOf f) clear { data := v, chk := lineChk (d / 64) v }) (onFn (fnOf f) (fun x => { x with rsp := none }) s)) :=
  if_neg (by simp [hf, hu]; exact hd)

theorem startPoison_refused (h : inFill s d = true ∨ unbound s f.head.val none d = true ∨ (r.typ = .protect ∧ isDamaged s (dpaLoc s r (d / 64)) = true)) :
    startPoison f d r clear v s = mbPut f .internalError .none s :=
  if_pos (by simpa [or_assoc] using h)

end

/-! The commands of the management head (R62, R63, R460). -/

section
variable {s : State} {f : Fn} (hup : mbUp s f = true) (hrec : s.dawn.recovery = false) (hm : isMgmt s f = true)
include hup hrec hm

/-- A declared extent named exactly is offered where it is free and not being filled. -/
theorem exec_initiateAdd {h : PortId} {ld : LdId} {d : Dpa} {n i : Nat} {tag : BitVec 128}
    (hi : s.map.decls.findIdx? (fun x => x.head = h.val ∧ x.ld = ld.val ∧ x.base = d.toNat ∧ x.len = n ∧ x.tag = tag) = some i) :
    exec (.initiateDynamicCapacityAdd f h ld d n tag) s = .next
      (if extState s i ≠ .free || inFill s d.toNat then mbPut f .busy .none s
       else mbPut f .success .none (addEvent (fnKey h.val ld.val false) ⟨.dc, .dcAdd i⟩ (setExt i (.offered s.time.now) s))) := by
  rw [exec_of_serve (c := .initiateDynamicCapacityAdd f h ld d n tag) rfl hup hrec (headMay_fm_of_mgmt hm)]
  simp only [hi]

theorem exec_initiateRelease_bound {h : PortId} {ld : LdId} {d : Dpa} {n i : Nat} {q : Bool} (hi : extNamed s h.val ld.val d.toNat n = some i)
    (hb : extState s i = .bound q) : exec (.initiateDynamicCapacityRelease f h ld d n false) s =
    .next (mbPut f .success .none (addEvent (fnKey h.val ld.val false) ⟨.dc, .dcRelease i⟩ (setExt i (.bound true) s))) := by
  rw [exec_of_serve (c := .initiateDynamicCapacityRelease f h ld d n false) rfl hup hrec (headMay_fm_of_mgmt hm)]
  simp only [Bool.false_eq_true, if_false, hi, hb]

theorem exec_initiateRelease_forced (h : PortId) (ld : LdId) (d : Dpa) (n : Nat) :
    exec (.initiateDynamicCapacityRelease f h ld d n true) s = .next (mbPut f .unsupported .none s) :=
  exec_of_serve (c := .initiateDynamicCapacityRelease f h ld d n true) rfl hup hrec (headMay_fm_of_mgmt hm)

theorem exec_injectPoison {d : Dpa} {r : Region} (hr : regionAt s d.toNat = some r) : exec (.injectPoison f d) s = .next
    (if r.typ = .plain ∧ paramNat s "x.host.poison_inject" 0 = 1 then startPoison f d.toNat r false 0#512 s
     else mbPut f .invalidPhysicalAddress .none s) := by
  rw [exec_of_serve (c := .injectPoison f d) rfl hup hrec hm]
  simp only [hr]

theorem exec_clearPoison {d : Dpa} {v : Line} {r : Region} (hr : regionAt s d.toNat = some r) : exec (.clearPoison f d v) s = .next
    (if r.typ ≠ .packed then startPoison f d.toNat r true v s else mbPut f .invalidPhysicalAddress .none s) := by
  rw [exec_of_serve (c := .clearPoison f d v) rfl hup hrec hm]
  simp only [hr]

end

theorem exec_dcOfferTimeout {s : State} {e : Fin 2048} {at_ : Nat} {d : ExtDecl} (hrun : primaryRuns s = true) (he : extState s e.val = .offered at_)
    (hd : s.map.decls[e.val]? = some d) : exec (.dcOfferTimeout e) s =
    .next (addEvent (fnKey d.head d.ld false) ⟨.dc, .dcWithdrawn e.val⟩ (setExt e.val .free s)) := by
  change execDcOfferTimeout e s = _
  simp only [execDcOfferTimeout, he, hd, hrun, if_true]

/-- Settles O37: the host's answers and releases by the extent named, the poison list by where it goes on, and the management head's commands. -/
theorem poisonAndDynamicCapacity : Obligations.PoisonAndDynamicCapacity := by
  refine ⟨fun s f hup hrec => ⟨fun i e hfm => exec_addDynamicCapacityResponse_accepts hup hrec hfm, ?declined,
    fun e _ => exec_addDynamicCapacityResponse_unnamed hup hrec, fun d n i r q hfm => exec_releaseDynamicCapacity_bound hup hrec hfm,
    fun d n i hfm => exec_releaseDynamicCapacity_free hup hrec hfm, ?first, ?again, fun hm => ⟨?add, ?release, ?inject, ?noInject, ?clear, ?noClear, ?packed⟩⟩,
    fun s e at_ d => exec_dcOfferTimeout⟩
  case declined =>
    intro i t hfm ho
    exact exec_addDynamicCapacityResponse_declines hup hrec hfm (by rw [ho]; rfl)
  case first =>
    intro d n hits hp hhits
    have hfrom : 0 = poisonFrom s f d.toNat n := by simp [poisonFrom, hp]
    rw [exec_getPoisonList hup hrec d n 0 hfrom hits (by simpa [poisonHits] using hhits), poisonNext_zero]
  case again =>
    intro d n last hits hp hhits
    have hfrom : last + 1 = poisonFrom s f d.toNat n := by simp [poisonFrom, hp]
    rw [exec_getPoisonList hup hrec d n (last + 1) hfrom hits hhits, poisonNext_succ]
  case add =>
    intro h ld d n tag i hi
    refine ⟨fun he hf => ?_, fun he => ?_⟩
    · rw [exec_initiateAdd hup hrec hm hi, if_neg (by simp [he, hf])]
    · rw [exec_initiateAdd hup hrec hm hi, if_pos (by simp [he])]
  case release =>
    intro h ld d n i q hi hb
    exact ⟨exec_initiateRelease_bound hup hrec hm hi hb, exec_initiateRelease_forced hup hrec hm h ld d n⟩
  case inject =>
    intro d r hr ht hf hu hp
    rw [exec_injectPoison hup hrec hm hr, if_pos ⟨ht, hp⟩, startPoison_started hf hu (by simp [ht])]
  case noInject =>
    intro d r hr h
    rw [exec_injectPoison hup hrec hm hr, if_neg (by tauto)]
  case clear =>
    intro d v r hr ht hf hu hd
    rw [exec_clearPoison hup hrec hm hr, if_pos ht, startPoison_started hf hu hd]
  case noClear =>
    intro d v r hr ht h
    rw [exec_clearPoison hup hrec hm hr, if_pos ht, startPoison_refused h]
  case packed =>
    intro d v r hr ht
    rw [exec_clearPoison hup hrec hm hr, if_neg (by simp [ht])]

end Sys2Proof.Machine
end

section
/-!
The secured commands and the DOE mailboxes (O39, O40).
-/
namespace Sys2Proof.Machine

/-! What a secured command's input brings about (R68, R301). -/

section
variable {s : State} {b : Bytes} {k : Nat}

theorem installKeyIn_empty (hb : b.length = 40) (hk : leAt b 0 2 = k) (h0 : 0 < k) (hmax : k < 4096) (hrsv : leAt b 2 2 = 0) (hgen : leAt b 4 4 ≠ 0)
    (hslot : keySlot s (BitVec.ofNat 12 k) = none) : installKeyIn b s = (.success, { s with cry := { s.cry with
      keys := Table.set none s.cry.keys k (some ⟨BitVec.ofNat 256 (beNat (slice b 8 32)), BitVec.ofNat 32 (leAt b 4 4)⟩), everInstalled := true } }) := by
  simp only [installKeyIn, inputOf_exact hb, hk]
  rw [if_neg (by simp [hslot, hrsv, hgen]; omega)]
  rfl

theorem installKeyIn_filled (hb : b.length = 40) (hk : leAt b 0 2 = k) (hslot : (keySlot s (BitVec.ofNat 12 k)).isSome = true) :
    installKeyIn b s = (.invalidInput, s) := by
  simp only [installKeyIn, inputOf_exact hb, hk]
  rw [if_pos (by simp [hslot])]

theorem retireKeyIn_unused (hb : b.length = 2) (hk : leAt b 0 2 = k) (h0 : 0 < k) (hmax : k < 4096) (hused : keyUsed s k = false) :
    retireKeyIn b s = (.success, { s with cry := { s.cry with keys := Table.set none s.cry.keys k none } }) := by
  simp only [retireKeyIn, inputOf_exact hb, hk, hused]
  rw [if_neg (by omega)]
  rfl

/-- With every check of R301 passed a pass is added, each tile's twilight line at the start of its share. -/
theorem startTwilightIn_started {r : Region} (hb : b.length = 8) (hk : leAt b 2 2 = k) (hr : regionOf s (leAt b 0 2) = some r) (ht : r.typ = .protect)
    (hrsv : leAt b 4 4 = 0) (h0 : 0 < k) (hmax : k < 4096) (hslot : (keySlot s (BitVec.ofNat 12 k)).isSome = true) (hcur : k ≠ (currentKey s r).toNat)
    (hpass : passOn s r.idx = none) (hroom : s.cry.passes.length < 8) (hold : s.cry.passes.any (fun p => decide (p.old.toNat = k)) = false)
    (hfill : fillingRegion s r.idx = false) : startTwilightIn b s = (.success, { s with cry := { s.cry with
      passes := s.cry.passes ++ [⟨r.idx, currentKey s r, BitVec.ofNat 12 k, false, []⟩] } }) := by
  have hkey : ¬(k = 0 ∨ 4096 ≤ k ∨ (keySlot s (BitVec.ofNat 12 k)).isNone = true) := by
    simp [Option.isNone_eq_false_iff.2 hslot]
    omega
  simp only [startTwilightIn, inputOf_exact hb, hk, hr, Option.filter, ht, true_or, decide_true, if_true]
  rw [if_neg (by simp [hrsv]), if_neg hkey, if_neg hcur, if_neg (by simp [hpass]), if_neg (by omega), if_neg (by simp [hold]), if_neg (by simp [hfill])]
  rfl

end

/-! The two paths of a secured command (R65, R277). -/

section
variable {s : State} {h : PortId} {sid : Nat} (hup : mbUp s (lead h) = true) (hses : sessionOf s h.val sid = true)
include hup hses

/-- In a session the vendor response stands with the lead function: of the command where the session may ask, else of what keeps it from asking. -/
theorem secured_session (op : BitVec 16) (act : State → MbRc × State) : secured (.session h sid) op act s =
    match securedRc s (.session h sid) with
    | some rc => onFn (fnOf (lead h)) (fun x => { x with doe := .vendor op rc .none }) s
    | none => onFn (fnOf (lead h)) (fun x => { x with doe := .vendor op (act s).1 .none }) (act s).2 := by
  simp only [secured, hup, hses]
  cases securedRc s (.session h sid) <;> rfl

theorem secured_session_refused {rc : MbRc} (hrc : securedRc s (.session h sid) = some rc) (op : BitVec 16) (act : State → MbRc × State) :
    secured (.session h sid) op act s = onFn (fnOf (lead h)) (fun x => { x with doe := .vendor op rc .none }) s := by
  rw [secured_session hup hses]
  simp only [hrc]

theorem secured_session_done (hrc : securedRc s (.session h sid) = none) {op : BitVec 16} {act : State → MbRc × State} {rc : MbRc} {t : State}
    (hact : act s = (rc, t)) : secured (.session h sid) op act s = onFn (fnOf (lead h)) (fun x => { x with doe := .vendor op rc .none }) t := by
  rw [secured_session hup hses]
  simp only [hrc, hact]

end

/-- Through a mailbox of the management head a secured command is answered with Invalid Security State. -/
theorem secured_mailbox {s : State} {f : Fn} (hup : mbUp s f = true) (hrec : s.dawn.recovery = false) (hm : isMgmt s f = true) (op : BitVec 16)
    (act : State → MbRc × State) : secured (.mailbox f) op act s = mbPut f .invalidSecurityState .none s := by
  simp [secured, securedRc, hup, hrec, hm]

theorem exec_installKey (v : Via) (b : Bytes) (s : State) : exec (.installKey v b) s = .next (secured v 0xC040#16 (installKeyIn b) s) := rfl
theorem exec_retireKey (v : Via) (b : Bytes) (s : State) : exec (.retireKey v b) s = .next (secured v 0xC041#16 (retireKeyIn b) s) := rfl
theorem exec_startTwilight (v : Via) (b : Bytes) (s : State) : exec (.startTwilight v b) s = .next (secured v 0xC042#16 (startTwilightIn b) s) := rfl

theorem doePut_of_up {s : State} {f : Fn} (hup : mbUp s f = true) (r : DoeRsp) : doePut f r s = onFn (fnOf f) (fun x => { x with doe := r }) s :=
  if_pos hup

/-! Vendor-defined requests (R65). -/

section
variable {s : State} {h : PortId} {sid : Nat} {p : Bytes} (hses : sessionOf s h.val sid = true)
include hses

/-- A whole request with a secured command's opcode acts as that command with the request's payload. -/
theorem exec_vendorDefinedRequest_secured {act : Bytes → State → MbRc × State} (hrsv : leAt p 2 2 = 0) (hlen : 8 + leAt p 4 4 ≤ p.length)
    (hop : securedAct (leAt p 0 2) = some act) : exec (.vendorDefinedRequest h sid p) s =
    .next (secured (.session h sid) (BitVec.ofNat 16 (leAt p 0 2)) (act ((p.drop 8).take (leAt p 4 4))) s) := by
  change execVendorDefinedRequest h sid p s = _
  simp [execVendorDefinedRequest, hses, hop, Nat.not_lt_of_le hlen, hrsv]

theorem exec_vendorDefinedRequest_unsupported (hup : mbUp s (lead h) = true) (hop : securedAct (leAt p 0 2) = none) :
    exec (.vendorDefinedRequest h sid p) s =
    .next (onFn (fnOf (lead h)) (fun x => { x with doe := .vendor (BitVec.ofNat 16 (leAt p 0 2)) .unsupported .none }) s) := by
  change execVendorDefinedRequest h sid p s = _
  simp [execVendorDefinedRequest, hses, hop, doePut_of_up hup]

end

theorem securedAct_of_not_mem {n : Nat} (h : n ∉ [0xC040, 0xC041, 0xC042]) : securedAct n = none := by
  simp only [List.mem_cons, List.not_mem_nil, or_false, not_or] at h
  obtain ⟨h0, h1, h2⟩ := h
  unfold securedAct
  split
  · exact absurd rfl h0
  · exact absurd rfl h1
  · exact absurd rfl h2
  · rfl

/-- Settles O39: each secured command by its input in a session that may ask, a vendor-defined request by its opcode, and what keeps a command from acting. -/
theorem securedCommands : Obligations.SecuredCommands := by
  refine ⟨?install, ?filled, ?retire, ?twilight, ?vendor, ?mailbox, ?refused⟩
  case install =>
    intro s h sid k b hup hses hrc hb hk h0 hmax hrsv hgen hslot
    rw [exec_installKey, secured_session_done hup hses hrc (installKeyIn_empty hb hk h0 hmax hrsv hgen hslot)]
  case filled =>
    intro s h sid k b hup hses hrc hb hk hslot
    rw [exec_installKey, secured_session_done hup hses hrc (installKeyIn_filled hb hk hslot)]
  case retire =>
    intro s h sid k b hup hses hrc hb hk h0 hmax hused
    rw [exec_retireKey, secured_session_done hup hses hrc (retireKeyIn_unused hb hk h0 hmax hused)]
  case twilight =>
    intro s h sid k b r hup hses hrc hb hk hr ht hrsv h0 hmax hslot hcur hpass hroom hold hfill
    rw [exec_startTwilight, secured_session_done hup hses hrc (startTwilightIn_started hb hk hr ht hrsv h0 hmax hslot hcur hpass hroom hold hfill)]
  case vendor =>
    rintro s h sid p b hup hses hrsv hlen rfl
    refine ⟨fun hop => ?_, fun hop => ?_, fun hop => ?_,
      fun hop => exec_vendorDefinedRequest_unsupported hses hup (securedAct_of_not_mem hop)⟩
    · rw [exec_vendorDefinedRequest_secured (act := installKeyIn) hses hrsv hlen (by rw [hop]; rfl), exec_installKey, hop]
    · rw [exec_vendorDefinedRequest_secured (act := retireKeyIn) hses hrsv hlen (by rw [hop]; rfl), exec_retireKey, hop]
    · rw [exec_vendorDefinedRequest_secured (act := startTwilightIn) hses hrsv hlen (by rw [hop]; rfl), exec_startTwilight, hop]
  case mailbox =>
    intro s f b hup hrec hm
    rw [exec_installKey, exec_retireKey, exec_startTwilight]
    simp only [secured_mailbox hup hrec hm, and_self]
  case refused =>
    intro s h sid b rc hup hses hrc
    rw [exec_installKey, exec_retireKey, exec_startTwilight]
    simp only [secured_session_refused hup hses hrc, and_self]

/-! DOE requests on a served function (R41, R64, R354–R356). -/

section
variable {s : State} {f : Fn} (hup : mbUp s f = true)
include hup

theorem exec_of_doePut {r : DoeRsp} {c : Instr} (hc : exec c s = .next (doePut f r s)) :
    exec c s = .next (onFn (fnOf f) (fun x => { x with doe := r }) s) := by
  rw [hc, doePut_of_up hup]

/-- Each entry of the table names the next one, and the last none; entry 0 is the header. -/
theorem exec_tableAccess_header : exec (.tableAccess f 0#16) s = .next (onFn (fnOf f) (fun x =>
    { x with doe := .cdat (cdatHeader (cdatEntries s f)) (if cdatEntries s f = [] then 0xFFFF#16 else 1#16) }) s) := by
  rw [exec_of_doePut (c := .tableAccess f 0#16) hup rfl]
  cases cdatEntries s f <;> simp

theorem exec_tableAccess_entry {e : BitVec 16} {b : Bytes} (he : e ≠ 0#16) (hb : (cdatEntries s f)[e.toNat - 1]? = some b) :
    exec (.tableAccess f e) s = .next (onFn (fnOf f) (fun x =>
      { x with doe := .cdat b (if e.toNat < (cdatEntries s f).length then e + 1#16 else 0xFFFF#16) }) s) := by
  have hpos : e.toNat = e.toNat - 1 + 1 := by
    have : e.toNat ≠ 0 := fun h => he (BitVec.eq_of_toNat_eq h)
    omega
  have hget : (cdatHeader (cdatEntries s f) :: cdatEntries s f)[e.toNat]? = some b := by
    rw [hpos, List.getElem?_cons_succ, hb]
  rw [exec_of_doePut (c := .tableAccess f e) hup rfl]
  simp [hget]

theorem exec_getCertificate (k : Fin 8) (o n : Nat) : exec (.getCertificate f k o n) s = .next (onFn (fnOf f) (fun x => { x with
    doe := if k.val ≠ 0 ∨ (chainOf s).length ≤ o then .error "InvalidRequest"
      else .certificate (((chainOf s).drop o).take (min n 4096)) ((chainOf s).length - o - (((chainOf s).drop o).take (min n 4096)).length) }) s) :=
  exec_of_doePut hup rfl

theorem exec_challenge (n : BitVec 256) : exec (.challenge f 0 n) s = .next (onFn (fnOf f) (fun x => { x with
    doe := .challengeAuth 0 (chainDigest s) (Config.spdmNonce s.free) (Config.signature s.fuse.idKey
      (beBytes 32 (chainDigest s).toNat ++ beBytes 32 n.toNat ++ beBytes 32 (Config.spdmNonce s.free).toNat)) }) { s with free := s.free + 1 }) := by
  have hup' : mbUp { s with free := s.free + 1 } f = true := hup
  refine congrArg Host.Outcome.next ((if_pos hup).trans ?_)
  exact doePut_of_up hup' _

theorem exec_keyExchange_new (root : BitVec 256) (hh : sessionCount s (fun x => x.head = f.head.val) < 2) (hd : sessionCount s (fun _ => true) < 16) :
    exec (.keyExchange f true true root) s = .next (onFn (fnOf f) (fun x => { x with doe := .keyExchange (s.host.nextSid + 1) })
      { s with host := { s.host with
        nextSid := s.host.nextSid + 1, sessions := Table.set none s.host.sessions (s.host.nextSid + 1) (some ⟨f.head.val, root⟩) } }) := by
  change execKeyExchange f true true root s = _
  rw [execKeyExchange, if_neg (by simp [hup]), if_neg (by simp), if_neg (by omega), if_neg (by simp)]
  exact congrArg _ (doePut_of_up (by exact hup) _)

theorem exec_keyExchange_full (a : Bool) (root : BitVec 256)
    (h : 2 ≤ sessionCount s (fun x => x.head = f.head.val) ∨ 16 ≤ sessionCount s (fun _ => true)) :
    exec (.keyExchange f true a root) s = .next (onFn (fnOf f) (fun x => { x with doe := .error "SessionLimitExceeded" }) s) := by
  change execKeyExchange f true a root s = _
  rw [execKeyExchange, if_neg (by simp [hup]), if_neg (by simp), if_pos h, doePut_of_up hup]

theorem exec_heartbeat {sid : Nat} (hses : sessionOf s f.head.val sid = true) :
    exec (.heartbeat f sid) s = .next (onFn (fnOf f) (fun x => { x with doe := .heartbeatAck }) s) := by
  rw [exec_of_doePut (c := .heartbeat f sid) hup rfl, if_pos hses]

theorem exec_keyUpdate {sid : Nat} (hses : sessionOf s f.head.val sid = true) :
    exec (.keyUpdate f sid) s = .next (onFn (fnOf f) (fun x => { x with doe := .keyUpdateAck }) s) := by
  rw [exec_of_doePut (c := .keyUpdate f sid) hup rfl, if_pos hses]

end

/-- Settles O40: each request on a served function by its law. -/
theorem doeCommands : Obligations.DoeCommands := by
  intro s f hup
  have hput {r : DoeRsp} {c : Instr} : exec c s = .next (doePut f r s) → exec c s = .next (onFn (fnOf f) (fun x => { x with doe := r }) s) :=
    exec_of_doePut hup
  refine ⟨⟨hput rfl, hput rfl, hput rfl, hput rfl⟩, exec_tableAccess_header hup, fun e b => exec_tableAccess_entry hup, fun o n ho => ?chain,
    fun k o n hk => ?slot, fun n => ⟨_, exec_challenge hup n⟩, ⟨_, hput rfl⟩, fun root => exec_keyExchange_new hup root,
    fun a root => exec_keyExchange_full hup a root, hput rfl, hput rfl, hput rfl, fun sid hses => ⟨exec_heartbeat hup hses, exec_keyUpdate hup hses⟩⟩
  case chain =>
    rw [exec_getCertificate hup, if_neg]
    simpa using ho
  case slot => rw [exec_getCertificate hup, if_pos (.inl hk)]

end Sys2Proof.Machine
end

section
/-!
CXL.mem requests at their port, and the hold queue they join (O28, O29).
-/
namespace Sys2Proof.Machine

/-! A CXL.mem request at its port (R57, R59, R72, R111, R313). -/

/-- The count of a CXL.mem request at its port. -/
def countReq (h : Nat) (cnt : Option Nat) (s : State) : State := match cnt with | some k => addCnt (portCnt h k) 1 s | none => s

/-- The attributes of a CXL.mem request (R26, R80). -/
def memAttr (s : State) (x : MemAddr) (r : Region) (v : View) : Attr :=
  { head := x.head.val, cls := v.cls, key := currentKey s r, ld := x.ld.val }

/-- A request reaches its port with room in the head's hold queue. -/
structure Arrives (s : State) (x : MemAddr) : Prop where
  live : headLive s x.head.val = true
  up : (getPort s x.head.val).up = true
  room : (getHold s x.head.val).length < 256

/-- A request's HPA decodes to a line of a region that its LD has in view (R72, R78). -/
structure Decodes (s : State) (x : MemAddr) (a : Nat) (r : Region) (v : View) : Prop where
  dpa : hpaToDpa s (fnKey x.head.val x.ld.val false) x.hpa.toNat = some a
  region : regionAt s a = some r
  view : viewOf s x.head.val x.ld.val r.idx = some v

section
variable {s : State} {x : MemAddr} (ha : Arrives s x) (cnt : Option Nat) {mk : Attr → Bool → Nat → WOp}
include ha

/-- A request that hits no decoder is answered at its port (log 53). -/
theorem memReq_unmapped (hd : hpaToDpa s (fnKey x.head.val x.ld.val false) x.hpa.toNat = none) :
    memReq x cnt mk s = answerUnmapped x.head.val x.hpa.toNat (mk { head := x.head.val } false 0) (countReq x.head.val cnt s) := by
  simp only [memReq, ha.live, ha.up, Nat.not_le_of_lt ha.room, hd]
  rfl

/-- A write that hits no decoder is answered Cmp, counted and logged. -/
theorem memReq_unmapped_write (hd : hpaToDpa s (fnKey x.head.val x.ld.val false) x.hpa.toNat = none) {t : Attr} {tag : BitVec 16} {mv : Mv}
    {db full : Bool} {mask : W64} {d : LVal} (hw : mk { head := x.head.val } false 0 = .hostWr t tag mv db mask full d) : memReq x cnt mk s =
    eventHead x.head.val ⟨.failure, .noDecoder x.hpa.toNat⟩ (addCnt (portCnt x.head.val 6) 1
      (send x.head.val (.ndr tag .cmp) (countReq x.head.val cnt s))) := by
  rw [memReq_unmapped ha cnt hd, hw]
  rfl

variable {a : Nat} {r : Region} {v : View} (hd : Decodes s x a r v)
include hd

/-- A write that meets a BISnp of its own head goes to the home as a host write-back (R111). -/
theorem memReq_snooped {mask : W64} {d : LVal} {tag : BitVec 16} (hw : writeOf (mk (memAttr s x r v) v.db (a / 64)) = some (mask, d, tag))
    (hs : portSnoops s x.head.val (a / 64) = true) : memReq x cnt mk s =
    sendRsp { op := .hostWb, src := portTile x.head.val, dst := homeOf s (a / 64), line := a / 64, attr := memAttr s x r v, mask := mask, val := d,
              biTag := tag } (countReq x.head.val cnt s) := by
  rw [memAttr] at hw
  simp only [memReq, ha.live, ha.up, Nat.not_le_of_lt ha.room, hd.dpa, hd.region, hd.view, Option.map_some, Option.getD_some, hw, hs]
  rfl

/-- A read, or a write that meets no BISnp of its head, fails at the port where it meets a data error (R57). -/
theorem memReq_error (hs : writeOf (mk (memAttr s x r v) v.db (a / 64)) = none ∨ portSnoops s x.head.val (a / 64) = false)
    (he : ingressErr s x.head.val x.ld.val a = true) : memReq x cnt mk s =
    failAtPort x.head.val (a / 64) (mk (memAttr s x r v) v.db (a / 64)) (memAttr s x r v) (countReq x.head.val cnt s) := by
  rw [memAttr] at hs
  simp only [memReq, ha.live, ha.up, Nat.not_le_of_lt ha.room, hd.dpa, hd.region, hd.view, Option.map_some, Option.getD_some, he]
  rcases hs with hs | hs
  · simp only [hs]
    rfl
  · simp only [hs]
    generalize writeOf _ = w
    cases w <;> rfl

/-- One that meets no data error joins the hold queue, a write into a packed window apart (R313). -/
theorem memReq_held (hs : writeOf (mk (memAttr s x r v) v.db (a / 64)) = none ∨ portSnoops s x.head.val (a / 64) = false ∧ r.typ ≠ .packed)
    (he : ingressErr s x.head.val x.ld.val a = false) : memReq x cnt mk s =
    settle (holdReq x.head.val ⟨mk (memAttr s x r v) v.db (a / 64), a / 64, v.cls, homeOf s (a / 64)⟩ (countReq x.head.val cnt s)) := by
  rw [memAttr] at hs
  simp only [memReq, ha.live, ha.up, Nat.not_le_of_lt ha.room, hd.dpa, hd.region, hd.view, Option.map_some, Option.getD_some, he]
  rcases hs with hs | ⟨hs, hp⟩
  · simp only [hs]
    rfl
  · simp only [hs, hp, decide_false]
    generalize writeOf _ = w
    cases w <;> rfl

/-- A write into a packed window is answered at its port (R59). -/
theorem memReq_packed {mask : W64} {d : LVal} {tag : BitVec 16} (hw : writeOf (mk (memAttr s x r v) v.db (a / 64)) = some (mask, d, tag))
    (hs : portSnoops s x.head.val (a / 64) = false) (he : ingressErr s x.head.val x.ld.val a = false) (hp : r.typ = .packed) :
    memReq x cnt mk s = packedWrite x.head.val (a / 64) tag (countReq x.head.val cnt s) := by
  rw [memAttr] at hw
  simp only [memReq, ha.live, ha.up, Nat.not_le_of_lt ha.room, hd.dpa, hd.region, hd.view, Option.map_some, Option.getD_some, hw, hs, he, hp, decide_true]
  rfl

end

/-! The requests (R97, R108, R458). -/

section
variable {s : State} {x : MemAddr} (ha : Arrives s x) {a : Nat} {r : Region} {v : View} (hd : Decodes s x a r v)

include ha hd in
/-- A read, a MemInv or a clean evict that meets no data error joins the hold queue. -/
theorem memReq_read_held (cnt : Option Nat) {mk : Attr → Bool → Nat → WOp} (hw : ∀ t db l, writeOf (mk t db l) = none)
    (he : ingressErr s x.head.val x.ld.val a = false) : memReq x cnt mk s =
    settle (holdReq x.head.val ⟨mk (memAttr s x r v) v.db (a / 64), a / 64, v.cls, homeOf s (a / 64)⟩ (countReq x.head.val cnt s)) :=
  memReq_held ha cnt hd (.inl (hw ..)) he

end

/-- Settles O28: each request joins the hold queue as what it is; a MemRd fails at the port on a data error, and is answered there without a decoder. -/
theorem cxlMemReads : Obligations.CxlMemReads := by
  refine ⟨?held, ?error, ?unmapped⟩
  case held =>
    intro s x mv a r v hlive hup hroom hdpa hr hv he
    have held {mk : Attr → Bool → Nat → WOp} (cnt : Option Nat) (hw : ∀ t db l, writeOf (mk t db l) = none) :=
      congrArg (Host.Outcome.next (φ := Fault) (ρ := Refusal)) (memReq_read_held ⟨hlive, hup, hroom⟩ ⟨hdpa, hr, hv⟩ cnt hw he)
    exact ⟨held (some 0) fun _ _ _ => rfl, held (some 0) fun _ _ _ => rfl, held none fun _ _ _ => rfl, held none fun _ _ _ => rfl⟩
  case error =>
    intro s x mv a r v hlive hup hroom hdpa hr hv he
    exact congrArg Host.Outcome.next (memReq_error ⟨hlive, hup, hroom⟩ (some 0) ⟨hdpa, hr, hv⟩ (.inl rfl) he)
  case unmapped =>
    intro s x mv hlive hup hroom hd
    exact congrArg Host.Outcome.next (memReq_unmapped ⟨hlive, hup, hroom⟩ (some 0) hd)

/-! Writes into a packed window, and the hold queue (R59, R313, R331). -/

section
variable {s : State} {h line : Nat} {tag : BitVec 16}

theorem packedWrite_warned (hup : (getPort s h).up = true) (hw : Table.get 0 s.host.packedWarn h = (s.time.now - s.time.relAt) / 1000000 + 1) :
    packedWrite h line tag s = send h (.ndr tag .cmp) s := by
  rw [packedWrite, send_of_up hup]
  exact if_pos hw

theorem packedWrite_first (hup : (getPort s h).up = true) (hw : Table.get 0 s.host.packedWarn h ≠ (s.time.now - s.time.relAt) / 1000000 + 1) :
    packedWrite h line tag s = eventHead h ⟨.warning, .packedWrite (64 * line)⟩ { s with host := { s.host with
      sent := (h, .ndr tag .cmp) :: s.host.sent, packedWarn := Table.set 0 s.host.packedWarn h ((s.time.now - s.time.relAt) / 1000000 + 1) } } := by
  rw [packedWrite, send_of_up hup]
  exact if_neg hw

theorem exec_holdQueueRelease {h : PortId} (hrun : tileRuns s (portTile h.val) = true) (hmid : midnight s = false) :
    exec (.holdQueueRelease h) s = .next (settle (releaseHold h.val s)) :=
  congrArg Host.Outcome.next (if_pos (by simp [hrun, hmid]))

/-- A head's turn at the home's shared pool is the request's, and no deferred miss of the head stands before it (R331). -/
def hasPoolTurn (s : State) (h : Nat) (x : HeldReq) : Bool := leavesPool s h x && decide (poolTurn s x.home = some h) && !deferredPool s h x.home

theorem releaseHold_now {x : HeldReq} (hx : (getHold s h).find? (leavesNow s h) = some x) : releaseHold h s = leaveHold h x s := by
  simp only [releaseHold, hx]

theorem releaseHold_pool {x : HeldReq} (hnow : (getHold s h).find? (leavesNow s h) = none)
    (hx : (getHold s h).find? (hasPoolTurn s h) = some x) : releaseHold h s = leaveHold h x s := by
  unfold hasPoolTurn at hx
  simp only [releaseHold, hnow, hx]

theorem releaseHold_none (hnow : (getHold s h).find? (leavesNow s h) = none) (hx : (getHold s h).find? (hasPoolTurn s h) = none) :
    releaseHold h s = s := by
  unfold hasPoolTurn at hx
  simp only [releaseHold, hnow, hx]

end

/-- Settles O29: a write by what it meets at its port, MemWr writing every byte; then the packed window and the hold queue. -/
theorem cxlMemWrites : Obligations.CxlMemWrites := by
  refine ⟨?held, ?snooped, ?error, ?unmapped, ?packed, fun s h line tag hup => ⟨packedWrite_warned hup, packedWrite_first hup⟩,
    fun s h => exec_holdQueueRelease, fun s h x => ⟨releaseHold_now, releaseHold_none, releaseHold_pool⟩⟩
  case held =>
    intro s x mv m d p a r v hlive hup hroom hdpa hr hv he hs hp
    have held {mk : Attr → Bool → Nat → WOp} :=
      memReq_held (mk := mk) ⟨hlive, hup, hroom⟩ (some 1) ⟨hdpa, hr, hv⟩ (.inr ⟨hs, hp⟩) he
    exact ⟨congrArg Host.Outcome.next held, congrArg Host.Outcome.next held⟩
  case snooped =>
    intro s x mv m d p a r v hlive hup hroom hdpa hr hv _ hs
    exact ⟨congrArg Host.Outcome.next (memReq_snooped ⟨hlive, hup, hroom⟩ (some 1) ⟨hdpa, hr, hv⟩ rfl hs),
      congrArg Host.Outcome.next (memReq_snooped ⟨hlive, hup, hroom⟩ (some 1) ⟨hdpa, hr, hv⟩ rfl hs)⟩
  case error =>
    intro s x mv m d p a r v hlive hup hroom hdpa hr hv he hs
    have error {mk : Attr → Bool → Nat → WOp} :=
      memReq_error (mk := mk) ⟨hlive, hup, hroom⟩ (some 1) ⟨hdpa, hr, hv⟩ (.inr hs) he
    exact ⟨congrArg Host.Outcome.next error, congrArg Host.Outcome.next error⟩
  case unmapped =>
    intro s x mv m d p hlive hup hroom hd
    have unmapped {mk : Attr → Bool → Nat → WOp} {t : Attr} {db full : Bool} {mask : W64} {v : LVal}
        (hw : mk { head := x.head.val } false 0 = .hostWr t x.tag mv db mask full v) :=
      memReq_unmapped_write ⟨hlive, hup, hroom⟩ (some 1) hd hw
    exact ⟨congrArg Host.Outcome.next (unmapped rfl), congrArg Host.Outcome.next ((unmapped rfl).trans (unmapped rfl).symm)⟩
  case packed =>
    intro s x mv m d p a r v hlive hup hroom hdpa hr hv he hs hp
    have packed {mk : Attr → Bool → Nat → WOp} {mask : W64} {d : LVal} (hw : writeOf (mk (memAttr s x r v) v.db (a / 64)) = some (mask, d, x.tag)) :=
      memReq_packed ⟨hlive, hup, hroom⟩ (some 1) ⟨hdpa, hr, hv⟩ hw hs he hp
    exact ⟨congrArg Host.Outcome.next (packed rfl), congrArg Host.Outcome.next ((packed rfl).trans (packed rfl).symm)⟩

end Sys2Proof.Machine
end

section
/-!
BISnp answers, AtomicOps and decoder commits at their port (O30–O32).
-/
namespace Sys2Proof.Machine

/-! BISnp answers and poisoned writes (R60, R106, R110, R112). -/

section
variable {s : State} {h : PortId} (hlive : headLive s h.val = true) (hup : (getPort s h.val).up = true)
include hlive hup

/-- The answer to a BISnp that is no longer on its way to the port goes to the home of its line (R106, log 74). -/
theorem exec_birsp_sent {tag : BitVec 16} {line : Nat} {k : Txn} (ans : BiAns)
    (hk : s.ha.txns.find? (fun e => e.2.live && e.2.bis.any (fun b => b.1 = h.val ∧ b.2.1 = tag)) = some (line, k))
    (hsent : s.fab.hom.any (fun m => decide (m.op = .biSnpReq ∧ m.attr.head = h.val ∧ m.biTag = tag)) = false) :
    exec (.birsp h tag ans) s = .next (sendRsp
      { op := .biRspFwd, src := portTile h.val, dst := homeOf s line, line := line, attr := { head := h.val }, biTag := tag, ans := ans } s) := by
  change execBirsp h tag ans s = _
  rw [execBirsp, if_neg (by simp [hlive, hup])]
  simp only [hk, hsent, Bool.not_false, if_true]

theorem exec_birsp_late {tag : BitVec 16} (ans : BiAns)
    (hk : s.ha.txns.find? (fun e => e.2.live && e.2.bis.any (fun b => b.1 = h.val ∧ b.2.1 = tag)) = none) :
    exec (.birsp h tag ans) s = .next (addCnt (portCnt h.val 10) 1 s) := by
  change execBirsp h tag ans s = _
  rw [execBirsp, if_neg (by simp [hlive, hup])]
  simp only [hk]

theorem exec_biconflict (line : LineAddr) (tag : BitVec 16) : exec (.biconflict h line tag) s =
    .next (sendRsp { op := .biConflictFwd, src := portTile h.val, dst := homeOf s line.toNat, line := line.toNat, attr := { head := h.val },
                     biTag := tag } s) :=
  congrArg Host.Outcome.next (if_neg (by simp [hlive, hup]))

theorem exec_poisonedWriteTlp {ld : LdId} (hld : ld.val < ldCount s h.val) :
    exec (.poisonedWriteTlp h ld) s = .next (send h.val (.aer "poisoned TLP received") s) :=
  congrArg Host.Outcome.next (if_pos (by simp [hlive, hup, hld]))

end

/-- Settles O30: a BIRsp by whether a transaction awaits it, and the laws of BIConflict and of a poisoned write. -/
theorem biAnswers : Obligations.BiAnswers := by
  refine ⟨?sent, ?late, fun s h line tag hlive hup => exec_biconflict hlive hup line tag, ?poisoned⟩
  case sent =>
    intro s h tag ans line k hlive hup hhom htxn hk hbis
    refine exec_birsp_sent hlive hup ans (k := k) ?_ (by rw [hhom]; rfl)
    rw [htxn, List.find?_cons_of_pos (by simp only [hk, hbis, Bool.and_self])]
  case late =>
    intro s h tag ans hlive hup hnone
    refine exec_birsp_late hlive hup ans ?_
    refine List.find?_eq_none.2 fun e he => ?_
    simp only [Bool.and_eq_true, List.any_eq_true, decide_eq_true_eq, not_and, not_exists]
    exact fun _ b hb => not_and.1 (hnone e he b hb)
  case poisoned =>
    intro s h ld hlive hup hld
    rw [exec_poisonedWriteTlp hlive hup hld, send_of_up hup]

/-! AtomicOps (R42, R60, R141–R146). -/

/-- An AtomicOp reaches its port from a head with an outstanding request to spare (R41). -/
structure AtomArrives (s : State) (h : PortId) (ld : LdId) : Prop where
  live : headLive s h.val = true
  up : (getPort s h.val).up = true
  ld : ld.val < ldCount s h.val
  room : atomsOut s h.val < 1024

section
variable {s : State} {h : PortId} {ld : LdId} (ha : AtomArrives s h ld) {r : AtomReq}
include ha

theorem AtomArrives.taken : ¬((!headLive s h.val || !(getPort s h.val).up || decide (ldCount s h.val ≤ ld.val) || decide (1024 ≤ atomsOut s h.val)) = true) := by
  simp [ha.live, ha.up, Nat.not_le_of_lt ha.ld, Nat.not_le_of_lt ha.room]

theorem exec_atomicOp_misaligned (hr : r.offset.toNat % r.size ≠ 0) :
    exec (.atomicOp h ld r) s = .next (send h.val (.aer "malformed TLP") s) := by
  change execAtomicOp h ld r s = _
  rw [execAtomicOp, if_neg ha.taken, if_pos (.inr hr)]

variable (h0 : r.size ≠ 0) (hr : r.offset.toNat % r.size = 0)
include h0 hr

theorem exec_atomicOp_unsupported (hw : (r.size ≠ 4 ∧ r.size ≠ 8) ∨ r.offset.toNat < 0x1800000 ∨ 0x2000000 ≤ r.offset.toNat) :
    exec (.atomicOp h ld r) s = .next (send h.val (.atomicCpl r.tag .unsupported 0#64) (addCnt (portCnt h.val 4) 1 s)) := by
  change execAtomicOp h ld r s = _
  rw [execAtomicOp, if_neg ha.taken, if_neg (by simp [h0, hr])]
  exact if_pos hw

variable (hw : ¬((r.size ≠ 4 ∧ r.size ≠ 8) ∨ r.offset.toNat < 0x1800000 ∨ 0x2000000 ≤ r.offset.toNat)) {b : Nat} {g : Region}
  (hb : windowBase s h.val ld.val = some b) {a : Nat} (hdpa : a = b + (r.offset.toNat - 0x1800000)) (hg : regionAt s a = some g)
include hw hb hdpa hg

theorem exec_atomicOp_error (he : ingressErr s h.val ld.val a = true) :
    exec (.atomicOp h ld r) s = .next (atomErr h.val r.tag (addCnt (portCnt h.val 4) 1 s)) := by
  change execAtomicOp h ld r s = _
  rw [execAtomicOp, if_neg ha.taken, if_neg (by simp [h0, hr])]
  simp only [if_neg hw, hb, ← hdpa, hg, he, if_true]

/-- An AtomicOp starts at its tile, near or far by the predictor unless an atomic of the line is in flight (R143, R146). -/
theorem exec_atomicOp_started (he : ingressErr s h.val ld.val a = false) {p : Bool × State}
    (hp : p = predict (portTile h.val) (a / 64) (addCnt (portCnt h.val 4) 1 s)) : exec (.atomicOp h ld r) s =
    .next (settle (startOp (portTile h.val) (a / 64)
      (.atom { head := h.val, cls := ((viewOf s h.val ld.val g.idx).map (·.cls)).getD 0, key := currentKey s g, ld := ld.val } r.tag
        ⟨r.kind, r.size, a % 64, r.operand, r.compare⟩ ((flightMode s (portTile h.val) (a / 64)).getD p.1)) p.2)) := by
  subst hp
  change execAtomicOp h ld r s = _
  rw [execAtomicOp, if_neg ha.taken, if_neg (by simp [h0, hr])]
  simp only [if_neg hw, hb, ← hdpa, hg, he, Bool.false_eq_true, if_false]

end

/-- Settles O31: an AtomicOp by its alignment, its size and place, and by whether its line meets a data error. -/
theorem atomicRequests : Obligations.AtomicRequests := by
  intro s h ld r hlive hup hld hroom
  have ha : AtomArrives s h ld := ⟨hlive, hup, hld, hroom⟩
  refine ⟨fun h0 hr => ?misaligned, fun h0 hr hw => exec_atomicOp_unsupported ha h0 hr hw, fun b g hsize hr hlo hhi hb hg => ?window⟩
  case misaligned => rw [exec_atomicOp_misaligned ha hr, send_of_up hup]
  case window =>
    have h0 : r.size ≠ 0 := by omega
    have hw : ¬((r.size ≠ 4 ∧ r.size ≠ 8) ∨ r.offset.toNat < 0x1800000 ∨ 0x2000000 ≤ r.offset.toNat) := by omega
    exact ⟨exec_atomicOp_error ha h0 hr hw hb rfl hg, fun he => exec_atomicOp_started ha h0 hr hw hb rfl hg he rfl⟩

/-! Decoder commits (R46, R71, R73). -/

section
variable {s : State} {h : PortId} {ld : LdId} {i : Fin 8} {d : DecoderReq}

/-- A commit of a decoder that is not committed, by its checks. -/
theorem exec_decoderCommit (hlive : headLive s h.val = true) (hup : (getPort s h.val).up = true) (hready : (getPort s h.val).ready = true)
    (hld : ld.val < ldCount s h.val) (hnone : Table.get none (getFn s (fnKey h.val ld.val false)).decs i.val = none) :
    exec (.decoderCommit h ld i d) s = .next (if commitOk s h.val ld.val i.val d then
      onFn (fnKey h.val ld.val false) (fun f => { f with
        decs := Table.set none f.decs i.val (some ⟨d.base.toNat, d.size.toNat, d.skip.toNat, d.ways, d.gran, d.bi,
          decoderDpa (getFn s (fnKey h.val ld.val false)) i.val d⟩), commitErr := false }) s
      else onFn (fnKey h.val ld.val false) (fun f => { f with commitErr := true }) s) := by
  change execDecoderCommit h ld i d s = _
  rw [execDecoderCommit, if_neg (by simp [hlive, hup, hready, hnone, Nat.not_le_of_lt hld])]
  split <;> rfl

end

theorem decoderShape_iff (d : DecoderReq) : decoderShape d = true ↔
    d.ways ∈ [1, 2, 4, 8, 16] ∧ d.gran ∈ [256, 512, 1024, 2048, 4096, 8192, 16384] ∧ d.size.toNat ≠ 0 ∧ d.size.toNat % (2 ^ 28 * d.ways) = 0 ∧
      d.skip.toNat % 2 ^ 28 = 0 ∧ d.base.toNat % 2 ^ 28 = 0 := by
  simp only [decoderShape, Bool.and_eq_true, List.contains_iff_mem, decide_eq_true_eq, and_assoc]

theorem decoderOrder_iff (f : FnSt) (i : Nat) : decoderOrder f i = true ↔ i = 0 ∨ (Table.get none f.decs (i - 1)).isSome = true := by
  simp [decoderOrder]

theorem commitOk_iff (s : State) (h ld i : Nat) (d : DecoderReq) {f : FnSt} (hf : f = getFn s (fnKey h ld false)) :
    commitOk s h ld i d = true ↔ decoderShape d = true ∧ decoderOrder f i = true ∧
      viewBytes s h ld d.bi (decoderDpa f i d) (decoderDpa f i d + d.size.toNat / d.ways) = d.size.toNat / d.ways ∧
      (d.bi = true → (getPort s h).bi = true) := by
  subst hf
  have himp (a b : Bool) : (!a || b) = true ↔ (a = true → b = true) := by revert a b; decide
  simp only [commitOk, Bool.and_eq_true, decide_eq_true_eq, and_assoc, himp]

theorem decoderDpa_zero (f : FnSt) (d : DecoderReq) : decoderDpa f 0 d = d.skip.toNat := Nat.zero_add _

theorem decoderDpa_above {f : FnSt} {i : Nat} {x : Decoder} (hi : i ≠ 0) (hx : Table.get none f.decs (i - 1) = some x) (d : DecoderReq) :
    decoderDpa f i d = x.dpa + x.size / x.ways + d.skip.toNat := by
  simp only [decoderDpa, if_neg hi, hx]

/-- Settles O32: a commit by its checks, the checks one by one, and the DPA at which the decoder starts. -/
theorem decoderCommit : Obligations.DecoderCommit := by
  intro s h ld i d hlive hup hready hld hnone
  have hexec := exec_decoderCommit (d := d) hlive hup hready hld hnone
  refine ⟨fun hok => ?_, fun hok => ?_, ?_, fun hi => ?_, fun x hi hx => decoderDpa_above hi hx d⟩
  · rw [hexec, if_pos hok]
  · rw [hexec, if_neg (by simp [hok])]
  · rw [commitOk_iff s h.val ld.val i.val d rfl, decoderShape_iff, decoderOrder_iff]
  · rw [hi, decoderDpa_zero]

end Sys2Proof.Machine
end

section
/-!
The messages of the home at a tile (O44). Every message of HOM is followed by a pass over the output lines that wait for the home near cache (`onHom`),
the BISnp request of a link that is down included. The statement names that pass for every other message and leaves it out of this one, so it fails in a
state in which the pass drops a line that waits.
-/
namespace Sys2Proof.Machine

/-- A request for a BISnp to head 0, on its way from tile 0 to tile 1. -/
def biSnpToTile1 : Msg := { op := .biSnpReq, src := 0, dst := 1, line := 0 }

/-- Tiles 0 and 1 run and the link of head 0 is down; the request is on its way, and an output line of line 0 waits to enter the near cache of tile 1,
which has a copy of that line. -/
def downWithFill : State :=
  setTrk 1 0 { live := true, st := .isN }
    { rst := { por := false, resetN := false, driving := false }
      clk := { running := 0xFF#8, released := [(0, 0x3FF#10), (1, 0x3FF#10)] }
      dawn := { stage := 6, runLock := true, memActive := true, started := 0xFF#8 }
      fab := { hom := [biSnpToTile1] }
      ha := { fillQ := [fillMsg 1 0 {}] } }

/-- The state once the request has left the fabric. -/
def downWithFillTaken : State := { downWithFill with fab := { downWithFill.fab with hom := downWithFill.fab.hom.erase biSnpToTile1 } }

/-- The answer to the request, sent with no pass over the lines that wait. -/
def downAnswered : State :=
  settle (sendRsp { op := .biRspFwd, src := 1, dst := biSnpToTile1.src, line := biSnpToTile1.line, attr := biSnpToTile1.attr, ans := .i } downWithFillTaken)

/-- The output lines that wait in the state an instruction leads to. -/
def fillsAfter (o : Host.Outcome State Fault Refusal) : Option (List Msg) :=
  match o with
  | .next s => some s.ha.fillQ
  | _ => none

theorem downWithFill_request : engineUp downWithFill (1 : TileId).val = true ∧
    nextHom downWithFill (1 : TileId).val (0 : TileId).val .biSnpReq = some biSnpToTile1 ∧
    (getPort downWithFill biSnpToTile1.attr.head).up = false := by decide +kernel

/-- The model drops the line that waits: the tile has a copy of it. -/
theorem fillsAfter_biSnpReq_downWithFill : fillsAfter (exec (.biSnpReq 1 0) downWithFill) = some [] := by decide +kernel

/-- The answer alone leaves it waiting. -/
theorem fillsAfter_downAnswered : fillsAfter (.next downAnswered) = some [fillMsg 1 0 {}] := by decide +kernel

/-- Refutes O44: with the link down, the statement has BISnpReq answered and nothing else done, while the model also passes over the output lines that
wait for the tile's near cache and here drops one. -/
theorem not_homeMessagesAtTile : ¬ Obligations.HomeMessagesAtTile := by
  unfold Obligations.HomeMessagesAtTile
  intro h
  obtain ⟨hom, -⟩ := h
  obtain ⟨hup, hmsg, hdown⟩ := downWithFill_request
  obtain ⟨-, -, -, -, -, -, -, -, -, -, answered, -⟩ := hom downWithFill downWithFillTaken 1 0 biSnpToTile1 hup rfl
  have hexec : exec (.biSnpReq 1 0) downWithFill = .next downAnswered := answered hmsg (.inl hdown)
  have hfills : some [] = some [fillMsg 1 0 {}] := by
    rw [← fillsAfter_biSnpReq_downWithFill, hexec, fillsAfter_downAnswered]
  exact absurd hfills (by decide)

end Sys2Proof.Machine
end

section
/-!
The messages of tiles at their home (O45). A message of RSP leaves the fabric and its handler acts (`exec_onRsp`); each handler has one equation per
case. A write-back that finds a lost entry turns into the data of the transaction that the loss opens: that transaction stays open and stays marked lost
while its snoops are sent (`loseEntry_open`).
-/
namespace Sys2Proof.Machine

/-! What a raise, an event and a message leave of the home agents. -/

theorem stopPorts_ha (s : State) : (stopPorts s).ha = s.ha :=
  List.foldlRecOn (motive := fun x : State => x.ha = s.ha) _ _ rfl (fun _ h _ _ => h)

theorem logSubmit_ha (typ origin : Byte) (source : BitVec 16) (p : Bytes) (s : State) : (logSubmit typ origin source p s).ha = s.ha := by
  obtain ⟨c, hc⟩ := logSubmit_eq typ origin source p s
  rw [hc]

theorem alarm_ha (sl src : Nat) (c : AlarmCtx) (s : State) : (alarm sl src c s).ha = s.ha := by
  unfold alarm
  dsimp only
  split
  · rfl
  · rw [logSubmit_ha]
    exact stopPorts_ha _

theorem raiseWith_ha (src : Nat) (c : FaultCtx) (a : AlarmCtx) (s : State) : (raiseWith src c a s).ha = s.ha := by
  unfold raiseWith
  dsimp only
  split
  · rfl
  split
  · rfl
  split
  · rfl
  · rfl
  · split <;> rfl
  · exact alarm_ha _ _ _ _

@[simp] theorem raiseTile_ha (t : Nat) (k : TileSrc) (detail : Nat) (s : State) : (raiseTile t k detail s).ha = s.ha := raiseWith_ha _ _ _ s

@[simp] theorem eventHead_ha (h : Nat) (e : EvRec) (s : State) : (eventHead h e s).ha = s.ha :=
  List.foldlRecOn (motive := fun x : State => x.ha = s.ha) _ _ rfl (fun _ hx _ _ => hx)

@[simp] theorem sendHom_ha (m : Msg) (s : State) : (sendHom m s).ha = s.ha := by
  unfold sendHom
  split <;> rfl

theorem getTxn_of_ha {s x : State} (h : x.ha = s.ha) (line : Nat) : getTxn x line = getTxn s line := by
  unfold getTxn
  rw [h]

@[simp] theorem getTxn_setTxn (line : Nat) (k : Txn) (s : State) : getTxn (setTxn line k s) line = k := Table.get_set_same _ _ _ _

@[simp] theorem getTxn_onTxn (line : Nat) (f : Txn → Txn) (s : State) : getTxn (onTxn line f s) line = f (getTxn s line) := getTxn_setTxn _ _ _

/-! The transaction that treats a lost entry. -/

/-- The line's transaction is open and treats a lost entry (R120). -/
def LossOpen (line : Nat) (s : State) : Prop := (getTxn s line).live = true ∧ (getTxn s line).lost = true

theorem LossOpen.of_ha {line : Nat} {s x : State} (h : LossOpen line s) (e : x.ha.txns = s.ha.txns) : LossOpen line x := by
  unfold LossOpen getTxn
  rw [e]
  exact h

theorem LossOpen.onTxn {line : Nat} {s : State} (h : LossOpen line s) (f : Txn → Txn) (hf : ∀ k, (f k).live = k.live ∧ (f k).lost = k.lost) :
    LossOpen line (onTxn line f s) := by
  obtain ⟨hl, hd⟩ := hf (getTxn s line)
  unfold LossOpen
  rw [getTxn_onTxn, hl, hd]
  exact h

theorem LossOpen.sendSnoop {line : Nat} {s : State} (h : LossOpen line s) (x : Nat) (op : Op) (q trk : Nat) : LossOpen line (sendSnoop line x op q trk s) := by
  have open1 := h.onTxn (fun k => { k with snoops := setBit k.snoops x true }) (fun _ => ⟨rfl, rfl⟩)
  unfold Machine.sendSnoop
  dsimp only
  split
  · exact open1.of_ha rfl
  · exact open1.of_ha (by rw [sendHom_ha])

theorem LossOpen.sendBis {line : Nat} {s : State} (h : LossOpen line s) (x : Nat × BiKind × Bool) : LossOpen line (sendBis line x s) := by
  unfold Machine.sendBis
  dsimp only
  split
  · refine LossOpen.of_ha (h.onTxn _ ?_) (by rw [raiseTile_ha, biFailure, eventHead_ha])
    exact fun _ => ⟨rfl, rfl⟩
  split
  · exact h.onTxn _ (fun _ => ⟨rfl, rfl⟩)
  · refine LossOpen.of_ha (LossOpen.onTxn (h.of_ha ?_) _ ?_) (by rw [sendHom_ha])
    · rfl
    · exact fun _ => ⟨rfl, rfl⟩

theorem lossOpen_setTxn {line : Nat} {k : Txn} {s : State} (hl : k.live = true) (hd : k.lost = true) : LossOpen line (setTxn line k s) := by
  unfold LossOpen
  rw [getTxn_setTxn]
  exact ⟨hl, hd⟩

/-- The eviction of a lost entry opens its transaction, and its snoops leave it open. -/
theorem startEvict_open (line : Nat) (s : State) : LossOpen line (startEvict line true s) := by
  unfold startEvict
  dsimp only
  have snooped : ∀ (k : Txn) (c t : Nat) (l : List Nat), k.live = true → k.lost = true →
      LossOpen line (l.foldl (fun s x => sendSnoop line x .snpInv t 0 s) (addCnt c 1 (setTxn line k s))) :=
    fun k c t l hl hd => List.foldlRecOn l _ ((lossOpen_setTxn hl hd).of_ha rfl) (fun _ h _ _ => h.sendSnoop _ _ _ _)
  split
  · split
    · exact List.foldlRecOn _ _ (snooped _ _ _ _ rfl rfl) (fun _ h _ _ => h.sendBis _)
    · exact snooped _ _ _ _ rfl rfl
  · exact snooped _ _ _ _ rfl rfl

theorem loseEntry_open (line : Nat) (s : State) : LossOpen line (loseEntry line s) := startEvict_open line _

/-! A message of RSP leaves the fabric and acts (R96). -/

theorem nextRsp_op {s : State} {t home : Nat} {op : Op} {m : Msg} (h : nextRsp s t home op = some m) : m.op = op := by
  obtain ⟨-, hop⟩ := Option.filter_eq_some_iff.mp h
  exact of_decide_eq_true hop

/-- The state once a message of RSP has left the fabric. -/
def rspTaken (m : Msg) (s : State) : State := { s with fab := { s.fab with rsp := s.fab.rsp.erase m } }

theorem onRsp_eq {s : State} {t home : Nat} {op : Op} {m : Msg} (h : nextRsp s t home op = some m) (up : engineUp s home = true) (f : Msg → State → State) :
    onRsp t home op f s = settle (f m (rspTaken m s)) := by
  unfold onRsp
  rw [h]
  exact if_pos up

/-! Snoop answers (R106, R107, R109). -/

/-- What the answer of a tile that the transaction waits for does to its entry and its transaction. -/
def snoopEffect (m : Msg) (s : State) : State :=
  let gone := onEnt m.line (dropTile m.src)
  let take (s : State) : State := onTxn m.line (fun k => { k with val := some (dirtyVal m.line m.val), fresh := true }) s
  let fwd (s : State) : State := onTxn m.line (fun k => { k with forwarded := true }) s
  let shared := onEnt m.line (fun e => { e with ts := .shared })
  match m.op with
  | .snpRspI => gone s
  | .snpRspIData => gone (take s)
  | .snpRspFwd => fwd (if m.newS then shared s else if m.newI then gone s else s)
  | _ => shared (fwd (take s))

theorem snoopAnswer_unasked {m : Msg} {s : State} (h : (getTxn s m.line).live = false ∨ (getTxn s m.line).snoops.getLsbD m.src = false) :
    snoopAnswer m s = homeProto m s := by
  refine if_pos ?_
  rcases h with h | h <;> simp [h]

theorem snoopAnswer_asked {m : Msg} {s : State} (hl : (getTxn s m.line).live = true) (hs : (getTxn s m.line).snoops.getLsbD m.src = true) :
    snoopAnswer m s = driveLine m.line (snoopEffect m (onTxn m.line (fun k => { k with snoops := setBit k.snoops m.src false }) s)) :=
  if_neg (by simp [hl, hs])

/-! Write-backs of tiles (R106, R115, R120). -/

/-- A write-back becomes the data of the line's transaction and is acknowledged. -/
def wbTaken (m : Msg) (s : State) : State :=
  sendHom { op := .wbAck, src := m.dst, dst := m.src, line := m.line }
    (onEnt m.line (dropTile m.src) (onTxn m.line (fun k => { k with val := some (dirtyVal m.line m.val), fresh := true }) s))

/-- A write-back that meets a sound entry, or an open transaction. -/
theorem wbArrive_kept {m : Msg} {s : State} (h : (getTxn s m.line).live = true ∨ entryLost s m.line = false) : wbArrive m s =
    if (getTxn s m.line).live then
      if (entOf s m.line).tvec.getLsbD m.src ∨ (getTxn s m.line).lost then wbTaken m s else homeProto m s
    else if ownerTile (entOf s m.line) = some m.src then
      if (applyWb m s).1 then driveLine m.line (applyWb m s).2
      else onHa (fun h => { h with wbuf := Table.mod [] h.wbuf m.line (fun l => l ++ [m]) }) (applyWb m s).2
    else homeProto m s := by
  have sound : ((dirWay s m.line).isSome && !(getTxn s m.line).live && entryLost s m.line) = false := by
    rcases h with h | h <;> simp [h]
  unfold wbArrive
  simp only [sound, Bool.false_and, Bool.false_eq_true, if_false]
  rfl

/-- A write-back that finds a lost entry with a free line and a free eviction tracker begins the loss. -/
theorem wbArrive_lost {m : Msg} {s : State} (hw : (dirWay s m.line).isSome = true) (hl : (getTxn s m.line).live = false)
    (he : entryLost s m.line = true) (hv : (evictions s m.dst).length < 64) (hk : Table.get false s.ha.walkLock m.line = false) :
    wbArrive m s = wbTaken m (loseEntry m.line s) := by
  obtain ⟨opened, lost⟩ := loseEntry_open m.line s
  unfold wbArrive
  simp only [hw, hl, he, hk, opened, lost, Nat.not_le.mpr hv, decide_false, Bool.not_false, Bool.and_self, Bool.or_self, Bool.and_false,
    Bool.false_eq_true, if_false, if_true, or_true]
  rfl

/-! Answers to BISnps (R106, R110). -/

/-- The BISnp a BI answer matches, with its transaction. -/
def biMatch (s : State) (m : Msg) : Option (Nat × Txn) :=
  s.ha.txns.find? (fun e => e.2.live && decide (homeOf s e.1 = m.dst) && e.2.bis.any (fun b => b.1 = m.attr.head ∧ b.2.1 = m.biTag))

theorem biMatch_eq_none {s : State} {m : Msg} (h : ∀ e ∈ s.ha.txns, ∀ b ∈ e.2.bis, b.1 = m.attr.head → b.2.1 ≠ m.biTag) : biMatch s m = none := by
  refine List.find?_eq_none.mpr fun e he => ?_
  have unmatched : e.2.bis.any (fun b => b.1 = m.attr.head ∧ b.2.1 = m.biTag) = false :=
    List.any_eq_false.mpr fun b hb => by simpa using h e he b hb
  simp only [unmatched, Bool.and_false, Bool.false_eq_true, not_false_eq_true]

theorem biRspArrive_late {s : State} {m : Msg} (h : biMatch s m = none) : biRspArrive m s = addCnt (portCnt m.attr.head 10) 1 s := by
  unfold biMatch at h
  unfold biRspArrive
  simp only [h]

theorem biRspArrive_matched {s : State} {m : Msg} {line : Nat} {k : Txn} {b : Nat × BitVec 16 × BiKind × Bool} (h : biMatch s m = some (line, k))
    (hb : k.bis.find? (fun b => b.1 = m.attr.head ∧ b.2.1 = m.biTag) = some b) : biRspArrive m s =
    if biAccepts b.2.2.1 m.ans then driveLine line (endBis line m.attr.head m.biTag m.ans false s)
    else driveLine line (biFailure m.attr.head line (endBis line m.attr.head m.biTag .i true s)) := by
  unfold biMatch at h
  unfold biRspArrive
  simp only [h, hb]

/-! Host write-backs (R106, R111). -/

theorem hostWbArrive_absorbed {s : State} {m : Msg} {r : Region} (hl : (getTxn s m.line).live = true)
    (hb : ∃ b ∈ (getTxn s m.line).bis, b.1 = m.attr.head) (hr : regionAt s (64 * m.line) = some r) : hostWbArrive m s =
    sendHom { op := .cmp, src := m.dst, dst := m.src, line := m.line, trk := wbTrk, attr := m.attr, biTag := m.biTag }
      (onTxn m.line (fun k => { k with merges := k.merges ++ [(m.mask, m.val)] }) (if r.typ = .packed then warnPacked m.attr.head m.line s else s)) := by
  have outstanding : (getTxn s m.line).bis.any (fun b => b.1 = m.attr.head) = true := by simpa using hb
  unfold hostWbArrive
  simp only [hl, outstanding, hr, Bool.and_self, if_true]
  rfl

theorem hostWbArrive_unasked {s : State} {m : Msg} (h : (getTxn s m.line).live = false ∨ ∀ b ∈ (getTxn s m.line).bis, b.1 ≠ m.attr.head) :
    hostWbArrive m s = homeProto m s := by
  refine if_neg ?_
  rcases h with h | h
  · simp [h]
  · have answered : (getTxn s m.line).bis.any (fun b => b.1 = m.attr.head) = false := List.any_eq_false.mpr fun b hb => by simpa using h b hb
    simp only [answered, Bool.and_false, Bool.false_eq_true, not_false_eq_true]

/-- Settles O45: each clause is the equation of its handler, at the state that the message has left. -/
theorem answersAtHome : Obligations.AnswersAtHome := by
  unfold Obligations.AnswersAtHome
  intro s s' t home m up hs'
  have arrives {op : Op} (h : nextRsp s t.val home.val op = some m) (f : Msg → State → State) : onRsp t.val home.val op f s = settle (f m s') := by
    rw [hs']
    exact onRsp_eq h up f
  have htxn : getTxn s' m.line = getTxn s m.line := by rw [hs']; rfl
  have hent : entOf s' m.line = entOf s m.line := by rw [hs']; rfl
  have hlost : entryLost s' m.line = entryLost s m.line := by rw [hs']; rfl
  have hmatch : biMatch s' m = biMatch s m := by rw [hs']; rfl
  refine ⟨?snoopUnasked, ?snoopAsked, ?wbOwner, ?wbOther, ?wbOpen, ?wbLost, ?biLate, ?biMatched, ?hostWb, ?hostWbUnasked, ?conflict⟩
  case snoopUnasked =>
    intro p hp h unasked
    have effect : onRsp t.val home.val p.1 snoopAnswer s = settle (homeProto m s') := by
      rw [arrives h, snoopAnswer_unasked (by rwa [htxn])]
    rw [← effect]
    fin_cases hp <;> rfl
  case snoopAsked =>
    intro live asked s'' hs''
    have effect {op : Op} (h : nextRsp s t.val home.val op = some m) : onRsp t.val home.val op snoopAnswer s =
        settle (driveLine m.line (snoopEffect m s'')) := by
      rw [arrives h, snoopAnswer_asked (by rwa [htxn]) (by rwa [htxn]), hs'']
    refine ⟨fun h => ?_, fun h => ?_, fun h hS => ?_, fun h hS hI => ?_, fun h hS hI => ?_, fun h => ?_⟩ <;>
      refine congrArg _ ((effect h).trans ?_)
    · simp only [snoopEffect, nextRsp_op h]
    · simp only [snoopEffect, nextRsp_op h]
    · simp only [snoopEffect, nextRsp_op h, hS, if_true]
    · simp only [snoopEffect, nextRsp_op h, hS, hI, if_true, Bool.false_eq_true, if_false]
    · simp only [snoopEffect, nextRsp_op h, hS, hI, Bool.false_eq_true, if_false]
    · simp only [snoopEffect, nextRsp_op h]
  case wbOwner =>
    intro h free sound owner
    refine ⟨fun ok => ?_, fun ok => ?_⟩ <;> refine congrArg _ ((arrives h wbArrive).trans ?_) <;>
      rw [wbArrive_kept (.inr (hlost.trans sound)), htxn, hent, free, if_neg Bool.false_ne_true, if_pos owner, ok]
    · rfl
    · rfl
  case wbOther =>
    intro h free sound other
    refine congrArg _ ((arrives h wbArrive).trans ?_)
    rw [wbArrive_kept (.inr (hlost.trans sound)), htxn, hent, free, if_neg Bool.false_ne_true, if_neg other]
  case wbOpen =>
    intro h live data
    refine congrArg _ ((arrives h wbArrive).trans ?_)
    rw [wbArrive_kept (.inl (htxn ▸ live)), htxn, hent, if_pos live, if_pos data]
    rfl
  case wbLost =>
    intro h way free lost room unlocked
    refine congrArg _ ((arrives h wbArrive).trans ?_)
    rw [wbArrive_lost (by rwa [hs']) (htxn ▸ free) (hlost.trans lost) (by rwa [hs']) (by rwa [hs'])]
    rfl
  case biLate =>
    intro h unmatched
    refine congrArg _ ((arrives h biRspArrive).trans ?_)
    rw [biRspArrive_late (hmatch.trans (biMatch_eq_none unmatched))]
  case biMatched =>
    intro line k b h found hb
    have effect := biRspArrive_matched (hmatch.trans found) hb
    refine ⟨fun accepted => ?_, fun refused => ?_⟩ <;> refine congrArg _ ((arrives h biRspArrive).trans ?_) <;> rw [effect]
    · rw [if_pos accepted]
    · rw [refused, if_neg Bool.false_ne_true]
  case hostWb =>
    intro h live outstanding r hr
    refine congrArg _ ((arrives h hostWbArrive).trans ?_)
    rw [hostWbArrive_absorbed (htxn ▸ live) (htxn ▸ outstanding) (by rwa [hs'])]
  case hostWbUnasked =>
    intro h unasked
    refine congrArg _ ((arrives h hostWbArrive).trans ?_)
    rw [hostWbArrive_unasked (by rwa [htxn])]
  case conflict =>
    intro h
    exact congrArg _ (arrives h biConflictArrive)

end Sys2Proof.Machine
end

section
/-!
Address translation and near-cache maintenance (O27, O47): a decoder's DPA; the laws of the range engine, of scratch and of fills.
-/
namespace Sys2Proof.Machine

/-! Decoders (R72). -/

/-- Settles O27: the granularity and the ways are powers of two, so the model's logarithms are `g` and `w`. -/
theorem decoderTranslation : Obligations.DecoderTranslation := by
  intro d hpa g w hgran hways hlow hhigh
  have hmask : (hpa - d.base) &&& ((1 <<< g) - 1) = (hpa - d.base) % 2 ^ g := by
    rw [Nat.one_shiftLeft, Nat.and_two_pow_sub_one_eq_mod]
  rw [decodeHpa, if_pos ⟨hlow, hhigh⟩, hgran, hways, Nat.log2_two_pow, Nat.log2_two_pow, hmask]

/-! The range engine (R134, R137, R138). -/

section
variable {s : State} {a : Agent} {t : TileId}

/-- A write of START to NC_RANGE_CTL, by whether START reads 1. -/
theorem rangeWrite_idle {op : Nat} {o : RangeOp} (hopen : regOpen s a .ncRangeCtl t.val = true) (hop : rangeOpOf op = some o) (hlt : op < 8)
    (hidle : (getRange s t.val).run = none) :
    rangeWrite a t.val op s = settle (startRange t.val o (setReg .ncRangeCtl t.val (BitVec.ofNat 32 op) s)) := by
  have word : ∀ op < 8, fld (BitVec.ofNat 32 (16 + op)) 2 0 = op ∧ bit (BitVec.ofNat 32 (16 + op)) 4 = true := by decide
  obtain ⟨hfld, hstart⟩ := word op hlt
  rw [rangeWrite, if_pos hopen, writeRangeCtl, hidle, hfld, hstart, hop]
  rfl

theorem rangeWrite_running {op : Nat} (hopen : regOpen s a .ncRangeCtl t.val = true) (hbusy : (getRange s t.val).run ≠ none) :
    rangeWrite a t.val op s = settle s := by
  rw [rangeWrite, if_pos hopen, writeRangeCtl, if_pos (Option.isSome_iff_ne_none.2 hbusy)]

/-- What one range-engine command does: START is taken where no operation runs. -/
theorem exec_rangeCommand {op : Nat} {o : RangeOp} {c : Instr} (hopen : regOpen s a .ncRangeCtl t.val = true) (hop : rangeOpOf op = some o)
    (hlt : op < 8) (hc : exec c s = .next (rangeWrite a t.val op s)) :
    ((getRange s t.val).run = none → exec c s = .next (settle (startRange t.val o (setReg .ncRangeCtl t.val (BitVec.ofNat 32 op) s)))) ∧
    ((getRange s t.val).run ≠ none → exec c s = .next (settle s)) :=
  ⟨fun h => by rw [hc, rangeWrite_idle hopen hop hlt h], fun h => by rw [hc, rangeWrite_running hopen h]⟩

/-- A range of 0 lines completes at once, but for the operations that take every slot (log 100). -/
theorem startRange_empty {t : Nat} {op : RangeOp} (hlen : rangeLen s t = 0) (hc : op ≠ .cleanAll) (hi : op ≠ .invAll) :
    startRange t op s = raiseBit .ncRangeSts t 31 (onRange t (fun _ => {}) s) := by
  simp [startRange, hlen, hc, hi]

/-- CLEAN and INV take the lines of the range that the tile holds. -/
theorem startRange_clean {t : Nat} (hlen : rangeLen s t ≠ 0) : startRange t .clean s = (rangeTargets s t false).foldl (fun s l => startOp t l .clean s)
    (onRange t (fun _ => { run := some .clean, waits := rangeTargets s t false }) s) :=
  if_neg fun h => hlen h.1

theorem startRange_inv {t : Nat} (hlen : rangeLen s t ≠ 0) : startRange t .inv s = (rangeTargets s t false).foldl (fun s l => startOp t l .inv s)
    (onRange t (fun _ => { run := some .inv, waits := rangeTargets s t false }) s) :=
  if_neg fun h => hlen h.1

/-- The ALL forms take the lines of every slot, whatever the range. -/
theorem startRange_cleanAll {t : Nat} : startRange t .cleanAll s = (rangeTargets s t true).foldl (fun s l => startOp t l .clean s)
    (onRange t (fun _ => { run := some .cleanAll, waits := rangeTargets s t true }) s) :=
  if_neg fun h => h.2 rfl

theorem startRange_invAll {t : Nat} : startRange t .invAll s = (rangeTargets s t true).foldl (fun s l => startOp t l .inv s)
    (onRange t (fun _ => { run := some .invAll, waits := rangeTargets s t true }) s) :=
  if_neg fun h => h.2 rfl

/-- An operation with no line left ends once no write-back it caused is on its way (R137). -/
theorem exec_rangeOpDone (hrun : tileRuns s t.val = true) (hop : (getRange s t.val).run.isSome = true) (hwaits : (getRange s t.val).waits = [])
    (hleft : (getRange s t.val).left = 0) :
    exec (.rangeOpDone t) s = .next (if ∀ l ∈ (getRange s t.val).wbs, getEvb s t.val l = none then
      raiseBit .ncRangeSts t.val 31 (onRange t.val (fun x => { x with run := none, wbs := [] }) s) else s) := by
  change execRangeOpDone t s = _
  simp [execRangeOpDone, hrun, hop, hwaits, hleft]

theorem exec_ncWayCfgWrite {v : W32} (hopen : regOpen s a .ncWayCfg t.val = true) : exec (.ncWayCfgWrite a t v) s = .next (writeWayCfg t.val v s) :=
  congrArg Host.Outcome.next (if_pos hopen)

end

/-! Scratch (R135, R136). -/

section
variable {s : State} {t : TileId} {off : BitVec 26} {len : Nat} {v : W64} {flips : BitVec 72} (hrun : tileRuns s t.val = true) (hlen : len ≠ 0)
include hrun hlen

theorem exec_scratchRead_beyond (hkey : scratchKey s t.val off.toNat = none) : exec (.scratchRead t off len flips) s = .next (scratchAnswer none s) := by
  change execScratchRead t off len flips s = _
  simp [execScratchRead, hrun, hlen, hkey]

theorem exec_scratchWrite_beyond (hkey : scratchKey s t.val off.toNat = none) :
    exec (.scratchWrite t off len v flips) s = .next (scratchAnswer none s) := by
  change execScratchWrite t off len v flips s = _
  simp [execScratchWrite, hrun, hlen, hkey]

variable {key : Nat} (hkey : scratchKey s t.val off.toNat = some key)
include hkey

/-- A write of the whole word does not read it (log 48). -/
theorem exec_scratchWrite_word (hoff : off.toNat % 8 = 0) (h8 : 8 ≤ len) :
    exec (.scratchWrite t off len v flips) s = .next (scratchAnswer (some 0#64) (scratchStore off.toNat key v s)) := by
  have hword : 8 ≤ scratchLen off.toNat len := by
    rw [scratchLen]
    omega
  change execScratchWrite t off len v flips s = _
  simp [execScratchWrite, hrun, hlen, hkey, hword]

/-- A read answers the bytes asked for of the word that its checker passes on, or an error. -/
theorem exec_scratchRead_word {r : Option W64} {s' : State} (hread : scratchRead t.val off.toNat key flips s = (r, s')) :
    exec (.scratchRead t off len flips) s = .next (scratchAnswer
      (r.map (fun w => BitVec.ofNat 64 (w.toNat >>> (8 * (off.toNat % 8)) % 2 ^ (8 * scratchLen off.toNat len)))) s') := by
  change execScratchRead t off len flips s = _
  rw [execScratchRead, if_neg (by simp [hrun, hlen]), hkey]
  cases r <;> simp [hread]

end

/-- What a scratch read passes on of a word with data `d`, by what the check byte says of it (R86, R136). -/
def scratchPassed (t off d : Nat) (s : State) : Check → Option W64 × State
  | .ok => (some (BitVec.ofNat 64 d), s)
  | .fixed x => (some (BitVec.ofNat 64 x), s)
  | .bad => (none, raiseTile t .ncScrUe (off / 8) s)

theorem scratchRead_stored {s : State} {t off key : Nat} {flips : BitVec 72} {w : W64} {c : Byte} (hw : Table.get none s.nc.scratch key = some (w, c)) :
    scratchRead t off key flips s = scratchPassed t off (w.toNat ^^^ flips.toNat % 2 ^ 64) s
      (checkWord 64 (off / 64) (off / 8 % 8) (w.toNat ^^^ flips.toNat % 2 ^ 64) (c.toNat ^^^ flips.toNat >>> 64)) := by
  rw [scratchRead, scratchStored, hw]
  rfl

/-! Fills (R90). -/

section
variable {s : State} {n : Nat} {f : Fill} (hf : getFill s n = some f) (hrun : running s = true) (hmid : midnight s = false)
include hf hrun hmid

theorem exec_fillDrainDone (hidle : lineActive s (fillHas f) = false) (hcommit : commitOn s f = false) :
    exec (.fillDrainDone n) s = .next (tryEndFill n (setFill n (some { f with drained := true }) s)) := by
  change execFillDrainDone n s = _
  simp [execFillDrainDone, hf, hrun, hmid, hidle, hcommit]

theorem exec_fillPage_taken {page : BitVec 36} {r : Region} (hr : regionAt s (4096 * page.toNat) = some r) (hdrained : f.drained = true)
    (hhas : fillHas f (64 * page.toNat) = true) (hidle : lineActive s (fun l => decide (l / 64 = page.toNat)) = false)
    (hheld : s.ha.dir.any (fun e => e.2.v && decide (e.2.line / 64 = page.toNat)) = false) (hswept : page.toNat ∈ f.swept) :
    exec (.fillPage n page) s = .next (tryEndFill n (takePage r page.toNat s)) := by
  change execFillPage n page s = _
  rw [execFillPage, hf, hr]
  simp only [hrun, hmid, hdrained, hhas, hidle, hheld, List.contains_iff_mem.2 hswept, Bool.not_true, Bool.not_false, Bool.or_self, Bool.and_self,
    Bool.false_eq_true, if_false, if_true]

end

/-- Settles O47: each clause is the law of its command, the range engine's six being one write of START. -/
theorem rangesScratchFills : Obligations.RangesScratchFills := by
  refine ⟨?commands, fun s t op hlen hc hi => startRange_empty hlen hc hi, fun s t hlen => ⟨startRange_clean hlen, startRange_inv hlen⟩,
    fun s t => ⟨startRange_cleanAll, startRange_invAll⟩, ?done, ?ways, ?scratch,
    fun s n f hf hrun hmid hidle hcommit => exec_fillDrainDone hf hrun hmid hidle hcommit,
    fun s n f page r hf hr hrun hmid hdrained hhas hidle hheld hswept => exec_fillPage_taken hf hrun hmid hr hdrained hhas hidle hheld hswept⟩
  case commands =>
    intro s a t hopen
    simp only [List.forall_mem_cons, List.not_mem_nil, false_implies, implies_true, and_true]
    exact ⟨exec_rangeCommand hopen rfl (by decide) rfl, exec_rangeCommand hopen rfl (by decide) rfl, exec_rangeCommand hopen rfl (by decide) rfl,
      exec_rangeCommand hopen rfl (by decide) rfl, exec_rangeCommand hopen rfl (by decide) rfl, exec_rangeCommand hopen rfl (by decide) rfl⟩
  case done =>
    intro s t hrun hop hwaits hleft
    rw [exec_rangeOpDone hrun hop hwaits hleft]
    refine ⟨fun hacked => by rw [if_pos hacked], fun ⟨l, hl, hopen⟩ => ?_⟩
    rw [if_neg fun hacked => Option.isSome_iff_ne_none.1 hopen (hacked l hl)]
  case ways =>
    intro s a t v hopen
    rw [exec_ncWayCfgWrite hopen, writeWayCfg]
    exact ⟨fun h => by rw [if_pos h], fun h => by rw [h, if_neg Bool.false_ne_true]⟩
  case scratch =>
    intro s t off len v flips hrun hlen
    refine ⟨fun hkey => ⟨exec_scratchRead_beyond hrun hlen hkey, exec_scratchWrite_beyond hrun hlen hkey⟩, fun key hkey =>
      ⟨exec_scratchWrite_word hrun hlen hkey, fun w c hw => ⟨fun hr => ?_, fun x hr => ?_, fun hr => ?_⟩⟩⟩ <;>
      exact exec_scratchRead_word hrun hlen hkey ((scratchRead_stored hw).trans (congrArg _ hr))

end Sys2Proof.Machine
end

section
/-!
The stages of Dawn (O58): what the operations they share leave of the Dawn sequencer and of the power channels, and the law of each stage.
-/
namespace Sys2Proof.Machine

/-! What logs, ports, blocks and quad modes leave of Dawn. -/

/-- A part of the state that no step of a fold changes is not changed by the fold. -/
theorem foldl_part {α β : Type} (part : State → α) {g : State → β → State} (h : ∀ s x, part (g s x) = part s) (l : List β) (s : State) :
    part (l.foldl g s) = part s :=
  List.foldlRecOn (motive := fun x => part x = part s) l g rfl fun _ hx x _ => (h _ x).trans hx

/-- A record that the primary hands over changes the log store, the SV–T0 link and the counters (R25, R385). -/
theorem primaryLog_eq (typ origin : Byte) (source : BitVec 16) (p : Bytes) (s : State) :
    ∃ k l c, primaryLog typ origin source p s = { s with link := k, log := l, cnt := c } := by
  cases h : s.link.down with
  | false =>
    obtain ⟨c, hc⟩ := logSubmit_eq typ origin source p (onLink (sendToSv (recordFrame typ origin source p)) s)
    exact ⟨_, _, c, (primaryLog_of_up h typ origin source p).trans hc⟩
  | true => exact ⟨_, s.log, s.cnt, primaryLog_of_down h typ origin source p⟩

@[simp] theorem primaryLog_dawn (typ origin : Byte) (source : BitVec 16) (p : Bytes) (s : State) : (primaryLog typ origin source p s).dawn = s.dawn := by
  obtain ⟨k, l, c, h⟩ := primaryLog_eq typ origin source p s
  rw [h]

@[simp] theorem primaryLog_flash (typ origin : Byte) (source : BitVec 16) (p : Bytes) (s : State) : (primaryLog typ origin source p s).flash = s.flash := by
  obtain ⟨k, l, c, h⟩ := primaryLog_eq typ origin source p s
  rw [h]

@[simp] theorem primaryLog_chans (typ origin : Byte) (source : BitVec 16) (p : Bytes) (s : State) : (primaryLog typ origin source p s).chans = s.chans := by
  obtain ⟨k, l, c, h⟩ := primaryLog_eq typ origin source p s
  rw [h]

/-- Marking heads ready changes the host side only. -/
theorem readyHeads_part {α : Type} (part : State → α) (h : ∀ f s, part (onHost f s) = part s) (s : State) : part (readyHeads s) = part s :=
  foldl_part part (fun s x => by split <;> simp [onPort, h]) _ s

theorem resetFns_chans (h : Nat) (s : State) : (resetFns h s).chans = s.chans := by
  unfold resetFns
  dsimp only
  split <;> rfl

theorem setGang_chans (gang : Bytes) (s : State) : (setGang gang s).chans = s.chans := by
  have port (p : Nat) (b : Bool) (x : State) : (if b then resetFns p x else x).chans = x.chans := by
    split
    · exact resetFns_chans p x
    · rfl
  refine foldl_part State.chans (fun s t => ?_) _ s
  simp only [setReg]
  split <;> split
  · rfl
  · exact foldl_part State.chans (fun x i => by exact port _ _ x) _ _
  · exact foldl_part State.chans (fun x i => by exact port _ _ x) _ _
  · exact (foldl_part State.chans (fun x i => by exact port _ _ x) _ _).trans (foldl_part State.chans (fun x i => by exact port _ _ x) _ _)

/-! Dawn 1 (R340–R342, R347, R349, R351). -/

/-- The registers of the Dawn sequencer and the flash. -/
def dawnAndFlash (s : State) : Dawn × Flash := (s.dawn, s.flash)

/-- Dawn as Dawn 1 leaves it: the option block is the stored one where it is valid, and the defaults otherwise (R342). -/
def optionsTaken (s : State) : Dawn :=
  { s.dawn with
    stage := 1
    opt := if optValid (flashRead s 0 4096) then optOf (flashRead s 0 4096) else optDefaults
    optDefault := !optValid (flashRead s 0 4096)
    optDigest := digest (slice (flashRead s 0 4096) 0 4064) }

theorem dawnOptions_dawnAndFlash (s : State) : dawnAndFlash (dawnOptions s) = (optionsTaken s, { s.flash with mode := .oneS25 }) := by
  unfold dawnOptions
  dsimp only
  rw [foldl_part dawnAndFlash fun _ _ => by rfl, foldl_part dawnAndFlash fun _ _ => by rfl, foldl_part dawnAndFlash fun _ _ => by rfl]
  by_cases hv : optValid (flashRead s 0 4096) = true <;> simp [dawnAndFlash, optionsTaken, hv]

theorem dawnOptions_dawn (s : State) : (dawnOptions s).dawn = optionsTaken s := congrArg Prod.fst (dawnOptions_dawnAndFlash s)

theorem dawnOptions_flash (s : State) : (dawnOptions s).flash = { s.flash with mode := .oneS25 } := congrArg Prod.snd (dawnOptions_dawnAndFlash s)

/-- A failure leaves what a withdrawn image leaves of Dawn, FAILED and its code set (R351). -/
theorem failDawn_dawn (code : Nat) (t0 : Bool) (s : State) :
    (failDawn code t0 s).dawn = { (withdraw s).dawn with failed := true, failCode := code, recovery := !t0, cands := [] } := by
  unfold failDawn
  dsimp only
  split
  · simp [replaceDawn]
  · rw [readyHeads_part State.dawn fun _ _ => rfl]
    simp [replaceDawn]

theorem replaceDawn_rr (code : Nat) (s : State) : (replaceDawn code s).faults.rr = true := by
  unfold replaceDawn
  simp only [onFaults_faults]
  split
  · assumption
  · rfl

theorem failDawn_rr (code : Nat) (t0 : Bool) (s : State) : (failDawn code t0 s).faults.rr = true := by
  unfold failDawn
  dsimp only
  split
  · exact replaceDawn_rr _ _
  · rw [readyHeads_part State.faults fun _ _ => rfl]
    exact replaceDawn_rr _ _

section
variable {s : State} (hrun : tileRuns s 0 = true) (hmid : midnight s = false) (hst : s.dawn.stage = 0)
include hrun hmid hst

section
variable (hok : s.dawn.failed = false) (hall : ∀ t ∈ tileList s, tileRuns s t = true)
include hok hall

/-- With every tile running and a tile out of T0's reach, Dawn fails with code 9 and the ports are released for recovery. -/
theorem exec_dawn1_cut (hcut : ∃ t ∈ tileList s, cutOff s 0 t = true) : exec .dawn1 s = .next (dawnOptions (failDawn 9 false s)) := by
  have hfail : (dawnOptions (failDawn 9 false s)).dawn.failed = true := by rw [dawnOptions_dawn, optionsTaken, failDawn_dawn]
  change execDawn1 s = _
  simp only [execDawn1, hrun, hmid, hst, hok, List.all_eq_true.2 hall, List.any_eq_true.2 hcut, hfail, ne_eq, not_true, decide_false, Bool.not_true,
    Bool.not_false, Bool.or_self, Bool.or_false, Bool.and_self, Bool.false_and, Bool.false_eq_true, if_false, if_true]

/-- With every tile running and in reach, the trust anchor and the slots decide. -/
theorem exec_dawn1_reached (hreach : ∀ t ∈ tileList s, cutOff s 0 t = false) : exec .dawn1 s = .next (if s.fuse.anchorRead = 0#256 then
    failDawn 1 false (dawnOptions s) else candsFound (candidates (dawnOptions s) (dawnOptions s).dawn.opt) (dawnOptions s)) := by
  have hfail : (dawnOptions s).dawn.failed = false := by rw [dawnOptions_dawn, optionsTaken, hok]
  have hcut : (tileList s).any (fun t => cutOff s 0 t) = false := List.any_eq_false.2 fun t ht => by simp [hreach t ht]
  change execDawn1 s = _
  simp only [execDawn1, hrun, hmid, hst, hok, List.all_eq_true.2 hall, hcut, hfail, ne_eq, not_true, decide_false, Bool.not_true,
    Bool.not_false, Bool.or_self, Bool.or_false, Bool.false_and, Bool.false_eq_true, if_false]
  split <;> rfl

end

/-- After a failed Dawn 0 the ports are released where recovery firmware runs. -/
theorem exec_dawn1_failed (hf : s.dawn.failed = true) : exec .dawn1 s = .next (if s.dawn.recovery then dawnOptions s else s) := by
  have hfail : (dawnOptions s).dawn.failed = true := by rw [dawnOptions_dawn, optionsTaken, hf]
  change execDawn1 s = _
  cases hr : s.dawn.recovery <;>
    simp [execDawn1, hrun, hmid, hst, hf, hr, hfail]

end

/-- With no candidate Dawn fails, with code 2 where neither slot has a header. -/
theorem candsFound_none {s : State} (ha : slotHdr s false = none) (hb : slotHdr s true = none) : candsFound [] s = failDawn 2 false s := by
  simp [candsFound, ha, hb]

theorem candsFound_unusable {s : State} (h : (slotHdr s false).isSome = true ∨ (slotHdr s true).isSome = true) :
    candsFound [] s = failDawn 3 false s := by
  simp [candsFound, h]

/-! Dawn 2 (R341, R346, R347, R349). -/

theorem exec_dawn2 {s : State} (hrun : tileRuns s 0 = true) (hmid : midnight s = false) (hok : s.dawn.failed = false) (hlock : s.dawn.runLock = false)
    (hst : s.dawn.stage ≠ 0) (hc : s.dawn.cand = none) : exec .dawn2 s = .next (tryCands s.dawn.cands
      { s with flash := { s.flash with mode := flashMode s.dawn.opt.xspi }, dawn := { s.dawn with stage := 2 } }) := by
  change execDawn2 s = _
  rw [execDawn2, if_neg (by simp [hrun, hmid, hok, hlock, hst, hc])]
  rfl

/-- A candidate with a usable header is tried; its firmware is loaded where it passes, and otherwise the next one is tried. -/
theorem tryCands_usable {s : State} {c : Bool} {h : SlotHdr} (hu : usable s c = some h) (l : List Bool) {s1 : State}
    (h1 : s1 = onDawn (fun d => { d with cand := some c, hdr := some h, cands := l, tried := setBit d.tried (b2n c) true }) s) :
    tryCands (c :: l) s = if firmwareOk s c h then onDawn (fun d => { d with mgmtMem := firmwareSec s c h }) s1 else tryCands l (passOver 4 s1) := by
  rw [tryCands, hu, h1]

theorem passOver_eq (code : Nat) {s s1 : State} (h : s1 = primaryLog 0x03#8 0#8 0xFFFF#16
      [3#8, 0#8, BitVec.ofNat 8 (match s.dawn.cand with | some b => b2n b | none => 0), BitVec.ofNat 8 code] s) :
    passOver code s = if s.dawn.cands.isEmpty then failDawn code false s1 else withdraw s1 := by
  have hcands : s1.dawn = s.dawn := by rw [h, primaryLog_dawn]
  rw [← hcands, h]
  rfl

/-! Dawn 3 (R150, R180, R344, R349). -/

section
variable {s : State} {c : Bool} {h : SlotHdr} (hrun : firmwareRuns s 0 = true) (hmid : midnight s = false) (hst : s.dawn.stage = 2)
  (hc : s.dawn.cand = some c) (hh : s.dawn.hdr = some h)
include hrun hmid hst hc hh

/-- The candidate's image is read where no population is declared, or one that obeys the rules. -/
theorem exec_dawn3_read {p : Option Population} (hp : ∀ x ∈ p, populationOk s x = true) :
    exec (.dawn3 p) s = .next (imageRead c h (readImage s c h) (onDawn (fun d => { d with stage := 3 }) s)) := by
  change execDawn3 p s = _
  cases p with
  | none => simp [execDawn3, hrun, hmid, hst, hc, hh]
  | some x => simp [execDawn3, hrun, hmid, hst, hc, hh, hp x rfl]

theorem exec_dawn3_refused {p : Population} (hp : populationOk s p = false) :
    exec (.dawn3 (some p)) s = .next (passOver 5 (onDawn (fun d => { d with stage := 3 }) s)) := by
  change execDawn3 (some p) s = _
  simp [execDawn3, hrun, hmid, hst, hc, hh, hp, imageRead]

end

theorem getLsbD_setBit_true {n : Nat} (w : BitVec n) {i j : Nat} (hj : j < n) : (setBit w i true).getLsbD j = (w.getLsbD j || decide (j = i)) := by
  by_cases h : j = i
  · simp [setBit, h ▸ hj, h]
  · simp [setBit, hj, h]
    omega

/-- Setting the bits of a list sets each of them, and clears none. -/
theorem getLsbD_foldl_setBit {n : Nat} {j : Nat} (hj : j < n) (l : List Nat) (w : BitVec n) (h : j ∈ l ∨ w.getLsbD j = true) :
    (l.foldl (fun w i => setBit w i true) w).getLsbD j = true := by
  induction l generalizing w with
  | nil => simpa using h
  | cons i l ih =>
    refine ih _ ?_
    rw [getLsbD_setBit_true w hj]
    rcases h with h | h
    · rcases List.mem_cons.1 h with rfl | h
      · simp
      · exact .inl h
    · simp [h]

/-- The workers start with the image (R349). -/
theorem applyImage_started (c : Bool) (h : SlotHdr) (i : Image) {s : State} {t : Nat} (ht : t ∈ tileList s) (h8 : t < 8) :
    (applyImage c h i s).dawn.started.getLsbD t = true := getLsbD_foldl_setBit h8 _ _ (.inl ht)

/-! Dawn 4 (R150, R167–R170, R278, R288, R342, R349). -/

theorem getChan_of_chans {s x : State} (h : x.chans = s.chans) (e : Nat) : getChan x e = getChan s e := by
  rw [getChan, h, getChan]

/-- The SPDs of a tile's DIMMs whose power channels are power-good, whatever else the state holds. -/
theorem foundDimms_spds {s x : State} (h : x.chans = s.chans) (dimms : List (TileId × DimmId × Spd)) (t : Nat) :
    (foundDimms dimms x t).map (·.2) = (List.range 8).filterMap (fun c =>
      if (getChan s (8 + 2 * t + c / 4)).state = .powerGood then (dimms.find? (fun d => d.1.val = t ∧ d.2.1.val = c)).map (·.2.2) else none) := by
  simp only [foundDimms, List.map_filterMap, getChan_of_chans h]
  refine List.filterMap_congr fun c _ => ?_
  by_cases hgood : (getChan s (8 + 2 * t + c / 4)).state = .powerGood
  · rw [if_pos hgood, if_pos hgood, Option.map_map]
    rfl
  · rw [if_neg hgood, if_neg hgood, Option.map_none]

/-! Dawn 5 and 6 (R70, R90, R320, R325, R327, R349, R353). -/

/-- The links have trained or failed, and every tile's catalogue fits or the candidate is passed over with code 6. -/
theorem exec_dawn5 {s s1 : State} (hrun : firmwareRuns s 0 = true) (hmid : midnight s = false) (hst : s.dawn.stage = 4) (hc : s.dawn.cand ≠ none)
    (h1 : s1 = (tileList s).foldl (fun s t => formTile t s) (onDawn (fun d => { d with stage := 5 }) s)) :
    exec .dawn5 s = .next (if ∀ t ∈ tileList s, fitsTile s1 t = true then admitted (evaluate s1 s1.qos.cls true) s1 else passOver 6 s1) := by
  subst h1
  change execDawn5 s = _
  rw [execDawn5, if_neg (by simp [hrun, hmid, hst, hc])]
  simp only [Bool.not_eq_true', ← Bool.not_eq_true, List.all_eq_true, ite_not]
  split <;> rfl

theorem exec_dawn6 {s : State} (hrun : firmwareRuns s 0 = true) (hmid : midnight s = false) (hst : s.dawn.stage = 5) (hc : s.dawn.cand ≠ none)
    (hfills : ∀ e ∈ s.map.fills, e.2 = none) : exec .dawn6 s = .next (primaryLog 0x01#8 0#8 0xFFFF#16
      ([BitVec.ofNat 8 (b2n s.dawn.slotB), 0#8] ++ leBytes 4 s.dawn.seq.toNat ++ slotIdentity s ++ [BitVec.ofNat 8 s.qos.result, s.qos.report.getD 12 0#8])
      { s with dawn := { s.dawn with stage := 6, runLock := true, memActive := true }, time := { s.time with d6At := s.time.now } }) := by
  have hnone : s.map.fills.any (fun e => e.2.isSome) = false := List.any_eq_false.2 fun e he => by simp [hfills e he]
  change execDawn6 s = _
  rw [execDawn6, if_neg (by simp [hrun, hmid, hst, hc, hnone])]
  rfl

/-! A stage does nothing out of its turn (R349). -/

theorem exec_dawn1_outOfTurn {s : State} (h : s.dawn.stage ≠ 0) : exec .dawn1 s = .next s := by
  change execDawn1 s = _
  simp [execDawn1, h]

/-- Dawn 2 runs once, for a device that has passed Dawn 1 and has not failed. -/
theorem exec_dawn2_outOfTurn {s : State} (h : s.dawn.stage = 0 ∨ s.dawn.cand ≠ none ∨ s.dawn.failed = true) : exec .dawn2 s = .next s := by
  change execDawn2 s = _
  rw [execDawn2, if_pos]
  rcases h with h | h | h
  · simp [h]
  · simp [Option.isSome_iff_ne_none.2 h]
  · simp [h]

theorem exec_dawn3_outOfTurn {s : State} (p : Option Population) (h : s.dawn.stage ≠ 2) : exec (.dawn3 p) s = .next s := by
  change execDawn3 p s = _
  unfold execDawn3
  split
  · simp [h]
  · rfl

theorem exec_dawn4_outOfTurn {s : State} {nonce : W64} {keys : List (BitVec 256)} {dimms : List (TileId × DimmId × Spd)} {eyes : List Eye}
    {failed : List (SubId × Fin 10)} (h : s.dawn.stage ≠ 3) : exec (.dawn4 nonce keys dimms eyes failed) s = .next s := by
  change execDawn4 nonce keys dimms eyes failed s = _
  simp [execDawn4, h]

theorem exec_dawn5_outOfTurn {s : State} (h : s.dawn.stage ≠ 4) : exec .dawn5 s = .next s := by
  change execDawn5 s = _
  simp [execDawn5, h]

theorem exec_dawn6_outOfTurn {s : State} (h : s.dawn.stage ≠ 5) : exec .dawn6 s = .next s := by
  change execDawn6 s = _
  simp [execDawn6, h]

/-! Re-evaluation (R327–R329). -/

theorem exec_reevaluationDone {s : State} {trig : Nat} (hbusy : s.qos.busy = some trig) (hrun : primaryRuns s = true) (hmid : midnight s = false) :
    exec .reevaluationDone s = .next (reevaluated trig (evaluate s s.qos.cls false) s) := by
  change execReevaluationDone s = _
  simp [execReevaluationDone, hbusy, hrun, hmid]

/-- Settles O58: each clause is the law of its stage, in the order of the stages. -/
theorem dawnStages : Obligations.DawnStages := by
  refine ⟨?dawn1, ?recovery, ?options, ?cands, fun s => exec_dawn2, ?tried, ?passed, ?failed, ?dawn3, ?image, ?dawn4, ?dawn5, ?admitted,
    fun s => exec_dawn6, fun s nonce keys dimms eyes failed => ⟨exec_dawn1_outOfTurn, exec_dawn2_outOfTurn, exec_dawn3_outOfTurn,
      exec_dawn4_outOfTurn, exec_dawn5_outOfTurn, exec_dawn6_outOfTurn⟩, fun s trig => exec_reevaluationDone, ?reevaluated⟩
  case dawn1 =>
    intro s s2 hrun hmid hst hok hall
    refine ⟨exec_dawn1_cut hrun hmid hst hok hall, fun hreach h2 ha => ?_, fun hreach h2 ha => ?_⟩
    · rw [exec_dawn1_reached hrun hmid hst hok hall hreach, if_pos ha, h2]
    · rw [exec_dawn1_reached hrun hmid hst hok hall hreach, if_neg ha, h2]
  case recovery =>
    intro s hrun hmid hst hf
    rw [exec_dawn1_failed hrun hmid hst hf]
    exact ⟨fun h => by rw [if_pos h], fun h => by rw [h, if_neg Bool.false_ne_true]⟩
  case options =>
    intro s
    rw [dawnOptions_flash, dawnOptions_dawn]
    exact ⟨rfl, rfl, by rw [optionsTaken]⟩
  case cands => exact fun s c l => ⟨rfl, candsFound_none, candsFound_unusable⟩
  case tried =>
    intro s c l h s1
    refine ⟨rfl, fun hu h1 => ?_⟩
    rw [tryCands_usable hu l h1]
    exact ⟨fun hok => if_pos hok, fun hbad => by rw [hbad, if_neg Bool.false_ne_true]⟩
  case passed =>
    intro s code s1 h1
    rw [passOver_eq code h1]
    exact ⟨fun h => if_pos (List.isEmpty_iff.2 h), fun h => if_neg fun hempty => h (List.isEmpty_iff.1 hempty)⟩
  case failed =>
    intro s code t0
    rw [failDawn_dawn]
    exact ⟨rfl, rfl, rfl, failDawn_rr code t0 s⟩
  case dawn3 =>
    intro s c h hrun hmid hst hc hh
    exact ⟨exec_dawn3_read hrun hmid hst hc hh (by simp), fun p hp => exec_dawn3_read hrun hmid hst hc hh (by simpa using hp),
      fun p hp => exec_dawn3_refused hrun hmid hst hc hh hp⟩
  case image => exact fun s c h i => ⟨rfl, rfl, fun t ht h8 => applyImage_started c h i ht h8⟩
  case dawn4 =>
    intro s nonce keys dimms eyes failed s2 s3 s4 s6 hrun hmid hst hc h2 h3 h4 h6
    have hchans : s3.chans = s.chans := by
      rw [h3, onCry_chans, h2]
      split
      · rfl
      · rw [primaryLog_chans, setGang_chans, onDawn_chans]
    simp only [← foundDimms_spds hchans] at h4
    subst h6 h4 h3 h2
    change execDawn4 nonce keys dimms eyes failed s = _
    rw [execDawn4, if_neg (by simp [hrun, hmid, hst, hc])]
    simp only [ne_eq, decide_eq_true_eq, ite_not]
  case dawn5 =>
    intro s s1 hrun hmid hst hc h1
    rw [exec_dawn5 hrun hmid hst hc h1]
    refine ⟨fun ⟨t, ht, hfull⟩ => ?_, fun hfit => by rw [if_pos hfit]⟩
    rw [if_neg fun hfit => Bool.false_ne_true (hfull.symm.trans (hfit t ht))]
  case admitted =>
    intro o s s1 s2 h1
    refine ⟨fun h3 => ?_, fun h3 h2 => ?_⟩
    · rw [admitted, if_pos h3, h1]
    · rw [admitted, if_neg h3, h2, h1]
  case reevaluated =>
    intro o s s1 trig h1
    rw [reevaluated, h1]
    exact ⟨fun h4 => if_pos h4, fun h4 => if_neg h4⟩

end Sys2Proof.Machine
end

section
/-!
Snoops at a tile (O42): where a snoop is answered depends on the tile's hold on the line (R99, R100): the eviction buffer first, then a tracker that waits
for data, then the stable copy. One equation for each.
-/
namespace Sys2Proof.Machine

section
variable {s : State} {t : Nat} {m : Msg}

/-- A tile whose M copy is on its way home (MI_A) has nothing to give. -/
theorem snoop_evicting (h : (getEvb s t m.line).isSome = true) : snoop t m s = sendRsp { op := .snpRspI, src := t, dst := m.src, line := m.line } s :=
  if_pos h

/-- A tile that waits for its data with no note come, or whose data came ahead of the note, keeps its state. -/
theorem snoop_awaiting (he : getEvb s t m.line = none) (hl : (getTrk s t m.line).live = true) (hst : (getTrk s t m.line).st = .isD ∨
    (getTrk s t m.line).st = .isN ∨ (getTrk s t m.line).st = .imD ∨ (getTrk s t m.line).st = .imN) :
    snoop t m s = sendRsp { op := .snpRspI, src := t, dst := m.src, line := m.line } s := by
  rcases hst with hst | hst | hst | hst <;> simp [snoop, he, hl, hst]

/-- A tile that the note has reached before its data applies the snoop once the data is there. -/
theorem snoop_noted (he : getEvb s t m.line = none) (hl : (getTrk s t m.line).live = true) (hst : (getTrk s t m.line).st = .isF ∨ (getTrk s t m.line).st = .imF) :
    snoop t m s = setTrk t m.line { getTrk s t m.line with deferred := (getTrk s t m.line).deferred ++ [m] } s := by
  rcases hst with hst | hst <;> simp [snoop, he, hl, hst]

/-- An upgrade that loses its S copy needs the data too. -/
theorem snoop_upgrading (he : getEvb s t m.line = none) (hl : (getTrk s t m.line).live = true) (hst : (getTrk s t m.line).st = .smD) (hop : m.op = .snpInv) :
    snoop t m s = sendRsp { op := .snpRspI, src := t, dst := m.src, line := m.line } (setTrk t m.line { getTrk s t m.line with st := .imD, val := {} } s) := by
  simp [snoop, he, hl, hst, hop]

/-- With no buffer, and no tracker or one that fills nothing, the copy answers. -/
theorem snoop_stable (he : getEvb s t m.line = none) (hk : (getTrk s t m.line).live = false ∨ (getTrk s t m.line).st = .x) : snoop t m s = snoopStable t m s := by
  rcases hk with hk | hk
  · simp [snoop, he, hk]
  · simp [snoop, he, hk]

theorem snoopStable_invalid (hc : copyOf s t m.line = none) :
    snoopStable t m s = sendRsp { op := .snpRspI, src := t, dst := m.src, line := m.line } s := by
  simp only [snoopStable, hc, id]

/-- A clean copy is given up with no data. -/
theorem snoopStable_snpInv_clean {st : LineSt} {v : LVal} (hc : copyOf s t m.line = some (st, v)) (hst : st ≠ .m) (hop : m.op = .snpInv) :
    snoopStable t m s = sendRsp { op := .snpRspI, src := t, dst := m.src, line := m.line } (putCopy t m.line .i {} s) := by
  simp only [snoopStable, hc, hop, id]

theorem snoopStable_snpInv_dirty {v : LVal} (hc : copyOf s t m.line = some (.m, v)) (hop : m.op = .snpInv) :
    snoopStable t m s = sendRsp { op := .snpRspIData, src := t, dst := m.src, line := m.line, val := v } (putCopy t m.line .i {} s) := by
  simp only [snoopStable, hc, hop]

/-- The owner gives the requester its data, and keeps S. -/
theorem snoopStable_snpShare {v : LVal} (hop : m.op = .snpShare) :
    (copyOf s t m.line = some (.e, v) → snoopStable t m s = sendRsp { op := .snpRspFwd, src := t, dst := m.src, line := m.line, newS := true }
      (sendFwd { op := .fdatS, src := t, dst := m.q, line := m.line, trk := m.trk, val := v } (putCopy t m.line .s v s))) ∧
    (copyOf s t m.line = some (.m, v) → snoopStable t m s = sendRsp { op := .snpRspFwdS, src := t, dst := m.src, line := m.line, val := v }
      (sendFwd { op := .fdatS, src := t, dst := m.q, line := m.line, trk := m.trk, val := v } (putCopy t m.line .s v s))) := by
  constructor <;> intro hc <;> simp only [snoopStable, hc, hop]

/-- The owner gives the requester its data and its state. -/
theorem snoopStable_snpOwn {v : LVal} (hop : m.op = .snpOwn) :
    (copyOf s t m.line = some (.e, v) → snoopStable t m s = sendRsp { op := .snpRspFwd, src := t, dst := m.src, line := m.line, newI := true }
      (sendFwd { op := .fdatE, src := t, dst := m.q, line := m.line, trk := m.trk, val := v } (putCopy t m.line .i {} s))) ∧
    (copyOf s t m.line = some (.m, v) → snoopStable t m s = sendRsp { op := .snpRspFwd, src := t, dst := m.src, line := m.line, newI := true }
      (sendFwd { op := .fdatM, src := t, dst := m.q, line := m.line, trk := m.trk, val := v } (putCopy t m.line .i {} s))) := by
  constructor <;> intro hc <;> simp only [snoopStable, hc, hop]

/-- The owner gives the requester its data and keeps its copy. -/
theorem snoopStable_snpCur {st : LineSt} {v : LVal} (hop : m.op = .snpCur) (hc : copyOf s t m.line = some (st, v)) (hst : st = .e ∨ st = .m) :
    snoopStable t m s = sendRsp { op := .snpRspFwd, src := t, dst := m.src, line := m.line }
      (sendFwd { op := .fdatX, src := t, dst := m.q, line := m.line, trk := m.trk, val := v } s) := by
  rcases hst with rfl | rfl <;> simp only [snoopStable, hc, hop, id]

end

/-- Settles O42: each row is the equation of the tile's hold on the line. -/
theorem snoopTable : Obligations.SnoopTable := by
  unfold Obligations.SnoopTable
  intro s t m _
  refine ⟨snoop_evicting, fun he hl => ⟨snoop_awaiting he hl, snoop_noted he hl, snoop_upgrading he hl⟩, fun he hk => ?_⟩
  rw [snoop_stable he hk]
  refine ⟨snoopStable_invalid, fun v hc => snoopStable_snpInv_clean hc (by decide), fun v hc => ?owner, fun v hc => ?dirty⟩
  case owner =>
    exact ⟨snoopStable_snpInv_clean hc (by decide), fun hop => (snoopStable_snpShare hop).1 hc, fun hop => (snoopStable_snpOwn hop).1 hc,
      fun hop => snoopStable_snpCur hop hc (.inl rfl)⟩
  case dirty =>
    exact ⟨snoopStable_snpInv_dirty hc, fun hop => (snoopStable_snpShare hop).2 hc, fun hop => (snoopStable_snpOwn hop).2 hc,
      fun hop => snoopStable_snpCur hop hc (.inr rfl)⟩

end Sys2Proof.Machine
end

section
/-!
Requests at their home (O43): which commands land a request, whose turn it is at a port (R314), the order of a tie (R116), and what a request begins with
(R106, R117, R118). A landing takes the request out of the fabric and touches nothing that its home decides by (`reqLeft_eq_fab`).
-/
namespace Sys2Proof.Machine

/-! The seven requests. -/

/-- The opcode of each request and the command that brings it to its home. -/
def reqCmds (src : TileId) (line : LineAddr) (tied : List TileId) : List (Op × Instr) :=
  [(.rdShared, .rdShared src line tied), (.rdOwn, .rdOwn src line tied), (.rdCur, .rdCur src line tied), (.wrLine, .wrLine src line tied),
    (.wrPart, .wrPart src line tied), (.hostCe, .hostCe src line tied), (.farAtom, .farAtom src line tied)]

theorem exec_of_mem_reqCmds {src : TileId} {line : LineAddr} {tied : List TileId} {p : Op × Instr} (h : p ∈ reqCmds src line tied) (s : State) :
    exec p.2 s = .next (onReq p.1 src.val line.toNat tied s) := by
  fin_cases h <;> rfl

/-! Whose turn it is at a port (R314). -/

section
variable {s : State} {m x : Msg} {p : Nat × Nat}

theorem reqMay_of_any_aged (hp : reqPort s m = some p) (ha : ∃ y ∈ atPort s p, y.aged = true) : reqMay s m = m.aged := by
  have aged : (atPort s p).any (·.aged) = true := List.any_eq_true.mpr ha
  simp only [reqMay, hp, aged, if_true]

/-- Where none is aged, a message waits for one of a higher PRIO, and takes its turn among those of its own. -/
theorem reqMay_of_none_aged (hp : reqPort s m = some p) (ha : ∀ y ∈ atPort s p, y.aged = false) : reqMay s m =
    ((atPort s p).all (fun y => decide (classPrio s y.attr.cls ≤ classPrio s m.attr.cls)) &&
      decide (nextClass s p (classPrio s m.attr.cls)
        (((atPort s p).filter (fun y => classPrio s y.attr.cls = classPrio s m.attr.cls)).map (·.attr.cls)) = some m.attr.cls)) := by
  have fresh : (atPort s p).any (·.aged) = false := List.any_eq_false.mpr fun y hy => by simp [ha y hy]
  simp only [reqMay, hp, fresh, Bool.false_eq_true, if_false]

theorem reqMay_of_higherPrio (hp : reqPort s m = some p) (hx : x ∈ atPort s p) (hlt : classPrio s m.attr.cls < classPrio s x.attr.cls) (hm : m.aged = false) :
    reqMay s m = false := by
  by_cases ha : ∃ y ∈ atPort s p, y.aged = true
  · rw [reqMay_of_any_aged hp ha, hm]
  · have outranked : (atPort s p).all (fun y => decide (classPrio s y.attr.cls ≤ classPrio s m.attr.cls)) = false :=
      List.all_eq_false.mpr ⟨x, hx, by simpa using hlt⟩
    rw [reqMay_of_none_aged hp (by simpa using ha), outranked, Bool.false_and]

/-- A class keeps its turn until its WEIGHT is spent, while a message of it waits. -/
theorem nextClass_turn {prio : Nat} {waiting : List Nat} {turn : Nat × Nat} (ht : turn = Table.get (0, 0) s.fab.reqTurn (turnKey p prio))
    (hw : turn.1 ∈ waiting) (hlt : turn.2 < clsWeight s turn.1) : nextClass s p prio waiting = some turn.1 := by
  subst ht
  exact if_pos (by simpa using ⟨hw, hlt⟩)

theorem reqMay_of_turn (hp : reqPort s m = some p) (hall : ∀ y ∈ atPort s p, y.aged = false ∧ classPrio s y.attr.cls ≤ classPrio s m.attr.cls)
    {turn : Nat × Nat} (ht : turn = Table.get (0, 0) s.fab.reqTurn (turnKey p (classPrio s m.attr.cls)))
    (hx : ∃ y ∈ atPort s p, y.attr.cls = turn.1 ∧ classPrio s y.attr.cls = classPrio s m.attr.cls) (hlt : turn.2 < clsWeight s turn.1) :
    reqMay s m = decide (turn.1 = m.attr.cls) := by
  have highest : (atPort s p).all (fun y => decide (classPrio s y.attr.cls ≤ classPrio s m.attr.cls)) = true :=
    List.all_eq_true.mpr fun y hy => decide_eq_true (hall y hy).2
  obtain ⟨y, hy, hcls, hprio⟩ := hx
  have waits : turn.1 ∈ ((atPort s p).filter (fun y => classPrio s y.attr.cls = classPrio s m.attr.cls)).map (·.attr.cls) :=
    List.mem_map.mpr ⟨y, List.mem_filter.mpr ⟨hy, decide_eq_true hprio⟩, hcls⟩
  rw [reqMay_of_none_aged hp fun y hy => (hall y hy).1, highest, nextClass_turn ht waits hlt, Bool.true_and]
  simp only [Option.some.injEq]

end

/-! A tie (R116). -/

theorem tiePlace_lt {n : Nat} (hn : 0 < n) (start t : Nat) : tiePlace n start t < n :=
  lt_of_lt_of_eq (Nat.mod_lt _ (lt_max_of_lt_right hn)) (max_eq_right hn)

theorem flatMap_range_filter_singleton {α : Type} (a : α) (c : Nat) : ∀ n, (List.range n).flatMap (fun p => [a].filter (fun _ => decide (c = p))) =
    if c < n then [a] else []
  | 0 => rfl
  | n + 1 => by
    rw [List.range_succ, List.flatMap_append, flatMap_range_filter_singleton a c n]
    rcases lt_trichotomy c n with h | h | h
    · simp [h, h.ne, Nat.lt_succ_of_lt h]
    · simp [h]
    · simp [h.ne', h.not_gt, Nat.not_lt.mpr (Nat.succ_le_of_lt h)]

/-- A request that nothing ties with is its own order. -/
theorem tieOrder_singleton {n : Nat} (hn : 0 < n) (start : Nat) (m : Msg) : tieOrder n start [m] = [m] := by
  have place := flatMap_range_filter_singleton m (tiePlace n start m.src) n
  rw [if_pos (tiePlace_lt hn start m.src)] at place
  exact place

/-! A request lands (R106). -/

/-- The tile of an engine that goes on is one of the member's. -/
theorem tiles_pos_of_engineUp {s : State} {t : Nat} (h : engineUp s t = true) : 0 < tiles s := by
  simp only [engineUp, tileRuns, hasTile, Bool.and_eq_true, decide_eq_true_eq] at h
  obtain ⟨⟨⟨⟨-, ht⟩, -⟩, -⟩, -⟩ := h
  exact Nat.zero_lt_of_lt ht

theorem onReq_outOfTurn {s : State} {src line : Nat} {m : Msg} (op : Op) (tied : List TileId) (h : reqOf s src line = some m) (may : reqMay s m = false) :
    onReq op src line tied s = s := by
  unfold onReq
  split
  · rfl
  · next m' hm' =>
    obtain rfl : m = m' := Option.some.inj (h.symm.trans (Option.filter_eq_some_iff.mp hm').1)
    exact if_pos (by simp [may])

section
variable {s : State} {src line : Nat} {tied : List TileId} {op : Op} {m : Msg} (h : reqOf s src line = some m) (hop : m.op = op)
  (up : engineUp s m.dst = true) (may : reqMay s m = true)
include h hop up may

theorem onReq_alone (ho : tiedWith m tied s = []) : onReq op src line tied s = settle (landReq m s) := by
  unfold onReq
  simp only [h, hop, Option.filter_some, decide_true, up, may, ho, tieOrder_singleton (tiles_pos_of_engineUp up), Bool.not_true, Bool.or_self,
    Bool.false_eq_true, if_true, if_false, List.foldl_cons, List.foldl_nil]

theorem onReq_tied {w : Msg} {l : List Msg} (ho : tiedWith m tied s ≠ [])
    (horder : tieOrder (tiles s) (Table.get 0 s.ha.lastTie m.dst) (m :: tiedWith m tied s) = w :: l) :
    onReq op src line tied s = settle ((w :: l).foldl (fun s m => landReq m s)
      { s with ha := { s.ha with lastTie := Table.set 0 s.ha.lastTie m.dst (w.src + 1) } }) := by
  obtain ⟨x, xs, hx⟩ := List.exists_cons_of_ne_nil ho
  rw [hx] at horder
  unfold onReq
  simp only [h, hop, Option.filter_some, decide_true, up, may, hx, horder, Bool.not_true, Bool.or_self, Bool.false_eq_true, if_true, if_false]
  rfl

end

/-- The state once a request has left the fabric. -/
def reqLeft (m : Msg) (s : State) : State := { reqSent m s with fab := { (reqSent m s).fab with req := (reqSent m s).fab.req.erase m } }

theorem reqSent_eq_fab (m : Msg) (s : State) : ∃ f : Fabric, reqSent m s = { s with fab := f } := by
  unfold reqSent
  split
  · exact ⟨s.fab, rfl⟩
  · split
    · exact ⟨s.fab, rfl⟩
    · exact ⟨_, rfl⟩

/-- A request that leaves changes the fabric alone. -/
theorem reqLeft_eq_fab (m : Msg) (s : State) : ∃ f : Fabric, reqLeft m s = { s with fab := f } := by
  obtain ⟨f, hf⟩ := reqSent_eq_fab m s
  exact ⟨_, by rw [reqLeft, hf]⟩

@[simp] theorem lineTaken_reqLeft (m : Msg) (s : State) (line : Nat) : lineTaken (reqLeft m s) line = lineTaken s line := by
  obtain ⟨f, hf⟩ := reqLeft_eq_fab m s
  rw [hf]
  rfl

@[simp] theorem getLq_reqLeft (m : Msg) (s : State) (line : Nat) : getLq (reqLeft m s) line = getLq s line := by
  obtain ⟨f, hf⟩ := reqLeft_eq_fab m s
  rw [hf]
  rfl

theorem landReq_eq (m : Msg) (s : State) : landReq m s = driveLine m.line (reqArrive m (reqLeft m s)) := rfl

theorem reqArrive_queued {s : State} {m : Msg} (h : lineTaken s m.line = true ∨ getLq s m.line ≠ []) :
    reqArrive m s = setLq m.line (getLq s m.line ++ [m]) s := by
  refine if_pos ?_
  rcases h with h | h <;> simp [h]

theorem reqArrive_begins {s : State} {m : Msg} (ht : lineTaken s m.line = false) (hq : getLq s m.line = []) : reqArrive m s = beginReq m.line m s :=
  if_neg (by simp [ht, hq])

/-! What a request begins with (R94, R117, R118). -/

section
variable {s : State} {line : Nat} {m : Msg}

theorem beginReq_sound {w : Nat} (hw : dirWay s line = some w) (he : entryLost s line = false) : beginReq line m s = startTxn line false m s := by
  simp only [beginReq, hw, he, Bool.false_eq_true, if_false]

theorem beginReq_newEntry {n w : Nat} {g : Bool} (hd : dirWay s line = none) (hq : waiters s (homeOf s line) (dirSet s line) = [])
    (hn : wayNow s (homeOf s line) (dirSet s line) = some (n, w, g)) :
    beginReq line m s = startTxn line true m (newEntry (homeOf s line) (dirSet s line) w g line s) := by
  simp only [beginReq, hd, hq, hn, List.isEmpty_nil, Bool.not_true, Bool.false_eq_true, if_false]

theorem beginReq_waits (hd : dirWay s line = none) (hq : waiters s (homeOf s line) (dirSet s line) = [])
    (hn : wayNow s (homeOf s line) (dirSet s line) = none) : beginReq line m s = setWaiters (homeOf s line) (dirSet s line) [m] s := by
  simp only [beginReq, hd, hq, hn, List.isEmpty_nil, Bool.not_true, Bool.false_eq_true, if_false]

end

/-- A message is marked aged and counted at a port of its route (R314). -/
theorem exec_reqAgeLimit {s : State} {t src : TileId} {line : LineAddr} {m : Msg} (h : reqOf s src.val line.toNat = some m) (up : engineUp s t.val = true)
    (hr : t.val ∈ (route s m.src m.dst).dropLast) : exec (.reqAgeLimit t src line) s = .next (addCnt (tileCnt t.val 479) 1
      { s with fab := { s.fab with req := s.fab.req.map (fun x => if x = m then { x with aged := true } else x) } }) := by
  change execReqAgeLimit t src line s = _
  unfold execReqAgeLimit
  simp only [h]
  rw [if_pos (by simpa [up] using hr)]
  rfl

/-- Settles O43: landing, the port's turn, the tie and the beginning of a request, each by its equation. -/
theorem requestsReachHome : Obligations.RequestsReachHome := by
  unfold Obligations.RequestsReachHome
  refine ⟨?lands, ?stays, ?outranked, ?turn, ?tied, fun s m => landReq_eq m s, fun s line w m => beginReq_sound, ?miss, ?aged⟩
  case lands =>
    intro s src line m p h hop may hp up
    have effect : exec p.2 s = .next (settle (driveLine m.line (reqArrive m (reqLeft m s)))) := by
      rw [exec_of_mem_reqCmds hp, onReq_alone h hop up may rfl, landReq_eq]
    refine ⟨fun taken => ?_, fun free empty => ?_⟩
    · rw [effect, reqArrive_queued (by simpa using taken), getLq_reqLeft]
      rfl
    · rw [effect, reqArrive_begins (by simpa using free) (by simpa using empty)]
      rfl
  case stays =>
    intro s src line tied m i h may hi
    obtain ⟨p, hp, rfl⟩ := List.mem_map.mp (show i ∈ (reqCmds src line tied).map Prod.snd from hi)
    rw [exec_of_mem_reqCmds hp, onReq_outOfTurn p.1 tied h may]
  case outranked =>
    intro s m x p hp hx
    refine ⟨fun ha hm => ?_, reqMay_of_higherPrio hp hx, fun ha hm => ?_⟩
    · rw [reqMay_of_any_aged hp ⟨x, hx, ha⟩, hm]
    · rw [reqMay_of_any_aged hp ⟨m, hm, ha⟩, ha]
  case turn =>
    intro s m p hp _ hm hall turn ht
    refine ⟨fun hcls hlt => ?_, fun hcls hlt hx => ?_⟩
    · rw [reqMay_of_turn hp hall ht ⟨m, hm, hcls.symm, rfl⟩ (hcls ▸ hlt), decide_eq_true hcls]
    · rw [reqMay_of_turn hp hall ht hx hlt, decide_eq_false hcls]
  case tied =>
    intro s src line tied m w others l p h hop may hp up ho hne horder
    subst ho
    rw [exec_of_mem_reqCmds hp, onReq_tied h hop up may hne horder]
  case miss => exact fun s line n w g m hd hq => ⟨beginReq_newEntry hd hq, beginReq_waits hd hq⟩
  case aged => exact fun s t src line m => exec_reqAgeLimit

end Sys2Proof.Machine
end

section
/-!
The home agent's own commands (O46): media data, the service of a line, a BISnp with no answer, the start of an eviction, and the sending of a request that
waited. Each has one equation per case.
-/
namespace Sys2Proof.Machine

/-! Media data (R95, R106, R178). -/

/-- Who the read of a transaction is for (R400). -/
def txnReader (k : Txn) : Reader :=
  match k.req with
  | some m => whoOf m.attr
  | none => {}

section
variable {s : State} {line : LineAddr} {r : Region} (flips : Flips) (shadow : ShadowFlips) (hr : regionAt s (64 * line.toNat) = some r)
  (up : engineUp s (homeOf s line.toNat) = true) (ht : r.typ ≠ .packed)
include hr up ht

/-- A line that no storage holds fails its request. -/
theorem exec_mediaReadData_lost (hl : (getTxn s line.toNat).live = true) (hm : (getTxn s line.toNat).media = true) (lost : lineLost s line.toNat = true) :
    exec (.mediaReadData line flips shadow) s = .next (settle (driveLine line.toNat (onTxn line.toNat
      (fun k => { k with media := false, metaWait := false, fail := !k.evict, spoil := false }) s))) := by
  change execMediaReadData line flips shadow s = _
  simp only [execMediaReadData, hr, up, ht, hl, hm, lost, Bool.not_true, Bool.or_self, Bool.false_eq_true, if_false, if_true]

theorem exec_mediaReadData_taken {x : Rec} {lost : Bool} {s1 : State} (hl : (getTxn s line.toNat).live = true) (hm : (getTxn s line.toNat).media = true)
    (held : lineLost s line.toNat = false) (own : readsOwn s line.toNat (getTxn s line.toNat) = true)
    (hx : takeLine line.toNat flips (txnReader (getTxn s line.toNat)) s = some (x, lost, s1)) :
    exec (.mediaReadData line flips shadow) s = .next (settle (driveLine line.toNat (takeMedia line.toNat r x lost shadow s1))) := by
  unfold txnReader at hx
  change execMediaReadData line flips shadow s = _
  simp only [execMediaReadData, hr, up, ht, hl, hm, held, own, Bool.not_true, Bool.or_self, Bool.false_eq_true, if_false, if_true]
  split
  · next h => exact absurd (hx.symm.trans h) (by simp)
  · next h =>
    obtain ⟨rfl, rfl, rfl⟩ : x = _ ∧ lost = _ ∧ s1 = _ := by simpa using hx.symm.trans h
    rfl

/-- Data that no read waits for is a protocol error. -/
theorem exec_mediaReadData_unasked (hk : (getTxn s line.toNat).live = false ∨ (getTxn s line.toNat).media = false) :
    exec (.mediaReadData line flips shadow) s = .next (settle (protoAt (homeOf s line.toNat) line.toNat (0xFF + 256 * homeOf s line.toNat) s)) := by
  have unasked : (!(getTxn s line.toNat).live || !(getTxn s line.toNat).media) = true := by rcases hk with hk | hk <;> simp [hk]
  change execMediaReadData line flips shadow s = _
  simp only [execMediaReadData, hr, up, ht, unasked, Bool.not_true, Bool.false_eq_true, if_false, if_true]

end

/-! The service of a line (R106, R122). -/

section
variable {s : State} {line : LineAddr} (up : engineUp s (homeOf s line.toNat) = true) (free : lineHeld s line.toNat = false)
include up free

/-- A write-back that must still wait keeps the requests waiting too. -/
theorem exec_lineQueueServe_parked (hw : Table.get [] (applyWbs line.toNat s).ha.wbuf line.toNat ≠ []) :
    exec (.lineQueueServe line) s = .next (applyWbs line.toNat s) := by
  change execLineQueueServe line s = _
  simp [execLineQueueServe, up, free, hw]

theorem exec_lineQueueServe_begins {m : Msg} {l : List Msg} (hw : Table.get [] (applyWbs line.toNat s).ha.wbuf line.toNat = [])
    (hq : getLq (applyWbs line.toNat s) line.toNat = m :: l) : exec (.lineQueueServe line) s =
      .next (settle (driveLine line.toNat (beginReq line.toNat m (setLq line.toNat l (applyWbs line.toNat s))))) := by
  change execLineQueueServe line s = _
  simp [execLineQueueServe, up, free, hw, hq]

theorem exec_lineQueueServe_empty (hw : Table.get [] (applyWbs line.toNat s).ha.wbuf line.toNat = [])
    (hq : getLq (applyWbs line.toNat s) line.toNat = []) :
    exec (.lineQueueServe line) s = .next (settle (driveLine line.toNat (applyWbs line.toNat s))) := by
  change execLineQueueServe line s = _
  simp [execLineQueueServe, up, free, hw, hq]

end

/-! A BISnp with no answer in time (R113). -/

theorem exec_bisnpTimeout {s : State} {line : LineAddr} {h : PortId} {b : Nat × BitVec 16 × BiKind × Bool} (up : engineUp s (homeOf s line.toNat) = true)
    (hb : (getTxn s line.toNat).bis.find? (fun b => b.1 = h.val) = some b) : exec (.bisnpTimeout line h) s =
      .next (settle (driveLine line.toNat (raiseTile (homeOf s line.toNat) .haBiTimeout h.val
        (biFailure h.val line.toNat (endBis line.toNat h.val b.2.1 .i b.2.2.2 s))))) := by
  change execBisnpTimeout line h s = _
  simp only [execBisnpTimeout, hb, up, Bool.not_true, Bool.false_eq_true, if_false]

/-! The start of an eviction (R117–R120). -/

/-- The entry must leave way 15, which is reserved, for a way of its own (R118). -/
def leavesWay15 (s : State) (line w : Nat) : Bool :=
  reservedWay s (homeOf s line) && decide (w = 15) && !(getDir s (homeOf s line) (dirSet s line) 15).guest

/-- The entry is the victim of a miss that waits, and not every such miss has one (R117). -/
def victimDue (s : State) (line w : Nat) : Prop :=
  victimWay s (homeOf s line) (dirSet s line) = some w ∧ waiters s (homeOf s line) (dirSet s line) ≠ [] ∧
    evictingWays s (homeOf s line) (dirSet s line) < (waiters s (homeOf s line) (dirSet s line)).length +
      b2n (reservedWay s (homeOf s line) && (getDir s (homeOf s line) (dirSet s line) 15).guest)

/-- The miss takes the way that its victim leaves: it found way 15 occupied (R118). -/
def claimsWay (s : State) (line w : Nat) : Bool :=
  !leavesWay15 s line w && reservedWay s (homeOf s line) && (getDir s (homeOf s line) (dirSet s line) 15).v

theorem exec_dirEvictionStart {s : State} {line : LineAddr} {w : Nat} (hw : dirWay s line.toNat = some w) (up : engineUp s (homeOf s line.toNat) = true)
    (free : (getTxn s line.toNat).live = false) (unheld : wayHeld s (homeOf s line.toNat) (dirSet s line.toNat) w = false)
    (room : (evictions s (homeOf s line.toNat)).length < 64) (full : emptyWay s (homeOf s line.toNat) (dirSet s line.toNat) = none)
    (due : victimDue s line.toNat w ∨ leavesWay15 s line.toNat w = true) : exec (.dirEvictionStart line) s = .next (settle (driveLine line.toNat
      (if claimsWay s line.toNat w then onTxn line.toNat (fun k => { k with claimed := true }) (beginEvict line.toNat s) else beginEvict line.toNat s))) := by
  change execDirEvictionStart line s = _
  unfold execDirEvictionStart
  simp only [hw, full, Option.isNone_none, Bool.and_true]
  refine if_neg ?_
  rcases due with ⟨hv, hq, hlt⟩ | h15
  · simp [up, free, unheld, room, hv, hq, hlt]
  · unfold leavesWay15 at h15
    simp [up, free, unheld, room, h15]

theorem beginEvict_sound {s : State} {line : Nat} (h : entryLost s line = false) : beginEvict line s = startEvict line false s := by
  rw [beginEvict, h, if_neg Bool.false_ne_true]

theorem beginEvict_lost {s : State} {line : Nat} (h : entryLost s line = true) : beginEvict line s = loseEntry line s := if_pos h

/-! Requests that waited are sent (R130, R312, R331). -/

theorem exec_deferredMissSend {s : State} {t : TileId} {line : LineAddr} (up : engineUp s t.val = true) (hl : (getTrk s t.val line.toNat).live = true)
    (hu : (getTrk s t.val line.toNat).unsent = true) :
    exec (.deferredMissSend t line) s = .next (settle (runLine t.val line.toNat (launch t.val line.toNat s))) := by
  change execDeferredMissSend t line s = _
  simp only [execDeferredMissSend, up, hl, hu, Bool.and_self, if_true]

section
variable {s s1 : State} {t line : Nat} {m : Msg} (hm : (getTrk s t line).req = some m)
include hm

theorem launch_cutOff (hc : cutOff s t m.dst = true) : launch t line s = failFront t line (freeTrkOf t line s) := by
  simp only [launch, hm, hc, if_true]

variable (hc : cutOff s t m.dst = false)
include hc

/-- No eviction buffer can be taken for the slot's victim. -/
theorem launch_noSlot (hs : readySlot t line (getTrk s t line) (setTrk t line { getTrk s t line with unsent := true } s) = none) :
    launch t line s = setTrk t line { getTrk s t line with unsent := true } s := by
  simp only [hm] at hs ⊢
  simp only [launch, hm, hc, hs, Bool.false_eq_true, if_false]

variable (hs : readySlot t line (getTrk s t line) (setTrk t line { getTrk s t line with unsent := true } s) = some s1)
include hs

theorem launch_reserve (hr : inReserve s1 m.dst m.attr.cls = true) : launch t line s = sendReq t line (getTrk s t line) m false s1 := by
  simp only [hm] at hs
  simp only [launch, hm, hc, hs, hr, Bool.false_eq_true, if_false, if_true]

/-- Beyond the reserve a tracker of the shared pool is taken, in the request's turn. -/
theorem launch_pool (hr : inReserve s1 m.dst m.attr.cls = false) : launch t line s =
    if homeRoom s1 m.dst m.attr.cls && itsTurn (setTrk t line { getTrk s t line with unsent := true } s) m.dst m.attr (getTrk s t line).seq then
      sendReq t line (getTrk s t line) m true (takeTurn (turnHead m.attr) m.dst s1)
    else s1 := by
  simp only [hm] at hs ⊢
  simp only [launch, hm, hc, hs, hr, Bool.false_eq_true, if_false]

end

theorem itsTurn_iff (s : State) (home seq : Nat) (a : Attr) :
    itsTurn s home a seq = true ↔ poolTurn s home = some (turnHead a) ∧ oldestPool s (turnHead a) home = some seq := by
  simp only [itsTurn, Bool.and_eq_true, decide_eq_true_eq]

/-- Settles O46: each clause is the equation of its command in its case. -/
theorem homeOwnCommands : Obligations.HomeOwnCommands := by
  unfold Obligations.HomeOwnCommands
  refine ⟨?media, fun s line r flips shadow => exec_mediaReadData_unasked flips shadow, ?serve, ?timeout, ?evict,
    fun s t line => exec_deferredMissSend, ?launch, itsTurn_iff⟩
  case media =>
    intro s line r flips shadow hr up hl hm ht
    exact ⟨exec_mediaReadData_lost flips shadow hr up ht hl hm, fun x lost s1 held own hx => exec_mediaReadData_taken flips shadow hr up ht hl hm held own hx⟩
  case serve =>
    intro s line up free s1 h1
    obtain rfl : s1 = applyWbs line.toNat s := h1
    exact ⟨exec_lineQueueServe_parked up free, fun hw => ⟨fun m l => exec_lineQueueServe_begins up free hw, exec_lineQueueServe_empty up free hw⟩⟩
  case timeout =>
    intro s line h tag k d up hb
    rw [exec_bisnpTimeout up hb]
    rfl
  case evict =>
    intro s line w hw up free unheld room full due s1 guest15 h15 hsound hlost
    have begun : beginEvict line.toNat s = s1 := by
      cases h : entryLost s line.toNat
      · rw [beginEvict_sound h, hsound h]
      · rw [beginEvict_lost h, hlost h]
        rfl
    have effect := exec_dirEvictionStart hw up free unheld room full (due.imp_right fun ⟨hr, hw15, hg⟩ => by simp [leavesWay15, hr, hw15, hg])
    rw [begun] at effect
    have claims : claimsWay s line.toNat w = (!guest15 && reservedWay s (homeOf s line.toNat) &&
        (getDir s (homeOf s line.toNat) (dirSet s line.toNat) 15).v) := by rw [h15]; rfl
    rw [effect, claims]
    refine ⟨fun h => ?_, fun hg hr hv => ?_⟩
    · rw [if_neg (by rcases h with h | h | h <;> simp [h])]
    · rw [if_pos (by simp [hg, hr, hv])]
  case launch =>
    rintro s _ t line _ m rfl hm rfl
    refine ⟨launch_cutOff hm, launch_noSlot hm, fun s1 hc hs => ⟨launch_reserve hm hc hs, fun hr hroom hturn => ?_, fun hr h => ?_⟩⟩
    · rw [launch_pool hm hc hs hr, if_pos (by rw [hroom, hturn, Bool.and_self])]
    · rw [launch_pool hm hc hs hr, if_neg (by rcases h with h | h <;> simp [h])]

end Sys2Proof.Machine
end

section
/-!
The DRAM commands (O48): the laws of a sub-channel's state, of a refresh and of the refreshes that Dusk pays, then one equation per command and case.
-/
namespace Sys2Proof.Table
variable {α : Type} {d : α} {t : Table α}

/-- A value other than the default is listed. -/
theorem mem_of_get_ne {k : Nat} (h : get d t k ≠ d) : (k, get d t k) ∈ t := by
  induction t with
  | nil => exact absurd rfl h
  | cons e t ih =>
    obtain ⟨i, v⟩ := e
    by_cases hi : i = k
    · simp [get, hi]
    · simp only [get, hi, if_false] at h ⊢
      exact List.mem_cons_of_mem _ (ih h)

theorem get_eq_default {k : Nat} (h : ∀ e ∈ t, e.1 ≠ k) : get d t k = d :=
  by_contra fun hk => h _ (mem_of_get_ne hk) rfl

theorem mapAll_cons [DecidableEq α] (f : Nat → α → α) (i : Nat) (v : α) (t : Table α) :
    mapAll d f ((i, v) :: t) = if f i v = d then mapAll d f t else (i, f i v) :: mapAll d f t := by
  by_cases h : f i v = d <;> simp [mapAll, h]

/-- A rewrite of every listed value reads key by key, where it keeps the default. -/
theorem get_mapAll [DecidableEq α] (w : wf d t = true) {f : Nat → α → α} {k : Nat} (hf : f k d = d) : get d (mapAll d f t) k = f k (get d t k) := by
  induction t with
  | nil => exact hf.symm
  | cons e t ih =>
    obtain ⟨i, v⟩ := e
    have tail := ih (wf_sublist (List.sublist_cons_self ..) w)
    rw [mapAll_cons]
    by_cases hi : i = k
    · subst hi
      have unlisted : get d t i = d := get_eq_default fun e he => (List.rel_of_pairwise_cons ((wf_iff d _).1 w).1 he).ne'
      by_cases hv : f i v = d
      · simp [get, hv, tail, unlisted, hf]
      · simp [get, hv]
    · by_cases hv : f i v = d <;> simp [get, hi, hv, tail]

end Sys2Proof.Table

namespace Sys2Proof.Machine

/-! The state of a sub-channel. -/

@[simp] theorem getSub_onSub_same (d : Nat) (f : SubCh → SubCh) (s : State) : getSub (onSub d f s) d = f (getSub s d) := Table.get_mod_same ..

theorem getSub_onSub_other {d i : Nat} (h : i ≠ d) (f : SubCh → SubCh) (s : State) : getSub (onSub d f s) i = getSub s i :=
  Table.get_mod_other _ _ _ _ _ h

/-- A rewrite of a sub-channel counts only by what it makes of the present state. -/
theorem onSub_congr {d : Nat} {f g : SubCh → SubCh} {s : State} (h : f (getSub s d) = g (getSub s d)) : onSub d f s = onSub d g s :=
  congrArg (fun c => onDram (fun x => { x with subs := Table.set {} x.subs d c }) s) h

/-! What a refresh changes (R160, R162). -/

theorem mem_closeRows_rank {rank : Nat} {rows : Table Nat} {e : Nat × Nat} : e ∈ closeRows rank none rows ↔ e ∈ rows ∧ e.1 / 32 ≠ rank := by
  simp [closeRows]

theorem mem_refAb_rows {rank : Nat} {c : SubCh} {e : Nat × Nat} : e ∈ (refAb rank c).rows ↔ e ∈ c.rows ∧ e.1 / 32 ≠ rank := mem_closeRows_rank

/-- A refresh takes the threshold off the counts of the banks it reaches (log 122). -/
theorem get_lowerActs {rank : Nat} {bank : Option Nat} {c : SubCh} (w : Table.wf 0 c.acts = true) (k : Nat) :
    Table.get 0 (lowerActs rank bank c).acts k = Table.get 0 c.acts k - (if k / 32 = rank ∧ ∀ b ∈ bank, k % 4 = b then c.raa else 0) := by
  simp only [lowerActs]
  rw [Table.get_mapAll w]
  · cases bank <;> simp [apply_ite (Table.get 0 c.acts k - ·)]
  · simp

theorem refAb_acts (rank : Nat) (c : SubCh) : (refAb rank c).acts = (lowerActs rank none c).acts := rfl

theorem refSb_acts (rank bank : Nat) (c : SubCh) : (refSb rank bank c).acts = (lowerActs rank (some bank) c).acts := by
  simp only [refSb]
  split <;> rfl

/-! The debt that Dusk pays (R165, R166). -/

/-- A sub-channel once the debt of its ranks is paid. -/
def paidSub (x : SubCh) : SubCh :=
  { x.debt.foldl (fun x e => (List.range e.2).foldl (fun x _ => refAb e.1 x) x) x with debt := [], flags := [] }

theorem payDebt_eq (t c : Nat) (s : State) : payDebt t c s = onSub (16 * t + 2 * c + 1) paidSub (onSub (16 * t + 2 * c) paidSub s) := rfl

theorem getSub_payDebt {t c d : Nat} (h : d = 16 * t + 2 * c ∨ d = 16 * t + 2 * c + 1) (s : State) : getSub (payDebt t c s) d = paidSub (getSub s d) := by
  rw [payDebt_eq]
  rcases h with rfl | rfl
  · rw [getSub_onSub_other (by omega), getSub_onSub_same]
  · rw [getSub_onSub_same, getSub_onSub_other (by omega)]

/-- Any number of refreshes of a rank opens no row, and one closes the rank's. -/
theorem mem_rows_of_refAb_iterate {rank n : Nat} {x : SubCh} {e : Nat × Nat} (he : e ∈ ((refAb rank)^[n] x).rows) :
    e ∈ x.rows ∧ (n ≠ 0 → e.1 / 32 ≠ rank) := by
  induction n with
  | zero => exact ⟨he, fun h => absurd rfl h⟩
  | succ n ih =>
    rw [Function.iterate_succ_apply'] at he
    obtain ⟨hn, hrank⟩ := mem_refAb_rows.1 he
    exact ⟨(ih hn).1, fun _ => hrank⟩

/-- The refreshes of a list of debts open no row, and close the rows of each rank that the list has owing. -/
theorem mem_rows_of_paid {l : Table Nat} {x : SubCh} {e : Nat × Nat}
    (he : e ∈ (l.foldl (fun x p => (List.range p.2).foldl (fun x _ => refAb p.1 x) x) x).rows) :
    e ∈ x.rows ∧ ∀ p ∈ l, p.2 ≠ 0 → e.1 / 32 ≠ p.1 := by
  induction l generalizing x with
  | nil => exact ⟨he, by simp⟩
  | cons p l ih =>
    obtain ⟨hx, hl⟩ := ih he
    have hiter : e ∈ ((refAb p.1)^[p.2] x).rows := by simpa only [List.foldl_const, List.length_range] using hx
    obtain ⟨hrows, hp⟩ := mem_rows_of_refAb_iterate hiter
    exact ⟨hrows, List.forall_mem_cons.2 ⟨hp, hl⟩⟩

/-- A row still open after the payment belongs to a rank that owed nothing. -/
theorem mem_rows_paidSub {x : SubCh} {e : Nat × Nat} (he : e ∈ (paidSub x).rows) : e ∈ x.rows ∧ Table.get 0 x.debt (e.1 / 32) = 0 := by
  obtain ⟨hrows, hpaid⟩ := mem_rows_of_paid he
  exact ⟨hrows, by_contra fun owed => hpaid _ (Table.mem_of_get_ne owed) owed rfl⟩

/-! Refresh (R159–R162). -/

section
variable {s : State} {d : SubId}

theorem exec_refreshInterval_awake (half : Bool) (up : subUp s d.val = true) (awake : inDusk s d.val = false) :
    exec (.refreshInterval d half) s = .next (onSub d.val (fun c => { c with
      debt := (dueRanks s d.val half).foldl (fun t r => Table.mod 0 t r (fun v => satAdd v 1 (postponeMax s (d.val / 16)))) c.debt }) s) := by
  change execRefreshInterval d half s = _
  simp [execRefreshInterval, up, awake]

theorem exec_refreshInterval_dusk (half : Bool) (dusk : inDusk s d.val = true) : exec (.refreshInterval d half) s = .next s := by
  change execRefreshInterval d half s = _
  simp [execRefreshInterval, dusk]

section
variable {rank : RankId} (awake : subAwake s d.val = true) (hrank : rank.val < ranksIn s d.val)
include awake hrank

theorem exec_idleRefresh_rank (bank : Fin 4) (owes : Table.get 0 (getSub s d.val).debt rank.val ≠ 0) (mode : sameBank s (d.val / 16) = false)
    (idle : queuedTo s d.val rank.val none = false) : exec (.idleRefresh d rank bank) s = .next (onSub d.val (refAb rank.val) s) := by
  change execIdleRefresh d rank bank s = _
  simp [execIdleRefresh, awake, hrank, owes, mode, idle]

/-- In same-bank mode the lowest bank index takes it whose flag is clear and that no request waits for. -/
theorem exec_idleRefresh_bank {bank : Fin 4} (owes : Table.get 0 (getSub s d.val).debt rank.val ≠ 0) (mode : sameBank s (d.val / 16) = true)
    (clear : (Table.get 0#4 (getSub s d.val).flags rank.val).getLsbD bank.val = false) (idle : queuedTo s d.val rank.val (some bank.val) = false)
    (lowest : ∀ b < bank.val, (Table.get 0#4 (getSub s d.val).flags rank.val).getLsbD b = false → queuedTo s d.val rank.val (some b) = true) :
    exec (.idleRefresh d rank bank) s = .next (onSub d.val (refSb rank.val bank.val) s) := by
  change execIdleRefresh d rank bank s = _
  rw [BitVec.getLsbD_eq_getElem bank.isLt] at clear
  simpa [execIdleRefresh, awake, Nat.not_le_of_lt hrank, owes, mode, clear, idle] using
    fun b hb hclear hidle => absurd (lowest b hb hclear) (by simp [hidle])

/-- At the deadline FORCED is set, and the refresh goes by the mode and the flags of the rank: the banks not yet refreshed, else the whole rank. -/
theorem exec_refreshDeadline (due : postponeMax s (d.val / 16) ≤ Table.get 0 (getSub s d.val).debt rank.val) :
    exec (.refreshDeadline d rank) s = .next (
      let forced := raiseBit .drRefSts d.val 9 (addCnt (subCnt d.val 5) 1 s)
      if sameBank s (d.val / 16) = true then
        if Table.get 0#4 (getSub s d.val).flags rank.val = 0#4 then onSub d.val (refAb rank.val) (raiseBit .drRefSts d.val 8 forced)
        else onSub d.val (fun c => (List.range 4).foldl (fun c b =>
          if (Table.get 0#4 (getSub s d.val).flags rank.val).getLsbD b then c else refSb rank.val b c) c) forced
      else onSub d.val (refAb rank.val) forced) := by
  change execRefreshDeadline d rank s = _
  have reached : (!subAwake s d.val || decide (ranksIn s d.val ≤ rank.val) ||
      decide (Table.get 0 (getSub s d.val).debt rank.val < postponeMax s (d.val / 16))) = false := by simp [awake, hrank, due]
  simp only [execRefreshDeadline, reached]
  by_cases mode : sameBank s (d.val / 16) = true
  · by_cases clear : Table.get 0#4 (getSub s d.val).flags rank.val = 0#4 <;> simp [mode, clear]
  · simp [mode]

/-- The rank is marked where it asks for twice the rate or is beyond its range, and beyond it DR_OVERTEMP is raised. -/
theorem exec_mr4Read (twice beyond : Bool) : exec (.mr4Read d rank twice beyond) s = .next (
    let marked := onSub d.val (fun c => { c with high := setBit c.high rank.val (twice || beyond) }) s
    if beyond then raiseTile (d.val / 16) .drOvertemp (d.val + 65536 * rank.val) marked else marked) := by
  change execMr4Read d rank twice beyond s = _
  simp [execMr4Read, awake, hrank]

end

/-! Closed rows, RFM and aged requests (R155, R157, R158). -/

theorem exec_closeIdlePrecharge (awake : subAwake s d.val = true) (rank : RankId) (bg : Fin 8) (bank : Fin 4) :
    exec (.closeIdlePrecharge d rank bg bank) s =
      .next (onSub d.val (fun c => { c with rows := Table.drop c.rows (bankKey rank.val bg.val bank.val) }) s) := by
  change execCloseIdlePrecharge d rank bg bank s = _
  simp [execCloseIdlePrecharge, awake]

theorem rfmAt_of_threshold {d : Nat} (h : (getSub s d).raa ≠ 0) : rfmAt s d = some (getSub s d).raa := if_neg h

/-- An RFM of a bank of a sub-channel that has a threshold. -/
theorem rfmBank_of_threshold {d : Nat} (h : (getSub s d).raa ≠ 0) (k : Nat) :
    rfmBank d k s = addCnt (subCnt d 7) 1 (onSub d (fun c => { c with
      rows := Table.drop c.rows k, acts := Table.mod 0 c.acts k (· - (getSub s d).raa), rfm := c.rfm.erase k }) s) := by
  rw [rfmBank, rfmAt_of_threshold h, Option.getD_some]

section
variable {rank : RankId} {bg : Fin 8} {bank : Fin 4} (up : subUp s d.val = true) (hrank : rank.val < ranksIn s d.val)
  (hraa : (getSub s d.val).raa ≠ 0) (hdue : (getSub s d.val).raa ≤ Table.get 0 (getSub s d.val).acts (bankKey rank.val bg.val bank.val))
include up hrank hraa hdue

theorem exec_rfmThreshold_awake (awake : subAwake s d.val = true) :
    exec (.rfmThreshold d rank bg bank) s = .next (rfmBank d.val (bankKey rank.val bg.val bank.val) s) := by
  change execRfmThreshold d rank bg bank s = _
  simp [execRfmThreshold, up, hrank, rfmDue, rfmAt_of_threshold hraa, hdue, awake]

theorem exec_rfmThreshold_owed (asleep : subAwake s d.val = false) (fresh : bankKey rank.val bg.val bank.val ∉ (getSub s d.val).rfm) :
    exec (.rfmThreshold d rank bg bank) s =
      .next (onSub d.val (fun c => { c with rfm := (getSub s d.val).rfm ++ [bankKey rank.val bg.val bank.val] }) s) := by
  change execRfmThreshold d rank bg bank s = _
  simp only [execRfmThreshold, up, rfmDue, rfmAt_of_threshold hraa, hdue, asleep, Nat.not_le_of_lt hrank, decide_true, decide_false, Bool.not_true,
    Bool.not_false, Bool.or_self, Bool.false_eq_true, if_true, if_false]
  refine congrArg Host.Outcome.next (onSub_congr ?_)
  simp [fresh]

end

theorem exec_ageLimit_read (awake : subAwake s d.val = true) {q : DrReq} {l : List DrReq} (h : (getSub s d.val).rq = q :: l) :
    exec (.ageLimit d true) s = .next (onSub d.val (fun c => { c with rq := { q with first := true } :: l, writing := false }) s) := by
  change execAgeLimit d true s = _
  simp only [execAgeLimit, awake, h, List.isEmpty_cons]
  exact congrArg Host.Outcome.next (onSub_congr (by simp [h, ageFirst]))

theorem exec_ageLimit_write (awake : subAwake s d.val = true) {q : DrReq} {l : List DrReq} (h : (getSub s d.val).wq = q :: l) :
    exec (.ageLimit d false) s = .next (drainTo d.val (min (wqLow s (d.val / 16)) l.length)
      (onSub d.val (fun c => { c with wq := { q with first := true } :: l }) s)) := by
  change execAgeLimit d false s = _
  simp only [execAgeLimit, awake, h, List.isEmpty_cons, List.length_cons, Nat.add_sub_cancel]
  exact congrArg (fun x => Host.Outcome.next (drainTo d.val (min (wqLow s (d.val / 16)) l.length) x)) (onSub_congr (by simp [h, ageFirst]))

/-! Scrub (R172, R173). -/

section
variable (flips : Flips) (run : walkersRun s (d.val / 16) = true) (st : (getSub s d.val).st = .service) (trn : (getSub s d.val).trn = none)
  (rate : regFld s .drScrubCfg (d.val / 16) 19 0 ≠ 0)
include run st trn rate

theorem exec_scrubTick_dusk (dusk : inDusk s d.val = true) :
    exec (.scrubTick d flips) s = .next (onSub d.val (fun c => { c with lag := c.lag + 1 }) s) := by
  change execScrubTick d flips s = _
  simp [execScrubTick, run, st, trn, rate, dusk]

theorem exec_scrubTick_awake (awake : inDusk s d.val = false) :
    exec (.scrubTick d flips) s = .next (onSub d.val (fun c =>
      { c with scrub := (if subLines s d.val ≤ c.scrub + 1 then 0 else c.scrub + 1), lag := c.lag - 1, behind := c.behind && decide (1 < c.lag),
               passes := (if subLines s d.val ≤ c.scrub + 1 then satAdd c.passes 1 32767 else c.passes) })
        (scrubLine d.val (scrubF s d.val (getSub s d.val).scrub) flips (drServeAll d.val s))) := by
  change execScrubTick d flips s = _
  simp [execScrubTick, run, st, trn, rate, awake]

end
end

/-! Dusk (R164–R166, R173). -/

section
variable {s : State} {t : TileId} {c : DimmId}

theorem exec_duskIdle (run : tileRuns s t.val = true) (on : bit (regRaw s .drDuskCfg t.val) 0 = true) (free : s.qos.duskOff = false)
    (awake : (getDimm s t.val c.val).dusk = .awake) (unheld : channelBusy s t.val c.val = false)
    (idle : ∀ d, d = 16 * t.val + 2 * c.val ∨ d = 16 * t.val + 2 * c.val + 1 → (getSub s d).st = .service ∧ (getSub s d).wq = [] ∧
      (getSub s d).rq = [] ∧ (getSub s d).trn = none ∧ rfmOwed s d = false) :
    exec (.duskIdle t c) s = .next (onDimm t.val c.val (fun x =>
      { x with dusk := .entering, abandon := false, leave := false, since := s.time.now, pay := payTime s t.val c.val }) s) := by
  change execDuskIdle t c s = _
  obtain ⟨st0, wq0, rq0, trn0, rfm0⟩ := idle _ (.inl rfl)
  obtain ⟨st1, wq1, rq1, trn1, rfm1⟩ := idle _ (.inr rfl)
  simp [execDuskIdle, run, on, free, awake, unheld, subUp, st0, wq0, rq0, trn0, rfm0, st1, wq1, rq1, trn1, rfm1]

theorem exec_duskEntryDone_asleep (entering : (getDimm s t.val c.val).dusk = .entering) (kept : (getDimm s t.val c.val).abandon = false) :
    exec (.duskEntryDone t c) s = .next (raiseBit .drDuskSts t.val (8 + c.val)
      (onSub (16 * t.val + 2 * c.val + 1) (fun y => { y with rows := [] }) (onSub (16 * t.val + 2 * c.val) (fun y => { y with rows := [] })
        (onDimm t.val c.val (fun y => { y with dusk := if (getDimm s t.val c.val).leave then .waking else .asleep, leave := false })
          (payDebt t.val c.val s))))) := by
  change execDuskEntryDone t c s = _
  simp [execDuskEntryDone, entering, kept]

theorem exec_duskEntryDone_abandoned (entering : (getDimm s t.val c.val).dusk = .entering) (abandoned : (getDimm s t.val c.val).abandon = true) :
    exec (.duskEntryDone t c) s = .next (turn (16 * t.val + 2 * c.val + 1) (issueHeld (16 * t.val + 2 * c.val + 1)
      (turn (16 * t.val + 2 * c.val) (issueHeld (16 * t.val + 2 * c.val)
        (onDimm t.val c.val (fun y => { y with dusk := .awake, abandon := false }) (payDebt t.val c.val s)))))) := by
  change execDuskEntryDone t c s = _
  simp [execDuskEntryDone, entering, abandoned]

/-- A sub-channel is back from Dusk: the RFMs owed go first, then the requests held. -/
def leaveDusk (i : Nat) (s : State) : State :=
  turn i (issueHeld i ((getSub s i).rfm.foldl (fun s k => rfmBank i k s) (onSub i (fun y => { y with behind := decide (0 < y.lag) }) s)))

theorem exec_duskExitDone (waking : (getDimm s t.val c.val).dusk = .waking) :
    exec (.duskExitDone t c) s = .next (leaveDusk (16 * t.val + 2 * c.val + 1) (leaveDusk (16 * t.val + 2 * c.val)
      (payDebt t.val c.val (onDimm t.val c.val (fun y => { y with dusk := .awake }) s)))) := by
  change execDuskExitDone t c s = _
  simp [execDuskExitDone, waking, leaveDusk]

theorem exec_scrubCatchUpWake (asleep : (getDimm s t.val c.val).dusk = .asleep)
    (late : subLines s (16 * t.val + 2 * c.val) < 2 * (getSub s (16 * t.val + 2 * c.val)).lag ∨
      subLines s (16 * t.val + 2 * c.val + 1) < 2 * (getSub s (16 * t.val + 2 * c.val + 1)).lag) :
    exec (.scrubCatchUpWake t c) s = .next (wake (16 * t.val + 2 * c.val) s) := by
  change execScrubCatchUpWake t c s = _
  simp [execScrubCatchUpWake, asleep, late]

/-! The PMIC poll and the PHY lock (R151, R178). -/

theorem exec_pmicPoll_faulty (lock : s.dawn.runLock = true) (polled : (getDimm s t.val c.val).pmic = true) :
    exec (.pmicPoll t c true) s = .next (loseChannel t.val c.val .pmic 5 s) := by
  change execPmicPoll t c true s = _
  simp [execPmicPoll, lock, polled]

theorem exec_pmicPoll_sound : exec (.pmicPoll t c false) s = .next s := rfl

theorem exec_phyLockLost (up : subUp s (16 * t.val + 2 * c.val) = true) :
    exec (.phyLockLost t c) s = .next (onDimm t.val c.val (fun x => { x with unlocked := true }) s) := by
  change execPhyLockLost t c s = _
  rw [execPhyLockLost, if_pos up]

theorem exec_phyLockTimeout (lost : (getDimm s t.val c.val).unlocked = true) :
    exec (.phyLockTimeout t c) s = .next (loseChannel t.val c.val .phy 6 (onDimm t.val c.val (fun x => { x with unlocked := false }) s)) := by
  change execPhyLockTimeout t c s = _
  rw [execPhyLockTimeout, if_pos lost]

end

/-- Settles O48: each clause is the equation of its command in its case, and a refresh and the payment of debt go by their laws. -/
theorem dramCommands : Obligations.DramCommands := by
  unfold Obligations.DramCommands
  refine ⟨fun s d half => ⟨exec_refreshInterval_awake half, exec_refreshInterval_dusk half⟩, ?refresh, ?refAb, ?rows, ?aged, ?channel,
    fun s d flips => exec_scrubTick_dusk flips, fun s d flips => exec_scrubTick_awake flips⟩
  case refresh =>
    intro s d rank awake hrank
    have deadline := exec_refreshDeadline awake hrank
    refine ⟨exec_idleRefresh_rank awake hrank, fun owes mode clear idle => ?_, fun due mode => ?_, fun due mode clear => ?_,
      fun due mode flagged => ?_, exec_mr4Read awake hrank true false, exec_mr4Read awake hrank false false, fun twice => ?_⟩
    · exact exec_idleRefresh_bank awake hrank owes mode clear idle (by simp)
    · simp [deadline due, mode]
    · simp [deadline due, mode, clear]
    · simp [deadline due, mode, flagged]
    · simp [exec_mr4Read awake hrank]
  case refAb =>
    intro rank c
    refine ⟨rfl, rfl, fun e he => (mem_refAb_rows.1 he).2, fun w k => ?_, fun b w k => ?_, rfl, rfl, rfl⟩
    · simp [refAb_acts, get_lowerActs w]
    · simp [refSb_acts, get_lowerActs w]
  case rows =>
    intro s d rank bg bank
    refine ⟨fun awake => exec_closeIdlePrecharge awake rank bg bank, ?_⟩
    rintro up hrank _ rfl hraa hdue
    refine ⟨fun awake => ?_, exec_rfmThreshold_owed up hrank hraa hdue⟩
    rw [exec_rfmThreshold_awake up hrank hraa hdue awake, rfmBank_of_threshold hraa]
  case aged => exact fun s d awake => ⟨fun q l => exec_ageLimit_read awake, fun q l => exec_ageLimit_write awake⟩
  case channel =>
    intro s t c
    refine ⟨exec_duskIdle, ?_, fun late asleep => exec_scrubCatchUpWake asleep late, ⟨exec_pmicPoll_faulty, exec_pmicPoll_sound⟩, exec_phyLockLost,
      exec_phyLockTimeout⟩
    rintro _ _ rfl rfl
    refine ⟨fun d hd => ?_, exec_duskEntryDone_asleep, exec_duskEntryDone_abandoned, fun up hup waking => ?_⟩
    · rw [getSub_payDebt hd]
      exact ⟨rfl, rfl, fun e => mem_rows_paidSub⟩
    · obtain rfl : up = leaveDusk := funext fun i => funext (hup i)
      exact exec_duskExitDone waking

end Sys2Proof.Machine
end

section
/-!
The transport of the N-links (O50): what a flit does by its form, TYPE and FSEQ (R189, R191), a link's replay and retrain (R191, R192), and its
training (R187, R188), one equation per command and case.
-/
namespace Sys2Proof.Machine

@[simp] theorem getLink_onNl_same (n : Nat) (f : NLink → NLink) (s : State) : getLink (onNl n f s) n = f (getLink s n) := Table.get_mod_same ..

/-! A flit arrives (R189, R191). -/

/-- The flit has a wrong length, CRC or TYPE: R191 has it handled as a CRC failure. -/
def flitBad (typ : Nat) (flit : Bytes) : Prop :=
  flit.length ≠ 256 ∨ leAt flit 252 4 ≠ (crc32 (slice flit 0 252)).toNat ∨ leAt flit 0 2 / 4096 ≠ typ

/-- What the acknowledgement of a good flit, where it carries one, leaves. -/
def flitAcked (n : Nat) (flit : Bytes) (s : State) : State :=
  if leAt flit 2 2 / 4096 % 2 = 1 then onNl n (nlAck (leAt flit 2 2 % 4096)) s else s

/-- The receiver takes in the payload of the flit it expected next. -/
def flitTaken (flit : Bytes) (l : NLink) : NLink :=
  nlParse 64 { l with rx := l.rx ++ slice flit 4 248, rxSeq := (l.rxSeq + 1) % 4096, rxAny := true, naked := false }

section
variable {s : State} {n : Nat} {flit : Bytes} (up : nlUp (getLink s n) = true)
include up

theorem recvFlit_bad {typ : Nat} (bad : flitBad typ flit) : recvFlit n typ flit s = onNl n nlBad s := by
  unfold flitBad at bad
  simp only [recvFlit, up, Bool.not_true, Bool.false_eq_true, if_false, if_pos bad]

/-- On a link that is up, a good flit's acknowledgement is taken first, and its TYPE decides what follows. -/
theorem recvFlit_good {typ : Nat} (good : ¬ flitBad typ flit) : recvFlit n typ flit s =
    if typ = 1 then if leAt flit 0 2 % 4096 = (getLink s n).rxSeq then onNl n (fun l => nlIdle (flitTaken flit l)) (flitAcked n flit s) else flitAcked n flit s
    else if typ = 2 then nlReplay n (flitAcked n flit s) else flitAcked n flit s := by
  unfold flitBad at good
  simp only [recvFlit, up, Bool.not_true, Bool.false_eq_true, if_false, if_neg good]
  rfl

end

section
variable {s : State} {n : LinkId} {flit : Bytes} (up : nlUp (getLink s n.val) = true)
include up

theorem exec_nlinkIdleFlit_bad (bad : flitBad 0 flit) : exec (.nlinkIdleFlit n flit) s = .next (onNl n.val nlBad s) :=
  congrArg _ (recvFlit_bad up bad)

theorem exec_nlinkPayloadFlit_bad (bad : flitBad 1 flit) : exec (.nlinkPayloadFlit n flit) s = .next (onNl n.val nlBad s) :=
  congrArg _ (recvFlit_bad up bad)

theorem exec_nlinkNakFlit_bad (bad : flitBad 2 flit) : exec (.nlinkNakFlit n flit) s = .next (onNl n.val nlBad s) :=
  congrArg _ (recvFlit_bad up bad)

theorem exec_nlinkIdleFlit_good (good : ¬ flitBad 0 flit) : exec (.nlinkIdleFlit n flit) s = .next (flitAcked n.val flit s) :=
  congrArg _ (recvFlit_good up good)

theorem exec_nlinkPayloadFlit_inSequence (good : ¬ flitBad 1 flit) (seq : leAt flit 0 2 % 4096 = (getLink s n.val).rxSeq) :
    exec (.nlinkPayloadFlit n flit) s = .next (onNl n.val (fun l => nlIdle (flitTaken flit l)) (flitAcked n.val flit s)) :=
  congrArg _ ((recvFlit_good up good).trans (if_pos seq))

theorem exec_nlinkPayloadFlit_outOfSequence (good : ¬ flitBad 1 flit) (seq : leAt flit 0 2 % 4096 ≠ (getLink s n.val).rxSeq) :
    exec (.nlinkPayloadFlit n flit) s = .next (flitAcked n.val flit s) :=
  congrArg _ ((recvFlit_good up good).trans (if_neg seq))

theorem exec_nlinkNakFlit_good (good : ¬ flitBad 2 flit) : exec (.nlinkNakFlit n flit) s = .next (nlReplay n.val (flitAcked n.val flit s)) :=
  congrArg _ (recvFlit_good up good)

theorem exec_nlinkAckTimeout (unacked : (getLink s n.val).replay ≠ []) : exec (.nlinkAckTimeout n) s = .next (nlReplay n.val s) := by
  change execNlinkAckTimeout n s = _
  simp [execNlinkAckTimeout, up, unacked]

end

/-! Retrains (R191, R192). -/

section
variable {s : State} {n : LinkId}

theorem exec_nlinkReplayLimit (active : (getLink s n.val).st = .active) (stuck : 8 ≤ (getLink s n.val).replays) : exec (.nlinkReplayLimit n) s =
    .next (onNl n.val (fun l => { l with st := .retraining, retrains := satAdd l.retrains 1 255, retrainAt := (s.time.now :: l.retrainAt).take 3 }) s) := by
  change execNlinkReplayLimit n s = _
  rw [execNlinkReplayLimit, if_pos ⟨.inl active, stuck⟩]

/-- The latest retrain is the third within 1 s (R192). -/
def thirdRetrain (s : State) (n : Nat) : Prop :=
  (getLink s n).retrainAt.length = 3 ∧ s.time.now - (getLink s n).retrainAt.getLastD 0 < 1000000

variable (retraining : (getLink s n.val).st = .retraining)
include retraining

theorem exec_nlinkRetrainDone_failed : exec (.nlinkRetrainDone n false) s = .next (nlDown n.val .retry 2 s) := by
  change execNlinkRetrainDone n false s = _
  simp [execNlinkRetrainDone, retraining]

theorem exec_nlinkRetrainDone_third (third : thirdRetrain s n.val) : exec (.nlinkRetrainDone n true) s = .next (nlDown n.val .retry 2 s) := by
  unfold thirdRetrain at third
  change execNlinkRetrainDone n true s = _
  simp only [execNlinkRetrainDone, retraining, ne_eq, not_true, if_false, Bool.not_true, Bool.false_or, Bool.and_eq_true, decide_eq_true_eq, if_pos third]

theorem exec_nlinkRetrainDone_back (rare : ¬ thirdRetrain s n.val) : exec (.nlinkRetrainDone n true) s = .next (onNl n.val (fun l => nlPump 33 { l with replays := 0 })
    (nlReplay n.val (onNl n.val (fun l => { l with st := backState s n.val }) s))) := by
  unfold thirdRetrain at rare
  change execNlinkRetrainDone n true s = _
  simp only [execNlinkRetrainDone, retraining, ne_eq, not_true, if_false, Bool.not_true, Bool.false_or, Bool.and_eq_true, decide_eq_true_eq, if_neg rare]

end

/-! Training (R179, R187, R188). -/

/-- At Dawn 4 each link not populated so far on which packages are found begins to train, and is asked for their status. -/
theorem exec_nlinkTrainingStart {s : State} {t : TileId} (found : List (LinkId × Fin 3)) (firmware : firmwareRuns s t.val = true) (day : midnight s = false)
    (rails : s.sv.nvmRails.getLsbD t.val = true) (released : blockUp s t.val 4 = true) (dawn4 : s.dawn.stage = 4) (normal : s.dawn.recovery = false) :
    exec (.nlinkTrainingStart t found) s = .next ((List.range 40).foldl (fun s l =>
      if (getLink s (40 * t.val + l)).st = .absent ∧ 0 < foundOn found (40 * t.val + l) then askStatus (40 * t.val + l) (foundOn found (40 * t.val + l))
        (onNl (40 * t.val + l) (fun x => { x with st := .training, found := foundOn found (40 * t.val + l) }) s) else s) s) := by
  change execNlinkTrainingStart t found s = _
  simp [execNlinkTrainingStart, firmware, day, rails, released, dawn4, normal]

section
variable {s : State} {n : LinkId} (training : (getLink s n.val).st = .training)
include training

/-- A late step takes the link out; from step 6 on its packages have been counted. -/
theorem exec_nlinkTrainStepTimeout (step : Fin 8) : exec (.nlinkTrainStepTimeout n step) s = .next (raiseTile (n.val / 40) .nlTrainFail n.val (onNl n.val
    (fun l => { l with pkgs := if 5 < step.val then l.found else l.pkgs, st := .out, reason := .training, reqs := [], wait := [], replay := [], txq := [], rx := [], inbox := [] }) s)) := by
  change execNlinkTrainStepTimeout n step s = _
  by_cases counted : 5 < step.val <;> simp [execNlinkTrainStepTimeout, training, counted, pkgsSeen]

theorem exec_nlinkTrainingDone_active (known : packagesKnown s n.val = true) (place : n.val % 40 < 36) : exec (.nlinkTrainingDone n) s =
    .next (loadWear n.val (onNl n.val (fun x => { x with st := .active, pkgs := x.found, pos := n.val % 40 % 9, grp := n.val % 40 / 9 }) s)) := by
  change execNlinkTrainingDone n s = _
  simp [execNlinkTrainingDone, training, known, place]

theorem exec_nlinkTrainingDone_spare (known : packagesKnown s n.val = true) (place : 36 ≤ n.val % 40) : exec (.nlinkTrainingDone n) s =
    .next (loadWear n.val (onNl n.val (fun x => { x with st := .spare, pkgs := x.found, pos := 15, grp := 0 }) s)) := by
  change execNlinkTrainingDone n s = _
  simp [execNlinkTrainingDone, training, known, place.not_gt]

end

theorem exec_nlinkTrainingDone_unknown {s : State} {n : LinkId} (unknown : packagesKnown s n.val = false) : exec (.nlinkTrainingDone n) s = .next s := by
  change execNlinkTrainingDone n s = _
  simp [execNlinkTrainingDone, unknown]

/-- Settles O50: a flit by its form and its FSEQ, then each command of the link by its law. -/
theorem linkTransport : Obligations.LinkTransport := by
  unfold Obligations.LinkTransport
  refine ⟨?flit, fun _ => rfl, fun _ _ _ _ => rfl, fun _ _ => rfl, fun s n up => exec_nlinkAckTimeout up, fun s n => exec_nlinkReplayLimit, ?retrain,
    fun s t found => exec_nlinkTrainingStart found, ?train⟩
  case flit =>
    rintro s n flit up _ bad rfl hbad
    obtain rfl : bad = fun typ => flitBad typ flit := funext fun typ => propext (hbad typ)
    exact ⟨exec_nlinkIdleFlit_bad up, exec_nlinkPayloadFlit_bad up, exec_nlinkNakFlit_bad up, exec_nlinkIdleFlit_good up, exec_nlinkPayloadFlit_inSequence up,
      exec_nlinkPayloadFlit_outOfSequence up, exec_nlinkNakFlit_good up⟩
  case retrain =>
    intro s n retraining
    refine ⟨exec_nlinkRetrainDone_failed retraining, fun rare => exec_nlinkRetrainDone_back retraining ?_,
      fun three soon => exec_nlinkRetrainDone_third retraining ⟨three, soon⟩⟩
    rintro ⟨three, soon⟩
    exact rare.elim (· three) soon.not_ge
  case train =>
    intro s n training
    exact ⟨exec_nlinkTrainStepTimeout training, fun known => ⟨exec_nlinkTrainingDone_active training known, exec_nlinkTrainingDone_spare training known⟩,
      exec_nlinkTrainingDone_unknown⟩

end Sys2Proof.Machine
end

section
/-!
The responses of NVM packages (O51): what a STATUS leaves (R190), what a chunk that has been read comes to (R193, R206), then each response that a command
awaits, by its STATUS.
-/
namespace Sys2Proof.Machine

/-! STATUS (R190). -/

theorem statusOk_success {n : Nat} {m : NMsg} (prog : Bool) (s : State) (h : m.status = 0) : statusOk n m prog s = (true, s) := if_pos (.inl h)

/-- A verify failure stands as the answer of a program. -/
theorem statusOk_verify {n : Nat} {m : NMsg} (s : State) (h : m.status = 1) : statusOk n m true s = (true, s) := if_pos (.inr ⟨h, rfl⟩)

theorem statusOk_fatal {n : Nat} {m : NMsg} (prog : Bool) (s : State) (h : m.status = 2) :
    statusOk n m prog s = (false, raiseTile (n / 40) .nlProto (n + 65536 * 2) s) := by
  simp [statusOk, h]

theorem statusOk_package {n : Nat} {m : NMsg} (prog : Bool) (s : State) (h : 3 ≤ m.status) : statusOk n m prog s = (false, nlDown n .package 3 s) := by
  rw [statusOk, if_neg (by omega), if_neg (by omega)]

/-! A chunk read (R193, R205, R206). -/

theorem countLate_data {n g f i : Nat} {q : NReq} {s : State} (h : q.use = .data g f i) :
    countLate n q s = if q.since + 2 ≤ s.time.now then addCnt (linkCnt n 2) 1 s else s := by
  simp only [countLate, h]

/-- Only the read of a reader can be late. -/
theorem countLate_other {n : Nat} {q : NReq} {s : State} (h : ∀ g f i, q.use ≠ .data g f i) : countLate n q s = s := by
  unfold countLate
  split
  · exact absurd ‹_› (h _ _ _)
  · rfl

section
variable {n : Nat} {q : NReq} {m : NMsg} {s : State} {b : Bytes} {k : Nat}

theorem chunkRead_few (h : k ≤ refreshCe s (n / 40)) : chunkRead n q m (some (b, k)) s = deliver q n (n / 40) b (countBits n k s) :=
  congrArg (deliver q n (n / 40) b) (if_neg h.not_gt)

/-- A chunk with more corrected bits than REFRESH_CE marks its block. -/
theorem chunkRead_many (h : refreshCe s (n / 40) < k) :
    chunkRead n q m (some (b, k)) s = deliver q n (n / 40) b (markDue n q.pkg (q.chunk / 256) (countBits n k s)) :=
  congrArg (deliver q n (n / 40) b) (if_pos h)

end

/-! The responses. -/

section
variable {s : State} {n : LinkId}

/-- A response that packages send, by its opcode (R190). -/
def IsResponse (p : Nat × (LinkId → Instr)) : Prop := p = (0x21, .rdd) ∨ p = (0x22, .pgc) ∨ p = (0x23, .mrdd) ∨ p = (0x24, .mpgc) ∨ p = (0x25, .str)

/-- A response that no command awaits is passed over. -/
theorem exec_response_unawaited {p : Nat × (LinkId → Instr)} (hp : IsResponse p) (unawaited : takeRsp n.val p.1 s = none) : exec (p.2 n) s = .next s := by
  obtain rfl | rfl | rfl | rfl | rfl := hp
  · change execRdd n s = _
    simp only [execRdd, unawaited]
  · change execPgc n s = _
    simp only [execPgc, unawaited]
  · change execMrdd n s = _
    simp only [execMrdd, unawaited]
  · change execMpgc n s = _
    simp only [execMpgc, unawaited]
  · change execStr n s = _
    simp only [execStr, unawaited]

variable {s1 : State} {m : NMsg} {q : NReq}

section
variable (rsp : takeRsp n.val 0x21 s = some (m, q, s1))
include rsp

theorem exec_rdd_success (ok : m.status = 0) : exec (.rdd n) s = .next (settleLocal (chunkRead n.val q m (bchDecode m.body) (countLate n.val q s1))) := by
  change execRdd n s = _
  simp only [execRdd, rsp, statusOk_success _ _ ok, Bool.not_true, Bool.false_eq_true, if_false]

theorem exec_rdd_fatal (fatal : m.status = 2) : exec (.rdd n) s = .next (raiseTile (n.val / 40) .nlProto (n.val + 65536 * 2) (countLate n.val q s1)) := by
  change execRdd n s = _
  simp only [execRdd, rsp, statusOk_fatal _ _ fatal, Bool.not_false, if_true, if_pos fatal]

/-- The read that a package fault leaves open is reconstructed. -/
theorem exec_rdd_package (fault : 3 ≤ m.status) :
    exec (.rdd n) s = .next (settleLocal (reconFor n.val q none false (nlDown n.val .package 3 (countLate n.val q s1)))) := by
  have other : ¬ m.status = 2 := by omega
  change execRdd n s = _
  simp only [execRdd, rsp, statusOk_package _ _ fault, Bool.not_false, if_true, if_neg other]

end

section
variable (rsp : takeRsp n.val 0x22 s = some (m, q, s1))
include rsp

theorem exec_pgc_success (ok : m.status = 0) : exec (.pgc n) s = .next (programDone n.val q (countProgram n.val q.pkg q.chunk s1)) := by
  change execPgc n s = _
  simp [execPgc, rsp, statusOk_success _ _ ok, ok]

theorem exec_pgc_verifyFirst (failed : m.status = 1) (first : q.fails = 0) : exec (.pgc n) s = .next (nlSubmit n.val { q with fails := 1 } s1) := by
  change execPgc n s = _
  simp [execPgc, rsp, statusOk_verify _ failed, failed, first]

theorem exec_pgc_verifyAgain (failed : m.status = 1) (again : q.fails ≠ 0) : exec (.pgc n) s =
    .next (programDone n.val q (startRetire n.val q.pkg (q.chunk / 256) (some (q.chunk % 256, q.body)) s1)) := by
  change execPgc n s = _
  simp [execPgc, rsp, statusOk_verify _ failed, failed, again]

theorem exec_pgc_fatal (fatal : m.status = 2) : exec (.pgc n) s = .next (raiseTile (n.val / 40) .nlProto (n.val + 65536 * 2) s1) := by
  change execPgc n s = _
  simp only [execPgc, rsp, statusOk_fatal _ _ fatal, Bool.not_false, if_true, if_pos fatal]

/-- The program that a package fault leaves open counts as completed. -/
theorem exec_pgc_package (fault : 3 ≤ m.status) : exec (.pgc n) s = .next (programDone n.val q (nlDown n.val .package 3 s1)) := by
  have other : ¬ m.status = 2 := by omega
  change execPgc n s = _
  simp only [execPgc, rsp, statusOk_package _ _ fault, Bool.not_false, if_true, if_neg other]

end

/-- Saved state that has been read leaves what its STATUS leaves. -/
theorem exec_mrdd {ok : Bool} {s2 : State} (rsp : takeRsp n.val 0x23 s = some (m, q, s1)) (status : statusOk n.val m false s1 = (ok, s2)) :
    exec (.mrdd n) s = .next s2 := by
  change execMrdd n s = _
  simp only [execMrdd, rsp, status]

section
variable (rsp : takeRsp n.val 0x24 s = some (m, q, s1))
include rsp

theorem exec_mpgc_verifyFirst (failed : m.status = 1) (first : q.fails = 0) : exec (.mpgc n) s = .next (nlSubmit n.val { q with fails := 1 } s1) := by
  change execMpgc n s = _
  simp [execMpgc, rsp, statusOk_verify _ failed, failed, first]

theorem exec_mpgc_map {r : Nat} {x : Rot} (ok : m.status = 0) (use : q.use = .metaRot r x) : exec (.mpgc n) s =
    .next (onNvm (fun y => { y with savedRots := Table.set {} y.savedRots (pkgKey n.val q.pkg * 1024 + r) x }) s1) := by
  change execMpgc n s = _
  simp [execMpgc, rsp, statusOk_success _ _ ok, ok, use]

theorem exec_mpgc_block {b : Nat} {x : Blk} (ok : m.status = 0) (use : q.use = .metaBlk b x) : exec (.mpgc n) s =
    .next (onNvm (fun y => { y with savedBlks := Table.set {} y.savedBlks (pkgKey n.val q.pkg * 2 ^ 23 + b) { x with due := false, save := false } }) s1) := by
  change execMpgc n s = _
  simp [execMpgc, rsp, statusOk_success _ _ ok, ok, use]

/-- A save whose STATUS does not stand leaves what its STATUS leaves. -/
theorem exec_mpgc_refused {s2 : State} (bad : statusOk n.val m true s1 = (false, s2)) : exec (.mpgc n) s = .next s2 := by
  change execMpgc n s = _
  simp only [execMpgc, rsp, bad, Bool.not_false, if_true]

end

section
variable (rsp : takeRsp n.val 0x25 s = some (m, q, s1))
include rsp

/-- What a STATUS that does not stand leaves; the status of a link in training has counted its packages first. -/
theorem exec_str_refused {s2 : State} (bad : statusOk n.val m false (if (getLink s1 n.val).st = .training then onNl n.val pkgsSeen s1 else s1) = (false, s2)) :
    exec (.str n) s = .next s2 := by
  change execStr n s = _
  simp only [execStr, rsp, bad, Bool.not_false, Bool.true_or, if_true]

theorem exec_str_trained (ok : m.status = 0) (trained : (getLink s1 n.val).st ≠ .training) : exec (.str n) s = .next s1 := by
  change execStr n s = _
  simp [execStr, rsp, statusOk_success _ _ ok, trained]

variable (ok : m.status = 0) (training : (getLink s1 n.val).st = .training)
include ok training

/-- In training the package's identity, geometry and revision decide (R187). -/
theorem exec_str_training : exec (.str n) s = .next (
    if leAt m.body 8 8 = 4261504 * 256 ∧ Config.supportedPackage (leAt m.body 0 4) (leAt m.body 4 4) = true then
      nlSubmit n.val { opc := 3, pkg := q.pkg, chunk := Config.metaIndex s1.free, use := .metaRd }
        (takeFree (onNvm (fun x => { x with known := x.known ++ [pkgKey n.val q.pkg] }) (onNl n.val pkgsSeen s1))).2
    else raiseTile (n.val / 40) .nlTrainFail n.val (onNl n.val (fun l => { l with st := .out, reason := .unsupported, reqs := [], wait := [] })
      (onNl n.val pkgsSeen s1))) := by
  have still : (getLink (onNl n.val pkgsSeen s1) n.val).st = .training := by rw [getLink_onNl_same]; exact training
  change execStr n s = _
  simp only [execStr, rsp, if_pos training, statusOk_success _ _ ok, still, Bool.not_true, ne_eq, not_true, decide_false, Bool.or_self, Bool.false_eq_true, if_false]
  split <;> rfl

end

end

/-- Settles O51: each response by its STATUS, and a chunk by what its decoding gives. -/
theorem packageResponses : Obligations.PackageResponses := by
  unfold Obligations.PackageResponses
  refine ⟨fun s s1 n m q => exec_rdd_success, fun n q s => ⟨fun g f i => countLate_data, countLate_other⟩,
    fun n q m s => ⟨rfl, fun b k => ⟨chunkRead_few, chunkRead_many⟩⟩,
    fun s s1 n m q rsp => ⟨exec_pgc_success rsp, exec_pgc_verifyFirst rsp, exec_pgc_verifyAgain rsp⟩,
    fun s s1 n m q rsp ok => exec_mrdd rsp (statusOk_success _ _ ok),
    fun s s1 n m q rsp => ⟨exec_mpgc_verifyFirst rsp, fun r x => exec_mpgc_map rsp, fun b x => exec_mpgc_block rsp⟩, ?str,
    fun s s1 n m q => exec_str_trained, ?status⟩
  case str =>
    rintro s s1 n m q rsp ok training _ rfl
    refine ⟨fun geometry revision => ?_, fun unsupported => ?_⟩
    · exact (exec_str_training rsp ok training).trans (congrArg _ (if_pos ⟨geometry, revision⟩))
    · exact (exec_str_training rsp ok training).trans (congrArg _ (if_neg fun h => unsupported.elim (· h.1) (by simp [h.2])))
  case status =>
    intro p hp s0
    replace hp : IsResponse p := by simpa only [IsResponse, List.mem_cons, List.not_mem_nil, or_false] using hp
    refine ⟨fun s s1 n m q rsp hs0 => ?_, fun s n => exec_response_unawaited hp⟩
    obtain rfl | rfl | rfl | rfl | rfl := hp
    · obtain rfl : s0 = countLate n.val q s1 := hs0
      exact ⟨exec_rdd_fatal rsp, exec_rdd_package rsp⟩
    · obtain rfl : s0 = s1 := hs0
      exact ⟨exec_pgc_fatal rsp, exec_pgc_package rsp⟩
    · obtain rfl : s0 = s1 := hs0
      exact ⟨fun fatal => exec_mrdd rsp (statusOk_fatal _ _ fatal), fun fault => exec_mrdd rsp (statusOk_package _ _ fault)⟩
    · obtain rfl : s0 = s1 := hs0
      exact ⟨fun fatal => exec_mpgc_refused rsp (statusOk_fatal _ _ fatal), fun fault => exec_mpgc_refused rsp (statusOk_package _ _ fault)⟩
    · obtain rfl : s0 = if (getLink s1 n.val).st = .training then onNl n.val pkgsSeen s1 else s1 := hs0.trans (by simp only [true_and]; rfl)
      exact ⟨fun fatal => exec_str_refused rsp (statusOk_fatal _ _ fatal), fun fault => exec_str_refused rsp (statusOk_package _ _ fault)⟩

end Sys2Proof.Machine
end

section
/-!
Wear, absorption, drift and rebuild (O52): gap moves, retirements and saves (R196–R198), the absorption slots and their destages (R201–R203), the drift
refresh (R200, R223, R224) and the end of a rebuild (R208), one equation per command and case.
-/
namespace Sys2Proof.Machine

/-! Gap moves (R196). -/

section
variable {s : State} {n : LinkId} {pkg : Fin 2} {region : Fin 1024}

theorem exec_gapMove_early (early : (getRot s n.val pkg.val region.val).progs < gapInterval s (n.val / 40)) : exec (.gapMove n pkg region) s = .next s := by
  change execGapMove n pkg region s = _
  simp [execGapMove, early]

/-- The slot whose content a gap move takes. -/
def gapSource (x : Rot) : Nat := if x.gap = 0 then 4096 else x.gap - 1

/-- The slot that a gap move fills: the gap. -/
def gapTarget (x : Rot) : Nat := if x.gap = 0 then 0 else x.gap

/-- With GAP_INTERVAL programs counted and both blocks free, a copy from the block before the gap to the gap starts. -/
theorem exec_gapMove_due {x : Rot} {src dst : Nat} (serves : linkServes s n.val = true) (hx : x = getRot s n.val pkg.val region.val)
    (due : gapInterval s (n.val / 40) ≤ x.progs) (hsrc : src = gapSource x) (hdst : dst = gapTarget x)
    (srcFree : blkLocked s n.val pkg.val (slotEnt x region.val src).2 = false) (dstFree : blkLocked s n.val pkg.val (slotEnt x region.val dst).2 = false)
    (quiet : blkRefreshing s n.val pkg.val (slotEnt x region.val src).2 = false) :
    exec (.gapMove n pkg region) s = .next (nextCopy s.nvm.nextId (setOp s.nvm.nextId (some ⟨n.val, pkg.val, false, region.val, src, dst,
      (slotEnt x region.val src).2, (slotEnt x region.val dst).2, 1, copyList (getBlk s n.val pkg.val (slotEnt x region.val src).2) none, none, false, none⟩)
      (newId (onRot n.val pkg.val region.val (fun y => { y with progs := y.progs - gapInterval s (n.val / 40) }) s)).2)) := by
  subst hx hsrc hdst
  unfold gapSource gapTarget at *
  change execGapMove n pkg region s = _
  simp only [execGapMove, serves, due.not_gt, srcFree, dstFree, quiet, decide_false, Bool.not_true, Bool.or_self, Bool.false_eq_true, if_false]
  rfl

theorem exec_mapStateSave_early (early : (getRot s n.val pkg.val region.val).moves < 64) : exec (.mapStateSave n pkg region) s = .next s := by
  change execMapStateSave n pkg region s = _
  simp [execMapStateSave, early]

theorem exec_mapStateSave_due (serves : linkServes s n.val = true) (due : 64 ≤ (getRot s n.val pkg.val region.val).moves) :
    exec (.mapStateSave n pkg region) s = .next (nlSubmit n.val
      { opc := 4, pkg := pkg.val, chunk := Config.metaIndex s.free, use := .metaRot region.val (getRot s n.val pkg.val region.val), body := Config.metaBytes s.free }
      (takeFree (onRot n.val pkg.val region.val (fun y => { y with moves := 0 }) s)).2) := by
  change execMapStateSave n pkg region s = _
  simp only [execMapStateSave, serves, due.not_gt, decide_false, Bool.not_true, Bool.or_self, Bool.false_eq_true, if_false]
  rfl

theorem exec_gapMoveDone {w : Nat} {o : BlkOp} (done : finishedOp s n.val pkg.val (fun o => !o.retire && o.region = region.val) = some (w, o)) :
    exec (.gapMoveDone n pkg region) s = .next (pumpLocks (onBlk n.val pkg.val o.src (fun y => { y with due := false })
      (copyDone n.val pkg.val o (getBlk s n.val pkg.val o.src) (onRot n.val pkg.val region.val (fun y => { y with
        slots := Table.set none y.slots o.dstSlot (some (((slotEnt (getRot s n.val pkg.val region.val) region.val o.slot).1 + 1) % 256, o.dst))
        gap := if y.gap = 0 then 4096 else y.gap - 1
        start := if y.gap = 0 then (y.start + 1) % 4096 else y.start
        moves := y.moves + 1 }) (setOp w none s))))) := by
  change execGapMoveDone n pkg region s = _
  simp only [execGapMoveDone, done]

end

/-! Retirement and the save of block entries (R197, R198). -/

section
variable {s : State} {n : LinkId} {pkg : Fin 2} {block : BitVec 23}

theorem exec_blockRetire_worn (serves : linkServes s n.val = true)
    (state : (getBlk s n.val pkg.val block.toNat).st = .data ∨ (getBlk s n.val pkg.val block.toNat).st = .fresh)
    (worn : retireAt s (n.val / 40) ≤ (getBlk s n.val pkg.val block.toNat).wcount) :
    exec (.blockRetire n pkg block) s = .next (startRetire n.val pkg.val block.toNat none s) := by
  change execBlockRetire n pkg block s = _
  simp [execBlockRetire, serves, state, worn]

theorem exec_blockRetire_young (young : (getBlk s n.val pkg.val block.toNat).wcount < retireAt s (n.val / 40)) : exec (.blockRetire n pkg block) s = .next s := by
  change execBlockRetire n pkg block s = _
  simp [execBlockRetire, young.not_ge]

theorem exec_wearStateSave_marked (serves : linkServes s n.val = true) (marked : (getBlk s n.val pkg.val block.toNat).save = true) :
    exec (.wearStateSave n pkg block) s = .next (nlSubmit n.val
      { opc := 4, pkg := pkg.val, chunk := Config.metaIndex s.free, use := .metaBlk block.toNat (getBlk s n.val pkg.val block.toNat), body := Config.metaBytes s.free }
      (takeFree (onBlk n.val pkg.val block.toNat (fun y => { y with save := false }) s)).2) := by
  change execWearStateSave n pkg block s = _
  simp only [execWearStateSave, serves, marked, Bool.not_true, Bool.or_self, Bool.false_eq_true, if_false]
  rfl

theorem exec_wearStateSave_unmarked (unmarked : (getBlk s n.val pkg.val block.toNat).save = false) : exec (.wearStateSave n pkg block) s = .next s := by
  change execWearStateSave n pkg block s = _
  simp [execWearStateSave, unmarked]

theorem exec_blockRetireDone {w : Nat} {o : BlkOp} (done : finishedOp s n.val pkg.val (fun o => o.retire && o.src = block.toNat) = some (w, o)) :
    exec (.blockRetireDone n pkg block) s = .next (pumpLocks (onBlk n.val pkg.val o.src (fun y => { y with st := .retired, due := false, save := true })
      (copyDone n.val pkg.val o (getBlk s n.val pkg.val o.src) (onRot n.val pkg.val o.region (fun y => { y with
        slots := Table.set none y.slots o.slot (some ((slotEnt (getRot s n.val pkg.val o.region) o.region o.slot).1, o.dst)) }) (setOp w none s))))) := by
  change execBlockRetireDone n pkg block s = _
  simp only [execBlockRetireDone, done]

end

/-! Absorption slots (R201). -/

/-- A write of line index `i` can take a slot: its chunk has one, or gets a free one. -/
def slotReady (s : State) (t f i : Nat) : Prop := (slotUp s t f i).isSome = true ∨ (getSlot s t f (i / 4) = none ∧ (freeSlot s t).isSome = true)

/-- The record of a walker that waits longest for a slot of the tile. -/
def longestRec (s : State) (t : Nat) : Option SlotWait := s.nvm.slotWait.find? (fun w => decide (w.tile = t))

/-- The line whose write waits longest for a slot of the tile, and since when. -/
def longestLine (s : State) (t : Nat) : Option (Nat × Nat) := s.nvm.lineWait.find? (fun w => decide (homeOf s w.1 = t))

section
variable {s : State} {t : TileId}

/-- A record that no line has waited longer than is stored. -/
theorem exec_absorbSlotFreed_rec {w : SlotWait} (waits : longestRec s t.val = some w) (first : ∀ l, longestLine s t.val = some l → w.at_ ≤ l.2)
    (ready : slotReady s t.val w.frame w.i) : exec (.absorbSlotFreed t) s =
      .next (absStore t.val w.frame w.i w.r w.prio (openSlot t.val w.frame w.i (onNvm (fun x => { x with slotWait := x.slotWait.erase w }) s))) := by
  unfold longestRec longestLine slotReady at *
  change execAbsorbSlotFreed t s = _
  cases line : s.nvm.lineWait.find? (fun w => decide (homeOf s w.1 = t.val)) with
  | none => simp [execAbsorbSlotFreed, waits, line, ready]
  | some l => simp [execAbsorbSlotFreed, waits, line, first l line, ready]

/-- A line that has waited longer than every record goes on with the slot of its chunk. -/
theorem exec_absorbSlotFreed_line {l : Nat × Nat} {f : Nat} (waits : longestLine s t.val = some l) (first : ∀ w, longestRec s t.val = some w → l.2 < w.at_)
    (place : writeAt s l.1 = some (true, f)) (ready : slotReady s t.val f (l.1 % 64)) : exec (.absorbSlotFreed t) s =
      .next (slotGiven l.1 (openSlot t.val f (l.1 % 64) (onNvm (fun x => { x with lineWait := x.lineWait.erase l }) s))) := by
  unfold longestRec longestLine slotReady at *
  change execAbsorbSlotFreed t s = _
  cases record : s.nvm.slotWait.find? (fun w => decide (w.tile = t.val)) with
  | none => simp [execAbsorbSlotFreed, waits, record, place, ready]
  | some w => simp [execAbsorbSlotFreed, waits, record, (first w record).not_ge, place, ready]

theorem exec_absorbStall_waits (waits : slotQueue s t.val = true) : exec (.absorbStall t) s = .next (addCnt (tileCnt t.val 467) 1 s) := by
  change execAbsorbStall t s = _
  rw [execAbsorbStall, if_pos waits]

theorem exec_absorbStall_idle (idle : slotQueue s t.val = false) : exec (.absorbStall t) s = .next s := by
  change execAbsorbStall t s = _
  simp [execAbsorbStall, idle]

end

/-- What a fold reads at each step it may read once, where no step changes it. -/
theorem foldl_reading {α β : Type} (part : State → α) {g : α → State → β → State} (h : ∀ a s x, part (g a s x) = part s) (l : List β) (s : State) :
    l.foldl (fun s x => g (part s) s x) s = l.foldl (g (part s)) s := by
  induction l generalizing s with
  | nil => simp only [List.foldl_nil]
  | cons x l ih =>
    have rest := ih (g (part s) s x)
    rwa [h] at rest

/-! Destages (R202, R203). A destage counts, and changes the NVM tier's state: it writes no register. -/

theorem gotChunk_regs (w pos : Nat) (v : Option (Bytes × Bool)) (s : State) : (gotChunk w pos v s).regs = s.regs := by
  unfold gotChunk
  split <;> rfl

theorem readWork_regs (w pos n a : Nat) (s : State) : (readWork w pos n a s).regs = s.regs := by
  unfold readWork
  dsimp only
  split
  · exact gotChunk_regs ..
  · split
    · exact gotChunk_regs ..
    · rfl

theorem pumpWork_regs (w : Nat) (s : State) : (pumpWork w s).regs = s.regs := by
  unfold pumpWork
  split
  · rfl
  · refine foldl_part State.regs (fun s e => ?_) _ s
    split
    · split <;> rfl
    · dsimp only
      split
      · rfl
      · split <;> rfl

theorem startDestage_regs (t g a : Nat) (s : State) : (startDestage t g a s).regs = s.regs := by
  unfold startDestage
  dsimp only
  split
  · rfl
  · rw [foldl_part State.regs fun s q => by split; exacts [readWork_regs .., gotChunk_regs ..]]
    exact foldl_part State.regs (fun s j => by split <;> rfl) _ s

theorem destage_regs (t g a : Nat) (s : State) : (destage t g a s).regs = s.regs := by
  refine Eq.trans ?_ (startDestage_regs t g a s)
  unfold destage advanceDestage
  dsimp only
  split
  · split
    · exact pumpWork_regs ..
    · rfl
  · rfl

section
variable {s : State} {t : TileId}

theorem exec_destageHighWater_draining (draining : s.nvm.draining.getLsbD t.val = true) {s1 : State}
    (drained : s1 = destageUntil t.val (absLow s t.val) (idleSlots s t.val).length s) : exec (.destageHighWater t) s =
      .next (onNvm (fun x => { x with draining := setBit x.draining t.val (decide (absLow s1 t.val < (idleSlots s1 t.val).length)) }) s1) := by
  subst drained
  change execDestageHighWater t s = _
  simp only [execDestageHighWater, draining, Bool.not_true, Bool.false_eq_true, if_false]

theorem exec_destageHighWater_low (low : s.nvm.draining.getLsbD t.val = false) : exec (.destageHighWater t) s = .next s := by
  change execDestageHighWater t s = _
  simp only [execDestageHighWater, low, Bool.not_false, if_true]

/-- MAX_AGE as it acts, in ms (NL_ABS_CFG). -/
def maxAge (s : State) (t : Nat) : Nat := max 1 (regFld s .nlAbsCfg t 31 17)

/-- The stripe of a slot is destaged where the slot has reached an age of `ms`. -/
def destageOld (ms t : Nat) (s : State) (e : Nat × ASlot) : State :=
  if ms * 1000 ≤ s.time.now - e.2.at_ then destage t (stripeOfSlot s t e.1).1 (stripeOfSlot s t e.1).2 s else s

theorem maxAge_destageOld (ms t : Nat) (s : State) (e : Nat × ASlot) : maxAge (destageOld ms t s e) t = maxAge s t := by
  unfold destageOld
  split
  · simp only [maxAge, regFld, regRaw, destage_regs]
  · rfl

/-- MAX_AGE may be read at each slot: a destage writes no register. -/
theorem exec_destageMaxAge : exec (.destageMaxAge t) s = .next ((idleSlots s t.val).foldl (fun s e => destageOld (maxAge s t.val) t.val s e) s) := by
  rw [foldl_reading (maxAge · t.val) fun ms => maxAge_destageOld ms t.val]
  rfl

theorem exec_destageMaxAge_idle (idle : idleSlots s t.val = []) : exec (.destageMaxAge t) s = .next s := by
  rw [exec_destageMaxAge, idle, List.foldl_nil]

/-- The destage of a stripe that has nothing left to read, send or complete. -/
def doneDestage (s : State) (t g stripe : Nat) : Option (Nat × Work) :=
  s.nvm.works.findSome? (fun e => e.2.bind (fun k => if k.kind = .destage ∧ k.tile = t ∧ k.grp = g ∧ k.stripe = stripe ∧ k.merged ∧ k.todo.isEmpty ∧ k.live.isEmpty
    then some (e.1, k) else none))

/-- A destage that is done frees a slot that took part in it, but for one written meanwhile. -/
def freeDestaged (t frame j : Nat) (s : State) : State :=
  match getSlot s t frame j with
  | some a => if !a.destaging then s
    else if a.redirty then setSlot t frame j (some { a with destaging := false, redirty := false }) s
    else setSlot t frame j none s
  | none => s

theorem frameOf_freeDestaged (t frame j g a : Nat) (s : State) : frameOf (freeDestaged t frame j s) t g a = frameOf s t g a := by
  unfold freeDestaged
  split
  · split
    · rfl
    · split <;> rfl
  · rfl

/-- The frame whose slots are freed may be read at each slot: no group changes its rank. -/
theorem exec_destageDone {group : Fin 4} {stripe : BitVec 31} {g w : Nat} {k : Work} (hg : g = (ranksOf s t.val).getD group.val 4)
    (done : doneDestage s t.val g stripe.toNat = some (w, k)) {free : State → Nat → State}
    (hfree : ∀ s1 i, free s1 i = freeDestaged t.val (frameOf s1 t.val g k.stripe) (k.stripe % 2 * 8 + i) s1) :
    exec (.destageDone t group stripe) s = .next (destageFull t.val g k.stripe (rereadChunks t.val (frameOf s t.val g k.stripe)
      ((destageSet s t.val g k.stripe).map (k.stripe % 2 * 8 + ·)) ((List.range 8).foldl free (setWork w none s)))) := by
  rw [funext₂ hfree, foldl_reading (frameOf · t.val g k.stripe) (g := fun frame s1 i => freeDestaged t.val frame (k.stripe % 2 * 8 + i) s1)
    fun _ _ _ => frameOf_freeDestaged ..]
  subst hg
  unfold doneDestage at done
  change execDestageDone t group stripe s = _
  simp only [execDestageDone, done]
  congr 4

end

/-! Drift refresh (R200, R223, R224). -/

section
variable {s : State} {n : LinkId} {pkg : Fin 2}

section
variable {block : BitVec 23} {b : Blk} (hb : b = getBlk s n.val pkg.val block.toNat) (state : b.st = .data ∨ b.st = .worn)
  (walks : walkersRun s (n.val / 40) = true) (serves : linkServes s n.val = true) (idle : getRefresh s (n.val / 40) = none)
  (due : b.due = true ∨ horizon s (n.val / 40) * 3600 ≤ blkAge s b)
include hb state walks serves idle due

/-- A due block is taken up with the offsets that hold data of a frame in use; with none, it is refreshed as it stands. -/
theorem exec_driftRefreshBlock : exec (.driftRefreshBlock n pkg block) s =
    .next (if ((List.range 256).filter (fun o => (heldChunk s n.val pkg.val block.toNat o).isSome)).isEmpty then
      onBlk n.val pkg.val block.toNat (fun x => { x with stamp := dawnSec s % 2 ^ 24, due := false }) s
    else setRefresh (n.val / 40) (some ⟨n.val, pkg.val, block.toNat, dawnSec s,
      (List.range 256).filter (fun o => (heldChunk s n.val pkg.val block.toNat o).isSome), none⟩) s) := by
  subst hb
  change execDriftRefreshBlock n pkg block s = _
  rw [execDriftRefreshBlock, if_neg (by simpa [walks, serves, idle, or_iff_not_imp_left] using And.intro state due)]
  dsimp only
  split <;> rfl

theorem exec_driftRefreshBlock_held (held : ∃ o, o < 256 ∧ (heldChunk s n.val pkg.val block.toNat o).isSome = true) :
    exec (.driftRefreshBlock n pkg block) s = .next (setRefresh (n.val / 40) (some ⟨n.val, pkg.val, block.toNat, dawnSec s,
      (List.range 256).filter (fun o => (heldChunk s n.val pkg.val block.toNat o).isSome), none⟩) s) := by
  rw [exec_driftRefreshBlock hb state walks serves idle due, if_neg (by simpa [Option.isSome_iff_ne_none] using held)]

theorem exec_driftRefreshBlock_unheld (unheld : ∀ o, o < 256 → heldChunk s n.val pkg.val block.toNat o = none) :
    exec (.driftRefreshBlock n pkg block) s = .next (onBlk n.val pkg.val block.toNat (fun x => { x with stamp := dawnSec s % 2 ^ 24, due := false }) s) := by
  rw [exec_driftRefreshBlock hb state walks serves idle due, if_pos (by simpa using unheld)]

end

section
variable {offset : Byte} {r : Refresh} (refresh : getRefresh s (n.val / 40) = some r) (link : r.link = n.val) (package : r.pkg = pkg.val)
  (ready : r.busy = none) (todo : offset.toNat ∈ r.todo) (serves : linkServes s n.val = true) (walks : walkersRun s (n.val / 40) = true)
  (free : blkLocked s n.val pkg.val r.block = false)
include refresh link package ready todo serves walks free

/-- A chunk of no page is passed over. -/
theorem exec_driftRefreshChunk_unheld (unheld : heldChunk s n.val pkg.val r.block offset.toNat = none) :
    exec (.driftRefreshChunk n pkg offset) s = .next (refreshDone n.val offset.toNat s) := by
  change execDriftRefreshChunk n pkg offset s = _
  simp [execDriftRefreshChunk, refresh, link, package, ready, todo, serves, walks, free, unheld]

/-- A chunk of a page that no move has copied is read under its four line locks, once all are free and Twilight waits for none. -/
theorem exec_driftRefreshChunk_held {a f pos p : Nat} {lines : List Nat} (held : heldChunk s n.val pkg.val r.block offset.toNat = some (a, f, pos))
    (data : pos ≠ a % 9) (owner : ownerOf s (n.val / 40) true f = some p)
    (hlines : lines = (List.range 4).map (fun i => 64 * p + 4 * (a % 2 * 8 + dataIdx a pos) + i)) (still : Table.get none s.tier.moves p = none)
    (unlocked : lines.all (lineFree s) = true) (dusk : lines.any (s.ha.twWait.contains ·) = false)
    (medium : progBuf s n.val pkg.val (r.block * 256 + offset.toNat) = none) :
    exec (.driftRefreshChunk n pkg offset) s = .next (addCnt (linkCnt n.val 0) 1 (nlSubmit n.val
      { opc := 1, pkg := pkg.val, chunk := r.block * 256 + offset.toNat, ref := refOf (blkAge s (getBlk s n.val pkg.val r.block)), use := .refresh offset.toNat, prio := walkerPrio s }
      (setRefresh (n.val / 40) (some { r with busy := some (offset.toNat, lines) }) (lockLines lines s)))) := by
  subst hlines
  change execDriftRefreshChunk n pkg offset s = _
  rw [execDriftRefreshChunk]
  simp only [refresh]
  rw [if_neg (by simp [link, package, ready, todo, serves, walks, free])]
  simp only [held, if_neg data, owner, still, unlocked, dusk, medium, Bool.not_true, Bool.false_eq_true, Bool.or_self, if_false]

end

theorem exec_driftSkip_between {t : TileId} {r : Refresh} (refresh : getRefresh s t.val = some r) (between : r.busy = none) :
    exec (.driftSkip t) s = .next (setRefresh t.val none s) := by
  change execDriftSkip t s = _
  simp [execDriftSkip, refresh, between]

theorem exec_driftSkip_busy {t : TileId} {r : Refresh} (refresh : getRefresh s t.val = some r) (busy : r.busy ≠ none) : exec (.driftSkip t) s = .next s := by
  change execDriftSkip t s = _
  simp [execDriftSkip, refresh, busy]

section
variable {block : BitVec 23}

theorem exec_driftLate_late (state : (getBlk s n.val pkg.val block.toNat).st = .data ∨ (getBlk s n.val pkg.val block.toNat).st = .worn)
    (late : 3 * horizon s (n.val / 40) * 3600 < 2 * blkAge s (getBlk s n.val pkg.val block.toNat)) :
    exec (.driftLate n pkg block) s = .next (raiseTile (n.val / 40) .nlDriftLate n.val s) := by
  change execDriftLate n pkg block s = _
  simp [execDriftLate, state, late]

theorem exec_driftLate_inTime (inTime : 2 * blkAge s (getBlk s n.val pkg.val block.toNat) ≤ 3 * horizon s (n.val / 40) * 3600) :
    exec (.driftLate n pkg block) s = .next s := by
  change execDriftLate n pkg block s = _
  simp [execDriftLate, inTime.not_gt]

end

end

/-! Rebuild (R208). -/

/-- A tile with no NVM frames has no tile-local ones for a rebuild to reach. -/
theorem localFrom_of_noFrames {s : State} {t : Nat} (noFrames : nvmFrames s t = 0) (gr line : Nat) : localFrom s t gr line = [] := by
  simp [localFrom, noFrames]

/-- With no stripe left to rebuild, the spare is active and the group normal. -/
theorem exec_rebuildStripe_end {s : State} {t : TileId} {group : Fin 4} {line sp : Nat} (rebuild : (getGrp s t.val group.val).rebuild = some (line, sp))
    (kept : (getGrp s t.val group.val).st ≠ .lost) (walks : walkersRun s t.val = true) (idle : s.nvm.works = []) (unused : nvmInUse s t.val = [])
    (noFrames : nvmFrames s t.val = 0) : exec (.rebuildStripe t group) s = .next (onNl sp (fun l => { l with st := .active })
      (onNvm (fun x => { x with grps := Table.set {} x.grps (4 * t.val + group.val) ⟨.normal, 15, none⟩ }) s)) := by
  change execRebuildStripe t group s = _
  simp [execRebuildStripe, rebuild, kept, walks, idle, unused, localFrom_of_noFrames noFrames]

/-- Settles O52: each clause is the equation of its command in its case. -/
theorem wearAndDrift : Obligations.WearAndDrift := by
  unfold Obligations.WearAndDrift
  refine ⟨?gap, fun s n pkg region w o => exec_gapMoveDone, fun _ _ _ _ _ => rfl, ?wear, fun s n pkg block w o => exec_blockRetireDone, ?absorb,
    ?destaged, ?block, ?chunk, fun s t r refresh => ⟨exec_driftSkip_between refresh, exec_driftSkip_busy refresh⟩,
    fun s n pkg block state => ⟨exec_driftLate_late state, exec_driftLate_inTime⟩, fun s t group line sp => exec_rebuildStripe_end⟩
  case gap =>
    intro s n pkg region serves
    refine ⟨exec_gapMove_early, ?_, exec_mapStateSave_early, ?_⟩
    · rintro src dst x _ hx due hsrc hdst srcFree dstFree quiet rfl
      exact exec_gapMove_due serves hx due hsrc hdst srcFree dstFree quiet
    · rintro _ rfl due
      exact exec_mapStateSave_due serves due
  case wear =>
    rintro s n pkg block serves _ rfl
    exact ⟨exec_blockRetire_worn serves, exec_blockRetire_young, exec_wearStateSave_marked serves, exec_wearStateSave_unmarked⟩
  case absorb =>
    exact fun s t => ⟨fun w => exec_absorbSlotFreed_rec, fun l f => exec_absorbSlotFreed_line, exec_absorbStall_waits, exec_absorbStall_idle,
      fun draining s1 => exec_destageHighWater_draining draining, exec_destageHighWater_low,
      exec_destageMaxAge, exec_destageMaxAge_idle⟩
  case destaged =>
    intro s t group stripe g w k hg done
    exact exec_destageDone hg (by unfold doneDestage; exact done) fun _ _ => rfl
  case block =>
    exact fun s n pkg block b hb state walks serves idle due =>
      ⟨exec_driftRefreshBlock_held hb state walks serves idle due, exec_driftRefreshBlock_unheld hb state walks serves idle due⟩
  case chunk =>
    exact fun s n pkg offset r refresh link package ready todo serves walks free =>
      ⟨exec_driftRefreshChunk_unheld refresh link package ready todo serves walks free,
        fun a f pos p lines => exec_driftRefreshChunk_held refresh link package ready todo serves walks free⟩

end Sys2Proof.Machine
end

section
/-!
Tiering (O53): the epoch walk (R212, R214), the starts of promotions and demotions (R215–R217), and the copies and the end of a move (R219, R222), one
equation per command and case.
-/
namespace Sys2Proof.Machine

/-! The epoch walk (R212, R214). -/

/-- A placement entry once the walk has passed it: HEAT halved, RESID one higher. -/
def walked (p : Place) : Place := { p with tier := mkTier (heatOf p.tier / 2) (classIn p.tier) (residOf p.tier + 1) }

/-- The tests of R214: a cold-tier page hot enough, and MIN_RESID epochs in its tier. -/
def promotionCandidate (s : State) (t : Nat) (p : Place) : Prop :=
  p.st = .nvm ∧ regFld s .trCfg t 31 24 ≤ heatOf p.tier ∧ regFld s .trCfg t 15 12 ≤ residOf p.tier

/-- The tests of R214 the other way: an unpinned DRAM page cold enough, and MIN_RESID epochs in its tier. -/
def demotionCandidate (s : State) (t : Nat) (p : Place) : Prop :=
  p.st = .dram ∧ p.pin = false ∧ heatOf p.tier ≤ regFld s .trCfg t 23 16 ∧ regFld s .trCfg t 15 12 ≤ residOf p.tier

/-- The tile's promotion queue becomes `q`. -/
def setPromote (t : Nat) (q : List Nat) (s : State) : State := onTier (fun x => { x with promote := Table.set [] x.promote t q }) s

/-- The tile's demotion queue becomes `q`. -/
def setDemote (t : Nat) (q : List Nat) (s : State) : State := onTier (fun x => { x with demote := Table.set [] x.demote t q }) s

/-- A candidate joins the end of a queue that does not hold it; a full queue drops it and counts. -/
def joinQueue (t page : Nat) (q : List Nat) (store : List Nat → State → State) (s : State) : State :=
  if page ∈ q then s else if 1024 ≤ q.length then addCnt (tileCnt t 470) 1 s else store (q ++ [page]) s

section
variable {s : State} {t page : Nat} {q : List Nat} {store : List Nat → State → State} (fresh : page ∉ q)
include fresh

theorem joinQueue_room (room : q.length < 1024) : joinQueue t page q store s = store (q ++ [page]) s := by
  rw [joinQueue, if_neg fresh, if_neg room.not_ge]

theorem joinQueue_full (full : 1024 ≤ q.length) : joinQueue t page q store s = addCnt (tileCnt t 470) 1 s := by
  rw [joinQueue, if_neg fresh, if_pos full]

end

section
variable {s : State} {page : BitVec 36} {r : Region} {p : Place} {t : Nat} (place : p = getPlace s page.toNat) (home : t = homeOf s (64 * page.toNat))
  (runs : tileRuns s t = true) (region : regionAt s (4096 * page.toNat) = some r) (tiered : isTiered r = true) (still : p.moving = false)
  (mode : tierMode s t ≠ 0)
include place home runs region tiered still mode

/-- A page is a candidate by the HEAT and RESID that the walk finds, before it halves the one and raises the other. -/
theorem exec_epochWalkEntry_promotes (candidate : promotionCandidate s t p) : exec (.epochWalkEntry page) s =
    .next (joinQueue t page.toNat (Table.get [] s.tier.promote t) (setPromote t) (putPlace page.toNat (walked p) s)) := by
  subst place home
  obtain ⟨cold, hot, old⟩ := candidate
  change execEpochWalkEntry page s = _
  simp [execEpochWalkEntry, runs, region, tiered, still, mode, cold, hot, old, joinQueue, walked, setPromote, apply_ite Host.Outcome.next]

theorem exec_epochWalkEntry_demotes (candidate : demotionCandidate s t p) : exec (.epochWalkEntry page) s =
    .next (joinQueue t page.toNat (Table.get [] s.tier.demote t) (setDemote t) (putPlace page.toNat (walked p) s)) := by
  subst place home
  obtain ⟨dram, unpinned, cool, old⟩ := candidate
  change execEpochWalkEntry page s = _
  simp [execEpochWalkEntry, runs, region, tiered, still, mode, dram, unpinned, cool, old, joinQueue, walked, setDemote, apply_ite Host.Outcome.next]

/-- A page that has not stayed MIN_RESID epochs is a candidate for neither queue. -/
theorem exec_epochWalkEntry_young (written : p.st ≠ .unwritten) (young : residOf p.tier < regFld s .trCfg t 15 12) :
    exec (.epochWalkEntry page) s = .next (putPlace page.toNat (walked p) s) := by
  subst place home
  change execEpochWalkEntry page s = _
  simp [execEpochWalkEntry, runs, region, tiered, still, mode, written, young.not_ge, walked]

end

/-! Promotions (R215, R217). -/

/-- The class and page of the next promotion: round robin over the classes that hold a token, oldest page first within a class. -/
def nextPromotion (s : State) (t : Nat) : Option (Nat × Nat) :=
  ((List.range 16).map (fun i => (Table.get 0 s.tier.rrClass t + i) % 16)).findSome? (fun c => if hasToken s t c then
    ((Table.get [] s.tier.promote t).find? (fun p => classIn (getPlace s p).tier = c)).map (fun p => (c, p)) else none)

/-- The page leaves the promotion queue, and the round robin goes on after its class. -/
def takePromotion (t c page : Nat) (s : State) : State :=
  onTier (fun x => { x with promote := Table.set [] x.promote t ((Table.get [] s.tier.promote t).erase page), rrClass := Table.set 0 x.rrClass t (c + 1) }) s

section
variable {s : State} {t : TileId} {c page : Nat} (walks : walkersRun s t.val = true) (mode : tierMode s t.val = 1) (kept : dramStop s t.val = false)
  (trackers : (movesOn s t.val).length < 16) (token : hasToken s t.val 16 = true)
  (room : 0 < freeOut s t.val false ∨ ∃ m ∈ movesOn s t.val, m.2.toDram = false) (next : nextPromotion s t.val = some (c, page))
include walks mode kept trackers token room next

/-- A page that promotions may take starts its move where a DRAM frame is free; one that moves or lies in NVM no more leaves the queue only. -/
theorem exec_promotionStart_next : exec (.promotionStart t) s =
    .next (if (getPlace s page).moving = true ∨ (getPlace s page).st ≠ .nvm then takePromotion t.val c page s
      else if (freeFrame (takePromotion t.val c page s) t.val false).isNone then s
      else startMove page true (takeToken t.val c (takePromotion t.val c page s))) := by
  unfold nextPromotion at next
  have roomB : (decide (0 < freeOut s t.val false) || (movesOn s t.val).any (fun m => !m.2.toDram)) = true := by simpa using room
  change execPromotionStart t s = _
  simp only [execPromotionStart, walks, mode, kept, token, trackers.not_ge, roomB, next]
  simp [takePromotion, apply_ite Host.Outcome.next]

theorem exec_promotionStart_starts {f : Nat} (cold : (getPlace s page).st = .nvm) (still : (getPlace s page).moving = false)
    (frame : freeFrame (takePromotion t.val c page s) t.val false = some f) :
    exec (.promotionStart t) s = .next (startMove page true (takeToken t.val c (takePromotion t.val c page s))) := by
  simp [exec_promotionStart_next walks mode kept trackers token room next, cold, still, frame]

theorem exec_promotionStart_gone (gone : (getPlace s page).st ≠ .nvm) : exec (.promotionStart t) s = .next (takePromotion t.val c page s) := by
  rw [exec_promotionStart_next walks mode kept trackers token room next, if_pos (.inr gone)]

end

/-! Demotions (R216, R217). -/

/-- Demotions are wanted on the tile: its DRAM is given up, MODE is demote only, or free DRAM frames have fallen below FREE_LOW and not yet reached FREE_HIGH. -/
def demotionWanted (s : State) (t : Nat) : Prop :=
  dramStop s t = true ∨ tierMode s t = 2 ∨ (tierMode s t = 1 ∧ (sampleFree t s).tier.demoting.getLsbD t = true)

/-- The page leaves the demotion queue. -/
def takeDemotion (t page : Nat) (s : State) : State := onTier (fun x => { x with demote := Table.mod [] x.demote t (fun q => q.erase page) }) s

theorem exec_demotionStart_starts {s : State} {t : TileId} {page f : Nat} (walks : walkersRun s t.val = true) (trackers : (movesOn s t.val).length < 16)
    (wanted : demotionWanted s t.val) (token : hasToken s t.val 16 = true) (demotionToken : hasToken s t.val 17 = true)
    (next : nextDemotion s t.val = some page) (dram : (getPlace s page).st = .dram) (still : (getPlace s page).moving = false)
    (frame : freeFrame (takeDemotion t.val page (sampleFree t.val s)) t.val true = some f) :
    exec (.demotionStart t) s = .next (startMove page false (takeToken t.val 17 (takeDemotion t.val page (sampleFree t.val s)))) := by
  unfold takeDemotion at *
  have wantedB : (dramStop s t.val || decide (tierMode s t.val = 2) ||
      (decide (tierMode s t.val = 1) && (sampleFree t.val s).tier.demoting.getLsbD t.val)) = true := by simpa [demotionWanted, or_assoc] using wanted
  change execDemotionStart t s = _
  simp only [execDemotionStart, walks, wantedB, trackers.not_ge, token, demotionToken, next]
  simp [dram, still, frame]

theorem nextDemotion_queue {s : State} {t : Nat} (kept : dramStop s t = false) : nextDemotion s t = (Table.get [] s.tier.demote t).head? := by
  simp [nextDemotion, kept]

/-! The copies of a move (R219, R222). -/

section
variable {s : State} {page : BitVec 36} {i : Fin 64} {flips : Flips} {m : Move} (move : getMove s page.toNat = some m)
include move

theorem exec_migrationCopy_copied (copied : m.copied.getLsbD i.val = true) : exec (.migrationCopy page i flips) s = .next s := by
  change execMigrationCopy page i flips s = _
  simp [execMigrationCopy, move, copied]

section
variable (due : m.copied.getLsbD i.val = false) (free : lineFree s (64 * page.toNat + i.val) = true) (walks : walkersRun s m.tile = true)
include due free walks

/-- The destination takes a poisoned record for a lost source line, and TR_MIG_LOST is raised. -/
theorem exec_migrationCopy_lost {r : Region} (lost : locLost s m.tile m.toDram m.src i.val = true)
    (region : regionAt s (64 * (64 * page.toNat + i.val)) = some r) : exec (.migrationCopy page i flips) s =
      .next (raiseWith (tileSrc m.tile .trMigLost) ⟨BitVec.ofNat 64 (64 * (64 * page.toNat + i.val)), 0xFF#8, 2#8, BitVec.ofNat 32 r.idx⟩ {}
        (lostWord (64 * page.toNat + i.val) (copyTo page.toNat m i.val
          (mkRec (64 * page.toNat + i.val) 0#512 (poisonMeta s (64 * page.toNat + i.val))) s))) := by
  change execMigrationCopy page i flips s = _
  simp only [execMigrationCopy, move, due, free, walks, lost, region, Bool.not_true, Bool.or_self, Bool.false_eq_true, if_false, if_true]

variable (held : locLost s m.tile m.toDram m.src i.val = false)
include held

theorem exec_migrationCopy_asked (coming : takeSource m i.val flips (askSource m.tile m.toDram m.src i.val s) = none) :
    exec (.migrationCopy page i flips) s = .next (askSource m.tile m.toDram m.src i.val s) := by
  change execMigrationCopy page i flips s = _
  simp only [execMigrationCopy, move, due, free, walks, held, coming, Bool.not_true, Bool.or_self, Bool.false_eq_true, if_false]

/-- The source record is checked once it has come, and goes to the destination as the check leaves it. -/
theorem exec_migrationCopy_come {r r2 : Rec} {src : Sum Nat Nat} {lost : Bool} {s1 s2 : State}
    (come : takeSource m i.val flips (askSource m.tile m.toDram m.src i.val s) = some (r, src, s1))
    (checked : settleRec (64 * page.toNat + i.val) r src {} (putSource m i.val) s1 = (r2, lost, s2)) :
    exec (.migrationCopy page i flips) s = .next (finishCopy page.toNat i.val r2 s2) := by
  change execMigrationCopy page i flips s = _
  simp only [execMigrationCopy, move, due, free, walks, held, come, checked, Bool.not_true, Bool.or_self, Bool.false_eq_true, if_false]

end

end

section
variable {s : State} {page i : Nat} {r : Rec}

theorem finishCopy_moving {m : Move} (move : getMove s page = some m) : finishCopy page i r s = copyTo page m i r s := by
  simp only [finishCopy, move]

theorem finishCopy_ended (ended : getMove s page = none) : finishCopy page i r s = s := by
  simp only [finishCopy, ended]

end

/-! The end of a move (R219). -/

/-- The placement entry that a completed move leaves: the tier and frame of the destination, with RESID 0. -/
def movedPlace (p : Place) (m : Move) : Place :=
  { st := if m.toDram then .dram else .nvm, pin := p.pin, tier := mkTier (heatOf p.tier) (classIn p.tier) 0, frame := m.dst }

section
variable {s : State} {page : BitVec 36} {m : Move} (move : getMove s page.toNat = some m)
include move

theorem exec_migrationComplete_early (early : m.copied ≠ BitVec.allOnes 64) : exec (.migrationComplete page) s = .next s := by
  change execMigrationComplete page s = _
  simp only [execMigrationComplete, move, decide_eq_true early, Bool.true_or, if_true]

variable (walks : walkersRun s m.tile = true) (copied : m.copied = BitVec.allOnes 64)
include walks copied

/-- A page that has reached DRAM leaves its absorption slots besides its NVM frame. -/
theorem exec_migrationComplete_copied : exec (.migrationComplete page) s =
    .next (addCnt (tileCnt m.tile (if m.toDram then 468 else 469)) 1 (sampleFree m.tile (if m.toDram then
      dropSlots m.tile m.src (putPlace page.toNat (movedPlace (getPlace s page.toNat) m) (setMove page.toNat none s))
    else putPlace page.toNat (movedPlace (getPlace s page.toNat) m) (setMove page.toNat none s)))) := by
  change execMigrationComplete page s = _
  simp only [execMigrationComplete, move, copied, walks, ne_eq, not_true, decide_false, Bool.not_true, Bool.or_self, Bool.false_eq_true, if_false]
  rfl

end

/-- Settles O53: each clause is the equation of its command in its case. -/
theorem tieringCommands : Obligations.TieringCommands := by
  unfold Obligations.TieringCommands
  refine ⟨?walk, ?promotion, ?demotion, fun s t => nextDemotion_queue, ?copy,
    fun page i r s => ⟨fun m => finishCopy_moving, finishCopy_ended⟩, fun s page i flips m => exec_migrationCopy_copied, ?complete⟩
  case walk =>
    intro s page r p t place home runs region tiered still mode
    refine ⟨fun cold hot old fresh => ?_, fun dram unpinned cool old fresh => ?_, exec_epochWalkEntry_young place home runs region tiered still mode⟩
    · rw [exec_epochWalkEntry_promotes place home runs region tiered still mode ⟨cold, hot, old⟩]
      exact ⟨fun room => congrArg _ (joinQueue_room fresh room), fun full => congrArg _ (joinQueue_full fresh full)⟩
    · rw [exec_epochWalkEntry_demotes place home runs region tiered still mode ⟨dram, unpinned, cool, old⟩]
      exact ⟨fun room => congrArg _ (joinQueue_room fresh room), fun full => congrArg _ (joinQueue_full fresh full)⟩
  case promotion =>
    rintro s t c page f _ walks mode kept trackers token room next rfl
    exact ⟨exec_promotionStart_starts walks mode kept trackers token room next,
      exec_promotionStart_gone walks mode kept trackers token room next⟩
  case demotion =>
    rintro s t page f _ walks trackers wanted token demotionToken next dram still rfl frame
    exact exec_demotionStart_starts walks trackers wanted token demotionToken next dram still frame
  case copy =>
    refine fun s page i flips m move due free walks => ⟨fun r => exec_migrationCopy_lost move due free walks, ?_⟩
    rintro held _ rfl
    exact ⟨exec_migrationCopy_asked move due free walks held,
      fun r r2 src lost s1 s2 => exec_migrationCopy_come move due free walks held⟩
  case complete =>
    refine fun s page m move walks => ⟨exec_migrationComplete_early move, fun copied toNvm => ?_, fun copied toDram => ?_⟩
    · rw [exec_migrationComplete_copied move walks copied]
      simp [movedPlace, toNvm]
    · rw [exec_migrationComplete_copied move walks copied]
      simp [movedPlace, toDram]

end Sys2Proof.Machine
end

section
/-!
Job rings and their jobs (O54): who may write a ring block and what each write does (R228–R231, R240, R242), then the fetch of descriptors, the dispatch of
parts and their reports (R232, R235, R236, R461), one equation per command and case.
-/
namespace Sys2Proof.Machine

/-! Who may write a ring block (R228). -/

section
variable {s : State} {h : PortId} {l : LdId} {r : Nat}

theorem ringRow_rights (rights : hasRights s (.head h l) = true) : ringRow s (.head h l) r = .full := if_pos rights

theorem ringRow_owner (rights : hasRights s (.head h l) = false) (owner : h.val = rgOwner (getRing s r)) : ringRow s (.head h l) r = .owner := by
  simp [ringRow, rights, owner]

theorem ringRow_other (rights : hasRights s (.head h l) = false) (other : h.val ≠ rgOwner (getRing s r)) : ringRow s (.head h l) r = .denied := by
  simp [ringRow, rights, other]

variable {a : Agent} {own : Bool} {f : State → State} (up : running s = true)
include up

theorem ringWrite_full (row : ringRow s a r = .full) (reach : cutOff s (entryTile a) (servingTile s r) = false) : ringWrite a r own f s = f s := by
  simp [ringWrite, up, row, reach]

theorem ringWrite_full_cut (row : ringRow s a r = .full) (cut : cutOff s (entryTile a) (servingTile s r) = true) : ringWrite a r own f s = s := by
  simp [ringWrite, up, row, cut]

theorem ringWrite_owner (row : ringRow s a r = .owner) (reach : cutOff s (entryTile a) (servingTile s r) = false) :
    ringWrite a r own f s = if own then f s else s := by
  simp [ringWrite, up, row, reach]

theorem ringWrite_denied (row : ringRow s (.head h l) r = .denied) : ringWrite (.head h l) r own f s = addCnt (portCnt h.val 8) 1 s := by
  simp [ringWrite, up, row]

end

/-! Doorbells and configuration (R228, R231). -/

section
variable {s : State} {r : Nat} {v : W32}

theorem writeTail_within (runs : (getRing s r).st = .running) (room : (v - (getRing s r).head).toNat ≤ 2 ^ rgDlog (getRing s r))
    (forward : (v - (getRing s r).tail).toNat < 2 ^ 31) : writeTail r v s = onRing r (fun y => { y with tail := v }) s :=
  if_pos (.inr ⟨decide_eq_true (.inl runs), room, forward⟩)

theorem writeTail_beyond (moves : v ≠ (getRing s r).tail) (beyond : 2 ^ rgDlog (getRing s r) < (v - (getRing s r).head).toNat) :
    writeTail r v s = onRing r (fun y => { y with tailErr := true }) s :=
  if_neg fun within => within.elim moves fun ⟨_, room, _⟩ => beyond.not_ge room

theorem writeCqHead_within (runs : (getRing s r).st = .running)
    (written : (v - (getRing s r).cqHead).toNat ≤ ((getRing s r).cqTail - (getRing s r).cqHead).toNat) :
    writeCqHead r v s = onRing r (fun y => { y with cqHead := v }) s :=
  if_pos ⟨decide_eq_true (.inl runs), written⟩

theorem writeCqHead_beyond (beyond : ((getRing s r).cqTail - (getRing s r).cqHead).toNat < (v - (getRing s r).cqHead).toNat) :
    writeCqHead r v s = onRing r (fun y => { y with cqhErr := true }) s :=
  if_neg fun ⟨_, written⟩ => beyond.not_ge written

theorem writeRingCfg_disabled (off : (getRing s r).st = .disabled) : writeRingCfg r v s = onRing r (fun y => { y with cfg := v }) s := if_pos off

theorem writeRingCfg_enabled (on : (getRing s r).st ≠ .disabled) : writeRingCfg r v s = s := if_neg on

variable {cq : Bool} {w : W64}

theorem writeRingBase_disabled (off : (getRing s r).st = .disabled) : writeRingBase r cq w s =
    onRing r (fun y => if cq then { y with cbase := w &&& 0x0000FFFFFFFFF000#64 } else { y with dbase := w &&& 0x0000FFFFFFFFF000#64 }) s := if_pos off

theorem writeRingBase_enabled (on : (getRing s r).st ≠ .disabled) : writeRingBase r cq w s = s := if_neg on

end

/-! Enabling (R229). -/

section
variable {s : State} {r : Nat}

theorem enableRing_fails (bad : enableCode s r ≠ 0) :
    enableRing r s = (onRing r (fun y => { y with cfgErr := true, cfgCode := enableCode s r }) s, []) := if_pos bad

theorem enableRing_passes (ok : enableCode s r = 0) : enableRing r s = (onRing r (fun y =>
    { y with tail := 0#32, head := 0#32, cqTail := 0#32, cqHead := 0#32, inflight := 0, st := .initialising,
             route := some (servingTile s r), zeroLeft := cqLines (getRing s r), zeroBad := false }) s, initOps (getRing s r) r) := if_neg (not_not.2 ok)

theorem enableWrite_disabled (off : (getRing s r).st = .disabled) (active : s.dawn.memActive = true) (day : midnight s = false) :
    enableWrite r s = settle (startInit r (enableRing r s).2 (enableRing r s).1) := by
  simp [enableWrite, off, active, day]

end

section
variable {s : State} {r : RingId} (init : (getRing s r.toNat).st = .initialising) (zeroed : (getRing s r.toNat).zeroLeft = 0)
include init zeroed

theorem exec_ringInitDone_good (good : (getRing s r.toNat).zeroBad = false) :
    exec (.ringInitDone r) s = .next (onRing r.toNat (fun y => { y with st := .running }) s) := by
  change execRingInitDone r s = _
  simp [execRingInitDone, init, zeroed, good]

theorem exec_ringInitDone_bad (bad : (getRing s r.toNat).zeroBad = true) : exec (.ringInitDone r) s =
    .next (onRing r.toNat (fun y => { y with st := .disabled, route := none, zeroBad := false, cfgErr := true, cfgCode := 6 }) s) := by
  change execRingInitDone r s = _
  simp [execRingInitDone, init, zeroed, bad]

end

/-! Abort and disable (R240, R242). -/

/-- The ring goes to a stopping state with MARK = TAIL, and what can be cancelled is. -/
def stopAtTail (r : Nat) (st : RingSt) (s : State) : State := markDone r (cancelJobs r (onRing r (fun y => { y with st := st, mark := y.tail }) s))

section
variable {s : State} {r : Nat}

theorem abortRing_running (runs : (getRing s r).st = .running) : abortRing r s = stopAtTail r .aborting s := if_neg (not_not.2 runs)

theorem abortRing_idle (idle : (getRing s r).st ≠ .running) : abortRing r s = s := if_pos idle

theorem disableRing_running (runs : (getRing s r).st = .running) : disableRing r s = stopAtTail r .disabling s := if_pos runs

theorem disableRing_aborting (aborts : (getRing s r).st = .aborting) : disableRing r s = stopAtTail r .disabling s := by
  simp [disableRing, aborts, stopAtTail]

theorem disableRing_stopped (stopped : (getRing s r).st = .stopped) :
    disableRing r s = markDone r (onRing r (fun y => { y with st := .disabling, quiet := true, outq := [], writing := false }) s) := by
  simp [disableRing, stopped]

variable (day : midnight s = false)
include day

theorem abortWrite_day : abortWrite r s = settle (startRecord r (concludeAll r (abortRing r s))) := by simp [abortWrite, day]

theorem disableWrite_day : disableWrite r s = settle (startRecord r (concludeAll r (disableRing r s))) := by simp [disableWrite, day]

end

/-! Descriptors and the start of jobs (R232–R234, R240). -/

section
variable {s : State} {t : TileId} {r : RingId} {n : W32}

theorem exec_descriptorFetch_turn (up : engineUp s t.val = true) (going : quiesced s = false) (turn : nextRing s t.val = some r.toNat) :
    exec (.descriptorFetch t r) s =
      .next (settle (readDesc r.toNat false (onJob (fun j => { j with rr := Table.set 0 j.rr t.val (r.toNat + 1) }) s))) := by
  change execDescriptorFetch t r s = _
  simp [execDescriptorFetch, up, going, turn]

theorem exec_descriptorFetch_wait (other : nextRing s t.val ≠ some r.toNat) : exec (.descriptorFetch t r) s = .next s := by
  change execDescriptorFetch t r s = _
  simp [execDescriptorFetch, other]

theorem exec_jobStart_up (up : engineUp s (routeOf s r.toNat) = true) : exec (.jobStart r n) s = .next (settle (startJob r.toNat n.toNat s)) := by
  change execJobStart r n s = _
  rw [execJobStart, if_pos up]

theorem exec_abortUserRead_reads (up : engineUp s (routeOf s r.toNat) = true)
    (stops : (getRing s r.toNat).st = .aborting ∨ (getRing s r.toNat).st = .disabling) (loud : (getRing s r.toNat).quiet = false)
    (below : (getRing s r.toNat).head ≠ (getRing s r.toNat).mark) (idle : (getRing s r.toNat).reading = none)
    (room : cqRoom (getRing s r.toNat) = true) (slots : (getRing s r.toNat).inflight < 2048) :
    exec (.abortUserRead r) s = .next (settle (readDesc r.toNat true s)) := by
  change execAbortUserRead r s = _
  simp [execAbortUserRead, up, stops, loud, below, idle, room, slots]

end

/-! Parts (R235, R461). -/

section
variable {s : State} {r n : Nat} {j : Job}

theorem dispatchPart_cut (cut : cutOff s (routeOf s r) (partTile s j j.next) = true) : dispatchPart r n j s =
    settle (addReport r n ⟨j.next, .dataError, partOff s j j.next, false, false, partTile s j j.next, none⟩
      (setJob r n (some { j with next := j.next + 1 }) s)) := if_pos cut

variable (reach : cutOff s (routeOf s r) (partTile s j j.next) = false)
include reach

theorem dispatchPart_lines (copies : dType j.desc ≠ 3) : dispatchPart r n j s = settle (startPart r n j.next j
    (setPart r n j.next (some { tile := partTile s j j.next, phase := .lines, todo := [] }) (setJob r n (some { j with next := j.next + 1 }) s))) := by
  simp [dispatchPart, reach, copies]

theorem dispatchPart_ingest (ingests : dType j.desc = 3) : dispatchPart r n j s =
    setPart r n j.next (some { tile := partTile s j j.next, phase := .reading, todo := [hdrPart] }) (setJob r n (some { j with next := j.next + 1 }) s) := by
  simp [dispatchPart, reach, ingests]

end

/-- The turn of a serving tile goes on after the job. -/
def takeJobTurn (t key : Nat) (s : State) : State := onJob (fun x => { x with turn := Table.set 0 x.turn t (key + 1) }) s

section
variable {s : State} {r : RingId} {n : W32} {j : Job} (job : getJob s r.toNat n.toNat = some j)
include job

theorem exec_partDispatch_wait (other : nextJob s (routeOf s r.toNat) ≠ some (jobKey r.toNat n.toNat)) : exec (.partDispatch r n) s = .next s := by
  change execPartDispatch r n s = _
  simp [execPartDispatch, job, other]

theorem exec_partDispatch_turn (up : engineUp s (routeOf s r.toNat) = true) (going : quiesced s = false)
    (turn : nextJob s (routeOf s r.toNat) = some (jobKey r.toNat n.toNat)) : exec (.partDispatch r n) s =
      .next (dispatchPart r.toNat n.toNat j (takeJobTurn (routeOf s r.toNat) (jobKey r.toNat n.toNat) s)) := by
  change execPartDispatch r n s = _
  simp [execPartDispatch, job, up, going, turn, takeJobTurn]

end

/-! Reports (R236, R461). -/

/-- The part leaves its slot and is counted. -/
def leaveSlot (r n k tile : Nat) (s : State) : State := addCnt (tileCnt tile 474) 1 (setPart r n k none s)

section
variable {s : State} {r : RingId} {n : W32} {k : Nat} {lost : Bool} {p : Part} {j : Job} (part : getPart s r.toNat n.toNat k = some p)
  (job : getJob s r.toNat n.toNat = some j) (up : engineUp s p.tile = true) (ended : p.phase = .done)
include part job up ended

/-- A report that is lost counts as a data error at the part's first byte, whatever the part found. -/
theorem exec_partReport_lost : exec (.partReport r n k true) s = .next (settle (addReport r.toNat n.toNat
    ⟨k, .dataError, partOff s j k, false, false, p.tile, p.res⟩ (leaveSlot r.toNat n.toNat k p.tile s))) := by
  change execPartReport r n k true s = _
  simp [execPartReport, part, job, up, ended, leaveSlot]

variable (reach : cutOff s p.tile (routeOf s r.toNat) = false)
include reach

theorem exec_partReport_success (good : p.fail = none) : exec (.partReport r n k false) s = .next (settle (addReport r.toNat n.toNat
    ⟨k, .success, partOff s j k, false, p.multi, p.tile, p.res⟩ (leaveSlot r.toNat n.toNat k p.tile s))) := by
  change execPartReport r n k false s = _
  simp [execPartReport, part, job, up, ended, reach, good, leaveSlot]

theorem exec_partReport_failure {st : JobStatus} {o : Nat} (bad : p.fail = some (st, o)) : exec (.partReport r n k false) s =
    .next (settle (addReport r.toNat n.toNat ⟨k, st, if dType j.desc = 3 then partOff s j k else o, false, p.multi, p.tile, p.res⟩
      (leaveSlot r.toNat n.toNat k p.tile s))) := by
  change execPartReport r n k false s = _
  simp [execPartReport, part, job, up, ended, reach, bad, leaveSlot]

end

/-- Settles O54: each write acts by its agent's row and its ring's state, each command of jobs and parts by its law. -/
theorem ringsAndJobs : Obligations.RingsAndJobs := by
  unfold Obligations.RingsAndJobs
  refine ⟨fun _ _ _ _ _ _ _ => ⟨rfl, rfl, rfl, rfl, rfl, rfl, rfl⟩, ?rows, ?doorbells, ?enable,
    fun s r init zeroed => ⟨exec_ringInitDone_good init zeroed, exec_ringInitDone_bad init zeroed⟩, ?stop, ?stopAgain,
    fun s t r up quiet => ⟨exec_descriptorFetch_turn up quiet, exec_descriptorFetch_wait⟩, fun s r n => exec_jobStart_up,
    fun s r => exec_abortUserRead_reads, ?dispatch, ?report⟩
  case rows =>
    intro s r own f up
    exact ⟨ringWrite_full (a := .firmware) up rfl, ringWrite_full_cut (a := .firmware) up rfl, fun h l rights => ringWrite_full up (ringRow_rights rights),
      fun h l rights owner reach =>
        ⟨ringWrite_owner up (ringRow_owner rights owner) reach, ringWrite_owner up (ringRow_owner rights owner) reach⟩,
      fun h l rights other => ringWrite_denied up (ringRow_other rights other)⟩
  case doorbells =>
    exact fun s r v w => ⟨writeTail_within, writeTail_beyond, writeCqHead_within, writeCqHead_beyond,
      fun off => ⟨writeRingCfg_disabled off, writeRingBase_disabled off, writeRingBase_disabled off⟩,
      fun on => ⟨writeRingCfg_enabled on, writeRingBase_enabled on, writeRingBase_enabled on⟩⟩
  case enable =>
    intro s r off active day
    rw [enableWrite_disabled off active day]
    refine ⟨fun bad => ?_, fun ok => ?_⟩
    · rw [enableRing_fails bad]
      rfl
    · rw [enableRing_passes ok]
  case stop =>
    intro s r day runs
    rw [abortWrite_day day, disableWrite_day day, abortRing_running runs, disableRing_running runs]
    exact ⟨rfl, rfl⟩
  case stopAgain =>
    intro s r day
    rw [abortWrite_day day, disableWrite_day day]
    refine ⟨fun aborts => ?_, fun stopped => ?_, fun idle => ?_⟩
    · rw [disableRing_aborting aborts]
      rfl
    · rw [disableRing_stopped stopped]
    · rw [abortRing_idle idle]
  case dispatch =>
    intro s0 s r n j job up quiet
    refine ⟨exec_partDispatch_wait job, ?_⟩
    rintro turn rfl
    rw [exec_partDispatch_turn job up quiet turn]
    exact ⟨fun cut => congrArg _ (dispatchPart_cut cut),
      fun reach => ⟨fun copies => congrArg _ (dispatchPart_lines reach copies), fun ingests => congrArg _ (dispatchPart_ingest reach ingests)⟩⟩
  case report =>
    intro s r n k lost p j part job up ended
    refine ⟨?_, ?_, ?_⟩
    · rintro rfl
      exact exec_partReport_lost part job up ended
    · rintro rfl reach good
      exact exec_partReport_success part job up ended reach good
    · rintro st o rfl reach bad
      exact exec_partReport_failure part job up ended reach bad

end Sys2Proof.Machine
end

section
/-!
Packed assets (O55): the steps of an ingest part (R267–R269), then decompressors and map lines, decompressions and their ends (R250–R257), and a tile's
part of a commit (R271), one equation per command and case.
-/
namespace Sys2Proof.Machine

/-! Ingest parts (R259, R261, R267–R269). -/

section
variable {s : State} {r : RingId} {n : W32} {k : Nat} {p : Part} {job : Job} (part : getPart s r.toNat n.toNat k = some p)
  (hjob : getJob s r.toNat n.toNat = some job) (up : engineUp s p.tile = true)
include part hjob up

theorem exec_ingestZhoqPart_begins (fresh : partFresh p = true) (mode : inMode job.desc = 1) : exec (.ingestZhoqPart r n k) s =
    .next (settle (beginIngest r.toNat n.toNat k job [(entryIdx, (dSrc job.desc + entryOff job k) / 64)] s)) := by
  change execIngestZhoqPart r n k s = _
  simp [execIngestZhoqPart, part, hjob, up, fresh, mode]

variable {g : Region} (dest : destPacked s job.desc = some g)
include dest

theorem exec_ingestRawPart_begins (fresh : partFresh p = true) (mode : inMode job.desc = 0) : exec (.ingestRawPart r n k) s =
    .next (settle (beginIngest r.toNat n.toNat k job ((List.range (min (2 ^ g.blkLog) (dLen job.desc - k * 2 ^ g.blkLog) / 64)).map
      (fun i => (i, (dSrc job.desc + k * 2 ^ g.blkLog) / 64 + i))) s)) := by
  change execIngestRawPart r n k s = _
  simp [execIngestRawPart, part, hjob, dest, up, fresh, mode]

/-- A part that still compresses after its stream was stored waits for its store page, and nothing is counted. -/
theorem exec_compressDone_stores {s1 : State} {q : Part} (busy : p.phase = .compressing)
    (stored : s1 = storeStream r.toNat n.toNat k g (compressOf (2 ^ g.blkLog) p.stream (inHuff job.desc) (inEffort job.desc)).1
      (compressOf (2 ^ g.blkLog) p.stream (inHuff job.desc) (inEffort job.desc)).2 s)
    (after : getPart s1 r.toNat n.toNat k = some q) : exec (.compressDone r n k) s =
      .next (grantComp p.tile (if q.phase = .compressing then s1 else addCnt (tileCnt p.tile 465) (2 ^ g.blkLog / 64) s1)) := by
  change execCompressDone r n k s = _
  simp only [execCompressDone, part, hjob, dest, up, busy, ← stored, after]
  by_cases still : q.phase = .compressing <;> simp [still]

theorem exec_validationDone_checked (busy : p.phase = .validating) : exec (.validationDone r n k) s =
    .next (grantVal p.tile (validated r.toNat n.toNat k g p (inflate (2 ^ g.blkLog) p.stream) s)) := by
  change execValidationDone r n k s = _
  simp [execValidationDone, part, hjob, dest, up, busy]

end

section
variable {r n k : Nat} {g : Region} {p : Part} {s : State}

theorem validated_none_badDesc (good : p.fail = none) : validated r n k g p none s = setPart r n k (some (partFail .badDesc p)) s := by
  simp only [validated, good]

theorem validated_none_failed {st : JobStatus} {o : Nat} (bad : p.fail = some (st, o)) :
    validated r n k g p none s = setPart r n k (some (partFail st p)) s := by
  simp only [validated, bad]

end

theorem compressOf_decodes {b : Nat} {block : Bytes} {huff effort : Nat} (back : (inflate b (emitStream block huff effort)).map (·.1) = some block) :
    (compressOf b block huff effort).1 = emitStream block huff effort := if_pos back

/-! Decompressors (R251, R257). -/

section
variable {s : State} {t : TileId} (up : engineUp s t.val = true) (free : decsOn s t.val + validating s t.val < 12)
include up free

theorem exec_decompressorGrant_validation (idle : firstWaiting s t.val = none) : exec (.decompressorGrant t) s = .next (grantVal t.val s) := by
  change execDecompressorGrant t s = _
  simp [execDecompressorGrant, up, free.not_ge, idle]

theorem exec_decompressorGrant_oldest {d : Decomp} {r : Region} (first : firstWaiting s t.val = some d) (region : regionOf s d.region = some r) :
    exec (.decompressorGrant t) s = .next (askRun r t.val (getMap s t.val r.idx (d.block >>> tileBits s)) (decPrio s d)
      (addCnt (tileCnt t.val 463) 1 (onDec d.region d.block (fun d => { d with granted := true }) s))) := by
  change execDecompressorGrant t s = _
  simp [execDecompressorGrant, up, free.not_ge, first, region]

end

/-- No block of the tile waits: each has its decompressor or reads its map line still. -/
theorem firstWaiting_eq_none {s : State} {t : Nat} (none_waits : ∀ d ∈ s.pk.decs, d.tile = t → d.granted = true ∨ d.mapWait = true) :
    firstWaiting s t = none := by
  refine List.find?_eq_none.2 fun d mem waits => ?_
  simp only [Bool.and_eq_true, decide_eq_true_eq, Bool.not_eq_true'] at waits
  obtain ⟨⟨tile, ungranted⟩, unasked⟩ := waits
  simpa [ungranted, unasked] using none_waits d mem tile

/-! Map lines (R250, R251, R255). -/

theorem exec_mediaReadData_packed {s : State} {line : LineAddr} {r : Region} {flips : Flips} {shadow : ShadowFlips}
    (region : regionAt s (64 * line.toNat) = some r) (packed : r.typ = .packed) (up : engineUp s (homeOf s line.toNat) = true) :
    exec (.mediaReadData line flips shadow) s = .next (settle (mapArrive r line.toNat flips s)) := by
  change execMediaReadData line flips shadow s = _
  simp [execMediaReadData, region, packed, up]

section
variable {s : State} {r : Region} {l : Nat} {flips : Flips} {d : Decomp} (dec : decOf s r.idx (blockOf s r l).block = some d) (waits : d.mapWait = true)
include dec waits

theorem mapArrive_lost (lost : storeLost s r (blockOf s r l).tile 2 ((blockOf s r l).idx / 4) = true) :
    mapArrive r l flips s = giveAll r (blockOf s r l).block .err (dropDec r.idx (blockOf s r l).block s) := by
  simp [mapArrive, dec, waits, lost]

theorem mapArrive_read (held : storeLost s r (blockOf s r l).tile 2 ((blockOf s r l).idx / 4) = false)
    (come : (storeGet s r (blockOf s r l).tile 2 ((blockOf s r l).idx / 4)).isSome = true)
    (queued : mapQueued s r (blockOf s r l).tile (blockOf s r l).idx = true) : mapArrive r l flips s =
      mapEnd r (blockOf s r l).tile (blockOf s r l).block (mapBad s r (blockOf s r l).tile (blockOf s r l).idx flips)
        (storeRead r (blockOf s r l).tile 2 ((blockOf s r l).idx / 4) flips {} s).1
        (storeRead r (blockOf s r l).tile 2 ((blockOf s r l).idx / 4) flips {} s).2 := by
  have present : (storeGet s r (blockOf s r l).tile 2 ((blockOf s r l).idx / 4)).isNone = false := by simpa using come
  simp only [mapArrive, dec, waits, held, present, queued, Bool.not_true, Bool.or_self, Bool.false_eq_true, if_false]

end

section
variable {r : Region} {t b : Nat} {bad : List Nat} {d : Line} {s : State}

theorem mapEnd_stream (fmt : (getMap s t r.idx (b >>> tileBits s)).fmt = 1) :
    mapEnd r t b bad (.data d) s = takeDecomp r t b (cacheMap t r.idx (b >>> tileBits s) s) := if_pos fmt

theorem mapEnd_answers (no_stream : (getMap s t r.idx (b >>> tileBits s)).fmt ≠ 1) (no_fault : (getMap s t r.idx (b >>> tileBits s)).fmt ≠ 3) :
    mapEnd r t b bad (.data d) s = giveEntry r b (getMap s t r.idx (b >>> tileBits s)) (cacheMap t r.idx (b >>> tileBits s) s) := by
  simp only [mapEnd, no_stream, no_fault, if_false]

end

/-- The number 8 stands for a whole line that was lost: each of its four entries is. -/
theorem mapLineLost_whole {r : Region} {t m : Nat} {o : Option Nat} {s : State} : mapLineLost r t m o [8] s = (List.range 4).foldl (fun s i =>
    if 4 * m + i < blocksPer s r ∧ (getMap s t r.idx (4 * m + i)).fmt ≠ 2 then poisonBlock r (blockAt s r t (4 * m + i)) .map s else s) s := by
  simp [mapLineLost, List.foldl_map]

/-! Ends of decompressions (R251, R254, R255). -/

/-- PK_DECODE is raised for a block whose stream does not decode (R254). -/
def decodeFault (r : Region) (t b : Nat) (s : State) : State := raiseBit .pkSts t 30 (raiseWith (tileSrc t .pkDecode)
  { addr := BitVec.ofNat 64 (64 * blockLine r b), detail := BitVec.ofNat 32 r.idx } {} s)

/-- With every tag of a tile's lines in the region's store verified, DECODE_RETRY waits for none. -/
theorem no_verification {s : State} {t g : Nat} (verified : ∀ v ∈ s.cry.verifs, v.tile = t → v.region = g → v.isSa = false) :
    s.cry.verifs.any (fun v => decide (v.tile = t) && decide (v.region = g) && v.isSa) = false := by
  simpa using verified

section
variable {s : State} {region : RegionId} {block : BitVec 36} {d : Decomp} {r : Region} (dec : decOf s region.val block.toNat = some d)
  (hr : regionOf s region.val = some r) (up : engineUp s d.tile = true)
include dec hr up

section
variable {flips : List (Nat × Flips)} {e : MapEnt} (granted : d.granted = true) (going : d.failed = false)
  (entry : e = getMap s d.tile r.idx (block.toNat >>> tileBits s))
include granted going entry

theorem exec_decompressEnd_lost (lost : ∃ k, k < 4 * unitsOf e.clen ∧ storeLost s r d.tile 1 (4 * e.run + k) = true) :
    exec (.decompressEnd region block flips) s = .next (settle (giveAll r block.toNat .err (dropDec r.idx block.toNat s))) := by
  subst entry
  change execDecompressEnd region block flips s = _
  simp [execDecompressEnd, dec, hr, up, granted, going, lost]

theorem exec_decompressEnd_read (come : ∀ k, k < 4 * unitsOf e.clen →
      storeLost s r d.tile 1 (4 * e.run + k) = false ∧ (storeGet s r d.tile 1 (4 * e.run + k)).isSome = true)
    {f : Nat → Flips} (errors : ∀ k, f k = ((flips.find? (fun x => x.1 = k)).map (·.2)).getD 0#648) :
    exec (.decompressEnd region block flips) s = .next (runEnd r d.tile block.toNat e.clen (readRun r d.tile e f {} (runShadow r d.tile e f s)).1
      (readRun r d.tile e f {} (runShadow r d.tile e f s)).2) := by
  obtain rfl : f = _ := funext errors
  subst entry
  set e := getMap s d.tile r.idx (block.toNat >>> tileBits s) with entry
  have held : ((List.range (4 * unitsOf e.clen)).map (fun k => 4 * e.run + k)).any (fun k => storeLost s r d.tile 1 k) = false := by
    simpa using fun k bound => (come k bound).1
  have arrived : ((List.range (4 * unitsOf e.clen)).map (fun k => 4 * e.run + k)).any (fun k => (storeGet s r d.tile 1 k).isNone) = false := by
    simpa [Option.isSome_iff_ne_none] using fun k bound => (come k bound).2
  change execDecompressEnd region block flips s = _
  simp only [execDecompressEnd, dec, hr, up, granted, going, ← entry, held, arrived, Bool.not_true, Bool.or_self, Bool.false_eq_true, if_false]

end

section
variable (failed : d.failed = true) (verified : ∀ v ∈ s.cry.verifs, v.tile = d.tile → v.region = r.idx → v.isSa = false)
include failed verified

theorem exec_decodeRetry_second (second : d.second = true) : exec (.decodeRetry region block) s = .next (settle (giveAll r block.toNat (.val poisonVal)
    (dropDec r.idx block.toNat (poisonBlock r block.toNat .store (decodeFault r d.tile block.toNat s))))) := by
  change execDecodeRetry region block s = _
  simp only [execDecodeRetry, dec, hr, up, failed, no_verification verified, second, Bool.not_true, Bool.or_self, Bool.false_eq_true, if_false, if_true]
  rfl

theorem exec_decodeRetry_first (first : d.second = false) : exec (.decodeRetry region block) s = .next (askRun r d.tile
    (getMap (decodeFault r d.tile block.toNat s) d.tile r.idx (block.toNat >>> tileBits s)) (decPrio (decodeFault r d.tile block.toNat s) d)
    (addCnt (tileCnt d.tile 463) 1 (onDec r.idx block.toNat (fun d => { d with failed := false, second := true }) (decodeFault r d.tile block.toNat s)))) := by
  change execDecodeRetry region block s = _
  simp only [execDecodeRetry, dec, hr, up, failed, no_verification verified, first, Bool.not_true, Bool.or_self, Bool.false_eq_true, if_false]
  rfl

end

end

/-! Commits (R271). -/

section
variable {s : State} {t : TileId} {r : RingId} {n : W32} {j : Job} {g : Region} {c : Commit} (hjob : getJob s r.toNat n.toNat = some j)
  (dest : destPacked s j.desc = some g) (first : firstCommit s t.val = some c)
include hjob dest first

theorem exec_ingestCommit_goes (up : engineUp s t.val = true) (ring : c.ring = r.toNat) (number : c.n = n.toNat) : exec (.ingestCommit t r n) s =
    .next (settle (commitGo (2 * (commitBlocks g j t.val).length + 1) g t.val (ringAttr (getRing s r.toNat)) (commitBlocks g j t.val) s)) := by
  change execIngestCommit t r n s = _
  simp [execIngestCommit, hjob, dest, first, up, ring, number]

theorem exec_ingestCommit_waits (other : c.ring ≠ r.toNat ∨ c.n ≠ n.toNat) : exec (.ingestCommit t r n) s = .next s := by
  change execIngestCommit t r n s = _
  simp only [execIngestCommit, hjob, dest, first, not_and_or.2 other, decide_false, Bool.not_false, Bool.or_true, if_true]

end

section
variable {s : State} {f t : Nat} {g : Region} {a : Attr} {bs : List (Nat × BlkRes)} {c : Commit} (first : firstCommit s t = some c)
include first

theorem commitGo_ended (ended : bs[c.applied]? = none) : commitGo (f + 1) g t a bs s = commitDone g c s := by
  simp only [commitGo, first, ended]

variable {b : Nat × BlkRes} (next : bs[c.applied]? = some b)
include next

section
variable (unlocked : lockOf s g.idx b.1 = none)
include unlocked

theorem commitGo_held (held : lockFree s g b.1 = false) : commitGo (f + 1) g t a bs s = s := by
  simp [commitGo, first, next, unlocked, held]

theorem commitGo_locks (free : lockFree s g b.1 = true) : commitGo (f + 1) g t a bs s =
    commitGo f g t a bs ((heldLines s g t b.1).foldl (fun s l => invalidate t l a s)
      { s with pk := { s.pk with locks := s.pk.locks ++ [{ tile := t, region := g.idx, block := b.1 }] } }) := by
  simp [commitGo, first, next, unlocked, free, onPk]

end

section
variable (locked : (lockOf s g.idx b.1).isSome = true)
include locked

theorem commitGo_invalidating (copies : ∃ l ∈ blockLines g b.1, invalidating s l = true) : commitGo (f + 1) g t a bs s = s := by
  obtain ⟨lock, locked⟩ := Option.isSome_iff_exists.1 locked
  simp only [commitGo, first, next, locked, List.any_eq_true.2 copies, if_true]

theorem commitGo_applies (gone : ∀ l ∈ blockLines g b.1, invalidating s l = false) (ready : storeReady s g t 2 (b.1 >>> tileBits s / 4) = true) :
    commitGo (f + 1) g t a bs s = commitGo f g t a bs
      (onCommit c (fun c => { c with applied := c.applied + 1 }) (releaseLock g.idx b.1 (commitBlock g t c.ring c.n b s))) := by
  obtain ⟨lock, locked⟩ := Option.isSome_iff_exists.1 locked
  have none_left : (blockLines g b.1).any (invalidating s) = false := List.any_eq_false.2 fun l mem => by simp [gone l mem]
  simp only [commitGo, first, next, locked, none_left, ready, Bool.not_true, Bool.false_eq_true, if_false]

end

end

/-! A block's map entry and runs (R271). -/

/-- The entry that a commit writes for a block's result: GEN is one higher than the old entry's. -/
def committedEntry (old : MapEnt) (x : BlkRes) : MapEnt :=
  { run := x.run, fmt := x.fmt, dblk := x.dblk, clen := x.clen, gen := (old.gen + 1) % 2 ^ 32, units := x.units }

/-- Block `b`'s place in the destination of job `j`. -/
def blockPlace (r : Region) (b : Nat) (j : Job) : Nat := b - (dDst j.desc - r.base) / 2 ^ r.blkLog

/-- The run of block `b`'s result on tile `t` is no longer pending. -/
def settledRun (r : Region) (t b : Nat) (j : Job) : Job :=
  { j with reports := j.reports.map (fun p => if p.tile = t ∧ p.j = blockPlace r b j then { p with blk := p.blk.map (fun x => { x with units := 0 }) } else p) }

/-- Block `b` counts among those whose entry could not be written. -/
def withLostBlock (r : Region) (b : Nat) (j : Job) : Job := { j with lostBlks := j.lostBlks ++ [blockPlace r b j] }

/-- The job of a slot, where one stands in it, becomes `f` of it. -/
def onJobAt (rg n : Nat) (f : Job → Job) (s : State) : State := match getJob s rg n with | some j => setJob rg n (some (f j)) s | none => s

theorem onJobAt_some {s : State} {rg n : Nat} {f : Job → Job} {j : Job} (job : getJob s rg n = some j) :
    onJobAt rg n f s = setJob rg n (some (f j)) s := by
  simp only [onJobAt, job]

theorem onJobAt_none {s : State} {rg n : Nat} {f : Job → Job} (empty : getJob s rg n = none) : onJobAt rg n f s = s := by
  simp only [onJobAt, empty]

/-- A commit's write of block `x.1`'s map entry, with the rights and class of the ring, once its run is no longer pending: whether it was made. -/
def commitWrite (r : Region) (t rg n : Nat) (x : Nat × BlkRes) (s : State) : Bool × State :=
  let s0 := onJobAt rg n (settledRun r t x.1) s
  writeMap r t (x.1 >>> tileBits s) (committedEntry (getMap s t r.idx (x.1 >>> tileBits s)) x.2) ⟨rgOwner (getRing s0 rg), 1, some (rgClass (getRing s0 rg))⟩ s0

/-- A run of `units` units that is there is freed. -/
def freeHeld (t region a units : Nat) (s : State) : State := if units = 0 then s else freeRun t region a units s

theorem commitBlock_eq (r : Region) (t rg n : Nat) (x : Nat × BlkRes) (s : State) : commitBlock r t rg n x s =
    if (commitWrite r t rg n x s).1 then
      freeHeld t r.idx (getMap s t r.idx (x.1 >>> tileBits s)).run (getMap s t r.idx (x.1 >>> tileBits s)).units
        (dropPoison (64 * blockLine r x.1) (2 ^ r.blkLog) (commitWrite r t rg n x s).2)
    else onJobAt rg n (withLostBlock r x.1)
      (uncacheMap t r.idx (x.1 >>> tileBits s) (freeHeld t r.idx x.2.run x.2.units (commitWrite r t rg n x s).2)) := rfl

section
variable {s s1 : State} {r : Region} {t rg n : Nat} {x : Nat × BlkRes}

theorem commitBlock_written (written : commitWrite r t rg n x s = (true, s1)) : commitBlock r t rg n x s =
    freeHeld t r.idx (getMap s t r.idx (x.1 >>> tileBits s)).run (getMap s t r.idx (x.1 >>> tileBits s)).units
      (dropPoison (64 * blockLine r x.1) (2 ^ r.blkLog) s1) := by
  rw [commitBlock_eq, written, if_pos rfl]

theorem commitBlock_unwritten (unwritten : commitWrite r t rg n x s = (false, s1)) : commitBlock r t rg n x s =
    onJobAt rg n (withLostBlock r x.1) (uncacheMap t r.idx (x.1 >>> tileBits s) (freeHeld t r.idx x.2.run x.2.units s1)) := by
  rw [commitBlock_eq, unwritten, if_neg Bool.false_ne_true]

end

/-- Settles O55: each clause is the equation of its command, or of the step that a command takes, in its case. -/
theorem ingestAndPacked : Obligations.IngestAndPacked := by
  unfold Obligations.IngestAndPacked
  refine ⟨?ingest, fun r n k d g p out s => ⟨validated_none_badDesc, fun st o => validated_none_failed, rfl⟩,
    fun b block huff effort => ⟨rfl, compressOf_decodes⟩, ?grant, ?mapLine, ?runRead, ?ends, ?retry, ?commit, ?commitSteps, ?commitBlock⟩
  case ingest =>
    exact fun s r n k p job g part hjob dest up => ⟨exec_ingestRawPart_begins part hjob up dest, exec_ingestZhoqPart_begins part hjob up,
      fun s1 busy stored q => exec_compressDone_stores part hjob up dest busy stored, exec_validationDone_checked part hjob up dest⟩
  case grant =>
    exact fun s t up free => ⟨fun none_waits => exec_decompressorGrant_validation up free (firstWaiting_eq_none none_waits),
      fun d r => exec_decompressorGrant_oldest up free⟩
  case mapLine =>
    rintro s line r flips shadow d _ _ _ region packed up rfl rfl rfl dec waits
    rw [exec_mediaReadData_packed region packed up]
    exact ⟨fun lost => by rw [mapArrive_lost dec waits lost], fun held come queued => by rw [mapArrive_read dec waits held come queued]⟩
  case runRead =>
    intro s region block flips d r e dec hr up granted going entry
    refine ⟨exec_decompressEnd_lost dec hr up granted going entry, ?_⟩
    rintro f _ errors come rfl
    exact exec_decompressEnd_read dec hr up granted going entry come errors
  case ends =>
    rintro r t b clen d x out k s _ rfl
    exact ⟨mapEnd_stream, mapEnd_answers, rfl, rfl, fun m o => mapLineLost_whole, rfl, rfl, rfl, rfl, rfl⟩
  case retry =>
    rintro s region block d r _ dec hr up failed verified rfl
    exact ⟨exec_decodeRetry_second dec hr up failed verified, exec_decodeRetry_first dec hr up failed verified⟩
  case commit =>
    exact fun s t r n j g hjob dest up =>
      ⟨fun c first => exec_ingestCommit_goes hjob dest first up, fun c first => exec_ingestCommit_waits hjob dest first⟩
  case commitSteps =>
    exact fun s f t g a bs c first => ⟨commitGo_ended first, fun b next => ⟨commitGo_held first next, commitGo_locks first next,
      commitGo_invalidating first next, commitGo_applies first next⟩⟩
  case commitBlock =>
    rintro s s0 s1 s2 r t rg n x _ ok rfl marked empty write
    obtain rfl : s0 = onJobAt rg n (settledRun r t x.1) s := by
      cases job : getJob s rg n with
      | some j => exact (marked j job).trans (onJobAt_some (f := settledRun r t x.1) job).symm
      | none => exact (empty job).trans (onJobAt_none (f := settledRun r t x.1) job).symm
    refine ⟨?_, ?_⟩
    · rintro rfl rfl
      exact commitBlock_written write
    · rintro rfl rfl
      rw [commitBlock_unwritten write]
      exact ⟨onJobAt_none, fun j => onJobAt_some⟩

end Sys2Proof.Machine
end

section
/-!
What every command keeps (O7, O8): one law over the commands from the laws of each, then the locks that only a reset ends and the key slots.
-/
namespace Sys2Proof.Machine

/-- Every command keeps what `Keeps` names, but for the two that release a reset (R334, R336) and the two that can install a key (R65, R277).
An arm names the operands that its meaning does not read, for unification does not find them there. -/
theorem exec_keeps (c : Instr) (s : State) : Keeps.Out s (exec c s) ∨ c = .porRelease ∨ c = .resetNRelease ∨ (∃ v x, c = .installKey v x) ∨
    ∃ h sid x, c = .vendorDefinedRequest h sid x :=
  match c with
  | .powerOnReset => .inl keeps_execPowerOnReset
  | .porRelease => .inr (.inl rfl)
  | .resetNAssert => .inl keeps_execResetNAssert
  | .resetNDriveEnd => .inl keeps_execResetNDriveEnd
  | .resetNRelease => .inr (.inr (.inl rfl))
  | .tapReset => .inl keeps_execTapReset
  | .feedInRange .. => .inl keeps_execFeedInRange
  | .feedOutOfRange .. => .inl keeps_execFeedOutOfRange
  | .oringReverse .. => .inl keeps_execOringReverse
  | .oringReenable .. => .inl keeps_execOringReenable
  | .oringFetShort .. => .inl keeps_execOringFetShort
  | .telemetrySample .. => .inl keeps_execTelemetrySample
  | .presentQualified => .inl keeps_execPresentQualified
  | .removal .. => .inl keeps_execRemoval
  | .channelStart .. => .inl keeps_execChannelStart
  | .damagedFetTest .. => .inl keeps_execDamagedFetTest
  | .outputReachesInput .. => .inl keeps_execOutputReachesInput
  | .startLimitExpiry .. => .inl keeps_execStartLimitExpiry
  | .powerGoodQualified .. => .inl keeps_execPowerGoodQualified
  | .channelOvercurrent .. => .inl keeps_execChannelOvercurrent
  | .faultTimerExpiry .. => .inl keeps_execFaultTimerExpiry
  | .fastTrip .. => .inl keeps_execFastTrip
  | .retryOffTimeExpiry .. => .inl keeps_execRetryOffTimeExpiry
  | .privilegedRetryExpiry .. => .inl keeps_execPrivilegedRetryExpiry
  | .attemptsReset .. => .inl keeps_execAttemptsReset
  | .ibcPgQualified => .inl keeps_execIbcPgQualified
  | .ibcPgTimeout => .inl keeps_execIbcPgTimeout
  | .ibcPgFall => .inl keeps_execIbcPgFall
  | .trailPgGood .. => .inl keeps_execTrailPgGood
  | .railEnable .. => .inl keeps_execRailEnable
  | .trailPgTimeout .. => .inl keeps_execTrailPgTimeout
  | .trailPgFall .. => .inl keeps_execTrailPgFall
  | .powerWindow => .inl keeps_execPowerWindow
  | .throttleDown => .inl keeps_execThrottleDown
  | .powerCapExceeded => .inl keeps_execPowerCapExceeded
  | .poweredHour => .inl keeps_execPoweredHour
  | .svLinkFrame .. => .inl keeps_execSvLinkFrame
  | .svLinkResend .. => .inl keeps_execSvLinkResend
  | .svLinkIdleFrame => .inl keeps_execSvLinkIdleFrame
  | .svLinkDown => .inl keeps_execSvLinkDown
  | .svLinkRetrain .. => .inl keeps_execSvLinkRetrain
  | .logRecordSubmit .. => .inl keeps_execLogRecordSubmit
  | .logRecordWriteDone .. => .inl keeps_execLogRecordWriteDone
  | .logHintWriteDone .. => .inl keeps_execLogHintWriteDone
  | .logScanDone => .inl keeps_execLogScanDone
  | .faultRecordWrite => .inl keeps_execFaultRecordWrite
  | .faultStsClear .. => .inl keeps_execFaultStsClear
  | .faultForce .. => .inl keeps_execFaultForce
  | .graceWindowExpiry .. => .inl keeps_execGraceWindowExpiry
  | .quiesceComplete => .inl keeps_execQuiesceComplete
  | .quiesceLate => .inl keeps_execQuiesceLate
  | .verifyComplete .. => .inl keeps_execVerifyComplete
  | .windowBoundary .. => .inl keeps_execWindowBoundary
  | .cntWinCfgWrite .. => .inl keeps_execCntWinCfgWrite
  | .counterLowRead .. => .inl keeps_execCounterLowRead
  | .statusImageRefresh => .inl keeps_execStatusImageRefresh
  | .setdasa .. => .inl keeps_execSetdasa
  | .entdaa .. => .inl keeps_execEntdaa
  | .i3cMandatoryCcc .. => .inl keeps_execI3cMandatoryCcc
  | .setEndpointId .. => .inl keeps_execSetEndpointId
  | .getEndpointId => .inl keeps_execGetEndpointId
  | .getEndpointUuid => .inl keeps_execGetEndpointUuid
  | .getMctpVersionSupport .. => .inl keeps_execGetMctpVersionSupport
  | .getMessageTypeSupport => .inl keeps_execGetMessageTypeSupport
  | .getVendorDefinedMessageSupport .. => .inl keeps_execGetVendorDefinedMessageSupport
  | .mctpMessageDiscard x => .inl (keeps_execMctpMessageDiscard (id := x))
  | .getStatusImageInfo .. => .inl keeps_execGetStatusImageInfo
  | .readStatusImage .. => .inl keeps_execReadStatusImage
  | .i3cReservedCommand .. => .inl keeps_execI3cReservedCommand
  | .linkUp .. => .inl keeps_execLinkUp
  | .cxlNegotiationFail .. => .inl keeps_execCxlNegotiationFail
  | .headReady .. => .inl keeps_execHeadReady
  | .perstNAssert .. => .inl keeps_execPerstNAssert
  | .perstNRelease .. => .inl keeps_execPerstNRelease
  | .hotReset .. => .inl keeps_execHotReset
  | .linkDisable .. => .inl keeps_execLinkDisable
  | .secondaryBusReset .. => .inl keeps_execSecondaryBusReset
  | .surpriseLinkDown .. => .inl keeps_execSurpriseLinkDown
  | .configurationRequest .. => .inl keeps_execConfigurationRequest
  | .memRd .. => .inl keeps_execMemRd
  | .memRdData .. => .inl keeps_execMemRdData
  | .memWr .. => .inl keeps_execMemWr
  | .memWrPtl .. => .inl keeps_execMemWrPtl
  | .memInv .. => .inl keeps_execMemInv
  | .memClnEvct .. => .inl keeps_execMemClnEvct
  | .birsp .. => .inl keeps_execBirsp
  | .biconflict .. => .inl keeps_execBiconflict
  | .atomicOp .. => .inl keeps_execAtomicOp
  | .poisonedWriteTlp .. => .inl keeps_execPoisonedWriteTlp
  | .decoderCommit .. => .inl keeps_execDecoderCommit
  | .registerWrite .. => .inl keeps_execRegisterWrite
  | .firmwareRequest .. => .inl keeps_execFirmwareRequest
  | .identify .. => .inl keeps_execIdentify
  | .backgroundOperationStatus .. => .inl keeps_execBackgroundOperationStatus
  | .getResponseMessageLimit .. => .inl keeps_execGetResponseMessageLimit
  | .setResponseMessageLimit .. => .inl keeps_execSetResponseMessageLimit
  | .requestAbortBackgroundOperation .. => .inl keeps_execRequestAbortBackgroundOperation
  | .getEventRecords .. => .inl keeps_execGetEventRecords
  | .clearEventRecords .. => .inl keeps_execClearEventRecords
  | .getEventInterruptPolicy .. => .inl keeps_execGetEventInterruptPolicy
  | .setEventInterruptPolicy .. => .inl keeps_execSetEventInterruptPolicy
  | .getFwInfo .. => .inl keeps_execGetFwInfo
  | .transferFw .. => .inl keeps_execTransferFw
  | .transferFwDone => .inl keeps_execTransferFwDone
  | .activateFw f b o => .inl (keeps_execActivateFw (f := f) (slotB := b) (online := o))
  | .getTimestamp .. => .inl keeps_execGetTimestamp
  | .setTimestamp .. => .inl keeps_execSetTimestamp
  | .getSupportedLogs .. => .inl keeps_execGetSupportedLogs
  | .getLog .. => .inl keeps_execGetLog
  | .getLogCapabilities .. => .inl keeps_execGetLogCapabilities
  | .clearLog .. => .inl keeps_execClearLog
  | .getSupportedLogsSubList .. => .inl keeps_execGetSupportedLogsSubList
  | .getSupportedFeatures .. => .inl keeps_execGetSupportedFeatures
  | .getFeature _ x => .inl (keeps_execGetFeature (id := x))
  | .setFeature _ x => .inl (keeps_execSetFeature (id := x))
  | .identifyMemoryDevice .. => .inl keeps_execIdentifyMemoryDevice
  | .getPartitionInfo .. => .inl keeps_execGetPartitionInfo
  | .getHealthInfo .. => .inl keeps_execGetHealthInfo
  | .getAlertConfiguration .. => .inl keeps_execGetAlertConfiguration
  | .setAlertConfiguration .. => .inl keeps_execSetAlertConfiguration
  | .getPoisonList .. => .inl keeps_execGetPoisonList
  | .injectPoison .. => .inl keeps_execInjectPoison
  | .clearPoison .. => .inl keeps_execClearPoison
  | .getDynamicCapacityConfiguration .. => .inl keeps_execGetDynamicCapacityConfiguration
  | .getDynamicCapacityExtentList .. => .inl keeps_execGetDynamicCapacityExtentList
  | .addDynamicCapacityResponse .. => .inl keeps_execAddDynamicCapacityResponse
  | .releaseDynamicCapacity .. => .inl keeps_execReleaseDynamicCapacity
  | .dcOfferTimeout .. => .inl keeps_execDcOfferTimeout
  | .getLdInfo .. => .inl keeps_execGetLdInfo
  | .getLdAllocations .. => .inl keeps_execGetLdAllocations
  | .getQosControl .. => .inl keeps_execGetQosControl
  | .getQosStatus .. => .inl keeps_execGetQosStatus
  | .getQosAllocatedBw .. => .inl keeps_execGetQosAllocatedBw
  | .getQosBwLimit .. => .inl keeps_execGetQosBwLimit
  | .getMultiHeadedInfo .. => .inl keeps_execGetMultiHeadedInfo
  | .getHeadInfo .. => .inl keeps_execGetHeadInfo
  | .getDcdInfo .. => .inl keeps_execGetDcdInfo
  | .getHostDcRegionConfiguration .. => .inl keeps_execGetHostDcRegionConfiguration
  | .getDcRegionExtentLists .. => .inl keeps_execGetDcRegionExtentLists
  | .initiateDynamicCapacityAdd .. => .inl keeps_execInitiateDynamicCapacityAdd
  | .initiateDynamicCapacityRelease .. => .inl keeps_execInitiateDynamicCapacityRelease
  | .getIluisStatus .. => .inl keeps_execGetIluisStatus
  | .setSurroundings .. => .inl keeps_execSetSurroundings
  | .getSurroundings .. => .inl keeps_execGetSurroundings
  | .getAdmissionReport .. => .inl keeps_execGetAdmissionReport
  | .getFaultSummary .. => .inl keeps_execGetFaultSummary
  | .installKey .. => .inr (.inr (.inr (.inl ⟨_, _, rfl⟩)))
  | .retireKey .. => .inl keeps_execRetireKey
  | .startTwilight .. => .inl keeps_execStartTwilight
  | .getTwilightStatus .. => .inl keeps_execGetTwilightStatus
  | .readLogRecords .. => .inl keeps_execReadLogRecords
  | .unsupportedCommand .. => .inl keeps_execUnsupportedCommand
  | .doeDiscovery .. => .inl keeps_execDoeDiscovery
  | .tableAccess .. => .inl keeps_execTableAccess
  | .getCertificate .. => .inl keeps_execGetCertificate
  | .challenge .. => .inl keeps_execChallenge
  | .getMeasurements .. => .inl keeps_execGetMeasurements
  | .keyExchange .. => .inl keeps_execKeyExchange
  | .pskExchange .. => .inl keeps_execPskExchange
  | .setCertificate .. => .inl keeps_execSetCertificate
  | .getCsr .. => .inl keeps_execGetCsr
  | .heartbeat .. => .inl keeps_execHeartbeat
  | .keyUpdate .. => .inl keeps_execKeyUpdate
  | .vendorDefinedRequest .. => .inr (.inr (.inr (.inr ⟨_, _, _, rfl⟩)))
  | .koistTrainTimeout .. => .inl keeps_execKoistTrainTimeout
  | .koistModuleLost .. => .inl keeps_execKoistModuleLost
  | .rdShared .. => .inl keeps_execRdShared
  | .rdOwn .. => .inl keeps_execRdOwn
  | .rdCur .. => .inl keeps_execRdCur
  | .wrLine .. => .inl keeps_execWrLine
  | .wrPart .. => .inl keeps_execWrPart
  | .hostCe .. => .inl keeps_execHostCe
  | .farAtom .. => .inl keeps_execFarAtom
  | .snpInv .. => .inl keeps_execSnpInv
  | .snpShare .. => .inl keeps_execSnpShare
  | .snpOwn .. => .inl keeps_execSnpOwn
  | .snpCur .. => .inl keeps_execSnpCur
  | .datS .. => .inl keeps_execDatS
  | .datE .. => .inl keeps_execDatE
  | .datX .. => .inl keeps_execDatX
  | .grant .. => .inl keeps_execGrant
  | .fwdNote .. => .inl keeps_execFwdNote
  | .wbAck .. => .inl keeps_execWbAck
  | .cmp .. => .inl keeps_execCmp
  | .biSnpReq .. => .inl keeps_execBiSnpReq
  | .biAckReq .. => .inl keeps_execBiAckReq
  | .snpRspI .. => .inl keeps_execSnpRspI
  | .snpRspIData .. => .inl keeps_execSnpRspIData
  | .snpRspFwd .. => .inl keeps_execSnpRspFwd
  | .snpRspFwdS .. => .inl keeps_execSnpRspFwdS
  | .wbData .. => .inl keeps_execWbData
  | .biRspFwd .. => .inl keeps_execBiRspFwd
  | .hostWb .. => .inl keeps_execHostWb
  | .biConflictFwd .. => .inl keeps_execBiConflictFwd
  | .fdatS .. => .inl keeps_execFdatS
  | .fdatE .. => .inl keeps_execFdatE
  | .fdatM .. => .inl keeps_execFdatM
  | .fdatX .. => .inl keeps_execFdatX
  | .atomRes .. => .inl keeps_execAtomRes
  | .mediaReadData .. => .inl keeps_execMediaReadData
  | .lineQueueServe .. => .inl keeps_execLineQueueServe
  | .bisnpTimeout .. => .inl keeps_execBisnpTimeout
  | .dirEvictionStart .. => .inl keeps_execDirEvictionStart
  | .deferredMissSend .. => .inl keeps_execDeferredMissSend
  | .holdQueueRelease .. => .inl keeps_execHoldQueueRelease
  | .reqAgeLimit .. => .inl keeps_execReqAgeLimit
  | .clean .. => .inl keeps_execClean
  | .inv .. => .inl keeps_execInv
  | .cleanAll .. => .inl keeps_execCleanAll
  | .invAll .. => .inl keeps_execInvAll
  | .preloadLock .. => .inl keeps_execPreloadLock
  | .unlock .. => .inl keeps_execUnlock
  | .rangeOpDone .. => .inl keeps_execRangeOpDone
  | .ncWayCfgWrite .. => .inl keeps_execNcWayCfgWrite
  | .scratchRead .. => .inl keeps_execScratchRead
  | .scratchWrite .. => .inl keeps_execScratchWrite
  | .fillDrainDone .. => .inl keeps_execFillDrainDone
  | .fillPage .. => .inl keeps_execFillPage
  | .refreshInterval .. => .inl keeps_execRefreshInterval
  | .idleRefresh .. => .inl keeps_execIdleRefresh
  | .refreshDeadline .. => .inl keeps_execRefreshDeadline
  | .rfmThreshold .. => .inl keeps_execRfmThreshold
  | .ageLimit .. => .inl keeps_execAgeLimit
  | .mr4Read .. => .inl keeps_execMr4Read
  | .duskIdle .. => .inl keeps_execDuskIdle
  | .duskEntryDone .. => .inl keeps_execDuskEntryDone
  | .duskExitDone .. => .inl keeps_execDuskExitDone
  | .scrubTick .. => .inl keeps_execScrubTick
  | .scrubCatchUpWake .. => .inl keeps_execScrubCatchUpWake
  | .pmicPoll .. => .inl keeps_execPmicPoll
  | .phyLockLost .. => .inl keeps_execPhyLockLost
  | .phyLockTimeout .. => .inl keeps_execPhyLockTimeout
  | .reevaluationDone => .inl keeps_execReevaluationDone
  | .writeReadCompare .. => .inl keeps_execWriteReadCompare
  | .readCompare .. => .inl keeps_execReadCompare
  | .writeOnly .. => .inl keeps_execWriteOnly
  | .readTrainingPattern .. => .inl keeps_execReadTrainingPattern
  | .writeLevelingSample .. => .inl keeps_execWriteLevelingSample
  | .trainingRunDone .. => .inl keeps_execTrainingRunDone
  | .drPhyAccWrite .. => .inl keeps_execDrPhyAccWrite
  | .nlinkIdleFlit .. => .inl keeps_execNlinkIdleFlit
  | .nlinkPayloadFlit .. => .inl keeps_execNlinkPayloadFlit
  | .nlinkNakFlit .. => .inl keeps_execNlinkNakFlit
  | .nlinkAckTimeout .. => .inl keeps_execNlinkAckTimeout
  | .nlinkReplayLimit .. => .inl keeps_execNlinkReplayLimit
  | .nlinkRetrainDone .. => .inl keeps_execNlinkRetrainDone
  | .nlinkTrainingStart .. => .inl keeps_execNlinkTrainingStart
  | .nlinkTrainStepTimeout .. => .inl keeps_execNlinkTrainStepTimeout
  | .nlinkTrainingDone .. => .inl keeps_execNlinkTrainingDone
  | .rdd .. => .inl keeps_execRdd
  | .pgc .. => .inl keeps_execPgc
  | .mrdd .. => .inl keeps_execMrdd
  | .mpgc .. => .inl keeps_execMpgc
  | .str .. => .inl keeps_execStr
  | .gapMove .. => .inl keeps_execGapMove
  | .gapMoveDone .. => .inl keeps_execGapMoveDone
  | .mapStateSave .. => .inl keeps_execMapStateSave
  | .blockRetire .. => .inl keeps_execBlockRetire
  | .blockRetireDone .. => .inl keeps_execBlockRetireDone
  | .wearStateSave .. => .inl keeps_execWearStateSave
  | .absorbSlotFreed .. => .inl keeps_execAbsorbSlotFreed
  | .absorbStall .. => .inl keeps_execAbsorbStall
  | .destageHighWater .. => .inl keeps_execDestageHighWater
  | .destageMaxAge .. => .inl keeps_execDestageMaxAge
  | .destageDone .. => .inl keeps_execDestageDone
  | .driftRefreshBlock .. => .inl keeps_execDriftRefreshBlock
  | .driftRefreshChunk .. => .inl keeps_execDriftRefreshChunk
  | .driftSkip .. => .inl keeps_execDriftSkip
  | .driftLate .. => .inl keeps_execDriftLate
  | .rebuildStripe .. => .inl keeps_execRebuildStripe
  | .epochWalkEntry .. => .inl keeps_execEpochWalkEntry
  | .promotionStart .. => .inl keeps_execPromotionStart
  | .demotionStart .. => .inl keeps_execDemotionStart
  | .migrationCopy .. => .inl keeps_execMigrationCopy
  | .migrationComplete .. => .inl keeps_execMigrationComplete
  | .ringTailWrite .. => .inl keeps_execRingTailWrite
  | .ringCqHeadWrite .. => .inl keeps_execRingCqHeadWrite
  | .ringEnable .. => .inl keeps_execRingEnable
  | .ringInitDone .. => .inl keeps_execRingInitDone
  | .ringAbort _ _ e => .inl (keeps_execRingAbort (_enable := e))
  | .ringDisable .. => .inl keeps_execRingDisable
  | .ringCfgWrite .. => .inl keeps_execRingCfgWrite
  | .ringBaseWrite .. => .inl keeps_execRingBaseWrite
  | .descriptorFetch .. => .inl keeps_execDescriptorFetch
  | .jobStart .. => .inl keeps_execJobStart
  | .abortUserRead .. => .inl keeps_execAbortUserRead
  | .partDispatch .. => .inl keeps_execPartDispatch
  | .partReport .. => .inl keeps_execPartReport
  | .ingestRawPart .. => .inl keeps_execIngestRawPart
  | .compressDone .. => .inl keeps_execCompressDone
  | .ingestZhoqPart .. => .inl keeps_execIngestZhoqPart
  | .validationDone .. => .inl keeps_execValidationDone
  | .ingestCommit .. => .inl keeps_execIngestCommit
  | .decompressorGrant .. => .inl keeps_execDecompressorGrant
  | .decompressEnd .. => .inl keeps_execDecompressEnd
  | .decodeRetry .. => .inl keeps_execDecodeRetry
  | .twilightLine .. => .inl keeps_execTwilightLine
  | .twilightPassRemove .. => .inl keeps_execTwilightPassRemove
  | .extest .. => .inl keeps_execExtest
  | .idcode => .inl keeps_execIdcode
  | .samplePreload .. => .inl keeps_execSamplePreload
  | .fuseRd => .inl keeps_execFuseRd
  | .anchorProg .. => .inl keeps_execAnchorProg
  | .dawnRd => .inl keeps_execDawnRd
  | .arrayAcc .. => .inl keeps_execArrayAcc
  | .memAcc .. => .inl keeps_execMemAcc
  | .cryAcc .. => .inl keeps_execCryAcc
  | .mpDebug .. => .inl keeps_execMpDebug
  | .bypass x => .inl (keeps_execBypass (id := x))
  | .clockGood .. => .inl keeps_execClockGood
  | .clockGoodTimeout .. => .inl keeps_execClockGoodTimeout
  | .clockGoodLost .. => .inl keeps_execClockGoodLost
  | .rstBlkCtlWrite .. => .inl keeps_execRstBlkCtlWrite
  | .dawn1 => .inl keeps_execDawn1
  | .dawn2 => .inl keeps_execDawn2
  | .dawn3 .. => .inl keeps_execDawn3
  | .dawn4 .. => .inl keeps_execDawn4
  | .dawn5 => .inl keeps_execDawn5
  | .dawn6 => .inl keeps_execDawn6
  | .closeIdlePrecharge .. => .inl keeps_execCloseIdlePrecharge
  | .linkEntryToRecovery .. => .inl keeps_execLinkEntryToRecovery

/-- What only a reset ends (R296, R353, R410): a lock that stands still does, or a reset source is in effect. -/
structure LocksKept (s t : State) : Prop where
  lock : s.dawn.runLock = true → orReset t t.dawn.runLock
  night : s.faults.midnight = true → orReset t t.faults.midnight
  replace : s.faults.rr = true → orReset t t.faults.rr

theorem Keeps.locksKept {s t : State} (k : Keeps s t) : LocksKept s t :=
  ⟨fun h => k.lock (.inl h), fun h => k.night (.inl h), fun h => k.replace (.inl h)⟩

theorem KeepsButKeys.locksKept {s t : State} (k : KeepsButKeys s t) : LocksKept s t :=
  ⟨fun h => k.lock (.inl h), fun h => k.night (.inl h), fun h => k.replace (.inl h)⟩

/-- The release of a reset leaves the locks as they stand, and what follows it keeps them. -/
theorem Keeps.locksKept_of_eq {s m t : State} (k : Keeps m t) (dawn : m.dawn = s.dawn) (faults : m.faults = s.faults) : LocksKept s t := by
  obtain ⟨lock, night, replace⟩ := k.locksKept
  rw [dawn] at lock
  rw [faults] at night replace
  exact ⟨lock, night, replace⟩

theorem locksKept_porRelease {s t : State} (h : exec .porRelease s = .next t) : LocksKept s t := by
  change execPorRelease s = .next t at h
  unfold execPorRelease at h
  split at h
  · cases h
    exact keeps_raiseWorn.locksKept_of_eq rfl rfl
  · cases h
    exact (Keeps.refl s).locksKept

theorem locksKept_resetNRelease {s t : State} (h : exec .resetNRelease s = .next t) : LocksKept s t := by
  change execResetNRelease s = .next t at h
  unfold execResetNRelease at h
  split at h
  · cases h
    exact (Keeps.refl s).locksKept
  · cases h
    split
    · exact (keeps_perstAtRelease.trans keeps_replaceRequest).locksKept_of_eq rfl rfl
    · exact keeps_perstAtRelease.locksKept_of_eq rfl rfl

theorem exec_locksKept {c : Instr} {s t : State} (h : exec c s = .next t) : LocksKept s t := by
  obtain ⟨u, hu, k⟩ | rfl | rfl | ⟨v, x, rfl⟩ | ⟨p, sid, x, rfl⟩ := exec_keeps c s
  · cases hu.symm.trans h
    exact k.locksKept
  · exact locksKept_porRelease h
  · exact locksKept_resetNRelease h
  · obtain ⟨u, hu, k⟩ := keeps_execInstallKey (v := v) (inp := x) (s := s)
    cases hu.symm.trans h
    exact k.locksKept
  · obtain ⟨u, hu, k⟩ := keeps_execVendorDefinedRequest (h := p) (sid := sid) (payload := x) (s := s)
    cases hu.symm.trans h
    exact k.locksKept

/-- A step on an empty queue changes the time alone, and taking a command the queue alone. -/
theorem step_locksKept {s t : State} (h : step s = .next t) : LocksKept s t := by
  unfold step takeCommand at h
  cases hp : s.pending with
  | nil =>
    rw [hp] at h
    cases h
    unfold tick
    split
    · exact (Keeps.refl s).locksKept
    · exact keeps_onTime.locksKept
  | cons c rest =>
    rw [hp] at h
    obtain ⟨lock, night, replace⟩ := exec_locksKept h
    exact ⟨lock, night, replace⟩

/-- Out of reset, what holds of a state until a reset holds of it. -/
theorem of_orReset {s : State} {b : Bool} (resetN : s.rst.resetN = false) (por : s.rst.por = false) (h : orReset s b) : b = true := by
  simpa [orReset, resetN, por] using h

/-- Settles O7: every step keeps the locks until a reset source is in effect, and after this one none is. -/
theorem locksUntilReset : Obligations.LocksUntilReset := by
  intro s t h resetN por
  obtain ⟨lock, night, replace⟩ := step_locksKept h
  exact ⟨fun x => of_orReset resetN por (lock x), fun x => of_orReset resetN por (night x), fun x => of_orReset resetN por (replace x)⟩

/-- Settles O8: the commands that release a reset fill no slot either. -/
theorem keysComeOnlyByInstall : Obligations.KeysComeOnlyByInstall := by
  intro c s t k h no_install no_request
  obtain ⟨u, hu, keep⟩ | rfl | rfl | ⟨v, x, rfl⟩ | ⟨p, sid, x, rfl⟩ := exec_keeps c s
  · cases hu.symm.trans h
    exact keep.keys k
  · obtain ⟨u, hu, keep⟩ := keeps_execPorRelease (s := s)
    cases hu.symm.trans h
    exact keep.keys k
  · obtain ⟨u, hu, keep⟩ := keeps_execResetNRelease (s := s)
    cases hu.symm.trans h
    exact keep.keys k
  · exact absurd rfl (no_install v x)
  · exact absurd rfl (no_request p sid x)

end Sys2Proof.Machine
end

section
/-!
The TAP (O56): what its register operations do, and each instruction as its case gives it.
-/
namespace Sys2Proof.Machine

/-! The instruction register and what it selects (R358). -/

theorem tapRun_of_por {s : State} (por : s.rst.por = true) (ir : Byte) (w dr : Nat) : tapRun ir w dr s = s := if_pos por

theorem tapRun_eq {s : State} (por : s.rst.por = false) (ir : Byte) (w dr : Nat) : tapRun ir w dr s =
    { s with tap := { s.tap with ir := ir, width := w, dr := dr % 2 ^ w, extest := decide (ir = 0#8) } } := by
  simp only [tapRun, por, Bool.false_eq_true, if_false]
  rfl

/-- A captured value that its register holds stands in it as it is. -/
theorem tapRun_fits {s : State} (por : s.rst.por = false) (ir : Byte) {w dr : Nat} (fits : dr < 2 ^ w) : tapRun ir w dr s =
    { s with tap := { s.tap with ir := ir, width := w, dr := dr, extest := decide (ir = 0#8) } } := by
  rw [tapRun_eq por, Nat.mod_eq_of_lt fits]

theorem tapBypass_eq {s : State} (por : s.rst.por = false) : tapBypass s =
    { s with tap := { s.tap with ir := 0xFF#8, width := 1, dr := 0, extest := false } } := tapRun_fits por 0xFF#8 (w := 1) (dr := 0) (by decide)

theorem tapChain_of_por {s : State} (por : s.rst.por = true) (ir : Byte) (chain : List Bool) : tapChain ir chain s = s := if_pos por

/-- A chain instruction captures one free value and holds what is shifted in. -/
theorem tapChain_eq {s : State} (por : s.rst.por = false) (ir : Byte) (chain : List Bool) : tapChain ir chain s =
    { s with
      free := s.free + 1
      tap := { s.tap with
        ir := ir, width := chain.length, preload := chain, extest := decide (ir = 0#8), dr := Config.boundaryCapture s.free % 2 ^ chain.length } } := by
  simp only [tapChain, por, Bool.false_eq_true, if_false]
  exact tapRun_eq (s := onTap (fun x => { x with preload := chain }) (takeFree s).2) por ir chain.length _

/-! IDCODE and ANCHOR_PROG (R357, R358). -/

theorem idcode_of_tiles {s : State} {n : Nat} (h : s.fuse.tiles = n) : idcode s = word [(28, 1), (12, 0x8A00 + n), (1, 0x2D3), (0, 1)] := by
  rw [← h]
  rfl

section
variable {s : State} (por : s.rst.por = false) (v : BitVec 256)
include por

theorem exec_anchorProg_zero (zero : s.fuse.anchor = 0#256) (opened : s.rst.anchorWindow = true) : exec (.anchorProg v) s =
    .next { s with fuse := { s.fuse with anchor := v }, tap := { s.tap with ir := 0x11#8, width := 256, dr := v.toNat, extest := false } } := by
  change execAnchorProg v s = _
  rw [execAnchorProg, if_pos ⟨zero, opened, por⟩]
  exact congrArg _ (tapRun_fits (s := onFuse (fun f => { f with anchor := v }) s) por 0x11#8 v.isLt)

theorem exec_anchorProg_bypass (shut : s.fuse.anchor ≠ 0#256 ∨ s.rst.anchorWindow = false) : exec (.anchorProg v) s =
    .next { s with tap := { s.tap with ir := 0xFF#8, width := 1, dr := 0, extest := false } } := by
  change execAnchorProg v s = _
  have not_open : ¬(s.fuse.anchor = 0#256 ∧ s.rst.anchorWindow = true ∧ s.rst.por = false) := by
    rintro ⟨zero, opened, -⟩
    simp [zero, opened] at shut
  rw [execAnchorProg, if_neg not_open, tapBypass_eq por]

end

/-! The gated instructions (R308, R358), with the gate open. -/

/-- A place that the member's array has not reads zero, and a write of it changes nothing. -/
theorem exec_arrayAcc_outside {s : State} {a : Fin 3} {i : Nat} (outside : ¬i < arraySize s a.val) (x : Option (BitVec 640)) :
    exec (.arrayAcc a i x) s = .next (tapRun 0x20#8 640 0 s) := by
  change execArrayAcc a i x s = _
  simp [execArrayAcc, Nat.le_of_not_lt outside]

section
variable {s : State} (gate : tapGate s = true)
include gate

theorem exec_arrayAcc_read {a : Fin 3} {i : Nat} (within : i < arraySize s a.val) :
    exec (.arrayAcc a i none) s = .next (tapRun 0x20#8 640 (arrayRead s a.val i) s) := by
  change execArrayAcc a i none s = _
  simp [execArrayAcc, gate, within]

theorem exec_arrayAcc_write {a : Fin 3} {i : Nat} (within : i < arraySize s a.val) (v : BitVec 640) :
    exec (.arrayAcc a i (some v)) s = .next (arrayWrite a.val i v.toNat (tapRun 0x20#8 640 0 s)) := by
  change execArrayAcc a i (some v) s = _
  simp [execArrayAcc, gate, within]

theorem exec_cryAcc_read (key : Nat) : exec (.cryAcc key none) s = .next (tapRun 0x22#8 512 (tapCryRead s key) s) := by
  change execCryAcc key none s = _
  simp [execCryAcc, gate]

theorem exec_cryAcc_write (key : Nat) (d : Line) : exec (.cryAcc key (some d)) s = .next (tapCryWrite key d (tapRun 0x22#8 512 0 s)) := by
  change execCryAcc key (some d) s = _
  simp [execCryAcc, gate]

theorem exec_mpDebug_fitted {t : TileId} (fitted : t.val < s.fuse.tiles) (halt : Bool) : exec (.mpDebug t halt) s =
    .next (onTap (fun x => { x with halted := setBit x.halted t.val halt }) (tapRun 0x23#8 8 s.tap.halted.toNat s)) := by
  change execMpDebug t halt s = _
  simp [execMpDebug, gate, hasTile, tiles, fitted]

theorem exec_mpDebug_absent {t : TileId} (absent : ¬t.val < s.fuse.tiles) (halt : Bool) :
    exec (.mpDebug t halt) s = .next (tapRun 0x23#8 8 s.tap.halted.toNat s) := by
  change execMpDebug t halt s = _
  simp [execMpDebug, gate, hasTile, tiles, absent]

theorem exec_mpDebug_halt (por : s.rst.por = false) {t : TileId} (fitted : t.val < s.fuse.tiles) (halt : Bool) : exec (.mpDebug t halt) s =
    .next { s with tap := { s.tap with ir := 0x23#8, width := 8, dr := s.tap.halted.toNat, extest := false, halted := setBit s.tap.halted t.val halt } } := by
  rw [exec_mpDebug_fitted gate fitted, tapRun_fits por 0x23#8 s.tap.halted.isLt]
  rfl

theorem exec_memAcc_line (up : tileRuns s 0 = true) (a : LineAddr) (wr : Option Line) :
    exec (.memAcc (.line a) wr) s = .next (memAccLine a.toNat wr (tapRun 0x21#8 512 0 s)) := by
  change execMemAcc (.line a) wr s = _
  simp [execMemAcc, gate, up]

theorem exec_memAcc_frame (up : tileRuns s 0 = true) (t : TileId) (nvm : Bool) (f : BitVec 32) (i : Fin 64) (wr : Option Line) :
    exec (.memAcc (.frame t nvm f i) wr) s = .next (memAccFrame t.val nvm f.toNat i.val wr (tapRun 0x21#8 512 0 s)) := by
  change execMemAcc (.frame t nvm f i) wr s = _
  simp [execMemAcc, gate, up]

end

/-! The gated instructions with the gate shut: zeros, and nothing changed. -/

section
variable {s : State} (gate : tapGate s = false)
include gate

theorem exec_arrayAcc_shut (a : Fin 3) (i : Nat) (x : Option (BitVec 640)) : exec (.arrayAcc a i x) s = .next (tapRun 0x20#8 640 0 s) := by
  change execArrayAcc a i x s = _
  simp [execArrayAcc, gate]

theorem exec_cryAcc_shut (key : Nat) (d : Option Line) : exec (.cryAcc key d) s = .next (tapRun 0x22#8 512 0 s) := by
  change execCryAcc key d s = _
  simp [execCryAcc, gate]

theorem exec_memAcc_shut (g : TapTarget) (d : Option Line) : exec (.memAcc g d) s = .next (tapRun 0x21#8 512 0 s) := by
  change execMemAcc g d s = _
  simp [execMemAcc, gate]

theorem exec_mpDebug_shut (t : TileId) (halt : Bool) : exec (.mpDebug t halt) s = .next (tapRun 0x23#8 8 0 s) := by
  change execMpDebug t halt s = _
  simp [execMpDebug, gate]

end

/-! MEM_ACC on a DPA line and on a line of a frame (R293, R308). -/

section
variable {s : State} {line : Nat} {r : Region} (region : regionAt s (64 * line) = some r) (filled : inFill s (64 * line) = false)
include region filled

theorem memAccLine_read : memAccLine line none s = settle (startOp 0 line (.fwRd true) s) := by
  simp [memAccLine, region, filled]

theorem memAccLine_write (plain : r.typ ≠ .packed) (d : Line) :
    memAccLine line (some d) s = settle (startOp 0 line (.fwWr true { data := d, chk := lineChk line d }) s) := by
  simp [memAccLine, region, filled, plain]

end

/-- An NVM frame holds no placement entries, and a DRAM frame's line holds none where the map has none there (R81). -/
theorem frame_unplaced {s : State} {t f i : Nat} {nvm : Bool} (placed : nvm = true ∨ placeLineAt s t f i = none) :
    (if nvm then none else placeLineAt s t f i) = none := by
  rcases placed with h | h <;> simp [h]

section
variable {s : State} {t f i : Nat} {nvm : Bool} (walks : walkersRun s t = true) (kept : locLost s t nvm f i = false)
  (placed : nvm = true ∨ placeLineAt s t f i = none)
include walks kept placed

/-- A write of a frame's line that holds no shadow line. -/
theorem memAccFrame_write (plain : shadowOf s t nvm (64 * f + i) = none) (d : Line) : memAccFrame t nvm f i (some d) s =
    settle (putLoc t nvm f i (mkRec (localFold t (64 * f + i)) d 0#56) (classPrio s (paramNat s "qos.class.firmware" 14)) s) := by
  simp only [memAccFrame, walks, kept, frame_unplaced placed, plain, Bool.not_true, Bool.or_self, Bool.false_eq_true, if_false]

/-- A write of a frame's line that holds a shadow line: the crypto block has it too. -/
theorem memAccFrame_writeShadow {g : Region} {a : Nat} {y : Sum (Nat × Nat) (Nat × Nat)} (shadow : shadowOf s t nvm (64 * f + i) = some (g, a, y))
    (d : Line) : memAccFrame t nvm f i (some d) s =
    settle (putLoc t nvm f i (mkRec (localFold t (64 * f + i)) d 0#56) (classPrio s (paramNat s "qos.class.firmware" 14)) (putShadow t g a y d s)) := by
  simp only [memAccFrame, walks, kept, frame_unplaced placed, shadow, Bool.not_true, Bool.or_self, Bool.false_eq_true, if_false]

theorem memAccFrame_read {x : Rec} {src : Sum Nat Nat} {s1 : State} (plain : shadowOf s t nvm (64 * f + i) = none)
    (come : takeLoc 2 t nvm f i 0#648 s = some (x, src, s1)) :
    memAccFrame t nvm f i none s = { s1 with tap := { s1.tap with dr := x.data.toNat } } := by
  simp only [memAccFrame, walks, kept, frame_unplaced placed, plain, come, Bool.not_true, Bool.or_self, Bool.false_eq_true, if_false]
  rfl

theorem memAccFrame_readShadow {g : Region} {a : Nat} {y : Sum (Nat × Nat) (Nat × Nat)} {x : Rec} {src : Sum Nat Nat} {s1 : State}
    (shadow : shadowOf s t nvm (64 * f + i) = some (g, a, y)) (come : takeLoc 2 t nvm f i 0#648 s = some (x, src, s1)) :
    memAccFrame t nvm f i none s = { s1 with tap := { s1.tap with dr := (shadowLine s g t a y).toNat } } := by
  simp only [memAccFrame, walks, kept, frame_unplaced placed, shadow, come, Bool.not_true, Bool.or_self, Bool.false_eq_true, if_false]
  rfl

theorem memAccFrame_ask (coming : takeLoc 2 t nvm f i 0#648 s = none) :
    memAccFrame t nvm f i none s = askLoc 2 t nvm f i (classPrio s (paramNat s "qos.class.firmware" 14)) s := by
  simp only [memAccFrame, walks, kept, frame_unplaced placed, coming, Bool.not_true, Bool.or_self, Bool.false_eq_true, if_false]

end

/-- Settles O56: each clause is an instruction's law, its gate open or shut. -/
theorem tapCommands : Obligations.TapCommands := by
  unfold Obligations.TapCommands
  refine ⟨fun s ir w dr por => tapRun_eq por ir w dr, ?chain, fun s b por => congrArg _ (tapBypass_eq por), fun s => ⟨rfl, rfl, rfl⟩,
    fun s => ⟨idcode_of_tiles, idcode_of_tiles, idcode_of_tiles⟩,
    fun s v por => ⟨exec_anchorProg_zero por v, exec_anchorProg_bypass por v⟩, ?gated, ?mem, ?line, ?frame, ?shut⟩
  case chain =>
    exact fun s chain por => ⟨congrArg _ (tapChain_eq por 0#8 chain), congrArg _ (tapChain_eq por 2#8 chain)⟩
  case gated =>
    exact fun s a i key t halt d x por gate => ⟨fun within => ⟨exec_arrayAcc_read gate within, exec_arrayAcc_write gate within x⟩,
      exec_cryAcc_read gate key, exec_cryAcc_write gate key d, fun fitted => exec_mpDebug_halt gate por fitted halt⟩
  case mem =>
    exact fun s a wr t nvm f i gate up => ⟨exec_memAcc_line gate up a wr, exec_memAcc_frame gate up t nvm f i wr⟩
  case line =>
    exact fun s line r d region filled => ⟨memAccLine_read region filled, fun plain => memAccLine_write region filled plain d⟩
  case frame =>
    exact fun s s1 t f i nvm d x src walks kept placed =>
      ⟨fun plain => ⟨memAccFrame_write walks kept placed plain d, memAccFrame_read walks kept placed plain⟩,
       fun g a y shadow => ⟨memAccFrame_writeShadow walks kept placed shadow d, memAccFrame_readShadow walks kept placed shadow⟩,
       memAccFrame_ask walks kept placed⟩
  case shut =>
    exact fun s a i key t halt g d x gate => ⟨exec_arrayAcc_shut gate a i x, exec_cryAcc_shut gate key d, exec_memAcc_shut gate g d,
      exec_mpDebug_shut gate t halt⟩

end Sys2Proof.Machine
end

section
/-!
The secrets and the TAP (O60): no TAP instruction but MEM_ACC depends on a key, the working nonce, a tree key or the identity key, nor changes one.
-/
namespace Sys2Proof.Machine

/-- What the TAP shows of no device (R308, R358): the keys, the working nonce, the tree keys and the identity key. -/
structure Secrets where
  keys : Table (Option KeySlot)
  nonce : Option W64
  treeKeys : Table (Option (BitVec 256))
  idKey : BitVec 3072

def secretsOf (s : State) : Secrets := ⟨s.cry.keys, s.cry.nonce, s.cry.treeKeys, s.fuse.idKey⟩

/-- The state with other secrets. -/
def withSecrets (x : Secrets) (s : State) : State :=
  { s with cry := { s.cry with keys := x.keys, nonce := x.nonce, treeKeys := x.treeKeys }, fuse := { s.fuse with idKey := x.idKey } }

theorem secretsOf_withSecrets (x : Secrets) (s : State) : secretsOf (withSecrets x s) = x := rfl

theorem withSecrets_tap (x : Secrets) (s : State) : (withSecrets x s).tap = s.tap := rfl

/-- With the secrets `x` the command does the same to everything else and leaves them as they are. -/
def HidesSecrets (x : Secrets) (c : Instr) (s : State) : Prop := ∀ t, exec c s = .next t → exec c (withSecrets x s) = .next (withSecrets x t)

/-- A command that hides the state's own secrets leaves them as they are. -/
theorem HidesSecrets.kept {c : Instr} {s t : State} (hides : HidesSecrets (secretsOf s) c s) (h : exec c s = .next t) : secretsOf t = secretsOf s := by
  have same : exec c s = .next (withSecrets (secretsOf s) t) := hides t h
  have own : t = withSecrets (secretsOf s) t := Host.Outcome.next.inj (h.symm.trans same)
  rw [own, secretsOf_withSecrets]

section
variable {x : Secrets} {s : State}

/-- Where a command's outcome is known on both states, the two need only differ in the secrets. -/
theorem HidesSecrets.of_next {c : Instr} {t u : State} (h : exec c s = .next t) (hx : exec c (withSecrets x s) = .next u)
    (same : u = withSecrets x t) : HidesSecrets x c s := by
  rintro v hv
  cases h.symm.trans hv
  rw [hx, same]

/-! The operations of the TAP on a state with other secrets. -/

theorem tapRun_withSecrets (ir : Byte) (w dr : Nat) : tapRun ir w dr (withSecrets x s) = withSecrets x (tapRun ir w dr s) := by
  cases por : s.rst.por with
  | true => rw [tapRun_of_por por, tapRun_of_por (s := withSecrets x s) por]
  | false => rw [tapRun_eq por, tapRun_eq (s := withSecrets x s) por]; rfl

theorem tapChain_withSecrets (ir : Byte) (chain : List Bool) : tapChain ir chain (withSecrets x s) = withSecrets x (tapChain ir chain s) := by
  cases por : s.rst.por with
  | true => rw [tapChain_of_por por, tapChain_of_por (s := withSecrets x s) por]
  | false => rw [tapChain_eq por, tapChain_eq (s := withSecrets x s) por]; rfl

theorem arrayRead_withSecrets (a i : Nat) : arrayRead (withSecrets x s) a i = arrayRead s a i := rfl

theorem arrayWrite_withSecrets (a i v : Nat) : arrayWrite a i v (withSecrets x s) = withSecrets x (arrayWrite a i v s) := by
  unfold arrayWrite
  split
  · rfl
  · split
    · rfl
    · rw [show trkAt (withSecrets x s) i = trkAt s i from rfl]
      cases trkAt s i <;> rfl

theorem tapCryWrite_withSecrets (key : Nat) (d : Line) : tapCryWrite key d (withSecrets x s) = withSecrets x (tapCryWrite key d s) := by
  unfold tapCryWrite
  generalize key % 4 = part
  match part with
  | 0 => rfl
  | 1 => rfl
  | 2 => rfl
  | _ + 3 => rfl

theorem leavesOf_withSecrets (r a : Nat) : leavesOf (withSecrets x s) r a = leavesOf s r a := rfl

theorem storedItem_withSecrets (same : x.treeKeys = s.cry.treeKeys) (n : Nat) (t : Item) : storedItem (withSecrets x s) n t = storedItem s n t := by
  have key : treeKey (withSecrets x s) t.tile = treeKey s t.tile := congrArg (fun k => beBytes 32 ((Table.get none k t.tile).getD 0#256).toNat) same
  rw [storedItem, key]
  rfl

theorem rootLine_withSecrets (same : x.treeKeys = s.cry.treeKeys) (n : Nat) (t : Item) : rootLine (withSecrets x s) n t = rootLine s n t := by
  have key : treeKey (withSecrets x s) t.tile = treeKey s t.tile := congrArg (fun k => beBytes 32 ((Table.get none k t.tile).getD 0#256).toNat) same
  rw [rootLine, key]
  rfl

/-- CRY_ACC shows tag lines and counter caches as they stand; a tree node or root may be what the tree key computed (R290). -/
theorem tapCryRead_withSecrets {key : Nat} (h : key % 4 = 0 ∨ key % 4 = 3 ∨ x.treeKeys = s.cry.treeKeys) :
    tapCryRead (withSecrets x s) key = tapCryRead s key := by
  obtain part | part | part | part : key % 4 = 0 ∨ key % 4 = 1 ∨ key % 4 = 2 ∨ key % 4 = 3 := by omega
  · simp only [tapCryRead, part]
    rfl
  · have same : x.treeKeys = s.cry.treeKeys := by simpa [part] using h
    simp only [tapCryRead, part, leavesOf_withSecrets, storedItem_withSecrets same]
  · have same : x.treeKeys = s.cry.treeKeys := by simpa [part] using h
    simp only [tapCryRead, part, leavesOf_withSecrets, rootLine_withSecrets same]
  · simp only [tapCryRead, part]
    rfl

/-! The instructions. -/

theorem hidesSecrets_extest (l : List Bool) : HidesSecrets x (.extest l) s := .of_next rfl rfl (tapChain_withSecrets 0x00#8 l)

theorem hidesSecrets_samplePreload (l : List Bool) : HidesSecrets x (.samplePreload l) s := .of_next rfl rfl (tapChain_withSecrets 0x02#8 l)

theorem hidesSecrets_idcode : HidesSecrets x .idcode s := .of_next rfl rfl (tapRun_withSecrets 0x01#8 32 (idcode s).toNat)

theorem hidesSecrets_fuseRd : HidesSecrets x .fuseRd s := .of_next rfl rfl (tapRun_withSecrets 0x10#8 336 _)

theorem hidesSecrets_dawnRd : HidesSecrets x .dawnRd s := .of_next rfl rfl (tapRun_withSecrets 0x18#8 64 _)

theorem hidesSecrets_bypass (b : Byte) : HidesSecrets x (.bypass b) s := .of_next rfl rfl (tapRun_withSecrets 0xFF#8 1 0)

theorem hidesSecrets_anchorProg (v : BitVec 256) : HidesSecrets x (.anchorProg v) s := by
  refine .of_next rfl rfl ?_
  by_cases opened : s.fuse.anchor = 0#256 ∧ s.rst.anchorWindow = true ∧ s.rst.por = false
  · rw [if_pos opened]
    exact (if_pos opened).trans (tapRun_withSecrets (s := onFuse (fun f => { f with anchor := v }) s) 0x11#8 256 v.toNat)
  · rw [if_neg opened]
    exact (if_neg opened).trans (tapRun_withSecrets 0xFF#8 1 0)

theorem hidesSecrets_arrayAcc (a : Fin 3) (i : Nat) (d : Option (BitVec 640)) : HidesSecrets x (.arrayAcc a i d) s := by
  cases gate : tapGate s with
  | false => exact .of_next (exec_arrayAcc_shut gate a i d) (exec_arrayAcc_shut (s := withSecrets x s) gate a i d) (tapRun_withSecrets 0x20#8 640 0)
  | true =>
    by_cases within : i < arraySize s a.val
    · cases d with
      | none =>
        exact .of_next (exec_arrayAcc_read gate within) (exec_arrayAcc_read (s := withSecrets x s) gate within) (tapRun_withSecrets 0x20#8 640 _)
      | some d =>
        refine .of_next (exec_arrayAcc_write gate within d) (exec_arrayAcc_write (s := withSecrets x s) gate within d) ?_
        rw [tapRun_withSecrets, arrayWrite_withSecrets]
    · exact .of_next (exec_arrayAcc_outside within d) (exec_arrayAcc_outside (s := withSecrets x s) within d) (tapRun_withSecrets 0x20#8 640 0)

theorem hidesSecrets_cryAcc {key : Nat} (d : Option Line) (h : key % 4 = 0 ∨ key % 4 = 3 ∨ x.treeKeys = s.cry.treeKeys) :
    HidesSecrets x (.cryAcc key d) s := by
  cases gate : tapGate s with
  | false => exact .of_next (exec_cryAcc_shut gate key d) (exec_cryAcc_shut (s := withSecrets x s) gate key d) (tapRun_withSecrets 0x22#8 512 0)
  | true =>
    cases d with
    | none =>
      refine .of_next (exec_cryAcc_read gate key) (exec_cryAcc_read (s := withSecrets x s) gate key) ?_
      rw [tapCryRead_withSecrets h, tapRun_withSecrets]
    | some d =>
      refine .of_next (exec_cryAcc_write gate key d) (exec_cryAcc_write (s := withSecrets x s) gate key d) ?_
      rw [tapRun_withSecrets, tapCryWrite_withSecrets]

theorem hidesSecrets_mpDebug (t : TileId) (halt : Bool) : HidesSecrets x (.mpDebug t halt) s := by
  cases gate : tapGate s with
  | false => exact .of_next (exec_mpDebug_shut gate t halt) (exec_mpDebug_shut (s := withSecrets x s) gate t halt) (tapRun_withSecrets 0x23#8 8 0)
  | true =>
    by_cases fitted : t.val < s.fuse.tiles
    · refine .of_next (exec_mpDebug_fitted gate fitted halt) (exec_mpDebug_fitted (s := withSecrets x s) gate fitted halt) ?_
      rw [tapRun_withSecrets]
      rfl
    · exact .of_next (exec_mpDebug_absent gate fitted halt) (exec_mpDebug_absent (s := withSecrets x s) gate fitted halt) (tapRun_withSecrets 0x23#8 8 _)

/-- Every TAP instruction but MEM_ACC, and of CRY_ACC a read of a tree node or root under the same tree keys (R290), hides the secrets. -/
theorem hidesSecrets_tap {l : List Bool} {v : BitVec 256} {a : Fin 3} {i key : Nat} {w : Option (BitVec 640)} {d : Option Line} {t : TileId}
    {halt : Bool} {b : Byte} {c : Instr}
    (tap : c ∈ [.extest l, .samplePreload l, .idcode, .fuseRd, .anchorProg v, .dawnRd, .arrayAcc a i w, .cryAcc key d, .mpDebug t halt, .bypass b])
    (tree : c = .cryAcc key d → key % 4 = 0 ∨ key % 4 = 3 ∨ x.treeKeys = s.cry.treeKeys) : HidesSecrets x c s := by
  simp only [List.mem_cons, List.not_mem_nil, or_false] at tap
  obtain rfl | rfl | rfl | rfl | rfl | rfl | rfl | rfl | rfl | rfl := tap
  · exact hidesSecrets_extest l
  · exact hidesSecrets_samplePreload l
  · exact hidesSecrets_idcode
  · exact hidesSecrets_fuseRd
  · exact hidesSecrets_anchorProg v
  · exact hidesSecrets_dawnRd
  · exact hidesSecrets_arrayAcc a i w
  · exact hidesSecrets_cryAcc d (tree rfl)
  · exact hidesSecrets_mpDebug t halt
  · exact hidesSecrets_bypass b

end

/-- Settles O60: with other secrets the instruction leaves the same TAP; with the state's own, which it hides too, it leaves them as they are. -/
theorem tapNeverReadsKeys : Obligations.TapNeverReadsKeys := by
  intro s keys nonce treeKeys idKey l v a i key w d t halt b c t1 t2 tap tree h1 h2
  have hides : HidesSecrets ⟨keys, nonce, treeKeys, idKey⟩ c s := hidesSecrets_tap tap tree
  have other : t2 = withSecrets ⟨keys, nonce, treeKeys, idKey⟩ t1 := Host.Outcome.next.inj (h2.symm.trans (hides t1 h1))
  have own : secretsOf t1 = secretsOf s := (hidesSecrets_tap tap fun _ => .inr (.inr rfl)).kept h1
  obtain ⟨keys_eq, nonce_eq, treeKeys_eq, idKey_eq⟩ := Secrets.mk.inj own
  exact ⟨by rw [other, withSecrets_tap], idKey_eq, keys_eq, nonce_eq, treeKeys_eq⟩

end Sys2Proof.Machine
end

section
/-!
The fault collector's commands (O20): each as its case gives it.
-/
namespace Sys2Proof.Machine

/-! FAULT_STS_CLEAR (R402, R404). -/

theorem bitsOf_zero (n : Nat) : bitsOf n 0#32 = [] := by
  simp [bitsOf]

/-- Where no raise meets the write, every bit written 1 is cleared. -/
theorem clearSts_alone (g : Nat) (v : W32) (s : State) : clearSts g v 0#32 s =
    { s with faults := { s.faults with
      sts := setGroup s.faults.sts g (groupOf s.faults.sts g &&& ~~~v)
      grace := s.faults.grace.filter (fun x => ¬(x / 32 = g ∧ v.getLsbD (x % 32))) } } := by
  have clr : v &&& ~~~(v &&& groupOf s.faults.sts g &&& (0#32 &&& groupOf s.faults.en g &&& groupMask s g)) = v := by
    simp only [BitVec.zero_and, BitVec.and_zero, BitVec.not_zero, BitVec.and_allOnes]
  simp only [clearSts, clr]
  rfl

section
variable {s : State} {a : Agent} (g : Fin 32) (v : W32)

theorem exec_faultStsClear_alone (rights : hasRights s a = true) (up : running s = true) :
    exec (.faultStsClear a g v 0#32) s = .next (clearSts g.val v 0#32 s) := by
  change execFaultStsClear a g v 0#32 s = _
  simp [execFaultStsClear, bitsOf_zero, rights, up]

theorem exec_faultStsClear_noRights (rights : hasRights s a = false) : exec (.faultStsClear a g v 0#32) s = .next s := by
  change execFaultStsClear a g v 0#32 s = _
  simp [execFaultStsClear, bitsOf_zero, rights]

end

/-! The grace window and the quiesce (R407). -/

section
variable {s : State} {x : SourceId} (waits : x.val ∈ s.faults.grace)
include waits

theorem exec_graceWindowExpiry_quiesces (set : s.faults.sts.getLsbD x.val = true) (calm : s.faults.midnight = false) (first : quiesced s = false) :
    exec (.graceWindowExpiry x) s = .next { s with faults := { s.faults with
      grace := s.faults.grace.filter (· ≠ x.val), pend := pendInsert ⟨x.val, 2, {}, 0⟩ s.faults.pend, quiescing := true, qSource := x.val } } := by
  change execGraceWindowExpiry x s = _
  have stands : (!s.faults.sts.getLsbD x.val || s.faults.midnight) = false := by simp [set, calm]
  simp only [execGraceWindowExpiry, List.contains_iff_mem.2 waits, stands, first, Bool.not_true, Bool.false_eq_true, if_false]
  rfl

theorem exec_graceWindowExpiry_cleared (cleared : s.faults.sts.getLsbD x.val = false) :
    exec (.graceWindowExpiry x) s = .next { s with faults := { s.faults with grace := s.faults.grace.filter (· ≠ x.val) } } := by
  change execGraceWindowExpiry x s = _
  simp only [execGraceWindowExpiry, List.contains_iff_mem.2 waits, cleared, Bool.not_true, Bool.not_false, Bool.true_or, Bool.false_eq_true, if_false,
    if_true]
  rfl

end

section
variable {s : State} (quiesces : s.faults.quiescing = true) (calm : s.faults.midnight = false)
include quiesces calm

theorem exec_quiesceComplete_idle (txns : s.ha.txns = []) (trks : s.nc.trks = []) (parts : s.job.parts = []) (req : s.fab.req = [])
    (lq : s.ha.lq = []) (allocQ : s.ha.allocQ = []) :
    exec .quiesceComplete s = .next { s with faults := { s.faults with quiescing := false, quiesced := true } } := by
  change execQuiesceComplete s = _
  simp [execQuiesceComplete, midnight, quiesces, calm, txns, trks, parts, req, lq, allocQ, onFaults]

theorem exec_quiesceLate_raises : exec .quiesceLate s =
    .next (raiseSv .quiesceLate s.faults.qSource { s with faults := { s.faults with pend := pendInsert ⟨s.faults.qSource, 3, {}, 0⟩ s.faults.pend } }) := by
  change execQuiesceLate s = _
  have goes : (!s.faults.quiescing || s.faults.midnight) = false := by simp [quiesces, calm]
  simp only [execQuiesceLate, goes, Bool.false_eq_true, if_false]
  rfl

end

/-! FAULT_RECORD_WRITE (R405). -/

@[simp] theorem primaryLog_faults (typ origin : Byte) (source : BitVec 16) (p : Bytes) (s : State) : (primaryLog typ origin source p s).faults = s.faults := by
  obtain ⟨k, l, c, h⟩ := primaryLog_eq typ origin source p s
  rw [h]

theorem logReplace_of_none {s : State} (h : s.faults.rr = false) : logReplace s = s := by
  simp [logReplace, h]

/-- A NOTE source's entry: its record, no event, and no Replace request record where none stands. -/
theorem exec_faultRecordWrite_note {s : State} {p : PendFault} (up : primaryRuns s = true) (next : nextPend s = some p) (note : faultClass s p.src = 0)
    (calm : s.faults.rr = false) : exec .faultRecordWrite s =
    .next (primaryLog 0x10#8 (BitVec.ofNat 8 (if p.src < 960 then p.src / 120 else 0)) (BitVec.ofNat 16 p.src) (faultPayload 0 p)
      { s with faults := { s.faults with pend := s.faults.pend.filter (fun q => ¬(q.src = p.src ∧ q.step = p.step)) } }) := by
  change execFaultRecordWrite s = _
  have no_event : ¬((0 = 1 ∨ 0 = 2) ∧ p.step = 1) := by omega
  simp only [execFaultRecordWrite, up, next, note, no_event, Bool.not_true, Bool.false_eq_true, if_false]
  rw [logReplace_of_none (by simpa using calm)]
  rfl

/-! VERIFY_COMPLETE (R294, R295). -/

section
variable {s : State} {t : TileId} {v : Verif} {l : List Verif} (verifs : s.cry.verifs = v :: l) (tile : v.tile = t.val)
include verifs tile

/-- The oldest verification of the tile ends, and with a mismatch its check fails. -/
theorem exec_verifyComplete_first : exec (.verifyComplete t) s = .next (if v.badLevel.isSome || !v.tagOk then
      failCheck v.tile v.region v.addr v.isSa v.badLevel { s with cry := { s.cry with verifs := l } }
    else { s with cry := { s.cry with verifs := l } }) := by
  change execVerifyComplete t s = _
  have oldest : s.cry.verifs.find? (fun v => v.tile = t.val) = some v := by simp [verifs, tile]
  have rest : s.cry.verifs.erase v = l := by rw [verifs, List.erase_cons_head]
  simp only [execVerifyComplete, oldest, onCry, rest]

variable (chain : v.badLevel = none)
include chain

theorem exec_verifyComplete_passes (tag : v.tagOk = true) : exec (.verifyComplete t) s = .next { s with cry := { s.cry with verifs := l } } := by
  simp [exec_verifyComplete_first verifs tile, chain, tag]

theorem exec_verifyComplete_fails (tag : v.tagOk = false) : exec (.verifyComplete t) s =
    .next (raiseWith (tileSrc t.val .cryTagFail) ⟨BitVec.ofNat 64 v.addr, 0xFF#8, 0xFF#8, BitVec.ofNat 32 v.region⟩
      ⟨v.region, BitVec.ofNat 64 v.addr, if v.isSa then 1 else 0⟩ { s with cry := { s.cry with verifs := l } }) := by
  rw [exec_verifyComplete_first verifs tile, chain, tag, tile]
  rfl

end

/-- Settles O20: each clause is a command's law in its case. -/
theorem faultCommands : Obligations.FaultCommands :=
  ⟨fun s _ g v rights up => (exec_faultStsClear_alone g v rights up).trans (congrArg _ (clearSts_alone g.val v s)),
    fun _ _ g v rights => exec_faultStsClear_noRights g v rights, fun _ _ waits => exec_graceWindowExpiry_quiesces waits,
    fun _ _ waits => exec_graceWindowExpiry_cleared waits, fun _ quiesces calm => exec_quiesceComplete_idle quiesces calm,
    fun _ quiesces calm => exec_quiesceLate_raises quiesces calm, fun _ _ _ up _ next => exec_faultRecordWrite_note up next,
    fun _ _ _ _ verifs tile => exec_verifyComplete_passes verifs tile, fun _ _ _ _ verifs tile => exec_verifyComplete_fails verifs tile⟩

end Sys2Proof.Machine
end

section
/-!
Every step (O1, O3–O6): a step is the front command's effect or the passing of time, every command answers a next state, and what commands keep a step keeps.
-/
namespace Sys2Proof.Machine

/-! What a step does (log 1). -/

theorem step_cons {s : State} {c : Instr} {rest : List Instr} (h : s.pending = c :: rest) : step s = exec c { s with pending := rest } := by
  rw [step, takeCommand, h]

theorem step_nil {s : State} (h : s.pending = []) : step s = .next (tick s) := by
  rw [step, takeCommand, h]

theorem tick_of_running {s : State} (h : s.rst.por = false) : tick s = { s with time := { s.time with now := s.time.now + 1 } } := by
  rw [tick, h]
  rfl

theorem tick_of_por {s : State} (h : s.rst.por = true) : tick s = s := by
  rw [tick, if_pos h]

/-- Settles O1: the front command runs on the queue's rest, and an empty queue lets time pass, but not in power-on reset. -/
theorem stepTakesFront : Obligations.StepTakesFront :=
  ⟨fun _ _ _ h => step_cons h, fun _ h up => (step_nil h).trans (congrArg _ (tick_of_running up)),
    fun _ h por => (step_nil h).trans (congrArg _ (tick_of_por por))⟩

/-! What every command keeps, the releases of a reset and the installation of a key among them. -/

/-- The fuse map but for an anchor not yet programmed (R338, R357), and the canonical form of the memories. -/
structure KeepsForm (s t : State) : Prop where
  fuseId : t.fuse.id = s.fuse.id
  tiles : t.fuse.tiles = s.fuse.tiles
  serial : t.fuse.serial = s.fuse.serial
  anchor : s.fuse.anchor ≠ 0#256 → t.fuse.anchor = s.fuse.anchor
  memories : Memory.wf s → Memory.wf t

theorem KeepsButKeys.form {s t : State} (k : KeepsButKeys s t) : KeepsForm s t :=
  ⟨k.fuseId, k.tiles, k.serial, k.anchor, fun ⟨flash, log, recs, scratch⟩ => ⟨k.flash flash, k.log log, k.recs recs, k.scratch scratch⟩⟩

theorem KeepsButLocks.form {s t : State} (k : KeepsButLocks s t) : KeepsForm s t :=
  ⟨k.fuseId, k.tiles, k.serial, k.anchor, fun ⟨flash, log, recs, scratch⟩ => ⟨k.flash flash, k.log log, k.recs recs, k.scratch scratch⟩⟩

/-- Every command answers a next state, which has the same queue and keeps its form. -/
theorem exec_form (c : Instr) (s : State) : ∃ t, exec c s = .next t ∧ t.pending = s.pending ∧ KeepsForm s t := by
  obtain ⟨t, ht, k⟩ | rfl | rfl | ⟨v, x, rfl⟩ | ⟨p, sid, x, rfl⟩ := exec_keeps c s
  · exact ⟨t, ht, k.queue, k.butKeys.form⟩
  · obtain ⟨t, ht, k⟩ := keeps_execPorRelease (s := s)
    exact ⟨t, ht, k.queue, k.form⟩
  · obtain ⟨t, ht, k⟩ := keeps_execResetNRelease (s := s)
    exact ⟨t, ht, k.queue, k.form⟩
  · obtain ⟨t, ht, k⟩ := keeps_execInstallKey (v := v) (inp := x) (s := s)
    exact ⟨t, ht, k.queue, k.form⟩
  · obtain ⟨t, ht, k⟩ := keeps_execVendorDefinedRequest (h := p) (sid := sid) (payload := x) (s := s)
    exact ⟨t, ht, k.queue, k.form⟩

theorem queue_and_form_of_exec {c : Instr} {s t : State} (h : exec c s = .next t) : t.pending = s.pending ∧ KeepsForm s t := by
  obtain ⟨u, hu, k⟩ := exec_form c s
  cases hu.symm.trans h
  exact k

/-- Settles O4: no arm of `exec` faults or refuses. -/
theorem everyCommandGoesOn : Obligations.EveryCommandGoesOn := by
  intro c s
  obtain ⟨t, ht, -⟩ := exec_form c s
  exact ⟨t, ht⟩

/-- Settles O5: no command's meaning writes the queue. -/
theorem commandsKeepQueue : Obligations.CommandsKeepQueue := fun _ _ _ h => (queue_and_form_of_exec h).1

/-- A step keeps the form: taking a command changes the queue alone, and time no memory. -/
theorem step_keepsForm {s t : State} (h : step s = .next t) : KeepsForm s t := by
  cases hp : s.pending with
  | nil =>
    rw [step_nil hp] at h
    cases h
    exact keeps_tick.butKeys.form
  | cons c rest =>
    rw [step_cons hp] at h
    obtain ⟨fuseId, tiles, serial, anchor, memories⟩ := (queue_and_form_of_exec h).2
    exact ⟨fuseId, tiles, serial, anchor, memories⟩

/-- Settles O3: a step keeps the memories' form and the number of tiles. -/
theorem stepKeepsInv : Obligations.StepKeepsInv := by
  intro s t ⟨memories, member⟩ h
  have k := step_keepsForm h
  refine ⟨k.memories memories, ?_⟩
  rw [memberOk, k.tiles]
  exact member

/-- Settles O6: the fuse map's fields and a programmed anchor are what every step keeps. -/
theorem anchorProgrammedOnce : Obligations.AnchorProgrammedOnce := by
  intro s t h
  have k := step_keepsForm h
  exact ⟨k.fuseId, k.tiles, k.serial, k.anchor⟩

end Sys2Proof.Machine
end

section
/-!
Records and raises (O16, O18, O19): how SV takes a record into its queue, what a raise leaves of the state and does by the source's class, and the forced raise.
-/
namespace Sys2Proof.Machine

/-! Taking a record (R385, R392). -/

section
variable (now : Nat) (typ origin : Byte) (source : BitVec 16) (payload : Bytes) (l : LogStore)

theorem startHint_eq : ∃ b d, startHint l = { l with hintBusy := b, hintDue := d } := by
  unfold startHint
  split
  · exact ⟨_, _, rfl⟩
  · split <;> exact ⟨_, _, rfl⟩

/-- A record that is queued takes NEXT_SEQ; a hint may become due with it. -/
theorem enqueue_eq : ∃ b d, enqueue now typ origin source payload l = { l with
    queue := l.queue ++ [⟨l.nextSeq, typ, origin, source, BitVec.ofNat 64 now, payload⟩], nextSeq := l.nextSeq + 1, hintBusy := b, hintDue := d } := by
  unfold enqueue
  dsimp only
  split
  · exact startHint_eq _
  · exact ⟨_, _, rfl⟩

theorem flushLost_of_none {now : Nat} {l : LogStore} (h : l.dropped = 0) : flushLost now l = l := by
  simp [flushLost, h]

variable {typ l} (listed : typ ∈ recordTypes)
include listed

theorem logAccept_of_room (none_lost : l.dropped = 0) (room : l.queue.length < 64) :
    logAccept now typ origin source payload l = enqueue now typ origin source payload l := by
  obtain ⟨b, d, h⟩ := enqueue_eq now typ origin source payload l
  have kept : (enqueue now typ origin source payload l).dropped = 0 := by rw [h, none_lost]
  simp only [logAccept, List.contains_iff_mem.2 listed, room, flushLost_of_none kept, Bool.not_true, Bool.false_eq_true, if_false, if_true]

theorem logAccept_of_full (full : 64 ≤ l.queue.length) : logAccept now typ origin source payload l =
    if typ = 0x30#8 then enqueue now typ origin source payload (dropOne { l with queue := l.queue.dropLast }) else dropOne l := by
  simp only [logAccept, List.contains_iff_mem.2 listed, full.not_gt, Bool.not_true, Bool.false_eq_true, if_false]

end

/-- Settles O16: a record is queued with room, and with none a Midnight record is, after the newest has been dropped. -/
theorem logRecordAccepted : Obligations.LogRecordAccepted := by
  intro now typ origin source payload l listed none_lost
  refine ⟨fun room => ?_, fun full other => ?_, fun full night => ?_⟩
  · obtain ⟨b, d, h⟩ := enqueue_eq now typ origin source payload l
    rw [logAccept_of_room now origin source payload listed none_lost room, h]
    exact ⟨rfl, rfl, rfl, rfl⟩
  · rw [logAccept_of_full now origin source payload listed full, if_neg other]
  · obtain ⟨b, d, h⟩ := enqueue_eq now typ origin source payload (dropOne { l with queue := l.queue.dropLast })
    rw [logAccept_of_full now origin source payload listed full, if_pos night, h]
    exact ⟨rfl, congrArg (· + 1) none_lost, rfl⟩

/-! What an alarm and a raise leave of the state (R296, R400). -/

theorem stopPorts_eq (s : State) : ∃ h, stopPorts s = { s with host := h } := by
  unfold stopPorts
  refine List.foldlRecOn (motive := fun x => ∃ h, x = { s with host := h }) _ _ ⟨s.host, rfl⟩ ?_
  rintro _ ⟨h, rfl⟩ p -
  exact ⟨_, rfl⟩

theorem logSubmit_parts (typ origin : Byte) (source : BitVec 16) (p : Bytes) (s : State) : logSubmit typ origin source p s =
    { s with log := logAccept s.time.now typ origin source p s.log, cnt := (logSubmit typ origin source p s).cnt } := by
  obtain ⟨c, h⟩ := logSubmit_eq typ origin source p s
  rw [h]

/-- What the fault collector holds of its sources (R399): status, enables and entries. -/
structure SameSources (f g : Faults) : Prop where
  sts : g.sts = f.sts
  en : g.en = f.en
  pend : g.pend = f.pend

/-- An alarm enters Midnight, and changes keys, ports and the log besides. -/
theorem alarm_eq (sl src : Nat) (c : AlarmCtx) (s : State) : ∃ f k h l n, alarm sl src c s = { s with faults := f, cry := k, host := h, log := l, cnt := n } ∧
    SameSources s.faults f ∧ f.midnight = true ∧ f.rr = s.faults.rr := by
  unfold alarm
  dsimp only
  split
  next night => exact ⟨_, _, _, _, _, rfl, ⟨rfl, rfl, rfl⟩, night, rfl⟩
  next =>
    obtain ⟨h, hp⟩ := stopPorts_eq (onFaults (fun f => { f with midnight := true, grace := [] })
      (onFaults (fun f => { f with alarm := setBit f.alarm sl true }) s))
    rw [hp, logSubmit_parts]
    simp only [zeroise, onCry, onFaults]
    exact ⟨_, _, _, _, _, rfl, ⟨rfl, rfl, rfl⟩, rfl, rfl⟩

/-- The step-1 action of a class (R402, R407, R410): NOTE none, SERVICE a replace request, QUIESCE a grace window besides, FATAL the alarm. -/
def classAct (src : Nat) (a : AlarmCtx) (s : State) : Nat → State
  | 0 => s
  | 1 => replaceRequest src s
  | 2 => if s.faults.midnight then replaceRequest src s else onFaults (fun f => { f with grace := f.grace ++ [src] }) (replaceRequest src s)
  | _ => alarm (srcSlice src) src a s

/-- The status bit of a source and its entry, which every 0-to-1 transition leaves (R400). -/
def markRaised (src : Nat) (c : FaultCtx) (s : State) : State :=
  { s with faults := { s.faults with sts := setBit s.faults.sts src true, pend := pendRaise src c s.faults.pend } }

section
variable {s : State} {src : Nat} (c : FaultCtx) (a : AlarmCtx)

theorem raiseWith_of_ignored (h : srcPresent (tiles s) src = false ∨ s.faults.en.getLsbD src = false ∨ s.faults.sts.getLsbD src = true) :
    raiseWith src c a s = s := by
  unfold raiseWith
  split
  · rfl
  next heard =>
    rw [if_pos]
    simp only [Bool.or_eq_true, Bool.not_eq_true', not_or, Bool.not_eq_false] at heard
    simpa [heard] using h

theorem raiseWith_of_heard (present : srcPresent (tiles s) src = true) (enabled : s.faults.en.getLsbD src = true)
    (clear : s.faults.sts.getLsbD src = false) : raiseWith src c a s = classAct src a (markRaised src c s) (faultClass s src) := by
  have heard : (!srcPresent (tiles s) src || !s.faults.en.getLsbD src) = false := by simp [present, enabled]
  simp only [raiseWith, heard, clear, Bool.false_eq_true, if_false]
  rcases faultClass s src with _ | _ | _ | n
  · rfl
  · rfl
  · rfl
  · rfl

/-- A replace request stands from now on, and from the first source that made one (R410). -/
theorem replaceRequest_eq (src : Nat) (s : State) : replaceRequest src s =
    { s with faults := { s.faults with rr := true, rrSource := if s.faults.rr then s.faults.rrSource else src } } := by
  have stands (f : Faults) : (if f.rr then f else { f with rr := true, rrSource := src }) =
      { f with rr := true, rrSource := if f.rr then f.rrSource else src } := by
    cases f
    dsimp only
    split <;> simp_all
  exact congrArg (fun f => { s with faults := f }) (stands s.faults)

end

/-- What an action of a class may change: of the faults what is not status, enable or entries, and the keys, ports, log and counters. -/
theorem classAct_eq (src : Nat) (a : AlarmCtx) (s : State) (cls : Nat) : ∃ f k h l n,
    classAct src a s cls = { s with faults := f, cry := k, host := h, log := l, cnt := n } ∧ SameSources s.faults f := by
  unfold classAct
  split
  · exact ⟨_, _, _, _, _, rfl, rfl, rfl, rfl⟩
  · rw [replaceRequest_eq]
    exact ⟨_, _, _, _, _, rfl, rfl, rfl, rfl⟩
  · rw [replaceRequest_eq]
    split <;> exact ⟨_, _, _, _, _, rfl, rfl, rfl, rfl⟩
  · obtain ⟨f, k, h, l, n, e, same, -⟩ := alarm_eq (srcSlice src) src a s
    exact ⟨f, k, h, l, n, e, same⟩

/-- A raise changes the fault collector, keys, ports, log and counters at most. -/
theorem raiseWith_eq (src : Nat) (c : FaultCtx) (a : AlarmCtx) (s : State) : ∃ f k h l n,
    raiseWith src c a s = { s with faults := f, cry := k, host := h, log := l, cnt := n } := by
  by_cases heard : srcPresent (tiles s) src = true ∧ s.faults.en.getLsbD src = true ∧ s.faults.sts.getLsbD src = false
  · obtain ⟨present, enabled, clear⟩ := heard
    obtain ⟨f, k, h, l, n, e, -⟩ := classAct_eq src a (markRaised src c s) (faultClass s src)
    exact ⟨f, k, h, l, n, (raiseWith_of_heard c a present enabled clear).trans e⟩
  · refine ⟨s.faults, s.cry, s.host, s.log, s.cnt, raiseWith_of_ignored c a ?_⟩
    simp only [not_and_or, Bool.not_eq_true, Bool.not_eq_false] at heard
    exact heard

theorem classAct_of_fatal (src : Nat) (a : AlarmCtx) (s : State) (n : Nat) : classAct src a s (n + 3) = alarm (srcSlice src) src a s := rfl

theorem classAct_fatal {src : Nat} {a : AlarmCtx} {s : State} {cls : Nat} (h : 3 ≤ cls) :
    (classAct src a s cls).faults.midnight = true ∧ (classAct src a s cls).faults.rr = s.faults.rr := by
  obtain ⟨n, rfl⟩ := Nat.exists_eq_add_of_le' h
  obtain ⟨f, k, h, l, m, e, -, night, replace⟩ := alarm_eq (srcSlice src) src a s
  rw [classAct_of_fatal, e]
  exact ⟨night, replace⟩

/-- Below FATAL no action enters Midnight. -/
theorem classAct_midnight {src : Nat} {a : AlarmCtx} {s : State} {cls : Nat} (low : cls < 3) :
    (classAct src a s cls).faults.midnight = s.faults.midnight := by
  obtain rfl | rfl | rfl : cls = 0 ∨ cls = 1 ∨ cls = 2 := by omega
  · rfl
  · rw [classAct, replaceRequest_eq]
  · rw [classAct, replaceRequest_eq]
    split <;> rfl

theorem classAct_replace {src : Nat} {a : AlarmCtx} {s : State} {cls : Nat} (h : cls = 1 ∨ cls = 2) :
    (classAct src a s cls).faults.rr = true ∧
      (classAct src a s cls).faults.rrSource = (if s.faults.rr then s.faults.rrSource else src) ∧ (classAct src a s cls).cry = s.cry := by
  rcases h with rfl | rfl
  · rw [classAct, replaceRequest_eq]
    exact ⟨rfl, rfl, rfl⟩
  · rw [classAct, replaceRequest_eq]
    split <;> exact ⟨rfl, rfl, rfl⟩

theorem getLsbD_setBit_other {n : Nat} (w : BitVec n) {i j : Nat} (h : j ≠ i) : (setBit w i true).getLsbD j = w.getLsbD j := by
  by_cases hj : j < n
  · simp [getLsbD_setBit_true w hj, h]
  · rw [BitVec.getLsbD_of_ge _ _ (by omega), BitVec.getLsbD_of_ge _ _ (by omega)]

/-- Settles O18: a raise that is heard marks its source and takes the action of its class. -/
theorem raiseOfASource : Obligations.RaiseOfASource := by
  intro s src c a hsrc
  refine ⟨raiseWith_of_ignored c a, fun present enabled clear => ?_⟩
  obtain ⟨f, k, h, l, n, e, ⟨sts, en, pend⟩⟩ := classAct_eq src a (markRaised src c s) (faultClass s src)
  have raised := raiseWith_of_heard c a present enabled clear
  have marked : (raiseWith src c a s).faults.sts = setBit s.faults.sts src true := by rw [raised, e, sts]; rfl
  refine ⟨?set, fun i other => ?others, ?pend, ?en, fun note => ?note, fun class1or2 => ?replace, fun quiesce calm => ?grace, fun fatal => ?alarm⟩
  case set => simp [marked, getLsbD_setBit_true _ hsrc]
  case others => rw [marked, getLsbD_setBit_other _ other]
  case pend => rw [raised, e, pend]; rfl
  case en => rw [raised, e, en]; rfl
  case note =>
    rw [raised, note]
    rfl
  case replace =>
    have low : faultClass s src < 3 := by omega
    rw [raised]
    obtain ⟨rr, source, cry⟩ := classAct_replace (src := src) (a := a) (s := markRaised src c s) class1or2
    exact ⟨rr, source, classAct_midnight low, cry⟩
  case grace =>
    have no_night : (markRaised src c s).faults.midnight = false := calm
    rw [raised, quiesce, classAct, no_night, replaceRequest_eq]
    rfl
  case alarm =>
    rw [raised]
    exact classAct_fatal fatal

/-! The forced raise (R328, R403–R405). -/

/-- The context of a forced raise. -/
def forceCtx : FaultCtx := ⟨0#64, 0xFF#8, 3#8, 0xFFFFFFFF#32⟩

theorem bitsOf_one (i : Fin 32) : bitsOf 32 (1#32 <<< i.val) = [i.val] := by
  revert i
  decide

section
variable {s : State} {src : Nat}

theorem forceRaise_plain (h : 960 ≤ src ∨ src % 120 ∉ [13, 18, 24]) : forceRaise src s = raiseWith src forceCtx {} s := by
  have plain : (decide (src < 960) && [13, 18, 24].contains (src % 120)) = false := by
    rw [Bool.and_eq_false_iff, decide_eq_false_iff_not, ← Bool.not_eq_true, List.contains_iff_mem]
    exact h.imp_left Nat.not_lt.2
  simp only [forceRaise, plain, Bool.false_and, Bool.false_eq_true, if_false]
  rfl

theorem forceRaise_loss (tile : src < 960) (loss : src % 120 ∈ [13, 18, 24]) (present : srcPresent (tiles s) src = true)
    (enabled : s.faults.en.getLsbD src = true) : forceRaise src s = reevaluate src (raiseWith src forceCtx {} s) := by
  simp only [forceRaise, tile, List.contains_iff_mem.2 loss, present, enabled, decide_true, Bool.and_self, if_true]
  rfl

theorem forceRaise_absent (absent : srcPresent (tiles s) src = false) : forceRaise src s = s := by
  simp only [forceRaise, absent, Bool.and_false, Bool.false_and, Bool.false_eq_true, if_false]
  exact raiseWith_of_ignored _ _ (.inl absent)

@[simp] theorem reevaluate_faults (trigger : Nat) (s : State) : (reevaluate trigger s).faults = s.faults := by
  unfold reevaluate
  split <;> rfl

/-- A forced raise is one raise; what may follow it leaves the fault collector alone. -/
theorem forceRaise_faults : (forceRaise src s).faults = (raiseWith src forceCtx {} s).faults := by
  unfold forceRaise
  dsimp only
  split
  · exact reevaluate_faults ..
  · rfl

theorem raiseWith_midnight_of_low {c : FaultCtx} {a : AlarmCtx} (low : faultClass s src < 3) :
    (raiseWith src c a s).faults.midnight = s.faults.midnight := by
  by_cases ignored : srcPresent (tiles s) src = false ∨ s.faults.en.getLsbD src = false ∨ s.faults.sts.getLsbD src = true
  · rw [raiseWith_of_ignored c a ignored]
  · simp only [not_or, Bool.not_eq_false, Bool.not_eq_true] at ignored
    obtain ⟨present, enabled, clear⟩ := ignored
    rw [raiseWith_of_heard c a present enabled clear, classAct_midnight low]
    rfl

theorem reevaluate_busy (trigger : Nat) {s : State} (done : dawnDone s = true) (calm : s.faults.midnight = false) :
    (reevaluate trigger s).qos.busy = some trigger := by
  simp [reevaluate, done, midnight, calm]

theorem raiseWith_dawnDone (c : FaultCtx) (a : AlarmCtx) : dawnDone (raiseWith src c a s) = dawnDone s := by
  obtain ⟨f, k, h, l, n, e⟩ := raiseWith_eq src c a s
  rw [e]
  rfl

end

section
variable {s : State} {a : Agent}

/-- A write of one bit by a head with rights forces its source, where it is not fixed. -/
theorem exec_faultForce_one (g i : Fin 32) (rights : hasRights s a = true) (up : running s = true) : exec (.faultForce a g (1#32 <<< i.val)) s =
    .next (if srcFixed (32 * g.val + i.val) then s else forceRaise (32 * g.val + i.val) s) := by
  change execFaultForce a g (1#32 <<< i.val) s = _
  simp only [execFaultForce, rights, up, Bool.and_self, if_true, forceGroup, bitsOf_one, List.foldl_cons, List.foldl_nil]

theorem exec_faultForce_of_free {g i : Fin 32} (rights : hasRights s a = true) (up : running s = true)
    (free : srcFixed (32 * g.val + i.val) = false) : exec (.faultForce a g (1#32 <<< i.val)) s = .next (forceRaise (32 * g.val + i.val) s) := by
  rw [exec_faultForce_one g i rights up, free]
  rfl

theorem exec_faultForce_closed (g : Fin 32) (v : W32) (h : (hasRights s a && running s) = false) : exec (.faultForce a g v) s = .next s := by
  change execFaultForce a g v s = _
  simp only [execFaultForce, h, Bool.false_eq_true, if_false]

end

/-- Settles O19: one bit is one forced raise, which a loss lets a re-evaluation follow. -/
theorem forceIsARaise : Obligations.ForceIsARaise := by
  refine ⟨?plain, ?loss, ?discarded, ?fatal, fun s a g v none_ => exec_faultForce_closed g v (by rw [none_, Bool.false_and])⟩
  case plain =>
    intro s a g i rights up free plain
    rw [exec_faultForce_of_free rights up free, forceRaise_plain plain, forceCtx]
  case loss =>
    intro s a g i rights up free done tile loss present enabled low calm
    refine ⟨_, exec_faultForce_of_free rights up free, forceRaise_faults, ?_⟩
    rw [forceRaise_loss tile loss present enabled]
    exact reevaluate_busy _ ((raiseWith_dawnDone ..).trans done) ((raiseWith_midnight_of_low low).trans calm)
  case discarded =>
    intro s a g i h
    cases allowed : hasRights s a && running s with
    | false => exact exec_faultForce_closed g _ allowed
    | true =>
      obtain ⟨rights, up⟩ := Bool.and_eq_true_iff.1 allowed
      rw [exec_faultForce_one g i rights up]
      split
      · rfl
      next free => rw [forceRaise_absent (h.resolve_left free)]
  case fatal =>
    intro s a g i rights up free present enabled clear fatal
    refine ⟨_, exec_faultForce_of_free rights up free, ?_⟩
    rw [forceRaise_faults, raiseWith_of_heard _ _ present enabled clear]
    exact (classAct_fatal fatal.ge).1

end Sys2Proof.Machine
end

section
/-!
Counters and windows (O21): the sparse table under a write of many keys, the read latch and the window engine.
-/
namespace Sys2Proof.Table
variable {α : Type} [DecidableEq α] (d : α) (f : Nat → α)

theorem get_foldl_set_of_not_mem {l : List Nat} {k : Nat} (h : k ∉ l) (t : Table α) :
    get d (l.foldl (fun t i => set d t i (f i)) t) k = get d t k := by
  induction l generalizing t with
  | nil => rfl
  | cons i l ih =>
    obtain ⟨other, rest⟩ := not_or.1 (List.mem_cons.not.1 h)
    rw [List.foldl_cons, ih rest, get_set_other _ _ _ _ _ other]

/-- Each key written holds its value: one that is listed again is given the same one. -/
theorem get_foldl_set_of_mem {l : List Nat} {k : Nat} (h : k ∈ l) (t : Table α) :
    get d (l.foldl (fun t i => set d t i (f i)) t) k = f k := by
  induction l generalizing t with
  | nil => exact absurd h List.not_mem_nil
  | cons i l ih =>
    by_cases again : k ∈ l
    · exact ih again _
    · rw [List.foldl_cons, get_foldl_set_of_not_mem d f again, (List.mem_cons.1 h).resolve_right again, get_set_same]

end Sys2Proof.Table

namespace Sys2Proof.Machine

/-! COUNTER_LOW_READ (R412). -/

/-- What a read returns to its function. -/
def putRead (f : Nat) (v : Option W64) (s : State) : State := onFn f (fun q => { q with readData := v }) s

theorem putRead_readData (f : Nat) (v : Option W64) (s : State) : (getFn (putRead f v s) f).readData = v := by
  rw [putRead, getFn_onFn]

/-- The latch of a head takes the key and the high bits of a counter, or is empty. -/
def putLatch (h : Nat) (v : Option (Nat × BitVec 16)) (s : State) : State := onCnt (fun c => { c with latch := Table.set none c.latch h v }) s

theorem putLatch_same (h : Nat) (v : Option (Nat × BitVec 16)) (s : State) : Table.get none (putLatch h v s).cnt.latch h = v := Table.get_set_same ..

theorem putLatch_other {h g : Nat} (other : g ≠ h) (v : Option (Nat × BitVec 16)) (s : State) :
    Table.get none (putLatch h v s).cnt.latch g = Table.get none s.cnt.latch g := Table.get_set_other _ _ _ _ _ other

section
variable {s : State} {h : PortId} {ld : LdId} {off : BitVec 27} {k : Nat} (head : isHead s h.val = true) (up : (getPort s h.val).up = true)
include head up

theorem exec_counterLowRead_aborts {hi : Bool} (at_ : cntAt off.toNat = some (k, hi)) (aborts : cntAborts s h.val ld.val k = true) :
    exec (.counterLowRead h ld off) s = .next (putRead (fnKey h.val ld.val false) none s) := by
  change execCounterLowRead h ld off s = _
  simp [execCounterLowRead, head, up, at_, aborts, putRead]

theorem exec_counterLowRead_low (at_ : cntAt off.toNat = some (k, false)) (reached : cntAborts s h.val ld.val k = false) :
    exec (.counterLowRead h ld off) s = .next (putLatch h.val (some (k, BitVec.ofNat 16 ((readCnt s h.val ld.val k).toNat >>> 32)))
      (putRead (fnKey h.val ld.val false) (some (BitVec.ofNat 64 ((readCnt s h.val ld.val k).toNat % 2 ^ 32))) s)) := by
  change execCounterLowRead h ld off s = _
  simp [execCounterLowRead, head, up, at_, reached, putRead, putLatch]

theorem exec_counterLowRead_high (at_ : cntAt off.toNat = some (k, true)) (reached : cntAborts s h.val ld.val k = false) {x : BitVec 16}
    (latched : Table.get none s.cnt.latch h.val = some (k, x)) : exec (.counterLowRead h ld off) s =
      .next (putLatch h.val none (putRead (fnKey h.val ld.val false) (some (x.zeroExtend 64)) s)) := by
  change execCounterLowRead h ld off s = _
  simp [execCounterLowRead, head, up, at_, reached, latched, putRead, putLatch]

end

/-! WINDOW_BOUNDARY and CNT_WIN_CFG (R414). -/

/-- What a counter's accumulator comes to over `ms` (R414). -/
def bandwidth (c : Counters) (ms k : Nat) : W32 := BitVec.ofNat 32 (mbps (Table.get 0 c.acc k) ms)

/-- The window's accumulators are latched as MB/s. -/
def latchWindow (t ms : Nat) (c : Counters) : Counters :=
  { c with
    bw := (windowKeys t).foldl (fun b k => Table.set 0#32 b k (bandwidth c ms k)) c.bw
    latches := Table.mod 0#32 c.latches t (· + 1) }

section
variable {s : State} {t : TileId} (runs : tileRuns s t.val = true) (on : bit (regRaw s .cntWinCfg t.val) 31 = true)
include runs on

theorem exec_windowBoundary_latched (kept : s.cnt.discard.getLsbD t.val = false) :
    exec (.windowBoundary t) s = .next { s with cnt := restartWindow t.val (latchWindow t.val (windowMs s t.val) s.cnt) } := by
  change execWindowBoundary t s = _
  simp only [execWindowBoundary, runs, on, Bool.not_true, Bool.or_self, Bool.false_eq_true, if_false, onCnt, kept]
  rfl

theorem exec_windowBoundary_discarded (discarded : s.cnt.discard.getLsbD t.val = true) :
    exec (.windowBoundary t) s = .next { s with cnt := restartWindow t.val s.cnt } := by
  change execWindowBoundary t s = _
  simp only [execWindowBoundary, runs, on, Bool.not_true, Bool.or_self, Bool.false_eq_true, if_false, onCnt, discarded, if_true]

end

theorem latchWindow_bw_of_mem {t k : Nat} (h : k ∈ windowKeys t) (ms : Nat) (c : Counters) :
    Table.get 0#32 (latchWindow t ms c).bw k = bandwidth c ms k := by
  rw [latchWindow, Table.get_foldl_set_of_mem 0#32 (bandwidth c ms) h]

theorem latchWindow_bw_of_not_mem {t k : Nat} (h : k ∉ windowKeys t) (ms : Nat) (c : Counters) :
    Table.get 0#32 (latchWindow t ms c).bw k = Table.get 0#32 c.bw k := by
  rw [latchWindow, Table.get_foldl_set_of_not_mem 0#32 (bandwidth c ms) h]

theorem restartWindow_acc_of_mem {t k : Nat} (h : k ∈ windowKeys t) (c : Counters) : Table.get 0 (restartWindow t c).acc k = 0 := by
  rw [restartWindow, Table.get_foldl_set_of_mem 0 (fun _ => 0) h]

theorem restartWindow_acc_of_not_mem {t k : Nat} (h : k ∉ windowKeys t) (c : Counters) : Table.get 0 (restartWindow t c).acc k = Table.get 0 c.acc k := by
  rw [restartWindow, Table.get_foldl_set_of_not_mem 0 (fun _ => 0) h]

/-- A restart changes the accumulators and the mark of the discarded window alone. -/
theorem restartWindow_rest (t : Nat) (c : Counters) :
    (restartWindow t c).bw = c.bw ∧ (restartWindow t c).latches = c.latches ∧ (restartWindow t c).cnt = c.cnt := by
  unfold restartWindow
  exact ⟨rfl, rfl, rfl⟩

theorem latchWindow_rest (t ms : Nat) (c : Counters) :
    (latchWindow t ms c).acc = c.acc ∧ (latchWindow t ms c).latches = Table.mod 0#32 c.latches t (· + 1) ∧ (latchWindow t ms c).cnt = c.cnt := by
  unfold latchWindow
  exact ⟨rfl, rfl, rfl⟩

theorem exec_cntWinCfgWrite {s : State} {a : Agent} {t : TileId} {v : W32} (opened : regOpen s a .cntWinCfg t.val = true) :
    exec (.cntWinCfgWrite a t v) s = .next (writeWinCfg t.val v s) := by
  change execCntWinCfgWrite a t v s = _
  rw [execCntWinCfgWrite, if_pos opened]

theorem regRaw_writeReg (k : RegKind) (i : Nat) (v : W32) (s : State) :
    regRaw (writeReg k i v s) k i = storeBits (regDesc k) (locked s) (regRaw s k i) v := Table.get_set_same ..

theorem exec_statusImageRefresh {s : State} (up : i3cUp s = true) : exec .statusImageRefresh s =
    .next { s with i3c := { s.i3c with gen := s.i3c.gen + 1#32, image := statusImage s (s.i3c.gen + 1#32) } } := by
  change execStatusImageRefresh s = _
  rw [execStatusImageRefresh, if_pos up]
  rfl

/-- Settles O21: a read by its half and by whether its tile is reached, a boundary by whether its window is discarded. -/
theorem counterCommands : Obligations.CounterCommands := by
  refine ⟨?low, ?high, ?aborts, ?latched, ?discarded, ?config, fun s up => exec_statusImageRefresh up⟩
  case low =>
    intro s h ld off k head up at_ reached
    exact ⟨_, exec_counterLowRead_low head up at_ reached, putLatch_same .., putRead_readData .., rfl, fun g other => putLatch_other other ..⟩
  case high =>
    intro s h ld off k x head up at_ reached latched
    exact ⟨_, exec_counterLowRead_high head up at_ reached latched, putLatch_same .., putRead_readData .., rfl⟩
  case aborts =>
    intro s h ld off k hi head up at_ aborts
    exact ⟨_, exec_counterLowRead_aborts head up at_ aborts, putRead_readData .., rfl⟩
  case latched =>
    intro s t runs on kept
    obtain ⟨bw, latches, cnt⟩ := restartWindow_rest t.val (latchWindow t.val (windowMs s t.val) s.cnt)
    obtain ⟨acc1, latches1, cnt1⟩ := latchWindow_rest t.val (windowMs s t.val) s.cnt
    refine ⟨_, exec_windowBoundary_latched runs on kept, fun k hk => ⟨restartWindow_acc_of_mem hk _, ?_⟩, fun k hk => ⟨?_, ?_⟩, ?_, cnt.trans cnt1, rfl⟩
    · rw [bw, latchWindow_bw_of_mem hk, bandwidth]
    · rw [restartWindow_acc_of_not_mem hk, acc1]
    · rw [bw, latchWindow_bw_of_not_mem hk]
    · rw [latches, latches1, Table.get_mod_same]
  case discarded =>
    intro s t runs on discarded
    obtain ⟨bw, latches, -⟩ := restartWindow_rest t.val s.cnt
    exact ⟨_, exec_windowBoundary_discarded runs on discarded, fun k hk => restartWindow_acc_of_mem hk _, bw, latches, rfl⟩
  case config =>
    intro s a t v opened
    exact ⟨_, exec_cntWinCfgWrite opened, rfl, regRaw_writeReg .., rfl⟩

end Sys2Proof.Machine
end

section
/-!
The I3C target (O22, O23): one answer from a target that serves, none from another.
-/
namespace Sys2Proof.Machine

section
variable {s : State}

theorem i3cAnswer_of_up (up : i3cUp s = true) (r : I3cRsp) : i3cAnswer r s = { s with i3c := { s.i3c with rsp := r } } := by
  rw [i3cAnswer, if_pos up]
  rfl

theorem i3cAnswer_of_down (down : i3cUp s = false) (r : I3cRsp) : i3cAnswer r s = { s with i3c := { s.i3c with rsp := .none } } := by
  rw [i3cAnswer, down]
  rfl

/-! Addressing and common commands (R416, log 30). -/

theorem exec_setdasa_taken {t a : BitVec 7} (up : i3cUp s = true) (static : t.toNat = i3cStatic s) (free : s.i3c.dyn = none) :
    exec (.setdasa t a) s = .next { s with i3c := { s.i3c with dyn := some a, rsp := .ack } } := by
  change execSetdasa t a s = _
  simp [execSetdasa, up, static, free, onI3c]

theorem exec_setdasa_refused {t : BitVec 7} (a : BitVec 7) (h : t.toNat ≠ i3cStatic s ∨ s.i3c.dyn.isSome = true) :
    exec (.setdasa t a) s = .next { s with i3c := { s.i3c with rsp := .none } } := by
  change execSetdasa t a s = _
  rw [execSetdasa, if_neg]
  · rfl
  · simp only [Bool.and_eq_true, decide_eq_true_eq, Option.isNone_iff_eq_none, ← Option.not_isSome_iff_eq_none]
    tauto

theorem exec_entdaa_taken (a : BitVec 7) (up : i3cUp s = true) (free : s.i3c.dyn = none) :
    exec (.entdaa a) s = .next { s with i3c := { s.i3c with dyn := some a, rsp := .ack } } := by
  change execEntdaa a s = _
  simp [execEntdaa, up, free, onI3c]

theorem exec_entdaa_refused (a : BitVec 7) (h : s.i3c.dyn.isSome = true) : exec (.entdaa a) s = .next { s with i3c := { s.i3c with rsp := .none } } := by
  change execEntdaa a s = _
  simp [execEntdaa, Option.isSome_iff_ne_none.1 h, onI3c]

/-- A mandatory code other than GETSTATUS is acknowledged, with its data where it reads; RSTDAA drops the dynamic address. -/
theorem exec_i3cMandatoryCcc {c : Byte} (up : i3cUp s = true) (mandatory : c.toNat ∈ mandatoryCccs) (no_status : c ≠ 0x90#8) :
    exec (.i3cMandatoryCcc c) s = .next { s with i3c := { s.i3c with
      dyn := if c = 0x06#8 then none else s.i3c.dyn, rsp := match cccData s c with | some d => .data d | none => .ack } } := by
  change execI3cMandatoryCcc c s = _
  simp only [execI3cMandatoryCcc, up, List.contains_iff_mem.2 mandatory, no_status, Bool.and_self, if_true, if_false]
  rfl

/-- The codes that are acknowledged and return nothing are mandatory, and none of them reads or drops the address. -/
theorem ackCcc_mandatory : ∀ c : Byte, c.toNat ∈ [0x00, 0x01, 0x80, 0x81, 0x07, 0x2A, 0x9A] →
    c.toNat ∈ mandatoryCccs ∧ c ∉ [0x06#8, 0x8D#8, 0x8E#8, 0x8F#8, 0x90#8, 0x95#8] := by
  decide

theorem dataCcc_mandatory : ∀ c : Byte, c ∈ [0x8D#8, 0x8E#8, 0x8F#8, 0x95#8] → c.toNat ∈ mandatoryCccs ∧ c ≠ 0x06#8 ∧ c ≠ 0x90#8 := by
  decide

theorem cccData_none {c : Byte} (h : c ∉ [0x8D#8, 0x8E#8, 0x8F#8, 0x90#8, 0x95#8]) : cccData s c = none := by
  simp only [List.mem_cons, List.not_mem_nil, or_false, not_or] at h
  obtain ⟨pid, bcr, dcr, status, caps⟩ := h
  simp only [cccData, pid, bcr, dcr, status, caps, if_false]

theorem exec_i3cMandatoryCcc_ack {c : Byte} (up : i3cUp s = true) (h : c.toNat ∈ [0x00, 0x01, 0x80, 0x81, 0x07, 0x2A, 0x9A]) :
    exec (.i3cMandatoryCcc c) s = .next { s with i3c := { s.i3c with rsp := .ack } } := by
  obtain ⟨mandatory, silent⟩ := ackCcc_mandatory c h
  obtain ⟨keeps, silent⟩ := not_or.1 (List.mem_cons.not.1 silent)
  have no_status : c ≠ 0x90#8 := fun e => silent (by simp [e])
  rw [exec_i3cMandatoryCcc up mandatory no_status, cccData_none silent, if_neg keeps]

theorem exec_i3cMandatoryCcc_data {c : Byte} {d : Bytes} (up : i3cUp s = true) (h : c ∈ [0x8D#8, 0x8E#8, 0x8F#8, 0x95#8]) (data : cccData s c = some d) :
    exec (.i3cMandatoryCcc c) s = .next { s with i3c := { s.i3c with rsp := .data d } } := by
  obtain ⟨mandatory, keeps, no_status⟩ := dataCcc_mandatory c h
  rw [exec_i3cMandatoryCcc up mandatory no_status, data, if_neg keeps]

theorem exec_i3cMandatoryCcc_rstdaa (up : i3cUp s = true) :
    exec (.i3cMandatoryCcc 0x06#8) s = .next { s with i3c := { s.i3c with dyn := none, rsp := .ack } } :=
  exec_i3cMandatoryCcc up (by decide) (by decide)

/-- GETSTATUS takes a free value. -/
theorem exec_i3cMandatoryCcc_status (up : i3cUp s = true) : exec (.i3cMandatoryCcc 0x90#8) s = .next { s with
    i3c := { s.i3c with rsp := .data (beBytes 2 (Config.i3cStatus s.free &&& 0xFFF0#16).toNat) }, free := s.free + 1 } := by
  change execI3cMandatoryCcc 0x90#8 s = _
  rw [execI3cMandatoryCcc, if_pos (by rw [up]; decide)]
  rfl

theorem length_leBytes (n v : Nat) : (leBytes n v).length = n := by
  induction n generalizing v with
  | zero => rfl
  | succ n ih => rw [leBytes, List.length_cons, ih]

theorem length_beBytes (n v : Nat) : (beBytes n v).length = n := by
  rw [beBytes, List.length_reverse, length_leBytes]

/-! MCTP control messages (R416, log 30). -/

section
variable (up : i3cUp s = true)
include up

theorem exec_setEndpointId_taken {e : Byte} (zero : e ≠ 0#8) (broadcast : e ≠ 0xFF#8) : exec (.setEndpointId e) s =
    .next { s with i3c := { s.i3c with eid := e, rsp := .control 1#8 [0#8, 0#8, e, 0#8] } } := by
  change execSetEndpointId e s = _
  simp [execSetEndpointId, up, zero, broadcast, onI3c]

theorem exec_setEndpointId_refused {e : Byte} (h : e = 0#8 ∨ e = 0xFF#8) : exec (.setEndpointId e) s =
    .next { s with i3c := { s.i3c with rsp := .control 1#8 [2#8] } } := by
  change execSetEndpointId e s = _
  simp [execSetEndpointId, up, h, i3cAnswer_of_up up]

theorem exec_getMctpVersionSupport (m : Byte) : exec (.getMctpVersionSupport m) s = .next { s with i3c := { s.i3c with
    rsp := .control 4#8 (if m.toNat ∈ [0xFF, 0x00, 0x7E] then [0#8, 1#8, 0xF1#8, 0xF3#8, 0xF1#8, 0#8] else [0x80#8]) } } := by
  change execGetMctpVersionSupport m s = _
  simp only [execGetMctpVersionSupport, i3cAnswer_of_up up, List.contains_iff_mem]

theorem exec_getVendorDefinedMessageSupport (m : Byte) : exec (.getVendorDefinedMessageSupport m) s = .next { s with i3c := { s.i3c with
    rsp := .control 6#8 (if m = 0#8 then [0#8, 0xFF#8, 0#8] ++ beBytes 2 Config.vendorId.toNat ++ [0#8, 0#8] else [2#8]) } } :=
  congrArg _ (i3cAnswer_of_up up _)

end

/-- The types for which a version is given: all of MCTP, control, and Vendor Defined – PCI. -/
theorem versioned_iff : ∀ m : Byte, m.toNat ∈ [0xFF, 0x00, 0x7E] ↔ m = 0xFF#8 ∨ m = 0#8 ∨ m = 0x7E#8 := by
  decide

end

/-- Settles O22: each command by whether the target may take it, each message by its answer. -/
theorem i3cAndMctp : Obligations.I3cAndMctp := by
  refine ⟨⟨fun s t a up static free => exec_setdasa_taken up static free, fun s t a h => exec_setdasa_refused a h,
    fun s a up free => exec_entdaa_taken a up free, fun s a h => exec_entdaa_refused a h, fun s up => exec_i3cMandatoryCcc_rstdaa up,
    fun s c up h => exec_i3cMandatoryCcc_ack up h, fun s c d up h data => exec_i3cMandatoryCcc_data up h data,
    fun s up => exec_i3cMandatoryCcc_status up, fun s => ?lengths⟩, fun s up => ?messages⟩
  case lengths => exact ⟨congrArg some (length_beBytes 6 _), rfl, rfl, congrArg some (length_beBytes 4 _)⟩
  case messages =>
    refine ⟨fun e zero broadcast => exec_setEndpointId_taken up zero broadcast, fun e h => exec_setEndpointId_refused up h,
      congrArg _ (i3cAnswer_of_up up _), congrArg _ (i3cAnswer_of_up up _), fun m h => ?_, fun m all control vendor => ?_,
      congrArg _ (i3cAnswer_of_up up _), exec_getVendorDefinedMessageSupport up 0#8, fun m other => ?_, fun m => rfl⟩
    · rw [exec_getMctpVersionSupport up, if_pos ((versioned_iff m).2 h)]
    · rw [exec_getMctpVersionSupport up, if_neg fun h => ((versioned_iff m).1 h).elim all fun h => h.elim control vendor]
    · rw [exec_getVendorDefinedMessageSupport up, if_neg other]

/-! The vendor-defined commands (R417). -/

section
variable {s : State} (up : i3cUp s = true)
include up

theorem exec_getStatusImageInfo (r : Byte) : exec (.getStatusImageInfo r) s = .next { s with i3c := { s.i3c with
    rsp := if r ≠ 0#8 then .vendor 1#8 2#8 []
      else .vendor 1#8 0#8 (leBytes 2 1 ++ leBytes 2 0 ++ leBytes 4 896 ++ leBytes 4 s.i3c.gen.toNat) } } :=
  congrArg _ (i3cAnswer_of_up up _)

theorem exec_readStatusImage (r : Byte) (o : W32) (n : BitVec 16) : exec (.readStatusImage r o n) s = .next { s with i3c := { s.i3c with
    rsp := if r ≠ 0#8 ∨ n.toNat = 0 ∨ 48 < n.toNat ∨ 896 < o.toNat + n.toNat then .vendor 2#8 2#8 []
      else .vendor 2#8 0#8 (leBytes 4 s.i3c.gen.toNat ++ slice s.i3c.image o.toNat n.toNat) } } :=
  congrArg _ (i3cAnswer_of_up up _)

theorem exec_i3cReservedCommand (c : Byte) : exec (.i3cReservedCommand c) s = .next { s with i3c := { s.i3c with
    rsp := if c = 1#8 ∨ c = 2#8 then .none else .vendor c 1#8 [] } } :=
  congrArg _ (i3cAnswer_of_up up _)

end

/-- Settles O23: each command by its reserved byte, its range or its code. -/
theorem statusImageReads : Obligations.StatusImageReads := by
  intro s
  refine ⟨fun up => exec_getStatusImageInfo up 0#8, fun r up bad => ?_, fun o n up some_ few inside => ?_, fun r o n up bad => ?_,
    fun c up info read => ?_, fun down => congrArg _ (i3cAnswer_of_down down _)⟩
  · rw [exec_getStatusImageInfo up, if_pos bad]
  · rw [exec_readStatusImage up, if_neg (by simp; omega)]
  · rw [exec_readStatusImage up, if_pos bad]
  · rw [exec_i3cReservedCommand up, if_neg (by simp [info, read])]

end Sys2Proof.Machine
end

section
/-!
What the work of the media leaves alone (O11): no raise, stripe work or DRAM write changes the power channels or the reset sources, and so neither
the loss of a DIMM channel nor that of a tile's NVM does.
-/
namespace Sys2Proof.Machine

/-- The power channels and the reset sources. -/
def supply (s : State) : Table Chan × Resets := (s.chans, s.rst)

@[simp] theorem supply_onNvm (f : Nvm → Nvm) (s : State) : supply (onNvm f s) = supply s := rfl
@[simp] theorem supply_onDram (f : Dram → Dram) (s : State) : supply (onDram f s) = supply s := rfl
@[simp] theorem supply_onQos (f : Qos → Qos) (s : State) : supply (onQos f s) = supply s := rfl
@[simp] theorem supply_onMap (f : AddrMap → AddrMap) (s : State) : supply (onMap f s) = supply s := rfl
@[simp] theorem supply_onHa (f : HomeAgents → HomeAgents) (s : State) : supply (onHa f s) = supply s := rfl
@[simp] theorem supply_onSv (f : Sv → Sv) (s : State) : supply (onSv f s) = supply s := rfl
@[simp] theorem supply_addCnt (k n : Nat) (s : State) : supply (addCnt k n s) = supply s := rfl
@[simp] theorem supply_raiseBit (k : RegKind) (i b : Nat) (s : State) : supply (raiseBit k i b s) = supply s := rfl

/-- A fold of what leaves the supply leaves it. -/
theorem supply_foldl {β : Type} {g : State → β → State} (h : ∀ s x, supply (g s x) = supply s) (l : List β) (s : State) :
    supply (l.foldl g s) = supply s := foldl_part supply h l s

theorem supply_foldl_snd {β γ : Type} {g : γ × State → β → γ × State} (h : ∀ p x, supply (g p x).2 = supply p.2) (l : List β) (p : γ × State) :
    supply (l.foldl g p).2 = supply p.2 :=
  List.foldlRecOn (motive := fun x => supply x.2 = supply p.2) l g rfl fun _ hx x _ => (h _ x).trans hx

@[simp] theorem supply_raiseWith (src : Nat) (c : FaultCtx) (a : AlarmCtx) (s : State) : supply (raiseWith src c a s) = supply s := by
  obtain ⟨f, k, h, l, n, e⟩ := raiseWith_eq src c a s
  rw [e]
  rfl

@[simp] theorem supply_raiseTile (t : Nat) (k : TileSrc) (detail : Nat) (s : State) : supply (raiseTile t k detail s) = supply s :=
  supply_raiseWith ..

@[simp] theorem supply_reevaluate (trigger : Nat) (s : State) : supply (reevaluate trigger s) = supply s := by
  unfold reevaluate
  split <;> simp

/-! Poison and lost directory entries (R61, R120). -/

@[simp] theorem supply_addPoison (dpa len : Nat) (s : State) : supply (addPoison dpa len s) = supply s := by
  unfold addPoison
  dsimp only
  split
  · rfl
  · split <;> simp

@[simp] theorem supply_lostEntry (line : Nat) (s : State) : supply (lostEntry line s) = supply s := by
  unfold lostEntry
  split
  · split <;> simp
  · rfl

@[simp] theorem supply_lostWord (line : Nat) (s : State) : supply (lostWord line s) = supply s := by
  simp [lostWord]

/-! Programs and stripe work (R194, R202, R203). -/

@[simp] theorem supply_setSlot (t frame j : Nat) (v : Option ASlot) (s : State) : supply (setSlot t frame j v s) = supply s := supply_onNvm ..
@[simp] theorem supply_setWork (w : Nat) (v : Option Work) (s : State) : supply (setWork w v s) = supply s := supply_onNvm ..
@[simp] theorem supply_newId (s : State) : supply (newId s).2 = supply s := supply_onNvm ..
@[simp] theorem supply_onNl (n : Nat) (f : NLink → NLink) (s : State) : supply (onNl n f s) = supply s := supply_onNvm ..
@[simp] theorem supply_nlSubmit (n : Nat) (q : NReq) (s : State) : supply (nlSubmit n q s) = supply s := supply_onNl ..
@[simp] theorem supply_markStale (t g a : Nat) (s : State) : supply (markStale t g a s) = supply s := supply_onNvm ..
@[simp] theorem supply_setArrived (kind t frame i : Nat) (v : Option Bytes) (n : Nat) (medium : Bool) (s : State) :
    supply (setArrived kind t frame i v n medium s) = supply s := supply_onNvm ..
@[simp] theorem supply_markDue (n pkg b : Nat) (s : State) : supply (markDue n pkg b s) = supply s := supply_onNvm ..

@[simp] theorem supply_program (n pkg chunk : Nat) (body : Bytes) (use : NUse) (s : State) : supply (program n pkg chunk body use s) = supply s := by
  simp [program]

@[simp] theorem supply_pumpWork (w : Nat) (s : State) : supply (pumpWork w s) = supply s := by
  unfold pumpWork
  split
  · rfl
  · refine supply_foldl (fun s e => ?_) _ s
    split
    · split <;> simp
    · dsimp only
      split
      · rfl
      · split <;> simp

@[simp] theorem supply_gotChunk (w pos : Nat) (v : Option (Bytes × Bool)) (s : State) : supply (gotChunk w pos v s) = supply s := by
  unfold gotChunk
  split <;> simp

@[simp] theorem supply_readWork (w pos n a : Nat) (s : State) : supply (readWork w pos n a s) = supply s := by
  unfold readWork
  dsimp only
  split
  · simp
  · split <;> simp

@[simp] theorem supply_advanceDestage (w : Nat) (s : State) : supply (advanceDestage w s) = supply s := by
  unfold advanceDestage
  split
  · split <;> simp
  · rfl

@[simp] theorem supply_startDestage (t g a : Nat) (s : State) : supply (startDestage t g a s) = supply s := by
  unfold startDestage
  dsimp only
  split
  · rfl
  · rw [supply_foldl fun s q => by split <;> simp]
    exact supply_foldl (fun s j => by split <;> simp) _ s

@[simp] theorem supply_destage (t g a : Nat) (s : State) : supply (destage t g a s) = supply s := by
  simp [destage]

@[simp] theorem supply_destageFull (t g a : Nat) (s : State) : supply (destageFull t g a s) = supply s := by
  unfold destageFull
  split <;> simp

/-! Writes to DRAM (R157–R161). -/

@[simp] theorem supply_onSub (d : Nat) (f : SubCh → SubCh) (s : State) : supply (onSub d f s) = supply s := supply_onDram ..
@[simp] theorem supply_onDimm (t c : Nat) (f : DimmCh → DimmCh) (s : State) : supply (onDimm t c f s) = supply s := supply_onDram ..

@[simp] theorem supply_wake (d : Nat) (s : State) : supply (wake d s) = supply s := by
  unfold wake
  dsimp only
  split <;> simp

@[simp] theorem supply_payRfm (d : Nat) (s : State) : supply (payRfm d s) = supply s :=
  supply_foldl (fun s e => by simp [rfmBank]) _ s

@[simp] theorem supply_access (t f d : Nat) (s : State) : supply (access t f d s) = supply s := by
  unfold access
  dsimp only
  split <;> simp

@[simp] theorem supply_issueWrite (d : Nat) (r : DrReq) (s : State) : supply (issueWrite d r s) = supply s := by
  simp [issueWrite, drIssue]

@[simp] theorem supply_drainFrom (d n k done : Nat) (s : State) : supply (drainFrom d n k done s) = supply s := by
  induction k generalizing done s with
  | zero => rfl
  | succ k ih =>
    unfold drainFrom
    dsimp only
    split
    · rfl
    split
    · simp
    split
    · simp
    · simp [ih]

@[simp] theorem supply_turn (d : Nat) (s : State) : supply (turn d s) = supply s := by
  unfold turn
  dsimp only
  split
  · rfl
  split
  · split <;> simp [drainTo]
  · split <;> simp [drainTo]

@[simp] theorem supply_drWrite (t f : Nat) (r : Rec) (prio : Nat) (s : State) : supply (drWrite t f r prio s) = supply s := by
  unfold drWrite
  split
  · rfl
  · dsimp only
    split
    · rfl
    · split <;> simp

/-! Absorption slots (R201). -/

@[simp] theorem supply_markHigh (t : Nat) (s : State) : supply (markHigh t s) = supply s := by
  unfold markHigh
  split <;> simp

@[simp] theorem supply_absStore (t frame i : Nat) (r : Rec) (prio : Nat) (s : State) : supply (absStore t frame i r prio s) = supply s := by
  unfold absStore
  dsimp only
  rw [supply_markHigh, supply_destageFull, supply_onNvm]
  split <;> simp

@[simp] theorem supply_openSlot (t frame i : Nat) (s : State) : supply (openSlot t frame i s) = supply s := by
  unfold openSlot
  split <;> simp

@[simp] theorem supply_absWrite (t frame i : Nat) (r : Rec) (prio : Nat) (s : State) : supply (absWrite t frame i r prio s) = supply s := by
  unfold absWrite
  split <;> simp

@[simp] theorem supply_poisonChunk (t frame j n : Nat) (s : State) : supply (poisonChunk t frame j n s) = supply s := by
  unfold poisonChunk
  dsimp only
  rw [supply_raiseWith]
  refine supply_foldl (fun s i => ?_) _ s
  split
  · rfl
  · split <;> simp

/-! Reconstructions and what their end delivers (R206–R209). -/

@[simp] theorem supply_startRecon (t g a pos : Nat) (cont : NReq) (reprog : Bool) (s : State) : supply (startRecon t g a pos cont reprog s).2 = supply s := by
  unfold startRecon
  dsimp only
  rw [supply_foldl fun s p => by split <;> simp]
  simp

@[simp] theorem supply_advanceRebuild (w : Nat) (s : State) : supply (advanceRebuild w s) = supply s := by
  unfold advanceRebuild
  split
  · split
    · dsimp only
      split
      · simp
      · split <;> simp
    · rfl
  · rfl

@[simp] theorem supply_copyChunk (w off : Nat) (b : Bytes) (s : State) : supply (copyChunk w off b s) = supply s := by
  unfold copyChunk
  split <;> simp

@[simp] theorem supply_refreshFix (n pkg chunk : Nat) (b : Bytes) (s : State) : supply (refreshFix n pkg chunk b s).2 = supply s := by
  unfold refreshFix
  extract_lets +onlyGivenNames t
  split
  · rfl
  extract_lets +onlyGivenNames x
  split
  · rfl
  extract_lets +onlyGivenNames a pos
  split
  · rfl
  extract_lets +onlyGivenNames frame j own
  clear_value own
  split
  · rfl
  refine supply_foldl_snd (fun acc i => ?_) _ _
  extract_lets +onlyGivenNames k fold c
  split
  · rfl
  extract_lets +onlyGivenNames out s1
  dsimp only [s1]
  split
  · rfl
  rw [supply_raiseWith]
  split
  · split <;> simp
  · simp

@[simp] theorem supply_deliver (q : NReq) (n t : Nat) (b : Bytes) (s : State) : supply (deliver q n t b s) = supply s := by
  unfold deliver
  split <;> simp

@[simp] theorem supply_deliverLost (q : NReq) (n t frame j : Nat) (data : Bool) (s : State) : supply (deliverLost q n t frame j data s) = supply s := by
  unfold deliverLost
  dsimp only
  split
  · simp
  · split
    · split <;> simp
    · rfl
  · simp

@[simp] theorem supply_repairChunk (k : Work) (b : Bytes) (s : State) : supply (repairChunk k b s) = supply s := by
  unfold repairChunk
  split
  · rfl
  · dsimp only
    rw [supply_markDue, supply_addCnt]
    split <;> simp

@[simp] theorem supply_finishRecon (w : Nat) (s : State) : supply (finishRecon w s) = supply s := by
  unfold finishRecon
  split
  · dsimp only
    split
    · simp
    · split
      · rw [supply_deliver]
        split <;> simp
      · rw [supply_deliverLost]
        split <;> simp
  · rfl

@[simp] theorem supply_advanceRecon (w : Nat) (s : State) : supply (advanceRecon w s) = supply s := by
  unfold advanceRecon
  split
  · split
    · rfl
    split
    · split
      · simp
      · dsimp only
        split
        · split <;> simp
        · simp
    · simp
  · rfl

@[simp] theorem supply_reconFor (n : Nat) (q : NReq) (raw : Option Bytes) (reprog : Bool) (s : State) : supply (reconFor n q raw reprog s) = supply s := by
  unfold reconFor
  dsimp only
  split
  · split
    · split <;> simp
    · rfl
  · simp
  · split
    · rfl
    · split <;> simp

/-! A link, a group and a DIMM channel leave service (R178, R192, R208, R209). -/

@[simp] theorem supply_loseGroup (t g : Nat) (s : State) : supply (loseGroup t g s) = supply s := by
  unfold loseGroup
  split <;> simp

@[simp] theorem supply_dropReqs (n : Nat) (s : State) : supply (dropReqs n s) = supply s := by
  unfold dropReqs
  dsimp only
  rw [supply_foldl, supply_onNl]
  intro s q
  split
  · simp
  · simp
  · split <;> simp
  · rfl

@[simp] theorem supply_endLinkWork (n : Nat) (s : State) : supply (endLinkWork n s) = supply s := by
  simp [endLinkWork, unlockLines]

@[simp] theorem supply_restartDestages (t g : Nat) (s : State) : supply (restartDestages t g s) = supply s := by
  unfold restartDestages
  dsimp only
  rw [supply_foldl fun s e => supply_destage ..]
  refine supply_foldl (fun s e => ?_) _ s
  rw [supply_foldl fun s j => by split <;> simp]
  simp

theorem supply_nlDown (n : Nat) (why : NlReason) (code : Nat) (s : State) : supply (nlDown n why code s) = supply s := by
  unfold nlDown
  extract_lets +onlyGivenNames l
  split
  · rfl
  extract_lets +onlyGivenNames t s1 s2 g s3 cut s4
  have h2 : supply s2 = supply s := by simp [s2, s1]
  have h3 : supply s3 = supply s := by
    rw [← h2]
    simp only [s3]
    split
    · rfl
    split
    · rfl
    split
    · simp
    · split <;> simp
  have h4 : supply s4 = supply s := by simp [s4, h3]
  split
  · exact h4
  · rw [pumpRecon, supply_foldl fun s e => supply_advanceRecon .., pumpAll, supply_foldl fun s e => supply_pumpWork ..,
      supply_foldl fun s a => supply_destageFull .., supply_restartDestages, h4]

@[simp] theorem supply_loseNvmTile (t : Nat) (s : State) : supply (loseNvmTile t s) = supply s := by
  unfold loseNvmTile
  rw [supply_foldl fun s l => supply_nlDown ..]
  exact supply_foldl (fun s g => by split <;> simp) _ s

theorem supply_loseSlots (t d : Nat) (s : State) : supply (loseSlots t d s) = supply s := by
  refine supply_foldl (fun s e => ?_) _ s
  dsimp only
  split
  · rfl
  · rw [supply_raiseTile]
    have poisoned (frame j : Nat) : supply ((List.range 4).foldl (fun s i =>
        if e.2.mask.getLsbD i then
          let s1 := onDram (fun x => { x with recs := Table.set {} x.recs (recKey t (slotF s t e.2 i)) (lostRec s t frame (4 * j + i)) }) s
          match nvmPage s t frame with | some p => lostWord (64 * p + (4 * j + i)) s1 | none => s1
        else s) s) = supply s := by
      refine supply_foldl (fun s i => ?_) _ s
      split
      · dsimp only
        split <;> simp
      · rfl
    split
    · rw [supply_setSlot]
      exact poisoned ..
    · rw [supply_destage]
      exact poisoned ..

theorem supply_loseChannel (t c : Nat) (why : SubReason) (code : Nat) (s : State) : supply (loseChannel t c why code s) = supply s := by
  unfold loseChannel
  dsimp only
  split
  · rfl
  · simp [supply_loseSlots]

@[simp] theorem supply_loseDimms (t g : Nat) (s : State) : supply (loseDimms t g s) = supply s :=
  supply_foldl (fun _ _ => supply_loseChannel ..) _ s

end Sys2Proof.Machine
end

section
/-!
The supervisor's power path (O10–O14): what its events leave of the state, a channel's fault, and the commands' laws.
-/
namespace Sys2Proof.Machine

/-! The power channels. -/

@[simp] theorem getChan_onChan_same (e : Nat) (f : Chan → Chan) (s : State) : getChan (onChan e f s) e = f (getChan s e) := Table.get_mod_same ..

theorem getChan_onChan_other {e i : Nat} (h : i ≠ e) (f : Chan → Chan) (s : State) : getChan (onChan e f s) i = getChan s i :=
  Table.get_mod_other _ _ _ _ _ h

/-- An SV event is a raise and a record (R377). -/
theorem powerEvent_eq (ch : Nat) (src : SvSrc) (detail : Nat) (s : State) : ∃ f k h l n,
    powerEvent ch src detail s = { s with faults := f, cry := k, host := h, log := l, cnt := n } := by
  obtain ⟨f, k, h, l, n, e⟩ := raiseWith_eq (svSrc src) { detail := BitVec.ofNat 32 detail } {} s
  unfold powerEvent powerRecord raiseSv
  rw [e, logSubmit_parts]
  exact ⟨_, _, _, _, _, rfl⟩

@[simp] theorem getChan_powerEvent (ch : Nat) (src : SvSrc) (detail : Nat) (s : State) (i : Nat) :
    getChan (powerEvent ch src detail s) i = getChan s i := by
  obtain ⟨f, k, h, l, n, e⟩ := powerEvent_eq ch src detail s
  rw [e]
  rfl

@[simp] theorem powerEvent_rst (ch : Nat) (src : SvSrc) (detail : Nat) (s : State) : (powerEvent ch src detail s).rst = s.rst := by
  obtain ⟨f, k, h, l, n, e⟩ := powerEvent_eq ch src detail s
  rw [e]

@[simp] theorem powerEvent_time (ch : Nat) (src : SvSrc) (detail : Nat) (s : State) : (powerEvent ch src detail s).time = s.time := by
  obtain ⟨f, k, h, l, n, e⟩ := powerEvent_eq ch src detail s
  rw [e]

/-- Step 7 is reached where every tile's rails are good (R373). -/
theorem reachStep7_eq (s : State) : reachStep7 s = { s with sv := { s.sv with step7 := s.sv.step7 || railsAllGood s } } := by
  unfold reachStep7 onSv
  cases railsAllGood s with
  | true => simp
  | false => simp

/-! The channels that fall with HS (R371, R375). -/

theorem foldl_chOff_eq (l : List Nat) (s : State) : ∃ c, l.foldl (fun s e => onChan e (chOff s.time.now) s) s = { s with chans := c } := by
  refine List.foldlRecOn (motive := fun x : State => ∃ c, x = { s with chans := c }) l _ ⟨s.chans, rfl⟩ ?_
  rintro _ ⟨c, rfl⟩ e -
  exact ⟨_, rfl⟩

theorem getChan_foldl_chOff {l : List Nat} (distinct : l.Nodup) (s : State) (i : Nat) :
    getChan (l.foldl (fun s e => onChan e (chOff s.time.now) s) s) i = if i ∈ l then chOff s.time.now (getChan s i) else getChan s i := by
  induction l generalizing s with
  | nil => rfl
  | cons e l ih =>
    obtain ⟨fresh, distinct⟩ := List.nodup_cons.1 distinct
    have same_time : (onChan e (chOff s.time.now) s).time = s.time := rfl
    rw [List.foldl_cons, ih distinct, same_time]
    by_cases h : i = e
    · subst h
      simp [fresh]
    · simp [getChan_onChan_other h, h]

theorem dropBus_eq (s : State) : ∃ c, dropBus s = { s with chans := c, sv := { s.sv with
    railEn := [], railPg := [], tilesGood := 0#8, nvmRails := 0#8, ibcEn := false, ibGood := false, step7 := false } } := by
  obtain ⟨c, h⟩ := foldl_chOff_eq (List.range 32) s
  rw [dropBus, h]
  exact ⟨c, rfl⟩

theorem getChan_dropBus (s : State) (i : Nat) : getChan (dropBus s) i = if i < 32 then chOff s.time.now (getChan s i) else getChan s i := by
  have fallen := getChan_foldl_chOff (List.nodup_range (n := 32)) s i
  simp only [List.mem_range] at fallen
  rw [dropBus, getChan_of_chans (onSv_chans _ _), fallen]

/-! RESET_N driven by SV (R336, R371). -/

theorem driveReset_chans (s : State) : (driveReset s).chans = s.chans := by
  unfold driveReset
  split <;> rfl

theorem driveReset_drives (s : State) : (driveReset s).rst.resetN = true ∧ (driveReset s).rst.driving = true := by
  unfold driveReset
  split
  next asserted => exact ⟨asserted, rfl⟩
  next => exact ⟨rfl, rfl⟩

/-! A channel's fault (R364–R371, R377). -/

/-- The channel turned off, with the events of its fault; what falls with it comes after. -/
def faultEvents (e : Nat) (cause : ChCause) (latch : Bool) (s : State) : State :=
  let f := chanFaultSrc e cause
  let s1 := powerEvent e f.1 f.2 (onChan e (faulted (privileged e) latch cause (chTimer s e) s.time.now) s)
  let s2 := if cause = .damaged ∨ cause = .short then powerEvent e .fetDamaged e s1 else s1
  let s3 := if cause = .overTemp then powerEvent e .fetHot e (onChan e (fun c => { c with hot := true }) s2) else s2
  if privileged e && decide ((getChan s3 e).state = .latched) then powerEvent e .latched e s3 else s3

theorem chanFault_eq (e : Nat) (cause : ChCause) (latch : Bool) (s : State) :
    chanFault e cause latch s = reachStep7 (chanLoss e (faultEvents e cause latch s)) := rfl

section
variable (e : Nat) (cause : ChCause) (latch : Bool) (s : State)

/-- An event changes no channel. -/
theorem getChan_ite_powerEvent (p : Prop) [Decidable p] (ch : Nat) (src : SvSrc) (detail : Nat) (s : State) (i : Nat) :
    getChan (if p then powerEvent ch src detail s else s) i = getChan s i := by
  split
  · exact getChan_powerEvent ..
  · rfl

theorem getChan_faultEvents : getChan (faultEvents e cause latch s) e =
    { faulted (privileged e) latch cause (chTimer s e) s.time.now (getChan s e) with hot := (getChan s e).hot || decide (cause = .overTemp) } := by
  unfold faultEvents
  dsimp only
  rw [getChan_ite_powerEvent]
  split
  next hot => simp only [getChan_powerEvent, getChan_onChan_same, getChan_ite_powerEvent, hot, decide_true, Bool.or_true]
  next cool =>
    simp only [getChan_ite_powerEvent, getChan_powerEvent, getChan_onChan_same, cool, decide_false, Bool.or_false]
    rfl

theorem getChan_faultEvents_other {i : Nat} (h : i ≠ e) : getChan (faultEvents e cause latch s) i = getChan s i := by
  unfold faultEvents
  dsimp only
  rw [getChan_ite_powerEvent]
  split
  · simp only [getChan_powerEvent, getChan_onChan_other h, getChan_ite_powerEvent]
  · simp only [getChan_ite_powerEvent, getChan_powerEvent, getChan_onChan_other h]

theorem faultEvents_rst_time : (faultEvents e cause latch s).rst = s.rst ∧ (faultEvents e cause latch s).time = s.time := by
  have event (p : Prop) [Decidable p] (ch : Nat) (src : SvSrc) (detail : Nat) (x : State) :
      (if p then powerEvent ch src detail x else x).rst = x.rst ∧ (if p then powerEvent ch src detail x else x).time = x.time := by
    split <;> simp
  unfold faultEvents
  dsimp only
  rw [(event ..).1, (event ..).2]
  split
  · rw [powerEvent_rst, powerEvent_time]
    exact ⟨(event ..).1.trans (powerEvent_rst ..), (event ..).2.trans (powerEvent_time ..)⟩
  · exact ⟨(event ..).1.trans (powerEvent_rst ..), (event ..).2.trans (powerEvent_time ..)⟩

end

/-! What falls with a channel (R371). -/

theorem chanLoss_hs (s : State) : chanLoss 32 s = driveReset (dropBus s) := rfl

theorem chanLoss_tile {e : Nat} (h : e < 8) (s : State) : chanLoss e s = driveReset (dropRails e s) := by
  rw [chanLoss, if_neg (by omega), if_pos h]

/-- The loss of a DIMM or NVM channel takes down no channel and no tile. -/
theorem supply_chanLoss {e : Nat} (h : 8 ≤ e) (h' : e < 32) (s : State) : supply (chanLoss e s) = supply s := by
  rw [chanLoss, if_neg (by omega), if_neg (by omega)]
  split
  · exact supply_loseDimms ..
  · rw [supply_loseNvmTile, supply_onSv]

theorem chanLoss_chans {e : Nat} (h : e < 32) (s : State) : (chanLoss e s).chans = s.chans := by
  by_cases tile : e < 8
  · rw [chanLoss_tile tile, driveReset_chans]
    rfl
  · exact congrArg Prod.fst (supply_chanLoss (Nat.le_of_not_lt tile) h s)

/-- The channel at fault itself is not among those that fall with it. -/
theorem getChan_chanLoss_self {e : Nat} (h : e < 33) (s : State) : getChan (chanLoss e s) e = getChan s e := by
  by_cases hs : e = 32
  · subst hs
    rw [chanLoss_hs, getChan_of_chans (driveReset_chans _), getChan_dropBus]
    rfl
  · exact getChan_of_chans (chanLoss_chans (by omega) s) e

/-- Settles O11: the channel is what its events leave it, the others what falls with it leaves them. -/
theorem channelFault : Obligations.ChannelFault := by
  intro s e cause latch he
  obtain ⟨rst, time⟩ := faultEvents_rst_time e cause latch s
  have step7 (i : Nat) : getChan (chanFault e cause latch s) i = getChan (chanLoss e (faultEvents e cause latch s)) i := by
    rw [chanFault_eq, reachStep7_eq]
    rfl
  have step7_rst : (chanFault e cause latch s).rst = (chanLoss e (faultEvents e cause latch s)).rst := by rw [chanFault_eq, reachStep7_eq]
  have own : getChan (chanFault e cause latch s) e = _ := (step7 e).trans ((getChan_chanLoss_self he _).trans (getChan_faultEvents e cause latch s))
  rw [own]
  refine ⟨?state, rfl, rfl, ?attempts, rfl, rfl, rfl, rfl, fun i other tile => ?others, fun i hi hs => ?fallen, fun h => ?drives, fun h h' => ?keeps⟩
  case state => simp [faulted]
  case attempts =>
    simp only [faulted, gateDown, Bool.and_eq_true, Bool.not_eq_true', Bool.or_eq_false_iff, Bool.and_eq_false_iff, decide_eq_false_iff_not, not_le]
    cases latch <;> cases privileged e <;> simp
  case others =>
    rw [step7, getChan_of_chans (chanLoss_chans (by omega) _), getChan_faultEvents_other e cause latch s other]
  case fallen =>
    subst hs
    rw [step7, chanLoss_hs, getChan_of_chans (driveReset_chans _), getChan_dropBus, if_pos hi, time, getChan_faultEvents_other 32 cause latch s (by omega)]
  case drives =>
    rw [step7_rst]
    rcases h with rfl | h
    · exact driveReset_drives _
    · rw [chanLoss_tile h]
      exact driveReset_drives _
  case keeps =>
    exact step7_rst.trans ((congrArg Prod.snd (supply_chanLoss h h' _)).trans rst)

end Sys2Proof.Machine
end

section
/-!
The supervisor's commands (O10, O12–O14): feeds, bus and rails, a channel's start and its limits, insertion, telemetry and the power meter.
-/
namespace Sys2Proof.Machine

/-- A command that acts where `p` holds, and otherwise leaves the state. -/
theorem next_of_pos {p : Prop} [Decidable p] (h : p) (a b : State) :
    (.next (if p then a else b) : Host.Outcome State Fault Refusal) = .next a := by rw [if_pos h]

theorem next_of_neg {p : Prop} [Decidable p] (h : ¬p) (a b : State) :
    (.next (if p then a else b) : Host.Outcome State Fault Refusal) = .next b := by rw [if_neg h]

section
variable (s : State)

/-! Feeds and ORing (R334, R361–R363). -/

theorem exec_feedInRange (f : Feed) : exec (.feedInRange f) s = .next { s with sv := orDrive (match f with
    | .a => { s.sv with feedA := true }
    | .b => { s.sv with feedB := true }) } := by
  cases f <;> rfl

/-- The feeds and FETs after feed A, or feed B, has left its range. -/
def feedLostA (s : State) : State := onSv (fun v => orDrive { v with feedA := false }) s
def feedLostB (s : State) : State := onSv (fun v => orDrive { v with feedB := false }) s

theorem exec_feedOutOfRange_a (up : s.sv.feedA = true) : exec (.feedOutOfRange .a) s =
    .next (if s.sv.feedB then powerEvent 33 .feedLost 0 (feedLostA s) else assertPor (feedLostA s)) := by
  change execFeedOutOfRange .a s = _
  simp only [execFeedOutOfRange, up, Bool.not_true, Bool.false_eq_true, if_false]
  rfl

theorem exec_feedOutOfRange_b (up : s.sv.feedB = true) : exec (.feedOutOfRange .b) s =
    .next (if s.sv.feedA then powerEvent 34 .feedLost 1 (feedLostB s) else assertPor (feedLostB s)) := by
  change execFeedOutOfRange .b s = _
  simp only [execFeedOutOfRange, up, Bool.not_true, Bool.false_eq_true, if_false]
  rfl

theorem exec_oringReverse (f : Feed) : exec (.oringReverse f) s = .next { s with sv := orDrive (match f with
    | .a => { s.sv with orRevA := s.sv.orRevA || s.sv.orA }
    | .b => { s.sv with orRevB := s.sv.orRevB || s.sv.orB }) } := by
  cases f <;> rfl

theorem exec_oringReenable (f : Feed) : exec (.oringReenable f) s = .next { s with sv := orDrive (match f with
    | .a => { s.sv with orRevA := false }
    | .b => { s.sv with orRevB := false }) } := by
  cases f <;> rfl

/-! The rails of a tile (R373). -/

/-- A rail that is enabled reads good; with the fifth the tile's rails are good. -/
theorem exec_trailPgGood {t : TileId} {k : Fin 5} (enabled : (Table.get 0#5 s.sv.railEn t.val).getLsbD k.val = true) {pg : BitVec 5}
    (hpg : pg = setBit (Table.get 0#5 s.sv.railPg t.val) k.val true) : exec (.trailPgGood t k) s = .next (reachStep7 { s with sv := { s.sv with
      railPg := Table.set 0#5 s.sv.railPg t.val pg, tilesGood := if pg = 31#5 then setBit s.sv.tilesGood t.val true else s.sv.tilesGood } }) := by
  subst hpg
  change execTrailPgGood t k s = _
  simp only [execTrailPgGood, enabled, Bool.not_true, Bool.false_eq_true, if_false]
  rfl

end

/-- Settles O10: each event by the feeds, or by what the bus and the rails read. -/
theorem feedsAndRails : Obligations.FeedsAndRails := by
  refine ⟨⟨fun s => ?inA, fun s => ?inB, fun s a b => ?outA, fun s a b => ?outB, fun s a b => ?porA, fun s b a => ?porB, fun s a => ?reverseA,
      fun s b => ?reverseB, fun s => ?againA, fun s => ?againB, fun s off => next_of_neg (by simp [off]) _ _, fun s off => next_of_neg (by simp [off]) _ _⟩,
    fun s en => next_of_pos en _ _, fun s en bad => next_of_pos (by simp [en, bad]) _ _, fun s en good => next_of_pos (by simp [en, good]) _ _, ?good,
    fun s t some_ all more => next_of_pos ⟨some_, all, more⟩ _ _, fun s t late => next_of_pos late _ _, fun s t k was all => ?lost, fun s t k was part => ?dropped,
    fun s up => next_of_neg (by simp [up]) _ _⟩
  case inA => simp [exec_feedInRange, orDrive]
  case inB => simp [exec_feedInRange, orDrive]
  case outA => simp [exec_feedOutOfRange_a s a, b, feedLostA, onSv, orDrive]
  case outB => simp [exec_feedOutOfRange_b s b, a, feedLostB, onSv, orDrive]
  case porA =>
    rw [exec_feedOutOfRange_a s a, b]
    exact ⟨_, rfl, rfl, rfl, rfl, rfl, rfl⟩
  case porB =>
    rw [exec_feedOutOfRange_b s b, a]
    exact ⟨_, rfl, rfl, rfl, rfl, rfl, rfl⟩
  case reverseA => simp [exec_oringReverse, orDrive, a]
  case reverseB => simp [exec_oringReverse, orDrive, b]
  case againA => simp [exec_oringReenable, orDrive]
  case againB => simp [exec_oringReenable, orDrive]
  case good =>
    intro s t k enabled
    refine ⟨_, exec_trailPgGood s enabled rfl, ?_⟩
    rw [reachStep7_eq]
    refine ⟨Table.get_set_same .., fun i other => Table.get_set_other _ _ _ _ _ other, ?_, rfl, rfl⟩
    simp only [Table.get_set_same]
  case lost =>
    change execTrailPgFall t k s = _
    simp only [execTrailPgFall, was, all, Bool.not_true, Bool.false_eq_true, if_false, if_true]
  case dropped =>
    change execTrailPgFall t k s = _
    simp only [execTrailPgFall, was, part, Bool.not_true, Bool.false_eq_true, if_false]
    rfl

/-! How a channel starts, and its limits (R364–R370, R373). -/

theorem exec_channelStart {s : State} {e : ChanId} (may : mayStart s e.val = true) (shorted : Bool) : exec (.channelStart e shorted) s =
    .next (if shorted then chanFault e.val .short true s else onChan e.val (fun c => { c with state := .starting, tested := false }) s) := by
  change execChannelStart e shorted s = _
  cases shorted <;> simp [execChannelStart, may]

theorem exec_damagedFetTest {s : State} {e : ChanId} (starting : (getChan s e.val).state = .starting) (untested : (getChan s e.val).tested = false)
    (mv : Nat) : exec (.damagedFetTest e mv) s =
      .next (if mv < 3000 then chanFault e.val .damaged true s else onChan e.val (fun c => { c with tested := true }) s) :=
  next_of_pos ⟨starting, by simp [untested]⟩ _ _

theorem exec_powerGoodQualified_low {s : State} {e : ChanId} (low : (getChan s e.val).gate10 = false) : exec (.powerGoodQualified e) s = .next s := by
  change execPowerGoodQualified e s = _
  simp [execPowerGoodQualified, low]

/-- A tested channel whose gate stands at 10 V becomes power-good, unless its fault timer has run out by then. -/
theorem exec_powerGoodQualified {s : State} {e : ChanId} (starting : (getChan s e.val).state = .starting) (tested : (getChan s e.val).tested = true)
    (high : (getChan s e.val).gate10 = true) : exec (.powerGoodQualified e) s = .next (if timerReached s e.val then chanFault e.val .faultTimer false s
      else { s with
        chans := Table.set {} s.chans e.val { getChan s e.val with state := .powerGood, goodAt := s.time.now },
        sv :=
          if e.val = 32 then { s.sv with ibcEn := true }
          else if e.val < 8 then { s.sv with railEn := Table.set 0#5 s.sv.railEn e.val 1#5 }
          else if 24 ≤ e.val then { s.sv with nvmRails := setBit s.sv.nvmRails (e.val - 24) true }
          else s.sv }) := by
  have goes : ¬¬((getChan s e.val).state = .starting ∧ (getChan s e.val).tested = true ∧ (getChan s e.val).gate10 = true) :=
    not_not_intro ⟨starting, tested, high⟩
  change execPowerGoodQualified e s = _
  simp only [execPowerGoodQualified, goes, if_false]
  split <;> rfl

theorem exec_waitOver {s : State} {c : Instr} {e us : Nat} (law : exec c s = .next (waitOver e us s)) (waits : (getChan s e).state = .retryWait)
    (ended : (getChan s e).offAt + us ≤ s.time.now) : exec c s = .next (onChan e (fun c => { c with state := .off }) s) := by
  rw [law, waitOver, if_pos ⟨waits, ended⟩]

/-- Settles O12: each command in a state of the channel that lets it act. -/
theorem channelCommands : Obligations.ChannelCommands := by
  refine ⟨⟨fun s e may => exec_channelStart may false, fun s e may => exec_channelStart may true, fun s e mv starting untested pass => ?passes,
      fun s e mv starting untested fail => ?damaged, fun s e starting => next_of_pos starting _ _, fun s e starting open_ => next_of_pos ⟨starting, open_⟩ _ _,
      fun s e starting tested high reached => ?late, fun s e starting low => exec_powerGoodQualified_low low, fun s e starting tested high short => ?good⟩,
    fun s e above pulled on => next_of_pos on _ _, fun s e on reached => next_of_pos (by rw [on, reached]; rfl) _ _, fun s e on => next_of_pos on _ _,
    fun s e common waits ended => ?retry, fun s e priv waits ended => ?privileged, fun s e priv good held => ?attempts⟩
  case passes => rw [exec_damagedFetTest starting untested, if_neg (Nat.not_lt.2 pass)]; rfl
  case damaged => rw [exec_damagedFetTest starting untested, if_pos fail]
  case late => rw [exec_powerGoodQualified starting tested high, if_pos reached]
  case good => rw [exec_powerGoodQualified starting tested high, if_neg (by simp [short])]
  case retry => exact exec_waitOver (next_of_neg (by simp [common]) _ _) waits ended
  case privileged => exact exec_waitOver (next_of_pos priv _ _) waits ended
  case attempts => exact next_of_pos (by simp [priv, good, held]) _ _

/-! Insertion and removal (R361, R375). -/

theorem exec_removal {s : State} {opened : BitVec 2} (some_ : opened ≠ 0#2) {s1 : State}
    (h : s1 = { s with sv := { s.sv with presentRaw := s.sv.presentRaw &&& ~~~opened, present := false } }) :
    exec (.removal opened) s = .next (if s.sv.present then onChan 32 (chOff s.time.now) (dropBus (driveReset s1)) else s1) := by
  subst h
  change execRemoval opened s = _
  simp only [execRemoval, some_, if_false]
  rfl

/-- What SV's drive of RESET_N leaves of the power path, the fuse map, the flash and the time. -/
theorem driveReset_rest (s : State) : (driveReset s).sv = s.sv ∧ (driveReset s).fuse = s.fuse ∧
    (driveReset s).flash.bytes = (if s.rst.resetN = true then s.flash.bytes else (flashKept s).bytes) ∧ (driveReset s).time.now = s.time.now := by
  unfold driveReset
  split
  · exact ⟨rfl, rfl, rfl, rfl⟩
  · exact ⟨rfl, rfl, rfl, rfl⟩

/-- Every channel stops as HS and the bus go. -/
theorem getChan_removed (s : State) {e : Nat} (h : e ≤ 32) : getChan (onChan 32 (chOff s.time.now) (dropBus (driveReset s))) e = chOff s.time.now (getChan s e) := by
  obtain ⟨-, -, -, now⟩ := driveReset_rest s
  by_cases hs : e = 32
  · subst hs
    rw [getChan_onChan_same, getChan_dropBus, if_neg (by omega), getChan_of_chans (driveReset_chans s)]
  · rw [getChan_onChan_other hs, getChan_dropBus, if_pos (by omega), getChan_of_chans (driveReset_chans s), now]

/-! Telemetry (R361, R363, R368, R379, log 161). -/

/-- The readings that a sample stores stay. -/
structure SameReadings (v w : Sv) : Prop where
  vinA : w.vinA = v.vinA
  vinB : w.vinB = v.vinB
  tempA : w.tempA = v.tempA
  tempB : w.tempB = v.tempB
  presentRaw : w.presentRaw = v.presentRaw

/-- The heat of an ORing FET changes the FETs, and is an event where it has come. -/
theorem orTemp_eq (x : Feed) (s : State) : ∃ v f k h l n,
    orTemp x s = { s with sv := v, faults := f, cry := k, host := h, log := l, cnt := n } ∧ SameReadings s.sv v := by
  cases x with
  | a =>
    simp only [orTemp]
    split
    · obtain ⟨f, k, h, l, n, e⟩ := powerEvent_eq 33 .fetHot 33 (onSv (fun v => orDrive { v with orHotA := true }) s)
      exact ⟨_, f, k, h, l, n, e, rfl, rfl, rfl, rfl, rfl⟩
    · split
      · exact ⟨_, _, _, _, _, _, rfl, rfl, rfl, rfl, rfl, rfl⟩
      · exact ⟨_, _, _, _, _, _, rfl, rfl, rfl, rfl, rfl, rfl⟩
  | b =>
    simp only [orTemp]
    split
    · obtain ⟨f, k, h, l, n, e⟩ := powerEvent_eq 34 .fetHot 34 (onSv (fun v => orDrive { v with orHotB := true }) s)
      exact ⟨_, f, k, h, l, n, e, rfl, rfl, rfl, rfl, rfl⟩
    · split
      · exact ⟨_, _, _, _, _, _, rfl, rfl, rfl, rfl, rfl, rfl⟩
      · exact ⟨_, _, _, _, _, _, rfl, rfl, rfl, rfl, rfl, rfl⟩

/-- The meter with one more sample. -/
def sampled (s : State) : PowerMeter :=
  { s.meter with samples := inputMw (getChan s 32) :: s.meter.samples, microJ := (s.meter.microJ + inputMw (getChan s 32)) % 1000000 }

theorem meterSample_eq (s : State) : ∃ n, meterSample s = { s with meter := sampled s, cnt := n } := by
  unfold meterSample
  refine List.foldlRecOn (motive := fun x : State => ∃ n, x = { s with meter := sampled s, cnt := n }) _ _ ⟨_, rfl⟩ ?_
  rintro _ ⟨n, rfl⟩ e -
  split <;> exact ⟨_, rfl⟩

/-- A sample is metered, and then the ORing FETs' heat acts. -/
theorem orTemps_meterSample_eq (s : State) : ∃ v f k h l n, orTemp .b (orTemp .a (meterSample s)) =
    { s with sv := v, meter := sampled s, faults := f, cry := k, host := h, log := l, cnt := n } ∧ SameReadings s.sv v := by
  obtain ⟨n, hm⟩ := meterSample_eq s
  obtain ⟨v, f, k, h, l, n, ha, a⟩ := orTemp_eq .a (meterSample s)
  obtain ⟨w, f, k, h, l, n, hb, b⟩ := orTemp_eq .b (orTemp .a (meterSample s))
  rw [ha] at b
  rw [hm] at a ha
  rw [hb, hm, ha]
  exact ⟨w, f, k, h, l, n, rfl, b.vinA.trans a.vinA, b.vinB.trans a.vinB, b.tempA.trans a.tempA, b.tempB.trans a.tempB, b.presentRaw.trans a.presentRaw⟩

/-- The readings of a sample, stored. -/
def storeReadings (m : Telemetry) (s : State) : State :=
  { s with sv := { s.sv with vinA := m.vinA, vinB := m.vinB, tempA := m.tempA, tempB := m.tempB, presentRaw := m.presentRaw } }

theorem exec_telemetrySample {s : State} (m : Telemetry) (fed : s.sv.feedA = true ∨ s.sv.feedB = true) :
    exec (.telemetrySample m) s = .next (m.chans.foldl (fun s p => chTemp p.1.val s) (orTemp .b (orTemp .a (meterSample
      (m.chans.foldl (fun s p => onChan p.1.val (fun c => { c with tel := p.2 }) s) (storeReadings m s)))))) := by
  have goes : (!s.sv.feedA && !s.sv.feedB) = false := by rcases fed with h | h <;> simp [h]
  change execTelemetrySample m s = _
  simp only [execTelemetrySample, goes, Bool.false_eq_true, if_false]
  rfl

/-- A channel that does not conduct is not turned off for heat, and may start again once it has cooled. -/
theorem chTemp_of_idle {s : State} {e : Nat} (idle : conducting (getChan s e) = false) : chTemp e s =
    if (getChan s e).hot && cooled (getChan s e).tel.temp (chOtLimit s e) then onChan e (fun c => { c with hot := false }) s else s := by
  simp only [chTemp, idle, Bool.false_and, Bool.false_eq_true, if_false]

/-- Settles O13: a removal by whether insertion was qualified, a sample with no channel and with one that does not conduct. -/
theorem insertionAndTelemetry : Obligations.InsertionAndTelemetry := by
  refine ⟨fun s fed => next_of_pos (by simpa using fed) _ _, ?removed, ?absent, ?none_, ?one⟩
  case removed =>
    intro s opened some_ inserted
    refine ⟨_, (exec_removal some_ rfl).trans (next_of_pos inserted _ _), ?_⟩
    generalize hs1 : ({ s with sv := { s.sv with presentRaw := s.sv.presentRaw &&& ~~~opened, present := false } } : State) = s1
    obtain ⟨sv, fuse, bytes, now⟩ := driveReset_rest s1
    obtain ⟨resetN, driving⟩ := driveReset_drives s1
    have fallen : ∀ e, e ≤ 32 → getChan (onChan 32 (chOff s.time.now) (dropBus (driveReset s1))) e = chOff s.time.now (getChan s e) := by
      subst hs1
      exact fun e => getChan_removed _
    obtain ⟨c, bus⟩ := dropBus_eq (driveReset s1)
    rw [bus] at fallen ⊢
    subst hs1
    exact ⟨congrArg Sv.present sv, congrArg Sv.presentRaw sv, rfl, rfl, rfl, rfl, rfl, rfl, rfl, resetN, driving, fallen, fuse, bytes⟩
  case absent =>
    intro s opened some_ out
    exact (exec_removal some_ rfl).trans (next_of_neg (by simp [out]) _ _)
  case none_ =>
    intro s m fed no_chans
    obtain ⟨v, f, k, h, l, n, e, same⟩ := orTemps_meterSample_eq (storeReadings m s)
    refine ⟨_, exec_telemetrySample m fed, ?_⟩
    rw [no_chans, List.foldl_nil, List.foldl_nil, e]
    exact ⟨same.vinA, same.vinB, same.tempA, same.tempB, same.presentRaw, rfl, rfl, rfl⟩
  case one =>
    intro s m e x fed one idle
    obtain ⟨v, f, k, h, l, n, eq, same⟩ := orTemps_meterSample_eq (onChan e.val (fun c => { c with tel := x }) (storeReadings m s))
    refine ⟨_, exec_telemetrySample m fed, ?_⟩
    rw [one, List.foldl_cons, List.foldl_nil, List.foldl_cons, List.foldl_nil, eq]
    generalize hu : ({ onChan e.val (fun c => { c with tel := x }) (storeReadings m s) with
      sv := v, meter := _, faults := f, cry := k, host := h, log := l, cnt := n } : State) = u
    have chans : u.chans = (onChan e.val (fun c => { c with tel := x }) (storeReadings m s)).chans := by
      subst hu
      rfl
    have own : getChan u e.val = { getChan s e.val with tel := x } := (getChan_of_chans chans _).trans (getChan_onChan_same ..)
    have others : ∀ i, i ≠ e.val → getChan u i = getChan s i := fun i other => (getChan_of_chans chans i).trans (getChan_onChan_other other ..)
    have limit : chOtLimit u e.val = chOtLimit s e.val := by
      subst hu
      rfl
    rw [chTemp_of_idle (by rw [own]; exact idle), own, limit]
    split
    next cool =>
      obtain ⟨hot, cold⟩ := Bool.and_eq_true_iff.1 cool
      rw [getChan_onChan_same, own, hot, cold]
      exact ⟨rfl, rfl, rfl, fun i other => (getChan_onChan_other other _ u).trans (others i other)⟩
    next warm =>
      rw [own]
      refine ⟨rfl, ?_, rfl, others⟩
      cases hot : (getChan s e.val).hot with
      | false => rfl
      | true =>
        simp only [hot, Bool.true_and, Bool.not_eq_true] at warm
        rw [warm]
        rfl

/-! The power meter and its cap (R333, R379). -/

/-- The mean input power of the window's samples, in mW. -/
def windowMw (s : State) : Nat := s.meter.samples.foldl (· + ·) 0 / s.meter.samples.length

/-- The meter after a window: AVG and PEAK, and no sample. -/
def windowEnded (s : State) : PowerMeter :=
  { s.meter with
    samples := []
    avg := BitVec.ofNat 16 (min (windowMw s / 100) 65535)
    peak := BitVec.ofNat 16 (min (s.meter.samples.foldl max 0 / 1000) 65535) }

section
variable {s : State} (some_ : s.meter.samples ≠ [])
include some_

theorem exec_powerWindow_uncapped (free : powerCap s = 0 ∨ running s = false) : exec .powerWindow s = .next { s with meter := windowEnded s } := by
  have nonempty : s.meter.samples.isEmpty = false := by simpa using some_
  have stops : 1000 * powerCap s = 0 ∨ (!running s) = true := free.imp (by omega) (by simp)
  change execPowerWindow s = _
  simp only [execPowerWindow, nonempty, stops, Bool.false_eq_true, if_false, if_true]
  rfl

theorem exec_powerWindow_capped (cap : powerCap s ≠ 0) (up : running s = true) : exec .powerWindow s = .next { s with meter := { windowEnded s with
    throttle := if 1000 * powerCap s < windowMw s then min 7 (s.meter.throttle + 1) else s.meter.throttle
    lowWindows := if 100 * windowMw s < 95 * (1000 * powerCap s) then s.meter.lowWindows + 1 else 0
    highWindows := if 1000 * powerCap s < windowMw s ∧ s.meter.throttle = 7 then s.meter.highWindows + 1 else 0 } } := by
  have nonempty : s.meter.samples.isEmpty = false := by simpa using some_
  have goes : ¬(1000 * powerCap s = 0 ∨ (!running s) = true) := by simp [cap, up]
  change execPowerWindow s = _
  simp only [execPowerWindow, nonempty, goes, Bool.false_eq_true, if_false, Bool.and_eq_true, decide_eq_true_eq]
  rfl

end

/-- Settles O14: a window by whether a cap is in force, and the two counts of windows. -/
theorem inputPower : Obligations.InputPower := by
  refine ⟨fun s some_ free => exec_powerWindow_uncapped some_ free, fun s some_ cap up => ?capped, fun s cap low => next_of_pos ⟨cap, low⟩ _ _,
    fun s cap high => next_of_pos ⟨cap, high⟩ _ _⟩
  case capped => exact ⟨_, exec_powerWindow_capped some_ cap up, rfl, rfl, rfl, rfl, rfl, rfl, rfl, rfl⟩

end Sys2Proof.Machine
end

section
/-!
The reset commands (O9), and the clocks and block resets (O57).
-/
namespace Sys2Proof.Table

/-- Kept entries read as before, the others as unlisted, for a choice by the key. -/
theorem get_keep {α : Type} (d : α) (p : Nat → Bool) (t : Table α) (k : Nat) :
    get d (keep (fun i _ => p i) t) k = if p k then get d t k else d := by
  induction t with
  | nil => simp [keep, get]
  | cons e t ih =>
    obtain ⟨i, v⟩ := e
    simp only [keep] at ih ⊢
    rw [List.filter_cons]
    by_cases hi : i = k
    · subst hi
      cases hp : p i <;> simp [get, ih, hp]
    · cases p i <;> simp [get, hi, ih]

end Sys2Proof.Table

namespace Sys2Proof.Machine

/-! Reset (R334–R336, R349, R411). -/

/-- With no PERST_N low no port is touched at RESET_N's release. -/
theorem perstAtRelease_of_none {s : State} (high : s.rst.perstLow = 0) : perstAtRelease s = s := by
  have none_low : (List.range (8 * tiles s)).filter (fun p => s.rst.perstLow.getLsbD p) = [] :=
    List.filter_eq_nil_iff.2 fun p _ => by rw [high]; simp
  rw [perstAtRelease, none_low]
  rfl

/-- A reset that finds no rewrite of the option block, or that is asked about a byte beyond it, leaves the byte. -/
theorem get_flashKept (s : State) (a : Nat) : Table.get 0xFF#8 (flashKept s).bytes a =
    if s.time.now < s.flash.rewriteEnd ∧ a < 4096 then 0xFF#8 else Table.get 0xFF#8 s.flash.bytes a := by
  simp only [flashKept]
  by_cases cut : s.time.now < s.flash.rewriteEnd
  · rw [if_pos cut, Table.get_keep 0xFF#8 (fun a => decide (4096 ≤ a))]
    by_cases block : a < 4096
    · simp [cut, block]
    · simp [block, Nat.le_of_not_lt block]
  · simp [cut]

theorem exec_resetNAssert_running {s : State} (supplied : s.rst.por = false) (up : s.rst.resetN = false) :
    exec .resetNAssert s = .next (onRst (fun r => { r with boardLow := true }) (assertReset s)) := by
  change execResetNAssert s = _
  rw [execResetNAssert, supplied, up]
  rfl

theorem exec_resetNAssert_inReset {s : State} (inReset : s.rst.por = true ∨ s.rst.resetN = true) :
    exec .resetNAssert s = .next (onRst (fun r => { r with boardLow := true }) s) := by
  change execResetNAssert s = _
  rw [execResetNAssert]
  split
  · rfl
  · next supplied => rw [if_pos (inReset.resolve_left supplied)]

/-- Settles O9: each reset command in the states that let it act. -/
theorem resetPins : Obligations.ResetPins := by
  refine ⟨fun s a b => next_of_neg (by simp [a, b]) _ _, fun s por fed => next_of_pos (by simpa [por] using fed) _ _,
    fun s inReset => exec_resetNAssert_inReset inReset, fun s supplied up => ⟨_, exec_resetNAssert_running supplied up, ?asserted⟩,
    fun s supplied driving good => next_of_pos (by simp [supplied, driving, good]) _ _, ?release, fun s => perstAtRelease_of_none,
    fun s a => ⟨fun kept => ?kept, fun cut block => ?erased, rfl⟩, fun s => rfl⟩
  case asserted =>
    exact ⟨rfl, rfl, rfl, rfl, rfl, rfl, rfl, rfl, rfl, rfl, rfl, rfl, rfl, rfl, rfl, rfl, rfl, rfl, rfl, rfl, rfl, rfl, rfl, rfl, rfl, rfl, rfl, rfl,
      rfl, rfl, rfl, rfl⟩
  case release =>
    intro s supplied low free
    have goes : (s.rst.por || !s.rst.resetN || s.rst.driving) = false := by simp [supplied, low, free]
    refine ⟨_, rfl, ?_⟩
    change execResetNRelease s = _
    rw [execResetNRelease, goes]
    rfl
  case kept => rw [get_flashKept, if_neg (by omega)]
  case erased => rw [get_flashKept, if_pos ⟨cut, block⟩]

/-! Clocks and block resets (R349, R351, R352). -/

theorem getLsbD_setBit {n : Nat} (w : BitVec n) {i j : Nat} (hj : j < n) (b : Bool) : (setBit w i b).getLsbD j = if j = i then b else w.getLsbD j := by
  cases b with
  | true =>
    rw [getLsbD_setBit_true w hj]
    split <;> simp [*]
  | false =>
    by_cases h : j = i
    · subst h
      simp [setBit, hj]
    · have above : j - i = 0 → j < i := by omega
      by_cases low : j < i
      · simp [setBit, hj, h, low]
      · simp [setBit, hj, h, low, mt above low]

/-- A word set bit by bit reads what each listed bit was set to. -/
theorem getLsbD_foldl_setBit_each {n : Nat} (f : Nat → Bool) (l : List Nat) (w : BitVec n) {j : Nat} (hj : j < n) :
    (l.foldl (fun w b => setBit w b (f b)) w).getLsbD j = if j ∈ l then f j else w.getLsbD j := by
  induction l generalizing w with
  | nil => simp
  | cons i l ih =>
    rw [List.foldl_cons, ih, getLsbD_setBit w hj]
    by_cases listed : j ∈ l
    · simp [listed]
    · by_cases h : j = i <;> simp [listed, h]

theorem blockUp_releaseBlocks (s : State) (t : Nat) {b : Nat} (hb : b < 10) : blockUp (releaseBlocks t s) t b =
    (!bit (regRaw s .rstBlkCtl t) b && !(Table.get 0#10 s.clk.lost t).getLsbD b && (blockUp s t b || clkGood s t (clkBit b))) := by
  change (Table.get 0#10 (Table.set 0#10 s.clk.released t _) t).getLsbD b = _
  rw [Table.get_set_same, getLsbD_foldl_setBit_each _ _ _ hb, if_pos (List.mem_range.2 hb)]
  rfl

theorem blockUp_releaseBlocks_other (s : State) {t u : Nat} (h : u ≠ t) (b : Nat) : blockUp (releaseBlocks t s) u b = blockUp s u b :=
  congrArg (BitVec.getLsbD · b) (Table.get_set_other _ _ _ _ _ h)

theorem clkGood_set (s : State) (t b : Nat) {c : Nat} (hc : c < 7) :
    (Table.get 0#7 (Table.mod 0#7 s.clk.good t (fun w => setBit w b true)) t).getLsbD c = (clkGood s t c || decide (b = c)) := by
  rw [Table.get_mod_same, getLsbD_setBit_true _ hc, clkGood]
  simp only [eq_comm]

section
variable {s : State} {t : TileId} (up : running s = true) (has : t.val < s.fuse.tiles)
include up has

theorem exec_clockGood (b : Fin 7) (railed : s.sv.tilesGood.getLsbD t.val = true) : exec (.clockGood t b) s = .next (releaseBlocks t.val { s with
    clk := { s.clk with good := Table.mod 0#7 s.clk.good t.val (fun w => setBit w b.val true)
                        running := setBit s.clk.running t.val (s.clk.running.getLsbD t.val ||
                          ((clkGood s t.val 6 || decide (b.val = 6)) && (clkGood s t.val 5 || decide (b.val = 5)))) } }) := by
  have goes : (!running s || !hasTile s t.val || !s.sv.tilesGood.getLsbD t.val) = false := by simp [up, railed, hasTile, tiles, has]
  rw [← clkGood_set s t.val b.val (show 6 < 7 by omega), ← clkGood_set s t.val b.val (show 5 < 7 by omega)]
  change execClockGood t b s = _
  rw [execClockGood, goes]
  rfl

/-- The blocks of a lost clock are those that had been released on it. -/
theorem exec_clockGoodLost (b : Fin 7) (was : clkGood s t.val b.val = true) {hit : List Nat}
    (h : hit = (bitsOf 10 (Table.get 0#10 s.clk.released t.val)).filter (fun k => clkBit k = b.val)) {s1 s2 : State}
    (h1 : s1 = hit.foldl (fun s k => loseBlock t.val k s) s)
    (h2 : s2 = { s1 with clk := { s1.clk with
      good := Table.mod 0#7 s1.clk.good t.val (fun w => setBit w b.val false)
      released := Table.mod 0#10 s1.clk.released t.val (fun w => hit.foldl (fun w i => setBit w i false) w)
      lost := Table.mod 0#10 s1.clk.lost t.val (fun w => hit.foldl (fun w i => setBit w i true) w) } }) :
    exec (.clockGoodLost t b) s =
      .next (if hit.isEmpty then s2 else hit.foldl (fun s k => raiseTile t.val .rstClkLost k s) (raiseBit .rstClkSts t.val 7 s2)) := by
  have goes : (!running s || !hasTile s t.val || !clkGood s t.val b.val) = false := by simp [up, was, hasTile, tiles, has]
  subst h2 h1 h
  change execClockGoodLost t b s = _
  rw [execClockGoodLost, goes]
  rfl

theorem exec_clockGoodTimeout (calm : midnight s = false) (stage : s.dawn.stage = 0) (stopped : tileRuns s t.val = false) :
    exec (.clockGoodTimeout t) s = .next (if s.dawn.failed = false then failDawn 8 (decide (t.val = 0)) s
      else if t.val = 0 then { s with dawn := { s.dawn with recovery := false } } else s) := by
  have goes : (running s && !midnight s && hasTile s t.val && decide (s.dawn.stage = 0) && !tileRuns s t.val) = true := by
    simp [up, calm, stage, stopped, hasTile, tiles, has]
  change execClockGoodTimeout t s = _
  rw [execClockGoodTimeout, goes]
  simp only [Bool.not_true, Bool.false_eq_true, if_false, Bool.not_eq_true']
  rfl

end

/-- Settles O57: a release bit by bit, and each clock command by what it finds. -/
theorem clocksAndReleases : Obligations.ClocksAndReleases := by
  refine ⟨fun s a t v opened => next_of_pos opened _ _, fun s a t v closed => next_of_neg (by simp [closed]) _ _, fun s t b hb => ?released,
    fun s t => ⟨rfl, fun u b h => blockUp_releaseBlocks_other s h b⟩, fun s t b up has railed => exec_clockGood up has b railed,
    fun s t b hit up has was h => ⟨fun idle => ?idle, fun s1 s2 some_ h1 h2 => ?lost⟩, fun s t up has calm stage sound stopped => ?fails,
    fun s t up has calm stage failed stopped => ?second⟩
  case released =>
    rw [blockUp_releaseBlocks s t hb]
    simp [and_assoc]
  case idle =>
    rw [exec_clockGoodLost up has b was h rfl rfl, idle]
    rfl
  case lost =>
    rw [exec_clockGoodLost up has b was h h1 h2, if_neg (by simpa using some_)]
  case fails => rw [exec_clockGoodTimeout up has calm stage stopped, if_pos sound]
  case second => rw [exec_clockGoodTimeout up has calm stage stopped, if_neg (by simp [failed])]

end Sys2Proof.Machine
end
